-- ==== Sys2Proof/Word.lean ====
section
/-! DEFINITION. The word types of the Merair package and sparse tables: the plainest data everything else is made of. -/

namespace Sys2Proof

/-- A byte of a frame, an image, a ring entry or a memory (R13: every multi-byte field is little-endian). -/
abbrev Byte := BitVec 8

/-- A 64-bit word: a register, a token lane, a stamp (registers are 64 bits wide). -/
abbrev W64 := BitVec 64

/-- A string of bytes, the byte at the lowest offset first. -/
abbrev Bytes := List Byte

/-- A sparse table: keys with their entries, keys rising, no key twice. -/
abbrev Tbl (α : Type) := List (Nat × α)

end Sys2Proof
end

