-- ==== Sys2Proof/Syntax.lean ====
section
/-! DEFINITION. The commands of the package, one constructor per row of the spec's table of operations and events.
Operands name units (dies, tiles, cells, ports, rings, channels) and carry what comes from outside the package: flits,
data of host reads, readings of sensors, outcomes of self-tests. Cell instructions name a cell: the command is the
execution of that instruction as the next one of the cell's running pass. -/

namespace Sys2Proof

/-- The commands. -/
inductive Instr where
  /-- R617: A write to a register field with no behaviour of its own takes effect field by field under its class, or is refused and logs WRITE_WHILE_RUNNING. -/
  | registerWrite (fn off len data : Nat)
  /-- R50: A die-window access without response for 1 ms ends with Completer Abort or a dropped write and a CORRECTED entry. -/
  | accessTimeout (fn off : Nat) (write : Bool)
  /-- R81: A die's view of G is raised when the master's new G reaches it over Chain. -/
  | gViewUpdate (die : Nat)
  /-- R73: A source silent for SILENCE_TIMEOUT fc moves from LIVE to STALLED and logs a CORRECTED entry. -/
  | silenceTimeout (src : Nat)
  /-- R79: The pacer horizon rises by 1 every PACER_DIV fc while PACER_EN is 1. -/
  | pacerTick
  /-- R79: A write to BMK_ADVANCE raises the pacer horizon to the written value if higher. -/
  | bmkAdvance (target : Nat)
  /-- R101: A write of 1 to BMK_STAKE_CTL.ARMED disarms the stake. -/
  | stakeDisarm (n : Nat)
  /-- R207: The slice sends a HORIZON token carrying its latest view of G to a traverse, at most one per 16 fc. -/
  | horizonTokenSend (trav die : Nat)
  /-- R94: The master broadcasts PREPARE when G has crossed a boundary and EPOCH_MIN_GAP allows. -/
  | epochSwitchStart
  /-- R94: A die receiving PREPARE stops dispatch, lets running passes finish and answers READY. -/
  | prepare (die : Nat)
  /-- R94: The master receives a die's READY and broadcasts COMMIT once every die has answered. -/
  | ready (die : Nat)
  /-- R94: A die receiving COMMIT applies pending E-class writes, partition changes and plat activations, snapshots and resumes dispatch. -/
  | commitApply (die : Nat)
  /-- R123: Setting TRN_PORT_CTL.ENABLE moves a DISABLED port to DETECT, unless refused. -/
  | portEnable (fn port : Nat)
  /-- R122: Clearing ENABLE sends LINK_RESET flits from UP and enters DISABLED, detaching sources with DETACH_PORT. -/
  | portDisable (port : Nat)
  /-- R119: A write of 1 to TRN_PORT_CTL.LINK_RESET in UP resets the link with RESET_CAUSE 0. -/
  | linkReset (port : Nat)
  /-- R119: Signal on all 8 lanes for 2,400 fc moves the port from DETECT to TRAIN. -/
  | signalDetect (port : Nat)
  /-- R119: All lanes adapt and the port moves from TRAIN to LOCK. -/
  | lanesAdapted (port polarity : Nat) (reversed : Bool)
  /-- R119: A lane fails in TRAIN and the port returns to DETECT, counting TRAIN_FAILS. -/
  | laneFail (port : Nat)
  /-- R119: TRAIN_TIMEOUT expires and the port returns to DETECT. -/
  | trainTimeout (port : Nat)
  /-- R119: Eight consecutive pairs with valid markers move the port from LOCK to INIT. -/
  | lockAcquired (port : Nat)
  /-- R119: 100 µs without lock or without UP returns the port to DETECT. -/
  | lockTimeout (port : Nat)
  /-- R120: Three INIT LC flits received and three sent move the port to UP with starting credits and sequence values. -/
  | initComplete (port : Nat)
  /-- R121: 64 pairs with uncorrectable codewords or 4 failed markers take the port from UP to DETECT and detach its sources. -/
  | lossOfLock (port : Nat)
  /-- R119: The RESET state's electrical idle time elapses and the port enters DETECT. -/
  | resetIdleDone (port : Nat)
  /-- R117: A received DATA flit is checked by CRC and FSEQ, appended to its VC stream or causes a RETRY. -/
  | dataFlitReceive (port fecCorrected fecUncorrected : Nat) (flit : Bytes)
  /-- R111: A received LC flit updates credits and acknowledgements and acts on INIT, RETRY or LINK_RESET. -/
  | lcFlitReceive (port fecCorrected fecUncorrected : Nat) (flit : Bytes)
  /-- R117: While a VC waits for its expected FSEQ, the receiver repeats the RETRY request every 1,024 slots. -/
  | retryRepeat (port : Nat)
  /-- R116: The receiver sends an LC flit carrying the ACK fields of all VCs at least every 128 slots. -/
  | ackSend (port : Nat)
  /-- R129: A complete VC0 frame is checked in the order of R129 and dropped with a NAK at the first failure. -/
  | frameCheck (port : Nat)
  /-- R131: A checked frame is accepted when the splitter and the pace allow, returning credits and splitting tokens. -/
  | frameAccept (port : Nat)
  /-- R135: A HELLO frame is answered with NAKs for refused indices and a HELLO_ACK granting sources. -/
  | hello (port : Nat)
  /-- R139: A BYE frame closes its source now or once LAST_SEQ is reached, with BYE_ACK. -/
  | bye (port : Nat)
  /-- R139: BYE_WAIT fc after a BYE, a source still waiting for LAST_SEQ is closed. -/
  | byeWaitExpiry (src : Nat)
  /-- R148: A queued NAK is sent on VC1 when credit allows; the oldest is discarded when a 65th is due. -/
  | nakSend (port : Nat)
  /-- R144: A queued TRIGGER frame is sent on VC2 when credit allows. -/
  | triggerSend (port : Nat)
  /-- R150: During a package halt each UP port sends a HALT frame every 100 µs. -/
  | haltFrameSend (port : Nat)
  /-- R155: A package sends a TRACE_STAMP with its G on each federation port at least every 10 µs while G has risen. -/
  | fedStampSend (port : Nat)
  /-- R156: A token on a federation route is sent as a FED_TOKEN frame on the lowest UP port reaching the package. -/
  | fedTokenSend (src entry copy : Nat)
  /-- R184: The LOAD_PLAT command takes a staging slot after phases A1 to A4 and starts the image fetch. -/
  | loadPlat (ring : Nat)
  /-- R187: The plat image is in its slot and phases B to E begin. -/
  | platFetchDone (slot : Nat) (ok : Bool) (image : Bytes)
  /-- R188: Phases B to E end for a plat, failing it or passing it to Gauntlet admission. -/
  | platCheckDone (slot : Nat)
  /-- R339: The Gauntlet admits or rejects the traverses of one plat in GRAPH order. -/
  | gauntletAdmit (slot : Nat)
  /-- R189: Every shadow bank of a plat is written and ZERO_INIT regions zeroed, and its slot becomes READY. -/
  | preloadDone (slot : Nat)
  /-- R194: Memory of a REPLACE plat's region held by the replaced plat is zeroed before its second COMMIT. -/
  | replaceZeroingDone (slot : Nat)
  /-- R180: UNLOAD_PLAT cancels a staged plat or marks an active plat for removal at the next COMMIT. -/
  | unloadPlat (ring : Nat)
  /-- R307: Each fc the scheduler slice dispatches up to 8 eligible tasks by level, age and cell number. -/
  | taskDispatch (tile : Nat)
  /-- R246: A token taken from an input queue into the matching store fills a slot or forms a task. -/
  | tokenMatch (tile trav : Nat)
  /-- R217: Instruction NOP writes nothing. -/
  | nop (cell : Nat)
  /-- R217: Instruction MOV copies A to D. -/
  | mov (cell : Nat)
  /-- R217: Instruction ADD writes A + B per lane, wrapping or saturating. -/
  | add (cell : Nat)
  /-- R217: Instruction SUB writes A − B per lane. -/
  | sub (cell : Nat)
  /-- R217: Instruction MUL writes the low 64 bits of A × B. -/
  | mul (cell : Nat)
  /-- R217: Instruction MULH writes the high 64 bits of the product. -/
  | mulh (cell : Nat)
  /-- R217: Instruction NEG writes 0 − A. -/
  | neg (cell : Nat)
  /-- R217: Instruction ABS writes the absolute value of A under SGN. -/
  | abs (cell : Nat)
  /-- R217: Instruction MIN writes the lesser of A and B. -/
  | min (cell : Nat)
  /-- R217: Instruction MAX writes the greater of A and B. -/
  | max (cell : Nat)
  /-- R217: Instruction AND writes A and B. -/
  | and (cell : Nat)
  /-- R217: Instruction OR writes A or B. -/
  | or (cell : Nat)
  /-- R217: Instruction XOR writes A xor B. -/
  | xor (cell : Nat)
  /-- R217: Instruction NOT writes not A. -/
  | not (cell : Nat)
  /-- R217: Instruction SHL shifts A left by B[5:0]. -/
  | shl (cell : Nat)
  /-- R217: Instruction SHR shifts A right by B[5:0], arithmetic under SGN. -/
  | shr (cell : Nat)
  /-- R217: Instruction ROL rotates A left by B[5:0]. -/
  | rol (cell : Nat)
  /-- R217: Instruction POPC writes the number of 1 bits of A. -/
  | popc (cell : Nat)
  /-- R217: Instruction CLZ writes the leading zero bits of A. -/
  | clz (cell : Nat)
  /-- R217: Instruction CTZ writes the trailing zero bits of A. -/
  | ctz (cell : Nat)
  /-- R217: Instruction BFX extracts a bit field of A. -/
  | bfx (cell : Nat)
  /-- R217: Instruction BFI inserts the low bits of A into a field of B. -/
  | bfi (cell : Nat)
  /-- R252: Instruction H64 hashes A under seed B. -/
  | h64 (cell : Nat)
  /-- R219: Instruction CMPEQ writes 1 where A equals B. -/
  | cmpeq (cell : Nat)
  /-- R219: Instruction CMPNE writes 1 where A differs from B. -/
  | cmpne (cell : Nat)
  /-- R219: Instruction CMPLT writes 1 where A is less than B under SGN. -/
  | cmplt (cell : Nat)
  /-- R219: Instruction CMPLE writes 1 where A is at most B under SGN. -/
  | cmple (cell : Nat)
  /-- R219: Instruction SEL chooses A or B by C. -/
  | sel (cell : Nat)
  /-- R219: Instruction ISNULL writes 1 where A is null. -/
  | isnull (cell : Nat)
  /-- R219: Instruction MERGE writes A where valid, else B. -/
  | merge (cell : Nat)
  /-- R219: Instruction KEEP keeps lanes of A where C is valid and nonzero. -/
  | keep (cell : Nat)
  /-- R219: Instruction DROP keeps lanes of A where C is not valid and nonzero. -/
  | drop (cell : Nat)
  /-- R220: Instruction RSUM sums the valid lanes of A into lane 0. -/
  | rsum (cell : Nat)
  /-- R220: Instruction RMIN writes the least valid lane of A. -/
  | rmin (cell : Nat)
  /-- R220: Instruction RMAX writes the greatest valid lane of A. -/
  | rmax (cell : Nat)
  /-- R220: Instruction RCNT writes the number of valid lanes of A. -/
  | rcnt (cell : Nat)
  /-- R220: Instruction ROR writes the OR of the valid lanes of A. -/
  | ror (cell : Nat)
  /-- R220: Instruction RFIRST writes the lowest valid lane of A. -/
  | rfirst (cell : Nat)
  /-- R220: Instruction RLAST writes the highest valid lane of A. -/
  | rlast (cell : Nat)
  /-- R221: Instruction FADD32 adds in binary32. -/
  | fadd32 (cell : Nat)
  /-- R221: Instruction FADD64 adds in binary64. -/
  | fadd64 (cell : Nat)
  /-- R221: Instruction FSUB32 subtracts in binary32. -/
  | fsub32 (cell : Nat)
  /-- R221: Instruction FSUB64 subtracts in binary64. -/
  | fsub64 (cell : Nat)
  /-- R223: Instruction FCMP32 tests predicate IMM[2:0] in binary32. -/
  | fcmp32 (cell : Nat)
  /-- R223: Instruction FCMP64 tests predicate IMM[2:0] in binary64. -/
  | fcmp64 (cell : Nat)
  /-- R224: Instruction FKEY32 writes the order key of a binary32 value. -/
  | fkey32 (cell : Nat)
  /-- R224: Instruction FKEY64 writes the order key of a binary64 value. -/
  | fkey64 (cell : Nat)
  /-- R225: Instruction SHUF permutes the lanes of A by B. -/
  | shuf (cell : Nat)
  /-- R225: Instruction COMPACT packs the valid lanes of A to the bottom. -/
  | compact (cell : Nat)
  /-- R225: Instruction BCAST copies one lane of A to every lane. -/
  | bcast (cell : Nat)
  /-- R225: Instruction TAGF writes the tag fields of an operand. -/
  | tagf (cell : Nat)
  /-- R226: Instruction LD loads words from the cell's tile-store bank. -/
  | ld (cell : Nat)
  /-- R226: Instruction ST stores words into the cell's tile-store bank. -/
  | st (cell : Nat)
  /-- R227: Instruction UPD updates tile-store words with a sub-operation and returns the old values. -/
  | upd (cell : Nat)
  /-- R232: Instruction SRQ issues a stack SRAM READ, WRITE or INSERT request. -/
  | srq (cell : Nat)
  /-- R232: Instruction HRQ issues an HBM READ or WRITE request. -/
  | hrq (cell : Nat)
  /-- R236: Instruction EMIT sends A on every route of a port. -/
  | emit (cell : Nat)
  /-- R237: Instruction EMITD sends A to one die along the port's broadcast routes. -/
  | emitd (cell : Nat)
  /-- R312: A waiting output-buffer copy is sent when a place frees in its destination input queue. -/
  | routeCopySend (src entry copy : Nat)
  /-- R313: A Chain token message in the receive buffer is delivered into its destination queue when a place is free. -/
  | chainTokenDeliver (die msg : Nat)
  /-- R234: A request that made no access has its mask-0x00 reply delivered 22 fc after leaving the cell. -/
  | nullReplyDeliver (cell entry : Nat)
  /-- R317: An input queue head waiting STALL_LIMIT fc raises HOLD_STALL and logs a CORRECTED entry. -/
  | holdStall (tile trav : Nat)
  /-- R303: The scan engine issues the next column token of an invocation at the pace and room allowed, then END. -/
  | scanTokenIssue (inv col : Nat) (host : Bytes)
  /-- R287: The sort units finish merging an invocation and the node emits its rows in order. -/
  | sortMergeDone (inv first : Nat)
  /-- R337: Each fc the collector takes up to 4 results round-robin and passes them to destination units. -/
  | collectorTake (tile : Nat)
  /-- R296: The host-buffer writer writes a record, or completes the invocation OUTPUT_FULL when it does not fit. -/
  | hostBufferWrite (port : Nat)
  /-- R295: A TRIG_OUT row drives its pin as a pulse or level. -/
  | trigOutDrive (die : Nat)
  /-- R295: A pin pulse ends after PULSE CTL cycles. -/
  | trigOutPulseEnd (pin : Nat)
  /-- R620: An invocation whose END has reached the collector and whose work has drained comes to its end and frees its partial sets. -/
  | invocationEnd (inv : Nat)
  /-- R250: A source stream of a traverse ends after its SOURCE_LOST drains, freeing its matching entries. -/
  | streamEnd (trav src : Nat)
  /-- R258: A write to FAB_IND_DATA writes tile store when allowed, or is ignored and logged. -/
  | fabIndDataWrite (fn tile data : Nat)
  /-- R258: A read of FAB_IND_DATA returns the addressed word and advances OFFSET under AUTO_INC. -/
  | fabIndDataRead (fn tile : Nat)
  /-- R351: A stack SRAM channel serves one request from its queue per fc and returns its reply. -/
  | srqServe (die ch ce ue syndrome : Nat)
  /-- R365: A corrected stack SRAM word is written back in the next free write-port slot. -/
  | eccWriteback (die ch : Nat)
  /-- R368: A bond parity error freezes the stack SRAM channel and poisons its queued requests. -/
  | sramParityFreeze (die ch : Nat) (writeData : Bool)
  /-- R369: A write of 1 to SRM_CH_CTL.RESET starts a channel reset and self-test. -/
  | sramChannelReset (die ch : Nat)
  /-- R369: The channel reset ends, returning the channel to RUN or FENCED. -/
  | sramChannelResetDone (die ch : Nat) (pass : Bool)
  /-- R370: Setting SRM_CH_CTL.FENCE fences the channel; clearing it starts a channel reset. -/
  | sramFence (die ch : Nat) (set : Bool)
  /-- R371: The zeroing engine finishes writing zero over a slice. -/
  | sliceZeroingDone (die slice : Nat)
  /-- R372: Every 256 fc each channel scrubs one entry in a free read slot. -/
  | sramScrubRead (die ch ce ue syndrome : Nat)
  /-- R373: An access to SRM_IND_DATA reads or writes a stack SRAM word and advances BYTE under AUTO_INC. -/
  | srmIndDataAccess (fn die : Nat) (write : Bool) (data : Nat)
  /-- R383: The pseudo-channel controller issues the preferred read at a command opportunity. -/
  | hbmReadIssue (stack pc : Nat)
  /-- R383: The controller issues queued writes during a write drain. -/
  | hbmWriteIssue (stack pc : Nat)
  /-- R386: HBM read data returns, corrected, re-read or freezing the pseudo-channel on an uncorrectable error. -/
  | hbmReadReturn (stack pc outcome syndrome : Nat)
  /-- R390: The stack reports a command or address parity error and the pseudo-channel freezes. -/
  | hbmParityError (stack pc : Nat)
  /-- R390: A write-data CRC error is retried and freezes the pseudo-channel after 4 retries. -/
  | hbmWriteCrcError (stack pc : Nat)
  /-- R387: A stack's all-bank refresh window begins on its wall-time grid. -/
  | refreshWindow (stack setting margin : Nat) (ok : Bool)
  /-- R393: A retraining pass of a stack starts every INTERVAL fc. -/
  | retrainPassStart (stack : Nat)
  /-- R392: A write of 1 to HBM_PC_CTL.RESET discards the queues and retrains the pseudo-channel. -/
  | hbmChannelReset (stack pc : Nat)
  /-- R392: The HBM channel reset ends in RUN or FENCED. -/
  | hbmChannelResetDone (stack pc : Nat) (pass : Bool)
  /-- R395: Setting HBM_PC_CTL.FENCE fences the pseudo-channel and invalidates its cache lines. -/
  | hbmFence (stack pc : Nat) (set : Bool)
  /-- R413: An access to HBM_IND_DATA reads or writes a stack word under R381 and R413. -/
  | hbmIndDataAccess (fn die : Nat) (write : Bool) (data : Nat)
  /-- R397: A request to the spill cache hits, or misses and allocates and issues a fill. -/
  | cacheLookup (die parity : Nat)
  /-- R401: A fill sector reaches the cache and is forwarded to its requester. -/
  | fillSectorArrive (die fill : Nat)
  /-- R403: SPC_CMD LOCK locks ways of the spill cache, within the limit of 8. -/
  | lock (fn die ways : Nat)
  /-- R404: SPC_CMD UNLOCK returns ways to allocation. -/
  | unlock (fn die ways : Nat)
  /-- R405: SPC_CMD PRELOAD fills a locked way with a range of lines. -/
  | preload (fn die way : Nat)
  /-- R407: SPC_CMD INVALIDATE discards the lines of a range without writeback. -/
  | invalidate (fn die way : Nat)
  /-- R407: SPC_CMD CLEAN_INVALIDATE writes back and discards the lines of a range. -/
  | cleanInvalidate (fn die way : Nat)
  /-- R408: A range command has treated its last line and its writebacks are queued, and BUSY clears. -/
  | spcCmdDone (die : Nat)
  /-- R409: A write of 0 to SPC_CTL.ENABLE starts a drain of the spill cache. -/
  | cacheDrain (fn die : Nat)
  /-- R409: The drain's last writeback enters its write queue and the cache is DISABLED. -/
  | cacheDrained (die : Nat)
  /-- R409: A write of 1 to SPC_CTL.ENABLE in DISABLED enables the cache empty. -/
  | cacheEnable (fn die : Nat)
  /-- R430: The CDC_COMPRESS command queues a compression job on an engine. -/
  | cdcCompress (ring : Nat)
  /-- R430: The CDC_DECOMPRESS command queues a decompression job on an engine. -/
  | cdcDecompress (ring : Nat)
  /-- R430: A codec engine finishes a job block, advancing IN_DONE and OUT_DONE or stopping the job. -/
  | codecBlockDone (die engine : Nat) (host : Bytes) (hostError : Bool)
  /-- R434: A codec engine decodes the next block of a DECODE column under the output limit. -/
  | decodeBlock (die engine : Nat) (host : Bytes) (hostError : Bool)
  /-- R426: A capture block is compressed and written to the capture region. -/
  | captureBlock (die engine : Nat)
  /-- R443: A doorbell write updates SQ_PI and CQ_CI when accepted and triggers fetching. -/
  | doorbellWrite (fn off len data : Nat)
  /-- R448: A read of submission entries returns and entries with OWN 1 are examined. -/
  | entryReadReturn (ring : Nat) (ok : Bool) (data : Bytes)
  /-- R448: An entry showing OWN 0 is re-read up to 8 times and completes MALFORMED OWNERSHIP after the last. -/
  | entryReread (ring : Nat) (ok : Bool) (data : Bytes)
  /-- R450: The fetcher consumes the entry at CI, flips its ownership and passes the command on. -/
  | entryConsume (ring : Nat)
  /-- R445: The NOP command completes OK. -/
  | nopEntry (ring : Nat)
  /-- R454: The INVOKE command opens an invocation of a ring traverse after its checks. -/
  | invoke (ring : Nat)
  /-- R455: The CANCEL command squashes open invocations of a ring with a TAG. -/
  | cancel (ring : Nat)
  /-- R456: The POST_BUFFER command adds a host buffer to a ring's posted buffers. -/
  | postBuffer (ring : Nat)
  /-- R478: The DMA_XFER command queues a transfer on a channel after its checks. -/
  | dmaXfer (ring : Nat)
  /-- R456: TIMEOUT_FC after its first record, a posted buffer completes OK. -/
  | postBufferTimeout (ring : Nat)
  /-- R460: The completion writer writes an entry at PI, or into the overflow area, dropping twin duplicates. -/
  | completionWrite (port : Nat)
  /-- R462: A slot freed by CQ_CI takes the oldest overflow entry. -/
  | overflowDrain (ring : Nat)
  /-- R467: COAL_FC after the first pending entry, the ring requests an MSI-X message. -/
  | coalesceTimeout (ring : Nat)
  /-- R469: A write of 1 to RING_SQ_CTL.ENABLE checks the context and starts the ring RUNNING. -/
  | sqEnable (fn ring : Nat)
  /-- R471: A write of 0 to a RUNNING submission ring's ENABLE aborts its entries and work. -/
  | sqShutdown (fn ring : Nat)
  /-- R469: A write of 1 to RING_CQ_CTL.ENABLE checks the context and enables the completion ring. -/
  | cqEnable (fn ring : Nat)
  /-- R466: A write of 0 to a completion ring's ENABLE disables it and discards its overflow entries. -/
  | cqDisable (fn ring : Nat)
  /-- R469: A stored ring context fails parity at use and halts the package. -/
  | contextParityError (ring : Nat) (cq : Bool)
  /-- R479: A channel starts its next queued transfer. -/
  | dmaTransferStart (die ch : Nat)
  /-- R484: A channel issues a read burst of up to 8 beats when its buffer has room. -/
  | dmaReadBurst (die ch : Nat)
  /-- R487: Read data returns to the channel buffer, or an error stops the transfer. -/
  | dmaReadReturn (die ch : Nat) (ok : Bool) (data : Bytes)
  /-- R485: Each fc the datapath gives its write beat to an eligible channel by class and round-robin. -/
  | dmaWriteBeat (die : Nat)
  /-- R481: The last write of a transfer is acknowledged and the transfer completes. -/
  | dmaWriteAck (die ch : Nat)
  /-- R489: A write of 0 to DMA_CTL.ENABLE drops the channel and aborts its transfers. -/
  | channelDisable (fn die ch : Nat)
  /-- R489: A write of 1 to DMA_CTL.ENABLE enables the channel empty with full credit. -/
  | channelEnable (fn die ch : Nat)
  /-- R498: A write of 1 to FN_STAGE.REQ starts a check of the NEXT fields. -/
  | stageReq
  /-- R499: The partition check ends, rejecting the change or making it pending and starting drains. -/
  | stageCheckDone
  /-- R502: A write of 1 to FN_STAGE.WITHDRAW ends the pending change. -/
  | withdraw
  /-- R500: A leaving resource's drain completes, possibly making the pending change READY. -/
  | drainComplete (table index : Nat)
  /-- R500: DRAIN_LIMIT expires and leaving rings and channels are shut down or squashed. -/
  | drainLimit
  /-- R503: A scrubbed tile, slice or unit is zero and its DIRTY bit clears. -/
  | scrubDone (table index : Nat)
  /-- R505: FLR or SR-IOV disable of a VF starts its function-level reset. -/
  | functionLevelReset (fn : Nat)
  /-- R508: A reset of a physical function resets it and all its VFs at once. -/
  | pfFunctionLevelReset (pf : Nat)
  /-- R506: A step of the function reset ends and the next begins, until RESET_DONE. -/
  | flrStepEnd (fn : Nat)
  /-- R512: A write of 1 to TWN_PAIR_CTL.ENABLE moves an OFF pair to SYNCING. -/
  | pairEnable (fn pair : Nat)
  /-- R512: A write of 0 to TWN_PAIR_CTL.ENABLE returns the pair to OFF. -/
  | pairDisable (fn pair : Nat)
  /-- R512: The pair's memory copy ends and it enters TWINNED. -/
  | syncDone (pair : Nat)
  /-- R517: An input is released on both dies of a pair T_GATE after its later arrival. -/
  | twinGateRelease (pair : Nat)
  /-- R524: A twinned die's heartbeat reaches Brim. -/
  | heartbeat (die : Nat)
  /-- R524: HB_MISS × 1,200 fc without a heartbeat declares the die silent. -/
  | heartbeatTimeout (die : Nat)
  /-- R525: Brim receives a die digest and compares it with the other die's. -/
  | dieDigest (die : Nat)
  /-- R523: A TRIG_OUT row in the shadow's hold queue is discarded after 9,600 fc. -/
  | holdExpiry (die : Nat)
  /-- R532: Every TWINNED pair swaps lead and shadow when BMK_WALL.FC reaches a multiple of 2^32. -/
  | roleSwap
  /-- R534: Brim samples each feed every 240 fc and judges it GOOD, DEGRADED or LOST. -/
  | feedSample (a b : Nat)
  /-- R536: Both feeds LOST start the power-fail sequence that seals the error log. -/
  | powerFail
  /-- R546: A reference judging window ends and each reference passes or fails it. -/
  | refWindowEnd (ref edges : Nat)
  /-- R546: A reference without an edge for 100 OSC cycles becomes DEAD. -/
  | refDead (ref : Nat)
  /-- R548: The root PLL reaches lock on a STABLE reference. -/
  | pllLock
  /-- R549: The PLL completes its phase-continuous move to the other reference and returns to LOCKED. -/
  | refSwitch
  /-- R550: A PLL fault moves every domain to OSC, stops BMK_WALL.FC and halts the package. -/
  | pllFault
  /-- R552: A write to CLK_GATE gates or ungates blocks that are out of service. -/
  | clkGateWrite (fn die data : Nat)
  /-- R555: A feed becoming GOOD or COLD_RST_N rising starts the power-up sequence. -/
  | coldReset
  /-- R555: A power-up step ends or exceeds its limit, starting the next step or stopping power-up. -/
  | powerUpStepEnd (ok : Bool)
  /-- R559: A write of WARM with KEY 0x5752 to CLK_RESET starts a package warm reset. -/
  | warm
  /-- R559: A warm-reset step ends and the next begins. -/
  | warmResetStepEnd
  /-- R560: A write of HOLD = 1 to CLK_DIE_RST puts an allowed die into die reset. -/
  | dieHold (fn die : Nat)
  /-- R560: A write of HOLD = 0 releases the die through its bring-up steps. -/
  | dieRelease (die : Nat)
  /-- R560: The released die completes bring-up and its window answers again. -/
  | dieReleaseDone (die : Nat)
  /-- R561: A Chain edge loses lock and starts RETRAINING, marking messages undeliverable and withdrawing certificates. -/
  | chainEdgeLoss (die edge : Nat)
  /-- R561: A retraining attempt ends with the edge UP, another attempt, or DOWN. -/
  | edgeRetrainAttemptEnd (die edge : Nat) (ok : Bool)
  /-- R562: A host port lost without quiesce resets all functions of its PF. -/
  | hostPortLoss (port : Nat)
  /-- R557: PERST_N deassertion starts host port link training after PKG_READY. -/
  | perstDeassert (port : Nat)
  /-- R565: A feed sense pin change qualifies or loses its feed, starting power-fail when both are high. -/
  | feedSenseChange (feed : Nat) (high : Bool)
  /-- R566: HP_ATTN rising sets CLK_EVENT.HP_ATTN and signals both PFs. -/
  | hpAttn
  /-- R566: A write of 1 to CLK_HP.QUIESCE disables ports, shuts down rings and seals the log. -/
  | quiesce
  /-- R566: Quiesce completions and seal end and HP_SAFE_N is asserted. -/
  | quiesceDone
  /-- R567: HP_EJECT rising before HP_SAFE_N starts the quiesce at once with DRAIN_LIMIT 0. -/
  | hpEject
  /-- R574: A keyed write to SEC_SVN_COMMIT raises the fused MIN_SVN. -/
  | secSvnCommit (fn data : Nat)
  /-- R576: SEC_PK_CTL INSTALL copies the key buffer into a plat key slot. -/
  | install (fn slot : Nat)
  /-- R576: SEC_PK_CTL CLEAR empties a plat key slot. -/
  | clear (fn slot : Nat)
  /-- R578: A write of REQ to SEC_ATTEST snapshots measurements and starts building a report. -/
  | attestReq
  /-- R578: The signed report replaces the report window and BUSY clears. -/
  | attestDone
  /-- R582: SEC_DBG_CTL CHALLENGE draws a fresh debug nonce. -/
  | challenge
  /-- R582: SEC_DBG_CTL SUBMIT starts verification of the debug response. -/
  | submit
  /-- R583: Debug verification ends, granting the level or counting a failure toward LOCKOUT. -/
  | debugVerifyDone
  /-- R589: A write of 1 to ERR_ENT_A.VALID frees the slot. -/
  | errSlotFree (slot : Nat)
  /-- R598: A write of GO to ERR_INJECT logs an entry of the written severity with reason INJECTED. -/
  | errInject (fn sev : Nat)
  /-- R594: A write of ERASE to ERR_SEAL_CTL clears the sealed log store. -/
  | erase
  /-- R611: Brim reads each die sensor every 100 µs, warning at 100 °C and tripping at 110 °C. -/
  | thermalSample (die temp : Nat)
  /-- R613: Each second Brim adds r(T) seconds to the equivalent life counter. -/
  | lifeSecond (temp : Nat)
  /-- R613: Every 3,600 seconds Brim writes the life counters to non-volatile store. -/
  | lifeStore
  /-- R17: A register read returns the field values and clears every RC field it covers, or is refused as a bad access. -/
  | registerRead (fn off len : Nat)
  /-- R494: A host port's link completes training and enters DL_Active, putting its physical function in service. -/
  | dlActive (port : Nat)
  /-- R494: The host sets SR-IOV VF Enable and NumVFs of a physical function, putting its virtual functions in service. -/
  | vfEnable (pf num : Nat)
  /-- R487: A host read of a DMA channel or fetcher gets no completion in time and fails with a completion timeout. -/
  | completionTimeout (port unit : Nat)
  /-- R454: The host read of an INVOKE column list returns, and the list is checked or the INVOKE completes FETCH_ERROR. -/
  | listReadReturn (ring : Nat) (ok : Bool) (data : Bytes)
  /-- R133: A received VC1 or VC2 frame other than HELLO or BYE passes steps 1 to 3 of R129 and fails or is answered with HALT during a halt. -/
  | vc1FrameCheck (port vc : Nat)
  /-- R560: The spill-cache writeback of a die accepted for HOLD ends and the die enters die reset, aborting its transfers and jobs. -/
  | dieFlushDone (die : Nat)
  /-- R467: Software unmasks an MSI-X vector whose pending bit is set and the device sends the held message. -/
  | msixUnmask (fn vector : Nat)
  /-- R388: An HBM stack's sensor reads above 95 °C, updating HBM_STACK_STAT.TEMP and setting HBM_EVENT.HOT. -/
  | hbmStackHot (stack temp : Nat)
  /-- R591: A parity error in a die's control state is found and logged FATAL with reason INTERNAL_PARITY, isolating the die. -/
  | controlStateParity (die : Nat)
  /-- R558: The carrier drives COLD_RST_N low for at least 100 µs, holding the whole package in cold reset. -/
  | coldRstNLow
  deriving DecidableEq, Repr

end Sys2Proof
end

