-- ==== Sys2Proof/Decode.lean ====
section
/-! DEFINITION. The command that a word of the opcode table spells. No row of the table gives bits: the spec gives its commands
no encoding as words, so no word spells one. -/

namespace Sys2Proof

/-- The command spelled by the `nbits` bits `w`: none (no row gives bits). -/
def decodeTableWord (_nbits _w : Nat) : Option Instr := none

end Sys2Proof
end

