-- ==== Sys2Proof/Config.lean ====
section
/-! DEFINITION. What the spec leaves open: constants without a body, so that no proof can see their values. -/

namespace Sys2Proof.Config

/-- A fresh free value: the value the spec leaves open, drawn for the `n`-th time. The counter stands in State
(`State.nonce`). Used wherever a rule calls a value undefined, random or not stated (log entry 5). -/
opaque free : Nat → BitVec 64

/-- What a byte of memory reads as after its contents became undefined: `gen` numbers the event that made them so
(R550, R380 and their like), `mem` the memory, `a` the byte's address (log entry 5). -/
opaque freeByte : (gen mem a : Nat) → BitVec 8

/-- SEQ of a STAKE_FIRE, SOURCE_LOST or END token, of subtype `sub` and context `ctx`: R205 and R206 state none (log
entry 5). -/
opaque ctlSeq : (sub ctx : Nat) → BitVec 24

/-- Verification of an ML-DSA-44 signature (FIPS 204, which the spec cites and does not restate): public key, message,
signature (log entry 8). -/
opaque mldsaVerify : (key msg sig : List (BitVec 8)) → Bool

/-- Etlith's plat key in ROM, plat key slot 0 (R576): the spec does not give its bytes (log entry 8). -/
opaque romPlatKey : List (BitVec 8)

/-- Signing with the device's identity key inside Brim: message to signature (log entry 8). -/
opaque mldsaSign : (msg : List (BitVec 8)) → List (BitVec 8)

/-- The images in the boot flash (R571, R607): slot 0 A, 1 B; kind 0 firmware, 1 microcode. The flash is a board part whose
contents the spec leaves to the carrier (log entry 8). -/
opaque flashImage : (slot kind : Nat) → List (BitVec 8)

/-- The vendor image keys 0 and 1 in ROM (R571; log entry 8). -/
opaque romImageKey : (i : Nat) → List (BitVec 8)

/-- The public identity key of the part (R575; log entry 8). -/
opaque idPublicKey : List (BitVec 8)

/-- The certificate of the identity key (R575; log entry 8). -/
opaque idCert : List (BitVec 8)

/-- The fused digest of the debug public key (R582; log entry 8). -/
opaque debugKeyDigest : List (BitVec 8)

/-- Etlith's PCI vendor ID: R41 names it without its value (log entry 20). -/
opaque vendorId : BitVec 16

/-- The device serial number of the package identity (R41), whose value the spec does not give (log entry 20). -/
opaque serial : BitVec 64

end Sys2Proof.Config
end

