-- ==== Sys2Proof/Machine/RegMap.lean ====
section
/-! DEFINITION. The register map: every field of every register of the spec's register tables, with its place, width,
access type (R17), class (R21) and reset value (R20), and the table that turns an offset into a register (R44 to R46). -/

namespace Sys2Proof.Machine

/-- Access types of R17. -/
inductive Acc where
  | ro | rw | w1c | w1s | wo | rc
  deriving DecidableEq, Repr, Inhabited

/-- Field classes of R21: static, epoch-latched, live. -/
inductive Cls where
  | s | e | l
  deriving DecidableEq, Repr, Inhabited

/-- How the Reset column gives a field's value: a constant, or one of the values that differ by part, die, port or
DMA channel. -/
inductive Rst where
  | const (n : Nat)
  | partCode | partDies | partPresent | partTwin | partPorts
  | dieIx | dieHost | dieColRow | dieColHi | dieEdges
  | srcBase | phase | sysChan
  deriving DecidableEq, Repr, Inhabited

/-- One field of a register: the register's first offset, the field's lowest bit, its width, access, class and reset
value. Registers in the window of a virtual function carry the base 0x1_0000_0000 and a stride of 0x1_0000 per
function number (R42, R52). -/
structure Fld where
  base : Nat
  lsb : Nat
  width : Nat
  acc : Acc
  cls : Cls
  rst : Rst
  deriving DecidableEq, Repr, Inhabited

/-- One register of the map: its first offset, its instance counts with their strides (greatest stride first) and its
fields. -/
structure RegRow where
  base : Nat
  dims : List (Nat × Nat)
  fields : List Fld
  deriving DecidableEq, Repr, Inhabited

namespace F

def PKG_ID_STEPPING : Fld := ⟨0x0, 0, 8, .ro, .l, .const 176⟩
def PKG_ID_PART : Fld := ⟨0x0, 8, 8, .ro, .l, .partCode⟩
def PKG_ID_DIE_COUNT : Fld := ⟨0x0, 16, 4, .ro, .l, .partDies⟩
def PKG_ID_DIE_PRESENT : Fld := ⟨0x0, 24, 8, .ro, .l, .partPresent⟩
def PKG_ID_TWIN_CAPABLE : Fld := ⟨0x0, 32, 1, .ro, .l, .partTwin⟩
def PKG_ID_HOST_PF : Fld := ⟨0x0, 33, 1, .ro, .l, .const 0⟩
def PKG_ID_FAMILY : Fld := ⟨0x0, 48, 16, .ro, .l, .const 19794⟩
def PKG_CAP_RING_LOG2 : Fld := ⟨0x8, 0, 5, .ro, .l, .const 16⟩
def PKG_CAP_VF_LOG2 : Fld := ⟨0x8, 5, 5, .ro, .l, .const 9⟩
def PKG_CAP_TRANSIT_PORTS : Fld := ⟨0x8, 16, 5, .ro, .l, .partPorts⟩
def PKG_CAP_HBM_UNITS : Fld := ⟨0x8, 24, 8, .ro, .l, .const 33⟩
def PKG_CAP_SRAM_SLICES : Fld := ⟨0x8, 32, 8, .ro, .l, .const 16⟩
def PKG_CAP_TRAVERSES : Fld := ⟨0x8, 40, 13, .ro, .l, .const 4096⟩
def PKG_DIE_ID_DIE : Fld := ⟨0x1090000, 0, 3, .ro, .l, .dieIx⟩
def PKG_DIE_ID_HOST_PORT : Fld := ⟨0x1090000, 3, 1, .ro, .l, .dieHost⟩
def PKG_DIE_ID_COLUMN_ROW : Fld := ⟨0x1090000, 4, 2, .ro, .l, .dieColRow⟩
def PKG_DIE_ID_COLUMN_HI : Fld := ⟨0x1090000, 6, 2, .ro, .l, .dieColHi⟩
def PKG_DIE_ID_EDGES : Fld := ⟨0x1090000, 8, 3, .ro, .l, .dieEdges⟩
def PKG_DIE_ID_LOT_POSITION : Fld := ⟨0x1090000, 16, 48, .ro, .l, .const 0⟩
def BMK_CTL_ENABLE : Fld := ⟨0x20000, 0, 1, .rw, .l, .const 0⟩
def BMK_CTL_EPOCH_SHIFT : Fld := ⟨0x20000, 8, 6, .rw, .s, .const 20⟩
def BMK_CTL_STALL_POLICY : Fld := ⟨0x20000, 16, 1, .rw, .e, .const 0⟩
def BMK_CTL_EPOCH_MIN_GAP : Fld := ⟨0x20000, 32, 16, .rw, .s, .const 2400⟩
def BMK_SILENCE_SILENCE_TIMEOUT : Fld := ⟨0x20008, 0, 32, .rw, .l, .const 24000000⟩
def BMK_GLOBAL_HORIZON : Fld := ⟨0x20010, 0, 64, .ro, .l, .const 0⟩
def BMK_EPOCH_EPOCH : Fld := ⟨0x20018, 0, 64, .ro, .l, .const 0⟩
def BMK_EPOCH_STAT_SWITCHES : Fld := ⟨0x20020, 0, 32, .ro, .l, .const 0⟩
def BMK_EPOCH_STAT_MERGED : Fld := ⟨0x20020, 32, 16, .ro, .l, .const 0⟩
def BMK_EPOCH_STAT_LAST_HOLD_FC : Fld := ⟨0x20020, 48, 16, .ro, .l, .const 0⟩
def BMK_WALL_FC : Fld := ⟨0x20028, 0, 64, .ro, .l, .const 0⟩
def BMK_PACER_PACER_EN : Fld := ⟨0x20030, 0, 1, .rw, .l, .const 0⟩
def BMK_PACER_PACER_DIV : Fld := ⟨0x20030, 8, 16, .rw, .l, .const 1⟩
def BMK_ADVANCE_TARGET : Fld := ⟨0x20038, 0, 64, .wo, .l, .const 0⟩
def BMK_EVENT_STALLED : Fld := ⟨0x20040, 0, 1, .w1c, .l, .const 0⟩
def BMK_EVENT_RESUMED : Fld := ⟨0x20040, 1, 1, .w1c, .l, .const 0⟩
def BMK_EVENT_CLOSED : Fld := ⟨0x20040, 2, 1, .w1c, .l, .const 0⟩
def BMK_EVENT_LATE : Fld := ⟨0x20040, 3, 1, .w1c, .l, .const 0⟩
def BMK_EVENT_STAKE_COALESCED : Fld := ⟨0x20040, 4, 1, .w1c, .l, .const 0⟩
def BMK_EVENT_MERGED : Fld := ⟨0x20040, 5, 1, .w1c, .l, .const 0⟩
def BMK_PACER_HZN_HORIZON : Fld := ⟨0x20048, 0, 64, .ro, .l, .const 0⟩
def BMK_SRC_HZN_HORIZON : Fld := ⟨0x22000, 0, 64, .ro, .l, .const 0⟩
def BMK_SRC_STAT_STATE : Fld := ⟨0x22008, 0, 3, .ro, .l, .const 0⟩
def BMK_SRC_STAT_INCLUDED : Fld := ⟨0x22008, 3, 1, .ro, .l, .const 0⟩
def BMK_SRC_STAT_PORT : Fld := ⟨0x22008, 4, 4, .ro, .l, .const 0⟩
def BMK_SRC_STAT_LAST_ACCEPT : Fld := ⟨0x22008, 16, 32, .ro, .l, .const 0⟩
def BMK_SRC_STAT_LATE_FRAMES : Fld := ⟨0x22008, 48, 16, .ro, .l, .const 0⟩
def BMK_STAKE_VAL_VALUE : Fld := ⟨0x28000, 0, 64, .ro, .l, .const 0⟩
def BMK_STAKE_CTL_ARMED : Fld := ⟨0x28008, 0, 1, .w1c, .l, .const 0⟩
def BMK_STAKE_CTL_GLOBAL : Fld := ⟨0x28008, 1, 1, .ro, .l, .const 0⟩
def BMK_STAKE_CTL_SOURCE : Fld := ⟨0x28008, 2, 10, .ro, .l, .const 0⟩
def BMK_STAKE_CTL_TRAVERSE : Fld := ⟨0x28008, 12, 12, .ro, .l, .const 0⟩
def BMK_STAKE_CTL_LOST : Fld := ⟨0x28008, 24, 1, .ro, .l, .const 0⟩
def BMK_STAKE_CTL_REPEAT_EN : Fld := ⟨0x28008, 25, 1, .ro, .l, .const 0⟩
def BMK_STAKE_CTL_REPEAT_LOG2 : Fld := ⟨0x28008, 26, 6, .ro, .l, .const 0⟩
def BMK_STAKE_CTL_FIRE_COUNT : Fld := ⟨0x28008, 32, 16, .ro, .l, .const 0⟩
def BMK_STAKE_CTL_PERIODS : Fld := ⟨0x28008, 48, 16, .ro, .l, .const 0⟩
def TRN_PORT_CTL_ENABLE : Fld := ⟨0x1020000, 0, 1, .rw, .l, .const 0⟩
def TRN_PORT_CTL_LINK_RESET : Fld := ⟨0x1020000, 1, 1, .wo, .l, .const 0⟩
def TRN_PORT_CTL_MODE : Fld := ⟨0x1020000, 2, 1, .rw, .s, .const 0⟩
def TRN_PORT_CFG_SRC_BASE : Fld := ⟨0x1020008, 0, 10, .rw, .s, .srcBase⟩
def TRN_PORT_CFG_SRC_COUNT : Fld := ⟨0x1020008, 16, 7, .rw, .s, .const 64⟩
def TRN_VIOL_CFG_VIOL_LIMIT : Fld := ⟨0x1020010, 0, 8, .rw, .l, .const 16⟩
def TRN_VIOL_CFG_VIOL_WINDOW : Fld := ⟨0x1020010, 16, 32, .rw, .l, .const 2400000⟩
def TRN_TIMEOUT_TRAIN_TIMEOUT : Fld := ⟨0x1020018, 0, 32, .rw, .l, .const 240000000⟩
def TRN_TIMEOUT_BYE_WAIT : Fld := ⟨0x1020018, 32, 32, .rw, .l, .const 2400000⟩
def TRN_STAT_STATE : Fld := ⟨0x1020020, 0, 3, .ro, .l, .const 0⟩
def TRN_STAT_HALTED : Fld := ⟨0x1020020, 3, 1, .ro, .l, .const 0⟩
def TRN_STAT_LANE_REVERSED : Fld := ⟨0x1020020, 4, 1, .ro, .l, .const 0⟩
def TRN_STAT_LANE_POLARITY : Fld := ⟨0x1020020, 8, 8, .ro, .l, .const 0⟩
def TRN_STAT_LANES_DETECTED : Fld := ⟨0x1020020, 16, 8, .ro, .l, .const 0⟩
def TRN_STAT_FAR_VERSION : Fld := ⟨0x1020020, 32, 16, .ro, .l, .const 0⟩
def TRN_STAT_FAR_PKG : Fld := ⟨0x1020020, 48, 4, .ro, .l, .const 0⟩
def TRN_STAT_FAR_PKG_VALID : Fld := ⟨0x1020020, 52, 1, .ro, .l, .const 0⟩
def TRN_PARTNER_PARTNER_ID : Fld := ⟨0x1020028, 0, 64, .ro, .l, .const 0⟩
def TRN_SRC_MASK_HELD : Fld := ⟨0x1020030, 0, 64, .ro, .l, .const 0⟩
def TRN_CRED_RX_RX_GRANTED : Fld := ⟨0x1020040, 0, 32, .ro, .l, .const 0⟩
def TRN_CRED_RX_RX_CONSUMED : Fld := ⟨0x1020040, 32, 32, .ro, .l, .const 0⟩
def TRN_CRED_TX_TX_GRANTED : Fld := ⟨0x1020048, 0, 32, .ro, .l, .const 0⟩
def TRN_CRED_TX_TX_CONSUMED : Fld := ⟨0x1020048, 32, 32, .ro, .l, .const 0⟩
def TRN_LINK_ERR_FEC_CORRECTED : Fld := ⟨0x1020080, 0, 32, .rc, .l, .const 0⟩
def TRN_LINK_ERR_FEC_UNCORRECTED : Fld := ⟨0x1020080, 32, 16, .rc, .l, .const 0⟩
def TRN_LINK_ERR_FLIT_CRC : Fld := ⟨0x1020080, 48, 16, .rc, .l, .const 0⟩
def TRN_LINK_ERR2_RETRIES : Fld := ⟨0x1020088, 0, 16, .rc, .l, .const 0⟩
def TRN_LINK_ERR2_LOCK_LOSSES : Fld := ⟨0x1020088, 16, 16, .rc, .l, .const 0⟩
def TRN_LINK_ERR2_LINK_RESETS : Fld := ⟨0x1020088, 32, 16, .rc, .l, .const 0⟩
def TRN_LINK_ERR2_TRAIN_FAILS : Fld := ⟨0x1020088, 48, 16, .rc, .l, .const 0⟩
def TRN_VIOL_STAT_VIOL_TOTAL : Fld := ⟨0x1020090, 0, 32, .rc, .l, .const 0⟩
def TRN_VIOL_STAT_NAK_LOST : Fld := ⟨0x1020090, 32, 16, .rc, .l, .const 0⟩
def TRN_VIOL_STAT_UNKNOWN_GROUP : Fld := ⟨0x1020090, 48, 16, .rc, .l, .const 0⟩
def TRN_EVENT_LINK_UP : Fld := ⟨0x1020098, 0, 1, .w1c, .l, .const 0⟩
def TRN_EVENT_LINK_DOWN : Fld := ⟨0x1020098, 1, 1, .w1c, .l, .const 0⟩
def TRN_EVENT_VIOLATION : Fld := ⟨0x1020098, 2, 1, .w1c, .l, .const 0⟩
def TRN_EVENT_VIOL_RESET : Fld := ⟨0x1020098, 3, 1, .w1c, .l, .const 0⟩
def TRN_EVENT_HELLO : Fld := ⟨0x1020098, 4, 1, .w1c, .l, .const 0⟩
def TRN_EVENT_BYE : Fld := ⟨0x1020098, 5, 1, .w1c, .l, .const 0⟩
def TRN_EVENT_NAK_LOST : Fld := ⟨0x1020098, 6, 1, .w1c, .l, .const 0⟩
def TRN_EVENT_TRAIN_FAIL : Fld := ⟨0x1020098, 7, 1, .w1c, .l, .const 0⟩
def TRN_VLOG_HEAD_NEXT : Fld := ⟨0x10200A0, 0, 4, .ro, .l, .const 0⟩
def TRN_VLOG_HEAD_WRAPPED : Fld := ⟨0x10200A0, 4, 1, .ro, .l, .const 0⟩
def TRN_VLOG_A_REASON : Fld := ⟨0x1020100, 0, 16, .ro, .l, .const 0⟩
def TRN_VLOG_A_SOURCE : Fld := ⟨0x1020100, 16, 16, .ro, .l, .const 0⟩
def TRN_VLOG_A_FRAME_TYPE : Fld := ⟨0x1020100, 32, 8, .ro, .l, .const 0⟩
def TRN_VLOG_A_VC : Fld := ⟨0x1020100, 40, 2, .ro, .l, .const 0⟩
def TRN_VLOG_B_SEQ : Fld := ⟨0x1020108, 0, 32, .ro, .l, .const 0⟩
def TRN_VLOG_B_EXPECTED : Fld := ⟨0x1020108, 32, 32, .ro, .l, .const 0⟩
def TRN_VLOG_C_STAMP : Fld := ⟨0x1020110, 0, 64, .ro, .l, .const 0⟩
def TRN_VLOG_D_FC : Fld := ⟨0x1020118, 0, 64, .ro, .l, .const 0⟩
def TRN_PKG_PKG_NUM : Fld := ⟨0x1027000, 0, 4, .rw, .s, .const 0⟩
def PLAT_CTL_ENABLE : Fld := ⟨0x80000, 0, 1, .rw, .l, .const 0⟩
def PLAT_STAGE_CFG_STACK : Fld := ⟨0x80008, 0, 3, .rw, .s, .const 0⟩
def PLAT_STAGE_CFG_UNIT : Fld := ⟨0x80008, 8, 6, .rw, .s, .const 0⟩
def PLAT_STAGE_CFG_VALID : Fld := ⟨0x80008, 16, 1, .rw, .s, .const 0⟩
def PLAT_POLICY_REQUIRE_SIGNED : Fld := ⟨0x80010, 0, 1, .rw, .l, .const 0⟩
def PLAT_POLICY_LOCK : Fld := ⟨0x80010, 1, 1, .w1s, .l, .const 0⟩
def PLAT_POLICY_MIN_SVN : Fld := ⟨0x80010, 16, 16, .rw, .l, .const 0⟩
def PLAT_EVENT_STAGED : Fld := ⟨0x80018, 0, 1, .w1c, .l, .const 0⟩
def PLAT_EVENT_ACTIVATED : Fld := ⟨0x80018, 1, 1, .w1c, .l, .const 0⟩
def PLAT_EVENT_FAILED : Fld := ⟨0x80018, 2, 1, .w1c, .l, .const 0⟩
def PLAT_EVENT_REMOVED : Fld := ⟨0x80018, 3, 1, .w1c, .l, .const 0⟩
def PLAT_EVENT_POLICY_FAIL : Fld := ⟨0x80018, 4, 1, .w1c, .l, .const 0⟩
def PLAT_COUNT_ACTIVE : Fld := ⟨0x80020, 0, 9, .ro, .l, .const 0⟩
def PLAT_COUNT_LOADS : Fld := ⟨0x80020, 16, 32, .ro, .l, .const 0⟩
def PLAT_COUNT_FAILS : Fld := ⟨0x80020, 48, 16, .ro, .l, .const 0⟩
def PLAT_SLOT_STAT_PHASE : Fld := ⟨0x80100, 0, 3, .ro, .l, .const 0⟩
def PLAT_SLOT_STAT_HANDLE : Fld := ⟨0x80100, 8, 16, .ro, .l, .const 0⟩
def PLAT_SLOT_STAT_OWNER : Fld := ⟨0x80100, 24, 11, .ro, .l, .const 0⟩
def PLAT_SLOT_STAT_RING : Fld := ⟨0x80100, 48, 16, .ro, .l, .const 0⟩
def PLAT_SLOT_FAULT_FAULT_OFFSET : Fld := ⟨0x80108, 0, 32, .ro, .l, .const 0⟩
def PLAT_SLOT_FAULT_STATUS : Fld := ⟨0x80108, 32, 8, .ro, .l, .const 0⟩
def PLAT_SLOT_FAULT_REASON : Fld := ⟨0x80108, 40, 16, .ro, .l, .const 0⟩
def PLAT_ACT_A_HANDLE : Fld := ⟨0x81000, 0, 16, .ro, .l, .const 0⟩
def PLAT_ACT_A_OWNER : Fld := ⟨0x81000, 16, 11, .ro, .l, .const 0⟩
def PLAT_ACT_A_SIGNED : Fld := ⟨0x81000, 27, 1, .ro, .l, .const 0⟩
def PLAT_ACT_A_KEY_SLOT : Fld := ⟨0x81000, 28, 4, .ro, .l, .const 0⟩
def PLAT_ACT_A_VALID : Fld := ⟨0x81000, 32, 1, .ro, .l, .const 0⟩
def PLAT_ACT_A_SVN : Fld := ⟨0x81000, 48, 16, .ro, .l, .const 0⟩
def PLAT_ACT_B_PLAT_ID : Fld := ⟨0x81008, 0, 64, .ro, .l, .const 0⟩
def FAB_CTL_ENABLE : Fld := ⟨0x1000000, 0, 1, .rw, .l, .const 0⟩
def FAB_STAT_TILES_ACTIVE : Fld := ⟨0x1000008, 0, 7, .ro, .l, .const 0⟩
def FAB_STAT_SWAPS : Fld := ⟨0x1000008, 16, 32, .ro, .l, .const 0⟩
def FAB_EVENT_DUP_OPERAND : Fld := ⟨0x1000010, 0, 1, .w1c, .l, .const 0⟩
def FAB_EVENT_TILE_ADDR : Fld := ⟨0x1000010, 1, 1, .w1c, .l, .const 0⟩
def FAB_EVENT_UNROUTED : Fld := ⟨0x1000010, 2, 1, .w1c, .l, .const 0⟩
def FAB_EVENT_DIRECT_MISS : Fld := ⟨0x1000010, 3, 1, .w1c, .l, .const 0⟩
def FAB_EVENT_ORPHANED : Fld := ⟨0x1000010, 4, 1, .w1c, .l, .const 0⟩
def FAB_EVENT_MEM_RANGE : Fld := ⟨0x1000010, 5, 1, .w1c, .l, .const 0⟩
def FAB_EVENT_POISONED : Fld := ⟨0x1000010, 6, 1, .w1c, .l, .const 0⟩
def FAB_EVENT_UNDELIVERABLE : Fld := ⟨0x1000010, 7, 1, .w1c, .l, .const 0⟩
def FAB_BCAST_SENT : Fld := ⟨0x1000018, 0, 32, .ro, .l, .const 0⟩
def FAB_BCAST_RECEIVED : Fld := ⟨0x1000018, 32, 32, .ro, .l, .const 0⟩
def FAB_TILE_BANK_ACTIVE_BANK : Fld := ⟨0x1100000, 0, 1, .ro, .l, .const 0⟩
def FAB_TILE_BANK_SHADOW_LOADED : Fld := ⟨0x1100000, 1, 1, .ro, .l, .const 0⟩
def FAB_TILE_BANK_ACTIVE_HANDLE : Fld := ⟨0x1100000, 16, 16, .ro, .l, .const 0⟩
def FAB_TILE_BANK_SHADOW_HANDLE : Fld := ⟨0x1100000, 32, 16, .ro, .l, .const 0⟩
def FAB_TILE_MATCH_IN_USE : Fld := ⟨0x1100008, 0, 11, .ro, .l, .const 0⟩
def FAB_TILE_MATCH_HIGH_WATER : Fld := ⟨0x1100008, 16, 11, .rc, .l, .const 0⟩
def FAB_TILE_MATCH_FULL_WAITS : Fld := ⟨0x1100008, 32, 32, .rc, .l, .const 0⟩
def FAB_TILE_ERR_DUP_OPERAND : Fld := ⟨0x1100010, 0, 16, .rc, .l, .const 0⟩
def FAB_TILE_ERR_TILE_ADDR : Fld := ⟨0x1100010, 16, 16, .rc, .l, .const 0⟩
def FAB_TILE_ERR_UNROUTED : Fld := ⟨0x1100010, 32, 16, .rc, .l, .const 0⟩
def FAB_TILE_ERR_ORPHANED : Fld := ⟨0x1100010, 48, 16, .rc, .l, .const 0⟩
def FAB_TILE_ERR2_DIRECT_MISS : Fld := ⟨0x1100018, 0, 16, .rc, .l, .const 0⟩
def FAB_TILE_ERR2_MEM_RANGE : Fld := ⟨0x1100018, 16, 16, .rc, .l, .const 0⟩
def FAB_TILE_ERR2_POISONED : Fld := ⟨0x1100018, 32, 16, .rc, .l, .const 0⟩
def FAB_TILE_TOK_TOKENS_IN : Fld := ⟨0x1100020, 0, 32, .ro, .l, .const 0⟩
def FAB_TILE_TOK_TOKENS_OUT : Fld := ⟨0x1100020, 32, 32, .ro, .l, .const 0⟩
def FAB_IND_ADDR_OFFSET : Fld := ⟨0x1100028, 0, 21, .rw, .l, .const 0⟩
def FAB_IND_ADDR_SPACE : Fld := ⟨0x1100028, 22, 2, .rw, .l, .const 0⟩
def FAB_IND_ADDR_AUTO_INC : Fld := ⟨0x1100028, 24, 1, .rw, .l, .const 0⟩
def FAB_IND_DATA_DATA : Fld := ⟨0x1100030, 0, 64, .rw, .s, .const 0⟩
def FAB_EMIT_STAT_TRIG_DROPPED : Fld := ⟨0x1000020, 0, 32, .rc, .l, .const 0⟩
def FAB_EMIT_STAT_BUF_DROPPED : Fld := ⟨0x1000020, 32, 32, .rc, .l, .const 0⟩
def FAB_SORT_STAT_KEYS : Fld := ⟨0x1000040, 0, 32, .ro, .l, .const 0⟩
def FAB_SORT_STAT_JOBS : Fld := ⟨0x1000040, 32, 16, .ro, .l, .const 0⟩
def FAB_SORT_STAT_BUSY : Fld := ⟨0x1000040, 48, 1, .ro, .l, .const 0⟩
def FAB_SORT_STAT_TRAVERSE : Fld := ⟨0x1000040, 49, 12, .ro, .l, .const 0⟩
def SCH_CTL_SNAP_EN : Fld := ⟨0x1010000, 0, 1, .rw, .e, .const 1⟩
def SCH_CTL_STALL_LIMIT : Fld := ⟨0x1010000, 16, 32, .rw, .l, .const 2400000⟩
def SCH_SNAP_EPOCH_EPOCH : Fld := ⟨0x1010008, 0, 64, .ro, .l, .const 0⟩
def SCH_EVENT_HOLD_STALL : Fld := ⟨0x1010010, 0, 1, .w1c, .l, .const 0⟩
def SCH_EVENT_INV_FULL : Fld := ⟨0x1010010, 1, 1, .w1c, .l, .const 0⟩
def SCH_EVENT_CAPTURE_GAP : Fld := ⟨0x1010010, 2, 1, .w1c, .l, .const 0⟩
def SCH_EVENT_SNAPSHOT : Fld := ⟨0x1010010, 3, 1, .w1c, .l, .const 0⟩
def SCH_STALL_TILE : Fld := ⟨0x1010018, 0, 6, .ro, .l, .const 0⟩
def SCH_STALL_TRAVERSE : Fld := ⟨0x1010018, 8, 12, .ro, .l, .const 0⟩
def SCH_STALL_STALLS : Fld := ⟨0x1010018, 32, 32, .rc, .l, .const 0⟩
def SCH_INV_OPEN : Fld := ⟨0x1010020, 0, 14, .ro, .l, .const 0⟩
def SCH_INV_HIGH_WATER : Fld := ⟨0x1010020, 16, 14, .rc, .l, .const 0⟩
def SCH_INV_FETCH_WAIT_FC : Fld := ⟨0x1010020, 32, 32, .ro, .l, .const 0⟩
def SCH_CAPTURE_GAP_BLOCKS : Fld := ⟨0x1010040, 0, 32, .rc, .l, .const 0⟩
def SCH_CAPTURE_STAMP_FIRST_STAMP : Fld := ⟨0x1010048, 0, 64, .rc, .l, .const 0⟩
def SCH_TILE_DEPTH_READY : Fld := ⟨0x1102000, 0, 11, .ro, .l, .const 0⟩
def SCH_TILE_DEPTH_READY_HIGH : Fld := ⟨0x1102000, 16, 11, .rc, .l, .const 0⟩
def SCH_TILE_DEPTH_QUEUED : Fld := ⟨0x1102000, 32, 11, .ro, .l, .const 0⟩
def SCH_TILE_DEPTH_QUEUED_HIGH : Fld := ⟨0x1102000, 48, 11, .rc, .l, .const 0⟩
def SCH_TILE_LEVELS_NONEMPTY : Fld := ⟨0x1102008, 0, 16, .ro, .l, .const 0⟩
def SCH_TILE_DISP_DISPATCHED : Fld := ⟨0x1102010, 0, 64, .ro, .l, .const 0⟩
def SCH_TILE_BUSY_BUSY_CELL_FC : Fld := ⟨0x1102018, 0, 64, .ro, .l, .const 0⟩
def SCH_TILE_HOLD_IN_HOLD_FC : Fld := ⟨0x1102020, 0, 32, .ro, .l, .const 0⟩
def SCH_TILE_HOLD_OUT_GATE_FC : Fld := ⟨0x1102020, 32, 32, .ro, .l, .const 0⟩
def SCH_TILE_CANCEL_CANCELLED : Fld := ⟨0x1102028, 0, 32, .ro, .l, .const 0⟩
def SCH_TILE_HCFG_LEVEL : Fld := ⟨0x1102030, 0, 4, .rw, .l, .const 0⟩
def SCH_TILE_HCFG_ALL : Fld := ⟨0x1102030, 4, 1, .rw, .l, .const 1⟩
def SCH_TILE_WAIT_COUNT : Fld := ⟨0x1102100, 0, 32, .ro, .l, .const 0⟩
def GNT_CTL_LOG_EN : Fld := ⟨0x100000, 0, 1, .rw, .l, .const 1⟩
def GNT_CFG_HOST_READ_FC : Fld := ⟨0x100008, 0, 32, .rw, .s, .const 0⟩
def GNT_CONST_T_SRM : Fld := ⟨0x100010, 0, 8, .ro, .l, .const 32⟩
def GNT_CONST_T_HOPQ : Fld := ⟨0x100010, 8, 8, .ro, .l, .const 16⟩
def GNT_CONST_T_HBM : Fld := ⟨0x100010, 16, 16, .ro, .l, .const 720⟩
def GNT_CONST_T_RFC : Fld := ⟨0x100010, 32, 16, .ro, .l, .const 984⟩
def GNT_CONST_T_CDC : Fld := ⟨0x100010, 48, 16, .ro, .l, .const 192⟩
def GNT_STAT_ADMITTED : Fld := ⟨0x100018, 0, 13, .ro, .l, .const 0⟩
def GNT_STAT_REJECTS : Fld := ⟨0x100018, 16, 16, .rc, .l, .const 0⟩
def GNT_STAT_BREACHES : Fld := ⟨0x100018, 32, 32, .rc, .l, .const 0⟩
def GNT_EVENT_BREACH : Fld := ⟨0x100020, 0, 1, .w1c, .l, .const 0⟩
def GNT_EVENT_REJECT : Fld := ⟨0x100020, 1, 1, .w1c, .l, .const 0⟩
def GNT_EVENT_WITHDRAWN : Fld := ⟨0x100020, 2, 1, .w1c, .l, .const 0⟩
def GNT_LAST_REJECT_TRAVERSE : Fld := ⟨0x100028, 0, 12, .ro, .l, .const 0⟩
def GNT_LAST_REJECT_REASON : Fld := ⟨0x100028, 16, 16, .ro, .l, .const 0⟩
def GNT_LAST_REJECT_COMPUTED_FC : Fld := ⟨0x100028, 32, 32, .ro, .l, .const 0⟩
def GNT_TRAV_A_ADMITTED : Fld := ⟨0x108000, 0, 1, .ro, .l, .const 0⟩
def GNT_TRAV_A_WITHDRAWN : Fld := ⟨0x108000, 1, 1, .ro, .l, .const 0⟩
def GNT_TRAV_A_ACCEPT : Fld := ⟨0x108000, 2, 2, .ro, .l, .const 0⟩
def GNT_TRAV_A_PRIORITY : Fld := ⟨0x108000, 4, 4, .ro, .l, .const 0⟩
def GNT_TRAV_A_PACE : Fld := ⟨0x108000, 16, 16, .ro, .l, .const 0⟩
def GNT_TRAV_A_BOUND_FC : Fld := ⟨0x108000, 32, 32, .ro, .l, .const 0⟩
def GNT_TRAV_B_COMPUTED_FC : Fld := ⟨0x108008, 0, 32, .ro, .l, .const 0⟩
def GNT_TRAV_B_W_MATCH : Fld := ⟨0x108008, 32, 8, .ro, .l, .const 0⟩
def GNT_TRAV_C_BREACHES : Fld := ⟨0x108010, 0, 32, .rc, .l, .const 0⟩
def GNT_TRAV_C_WORST_LATE_FC : Fld := ⟨0x108010, 32, 32, .rc, .l, .const 0⟩
def GNT_TRAV_D_SUSPENDED_FC : Fld := ⟨0x108018, 0, 64, .ro, .l, .const 0⟩
def GNT_COLL_N_COLL : Fld := ⟨0x130000, 0, 11, .ro, .l, .const 0⟩
def GNT_COLL_OCC_HIGH : Fld := ⟨0x130000, 16, 11, .rc, .l, .const 0⟩
def GNT_COLL_STALL_FC : Fld := ⟨0x130000, 32, 32, .ro, .l, .const 0⟩
def GNT_DEST_N_DEST : Fld := ⟨0x131000, 0, 15, .ro, .l, .const 0⟩
def GNT_DEST_OCC_HIGH : Fld := ⟨0x131000, 16, 15, .rc, .l, .const 0⟩
def SRM_CTL_ENABLE : Fld := ⟨0x1030000, 0, 1, .rw, .l, .const 0⟩
def SRM_CTL_SCRUB_EN : Fld := ⟨0x1030000, 1, 1, .rw, .l, .const 1⟩
def SRM_CTL_PROBE_LIMIT : Fld := ⟨0x1030000, 8, 7, .rw, .s, .const 16⟩
def SRM_EVENT_CORRECTED : Fld := ⟨0x1030008, 0, 1, .w1c, .l, .const 0⟩
def SRM_EVENT_UNCORRECTABLE : Fld := ⟨0x1030008, 1, 1, .w1c, .l, .const 0⟩
def SRM_EVENT_FROZEN : Fld := ⟨0x1030008, 2, 1, .w1c, .l, .const 0⟩
def SRM_EVENT_FENCED : Fld := ⟨0x1030008, 3, 1, .w1c, .l, .const 0⟩
def SRM_EVENT_TABLE_FULL : Fld := ⟨0x1030008, 4, 1, .w1c, .l, .const 0⟩
def SRM_EVENT_POISON_DROP : Fld := ⟨0x1030008, 5, 1, .w1c, .l, .const 0⟩
def SRM_EVENT_SCRUB_UE : Fld := ⟨0x1030008, 6, 1, .w1c, .l, .const 0⟩
def SRM_STAT_TABLE_FULL : Fld := ⟨0x1030010, 0, 32, .rc, .l, .const 0⟩
def SRM_STAT_POISON_DROPPED : Fld := ⟨0x1030010, 32, 32, .rc, .l, .const 0⟩
def SRM_IND_ADDR_BYTE : Fld := ⟨0x1030018, 0, 26, .rw, .l, .const 0⟩
def SRM_IND_ADDR_SLICE : Fld := ⟨0x1030018, 26, 4, .rw, .l, .const 0⟩
def SRM_IND_ADDR_AUTO_INC : Fld := ⟨0x1030018, 30, 1, .rw, .l, .const 0⟩
def SRM_IND_ADDR_UE : Fld := ⟨0x1030018, 31, 1, .ro, .l, .const 0⟩
def SRM_IND_DATA_DATA : Fld := ⟨0x1030020, 0, 64, .rw, .l, .const 0⟩
def SRM_CH_CTL_RESET : Fld := ⟨0x1030100, 0, 1, .w1s, .l, .const 0⟩
def SRM_CH_CTL_FENCE : Fld := ⟨0x1030100, 1, 1, .rw, .l, .const 0⟩
def SRM_CH_STAT_STATE : Fld := ⟨0x1030108, 0, 2, .ro, .l, .const 0⟩
def SRM_CH_STAT_FREEZE_CAUSE : Fld := ⟨0x1030108, 2, 2, .ro, .l, .const 0⟩
def SRM_CH_STAT_QUEUED : Fld := ⟨0x1030108, 16, 7, .ro, .l, .const 0⟩
def SRM_CH_STAT_REGION : Fld := ⟨0x1030108, 32, 16, .ro, .l, .const 65535⟩
def SRM_CH_ECC_CE : Fld := ⟨0x1030110, 0, 32, .rc, .l, .const 0⟩
def SRM_CH_ECC_UE : Fld := ⟨0x1030110, 32, 16, .rc, .l, .const 0⟩
def SRM_CH_ECC_SCRUB_UE : Fld := ⟨0x1030110, 48, 16, .rc, .l, .const 0⟩
def SRM_CH_UE_ENTRY : Fld := ⟨0x1030118, 0, 21, .ro, .l, .const 0⟩
def SRM_CH_UE_WORD : Fld := ⟨0x1030118, 21, 2, .ro, .l, .const 0⟩
def SRM_CH_UE_SYNDROME : Fld := ⟨0x1030118, 24, 8, .ro, .l, .const 0⟩
def SRM_CH_UE_FC : Fld := ⟨0x1030118, 32, 32, .ro, .l, .const 0⟩
def SRM_CH_FRZ_ENTRY : Fld := ⟨0x1030120, 0, 21, .ro, .l, .const 0⟩
def SRM_CH_FRZ_KIND : Fld := ⟨0x1030120, 24, 2, .ro, .l, .const 0⟩
def SRM_CH_FRZ_GCELL : Fld := ⟨0x1030120, 32, 15, .ro, .l, .const 0⟩
def SRM_CH_LOAD_SERVED : Fld := ⟨0x1030128, 0, 32, .ro, .l, .const 0⟩
def SRM_CH_LOAD_QUEUE_HIGH : Fld := ⟨0x1030128, 32, 7, .rc, .l, .const 0⟩
def HBM_STACK_CTL_ENABLE : Fld := ⟨0x1040800, 0, 1, .rw, .l, .const 0⟩
def HBM_STACK_CTL_SKIP_EN : Fld := ⟨0x1040800, 1, 1, .rw, .s, .const 0⟩
def HBM_STACK_CTL_SKIP_PC : Fld := ⟨0x1040800, 8, 5, .rw, .s, .const 0⟩
def HBM_STACK_STAT_UNITS : Fld := ⟨0x1040808, 0, 6, .ro, .l, .const 33⟩
def HBM_STACK_STAT_TRAINED : Fld := ⟨0x1040808, 6, 1, .ro, .l, .const 0⟩
def HBM_STACK_STAT_TEMP : Fld := ⟨0x1040808, 8, 8, .ro, .l, .const 0⟩
def HBM_STACK_PC_FROZEN : Fld := ⟨0x1040810, 0, 32, .ro, .l, .const 0⟩
def HBM_STACK_PC_FENCED : Fld := ⟨0x1040810, 32, 32, .ro, .l, .const 0⟩
def HBM_REFRESH_PHASE : Fld := ⟨0x1040818, 0, 14, .ro, .l, .phase⟩
def HBM_REFRESH_COUNT : Fld := ⟨0x1040818, 16, 48, .ro, .l, .const 0⟩
def HBM_RETRAIN_EN : Fld := ⟨0x1040820, 0, 1, .rw, .l, .const 1⟩
def HBM_RETRAIN_PC : Fld := ⟨0x1040820, 8, 5, .ro, .l, .const 0⟩
def HBM_RETRAIN_INTERVAL : Fld := ⟨0x1040820, 32, 32, .rw, .l, .const 24000000⟩
def HBM_EVENT_CORRECTED : Fld := ⟨0x1040828, 0, 1, .w1c, .l, .const 0⟩
def HBM_EVENT_FROZEN : Fld := ⟨0x1040828, 1, 1, .w1c, .l, .const 0⟩
def HBM_EVENT_FENCED : Fld := ⟨0x1040828, 2, 1, .w1c, .l, .const 0⟩
def HBM_EVENT_RETRAINED : Fld := ⟨0x1040828, 3, 1, .w1c, .l, .const 0⟩
def HBM_EVENT_LOST_WRITES : Fld := ⟨0x1040828, 4, 1, .w1c, .l, .const 0⟩
def HBM_EVENT_HOT : Fld := ⟨0x1040828, 5, 1, .w1c, .l, .const 0⟩
def HBM_IND_ADDR_ADDR : Fld := ⟨0x1040830, 0, 36, .rw, .l, .const 0⟩
def HBM_IND_ADDR_AUTO_INC : Fld := ⟨0x1040830, 36, 1, .rw, .l, .const 0⟩
def HBM_IND_ADDR_FAULT : Fld := ⟨0x1040830, 37, 1, .ro, .l, .const 0⟩
def HBM_IND_DATA_DATA : Fld := ⟨0x1040838, 0, 64, .rw, .l, .const 0⟩
def HBM_PC_CTL_RESET : Fld := ⟨0x1040000, 0, 1, .w1s, .l, .const 0⟩
def HBM_PC_CTL_FENCE : Fld := ⟨0x1040000, 1, 1, .rw, .l, .const 0⟩
def HBM_PC_STAT_STATE : Fld := ⟨0x1040008, 0, 2, .ro, .l, .const 0⟩
def HBM_PC_STAT_FREEZE_CAUSE : Fld := ⟨0x1040008, 2, 2, .ro, .l, .const 0⟩
def HBM_PC_STAT_FENCE_CAUSE : Fld := ⟨0x1040008, 4, 1, .ro, .l, .const 0⟩
def HBM_PC_STAT_RQ : Fld := ⟨0x1040008, 16, 6, .ro, .l, .const 0⟩
def HBM_PC_STAT_WQ : Fld := ⟨0x1040008, 24, 7, .ro, .l, .const 0⟩
def HBM_PC_ECC_CE : Fld := ⟨0x1040010, 0, 32, .rc, .l, .const 0⟩
def HBM_PC_ECC_UE : Fld := ⟨0x1040010, 32, 16, .rc, .l, .const 0⟩
def HBM_PC_ECC_RETRIES : Fld := ⟨0x1040010, 48, 16, .rc, .l, .const 0⟩
def HBM_PC_FRZ_A_ADDR : Fld := ⟨0x1040018, 0, 36, .ro, .l, .const 0⟩
def HBM_PC_FRZ_A_KIND : Fld := ⟨0x1040018, 36, 2, .ro, .l, .const 0⟩
def HBM_PC_FRZ_B_SYNDROME : Fld := ⟨0x1040020, 0, 16, .ro, .l, .const 0⟩
def HBM_PC_FRZ_B_LOST_WRITES : Fld := ⟨0x1040020, 16, 16, .ro, .l, .const 0⟩
def HBM_PC_FRZ_B_FC : Fld := ⟨0x1040020, 32, 32, .ro, .l, .const 0⟩
def HBM_PC_QIDX_ENTRY : Fld := ⟨0x1040028, 0, 6, .rw, .l, .const 0⟩
def HBM_PC_QIDX_QUEUE : Fld := ⟨0x1040028, 6, 1, .rw, .l, .const 0⟩
def HBM_PC_QDATA_ADDR : Fld := ⟨0x1040030, 0, 36, .ro, .l, .const 0⟩
def HBM_PC_QDATA_CLASS : Fld := ⟨0x1040030, 36, 2, .ro, .l, .const 0⟩
def HBM_PC_QDATA_VALID : Fld := ⟨0x1040030, 38, 1, .ro, .l, .const 0⟩
def HBM_PC_LOAD_ACCESSES : Fld := ⟨0x1040038, 0, 32, .ro, .l, .const 0⟩
def HBM_PC_LOAD_FORWARDED : Fld := ⟨0x1040038, 32, 32, .ro, .l, .const 0⟩
def HBM_PC_TRAIN_MARGIN : Fld := ⟨0x1040040, 0, 8, .ro, .l, .const 0⟩
def HBM_PC_TRAIN_SETTING : Fld := ⟨0x1040040, 8, 8, .ro, .l, .const 0⟩
def HBM_PC_TRAIN_CHANGES : Fld := ⟨0x1040040, 16, 16, .ro, .l, .const 0⟩
def HBM_PC_TRAIN_FC : Fld := ⟨0x1040040, 32, 32, .ro, .l, .const 0⟩
def SPC_CTL_ENABLE : Fld := ⟨0x1060000, 0, 1, .rw, .l, .const 0⟩
def SPC_CTL_PF_EN : Fld := ⟨0x1060000, 1, 1, .rw, .l, .const 1⟩
def SPC_CTL_PF_DEPTH : Fld := ⟨0x1060000, 8, 4, .rw, .l, .const 4⟩
def SPC_STAT_STATE : Fld := ⟨0x1060008, 0, 2, .ro, .l, .const 0⟩
def SPC_STAT_LOCKED : Fld := ⟨0x1060008, 16, 16, .ro, .l, .const 0⟩
def SPC_STAT_GNT_WAYS : Fld := ⟨0x1060008, 32, 16, .ro, .l, .const 0⟩
def SPC_EVENT_PARITY_CLEAN : Fld := ⟨0x1060010, 0, 1, .w1c, .l, .const 0⟩
def SPC_EVENT_PARITY_FATAL : Fld := ⟨0x1060010, 1, 1, .w1c, .l, .const 0⟩
def SPC_EVENT_DRAINED : Fld := ⟨0x1060010, 2, 1, .w1c, .l, .const 0⟩
def SPC_EVENT_CMD_DONE : Fld := ⟨0x1060010, 3, 1, .w1c, .l, .const 0⟩
def SPC_EVENT_WB_DISCARDED : Fld := ⟨0x1060010, 4, 1, .w1c, .l, .const 0⟩
def SPC_CMD_OP : Fld := ⟨0x1060018, 0, 4, .wo, .l, .const 0⟩
def SPC_CMD_WAY : Fld := ⟨0x1060018, 8, 4, .wo, .l, .const 0⟩
def SPC_CMD_WAYS : Fld := ⟨0x1060018, 16, 16, .wo, .l, .const 0⟩
def SPC_CMD_ADDR_ADDR : Fld := ⟨0x1060020, 0, 36, .rw, .l, .const 0⟩
def SPC_CMD_LEN_LEN : Fld := ⟨0x1060028, 0, 36, .rw, .l, .const 0⟩
def SPC_CMD_STAT_BUSY : Fld := ⟨0x1060030, 0, 1, .ro, .l, .const 0⟩
def SPC_CMD_STAT_STATUS : Fld := ⟨0x1060030, 8, 8, .ro, .l, .const 0⟩
def SPC_CMD_STAT_REASON : Fld := ⟨0x1060030, 16, 16, .ro, .l, .const 0⟩
def SPC_CMD_STAT_LINES : Fld := ⟨0x1060030, 32, 32, .ro, .l, .const 0⟩
def SPC_ERR_PARITY_CLEAN : Fld := ⟨0x1060038, 0, 32, .rc, .l, .const 0⟩
def SPC_ERR_SET : Fld := ⟨0x1060038, 32, 14, .ro, .l, .const 0⟩
def SPC_ERR_WAY : Fld := ⟨0x1060038, 46, 4, .ro, .l, .const 0⟩
def SPC_WB_WB_DISCARDED : Fld := ⟨0x1060040, 0, 32, .rc, .l, .const 0⟩
def SPC_WB_DIRTY : Fld := ⟨0x1060040, 32, 19, .ro, .l, .const 0⟩
def SPC_PF_ISSUED : Fld := ⟨0x1060048, 0, 32, .ro, .l, .const 0⟩
def SPC_PF_USEFUL : Fld := ⟨0x1060048, 32, 32, .ro, .l, .const 0⟩
def SPC_CLASS_MASK_MASK : Fld := ⟨0x1060100, 0, 16, .rw, .e, .const 65535⟩
def SPC_CLASS_STAT_HITS : Fld := ⟨0x1060200, 0, 32, .ro, .l, .const 0⟩
def SPC_CLASS_STAT_MISSES : Fld := ⟨0x1060200, 32, 32, .ro, .l, .const 0⟩
def CDC_CTL_ENABLE : Fld := ⟨0x1070000, 0, 1, .rw, .l, .const 0⟩
def CDC_STAT_WORK : Fld := ⟨0x1070008, 0, 2, .ro, .l, .const 0⟩
def CDC_STAT_SLOTS : Fld := ⟨0x1070008, 2, 2, .ro, .l, .const 0⟩
def CDC_STAT_JOBS : Fld := ⟨0x1070008, 8, 5, .ro, .l, .const 0⟩
def CDC_STAT_CAPTURE : Fld := ⟨0x1070008, 16, 9, .ro, .l, .const 0⟩
def CDC_EVENT_CORRUPT : Fld := ⟨0x1070010, 0, 1, .w1c, .l, .const 0⟩
def CDC_EVENT_LIMIT : Fld := ⟨0x1070010, 1, 1, .w1c, .l, .const 0⟩
def CDC_EVENT_SHORT : Fld := ⟨0x1070010, 2, 1, .w1c, .l, .const 0⟩
def CDC_BYTES_IN_BYTES : Fld := ⟨0x1070018, 0, 64, .ro, .l, .const 0⟩
def CDC_BYTES_OUT_BYTES : Fld := ⟨0x1070020, 0, 64, .ro, .l, .const 0⟩
def CDC_BLOCKS_RAW : Fld := ⟨0x1070028, 0, 32, .ro, .l, .const 0⟩
def CDC_BLOCKS_FAILED : Fld := ⟨0x1070028, 32, 16, .rc, .l, .const 0⟩
def CDC_BLOCKS_PREEMPTS : Fld := ⟨0x1070028, 48, 16, .rc, .l, .const 0⟩
def CDC_LAST_ERR_STEP : Fld := ⟨0x1070030, 0, 4, .ro, .l, .const 0⟩
def CDC_LAST_ERR_REASON : Fld := ⟨0x1070030, 8, 16, .ro, .l, .const 0⟩
def CDC_LAST_ERR_WORK : Fld := ⟨0x1070030, 24, 2, .ro, .l, .const 0⟩
def CDC_LAST_ERR_IN_OFFSET : Fld := ⟨0x1070030, 32, 32, .ro, .l, .const 0⟩
def RING_SQ_BASE_BASE : Fld := ⟨0x400000, 0, 64, .rw, .s, .const 0⟩
def RING_SQ_CFG_SIZE_LOG2 : Fld := ⟨0x400008, 0, 5, .rw, .s, .const 0⟩
def RING_SQ_CFG_CQ : Fld := ⟨0x400008, 16, 16, .rw, .s, .const 0⟩
def RING_SQ_CTL_ENABLE : Fld := ⟨0x400010, 0, 1, .rw, .l, .const 0⟩
def RING_SQ_CTL_STATE : Fld := ⟨0x400010, 4, 2, .ro, .l, .const 0⟩
def RING_SQ_IDX_PI : Fld := ⟨0x400018, 0, 32, .ro, .l, .const 0⟩
def RING_SQ_IDX_CI : Fld := ⟨0x400018, 32, 32, .ro, .l, .const 0⟩
def RING_SQ_STAT_MALFORMED : Fld := ⟨0x400020, 0, 16, .rc, .l, .const 0⟩
def RING_SQ_STAT_REREADS : Fld := ⟨0x400020, 16, 16, .rc, .l, .const 0⟩
def RING_SQ_STAT_DB_DROPPED : Fld := ⟨0x400020, 32, 16, .rc, .l, .const 0⟩
def RING_SQ_STAT_ABORTED : Fld := ⟨0x400020, 48, 16, .rc, .l, .const 0⟩
def RING_CQ_BASE_BASE : Fld := ⟨0x800000, 0, 64, .rw, .s, .const 0⟩
def RING_CQ_CFG_SIZE_LOG2 : Fld := ⟨0x800008, 0, 5, .rw, .s, .const 0⟩
def RING_CQ_CFG_VECTOR : Fld := ⟨0x800008, 16, 11, .rw, .s, .const 0⟩
def RING_CQ_CFG_IRQ_EN : Fld := ⟨0x800008, 27, 1, .rw, .l, .const 0⟩
def RING_CQ_CFG_COAL_COUNT : Fld := ⟨0x800008, 32, 8, .rw, .l, .const 1⟩
def RING_CQ_CFG_COAL_FC : Fld := ⟨0x800008, 40, 24, .rw, .l, .const 0⟩
def RING_CQ_CTL_ENABLE : Fld := ⟨0x800010, 0, 1, .rw, .l, .const 0⟩
def RING_CQ_CTL_STATE : Fld := ⟨0x800010, 4, 2, .ro, .l, .const 0⟩
def RING_CQ_IDX_PI : Fld := ⟨0x800018, 0, 32, .ro, .l, .const 0⟩
def RING_CQ_IDX_CI : Fld := ⟨0x800018, 32, 32, .ro, .l, .const 0⟩
def RING_CQ_STAT_OVF : Fld := ⟨0x800020, 0, 9, .ro, .l, .const 0⟩
def RING_CQ_STAT_OVF_HIGH : Fld := ⟨0x800020, 16, 9, .rc, .l, .const 0⟩
def RING_CQ_STAT_OVF_LOST : Fld := ⟨0x800020, 32, 16, .rc, .l, .const 0⟩
def RING_CQ_STAT_DISCARDED : Fld := ⟨0x800020, 48, 16, .rc, .l, .const 0⟩
def RING_HALT_CAUSE_HALTED : Fld := ⟨0xC00000, 0, 1, .ro, .l, .const 0⟩
def RING_HALT_CAUSE_RING_KIND : Fld := ⟨0xC00000, 1, 1, .ro, .l, .const 0⟩
def RING_HALT_CAUSE_FIELD : Fld := ⟨0xC00000, 4, 4, .ro, .l, .const 0⟩
def RING_HALT_CAUSE_RING : Fld := ⟨0xC00000, 16, 16, .ro, .l, .const 0⟩
def RING_HALT_CAUSE_FC : Fld := ⟨0xC00000, 32, 32, .ro, .l, .const 0⟩
def RING_OVF_CFG_STACK : Fld := ⟨0xC00008, 0, 3, .rw, .s, .const 0⟩
def RING_OVF_CFG_UNIT : Fld := ⟨0xC00008, 8, 6, .rw, .s, .const 0⟩
def RING_OVF_CFG_VALID : Fld := ⟨0xC00008, 16, 1, .rw, .s, .const 0⟩
def RING_EVENT_DB_DROPPED : Fld := ⟨0xC00010, 0, 1, .w1c, .l, .const 0⟩
def RING_EVENT_MALFORMED : Fld := ⟨0xC00010, 1, 1, .w1c, .l, .const 0⟩
def RING_EVENT_OVERFLOW : Fld := ⟨0xC00010, 2, 1, .w1c, .l, .const 0⟩
def RING_EVENT_OVF_FULL : Fld := ⟨0xC00010, 3, 1, .w1c, .l, .const 0⟩
def RING_EVENT_OVF_LOST : Fld := ⟨0xC00010, 4, 1, .w1c, .l, .const 0⟩
def RING_EVENT_FETCH_ERROR : Fld := ⟨0xC00010, 5, 1, .w1c, .l, .const 0⟩
def RING_EVENT_HALT : Fld := ⟨0xC00010, 6, 1, .w1c, .l, .const 0⟩
def RING_EVT_SUMMARY_BLOCK : Fld := ⟨0xC00018, 1, 20, .ro, .l, .const 0⟩
def RING_EVT_CFG_ENABLE : Fld := ⟨0xC00020, 0, 1, .rw, .l, .const 0⟩
def RING_EVT_CFG_MASK : Fld := ⟨0xC00020, 1, 20, .rw, .l, .const 0⟩
def RING_EVT_CFG_VECTOR : Fld := ⟨0xC00020, 32, 11, .rw, .l, .const 0⟩
def RING_PORT_STAT_CONSUMED : Fld := ⟨0xC00040, 0, 32, .ro, .l, .const 0⟩
def RING_PORT_STAT_COMPLETIONS : Fld := ⟨0xC00040, 32, 32, .ro, .l, .const 0⟩
def DMA_CTL_ENABLE : Fld := ⟨0x1080000, 0, 1, .rw, .l, .const 0⟩
def DMA_CTL_ACTIVE : Fld := ⟨0x1080000, 1, 1, .ro, .l, .const 0⟩
def DMA_CFG_FN : Fld := ⟨0x1080008, 0, 11, .ro, .l, .const 2047⟩
def DMA_CFG_SYSTEM : Fld := ⟨0x1080008, 11, 1, .ro, .l, .sysChan⟩
def DMA_CFG_SHARE : Fld := ⟨0x1080008, 16, 9, .ro, .l, .const 0⟩
def DMA_SRC_SRC : Fld := ⟨0x1080010, 0, 64, .ro, .l, .const 0⟩
def DMA_DST_DST : Fld := ⟨0x1080018, 0, 64, .ro, .l, .const 0⟩
def DMA_COUNT_COUNT : Fld := ⟨0x1080020, 0, 32, .ro, .l, .const 0⟩
def DMA_COUNT_WRITTEN : Fld := ⟨0x1080020, 32, 32, .ro, .l, .const 0⟩
def DMA_STAT_CLASS : Fld := ⟨0x1080028, 0, 2, .ro, .l, .const 0⟩
def DMA_STAT_QUEUED : Fld := ⟨0x1080028, 8, 5, .ro, .l, .const 0⟩
def DMA_STAT_RING : Fld := ⟨0x1080028, 16, 16, .ro, .l, .const 0⟩
def DMA_STAT_TAG : Fld := ⟨0x1080028, 32, 16, .ro, .l, .const 0⟩
def DMA_FAULT_FAULT_ADDR : Fld := ⟨0x1080030, 0, 64, .ro, .l, .const 0⟩
def DMA_ERR_STATUS : Fld := ⟨0x1080038, 0, 8, .ro, .l, .const 0⟩
def DMA_ERR_REASON : Fld := ⟨0x1080038, 8, 16, .ro, .l, .const 0⟩
def DMA_ERR_ERRORS : Fld := ⟨0x1080038, 32, 32, .rc, .l, .const 0⟩
def DMA_BYTES_BYTES : Fld := ⟨0x1080040, 0, 64, .ro, .l, .const 0⟩
def DMA_WAIT_PREEMPTS : Fld := ⟨0x1080048, 0, 32, .rc, .l, .const 0⟩
def DMA_WAIT_RATE_WAIT_FC : Fld := ⟨0x1080048, 32, 32, .ro, .l, .const 0⟩
def DMA_EVENT_ERROR : Fld := ⟨0x1080200, 0, 1, .w1c, .l, .const 0⟩
def DMA_EVENT_DROPPED : Fld := ⟨0x1080200, 1, 1, .w1c, .l, .const 0⟩
def DMA_ACTIVE_ACTIVE : Fld := ⟨0x1080208, 0, 64, .ro, .l, .const 0⟩
def DMA_BEATS_BEATS : Fld := ⟨0x1080210, 0, 64, .ro, .l, .const 0⟩
def FN_CTL_DRAIN_LIMIT : Fld := ⟨0x200000, 0, 32, .rw, .l, .const 2400000⟩
def FN_STAGE_REQ : Fld := ⟨0x200008, 0, 1, .wo, .l, .const 0⟩
def FN_STAGE_WITHDRAW : Fld := ⟨0x200008, 1, 1, .wo, .l, .const 0⟩
def FN_STAGE_STAT_STATE : Fld := ⟨0x200010, 0, 2, .ro, .l, .const 0⟩
def FN_STAGE_STAT_READY : Fld := ⟨0x200010, 2, 1, .ro, .l, .const 0⟩
def FN_STAGE_STAT_STATUS : Fld := ⟨0x200010, 8, 8, .ro, .l, .const 0⟩
def FN_STAGE_STAT_REASON : Fld := ⟨0x200010, 16, 16, .ro, .l, .const 0⟩
def FN_STAGE_STAT_TABLE : Fld := ⟨0x200010, 32, 4, .ro, .l, .const 0⟩
def FN_STAGE_STAT_INDEX : Fld := ⟨0x200010, 48, 16, .ro, .l, .const 0⟩
def FN_EVENT_APPLIED : Fld := ⟨0x200018, 0, 1, .w1c, .l, .const 0⟩
def FN_EVENT_CHECK_FAILED : Fld := ⟨0x200018, 1, 1, .w1c, .l, .const 0⟩
def FN_EVENT_DRAIN_SQUASH : Fld := ⟨0x200018, 2, 1, .w1c, .l, .const 0⟩
def FN_EVENT_RESET_DONE : Fld := ⟨0x200018, 3, 1, .w1c, .l, .const 0⟩
def FN_EVENT_SCRUB_FAULT : Fld := ⟨0x200018, 4, 1, .w1c, .l, .const 0⟩
def FN_EVENT_SCRUBBED : Fld := ⟨0x200018, 5, 1, .w1c, .l, .const 0⟩
def FN_RESET_LAST_FUNCTION : Fld := ⟨0x200020, 0, 11, .ro, .l, .const 2047⟩
def FN_RESET_LAST_SQUASHED : Fld := ⟨0x200020, 16, 16, .ro, .l, .const 0⟩
def FN_RESET_LAST_DURATION_FC : Fld := ⟨0x200020, 32, 32, .ro, .l, .const 0⟩
def FN_APPLIED_EPOCH : Fld := ⟨0x200028, 0, 64, .ro, .l, .const 0⟩
def FN_OWN_TILE_OWNER : Fld := ⟨0x201000, 0, 11, .ro, .l, .const 2047⟩
def FN_OWN_TILE_DIRTY : Fld := ⟨0x201000, 11, 1, .ro, .l, .const 0⟩
def FN_OWN_TILE_NEXT : Fld := ⟨0x201000, 16, 11, .rw, .s, .const 2047⟩
def FN_OWN_TILE_AUX : Fld := ⟨0x201000, 32, 11, .ro, .l, .const 0⟩
def FN_OWN_TILE_AUX_NEXT : Fld := ⟨0x201000, 48, 11, .rw, .s, .const 0⟩
def FN_OWN_SLICE_OWNER : Fld := ⟨0x202000, 0, 11, .ro, .l, .const 2047⟩
def FN_OWN_SLICE_DIRTY : Fld := ⟨0x202000, 11, 1, .ro, .l, .const 0⟩
def FN_OWN_SLICE_NEXT : Fld := ⟨0x202000, 16, 11, .rw, .s, .const 2047⟩
def FN_OWN_SLICE_AUX : Fld := ⟨0x202000, 32, 11, .ro, .l, .const 0⟩
def FN_OWN_SLICE_AUX_NEXT : Fld := ⟨0x202000, 48, 11, .rw, .s, .const 0⟩
def FN_OWN_UNIT_OWNER : Fld := ⟨0x203000, 0, 11, .ro, .l, .const 2047⟩
def FN_OWN_UNIT_DIRTY : Fld := ⟨0x203000, 11, 1, .ro, .l, .const 0⟩
def FN_OWN_UNIT_NEXT : Fld := ⟨0x203000, 16, 11, .rw, .s, .const 2047⟩
def FN_OWN_UNIT_AUX : Fld := ⟨0x203000, 32, 11, .ro, .l, .const 0⟩
def FN_OWN_UNIT_AUX_NEXT : Fld := ⟨0x203000, 48, 11, .rw, .s, .const 0⟩
def FN_OWN_DMA_OWNER : Fld := ⟨0x204000, 0, 11, .ro, .l, .const 2047⟩
def FN_OWN_DMA_DIRTY : Fld := ⟨0x204000, 11, 1, .ro, .l, .const 0⟩
def FN_OWN_DMA_NEXT : Fld := ⟨0x204000, 16, 11, .rw, .s, .const 2047⟩
def FN_OWN_DMA_AUX : Fld := ⟨0x204000, 32, 11, .ro, .l, .const 0⟩
def FN_OWN_DMA_AUX_NEXT : Fld := ⟨0x204000, 48, 11, .rw, .s, .const 0⟩
def FN_OWN_SRC_OWNER : Fld := ⟨0x206000, 0, 11, .ro, .l, .const 2047⟩
def FN_OWN_SRC_DIRTY : Fld := ⟨0x206000, 11, 1, .ro, .l, .const 0⟩
def FN_OWN_SRC_NEXT : Fld := ⟨0x206000, 16, 11, .rw, .s, .const 2047⟩
def FN_OWN_SRC_AUX : Fld := ⟨0x206000, 32, 11, .ro, .l, .const 0⟩
def FN_OWN_SRC_AUX_NEXT : Fld := ⟨0x206000, 48, 11, .rw, .s, .const 0⟩
def FN_OWN_RING_OWNER : Fld := ⟨0x280000, 0, 11, .ro, .l, .const 2047⟩
def FN_OWN_RING_DIRTY : Fld := ⟨0x280000, 11, 1, .ro, .l, .const 0⟩
def FN_OWN_RING_NEXT : Fld := ⟨0x280000, 16, 11, .rw, .s, .const 2047⟩
def FN_OWN_RING_AUX : Fld := ⟨0x280000, 32, 11, .ro, .l, .const 0⟩
def FN_OWN_RING_AUX_NEXT : Fld := ⟨0x280000, 48, 11, .rw, .s, .const 0⟩
def FN_ATTR_WAYS : Fld := ⟨0x208000, 0, 16, .ro, .l, .const 65535⟩
def FN_ATTR_CEILING : Fld := ⟨0x208000, 16, 4, .ro, .l, .const 15⟩
def FN_ATTR_STATE : Fld := ⟨0x208000, 24, 2, .ro, .l, .const 0⟩
def FN_ATTR_SCRUB_FAULT : Fld := ⟨0x208000, 26, 1, .ro, .l, .const 0⟩
def FN_ATTR_NEXT_WAYS : Fld := ⟨0x208008, 0, 16, .rw, .s, .const 65535⟩
def FN_ATTR_NEXT_CEILING : Fld := ⟨0x208008, 16, 4, .rw, .s, .const 15⟩
def FN_VF_ID_FUNCTION : Fld := ⟨0x100000000, 0, 11, .ro, .l, .const 0⟩
def FN_VF_ID_PF : Fld := ⟨0x100000000, 11, 1, .ro, .l, .const 0⟩
def FN_VF_ID_VF : Fld := ⟨0x100000000, 12, 10, .ro, .l, .const 0⟩
def FN_VF_RES_TILES : Fld := ⟨0x100000008, 0, 10, .ro, .l, .const 0⟩
def FN_VF_RES_SLICES : Fld := ⟨0x100000008, 10, 8, .ro, .l, .const 0⟩
def FN_VF_RES_UNITS : Fld := ⟨0x100000008, 18, 9, .ro, .l, .const 0⟩
def FN_VF_RES_RINGS : Fld := ⟨0x100000008, 27, 12, .ro, .l, .const 0⟩
def FN_VF_RES_CHANNELS : Fld := ⟨0x100000008, 39, 9, .ro, .l, .const 0⟩
def FN_VF_RES_CEILING : Fld := ⟨0x100000008, 48, 4, .ro, .l, .const 15⟩
def FN_VF_STAT_STATE : Fld := ⟨0x100000010, 0, 2, .ro, .l, .const 0⟩
def FN_VF_STAT_SCRUB_FAULT : Fld := ⟨0x100000010, 2, 1, .ro, .l, .const 0⟩
def FN_VF_STAT_SQUASHED : Fld := ⟨0x100000010, 16, 16, .ro, .l, .const 0⟩
def TWN_CTL_SWAP_EN : Fld := ⟨0x70000, 0, 1, .rw, .l, .const 1⟩
def TWN_CTL_HB_MISS : Fld := ⟨0x70000, 1, 3, .rw, .l, .const 4⟩
def TWN_EVENT_DIE_FAILED : Fld := ⟨0x70008, 0, 1, .w1c, .l, .const 0⟩
def TWN_EVENT_MISMATCH : Fld := ⟨0x70008, 1, 1, .w1c, .l, .const 0⟩
def TWN_EVENT_SWAPPED : Fld := ⟨0x70008, 2, 1, .w1c, .l, .const 0⟩
def TWN_EVENT_SYNCED : Fld := ⟨0x70008, 3, 1, .w1c, .l, .const 0⟩
def TWN_EVENT_PAIR_LOST : Fld := ⟨0x70008, 4, 1, .w1c, .l, .const 0⟩
def TWN_EVENT_HOLD_OVERFLOW : Fld := ⟨0x70008, 5, 1, .w1c, .l, .const 0⟩
def TWN_PAIR_CTL_ENABLE : Fld := ⟨0x70100, 0, 1, .rw, .s, .const 0⟩
def TWN_PAIR_STAT_STATE : Fld := ⟨0x70108, 0, 3, .ro, .l, .const 0⟩
def TWN_PAIR_STAT_LEAD : Fld := ⟨0x70108, 3, 1, .ro, .l, .const 0⟩
def TWN_PAIR_STAT_FAILED : Fld := ⟨0x70108, 4, 2, .ro, .l, .const 0⟩
def TWN_PAIR_STAT_CAUSE : Fld := ⟨0x70108, 6, 2, .ro, .l, .const 0⟩
def TWN_PAIR_STAT_UNRESOLVED : Fld := ⟨0x70108, 8, 1, .ro, .l, .const 0⟩
def TWN_PAIR_STAT_EDGE : Fld := ⟨0x70108, 9, 1, .ro, .l, .const 0⟩
def TWN_PAIR_STAT_SWAPS : Fld := ⟨0x70108, 32, 32, .ro, .l, .const 0⟩
def TWN_PAIR_DIG_COMPARED : Fld := ⟨0x70110, 0, 32, .ro, .l, .const 0⟩
def TWN_PAIR_DIG_MISMATCHES : Fld := ⟨0x70110, 32, 16, .rc, .l, .const 0⟩
def TWN_PAIR_HOLD_HELD : Fld := ⟨0x70118, 0, 11, .ro, .l, .const 0⟩
def TWN_PAIR_HOLD_DISCARDED : Fld := ⟨0x70118, 16, 16, .rc, .l, .const 0⟩
def TWN_PAIR_SYNC_BYTES : Fld := ⟨0x70120, 0, 64, .ro, .l, .const 0⟩
def TWN_DUP_DROPPED : Fld := ⟨0x70200, 0, 32, .rc, .l, .const 0⟩
def TWN_DUP_GAPS : Fld := ⟨0x70200, 32, 32, .rc, .l, .const 0⟩
def TWN_DIGEST_DIGEST : Fld := ⟨0x71000, 0, 64, .ro, .l, .const 0⟩
def TWN_DIGEST_EPOCH_EPOCH : Fld := ⟨0x71100, 0, 64, .ro, .l, .const 0⟩
def PWR_CTL_ALERT_EN : Fld := ⟨0x30000, 0, 1, .rw, .l, .const 1⟩
def PWR_EVENT_FEED_A_LOST : Fld := ⟨0x30008, 0, 1, .w1c, .l, .const 0⟩
def PWR_EVENT_FEED_B_LOST : Fld := ⟨0x30008, 1, 1, .w1c, .l, .const 0⟩
def PWR_EVENT_FEED_A_RESTORED : Fld := ⟨0x30008, 2, 1, .w1c, .l, .const 0⟩
def PWR_EVENT_FEED_B_RESTORED : Fld := ⟨0x30008, 3, 1, .w1c, .l, .const 0⟩
def PWR_EVENT_DEGRADED : Fld := ⟨0x30008, 4, 1, .w1c, .l, .const 0⟩
def PWR_STAT_FEED_A : Fld := ⟨0x30010, 0, 2, .ro, .l, .const 2⟩
def PWR_STAT_FEED_B : Fld := ⟨0x30010, 2, 2, .ro, .l, .const 2⟩
def PWR_STAT_ALERT : Fld := ⟨0x30010, 4, 1, .ro, .l, .const 0⟩
def PWR_STAT_SEALED_VALID : Fld := ⟨0x30010, 5, 1, .ro, .l, .const 0⟩
def PWR_STAT_PACKAGE_W : Fld := ⟨0x30010, 16, 16, .ro, .l, .const 0⟩
def PWR_STAT_PEAK_W : Fld := ⟨0x30010, 32, 16, .rc, .l, .const 0⟩
def PWR_FEED_MV : Fld := ⟨0x30020, 0, 16, .ro, .l, .const 0⟩
def PWR_FEED_CURRENT : Fld := ⟨0x30020, 16, 16, .ro, .l, .const 0⟩
def PWR_FEED_MIN_MV : Fld := ⟨0x30020, 32, 16, .rc, .l, .const 65535⟩
def PWR_FEED_CNT_LOSSES : Fld := ⟨0x30028, 0, 16, .ro, .l, .const 0⟩
def PWR_FEED_CNT_DEGRADES : Fld := ⟨0x30028, 16, 16, .ro, .l, .const 0⟩
def CLK_REF_CTL_PREFER : Fld := ⟨0x40000, 0, 1, .rw, .l, .const 0⟩
def CLK_REF_STAT_STATE : Fld := ⟨0x40008, 0, 2, .ro, .l, .const 0⟩
def CLK_REF_STAT_PASSES : Fld := ⟨0x40008, 2, 2, .ro, .l, .const 0⟩
def CLK_REF_STAT_ERR_PPM : Fld := ⟨0x40008, 16, 16, .ro, .l, .const 0⟩
def CLK_REF_STAT_FAILS : Fld := ⟨0x40008, 32, 32, .rc, .l, .const 0⟩
def CLK_PLL_STAT_STATE : Fld := ⟨0x40018, 0, 2, .ro, .l, .const 0⟩
def CLK_PLL_STAT_REF : Fld := ⟨0x40018, 2, 1, .ro, .l, .const 0⟩
def CLK_PLL_STAT_SWITCHES : Fld := ⟨0x40018, 16, 16, .ro, .l, .const 0⟩
def CLK_PLL_STAT_HOLDOVER_FC : Fld := ⟨0x40018, 32, 32, .ro, .l, .const 0⟩
def CLK_EVENT_REF_UNSTABLE : Fld := ⟨0x40020, 0, 1, .w1c, .l, .const 0⟩
def CLK_EVENT_HOLDOVER : Fld := ⟨0x40020, 1, 1, .w1c, .l, .const 0⟩
def CLK_EVENT_REF_SWITCH : Fld := ⟨0x40020, 2, 1, .w1c, .l, .const 0⟩
def CLK_EVENT_EDGE_DOWN : Fld := ⟨0x40020, 3, 1, .w1c, .l, .const 0⟩
def CLK_EVENT_EDGE_UP : Fld := ⟨0x40020, 4, 1, .w1c, .l, .const 0⟩
def CLK_EVENT_PORT_LOST : Fld := ⟨0x40020, 5, 1, .w1c, .l, .const 0⟩
def CLK_EVENT_HP_ATTN : Fld := ⟨0x40020, 6, 1, .w1c, .l, .const 0⟩
def CLK_EVENT_HP_EJECT : Fld := ⟨0x40020, 7, 1, .w1c, .l, .const 0⟩
def CLK_EVENT_QUIESCED : Fld := ⟨0x40020, 8, 1, .w1c, .l, .const 0⟩
def CLK_RESET_WARM : Fld := ⟨0x40028, 0, 1, .wo, .l, .const 0⟩
def CLK_RESET_KEY : Fld := ⟨0x40028, 16, 16, .wo, .l, .const 0⟩
def CLK_RESET_WARM_COUNT : Fld := ⟨0x40028, 32, 32, .ro, .l, .const 0⟩
def CLK_HP_QUIESCE : Fld := ⟨0x40030, 0, 1, .w1s, .l, .const 0⟩
def CLK_HP_SAFE : Fld := ⟨0x40030, 1, 1, .ro, .l, .const 0⟩
def CLK_HP_ATTN : Fld := ⟨0x40030, 2, 1, .ro, .l, .const 0⟩
def CLK_HP_EJECT : Fld := ⟨0x40030, 3, 1, .ro, .l, .const 0⟩
def CLK_HP_FEED_A_MATED : Fld := ⟨0x40030, 4, 1, .ro, .l, .const 0⟩
def CLK_HP_FEED_B_MATED : Fld := ⟨0x40030, 5, 1, .ro, .l, .const 0⟩
def CLK_DOM_SRC : Fld := ⟨0x40040, 0, 1, .ro, .l, .const 0⟩
def CLK_DOM_FORCED : Fld := ⟨0x40040, 1, 1, .w1c, .l, .const 0⟩
def CLK_DOM_SWITCHES : Fld := ⟨0x40040, 32, 32, .ro, .l, .const 0⟩
def CLK_BOOT_STEP : Fld := ⟨0x40080, 0, 4, .ro, .l, .const 0⟩
def CLK_BOOT_FAILED : Fld := ⟨0x40080, 4, 1, .ro, .l, .const 0⟩
def CLK_BOOT_WARM : Fld := ⟨0x40080, 5, 1, .ro, .l, .const 0⟩
def CLK_BOOT_T_FC : Fld := ⟨0x40088, 0, 32, .ro, .l, .const 0⟩
def CLK_GATE_GATE : Fld := ⟨0x40100, 0, 20, .rw, .l, .const 0⟩
def CLK_DIE_RST_HOLD : Fld := ⟨0x40200, 0, 1, .rw, .l, .const 0⟩
def CLK_DIE_RST_BY_BRIM : Fld := ⟨0x40200, 1, 1, .ro, .l, .const 0⟩
def CLK_DIE_RST_STATE : Fld := ⟨0x40200, 2, 2, .ro, .l, .const 0⟩
def CLK_DIE_RST_FC : Fld := ⟨0x40200, 32, 32, .ro, .l, .const 0⟩
def CLK_PORT_LINK_UP : Fld := ⟨0x40300, 0, 1, .ro, .l, .const 0⟩
def CLK_PORT_SPEED : Fld := ⟨0x40300, 1, 3, .ro, .l, .const 0⟩
def CLK_PORT_WIDTH : Fld := ⟨0x40300, 4, 5, .ro, .l, .const 0⟩
def CLK_PORT_LOSSES : Fld := ⟨0x40300, 16, 16, .ro, .l, .const 0⟩
def PKG_EDGE_STATE : Fld := ⟨0x1090010, 0, 2, .ro, .l, .const 0⟩
def PKG_EDGE_ATTEMPTS : Fld := ⟨0x1090010, 2, 2, .ro, .l, .const 0⟩
def PKG_EDGE_LOSSES : Fld := ⟨0x1090010, 16, 16, .rc, .l, .const 0⟩
def PKG_EDGE_DROPPED : Fld := ⟨0x1090010, 32, 32, .rc, .l, .const 0⟩
def ERR_CTL_COALESCE_FC : Fld := ⟨0x50000, 0, 32, .rw, .l, .const 2400000⟩
def ERR_STAT_VALID : Fld := ⟨0x50008, 0, 7, .ro, .l, .const 0⟩
def ERR_STAT_CURRENT : Fld := ⟨0x50008, 8, 2, .ro, .l, .const 0⟩
def ERR_STAT_LOST : Fld := ⟨0x50008, 10, 1, .w1c, .l, .const 0⟩
def ERR_STAT_OLDEST : Fld := ⟨0x50008, 16, 6, .ro, .l, .const 0⟩
def ERR_STAT_OVERFLOW : Fld := ⟨0x50008, 32, 16, .rc, .l, .const 0⟩
def ERR_EVENT_LOGGED : Fld := ⟨0x50010, 0, 1, .w1c, .l, .const 0⟩
def ERR_EVENT_ESCALATE : Fld := ⟨0x50010, 1, 1, .w1c, .l, .const 0⟩
def ERR_EVENT_LOST : Fld := ⟨0x50010, 2, 1, .w1c, .l, .const 0⟩
def ERR_EVENT_FATAL : Fld := ⟨0x50010, 3, 1, .w1c, .l, .const 0⟩
def ERR_EVENT_HALT : Fld := ⟨0x50010, 4, 1, .w1c, .l, .const 0⟩
def ERR_COUNT_CORRECTED : Fld := ⟨0x50018, 0, 16, .rc, .l, .const 0⟩
def ERR_COUNT_DEFERRED : Fld := ⟨0x50018, 16, 16, .rc, .l, .const 0⟩
def ERR_COUNT_FATAL : Fld := ⟨0x50018, 32, 16, .rc, .l, .const 0⟩
def ERR_COUNT_HALT : Fld := ⟨0x50018, 48, 16, .rc, .l, .const 0⟩
def ERR_ESC_CFG_ENABLE : Fld := ⟨0x50020, 0, 1, .rw, .l, .const 0⟩
def ERR_ESC_CFG_VECTOR : Fld := ⟨0x50020, 32, 11, .rw, .l, .const 0⟩
def ERR_INJECT_SEV : Fld := ⟨0x50030, 0, 2, .wo, .l, .const 0⟩
def ERR_INJECT_GO : Fld := ⟨0x50030, 2, 1, .wo, .l, .const 0⟩
def ERR_SEAL_CTL_ERASE : Fld := ⟨0x50038, 0, 1, .wo, .l, .const 0⟩
def ERR_SEAL_STAT_INTACT : Fld := ⟨0x50040, 0, 1, .ro, .l, .const 0⟩
def ERR_SEAL_STAT_OVERWRITTEN : Fld := ⟨0x50040, 1, 1, .ro, .l, .const 0⟩
def ERR_SEAL_STAT_VALID : Fld := ⟨0x50040, 2, 7, .ro, .l, .const 0⟩
def ERR_SEAL_STAT_FC : Fld := ⟨0x50040, 32, 32, .ro, .l, .const 0⟩
def ERR_ENT_A_VALID : Fld := ⟨0x51000, 0, 1, .w1c, .l, .const 0⟩
def ERR_ENT_A_SEV : Fld := ⟨0x51000, 1, 2, .ro, .l, .const 0⟩
def ERR_ENT_A_DIE : Fld := ⟨0x51000, 4, 4, .ro, .l, .const 0⟩
def ERR_ENT_A_REASON : Fld := ⟨0x51000, 11, 16, .ro, .l, .const 0⟩
def ERR_ENT_A_FN : Fld := ⟨0x51000, 27, 11, .ro, .l, .const 2047⟩
def ERR_ENT_A_REPEAT : Fld := ⟨0x51000, 48, 16, .ro, .l, .const 0⟩
def ERR_ENT_B_INSTANCE : Fld := ⟨0x51008, 0, 16, .ro, .l, .const 0⟩
def ERR_ENT_B_DETAIL : Fld := ⟨0x51008, 16, 48, .ro, .l, .const 0⟩
def ERR_ENT_C_FC : Fld := ⟨0x51010, 0, 64, .ro, .l, .const 0⟩
def ERR_ENT_D_SEQ : Fld := ⟨0x51018, 0, 32, .ro, .l, .const 0⟩
def ERR_ENT_D_LAST_REASON : Fld := ⟨0x51018, 32, 16, .ro, .l, .const 0⟩
def ERR_VF_SUM_PENDING : Fld := ⟨0x100008000, 0, 1, .w1c, .l, .const 0⟩
def ERR_VF_SUM_LAST_REASON : Fld := ⟨0x100008000, 16, 16, .ro, .l, .const 0⟩
def ERR_VF_SUM_INSTANCE : Fld := ⟨0x100008000, 32, 16, .ro, .l, .const 0⟩
def ERR_VF_SUM_COUNT : Fld := ⟨0x100008000, 48, 16, .rc, .l, .const 0⟩
def ERR_VF_CFG_ENABLE : Fld := ⟨0x100008008, 0, 1, .rw, .l, .const 0⟩
def ERR_VF_CFG_VECTOR : Fld := ⟨0x100008008, 16, 11, .rw, .l, .const 0⟩
def SEC_BOOT_IMAGE : Fld := ⟨0x60000, 0, 1, .ro, .l, .const 0⟩
def SEC_BOOT_A_CAUSE : Fld := ⟨0x60000, 1, 3, .ro, .l, .const 0⟩
def SEC_BOOT_MIN_SVN : Fld := ⟨0x60000, 8, 8, .ro, .l, .const 0⟩
def SEC_BOOT_FW_SVN : Fld := ⟨0x60000, 16, 16, .ro, .l, .const 0⟩
def SEC_BOOT_UCODE_SVN : Fld := ⟨0x60000, 32, 16, .ro, .l, .const 0⟩
def SEC_BOOT_KEY0_REVOKED : Fld := ⟨0x60000, 48, 1, .ro, .l, .const 0⟩
def SEC_SVN_COMMIT_COMMIT : Fld := ⟨0x60008, 0, 1, .wo, .l, .const 0⟩
def SEC_SVN_COMMIT_KEY : Fld := ⟨0x60008, 16, 16, .wo, .l, .const 0⟩
def SEC_ID_STAT_CERT_LEN : Fld := ⟨0x60010, 0, 16, .ro, .l, .const 0⟩
def SEC_NONCE_NONCE : Fld := ⟨0x60020, 0, 64, .rw, .l, .const 0⟩
def SEC_ATTEST_REQ : Fld := ⟨0x60040, 0, 1, .wo, .l, .const 0⟩
def SEC_ATTEST_BUSY : Fld := ⟨0x60040, 1, 1, .ro, .l, .const 0⟩
def SEC_ATTEST_STATUS : Fld := ⟨0x60040, 8, 8, .ro, .l, .const 0⟩
def SEC_ATTEST_REASON : Fld := ⟨0x60040, 16, 16, .ro, .l, .const 0⟩
def SEC_ATTEST_REPORT_LEN : Fld := ⟨0x60040, 32, 16, .ro, .l, .const 0⟩
def SEC_PK_CTL_SLOT : Fld := ⟨0x60048, 0, 3, .rw, .l, .const 0⟩
def SEC_PK_CTL_INSTALL : Fld := ⟨0x60048, 3, 1, .wo, .l, .const 0⟩
def SEC_PK_CTL_CLEAR : Fld := ⟨0x60048, 4, 1, .wo, .l, .const 0⟩
def SEC_PK_CTL_VALID : Fld := ⟨0x60048, 8, 8, .ro, .l, .const 1⟩
def SEC_PK_CTL_LOCK : Fld := ⟨0x60048, 16, 8, .w1s, .l, .const 1⟩
def SEC_PK_DIG_DIGEST : Fld := ⟨0x60200, 0, 64, .ro, .l, .const 0⟩
def SEC_DBG_CTL_CHALLENGE : Fld := ⟨0x60050, 0, 1, .wo, .l, .const 0⟩
def SEC_DBG_CTL_SUBMIT : Fld := ⟨0x60050, 1, 1, .wo, .l, .const 0⟩
def SEC_DBG_CTL_LEVEL : Fld := ⟨0x60050, 2, 2, .rw, .l, .const 0⟩
def SEC_DBG_STAT_STATE : Fld := ⟨0x60058, 0, 2, .ro, .l, .const 0⟩
def SEC_DBG_STAT_GRANTED : Fld := ⟨0x60058, 2, 2, .ro, .l, .const 0⟩
def SEC_DBG_STAT_FAILS : Fld := ⟨0x60058, 4, 2, .ro, .l, .const 0⟩
def SEC_DBG_STAT_STATUS : Fld := ⟨0x60058, 8, 8, .ro, .l, .const 0⟩
def SEC_DBG_STAT_REASON : Fld := ⟨0x60058, 16, 16, .ro, .l, .const 0⟩
def SEC_EVENT_ATTEST_DONE : Fld := ⟨0x60080, 0, 1, .w1c, .l, .const 0⟩
def SEC_EVENT_DEBUG_UNLOCKED : Fld := ⟨0x60080, 1, 1, .w1c, .l, .const 0⟩
def SEC_EVENT_DEBUG_DENIED : Fld := ⟨0x60080, 2, 1, .w1c, .l, .const 0⟩
def SEC_EVENT_KEY_CHANGED : Fld := ⟨0x60080, 3, 1, .w1c, .l, .const 0⟩
def PKG_STRAP_HOTPLUG : Fld := ⟨0x10, 0, 1, .ro, .l, .const 0⟩
def PKG_STRAP_PORT1 : Fld := ⟨0x10, 1, 1, .ro, .l, .const 0⟩
def PKG_STRAP_MFG : Fld := ⟨0x10, 2, 1, .ro, .l, .const 0⟩
def PKG_EVENT_THERM_WARN : Fld := ⟨0x18, 0, 1, .w1c, .l, .const 0⟩
def PKG_EVENT_THERM_TRIP : Fld := ⟨0x18, 1, 1, .w1c, .l, .const 0⟩
def PKG_EVENT_LIFE_95 : Fld := ⟨0x18, 2, 1, .w1c, .l, .const 0⟩
def PKG_LIFE_EQUIV : Fld := ⟨0x20, 0, 32, .ro, .l, .const 0⟩
def PKG_LIFE_ON_HOURS : Fld := ⟨0x20, 32, 32, .ro, .l, .const 0⟩
def PKG_LIFE2_HOURS_ABOVE_95 : Fld := ⟨0x28, 0, 32, .ro, .l, .const 0⟩
def PKG_LIFE2_COLD_CYCLES : Fld := ⟨0x28, 32, 16, .ro, .l, .const 0⟩
def PKG_LIFE2_TRIPS : Fld := ⟨0x28, 48, 16, .ro, .l, .const 0⟩
def PKG_THERM_TEMP : Fld := ⟨0x100, 0, 8, .ro, .l, .const 0⟩
def PKG_THERM_PEAK : Fld := ⟨0x100, 8, 8, .rc, .l, .const 0⟩
def ERR_SEAL_A_VALID : Fld := ⟨0x52000, 0, 1, .ro, .l, .const 0⟩
def ERR_SEAL_A_SEV : Fld := ⟨0x52000, 1, 2, .ro, .l, .const 0⟩
def ERR_SEAL_A_DIE : Fld := ⟨0x52000, 4, 4, .ro, .l, .const 0⟩
def ERR_SEAL_A_REASON : Fld := ⟨0x52000, 11, 16, .ro, .l, .const 0⟩
def ERR_SEAL_A_FN : Fld := ⟨0x52000, 27, 11, .ro, .l, .const 2047⟩
def ERR_SEAL_A_REPEAT : Fld := ⟨0x52000, 48, 16, .ro, .l, .const 0⟩
def ERR_SEAL_B_INSTANCE : Fld := ⟨0x52008, 0, 16, .ro, .l, .const 0⟩
def ERR_SEAL_B_DETAIL : Fld := ⟨0x52008, 16, 48, .ro, .l, .const 0⟩
def ERR_SEAL_C_FC : Fld := ⟨0x52010, 0, 64, .ro, .l, .const 0⟩
def ERR_SEAL_D_SEQ : Fld := ⟨0x52018, 0, 32, .ro, .l, .const 0⟩
def ERR_SEAL_D_LAST_REASON : Fld := ⟨0x52018, 32, 16, .ro, .l, .const 0⟩
def SEC_DBG_CHAL_NONCE : Fld := ⟨0x60060, 0, 64, .ro, .l, .const 0⟩
def SEC_MEAS_DIGEST : Fld := ⟨0x60100, 0, 64, .ro, .l, .const 0⟩
def SCH_SNAP_TILE_DEPTH_READY : Fld := ⟨0x1103000, 0, 11, .ro, .l, .const 0⟩
def SCH_SNAP_TILE_DEPTH_READY_HIGH : Fld := ⟨0x1103000, 16, 11, .ro, .l, .const 0⟩
def SCH_SNAP_TILE_DEPTH_QUEUED : Fld := ⟨0x1103000, 32, 11, .ro, .l, .const 0⟩
def SCH_SNAP_TILE_DEPTH_QUEUED_HIGH : Fld := ⟨0x1103000, 48, 11, .ro, .l, .const 0⟩
def SCH_SNAP_TILE_LEVELS_NONEMPTY : Fld := ⟨0x1103008, 0, 16, .ro, .l, .const 0⟩
def SCH_SNAP_TILE_DISP_DISPATCHED : Fld := ⟨0x1103010, 0, 64, .ro, .l, .const 0⟩
def SCH_SNAP_TILE_BUSY_BUSY_CELL_FC : Fld := ⟨0x1103018, 0, 64, .ro, .l, .const 0⟩
def SCH_SNAP_TILE_HOLD_IN_HOLD_FC : Fld := ⟨0x1103020, 0, 32, .ro, .l, .const 0⟩
def SCH_SNAP_TILE_HOLD_OUT_GATE_FC : Fld := ⟨0x1103020, 32, 32, .ro, .l, .const 0⟩
def SCH_SNAP_TILE_CANCEL_CANCELLED : Fld := ⟨0x1103028, 0, 32, .ro, .l, .const 0⟩
def SCH_SNAP_TILE_WAIT_COUNT : Fld := ⟨0x1103100, 0, 32, .ro, .l, .const 0⟩

end F

/-- A piece of the register table. -/
def regRows0 : List RegRow := [
  ⟨0x0, [], [F.PKG_ID_STEPPING, F.PKG_ID_PART, F.PKG_ID_DIE_COUNT, F.PKG_ID_DIE_PRESENT, F.PKG_ID_TWIN_CAPABLE, F.PKG_ID_HOST_PF, F.PKG_ID_FAMILY]⟩,
  ⟨0x8, [], [F.PKG_CAP_RING_LOG2, F.PKG_CAP_VF_LOG2, F.PKG_CAP_TRANSIT_PORTS, F.PKG_CAP_HBM_UNITS, F.PKG_CAP_SRAM_SLICES, F.PKG_CAP_TRAVERSES]⟩,
  ⟨0x1090000, [(8, 0x400000)], [F.PKG_DIE_ID_DIE, F.PKG_DIE_ID_HOST_PORT, F.PKG_DIE_ID_COLUMN_ROW, F.PKG_DIE_ID_COLUMN_HI, F.PKG_DIE_ID_EDGES, F.PKG_DIE_ID_LOT_POSITION]⟩,
  ⟨0x20000, [], [F.BMK_CTL_ENABLE, F.BMK_CTL_EPOCH_SHIFT, F.BMK_CTL_STALL_POLICY, F.BMK_CTL_EPOCH_MIN_GAP]⟩,
  ⟨0x20008, [], [F.BMK_SILENCE_SILENCE_TIMEOUT]⟩,
  ⟨0x20010, [], [F.BMK_GLOBAL_HORIZON]⟩,
  ⟨0x20018, [], [F.BMK_EPOCH_EPOCH]⟩,
  ⟨0x20020, [], [F.BMK_EPOCH_STAT_SWITCHES, F.BMK_EPOCH_STAT_MERGED, F.BMK_EPOCH_STAT_LAST_HOLD_FC]⟩,
  ⟨0x20028, [], [F.BMK_WALL_FC]⟩,
  ⟨0x20030, [], [F.BMK_PACER_PACER_EN, F.BMK_PACER_PACER_DIV]⟩,
  ⟨0x20038, [], [F.BMK_ADVANCE_TARGET]⟩,
  ⟨0x20040, [], [F.BMK_EVENT_STALLED, F.BMK_EVENT_RESUMED, F.BMK_EVENT_CLOSED, F.BMK_EVENT_LATE, F.BMK_EVENT_STAKE_COALESCED, F.BMK_EVENT_MERGED]⟩,
  ⟨0x20048, [], [F.BMK_PACER_HZN_HORIZON]⟩,
  ⟨0x22000, [(1024, 0x10)], [F.BMK_SRC_HZN_HORIZON]⟩,
  ⟨0x22008, [(1024, 0x10)], [F.BMK_SRC_STAT_STATE, F.BMK_SRC_STAT_INCLUDED, F.BMK_SRC_STAT_PORT, F.BMK_SRC_STAT_LAST_ACCEPT, F.BMK_SRC_STAT_LATE_FRAMES]⟩,
  ⟨0x28000, [(2048, 0x10)], [F.BMK_STAKE_VAL_VALUE]⟩,
  ⟨0x28008, [(2048, 0x10)], [F.BMK_STAKE_CTL_ARMED, F.BMK_STAKE_CTL_GLOBAL, F.BMK_STAKE_CTL_SOURCE, F.BMK_STAKE_CTL_TRAVERSE, F.BMK_STAKE_CTL_LOST, F.BMK_STAKE_CTL_REPEAT_EN, F.BMK_STAKE_CTL_REPEAT_LOG2, F.BMK_STAKE_CTL_FIRE_COUNT, F.BMK_STAKE_CTL_PERIODS]⟩,
  ⟨0x1020000, [(8, 0x400000), (2, 0x8000)], [F.TRN_PORT_CTL_ENABLE, F.TRN_PORT_CTL_LINK_RESET, F.TRN_PORT_CTL_MODE]⟩,
  ⟨0x1020008, [(8, 0x400000), (2, 0x8000)], [F.TRN_PORT_CFG_SRC_BASE, F.TRN_PORT_CFG_SRC_COUNT]⟩,
  ⟨0x1020010, [(8, 0x400000), (2, 0x8000)], [F.TRN_VIOL_CFG_VIOL_LIMIT, F.TRN_VIOL_CFG_VIOL_WINDOW]⟩,
  ⟨0x1020018, [(8, 0x400000), (2, 0x8000)], [F.TRN_TIMEOUT_TRAIN_TIMEOUT, F.TRN_TIMEOUT_BYE_WAIT]⟩,
  ⟨0x1020020, [(8, 0x400000), (2, 0x8000)], [F.TRN_STAT_STATE, F.TRN_STAT_HALTED, F.TRN_STAT_LANE_REVERSED, F.TRN_STAT_LANE_POLARITY, F.TRN_STAT_LANES_DETECTED, F.TRN_STAT_FAR_VERSION, F.TRN_STAT_FAR_PKG, F.TRN_STAT_FAR_PKG_VALID]⟩,
  ⟨0x1020028, [(8, 0x400000), (2, 0x8000)], [F.TRN_PARTNER_PARTNER_ID]⟩,
  ⟨0x1020030, [(8, 0x400000), (2, 0x8000)], [F.TRN_SRC_MASK_HELD]⟩,
  ⟨0x1020040, [(8, 0x400000), (2, 0x8000), (3, 0x10)], [F.TRN_CRED_RX_RX_GRANTED, F.TRN_CRED_RX_RX_CONSUMED]⟩]

/-- A piece of the register table. -/
def regRows1 : List RegRow := [
  ⟨0x1020048, [(8, 0x400000), (2, 0x8000), (3, 0x10)], [F.TRN_CRED_TX_TX_GRANTED, F.TRN_CRED_TX_TX_CONSUMED]⟩,
  ⟨0x1020080, [(8, 0x400000), (2, 0x8000)], [F.TRN_LINK_ERR_FEC_CORRECTED, F.TRN_LINK_ERR_FEC_UNCORRECTED, F.TRN_LINK_ERR_FLIT_CRC]⟩,
  ⟨0x1020088, [(8, 0x400000), (2, 0x8000)], [F.TRN_LINK_ERR2_RETRIES, F.TRN_LINK_ERR2_LOCK_LOSSES, F.TRN_LINK_ERR2_LINK_RESETS, F.TRN_LINK_ERR2_TRAIN_FAILS]⟩,
  ⟨0x1020090, [(8, 0x400000), (2, 0x8000)], [F.TRN_VIOL_STAT_VIOL_TOTAL, F.TRN_VIOL_STAT_NAK_LOST, F.TRN_VIOL_STAT_UNKNOWN_GROUP]⟩,
  ⟨0x1020098, [(8, 0x400000), (2, 0x8000)], [F.TRN_EVENT_LINK_UP, F.TRN_EVENT_LINK_DOWN, F.TRN_EVENT_VIOLATION, F.TRN_EVENT_VIOL_RESET, F.TRN_EVENT_HELLO, F.TRN_EVENT_BYE, F.TRN_EVENT_NAK_LOST, F.TRN_EVENT_TRAIN_FAIL]⟩,
  ⟨0x10200A0, [(8, 0x400000), (2, 0x8000)], [F.TRN_VLOG_HEAD_NEXT, F.TRN_VLOG_HEAD_WRAPPED]⟩,
  ⟨0x1020100, [(8, 0x400000), (2, 0x8000), (16, 0x20)], [F.TRN_VLOG_A_REASON, F.TRN_VLOG_A_SOURCE, F.TRN_VLOG_A_FRAME_TYPE, F.TRN_VLOG_A_VC]⟩,
  ⟨0x1020108, [(8, 0x400000), (2, 0x8000), (16, 0x20)], [F.TRN_VLOG_B_SEQ, F.TRN_VLOG_B_EXPECTED]⟩,
  ⟨0x1020110, [(8, 0x400000), (2, 0x8000), (16, 0x20)], [F.TRN_VLOG_C_STAMP]⟩,
  ⟨0x1020118, [(8, 0x400000), (2, 0x8000), (16, 0x20)], [F.TRN_VLOG_D_FC]⟩,
  ⟨0x1027000, [], [F.TRN_PKG_PKG_NUM]⟩,
  ⟨0x80000, [], [F.PLAT_CTL_ENABLE]⟩,
  ⟨0x80008, [], [F.PLAT_STAGE_CFG_STACK, F.PLAT_STAGE_CFG_UNIT, F.PLAT_STAGE_CFG_VALID]⟩,
  ⟨0x80010, [], [F.PLAT_POLICY_REQUIRE_SIGNED, F.PLAT_POLICY_LOCK, F.PLAT_POLICY_MIN_SVN]⟩,
  ⟨0x80018, [], [F.PLAT_EVENT_STAGED, F.PLAT_EVENT_ACTIVATED, F.PLAT_EVENT_FAILED, F.PLAT_EVENT_REMOVED, F.PLAT_EVENT_POLICY_FAIL]⟩,
  ⟨0x80020, [], [F.PLAT_COUNT_ACTIVE, F.PLAT_COUNT_LOADS, F.PLAT_COUNT_FAILS]⟩,
  ⟨0x80100, [(4, 0x10)], [F.PLAT_SLOT_STAT_PHASE, F.PLAT_SLOT_STAT_HANDLE, F.PLAT_SLOT_STAT_OWNER, F.PLAT_SLOT_STAT_RING]⟩,
  ⟨0x80108, [(4, 0x10)], [F.PLAT_SLOT_FAULT_FAULT_OFFSET, F.PLAT_SLOT_FAULT_STATUS, F.PLAT_SLOT_FAULT_REASON]⟩,
  ⟨0x81000, [(256, 0x10)], [F.PLAT_ACT_A_HANDLE, F.PLAT_ACT_A_OWNER, F.PLAT_ACT_A_SIGNED, F.PLAT_ACT_A_KEY_SLOT, F.PLAT_ACT_A_VALID, F.PLAT_ACT_A_SVN]⟩,
  ⟨0x81008, [(256, 0x10)], [F.PLAT_ACT_B_PLAT_ID]⟩,
  ⟨0x1000000, [(8, 0x400000)], [F.FAB_CTL_ENABLE]⟩,
  ⟨0x1000008, [(8, 0x400000)], [F.FAB_STAT_TILES_ACTIVE, F.FAB_STAT_SWAPS]⟩,
  ⟨0x1000010, [(8, 0x400000)], [F.FAB_EVENT_DUP_OPERAND, F.FAB_EVENT_TILE_ADDR, F.FAB_EVENT_UNROUTED, F.FAB_EVENT_DIRECT_MISS, F.FAB_EVENT_ORPHANED, F.FAB_EVENT_MEM_RANGE, F.FAB_EVENT_POISONED, F.FAB_EVENT_UNDELIVERABLE]⟩,
  ⟨0x1000018, [(8, 0x400000)], [F.FAB_BCAST_SENT, F.FAB_BCAST_RECEIVED]⟩,
  ⟨0x1100000, [(8, 0x400000), (64, 0x4000)], [F.FAB_TILE_BANK_ACTIVE_BANK, F.FAB_TILE_BANK_SHADOW_LOADED, F.FAB_TILE_BANK_ACTIVE_HANDLE, F.FAB_TILE_BANK_SHADOW_HANDLE]⟩]

/-- A piece of the register table. -/
def regRows2 : List RegRow := [
  ⟨0x1100008, [(8, 0x400000), (64, 0x4000)], [F.FAB_TILE_MATCH_IN_USE, F.FAB_TILE_MATCH_HIGH_WATER, F.FAB_TILE_MATCH_FULL_WAITS]⟩,
  ⟨0x1100010, [(8, 0x400000), (64, 0x4000)], [F.FAB_TILE_ERR_DUP_OPERAND, F.FAB_TILE_ERR_TILE_ADDR, F.FAB_TILE_ERR_UNROUTED, F.FAB_TILE_ERR_ORPHANED]⟩,
  ⟨0x1100018, [(8, 0x400000), (64, 0x4000)], [F.FAB_TILE_ERR2_DIRECT_MISS, F.FAB_TILE_ERR2_MEM_RANGE, F.FAB_TILE_ERR2_POISONED]⟩,
  ⟨0x1100020, [(8, 0x400000), (64, 0x4000)], [F.FAB_TILE_TOK_TOKENS_IN, F.FAB_TILE_TOK_TOKENS_OUT]⟩,
  ⟨0x1100028, [(8, 0x400000), (64, 0x4000)], [F.FAB_IND_ADDR_OFFSET, F.FAB_IND_ADDR_SPACE, F.FAB_IND_ADDR_AUTO_INC]⟩,
  ⟨0x1100030, [(8, 0x400000), (64, 0x4000)], [F.FAB_IND_DATA_DATA]⟩,
  ⟨0x1000020, [(8, 0x400000)], [F.FAB_EMIT_STAT_TRIG_DROPPED, F.FAB_EMIT_STAT_BUF_DROPPED]⟩,
  ⟨0x1000040, [(8, 0x400000), (4, 0x8)], [F.FAB_SORT_STAT_KEYS, F.FAB_SORT_STAT_JOBS, F.FAB_SORT_STAT_BUSY, F.FAB_SORT_STAT_TRAVERSE]⟩,
  ⟨0x1010000, [(8, 0x400000)], [F.SCH_CTL_SNAP_EN, F.SCH_CTL_STALL_LIMIT]⟩,
  ⟨0x1010008, [(8, 0x400000)], [F.SCH_SNAP_EPOCH_EPOCH]⟩,
  ⟨0x1010010, [(8, 0x400000)], [F.SCH_EVENT_HOLD_STALL, F.SCH_EVENT_INV_FULL, F.SCH_EVENT_CAPTURE_GAP, F.SCH_EVENT_SNAPSHOT]⟩,
  ⟨0x1010018, [(8, 0x400000)], [F.SCH_STALL_TILE, F.SCH_STALL_TRAVERSE, F.SCH_STALL_STALLS]⟩,
  ⟨0x1010020, [(8, 0x400000)], [F.SCH_INV_OPEN, F.SCH_INV_HIGH_WATER, F.SCH_INV_FETCH_WAIT_FC]⟩,
  ⟨0x1010040, [(8, 0x400000), (2, 0x10)], [F.SCH_CAPTURE_GAP_BLOCKS]⟩,
  ⟨0x1010048, [(8, 0x400000), (2, 0x10)], [F.SCH_CAPTURE_STAMP_FIRST_STAMP]⟩,
  ⟨0x1102000, [(8, 0x400000), (64, 0x4000)], [F.SCH_TILE_DEPTH_READY, F.SCH_TILE_DEPTH_READY_HIGH, F.SCH_TILE_DEPTH_QUEUED, F.SCH_TILE_DEPTH_QUEUED_HIGH]⟩,
  ⟨0x1102008, [(8, 0x400000), (64, 0x4000)], [F.SCH_TILE_LEVELS_NONEMPTY]⟩,
  ⟨0x1102010, [(8, 0x400000), (64, 0x4000)], [F.SCH_TILE_DISP_DISPATCHED]⟩,
  ⟨0x1102018, [(8, 0x400000), (64, 0x4000)], [F.SCH_TILE_BUSY_BUSY_CELL_FC]⟩,
  ⟨0x1102020, [(8, 0x400000), (64, 0x4000)], [F.SCH_TILE_HOLD_IN_HOLD_FC, F.SCH_TILE_HOLD_OUT_GATE_FC]⟩,
  ⟨0x1102028, [(8, 0x400000), (64, 0x4000)], [F.SCH_TILE_CANCEL_CANCELLED]⟩,
  ⟨0x1102030, [(8, 0x400000), (64, 0x4000)], [F.SCH_TILE_HCFG_LEVEL, F.SCH_TILE_HCFG_ALL]⟩,
  ⟨0x1102100, [(8, 0x400000), (64, 0x4000), (16, 0x8)], [F.SCH_TILE_WAIT_COUNT]⟩,
  ⟨0x100000, [], [F.GNT_CTL_LOG_EN]⟩,
  ⟨0x100008, [], [F.GNT_CFG_HOST_READ_FC]⟩]

/-- A piece of the register table. -/
def regRows3 : List RegRow := [
  ⟨0x100010, [], [F.GNT_CONST_T_SRM, F.GNT_CONST_T_HOPQ, F.GNT_CONST_T_HBM, F.GNT_CONST_T_RFC, F.GNT_CONST_T_CDC]⟩,
  ⟨0x100018, [], [F.GNT_STAT_ADMITTED, F.GNT_STAT_REJECTS, F.GNT_STAT_BREACHES]⟩,
  ⟨0x100020, [], [F.GNT_EVENT_BREACH, F.GNT_EVENT_REJECT, F.GNT_EVENT_WITHDRAWN]⟩,
  ⟨0x100028, [], [F.GNT_LAST_REJECT_TRAVERSE, F.GNT_LAST_REJECT_REASON, F.GNT_LAST_REJECT_COMPUTED_FC]⟩,
  ⟨0x108000, [(4096, 0x20)], [F.GNT_TRAV_A_ADMITTED, F.GNT_TRAV_A_WITHDRAWN, F.GNT_TRAV_A_ACCEPT, F.GNT_TRAV_A_PRIORITY, F.GNT_TRAV_A_PACE, F.GNT_TRAV_A_BOUND_FC]⟩,
  ⟨0x108008, [(4096, 0x20)], [F.GNT_TRAV_B_COMPUTED_FC, F.GNT_TRAV_B_W_MATCH]⟩,
  ⟨0x108010, [(4096, 0x20)], [F.GNT_TRAV_C_BREACHES, F.GNT_TRAV_C_WORST_LATE_FC]⟩,
  ⟨0x108018, [(4096, 0x20)], [F.GNT_TRAV_D_SUSPENDED_FC]⟩,
  ⟨0x130000, [(512, 0x8)], [F.GNT_COLL_N_COLL, F.GNT_COLL_OCC_HIGH, F.GNT_COLL_STALL_FC]⟩,
  ⟨0x131000, [(20, 0x8)], [F.GNT_DEST_N_DEST, F.GNT_DEST_OCC_HIGH]⟩,
  ⟨0x1030000, [(8, 0x400000)], [F.SRM_CTL_ENABLE, F.SRM_CTL_SCRUB_EN, F.SRM_CTL_PROBE_LIMIT]⟩,
  ⟨0x1030008, [(8, 0x400000)], [F.SRM_EVENT_CORRECTED, F.SRM_EVENT_UNCORRECTABLE, F.SRM_EVENT_FROZEN, F.SRM_EVENT_FENCED, F.SRM_EVENT_TABLE_FULL, F.SRM_EVENT_POISON_DROP, F.SRM_EVENT_SCRUB_UE]⟩,
  ⟨0x1030010, [(8, 0x400000)], [F.SRM_STAT_TABLE_FULL, F.SRM_STAT_POISON_DROPPED]⟩,
  ⟨0x1030018, [(8, 0x400000)], [F.SRM_IND_ADDR_BYTE, F.SRM_IND_ADDR_SLICE, F.SRM_IND_ADDR_AUTO_INC, F.SRM_IND_ADDR_UE]⟩,
  ⟨0x1030020, [(8, 0x400000)], [F.SRM_IND_DATA_DATA]⟩,
  ⟨0x1030100, [(8, 0x400000), (16, 0x40)], [F.SRM_CH_CTL_RESET, F.SRM_CH_CTL_FENCE]⟩,
  ⟨0x1030108, [(8, 0x400000), (16, 0x40)], [F.SRM_CH_STAT_STATE, F.SRM_CH_STAT_FREEZE_CAUSE, F.SRM_CH_STAT_QUEUED, F.SRM_CH_STAT_REGION]⟩,
  ⟨0x1030110, [(8, 0x400000), (16, 0x40)], [F.SRM_CH_ECC_CE, F.SRM_CH_ECC_UE, F.SRM_CH_ECC_SCRUB_UE]⟩,
  ⟨0x1030118, [(8, 0x400000), (16, 0x40)], [F.SRM_CH_UE_ENTRY, F.SRM_CH_UE_WORD, F.SRM_CH_UE_SYNDROME, F.SRM_CH_UE_FC]⟩,
  ⟨0x1030120, [(8, 0x400000), (16, 0x40)], [F.SRM_CH_FRZ_ENTRY, F.SRM_CH_FRZ_KIND, F.SRM_CH_FRZ_GCELL]⟩,
  ⟨0x1030128, [(8, 0x400000), (16, 0x40)], [F.SRM_CH_LOAD_SERVED, F.SRM_CH_LOAD_QUEUE_HIGH]⟩,
  ⟨0x1040800, [(8, 0x400000)], [F.HBM_STACK_CTL_ENABLE, F.HBM_STACK_CTL_SKIP_EN, F.HBM_STACK_CTL_SKIP_PC]⟩,
  ⟨0x1040808, [(8, 0x400000)], [F.HBM_STACK_STAT_UNITS, F.HBM_STACK_STAT_TRAINED, F.HBM_STACK_STAT_TEMP]⟩,
  ⟨0x1040810, [(8, 0x400000)], [F.HBM_STACK_PC_FROZEN, F.HBM_STACK_PC_FENCED]⟩,
  ⟨0x1040818, [(8, 0x400000)], [F.HBM_REFRESH_PHASE, F.HBM_REFRESH_COUNT]⟩]

/-- A piece of the register table. -/
def regRows4 : List RegRow := [
  ⟨0x1040820, [(8, 0x400000)], [F.HBM_RETRAIN_EN, F.HBM_RETRAIN_PC, F.HBM_RETRAIN_INTERVAL]⟩,
  ⟨0x1040828, [(8, 0x400000)], [F.HBM_EVENT_CORRECTED, F.HBM_EVENT_FROZEN, F.HBM_EVENT_FENCED, F.HBM_EVENT_RETRAINED, F.HBM_EVENT_LOST_WRITES, F.HBM_EVENT_HOT]⟩,
  ⟨0x1040830, [(8, 0x400000)], [F.HBM_IND_ADDR_ADDR, F.HBM_IND_ADDR_AUTO_INC, F.HBM_IND_ADDR_FAULT]⟩,
  ⟨0x1040838, [(8, 0x400000)], [F.HBM_IND_DATA_DATA]⟩,
  ⟨0x1040000, [(8, 0x400000), (32, 0x1000)], [F.HBM_PC_CTL_RESET, F.HBM_PC_CTL_FENCE]⟩,
  ⟨0x1040008, [(8, 0x400000), (32, 0x1000)], [F.HBM_PC_STAT_STATE, F.HBM_PC_STAT_FREEZE_CAUSE, F.HBM_PC_STAT_FENCE_CAUSE, F.HBM_PC_STAT_RQ, F.HBM_PC_STAT_WQ]⟩,
  ⟨0x1040010, [(8, 0x400000), (32, 0x1000)], [F.HBM_PC_ECC_CE, F.HBM_PC_ECC_UE, F.HBM_PC_ECC_RETRIES]⟩,
  ⟨0x1040018, [(8, 0x400000), (32, 0x1000)], [F.HBM_PC_FRZ_A_ADDR, F.HBM_PC_FRZ_A_KIND]⟩,
  ⟨0x1040020, [(8, 0x400000), (32, 0x1000)], [F.HBM_PC_FRZ_B_SYNDROME, F.HBM_PC_FRZ_B_LOST_WRITES, F.HBM_PC_FRZ_B_FC]⟩,
  ⟨0x1040028, [(8, 0x400000), (32, 0x1000)], [F.HBM_PC_QIDX_ENTRY, F.HBM_PC_QIDX_QUEUE]⟩,
  ⟨0x1040030, [(8, 0x400000), (32, 0x1000)], [F.HBM_PC_QDATA_ADDR, F.HBM_PC_QDATA_CLASS, F.HBM_PC_QDATA_VALID]⟩,
  ⟨0x1040038, [(8, 0x400000), (32, 0x1000)], [F.HBM_PC_LOAD_ACCESSES, F.HBM_PC_LOAD_FORWARDED]⟩,
  ⟨0x1040040, [(8, 0x400000), (32, 0x1000)], [F.HBM_PC_TRAIN_MARGIN, F.HBM_PC_TRAIN_SETTING, F.HBM_PC_TRAIN_CHANGES, F.HBM_PC_TRAIN_FC]⟩,
  ⟨0x1060000, [(8, 0x400000)], [F.SPC_CTL_ENABLE, F.SPC_CTL_PF_EN, F.SPC_CTL_PF_DEPTH]⟩,
  ⟨0x1060008, [(8, 0x400000)], [F.SPC_STAT_STATE, F.SPC_STAT_LOCKED, F.SPC_STAT_GNT_WAYS]⟩,
  ⟨0x1060010, [(8, 0x400000)], [F.SPC_EVENT_PARITY_CLEAN, F.SPC_EVENT_PARITY_FATAL, F.SPC_EVENT_DRAINED, F.SPC_EVENT_CMD_DONE, F.SPC_EVENT_WB_DISCARDED]⟩,
  ⟨0x1060018, [(8, 0x400000)], [F.SPC_CMD_OP, F.SPC_CMD_WAY, F.SPC_CMD_WAYS]⟩,
  ⟨0x1060020, [(8, 0x400000)], [F.SPC_CMD_ADDR_ADDR]⟩,
  ⟨0x1060028, [(8, 0x400000)], [F.SPC_CMD_LEN_LEN]⟩,
  ⟨0x1060030, [(8, 0x400000)], [F.SPC_CMD_STAT_BUSY, F.SPC_CMD_STAT_STATUS, F.SPC_CMD_STAT_REASON, F.SPC_CMD_STAT_LINES]⟩,
  ⟨0x1060038, [(8, 0x400000)], [F.SPC_ERR_PARITY_CLEAN, F.SPC_ERR_SET, F.SPC_ERR_WAY]⟩,
  ⟨0x1060040, [(8, 0x400000)], [F.SPC_WB_WB_DISCARDED, F.SPC_WB_DIRTY]⟩,
  ⟨0x1060048, [(8, 0x400000)], [F.SPC_PF_ISSUED, F.SPC_PF_USEFUL]⟩,
  ⟨0x1060100, [(8, 0x400000), (12, 0x8)], [F.SPC_CLASS_MASK_MASK]⟩,
  ⟨0x1060200, [(8, 0x400000), (12, 0x8)], [F.SPC_CLASS_STAT_HITS, F.SPC_CLASS_STAT_MISSES]⟩]

/-- A piece of the register table. -/
def regRows5 : List RegRow := [
  ⟨0x1070000, [(8, 0x400000), (4, 0x4000)], [F.CDC_CTL_ENABLE]⟩,
  ⟨0x1070008, [(8, 0x400000), (4, 0x4000)], [F.CDC_STAT_WORK, F.CDC_STAT_SLOTS, F.CDC_STAT_JOBS, F.CDC_STAT_CAPTURE]⟩,
  ⟨0x1070010, [(8, 0x400000), (4, 0x4000)], [F.CDC_EVENT_CORRUPT, F.CDC_EVENT_LIMIT, F.CDC_EVENT_SHORT]⟩,
  ⟨0x1070018, [(8, 0x400000), (4, 0x4000)], [F.CDC_BYTES_IN_BYTES]⟩,
  ⟨0x1070020, [(8, 0x400000), (4, 0x4000)], [F.CDC_BYTES_OUT_BYTES]⟩,
  ⟨0x1070028, [(8, 0x400000), (4, 0x4000)], [F.CDC_BLOCKS_RAW, F.CDC_BLOCKS_FAILED, F.CDC_BLOCKS_PREEMPTS]⟩,
  ⟨0x1070030, [(8, 0x400000), (4, 0x4000)], [F.CDC_LAST_ERR_STEP, F.CDC_LAST_ERR_REASON, F.CDC_LAST_ERR_WORK, F.CDC_LAST_ERR_IN_OFFSET]⟩,
  ⟨0x400000, [(65536, 0x40)], [F.RING_SQ_BASE_BASE]⟩,
  ⟨0x400008, [(65536, 0x40)], [F.RING_SQ_CFG_SIZE_LOG2, F.RING_SQ_CFG_CQ]⟩,
  ⟨0x400010, [(65536, 0x40)], [F.RING_SQ_CTL_ENABLE, F.RING_SQ_CTL_STATE]⟩,
  ⟨0x400018, [(65536, 0x40)], [F.RING_SQ_IDX_PI, F.RING_SQ_IDX_CI]⟩,
  ⟨0x400020, [(65536, 0x40)], [F.RING_SQ_STAT_MALFORMED, F.RING_SQ_STAT_REREADS, F.RING_SQ_STAT_DB_DROPPED, F.RING_SQ_STAT_ABORTED]⟩,
  ⟨0x800000, [(65536, 0x40)], [F.RING_CQ_BASE_BASE]⟩,
  ⟨0x800008, [(65536, 0x40)], [F.RING_CQ_CFG_SIZE_LOG2, F.RING_CQ_CFG_VECTOR, F.RING_CQ_CFG_IRQ_EN, F.RING_CQ_CFG_COAL_COUNT, F.RING_CQ_CFG_COAL_FC]⟩,
  ⟨0x800010, [(65536, 0x40)], [F.RING_CQ_CTL_ENABLE, F.RING_CQ_CTL_STATE]⟩,
  ⟨0x800018, [(65536, 0x40)], [F.RING_CQ_IDX_PI, F.RING_CQ_IDX_CI]⟩,
  ⟨0x800020, [(65536, 0x40)], [F.RING_CQ_STAT_OVF, F.RING_CQ_STAT_OVF_HIGH, F.RING_CQ_STAT_OVF_LOST, F.RING_CQ_STAT_DISCARDED]⟩,
  ⟨0xC00000, [], [F.RING_HALT_CAUSE_HALTED, F.RING_HALT_CAUSE_RING_KIND, F.RING_HALT_CAUSE_FIELD, F.RING_HALT_CAUSE_RING, F.RING_HALT_CAUSE_FC]⟩,
  ⟨0xC00008, [], [F.RING_OVF_CFG_STACK, F.RING_OVF_CFG_UNIT, F.RING_OVF_CFG_VALID]⟩,
  ⟨0xC00010, [], [F.RING_EVENT_DB_DROPPED, F.RING_EVENT_MALFORMED, F.RING_EVENT_OVERFLOW, F.RING_EVENT_OVF_FULL, F.RING_EVENT_OVF_LOST, F.RING_EVENT_FETCH_ERROR, F.RING_EVENT_HALT]⟩,
  ⟨0xC00018, [], [F.RING_EVT_SUMMARY_BLOCK]⟩,
  ⟨0xC00020, [(2, 0x8)], [F.RING_EVT_CFG_ENABLE, F.RING_EVT_CFG_MASK, F.RING_EVT_CFG_VECTOR]⟩,
  ⟨0xC00040, [(2, 0x8)], [F.RING_PORT_STAT_CONSUMED, F.RING_PORT_STAT_COMPLETIONS]⟩,
  ⟨0x1080000, [(8, 0x400000), (64, 0x400)], [F.DMA_CTL_ENABLE, F.DMA_CTL_ACTIVE]⟩,
  ⟨0x1080008, [(8, 0x400000), (64, 0x400)], [F.DMA_CFG_FN, F.DMA_CFG_SYSTEM, F.DMA_CFG_SHARE]⟩]

/-- A piece of the register table. -/
def regRows6 : List RegRow := [
  ⟨0x1080010, [(8, 0x400000), (64, 0x400)], [F.DMA_SRC_SRC]⟩,
  ⟨0x1080018, [(8, 0x400000), (64, 0x400)], [F.DMA_DST_DST]⟩,
  ⟨0x1080020, [(8, 0x400000), (64, 0x400)], [F.DMA_COUNT_COUNT, F.DMA_COUNT_WRITTEN]⟩,
  ⟨0x1080028, [(8, 0x400000), (64, 0x400)], [F.DMA_STAT_CLASS, F.DMA_STAT_QUEUED, F.DMA_STAT_RING, F.DMA_STAT_TAG]⟩,
  ⟨0x1080030, [(8, 0x400000), (64, 0x400)], [F.DMA_FAULT_FAULT_ADDR]⟩,
  ⟨0x1080038, [(8, 0x400000), (64, 0x400)], [F.DMA_ERR_STATUS, F.DMA_ERR_REASON, F.DMA_ERR_ERRORS]⟩,
  ⟨0x1080040, [(8, 0x400000), (64, 0x400)], [F.DMA_BYTES_BYTES]⟩,
  ⟨0x1080048, [(8, 0x400000), (64, 0x400)], [F.DMA_WAIT_PREEMPTS, F.DMA_WAIT_RATE_WAIT_FC]⟩,
  ⟨0x1080200, [(8, 0x400000)], [F.DMA_EVENT_ERROR, F.DMA_EVENT_DROPPED]⟩,
  ⟨0x1080208, [(8, 0x400000)], [F.DMA_ACTIVE_ACTIVE]⟩,
  ⟨0x1080210, [(8, 0x400000)], [F.DMA_BEATS_BEATS]⟩,
  ⟨0x200000, [], [F.FN_CTL_DRAIN_LIMIT]⟩,
  ⟨0x200008, [], [F.FN_STAGE_REQ, F.FN_STAGE_WITHDRAW]⟩,
  ⟨0x200010, [], [F.FN_STAGE_STAT_STATE, F.FN_STAGE_STAT_READY, F.FN_STAGE_STAT_STATUS, F.FN_STAGE_STAT_REASON, F.FN_STAGE_STAT_TABLE, F.FN_STAGE_STAT_INDEX]⟩,
  ⟨0x200018, [], [F.FN_EVENT_APPLIED, F.FN_EVENT_CHECK_FAILED, F.FN_EVENT_DRAIN_SQUASH, F.FN_EVENT_RESET_DONE, F.FN_EVENT_SCRUB_FAULT, F.FN_EVENT_SCRUBBED]⟩,
  ⟨0x200020, [], [F.FN_RESET_LAST_FUNCTION, F.FN_RESET_LAST_SQUASHED, F.FN_RESET_LAST_DURATION_FC]⟩,
  ⟨0x200028, [], [F.FN_APPLIED_EPOCH]⟩,
  ⟨0x201000, [(512, 0x8)], [F.FN_OWN_TILE_OWNER, F.FN_OWN_TILE_DIRTY, F.FN_OWN_TILE_NEXT, F.FN_OWN_TILE_AUX, F.FN_OWN_TILE_AUX_NEXT]⟩,
  ⟨0x202000, [(128, 0x8)], [F.FN_OWN_SLICE_OWNER, F.FN_OWN_SLICE_DIRTY, F.FN_OWN_SLICE_NEXT, F.FN_OWN_SLICE_AUX, F.FN_OWN_SLICE_AUX_NEXT]⟩,
  ⟨0x203000, [(512, 0x8)], [F.FN_OWN_UNIT_OWNER, F.FN_OWN_UNIT_DIRTY, F.FN_OWN_UNIT_NEXT, F.FN_OWN_UNIT_AUX, F.FN_OWN_UNIT_AUX_NEXT]⟩,
  ⟨0x204000, [(512, 0x8)], [F.FN_OWN_DMA_OWNER, F.FN_OWN_DMA_DIRTY, F.FN_OWN_DMA_NEXT, F.FN_OWN_DMA_AUX, F.FN_OWN_DMA_AUX_NEXT]⟩,
  ⟨0x206000, [(1024, 0x8)], [F.FN_OWN_SRC_OWNER, F.FN_OWN_SRC_DIRTY, F.FN_OWN_SRC_NEXT, F.FN_OWN_SRC_AUX, F.FN_OWN_SRC_AUX_NEXT]⟩,
  ⟨0x280000, [(65536, 0x8)], [F.FN_OWN_RING_OWNER, F.FN_OWN_RING_DIRTY, F.FN_OWN_RING_NEXT, F.FN_OWN_RING_AUX, F.FN_OWN_RING_AUX_NEXT]⟩,
  ⟨0x208000, [(1536, 0x10)], [F.FN_ATTR_WAYS, F.FN_ATTR_CEILING, F.FN_ATTR_STATE, F.FN_ATTR_SCRUB_FAULT]⟩,
  ⟨0x208008, [(1536, 0x10)], [F.FN_ATTR_NEXT_WAYS, F.FN_ATTR_NEXT_CEILING]⟩]

/-- A piece of the register table. -/
def regRows7 : List RegRow := [
  ⟨0x100000000, [(1536, 0x10000)], [F.FN_VF_ID_FUNCTION, F.FN_VF_ID_PF, F.FN_VF_ID_VF]⟩,
  ⟨0x100000008, [(1536, 0x10000)], [F.FN_VF_RES_TILES, F.FN_VF_RES_SLICES, F.FN_VF_RES_UNITS, F.FN_VF_RES_RINGS, F.FN_VF_RES_CHANNELS, F.FN_VF_RES_CEILING]⟩,
  ⟨0x100000010, [(1536, 0x10000)], [F.FN_VF_STAT_STATE, F.FN_VF_STAT_SCRUB_FAULT, F.FN_VF_STAT_SQUASHED]⟩,
  ⟨0x70000, [], [F.TWN_CTL_SWAP_EN, F.TWN_CTL_HB_MISS]⟩,
  ⟨0x70008, [], [F.TWN_EVENT_DIE_FAILED, F.TWN_EVENT_MISMATCH, F.TWN_EVENT_SWAPPED, F.TWN_EVENT_SYNCED, F.TWN_EVENT_PAIR_LOST, F.TWN_EVENT_HOLD_OVERFLOW]⟩,
  ⟨0x70100, [(4, 0x40)], [F.TWN_PAIR_CTL_ENABLE]⟩,
  ⟨0x70108, [(4, 0x40)], [F.TWN_PAIR_STAT_STATE, F.TWN_PAIR_STAT_LEAD, F.TWN_PAIR_STAT_FAILED, F.TWN_PAIR_STAT_CAUSE, F.TWN_PAIR_STAT_UNRESOLVED, F.TWN_PAIR_STAT_EDGE, F.TWN_PAIR_STAT_SWAPS]⟩,
  ⟨0x70110, [(4, 0x40)], [F.TWN_PAIR_DIG_COMPARED, F.TWN_PAIR_DIG_MISMATCHES]⟩,
  ⟨0x70118, [(4, 0x40)], [F.TWN_PAIR_HOLD_HELD, F.TWN_PAIR_HOLD_DISCARDED]⟩,
  ⟨0x70120, [(4, 0x40)], [F.TWN_PAIR_SYNC_BYTES]⟩,
  ⟨0x70200, [(2, 0x8)], [F.TWN_DUP_DROPPED, F.TWN_DUP_GAPS]⟩,
  ⟨0x71000, [(8, 0x20), (4, 0x8)], [F.TWN_DIGEST_DIGEST]⟩,
  ⟨0x71100, [(8, 0x8)], [F.TWN_DIGEST_EPOCH_EPOCH]⟩,
  ⟨0x30000, [], [F.PWR_CTL_ALERT_EN]⟩,
  ⟨0x30008, [], [F.PWR_EVENT_FEED_A_LOST, F.PWR_EVENT_FEED_B_LOST, F.PWR_EVENT_FEED_A_RESTORED, F.PWR_EVENT_FEED_B_RESTORED, F.PWR_EVENT_DEGRADED]⟩,
  ⟨0x30010, [], [F.PWR_STAT_FEED_A, F.PWR_STAT_FEED_B, F.PWR_STAT_ALERT, F.PWR_STAT_SEALED_VALID, F.PWR_STAT_PACKAGE_W, F.PWR_STAT_PEAK_W]⟩,
  ⟨0x30020, [(2, 0x10)], [F.PWR_FEED_MV, F.PWR_FEED_CURRENT, F.PWR_FEED_MIN_MV]⟩,
  ⟨0x30028, [(2, 0x10)], [F.PWR_FEED_CNT_LOSSES, F.PWR_FEED_CNT_DEGRADES]⟩,
  ⟨0x40000, [], [F.CLK_REF_CTL_PREFER]⟩,
  ⟨0x40008, [(2, 0x8)], [F.CLK_REF_STAT_STATE, F.CLK_REF_STAT_PASSES, F.CLK_REF_STAT_ERR_PPM, F.CLK_REF_STAT_FAILS]⟩,
  ⟨0x40018, [], [F.CLK_PLL_STAT_STATE, F.CLK_PLL_STAT_REF, F.CLK_PLL_STAT_SWITCHES, F.CLK_PLL_STAT_HOLDOVER_FC]⟩,
  ⟨0x40020, [], [F.CLK_EVENT_REF_UNSTABLE, F.CLK_EVENT_HOLDOVER, F.CLK_EVENT_REF_SWITCH, F.CLK_EVENT_EDGE_DOWN, F.CLK_EVENT_EDGE_UP, F.CLK_EVENT_PORT_LOST, F.CLK_EVENT_HP_ATTN, F.CLK_EVENT_HP_EJECT, F.CLK_EVENT_QUIESCED]⟩,
  ⟨0x40028, [], [F.CLK_RESET_WARM, F.CLK_RESET_KEY, F.CLK_RESET_WARM_COUNT]⟩,
  ⟨0x40030, [], [F.CLK_HP_QUIESCE, F.CLK_HP_SAFE, F.CLK_HP_ATTN, F.CLK_HP_EJECT, F.CLK_HP_FEED_A_MATED, F.CLK_HP_FEED_B_MATED]⟩,
  ⟨0x40040, [(4, 0x8)], [F.CLK_DOM_SRC, F.CLK_DOM_FORCED, F.CLK_DOM_SWITCHES]⟩]

/-- A piece of the register table. -/
def regRows8 : List RegRow := [
  ⟨0x40080, [], [F.CLK_BOOT_STEP, F.CLK_BOOT_FAILED, F.CLK_BOOT_WARM]⟩,
  ⟨0x40088, [(8, 0x8)], [F.CLK_BOOT_T_FC]⟩,
  ⟨0x40100, [(8, 0x8)], [F.CLK_GATE_GATE]⟩,
  ⟨0x40200, [(8, 0x8)], [F.CLK_DIE_RST_HOLD, F.CLK_DIE_RST_BY_BRIM, F.CLK_DIE_RST_STATE, F.CLK_DIE_RST_FC]⟩,
  ⟨0x40300, [(2, 0x8)], [F.CLK_PORT_LINK_UP, F.CLK_PORT_SPEED, F.CLK_PORT_WIDTH, F.CLK_PORT_LOSSES]⟩,
  ⟨0x1090010, [(8, 0x400000), (3, 0x8)], [F.PKG_EDGE_STATE, F.PKG_EDGE_ATTEMPTS, F.PKG_EDGE_LOSSES, F.PKG_EDGE_DROPPED]⟩,
  ⟨0x50000, [], [F.ERR_CTL_COALESCE_FC]⟩,
  ⟨0x50008, [], [F.ERR_STAT_VALID, F.ERR_STAT_CURRENT, F.ERR_STAT_LOST, F.ERR_STAT_OLDEST, F.ERR_STAT_OVERFLOW]⟩,
  ⟨0x50010, [], [F.ERR_EVENT_LOGGED, F.ERR_EVENT_ESCALATE, F.ERR_EVENT_LOST, F.ERR_EVENT_FATAL, F.ERR_EVENT_HALT]⟩,
  ⟨0x50018, [], [F.ERR_COUNT_CORRECTED, F.ERR_COUNT_DEFERRED, F.ERR_COUNT_FATAL, F.ERR_COUNT_HALT]⟩,
  ⟨0x50020, [(2, 0x8)], [F.ERR_ESC_CFG_ENABLE, F.ERR_ESC_CFG_VECTOR]⟩,
  ⟨0x50030, [], [F.ERR_INJECT_SEV, F.ERR_INJECT_GO]⟩,
  ⟨0x50038, [], [F.ERR_SEAL_CTL_ERASE]⟩,
  ⟨0x50040, [], [F.ERR_SEAL_STAT_INTACT, F.ERR_SEAL_STAT_OVERWRITTEN, F.ERR_SEAL_STAT_VALID, F.ERR_SEAL_STAT_FC]⟩,
  ⟨0x51000, [(64, 0x20)], [F.ERR_ENT_A_VALID, F.ERR_ENT_A_SEV, F.ERR_ENT_A_DIE, F.ERR_ENT_A_REASON, F.ERR_ENT_A_FN, F.ERR_ENT_A_REPEAT]⟩,
  ⟨0x51008, [(64, 0x20)], [F.ERR_ENT_B_INSTANCE, F.ERR_ENT_B_DETAIL]⟩,
  ⟨0x51010, [(64, 0x20)], [F.ERR_ENT_C_FC]⟩,
  ⟨0x51018, [(64, 0x20)], [F.ERR_ENT_D_SEQ, F.ERR_ENT_D_LAST_REASON]⟩,
  ⟨0x100008000, [(1536, 0x10000)], [F.ERR_VF_SUM_PENDING, F.ERR_VF_SUM_LAST_REASON, F.ERR_VF_SUM_INSTANCE, F.ERR_VF_SUM_COUNT]⟩,
  ⟨0x100008008, [(1536, 0x10000)], [F.ERR_VF_CFG_ENABLE, F.ERR_VF_CFG_VECTOR]⟩,
  ⟨0x60000, [], [F.SEC_BOOT_IMAGE, F.SEC_BOOT_A_CAUSE, F.SEC_BOOT_MIN_SVN, F.SEC_BOOT_FW_SVN, F.SEC_BOOT_UCODE_SVN, F.SEC_BOOT_KEY0_REVOKED]⟩,
  ⟨0x60008, [], [F.SEC_SVN_COMMIT_COMMIT, F.SEC_SVN_COMMIT_KEY]⟩,
  ⟨0x60010, [], [F.SEC_ID_STAT_CERT_LEN]⟩,
  ⟨0x60020, [(4, 0x8)], [F.SEC_NONCE_NONCE]⟩,
  ⟨0x60040, [], [F.SEC_ATTEST_REQ, F.SEC_ATTEST_BUSY, F.SEC_ATTEST_STATUS, F.SEC_ATTEST_REASON, F.SEC_ATTEST_REPORT_LEN]⟩]

/-- A piece of the register table. -/
def regRows9 : List RegRow := [
  ⟨0x60048, [], [F.SEC_PK_CTL_SLOT, F.SEC_PK_CTL_INSTALL, F.SEC_PK_CTL_CLEAR, F.SEC_PK_CTL_VALID, F.SEC_PK_CTL_LOCK]⟩,
  ⟨0x60200, [(8, 0x20), (4, 0x8)], [F.SEC_PK_DIG_DIGEST]⟩,
  ⟨0x60050, [], [F.SEC_DBG_CTL_CHALLENGE, F.SEC_DBG_CTL_SUBMIT, F.SEC_DBG_CTL_LEVEL]⟩,
  ⟨0x60058, [], [F.SEC_DBG_STAT_STATE, F.SEC_DBG_STAT_GRANTED, F.SEC_DBG_STAT_FAILS, F.SEC_DBG_STAT_STATUS, F.SEC_DBG_STAT_REASON]⟩,
  ⟨0x60080, [], [F.SEC_EVENT_ATTEST_DONE, F.SEC_EVENT_DEBUG_UNLOCKED, F.SEC_EVENT_DEBUG_DENIED, F.SEC_EVENT_KEY_CHANGED]⟩,
  ⟨0x10, [], [F.PKG_STRAP_HOTPLUG, F.PKG_STRAP_PORT1, F.PKG_STRAP_MFG]⟩,
  ⟨0x18, [], [F.PKG_EVENT_THERM_WARN, F.PKG_EVENT_THERM_TRIP, F.PKG_EVENT_LIFE_95]⟩,
  ⟨0x20, [], [F.PKG_LIFE_EQUIV, F.PKG_LIFE_ON_HOURS]⟩,
  ⟨0x28, [], [F.PKG_LIFE2_HOURS_ABOVE_95, F.PKG_LIFE2_COLD_CYCLES, F.PKG_LIFE2_TRIPS]⟩,
  ⟨0x100, [(9, 0x8)], [F.PKG_THERM_TEMP, F.PKG_THERM_PEAK]⟩,
  ⟨0x52000, [(64, 0x20)], [F.ERR_SEAL_A_VALID, F.ERR_SEAL_A_SEV, F.ERR_SEAL_A_DIE, F.ERR_SEAL_A_REASON, F.ERR_SEAL_A_FN, F.ERR_SEAL_A_REPEAT]⟩,
  ⟨0x52008, [(64, 0x20)], [F.ERR_SEAL_B_INSTANCE, F.ERR_SEAL_B_DETAIL]⟩,
  ⟨0x52010, [(64, 0x20)], [F.ERR_SEAL_C_FC]⟩,
  ⟨0x52018, [(64, 0x20)], [F.ERR_SEAL_D_SEQ, F.ERR_SEAL_D_LAST_REASON]⟩,
  ⟨0x60060, [(4, 0x8)], [F.SEC_DBG_CHAL_NONCE]⟩,
  ⟨0x60100, [(4, 0x20), (4, 0x8)], [F.SEC_MEAS_DIGEST]⟩,
  ⟨0x1103000, [(8, 0x400000), (64, 0x4000)], [F.SCH_SNAP_TILE_DEPTH_READY, F.SCH_SNAP_TILE_DEPTH_READY_HIGH, F.SCH_SNAP_TILE_DEPTH_QUEUED, F.SCH_SNAP_TILE_DEPTH_QUEUED_HIGH]⟩,
  ⟨0x1103008, [(8, 0x400000), (64, 0x4000)], [F.SCH_SNAP_TILE_LEVELS_NONEMPTY]⟩,
  ⟨0x1103010, [(8, 0x400000), (64, 0x4000)], [F.SCH_SNAP_TILE_DISP_DISPATCHED]⟩,
  ⟨0x1103018, [(8, 0x400000), (64, 0x4000)], [F.SCH_SNAP_TILE_BUSY_BUSY_CELL_FC]⟩,
  ⟨0x1103020, [(8, 0x400000), (64, 0x4000)], [F.SCH_SNAP_TILE_HOLD_IN_HOLD_FC, F.SCH_SNAP_TILE_HOLD_OUT_GATE_FC]⟩,
  ⟨0x1103028, [(8, 0x400000), (64, 0x4000)], [F.SCH_SNAP_TILE_CANCEL_CANCELLED]⟩,
  ⟨0x1103100, [(8, 0x400000), (64, 0x4000), (16, 0x8)], [F.SCH_SNAP_TILE_WAIT_COUNT]⟩]

/-- Every register of the package, in the order of the spec's chapters. -/
def regRows : List RegRow :=
  regRows0 ++
  regRows1 ++
  regRows2 ++
  regRows3 ++
  regRows4 ++
  regRows5 ++
  regRows6 ++
  regRows7 ++
  regRows8 ++
  regRows9

/-- The instance offsets that `off` has within the instances `dims`: `some off` when it names an instance. -/
def instOffset : (dims : List (Nat × Nat)) → (off : Nat) → Bool
  | [], off => off == 0
  | (n, st) :: ds, off =>
    let i := if st = 0 then 0 else off / st
    if i < n then instOffset ds (off - i * st) else false

/-- The register at offset `off`, with the offset of its instance. -/
def findReg (off : Nat) : List RegRow → Option (RegRow × Nat)
  | [] => none
  | r :: rs =>
    if r.base ≤ off ∧ instOffset r.dims (off - r.base) = true then some (r, off - r.base) else findReg off rs

end Sys2Proof.Machine
end

