-- ==== Sys2Proof/Machine/Types.lean ====
section
/-! DEFINITION. The data the units of the package hold and exchange: tokens, tasks, parsed plats, frames, ring entries,
completions, requests. Plain data, no behaviour. -/

namespace Sys2Proof.Machine

/-- The three parts of R1 and R29. -/
inductive Part where
  | m820 | m840 | m880
  deriving DecidableEq, Repr, Inhabited

/-! ### Tokens (R200 to R202) -/

/-- One lane: a 64-bit value, or null (a null lane's data bits are zero, R200). -/
abbrev Lane := Option W64

/-- The eight lanes of a token or register with their validity mask (R200, R208). -/
structure Lanes where
  l0 : Lane := none
  l1 : Lane := none
  l2 : Lane := none
  l3 : Lane := none
  l4 : Lane := none
  l5 : Lane := none
  l6 : Lane := none
  l7 : Lane := none
  deriving DecidableEq, Repr, Inhabited

/-- KIND of a tag (R201); code 3 is reserved. -/
inductive TKind where
  | data | control | poisoned
  deriving DecidableEq, Repr, Inhabited

/-- A token: the fields of its tag (R201), its lanes, and the acceptance stamp beside the tag (R328). -/
structure Token where
  trav : Nat
  slot : Nat
  kind : TKind
  ctx : Nat
  seq : Nat
  lanes : Lanes
  acc : Nat
  deriving DecidableEq, Repr, Inhabited

/-- A token on its way to a cell: the destination's global cell number, the token, who produced it (a cell, or a head's
or slice's number, see the producer numbers in Machine/Topology.lean), the fc since which it waits at a queue, whether its wait for
a matching entry is counted (R248) and whether its stall is reported (R317). -/
structure QTok where
  dst : Nat
  tok : Token
  src : Nat
  since : Nat
  waited : Bool
  stalled : Bool
  deriving DecidableEq, Repr, Inhabited

/-- A partial operand set in a matching store (R245). -/
structure MatchEnt where
  cell : Nat
  trav : Nat
  ctx : Nat
  seq : Nat
  toks : List Token
  deriving DecidableEq, Repr, Inhabited

/-- A task (R209): its cell, operand tokens, level (R306) and fc of entry into the ready list (R304). -/
structure Task where
  cell : Nat
  toks : List Token
  level : Nat
  entered : Nat
  deriving DecidableEq, Repr, Inhabited

/-- A running pass of a cell (R208, R209): its task, V0 to V7 (an absent entry is null in every lane), the number of the
next instruction and whether the context was squashed while it ran (R318 step 4). -/
structure Pass where
  task : Task
  v : Tbl Lanes
  pc : Nat
  squashed : Bool
  start : Nat
  deriving DecidableEq, Repr, Inhabited

/-- Where one copy of an emitted token goes (R170, R241); `bcast` marks the message of a broadcast route (R243). -/
inductive Dest where
  | cell (g slot : Nat)
  | die (mask dst slot : Nat) (bcast : Bool)
  | collector (tile : Nat)
  | federation (pkg group : Nat)
  deriving DecidableEq, Repr, Inhabited

/-- The four memory requests of a cell by target and kind (R232). -/
inductive ReqKind where
  | srqRead | srqWrite | srqInsert | hrqRead | hrqWrite
  deriving DecidableEq, Repr, Inhabited

/-- A memory request of a cell (R232 to R234). `off` is lane 0 of A, `data` the lanes of B, `addr` the byte addressed in
the stack SRAM (die × 2^30 + slice × 2^26 + byte) or in HBM (die × 2^36 + stack address); `why` is 0 for a request that makes its
access, 1 for one that makes none, 2 for a poisoned task's write (R234); `fc` is the fc in which it entered its channel's queue
(R351); `dead` marks a request of a removed traverse: it is served and its reply is discarded (R318 step 4). -/
structure MemReq where
  id : Nat
  cell : Nat
  port : Nat
  kind : ReqKind
  trav : Nat
  ctx : Nat
  seq : Nat
  acc : Nat
  poisoned : Bool
  off : Nat
  data : Lanes
  addr : Nat
  why : Nat
  fc : Nat
  dead : Bool
  deriving DecidableEq, Repr, Inhabited

/-- What an output-buffer entry waits for (R312): copies of a token still to be sent, a request still to leave, or a
reply that has not yet been delivered (`reply` holds it while an earlier one to the same cell is outstanding). -/
inductive OutWork where
  | copies (tok : Token) (dests : List Dest)
  | leaving (req : MemReq)
  | outstanding (req : MemReq) (reply : Option Token)
  deriving DecidableEq, Repr, Inhabited

/-- An output-buffer entry with the fc of its emission (R312). -/
structure OutEnt where
  fc : Nat
  work : OutWork
  deriving DecidableEq, Repr, Inhabited

/-- A Chain token message waiting in a die's receive buffer (R243, R313): DIE_MASK, DST, the token, the producer (its die is
SRC_DIE), the fc of emission and whether it came from a broadcast route. -/
structure ChainMsg where
  mask : Nat
  dst : Nat
  tok : Token
  src : Nat
  fc : Nat
  bcast : Bool
  deriving DecidableEq, Repr, Inhabited

/-! ### Plats (R157 to R177) -/

/-- A COLUMN record (R163). -/
structure Column where
  type : Nat
  col : Nat
  word : Nat
  lsb : Nat
  bits : Nat
  deriving DecidableEq, Repr, Inhabited

/-- A GROUP or TABLE record with its columns (R162); `raw` holds the column records' bytes (R165). -/
structure Group where
  isTable : Bool
  fed : Bool
  id : Nat
  w : Nat
  cols : List Column
  raw : Bytes
  deriving DecidableEq, Repr, Inhabited

/-- A NODE record (R167). -/
structure Node where
  op : Nat
  ncells : Nat
  first : Nat
  region : Nat
  param : Bytes
  deriving DecidableEq, Repr, Inhabited

/-- A TRAVERSE record with its nodes (R166). -/
structure Trav where
  input : Nat
  num : Nat
  prio : Nat
  inputId : Nat
  coll : Nat
  nodes : List Node
  deriving DecidableEq, Repr, Inhabited

/-- A MICROCODE record: a cell and its instruction words (R169). -/
structure Micro where
  cell : Nat
  code : List Nat
  deriving DecidableEq, Repr, Inhabited

/-- A ROUTE record (R170). -/
structure Route where
  src : Nat
  port : Nat
  kind : Nat
  slot : Nat
  dieMask : Nat
  dst : Nat
  trav : Nat
  deriving DecidableEq, Repr, Inhabited

/-- A MATCH_LAYOUT record (R171). -/
structure Layout where
  tile : Nat
  trav : Nat
  first : Nat
  entries : Nat
  deriving DecidableEq, Repr, Inhabited

/-- A PARTITION record (R172). -/
structure PartRec where
  kind : Nat
  die : Nat
  first : Nat
  count : Nat
  zeroInit : Bool
  spread : Bool
  purpose : Nat
  region : Nat
  deriving DecidableEq, Repr, Inhabited

/-- A CERT record (R174). -/
structure Cert where
  trav : Nat
  accept : Nat
  prio : Nat
  bound : Nat
  pipe : Nat
  results : Nat
  hops : Nat
  hbmSerial : Nat
  sramSerial : Nat
  deriving DecidableEq, Repr, Inhabited

/-- A STAKE record (R176). -/
structure StakeRec where
  isGlobal : Bool
  rep : Bool
  repLog2 : Nat
  source : Nat
  trav : Nat
  value : Nat
  deriving DecidableEq, Repr, Inhabited

/-- A plat whose image has passed phase D, with its handle and owner (R158, R182). -/
structure Plat where
  handle : Nat
  owner : Nat
  signed : Bool
  keySlot : Nat
  svn : Nat
  platId : Nat
  replace : Bool
  replaces : Nat
  schema : List Group
  travs : List Trav
  micro : List Micro
  routes : List Route
  layouts : List Layout
  parts : List PartRec
  certs : List Cert
  stakes : List StakeRec
  measure : Bytes
  deriving DecidableEq, Repr, Inhabited

/-- A staging slot's hidden part (R187, R618): the command that took it, the image, the parsed plat, whether the plat is
staged, its place in the order of admission, how far a two-COMMIT replacement has come (R194: 0 not begun, 1 zeroing,
2 zeroed), the removed plat's traverse numbers that stay reserved to it and the slices and units (kind, die, number) that the
first COMMIT left to zero (R194), and the fc of its READY (R197). -/
structure PlatSlot where
  ring : Nat
  tag : Nat
  cq : Nat
  addr : Nat
  len : Nat
  dmaClass : Nat
  handle : Nat
  image : Bytes
  plat : Option Plat
  staged : Bool
  order : Nat
  twoCommit : Nat
  reserved : List Nat
  due : List (Nat × Nat × Nat)
  readyAt : Nat
  deriving DecidableEq, Repr, Inhabited

/-- The Gauntlet's reservations for one admitted traverse (R330, R339): its record, its plat's handle, its pace and the
bound recomputed last. -/
structure Resv where
  trav : Nat
  handle : Nat
  pace : Nat
  computed : Nat
  deriving DecidableEq, Repr, Inhabited

/-! ### Commands, completions, results -/

/-- A completion entry before it is written (R457, R458). `stamp` is `none` where the STAMP is BMK_WALL.FC at writing; `held`
are the fc for which its row was held back at its collector (R342); `rows` are the rows of its invocation (0 for streams and stakes),
and `off` tells that a fault has ended its measurement (R342). -/
structure Compl where
  cq : Nat
  kind : Nat
  status : Nat
  reason : Nat
  tag : Nat
  aux : Nat
  stamp : Option Nat
  r0 : Lane
  r1 : Lane
  sq : Nat
  inv : Option Nat
  trav : Nat
  ctx : Nat
  acc : Nat
  twin : Option (Nat × Nat)
  held : List (Nat × Nat)
  rows : Nat
  off : Bool
  deriving DecidableEq, Repr, Inhabited

/-- A row that has reached a collector or a destination unit, with the EMIT node's PARAM (R266, R293), its
STAMP under R294, and the fc at which it reached and left the collector. -/
structure Result where
  trav : Nat
  ctx : Nat
  seq : Nat
  cell : Nat
  lanes : Lanes
  poisoned : Bool
  acc : Nat
  param : Bytes
  die : Nat
  twin : Option (Nat × Nat)
  stamp : Nat
  inFc : Nat
  outFc : Nat
  deriving DecidableEq, Repr, Inhabited

/-- An item of a collector queue: a row, or the mark of a control token (R337). -/
inductive CollItem where
  | row (r : Result)
  | mark (tok : Token)
  deriving DecidableEq, Repr, Inhabited

/-- A collector's queue for one producing source (R337). -/
structure CollQ where
  trav : Nat
  cell : Nat
  items : List CollItem
  deriving DecidableEq, Repr, Inhabited

/-- An open invocation (R301; `scan` counts the tokens issued of each head column, `scanFail` tells that a column failed, and `late` that one of its outputs breached, R343): where it came from, what it reads, where its rows go, and how it ends. A range is the
word of a table row with its address and length (R453). -/
structure Inv where
  num : Nat
  trav : Nat
  sq : Nat
  cq : Nat
  tag : Nat
  fn : Nat
  port : Nat
  rows : Nat
  ranges : List (Nat × Nat × Nat)
  acc : Nat
  buf : Nat
  bufLen : Nat
  written : Nat
  results : Nat
  mark : Option (Nat × Nat)
  squash : Option (Nat × Nat)
  bufFull : Bool
  endFrom : List Nat
  scan : Tbl Nat
  scanFail : Bool
  ended : List Nat
  sorted : Nat
  done : Bool
  late : Bool
  deriving DecidableEq, Repr, Inhabited

/-- A posted host buffer (R456). -/
structure PostBuf where
  addr : Nat
  len : Nat
  timeout : Nat
  written : Nat
  records : Nat
  first : Option Nat
  tag : Nat
  cq : Nat
  deriving DecidableEq, Repr, Inhabited

/-- A sort job of one invocation at one SORT or TOPK node (R286 to R288): its rows (key, payload, order word, acceptance)
in arrival order, the END tokens received (producer, destination cell) and the last of them. -/
structure SortJob where
  trav : Nat
  ctx : Nat
  first : Nat
  rows : List (Lane × Nat × Nat × Nat)
  ends : List (Nat × Nat)
  poisoned : Bool
  fin : Option Token
  deriving DecidableEq, Repr, Inhabited

/-- The matches that a JOIN_INNER or JOIN_LEFT node has emitted for a probe row (R276): the node's first cell, the row's
traverse, context and SEQ, and their number. -/
structure RowMatches where
  first : Nat
  trav : Nat
  ctx : Nat
  seq : Nat
  n : Nat
  deriving DecidableEq, Repr, Inhabited

/-- The buffer of a JOIN_ASOF node (R279): its first cell and traverse, the context and stamp of each row it holds, the value of
the last HORIZON token (R280) and the END tokens of each context (context, producer, destination cell). -/
structure AsofBuf where
  first : Nat
  trav : Nat
  rows : List (Nat × Nat)
  hzn : Nat
  ends : List (Nat × Nat × Nat)
  deriving DecidableEq, Repr, Inhabited

end Sys2Proof.Machine
end

