-- ==== Sys2Proof/Machine/State.lean ====
section
/-! DEFINITION. The state of the package as plain data, its reasons to stop, and the state right after a package cold
reset. Registers have one home, `State.regs`; everything else a unit holds stands in that unit's structure. -/

namespace Sys2Proof.Machine

/-! ### Benchmark unit (02_design_time.md) -/

/-- A message of the master slice on its way to a die over Chain (R81, R82): a new G (`src` none) or a source's horizon,
with the acceptance it descends from (R326). -/
structure GMsg where
  src : Option Nat
  value : Nat
  acc : Nat
  deriving DecidableEq, Repr, Inhabited

/-- A running epoch switch (R94): its number, the number of the epoch that it closes, the fc of its start, and the dies that have received PREPARE, that the
master has heard READY from, that have received COMMIT, and that a lost edge cuts off from the master (log entry 73),
and whether every die has answered, so that COMMIT is on its way. -/
structure EpochSwitch where
  epoch : Nat
  was : Nat
  start : Nat
  prepared : List Nat
  ready : List Nat
  committed : List Nat
  cut : List Nat
  going : Bool
  deriving DecidableEq, Repr, Inhabited

/-- Hidden state of the Benchmark unit: each die's view of G with its acceptance, messages in flight, views of source
horizons (key die × 1,024 + source), expected sequence numbers (R128), waiting BYEs (R139), the splitter's row copies
(R261, key source × 65,536 + group), firing counts (R202), the running switch, the fc of each die's PREPARE, the dies that
hold dispatch (R94), the boundaries that G has crossed and no switch has taken (R94, R97), the fc of the last write of STALL_POLICY
that waits for a boundary with the value that waited before that fc (R101), the HORIZON value last sent and its fc (R207, key traverse × 8 + die), the reason of a closed source's
detach (R100), and the acceptance that raised G last. -/
structure Bmk where
  view : Tbl Nat := []
  viewAcc : Tbl Nat := []
  msgs : Tbl (List GMsg) := []
  srcView : Tbl Nat := []
  expSeq : Tbl Nat := []
  bye : Tbl Nat := []
  rows : Tbl (List W64) := []
  firings : Tbl Nat := []
  sw : Option EpochSwitch := none
  lastStart : Option Nat := none
  prepAt : Tbl Nat := []
  held : List Nat := []
  crossed : Nat := 0
  policyAt : Option (Nat × Option Nat) := none
  lastHzn : Tbl Nat := []
  hznAt : Tbl Nat := []
  closeRsn : Tbl Nat := []
  acc : Nat := 0
  deriving DecidableEq, Repr, Inhabited

/-! ### Transit (03_transit.md) -/

/-- One virtual channel of a port: receiver (next FSEQ expected, whether it waits for a replay, RETRY requests in a row,
the bytes of the stream not yet cut into frames with the places in it that a FRAME_PTR marks, whether it seeks the next FRAME_PTR under R132) and transmitter (next
FSEQ, flits not yet acknowledged with their FSEQ, R116). -/
structure Vc where
  rxExp : Nat := 0
  waiting : Bool := false
  retryRun : Nat := 0
  stream : Bytes := []
  marks : List Nat := []
  resync : Bool := false
  txSeq : Nat := 0
  unacked : List (Nat × Bytes) := []
  deriving DecidableEq, Repr, Inhabited

/-- A VC0 frame that has passed its checks and waits for acceptance (R131). `asStamp` marks a frame that failed step 7 and
is accepted as a TRACE_STAMP (R130); `deliver` are the traverses that may have its tokens, judged at the check (R497). -/
structure CFrame where
  bytes : Bytes
  source : Nat
  asStamp : Bool
  deliver : List Nat
  deriving DecidableEq, Repr, Inhabited

/-- A frame waiting for VC1 credit: `nak` tells the NAKs, of which the device holds at most 64 (R148). -/
structure Vc1Item where
  nak : Bool
  bytes : Bytes
  deriving DecidableEq, Repr, Inhabited

/-- A TRIGGER waiting for VC2 credit (R144): the frame without its WALL field, and the row behind it. -/
structure TrigItem where
  frame : Bytes
  res : Result
  deriving DecidableEq, Repr, Inhabited

/-- Hidden state of one Transit port: INIT flits received, virtual channels, frames checked and not accepted, frames that wait for
VC1 credit, TRIGGERs that wait, the fc of every violation since the last package reset (R147), the last G sent to a federation peer
and the next SEQ of that stream (R155), and of the transmitter the next flit slot of the running slot cycle, the
cycle's CYCLE, and the flits already placed in the running pair (R105, R107). -/
structure Port where
  initRx : Nat := 0
  vcs : Tbl Vc := []
  checked : List CFrame := []
  vc1q : List Vc1Item := []
  trigs : List TrigItem := []
  viols : List Nat := []
  lastFed : Option Nat := none
  fedSeq : Nat := 0
  slot : Nat := 0
  cycle : Nat := 0
  pair : List Bytes := []
  deriving DecidableEq, Repr, Inhabited

/-! ### Plats and the Gauntlet (04_plats.md, 08_timing_promise.md) -/

/-- Hidden state of plat loading: staging slots, active plats in order of activation, pending removals (handle, ring, tag,
completion ring), GEN of each traverse number (R191), the last handle issued, the number of the next admission, the
reservations of admitted traverses, breach epochs already logged (R343), and the handle whose plat holds a stake entry (R176). -/
structure Plats where
  slots : Tbl PlatSlot := []
  active : List Plat := []
  unloads : List (Nat × Nat × Nat × Nat) := []
  gen : Tbl Nat := []
  lastHandle : Nat := 0
  nextOrder : Nat := 0
  resv : List Resv := []
  breachEpoch : Tbl Nat := []
  stakes : Tbl Nat := []
  deriving DecidableEq, Repr, Inhabited

/-! ### Fabric, scheduler, collectors (05_fabric.md to 08_timing_promise.md) -/

/-- A failure marked on a context (R251): traverse, context, status, reason, and for a source stream the epoch of the last
log entry (R621). -/
structure Fail where
  trav : Nat
  ctx : Nat
  status : Nat
  reason : Nat
  epoch : Nat
  deriving DecidableEq, Repr, Inhabited

/-- Hidden state of the fabric: input queues (key tile × 4,096 + traverse), matching stores, ready lists, running passes
(key cell), output buffers (key producer), Chain receive buffers (key die), the next request number, failed contexts,
contexts already freed (traverse, context), open invocations, the last invocation number of each port, sort jobs, the
cells from whose SOURCE_LOST the collector has heard, per stream (traverse, context, cell), the matches that join nodes have
emitted (R276), the buffers of JOIN_ASOF nodes (R279), and the fc in which a head last took input of a traverse (R330; key port
× 4,096 + traverse for a splitter, (16 + column) × 4,096 + traverse for a scan column), and the epoch of a traverse's last logged
poisoned row of a source stream (R367). -/
structure Fab where
  inQ : Tbl (List QTok) := []
  store : Tbl (List MatchEnt) := []
  ready : Tbl (List Task) := []
  passes : Tbl Pass := []
  outb : Tbl (List OutEnt) := []
  chainRx : Tbl (List ChainMsg) := []
  nextReq : Nat := 0
  fails : List Fail := []
  freed : List (Nat × Nat) := []
  invs : Tbl Inv := []
  lastInv : Tbl Nat := []
  sorts : List SortJob := []
  lostFrom : List (Nat × Nat × Nat) := []
  found : List RowMatches := []
  asof : List AsofBuf := []
  paceAt : Tbl Nat := []
  poisonEp : Tbl Nat := []
  deriving DecidableEq, Repr, Inhabited

/-- Hidden state of collectors and destination units: collector queues (key tile) with their round-robin place, the
completion writer's and host-buffer writer's queues (key host port), rows waiting for a TRIG_OUT driver (key die), pin
levels and running pulses (key pin), TSEQ per traverse and port (key (traverse × 16 + port) × 2, + 1 on the odd die of a live pair), outputs already emitted per
traverse and acceptance (R329), for each condition of R342 the spans of fc in which it held (keys in Machine/Ops.lean), and the
conditions that held at the end of the last fc and those that have held in this one (R345). -/
structure Dst where
  colls : Tbl (List CollQ) := []
  collRR : Tbl Nat := []
  cw : Tbl (List Compl) := []
  hbw : Tbl (List Result) := []
  pinQ : Tbl (List Result) := []
  pins : Tbl Bool := []
  pulses : Tbl Nat := []
  tseq : Tbl Nat := []
  outs : List (Nat × Nat × Nat) := []
  susp : Tbl (List (Nat × Nat)) := []
  suspOn : List Nat := []
  suspHit : List Nat := []
  deriving DecidableEq, Repr, Inhabited

/-! ### Rings (12_host_rings.md) -/

/-- Hidden state of ring `n`: entries read and not yet consumed (index, bytes), the re-reads made of the entry at CI,
whether the running read was already retried (R452), whether the list read of the INVOKE at CI is outstanding, whether it
was retried, and what it returned (no bytes where it failed), overflow entries (R462) with the slot of the first, the
pending count (R467), posted buffers (R456), the COMMAND completions owed and not yet written (R471), and the reason of a shutdown. An entry whose
read failed has no bytes. -/
structure Ring where
  ents : List (Nat × Bytes) := []
  rereads : Nat := 0
  retried : Bool := false
  listWait : Bool := false
  listRetried : Bool := false
  list : Option Bytes := none
  ovf : List Compl := []
  pending : Nat := 0
  posted : List PostBuf := []
  owed : Nat := 0
  stop : Nat := 0x0D07
  ovfHead : Nat := 0
  /-- The CTL cycle in which the ring's shutdown began (R472). -/
  stopAt : Option Nat := none
  /-- Of a completion ring: the fc in which it last stopped being full (R472). -/
  freeAt : Option Nat := none
  deriving DecidableEq, Repr, Inhabited

/-- Hidden state of the host interface: the rings, the round-robin place of each port's fetcher, MSI-X mask bits cleared and
pending bits set (key function × 2,048 + vector), the fc in which each port's fetcher last consumed (R451), the W1C bits set in the
CTL cycle `roseAt` (R19), the CTL cycle of each PF's last event message (R468; key 2 + p the last escalation message, R590), message addresses and data (key that × 4 + dword), the BARs written (key function ×
0x1000 + configuration offset), the context registers (offsets) written with reserved bits set (R469), and
BMK_WALL.FC at the halt (R150). -/
structure Rings where
  rings : Tbl Ring := []
  rr : Tbl Nat := []
  tookAt : Tbl Nat := []
  rose : List Nat := []
  roseAt : Nat := 0
  evtAt : Tbl Nat := []
  unmasked : List Nat := []
  pendingBits : List Nat := []
  msixTable : Tbl Nat := []
  cfg : Tbl Nat := []
  rsv : List Nat := []
  haltFc : Nat := 0
  deriving DecidableEq, Repr, Inhabited

/-! ### Stack SRAM (09_stack_sram.md) -/

/-- A stack SRAM channel: its request queue (R350), entries whose corrected words wait for write-back (R365), the
scrub's next entry (R372), and the fc after the last one in which its write port was used (R371). -/
structure SrmCh where
  queue : List MemReq := []
  wb : List Nat := []
  scrub : Nat := 0
  wrAt : Nat := 0
  deriving DecidableEq, Repr, Inhabited

/-- Hidden state of the stack SRAM: contents (byte address die × 2^30 + slice × 2^26 + byte in the slice), words that hold
a correctable or an uncorrectable error (word address), channels (key die × 16 + channel), and slices being zeroed (key
die × 16 + slice; 0 for a region under PRELOAD or R194, 1 for a scrub of R503, 2 for a scrub whose slice
is zero and whose DIRTY bit is still set), and the next entry that the zeroing engine of such a slice writes (R371). -/
structure Srm where
  mem : List Host.Cell := []
  ce : List Nat := []
  ue : List Nat := []
  chs : Tbl SrmCh := []
  zeroing : Tbl Nat := []
  zeroPos : Tbl Nat := []
  deriving DecidableEq, Repr, Inhabited

/-! ### HBM and the spill caches (10_hbm_cache.md) -/

/-- A write-queue entry (R384): a line (stack address / 128), its enabled bytes, and the CRC retries made (R390). -/
structure WqEnt where
  line : Nat
  bytes : Tbl Byte
  retries : Nat
  deriving DecidableEq, Repr, Inhabited

/-- A read-queue entry: the fill it belongs to, its line, whether it is urgent (R382), and whether it is a re-read (R386). -/
structure RdEnt where
  fill : Nat
  line : Nat
  urgent : Bool
  again : Bool
  deriving DecidableEq, Repr, Inhabited

/-- A pseudo-channel controller: its queues, the reads issued and not yet returned, and the running write drain with the
writes issued since the last urgent read (R383). -/
structure HPc where
  rq : List RdEnt := []
  wq : List WqEnt := []
  infl : List RdEnt := []
  drain : Option Nat := none
  deriving DecidableEq, Repr, Inhabited

/-- A fill (R401): its number, die and line, the missing sectors in the order of their arrival, the line's bytes as the
controller compared the read with its write queue (R385), whether the data have returned, the way it allocates, the request of
a cell that it answers, the other requester that waits for it, and how it failed for that one (0 not; 1 on a frozen or resetting
pseudo-channel, 3 on a fenced one, 5 as the error that froze it, R411). -/
structure Fill where
  id : Nat
  die : Nat
  line : Nat
  order : List Nat
  data : Bytes
  back : Bool
  way : Option Nat
  req : Option MemReq
  who : Option Nat
  err : Nat
  deriving DecidableEq, Repr, Inhabited

/-- A line of a spill cache (R397): tag, valid and dirty bits of its sectors, data, and whether a prefetch brought it. -/
structure CLine where
  tag : Nat
  valid : Nat
  dirty : Nat
  data : Bytes
  pf : Bool
  deriving DecidableEq, Repr, Inhabited

/-- A stream entry (R402): the requester, the line of its last miss, and once trained the line predicted next and the stride
to it. -/
structure Strm where
  who : Nat
  last : Nat
  trained : Option (Int × Int)
  deriving DecidableEq, Repr, Inhabited

/-- A command of SPC_CMD with the range registers as they stood when it was written, and the lines that a PRELOAD has treated and
loaded so far. -/
structure SpcCmd where
  op : Nat
  way : Nat
  ways : Nat
  addr : Nat
  len : Nat
  next : Nat
  done : Nat
  deriving DecidableEq, Repr, Inhabited

/-- A spill cache: its lines (key set × 16 + way), replacement bits of each set, requests of cells on their way to the tag
lookup, stream entries (the latest first), and commands not yet completed. -/
structure Spc where
  lines : Tbl CLine := []
  plru : Tbl Nat := []
  reqs : List MemReq := []
  streams : List Strm := []
  cmds : List SpcCmd := []
  deriving DecidableEq, Repr, Inhabited

/-- Hidden state of the HBM stacks: contents (byte address die × 2^36 + stack address), pseudo-channels (key die × 32 + pc),
fills and the number of the next, spill caches (key die), the fence table of R380 (key die: bit c a fenced
pseudo-channel, bit 32 + c one that failed training; and the SKIP_PC of a stack whose interleave skips one), the running retraining pass (key die; pc × 16 + step), the
setting found in the last window (key die; pseudo-channel, setting, margin, R393), the read of HBM_IND_DATA that waits for its word
(key die; byte offset in the register, length), and
units being zeroed (key die × 64 + unit; 0 for a ZERO_INIT region or a replacement, 1 for a scrub). -/
structure Hbm where
  mem : List Host.Cell := []
  pcs : Tbl HPc := []
  fills : List Fill := []
  nextFill : Nat := 0
  spcs : Tbl Spc := []
  fences : Tbl Nat := []
  skips : Tbl Nat := []
  retrain : Tbl Nat := []
  trained : Tbl (Nat × Nat × Nat) := []
  ind : Tbl (Nat × Nat) := []
  zeroing : Tbl Nat := []
  deriving DecidableEq, Repr, Inhabited

/-! ### Column codec (11_codec.md) -/

/-- A compression or decompression job (R427, R429, R430): its command, addresses and lengths, IN_DONE and OUT_DONE, and the
OUT_DONE at which its output begins at DST. -/
structure CJob where
  sq : Nat
  cq : Nat
  tag : Nat
  comp : Bool
  fn : Nat
  src : Nat
  dst : Nat
  srcLen : Nat
  dstLen : Nat
  limit : Nat
  inDone : Nat
  outDone : Nat
  outBase : Nat
  deriving DecidableEq, Repr, Inhabited

/-- A column that a DECODE head reads (R424, R434): its invocation, the number of the head column, the engines that hold a
slot for it (the first decodes), function, range, bytes taken and given, the output limit, the elements decoded and not
yet issued, and whether its last block has been decoded. -/
structure DCol where
  inv : Nat
  col : Nat
  engs : List Nat
  fn : Nat
  addr : Nat
  len : Nat
  inDone : Nat
  outDone : Nat
  limit : Nat
  buf : List W64
  done : Bool
  deriving DecidableEq, Repr, Inhabited

/-- A capture block (R426): its port, the plat whose region takes it, its elements. -/
structure CapBlk where
  port : Nat
  handle : Nat
  xs : List W64
  deriving DecidableEq, Repr, Inhabited

/-- Rows of one source's group gathered for capture: port, plat, source, group, the STAMP of the first row, the rows. -/
structure CapAcc where
  port : Nat
  handle : Nat
  src : Nat
  group : Nat
  stamp : Nat
  rows : List (List W64)
  deriving DecidableEq, Repr, Inhabited

/-- Hidden state of the codec: jobs and capture blocks of each engine (key die × 4 + engine), DECODE columns, capture blocks
that wait while no engine of their die is enabled, rows gathered, and the ports whose first gap since the last read is
recorded (R316). -/
structure Cdc where
  jobs : Tbl (List CJob) := []
  caps : Tbl (List CapBlk) := []
  cols : List DCol := []
  capWait : List CapBlk := []
  accs : List CapAcc := []
  gaps : List Nat := []
  /-- Per engine: the fc in which its last block ended (R435). -/
  ended : Tbl Nat := []
  deriving DecidableEq, Repr, Inhabited


/-! ### DMA channels (13_dma.md) -/

/-- A transfer (R477): its command, addresses, length, class and attributes. -/
structure Xfer where
  sq : Nat
  cq : Nat
  tag : Nat
  fn : Nat
  src : Nat
  dst : Nat
  len : Nat
  cls : Nat
  relaxed : Bool
  deriving DecidableEq, Repr, Inhabited

/-- A read burst on its way (R484): offset in the transfer, and bytes. -/
structure Burst where
  off : Nat
  len : Nat
  deriving DecidableEq, Repr, Inhabited

/-- Hidden state of a channel: waiting transfers, the running one, its bursts in flight, the beats in its buffer (offset and
bytes), the beats left of a started write burst, the credit of R486 with the fc at which it stood so, the first failure
(status, reason, FAULT_ADDR), and the cause of a squash with its fc. -/
structure Chan where
  queue : List Xfer := []
  cur : Option Xfer := none
  infl : List Burst := []
  buf : List (Nat × Bytes) := []
  burst : Nat := 0
  credit : Nat := 2048
  creditAt : Nat := 0
  fault : Option (Nat × Nat × Nat) := none
  squash : Option (Nat × Nat) := none
  squashAt : Nat := 0
  deriving DecidableEq, Repr, Inhabited

/-- Hidden state of the DMA units: channels (key die × 64 + channel), the round-robin place of each die's datapath (key
die × 4 + class), and the fc of its last write beat (R485). -/
structure Dma where
  chans : Tbl Chan := []
  rr : Tbl Nat := []
  beatAt : Tbl Nat := []
  deriving DecidableEq, Repr, Inhabited



/-! ### Functions (14_functions.md) -/

/-- A function reset in progress (R506): its step, the fc of its start, the transfers it has squashed, the reason of what it
ends, and whether a scrub fault was recorded. -/
structure Flr where
  step : Nat
  start : Nat
  squashed : Nat
  reason : Nat
  fault : Bool
  deriving DecidableEq, Repr, Inhabited

/-- Hidden state of the functions: resets in progress (key function; a physical function's covers its virtual functions,
R508), and NumVFs while VF Enable is set (key physical function, R494). -/
structure Fns where
  resets : Tbl Flr := []
  vfs : Tbl Nat := []
  deriving DecidableEq, Repr, Inhabited

/-! ### Twin mode (15_twin_power.md) -/

/-- An input at the twin gate (R517): the pair, the cell within the die, who produced it, the token, and on which of the
two dies it has arrived. -/
structure GateEnt where
  pair : Nat
  cell : Nat
  src : Nat
  tok : Token
  at0 : Bool
  at1 : Bool
  deriving DecidableEq, Repr, Inhabited

/-- A die digest (R525): its die, the closed epoch, whether the die was shadow at its end, the digest. -/
structure DieDigest where
  die : Nat
  epoch : Nat
  shadow : Bool
  digest : Bytes
  deriving DecidableEq, Repr, Inhabited

/-- Hidden state of twin mode: the gate (R517), hold queues (key die; rows with the fc of their passing, R523), the next
TWSEQ of a stream at a die (die, traverse, GEN, context, next; R519), the last TWSEQ written of a stream (host port,
traverse, GEN, context, last; R520), the digest records of the
running epoch (key tile, R525), the die digests on their way to Brim and those received, the dies
that logged a DEFERRED entry of block SRM, HBM or SPC with its epoch (R526), the fc of the last heartbeat (key die), and whether a role swap waits for the end of an epoch switch
(R538). -/
structure Twn where
  gate : List GateEnt := []
  hold : Tbl (List (Result × Nat)) := []
  twseq : List (Nat × Nat × Nat × Nat × Nat) := []
  lastTw : List (Nat × Nat × Nat × Nat × Nat) := []
  recs : Tbl Bytes := []
  sent : List DieDigest := []
  received : List DieDigest := []
  deferred : List (Nat × Nat) := []
  beat : Tbl Nat := []
  swapDue : Bool := false
  deriving DecidableEq, Repr, Inhabited

/-! ### Power, clocks, bring-up and life (15_twin_power.md, 16_clocks_bringup.md, 18_package.md) -/

/-- The life counters of R613: equivalent time in units of 2^-32 s, seconds counted, seconds counted above 95 °C, package cold
resets started by a feed, thermal trips. -/
structure Life where
  equiv : Nat := 0
  on : Nat := 0
  above : Nat := 0
  cold : Nat := 0
  trips : Nat := 0
  deriving DecidableEq, Repr, Inhabited

/-- Hidden state of power, clocks and bring-up. Per feed (0 A, 1 B): samples in a row within 10.8 V to 13.2 V with the sense
contact mated, and samples in a row outside 9.6 V to 14.0 V (R534, R565). The power-fail sequence runs, and has
ended (R536). Per reference: the count of its last window, and whether an edgeless stretch has spoilt the running one (R546). The running step of R555 (0 none) and the fc of its start, the
running step of R559 (0 none; 1 to 5 are W1 to W5), whether it follows a PLL fault (R550) and whether the running step of R555 belongs to it. Whether a
quiesce runs (R566), PKG_READY, the host ports whose PERST_N is low (R557), COLD_RST_N low, and the life counters with
the values last stored (R613). -/
structure Pwr where
  goodRun : Tbl Nat := []
  badRun : Tbl Nat := []
  failing : Bool := false
  dark : Bool := false
  counts : Tbl Nat := []
  spoilt : List Nat := []
  boot : Nat := 0
  bootAt : Nat := 0
  warm : Nat := 0
  pllLost : Bool := false
  quiescing : Bool := false
  ready : Bool := false
  perst : List Nat := [0, 1]
  coldLow : Bool := false
  life : Life := {}
  stored : Life := {}
  deriving DecidableEq, Repr, Inhabited

/-! ### Security (17_security_errors.md) -/

/-- A seal of the error log in Brim's store (R594): the registers of the live log as it stood (keys as in `State.regs`), the
valid entries, the FC of the youngest, and whether it replaced a seal not erased. -/
structure Seal where
  regs : Tbl Nat
  valid : Nat
  fc : Nat
  replaced : Bool
  deriving DecidableEq, Repr, Inhabited

/-- A response submitted for debug unlock (R582): key, signature, level. -/
structure DbgResp where
  key : Bytes
  sig : Bytes
  level : Nat
  deriving DecidableEq, Repr, Inhabited

/-- Hidden state of Brim's security services: the public keys in plat key slots 1 to 7 (R576), the key buffer and the
response window (absent bytes are zero), the report window (R578) and the body of the report being built, whether the debug nonce is
valid (R582) and the response being verified, the fused MIN_SVN and the revocation of vendor image key 0 (R571), and the
sealed log store (R594). -/
structure Sec where
  keys : Tbl Bytes := []
  keyBuf : Tbl Byte := []
  resp : Tbl Byte := []
  report : Bytes := []
  body : Option Bytes := none
  nonce : Bool := false
  sub : Option DbgResp := none
  minSvn : Nat := 0
  key0Revoked : Bool := false
  store : Option Seal := none
  deriving DecidableEq, Repr, Inhabited

/-! ### What the package sends -/

/-- What the package has sent, in order: flits of a Transit port, and codewords A and B of each pair that they fill (R106), memory writes and reads on a host link (with function,
address, data or length, and the attributes Relaxed Ordering and No Snoop of R439 and R480), MSI-X messages, completions of a register access
or configuration access (code 0 Successful Completion with its data, 1 Unsupported Request, 2 Completer Abort), pin
changes (log entry 6). -/
inductive Out where
  | flit (port : Nat) (bytes : Bytes)
  | pair (port : Nat) (a b : List Nat)
  | hostWrite (port fn addr : Nat) (data : Bytes) (ro ns : Bool)
  | hostRead (port fn addr len : Nat) (ns : Bool)
  | msix (fn vector addr data : Nat)
  | access (code : Nat) (data : Nat)
  | pin (name : Nat) (level : Bool)
  deriving DecidableEq, Repr, Inhabited

/-- What an event left in the bytes it reached: free values, zero, or what the bytes from `src` up held. -/
inductive Refill where
  | free
  | zero
  | copy (src : Nat)
  deriving DecidableEq, Repr, Inhabited

/-- An event that gave bytes `lo` to `hi` of memory `mem` contents as a whole (undefined, zeroed, copied): all of them where
`mods` is 0, else those whose 256-byte granule is `rem` mod `mods` (R388: the bytes of one pseudo-channel). -/
structure Undef where
  mem : Nat
  lo : Nat
  hi : Nat
  mods : Nat
  rem : Nat
  what : Refill
  deriving DecidableEq, Repr, Inhabited

/-- The state of the package. `regs` holds every register field that differs from its reset value, keyed by
(offset of the instance's register) × 64 + lowest bit; `shadow` holds pending E-class writes (R21, R22) under the same
keys. `now` counts the fc of wall time, `nonce` the free values already drawn (both the model's own), `devCtl` the PCIe Device Control register of
each function where it differs from its reset value (log entry 13), `undef` the events
that gave parts of a memory their contents (the latest first, numbered from 1), `logNow` the slots that the error log's entries of
CTL cycle `logCyc` took, in SEQ order (R589). -/
structure State where
  part : Part := .m880
  now : Nat := 0
  nonce : Nat := 0
  regs : Tbl Nat := []
  shadow : Tbl Nat := []
  undef : List Undef := []
  bmk : Bmk := {}
  ports : Tbl Port := []
  plats : Plats := {}
  fab : Fab := {}
  tstore : List Host.Cell := []
  dst : Dst := {}
  rings : Rings := {}
  srm : Srm := {}
  hbm : Hbm := {}
  cdc : Cdc := {}
  dma : Dma := {}
  devCtl : Tbl Nat := []
  fns : Fns := {}
  twn : Twn := {}
  pwr : Pwr := {}
  sec : Sec := {}
  logSeq : Nat := 0
  logOff : Bool := false
  logCyc : Nat := 0
  logNow : List Nat := []
  out : List Out := []
  pending : List Instr := []
  deriving DecidableEq, Repr

/-- Why the machine stops. The model raises none: every command of the table has an effect in the spec. -/
inductive Fault where
  /-- raised by no meaning of this model; safe: a fault the model never takes excludes no behaviour -/
  | absent
  deriving DecidableEq, Repr

/-- Why a command is refused. -/
inductive Refusal where
  /-- a command without a meaning yet; raised by the arms of Dispatch only; safe: the machine goes no further -/
  | notModelled (mnemonic : String)
  deriving DecidableEq, Repr

/-- The package right after a package cold reset: every register field at its reset value (R20: `regs` lists nothing),
every unit empty, the queue empty. -/
def State.reset : State := {}

end Sys2Proof.Machine
end

