-- ==== Sys2Proof/Machine/Tbl.lean ====
section
/-! DEFINITION. Operations on sparse tables, byte strings, CRC-32C and SHA3-256. -/

namespace Sys2Proof.Machine

/-- The entry of `k`, if the table has one. -/
def Tbl.get? {α : Type} (k : Nat) : Tbl α → Option α
  | [] => none
  | (j, v) :: t => if j = k then some v else Tbl.get? k t

/-- The entry of `k`, or `d`. -/
def Tbl.getD {α : Type} (t : Tbl α) (k : Nat) (d : α) : α := (Tbl.get? k t).getD d

/-- The table with the entry of `k` put to `v`. -/
def Tbl.put {α : Type} (k : Nat) (v : α) : Tbl α → Tbl α
  | [] => [(k, v)]
  | (j, w) :: t => if j = k then (k, v) :: t else if k < j then (k, v) :: (j, w) :: t else (j, w) :: Tbl.put k v t

/-- The table without an entry for `k`. -/
def Tbl.del {α : Type} (k : Nat) (t : Tbl α) : Tbl α := t.filter (fun e => e.1 ≠ k)

/-- The entry of `k` (or `d`) changed by `f`. -/
def Tbl.upd {α : Type} (t : Tbl α) (k : Nat) (d : α) (f : α → α) : Tbl α := Tbl.put k (f (Tbl.getD t k d)) t

/-- `put` keeps the rising order of the keys, and so does `del`: the canonical form of a sparse table. -/
def Tbl.sorted {α : Type} : Tbl α → Bool
  | [] => true
  | [_] => true
  | (a, _) :: (b, v) :: t => decide (a < b) && Tbl.sorted ((b, v) :: t)

/-- `n` bytes of `v`, little-endian (R13). -/
def leBytes : (n v : Nat) → Bytes
  | 0, _ => []
  | n + 1, v => BitVec.ofNat 8 v :: leBytes n (v / 256)

/-- The number that a byte string spells, little-endian (R13). -/
def leNat : Bytes → Nat
  | [] => 0
  | b :: bs => b.toNat + 256 * leNat bs

/-- Bytes `off` to `off + n - 1` of a byte string; absent bytes are zero. -/
def sub (bs : Bytes) (off n : Nat) : Bytes :=
  let t := (bs.drop off).take n
  t ++ List.replicate (n - t.length) 0

/-- The `n`-byte field at offset `off`. -/
def fld (bs : Bytes) (off n : Nat) : Nat := leNat (sub bs off n)

/-- Byte `off` as a number. -/
def byteAt (bs : Bytes) (off : Nat) : Nat := ((bs.drop off).head?.getD 0).toNat

/-- Bits `[lsb + w - 1 : lsb]` of a number. -/
def bits (v lsb w : Nat) : Nat := v / 2 ^ lsb % 2 ^ w

/-- Whether every byte of a string is zero. -/
def allZero (bs : Bytes) : Bool := bs.all (· == 0)

/-- ceil(a / b). -/
def ceilDiv (a b : Nat) : Nat := (a + b - 1) / b

/-- A number cut to `w` bits. -/
def trunc (w v : Nat) : Nat := v % 2 ^ w

/-- A count that stops at the largest value of `w` bits. -/
def satAdd (w a b : Nat) : Nat := min (a + b) (2 ^ w - 1)

/-- (a − b) mod 2^w, for values below 2^w. -/
def subMod (w a b : Nat) : Nat := (a + 2 ^ w - b % 2 ^ w) % 2 ^ w

/-- The 64-bit words of a byte string, little-endian. -/
def leWords : Bytes → List W64
  | b0 :: b1 :: b2 :: b3 :: b4 :: b5 :: b6 :: b7 :: t =>
    BitVec.ofNat 64 (leNat [b0, b1, b2, b3, b4, b5, b6, b7]) :: leWords t
  | _ => []

/-- The bytes of a list of 64-bit words. -/
def wordBytes : List W64 → Bytes
  | [] => []
  | w :: ws => leBytes 8 w.toNat ++ wordBytes ws

/-- The first index in a list at which a test holds. -/
def findIdx {α : Type} (p : α → Bool) : List α → Option Nat
  | [] => none
  | a :: t => if p a then some 0 else (findIdx p t).map (· + 1)

/-- A list without its `i`-th element. -/
def dropAt {α : Type} : List α → Nat → List α
  | [], _ => []
  | _ :: t, 0 => t
  | a :: t, n + 1 => a :: dropAt t n

/-- A list with its `i`-th element changed. -/
def modAt {α : Type} (f : α → α) : List α → Nat → List α
  | [], _ => []
  | a :: t, 0 => f a :: t
  | a :: t, n + 1 => a :: modAt f t n

/-- Insertion by a weak order, behind the elements that stand before or beside the new one. -/
def insertBy {α : Type} (le : α → α → Bool) (x : α) : List α → List α
  | [] => [x]
  | y :: t => if le y x then y :: insertBy le x t else x :: y :: t

/-- A stable insertion sort. -/
def sortBy {α : Type} (le : α → α → Bool) (xs : List α) : List α := xs.foldl (fun acc x => insertBy le x acc) []

/-! ### CRC-32C (R108: reflected, initial value and final XOR 0xFFFF_FFFF) -/

/-- One bit of the reflected Castagnoli division. -/
def crcBit (c : BitVec 32) : BitVec 32 :=
  if c.getLsbD 0 then (c >>> 1) ^^^ 0x82F63B78#32 else c >>> 1

/-- One byte of the CRC. -/
def crcByte (c : BitVec 32) (b : Byte) : BitVec 32 :=
  crcBit (crcBit (crcBit (crcBit (crcBit (crcBit (crcBit (crcBit (c ^^^ b.setWidth 32))))))))

/-- CRC-32C of a byte string. -/
def crc32c (bs : Bytes) : Nat := (~~~ (bs.foldl crcByte 0xFFFFFFFF#32)).toNat

/-! ### SHA3-256 (FIPS 202, which the spec cites by name)

The 1,600 bits are 25 lanes in a list, plane after plane: lane (x, y) stands at x + 5y. The offsets of rho and the constants
of iota are computed as FIPS 202 defines them, by the walk of its Algorithm 2 and the shift register of its Algorithm 5. -/

/-- The planes of 25 lanes. -/
def planes : (n : Nat) → List W64 → List (List W64)
  | 0, _ => []
  | n + 1, l => l.take 5 :: planes n (l.drop 5)

/-- A plane turned by `n` places: its lane x is lane x + n of `l`. -/
def turn (n : Nat) (l : List W64) : List W64 := l.drop n ++ l.take n

/-- Theta: each lane takes the parity of the column beside it and of the next column, turned by one bit. -/
def theta (l : List W64) : List W64 :=
  let par := (planes 5 l).foldl (List.zipWith (· ^^^ ·)) (List.replicate 5 0)
  let mix := List.zipWith (fun p q => p ^^^ q.rotateLeft 1) (turn 4 par) (turn 1 par)
  ((planes 5 l).map (List.zipWith (· ^^^ ·) mix)).flatten

/-- The walk of `n` steps from (x, y) over the lanes other than (0, 0): the lane left, the lane reached, which is where pi
puts the one left, and rho's offset of the lane left, the t-th triangular number. -/
def laneWalk : (n t x y : Nat) → List (Nat × Nat × Nat)
  | 0, _, _, _ => []
  | n + 1, t, x, y =>
    let y' := (2 * x + 3 * y) % 5
    (x + 5 * y, y + 5 * y', t * (t + 1) / 2 % 64) :: laneWalk n (t + 1) y y'

/-- Rho and pi together. -/
def rhoPi (l : List W64) : List W64 :=
  (laneWalk 24 1 1 0).foldl (fun r s => r.set s.2.1 ((l.getD s.1 0).rotateLeft s.2.2)) l

/-- Chi: within each plane, a lane takes those bits of the second lane after it that the first lane after it has clear. -/
def chi (l : List W64) : List W64 :=
  ((planes 5 l).map (fun p =>
    List.zipWith (· ^^^ ·) p (List.zipWith (fun q r => ~~~ q &&& r) (turn 1 p) (turn 2 p)))).flatten

/-- Iota's constant from the state `r` of the shift register, and the register seven steps on: output j is bit 2^j − 1. -/
def iotaConst : (n j r : Nat) → W64 × Nat
  | 0, _, r => (0, r)
  | n + 1, j, r =>
    let c := iotaConst n (j + 1) (if 256 ≤ 2 * r then 2 * r ^^^ 0x171 else 2 * r)
    (if r % 2 = 1 then c.1 ||| 1#64 <<< (2 ^ j - 1) else c.1, c.2)

/-- `n` rounds, from shift register `r`. -/
def spongeRounds : (n r : Nat) → List W64 → List W64
  | 0, _, l => l
  | n + 1, r, l =>
    let c := iotaConst 7 0 r
    spongeRounds n c.2 ((chi (rhoPi (theta l))).modifyHead (· ^^^ c.1))

/-- The message in blocks of 17 lanes is taken in, `n` blocks of it. -/
def spongeIn : (n : Nat) → List W64 → List W64 → List W64
  | 0, _, l => l
  | n + 1, ws, l =>
    spongeIn n (ws.drop 17) (spongeRounds 24 1 (List.zipWith (· ^^^ ·) l (ws.take 17 ++ List.replicate 8 0)))

/-- SHA3-256: 32 bytes. The message is followed by the suffix bits 01 and the padding 10*1 to whole blocks of 136 bytes. -/
def sha3 (m : Bytes) : Bytes :=
  let gap := 135 - m.length % 136
  let tail := if gap = 0 then [0x86#8] else 0x06#8 :: (List.replicate (gap - 1) 0#8 ++ [0x80#8])
  (wordBytes (spongeIn (m.length / 136 + 1) (leWords (m ++ tail)) (List.replicate 25 0))).take 32

end Sys2Proof.Machine
end

