-- ==== Sys2Proof/Machine/Topology.lean ====
section
/-! DEFINITION. Part figures, the Chain mesh, instance offsets of registers, function numbers. -/

namespace Sys2Proof.Machine

/-- Engine dies of a part (R29). -/
def Part.dies : Part → Nat
  | .m820 => 2 | .m840 => 4 | .m880 => 8

/-- Transit ports of a part (R29). -/
def Part.ports (p : Part) : Nat := 2 * p.dies

/-- PKG_ID.PART (R47). -/
def Part.code : Part → Nat
  | .m820 => 0x20 | .m840 => 0x40 | .m880 => 0x80

/-- The largest hop count from D0 (R95). -/
def Part.hmax : Part → Nat
  | .m820 => 1 | .m840 => 2 | .m880 => 4

/-- The largest lag of a die's view of G (R81). -/
def Part.lag : Part → Nat
  | .m820 => 72 | .m840 => 120 | .m880 => 216

/-- T_switch (R95). -/
def Part.tSwitch (p : Part) : Nat := 48 * p.hmax + 64

/-- Whether die `d` is present (R1). -/
def present (p : Part) (d : Nat) : Bool := decide (d < p.dies)

/-- |a − b|. -/
def dist (a b : Nat) : Nat := (a - b) + (b - a)

/-- Chain hops from die `a` to die `b` (R34). -/
def hops (a b : Nat) : Nat := dist (a / 2) (b / 2) + dist (a % 2) (b % 2)

/-- The dies of the column-first route from `a` to `b`, `a` first: along the row to the column of `b`, then down the
column (R34). -/
def routeDies (a b : Nat) : List Nat :=
  let n := dist (a / 2) (b / 2)
  let row := (List.range (n + 1)).map (fun i => if a / 2 ≤ b / 2 then a + 2 * i else a - 2 * i)
  if a % 2 = b % 2 then row else row ++ [b]

/-- Latency of a route over Chain (R241). -/
def chainFc (h : Nat) : Nat := 12 + 24 * h

/-- The present die farthest in hops from `d` (R334), as a hop count. -/
def farthest (p : Part) (d : Nat) : Nat :=
  (List.range p.dies).foldl (fun m e => max m (hops d e)) 0

/-! ### Producers of tokens: cells by their global number, then splitters, Benchmark slices, sort units -/

/-- The number of the splitter of port `p` as a producer (R300). -/
def splitterSrc (p : Nat) : Nat := 0x10000 + p

/-- The number of the Benchmark slice of die `d` as a producer (R300). -/
def sliceSrc (d : Nat) : Nat := 0x20000 + d

/-- The number of the sort units that emit for the node whose first cell is `g` (R287). -/
def sortSrc (g : Nat) : Nat := 0x30000 + g

/-- Whether a producer number names a cell. -/
def isCell (g : Nat) : Bool := decide (g < 0x10000)

/-- Whether a producer is a Benchmark slice. -/
def isSlice (src : Nat) : Bool := decide (0x20000 ≤ src ∧ src < 0x30000)

/-- The place of a producer among those whose tokens enter a queue in one fc (R310): cells, the sort units with their node's
first cell, then heads, then slices. -/
def entryRank (src : Nat) : Nat :=
  if isCell src then src else if isSlice src then 0x20000 else if 0x30000 ≤ src ∧ src < 0x40000 then src - 0x30000 else 0x10000

/-- The die of a producer. -/
def dieOfSrc (g : Nat) : Nat :=
  if g < 0x10000 then g / 4096 else if g < 0x20000 then (g - 0x10000) / 2
  else if g < 0x30000 then g - 0x20000 else (g - 0x30000) / 4096

/-- The die of a global cell number (R31). -/
def dieOfCell (g : Nat) : Nat := g / 4096

/-- The global tile of a global cell number (R31). -/
def tileOfCell (g : Nat) : Nat := g / 64

/-- The die of a Transit port (R37). -/
def dieOfPort (p : Nat) : Nat := p / 2

/-! ### Instance offsets (R44 to R46 and the register introductions) -/

/-- Offset of the instance of die `d`. -/
def dieO (d : Nat) : Nat := d * 0x400000

/-- Offset of the instance of Transit port `p` (R37). -/
def portO (p : Nat) : Nat := p / 2 * 0x400000 + p % 2 * 0x8000

/-- Offset of the instance of global tile `t`. -/
def tileO (t : Nat) : Nat := t / 64 * 0x400000 + t % 64 * 0x4000

/-- Offset of the instance of stack SRAM channel `c` of die `d`. -/
def srmO (d c : Nat) : Nat := d * 0x400000 + c * 0x40

/-- Offset of the instance of pseudo-channel `c` of stack `k`. -/
def pcO (k c : Nat) : Nat := k * 0x400000 + c * 0x1000

/-- Offset of the instance of codec engine `e` of die `d`. -/
def cdcO (d e : Nat) : Nat := d * 0x400000 + e * 0x4000

/-- Offset of the instance of DMA channel `n` of die `d`. -/
def dmaO (d n : Nat) : Nat := d * 0x400000 + n * 0x400

/-- Offset of the instance of ring `n`. -/
def ringO (n : Nat) : Nat := n * 0x40

/-- Offset of the instance of function `f` in its window (R52). -/
def vfO (f : Nat) : Nat := f * 0x10000

/-! ### Functions (R493, R494) -/

/-- PF0 is function 0 and PF1 function 1; VFs of PF0 are 0x200 to 0x3FF and those of PF1 0x400 to 0x5FF. -/
def isPf (f : Nat) : Bool := decide (f < 2)

/-- Whether a function number names a virtual function. -/
def isVf (f : Nat) : Bool := decide (0x200 ≤ f ∧ f < 0x600)

/-- The physical function (and host port) that a function belongs to. -/
def pfOf (f : Nat) : Nat := if f < 2 then f else if f < 0x400 then 0 else 1

/-- No function. -/
def fnNone : Nat := 0x7FF

end Sys2Proof.Machine
end

