-- ==== Sys2Proof/Machine/Ops.lean ====
section
/-! DEFINITION. The named operations over registers, memories, free values, outputs, events, messages and the error log. -/

namespace Sys2Proof.Machine

/-- What a meaning answers. -/
abbrev Res := Host.Outcome State Fault Refusal

/-! ### Registers -/

/-- The reset value of a field at instance offset `o` (R20; PKG_ID, PKG_CAP and PKG_DIE_ID of R47; SRC_BASE; PHASE;
SYSTEM). -/
def rstVal (p : Part) (r : Rst) (o : Nat) : Nat :=
  match r with
  | .const n => n
  | .partCode => p.code
  | .partDies => p.dies
  | .partPresent => 2 ^ p.dies - 1
  | .partTwin => if p = .m820 then 0 else 1
  | .partPorts => p.ports
  | .dieIx => o / 0x400000
  | .dieHost => if o / 0x400000 < 2 then 1 else 0
  | .dieColRow => o / 0x400000 / 2 % 2 * 2 + o / 0x400000 % 2
  | .dieColHi => o / 0x400000 / 4
  | .dieEdges =>
    let d := o / 0x400000
    1 + (if 2 ≤ d then 2 else 0) + (if d + 2 < p.dies then 4 else 0)
  | .srcBase => 64 * (2 * (o / 0x400000) + o % 0x400000 / 0x8000)
  | .phase => 1170 * (o / 0x400000)
  | .sysChan => if o % 0x400000 / 0x400 = 63 then 1 else 0

/-- The key of a field of the instance at offset `o`. -/
def fkey (f : Fld) (o : Nat) : Nat := (f.base + o) * 64 + f.lsb

/-- The value in force of field `f` of the instance at offset `o`. -/
def getF (s : State) (f : Fld) (o : Nat) : Nat := Tbl.getD s.regs (fkey f o) (rstVal s.part f.rst o % 2 ^ f.width)

/-- The state with field `f` of the instance at offset `o` set to `v`, cut to the field's width; a field at its reset
value is not listed. -/
def setF (s : State) (f : Fld) (o v : Nat) : State :=
  let w := v % 2 ^ f.width
  if w = rstVal s.part f.rst o % 2 ^ f.width then { s with regs := Tbl.del (fkey f o) s.regs }
  else { s with regs := Tbl.put (fkey f o) w s.regs }

/-- Whether a one-bit field is set. -/
def isSet (s : State) (f : Fld) (o : Nat) : Bool := getF s f o != 0

/-- A counter field raised by `n`, wrapping (the field's description says "wraps"). -/
def addF (s : State) (f : Fld) (o n : Nat) : State := setF s f o (getF s f o + n)

/-- A counter field raised by `n`, stopping at its largest value ("saturates"). -/
def satF (s : State) (f : Fld) (o n : Nat) : State := setF s f o (satAdd f.width (getF s f o) n)

/-- A high-water field: the greater of its value and `v`. -/
def maxF (s : State) (f : Fld) (o v : Nat) : State := setF s f o (max (getF s f o) v)

/-- Every field of the instances whose key lies in `[lo, hi)` back to its reset value, pending E-class writes included. -/
def resetRange (s : State) (lo hi : Nat) : State :=
  { s with
    regs := s.regs.filter (fun e => e.1 < lo * 64 || hi * 64 ≤ e.1)
    shadow := s.shadow.filter (fun e => e.1 < lo * 64 || hi * 64 ≤ e.1) }

/-- BMK_WALL.FC: the fc of wall time since the PLL first locked. -/
def wall (s : State) : Nat := getF s F.BMK_WALL_FC 0

/-- The global horizon G (R76). -/
def hznG (s : State) : Nat := getF s F.BMK_GLOBAL_HORIZON 0

/-- Whether the package is halted (R470). -/
def halted (s : State) : Bool := isSet s F.RING_HALT_CAUSE_HALTED 0

/-! ### Free values -/

/-- A free value of `w` bits, and the state that has drawn it. -/
def fresh (s : State) (w : Nat) : Nat × State := ((Config.free s.nonce).toNat % 2 ^ w, { s with nonce := s.nonce + 1 })

/-! ### Memories -/

/-- The memories, by number: 0 the tile stores, 1 the stack SRAM, 2 HBM. -/
def memCells (s : State) (m : Nat) : List Host.Cell :=
  match m with
  | 0 => s.tstore
  | 1 => s.srm.mem
  | _ => s.hbm.mem

/-- The state with the cells of memory `m` replaced. -/
def setCells (s : State) (m : Nat) (c : List Host.Cell) : State :=
  match m with
  | 0 => { s with tstore := c }
  | 1 => { s with srm := { s.srm with mem := c } }
  | _ => { s with hbm := { s.hbm with mem := c } }

/-- Whether an event reached a byte. -/
def Undef.hits (u : Undef) (m a : Nat) : Bool :=
  u.mem == m && decide (u.lo ≤ a) && decide (a ≤ u.hi) && (u.mods == 0 || (a - u.lo) / 256 % u.mods == u.rem)

/-- What an unlisted byte reads as: what the latest event that reached it left there, a free byte where that made the
contents undefined; zero where no event has (log entry 9). -/
def unlisted : List Undef → (m a : Nat) → Byte
  | [], _, _ => 0
  | u :: t, m, a => 
    if u.hits m a then
      match u.what with
      | .free => Config.freeByte (t.length + 1) m a
      | .zero => 0
      | .copy src => unlisted t m (src + (a - u.lo))
    else unlisted t m a

/-- One byte of a memory. -/
def rdByte (s : State) (m a : Nat) : Byte := (Tbl.get? a (memCells s m)).getD (unlisted s.undef m a)

/-- One byte written; a byte equal to what it reads as unlisted is not listed. -/
def wrByte (s : State) (m a : Nat) (b : Byte) : State :=
  if b = unlisted s.undef m a then setCells s m (Tbl.del a (memCells s m))
  else setCells s m (Tbl.put a b (memCells s m))

/-- `n` bytes from address `a`. -/
def rdMem (s : State) (m a n : Nat) : Bytes := (List.range n).map (fun i => rdByte s m (a + i))

/-- Bytes written from address `a` up. -/
def wrMem (s : State) (m : Nat) : (a : Nat) → Bytes → State
  | _, [] => s
  | a, b :: bs => wrMem (wrByte s m a b) m (a + 1) bs

/-- An event gives bytes of a memory their contents as a whole. -/
def undefine (s : State) (u : Undef) : State :=
  let s := setCells s u.mem ((memCells s u.mem).filter (fun c => !u.hits u.mem c.1))
  { s with undef := u :: s.undef }

/-- The bytes `lo` to `hi` of a memory become undefined. -/
def mkUndef (s : State) (m lo hi : Nat) : State := undefine s ⟨m, lo, hi, 0, 0, .free⟩

/-- The canonical form of the cells of memory `m`: addresses strictly rising, and no cell equal to what an unlisted byte
reads as. -/
def Memory.wf (u : List Undef) (m : Nat) (cs : List Host.Cell) : Bool :=
  Tbl.sorted cs && cs.all (fun c => c.2 != unlisted u m c.1)

/-- The `n` bytes from `src` are copied to `dst`. -/
def copyMem (s : State) (m src dst n : Nat) : State :=
  if n = 0 then s else
  let cs := (memCells s m).filter (fun c => decide (src ≤ c.1 ∧ c.1 < src + n))
  let s := undefine s ⟨m, dst, dst + n - 1, 0, 0, .copy src⟩
  setCells s m (cs.foldl (fun t c => Tbl.put (dst + (c.1 - src)) c.2 t) (memCells s m))

/-- `n` bytes from `a` set to zero. -/
def zeroMem (s : State) (m a n : Nat) : State :=
  if n = 0 then s else
  let s := setCells s m ((memCells s m).filter (fun c => c.1 < a || a + n ≤ c.1))
  if s.undef.isEmpty then s else { s with undef := ⟨m, a, a + n - 1, 0, 0, .zero⟩ :: s.undef }

/-- One aligned 64-bit word of a memory. -/
def rdWord (s : State) (m a : Nat) : W64 := BitVec.ofNat 64 (leNat (rdMem s m a 8))

/-- One aligned 64-bit word written. -/
def wrWord (s : State) (m a : Nat) (w : W64) : State := wrMem s m a (leBytes 8 w.toNat)

/-! ### Outputs and messages -/

/-- The package sends `o`. -/
def emitOut (s : State) (o : Out) : State := { s with out := s.out ++ [o] }

/-- Whether a function is resetting (R505): no message reaches it. -/
def resetting (s : State) (fn : Nat) : Bool := getF s F.FN_ATTR_STATE (fn * 0x10) == 2

/-- The MSI-X message of an entry leaves for the entry's message address with its data (R43). -/
def msixSend (s : State) (fn vec : Nat) : State :=
  let k := (fn * 2048 + vec) * 4
  emitOut s (.msix fn vec (Tbl.getD s.rings.msixTable k 0 + Tbl.getD s.rings.msixTable (k + 1) 0 * 2 ^ 32) (Tbl.getD s.rings.msixTable (k + 2) 0))

/-- An MSI-X message of function `fn` on entry `vec`: sent, or held in the pending bit of a masked vector (R467); a
function that is resetting receives none (R505). -/
def msix (s : State) (fn vec : Nat) : State :=
  if resetting s fn then s
  else if s.rings.unmasked.contains (fn * 2048 + vec) then msixSend s fn vec
  else { s with rings := { s.rings with pendingBits := (fn * 2048 + vec) :: s.rings.pendingBits.erase (fn * 2048 + vec) } }

/-- The block number under R27 of the register at an offset (R45 to R47). -/
def blockOf (off : Nat) : Nat :=
  if off < 0x10000 then 0x01 else if off < 0x20000 then 0x02 else if off < 0x30000 then 0x03
  else if off < 0x40000 then 0x11 else if off < 0x50000 then 0x12 else if off < 0x60000 then 0x13
  else if off < 0x70000 then 0x14 else if off < 0x80000 then 0x10 else if off < 0x90000 then 0x05
  else if off < 0x200000 then 0x08 else if off < 0x300000 then 0x0F else if off < 0x1000000 then 0x0D
  else
    let o := (off - 0x1000000) % 0x400000
    if o < 0x10000 then 0x06 else if o < 0x20000 then 0x07 else if o < 0x30000 then 0x04
    else if o < 0x40000 then 0x09 else if o < 0x60000 then 0x0A else if o < 0x70000 then 0x0B
    else if o < 0x80000 then 0x0C else if o < 0x90000 then 0x0E else if o < 0x100000 then 0x01 else 0x06

/-- The CTL cycle, of 2 fc (R8). -/
def ctlNow (s : State) : Nat := s.now / 2

/-- The message of a risen event bit of block `b` to PF `p` (R468): RING_EVT_CFG_p.MASK bit b, numbered from bit 1; the rises of one
CTL cycle send one message. -/
def evtMsgPf (s : State) (b p : Nat) : State :=
  if isSet s F.RING_EVT_CFG_ENABLE (p * 8) && bits (getF s F.RING_EVT_CFG_MASK (p * 8)) (b - 1) 1 == 1 &&
      Tbl.get? p s.rings.evtAt != some (ctlNow s) then
    msix { s with rings := { s.rings with evtAt := Tbl.put p (ctlNow s) s.rings.evtAt } } p (getF s F.RING_EVT_CFG_VECTOR (p * 8))
  else s

/-- The device sets the W1C bit of key `k` in this CTL cycle: a write of 1 in the same cycle does not clear it (R19). -/
def noteRose (s : State) (k : Nat) : State :=
  { s with rings := { s.rings with rose := k :: (if s.rings.roseAt = ctlNow s then s.rings.rose.erase k else []), roseAt := ctlNow s } }

/-- Whether the device has set the W1C bit of key `k` in this CTL cycle (R19). -/
def roseNow (s : State) (k : Nat) : Bool := s.rings.roseAt == ctlNow s && s.rings.rose.contains k

/-- An event bit is set; a rise from 0 to 1 sends the messages of R468 (EVENT_MESSAGE). -/
def raise (s : State) (f : Fld) (o : Nat) : State :=
  let s := noteRose s (fkey f o)
  if isSet s f o then s
  else
    let s := setF s f o 1
    evtMsgPf (evtMsgPf s (blockOf f.base) 0) (blockOf f.base) 1

/-! ### The error log (R584 to R592) -/

/-- Severity codes of R584. -/
def sevCorrected : Nat := 0
def sevDeferred : Nat := 1
def sevFatal : Nat := 2
def sevHalt : Nat := 3

/-- An entry to be logged. -/
structure LogEnt where
  sev : Nat
  die : Nat
  reason : Nat
  fn : Nat := 0x7FF
  inst : Nat := 0
  detail : Nat := 0
  deriving DecidableEq, Repr, Inhabited

/-- Offset of log slot `i`. -/
def slotO (i : Nat) : Nat := i * 0x20

/-- The valid slots. -/
def validSlots (s : State) : List Nat := (List.range 64).filter (fun i => isSet s F.ERR_ENT_A_VALID (slotO i))

/-- t is earlier than u (R589). -/
def seqEarlier (t u : Nat) : Bool := let d := subMod 32 u t; decide (1 ≤ d ∧ d < 2 ^ 31)

/-- SEQ of a slot. -/
def slotSeq (s : State) (i : Nat) : Nat := getF s F.ERR_ENT_D_SEQ (slotO i)

/-- The youngest slot of a list: the one whose SEQ no other follows. -/
def youngest (s : State) : List Nat → Option Nat
  | [] => none
  | i :: t => match youngest s t with
    | none => some i
    | some j => some (if seqEarlier (slotSeq s j) (slotSeq s i) then i else j)

/-- The oldest slot of a list. -/
def oldest (s : State) : List Nat → Option Nat
  | [] => none
  | i :: t => match oldest s t with
    | none => some i
    | some j => some (if seqEarlier (slotSeq s i) (slotSeq s j) then i else j)

/-- ERR_STAT.CURRENT: the highest severity among valid entries, 0 when none (R589). -/
def curSev (s : State) : Nat := (validSlots s).foldl (fun m i => max m (getF s F.ERR_ENT_A_SEV (slotO i))) 0

/-- The ERR_COUNT field of a severity. -/
def errCountFld (sev : Nat) : Fld :=
  if sev = 0 then F.ERR_COUNT_CORRECTED else if sev = 1 then F.ERR_COUNT_DEFERRED
  else if sev = 2 then F.ERR_COUNT_FATAL else F.ERR_COUNT_HALT

/-- The summary of a virtual function (R592): each event whose FN names it counts, and the rise of PENDING sends one
message of its own table. -/
def vfSummary (s : State) (e : LogEnt) : State :=
  if isVf e.fn then
    let o := vfO e.fn
    let rose := !isSet s F.ERR_VF_SUM_PENDING o
    let s := satF s F.ERR_VF_SUM_COUNT o 1
    let s := setF s F.ERR_VF_SUM_LAST_REASON o e.reason
    let s := setF s F.ERR_VF_SUM_INSTANCE o e.inst
    let s := setF (noteRose s (fkey F.ERR_VF_SUM_PENDING o)) F.ERR_VF_SUM_PENDING o 1
    if rose && isSet s F.ERR_VF_CFG_ENABLE o then msix s e.fn (getF s F.ERR_VF_CFG_VECTOR o) else s
  else s

/-- An entry adds one to a slot's REPEAT (R587, R588). -/
def repeatSlot (s : State) (i : Nat) : State := satF s F.ERR_ENT_A_REPEAT (slotO i) 1

/-- The message of an escalation to PF `p`, one in a CTL cycle (R590). -/
def escMsg (s : State) (p : Nat) : State :=
  if isSet s F.ERR_ESC_CFG_ENABLE (p * 8) && Tbl.get? (p + 2) s.rings.evtAt != some (ctlNow s) then
    msix { s with rings := { s.rings with evtAt := Tbl.put (p + 2) (ctlNow s) s.rings.evtAt } } p (getF s F.ERR_ESC_CFG_VECTOR (p * 8))
  else s

/-- An escalation: ERR_EVENT.ESCALATE and one message to each PF that has ERR_ESC_CFG_p.ENABLE set (R590). -/
def escalate (s : State) : State := escMsg (escMsg (raise s F.ERR_EVENT_ESCALATE 0) 0) 1

/-- Slots take SEQ numbers. -/
def setSeqs (s : State) (l : List (Nat × Nat)) : State := l.foldl (fun s (x : Nat × Nat) => setF s F.ERR_ENT_D_SEQ (slotO x.1) x.2) s

/-- The new entry in slot `i` takes its SEQ among the entries of its CTL cycle: in ascending severity, then ascending DIE (R589). -/
def seqOrder (s : State) (i : Nat) : State :=
  let key := fun (j : Nat) => getF s F.ERR_ENT_A_SEV (slotO j) * 16 + getF s F.ERR_ENT_A_DIE (slotO j)
  let l := if s.logCyc = ctlNow s then s.logNow.filter (fun j => j != i && decide (j < 64) && isSet s F.ERR_ENT_A_VALID (slotO j)) else []
  let qs := l.map (slotSeq s) ++ [s.logSeq]
  let l := l.filter (fun j => decide (key j ≤ key i)) ++ [i] ++ l.filter (fun j => decide (key i < key j))
  { setSeqs s (l.zip qs) with logCyc := ctlNow s, logNow := l }

/-- The entry takes slot `i` (R584, R589, R590). -/
def fillSlot (s : State) (e : LogEnt) (i : Nat) : State :=
  let esc := decide (curSev s < e.sev) || ((validSlots s).isEmpty && decide (2 ≤ e.sev))
  let o := slotO i
  let s := { s with logSeq := (s.logSeq + 1) % 2 ^ 32 }
  let s := setF s F.ERR_ENT_A_VALID o 1
  let s := setF s F.ERR_ENT_A_SEV o e.sev
  let s := setF s F.ERR_ENT_A_DIE o e.die
  let s := setF s F.ERR_ENT_A_REASON o e.reason
  let s := setF s F.ERR_ENT_A_FN o e.fn
  let s := setF s F.ERR_ENT_A_REPEAT o 0
  let s := setF s F.ERR_ENT_B_INSTANCE o e.inst
  let s := setF s F.ERR_ENT_B_DETAIL o e.detail
  let s := setF s F.ERR_ENT_C_FC o (wall s)
  let s := setF s F.ERR_ENT_D_LAST_REASON o 0
  let s := seqOrder s i
  let s := raise s F.ERR_EVENT_LOGGED 0
  let s := if e.sev = 2 then raise s F.ERR_EVENT_FATAL 0 else if e.sev = 3 then raise s F.ERR_EVENT_HALT 0 else s
  if esc then escalate s else s

/-- An entry is lost or replaces another (R586). -/
def loseEntry (s : State) : State :=
  let s := satF s F.ERR_STAT_OVERFLOW 0 1
  let s := setF (noteRose s (fkey F.ERR_STAT_LOST 0)) F.ERR_STAT_LOST 0 1
  raise s F.ERR_EVENT_LOST 0

/-- The slot into which a CORRECTED or DEFERRED event folds: the youngest valid entry, when its REASON, DIE, FN and
INSTANCE are the event's and it was logged within COALESCE_FC (R588; 0 disables folding). -/
def foldSlot (s : State) (e : LogEnt) : Option Nat :=
  match youngest s (validSlots s) with
  | some i =>
    if getF s F.ERR_ENT_A_REASON (slotO i) = e.reason ∧ getF s F.ERR_ENT_A_DIE (slotO i) = e.die ∧
        getF s F.ERR_ENT_A_FN (slotO i) = e.fn ∧ getF s F.ERR_ENT_B_INSTANCE (slotO i) = e.inst ∧
        getF s F.ERR_CTL_COALESCE_FC 0 ≠ 0 ∧
        wall s - getF s F.ERR_ENT_C_FC (slotO i) ≤ getF s F.ERR_CTL_COALESCE_FC 0 then some i else none
  | none => none

/-- The slot that a further FATAL of one DIE, or a further HALT, repeats (R587). -/
def repeatOf (s : State) (e : LogEnt) : Option Nat :=
  (validSlots s).find? (fun i => getF s F.ERR_ENT_A_SEV (slotO i) == e.sev &&
    (decide (e.sev = 3) || getF s F.ERR_ENT_A_DIE (slotO i) == e.die))

/-- Placing an entry that neither folds nor repeats (R586). -/
def placeEntry (s : State) (e : LogEnt) : State :=
  let free := (List.range 64).find? (fun i => !isSet s F.ERR_ENT_A_VALID (slotO i))
  if e.sev < 2 then
    let low := (validSlots s).filter (fun i => decide (getF s F.ERR_ENT_A_SEV (slotO i) < 2))
    match free with
    | some i => if low.length < 60 then fillSlot s e i else loseEntry s
    | none => loseEntry s
  else
    match free with
    | some i => fillSlot s e i
    | none =>
      let lo := (validSlots s).foldl (fun m i => min m (getF s F.ERR_ENT_A_SEV (slotO i))) 3
      match youngest s ((validSlots s).filter (fun i => getF s F.ERR_ENT_A_SEV (slotO i) == lo)) with
      | some i => fillSlot (setF (loseEntry s) F.ERR_ENT_A_VALID (slotO i) 0) e i
      | none => loseEntry s

/-- A CORRECTED or DEFERRED event: it folds, takes a slot or is lost (R586, R588). A fold is a repeat, so LAST_REASON names
its reason (DEDUCED from the field's description; log 21). -/
def logLow (s : State) (e : LogEnt) : State :=
  match foldSlot s e with
  | some i => setF (repeatSlot s i) F.ERR_ENT_D_LAST_REASON (slotO i) e.reason
  | none => placeEntry s e

/-- A FATAL or HALT event: it repeats an entry or takes a slot (R586, R587). -/
def logHigh (s : State) (e : LogEnt) : State :=
  match repeatOf s e with
  | some i =>
    let s := setF (repeatSlot s i) F.ERR_ENT_D_LAST_REASON (slotO i) e.reason
    if e.sev = 2 then raise s F.ERR_EVENT_FATAL 0 else raise s F.ERR_EVENT_HALT 0
  | none => placeEntry s e

/-- A DEFERRED entry of block SRM, HBM or SPC is kept as evidence of its epoch (R526). -/
def noteDeferred (s : State) (e : LogEnt) : State :=
  let b := e.reason / 256
  if e.sev = 1 ∧ 9 ≤ b ∧ b ≤ 11 then
    { s with twn := { s.twn with deferred := (e.die, getF s F.BMK_EPOCH_EPOCH 0) :: s.twn.deferred } }
  else s

/-- An event is logged (R586 to R592). After step 2 of the power-fail sequence CORRECTED and DEFERRED events are lost
without a count (R536, R595). What a FATAL entry does to its die is in Machine/Isolate.lean. -/
def logErr (s : State) (e : LogEnt) : State :=
  if s.logOff && decide (e.sev < 2) then s
  else
    let s := noteDeferred (vfSummary (satF s (errCountFld e.sev) 0 1) e) e
    if e.sev < 2 then logLow s e else logHigh s e

/-- A CORRECTED entry. -/
def logC (s : State) (die reason fn inst detail : Nat) : State := logErr s ⟨0, die, reason, fn, inst, detail⟩

/-- A DEFERRED entry. -/
def logD (s : State) (die reason fn inst detail : Nat) : State := logErr s ⟨1, die, reason, fn, inst, detail⟩

/-- Reasons of the ERR block that rules without a reason of their own take (R596). -/
def rsnWWR : Nat := 0x1301
def rsnBadAccess : Nat := 0x1302
def rsnTimeout : Nat := 0x1303
def rsnIgnored : Nat := 0x1304
def rsnDoorbell : Nat := 0x1305
def rsnCorrected : Nat := 0x1306
def rsnNotice : Nat := 0x1307

/-- The DIE of a log entry that names a register offset: its die, or 15 for the global area (R593). -/
def dieOfOff (off : Nat) : Nat := if off < 0x1000000 ∨ 0x3000000 ≤ off then 15 else (off - 0x1000000) / 0x400000

/-- A WRITE_WHILE_RUNNING event for the register at `off`, written by `fn` (R593). -/
def logWWR (s : State) (fn off : Nat) : State := logC s (dieOfOff off) rsnWWR fn 0 off

/-- A CORRECTED entry for an ignored write at `off` by `fn` (R593, R596). -/
def logIgn (s : State) (fn off : Nat) : State := logC s (dieOfOff off) rsnIgnored fn 0 off

/-! ### The answer of a register access -/

/-- The access completes with a code (0 successful, 1 Unsupported Request, 2 Completer Abort) and data. -/
def answer (s : State) (code data : Nat) : State := emitOut s (.access code data)

/-! ### Conditions of suspension (R342) -/

/-- Keys of the conditions of R342 in `Dst.susp`: a full completion ring, a collector held by a destination, a port without
VC2 credit, a stack SRAM channel, a pseudo-channel. -/
def suspRing (cq : Nat) : Nat := cq
def suspColl (tile : Nat) : Nat := 0x10000 + tile
def suspPort (p : Nat) : Nat := 0x20000 + p
def suspSrm (d c : Nat) : Nat := 0x30000 + d * 16 + c
def suspPc (d c : Nat) : Nat := 0x40000 + d * 32 + c

/-- A condition has begun in this fc, which is suspended even if it ends at once (R345). -/
def noteSusp (s : State) (key : Nat) : State :=
  if s.dst.suspHit.contains key then s else { s with dst := { s.dst with suspHit := key :: s.dst.suspHit } }

end Sys2Proof.Machine
end

