-- ==== Sys2Proof/Machine/Token.lean ====
section
/-! DEFINITION. Lanes and tokens, the active plats as the fabric sees them, contexts and their failures, and the buffers
that tokens wait in (chapters 05 to 07). -/

namespace Sys2Proof.Machine

/-! ### Lanes (R200, R201) -/

/-- Lane `i`. -/
def Lanes.get (l : Lanes) (i : Nat) : Lane :=
  match i with
  | 0 => l.l0 | 1 => l.l1 | 2 => l.l2 | 3 => l.l3 | 4 => l.l4 | 5 => l.l5 | 6 => l.l6 | 7 => l.l7 | _ => none

/-- Lanes given by a function of the lane number. -/
def Lanes.ofFn (f : Nat → Lane) : Lanes := ⟨f 0, f 1, f 2, f 3, f 4, f 5, f 6, f 7⟩

/-- Lanes from a list, lane 0 first; absent lanes are null. -/
def Lanes.ofList (xs : List Lane) : Lanes := Lanes.ofFn (fun i => xs.getD i none)

/-- The lanes as a list. -/
def Lanes.toList (l : Lanes) : List Lane := [l.l0, l.l1, l.l2, l.l3, l.l4, l.l5, l.l6, l.l7]

/-- Every lane null. -/
def Lanes.null : Lanes := {}

/-- The value of a lane, a null lane's data bits being zero. -/
def laneVal (x : Lane) : W64 := x.getD 0

/-- The validity mask. -/
def Lanes.mask (l : Lanes) : Nat :=
  (List.range 8).foldl (fun m i => if (l.get i).isSome then m + 2 ^ i else m) 0

/-- Lanes from 64-bit words and a mask. -/
def Lanes.ofWords (ws : List W64) (mask : Nat) : Lanes :=
  Lanes.ofFn (fun i => if bits mask i 1 = 1 then some (ws.getD i 0) else none)

/-- A lane holding a number. -/
def num (n : Nat) : Lane := some (BitVec.ofNat 64 n)

/-- KIND code of a tag (R201). -/
def TKind.code : TKind → Nat
  | .data => 0 | .control => 1 | .poisoned => 2

/-- The 64-bit tag of a token (R201). -/
def Token.tag (t : Token) : Nat :=
  t.trav % 4096 + t.slot % 4 * 2 ^ 12 + t.kind.code * 2 ^ 14 + t.ctx % 2 ^ 24 * 2 ^ 16 + t.seq % 2 ^ 24 * 2 ^ 40

/-- The 80 bytes of a token (R200). -/
def Token.bytes (t : Token) : Bytes :=
  wordBytes (t.lanes.toList.map laneVal) ++ leBytes 8 t.lanes.mask ++ leBytes 8 t.tag

/-! ### Contexts (R202) -/

/-- CONTEXT of a source stream. -/
def ctxSource (src : Nat) : Nat := src % 1024

/-- CONTEXT of an invocation. -/
def ctxInv (n : Nat) : Nat := 0x400000 + n % 2 ^ 22

/-- CONTEXT of a stake firing: entry and number of the firing mod 2^11. -/
def ctxStake (n firing : Nat) : Nat := 0x800000 + firing % 2 ^ 11 * 2 ^ 11 + n % 2 ^ 11

/-- The horizon context. -/
def ctxHorizon : Nat := 0xC00000

/-- CONTEXT[23:22]. -/
def ctxKind (c : Nat) : Nat := c / 2 ^ 22 % 4

/-- The invocation of an invocation context. -/
def ctxInvNum (c : Nat) : Nat := c % 2 ^ 22

/-! ### Control tokens (R205, R206) -/

/-- A control token with subtype `sub` and lanes `xs` from lane 0. A HORIZON token has SEQ 0 (R206); the spec states none for
the others: a free value (log entry 5). -/
def ctlToken (trav ctx sub acc : Nat) (xs : List Nat) : Token :=
  { trav := trav, slot := 0, kind := .control, ctx := ctx, seq := if sub = 3 then 0 else (Config.ctlSeq sub ctx).toNat, acc := acc,
    lanes := Lanes.ofFn (fun i => if i = 7 then num sub else (xs[i]?).map (BitVec.ofNat 64)) }

/-- The subtype of a control token. -/
def Token.sub (t : Token) : Nat := (laneVal t.lanes.l7).toNat % 256

/-! ### Active plats -/

/-- The OP codes of heads and of nodes served by device units (R168). -/
def opScan : Nat := 0x01
def opDecode : Nat := 0x02
def opAsof : Nat := 0x0D
def opWindow : Nat := 0x0F
def opSort : Nat := 0x10
def opTopk : Nat := 0x11
def opEmit : Nat := 0x14

/-- Whether a node is a head that reads memory or frames. -/
def Node.isHead (n : Node) : Bool := n.op == opScan || n.op == opDecode

/-- Whether a node holds a cell. -/
def Node.hasCell (n : Node) (g : Nat) : Bool := decide (n.first ≤ g ∧ g < n.first + n.ncells)

/-- The traverse of a plat with number `t`. -/
def Plat.trav? (p : Plat) (t : Nat) : Option Trav := p.travs.find? (fun v => v.num == t)

/-- The active plat and traverse with number `t`. -/
def activeTrav (s : State) (t : Nat) : Option (Plat × Trav) :=
  s.plats.active.findSome? (fun p => (p.trav? t).map (fun v => (p, v)))

/-- Whether pair `k` runs on both dies or on a survivor (TWN_PAIR_STAT.STATE 2 TWINNED, 3 SOLO; R511). -/
def pairLive (s : State) (k : Nat) : Bool :=
  let st := getF s F.TWN_PAIR_STAT_STATE (k * 0x40)
  st == 2 || st == 3

/-- Whether pair `k` is TWINNED. -/
def twinned (s : State) (k : Nat) : Bool := getF s F.TWN_PAIR_STAT_STATE (k * 0x40) == 2

/-- Whether pair `k` is SYNCING. -/
def syncing (s : State) (k : Nat) : Bool := getF s F.TWN_PAIR_STAT_STATE (k * 0x40) == 1

/-- The lead die of pair `k` (R511). -/
def leadDie (s : State) (k : Nat) : Nat := 2 * k + getF s F.TWN_PAIR_STAT_LEAD (k * 0x40)

/-- The die that drives the TRIG_OUT pins (R522). -/
def pinDie (s : State) : Nat := if pairLive s 0 then leadDie s 0 else 0

/-- The die that holds the master slice: D0, or the lead of the pair (D0, D1) (the introduction of 02_design_time.md). -/
def masterDie (s : State) : Nat := leadDie s 0

/-- The die on which what a plat places on die `d` runs and acts: on a SOLO pair the survivor (R513). -/
def runsOn (s : State) (d : Nat) : Nat := if pairLive s (d / 2) && !twinned s (d / 2) then leadDie s (d / 2) else d

/-! ### Chain edges (R33, R34, R63) -/

/-- The edge of die `a` toward its neighbour `b`: 0 vertical, 1 toward the lower column, 2 toward the higher. -/
def edgeToward (a b : Nat) : Nat := if a / 2 = b / 2 then 0 else if b < a then 1 else 2

/-- Offset of edge `e` of die `d`. -/
def edgeO (d e : Nat) : Nat := dieO d + e * 8

/-- Whether an edge is UP. -/
def edgeUp (s : State) (d e : Nat) : Bool := getF s F.PKG_EDGE_STATE (edgeO d e) == 2

/-- The first edge of a path that is not UP, as (die, edge). -/
def firstLost (s : State) : List Nat → Option (Nat × Nat)
  | a :: b :: t => if edgeUp s a (edgeToward a b) then firstLost s (b :: t) else some (a, edgeToward a b)
  | _ => none

/-- The lost edge at which a message from die `a` to die `b` stops (R63). -/
def lostTo (s : State) (a b : Nat) : Option (Nat × Nat) := firstLost s (routeDies a b)

/-- Whether a message from die `a` reaches die `b`. -/
def reaches (s : State) (a b : Nat) : Bool := (lostTo s a b).isNone

/-- Whether a request from die `a` reaches die `b` and its answer comes back. -/
def roundTrip (s : State) (a b : Nat) : Bool := reaches s a b && reaches s b a

/-- A message is dropped at an edge, which counts it (R63). -/
def dropAtEdge (s : State) (e : Nat × Nat) : State := satF s F.PKG_EDGE_DROPPED (edgeO e.1 e.2) 1

/-- The lost edges at which a broadcast from die `a` to the dies `ds` stops: the tree sends it over an edge once (R35), so each
drops one message. -/
def lostEdges (s : State) (a : Nat) (ds : List Nat) : List (Nat × Nat) :=
  (ds.filterMap (lostTo s a)).foldl (fun acc e => if acc.contains e then acc else acc ++ [e]) []

/-- The cell whose records the plat holds for cell `g`: on a live pair the placements of one die are those of the other
too (R513), so a cell without records of its own takes those of the same cell of the other die. -/
def mirrorCell (g : Nat) : Nat := if g / 4096 % 2 = 0 then g + 4096 else g - 4096

/-- The node, traverse and plat of a cell as the active plats place it. -/
def cellOwner0 (s : State) (g : Nat) : Option (Plat × Trav × Node) :=
  s.plats.active.findSome? (fun p => p.travs.findSome? (fun v =>
    (v.nodes.find? (fun n => n.hasCell g)).map (fun n => (p, v, n))))

/-- The cell under which the active plats hold the records of cell `g` (R513). -/
def homeCell (s : State) (g : Nat) : Nat :=
  if (cellOwner0 s g).isNone && pairLive s (g / 8192) then mirrorCell g else g

/-- The plat, traverse and node of a cell. -/
def cellOwner (s : State) (g : Nat) : Option (Plat × Trav × Node) := cellOwner0 s (homeCell s g)

/-- The micro-program of a cell (R169), from the active bank of its tile. -/
def cellCode (s : State) (g : Nat) : List Nat :=
  match cellOwner s g with
  | some (p, _, _) => ((p.micro.find? (fun m => m.cell == homeCell s g)).map (·.code)).getD []
  | none => []

/-- The routes of an output port of a cell, as records (R170). -/
def cellRoutes (s : State) (g port : Nat) : List Route :=
  match cellOwner s g with
  | some (p, _, _) => p.routes.filter (fun r => r.src == homeCell s g && r.port == port)
  | none => []

/-- The input cells of a traverse (R263): cell FIRST_CELL + k for column k of a head node, then the stamp token's cell;
for a stake traverse FIRST_CELL of its first node. Each with its node. -/
def inputCells (v : Trav) : List Nat :=
  if v.input = 2 then (v.nodes.head?.map (fun n => [n.first])).getD []
  else (v.nodes.filter Node.isHead).flatMap (fun n =>
    (List.range (byteAt n.param 3 + (if byteAt n.param 2 % 2 = 1 then 1 else 0))).map (fun k => n.first + k))

/-- The slots that a cell requires (R240): those of the cell and broadcast routes that name it, and slot 0 for an input
cell. -/
def requiredSlots (s : State) (g : Nat) : List Nat :=
  match cellOwner s g with
  | some (p, v, _) =>
    let h := homeCell s g
    let rs := p.routes.filter (fun r => (r.kind == 0 && r.dst == h) ||
      (r.kind == 1 && r.dst == h % 4096 && bits r.dieMask (h / 4096) 1 == 1))
    let base := if (inputCells v).contains h then [0] else []
    (rs.map (·.slot) ++ base).foldl (fun acc x => if acc.contains x then acc else x :: acc) []
  | none => []

/-- The die of a traverse: that of its first input cell (R88, R263). -/
def travDie (v : Trav) : Nat := ((inputCells v).head?.map dieOfCell).getD 0

/-- Whether a traverse has a collector route, and from which cells (R620). -/
def collCells (p : Plat) (t : Nat) : List Nat :=
  (p.routes.filter (fun r => r.kind == 2 && r.trav == t)).foldl
    (fun acc r => if acc.contains r.src then acc else r.src :: acc) []

/-- Stream traverses of the active plats for a group (R261), with their plats. -/
def streamTravs (s : State) (group : Nat) : List (Plat × Trav) :=
  s.plats.active.flatMap (fun p => (p.travs.filter (fun v =>
    (v.input == 0 || v.input == 3) && v.inputId == group)).map (fun v => (p, v)))

/-- Every stream traverse of the active plats. -/
def allStreamTravs (s : State) : List (Plat × Trav) :=
  s.plats.active.flatMap (fun p => (p.travs.filter (fun v => v.input == 0 || v.input == 3)).map (fun v => (p, v)))

/-- The splitter delivers the tokens of a source to a traverse only when its plat's owner is a physical function or the
source's owner (R497). -/
def mayDeliver (s : State) (src : Nat) (p : Plat) : Bool :=
  isPf p.owner || getF s F.FN_OWN_SRC_OWNER (src * 8) == p.owner

/-- The group of the active schema with this ID (R165). -/
def activeGroup (s : State) (id : Nat) : Option Group :=
  s.plats.active.findSome? (fun p => p.schema.find? (fun g => !g.isTable && g.id == id))

/-- The fabric of a die dispatches and its register block answers: FAB_CTL.ENABLE (R257). -/
def fabOn (s : State) (d : Nat) : Bool := isSet s F.FAB_CTL_ENABLE (dieO d)

/-! ### Failures of contexts (R251, R621) -/

/-- The log entry of a stream's or stake's status other than OK (R621): CORRECTED for SOURCE_LOST, else DEFERRED. -/
def logCtx (s : State) (trav ctx status reason : Nat) : State :=
  match activeTrav s trav with
  | some (p, v) =>
    logErr s ⟨if status = 8 then 0 else 1, travDie v, reason, p.owner, trav, status * 2 ^ 40 + ctx % 2 ^ 24⟩
  | none => s

/-- The mark already on a context (R251: the first failure decides). -/
def markOf (s : State) (trav ctx : Nat) : Option Fail := s.fab.fails.find? (fun f => f.trav == trav && f.ctx == ctx)

/-- The state with the fabric's hidden state changed. -/
def modFab (s : State) (f : Fab → Fab) : State := { s with fab := f s.fab }

/-- An invocation changed. -/
def modInv (s : State) (n : Nat) (f : Inv → Inv) : State :=
  match Tbl.get? n s.fab.invs with
  | some i => modFab s (fun b => { b with invs := Tbl.put n (f i) b.invs })
  | none => s

/-- The invocation of a context, if it is open. -/
def invOf (s : State) (ctx : Nat) : Option Inv :=
  if ctxKind ctx = 1 then Tbl.get? (ctxInvNum ctx) s.fab.invs else none

/-- A context is marked failed. An invocation keeps its first mark (R251, R319: a mark after a squash adds nothing); a
stake firing is logged at its mark; a source stream keeps its first mark and logs the first of each epoch (R621). -/
def markFail (s : State) (trav ctx status reason : Nat) : State :=
  if ctxKind ctx = 1 then
    modInv s (ctxInvNum ctx) (fun i => if i.mark.isNone && i.squash.isNone then { i with mark := some (status, reason) } else i)
  else
    let ep := getF s F.BMK_EPOCH_EPOCH 0
    match markOf s trav ctx with
    | none => logCtx (modFab s (fun b => { b with fails := ⟨trav, ctx, status, reason, ep⟩ :: b.fails })) trav ctx status reason
    | some f =>
      if ctxKind ctx = 0 && f.epoch != ep then
        logCtx (modFab s (fun b => { b with fails := b.fails.map (fun g =>
          if g.trav == trav && g.ctx == ctx then { g with epoch := ep } else g) })) trav ctx status reason
      else s

/-- Whether tokens of a context are discarded: its invocation is squashed or closed, or the context was freed (R250,
R318). -/
def deadCtx (s : State) (trav ctx : Nat) : Bool :=
  if ctxKind ctx = 1 then
    match Tbl.get? (ctxInvNum ctx) s.fab.invs with
    | some i => i.squash.isSome || i.done || i.trav != trav
    | none => true
  else s.fab.freed.contains (trav, ctx)

/-! ### Output buffers and queues -/

/-- The output buffer of a producer (R312, R315). -/
def outOf (s : State) (src : Nat) : List OutEnt := Tbl.getD s.fab.outb src []

/-- The output buffer of a producer replaced. -/
def setOut (s : State) (src : Nat) (es : List OutEnt) : State :=
  modFab s (fun b => { b with outb := if es.isEmpty then Tbl.del src b.outb else Tbl.put src es b.outb })

/-- The state with one more entry in a producer's output buffer. -/
def pushOut (s : State) (src : Nat) (e : OutEnt) : State := setOut s src (outOf s src ++ [e])

/-- The cells at which a cell named by a plat runs: on a TWINNED pair both dies' cells, on a SOLO pair the survivor's
(R513). -/
def placements (s : State) (g : Nat) : List Nat :=
  let k := g / 8192
  let c := g % 4096
  if twinned s k then [8192 * k + c, 8192 * k + 4096 + c]
  else if pairLive s k then [leadDie s k * 4096 + c] else [g]

/-- The dies that a write to a memory of die `d` reaches (R515): both dies of a SYNCING or TWINNED pair when `d` is the pair's
even die, the survivor of a SOLO pair. -/
def mirrorDies (s : State) (d : Nat) : List Nat :=
  if d % 2 = 0 && (twinned s (d / 2) || syncing s (d / 2)) then [d, d + 1]
  else if d % 2 = 0 && pairLive s (d / 2) then [leadDie s (d / 2)] else [d]

/-- A head's or slice's token for the cells `cells`: one entry per cell, so that each travels when its queue has room. -/
def pushHead (s : State) (src : Nat) (cells : List Nat) (t : Token) : State :=
  (cells.flatMap (placements s)).foldl (fun s c => pushOut s src ⟨s.now, .copies t [.cell c 0]⟩) s

/-- The key of the input queue of a tile for a traverse (R310). -/
def queueKey (tile trav : Nat) : Nat := tile * 4096 + trav

/-- The input queue of a tile for a traverse. -/
def inQueue (s : State) (tile trav : Nat) : List QTok := Tbl.getD s.fab.inQ (queueKey tile trav) []

/-- Places of an input queue held for replies of requests that have left their cells (R312). -/
def reserved (s : State) (tile trav : Nat) : Nat :=
  s.fab.outb.foldl (fun n e => n + (e.2.filter (fun x => match x.work with
    | .outstanding r _ =>
      !r.dead && r.trav == trav && (cellRoutes s r.cell r.port).any (fun t => t.kind == 0 && t.dst / 4096 == homeCell s r.cell / 4096 &&
        (r.cell / 4096 * 4096 + t.dst % 4096) / 64 == tile)
    | _ => false)).length) 0

/-- Whether an input queue has a free place that no reply has reserved: 16 places (R310, R312). -/
def hasRoom (s : State) (tile trav : Nat) : Bool :=
  decide ((inQueue s tile trav).length + reserved s tile trav < 16)

/-- An element put before the last ones that `later` picks. -/
def insertTail {α : Type} (later : α → Bool) (x : α) (l : List α) : List α :=
  let n := (l.reverse.takeWhile later).length
  l.take (l.length - n) ++ x :: l.drop (l.length - n)

/-- A token enters the input queue of its destination cell's tile, in the order of R310 among those that enter in this fc; the
depths are counted. -/
def enqueue (s : State) (dst src : Nat) (t : Token) : State :=
  let k := queueKey (tileOfCell dst) t.trav
  let later := fun (q : QTok) => q.since == s.now && decide (entryRank src < entryRank q.src)
  let s := modFab s (fun b => { b with inQ := Tbl.put k (insertTail later ⟨dst, t, src, s.now, false, false⟩ (Tbl.getD b.inQ k [])) b.inQ })
  let o := tileO (tileOfCell dst)
  let s := setF s F.SCH_TILE_DEPTH_QUEUED o (getF s F.SCH_TILE_DEPTH_QUEUED o + 1)
  maxF s F.SCH_TILE_DEPTH_QUEUED_HIGH o (getF s F.SCH_TILE_DEPTH_QUEUED o)

/-- An input arrives on the die of cell `dst` (R517): at a TWINNED pair it waits at the gate for its twin, else it enters
the queue. -/
def arrive (s : State) (dst src : Nat) (t : Token) : State :=
  let k := dst / 8192
  if twinned s k then
    let c := dst % 4096
    let lo := dst / 4096 % 2 == 0
    let same := fun (e : GateEnt) => e.pair == k && e.cell == c && e.tok == t && e.src % 4096 == src % 4096 &&
      e.src / 65536 == src / 65536 && !(if lo then e.at0 else e.at1)
    let g := s.twn.gate
    let g := match findIdx same g with
      | some i => modAt (fun e => { e with at0 := e.at0 || lo, at1 := e.at1 || !lo }) g i
      | none => g ++ [⟨k, c, src, t, lo, !lo⟩]
    { s with twn := { s.twn with gate := g } }
  else enqueue s dst src t

/-- A tile counts a token or partial set freed unmatched (R250): ORPHANED and its event. -/
def countOrphan (s : State) (tile n : Nat) : State :=
  if n = 0 then s
  else raise (satF s F.FAB_TILE_ERR_ORPHANED (tileO tile) n) F.FAB_EVENT_ORPHANED (dieO (tile / 64))

/-- The cell that a route names, as the producing cell's die sees it: on a live pair a destination on the pair lies on the
producer's own die (R513, R517). -/
def localCell (s : State) (g dst : Nat) : Nat :=
  if pairLive s (g / 8192) && decide (g / 8192 = dst / 8192) then g / 4096 * 4096 + dst % 4096 else dst

/-- Whether a token of cell `g` may leave its die: on a live pair the lead alone sends to other dies, so that no die
outside the pair receives a token twice (log entry 11). -/
def mayLeave (s : State) (g : Nat) : Bool := !pairLive s (g / 8192) || leadDie s (g / 8192) == g / 4096

/-- The dies that receive a message of cell `g` with DIE_MASK `mask`: a bit of a live pair stands for both dies of the pair,
or the survivor (R513); on the producer's own live pair each die serves itself. -/
def maskDies (s : State) (g mask : Nat) : List Nat :=
  (List.range 8).filter (fun d =>
    let k := d / 2
    let want := bits mask d 1 == 1 || (pairLive s k && bits mask (2 * k) 1 == 1)
    want && (if pairLive s k && k == g / 8192 then d == g / 4096
             else (mayLeave s g && (!pairLive s k || twinned s k || leadDie s k == d))))

/-- The number with the bits of a list set. -/
def bitSet (l : List Nat) : Nat := l.foldl (fun m i => m + 2 ^ i) 0

/-- The destination of one route for a token of cell `g` (R170, R241): `none` for a discard route, and for what the shadow
of a pair does not send (R522). -/
def routeDest (s : State) (g : Nat) (r : Route) : Option Dest :=
  match r.kind with
  | 0 =>
    let d := localCell s g r.dst
    if d / 4096 = g / 4096 then some (.cell d r.slot)
    else
      let ds := maskDies s g (2 ^ (d / 4096))
      if ds.isEmpty then none else some (.die (bitSet ds) (d % 4096) r.slot false)
  | 1 =>
    let ds := maskDies s g r.dieMask
    if ds.isEmpty then none else some (.die (bitSet ds) r.dst r.slot true)
  | 2 => some (.collector (localCell s g (r.dst * 64) / 64))
  | 3 => if mayLeave s g then some (.federation (r.dst % 16) (r.dst / 65536)) else none
  | _ => none

end Sys2Proof.Machine
end

