-- ==== Sys2Proof/Machine/Complete.lean ====
section
/-! DEFINITION. Completions on their way to the completion writer, and the status and reason codes of R24 to R27. -/

namespace Sys2Proof.Machine

/-! ### Status codes (R24) -/

def stOk : Nat := 0x00
def stAborted : Nat := 0x01
def stMalformed : Nat := 0x02
def stCancelled : Nat := 0x03
def stOutputFull : Nat := 0x04
def stMemFault : Nat := 0x05
def stFenced : Nat := 0x06
def stRejected : Nat := 0x07
def stSourceLost : Nat := 0x08
def stError : Nat := 0x09
def stBreach : Nat := 0x0A

/-- The owner of a ring number (R440). -/
def ringOwner (s : State) (n : Nat) : Nat := getF s F.FN_OWN_RING_OWNER (n * 8)

/-- The host port of a ring: that of its owner (R38). -/
def ringPort (s : State) (n : Nat) : Nat := pfOf (ringOwner s n)

/-- The global ring that a function names by `r`: a global number for a physical function, a local one for a virtual
function (R53, R455, R459). The rings of the partition table are searched by their LOCAL field. -/
def namedRing (s : State) (fn r : Nat) : Option Nat :=
  if isPf fn then if ringOwner s r = fn then some r else none
  else
    (s.regs.filterMap (fun e =>
      let n := (e.1 / 64 - 0x280000) / 8
      if 0x280000 ≤ e.1 / 64 ∧ e.1 / 64 < 0x300000 ∧ (e.1 / 64 - 0x280000) % 8 = 0 ∧ e.1 % 64 = 0 ∧ ringOwner s n = fn ∧
          getF s F.FN_OWN_RING_AUX (n * 8) = r then some n else none)).head?

/-- The hidden state of a ring changed. -/
def modRing (s : State) (n : Nat) (f : Ring → Ring) : State :=
  { s with rings := { s.rings with rings := Tbl.upd s.rings.rings n {} f } }

/-- The hidden state of a ring. -/
def ringOf (s : State) (n : Nat) : Ring := Tbl.getD s.rings.rings n {}

/-- A completion joins the queue of the completion writer of its ring's port. -/
def pushCompl (s : State) (c : Compl) : State :=
  let p := ringPort s c.cq
  { s with dst := { s.dst with cw := Tbl.put p (Tbl.getD s.dst.cw p [] ++ [c]) s.dst.cw } }

/-- Whether a checked partition change is pending (R498). -/
def changePending (s : State) : Bool := getF s F.FN_STAGE_STAT_STATE 0 == 2

/-- Whether a ring leaves its function by the pending change (R500). -/
def leavingRing (s : State) (n : Nat) : Bool :=
  let o := n * 8
  changePending s && ringOwner s n != fnNone &&
    (getF s F.FN_OWN_RING_NEXT o != ringOwner s n || getF s F.FN_OWN_RING_AUX_NEXT o != getF s F.FN_OWN_RING_AUX o)

/-- A command of submission ring `sq` ends with a status and reason: RING_SQ_STAT counts those that are MALFORMED, which set
RING_EVENT.MALFORMED, and those that a shutdown aborts (R471). -/
def countEnd (s : State) (sq status reason : Nat) : State :=
  if status = stMalformed then raise (satF s F.RING_SQ_STAT_MALFORMED (ringO sq) 1) F.RING_EVENT_MALFORMED 0
  else if status = stAborted ∧ reason = 0x0D07 then satF s F.RING_SQ_STAT_ABORTED (ringO sq) 1
  else s

/-- The COMMAND completion of a command of submission ring `sq` (R457 to R459). -/
def complete (s : State) (sq cq tag opcode status reason r0 r1 : Nat) : State :=
  pushCompl (countEnd s sq status reason) ⟨cq, 0, status, reason, tag, opcode, none, num r0, num r1, sq, none, 0, 0, 0, none, [], 0, false⟩

/-- RESULT0 or RESULT1 of two 32-bit halves. -/
def halves (lo hi : Nat) : Nat := lo % 2 ^ 32 + hi % 2 ^ 32 * 2 ^ 32

end Sys2Proof.Machine
end

