-- ==== Sys2Proof/Machine/Bmk.lean ====
section
/-! DEFINITION. The Benchmark unit: horizons, the pacer, stakes, epochs and detaching sources (02_design_time.md), with
the commands SILENCE_TIMEOUT, PACER_TICK, BMK_ADVANCE, STAKE_DISARM, HORIZON_TOKEN_SEND, G_VIEW_UPDATE,
EPOCH_SWITCH_START, PREPARE and READY. COMMIT_APPLY is in Machine/Commit.lean. -/

namespace Sys2Proof.Machine

/-! ### Sources (R68, R69) -/

def srcFree : Nat := 0
def srcPending : Nat := 1
def srcLive : Nat := 2
def srcStalled : Nat := 3
def srcClosed : Nat := 4

/-- Offset of the registers of source `n`. -/
def srcO (n : Nat) : Nat := n * 0x10

/-- State of a source. -/
def srcState (s : State) (n : Nat) : Nat := getF s F.BMK_SRC_STAT_STATE (srcO n)

/-- Horizon of a source. -/
def srcHzn (s : State) (n : Nat) : Nat := getF s F.BMK_SRC_HZN_HORIZON (srcO n)

/-- The sources that are not FREE. -/
def knownSources (s : State) : List Nat :=
  s.regs.filterMap (fun e =>
    if fkey F.BMK_SRC_STAT_STATE 0 ≤ e.1 ∧ e.1 < fkey F.BMK_SRC_STAT_STATE (srcO 1024) ∧
        (e.1 - fkey F.BMK_SRC_STAT_STATE 0) % 1024 = 0 then some ((e.1 - fkey F.BMK_SRC_STAT_STATE 0) / 1024) else none)

/-- The hidden state of the Benchmark unit changed. -/
def modBmk (s : State) (f : Bmk → Bmk) : State := { s with bmk := f s.bmk }

/-- Whether a source counts in the global minimum (R76). -/
def included (s : State) (n : Nat) : Bool :=
  srcState s n == srcLive || (srcState s n == srcStalled && getF s F.BMK_CTL_STALL_POLICY 0 == 0)

/-- The dies to which the master's messages travel: those present and not held in reset. -/
def dieUp (s : State) (d : Nat) : Bool := present s.part d && decide (getF s F.CLK_DIE_RST_STATE (d * 8) < 2)

/-- The die in whose window an offset lies, if any (R44). -/
def windowDie (off : Nat) : Option Nat :=
  if 0x1000000 ≤ off ∧ off < 0x3000000 then some ((off - 0x1000000) / 0x400000) else none

/-- The gate bit of the block that a register of a die window belongs to (R46, R552); TRN_PKG belongs to no local port. -/
def gateBit (off : Nat) : Option Nat :=
  let w := (off - 0x1000000) % 0x400000
  if 0x100000 ≤ w ∧ w < 0x200000 then some ((w - 0x100000) / 0x4000 / 8)
  else if 0x70000 ≤ w ∧ w < 0x80000 then some (8 + (w - 0x70000) / 0x4000)
  else if 0x40 ≤ w ∧ w < 0x60 then some (12 + (w - 0x40) / 8)
  else if 0x30000 ≤ w ∧ w < 0x40000 then some 16
  else if 0x40000 ≤ w ∧ w < 0x70000 then some 17
  else if 0x20000 ≤ w ∧ w < 0x30000 ∧ off / 8 * 8 ≠ F.TRN_PKG_PKG_NUM.base then some (18 + (w - 0x20000) / 0x8000)
  else none

/-- Whether a register answers zero and drops writes without a log entry: it lies in the window of a die that is absent or held
in reset (R3, R50), or in a gated block (R553). -/
def silentZero (s : State) (off : Nat) : Bool :=
  match windowDie off with
  | none => false
  | some d => !dieUp s d || (gateBit off).any (fun b => bits (getF s F.CLK_GATE_GATE (d * 8)) b 1 == 1)

/-- The dies up, ascending. -/
def diesUp (s : State) : List Nat := (List.range 8).filter (dieUp s)

/-- A message of the Benchmark unit is on its way from the master to those of the dies `ds` that it reaches (R63, R81). -/
def sendG (s : State) (ds : List Nat) (m : GMsg) : State :=
  let es := lostEdges s (masterDie s) ds
  let s := (ds.filter (reaches s (masterDie s))).foldl (fun s d =>
    modBmk s (fun b => { b with msgs := Tbl.put d (Tbl.getD b.msgs d [] ++ [m]) b.msgs })) s
  es.foldl dropAtEdge s

/-- A source's horizon goes from its ingest die `a` by the master to the dies `ds` (R82). -/
def sendSource (s : State) (a : Nat) (ds : List Nat) (m : GMsg) : State :=
  match lostTo s a (masterDie s) with
  | some e => dropAtEdge s e
  | none => sendG s ds m

/-- The INCLUDED bits follow the included set. -/
def markIncluded (s : State) : State :=
  (knownSources s).foldl (fun s n => setF s F.BMK_SRC_STAT_INCLUDED (srcO n) (if included s n then 1 else 0)) s

/-- The least of a list of numbers. -/
def minList : List Nat → Option Nat
  | [] => none
  | a :: t => match minList t with
    | none => some a
    | some m => some (min a m)

/-- The new value of G under R76. -/
def gNew (s : State) : Nat :=
  match minList (((knownSources s).filter (included s)).map (srcHzn s)) with
  | some m => max (hznG s) m
  | none => if isSet s F.BMK_PACER_PACER_EN 0 then max (hznG s) (getF s F.BMK_PACER_HZN_HORIZON 0) else hznG s

/-- The epoch number of a horizon (R93). -/
def epochAt (s : State) (g : Nat) : Nat := g / 2 ^ getF s F.BMK_CTL_EPOCH_SHIFT 0

/-- GLOBAL_HORIZON_RECOMPUTE: the master slice recomputes G (R76, R80); a raise travels to every die (R81), and the boundaries
that it crosses wait for a switch (R93, R94). `acc` is the acceptance behind the change (R326). -/
def recomputeG (s : State) (acc : Nat) : State :=
  let s := markIncluded s
  let g := gNew s
  if g = hznG s then s
  else
    let s := modBmk s (fun b => { b with acc := acc, crossed := b.crossed + (epochAt s g - epochAt s (hznG s)) })
    let s := setF s F.BMK_GLOBAL_HORIZON 0 g
    sendG s (diesUp s) ⟨none, g, acc⟩

/-! ### Stakes (R87 to R92) -/

/-- Offset of the registers of stake `n`. -/
def stakeO (n : Nat) : Nat := n * 0x10

/-- The armed stakes, ascending. -/
def armedStakes (s : State) : List Nat :=
  s.regs.filterMap (fun e =>
    if fkey F.BMK_STAKE_CTL_ARMED 0 ≤ e.1 ∧ e.1 < fkey F.BMK_STAKE_CTL_ARMED (stakeO 2048) ∧
        (e.1 - fkey F.BMK_STAKE_CTL_ARMED 0) % 1024 = 0 then some ((e.1 - fkey F.BMK_STAKE_CTL_ARMED 0) / 1024) else none)

/-- The die on which a stake fires: that of its traverse, on a SOLO pair the survivor (R88, R513). -/
def stakeDie (s : State) (n : Nat) : Option Nat :=
  (activeTrav s (getF s F.BMK_STAKE_CTL_TRAVERSE (stakeO n))).map (fun pv => runsOn s (travDie pv.2))

/-- Periods covered by a firing at horizon `h`, and the stake's next value: the value itself and every multiple of the
interval above it that the horizon has passed; then the lowest multiple not passed (R89). A value not passed covers no
period (a firing under R92). -/
def stakePeriods (v h ivl : Nat) (rep : Bool) : Nat × Nat :=
  if h ≤ v then (0, v)
  else if rep then
    let first := (v / ivl + 1) * ivl
    if h ≤ first then (1, first) else (1 + ceilDiv (h - first) ivl, first + ceilDiv (h - first) ivl * ivl)
  else (1, v)

/-- The waiting fire token of a traverse in a slice takes the new value and the periods (R331). -/
def mergeFire (e : OutEnt) (v periods lost : Nat) : OutEnt :=
  match e.work with
  | .copies t ds =>
    let l := t.lanes
    let l' : Lanes := ⟨num v, num ((laneVal l.l1).toNat + periods), num (max (laneVal l.l2).toNat lost), l.l3, l.l4,
      l.l5, l.l6, l.l7⟩
    { e with work := .copies { t with lanes := l' } ds }
  | _ => e

/-- Whether an output entry is a fire token of a traverse (R331). -/
def isFire (e : OutEnt) (trav : Nat) : Bool :=
  match e.work with
  | .copies t _ => t.trav == trav && t.kind == .control && t.sub == 1
  | _ => false

/-- Contexts of the fire tokens of a traverse that wait in a slice, in order. -/
def fireCtxs (es : List OutEnt) (trav : Nat) : List Nat :=
  es.filterMap (fun e => match e.work with
    | .copies t _ => if isFire e trav then some t.ctx else none
    | _ => none)

/-- The context of the fire token into which a further firing of a traverse is merged (R331): the youngest that waits in the slice,
while the input queue of the token is full (R315). -/
def heldFire (s : State) (d t : Nat) : Option Nat :=
  match activeTrav s t with
  | some (_, tv) =>
    if ((inputCells tv).flatMap (placements s)).any (fun g => !hasRoom s (tileOfCell g) t) then
      (fireCtxs (outOf s (sliceSrc d)) t).getLast?
    else none
  | none => none

/-- Whether an output entry is the fire token of a context. -/
def isFireOf (e : OutEnt) (trav ctx : Nat) : Bool :=
  match e.work with
  | .copies t _ => isFire e trav && t.ctx == ctx
  | _ => false

/-- STAKE_FIRE: stake `n` fires at horizon `h` on die `d` (R88, R89); `lost` is the reason of a lost source (R92). DESIGN CHOICE:
PERIODS shows a count above 65,535 as 65,535; the spec gives 16 bits and names no wrap (log entry 72). -/
def fireStake (s : State) (n d h : Nat) (lost : Option Nat) : State :=
  let o := stakeO n
  let v := getF s F.BMK_STAKE_VAL_VALUE o
  let t := getF s F.BMK_STAKE_CTL_TRAVERSE o
  let rep := isSet s F.BMK_STAKE_CTL_REPEAT_EN o
  let pn := stakePeriods v h (2 ^ getF s F.BMK_STAKE_CTL_REPEAT_LOG2 o) rep
  let firing := Tbl.getD s.bmk.firings n 0 + 1
  let ctx := ctxStake n firing
  let lb := if lost.isSome then 1 else 0
  let s := satF s F.BMK_STAKE_CTL_FIRE_COUNT o 1
  let s := setF s F.BMK_STAKE_CTL_PERIODS o (min pn.1 65535)
  let s := setF s F.BMK_STAKE_CTL_LOST o lb
  let s := if rep && lost.isNone then setF s F.BMK_STAKE_VAL_VALUE o pn.2 else setF s F.BMK_STAKE_CTL_ARMED o 0
  let s := modBmk s (fun b => { b with firings := Tbl.put n firing b.firings })
  let held := heldFire s d t
  let s := if 1 < pn.1 || held.isSome then raise s F.BMK_EVENT_STAKE_COALESCED 0 else s
  let s := match held with
    | some c => setOut s (sliceSrc d) ((outOf s (sliceSrc d)).map (fun e => if isFireOf e t c then mergeFire e v pn.1 lb else e))
    | none =>
      match activeTrav s t with
      | some (_, tv) => pushHead s (sliceSrc d) (inputCells tv)
          (ctlToken t ctx 1 (wall s % 2 ^ 32) [v, pn.1, lb, n])
      | none => s
  match lost with
  | some r => markFail s t (held.getD ctx) stSourceLost r
  | none => s

/-- The stakes of die `d` on the global horizon fire that a view `g` has passed (R88, R91). -/
def fireGlobal (s : State) (d g : Nat) : State :=
  (armedStakes s).foldl (fun s n =>
    if isSet s F.BMK_STAKE_CTL_GLOBAL (stakeO n) && stakeDie s n == some d && decide (getF s F.BMK_STAKE_VAL_VALUE (stakeO n) < g)
    then fireStake s n d g none else s) s

/-- The stakes of die `d` on source `src` fire that its horizon `h` has passed (R88, R91). -/
def fireSource (s : State) (d src h : Nat) : State :=
  (armedStakes s).foldl (fun s n =>
    if !isSet s F.BMK_STAKE_CTL_GLOBAL (stakeO n) && getF s F.BMK_STAKE_CTL_SOURCE (stakeO n) == src &&
        stakeDie s n == some d && decide (getF s F.BMK_STAKE_VAL_VALUE (stakeO n) < h)
    then fireStake s n d h none else s) s

/-- The armed stakes on a closing source fire with the lost flag and disarm (R92). -/
def fireLost (s : State) (src reason : Nat) : State :=
  (armedStakes s).foldl (fun s n =>
    if !isSet s F.BMK_STAKE_CTL_GLOBAL (stakeO n) && getF s F.BMK_STAKE_CTL_SOURCE (stakeO n) == src then
      match stakeDie s n with
      | some d => fireStake s n d (srcHzn s src) (some reason)
      | none => setF s F.BMK_STAKE_CTL_ARMED (stakeO n) 0
    else s) s

/-! ### Detach (R99, R100) -/

/-- Reasons of a detach (R100). -/
def rsnBye : Nat := 0x0301
def rsnLock : Nat := 0x0302
def rsnReset : Nat := 0x0303
def rsnPort : Nat := 0x0304

/-- The ingest slice emits the marker of a lost source into every stream traverse that the source may feed (R99 step 2, R206,
R300); it is sent behind the source's tokens (`splitterBusy` in Machine/Sched.lean). -/
def sendLost (s : State) (src reason : Nat) : State :=
  let d := dieOfPort (getF s F.BMK_SRC_STAT_PORT (srcO src))
  ((allStreamTravs s).filter (fun pv => mayDeliver s src pv.1)).foldl (fun s pv =>
    let t := ctlToken pv.2.num (ctxSource src) 2 (wall s % 2 ^ 32) [src, srcHzn s src, reason]
    pushHead s (sliceSrc d) (inputCells pv.2) t) s

/-- SOURCE_DETACH: a source closes (R99): marker, state and event, its stakes, then G. A source not held is left as it
is. -/
def detach (s : State) (src reason : Nat) : State :=
  let st := srcState s src
  if st = srcPending ∨ st = srcLive ∨ st = srcStalled then
    let s := sendLost s src reason
    let s := setF s F.BMK_SRC_STAT_STATE (srcO src) srcClosed
    let s := raise s F.BMK_EVENT_CLOSED 0
    let s := modBmk s (fun b => { b with bye := Tbl.del src b.bye, closeRsn := Tbl.put src reason b.closeRsn })
    let s := fireLost s src reason
    recomputeG s (wall s % 2 ^ 32)
  else s

/-! ### Commands -/

/-- G_VIEW_UPDATE (R81): the next message of the master reaches die `d`; its view never falls, and the stakes fire that
it passes. A source's horizon reaches other dies by the same path (R82). -/
def gViewUpdate (s : State) (d : Nat) : State :=
  match Tbl.getD s.bmk.msgs d [] with
  | [] => s
  | m :: rest =>
    let s := modBmk s (fun b => { b with msgs := Tbl.put d rest b.msgs })
    match m.src with
    | none =>
      let g := max (Tbl.getD s.bmk.view d 0) m.value
      let s := modBmk s (fun b => { b with view := Tbl.put d g b.view, viewAcc := Tbl.put d m.acc b.viewAcc })
      fireGlobal s d g
    | some n =>
      let s := modBmk s (fun b => { b with srcView := Tbl.put (d * 1024 + n) m.value b.srcView })
      fireSource s d n m.value

def execGViewUpdate (d : Nat) (s : State) : Res := .next (gViewUpdate s d)

/-- SILENCE_TIMEOUT (R73, R74, R76): a LIVE source becomes STALLED, unless SILENCE_TIMEOUT is 0 or a frame of it is accepted in
the same fc (R101). The entry names the source. -/
def silenceTimeout (s : State) (n : Nat) : State :=
  if srcState s n = srcLive ∧ getF s F.BMK_SILENCE_SILENCE_TIMEOUT 0 ≠ 0 ∧
      getF s F.BMK_SRC_STAT_LAST_ACCEPT (srcO n) ≠ wall s % 2 ^ 32 then
    let s := setF s F.BMK_SRC_STAT_STATE (srcO n) srcStalled
    let s := raise s F.BMK_EVENT_STALLED 0
    let s := logC s (dieOfPort (getF s F.BMK_SRC_STAT_PORT (srcO n))) rsnNotice fnNone n 0
    recomputeG s (wall s % 2 ^ 32)
  else s

def execSilenceTimeout (n : Nat) (s : State) : Res := .next (silenceTimeout s n)

/-- PACER_TICK (R79): one dc of pacer time while PACER_EN is 1. DESIGN CHOICE: at 2^64 − 1 the pacer horizon wraps to 0, of which
the spec says nothing (log entry 72). -/
def pacerTick (s : State) : State :=
  if isSet s F.BMK_PACER_PACER_EN 0 then
    recomputeG (addF s F.BMK_PACER_HZN_HORIZON 0 1) (wall s % 2 ^ 32)
  else s

def execPacerTick (s : State) : Res := .next (pacerTick s)

/-- BMK_ADVANCE (R79): the pacer horizon rises to the written value, if that is higher. -/
def bmkAdvance (s : State) (v : Nat) : State :=
  if getF s F.BMK_PACER_HZN_HORIZON 0 < v % 2 ^ 64 then
    recomputeG (setF s F.BMK_PACER_HZN_HORIZON 0 v) (wall s % 2 ^ 32)
  else s

def execBmkAdvance (v : Nat) (s : State) : Res := .next (bmkAdvance s v)

/-- STAKE_DISARM (R101): the manager writes 1 to BMK_STAKE_CTL.ARMED. -/
def stakeDisarm (s : State) (n : Nat) : State := setF s F.BMK_STAKE_CTL_ARMED (stakeO n) 0

def execStakeDisarm (n : Nat) (s : State) : Res := .next (stakeDisarm s n)

/-- Whether a traverse receives HORIZON tokens: its GRAPH holds a WINDOW or JOIN_ASOF node (R207). -/
def wantsHorizon (v : Trav) : Bool := v.nodes.any (fun n => n.op == opWindow || n.op == opAsof)

/-- The input cells that the slice of die `d` serves: those that a plat places on the die, or on the lost die of its pair
(R513). -/
def sliceCells (s : State) (v : Trav) (d : Nat) : List Nat := (inputCells v).filter (fun c => runsOn s (dieOfCell c) == d)

/-- HORIZON_TOKEN_SEND (R207): the slice of die `d` sends its view of G to the traverse's input cells on the die, when the
view has risen since the last one it sent; at most one every 16 fc goes to a traverse. -/
def horizonTokenSend (s : State) (t d : Nat) : State :=
  match activeTrav s t with
  | some (_, v) =>
    let g := Tbl.getD s.bmk.view d 0
    let cells := sliceCells s v d
    let paced := (Tbl.get? (t * 8 + d) s.bmk.hznAt).all (fun f => decide (f + 16 ≤ s.now))
    if wantsHorizon v && !cells.isEmpty && paced && decide (Tbl.getD s.bmk.lastHzn (t * 8 + d) 0 < g) then
      let s := modBmk s (fun b => { b with lastHzn := Tbl.put (t * 8 + d) g b.lastHzn, hznAt := Tbl.put (t * 8 + d) s.now b.hznAt })
      pushHead s (sliceSrc d) cells (ctlToken t ctxHorizon 3 (Tbl.getD s.bmk.viewAcc d 0) [g])
    else s
  | none => s

def execHorizonTokenSend (t d : Nat) (s : State) : Res := .next (horizonTokenSend s t d)

/-- The epoch number of G (R93). -/
def epochOf (s : State) : Nat := epochAt s (hznG s)

/-- EPOCH_MIN_GAP as it applies (R97: values below 1,024 act as 1,024). -/
def minGap (s : State) : Nat := max 1024 (getF s F.BMK_CTL_EPOCH_MIN_GAP 0)

/-- Whether the master may start a switch: G has crossed a boundary that no switch has taken (R94, R97, R470). -/
def switchDue (s : State) : Bool :=
  s.bmk.sw.isNone && !halted s && decide (0 < s.bmk.crossed) &&
  (match s.bmk.lastStart with
   | none => true
   | some f => decide (f + minGap s ≤ s.now))

/-- EPOCH_SWITCH_START (R94 step 1, R97): PREPARE(e) is on its way; boundaries beyond the first are counted as merged. -/
def epochSwitchStart (s : State) : State :=
  if switchDue s then
    let e := epochOf s
    let extra := s.bmk.crossed - 1
    let s := if 0 < extra then raise (satF s F.BMK_EPOCH_STAT_MERGED 0 extra) F.BMK_EVENT_MERGED 0 else s
    let w : EpochSwitch := ⟨e, getF s F.BMK_EPOCH_EPOCH 0, s.now, [], [], [], [], false⟩
    modBmk s (fun b => { b with sw := some w, lastStart := some s.now, crossed := 0 })
  else s

def execEpochSwitchStart (s : State) : Res := .next (epochSwitchStart s)

/-- Every die has answered, but for those cut off from the master (log entry 73), and no halt keeps the COMMIT from beginning
(R94 step 4, R470). -/
def allReady (s : State) (w : EpochSwitch) : Bool :=
  (diesUp s).all (fun x => w.ready.contains x || w.cut.contains x) && !halted s

/-- The running switch changes; when every die has then answered, the epoch number in force advances and COMMIT is on its way
(R94 step 4). -/
def setSwitch (s : State) (w : EpochSwitch) : State :=
  if allReady s w && !w.going then
    setF (modBmk s (fun b => { b with sw := some { w with going := true } })) F.BMK_EPOCH_EPOCH 0 w.epoch
  else modBmk s (fun b => { b with sw := some w })

/-- A message of the switch between the master and die `d` is lost at an edge: the switch goes on without the die (R63; log
entry 73). -/
def switchCut (s : State) (w : EpochSwitch) (d : Nat) (e : Nat × Nat) : State :=
  setSwitch (dropAtEdge s e) { w with cut := d :: w.cut.erase d }

/-- PREPARE (R94 step 2): die `d` stops dispatch; running passes go on (R192 step 1). It follows the raise of G that
started the switch on the same path, so a stake that passes on that raise has fired before it (R101). -/
def prepare (s : State) (d : Nat) : State :=
  match s.bmk.sw with
  | some w =>
    if dieUp s d && !w.prepared.contains d && !w.cut.contains d && (Tbl.getD s.bmk.msgs d []).isEmpty then
      match lostTo s (masterDie s) d with
      | some e => switchCut s w d e
      | none =>
        let w' : EpochSwitch := { w with prepared := d :: w.prepared }
        modBmk s (fun b => { b with sw := some w', held := d :: b.held.erase d, prepAt := Tbl.put d s.now b.prepAt })
    else s
  | none => s

def execPrepare (d : Nat) (s : State) : Res := .next (prepare s d)

/-- Handles of the active plats that the next COMMIT removes (R180, R192, R194). -/
def leavingHandles (s : State) : List Nat :=
  s.plats.unloads.map (·.1) ++ s.plats.slots.filterMap (fun e =>
    if getF s F.PLAT_SLOT_STAT_PHASE (e.1 * 0x10) = 5 then (e.2.plat.bind (fun p => if p.replace then some p.replaces else none)) else none)

/-- Whether a pass of a leaving traverse still runs on die `d` (R192 step 1). -/
def leavingRuns (s : State) (d : Nat) : Bool :=
  s.fab.passes.any (fun e => dieOfCell e.1 == d &&
    (match cellOwner s e.1 with
     | some (p, _, _) => (leavingHandles s).contains p.handle
     | none => false))

/-- READY (R94 steps 3 and 4, R192 step 1): the master hears die `d`. When every die has answered, the epoch number in
force advances and COMMIT is on its way. -/
def ready (s : State) (d : Nat) : State :=
  match s.bmk.sw with
  | some w =>
    if w.prepared.contains d && !w.ready.contains d && !w.cut.contains d && !leavingRuns s d then
      match lostTo s d (masterDie s) with
      | some e => switchCut s w d e
      | none => setSwitch s { w with ready := d :: w.ready }
    else s
  | none => s

def execReady (d : Nat) (s : State) : Res := .next (ready s d)

end Sys2Proof.Machine
end

