-- ==== Sys2Proof/Machine/Operands.lean ====
section
/-! DEFINITION. Operand forms of a cell instruction: the fields of the instruction word (R213) and the source specifiers
(R214). -/

namespace Sys2Proof.Machine

/-- OP. -/
def iOp (w : Nat) : Nat := bits w 0 8
/-- D: destination register or port. -/
def iD (w : Nat) : Nat := bits w 8 4
/-- A: source specifier. -/
def iA (w : Nat) : Nat := bits w 12 4
/-- B: source specifier. -/
def iB (w : Nat) : Nat := bits w 16 4
/-- C: source specifier or sub-operation. -/
def iC (w : Nat) : Nat := bits w 20 4
/-- SAT. -/
def iSat (w : Nat) : Bool := bits w 24 1 == 1
/-- SGN. -/
def iSgn (w : Nat) : Bool := bits w 25 1 == 1
/-- PRED. -/
def iPred (w : Nat) : Bool := bits w 26 1 == 1
/-- IMM. -/
def iImm (w : Nat) : Nat := bits w 32 32

/-- IMM sign-extended to 64 bits. -/
def immSext (w : Nat) : W64 := (BitVec.ofNat 32 (iImm w)).signExtend 64

/-- A register of a pass; one never written reads null in every lane (R208). -/
def Pass.reg (p : Pass) (n : Nat) : Lanes := Tbl.getD p.v n Lanes.null

/-- The operand token in a slot. -/
def Pass.operand (p : Pass) (slot : Nat) : Option Token := p.task.toks.find? (fun t => t.slot == slot)

/-- The same value in every lane, mask 0xFF. -/
def Lanes.all (x : W64) : Lanes := Lanes.ofFn (fun _ => some x)

/-- The lanes that a source specifier names (R214). -/
def source (p : Pass) (w spec : Nat) : Lanes :=
  if spec < 8 then p.reg spec
  else if spec < 12 then ((p.operand (spec - 8)).map (·.lanes)).getD Lanes.null
  else if spec = 12 then Lanes.all (immSext w)
  else if spec = 13 then Lanes.ofFn (fun i => num i)
  else if spec = 14 then Lanes.all 0
  else Lanes.null

/-- Source A. -/
def srcA (p : Pass) (w : Nat) : Lanes := source p w (iA w)
/-- Source B. -/
def srcB (p : Pass) (w : Nat) : Lanes := source p w (iB w)
/-- Source C. -/
def srcC (p : Pass) (w : Nat) : Lanes := source p w (iC w)

/-- An operation on each lane of one source; the mask is the source's (R216). -/
def map1 (f : W64 → W64) (a : Lanes) : Lanes := Lanes.ofFn (fun i => (a.get i).map f)

/-- An operation on each lane of two sources; the mask is the AND of theirs (R216). -/
def map2 (f : W64 → W64 → W64) (a b : Lanes) : Lanes :=
  Lanes.ofFn (fun i => match a.get i, b.get i with
    | some x, some y => some (f x y)
    | _, _ => none)

/-- Lane 0 alone. -/
def lane0 (x : Lane) : Lanes := Lanes.ofFn (fun i => if i = 0 then x else none)

/-- The valid lanes, in ascending lane order. -/
def Lanes.valid (a : Lanes) : List W64 := a.toList.filterMap id

/-- Whether a lane is valid and nonzero. -/
def nonzero (x : Lane) : Bool := match x with
  | some v => v != 0
  | none => false

/-- The task is poisoned (R212). -/
def Task.poisoned (t : Task) : Bool := t.toks.any (fun k => k.kind == .poisoned)

/-- The first operand: every operand shares its key (R212). -/
def Task.key (t : Task) : Token := t.toks.head?.getD ⟨0, 0, .data, 0, 0, Lanes.null, 0⟩

/-- The later of two acceptance stamps, compared mod 2^32 (R328). -/
def laterAcc (a b : Nat) : Nat := if subMod 32 b a < 2 ^ 31 then b else a

/-- The acceptance stamp of what a task emits: the latest of its operands (R328). -/
def Task.acc (t : Task) : Nat := match t.toks with
  | [] => 0
  | k :: ks => ks.foldl (fun m x => laterAcc m x.acc) k.acc

end Sys2Proof.Machine
end

