-- ==== Sys2Proof/Machine/Flags.lean ====
section
/-! DEFINITION. What SAT and SGN do to a result (R218), the other lane computations of R217 to R220, H64 (R252) and the
floating-point arithmetic of R221 to R224. -/

namespace Sys2Proof.Machine

/-- A lane's value as an integer, under SGN. -/
def ival (sgn : Bool) (x : W64) : Int := if sgn then x.toInt else (x.toNat : Int)

/-- The result of an exact value under SAT and SGN (R218). -/
def narrow (sat sgn : Bool) (x : Int) : W64 :=
  if sat then
    if sgn then BitVec.ofInt 64 (max (-(2 ^ 63)) (min x (2 ^ 63 - 1)))
    else BitVec.ofInt 64 (max 0 (min x (2 ^ 64 - 1)))
  else BitVec.ofInt 64 x

/-- ADD (R217, R218). -/
def opAdd (sat sgn : Bool) (a b : W64) : W64 := narrow sat sgn (ival sgn a + ival sgn b)
/-- SUB. -/
def opSub (sat sgn : Bool) (a b : W64) : W64 := narrow sat sgn (ival sgn a - ival sgn b)
/-- MUL. -/
def opMul (sat sgn : Bool) (a b : W64) : W64 := narrow sat sgn (ival sgn a * ival sgn b)
/-- MULH: bits 127 to 64 of the product. -/
def opMulh (sgn : Bool) (a b : W64) : W64 := BitVec.ofInt 64 ((ival sgn a * ival sgn b) / 2 ^ 64)
/-- NEG. -/
def opNeg (sat sgn : Bool) (a : W64) : W64 := narrow sat sgn (0 - ival sgn a)
/-- ABS: the magnitude under SGN, A when SGN is 0. -/
def opAbs (sat sgn : Bool) (a : W64) : W64 := narrow sat sgn ((ival sgn a).natAbs : Int)
/-- A < B under SGN. -/
def ltS (sgn : Bool) (a b : W64) : Bool := decide (ival sgn a < ival sgn b)
/-- MIN. -/
def opMin (sgn : Bool) (a b : W64) : W64 := if ltS sgn b a then b else a
/-- MAX. -/
def opMax (sgn : Bool) (a b : W64) : W64 := if ltS sgn a b then b else a
/-- SHL by B[5:0]. -/
def opShl (a b : W64) : W64 := a <<< (b.toNat % 64)
/-- SHR by B[5:0], arithmetic under SGN. -/
def opShr (sgn : Bool) (a b : W64) : W64 := if sgn then a.sshiftRight (b.toNat % 64) else a >>> (b.toNat % 64)
/-- ROL by B[5:0]. -/
def opRol (a b : W64) : W64 := a.rotateLeft (b.toNat % 64)
/-- POPC. -/
def opPopc (a : W64) : W64 := BitVec.ofNat 64 ((List.range 64).filter (fun i => a.getLsbD i)).length
/-- CLZ: 64 for 0. -/
def opClz (a : W64) : W64 := BitVec.ofNat 64 ((findIdx (fun i => a.getLsbD (63 - i)) (List.range 64)).getD 64)
/-- CTZ: 64 for 0. -/
def opCtz (a : W64) : W64 := BitVec.ofNat 64 ((findIdx (fun i => a.getLsbD i) (List.range 64)).getD 64)

/-- lsb of BFX and BFI. -/
def bfLsb (w : Nat) : Nat := bits (iImm w) 0 6
/-- Width of BFX and BFI: 0 means 64. -/
def bfWidth (w : Nat) : Nat := let n := bits (iImm w) 8 6; if n = 0 then 64 else n

/-- BFX. -/
def opBfx (sgn : Bool) (lsb n : Nat) (a : W64) : W64 :=
  let f := bits a.toNat lsb n
  if sgn && bits f (n - 1) 1 == 1 then BitVec.ofInt 64 ((f : Int) - 2 ^ n) else BitVec.ofNat 64 f

/-- BFI. -/
def opBfi (lsb n : Nat) (a b : W64) : W64 :=
  BitVec.ofNat 64 (b.toNat - bits b.toNat lsb n * 2 ^ lsb + a.toNat % 2 ^ n * 2 ^ lsb)

/-- x xor rotl(x, a) xor rotl(x, b). -/
def h64Mix (x : W64) (a b : Nat) : W64 := x ^^^ x.rotateLeft a ^^^ x.rotateLeft b

/-- H64 (R252). -/
def h64 (k s : W64) : W64 :=
  let x := h64Mix ((k ^^^ s) + 0x7A3D1C58E6B2940F#64) 16 40
  let x := h64Mix (x + 0x1F84C9A73D65E0B3#64) 28 52
  h64Mix (x + 0xD2E75B19A48C36F1#64) 12 44

/-- 1 or 0. -/
def ofB (b : Bool) : W64 := if b then 1 else 0

/-! ### Floating point: a format of `eb` exponent bits and `mb` fraction bits -/

/-- A format. -/
structure FFmt where
  eb : Nat
  mb : Nat
  deriving DecidableEq, Repr, Inhabited

/-- binary32. -/
def f32 : FFmt := ⟨8, 23⟩
/-- binary64. -/
def f64 : FFmt := ⟨11, 52⟩

/-- The pattern of +∞. -/
def FFmt.inf (f : FFmt) : Nat := (2 ^ f.eb - 1) * 2 ^ f.mb
/-- The canonical quiet NaN (R222). -/
def FFmt.nan (f : FFmt) : Nat := f.inf + 2 ^ (f.mb - 1)
/-- The sign bit's weight. -/
def FFmt.top (f : FFmt) : Nat := 2 ^ (f.eb + f.mb)
/-- The operand's bits: a binary32 operation ignores bits 63 to 32. -/
def FFmt.pat (f : FFmt) (x : W64) : Nat := x.toNat % 2 ^ (f.eb + f.mb + 1)
/-- Magnitude bits. -/
def FFmt.mag (f : FFmt) (x : Nat) : Nat := x % f.top
/-- Sign. -/
def FFmt.neg (f : FFmt) (x : Nat) : Bool := decide (f.top ≤ x)
/-- Whether a pattern is a NaN. -/
def FFmt.isNan (f : FFmt) (x : Nat) : Bool := decide (f.inf < f.mag x)
/-- Whether a pattern is infinite. -/
def FFmt.isInf (f : FFmt) (x : Nat) : Bool := f.mag x == f.inf

/-- A finite magnitude in units of the least subnormal. -/
def FFmt.units (f : FFmt) (m : Nat) : Nat :=
  let e := m / 2 ^ f.mb
  if e = 0 then m else (m % 2 ^ f.mb + 2 ^ f.mb) * 2 ^ (e - 1)

/-- A finite pattern as a signed count of units. -/
def FFmt.toInt (f : FFmt) (x : Nat) : Int :=
  if f.neg x then -(f.units (f.mag x) : Int) else (f.units (f.mag x) : Int)

/-- The magnitude pattern nearest to `n` units, ties to even; ∞ beyond the largest finite value. -/
def FFmt.round (f : FFmt) (n : Nat) : Nat :=
  if n < 2 ^ (f.mb + 1) then n
  else
    let k := Nat.log2 n - f.mb
    let q := n / 2 ^ k
    let r := n % 2 ^ k
    let q := if 2 ^ k < 2 * r ∨ (2 * r = 2 ^ k ∧ q % 2 = 1) then q + 1 else q
    min (k * 2 ^ f.mb + q) f.inf

/-- The sum of two patterns (R222). -/
def FFmt.addPat (f : FFmt) (x y : Nat) : Nat :=
  if f.isNan x || f.isNan y then f.nan
  else if f.isInf x then (if f.isInf y && f.neg x != f.neg y then f.nan else x)
  else if f.isInf y then y
  else
    let t := f.toInt x + f.toInt y
    if t = 0 then (if f.neg x && f.neg y then f.top else 0)
    else if t < 0 then f.top + f.round t.natAbs else f.round t.natAbs

/-- The pattern with its sign changed. -/
def FFmt.flip (f : FFmt) (x : Nat) : Nat := if f.neg x then x - f.top else x + f.top

/-- FADD32, FADD64. -/
def fadd (f : FFmt) (a b : W64) : W64 := BitVec.ofNat 64 (f.addPat (f.pat a) (f.pat b))
/-- FSUB32, FSUB64. -/
def fsub (f : FFmt) (a b : W64) : W64 := BitVec.ofNat 64 (f.addPat (f.pat a) (f.flip (f.pat b)))

/-- The order of two patterns that are no NaN; infinities lie beyond every finite value. -/
def FFmt.cmpKey (f : FFmt) (x : Nat) : Int := if f.neg x then -(f.mag x : Int) else (f.mag x : Int)

/-- Predicates of FCMP (R223). -/
def fcmp (f : FFmt) (pred : Nat) (a b : W64) : W64 :=
  let x := f.pat a
  let y := f.pat b
  let un := f.isNan x || f.isNan y
  let p := f.cmpKey x
  let q := f.cmpKey y
  ofB (match pred with
    | 0 => !un && p == q
    | 1 => !un && decide (p < q)
    | 2 => !un && decide (p ≤ q)
    | 3 => un
    | _ => un || p != q)

/-- FKEY32, FKEY64 (R224). -/
def fkeyOf (f : FFmt) (a : W64) : W64 :=
  let x := f.pat a
  BitVec.ofNat 64 (if f.neg x then 2 * f.top - 1 - x else x + f.top)

end Sys2Proof.Machine
end

