-- ==== Sys2Proof/Machine/Cells.lean ====
section
/-! DEFINITION. The instructions of a cell (R209 to R237): each command runs the next instruction of the pass on a cell
when its OP is the command's; SRQ and HRQ are in Machine/Requests.lean. -/

namespace Sys2Proof.Machine

/-- The pass on a cell with its next instruction word. -/
def current (s : State) (g : Nat) : Option (Pass × Nat) :=
  match Tbl.get? g s.fab.passes with
  | some p => ((cellCode s g)[p.pc]?).map (fun w => (p, w))
  | none => none

/-- Whether an instruction acts (R211): PRED is clear, or lane 0 of V7 is valid and nonzero. -/
def acts (p : Pass) (w : Nat) : Bool := !iPred w || nonzero ((p.reg 7).get 0)

/-- The pass goes to its next instruction, D holding `d` if one was written; after instruction NINSTR − 1 the cell is
free (R209, R210). -/
def advance (s : State) (g : Nat) (p : Pass) (w : Nat) (d : Option Lanes) : State :=
  let p' : Pass := { p with pc := p.pc + 1, v := match d with
                                                 | some l => Tbl.put (iD w) l p.v
                                                 | none => p.v }
  if p'.pc < (cellCode s g).length then modFab s (fun b => { b with passes := Tbl.put g p' b.passes })
  else modFab s (fun b => { b with passes := Tbl.del g b.passes })

/-- The next instruction of cell `g` runs when its OP is `op`: `eff` gives the state it leaves and what it writes to D. -/
def runInstr (s : State) (g op : Nat) (eff : State → Pass → Nat → State × Option Lanes) : State :=
  match current s g with
  | some (p, w) =>
    if iOp w = op then
      let r := if acts p w then eff s p w else (s, none)
      advance r.1 g p w r.2
    else s
  | none => s

/-- An instruction that only writes D. -/
def runPure (s : State) (g op : Nat) (f : Pass → Nat → Lanes) : State := runInstr s g op (fun s p w => (s, some (f p w)))

/-- An instruction on each lane of A. -/
def runLane1 (s : State) (g op : Nat) (f : Nat → W64 → W64) : State := runPure s g op (fun p w => map1 (f w) (srcA p w))

/-- An instruction on each lane of A and B. -/
def runLane2 (s : State) (g op : Nat) (f : Nat → W64 → W64 → W64) : State :=
  runPure s g op (fun p w => map2 (f w) (srcA p w) (srcB p w))

/-- A reduction of the valid lanes of A into lane 0 (R220). -/
def runRed (s : State) (g op : Nat) (f : Nat → List W64 → Lane) : State :=
  runPure s g op (fun p w => lane0 (f w (srcA p w).valid))

/-- SEL, per lane (R219). -/
def opSel (a b c : Lanes) : Lanes :=
  Lanes.ofFn (fun i => match c.get i with
    | some x => if x = 0 then b.get i else a.get i
    | none => none)

/-- COMPACT (R225). -/
def opCompact (a : Lanes) : Lanes := Lanes.ofList (a.valid.map some)

/-- SHUF (R225). -/
def opShuf (a b : Lanes) : Lanes :=
  Lanes.ofFn (fun i => match b.get i with
    | some x => a.get (x.toNat % 8)
    | none => none)

/-- TAGF (R225): the tag fields of the operand in a slot. -/
def opTagf (t : Option Token) : Lanes :=
  match t with
  | some k => Lanes.ofList [num k.trav, num k.ctx, num k.seq, num k.kind.code, num k.slot]
  | none => Lanes.null

/-- The greatest or least of a list, by `lt`. -/
def bestOf (lt : W64 → W64 → Bool) : List W64 → Lane
  | [] => none
  | x :: t => match bestOf lt t with
    | some y => some (if lt y x then y else x)
    | none => some x

/-! ### Tile store (R226 to R230) -/

/-- Address in the tile stores of byte `a` of the bank of cell `g`. -/
def bankAddr (g a : Nat) : Nat := g / 64 * 0x200000 + g % 64 * 0x8000 + a

/-- Whether an address names a word of the bank (R228). -/
def bankOk (a : Nat) : Bool := decide (a < 0x8000) && a % 8 == 0

/-- A lane at fault (R228): counted, the event set, the context marked. -/
def tileFault (s : State) (g : Nat) (p : Pass) : State :=
  let s := satF s F.FAB_TILE_ERR_TILE_ADDR (tileO (g / 64)) 1
  let s := raise s F.FAB_EVENT_TILE_ADDR (dieO (g / 4096))
  markFail s p.task.key.trav p.task.key.ctx stError 0x0602

/-- The address of a lane: A + IMM mod 2^64. -/
def laneAddr (w : Nat) (a : W64) : Nat := (a + immSext w).toNat

/-- The new word of UPD (R227). -/
def updOp (c : Nat) (old b : W64) : W64 :=
  match c with
  | 0 => old + b
  | 1 => opMin true old b
  | 2 => opMax true old b
  | 3 => opMin false old b
  | 4 => opMax false old b
  | 5 => old ||| b
  | 6 => old &&& b
  | _ => b

/-- One lane of LD, ST or UPD: `new` gives the word to store from the old one, if the operation stores; what comes back is
the old word where the lane is accessed (R228, R229). -/
def bankLane (g : Nat) (p : Pass) (w : Nat) (ok : Bool) (store : Bool) (new : W64 → W64) (a : Lane) (s : State) :
    State × Lane :=
  match a with
  | none => (s, none)
  | some x =>
    if !ok then (s, none)
    else if !bankOk (laneAddr w x) then (tileFault s g p, none)
    else if store && p.task.poisoned then (s, none)
    else
      let ad := bankAddr g (laneAddr w x)
      let old := rdWord s 0 ad
      (if store then wrWord s 0 ad (new old) else s, some old)

/-- The lanes of LD, ST or UPD in ascending order (R229), with the old words. -/
def bankOp (g : Nat) (p : Pass) (w : Nat) (store : Bool) (needB : Bool) (new : W64 → W64 → W64) (s : State) :
    State × List Lane :=
  (List.range 8).foldl (fun acc i =>
    let b := (srcB p w).get i
    let r := bankLane g p w (!needB || b.isSome) store (fun old => new old (laneVal b)) ((srcA p w).get i) acc.1
    (r.1, acc.2 ++ [r.2])) (s, [])

/-! ### Emission (R236 to R239) -/

/-- The token that EMIT or EMITD sends (R236). -/
def emitToken (p : Pass) (w : Nat) (lanes : Lanes) : Token :=
  let k := p.task.key
  { trav := k.trav, slot := 0, ctx := k.ctx, seq := (k.seq + bits (iImm w) 8 24) % 2 ^ 24, lanes := lanes,
    kind := if bits (iImm w) 2 1 = 1 then .control else if p.task.poisoned then .poisoned else .data, acc := p.task.acc }

/-- The cell has emitted: the tile counts the token, and unless the pass was squashed its copies wait in the output buffer
(R312, R318). A token of a stream that has ended is counted in ORPHANED (R250). -/
def emitTo (s : State) (g : Nat) (p : Pass) (t : Token) (ds : List Dest) : State :=
  let s := addF s F.FAB_TILE_TOK_TOKENS_OUT (tileO (g / 64)) 1
  if p.squashed || ds.isEmpty then s
  else if deadCtx s t.trav t.ctx then (if ctxKind t.ctx = 1 then s else countOrphan s (tileOfCell g) 1)
  else pushOut s g ⟨s.now, .copies t ds⟩

/-- The first cell of a node as it runs for cell `g`: on a live pair that of `g`'s die (R513). -/
def nodeFirst (s : State) (g : Nat) (n : Node) : Nat :=
  ((placements s n.first).find? (fun c => c / 4096 == g / 4096)).getD ((placements s n.first).headD n.first)

/-- Whether a route leads to a cell of its own node. -/
def staysIn (n : Node) (r : Route) : Bool :=
  match r.kind with
  | 0 => n.hasCell r.dst
  | 1 => (List.range 8).all (fun d => bits r.dieMask d 1 == 0 || n.hasCell (d * 4096 + r.dst))
  | _ => false

/-- The matches already emitted for a row. -/
def matchCount (s : State) (first : Nat) (t : Token) : Nat :=
  ((s.fab.found.find? (fun m => m.first == first && m.trav == t.trav && m.ctx == t.ctx && m.seq == t.seq)).map (·.n)).getD 0

/-- The matches emitted for a row set to `n`; 0 forgets them. -/
def setMatches (s : State) (first : Nat) (t : Token) (n : Nat) : State :=
  let mine := fun (m : RowMatches) => m.first == first && m.trav == t.trav && m.ctx == t.ctx && m.seq == t.seq
  let new := if n = 0 then [] else [RowMatches.mk first t.trav t.ctx t.seq n]
  modFab s (fun b => { b with found := new ++ b.found.filter (fun m => !mine m) })

/-- What a cell sends along routes (R276): a row that leaves a JOIN_INNER or JOIN_LEFT node is match m of its probe row and
carries SEQ s × 2^MATCH_LOG2 + m; a match beyond 2^MATCH_LOG2 is not sent and marks the context ERROR MATCH_LIMIT. DEDUCED, log
entry 78: matches are counted as the node emits them. -/
def joinMatch (s : State) (g : Nat) (rs : List Route) (t : Token) : State × Option Token :=
  match cellOwner s g with
  | some (_, _, n) =>
    if (n.op = 9 ∨ n.op = 12) ∧ t.kind ≠ .control ∧ rs.all (staysIn n) = false then
      let f := nodeFirst s g n
      let m := matchCount s f t
      if m < 2 ^ byteAt n.param 1 then
        (setMatches s f t (m + 1), some { t with seq := (t.seq * 2 ^ byteAt n.param 1 + m) % 2 ^ 24 })
      else (markFail s t.trav t.ctx stError 0x0621, none)
    else (s, some t)
  | none => (s, some t)

/-- A token goes out along routes that lead to `ds`. -/
def emitAlong (s : State) (g : Nat) (p : Pass) (rs : List Route) (t : Token) (ds : List Dest) : State :=
  match joinMatch s g rs t with
  | (s, some t) => emitTo s g p t ds
  | (s, none) => emitTo s g p t []

/-- EMIT (R236, R239): a copy along every route of the port; without a route the token is discarded and counted. -/
def emitPort (s : State) (g : Nat) (p : Pass) (w : Nat) : State :=
  let rs := cellRoutes s g (bits (iImm w) 0 2)
  let t := emitToken p w (srcA p w)
  if rs.isEmpty then
    let s := addF s F.FAB_TILE_TOK_TOKENS_OUT (tileO (g / 64)) 1
    raise (satF s F.FAB_TILE_ERR_UNROUTED (tileO (g / 64)) 1) F.FAB_EVENT_UNROUTED (dieO (g / 4096))
  else emitAlong s g p rs t (rs.filterMap (routeDest s g))

/-- EMITD (R237): along the port's broadcast routes that hold the die named by lane 0 of B, and only to it. -/
def emitDie (s : State) (g : Nat) (p : Pass) (w : Nat) : State :=
  let t := emitToken p w (srcA p w)
  let rs : List Route := (cellRoutes s g (bits (iImm w) 0 2)).filter (fun r => r.kind == 1)
  let hit : List Route := match (srcB p w).get 0 with
    | some b => rs.filter (fun r => bits r.dieMask (b.toNat % 8) 1 == 1)
    | none => []
  if hit.isEmpty then
    let s := addF s F.FAB_TILE_TOK_TOKENS_OUT (tileO (g / 64)) 1
    let s := satF s F.FAB_TILE_ERR2_DIRECT_MISS (tileO (g / 64)) 1
    markFail (raise s F.FAB_EVENT_DIRECT_MISS (dieO (g / 4096))) t.trav t.ctx stError 0x0603
  else
    let d := (laneVal ((srcB p w).get 0)).toNat % 8
    let ds := maskDies s g (2 ^ d)
    emitAlong s g p hit t (if ds.isEmpty then [] else hit.map (fun r => .die (bitSet ds) r.dst r.slot false))

/-! ### The instructions -/

/-- NOP writes nothing (R217). -/
def execNop (g : Nat) (s : State) : Res := .next (runInstr s g 0x00 (fun s _ _ => (s, none)))

/-- MOV (R217). -/
def execMov (g : Nat) (s : State) : Res := .next (runLane1 s g 0x01 (fun _ a => a))

/-- ADD (R217, R218). -/
def execAdd (g : Nat) (s : State) : Res := .next (runLane2 s g 0x02 (fun w a b => opAdd (iSat w) (iSgn w) a b))

/-- SUB (R217, R218). -/
def execSub (g : Nat) (s : State) : Res := .next (runLane2 s g 0x03 (fun w a b => opSub (iSat w) (iSgn w) a b))

/-- MUL (R217, R218). -/
def execMul (g : Nat) (s : State) : Res := .next (runLane2 s g 0x04 (fun w a b => opMul (iSat w) (iSgn w) a b))

/-- MULH (R217). -/
def execMulh (g : Nat) (s : State) : Res := .next (runLane2 s g 0x05 (fun w a b => opMulh (iSgn w) a b))

/-- NEG (R217, R218). -/
def execNeg (g : Nat) (s : State) : Res := .next (runLane1 s g 0x06 (fun w a => opNeg (iSat w) (iSgn w) a))

/-- ABS (R217, R218). -/
def execAbs (g : Nat) (s : State) : Res := .next (runLane1 s g 0x07 (fun w a => opAbs (iSat w) (iSgn w) a))

/-- MIN (R217). -/
def execMin (g : Nat) (s : State) : Res := .next (runLane2 s g 0x08 (fun w a b => opMin (iSgn w) a b))

/-- MAX (R217). -/
def execMax (g : Nat) (s : State) : Res := .next (runLane2 s g 0x09 (fun w a b => opMax (iSgn w) a b))

/-- AND (R217). -/
def execAnd (g : Nat) (s : State) : Res := .next (runLane2 s g 0x0A (fun _ a b => a &&& b))

/-- OR (R217). -/
def execOr (g : Nat) (s : State) : Res := .next (runLane2 s g 0x0B (fun _ a b => a ||| b))

/-- XOR (R217). -/
def execXor (g : Nat) (s : State) : Res := .next (runLane2 s g 0x0C (fun _ a b => a ^^^ b))

/-- NOT (R217). -/
def execNot (g : Nat) (s : State) : Res := .next (runLane1 s g 0x0D (fun _ a => ~~~ a))

/-- SHL (R217). -/
def execShl (g : Nat) (s : State) : Res := .next (runLane2 s g 0x0E (fun _ a b => opShl a b))

/-- SHR (R217). -/
def execShr (g : Nat) (s : State) : Res := .next (runLane2 s g 0x0F (fun w a b => opShr (iSgn w) a b))

/-- ROL (R217). -/
def execRol (g : Nat) (s : State) : Res := .next (runLane2 s g 0x10 (fun _ a b => opRol a b))

/-- POPC (R217). -/
def execPopc (g : Nat) (s : State) : Res := .next (runLane1 s g 0x11 (fun _ a => opPopc a))

/-- CLZ (R217). -/
def execClz (g : Nat) (s : State) : Res := .next (runLane1 s g 0x12 (fun _ a => opClz a))

/-- CTZ (R217). -/
def execCtz (g : Nat) (s : State) : Res := .next (runLane1 s g 0x13 (fun _ a => opCtz a))

/-- BFX (R217). -/
def execBfx (g : Nat) (s : State) : Res := .next (runLane1 s g 0x14 (fun w a => opBfx (iSgn w) (bfLsb w) (bfWidth w) a))

/-- BFI (R217). -/
def execBfi (g : Nat) (s : State) : Res := .next (runLane2 s g 0x15 (fun w a b => opBfi (bfLsb w) (bfWidth w) a b))

/-- H64 (R252). -/
def execH64 (g : Nat) (s : State) : Res := .next (runLane2 s g 0x50 (fun _ a b => h64 a b))

/-- CMPEQ (R219). -/
def execCmpeq (g : Nat) (s : State) : Res := .next (runLane2 s g 0x20 (fun _ a b => ofB (a == b)))

/-- CMPNE (R219). -/
def execCmpne (g : Nat) (s : State) : Res := .next (runLane2 s g 0x21 (fun _ a b => ofB (a != b)))

/-- CMPLT (R219). -/
def execCmplt (g : Nat) (s : State) : Res := .next (runLane2 s g 0x22 (fun w a b => ofB (ltS (iSgn w) a b)))

/-- CMPLE (R219). -/
def execCmple (g : Nat) (s : State) : Res := .next (runLane2 s g 0x23 (fun w a b => ofB (!ltS (iSgn w) b a)))

/-- SEL (R219). -/
def execSel (g : Nat) (s : State) : Res := .next (runPure s g 0x24 (fun p w => opSel (srcA p w) (srcB p w) (srcC p w)))

/-- ISNULL (R219): the mask is 0xFF. -/
def execIsnull (g : Nat) (s : State) : Res := .next (runPure s g 0x25 (fun p w => Lanes.ofFn (fun i => some (ofB ((srcA p w).get i).isNone))))

/-- MERGE (R219). -/
def execMerge (g : Nat) (s : State) : Res := .next (runPure s g 0x26 (fun p w => Lanes.ofFn (fun i => ((srcA p w).get i).or ((srcB p w).get i))))

/-- KEEP (R219). -/
def execKeep (g : Nat) (s : State) : Res := .next (runPure s g 0x27 (fun p w => Lanes.ofFn (fun i => if nonzero ((srcC p w).get i) then (srcA p w).get i else none)))

/-- DROP (R219). -/
def execDrop (g : Nat) (s : State) : Res := .next (runPure s g 0x28 (fun p w => Lanes.ofFn (fun i => if nonzero ((srcC p w).get i) then none else (srcA p w).get i)))

/-- RSUM (R220): the exact sum, then R218 once. -/
def execRsum (g : Nat) (s : State) : Res := .next (runRed s g 0x30 (fun w xs => if xs.isEmpty then none else some (narrow (iSat w) (iSgn w) (xs.foldl (fun t x => t + ival (iSgn w) x) 0))))

/-- RMIN (R220). -/
def execRmin (g : Nat) (s : State) : Res := .next (runRed s g 0x31 (fun w xs => bestOf (fun y x => ltS (iSgn w) y x) xs))

/-- RMAX (R220). -/
def execRmax (g : Nat) (s : State) : Res := .next (runRed s g 0x32 (fun w xs => bestOf (fun y x => ltS (iSgn w) x y) xs))

/-- RCNT (R220). -/
def execRcnt (g : Nat) (s : State) : Res := .next (runRed s g 0x33 (fun _ xs => num xs.length))

/-- ROR (R220). -/
def execRor (g : Nat) (s : State) : Res := .next (runRed s g 0x34 (fun _ xs => if xs.isEmpty then none else some (xs.foldl (fun t x => t ||| x) 0)))

/-- RFIRST (R220). -/
def execRfirst (g : Nat) (s : State) : Res := .next (runRed s g 0x35 (fun _ xs => xs.head?))

/-- RLAST (R220). -/
def execRlast (g : Nat) (s : State) : Res := .next (runRed s g 0x36 (fun _ xs => xs.getLast?))

/-- FADD32 (R221, R222). -/
def execFadd32 (g : Nat) (s : State) : Res := .next (runLane2 s g 0x40 (fun _ a b => fadd f32 a b))

/-- FADD64 (R221, R222). -/
def execFadd64 (g : Nat) (s : State) : Res := .next (runLane2 s g 0x41 (fun _ a b => fadd f64 a b))

/-- FSUB32 (R221, R222). -/
def execFsub32 (g : Nat) (s : State) : Res := .next (runLane2 s g 0x42 (fun _ a b => fsub f32 a b))

/-- FSUB64 (R221, R222). -/
def execFsub64 (g : Nat) (s : State) : Res := .next (runLane2 s g 0x43 (fun _ a b => fsub f64 a b))

/-- FCMP32 (R223). -/
def execFcmp32 (g : Nat) (s : State) : Res := .next (runLane2 s g 0x44 (fun w a b => fcmp f32 (bits (iImm w) 0 3) a b))

/-- FCMP64 (R223). -/
def execFcmp64 (g : Nat) (s : State) : Res := .next (runLane2 s g 0x45 (fun w a b => fcmp f64 (bits (iImm w) 0 3) a b))

/-- FKEY32 (R224). -/
def execFkey32 (g : Nat) (s : State) : Res := .next (runLane1 s g 0x46 (fun _ a => fkeyOf f32 a))

/-- FKEY64 (R224). -/
def execFkey64 (g : Nat) (s : State) : Res := .next (runLane1 s g 0x47 (fun _ a => fkeyOf f64 a))

/-- SHUF (R225). -/
def execShuf (g : Nat) (s : State) : Res := .next (runPure s g 0x60 (fun p w => opShuf (srcA p w) (srcB p w)))

/-- COMPACT (R225). -/
def execCompact (g : Nat) (s : State) : Res := .next (runPure s g 0x61 (fun p w => opCompact (srcA p w)))

/-- BCAST (R225). -/
def execBcast (g : Nat) (s : State) : Res := .next (runPure s g 0x62 (fun p w => let x := (srcA p w).get (bits (iImm w) 0 3); Lanes.ofFn (fun _ => x)))

/-- TAGF (R225). -/
def execTagf (g : Nat) (s : State) : Res := .next (runPure s g 0x63 (fun p w => opTagf (p.operand (iA w - 8))))

/-- LD (R226). -/
def execLd (g : Nat) (s : State) : Res := .next (runInstr s g 0x70 (fun s p w => let r := bankOp g p w false false (fun o _ => o) s; (r.1, some (Lanes.ofList r.2))))

/-- ST (R226). -/
def execSt (g : Nat) (s : State) : Res := .next (runInstr s g 0x71 (fun s p w => ((bankOp g p w true true (fun _ b => b) s).1, none)))

/-- UPD (R226, R227). -/
def execUpd (g : Nat) (s : State) : Res := .next (runInstr s g 0x72 (fun s p w => let r := bankOp g p w true true (updOp (iC w)) s; (r.1, some (Lanes.ofList r.2))))

/-- EMIT (R236). -/
def execEmit (g : Nat) (s : State) : Res := .next (runInstr s g 0x7C (fun s p w => (emitPort s g p w, none)))

/-- EMITD (R237). -/
def execEmitd (g : Nat) (s : State) : Res := .next (runInstr s g 0x7D (fun s p w => (emitDie s g p w, none)))

end Sys2Proof.Machine
end

