-- ==== Sys2Proof/Machine/Sched.lean ====
section
/-! DEFINITION. Task scheduling and readiness (07_scheduler.md), the matching store (R245 to R250), the travel of tokens
(R241 to R244, R312 to R314), the sort units (R286 to R288) and the end of contexts (R318, R319, R620), with their
commands. ROUTE_COPY_SEND is in Machine/Requests.lean. -/

namespace Sys2Proof.Machine

/-! ### Ready lists, matching stores, input queues -/

/-- The ready list of a tile. -/
def readyOf (s : State) (tile : Nat) : List Task := Tbl.getD s.fab.ready tile []

/-- The levels of the tasks of a list, as a mask. -/
def levelMask (ts : List Task) : Nat := bitSet ((List.range 16).filter (fun l => ts.any (fun t => t.level == l)))

/-- The ready list of a tile replaced, with its counters. -/
def setReady (s : State) (tile : Nat) (ts : List Task) : State :=
  let o := tileO tile
  let s := modFab s (fun b => { b with ready := if ts.isEmpty then Tbl.del tile b.ready else Tbl.put tile ts b.ready })
  let s := maxF (setF s F.SCH_TILE_DEPTH_READY o ts.length) F.SCH_TILE_DEPTH_READY_HIGH o ts.length
  setF s F.SCH_TILE_LEVELS_NONEMPTY o (levelMask ts)

/-- The matching store of a tile. -/
def storeOf (s : State) (tile : Nat) : List MatchEnt := Tbl.getD s.fab.store tile []

/-- The matching store of a tile replaced, with its counters. -/
def setStore (s : State) (tile : Nat) (es : List MatchEnt) : State :=
  let o := tileO tile
  let s := modFab s (fun b => { b with store := if es.isEmpty then Tbl.del tile b.store else Tbl.put tile es b.store })
  maxF (setF s F.FAB_TILE_MATCH_IN_USE o es.length) F.FAB_TILE_MATCH_HIGH_WATER o es.length

/-- An input queue replaced. -/
def setQueue (s : State) (tile trav : Nat) (q : List QTok) : State :=
  let d := (inQueue s tile trav).length
  let o := tileO tile
  let k := queueKey tile trav
  let s := modFab s (fun b => { b with inQ := if q.isEmpty then Tbl.del k b.inQ else Tbl.put k q b.inQ })
  setF s F.SCH_TILE_DEPTH_QUEUED o (getF s F.SCH_TILE_DEPTH_QUEUED o + q.length - d)

/-- Matching entries that a traverse may hold on a tile (R171, R245). -/
def rangeEntries (s : State) (tile trav : Nat) : Nat :=
  match activeTrav s trav with
  | some (p, _) => ((p.layouts.filter (fun l => l.trav == trav && (l.tile == tile ||
      (pairLive s (tile / 128) && l.tile % 64 == tile % 64 && l.tile / 128 == tile / 128)))).map (·.entries)).foldl (· + ·) 0
  | none => 0

/-- The level of a traverse's tasks (R306). -/
def levelOf (s : State) (trav : Nat) : Nat := ((activeTrav s trav).map (fun pv => pv.2.prio)).getD 0

/-- Whether a ready list has a place for a task of cell `g` (R304, R305). -/
def readyRoom (s : State) (g : Nat) : Bool :=
  let ts := readyOf s (tileOfCell g)
  decide (ts.length < 1024) && decide ((ts.filter (fun t => t.cell == g)).length < 64)

/-- A task of cell `g` enters the ready list (R246). -/
def addTask (s : State) (g trav : Nat) (toks : List Token) : State :=
  setReady s (tileOfCell g) (readyOf s (tileOfCell g) ++ [⟨g, toks, levelOf s trav, s.now⟩])

/-! ### Sort units (R286 to R288) -/

/-- The SORT or TOPK node of a cell. -/
def sortNode (s : State) (g : Nat) : Option (Plat × Trav × Node) :=
  (cellOwner s g).bind (fun o => if o.2.2.op == opSort || o.2.2.op == opTopk then some o else none)

/-- The producer and the destination cell of every route that names a cell of a node: an END token comes over each (R264). -/
def nodeSources (p : Plat) (t : Nat) (n : Node) : List (Nat × Nat) :=
  (p.routes.filter (fun r => r.trav == t)).flatMap (fun r =>
    if r.kind = 0 then (if n.hasCell r.dst then [(r.src, r.dst)] else [])
    else if r.kind = 1 then
      ((List.range 8).filter (fun d => bits r.dieMask d 1 == 1 && n.hasCell (d * 4096 + r.dst))).map (fun d => (r.src, d * 4096 + r.dst))
    else [])

/-- Whether END tokens have come over every route of a list: as many from a producer at a cell as it has routes there. -/
def allEnded (routes ends : List (Nat × Nat)) : Bool := routes.all (fun r => decide (routes.count r ≤ ends.count r))

/-- Offset of sort unit `u` of die `d`. -/
def sortO (d u : Nat) : Nat := dieO d + u * 8

/-- UNITS of a SORT or TOPK node (R266). -/
def sortUnits (n : Node) : Nat := max 1 (byteAt n.param 2)

/-- The free sort units of a die take a job: the lowest UNITS of them. -/
def takeUnits (s : State) (d n trav : Nat) : State :=
  (((List.range 4).filter (fun u => !isSet s F.FAB_SORT_STAT_BUSY (sortO d u))).take n).foldl
    (fun s u => setF (setF s F.FAB_SORT_STAT_BUSY (sortO d u) 1) F.FAB_SORT_STAT_TRAVERSE (sortO d u) trav) s

/-- The units that hold a job of a traverse give it up, `keys` merged among them in turn. -/
def freeUnits (s : State) (d n trav keys : Nat) (done : Bool) : State :=
  let us := ((List.range 4).filter (fun u => isSet s F.FAB_SORT_STAT_BUSY (sortO d u) &&
    getF s F.FAB_SORT_STAT_TRAVERSE (sortO d u) == trav)).take n
  let k := us.length
  (us.zipIdx).foldl (fun s ui =>
    let s := setF s F.FAB_SORT_STAT_BUSY (sortO d ui.1) 0
    if done then addF (addF s F.FAB_SORT_STAT_KEYS (sortO d ui.1) ((keys + k - 1 - ui.2) / k)) F.FAB_SORT_STAT_JOBS (sortO d ui.1) 1
    else s) s

/-- The contents of a stack SRAM region become undefined: a SORT node keeps its rows there as 16-byte records (R287), and the
spec gives neither their place nor their form (log entry 79). -/
def undefRegion (s : State) (p : Plat) (region : Nat) : State :=
  (p.parts.filter (fun r => r.kind == 1 && r.region == region)).foldl (fun s r =>
    (mirrorDies s r.die).foldl (fun s d =>
      mkUndef s 1 (d * 2 ^ 30 + r.first * 2 ^ 26) (d * 2 ^ 30 + (r.first + r.count) * 2 ^ 26 - 1)) s) s

/-- A token from `src` reaches a cell of a SORT or TOPK node: a row joins the job (payload null as 0, order word null as
0xFFFF_FFFF, R268, R286), an END is kept with the route it came over. -/
def sortTake (s : State) (g src : Nat) (p : Plat) (n : Node) (t : Token) : State :=
  let f := nodeFirst s g n
  let s := if t.kind = .control then s else undefRegion s p n.region
  let old := s.fab.sorts.find? (fun j => j.trav == t.trav && j.ctx == t.ctx && j.first == f)
  let s := if old.isNone then takeUnits s (f / 4096) (sortUnits n) t.trav else s
  let j := old.getD ⟨t.trav, t.ctx, f, [], [], false, none⟩
  let row := (t.lanes.get 0, (laneVal (t.lanes.get 1)).toNat % 2 ^ 32,
    ((t.lanes.get 2).map (fun x => x.toNat % 2 ^ 32)).getD (2 ^ 32 - 1), t.acc)
  let j' : SortJob :=
    if t.kind = .control then (if t.sub = 4 then { j with ends := (homeCell s src, homeCell s g) :: j.ends, fin := some t } else j)
    else { j with rows := j.rows ++ [row], poisoned := j.poisoned || t.kind == .poisoned }
  modFab s (fun b => { b with sorts := b.sorts.filter (fun k => !(k.trav == t.trav && k.ctx == t.ctx && k.first == f)) ++ [j'] })

/-- The unsigned number by whose order keys of a TYPE are sorted (R286). -/
def sortKey (type : Nat) (x : W64) : Nat :=
  match type with
  | 1 => (x ^^^ 0x8000000000000000#64).toNat
  | 2 => (fkeyOf f32 x).toNat
  | 3 => (fkeyOf f64 x).toNat
  | _ => x.toNat

/-- The order of two rows (R286). -/
def sortLe (n : Node) (a b : Lane × Nat × Nat × Nat) : Bool :=
  let fl := byteAt n.param 1
  match a.1, b.1 with
  | none, none => decide (a.2.2.1 ≤ b.2.2.1)
  | none, some _ => bits fl 1 1 == 1
  | some _, none => bits fl 1 1 == 0
  | some x, some y =>
    let p := sortKey (byteAt n.param 0) x
    let q := sortKey (byteAt n.param 0) y
    if p = q then decide (a.2.2.1 ≤ b.2.2.1) else if bits fl 0 1 = 1 then decide (q < p) else decide (p < q)

/-- Bytes of a stack SRAM region of a plat: 64 MiB a slice. -/
def sramRegionBytes (p : Plat) (region : Nat) : Nat :=
  (p.parts.filter (fun r => r.kind == 1 && r.region == region)).foldl (fun n r => n + r.count * 2 ^ 26) 0

/-- A token of the sort units leaves on every output port of the node's first cell. -/
def sortEmit (s : State) (f : Nat) (t : Token) : State :=
  (List.range 4).foldl (fun s port =>
    let ds := (cellRoutes s f port).filterMap (routeDest s f)
    if ds.isEmpty then s else pushOut s (sortSrc f) ⟨s.now, .copies t ds⟩) s

/-- SORT_MERGE_DONE (R287, R288): the rows of an invocation leave in order, then END follows (R264). More rows than the
region holds complete the invocation ERROR with SORT_CAPACITY. -/
def sortMergeDone (s : State) (inv first : Nat) : State :=
  let ctx := ctxInv inv
  match s.fab.sorts.find? (fun j => j.ctx == ctx && j.first == first), sortNode s first with
  | some j, some (p, v, n) =>
    if !j.ends.isEmpty && allEnded (nodeSources p v.num n) j.ends then
      let s := modFab s (fun b => { b with sorts := b.sorts.filter (fun k => !(k.ctx == ctx && k.first == first)) })
      let s := freeUnits s (first / 4096) (sortUnits n) v.num j.rows.length true
      let excess := n.op == opSort && decide (sramRegionBytes p n.region / 16 < j.rows.length)
      let s := if excess then markFail s v.num ctx stError 0x0622 else s
      let sorted := sortBy (sortLe n) j.rows
      let rows := if excess then [] else if n.op = opTopk then sorted.take (fld n.param 4 4) else sorted
      let acc := j.rows.foldl (fun m r => laterAcc m r.2.2.2) ((j.fin.map (·.acc)).getD (wall s % 2 ^ 32))
      let kind : TKind := if j.poisoned then .poisoned else .data
      let s := rows.zipIdx.foldl (fun s r =>
        let lanes := Lanes.ofList [r.1.1, num r.1.2.1, num r.1.2.2.1]
        let t : Token := ⟨v.num, 0, kind, ctx, r.2 % 2 ^ 24, lanes, acc⟩
        sortEmit s first t) s
      match j.fin with
      | some t => sortEmit s first { t with slot := 0, acc := acc }
      | none => s
    else s
  | _, _ => s

def execSortMergeDone (inv first : Nat) (s : State) : Res := .next (sortMergeDone s inv first)

/-! ### The buffer of a JOIN_ASOF node (R279, R280, R311) -/

/-- BUFFER_ROWS of a JOIN_ASOF node (R266). -/
def bufferRows (n : Node) : Nat := fld n.param 4 4

/-- The buffer of a JOIN_ASOF node as it runs for a traverse. -/
def asofOf (s : State) (f trav : Nat) : AsofBuf :=
  (s.fab.asof.find? (fun b => b.first == f && b.trav == trav)).getD ⟨f, trav, [], 0, []⟩

/-- A node's buffer replaced. -/
def setAsof (s : State) (x : AsofBuf) : State :=
  modFab s (fun b => { b with asof := b.asof.filter (fun y => !(y.first == x.first && y.trav == x.trav)) ++ [x] })

/-- Whether a token is a row that comes to a node from outside it. -/
def newRow (s : State) (n : Node) (src : Nat) (t : Token) : Bool := t.kind != .control && !(isCell src && n.hasCell (homeCell s src))

/-- Whether a JOIN_ASOF node refuses a row: its buffer is full, and the row is not late (R279, R280). -/
def asofRefuses (s : State) (g src : Nat) (n : Node) (t : Token) : Bool :=
  let b := asofOf s (nodeFirst s g n) t.trav
  newRow s n src t && decide (b.hzn ≤ (laneVal (t.lanes.get 0)).toNat ∧ bufferRows n ≤ b.rows.length)

/-- A JOIN_ASOF node has taken a token: a row that is not late enters its buffer, a HORIZON token with value v releases the rows
stamped below v, and the END tokens of an invocation release its rows (R279). -/
def asofTake (s : State) (g src : Nat) (p : Plat) (n : Node) (t : Token) : State :=
  let b := asofOf s (nodeFirst s g n) t.trav
  let v := (laneVal (t.lanes.get 0)).toNat
  if t.kind ≠ .control then
    (if newRow s n src t && decide (b.hzn ≤ v) then setAsof s { b with rows := b.rows ++ [(t.ctx, v)] } else s)
  else if t.sub = 3 then setAsof s { b with rows := b.rows.filter (fun r => decide (v ≤ r.2)), hzn := max b.hzn v }
  else if t.sub = 4 then
    let ends := (t.ctx, homeCell s src, homeCell s g) :: b.ends
    let mine := (ends.filter (fun e => e.1 == t.ctx)).map (fun e => e.2)
    if allEnded (nodeSources p t.trav n) mine then
      setAsof s { b with rows := b.rows.filter (fun r => r.1 != t.ctx), ends := ends.filter (fun e => e.1 != t.ctx) }
    else setAsof s { b with ends := ends }
  else s

/-! ### The matching store (R246 to R250) -/

/-- The head of an input queue has been taken. -/
def popQueue (s : State) (tile trav : Nat) : State := setQueue s tile trav ((inQueue s tile trav).drop 1)

/-- A token joins the matching store: the tile counts it. -/
def countIn (s : State) (tile : Nat) : State := addF s F.FAB_TILE_TOK_TOKENS_IN (tileO tile) 1

/-- The head token's wait for a free entry is counted once (R248). -/
def countWait (s : State) (tile trav : Nat) : State :=
  match inQueue s tile trav with
  | h :: t =>
    if h.waited then s
    else satF (setQueue s tile trav ({ h with waited := true } :: t)) F.FAB_TILE_MATCH_FULL_WAITS (tileO tile) 1
  | [] => s

/-- A second token for a filled slot (R247). -/
def dupSlot (s : State) (tile : Nat) (t : Token) : State :=
  let s := satF s F.FAB_TILE_ERR_DUP_OPERAND (tileO tile) 1
  markFail (raise s F.FAB_EVENT_DUP_OPERAND (dieO (tile / 64))) t.trav t.ctx stError 0x0601

/-- Whether an entry of a matching store is for a token's cell and key (R246). -/
def MatchEnt.fits (e : MatchEnt) (g : Nat) (t : Token) : Bool :=
  e.cell == g && e.trav == t.trav && e.ctx == t.ctx && e.seq == t.seq

/-- A token is looked up in its traverse's range (R246 steps 2 to 5, R247, R248). -/
def matchToken (s : State) (tile : Nat) (g : Nat) (t : Token) : State :=
  let st := storeOf s tile
  match findIdx (fun e => e.fits g t) st with
  | some i =>
    match st[i]? with
    | some e =>
      if e.toks.any (fun k => k.slot == t.slot) then dupSlot (popQueue s tile t.trav) tile t
      else
        let toks := e.toks ++ [t]
        if (requiredSlots s g).all (fun x => toks.any (fun k => k.slot == x)) then
          if readyRoom s g then
            addTask (setStore (countIn (popQueue s tile t.trav) tile) tile (dropAt st i)) g t.trav toks
          else s
        else setStore (countIn (popQueue s tile t.trav) tile) tile (modAt (fun e => { e with toks := toks }) st i)
    | none => s
  | none =>
    if (st.filter (fun e => e.trav == t.trav)).length < rangeEntries s tile t.trav then
      setStore (countIn (popQueue s tile t.trav) tile) tile (st ++ [⟨g, t.trav, t.ctx, t.seq, [t]⟩])
    else countWait s tile t.trav

/-- What a node notes of a token that it has taken: a probe row of a join begins its matches anew (R276), and a JOIN_ASOF node
follows its buffer. -/
def nodeTake (s : State) (g src : Nat) (t : Token) : State :=
  match cellOwner s g with
  | some (p, _, n) =>
    if n.op = opAsof then asofTake s g src p n t
    else if (n.op = 9 ∨ n.op = 12) ∧ newRow s n src t = true then setMatches s (nodeFirst s g n) t 0
    else s
  | none => s

/-- Whether the node of a cell refuses a row (R311). -/
def nodeRefuses (s : State) (g src : Nat) (t : Token) : Bool :=
  match cellOwner s g with
  | some (_, _, n) => n.op == opAsof && asofRefuses s g src n t
  | none => false

/-- The head token of a queue makes a task or goes to the matching store, if there is a place (R246, R248, R305). -/
def takeHead (s : State) (tile : Nat) (h : QTok) : State :=
  let t := h.tok
  if t.kind == .control || (requiredSlots s h.dst).length ≤ 1 then
    if readyRoom s h.dst then addTask (countIn (popQueue s tile t.trav) tile) h.dst t.trav [t] else s
  else matchToken s tile h.dst t

/-- TOKEN_MATCH (R246): the token at the head of the tile's queue of a traverse. A token of a removed traverse or a freed
context is discarded and counted in ORPHANED (R192, R250); one of a squashed context is discarded (R318). A row that its node
refuses stays (R311). -/
def tokenMatch (s : State) (tile trav : Nat) : State :=
  match inQueue s tile trav with
  | [] => s
  | h :: _ =>
    let t := h.tok
    if (activeTrav s trav).isNone then countOrphan (popQueue s tile trav) tile 1
    else if deadCtx s trav t.ctx then
      if ctxKind t.ctx = 1 then popQueue s tile trav else countOrphan (popQueue s tile trav) tile 1
    else
      match sortNode s h.dst with
      | some (p, _, n) => sortTake (countIn (popQueue s tile trav) tile) h.dst h.src p n t
      | none =>
        if nodeRefuses s h.dst h.src t then s
        else
          let s' := takeHead s tile h
          if (inQueue s' tile trav).length < (inQueue s tile trav).length then nodeTake s' h.dst h.src t else s'

def execTokenMatch (tile trav : Nat) (s : State) : Res := .next (tokenMatch s tile trav)

/-- HOLD_STALL (R317): the head of a queue has waited STALL_LIMIT fc; reported once for each hold. -/
def holdStall (s : State) (tile trav : Nat) : State :=
  match inQueue s tile trav with
  | h :: t =>
    if h.stalled || getF s F.SCH_CTL_STALL_LIMIT (dieO (tile / 64)) == 0 then s
    else
      let o := dieO (tile / 64)
      let s := setQueue s tile trav ({ h with stalled := true } :: t)
      let s := raise s F.SCH_EVENT_HOLD_STALL o
      let s := setF (setF s F.SCH_STALL_TILE o (tile % 64)) F.SCH_STALL_TRAVERSE o trav
      let s := satF s F.SCH_STALL_STALLS o 1
      logC s (tile / 64) rsnNotice fnNone tile trav
  | [] => s

def execHoldStall (tile trav : Nat) (s : State) : Res := .next (holdStall s tile trav)

/-! ### Dispatch (R306 to R309) -/

/-- Whether a ready task may be dispatched (R307): it entered the ready list in an earlier fc, its cell is idle, it is the cell's oldest, the output buffer has NINSTR
free entries, and neither an epoch switch, FAB_CTL, a package halt (R470) nor a quiesce (R566) holds the die. -/
def eligible (s : State) (tile : Nat) (t : Task) : Bool :=
  !halted s && !isSet s F.CLK_HP_QUIESCE 0 && fabOn s (tile / 64) && !s.bmk.held.contains (tile / 64) && (Tbl.get? t.cell s.fab.passes).isNone &&
  ((readyOf s tile).find? (fun u => u.cell == t.cell)) == some t && decide (t.entered < s.now) &&
  decide ((outOf s t.cell).length + (cellCode s t.cell).length ≤ 64)

/-- The order of R307: descending level, ascending fc of entry, ascending cell. -/
def dispatchLe (a b : Task) : Bool :=
  decide (b.level < a.level) || (a.level == b.level && (decide (a.entered < b.entered) ||
    (a.entered == b.entered && decide (a.cell ≤ b.cell))))

/-- The waiting-time bin (R320). -/
def waitBin (w : Nat) : Nat := if w ≤ 1 then 0 else min 15 (Nat.log2 (w - 1) + 1)

/-- One task is dispatched, with its counters (R307, R320). -/
def dispatch (s : State) (tile : Nat) (t : Task) : State :=
  let o := tileO tile
  let ts := readyOf s tile
  let s := setReady s tile (match findIdx (· == t) ts with
    | some i => dropAt ts i
    | none => ts)
  let s := addF s F.SCH_TILE_DISP_DISPATCHED o 1
  let s := if isSet s F.SCH_TILE_HCFG_ALL o || getF s F.SCH_TILE_HCFG_LEVEL o == t.level then
      addF s F.SCH_TILE_WAIT_COUNT (o + waitBin (s.now - t.entered) * 8) 1 else s
  let s := if t.poisoned then
      raise (satF s F.FAB_TILE_ERR2_POISONED o 1) F.FAB_EVENT_POISONED (dieO (tile / 64)) else s
  modFab s (fun b => { b with passes := Tbl.put t.cell ⟨t, [], 0, false, s.now⟩ b.passes })

/-- The tasks of a tile that may be dispatched now: of equal tasks of a cell one. -/
def dispatchable (s : State) (tile : Nat) : List Task :=
  ((readyOf s tile).filter (eligible s tile)).foldl (fun l t => if l.contains t then l else l ++ [t]) []

/-- The tasks that a tile has dispatched in this fc. -/
def dispatchedNow (s : State) (tile : Nat) : Nat :=
  (s.fab.passes.filter (fun e => e.1 / 64 == tile && e.2.start == s.now)).length

/-- TASK_DISPATCH (R307): up to 8 eligible tasks of a tile in an fc. -/
def taskDispatch (s : State) (tile : Nat) : State :=
  ((sortBy dispatchLe (dispatchable s tile)).take (8 - dispatchedNow s tile)).foldl (fun s t => dispatch s tile t) s

def execTaskDispatch (tile : Nat) (s : State) : Res := .next (taskDispatch s tile)

/-! ### Chain edges (R34, R35, R63, R561) -/

/-- A message cannot be delivered (R63, R244): the edge counts it and the producing die marks the context failed. -/
def undeliverable (s : State) (d : Nat) (e : Nat × Nat) (t : Token) : State :=
  let s := dropAtEdge s e
  markFail (raise s F.FAB_EVENT_UNDELIVERABLE (dieO d)) t.trav t.ctx stError 0x0605

/-- The mark of a poisoned row (R367): the first of each traverse in each epoch is logged for its source stream too, in the entry
of R621 when it is the stream's first failure. -/
def markPoison (s : State) (trav ctx : Nat) : State :=
  if ctxKind ctx ≠ 0 then markFail s trav ctx stMemFault 0x0901
  else
    let ep := getF s F.BMK_EPOCH_EPOCH 0
    let again := (markOf s trav ctx).any (fun f => f.epoch == ep) && Tbl.get? trav s.fab.poisonEp != some ep
    let s := markFail s trav ctx stMemFault 0x0901
    let s := if again then logCtx s trav ctx stMemFault 0x0901 else s
    modFab s (fun b => { b with poisonEp := Tbl.put trav ep b.poisonEp })

/-! ### Copies in output buffers (R312 to R314) -/

/-- Whether a copy of a producer's entry waits for the input queue of a tile and a traverse. -/
def wants (e : OutEnt) (tile trav : Nat) : Bool :=
  match e.work with
  | .copies t ds => t.trav == trav && ds.any (fun d => match d with
      | .cell g _ => g / 64 == tile
      | _ => false)
  | _ => false

/-- The rank of a waiting copy or message: emission fc, then the producer's global number, in which cells come before heads
(R312). -/
def rank (fc src i : Nat) : Nat × Nat × Nat := (fc, src, i)

/-- One rank comes before another. -/
def before (a b : Nat × Nat × Nat) : Bool :=
  decide (a.1 < b.1) || (a.1 == b.1 && (decide (a.2.1 < b.2.1) || (a.2.1 == b.2.1 && decide (a.2.2 < b.2.2))))

/-- Whether nothing that waits for the queue of (tile, trav) comes before `r`: the place goes to the oldest emission, then
to the lower producer (R312). -/
def firstFor (s : State) (tile trav : Nat) (r : Nat × Nat × Nat) : Bool :=
  s.fab.outb.all (fun e => e.2.zipIdx.all (fun x => !(wants x.1 tile trav && before (rank x.1.fc e.1 x.2) r))) &&
  (Tbl.getD s.fab.chainRx (tile / 64) []).zipIdx.all (fun x =>
    !(x.1.tok.trav == trav && (tile / 64 * 4096 + x.1.dst) / 64 == tile && before (rank x.1.fc x.1.src x.2) r))

/-- Whether a traverse's tokens of splitters are still on their way, accepted no later than fc `f` (R86): a slice's token
waits behind them. -/
def splitterBusy (s : State) (trav f : Nat) : Bool :=
  s.fab.outb.any (fun e => decide (0x10000 ≤ e.1 ∧ e.1 < 0x20000) && e.2.any (fun x => decide (x.fc ≤ f) &&
    (match x.work with
     | .copies t _ => t.trav == trav
     | _ => false))) ||
  s.fab.chainRx.any (fun e => e.2.any (fun m => decide (0x10000 ≤ m.src ∧ m.src < 0x20000) && m.tok.trav == trav && decide (m.fc ≤ f))) ||
  s.twn.gate.any (fun g => decide (0x10000 ≤ g.src ∧ g.src < 0x20000) && g.tok.trav == trav)

/-- The result queues of a collector. -/
def collOf (s : State) (tile : Nat) : List CollQ := Tbl.getD s.dst.colls tile []

/-- The rows of a queue. -/
def CollQ.rows (q : CollQ) : Nat := (q.items.filter (fun i => match i with
  | .row _ => true
  | .mark _ => false)).length

/-- RESULTS of a traverse: the depth of each queue at its collector (R174, R337). -/
def resultsOf (s : State) (trav : Nat) : Nat :=
  ((activeTrav s trav).bind (fun pv => pv.1.certs.find? (fun c => c.trav == trav))).elim 1 (·.results)

/-- The EMIT node's PARAM of a cell. -/
def emitParam (s : State) (g : Nat) : Bytes := ((cellOwner s g).map (fun o => o.2.2.param)).getD []

/-- The rows of a collector. -/
def collRows (s : State) (tile : Nat) : List Result :=
  (collOf s tile).flatMap (fun q => q.items.filterMap (fun x => match x with
    | .row r => some r
    | .mark _ => none))

/-- A token reaches a collector from cell `g`: a row takes a place of its queue, a control token becomes a mark (R337); the largest
occupancy is shown (R347). -/
def collPut (s : State) (tile g : Nat) (t : Token) : State :=
  let qs := collOf s tile
  let it : CollItem := if t.kind = .control then .mark t else
    .row ⟨t.trav, t.ctx, t.seq, g, t.lanes, t.kind == .poisoned, t.acc, emitParam s g, tile / 64, none, 0, wall s, 0⟩
  let qs := match findIdx (fun q => q.trav == t.trav && q.cell == g) qs with
    | some i => modAt (fun q => { q with items := q.items ++ [it] }) qs i
    | none => insertBy (fun a b => decide (a.cell ≤ b.cell)) ⟨t.trav, g, [it]⟩ qs
  let s := { s with dst := { s.dst with colls := Tbl.put tile qs s.dst.colls } }
  maxF s F.GNT_COLL_OCC_HIGH (tile * 8) (collRows s tile).length

/-- Whether a collector's queue has a place for a token (R314). -/
def collRoom (s : State) (tile g : Nat) (t : Token) : Bool :=
  t.kind == .control || decide ((((collOf s tile).find? (fun q => q.trav == t.trav && q.cell == g)).elim 0 CollQ.rows) <
    resultsOf s t.trav)

/-- The Chain token message as its 96 bytes (R243). -/
def ChainMsg.bytes (m : ChainMsg) : Bytes :=
  leBytes 1 m.mask ++ [0] ++ leBytes 2 m.dst ++ leBytes 1 (dieOfSrc m.src) ++ leBytes 3 0 ++ leBytes 8 m.tok.tag ++
  (List.range 8).flatMap (fun i => leBytes 8 (laneVal (m.tok.lanes.get i)).toNat) ++ leBytes 1 m.tok.lanes.mask ++ leBytes 15 0

/-- A Chain token message reaches a die's receive buffer (R313). -/
def chainPut (s : State) (d : Nat) (m : ChainMsg) : State :=
  modFab s (fun b => { b with chainRx := Tbl.put d (Tbl.getD b.chainRx d [] ++ [m]) b.chainRx })

/-- Room in a die's Chain receive buffer: 512 messages (R313). -/
def chainRoom (s : State) (d : Nat) : Bool := decide ((Tbl.getD s.fab.chainRx d []).length < 512)

/-- Whether every die on the way from `a` to `b` gives token-class credit (R313): a die with a full buffer withholds it from
messages that it would forward too. -/
def chainPath (s : State) (a b : Nat) : Bool := (routeDies a b).all (fun d => d == a || chainRoom s d)

/-- A message goes out to the dies `ds` (R243): one message over the tree, which a lost edge drops once (R63, R244), which a die
held in reset drops (R528) and which stays for a die that gives no credit (R313). The dies that still wait for it. -/
def chainSend (s : State) (src : Nat) (m : ChainMsg) (ds : List Nat) : State × List Nat :=
  let sd := dieOfSrc src
  let go := ds.filter (fun d => reaches s sd d && dieUp s d)
  let s' := (lostEdges s sd ds).foldl (fun s e => undeliverable s sd e m.tok) s
  ((go.filter (chainPath s sd)).foldl (fun s d => chainPut s d m) s', go.filter (fun d => !chainPath s sd d))

/-- The dies of a mask. -/
def diesOf (mask : Nat) : List Nat := (List.range 8).filter (fun d => bits mask d 1 == 1)

/-- What is left of a destination after sending: `none` when the copy is delivered or given up. -/
def sendOne (s : State) (src i : Nat) (fc : Nat) (t : Token) (d : Dest) : State × Option Dest :=
  let sd := dieOfSrc src
  match d with
  | .cell g slot =>
    let tile := tileOfCell g
    let k := { t with slot := slot }
    if g / 4096 = sd then
      if hasRoom s tile t.trav && firstFor s tile t.trav (rank fc src i) then
        (if 0x10000 ≤ src ∧ src < 0x30000 then arrive s g src k else enqueue s g src k, none)
      else (s, some d)
    else
      let r := chainSend s src ⟨2 ^ (g / 4096), g % 4096, k, src, fc, false⟩ [g / 4096]
      (r.1, if r.2.isEmpty then none else some d)
  | .die mask dst slot bc =>
    let r := chainSend s src ⟨mask, dst, { t with slot := slot }, src, fc, bc⟩ (diesOf mask)
    (r.1, if r.2.isEmpty then none else some (.die (bitSet r.2) dst slot bc))
  | .collector tile =>
    match lostTo s sd (tile / 64) with
    | some e => (undeliverable s sd e t, none)
    | none =>
      if dieUp s (tile / 64) = false then (s, none)
      else if collRoom s tile src t then (collPut s tile src t, none) else (s, some d)
  | .federation _ _ => (s, some d)

/-- Whether two destinations have a cell or collector in common. -/
def Dest.meets (d e : Dest) : Bool :=
  match d, e with
  | .cell g _, .cell h _ => g == h
  | .cell g _, .die m x _ _ => bits m (g / 4096) 1 == 1 && g % 4096 == x
  | .die m x _ _, .cell g _ => bits m (g / 4096) 1 == 1 && g % 4096 == x
  | .die m x _ _, .die n y _ _ => m &&& n != 0 && x == y
  | .collector a, .collector b => a == b
  | .federation a b, .federation c e => a == c && b == e
  | _, _ => false

/-- Copy `j` of entry `i` of a producer is sent (R312); an entry without copies is freed. A token of a slice waits behind
the splitters' tokens of its traverse (R86). The copies of one port travel in order (R242): an earlier entry for a common
destination goes first. -/
def sendCopy (s : State) (src i j : Nat) : State :=
  match (outOf s src)[i]? with
  | some ⟨fc, .copies t ds⟩ =>
    let ahead := ((outOf s src).take i).any (fun e => match e.work with
      | .copies u es => u.trav == t.trav && (ds[j]?).any (fun d => es.any (Dest.meets d))
      | _ => false)
    if ahead || (isSlice src && splitterBusy s t.trav fc) then s
    else match ds[j]? with
      | some d =>
        let r := sendOne s src i fc t d
        let s := match d, r.2 with
          | .die _ _ _ true, none => addF r.1 F.FAB_BCAST_SENT (dieO (dieOfSrc src)) 1
          | _, _ => r.1
        let ds' := match r.2 with
          | some d' => modAt (fun _ => d') ds j
          | none => dropAt ds j
        if ds'.isEmpty then setOut s src (dropAt (outOf s src) i)
        else setOut s src (modAt (fun _ => ⟨fc, .copies t ds'⟩) (outOf s src) i)
      | none => s
  | _ => s

/-- CHAIN_TOKEN_DELIVER (R313): message `m` of a die's receive buffer goes into its queue when a place is free for it. -/
def chainTokenDeliver (s : State) (d m : Nat) : State :=
  match (Tbl.getD s.fab.chainRx d [])[m]? with
  | some x =>
    let g := d * 4096 + x.dst
    if hasRoom s (tileOfCell g) x.tok.trav && firstFor s (tileOfCell g) x.tok.trav (rank x.fc x.src m) then
      let s := modFab s (fun b => { b with chainRx := Tbl.put d (dropAt (Tbl.getD b.chainRx d []) m) b.chainRx })
      let s := if x.bcast then addF s F.FAB_BCAST_RECEIVED (dieO d) 1 else s
      arrive s g x.src x.tok
    else s
  | none => s

def execChainTokenDeliver (d m : Nat) (s : State) : Res := .next (chainTokenDeliver s d m)

/-- TWIN_GATE_RELEASE (R517): the oldest input of a pair that has arrived on both dies enters both queues, when each has a
place. -/
def gateRelease (s : State) (k : Nat) : State :=
  match findIdx (fun (e : GateEnt) => e.pair == k && ((e.at0 && e.at1) || !twinned s k)) s.twn.gate with
  | some i =>
    match s.twn.gate[i]? with
    | some e =>
      let g0 := 8192 * k + e.cell
      let gs := placements s g0
      if gs.all (fun g => hasRoom s (tileOfCell g) e.tok.trav) then
        let s := { s with twn := { s.twn with gate := dropAt s.twn.gate i } }
        gs.foldl (fun s g => enqueue s g e.src e.tok) s
      else s
    | none => s
  | none => s

def execTwinGateRelease (k : Nat) (s : State) : Res := .next (gateRelease s k)

/-! ### Squash and the end of contexts (R318, R319, R250, R620) -/

/-- Tokens, tasks and entries that `p` picks leave every buffer. `cancel` counts tasks and entries in SCH_TILE_CANCEL
(R318); `orphan` counts entries, and the tokens of a set that this fc completed, in ORPHANED (R250, R255), and `queues` the
tokens of queues (R323). -/
def purgeTiles (s : State) (p : Nat → Nat → Bool) (cancel orphan queues : Bool) : State :=
  let tp := fun (t : Task) => p t.key.trav t.key.ctx
  let s := s.fab.ready.foldl (fun s e =>
    let n := (e.2.filter tp).length
    if n = 0 then s
    else
      let s := setReady s e.1 (e.2.filter (fun t => !tp t))
      let s := if orphan then countOrphan s e.1 ((e.2.filter (fun t => tp t && t.entered == s.now)).foldl (fun k t => k + t.toks.length) 0)
        else s
      if cancel then addF s F.SCH_TILE_CANCEL_CANCELLED (tileO e.1) n else s) s
  let s := s.fab.store.foldl (fun s e =>
    let n := (e.2.filter (fun x => p x.trav x.ctx)).length
    if n = 0 then s
    else
      let s := setStore s e.1 (e.2.filter (fun x => !p x.trav x.ctx))
      let s := if cancel then addF s F.SCH_TILE_CANCEL_CANCELLED (tileO e.1) n else s
      if orphan then countOrphan s e.1 n else s) s
  let s := s.fab.inQ.foldl (fun s e =>
    let n := (e.2.filter (fun x => p x.tok.trav x.tok.ctx)).length
    if n = 0 then s
    else
      let s := setQueue s (e.1 / 4096) (e.1 % 4096) (e.2.filter (fun x => !p x.tok.trav x.tok.ctx))
      if queues then countOrphan s (e.1 / 4096) n else s) s
  let thin := fun (a : AsofBuf) =>
    { a with rows := a.rows.filter (fun r => !p a.trav r.1), ends := a.ends.filter (fun e => !p a.trav e.1) }
  modFab s (fun b => { b with found := b.found.filter (fun m => !p m.trav m.ctx), asof := b.asof.map thin })

/-- Whether an output entry holds copies of a picked token. -/
def copyOf (p : Nat → Nat → Bool) (e : OutEnt) : Bool :=
  match e.work with
  | .copies t _ => p t.trav t.ctx
  | _ => false

/-- The tile at which a copy of a producer counts when it is discarded: a cell's own tile, or the destination's. -/
def discardTile (src : Nat) (e : OutEnt) : Nat :=
  if isCell src then tileOfCell src
  else match e.work with
    | .copies _ (.cell g _ :: _) => tileOfCell g
    | _ => tileOfCell (src % 0x10000)

/-- Picked tokens leave output buffers, Chain buffers, the twin gate, collectors and sort units; running passes of picked
contexts go on with their emissions discarded (R318 step 4). With `queues` discarded tokens count in ORPHANED at the tile
they would have reached or came from. -/
def purgeTravel (s : State) (p : Nat → Nat → Bool) (queues : Bool) : State :=
  let s := s.fab.outb.foldl (fun s e =>
    let bad := e.2.filter (copyOf p)
    if bad.isEmpty then s
    else
      let s := setOut s e.1 (e.2.filter (fun x => !copyOf p x))
      if queues then bad.foldl (fun s x => countOrphan s (discardTile e.1 x) 1) s else s) s
  let s := s.fab.chainRx.foldl (fun s e =>
    let bad := e.2.filter (fun m => p m.tok.trav m.tok.ctx)
    if bad.isEmpty then s
    else
      let s := modFab s (fun b => { b with chainRx := Tbl.put e.1 (e.2.filter (fun m => !p m.tok.trav m.tok.ctx)) b.chainRx })
      if queues then bad.foldl (fun s m => countOrphan s ((e.1 * 4096 + m.dst) / 64) 1) s else s) s
  let s := { s with twn := { s.twn with gate := s.twn.gate.filter (fun g => !p g.tok.trav g.tok.ctx) } }
  let keep := fun (i : CollItem) => match i with
    | .row r => !p r.trav r.ctx
    | .mark t => !p t.trav t.ctx
  let thin := fun (q : CollQ) => { q with items := q.items.filter keep }
  let s := { s with dst := { s.dst with colls := s.dst.colls.map (fun (e : Nat × List CollQ) => (e.1, e.2.map thin)) } }
  let s := (s.fab.sorts.filter (fun (j : SortJob) => p j.trav j.ctx)).foldl (fun s j =>
    match sortNode s j.first with
    | some (_, _, n) => freeUnits s (j.first / 4096) (sortUnits n) j.trav 0 false
    | none => s) s
  let stop := fun (x : Pass) => if p x.task.key.trav x.task.key.ctx then { x with squashed := true } else x
  let s := modFab s (fun b => { b with passes := b.passes.map (fun (e : Nat × Pass) => (e.1, stop e.2)) })
  modFab s (fun b => { b with sorts := b.sorts.filter (fun (j : SortJob) => !p j.trav j.ctx) })

/-- SQUASH (R318): an open invocation is squashed with a status and reason. It takes effect on every die at once. -/
def squash (s : State) (n status reason : Nat) : State :=
  match Tbl.get? n s.fab.invs with
  | some i =>
    if i.squash.isSome || i.done then s
    else
      let p := fun t c => t == i.trav && c == ctxInv n
      let s := modInv s n (fun i => { i with squash := some (status, reason) })
      purgeTravel (purgeTiles s p true false false) p false
  | none => s

/-- Whether work of a context is left: ready tasks, passes, tokens on their way or outstanding replies (R319, R620). -/
def busyCtx (s : State) (trav ctx : Nat) : Bool :=
  let hit := fun (t : Token) => t.trav == trav && t.ctx == ctx
  s.fab.ready.any (fun e => e.2.any (fun t => hit t.key)) ||
  s.fab.passes.any (fun e => hit e.2.task.key) ||
  s.fab.inQ.any (fun e => e.2.any (fun x => hit x.tok)) ||
  s.fab.outb.any (fun e => e.2.any (fun x => match x.work with
    | .copies t _ => hit t
    | .leaving r => !r.dead && r.trav == trav && r.ctx == ctx
    | .outstanding r _ => !r.dead && r.trav == trav && r.ctx == ctx)) ||
  s.fab.chainRx.any (fun e => e.2.any (fun m => hit m.tok)) ||
  s.twn.gate.any (fun g => hit g.tok) ||
  s.fab.sorts.any (fun j => j.trav == trav && j.ctx == ctx)

/-- Whether a record of a context still waits at a host-buffer writer: the COMMAND completion goes behind it (R460). -/
def recordsWait (s : State) (trav ctx : Nat) : Bool := s.dst.hbw.any (fun e => e.2.any (fun r => r.trav == trav && r.ctx == ctx))

/-- The COMMAND completion of an invocation (R458); its counts are filled in at writing. -/
def endInv (s : State) (i : Inv) (status reason : Nat) : State :=
  let s := modInv s i.num (fun i => { i with done := true })
  pushCompl (countEnd s i.sq status reason) ⟨i.cq, 0, status, reason, i.tag, 0x01, none, num 0, num i.num, i.sq, some i.num, i.trav, ctxInv i.num, i.acc, none, [], i.rows, false⟩

/-- The status and reason with which an invocation ends: its first failure, else its squash, else OK (R28, R319). -/
def Inv.outcome (i : Inv) : Nat × Nat :=
  match i.mark with
  | some m => m
  | none => match i.squash with
    | some q => q
    | none => (stOk, 0)

/-- Whether an invocation has come to its end (R319, R620). -/
def invOver (s : State) (i : Inv) : Bool :=
  let ctx := ctxInv i.num
  if i.squash.isSome then !busyCtx s i.trav ctx && !recordsWait s i.trav ctx
  else
    match activeTrav s i.trav with
    | some (p, v) =>
      let cells := (collCells p i.trav).flatMap (placements s)
      cells.all (fun g => i.endFrom.contains g) && (inputCells v).all (fun g => i.ended.contains g) &&
      !busyCtx s i.trav ctx && !recordsWait s i.trav ctx
    | none => false

/-- INVOCATION_END (R620): an invocation that has come to its end completes; partial operand sets left in matching stores
are freed and counted (R250). -/
def invocationEnd (s : State) (n : Nat) : State :=
  match Tbl.get? n s.fab.invs with
  | some i =>
    if !i.done && invOver s i then
      let s := purgeTiles s (fun t c => t == i.trav && c == ctxInv n) false true false
      endInv s i i.outcome.1 i.outcome.2
    else s
  | none => s

def execInvocationEnd (n : Nat) (s : State) : Res := .next (invocationEnd s n)

/-- STREAM_END (R250, R620): a detached source's stream of a traverse has come to its end; its entries are freed and
counted. -/
def streamEnd (s : State) (trav src : Nat) : State :=
  let ctx := ctxSource src
  match activeTrav s trav with
  | some (p, _) =>
    let cells := (collCells p trav).flatMap (placements s)
    let heard := cells.all (fun g => s.fab.lostFrom.contains (trav, ctx, g))
    if srcState s src = srcClosed ∧ (heard && !busyCtx s trav ctx) = true ∧
        s.fab.freed.contains (trav, ctx) = false then
      let s := purgeTiles s (fun t c => t == trav && c == ctx) false true false
      modFab s (fun b => { b with freed := (trav, ctx) :: b.freed })
    else s
  | none => s

def execStreamEnd (trav src : Nat) (s : State) : Res := .next (streamEnd s trav src)

end Sys2Proof.Machine
end

