-- ==== Sys2Proof/Machine/Requests.lean ====
section
/-! DEFINITION. Memory requests of cells (R232 to R235): their addresses, how they leave the cell and how their replies
come back in order (R312, R351), with SRQ, HRQ, ROUTE_COPY_SEND and NULL_REPLY_DELIVER. -/

namespace Sys2Proof.Machine

/-! ### Addresses (R234, R354, R355, R362, R363, R379) -/

/-- Whether a record lies on die `d`, or on the other die of its live pair (R513). -/
def onDie (s : State) (r : PartRec) (d : Nat) : Bool := r.die == d || (pairLive s (d / 2) && r.die / 2 == d / 2)

/-- The part of a region of a plat on die `d`: `kind` 1 stack SRAM, 2 HBM. -/
def partOn (s : State) (p : Plat) (kind region d : Nat) : Option PartRec :=
  p.parts.find? (fun r => r.kind == kind && r.region == region && onDie s r d)

/-- What an offset addresses. -/
inductive Target where
  | ok (addr : Nat)
  | fault
  | past
  deriving DecidableEq, Repr, Inhabited

/-- PROBE_LIMIT of die `d`. -/
def probeLimit (s : State) (d : Nat) : Nat := min 64 (max 1 (getF s F.SRM_CTL_PROBE_LIMIT (dieO d)))

/-- The byte address of entry `i` of a region part on die `d` (R354). -/
def entryAddr (r : PartRec) (d i : Nat) : Nat := d * 2 ^ 30 + (r.first + i % r.count) * 2 ^ 26 + i / r.count * 32

/-- What an SRQ of a cell on die `d` addresses in its part of a region (R354, R362, R363). -/
def srqTarget (s : State) (r : PartRec) (d off : Nat) : Target :=
  let e := r.count * 2 ^ 21
  if r.purpose = 0 ∨ r.purpose = 2 then
    let k := bits off 56 8
    let t := bits off 54 2
    let o := bits off 0 54
    if t = 3 ∨ o % 32 ≠ 0 ∨ 32 * e ≤ o then .fault
    else if probeLimit s d ≤ k then .past
    else .ok (entryAddr r d ((o / 32 + k * 2 ^ t) % e))
  else if off % 32 ≠ 0 ∨ 32 * e ≤ off then .fault else .ok (entryAddr r d (off / 32))

/-- The die whose HBM an HRQ of cell `g` reaches (R379), with the record: the requester's die for a SPREAD region or a
region on its own live pair, else the die of the single record, or the lead of that die's live pair. -/
def hrqPart (s : State) (p : Plat) (g region : Nat) : Option (PartRec × Nat) :=
  match partOn s p 2 region (g / 4096) with
  | some r => some (r, g / 4096)
  | none => match p.parts.find? (fun r => r.kind == 2 && r.region == region && !r.spread) with
    | some r => some (r, if pairLive s (r.die / 2) then leadDie s (r.die / 2) else r.die)
    | none => none

/-- What an HRQ addresses (R234, R379). -/
def hrqTarget (s : State) (p : Plat) (g region off : Nat) : Target :=
  match hrqPart s p g region with
  | some (r, d) => if off % 64 ≠ 0 ∨ r.count * 2 ^ 30 ≤ off then .fault else .ok (d * 2 ^ 36 + r.first * 2 ^ 30 + off)
  | none => .fault

/-- What a request of cell `g` addresses. -/
def target (s : State) (g region off : Nat) (sram : Bool) : Target :=
  match cellOwner s g with
  | some (p, _, _) =>
    if sram then (match partOn s p 1 region (g / 4096) with
      | some r => srqTarget s r (g / 4096) off
      | none => .fault)
    else hrqTarget s p g region off
  | none => .fault

/-- Whether a request kind is one of the stack SRAM. -/
def ReqKind.sram : ReqKind → Bool
  | .srqRead => true | .srqWrite => true | .srqInsert => true | .hrqRead => false | .hrqWrite => false

/-- Whether a request kind writes. -/
def ReqKind.writes : ReqKind → Bool
  | .srqRead => false | .srqWrite => true | .srqInsert => true | .hrqRead => false | .hrqWrite => true

/-! ### Replies (R233, R234, R312, R351) -/

/-- The routes of a request's reply port (at most one, R235). -/
def replyRoute (s : State) (r : MemReq) : Option Route := (cellRoutes s r.cell r.port).head?

/-- The destination cell of a request's reply, as its plat names it. -/
def replyCell (s : State) (r : MemReq) : Option Nat := (replyRoute s r).map (·.dst)

/-- The reply token (R233): KIND POISONED when the task is, or the reply carries unreliable data (R204). -/
def replyToken (s : State) (r : MemReq) (lanes : Lanes) (bad : Bool) : Token :=
  { trav := r.trav, slot := ((replyRoute s r).map (·.slot)).getD 0, kind := if bad || r.poisoned then .poisoned else .data,
    ctx := r.ctx, seq := r.seq, lanes := lanes, acc := r.acc }

/-- The request of an output-buffer entry. -/
def OutEnt.req (e : OutEnt) : Option MemReq :=
  match e.work with
  | .copies _ _ => none
  | .leaving r => some r
  | .outstanding r _ => some r

/-- The index in a cell's output buffer of the request with a number. -/
def reqIdx (s : State) (g id : Nat) : Option Nat := findIdx (fun e => (OutEnt.req e).any (fun r => r.id == id)) (outOf s g)

/-- Whether an earlier request of the cell still owes a reply to the same destination cell. -/
def replyAhead (s : State) (g i : Nat) (r : MemReq) : Bool :=
  ((outOf s g).take i).any (fun e => (OutEnt.req e).any (fun q => !q.dead && replyCell s q == replyCell s r))

/-- Entry `i` of a cell's output buffer is freed. -/
def freeOut (s : State) (g i : Nat) : State := setOut s g (dropAt (outOf s g) i)

/-- A ready reply is delivered when no earlier one to its destination is owed (R234): discarded when its context is squashed or
its traverse removed (R192, R318), counted in ORPHANED when its stream has ended (R250) and in UNROUTED without a route (R235),
else into the reserved place, or over Chain. -/
def deliverReply (s : State) (g id : Nat) : State :=
  match reqIdx s g id with
  | some i =>
    match (outOf s g)[i]? with
    | some ⟨fc, .outstanding r (some t)⟩ =>
      if r.dead then freeOut s g i
      else if replyAhead s g i r then s
      else if (activeTrav s r.trav).isNone then freeOut s g i
      else if deadCtx s r.trav r.ctx then
        (if ctxKind r.ctx = 1 then freeOut s g i
         else countOrphan (freeOut s g i) (tileOfCell ((replyCell s r).elim g (localCell s g))) 1)
      else match replyRoute s r with
        | none => raise (satF (freeOut s g i) F.FAB_TILE_ERR_UNROUTED (tileO (g / 64)) 1) F.FAB_EVENT_UNROUTED (dieO (g / 4096))
        | some rt =>
          match routeDest s g rt with
          | some (.cell d _) =>
            let s := freeOut s g i
            if r.kind.sram then enqueue s d g t else arrive s d g t
          | some (.die m d _ _) =>
            let y := chainSend (freeOut s g i) g ⟨m, d, t, g, fc, false⟩ (diesOf m)
            if y.2.isEmpty then y.1 else s
          | _ => freeOut s g i
    | _ => s
  | none => s

/-- The ready replies of a cell are delivered in the order of their requests. -/
def deliverReplies (s : State) (g : Nat) : State :=
  ((outOf s g).filterMap OutEnt.req).foldl (fun s r => deliverReply s g r.id) s

/-- A request is answered with lanes; `bad` marks unreliable contents. -/
def answerReq (s : State) (r : MemReq) (lanes : Lanes) (bad : Bool) : State :=
  let t := replyToken s r lanes bad
  let s := setOut s r.cell ((outOf s r.cell).map (fun e => match e.work with
    | .outstanding q _ => if q.id = r.id then { e with work := .outstanding q (some t) } else e
    | _ => e))
  deliverReplies s r.cell

/-- A request marks its context failed, unless its traverse has been removed. -/
def failReq (s : State) (r : MemReq) (status reason : Nat) : State := if r.dead then s else markFail s r.trav r.ctx status reason

/-- A request meets a frozen or resetting channel (R368, R391): a POISONED reply of mask 0x00, the context MEM_FAULT. -/
def answerFrozen (s : State) (r : MemReq) : State :=
  answerReq (failReq s r stMemFault (if r.kind.sram then 0x0902 else 0x0A02)) r Lanes.null true

/-- A request meets a fenced channel (R370, R395): a DATA reply of mask 0x00, the context FENCED. -/
def answerFenced (s : State) (r : MemReq) : State :=
  answerReq (failReq s r stFenced (if r.kind.sram then 0x0903 else 0x0A03)) r Lanes.null false

/-! ### Leaving the cell (R312, R352) -/

/-- The channel of a stack SRAM address: die × 16 + channel. -/
def chanOf (addr : Nat) : Nat := addr / 2 ^ 26

/-- The hidden state of a stack SRAM channel. -/
def srmCh (s : State) (k : Nat) : SrmCh := Tbl.getD s.srm.chs k {}

/-- The hidden state of a stack SRAM channel changed. -/
def modCh (s : State) (k : Nat) (f : SrmCh → SrmCh) : State := { s with srm := { s.srm with chs := Tbl.upd s.srm.chs k {} f } }

/-- Offset of the registers of channel `k` = die × 16 + channel. -/
def chO (k : Nat) : Nat := srmO (k / 16) (k % 16)

/-- The state of a stack SRAM channel: 0 RUN, 1 FROZEN, 2 RESETTING, 3 FENCED. -/
def chState (s : State) (k : Nat) : Nat := getF s F.SRM_CH_STAT_STATE (chO k)

/-- A channel's queue replaced, with its depth. -/
def setChQueue (s : State) (k : Nat) (q : List MemReq) : State :=
  setF (modCh s k (fun c => { c with queue := q })) F.SRM_CH_STAT_QUEUED (chO k) q.length

/-- The spill cache of die `d`. -/
def spcOf (s : State) (d : Nat) : Spc := Tbl.getD s.hbm.spcs d {}

/-- The spill cache of die `d` changed. -/
def modSpc (s : State) (d : Nat) (f : Spc → Spc) : State := { s with hbm := { s.hbm with spcs := Tbl.upd s.hbm.spcs d {} f } }

/-- Whether the reply's place can be reserved (R312). -/
def replyPlace (s : State) (r : MemReq) : Bool :=
  match (if r.dead then none else (replyRoute s r).bind (routeDest s r.cell)) with
  | some (.cell d _) => hasRoom s (tileOfCell d) r.trav
  | _ => true

/-- The requests in one queue stand in ascending cell number among those that enter in one fc (R351). -/
def enterChannel (s : State) (k : Nat) (r : MemReq) : State :=
  let q := insertTail (fun x => x.fc == s.now && decide (r.cell < x.cell)) { r with fc := s.now } (srmCh s k).queue
  maxF (setChQueue s k q) F.SRM_CH_LOAD_QUEUE_HIGH (chO k) q.length

/-- A request that has left its cell reaches its channel or the spill cache of its die; a die held in reset drops it (R528). -/
def reachTarget (s : State) (r : MemReq) : State :=
  if r.why ≠ 0 then s
  else if r.kind.sram then
    let st := chState s (chanOf r.addr)
    if st = 0 then enterChannel s (chanOf r.addr) r
    else if st = 3 then answerFenced s r else answerFrozen s r
  else
    let d := r.addr / 2 ^ 36
    match lostTo s (r.cell / 4096) d with
    | some e => answerReq (undeliverable s (r.cell / 4096) e (replyToken s r Lanes.null false)) r Lanes.null false
    | none => if dieUp s d then modSpc s d (fun c => { c with reqs := c.reqs ++ [r] }) else s

/-- Entry `i` of a cell's output buffer leaves, if it is a request that may: its reply's place is free, the channel queue has
room, and no earlier request of the cell waits. -/
def leave (s : State) (g i : Nat) : State :=
  match (outOf s g)[i]? with
  | some ⟨fc, .leaving r⟩ =>
    let ahead := ((outOf s g).take i).any (fun e => match e.work with
      | .leaving _ => true
      | _ => false)
    let full := r.why == 0 && r.kind.sram && chState s (chanOf r.addr) == 0 && decide (64 ≤ (srmCh s (chanOf r.addr)).queue.length)
    if ahead || full || !replyPlace s r then s
    else reachTarget (setOut s g (modAt (fun _ => ⟨fc, .outstanding r none⟩) (outOf s g) i)) r
  | _ => s

/-! ### SRQ and HRQ (R232, R234, R363) -/

/-- The tile counts an offset fault and the context is marked (R234). -/
def memRange (s : State) (g : Nat) (k : Token) : State :=
  let s := satF s F.FAB_TILE_ERR2_MEM_RANGE (tileO (g / 64)) 1
  markFail (raise s F.FAB_EVENT_MEM_RANGE (dieO (g / 4096))) k.trav k.ctx stError 0x0604

/-- A write at or beyond PROBE_LIMIT (R363). -/
def tableFull (s : State) (g : Nat) (k : Token) : State :=
  let s := satF s F.SRM_STAT_TABLE_FULL (dieO (g / 4096)) 1
  markFail (raise s F.SRM_EVENT_TABLE_FULL (dieO (g / 4096))) k.trav k.ctx stError 0x0904

/-- The request of a kind issued by the running pass, with the marks that its offset makes (R234). -/
def makeReq (s : State) (g : Nat) (p : Pass) (w : Nat) (kind : ReqKind) : State × MemReq :=
  let k := p.task.key
  let a := (srcA p w).get 0
  let off := (laneVal a).toNat
  let r : MemReq := ⟨s.fab.nextReq, g, iD w % 4, kind, k.trav, k.ctx, k.seq, p.task.acc, p.task.poisoned, off, srcB p w, 0, 1, 0, false⟩
  let s := modFab s (fun b => { b with nextReq := b.nextReq + 1 })
  if a.isNone then (s, r)
  else match target s g (bits (iImm w) 0 16) off kind.sram with
    | .fault => (memRange s g k, r)
    | .past => (if kind.writes then tableFull s g k else s, r)
    | .ok x => (s, { r with addr := x, why := if kind.writes && p.task.poisoned then 2 else 0 })

/-- A request takes an output-buffer entry at its issue and leaves if it can (R312). -/
def issueReq (s : State) (g : Nat) (p : Pass) (w : Nat) (kind : ReqKind) : State :=
  let sr := makeReq s g p w kind
  let s := pushOut sr.1 g ⟨s.now, .leaving sr.2⟩
  leave s g ((outOf s g).length - 1)

/-- The kind of an SRQ by its C field. -/
def srqKind (c : Nat) : ReqKind := if c = 1 then .srqWrite else if c = 2 then .srqInsert else .srqRead

/-- SRQ (R232). -/
def execSrq (g : Nat) (s : State) : Res := .next (runInstr s g 0x78 (fun s p w => (issueReq s g p w (srqKind (iC w)), none)))

/-- HRQ (R232). -/
def execHrq (g : Nat) (s : State) : Res :=
  .next (runInstr s g 0x79 (fun s p w => (issueReq s g p w (if iC w = 1 then .hrqWrite else .hrqRead), none)))

/-- ROUTE_COPY_SEND (R312): what waits in an output-buffer entry goes on: copy `j` of a token, a request that has not left,
or a reply that waits for Chain. -/
def routeCopySend (s : State) (src i j : Nat) : State :=
  match (outOf s src)[i]? with
  | some ⟨_, .copies _ _⟩ => sendCopy s src i j
  | some ⟨_, .leaving _⟩ => leave s src i
  | some ⟨_, .outstanding r _⟩ => deliverReply s src r.id
  | none => s

def execRouteCopySend (src i j : Nat) (s : State) : Res := .next (routeCopySend s src i j)

/-- The lanes of a reply without access (R233, R234). -/
def nullLanes (s : State) (r : MemReq) : Lanes :=
  if r.why = 2 then
    match r.kind with
    | .srqInsert =>
      let e := leWords (rdMem s 1 r.addr 32)
      Lanes.ofFn (fun i => if i < 4 then some (e.getD i 0) else if i = 4 then num 0 else none)
    | _ => lane0 (num r.off)
  else Lanes.null

/-- NULL_REPLY_DELIVER (R234): the reply of a request that made no access. -/
def nullReplyDeliver (s : State) (g i : Nat) : State :=
  match (outOf s g)[i]? with
  | some ⟨_, .outstanding r none⟩ => if r.why ≠ 0 then answerReq s r (nullLanes s r) false else s
  | _ => s

def execNullReplyDeliver (g i : Nat) (s : State) : Res := .next (nullReplyDeliver s g i)

end Sys2Proof.Machine
end

