-- ==== Sys2Proof/Machine/Sram.lean ====
section
/-! DEFINITION. The stack SRAM channels (09_stack_sram.md): service of requests, ECC, freeze, fence and reset, zeroing, scrub
and indirect access. -/

namespace Sys2Proof.Machine

/-- Whether an active or staged region of stack SRAM (`kind` 1) or HBM (`kind` 2) holds unit or slice `u` of die `d`. -/
def regionHolds (s : State) (kind d u : Nat) : Bool :=
  let hit := fun (p : Plat) => p.parts.any (fun r => r.kind == kind && onDie s r d && decide (r.first ≤ u ∧ u < r.first + r.count))
  s.plats.active.any hit || s.plats.slots.any (fun e => e.2.staged && e.2.plat.any hit)

/-! ### Errors of words (R365, R366) -/

/-- The word addresses of the entry at byte address `a`. -/
def entryWords (a : Nat) : List Nat := (List.range 4).map (fun i => a / 32 * 4 + i)

/-- Whether word `w` holds an uncorrectable error. -/
def hasUe (s : State) (w : Nat) : Bool := s.srm.ue.contains w

/-- Whether word `w` holds a correctable error: one error, to which no second has come. -/
def hasCe (s : State) (w : Nat) : Bool := s.srm.ce.contains w && !hasUe s w

/-- The errors of words that `p` picks are gone: they have been written with valid check bits. -/
def clearErr (s : State) (p : Nat → Bool) : State :=
  { s with srm := { s.srm with ce := s.srm.ce.filter (fun w => !p w), ue := s.srm.ue.filter (fun w => !p w) } }

/-- New errors appear in the words of the entry at `a`: masks of correctable and uncorrectable ones. -/
def strike (s : State) (a ce ue : Nat) : State :=
  let pick := fun (m : Nat) => ((List.range 4).filter (fun i => bits m i 1 == 1)).map (fun i => a / 32 * 4 + i)
  let add := fun (l m : List Nat) => m.foldl (fun l w => if l.contains w then l else w :: l) l
  { s with srm := { s.srm with ce := add s.srm.ce (pick ce), ue := add s.srm.ue (pick ue) } }

/-- The entry within its channel. -/
def localEntry (a : Nat) : Nat := a % 2 ^ 26 / 32

/-- The first uncorrectable word of an entry. -/
def firstUe (s : State) (a : Nat) : Option Nat := findIdx (hasUe s) (entryWords a)

/-- SRM_CH_UE takes the last uncorrectable error. -/
def recordUe (s : State) (a w syn : Nat) : State :=
  let o := chO (chanOf a)
  let s := setF s F.SRM_CH_UE_ENTRY o (localEntry a)
  let s := setF s F.SRM_CH_UE_WORD o w
  let s := setF s F.SRM_CH_UE_SYNDROME o syn
  setF s F.SRM_CH_UE_FC o (wall s)

/-- The correctable words of an entry are corrected (R365): counted, written back later; the first on the channel since the
last read of SRM_CH_ECC logs an entry. -/
def correct (s : State) (a : Nat) : State :=
  let n := ((entryWords a).filter (hasCe s)).length
  if n = 0 then s
  else
    let k := chanOf a
    let first := getF s F.SRM_CH_ECC_CE (chO k) == 0
    let s := raise (satF s F.SRM_CH_ECC_CE (chO k) n) F.SRM_EVENT_CORRECTED (dieO (k / 16))
    let s := if first then logC s (k / 16) rsnCorrected fnNone (k % 16) (localEntry a) else s
    modCh s k (fun c => if c.wb.contains (a / 32) then c else { c with wb := c.wb ++ [a / 32] })

/-- A request meets an uncorrectable word (R366). -/
def meetUe (s : State) (a w syn : Nat) : State :=
  let k := chanOf a
  let s := recordUe (satF s F.SRM_CH_ECC_UE (chO k) 1) a w syn
  logD (raise s F.SRM_EVENT_UNCORRECTABLE (dieO (k / 16))) (k / 16) 0x0901 fnNone (k % 16) (localEntry a)

/-- The four words of an entry as a read returns them; an uncorrectable word reads as a free value (log entry 5). -/
def readEntry (s : State) (a : Nat) : State × List W64 :=
  (List.range 4).foldl (fun (x : State × List W64) i =>
    if hasUe x.1 (a / 32 * 4 + i) then
      let f := fresh x.1 64
      (f.2, x.2 ++ [BitVec.ofNat 64 f.1])
    else (x.1, x.2 ++ [rdWord x.1 1 (a / 32 * 32 + 8 * i)])) (s, [])

/-- An entry is written with lanes 0 to 3, null lanes as zero (R360); its words carry valid check bits, and a pending
write-back is cancelled (R365). -/
def writeEntry (s : State) (a : Nat) (l : Lanes) : State :=
  let s := wrMem s 1 (a / 32 * 32) (wordBytes ((List.range 4).map (fun i => laneVal (l.get i))))
  let s := clearErr s (fun w => (entryWords a).contains w)
  modCh s (chanOf a) (fun c => { c with wb := c.wb.filter (· != a / 32), wrAt := s.now + 1 })

/-! ### Service (R350, R351, R360, R366) -/

/-- The reply lanes of a READ: the entry, then lanes 0 to 3 of B (R233). -/
def readReply (ws : List W64) (b : Lanes) : Lanes := Lanes.ofFn (fun i => if i < 4 then some (ws.getD i 0) else b.get (i - 4))

/-- The reply lanes of an INSERT (R233). -/
def insertReply (ws : List W64) (wrote : Bool) : Lanes :=
  Lanes.ofFn (fun i => if i < 4 then some (ws.getD i 0) else if i = 4 then num (if wrote then 1 else 0) else none)

/-- Whether an INSERT comes from a cell of a node that keeps a hash table (R274, R289). -/
def buildsTable (s : State) (r : MemReq) : Bool := (cellOwner s r.cell).any (fun o => o.2.2.op == 7 || o.2.2.op == 18)

/-- An INSERT of a row whose entry would read as empty marks its context ERROR with EMPTY_KEY (R274). -/
def emptyKey (s : State) (r : MemReq) : State :=
  if buildsTable s r && (List.range 4).all (fun i => laneVal (r.data.get i) == 0) then failReq s r stError 0x0624 else s

/-- A walk meets an uncorrectable word (R374): the invocation or stake firing completes MEM_FAULT. A walk is a read or INSERT of
a region of PURPOSE hash table or operator state (R362, R363). A stream ends in the way of R367. -/
def walkFails (s : State) (r : MemReq) : State :=
  let walk := (activeTrav s r.trav).any (fun pv => pv.1.parts.any (fun x => x.kind == 1 && (x.purpose == 0 || x.purpose == 2) &&
    onDie s x (r.addr / 2 ^ 30) && decide (x.first ≤ r.addr / 2 ^ 26 % 16 ∧ r.addr / 2 ^ 26 % 16 < x.first + x.count)))
  if walk && ctxKind r.ctx != 0 then failReq s r stMemFault 0x0901 else s

/-- A request is served; `syn` is the syndrome of an uncorrectable word it meets. -/
def serve (s : State) (r : MemReq) (syn : Nat) : State :=
  let a := r.addr
  match r.kind with
  | .srqWrite => answerReq (writeEntry s a r.data) r (lane0 (num r.off)) false
  | k =>
    let s := correct s a
    let ins := k == .srqInsert
    match firstUe s a with
    | some w =>
      let x := readEntry (walkFails (meetUe s a w syn) r) a
      answerReq x.1 r (if ins then insertReply x.2 false else readReply x.2 r.data) true
    | none =>
      let x := readEntry s a
      if ins then
        let empty := allZero (rdMem s 1 (a / 32 * 32) 32)
        let s := emptyKey x.1 r
        answerReq (if empty then writeEntry s a r.data else s) r (insertReply x.2 empty) false
      else answerReq x.1 r (readReply x.2 r.data) false

/-- SRQ_SERVE (R350, R351): the request at the front of the channel's queue; `ce` and `ue` are the words of its entry in
which a correctable or an uncorrectable error has appeared. -/
def srqServe (s : State) (d ch ce ue syn : Nat) : State :=
  let k := d * 16 + ch
  match (srmCh s k).queue with
  | r :: t =>
    if isSet s F.SRM_CTL_ENABLE (dieO d) && chState s k == 0 then
      let s := addF (setChQueue s k t) F.SRM_CH_LOAD_SERVED (chO k) 1
      serve (strike s r.addr ce ue) r syn
    else s
  | [] => s

def execSrqServe (d ch ce ue syn : Nat) (s : State) : Res := .next (srqServe s d ch ce ue syn)

/-- ECC_WRITEBACK (R365): the oldest corrected entry of a running channel is written back. -/
def eccWriteback (s : State) (d ch : Nat) : State :=
  let k := d * 16 + ch
  match (srmCh s k).wb with
  | e :: t =>
    if chState s k = 0 then
      let s := modCh s k (fun c => { c with wb := t, wrAt := s.now + 1 })
      { s with srm := { s.srm with ce := s.srm.ce.filter (fun w => w / 4 != e) } }
    else s
  | [] => s

def execEccWriteback (d ch : Nat) (s : State) : Res := .next (eccWriteback s d ch)

/-! ### Freeze, reset, fence (R368 to R370) -/

/-- The requests of a channel leave its queue, each answered by `f`. -/
def flushCh (s : State) (k : Nat) (f : State → MemReq → State) : State :=
  let q := (srmCh s k).queue
  q.foldl f (modCh s k (fun c => { c with queue := [] }))

/-- KIND code of a request in SRM_CH_FRZ. -/
def ReqKind.code : ReqKind → Nat
  | .srqRead => 0 | .srqWrite => 1 | .srqInsert => 2 | .hrqRead => 0 | .hrqWrite => 1

/-- SRAM_PARITY_FREEZE (R368, R369, R374): the request at the front fails parity, in its write data or in its command and
address. The entry of a faulting WRITE is undefined; a faulting INSERT writes nothing. -/
def sramParityFreeze (s : State) (d ch : Nat) (wd : Bool) : State :=
  let k := d * 16 + ch
  match (srmCh s k).queue with
  | r :: _ =>
    if chState s k = 0 then
      let o := chO k
      let s := noteSusp (setF s F.SRM_CH_STAT_STATE o 1) (suspSrm d ch)
      let s := setF s F.SRM_CH_STAT_FREEZE_CAUSE o (if wd && r.kind.writes then 2 else 1)
      let s := setF (setF s F.SRM_CH_FRZ_ENTRY o (localEntry r.addr)) F.SRM_CH_FRZ_KIND o r.kind.code
      let s := setF s F.SRM_CH_FRZ_GCELL o r.cell
      let s := if r.kind = .srqWrite then mkUndef s 1 (r.addr / 32 * 32) (r.addr / 32 * 32 + 31) else s
      let s := raise s F.SRM_EVENT_FROZEN (dieO d)
      let s := logD s d 0x0902 fnNone ch (localEntry r.addr)
      flushCh s k answerFrozen
    else s
  | [] => s

def execSramParityFreeze (d ch : Nat) (wd : Bool) (s : State) : Res := .next (sramParityFreeze s d ch wd)

/-- A channel reset starts (R369): the queue is cleared, its requests answered as a resetting channel answers (R368). -/
def sramChannelReset (s : State) (d ch : Nat) : State :=
  let k := d * 16 + ch
  if chState s k = 2 then s
  else
    let s := setF (setF s F.SRM_CH_CTL_RESET (chO k) 1) F.SRM_CH_STAT_STATE (chO k) 2
    let s := flushCh s k answerFrozen
    setF s F.SRM_CH_STAT_QUEUED (chO k) 0

def execSramChannelReset (d ch : Nat) (s : State) : Res := .next (sramChannelReset s d ch)

/-- A channel becomes FENCED (R370): requests in its queue are answered as they reach a fenced channel. -/
def fenceCh (s : State) (d ch : Nat) : State :=
  let k := d * 16 + ch
  let s := noteSusp (raise (setF s F.SRM_CH_STAT_STATE (chO k) 3) F.SRM_EVENT_FENCED (dieO d)) (suspSrm d ch)
  let s := flushCh s k answerFenced
  setF s F.SRM_CH_STAT_QUEUED (chO k) 0

/-- SRAM_CHANNEL_RESET_DONE (R369, R374). -/
def sramChannelResetDone (s : State) (d ch : Nat) (pass : Bool) : State :=
  let k := d * 16 + ch
  if chState s k = 2 then
    let s := setF s F.SRM_CH_CTL_RESET (chO k) 0
    if !pass then setF (fenceCh s d ch) F.SRM_CH_STAT_FREEZE_CAUSE (chO k) 3
    else
      let s := setF (setF s F.SRM_CH_STAT_STATE (chO k) 0) F.SRM_CH_STAT_FREEZE_CAUSE (chO k) 0
      if isSet s F.SRM_CH_CTL_FENCE (chO k) then fenceCh s d ch else s
  else s

def execSramChannelResetDone (d ch : Nat) (pass : Bool) (s : State) : Res := .next (sramChannelResetDone s d ch pass)

/-- SRAM_FENCE (R370, R374): FENCE is set, or cleared, which starts a channel reset. -/
def sramFence (s : State) (d ch : Nat) (set : Bool) : State :=
  let k := d * 16 + ch
  let was := isSet s F.SRM_CH_CTL_FENCE (chO k)
  let s := setF s F.SRM_CH_CTL_FENCE (chO k) (if set then 1 else 0)
  if set then (if chState s k = 2 ∨ chState s k = 3 then s else fenceCh s d ch)
  else if was then sramChannelReset s d ch else s

def execSramFence (d ch : Nat) (set : Bool) (s : State) : Res := .next (sramFence s d ch set)

/-! ### Zeroing, scrub, indirect access (R371 to R373) -/

/-- A slice is written zero throughout. -/
def zeroSlice (s : State) (k : Nat) : State :=
  let s := clearErr (zeroMem s 1 (k * 2 ^ 26) (2 ^ 26)) (fun w => w / 2 ^ 23 == k)
  modCh { s with srm := { s.srm with zeroPos := Tbl.del k s.srm.zeroPos } } k (fun c => { c with wb := [] })

/-- The zeroing engine writes the next entry of slice `k` (R371): in ascending order, in an fc in which no request uses the write
port, and not into a channel that does not run. -/
def zeroNext (s : State) (k : Nat) : State :=
  let n := Tbl.getD s.srm.zeroPos k 0
  if chState s k ≠ 0 ∨ 2 ^ 21 ≤ n ∨ (srmCh s k).wrAt = s.now + 1 then s
  else
    let a := k * 2 ^ 26 + n * 32
    let s := clearErr (zeroMem s 1 a 32) (fun w => w / 4 == a / 32)
    let s := modCh s k (fun c => { c with wb := c.wb.filter (· != a / 32) })
    { s with srm := { s.srm with zeroPos := Tbl.put k (n + 1) s.srm.zeroPos } }

/-- SLICE_ZEROING_DONE (R371, R503): a slice being zeroed is zero; a channel that does not run is not written. -/
def sliceZeroingDone (s : State) (d sl : Nat) : State :=
  let k := d * 16 + sl
  if chState s k ≠ 0 then s
  else match Tbl.get? k s.srm.zeroing with
    | some 0 =>
      let s := zeroSlice s k
      { s with srm := { s.srm with zeroing := Tbl.del k s.srm.zeroing } }
    | some 1 =>
      let s := zeroSlice s k
      { s with srm := { s.srm with zeroing := Tbl.put k 2 s.srm.zeroing } }
    | _ => s

def execSliceZeroingDone (d sl : Nat) (s : State) : Res := .next (sliceZeroingDone s d sl)

/-- SRAM_SCRUB_READ (R372): the next entry of a running channel is read. -/
def sramScrubRead (s : State) (d ch ce ue syn : Nat) : State :=
  let k := d * 16 + ch
  if isSet s F.SRM_CTL_SCRUB_EN (dieO d) && chState s k == 0 then
    let e := (srmCh s k).scrub
    let a := k * 2 ^ 26 + e * 32
    let s := strike s a ce ue
    let s := modCh s k (fun c => { c with scrub := (e + 1) % 2 ^ 21 })
    let s := correct s a
    match firstUe s a with
    | some w =>
      let s := recordUe (satF s F.SRM_CH_ECC_SCRUB_UE (chO k) 1) a w syn
      logD (raise s F.SRM_EVENT_SCRUB_UE (dieO d)) d 0x0901 fnNone ch (localEntry a)
    | none => s
  else s

def execSramScrubRead (d ch ce ue syn : Nat) (s : State) : Res := .next (sramScrubRead s d ch ce ue syn)

/-- The byte address that SRM_IND_ADDR of die `d` names, on die `e`. -/
def srmIndAddr (s : State) (d e : Nat) : Nat :=
  e * 2 ^ 30 + getF s F.SRM_IND_ADDR_SLICE (dieO d) * 2 ^ 26 + getF s F.SRM_IND_ADDR_BYTE (dieO d) / 8 * 8

/-- BYTE rises by 8 after an access under AUTO_INC, wrapping within the slice (R373). -/
def srmIndStep (s : State) (d : Nat) : State :=
  if isSet s F.SRM_IND_ADDR_AUTO_INC (dieO d) then addF s F.SRM_IND_ADDR_BYTE (dieO d) 8 else s

/-- The die whose memory serves a read of die `d`'s (R515). -/
def readDie (s : State) (d : Nat) : Nat := if d % 2 = 0 && pairLive s (d / 2) then leadDie s (d / 2) else d

/-- A read of SRM_IND_DATA (R373): the corrected word; an uncorrectable word, and a word of a channel that does not run, read
as a free value (log entry 5). -/
def srmIndRead (s : State) (d : Nat) : State × Nat :=
  let a := srmIndAddr s d (readDie s d)
  let s := if chState s (chanOf a) = 0 then correct s a else s
  let bad := hasUe s (a / 8)
  let s := setF s F.SRM_IND_ADDR_UE (dieO d) (if bad then 1 else 0)
  let s := srmIndStep s d
  if bad || chState s (chanOf a) != 0 then let f := fresh s 64; (f.2, f.1) else (s, (rdWord s 1 a).toNat)

/-- A write of SRM_IND_DATA by `fn` (R373); one that leaves the word of a held slice as it stands logs nothing (R617). -/
def srmIndWrite (s : State) (fn d v : Nat) : State :=
  let sl := getF s F.SRM_IND_ADDR_SLICE (dieO d)
  let same := rdWord s 1 (srmIndAddr s d (readDie s d)) == BitVec.ofNat 64 v
  let s' := if regionHolds s 1 d sl then (if same then s else logWWR s fn (F.SRM_IND_DATA_DATA.base + dieO d))
    else (mirrorDies s d).foldl (fun s e =>
      let a := srmIndAddr s d e
      if chState s (chanOf a) = 0 then clearErr (wrWord s 1 a (BitVec.ofNat 64 v)) (· == a / 8) else s) s
  srmIndStep s' d

/-- SRM_IND_DATA_ACCESS (R373); on a die that is absent or held in reset, or in a gated block, a read gives 0 and a write does
nothing (R3, R50, R553). -/
def execSrmIndDataAccess (fn d : Nat) (write : Bool) (v : Nat) (s : State) : Res :=
  .next (if silentZero s (F.SRM_IND_DATA_DATA.base + dieO d) then (if write then s else answer s 0 0)
    else if write then srmIndWrite s fn d v else let r := srmIndRead s d; answer r.1 0 r.2)

end Sys2Proof.Machine
end

