-- ==== Sys2Proof/Machine/Hbm.lean ====
section
/-! DEFINITION. HBM pseudo-channels and spill caches (10_hbm_cache.md): addresses, queues, the coherent view, refresh, freeze,
reset, fence and the controllers' commands. The cache's own commands are in Machine/Cache.lean. -/

namespace Sys2Proof.Machine

/-! ### Stack addresses (R377 to R381) -/

/-- Whether stack `d` runs the 31-way interleave. -/
def skipOn (s : State) (d : Nat) : Bool := isSet s F.HBM_STACK_CTL_SKIP_EN (dieO d)

/-- P: the pseudo-channels in the interleave. -/
def stackP (s : State) (d : Nat) : Nat := if skipOn s d then 31 else 32

/-- C: the bytes of the stack. -/
def stackC (s : State) (d : Nat) : Nat := if skipOn s d then 34875000000 else 36000000000

/-- U: the allocatable units. -/
def stackU (s : State) (d : Nat) : Nat := if skipOn s d then 32 else 33

/-- The pseudo-channel at a position of the interleave. -/
def posPc (s : State) (d i : Nat) : Nat :=
  if skipOn s d && decide (getF s F.HBM_STACK_CTL_SKIP_PC (dieO d) ≤ i) then i + 1 else i

/-- The position of a pseudo-channel in the interleave. -/
def pcPos (s : State) (d c : Nat) : Nat :=
  if skipOn s d && decide (getF s F.HBM_STACK_CTL_SKIP_PC (dieO d) < c) then c - 1 else c

/-- The pseudo-channel of stack address `a`. -/
def pcOf (s : State) (d a : Nat) : Nat := posPc s d (a / 256 % stackP s d)

/-- Whether a stack address lies in the held-back area (R378). -/
def heldBack (s : State) (d a : Nat) : Bool := decide (stackU s d * 2 ^ 30 ≤ a ∧ a < stackC s d)

/-- The memory address of stack address `a` of die `d`. -/
def hbmAddr (d a : Nat) : Nat := d * 2 ^ 36 + a

/-! ### Pseudo-channels -/

/-- The hidden state of a pseudo-channel. -/
def hpc (s : State) (d c : Nat) : HPc := Tbl.getD s.hbm.pcs (d * 32 + c) {}

/-- The hidden state of a pseudo-channel changed. -/
def modPc (s : State) (d c : Nat) (f : HPc → HPc) : State :=
  { s with hbm := { s.hbm with pcs := Tbl.upd s.hbm.pcs (d * 32 + c) {} f } }

/-- The state of a pseudo-channel: 0 RUN, 1 FROZEN, 2 RESETTING, 3 FENCED. -/
def pcState (s : State) (d c : Nat) : Nat := getF s F.HBM_PC_STAT_STATE (pcO d c)

/-- The state of the pseudo-channel that holds a line. -/
def lineState (s : State) (d ln : Nat) : Nat := pcState s d (pcOf s d (ln * 128))

/-- Accesses issued. -/
def countAccess (s : State) (d c n : Nat) : State := addF s F.HBM_PC_LOAD_ACCESSES (pcO d c) n

/-- A write entry's bytes laid over a line. -/
def overlay (line : Bytes) (bs : Tbl Byte) : Bytes := line.zipIdx.map (fun x => (Tbl.get? x.2 bs).getD x.1)

/-- A line as the controller returns it: DRAM with the covering write entries, oldest to newest (R385). -/
def ctlLine (s : State) (d ln : Nat) : Bytes :=
  (((hpc s d (pcOf s d (ln * 128))).wq.filter (fun e => e.line == ln)).map (·.bytes)).foldl overlay
    (rdMem s 2 (hbmAddr d (ln * 128)) 128)

/-- The bytes of a table written to DRAM. -/
def dramWrite (s : State) (d ln : Nat) (bs : Tbl Byte) : State :=
  bs.foldl (fun s e => wrByte s 2 (hbmAddr d (ln * 128) + e.1) e.2) s

/-- The oldest write of a pseudo-channel is issued. -/
def issueWrite (s : State) (d c : Nat) : State :=
  match (hpc s d c).wq with
  | e :: t => countAccess (dramWrite (modPc s d c (fun q => { q with wq := t })) d e.line e.bytes) d c 1
  | [] => s

/-- Whether a queue of 48 or more writes starts a drain (R383). -/
def startDrain (q : HPc) : HPc := if q.drain.isNone && decide (48 ≤ q.wq.length) then { q with drain := some 0 } else q

/-- Whether a write to a line merges into a queue entry: one of that line whose issue has not started (R384). -/
def WqEnt.takes (e : WqEnt) (ln : Nat) : Bool := e.line == ln && e.retries == 0

/-- Whether a write to a line finds room in the queue of its pseudo-channel (R383). -/
def canPush (s : State) (d ln : Nat) : Bool :=
  let q := (hpc s d (pcOf s d (ln * 128))).wq
  q.any (fun e => e.takes ln) || decide (q.length < 64)

/-- A write enters the queue of its pseudo-channel: merged into the entry of its line (R384), else a new entry. Requests wait
for a full queue (`canPush`); a drain or range operation, which runs to its end here, first issues the queue's oldest write (log
entry 12). -/
def wqPush (s : State) (d ln : Nat) (bs : Tbl Byte) : State :=
  let c := pcOf s d (ln * 128)
  if bs.isEmpty then s
  else if (hpc s d c).wq.any (fun e => e.takes ln) then
    modPc s d c (fun q => { q with wq := q.wq.map (fun e =>
      if e.takes ln then { e with bytes := bs.foldl (fun t x => Tbl.put x.1 x.2 t) e.bytes } else e) })
  else
    let s := if 64 ≤ (hpc s d c).wq.length then issueWrite s d c else s
    modPc s d c (fun q => startDrain { q with wq := q.wq ++ [⟨ln, bs, 0⟩] })

/-- The bytes `lo` to `hi - 1` of a line's data as a table. -/
def byteTbl (data : Bytes) (lo hi : Nat) : Tbl Byte :=
  (data.zipIdx.filter (fun x => decide (lo ≤ x.2 ∧ x.2 < hi))).map (fun x => (x.2, x.1))

/-- The bytes of the sectors of a mask. -/
def sectorTbl (data : Bytes) (m : Nat) : Tbl Byte := (byteTbl data 0 128).filter (fun x => bits m (x.1 / 32) 1 == 1)

/-! ### Lines of the spill cache (R397) -/

/-- STATE of a spill cache: 0 DISABLED, 1 ENABLED, 2 DRAINING. -/
def spcState (s : State) (d : Nat) : Nat := getF s F.SPC_STAT_STATE (dieO d)

/-- The key of way `w` of a line's set. -/
def lineKey (ln w : Nat) : Nat := ln % 16384 * 16 + w

/-- The way that holds a line, with the line. -/
def lineAt (s : State) (d ln : Nat) : Option (Nat × CLine) :=
  (List.range 16).findSome? (fun w => match Tbl.get? (lineKey ln w) (spcOf s d).lines with
    | some l => if l.tag = ln / 16384 then some (w, l) else none
    | none => none)

/-- The line of a key. -/
def keyLine (k tag : Nat) : Nat := tag * 16384 + k / 16

/-- A way of a line's set takes a line. -/
def putLine (s : State) (d ln w : Nat) (l : CLine) : State := modSpc s d (fun c => { c with lines := Tbl.put (lineKey ln w) l c.lines })

/-- A way of a line's set is emptied. -/
def dropLine (s : State) (d ln w : Nat) : State := modSpc s d (fun c => { c with lines := Tbl.del (lineKey ln w) c.lines })

/-- The dirty sectors of a line go to the controller; on a frozen or resetting pseudo-channel they stay (R391). -/
def writeBack (s : State) (d ln : Nat) (l : CLine) : State := wqPush s d ln (sectorTbl l.data l.dirty)

/-- Whether a line is held under R391: dirty on a pseudo-channel that is frozen or resetting. -/
def heldLine (s : State) (d ln : Nat) (l : CLine) : Bool := l.dirty != 0 && (lineState s d ln == 1 || lineState s d ln == 2)

/-- Tree bits after an access to way `w`: every node on its path points away from it. -/
def plruTouch (t w : Nat) : Nat :=
  ([3, 2, 1, 0].foldl (fun (x : Nat × Nat) lv =>
    let b := bits w lv 1
    let v := if b = 1 then (if bits x.1 x.2 1 = 1 then x.1 - 2 ^ x.2 else x.1) else (if bits x.1 x.2 1 = 1 then x.1 else x.1 + 2 ^ x.2)
    (v, 2 * x.2 + 1 + b)) (t, 0)).1

/-- The way that the tree chooses among those of a mask. -/
def plruVictim (t mask : Nat) : Nat :=
  ([3, 2, 1, 0].foldl (fun (x : Nat × Nat × Nat) lv =>
    let want := bits t x.1 1
    let has := fun (b : Nat) => bits mask (x.2.1 + b * 2 ^ lv) (2 ^ lv) != 0
    let b := if has want then want else 1 - want
    (2 * x.1 + 1 + b, x.2.1 + b * 2 ^ lv, 0)) (0, 0, 0)).2.1

/-- The access is noted in the replacement state. -/
def touch (s : State) (d ln w : Nat) : State :=
  modSpc s d (fun c => { c with plru := Tbl.put (ln % 16384) (plruTouch (Tbl.getD c.plru (ln % 16384) 0) w) c.plru })

/-- The ways into which a miss of a class may allocate (R400): `ways` is the function's mask. -/
def allowedWays (s : State) (d ln cls ways : Nat) : Nat :=
  if spcState s d ≠ 1 then 0
  else
    let m := if cls = 11 then 0xFFFF else getF s F.SPC_CLASS_MASK_MASK (dieO d + cls * 8) &&& ways
    bitSet ((List.range 16).filter (fun w => bits m w 1 == 1 && bits (getF s F.SPC_STAT_LOCKED (dieO d)) w 1 == 0 &&
      (match Tbl.get? (lineKey ln w) (spcOf s d).lines with
       | some l => !heldLine s d (keyLine (lineKey ln w) l.tag) l
       | none => true)))

/-- A way is made free for a line among those of a mask: its old line is written back when dirty. -/
def allocate (s : State) (d ln mask : Nat) : State × Option Nat :=
  if mask = 0 then (s, none)
  else
    let w := plruVictim (Tbl.getD (spcOf s d).plru (ln % 16384) 0) mask
    match Tbl.get? (lineKey ln w) (spcOf s d).lines with
    | some l => (dropLine (writeBack s d (keyLine (lineKey ln w) l.tag) l) d ln w, some w)
    | none => (s, some w)

/-- Whether an allocation among the ways of a mask finds room for its victim's writeback (R383). -/
def victimRoom (s : State) (d ln mask : Nat) : Bool :=
  mask == 0 || (match Tbl.get? (lineKey ln (plruVictim (Tbl.getD (spcOf s d).plru (ln % 16384) 0) mask)) (spcOf s d).lines with
    | some l => l.dirty == 0 || canPush s d (l.tag * 16384 + ln % 16384)
    | none => true)

/-- Whether a write to a line can be taken now (R383): its queue and its victim's have room. -/
def lineRoom (s : State) (d ln cls ways : Nat) : Bool :=
  canPush s d ln && ((lineAt s d ln).isSome || victimRoom s d ln (allowedWays s d ln cls ways))

/-- Hits of a class. -/
def countHit (s : State) (d cls : Nat) : State := addF s F.SPC_CLASS_STAT_HITS (dieO d + cls * 8) 1

/-- Misses of a class. -/
def countMiss (s : State) (d cls : Nat) : State := addF s F.SPC_CLASS_STAT_MISSES (dieO d + cls * 8) 1

/-- A hit in way `w`: replacement state, and the first hit of a prefetched line (R402). -/
def hitLine (s : State) (d ln w : Nat) (l : CLine) : State :=
  let s := touch s d ln w
  if l.pf then addF (putLine s d ln w { l with pf := false }) F.SPC_PF_USEFUL (dieO d) 1 else s

/-- The sectors that bytes `lo` to `hi - 1` of a line touch. -/
def sectorsOf (lo hi : Nat) : Nat := bitSet ((List.range 4).filter (fun i => decide (lo < 32 * i + 32 ∧ 32 * i < hi)))

/-- The sectors that they cover whole. -/
def wholeSectors (lo hi : Nat) : Nat := bitSet ((List.range 4).filter (fun i => decide (lo ≤ 32 * i ∧ 32 * i + 32 ≤ hi)))

/-- A line with the sectors of a mask taken from `data`. -/
def mergeSectors (old data : Bytes) (m : Nat) : Bytes :=
  old.zipIdx.map (fun x => if bits m (x.2 / 32) 1 = 1 then data.getD x.2 0 else x.1)

/-- A line's data in the coherent view: its valid sectors in the cache, else the controller's (R385, R397). -/
def viewLine (s : State) (d ln : Nat) : Bytes :=
  match lineAt s d ln with
  | some (_, l) => mergeSectors (ctlLine s d ln) l.data l.valid
  | none => ctlLine s d ln

/-- Sectors of a mask with a byte that a write entry covers (R385). -/
def forwarded (s : State) (d ln m : Nat) : Nat :=
  ((List.range 4).filter (fun i => bits m i 1 == 1 &&
    (hpc s d (pcOf s d (ln * 128))).wq.any (fun e => e.line == ln && e.bytes.any (fun x => x.1 / 32 == i)))).length

/-- Whether write entries cover every byte of the sectors of a mask (R385). -/
def covered (s : State) (d ln m : Nat) : Bool :=
  (List.range 128).all (fun i => bits m (i / 32) 1 == 0 ||
    (hpc s d (pcOf s d (ln * 128))).wq.any (fun e => e.line == ln && (Tbl.get? i e.bytes).isSome))

/-! ### Prefetch (R402) -/

/-- A prefetch of a line: dropped beyond the stack's units, on a pseudo-channel that does not run, or when its read queue
holds 32 entries; nothing when the line is present. -/
def prefetch (s : State) (d cls ways : Nat) (ln : Int) : State :=
  let n := ln.toNat
  let c := pcOf s d (n * 128)
  if ln < 0 ∨ stackU s d * 2 ^ 30 ≤ n * 128 ∨ pcState s d c ≠ 0 ∨ 32 ≤ (hpc s d c).rq.length ∨ (lineAt s d n).isSome then s
  else
    let x := allocate s d n (allowedWays s d n cls ways)
    match x.2 with
    | none => x.1
    | some w =>
      let s := x.1
      let id := s.hbm.nextFill
      let s := putLine (addF s F.SPC_PF_ISSUED (dieO d) 1) d n w ⟨n / 16384, 0, 0, List.replicate 128 0, true⟩
      let full := covered s d n 15
      let f : Fill := ⟨id, d, n, [0, 1, 2, 3], ctlLine s d n, full, some w, none, none, 0⟩
      let s := { s with hbm := { s.hbm with fills := s.hbm.fills ++ [f], nextFill := id + 1 } }
      let s := addF s F.HBM_PC_LOAD_FORWARDED (pcO d c) (forwarded s d n 15)
      if full then s else modPc s d c (fun q => { q with rq := q.rq ++ [⟨id, n, false, false⟩] })

/-- An access of a stream to a line, with its prefetches: two misses in a row −16 to 16 lines apart train the stream, and an
access at its predicted line prefetches PF_DEPTH lines further on. -/
def streamAccess (s : State) (d who cls ways ln : Nat) (miss : Bool) : State :=
  let ss := (spcOf s d).streams
  let old := ss.find? (fun x => x.who == who)
  let rest := ss.filter (fun x => x.who != who)
  let put := fun (s : State) (x : Strm) => modSpc s d (fun c => { c with streams := (x :: rest).take 64 })
  match old with
  | none => if miss then put s ⟨who, ln, none⟩ else s
  | some x =>
    let at' := x.trained.any (fun t => t.1 == (ln : Int))
    let s := match x.trained with
      | some t =>
        if at' && isSet s F.SPC_CTL_PF_EN (dieO d) && spcState s d == 1 then
          (List.range (max 1 (getF s F.SPC_CTL_PF_DEPTH (dieO d)))).foldl (fun s (i : Nat) =>
            prefetch s d cls ways ((ln : Int) + ((i : Int) + 1) * t.2)) s
        else s
      | none => s
    let gap : Int := (ln : Int) - (x.last : Int)
    if at' then put s { x with last := (if miss then ln else x.last), trained := x.trained.map (fun t => ((ln : Int) + t.2, t.2)) }
    else if miss then
      put s ⟨who, ln, if gap ≠ 0 ∧ -16 ≤ gap ∧ gap ≤ 16 then some ((ln : Int) + gap, gap) else x.trained⟩
    else put s x

/-! ### Fills (R385, R400, R401) -/

/-- The missing sectors of a fill in the order of R401: the first one requested, then the rest ascending mod 4. -/
def fillOrder (need miss : Nat) : List Nat :=
  let f := ((List.range 4).find? (fun i => bits need i 1 == 1 && bits miss i 1 == 1)).getD 0
  ([f, f + 1, f + 2, f + 3].map (· % 4)).filter (fun i => bits miss i 1 == 1)

/-- A read miss makes a fill for a cell's request or another requester `who`: it enters the pseudo-channel's read queue in its
class (R382), or comes back without an access when write entries cover it (R385). -/
def startFill (s : State) (d ln need cls ways : Nat) (urgent : Bool) (req : Option MemReq) (who : Option Nat) : State :=
  let c := pcOf s d (ln * 128)
  let data := viewLine s d ln
  let x : State × Option Nat × Nat := match lineAt s d ln with
    | some (w, l) => (s, if spcState s d = 1 then some w else none, 15 - l.valid)
    | none =>
      let y := allocate s d ln (allowedWays s d ln cls ways)
      match y.2 with
      | some w => (touch (putLine y.1 d ln w ⟨ln / 16384, 0, 0, List.replicate 128 0, false⟩) d ln w, some w, 15)
      | none => (y.1, none, need)
  let s := x.1
  let full := covered s d ln x.2.2
  let id := s.hbm.nextFill
  let f : Fill := ⟨id, d, ln, fillOrder need x.2.2, data, full, x.2.1, req, who, 0⟩
  let s := { s with hbm := { s.hbm with fills := s.hbm.fills ++ [f], nextFill := id + 1 } }
  let s := addF s F.HBM_PC_LOAD_FORWARDED (pcO d c) (forwarded s d ln x.2.2)
  if full then s else modPc s d c (fun q => { q with rq := q.rq ++ [⟨id, ln, urgent, false⟩] })

/-! ### Coherent accesses of scan engines, codec engines, DMA, Brim and HBM_IND

A read of such a requester that misses starts a fill and waits for it: the requester's command is repeated until `hbmReady`
(log entry 80). -/

/-- Whether the sectors of a mask have come for the requester that waits for a fill, or the fill has failed. -/
def Fill.has (f : Fill) (need : Nat) : Bool := f.err != 0 || (f.back && f.order.all (fun i => bits need i 1 == 0))

/-- The fill of a line that a requester waits for. -/
def fillOf (s : State) (d ln who : Nat) : Option Fill := s.hbm.fills.find? (fun f => f.die == d && f.line == ln && f.who == some who)

/-- Whether a line is in the cache with the sectors of a mask. -/
def lineHit (s : State) (d ln need : Nat) : Bool :=
  spcState s d != 0 && (lineAt s d ln).any (fun x => x.2.valid &&& need == need)

/-- Whether a read of bytes `lo` to `hi - 1` of a line can be answered now. -/
def lineReady (s : State) (d ln lo hi who : Nat) : Bool :=
  match fillOf s d ln who with
  | some f => f.has (sectorsOf lo hi)
  | none => lineHit s d ln (sectorsOf lo hi) || lineState s d ln != 0

/-- A requester's read of a line starts its fill, if it needs one and there is room for it (R383). -/
def askLine (s : State) (d ln lo hi cls ways who : Nat) (urgent : Bool) : State :=
  let need := sectorsOf lo hi
  if (fillOf s d ln who).isSome || lineReady s d ln lo hi who || decide (48 ≤ (hpc s d (pcOf s d (ln * 128))).rq.length) ||
      !((lineAt s d ln).isSome || victimRoom s d ln (allowedWays s d ln cls ways)) then s
  else
    let s := startFill (if spcState s d = 0 then s else countMiss s d cls) d ln need cls ways urgent none (some who)
    if spcState s d = 0 then s else streamAccess s d who cls ways ln true

/-- A requester has taken what it waited for from a fill. -/
def takeFill (s : State) (f : Fill) : State :=
  { s with hbm := { s.hbm with fills := s.hbm.fills.filterMap (fun g =>
      if g.id ≠ f.id then some g else if g.order.isEmpty || g.err != 0 then none else some { g with who := none }) } }

/-- A requester gives its reads up. -/
def dropReads (s : State) (p : Nat → Bool) : State :=
  { s with hbm := { s.hbm with fills := s.hbm.fills.filterMap (fun g =>
      if g.who.any p then (if (g.order.isEmpty && g.back) || g.err != 0 then none else some { g with who := none }) else some g) } }

/-- Bytes `lo` to `hi - 1` of a line are read by a requester of a class (R397, R400): the data, and 0, or why there are none: the
state of a pseudo-channel that makes no access, 5 for an uncorrectable error (R411), 4 when the read must still wait. -/
def readLine (s : State) (d ln lo hi cls ways who : Nat) : State × Bytes × Nat :=
  let cut := fun (b : Bytes) => (b.take hi).drop lo
  match fillOf s d ln who with
  | some f =>
    if f.err ≠ 0 then (takeFill s f, [], f.err)
    else if f.has (sectorsOf lo hi) then (takeFill s f, cut f.data, 0) else (s, [], 4)
  | none =>
    match lineAt s d ln with
    | some (w, l) =>
      if lineHit s d ln (sectorsOf lo hi) then
        (streamAccess (hitLine (countHit s d cls) d ln w l) d who cls ways ln false, cut l.data, 0)
      else (s, [], if lineState s d ln = 0 then 4 else lineState s d ln)
    | none => (s, [], if lineState s d ln = 0 then 4 else lineState s d ln)

/-- Bytes `lo` to `lo + data.length - 1` of a line are written (R397, R398, R400). A line present takes every byte of its
valid sectors and every whole sector; the rest goes to the controller. -/
def writeLine (s : State) (d ln lo : Nat) (data : Bytes) (cls ways : Nat) : State × Nat :=
  let hi := lo + data.length
  let whole := wholeSectors lo hi
  let full : Bytes := List.replicate lo 0 ++ data ++ List.replicate (128 - hi) 0
  let part := byteTbl full lo hi
  match lineAt s d ln with
  | some (w, l) =>
    if spcState s d = 0 then
      if lineState s d ln ≠ 0 then (s, lineState s d ln) else (wqPush s d ln part, 0)
    else
      let keep := if spcState s d = 1 then l.valid ||| whole else l.valid
      let inC := part.filter (fun x => bits keep (x.1 / 32) 1 == 1)
      let out := part.filter (fun x => bits keep (x.1 / 32) 1 == 0)
      let dirty := l.dirty ||| (keep &&& sectorsOf lo hi)
      if out.isEmpty = false ∧ lineState s d ln ≠ 0 then (s, lineState s d ln)
      else
        let s := hitLine (countHit s d cls) d ln w l
        (wqPush (putLine s d ln w ⟨l.tag, keep, dirty, overlay l.data inC, false⟩) d ln out, 0)
  | none =>
    if lineState s d ln ≠ 0 then (s, lineState s d ln)
    else
      let s := if spcState s d = 0 then s else countMiss s d cls
      let x := if whole = 0 then (s, none) else allocate s d ln (allowedWays s d ln cls ways)
      let s := x.1
      match x.2 with
      | some w =>
        let s := touch (putLine s d ln w ⟨ln / 16384, whole, whole, mergeSectors (List.replicate 128 0) full whole, false⟩) d ln w
        (wqPush s d ln (part.filter (fun x => bits whole (x.1 / 32) 1 == 0)), 0)
      | none => (wqPush s d ln part, 0)

/-- The pieces of a range of bytes by line: line, first and end byte. -/
def pieces (a n : Nat) : List (Nat × Nat × Nat) :=
  (List.range ((a + n - 1) / 128 + 1 - a / 128)).map (fun i =>
    let ln := a / 128 + i
    (ln, a - ln * 128, min 128 (a + n - ln * 128)))

/-- Whether the reads of `n` bytes at stack address `a` of die `d` can all be answered now. -/
def hbmReady (s : State) (d a n who : Nat) : Bool := n == 0 || (pieces a n).all (fun p => lineReady s d p.1 p.2.1 p.2.2 who)

/-- The fills that a read of `n` bytes at stack address `a` of die `d` needs are started. -/
def hbmAsk (s : State) (d a n cls ways who : Nat) (urgent : Bool) : State :=
  if n = 0 then s else (pieces a n).foldl (fun s p => askLine s d p.1 p.2.1 p.2.2 cls ways who urgent) s

/-- Whether the queues have room for a write of `n` bytes at stack address `a` of die `d` (R383). -/
def hbmRoom (s : State) (d a n cls ways : Nat) : Bool :=
  n == 0 || (mirrorDies s d).all (fun e => (pieces a n).all (fun p => lineRoom s e p.1 cls ways))

/-- `n` bytes at stack address `a` of die `d` are read; the last component is 0, or the code of the first line that gives none. -/
def hbmRead (s : State) (d a n cls ways who : Nat) : State × Bytes × Nat :=
  if n = 0 then (s, [], 0)
  else (pieces a n).foldl (fun (x : State × Bytes × Nat) p =>
    if x.2.2 ≠ 0 then x
    else
      let r := readLine x.1 d p.1 p.2.1 p.2.2 cls ways who
      (r.1, x.2.1 ++ r.2.1, r.2.2)) (s, [], 0)

/-- Bytes are written at stack address `a` of die `d`, on every die that mirrors it (R515). -/
def hbmWrite (s : State) (d a : Nat) (data : Bytes) (cls ways : Nat) : State × Nat :=
  if data.isEmpty then (s, 0)
  else (mirrorDies s d).foldl (fun (y : State × Nat) e =>
    (pieces a data.length).foldl (fun (x : State × Nat) p =>
      if x.2 ≠ 0 then x
      else writeLine x.1 e p.1 p.2.1 ((data.drop (p.1 * 128 + p.2.1 - a)).take (p.2.2 - p.2.1)) cls ways) y) (s, 0)

/-- The way mask of a function (R400). -/
def fnWays (s : State) (fn : Nat) : Nat := if fn < 0x600 then getF s F.FN_ATTR_WAYS (fn * 0x10) else 0xFFFF

/-! ### Answers to fills (R391, R395, R401) -/

/-- The two sectors of an HRQ. -/
def hrqSectors (r : MemReq) : List Nat := [r.addr % 128 / 32, r.addr % 128 / 32 + 1]

/-- The 64 bytes of an HRQ in a line, as lanes. -/
def hrqLanes (r : MemReq) (data : Bytes) : Lanes := Lanes.ofList ((leWords (sub data (r.addr % 128) 64)).map some)

/-- The requester number of HBM_IND_DATA of die `d`. -/
def indWho (d : Nat) : Nat := 0x400000 + d

/-- ADDR rises by 8 after an access under AUTO_INC. -/
def hbmIndStep (s : State) (d : Nat) : State :=
  if isSet s F.HBM_IND_ADDR_AUTO_INC (dieO d) then addF s F.HBM_IND_ADDR_ADDR (dieO d) 8 else s

/-- HBM_IND_ADDR.FAULT takes the outcome of an access. -/
def hbmIndFault (s : State) (d : Nat) (f : Bool) : State := setF s F.HBM_IND_ADDR_FAULT (dieO d) (if f then 1 else 0)

/-- A read of HBM_IND_DATA of die `d` that waits is answered with the word, or with zero and FAULT. -/
def indAnswer (s : State) (d : Nat) (word : Option Nat) : State :=
  match Tbl.get? d s.hbm.ind with
  | some x =>
    let s := hbmIndStep (hbmIndFault { s with hbm := { s.hbm with ind := Tbl.del d s.hbm.ind } } d word.isNone) d
    answer s 0 (if x.2 = 8 then word.getD 0 else bits (word.getD 0) (8 * x.1) 32)
  | none => s

/-- The die whose HBM_IND_DATA a requester is. -/
def indDie (who : Nat) : Option Nat := (List.range 8).find? (fun d => indWho d == who)

/-- A fill ends without data: its requester is answered, or finds the error `st` when it asks again; its empty line is given
up. -/
def failFill (s : State) (f : Fill) (st : Nat) : State :=
  let keep := f.req.isNone && f.who.any (fun w => (indDie w).isNone)
  let s := { s with hbm := { s.hbm with fills := s.hbm.fills.filterMap (fun g =>
    if g.id ≠ f.id then some g else if keep then some { g with err := st, order := [] } else none) } }
  let s := match f.way, lineAt s f.die f.line with
    | some w, some (v, l) => if v = w ∧ l.valid = 0 then dropLine s f.die f.line w else s
    | _, _ => s
  match f.req, f.who.bind indDie with
  | some r, _ => if st = 3 then answerFenced s r else answerFrozen s r
  | none, some d => indAnswer s d none
  | none, none => s

/-- Every read in a pseudo-channel's queue, and every one issued whose data have not returned, is answered as its state says; the
queue's entries stay on show while it is frozen (R390, R391). -/
def failReads (s : State) (d c st : Nat) : State :=
  let q := hpc s d c
  let s := modPc s d c (fun q => { q with infl := [] })
  ((q.infl ++ q.rq).filterMap (fun e => s.hbm.fills.find? (fun f => f.id == e.fill && f.err == 0))).foldl (fun s f => failFill s f st) s

/-- A pseudo-channel freezes (R390): `kind` 0 read, 1 write, 2 command. -/
def freezePc (s : State) (d c cause addr kind syn : Nat) : State :=
  let o := pcO d c
  let s := setF (setF s F.HBM_PC_STAT_STATE o 1) F.HBM_PC_STAT_FREEZE_CAUSE o cause
  let s := setF (setF s F.HBM_PC_FRZ_A_ADDR o addr) F.HBM_PC_FRZ_A_KIND o kind
  let s := setF (setF s F.HBM_PC_FRZ_B_SYNDROME o syn) F.HBM_PC_FRZ_B_FC o (wall s)
  let s := noteSusp (modPc s d c (fun q => { q with drain := none })) (suspPc d c)
  let s := raise s F.HBM_EVENT_FROZEN (dieO d)
  let s := logD s d 0x0A02 fnNone c addr
  failReads s d c 1

/-! ### Controller commands (R383 to R386, R390) -/

/-- The read that R383 prefers: the oldest urgent one, unless a drain has served fewer than 16 writes since the last; the
oldest bulk read only outside a drain. -/
def pickRead (q : HPc) : Option Nat :=
  match findIdx (·.urgent) q.rq, q.drain with
  | some i, none => some i
  | some i, some n => if 16 ≤ n then some i else none
  | none, none => if q.rq.isEmpty then none else some 0
  | none, some _ => none

/-- HBM_READ_ISSUE (R383): the preferred read of a running pseudo-channel is issued. -/
def hbmReadIssue (s : State) (d c : Nat) : State :=
  let q := hpc s d c
  match pickRead q with
  | some i =>
    match q.rq[i]? with
    | some e =>
      if pcState s d c = 0 ∧ isSet s F.HBM_STACK_CTL_ENABLE (dieO d) = true then
        countAccess (modPc s d c (fun q => { q with rq := dropAt q.rq i, infl := q.infl ++ [e], drain := q.drain.map (fun _ => 0) })) d c 1
      else s
    | none => s
  | none => s

def execHbmReadIssue (d c : Nat) (s : State) : Res := .next (hbmReadIssue s d c)

/-- The drain in force at a write opportunity (R383). -/
def drainNow (q : HPc) : Option Nat :=
  match q.drain with
  | some n => some n
  | none => if decide (48 ≤ q.wq.length) || q.rq.isEmpty then some 0 else none

/-- HBM_WRITE_ISSUE (R383): the oldest write during a drain; an urgent read goes first after 16 writes. -/
def hbmWriteIssue (s : State) (d c : Nat) : State :=
  let q := hpc s d c
  match drainNow q with
  | some n =>
    if pcState s d c ≠ 0 ∨ isSet s F.HBM_STACK_CTL_ENABLE (dieO d) = false ∨ q.wq = [] ∨ (16 ≤ n ∧ q.rq.any (·.urgent) = true) then s
    else
      let s := issueWrite s d c
      modPc s d c (fun q => { q with drain := if q.wq.length ≤ 16 then none else some (n + 1) })
  | none => s

def execHbmWriteIssue (d c : Nat) (s : State) : Res := .next (hbmWriteIssue s d c)

/-- The data of a fill have come back. -/
def fillBack (s : State) (id : Nat) : State :=
  { s with hbm := { s.hbm with fills := s.hbm.fills.map (fun f => if f.id = id then { f with back := true } else f) } }

/-- The stack address at which a read fails: its fill's first missing sector. -/
def failAddr (s : State) (e : RdEnt) : Nat :=
  e.line * 128 + 32 * (((s.hbm.fills.find? (fun f => f.id == e.fill)).bind (fun f => f.order.head?)).getD 0)

/-- HBM_READ_RETURN (R386): the oldest issued read returns: `outcome` 0 good, 1 a sector corrected, else uncorrectable: read
once more, and frozen when the re-read fails too. A bulk requester whose read caused the freeze meets UNCORRECTABLE (R411). -/
def hbmReadReturn (s : State) (d c outcome syn : Nat) : State :=
  match (hpc s d c).infl with
  | e :: t =>
    let s := modPc s d c (fun q => { q with infl := t })
    let o := pcO d c
    if outcome = 0 then fillBack s e.fill
    else if outcome = 1 then
      let s := raise (satF s F.HBM_PC_ECC_CE o 1) F.HBM_EVENT_CORRECTED (dieO d)
      fillBack (countAccess s d c 1) e.fill
    else if e.again then
      let a := failAddr s e
      let fl := s.hbm.fills.find? (fun f => f.id == e.fill)
      let s := freezePc (satF s F.HBM_PC_ECC_UE o 1) d c 1 a 0 syn
      match fl with
      | some f => failFill s f (if e.urgent then 1 else 5)
      | none => s
    else
      let s := satF s F.HBM_PC_ECC_RETRIES o 1
      countAccess (modPc s d c (fun q => { q with infl := q.infl ++ [{ e with again := true }] })) d c 1
  | [] => s

def execHbmReadReturn (d c outcome syn : Nat) (s : State) : Res := .next (hbmReadReturn s d c outcome syn)

/-- The stack address of a write: its first sector with a byte to write. -/
def wqAddr (e : WqEnt) : Nat := e.line * 128 + ((e.bytes.head?.map (·.1)).getD 0) / 32 * 32

/-- HBM_PARITY_ERROR (R390): the stack reports a command or address parity error. The faulting access is the one issued
last, else the next to be issued. -/
def hbmParityError (s : State) (d c : Nat) : State :=
  if pcState s d c = 0 then
    let q := hpc s d c
    let a := match q.infl.getLast?, q.rq, q.wq with
      | some e, _, _ => failAddr s e
      | none, e :: _, _ => failAddr s e
      | none, [], e :: _ => wqAddr e
      | none, [], [] => 0
    freezePc s d c 2 a 2 0
  else s

def execHbmParityError (d c : Nat) (s : State) : Res := .next (hbmParityError s d c)

/-- HBM_WRITE_CRC_ERROR (R390): the oldest write is retried, and freezes the pseudo-channel after 4 retries. -/
def hbmWriteCrcError (s : State) (d c : Nat) : State :=
  match (hpc s d c).wq with
  | e :: t =>
    if pcState s d c ≠ 0 then s
    else if e.retries < 4 then
      satF (modPc s d c (fun q => { q with wq := { e with retries := e.retries + 1 } :: t })) F.HBM_PC_ECC_RETRIES (pcO d c) 1
    else freezePc s d c 3 (wqAddr e) 1 0
  | [] => s

def execHbmWriteCrcError (d c : Nat) (s : State) : Res := .next (hbmWriteCrcError s d c)

/-! ### Fence and channel reset (R392 to R395) -/

/-- The lines of a pseudo-channel leave the spill cache, dirty ones counted and logged (R395). -/
def invalidatePc (s : State) (d c : Nat) : State :=
  let mine := fun (e : Nat × CLine) => pcOf s d (keyLine e.1 e.2.tag * 128) == c
  let n := ((spcOf s d).lines.filter (fun e => mine e && e.2.dirty != 0)).length
  let s := modSpc s d (fun x => { x with lines := x.lines.filter (fun e => !mine e) })
  if n = 0 then s
  else
    let s := raise (satF s F.SPC_WB_WB_DISCARDED (dieO d) n) F.SPC_EVENT_WB_DISCARDED (dieO d)
    logD s d 0x0A03 fnNone c n

/-- A pseudo-channel becomes FENCED (R394, R395): `cause` 0 manager, 1 training failed. Its requests are answered, its queued
writes are lost, its lines leave the cache, its contents are undefined (R388), and the fence table records it. A pseudo-channel
that the interleave skips holds no location. -/
def fencePc (s : State) (d c cause : Nat) : State :=
  let o := pcO d c
  let s := setF (setF s F.HBM_PC_STAT_STATE o 3) F.HBM_PC_STAT_FENCE_CAUSE o cause
  let s := noteSusp (failReads s d c 3) (suspPc d c)
  let s := modPc s d c (fun _ => {})
  let s := raise s F.HBM_EVENT_FENCED (dieO d)
  let s := logD s d 0x0A03 fnNone c 0
  let s := invalidatePc s d c
  let out := skipOn s d && getF s F.HBM_STACK_CTL_SKIP_PC (dieO d) == c
  let s := if out then s else undefine s ⟨2, hbmAddr d 0, hbmAddr d (stackC s d - 1), stackP s d, pcPos s d c, .free⟩
  { s with hbm := { s.hbm with fences := Tbl.upd s.hbm.fences d 0 (fun m => m ||| 2 ^ c ||| cause * 2 ^ (32 + c)) } }

/-- HBM_CHANNEL_RESET (R392): both queues are discarded, writes counted as lost; reads are answered as R391 says. -/
def hbmChannelReset (s : State) (d c : Nat) : State :=
  if pcState s d c = 2 then s
  else
    let o := pcO d c
    let lost := (hpc s d c).wq
    let s := setF (setF s F.HBM_PC_CTL_RESET o 1) F.HBM_PC_STAT_STATE o 2
    let s := failReads s d c 2
    let s := modPc s d c (fun _ => {})
    let s := setF s F.HBM_PC_FRZ_B_LOST_WRITES o lost.length
    match lost with
    | e :: _ => logD (raise s F.HBM_EVENT_LOST_WRITES (dieO d)) d 0x0A02 fnNone c (e.line * 128 + (e.bytes.head?.map (·.1)).getD 0)
    | [] => s

def execHbmChannelReset (d c : Nat) (s : State) : Res := .next (hbmChannelReset s d c)

/-- The writebacks to a pseudo-channel that a drain or a running CLEAN_INVALIDATE holds are issued (R392, R407, R409). -/
def releaseHeld (s : State) (d c : Nat) : State :=
  let inOp := fun (ln : Nat) => match (spcOf s d).cmds with
    | x :: _ => x.op == 5 && isSet s F.SPC_CMD_STAT_BUSY (dieO d) && decide (x.addr / 128 ≤ ln ∧ ln < (x.addr + x.len) / 128)
    | [] => false
  ((spcOf s d).lines.filter (fun e => e.2.dirty != 0 && pcOf s d (keyLine e.1 e.2.tag * 128) == c &&
    (spcState s d == 2 || inOp (keyLine e.1 e.2.tag)))).foldl (fun s e =>
      let s := writeBack s d (keyLine e.1 e.2.tag) e.2
      modSpc s d (fun x => { x with lines := Tbl.put e.1 { e.2 with dirty := 0 } x.lines })) s

/-- The training of a channel reset puts a setting in force (R392); which one, and its margin, are free values (log entry 5). -/
def retrained (s : State) (d c : Nat) : State :=
  let a := fresh s 8
  let b := fresh a.2 8
  let s := if getF b.2 F.HBM_PC_TRAIN_SETTING (pcO d c) = a.1 then b.2
    else addF (setF b.2 F.HBM_PC_TRAIN_SETTING (pcO d c) a.1) F.HBM_PC_TRAIN_CHANGES (pcO d c) 1
  setF (setF s F.HBM_PC_TRAIN_MARGIN (pcO d c) b.1) F.HBM_PC_TRAIN_FC (pcO d c) (wall s)

/-- HBM_CHANNEL_RESET_DONE (R392, R410): the training of the reset has passed or failed. -/
def hbmChannelResetDone (s : State) (d c : Nat) (pass : Bool) : State :=
  if pcState s d c = 2 then
    let o := pcO d c
    let s := setF (setF s F.HBM_PC_CTL_RESET o 0) F.HBM_PC_STAT_FREEZE_CAUSE o 0
    if !pass then fencePc s d c 1
    else if isSet s F.HBM_PC_CTL_FENCE o then fencePc (retrained s d c) d c 0
    else
      let s := setF (setF s F.HBM_PC_STAT_STATE o 0) F.HBM_PC_STAT_FENCE_CAUSE o 0
      let s := releaseHeld (retrained s d c) d c
      { s with hbm := { s.hbm with fences := Tbl.upd s.hbm.fences d 0 (fun m => m - bits m c 1 * 2 ^ c - bits m (32 + c) 1 * 2 ^ (32 + c)) } }
  else s

def execHbmChannelResetDone (d c : Nat) (pass : Bool) (s : State) : Res := .next (hbmChannelResetDone s d c pass)

/-- HBM_FENCE (R394, R395, R410): FENCE is set, or cleared, which starts a channel reset. -/
def hbmFence (s : State) (d c : Nat) (set : Bool) : State :=
  let o := pcO d c
  let was := isSet s F.HBM_PC_CTL_FENCE o
  let s := setF s F.HBM_PC_CTL_FENCE o (if set then 1 else 0)
  if set then (if pcState s d c = 2 ∨ pcState s d c = 3 then s else fencePc s d c 0)
  else if was then hbmChannelReset s d c else s

def execHbmFence (d c : Nat) (set : Bool) (s : State) : Res := .next (hbmFence s d c set)

/-! ### Refresh and retraining (R387, R393) -/

/-- Whether a pseudo-channel takes part in a retraining pass (R393). -/
def trainable (s : State) (d c : Nat) : Bool := pcState s d c == 0

/-- The first pseudo-channel from `c` up that takes part. -/
def nextTrain (s : State) (d c : Nat) : Option Nat := (List.range 32).find? (fun x => decide (c ≤ x) && trainable s d x)

/-- The retraining position of stack `d` moves to pseudo-channel `x`, or the pass ends. -/
def setTrain (s : State) (d : Nat) (x : Option Nat) : State :=
  match x with
  | some c => setF { s with hbm := { s.hbm with retrain := Tbl.put d (c * 16) s.hbm.retrain } } F.HBM_RETRAIN_PC (dieO d) c
  | none => { s with hbm := { s.hbm with retrain := Tbl.del d s.hbm.retrain } }

/-- A training setting is in force: its margin, and a change of setting (R393). -/
def trainTo (s : State) (d c setting margin : Nat) : State :=
  let o := pcO d c
  let s := if getF s F.HBM_PC_TRAIN_SETTING o = setting % 256 then s
    else raise (addF (setF s F.HBM_PC_TRAIN_SETTING o setting) F.HBM_PC_TRAIN_CHANGES o 1) F.HBM_EVENT_RETRAINED (dieO d)
  setF s F.HBM_PC_TRAIN_MARGIN o margin

/-- The setting found in the last window takes effect (R393). -/
def trainApply (s : State) (d : Nat) : State :=
  match Tbl.get? d s.hbm.trained with
  | some x =>
    let s := { s with hbm := { s.hbm with trained := Tbl.del d s.hbm.trained } }
    if trainable s d x.1 then trainTo s d x.1 x.2.1 x.2.2 else s
  | none => s

/-- One retraining step inside a refresh window; a pseudo-channel that no longer runs is skipped, one without a working setting
is fenced (R394), and a setting found waits for the next window (R393). -/
def trainStep (s : State) (d k setting margin : Nat) (ok : Bool) : State :=
  let c := k / 16
  if !trainable s d c then setTrain s d (nextTrain s d (c + 1))
  else if !ok then setTrain (fencePc s d c 1) d (nextTrain s d (c + 1))
  else
    let s := { s with hbm := { s.hbm with trained := Tbl.put d (c, setting, margin) s.hbm.trained } }
    if k % 16 = 15 then setTrain (setF s F.HBM_PC_TRAIN_FC (pcO d c) (wall s)) d (nextTrain s d (c + 1))
    else { s with hbm := { s.hbm with retrain := Tbl.put d (k + 1) s.hbm.retrain } }

/-- REFRESH_WINDOW (R387, R393): the window runs; the setting of the last one takes effect, and while HBM_RETRAIN.EN is 1 one
step of a running retraining pass is made: the setting it finds, its margin, and whether it works. DESIGN CHOICE, log entry 72: a
pass that meets EN 0 ends there. -/
def refreshWindow (s : State) (d setting margin : Nat) (ok : Bool) : State :=
  let s := trainApply (addF s F.HBM_REFRESH_COUNT (dieO d) 1) d
  match Tbl.get? d s.hbm.retrain with
  | some k => if isSet s F.HBM_RETRAIN_EN (dieO d) then trainStep s d k setting margin ok else setTrain s d none
  | none => s

def execRefreshWindow (d setting margin : Nat) (ok : Bool) (s : State) : Res := .next (refreshWindow s d setting margin ok)

/-- RETRAIN_PASS_START (R393): while HBM_RETRAIN.EN is 1. -/
def retrainPassStart (s : State) (d : Nat) : State :=
  if isSet s F.HBM_RETRAIN_EN (dieO d) && (Tbl.get? d s.hbm.retrain).isNone then setTrain s d (nextTrain s d 0) else s

def execRetrainPassStart (d : Nat) (s : State) : Res := .next (retrainPassStart s d)

/-- HBM_STACK_HOT (R388): the sensor's reading; above 95 °C the event is set. -/
def hbmStackHot (s : State) (d temp : Nat) : State :=
  let s := setF s F.HBM_STACK_STAT_TEMP (dieO d) temp
  if 95 < temp then raise s F.HBM_EVENT_HOT (dieO d) else s

def execHbmStackHot (d temp : Nat) (s : State) : Res := .next (hbmStackHot s d temp)

/-! ### Indirect access (R377, R381, R413) -/

/-- Whether a stack address lies in one of the tables of Brim and the Gauntlet (R380). The spec gives their offsets and not their
form: what a read shows there is a free value (log entry 5). -/
def brimTable (s : State) (d a : Nat) : Bool :=
  let o := a - stackU s d * 2 ^ 30
  heldBack s d a && (decide (o < 0x120000) || (d == 0 && decide (0x200000 ≤ o ∧ o < 0x400000)))

/-- A read of HBM_IND_DATA of `len` bytes from byte `off` of the register: zero with FAULT where the address names no location
(R377) or its pseudo-channel makes no access; a word that is not in the cache comes with its fill, a bulk read (R382). -/
def hbmIndRead (s : State) (d off len : Nat) : State :=
  let a := getF s F.HBM_IND_ADDR_ADDR (dieO d) / 8 * 8
  let e := readDie s d
  if (Tbl.get? d s.hbm.ind).isSome then s
  else
    let s := { s with hbm := { s.hbm with ind := Tbl.put d (off % 8, len) s.hbm.ind } }
    if stackC s d ≤ a then indAnswer s d none
    else if brimTable s d a then let f := fresh s 64; indAnswer f.2 d (some f.1)
    else if hbmReady s e a 8 (indWho d) then
      let r := hbmRead s e a 8 11 0xFFFF (indWho d)
      indAnswer r.1 d (if r.2.2 = 0 then some (leNat r.2.1) else none)
    else hbmAsk s e a 8 11 0xFFFF (indWho d) false

/-- A write of HBM_IND_DATA by `fn`: `data` at byte `off` of the word; ignored beyond the stack, in the held-back area (R381) and
in a unit that a region holds (R413), where one that leaves the word as it stands logs nothing (R617). -/
def hbmIndWrite (s : State) (fn d off : Nat) (data : Bytes) : State :=
  let a := getF s F.HBM_IND_ADDR_ADDR (dieO d) / 8 * 8
  let o := a % 128 + off % 8
  let same := sub (viewLine s (readDie s d) (a / 128)) o data.length == data
  let s' :=
    if stackC s d ≤ a then hbmIndFault s d true
    else if heldBack s d a then logC (hbmIndFault s d true) d 0x0A04 fnNone d a
    else if regionHolds s 2 d (a / 2 ^ 30) then (if same then s else logWWR s fn (F.HBM_IND_DATA_DATA.base + dieO d))
    else
      let r := hbmWrite s d (a + off % 8) data 11 0xFFFF
      hbmIndFault r.1 d (r.2 != 0)
  hbmIndStep s' d

/-- HBM_IND_DATA_ACCESS (R413); on a die that is absent or held in reset, or in a gated block, a read gives 0 and a write does
nothing (R3, R50, R553). -/
def execHbmIndDataAccess (fn d : Nat) (write : Bool) (v : Nat) (s : State) : Res :=
  .next (if silentZero s (F.HBM_IND_DATA_DATA.base + dieO d) then (if write then s else answer s 0 0)
    else if write then hbmIndWrite s fn d 0 (leBytes 8 v) else hbmIndRead s d 0 8)

end Sys2Proof.Machine
end

