-- ==== Sys2Proof/Machine/PlatImage.lean ====
section
/-! DEFINITION. Plat images (R157 to R177): the walk over sections and records, and the plat that an image describes. -/

namespace Sys2Proof.Machine

/-- PLAT_SLOT_FAULT.FAULT_OFFSET when no field of the image fails (R184). -/
def noField : Nat := 0xFFFFFFFF

/-- A directory entry with the offset of its own bytes (R159). -/
structure DirEnt where
  at' : Nat
  type : Nat
  off : Nat
  len : Nat
  count : Nat
  deriving DecidableEq, Repr, Inhabited

/-- The directory of an image. -/
def dirOf (img : Bytes) : List DirEnt :=
  (List.range (fld img 12 2)).map (fun i =>
    let o := 64 + 16 * i
    ⟨o, fld img o 2, fld img (o + 4) 4, fld img (o + 8) 4, fld img (o + 12) 4⟩)

/-- Section of a type. -/
def sect (img : Bytes) (t : Nat) : Option DirEnt := (dirOf img).find? (fun e => e.type == t)

/-- Record size of a section type; 0 for MICROCODE, whose records vary (R160). -/
def recSize (t : Nat) : Nat :=
  match t with
  | 1 => 32 | 2 => 32 | 4 => 32 | 5 => 16 | 6 => 32 | 7 => 32 | 8 => 32 | 15 => 2432 | _ => 0

/-- Offsets of the records of a section of fixed record size. -/
def recOffs (img : Bytes) (t : Nat) : List Nat :=
  match sect img t with
  | some e => (List.range e.count).map (fun i => e.off + recSize t * i)
  | none => []

/-- Records with the records that follow each: `count o` is how many follow the record at `o`. -/
def nest (count : Nat → Nat) : (fuel : Nat) → List Nat → List (Nat × List Nat)
  | 0, _ => []
  | _, [] => []
  | n + 1, o :: t => (o, t.take (count o)) :: nest count n (t.drop (count o))

/-- GROUP and TABLE records with their COLUMN records. -/
def schemaRecs (img : Bytes) : List (Nat × List Nat) :=
  let rs := recOffs img 1
  nest (fun o => fld img (o + 6) 2) rs.length rs

/-- TRAVERSE records with their NODE records. -/
def graphRecs (img : Bytes) : List (Nat × List Nat) :=
  let rs := recOffs img 2
  nest (fun o => fld img (o + 6) 2) rs.length rs

/-- Offsets of MICROCODE records, `n` of them from `o` on (R169). -/
def microWalk (img : Bytes) : (n o : Nat) → List Nat
  | 0, _ => []
  | n + 1, o => o :: microWalk img n (o + 16 + 8 * byteAt img (o + 4))

/-- Offsets of MICROCODE records. -/
def microRecs (img : Bytes) : List Nat :=
  match sect img 3 with
  | some e => microWalk img e.count e.off
  | none => []

/-- Every NODE record. -/
def nodeRecs (img : Bytes) : List Nat := (graphRecs img).flatMap (fun t => t.2)

/-! ### The plat of an image -/

/-- A COLUMN record. -/
def columnAt (img : Bytes) (o : Nat) : Column :=
  ⟨byteAt img (o + 1), fld img (o + 2) 2, fld img (o + 4) 2, byteAt img (o + 6), byteAt img (o + 7)⟩

/-- A GROUP or TABLE record with its columns. -/
def groupAt (img : Bytes) (r : Nat × List Nat) : Group :=
  { isTable := byteAt img r.1 == 2, fed := byteAt img r.1 == 1 && bits (byteAt img (r.1 + 1)) 0 1 == 1,
    id := fld img (r.1 + 2) 2, w := fld img (r.1 + 4) 2, cols := r.2.map (columnAt img),
    raw := r.2.flatMap (fun o => sub img o 32) }

/-- A NODE record. -/
def nodeAt (img : Bytes) (o : Nat) : Node :=
  ⟨byteAt img (o + 1), fld img (o + 2) 2, fld img (o + 4) 4, fld img (o + 8) 2, sub img (o + 16) 16⟩

/-- TRAVERSE of a TRAVERSE record; bits 15:12 are reserved. -/
def travNum (img : Bytes) (o : Nat) : Nat := fld img (o + 2) 2 % 4096

/-- A TRAVERSE record with its nodes. -/
def travAt (img : Bytes) (r : Nat × List Nat) : Trav :=
  { input := byteAt img (r.1 + 1), num := travNum img r.1, prio := byteAt img (r.1 + 4),
    inputId := fld img (r.1 + 8) 2, coll := fld img (r.1 + 10) 2, nodes := r.2.map (nodeAt img) }

/-- A MICROCODE record. -/
def microAt (img : Bytes) (o : Nat) : Micro :=
  ⟨fld img o 4, (List.range (byteAt img (o + 4))).map (fun i => fld img (o + 16 + 8 * i) 8)⟩

/-- A ROUTE record. -/
def routeAt (img : Bytes) (o : Nat) : Route :=
  ⟨fld img o 4, byteAt img (o + 4), byteAt img (o + 5), byteAt img (o + 6), byteAt img (o + 7), fld img (o + 8) 4,
   fld img (o + 12) 2⟩

/-- A MATCH_LAYOUT record. -/
def layoutAt (img : Bytes) (o : Nat) : Layout := ⟨fld img o 2, fld img (o + 2) 2, fld img (o + 4) 2, fld img (o + 6) 2⟩

/-- A PARTITION record. -/
def partAt (img : Bytes) (o : Nat) : PartRec :=
  { kind := byteAt img o, die := byteAt img (o + 1), first := fld img (o + 2) 2, count := fld img (o + 4) 2,
    zeroInit := bits (byteAt img (o + 6)) 0 1 == 1, spread := bits (byteAt img (o + 6)) 1 1 == 1,
    purpose := byteAt img (o + 7), region := fld img (o + 8) 2 }

/-- A CERT record. -/
def certAt (img : Bytes) (o : Nat) : Cert :=
  { trav := fld img o 2, accept := byteAt img (o + 2), prio := byteAt img (o + 3), bound := fld img (o + 4) 4,
    pipe := fld img (o + 8) 4, results := fld img (o + 12) 2, hops := byteAt img (o + 14), hbmSerial := byteAt img (o + 15),
    sramSerial := fld img (o + 16) 2 }

/-- A STAKE record. -/
def stakeAt (img : Bytes) (o : Nat) : StakeRec :=
  { isGlobal := bits (byteAt img o) 0 1 == 1, rep := bits (byteAt img o) 1 1 == 1, repLog2 := byteAt img (o + 1),
    source := fld img (o + 2) 2, trav := fld img (o + 4) 2, value := fld img (o + 8) 8 }

/-- FLAGS.SIGNED of an image. -/
def imgSigned (img : Bytes) : Bool := bits (fld img 6 2) 0 1 == 1

/-- FLAGS.REPLACE of an image. -/
def imgReplace (img : Bytes) : Bool := bits (fld img 6 2) 1 1 == 1

/-- The signed range (R161). -/
def signedRange (img : Bytes) : Bytes :=
  match imgSigned img, sect img 15 with
  | true, some e => img.take e.off
  | _, _ => img

/-- The plat that an image describes, with its handle. -/
def platOf (img : Bytes) (handle : Nat) : Plat :=
  { handle := handle, owner := fld img 16 2 % 2048, signed := imgSigned img,
    keySlot := match sect img 15 with
      | some e => byteAt img e.off
      | none => 0
    svn := fld img 18 2, platId := fld img 24 8, replace := imgReplace img, replaces := fld img 20 2,
    schema := (schemaRecs img).map (groupAt img), travs := (graphRecs img).map (travAt img),
    micro := (microRecs img).map (microAt img), routes := (recOffs img 4).map (routeAt img),
    layouts := (recOffs img 5).map (layoutAt img), parts := (recOffs img 6).map (partAt img),
    certs := (recOffs img 7).map (certAt img), stakes := (recOffs img 8).map (stakeAt img),
    measure := sha3 (signedRange img) }

end Sys2Proof.Machine
end

