-- ==== Sys2Proof/Machine/PlatCheck.lean ====
section
/-! DEFINITION. The plat check order, phases B to E (R184), with the reasons of R198. Every check answers the byte offsets of
the fields at fault; the lowest is reported. -/

namespace Sys2Proof.Machine

/-- A field at `off` is at fault when `bad`. -/
def flag (bad : Bool) (off : Nat) : List Nat := if bad then [off] else []

/-- The bytes `off` to `off + n - 1` must be zero; `at'` is the field's offset. -/
def zeroed (img : Bytes) (off n at' : Nat) : List Nat := flag (!allZero (sub img off n)) at'

/-- Elements of a list whose key an earlier element has. -/
def repeated {α : Type} (key : α → Nat) : (seen : List Nat) → List α → List α
  | _, [] => []
  | seen, a :: t => if seen.contains (key a) then a :: repeated key seen t else repeated key (key a :: seen) t

/-- The outcome of a phase: status, reason and fault offset. -/
abbrev Verdict3 := Option (Nat × Nat × Nat)

/-- A phase fails with the lowest of its fault offsets. -/
def phase (faults : List Nat) (status reason : Nat) : Verdict3 := (minList faults).map (fun o => (status, reason, o))

/-- The first failure of a list of phases. -/
def firstFail : List Verdict3 → Verdict3
  | [] => none
  | some v :: _ => some v
  | none :: t => firstFail t

/-! ### Phase B: header and directory -/

/-- B3. -/
def headerFaults (img : Bytes) (len : Nat) : List Nat :=
  flag (bits (fld img 6 2) 2 14 != 0) 6 ++ flag (fld img 8 4 != len) 8 ++
  flag (decide (fld img 12 2 < 5 ∨ 9 < fld img 12 2)) 12 ++ flag (byteAt img 15 != 0) 15 ++
  flag (bits (fld img 16 2) 11 5 != 0) 16 ++ flag (fld img 20 2 != 0 && !imgReplace img) 20 ++ flag (fld img 22 2 != 0) 22 ++
  zeroed img 36 28 36

/-- Section types of R160. -/
def sectTypes : List Nat := [1, 2, 3, 4, 5, 6, 7, 8, 15]

/-- Entries of the directory one after another: types ascend, sections follow one another on 64-byte boundaries (R157, R160).
`pt` is the type before, `pe` the end of what comes before. -/
def dirOrder (img : Bytes) : (pt pe : Nat) → List DirEnt → List Nat
  | _, _, [] => []
  | pt, pe, e :: t =>
    flag (!sectTypes.contains e.type || decide (e.type ≤ pt)) e.at' ++
    flag (e.off % 64 != 0 || decide (e.off < pe)) (e.at' + 4) ++
    flag (decide (img.length < e.off + e.len) || (recSize e.type != 0 && e.len != e.count * recSize e.type)) (e.at' + 8) ++
    dirOrder img e.type (e.off + e.len) t

/-- The first nonzero byte that nothing covers, from `pe` on (R157). -/
def gapFault (img : Bytes) : (pe : Nat) → List DirEnt → List Nat
  | pe, [] => match findIdx (· != 0) (img.drop pe) with
    | some i => [pe + i]
    | none => []
  | pe, e :: t => (match findIdx (· != 0) ((img.take e.off).drop pe) with
    | some i => [pe + i]
    | none => []) ++ gapFault img (e.off + e.len) t

/-- B5. -/
def dirFaults (img : Bytes) : List Nat :=
  let d := dirOf img
  let fs := dirOrder img 0 (64 + 16 * d.length) d ++
    (match sect img 15 with
     | some e => flag (!imgSigned img) e.at' ++ flag (e.off + 2432 != img.length) (e.at' + 4) ++ flag (e.count != 1) (e.at' + 12)
     | none => flag (imgSigned img) noField) ++
    [2, 3, 4, 5, 7].flatMap (fun t => flag (sect img t).isNone noField)
  if fs.isEmpty then gapFault img (64 + 16 * d.length) d else fs

/-- Phases B1 to B5 for an image of `len` bytes. -/
def phaseB (s : State) (img : Bytes) (len : Nat) : Verdict3 :=
  firstFail [
    phase (flag (fld img 0 4 != 0x54414C50) 0) stMalformed 0x0506,
    phase (flag (byteAt img 5 != 1) 4) stMalformed 0x0507,
    phase (headerFaults img len) stMalformed 0x0508,
    phase (flag (byteAt img 14 != 0 && byteAt img 14 != s.part.code) 14) stRejected 0x0509,
    phase (dirFaults img) stMalformed 0x050A]

/-! ### Phase C: signing policy (R195, R576) -/

/-- The key in a plat key slot; slot 0 holds the key from ROM. -/
def platKey (s : State) (k : Nat) : Option Bytes :=
  if k = 0 then some Config.romPlatKey else if k < 8 then Tbl.get? k s.sec.keys else none

/-- C1. -/
def phaseC1 (s : State) (signed : Bool) : Verdict3 :=
  phase (flag (!signed && isSet s F.PLAT_POLICY_REQUIRE_SIGNED 0) 6) stRejected 0x050B

/-- C4. -/
def phaseC4 (s : State) (signed : Bool) (svn : Nat) : Verdict3 :=
  phase (flag (signed && decide (svn < getF s F.PLAT_POLICY_MIN_SVN 0)) 18) stRejected 0x050E

/-- C2 and C3. -/
def phaseC23 (s : State) (img : Bytes) : Verdict3 :=
  match imgSigned img, sect img 15 with
  | true, some e =>
    match platKey s (byteAt img e.off) with
    | none => some (stRejected, 0x050C, e.off)
    | some k =>
      if fld img (e.off + 4) 2 ≠ 2420 then some (stRejected, 0x050C, e.off + 4)
      else if Config.mldsaVerify k (signedRange img) (sub img (e.off + 8) 2420) then none
      else some (stRejected, 0x050D, e.off + 8)
  | _, _ => none

/-! ### Phase D1: SCHEMA (R162 to R165) -/

/-- Faults of a COLUMN record of a group with `w` words and `n` columns. -/
def columnFaults (img : Bytes) (w n : Nat) (fed : Bool) (c : Nat) : List Nat :=
  let ty := byteAt img (c + 1)
  let lsb := byteAt img (c + 6)
  let b := byteAt img (c + 7)
  flag (byteAt img c != 3) c ++ flag (decide (4 < ty)) (c + 1) ++ flag (decide (n ≤ fld img (c + 2) 2)) (c + 2) ++
  flag (decide (w ≤ fld img (c + 4) 2)) (c + 4) ++ flag (decide (63 < lsb)) (c + 6) ++
  flag (decide (b < 1 ∨ 64 < lsb + b) || (ty == 2 && b != 32) || (ty == 3 && b != 64) || (fed && b != 64)) (c + 7)

/-- Faults of a GROUP or TABLE record with its columns. A reserved field's value is ignored in every record (R14): only
reserved header fields are judged (R184 phase B3). -/
def groupFaults (img : Bytes) (r : Nat × List Nat) : List Nat :=
  let o := r.1
  let k := byteAt img o
  let w := fld img (o + 4) 2
  let n := fld img (o + 6) 2
  let fed := k == 1 && bits (byteAt img (o + 1)) 0 1 == 1
  flag (k != 1 && k != 2) o ++ flag (k == 1 && fld img (o + 2) 2 == 0) (o + 2) ++ flag (decide (w < 1 ∨ 1024 < w) || (fed && w != 8)) (o + 4) ++
  flag (decide (n < 1 ∨ 4096 < n) || r.2.length != n || (fed && n != 8)) (o + 6) ++
  r.2.flatMap (columnFaults img w n fed) ++
  (repeated (fun c => fld img (c + 2) 2) [] r.2).map (· + 2) ++
  (if fed then (repeated (fun c => fld img (c + 4) 2) [] r.2).map (· + 4) else [])

/-- D1. -/
def schemaFaults (img : Bytes) : List Nat :=
  let rs := schemaRecs img
  rs.flatMap (groupFaults img) ++
  ((repeated (fun (r : Nat × List Nat) => fld img (r.1 + 2) 2) [] (rs.filter (fun r => byteAt img r.1 == 1))).map (fun r => r.1 + 2))

/-! ### Phase D2: GRAPH (R166 to R168, R263 to R267, R283, R288) -/

/-- Function bytes of an AGGREGATE or WINDOW node at fault, with `hist` telling whether HIST is allowed. -/
def fnFault (b : Nat) (hist : Bool) : Bool :=
  let f := bits b 0 4
  decide (7 < f) || (f == 7 && !hist) || (decide (2 ≤ bits b 4 2) && f != 2 && f != 3) || (bits b 6 1 == 1 && f != 1) || bits b 7 1 == 1

/-- The offsets of the nonzero bytes among `n` from `off`: bytes of PARAM that no field covers (R266). -/
def nonzeroBytes (img : Bytes) (off n : Nat) : List Nat := ((List.range n).filter (fun i => byteAt img (off + i) != 0)).map (off + ·)

/-- Faults of the PARAM bytes at offset `q` of a node (R266, R267, R282, R283, and R293's limit on the owner of a TRIG_OUT
node). `input` is the traverse's INPUT, `ncells` the
node's NCELLS. -/
def paramFaults (img : Bytes) (op input ncells q : Nat) : List Nat :=
  let b := fun i => byteAt img (q + i)
  let z := fun i n => nonzeroBytes img (q + i) n
  let cols := z (4 + 2 * min 6 (b 3)) (12 - 2 * min 6 (b 3))
  let kw := fun lo hi => flag (decide (b 0 < lo ∨ hi < b 0)) q
  match op with
  | 1 => flag (if input = 0 ∨ input = 3 then decide (1 < b 2) else b 2 != 0) (q + 2) ++ flag (decide (b 3 < 1 ∨ 6 < b 3)) (q + 3) ++ cols
  | 2 => flag (b 2 != 0) (q + 2) ++ flag (decide (b 3 < 1 ∨ 6 < b 3)) (q + 3) ++ cols
  | 3 => z 0 16
  | 4 => flag (decide (2 < b 0)) q ++ flag (decide (63 < b 1)) (q + 1) ++ flag (decide (b 2 < 1 ∨ 64 < b 1 + b 2)) (q + 2) ++
      flag (decide (3 < b 3)) (q + 3) ++ z 4 4
  | 5 => z 0 16
  | 6 => z 0 16
  | 7 => kw 1 3 ++ flag (decide (1 < b 1)) (q + 1) ++ z 2 2 ++ z 12 4
  | 8 => kw 1 3 ++ z 1 3 ++ z 12 4
  | 9 => kw 1 3 ++ flag (decide (4 < b 1)) (q + 1) ++ z 2 2 ++ z 12 4
  | 10 => kw 1 3 ++ z 1 3 ++ z 12 4
  | 11 => kw 1 3 ++ z 1 3 ++ z 12 4
  | 12 => kw 1 3 ++ flag (decide (4 < b 1)) (q + 1) ++ z 2 2 ++ z 12 4
  | 13 => kw 0 3 ++ flag (decide (b 1 < 1 ∨ 4 < b 1 ∨ 7 < b 0 + b 1)) (q + 1) ++ flag (decide (1 < b 2)) (q + 2) ++ z 3 1 ++
      flag (decide (fld img (q + 4) 4 < 1 ∨ 2 ^ 24 < fld img (q + 4) 4)) (q + 4)
  | 14 =>
    let fns := (List.range (min 3 (b 1))).map (fun i => b (2 + i))
    let h := (fns.filter (fun f => bits f 0 4 == 7)).length
    kw 0 3 ++ flag (decide (b 1 < 1 ∨ 3 < b 1)) (q + 1) ++
    (List.range (min 3 (b 1))).flatMap (fun i => flag (fnFault (b (2 + i)) true) (q + 2 + i)) ++ z (2 + min 3 (b 1)) (3 - min 3 (b 1)) ++
    flag (decide (1 < h ∨ 3 < b 0 + h ∨ 8 < b 0 + h + b 1)) q ++
    flag (decide (63 < b 5)) (q + 5) ++ flag (fld img (q + 6) 2 == 0) (q + 6)
  | 15 =>
    let size := fld img (q + 8) 4
    let slide := fld img (q + 12) 4
    flag (decide (1 < b 0)) q ++ flag (decide (2 < b 1)) (q + 1) ++ flag (decide (b 2 < 1 ∨ 3 < b 2)) (q + 2) ++
    (List.range (min 3 (b 2))).flatMap (fun i => flag (fnFault (b (3 + i)) false) (q + 3 + i)) ++
    z (3 + min 3 (b 2)) (5 - min 3 (b 2)) ++
    flag (size == 0) (q + 8) ++
    flag (if b 0 = 0 then slide != 0 else (slide == 0 || size % slide != 0 || decide (16 < size / slide))) (q + 12)
  | 16 => flag (decide (3 < b 0)) q ++ flag (decide (3 < b 1)) (q + 1) ++ flag (decide (b 2 < 1 ∨ 4 < b 2)) (q + 2) ++ z 3 13
  | 17 => flag (decide (3 < b 0)) q ++ flag (decide (3 < b 1)) (q + 1) ++ flag (decide (b 2 < 1 ∨ 4 < b 2)) (q + 2) ++ z 3 1 ++
      flag (decide (fld img (q + 4) 4 < 1 ∨ 65536 < fld img (q + 4) 4)) (q + 4) ++ z 8 8
  | 18 => kw 1 3 ++ z 1 3 ++ z 12 4
  | 19 => flag (decide (1 < b 0)) q ++ flag (decide (ncells ≤ b 1)) (q + 1) ++ z 2 6
  | 20 => flag (decide (3 < b 0) || (b 0 == 3 && !isPf (fld img 16 2 % 2048))) q ++ flag (decide (8 < b 1) || (b 0 == 0 && decide (2 < b 1))) (q + 1) ++
      flag (decide (7 < b 2) && b 2 != 255) (q + 2) ++ flag (decide (3 ≤ b 3 ∧ b 3 < 128)) (q + 3) ++
      flag ((decide (15 < b 6) && b 6 != 255) || (b 6 == 255 && b 0 == 2 && input != 0 && input != 3)) (q + 6) ++
      flag (decide (7 < b 7)) (q + 7) ++ z 11 5
  | _ => []

/-- The operators of each kind of traverse (R265). -/
def opAllowed (op input : Nat) : Bool :=
  let stream := input == 0 || input == 3
  if op = 1 then input != 2
  else if op = 2 then input == 1
  else if [3, 5, 6, 7, 8, 9, 10, 11, 12, 20].contains op then true
  else if op = 4 ∨ op = 19 then stream
  else if [13, 15, 18].contains op then input != 2
  else if [14, 16, 17].contains op then input == 1
  else false

/-- Bytes of a memory region that the PARTITION section gives, by KIND. -/
def regionBytes (img : Bytes) (region : Nat) : Nat :=
  ((recOffs img 6).filter (fun o => fld img (o + 8) 2 == region)).foldl (fun n o =>
    n + fld img (o + 4) 2 * (if byteAt img o = 1 then 2 ^ 26 else 2 ^ 30)) 0

/-- Faults of a NODE record. -/
def nodeFaults (img : Bytes) (input o : Nat) : List Nat :=
  let op := byteAt img (o + 1)
  let nc := fld img (o + 2) 2
  flag (byteAt img o != 2) o ++ flag (decide (op < 1 ∨ 20 < op) || !opAllowed op input) (o + 1) ++
  flag (decide (nc < 1 ∨ 4096 < nc)) (o + 2) ++
  flag (decide (32768 < fld img (o + 4) 4 + nc)) (o + 4) ++
  paramFaults img op input nc (o + 16) ++
  flag (op == 17 && decide (regionBytes img (fld img (o + 8) 2) < 16 * fld img (o + 20) 4)) (o + 20)

/-- The number of head nodes of a traverse. -/
def headCount (img : Bytes) (ns : List Nat) : Nat := (ns.takeWhile (fun o => decide (byteAt img (o + 1) ≤ 2))).length

/-- Faults in how a traverse's nodes begin (R265). -/
def headFaults (img : Bytes) (input inputId : Nat) (cols : Nat → Option Nat) (ns : List Nat) : List Nat :=
  let h := headCount img ns
  let heads := ns.take h
  let late := (ns.drop h).flatMap (fun o => flag (decide (byteAt img (o + 1) ≤ 2)) (o + 1))
  if input = 2 then (match ns with
    | o :: _ => flag (byteAt img (o + 1) != 6) (o + 1)
    | [] => [])
  else
    let id0 := match heads with
      | o :: _ => fld img (o + 16) 2
      | [] => 0
    let want := if input = 1 then id0 else inputId
    let colOffs := heads.flatMap (fun o => (List.range (min 6 (byteAt img (o + 19)))).map (fun k => o + 20 + 2 * k))
    late ++
    (match ns with
     | o :: _ => flag (h == 0) (o + 1)
     | [] => []) ++
    (heads.drop 4).map (· + 1) ++ heads.flatMap (fun o => flag (fld img (o + 16) 2 != want) (o + 16)) ++
    (match cols want with
     | some n => colOffs.flatMap (fun o => flag (decide (n ≤ fld img o 2)) o)
     | none => heads.flatMap (fun o => flag (input == 1) (o + 16))) ++
    repeated (fun o => fld img o 2) [] colOffs

/-- Columns of a group of the plat or of the active schema. -/
def groupCols (s : State) (sch : List Group) (id : Nat) : Option Nat :=
  match sch.find? (fun g => !g.isTable && g.id == id) with
  | some g => some g.cols.length
  | none => (activeGroup s id).map (fun g => g.cols.length)

/-- FED_INPUT of a group of the plat or of the active schema. -/
def groupFed (s : State) (sch : List Group) (id : Nat) : Option Bool :=
  match sch.find? (fun g => !g.isTable && g.id == id) with
  | some g => some g.fed
  | none => (activeGroup s id).map (·.fed)

/-- Faults of a TRAVERSE record with its nodes. -/
def travFaults (s : State) (img : Bytes) (sch : List Group) (r : Nat × List Nat) : List Nat :=
  let o := r.1
  let input := byteAt img (o + 1)
  let id := fld img (o + 8) 2
  let n := fld img (o + 6) 2
  let stream := input == 0 || input == 3
  flag (byteAt img o != 1) o ++ flag (decide (3 < input)) (o + 1) ++ flag (decide (15 < byteAt img (o + 4))) (o + 4) ++
  flag (decide (n < 1 ∨ 512 < n) || r.2.length != n) (o + 6) ++
  flag (if stream then groupFed s sch id != some (input == 3) else id != 0) (o + 8) ++
  flag (decide (512 ≤ fld img (o + 10) 2)) (o + 10) ++
  r.2.flatMap (nodeFaults img input) ++
  headFaults img input id (fun x => if input = 1 then (sch.find? (fun g => g.isTable && g.id == x)).map (fun g => g.cols.length)
                                    else groupCols s sch x) r.2

/-- Nodes whose cells an earlier node holds too. -/
def overlapNodes (img : Bytes) : (seen : List (Nat × Nat)) → List Nat → List Nat
  | _, [] => []
  | seen, o :: t =>
    let a := fld img (o + 4) 4
    let b := a + fld img (o + 2) 2
    flag (seen.any (fun x => decide (a < x.2 ∧ x.1 < b))) (o + 4) ++ overlapNodes img ((a, b) :: seen) t

/-- D2. -/
def graphFaults (s : State) (img : Bytes) : List Nat :=
  let rs := graphRecs img
  let sch := (schemaRecs img).map (groupAt img)
  rs.flatMap (travFaults s img sch) ++
  (repeated (fun (r : Nat × List Nat) => travNum img r.1) [] rs).map (fun r => r.1 + 2) ++ overlapNodes img [] (nodeRecs img)

/-! ### Phase D3: MICROCODE (R169, R215) -/

/-- How an operation uses its word: the sources it reads, whether it writes a register or names a port in D, the values of a
sub-operation in C (0 for none), SAT and SGN, the bits of IMM it takes as a parameter, and whether it adds IMM as an
offset. -/
structure OpUse where
  a : Bool := false
  b : Bool := false
  c : Bool := false
  d : Bool := false
  port : Bool := false
  subs : Nat := 0
  sat : Bool := false
  sgn : Bool := false
  param : Nat := 0
  offset : Bool := false
  deriving DecidableEq, Repr, Inhabited

/-- The operations of R217 to R237. -/
def opUse (op : Nat) : Option OpUse :=
  let r1 : OpUse := { a := true, d := true }
  let r2 : OpUse := { a := true, b := true, d := true }
  if op = 0x00 then some {}
  else if [0x01, 0x0D, 0x11, 0x12, 0x13, 0x25, 0x33, 0x34, 0x35, 0x36, 0x46, 0x47, 0x61, 0x63].contains op then some r1
  else if [0x02, 0x03, 0x04].contains op then some { r2 with sat := true, sgn := true }
  else if [0x05, 0x08, 0x09, 0x0F, 0x22, 0x23].contains op then some { r2 with sgn := true }
  else if op = 0x06 ∨ op = 0x07 ∨ op = 0x30 then some { r1 with sat := true, sgn := true }
  else if [0x0A, 0x0B, 0x0C, 0x0E, 0x10, 0x20, 0x21, 0x26, 0x40, 0x41, 0x42, 0x43, 0x50, 0x60].contains op then some r2
  else if op = 0x14 then some { r1 with sgn := true, param := 0x3F3F }
  else if op = 0x15 then some { r2 with param := 0x3F3F }
  else if op = 0x24 then some { r2 with c := true }
  else if op = 0x27 ∨ op = 0x28 then some { r1 with c := true }
  else if op = 0x31 ∨ op = 0x32 then some { r1 with sgn := true }
  else if op = 0x44 ∨ op = 0x45 then some { r2 with param := 7 }
  else if op = 0x62 then some { r1 with param := 7 }
  else if op = 0x70 then some { r1 with offset := true }
  else if op = 0x71 then some { a := true, b := true, offset := true }
  else if op = 0x72 then some { r2 with subs := 8, offset := true }
  else if op = 0x78 then some { a := true, b := true, port := true, subs := 3, param := 0xFFFF }
  else if op = 0x79 then some { a := true, b := true, port := true, subs := 2, param := 0xFFFF }
  else if op = 0x7C then some { a := true, param := 0xFFFFFF07 }
  else if op = 0x7D then some { a := true, b := true, param := 0xFFFFFF07 }
  else none

/-- Whether an instruction decodes (R215); `kind` gives the KIND of a region of the plat. -/
def decodes (kind : Nat → Option Nat) (w : Nat) : Bool :=
  match opUse (iOp w) with
  | none => false
  | some u =>
    let names := (u.a && iA w == 12) || (u.b && iB w == 12) || (u.c && iC w == 12)
    let imm := iImm w
    let width := if bits imm 8 6 = 0 then 64 else bits imm 8 6
    (if u.d then decide (iD w < 8) else if u.port then decide (iD w < 4) else iD w == 0) &&
    (u.a || iA w == 0) && (u.b || iB w == 0) && (if u.c then true else if u.subs = 0 then iC w == 0 else decide (iC w < u.subs)) &&
    (u.sat || !iSat w) && (u.sgn || !iSgn w) && bits w 27 5 == 0 && !(u.param != 0 && names) &&
    (names || u.offset || imm &&& u.param == imm) &&
    (iOp w != 0x63 || decide (8 ≤ iA w ∧ iA w ≤ 11)) &&
    ((iOp w != 0x14 && iOp w != 0x15) || decide (bits imm 0 6 + width ≤ 64)) &&
    ((iOp w != 0x44 && iOp w != 0x45) || decide (bits imm 0 3 ≤ 4)) &&
    (iOp w != 0x78 || kind (bits imm 0 16) == some 1) && (iOp w != 0x79 || kind (bits imm 0 16) == some 2)

/-- Whether a plat may name die `d` (R513): present, not the second die of a pair that is SYNCING, TWINNED or SOLO, nor the
first of one that is SYNCING. -/
def dieNameable (s : State) (d : Nat) : Bool :=
  present s.part d &&
  (let st := getF s F.TWN_PAIR_STAT_STATE (d / 2 * 0x40)
   if d % 2 = 1 then !(decide (1 ≤ st ∧ st ≤ 3)) else st != 1)

/-- The KIND of a region in the PARTITION section. -/
def regionKind (img : Bytes) (region : Nat) : Option Nat :=
  ((recOffs img 6).find? (fun o => fld img (o + 8) 2 == region)).map (fun o => byteAt img o)

/-- Whether a cell lies in a node of the plat. -/
def inNode (img : Bytes) (g : Nat) : Bool :=
  (nodeRecs img).any (fun o => decide (fld img (o + 4) 4 ≤ g ∧ g < fld img (o + 4) 4 + fld img (o + 2) 2))

/-- Faults of a MICROCODE record. -/
def microFaults (s : State) (img : Bytes) (o : Nat) : List Nat :=
  let g := fld img o 4
  let n := byteAt img (o + 4)
  flag (!inNode img g || !dieNameable s (g / 4096)) o ++ flag (decide (n < 1 ∨ 32 < n)) (o + 4) ++
  (List.range (min 32 n)).flatMap (fun i => flag (!decodes (regionKind img) (fld img (o + 16 + 8 * i) 8)) (o + 16 + 8 * i))

/-- D3. -/
def microcodeFaults (s : State) (img : Bytes) : List Nat :=
  let rs := microRecs img
  let have' := rs.map (fun o => fld img o 4)
  let sum := rs.foldl (fun n o => n + 16 + 8 * byteAt img (o + 4)) 0
  (match sect img 3 with
   | some e => flag (sum != e.len) (e.at' + 8)
   | none => []) ++
  rs.flatMap (microFaults s img) ++ repeated (fun o => fld img o 4) [] rs ++
  (nodeRecs img).flatMap (fun o => flag (!((List.range (fld img (o + 2) 2)).all (fun i => have'.contains (fld img (o + 4) 4 + i)))) noField)

/-! ### Phase D4: ROUTES (R170, R235, R238) -/

/-- The traverse whose node holds a cell. -/
def travOfCell (img : Bytes) (g : Nat) : Option Nat :=
  ((graphRecs img).find? (fun r => r.2.any (fun o => decide (fld img (o + 4) 4 ≤ g ∧ g < fld img (o + 4) 4 + fld img (o + 2) 2)))).map
    (fun r => travNum img r.1)

/-- The TRAVERSE record of a traverse number. -/
def travRec (img : Bytes) (t : Nat) : Option Nat := ((graphRecs img).find? (fun r => travNum img r.1 == t)).map (·.1)

/-- Whether a cell of the plat lies on a global tile. -/
def platOnTile (img : Bytes) (tile : Nat) : Bool :=
  (nodeRecs img).any (fun o => decide (fld img (o + 4) 4 / 64 ≤ tile ∧ tile ≤ (fld img (o + 4) 4 + fld img (o + 2) 2 - 1) / 64))

/-- Whether a traverse holds a cell on a global tile. -/
def travOnTile (img : Bytes) (t tile : Nat) : Bool :=
  (graphRecs img).any (fun r => travNum img r.1 == t && r.2.any (fun o =>
    decide (fld img (o + 4) 4 / 64 ≤ tile ∧ tile ≤ (fld img (o + 4) 4 + fld img (o + 2) 2 - 1) / 64)))

/-- Faults of a ROUTE record. -/
def routeFaults (s : State) (img : Bytes) (o : Nat) : List Nat :=
  let k := byteAt img (o + 5)
  let m := byteAt img (o + 7)
  let d := fld img (o + 8) 4
  let t := fld img (o + 12) 2
  let g := fld img o 4
  flag (!inNode img g) o ++ flag (decide (3 < byteAt img (o + 4))) (o + 4) ++ flag (decide (4 < k)) (o + 5) ++
  flag (if k ≤ 1 then decide (3 < byteAt img (o + 6)) else byteAt img (o + 6) != 0) (o + 6) ++
  flag (if k = 1 then (List.range 8).any (fun x => bits m x 1 == 1 && !dieNameable s x) else m != 0) (o + 7) ++
  flag (match k with
    | 0 => !inNode img d
    | 1 => decide (4096 ≤ d) || (List.range 8).any (fun x => bits m x 1 == 1 && !inNode img (x * 4096 + d))
    | 2 => !travOnTile img t d || !dieNameable s (d / 64)
    | 3 => d % 16 == getF s F.TRN_PKG_PKG_NUM 0
    | _ => d != 0) (o + 8) ++
  flag (travOfCell img g != some t) (o + 12)

/-- Whether a port of a cell is the reply port of one of its requests. -/
def isReplyPort (img : Bytes) (g port : Nat) : Bool :=
  (microRecs img).any (fun o => fld img o 4 == g && (List.range (byteAt img (o + 4))).any (fun i =>
    let w := fld img (o + 16 + 8 * i) 8
    (iOp w == 0x78 || iOp w == 0x79) && iD w == port))

/-- Routes that overfill a port or a tile's table, or break the rule of reply ports. -/
def routeLimits (img : Bytes) : (seen : List Nat) → List Nat → List Nat
  | _, [] => []
  | seen, o :: t =>
    let g := fld img o 4
    let p := byteAt img (o + 4)
    let same := (seen.filter (fun x => fld img x 4 == g && byteAt img (x + 4) == p)).length
    let tile := (seen.filter (fun x => fld img x 4 / 64 == g / 64)).length
    let reply := isReplyPort img g p
    flag (decide (8 ≤ same) || decide (2048 ≤ tile) || (reply && decide (1 ≤ same))) o ++
    flag (reply && byteAt img (o + 5) != 0) (o + 5) ++ routeLimits img (o :: seen) t

/-- D4. -/
def routesFaults (s : State) (img : Bytes) : List Nat :=
  (recOffs img 4).flatMap (routeFaults s img) ++ routeLimits img [] (recOffs img 4)

/-! ### Phase D5: MATCH_LAYOUT (R171) -/

/-- Faults of a MATCH_LAYOUT record, judged against the records before it. -/
def layoutFaults (img : Bytes) : (seen : List Nat) → List Nat → List Nat
  | _, [] => []
  | seen, o :: t =>
    let a := fld img (o + 4) 2
    let b := a + fld img (o + 6) 2
    flag (!platOnTile img (fld img o 2)) o ++ flag ((travRec img (fld img (o + 2) 2)).isNone) (o + 2) ++
    flag (decide (1023 < a) || seen.any (fun x => fld img x 2 == fld img o 2 &&
      decide (a < fld img (x + 4) 2 + fld img (x + 6) 2 ∧ fld img (x + 4) 2 < b))) (o + 4) ++
    flag (decide (fld img (o + 6) 2 < 1 ∨ 1024 < b)) (o + 6) ++ layoutFaults img (o :: seen) t

/-- The tiles that a node's cells lie on. -/
def nodeTiles (img : Bytes) (o : Nat) : List Nat :=
  let a := fld img (o + 4) 4
  (List.range ((a + fld img (o + 2) 2 - 1) / 64 + 1 - a / 64)).map (fun i => a / 64 + i)

/-- D5. -/
def matchFaults (img : Bytes) : List Nat :=
  layoutFaults img [] (recOffs img 5) ++
  (graphRecs img).flatMap (fun r => r.2.flatMap (fun o => (nodeTiles img o).flatMap (fun tile =>
    flag (!(recOffs img 5).any (fun l => fld img l 2 == tile && fld img (l + 2) 2 == travNum img r.1)) noField)))

/-! ### Phase D6: PARTITION (R172, R173, R266, R356, R357, R379, R513) -/

/-- Records of one region. -/
def regionRecs (img : Bytes) (region : Nat) : List Nat := (recOffs img 6).filter (fun o => fld img (o + 8) 2 == region)

/-- Whether a region's records go together (R173). -/
def regionOk (img : Bytes) (o : Nat) : Bool :=
  let rs := regionRecs img (fld img (o + 8) 2)
  if bits (byteAt img (o + 6)) 1 1 = 1 then
    [1, 2, 4, 8].contains rs.length && (repeated (fun x => byteAt img (x + 1)) [] rs).isEmpty &&
    rs.all (fun x => byteAt img x == byteAt img o && byteAt img (x + 7) == byteAt img (o + 7) &&
      bits (byteAt img (x + 6)) 0 2 == bits (byteAt img (o + 6)) 0 2 && fld img (x + 4) 2 == fld img (o + 4) 2)
  else rs.length == 1

/-- The requests of a kind (OP 0x78 or 0x79) that a MICROCODE record makes to a region. -/
def reqCount (img : Bytes) (op region o : Nat) : Nat :=
  ((List.range (byteAt img (o + 4))).filter (fun i =>
    let w := fld img (o + 16 + 8 * i) 8
    iOp w == op && bits (iImm w) 0 16 == region)).length

/-- The least common multiple of 1 to 34: the denominators 2 + NINSTR of R357 divide it. -/
def lcm34 : Nat := (List.range 34).foldl (fun m i => Nat.lcm m (i + 1)) 1

/-- Whether the SRQ load of a region part on a die exceeds R357. -/
def overBudget (img : Bytes) (region d : Nat) : Bool :=
  let rs := (microRecs img).filter (fun o => fld img o 4 / 4096 == d)
  let n := rs.foldl (fun x o => x + reqCount img 0x78 region o) 0
  let q := rs.foldl (fun x o => x + reqCount img 0x78 region o * (lcm34 / (2 + byteAt img (o + 4)))) 0
  decide (10 < n) || decide (lcm34 < q)

/-- Faults of a PARTITION record. -/
def partFaults (s : State) (img : Bytes) (o : Nat) : List Nat :=
  let k := byteAt img o
  let d := byteAt img (o + 1)
  let f := fld img (o + 2) 2
  let n := fld img (o + 4) 2
  let region := fld img (o + 8) 2
  let lim := if k = 1 then 16 else stackU s d
  let used := (microRecs img).filter (fun m => decide (0 < reqCount img 0x78 region m))
  let sorted := (nodeRecs img).any (fun x => (byteAt img (x + 1) == 16 || byteAt img (x + 1) == 17) && fld img (x + 8) 2 == region)
  flag (k != 1 && k != 2) o ++ flag (!dieNameable s d) (o + 1) ++ flag (decide (lim ≤ f)) (o + 2) ++
  flag (decide (n < 1 ∨ lim < f + n) || (k == 1 && byteAt img (o + 7) == 0 && !([1, 2, 4, 8, 16].contains n))) (o + 4) ++
  flag (!regionOk img o) (o + 6) ++ flag (decide (3 < byteAt img (o + 7))) (o + 7) ++
  flag ((sorted && !used.isEmpty) || (k == 1 && overBudget img region d)) (o + 8)

/-- The KIND and PURPOSE of the region that an operator needs (R266); `none` where it needs none. -/
def opRegion (op flags : Nat) : Option (Nat × Nat) :=
  if [7, 8, 9, 10, 11, 12, 18].contains op then some (1, 0)
  else if [13, 14, 15].contains op then some (1, 2)
  else if op = 16 ∨ op = 17 then some (1, 3)
  else if op = 19 ∧ bits flags 0 1 = 1 then some (1, 2) else none

/-- Faults of a NODE's REGION. -/
def nodeRegionFaults (img : Bytes) (o : Nat) : List Nat :=
  let region := fld img (o + 8) 2
  match opRegion (byteAt img (o + 1)) (byteAt img (o + 16)) with
  | none => flag (region != 0xFFFF) (o + 8)
  | some (k, p) => flag (!((regionRecs img region).any (fun x => byteAt img x == k && byteAt img (x + 7) == p))) (o + 8)

/-- Requests of a MICROCODE record whose region has no part where R356, R379 or R513 wants one. -/
def requestFaults (s : State) (img : Bytes) (o : Nat) : List Nat :=
  let d := fld img o 4 / 4096
  let live := pairLive s (d / 2)
  (List.range (byteAt img (o + 4))).flatMap (fun i =>
    let w := fld img (o + 16 + 8 * i) 8
    let rs := regionRecs img (bits (iImm w) 0 16)
    let here := rs.any (fun x => byteAt img (x + 1) == d || (live && byteAt img (x + 1) / 2 == d / 2))
    let spread := rs.any (fun x => bits (byteAt img (x + 6)) 1 1 == 1)
    flag ((iOp w == 0x78 && !here) || (iOp w == 0x79 && (spread || live) && !here)) (o + 16 + 8 * i))

/-- D6. -/
def partitionFaults (s : State) (img : Bytes) : List Nat :=
  (recOffs img 6).flatMap (partFaults s img) ++ (nodeRecs img).flatMap (nodeRegionFaults img) ++ (microRecs img).flatMap (requestFaults s img)

/-! ### Phases D7 and D8: CERTS and STAKES (R174 to R176) -/

/-- Faults of a CERT record. -/
def certFaults (img : Bytes) (o : Nat) : List Nat :=
  flag (fld img (o + 4) 4 == 0) (o + 4) ++
  flag (decide (fld img (o + 12) 2 < 1 ∨ 1024 < fld img (o + 12) 2)) (o + 12) ++
  (match travRec img (fld img o 2) with
   | none => [o]
   | some t =>
     let i := byteAt img (t + 1)
     flag (byteAt img (o + 2) != (if i = 1 then 1 else if i = 2 then 2 else 0)) (o + 2) ++
     flag (byteAt img (o + 3) != byteAt img (t + 4)) (o + 3))

/-- D7. -/
def certsFaults (img : Bytes) : List Nat :=
  (recOffs img 7).flatMap (certFaults img) ++ repeated (fun o => fld img o 2) [] (recOffs img 7) ++
  (graphRecs img).flatMap (fun r => flag (!(recOffs img 7).any (fun o => fld img o 2 == travNum img r.1)) noField)

/-- Faults of a STAKE record. -/
def stakeFaults (img : Bytes) (o : Nat) : List Nat :=
  let f := byteAt img o
  flag (if bits f 1 1 = 1 then decide (40 < byteAt img (o + 1)) else byteAt img (o + 1) != 0) (o + 1) ++
  flag (if bits f 0 1 = 1 then fld img (o + 2) 2 != 0 else decide (1023 < fld img (o + 2) 2)) (o + 2) ++
  flag (!(travRec img (fld img (o + 4) 2)).any (fun t => byteAt img (t + 1) == 2)) (o + 4)

/-- Phases D1 to D8. -/
def phaseD (s : State) (img : Bytes) : Verdict3 :=
  firstFail [
    phase (schemaFaults img) stMalformed 0x050F,
    phase (graphFaults s img) stMalformed 0x0510,
    phase (microcodeFaults s img) stMalformed 0x0511,
    phase (routesFaults s img) stMalformed 0x0512,
    phase (matchFaults img) stMalformed 0x0513,
    phase (partitionFaults s img) stMalformed 0x0514,
    phase (certsFaults img) stMalformed 0x0515,
    phase ((recOffs img 8).flatMap (stakeFaults img)) stMalformed 0x0516]

/-! ### Phase E -/

/-- Whether a function is in service (R494): FN_ATTR.STATE follows it. -/
def fnInService (s : State) (f : Nat) : Bool := (isPf f || isVf f) && getF s F.FN_ATTR_STATE (f * 0x10) == 1

/-- The staged plats but the one in slot `k` (R618). -/
def stagedOthers (s : State) (k : Nat) : List Plat :=
  s.plats.slots.filterMap (fun e => if e.1 ≠ k ∧ e.2.staged = true then e.2.plat else none)

/-- The tiles that a plat's cells lie on. -/
def platTiles (p : Plat) : List Nat :=
  p.travs.flatMap (fun t => t.nodes.flatMap (fun n => (List.range ((n.first + n.ncells - 1) / 64 + 1 - n.first / 64)).map (fun i => n.first / 64 + i)))

/-- Whether a plat holds a slice or unit of a record. -/
def sharedPart (q : Plat) (r : PartRec) : Bool :=
  q.parts.any (fun x => x.kind == r.kind && x.die == r.die && decide (x.first < r.first + r.count ∧ r.first < x.first + x.count))

/-- The plats whose resources count against a plat in slot `k`: the active ones and, at the first check, the other staged
ones, less the replaced plat (R184, R618). -/
def rivals (s : State) (k : Nat) (p : Plat) (recheck : Bool) : List Plat :=
  (s.plats.active ++ (if recheck then [] else stagedOthers s k)).filter (fun q => !(p.replace && q.handle == p.replaces))

/-- The owner in force of slice or unit `u` of die `d`. -/
def partOwner (s : State) (kind d u : Nat) : Nat :=
  if kind = 1 then getF s F.FN_OWN_SLICE_OWNER ((d * 16 + u) * 8) else getF s F.FN_OWN_UNIT_OWNER ((d * 64 + u) * 8)

/-- E5: nodes on tiles that the owner does not hold. -/
def tileFaults (s : State) (img : Bytes) (p : Plat) : List Nat :=
  (nodeRecs img).flatMap (fun o => flag ((nodeTiles img o).any (fun t => getF s F.FN_OWN_TILE_OWNER (t * 8) != p.owner)) (o + 4))

/-- E6: nodes on tiles of another plat. -/
def tileUseFaults (s : State) (img : Bytes) (k : Nat) (p : Plat) (recheck : Bool) : List Nat :=
  let used := (rivals s k p recheck).flatMap platTiles
  (nodeRecs img).flatMap (fun o => flag ((nodeTiles img o).any (fun t => used.contains t)) (o + 4))

/-- E7: slices and units that the owner does not hold. -/
def memFaults (s : State) (img : Bytes) (p : Plat) : List Nat :=
  (recOffs img 6).flatMap (fun o =>
    let r := partAt img o
    flag ((List.range r.count).any (fun i => partOwner s r.kind r.die (r.first + i) != p.owner)) (o + 2))

/-- Records whose slices or units an earlier record of the plat names too: a slice is in at most one staged region (R358). -/
def overlapParts (img : Bytes) : (seen : List PartRec) → List Nat → List Nat
  | _, [] => []
  | seen, o :: t =>
    let r := partAt img o
    flag (seen.any (fun x => x.kind == r.kind && x.die == r.die &&
      decide (x.first < r.first + r.count ∧ r.first < x.first + x.count))) (o + 2) ++ overlapParts img (r :: seen) t

/-- E8: slices and units of another plat or of another record of the plat (R358; log entry 77). -/
def memUseFaults (s : State) (img : Bytes) (k : Nat) (p : Plat) (recheck : Bool) : List Nat :=
  let qs := rivals s k p recheck
  (recOffs img 6).flatMap (fun o => flag (qs.any (fun q => sharedPart q (partAt img o))) (o + 2)) ++ overlapParts img [] (recOffs img 6)

/-- E9: groups that an active plat declares with another W or other column records (R165). A replaced plat is no exception
here: R165 and E9 name none. -/
def groupConflicts (s : State) (img : Bytes) : List Nat :=
  (schemaRecs img).flatMap (fun r =>
    let g := groupAt img r
    flag (!g.isTable && s.plats.active.any (fun q =>
      q.schema.any (fun h => !h.isTable && h.id == g.id && (h.w != g.w || h.raw != g.raw)))) (r.1 + 2))

/-- E11: EMIT nodes whose destination R178 does not allow. -/
def emitFaults (s : State) (img : Bytes) (p : Plat) : List Nat :=
  (graphRecs img).flatMap (fun r => r.2.flatMap (fun o =>
    let q := o + 16
    let dest := byteAt img q
    if byteAt img (o + 1) ≠ 20 then []
    else if dest ≤ 1 then
      flag (byteAt img (r.1 + 1) != 1 && (namedRing s p.owner (fld img (q + 9) 2)).isNone) (q + 9)
    else if dest = 2 then flag (byteAt img (q + 6) != 255 && decide (s.part.ports ≤ byteAt img (q + 6))) (q + 6)
    else flag (!isPf p.owner) q))

/-- Free stake entries for a plat in slot `k`, those of the replaced plat counted and those of other staged plats not
(E12). -/
def freeStakes (s : State) (k : Nat) (p : Plat) : Nat :=
  let held := s.plats.active.foldl (fun n q => if p.replace ∧ q.handle = p.replaces then n else n + q.stakes.length) 0
  2048 - held - (stagedOthers s k).foldl (fun n q => n + q.stakes.length) 0

/-- E2. -/
def replaceBad (s : State) (k : Nat) (p : Plat) : Bool :=
  p.replace && (!(s.plats.active.any (fun q => q.handle == p.replaces && q.owner == p.owner)) ||
    (stagedOthers s k).any (fun q => q.replace && q.replaces == p.replaces) ||
    s.plats.unloads.any (fun u => u.1 == p.replaces))

/-- Traverse numbers held: by active plats and by staged ones, and those reserved between the two COMMITs of another
slot's replacement (R194). -/
def numbersHeld (s : State) (k : Nat) (p : Plat) : List Nat :=
  (rivals s k p false).flatMap (fun q => q.travs.map (·.num)) ++
  (s.plats.slots.filter (fun e => e.1 != k)).flatMap (fun e => e.2.reserved)

/-- Phases E1 to E12 for the plat in slot `k`. -/
def phaseE (s : State) (img : Bytes) (k : Nat) (p : Plat) : Verdict3 :=
  firstFail [
    phase (flag (!fnInService s p.owner) 16) stRejected 0x0517,
    phase (flag (replaceBad s k p) 20) stRejected 0x0521,
    phase (flag (decide (256 < s.plats.active.length + 1 - (if p.replace then 1 else 0))) noField) stRejected 0x0525,
    phase ((graphRecs img).flatMap (fun r => flag ((numbersHeld s k p).contains (travNum img r.1)) (r.1 + 2))) stRejected 0x0518,
    phase (tileFaults s img p) stRejected 0x0519,
    phase (tileUseFaults s img k p false) stRejected 0x051A,
    phase (memFaults s img p) stRejected 0x051B,
    phase (memUseFaults s img k p false) stRejected 0x051C,
    phase (groupConflicts s img) stRejected 0x051D,
    phase ((graphRecs img).flatMap (fun r => flag (decide (getF s F.FN_ATTR_CEILING (p.owner * 0x10) < byteAt img (r.1 + 4))) (r.1 + 4)))
      stRejected 0x051F,
    phase (emitFaults s img p) stRejected 0x0520,
    phase (flag (decide (freeStakes s k p < p.stakes.length)) noField) stRejected 0x051E]

/-- The re-check at COMMIT (R190): C1, C4, E1, then E5 to E9. -/
def recheck (s : State) (img : Bytes) (k : Nat) (p : Plat) : Verdict3 :=
  firstFail [
    phaseC1 s p.signed, phaseC4 s p.signed p.svn,
    phase (flag (!fnInService s p.owner) 16) stRejected 0x0517,
    phase (tileFaults s img p) stRejected 0x0519,
    phase (tileUseFaults s img k p true) stRejected 0x051A,
    phase (memFaults s img p) stRejected 0x051B,
    phase (memUseFaults s img k p true) stRejected 0x051C,
    phase (groupConflicts s img) stRejected 0x051D]

end Sys2Proof.Machine
end

