-- ==== Sys2Proof/Machine/Addr.lean ====
section
/-! DEFINITION. The address form of descriptors and its check (13_dma.md, R475, R476), and reads and writes of a range in that
form by an engine of the package. -/

namespace Sys2Proof.Machine

/-! ### DMA reasons (R492) -/

def rsnBadDesc : Nat := 0x0E01
def rsnBadSpace : Nat := 0x0E02
def rsnAddrRange : Nat := 0x0E03
def rsnNotOwned : Nat := 0x0E04
def rsnNoChannel : Nat := 0x0E05
def rsnHostRead : Nat := 0x0E06
def rsnChanDisabled : Nat := 0x0E07

/-- Whether a pair mirrors its memory: SYNCING, TWINNED or SOLO (R513). -/
def mirrored (s : State) (k : Nat) : Bool := syncing s k || pairLive s k

/-- The die or stack that a command's field names: the second die of a mirrored pair stands for the first (R515). -/
def normDie (s : State) (d : Nat) : Nat := if mirrored s (d / 2) then d / 2 * 2 else d

/-- The die whose engines run a transfer or job that names die `d` (R515). -/
def runDie (s : State) (d : Nat) : Nat := if pairLive s (d / 2) then leadDie s (d / 2) else normDie s d

/-- PCIe Device Control of a function: at reset Enable Relaxed Ordering, Enable No Snoop, Max Payload Size 128 and Max Read
Request Size 512 (PRESUMED, PCIe's own reset value; log entry 13). -/
def devCtl (s : State) (fn : Nat) : Nat := Tbl.getD s.devCtl fn 0x2810

/-- Enable Relaxed Ordering of a function. -/
def mayRelax (s : State) (fn : Nat) : Bool := bits (devCtl s fn) 4 1 == 1

/-- Enable No Snoop of a function. -/
def mayNoSnoop (s : State) (fn : Nat) : Bool := bits (devCtl s fn) 11 1 == 1

/-- Max Read Request Size of a function in bytes. -/
def maxRead (s : State) (fn : Nat) : Nat := 128 * 2 ^ (bits (devCtl s fn) 12 3)

/-- Whether an address names host memory (R475). -/
def isHost (a : Nat) : Bool := a / 2 ^ 60 == 0

/-- The stack that an HBM address names. -/
def addrStack (s : State) (a : Nat) : Nat := normDie s (bits a 56 3)

/-- The stack address of an HBM address. -/
def addrOff (a : Nat) : Nat := a % 2 ^ 36

/-- Whether the partition table gives a function every unit that `n` bytes from stack address `a` of stack `k` touch. -/
def ownsUnits (s : State) (fn k a n : Nat) : Bool :=
  (List.range ((a + n - 1) / 2 ^ 30 + 1 - a / 2 ^ 30)).all (fun i => partOwner s 2 k (a / 2 ^ 30 + i) == fn)

/-- The check of R476 on `n` bytes from address `a` for a function; `none` when it passes. -/
def addrCheck (s : State) (fn a n : Nat) : Option (Nat × Nat) :=
  if isHost a then none
  else if a / 2 ^ 60 ≠ 1 ∨ bits a 59 1 ≠ 0 ∨ bits a 36 20 ≠ 0 then some (stMalformed, rsnBadSpace)
  else if !present s.part (bits a 56 3) || decide (stackC s (addrStack s a) < addrOff a + n) then some (stMalformed, rsnAddrRange)
  else if stackU s (addrStack s a) * 2 ^ 30 < addrOff a + n then some (stMalformed, 0x0A04)
  else if isVf fn && !ownsUnits s fn (addrStack s a) (addrOff a) n then some (stMalformed, rsnNotOwned)
  else none

/-- Status and reason of an access that met a pseudo-channel in state `st`, or the error of R411 (R391, R395, R411). -/
def hbmFail (st : Nat) : Nat × Nat := if st = 3 then (stFenced, 0x0A03) else if st = 5 then (stMemFault, 0x0A01) else (stMemFault, 0x0A02)

/-- The die of a requester: a codec engine, a DMA channel, a ring's list or overflow area. -/
def whoDie (s : State) (who : Nat) : Option Nat :=
  if 0x500000 ≤ who ∧ who < 0x600000 then some ((who - 0x500000) / 4)
  else if 0x600000 ≤ who ∧ who < 0x700000 then some ((who - 0x600000) / 64)
  else if 0x800000 ≤ who ∧ who < 0xA00000 then some (ringPort s (who % 0x100000))
  else none

/-- Whether a requester's messages reach stack `d` and come back. DESIGN CHOICE, log entry 81: while a Chain edge on the way is not
UP the access waits; R63 names no answer for it. -/
def pathUp (s : State) (who d : Nat) : Bool := (whoDie s who).all (fun e => roundTrip s e d)

/-- Whether a read of `n` bytes at address `a` can be answered now (log entry 80); host data come with the command. -/
def addrReady (s : State) (a n who : Nat) : Bool :=
  isHost a || (pathUp s who (readDie s (addrStack s a)) && hbmReady s (readDie s (addrStack s a)) (addrOff a) n who)

/-- The fills that a read of `n` bytes at address `a` for a function needs are started, urgent or bulk (R382). -/
def addrAsk (s : State) (fn a n cls who : Nat) (urgent : Bool) : State :=
  if isHost a || !pathUp s who (readDie s (addrStack s a)) then s else hbmAsk s (readDie s (addrStack s a)) (addrOff a) n cls (fnWays s fn) who urgent

/-- Whether a write of `n` bytes at address `a` for a function finds its way, and room in the write queues (R383). -/
def addrRoom (s : State) (fn a n cls who : Nat) : Bool :=
  isHost a || (pathUp s who (addrStack s a) && hbmRoom s (addrStack s a) (addrOff a) n cls (fnWays s fn))

/-- `n` bytes at address `a` are read for a function by requester `who` of class `cls`: the data, and the failure if one is
met. Host data are what the host link has returned. -/
def readAddr (s : State) (fn a n cls who : Nat) (host : Bytes) (hostError : Bool) : State × Bytes × Option (Nat × Nat) :=
  if n = 0 then (s, [], none)
  else if isHost a then
    let s := emitOut s (.hostRead (pfOf fn) fn a n false)
    (s, sub host 0 n, if hostError then some (stError, rsnHostRead) else none)
  else
    let r := hbmRead s (readDie s (addrStack s a)) (addrOff a) n cls (fnWays s fn) who
    (r.1, r.2.1, if r.2.2 = 0 then none else some (hbmFail r.2.2))

/-- Bytes are written at address `a` for a function in class `cls`; the failure if one is met. -/
def writeAddr (s : State) (fn a : Nat) (data : Bytes) (cls : Nat) : State × Option (Nat × Nat) :=
  if isHost a then (emitOut s (.hostWrite (pfOf fn) fn a data false false), none)
  else
    let r := hbmWrite s (addrStack s a) (addrOff a) data cls (fnWays s fn)
    (r.1, if r.2 = 0 then none else some (hbmFail r.2))

/-- The bytes of a range that a failed write has partly reached become undefined (R433); host memory is not the
package's. -/
def undefAddr (s : State) (a n : Nat) : State :=
  if isHost a || n == 0 then s
  else (mirrorDies s (addrStack s a)).foldl (fun s (d : Nat) =>
    mkUndef s 2 (hbmAddr d (addrOff a)) (hbmAddr d (addrOff a) + n - 1)) s

end Sys2Proof.Machine
end

