-- ==== Sys2Proof/Machine/CodecBlock.lean ====
section
/-! DEFINITION. The block format of the column codec (11_codec.md, R414 to R421): the encoder and the decoder as functions on
elements and bytes. -/

namespace Sys2Proof.Machine

/-- zz of R416. -/
def zz (d : W64) : W64 := (d <<< 1) ^^^ d.sshiftRight 63

/-- unzz of R416. -/
def unzz (z : W64) : W64 := (z >>> 1) ^^^ (0 - (z &&& 1))

/-- The residuals of neighbouring elements under `f` (R416). -/
def pairRes (f : W64 → W64 → W64) : List W64 → List W64
  | a :: b :: t => f a b :: pairRes f (b :: t)
  | _ => []

/-- BASE and the residuals of a TRANSFORM (R416): 0 NONE, 1 DELTA, else XOR. -/
def residuals (tr : Nat) (xs : List W64) : W64 × List W64 :=
  if tr = 0 then
    let b := xs.foldl (fun m x => if x.toNat < m.toNat then x else m) (xs.headD 0)
    (b, xs.map (· - b))
  else if tr = 1 then (xs.headD 0, pairRes (fun a b => zz (b - a)) xs)
  else (xs.headD 0, pairRes (fun a b => b ^^^ a) xs)

/-- The bit length of a number. -/
def bitLen (n : Nat) : Nat := if n = 0 then 0 else Nat.log2 n + 1

/-- The maximal runs of equal residuals, as length and value (R419). -/
def runsOf : List W64 → List (Nat × W64)
  | [] => []
  | r :: t => match runsOf t with
    | (l, v) :: u => if v = r then (l + 1, v) :: u else (1, r) :: (l, v) :: u
    | [] => [(1, r)]

/-- A candidate of R419: its TRANSFORM, RLE, WIDTH, BASE and fields (bits and value, in stream order). -/
structure Cand where
  tr : Nat
  rle : Bool
  width : Nat
  base : W64
  fields : List (Nat × Nat)
  deriving DecidableEq, Repr, Inhabited

/-- The bits of a candidate's stream. -/
def Cand.size (c : Cand) : Nat := c.fields.foldl (fun n f => n + f.1) 0

/-- BODY_LEN of a candidate (R418). -/
def Cand.bodyLen (c : Cand) : Nat := 8 * ceilDiv c.size 64

/-- The candidate of a TRANSFORM with or without RLE (R417, R419). -/
def candidate (xs : List W64) (tr : Nat) (rle : Bool) : Cand :=
  let r := residuals tr xs
  let w := bitLen (r.2.foldl (fun m x => max m x.toNat) 0)
  let fs := if rle then (runsOf r.2).flatMap (fun u => [(9, u.1 - 1), (w, u.2.toNat)]) else r.2.map (fun x => (w, x.toNat))
  ⟨tr, rle, w, r.1, fs⟩

/-- The bit stream of fields, least significant bit first (R417). -/
def packFields : List (Nat × Nat) → Nat
  | [] => 0
  | (w, v) :: t => v % 2 ^ w + 2 ^ w * packFields t

/-- The shortest candidate, ties to the earlier one (R419). -/
def bestCand (xs : List W64) : Cand :=
  [(0, true), (1, false), (1, true), (2, false), (2, true)].foldl
    (fun b k => let c := candidate xs k.1 k.2; if c.bodyLen < b.bodyLen then c else b) (candidate xs 0 false)

/-- The 16 header bytes of a block (R414). -/
def blockHead (flags count width len : Nat) (base : W64) : Bytes :=
  leBytes 1 0xB5 ++ leBytes 1 flags ++ leBytes 2 count ++ leBytes 1 width ++ [0] ++ leBytes 2 len ++ leBytes 8 base.toNat

/-- The block of 1 to 512 elements (R419). -/
def encodeBlock (xs : List W64) : Bytes :=
  let c := bestCand xs
  if 8 * xs.length ≤ 16 + c.bodyLen then blockHead 1 xs.length 0 (8 * xs.length) 0 ++ wordBytes xs
  else blockHead (2 * c.tr + (if c.rle then 8 else 0)) xs.length c.width c.bodyLen c.base ++
    leBytes c.bodyLen (packFields c.fields)

/-- What the decoder finds in a block: a failing step of R421 with its reason, or the elements and the input bytes taken. -/
inductive DecRes where
  | fail (step reason : Nat)
  | good (xs : List W64) (used : Nat)
  deriving DecidableEq, Repr, Inhabited

/-- CDC reasons (R436). -/
def rsnBadJob : Nat := 0x0C01
def rsnBadResume : Nat := 0x0C02
def rsnDstFull : Nat := 0x0C03
def rsnOutLimit : Nat := 0x0C04
def rsnCorrupt : Nat := 0x0C05
def rsnTruncated : Nat := 0x0C06
def rsnShort : Nat := 0x0C07

/-- `m` residuals of `w` bits (R417), and the bits that follow. -/
def readPlain : (m w body : Nat) → List W64 × Nat
  | 0, _, b => ([], b)
  | m + 1, w, b => let r := readPlain m w (b / 2 ^ w); (BitVec.ofNat 64 (b % 2 ^ w) :: r.1, r.2)

/-- Runs covering exactly `m` residuals within `left` bits (R417), and the bits that follow; `none` where they do not.
`fuel` bounds the number of runs. -/
def readRuns : (fuel m w body left : Nat) → Option (List W64 × Nat)
  | _, 0, _, b, _ => some ([], b)
  | 0, _ + 1, _, _, _ => none
  | n + 1, m + 1, w, b, left =>
    let l := b % 512 + 1
    if left < 9 + w ∨ m + 1 < l then none
    else (readRuns n (m + 1 - l) w (b / 512 / 2 ^ w) (left - 9 - w)).map
      (fun r => (List.replicate l (BitVec.ofNat 64 (b / 512 % 2 ^ w)) ++ r.1, r.2))

/-- Elements from residuals (R416), `x` the element before. -/
def rebuild (f : W64 → W64 → W64) (x : W64) : List W64 → List W64
  | [] => []
  | r :: t => f x r :: rebuild f (f x r) t

/-- Steps 1 to 8 of R421 on the input bytes from a block's start: `out` bytes of output so far, the output limit and the
space left. -/
def decodeBlock (rest : Bytes) (out limit space : Nat) : DecRes :=
  let flags := byteAt rest 1
  let count := fld rest 2 2
  let width := byteAt rest 4
  let len := fld rest 6 2
  let base := BitVec.ofNat 64 (fld rest 8 8)
  let tr := bits flags 1 2
  let raw := flags % 2 = 1
  let rle := bits flags 3 1 = 1
  let m := if tr = 0 then count else count - 1
  if rest.length < 16 then .fail 1 rsnTruncated
  else if byteAt rest 0 ≠ 0xB5 ∨ 16 ≤ flags ∨ tr = 3 ∨ byteAt rest 5 ≠ 0 then .fail 2 rsnCorrupt
  else if count < 1 ∨ 512 < count then .fail 3 rsnCorrupt
  else if raw ∧ ¬(flags = 1 ∧ width = 0 ∧ base = 0 ∧ len = 8 * count) then .fail 4 rsnCorrupt
  else if ¬raw ∧ ¬(width ≤ 64 ∧ len % 8 = 0 ∧ len ≤ 4096 ∧ (rle ∨ len = 8 * ceilDiv (m * width) 64)) then .fail 4 rsnCorrupt
  else if rest.length < 16 + len then .fail 5 rsnTruncated
  else if limit < out + 8 * count then .fail 6 rsnOutLimit
  else if space < 8 * count then .fail 7 rsnDstFull
  else
    let body := sub rest 16 len
    if raw then .good (leWords body) (16 + len)
    else
      let r := if rle then readRuns 512 m width (leNat body) (8 * len) else some (readPlain m width (leNat body))
      match r with
      | some (rs, 0) =>
        if tr = 0 then .good (rs.map (base + ·)) (16 + len)
        else if tr = 1 then .good (base :: rebuild (fun x z => x + unzz z) base rs) (16 + len)
        else .good (base :: rebuild (fun x z => x ^^^ z) base rs) (16 + len)
      | _ => .fail 8 rsnCorrupt

end Sys2Proof.Machine
end

