-- ==== Sys2Proof/Machine/Codec.lean ====
section
/-! DEFINITION. The codec engines of a die: jobs, capture blocks and DECODE columns (11_codec.md, R422 to R437; R316). -/

namespace Sys2Proof.Machine

/-- The number of engine `e` of die `d`. -/
def engKey (d e : Nat) : Nat := d * 4 + e

/-- Offset of the registers of an engine. -/
def engO (k : Nat) : Nat := cdcO (k / 4) (k % 4)

/-- The hidden state of the codec changed. -/
def modCdc (s : State) (f : Cdc → Cdc) : State := { s with cdc := f s.cdc }

/-- Whether an engine is in service (R437). -/
def engOn (s : State) (k : Nat) : Bool := isSet s F.CDC_CTL_ENABLE (engO k)

/-- The jobs of an engine, the running one first. -/
def jobsOf (s : State) (k : Nat) : List CJob := Tbl.getD s.cdc.jobs k []

/-- The capture blocks queued on an engine. -/
def capsOf (s : State) (k : Nat) : List CapBlk := Tbl.getD s.cdc.caps k []

/-- Whether a column's invocation is squashed: its engine decodes no further block (R424). -/
def DCol.stopped (s : State) (c : DCol) : Bool :=
  match Tbl.get? c.inv s.fab.invs with
  | some i => i.squash.isSome || i.done
  | none => true

/-- Whether a column holds its slots: until its last block has been decoded; a squashed one until its invocation completes
(R424). -/
def DCol.holds (s : State) (c : DCol) : Bool := !c.done && (Tbl.get? c.inv s.fab.invs).isSome

/-- The decode slots held on an engine (R424). -/
def slotsHeld (s : State) (k : Nat) : Nat := (s.cdc.cols.filter (fun c => c.holds s && c.engs.contains k)).length

/-- Whether a column waits for its next block: the output buffer holds less than a token's rows. -/
def DCol.wants (s : State) (c : DCol) : Bool := !c.done && !c.stopped s && decide (c.buf.length < 8)

/-- The column that an engine serves next (R423). -/
def nextCol (s : State) (k : Nat) : Option DCol :=
  s.cdc.cols.find? (fun c => c.engs.head? == some k && c.wants s)

/-- The kind of block an engine has in progress, by the priority of R423: 1 DECODE, 2 capture, 3 job, 0 none. -/
def engWork (s : State) (k : Nat) : Nat :=
  if !engOn s k then 0
  else if (nextCol s k).isSome then 1
  else if !(capsOf s k).isEmpty then 2
  else if !(jobsOf s k).isEmpty then 3 else 0

/-- The engine has ended a block in this fc (R435). -/
def noteEnd (s : State) (k : Nat) : State := modCdc s (fun c => { c with ended := Tbl.put k s.now c.ended })

/-- Work of a kind has come to an engine: it preempts a block of lower priority that was in progress (R423). `before` is the
kind in progress until then. A block that ended in this fc leaves nothing to preempt (R435). -/
def preempted (s : State) (k before kind : Nat) : State :=
  if kind < before ∧ Tbl.get? k s.cdc.ended ≠ some s.now then satF s F.CDC_BLOCKS_PREEMPTS (engO k) 1 else s

/-- A block has been written: input and output bytes. -/
def countBlock (s : State) (k nin nout : Nat) : State :=
  addF (addF (noteEnd s k) F.CDC_BYTES_IN_BYTES (engO k) nin) F.CDC_BYTES_OUT_BYTES (engO k) nout

/-- An encoded block has been written. -/
def countEnc (s : State) (k n : Nat) (blk : Bytes) : State :=
  let s := countBlock s k (8 * n) blk.length
  if byteAt blk 1 % 2 = 1 then addF s F.CDC_BLOCKS_RAW (engO k) 1 else s

/-- A block has failed under R421: counted, shown in CDC_LAST_ERR, and told by an event. -/
def countFail (s : State) (k step reason work off : Nat) : State :=
  let o := engO k
  let s := satF (noteEnd s k) F.CDC_BLOCKS_FAILED o 1
  let s := setF s F.CDC_LAST_ERR_STEP o step
  let s := setF s F.CDC_LAST_ERR_REASON o reason
  let s := setF s F.CDC_LAST_ERR_WORK o work
  let s := setF s F.CDC_LAST_ERR_IN_OFFSET o off
  if reason = rsnOutLimit then raise s F.CDC_EVENT_LIMIT o
  else if reason = rsnDstFull then s
  else raise s F.CDC_EVENT_CORRUPT o

/-- The requester number of an engine (R402). -/
def engWho (k : Nat) : Nat := 0x500000 + k

/-- A failure at a step that needs the header alone. -/
def headFail : DecRes → Option DecRes
  | .fail step reason => if step < 8 then some (.fail step reason) else none
  | .good _ _ => none

/-- The next block of a coded range: `a` is the address of its first byte, `left` the bytes of the range from there on. The header is
read first, and the body only when steps 1 to 7 of R421 allow it; a failed read comes back as its status and reason. `none`: what is
to be read has not come yet. -/
def readBlock (s : State) (k fn a left out limit space : Nat) (host : Bytes) (hostError urgent : Bool) :
    State × Option (DecRes ⊕ (Nat × Nat)) :=
  let n := min 16 left
  if !addrReady s a n (engWho k) then (addrAsk s fn a n 9 (engWho k) urgent, none)
  else
    let r := readAddr s fn a n 9 (engWho k) host hostError
    match r.2.2 with
    | some e => (r.1, some (.inr e))
    | none =>
      let m := fld r.2.1 6 2
      match headFail (decodeBlock (r.2.1 ++ List.replicate (min 4096 (left - 16)) 0) out limit space) with
      | some f => (r.1, some (.inl f))
      | none =>
        if !addrReady s (a + 16) m (engWho k) then (addrAsk s fn (a + 16) m 9 (engWho k) urgent, none)
        else
          let b := if isHost a then readAddr r.1 fn (a + 16) m 9 (engWho k) (host.drop 16) hostError
            else readAddr s fn a (16 + m) 9 (engWho k) [] false
          match b.2.2 with
          | some e => (b.1, some (.inr e))
          | none => (b.1, some (.inl (decodeBlock (if isHost a then r.2.1 ++ b.2.1 else b.2.1) out limit space)))

/-! ### Jobs (R427 to R433) -/

/-- A job's command completes and the job leaves its engine (R432). -/
def jobDone (s : State) (k : Nat) (j : CJob) (status reason : Nat) : State :=
  let s := modCdc (dropReads s (· == engWho k)) (fun c => { c with jobs := Tbl.put k ((jobsOf s k).drop 1) c.jobs })
  complete s j.sq j.cq j.tag (if j.comp then 0x20 else 0x21) status reason (halves j.inDone j.outDone) 0

/-- The job at the front of an engine's queue changed. -/
def jobSet (s : State) (k : Nat) (j : CJob) : State :=
  modCdc s (fun c => { c with jobs := Tbl.put k (j :: (jobsOf s k).drop 1) c.jobs })

/-- A job's block in progress has met a fault of the memory or of the host link: its output bytes, at most `n`, are undefined
where a frozen or fenced channel was met (R433). -/
def jobFault (s : State) (k : Nat) (j : CJob) (n : Nat) (e : Nat × Nat) : State :=
  let n := min n (j.dstLen - (j.outDone - j.outBase))
  jobDone (if e.1 = stMemFault ∨ e.1 = stFenced then undefAddr s (j.dst + (j.outDone - j.outBase)) n else s) k j e.1 e.2

/-- A job's output for a block has been written, or has failed (R430, R433). A job whose last block is written completes in the fc
that follows, unless its ring shuts down before (R435). -/
def jobWrote (s : State) (k : Nat) (j : CJob) (nin nout : Nat) (err : Option (Nat × Nat)) : State :=
  match err with
  | some e => jobFault s k j nout e
  | none => jobSet s k { j with inDone := j.inDone + nin, outDone := j.outDone + nout }

/-- The engines' jobs whose last block is written complete (R430). -/
def finishJobs (s : State) : State :=
  s.cdc.jobs.foldl (fun s (x : Nat × List CJob) => match jobsOf s x.1 with
    | j :: _ => if j.srcLen ≤ j.inDone then jobDone s x.1 j stOk 0 else s
    | [] => s) s

/-- One block of a compression job (R430); it waits for its input, and for room in the write queues of its output. -/
def compressBlock (s : State) (k : Nat) (j : CJob) (host : Bytes) (hostError : Bool) : State :=
  let n := min 4096 (j.srcLen - j.inDone)
  if !addrReady s (j.src + j.inDone) n (engWho k) then addrAsk s j.fn (j.src + j.inDone) n 9 (engWho k) false
  else
  let r := readAddr s j.fn (j.src + j.inDone) n 9 (engWho k) host hostError
  match r.2.2 with
  | some e => jobFault r.1 k j (n + 16) e
  | none =>
    let blk := encodeBlock (leWords r.2.1)
    if j.dstLen < j.outDone - j.outBase + blk.length then jobDone r.1 k j stOutputFull rsnDstFull
    else if !addrRoom s j.fn (j.dst + (j.outDone - j.outBase)) blk.length 9 (engWho k) then s
    else
      let w := writeAddr r.1 j.fn (j.dst + (j.outDone - j.outBase)) blk 9
      jobWrote (if w.2.isSome then w.1 else countEnc w.1 k (n / 8) blk) k j n blk.length w.2

/-- One block of a decompression job (R421, R430), waiting as one of a compression job does. -/
def decompressBlock (s : State) (k : Nat) (j : CJob) (host : Bytes) (hostError : Bool) : State :=
  let r := readBlock s k j.fn (j.src + j.inDone) (j.srcLen - j.inDone) j.outDone j.limit
    (j.dstLen - (j.outDone - j.outBase)) host hostError false
  match r.2 with
  | none => r.1
  | some (.inr e) => jobFault r.1 k j (min 4096 (j.limit - j.outDone)) e
  | some (.inl (.fail step reason)) =>
    if step = 7 then jobDone (countFail r.1 k 7 rsnDstFull 3 j.inDone) k j stOutputFull rsnDstFull
    else jobDone (countFail r.1 k step reason 3 j.inDone) k j stError reason
  | some (.inl (.good xs used)) =>
    if !addrRoom s j.fn (j.dst + (j.outDone - j.outBase)) (8 * xs.length) 9 (engWho k) then s
    else
    let w := writeAddr r.1 j.fn (j.dst + (j.outDone - j.outBase)) (wordBytes xs) 9
    jobWrote (if w.2.isSome then w.1 else countBlock w.1 k used (8 * xs.length)) k j used (8 * xs.length) w.2

/-- CODEC_BLOCK_DONE (R430): the engine's running job goes on by one block, when no work of higher priority waits (R423). -/
def codecBlockDone (s : State) (d e : Nat) (host : Bytes) (hostError : Bool) : State :=
  let k := engKey d e
  if engWork s k ≠ 3 ∨ 3 < e then s
  else match jobsOf s k with
    | [] => s
    | j :: _ =>
      if j.srcLen ≤ j.inDone then jobDone s k j stOk 0
      else if j.comp then compressBlock s k j host hostError
      else decompressBlock s k j host hostError

def execCodecBlockDone (d e : Nat) (host : Bytes) (hostError : Bool) (s : State) : Res :=
  .next (codecBlockDone s d e host hostError)

/-- The checks of R428 on the body of a job's command; `none` when they pass. -/
def cdcCheck (s : State) (fn : Nat) (body : Bytes) (comp : Bool) : Option (Nat × Nat) :=
  let srcLen := fld body 16 4
  let dstLen := fld body 20 4
  let limit := fld body 24 4
  let resume := byteAt body 28 % 2 == 1
  let inDone := fld body 32 4
  if srcLen < 8 ∨ 0xFFFFFFF8 < srcLen ∨ (comp = true ∧ srcLen % 8 ≠ 0) ∨ dstLen = 0 ∨ (comp = true ∧ limit ≠ 0) ∨
      (comp = false ∧ limit = 0) ∨ 1 < byteAt body 28 ∨ present s.part (byteAt body 29) = false ∨ 3 < byteAt body 30 ∨
      (resume = false ∧ (inDone ≠ 0 ∨ fld body 36 4 ≠ 0)) then some (stMalformed, rsnBadJob)
  else if resume = true ∧ (srcLen < inDone ∨ (comp = true ∧ inDone % 4096 ≠ 0)) then some (stMalformed, rsnBadResume)
  else match addrCheck s fn (fld body 0 8) srcLen with
    | some e => some e
    | none => addrCheck s fn (fld body 8 8) dstLen

/-- The result that a command refused by R428 carries (R432). -/
def cdcBodyResult (body : Bytes) : Nat := halves (fld body 32 4) (fld body 36 4)

/-- The engine of a die that takes a job (R429): the one with the fewest queued jobs, the lower-numbered on ties; `none` while no
place is free. -/
def jobEngine (s : State) (d : Nat) : Option Nat :=
  ((List.range 4).map (engKey d)).foldl (fun best (k : Nat) =>
    if engOn s k && decide ((jobsOf s k).length < 16) then
      match best with
      | some b => if (jobsOf s k).length < (jobsOf s b).length then some k else best
      | none => some k
    else best) none

/-- A job takes its place (R429). -/
def cdcStart (s : State) (sq cq tag fn : Nat) (body : Bytes) (comp : Bool) : State :=
  match jobEngine s (runDie s (byteAt body 29)) with
  | none => s
  | some k =>
    let j : CJob := ⟨sq, cq, tag, comp, fn, fld body 0 8, fld body 8 8, fld body 16 4, fld body 20 4, fld body 24 4,
      fld body 32 4, fld body 36 4, fld body 36 4⟩
    modCdc s (fun c => { c with jobs := Tbl.put k (jobsOf s k ++ [j]) c.jobs })

/-- The picked jobs stop with a status and reason: their commands complete with the counts of whole blocks (R433). -/
def stopJobs (s : State) (p : CJob → Bool) (status reason : Nat) : State :=
  s.cdc.jobs.foldl (fun s (x : Nat × List CJob) =>
    let s := if x.2.any p then dropReads s (· == engWho x.1) else s
    let s := modCdc s (fun c => { c with jobs := Tbl.put x.1 (x.2.filter (fun j => !p j)) c.jobs })
    (x.2.filter p).foldl (fun s (j : CJob) =>
      complete s j.sq j.cq j.tag (if j.comp then 0x20 else 0x21) status reason (halves j.inDone j.outDone) 0) s) s

/-! ### DECODE columns (R424, R434) -/

/-- The free slot of the lowest-numbered enabled engine of a die, besides what `taken` columns hold (R424). -/
def freeSlotOf (s : State) (d : Nat) (taken : List DCol) : Option Nat :=
  ((List.range 4).map (engKey d)).find? (fun k =>
    engOn s k && decide (slotsHeld s k + (taken.filter (fun c => c.engs.contains k)).length < 2))

/-- A column given a slot on each of its dies, if they are free. -/
def takeSlots (s : State) (taken : List DCol) (c : DCol) : List Nat → Option DCol
  | [] => some c
  | d :: ds => match freeSlotOf s d taken with
    | some k => takeSlots s taken { c with engs := c.engs ++ [k] } ds
    | none => none

/-- Columns given their slots in order (R424); `none` while one is missing. -/
def slotsFor (s : State) (taken : List DCol) : List (DCol × List Nat) → Option (List DCol)
  | [] => some taken
  | (c, ds) :: t => match takeSlots s taken c ds with
    | some c' => slotsFor s (taken ++ [c']) t
    | none => none

/-- Columns begin (R424): they preempt lower work of their engines (R423). Columns of invocations that are over are
dropped. -/
def startCols (s : State) (cs : List DCol) : State :=
  cs.foldl (fun s (c : DCol) =>
    let before := c.engs.head?.map (engWork s)
    let s := modCdc s (fun x => { x with cols := x.cols.filter (fun y => (Tbl.get? y.inv s.fab.invs).isSome) ++ [c] })
    match c.engs.head?, before with
    | some k, some b => preempted s k b 1
    | _, _ => s) s

/-- A column changed, and put last in the round of its engine (R423). -/
def colServed (s : State) (c : DCol) : State :=
  modCdc s (fun x => { x with cols := x.cols.filter (fun y => !(y.inv == c.inv && y.col == c.col)) ++ [c] })

/-- A column's invocation fails and the column ends (R434). -/
def colFail (s : State) (c : DCol) (status reason : Nat) : State :=
  let s := colServed (dropReads s (fun w => c.engs.any (fun k => w == engWho k))) { c with done := true }
  match Tbl.get? c.inv s.fab.invs with
  | some i => modInv (markFail s i.trav (ctxInv c.inv) status reason) c.inv (fun j => { j with scanFail := true })
  | none => s

/-- DECODE_BLOCK (R434): the next block of the column that the engine serves. -/
def decodeStep (s : State) (d e : Nat) (host : Bytes) (hostError : Bool) : State :=
  let k := engKey d e
  if engWork s k ≠ 1 ∨ 3 < e then s
  else match nextCol s k with
    | none => s
    | some c =>
      if c.len ≤ c.inDone then colFail (raise s F.CDC_EVENT_SHORT (engO k)) c stError rsnShort
      else
        let r := readBlock s k c.fn (c.addr + c.inDone) (c.len - c.inDone) c.outDone c.limit (2 ^ 40) host hostError true
        match r.2 with
        | none => r.1
        | some (.inr x) => colFail r.1 c x.1 x.2
        | some (.inl (.fail step reason)) => colFail (countFail r.1 k step reason 1 c.inDone) c stError reason
        | some (.inl (.good xs used)) =>
          let out := c.outDone + 8 * xs.length
          colServed (countBlock r.1 k used (8 * xs.length))
            { c with inDone := c.inDone + used, outDone := out, buf := c.buf ++ xs, done := decide (c.limit ≤ out) }

def execDecodeBlock (d e : Nat) (host : Bytes) (hostError : Bool) (s : State) : Res := .next (decodeStep s d e host hostError)

/-! ### Capture (R316, R426) -/

/-- The enabled engine of a die with the least queued capture work, the lower-numbered on ties (R426). -/
def capEngine (s : State) (d : Nat) : Option Nat :=
  ((List.range 4).map (engKey d)).foldl (fun best (k : Nat) =>
    if engOn s k then
      match best with
      | some b => if (capsOf s k).length < (capsOf s b).length then some k else best
      | none => some k
    else best) none

/-- A capture block goes to an engine of its port's die; it waits while none is enabled. -/
def handCapture (s : State) (b : CapBlk) : State :=
  match capEngine s (dieOfPort b.port) with
  | none => modCdc s (fun c => { c with capWait := c.capWait ++ [b] })
  | some k =>
    let w := engWork s k
    preempted (modCdc s (fun c => { c with caps := Tbl.put k (capsOf s k ++ [b]) c.caps })) k w 2

/-- The waiting capture blocks of a die are handed out. -/
def handWaiting (s : State) (d : Nat) : State :=
  let mine := s.cdc.capWait.filter (fun b => dieOfPort b.port == d)
  let s := modCdc s (fun c => { c with capWait := c.capWait.filter (fun b => !(dieOfPort b.port == d)) })
  mine.foldl handCapture s

/-- The capture blocks of a port that are queued (R316). -/
def capCount (s : State) (p : Nat) : Nat :=
  s.cdc.caps.foldl (fun n e => n + (e.2.filter (fun b => b.port == p)).length) 0 +
    (s.cdc.capWait.filter (fun b => b.port == p)).length

/-- Offset of the SCH_CAPTURE registers of a port. -/
def capO (p : Nat) : Nat := dieO (dieOfPort p) + p % 2 * 0x10

/-- A capture block is dropped (R316). -/
def capGap (s : State) (p stamp : Nat) : State :=
  let s := satF s F.SCH_CAPTURE_GAP_BLOCKS (capO p) 1
  let s := if s.cdc.gaps.contains p then s
    else modCdc (setF s F.SCH_CAPTURE_STAMP_FIRST_STAMP (capO p) stamp) (fun c => { c with gaps := p :: c.gaps })
  raise s F.SCH_EVENT_CAPTURE_GAP (dieO (dieOfPort p))

/-- Whether a plat has a capture region (R172, PURPOSE 1). -/
def Plat.captures (p : Plat) : Bool := p.parts.any (fun r => r.kind == 2 && r.purpose == 1)

/-- The row of a frame joins what is gathered for a plat's capture region; 512 rows make one block of each word-column. -/
def captureRow (s : State) (port handle src group stamp : Nat) (row : List W64) : State :=
  let is := fun (a : CapAcc) => a.port == port && a.handle == handle && a.src == src && a.group == group
  let acc := (s.cdc.accs.find? is).getD ⟨port, handle, src, group, stamp, []⟩
  let rows := acc.rows ++ [row]
  let rest := s.cdc.accs.filter (fun a => !is a && s.plats.active.any (fun p => p.handle == a.handle))
  if rows.length < 512 then modCdc s (fun c => { c with accs := { acc with rows := rows } :: rest })
  else
    let s := modCdc s (fun c => { c with accs := rest })
    (List.range row.length).foldl (fun s (w : Nat) =>
      if capCount s port < 256 then handCapture s ⟨port, handle, rows.map (fun r => r.getD w 0)⟩ else capGap s port acc.stamp) s

/-- The capture path takes an accepted frame's row (R57, R316): for each active plat that declares the group and has a
capture region, and to which the source's tokens may go. -/
def captureFrame (s : State) (port src group stamp : Nat) (row : List W64) : State :=
  (s.plats.active.filter (fun p => p.captures && p.schema.any (fun g => g.id == group && !g.isTable && !g.fed) &&
    mayDeliver s src p)).foldl (fun s (p : Plat) => captureRow s port p.handle src group stamp row) s

/-- The part of a plat's capture region that a block of die `d` reaches: that on the die itself, else the first. -/
def capturePart (s : State) (p : Plat) (d : Nat) : Option PartRec :=
  let rs := p.parts.filter (fun r => r.kind == 2 && r.purpose == 1)
  match rs.find? (fun r => onDie s r d) with
  | some r => some r
  | none => rs.head?

/-- CAPTURE_BLOCK (R426): the engine's next capture block is compressed and written to its plat's capture region, at a place that
the spec leaves open (a free value, log entry 5); it waits for room in the write queues (R383). A block whose plat has gone is
discarded. -/
def captureBlock (s : State) (d e : Nat) : State :=
  let k := engKey d e
  if engWork s k ≠ 2 ∨ 3 < e then s
  else match capsOf s k with
    | [] => s
    | b :: rest =>
      let t := modCdc s (fun c => { c with caps := Tbl.put k rest c.caps })
      match s.plats.active.find? (fun p => p.handle == b.handle) with
      | none => t
      | some p => match capturePart s p d with
        | none => t
        | some r =>
          let blk := encodeBlock b.xs
          let v := fresh t 64
          let off := v.1 % ((r.count * 2 ^ 30 - blk.length) / 8 + 1) * 8
          if !hbmRoom s r.die (r.first * 2 ^ 30 + off) blk.length 8 (fnWays s p.owner) then s
          else
          let w := hbmWrite v.2 r.die (r.first * 2 ^ 30 + off) blk 8 (fnWays v.2 p.owner)
          if w.2 = 0 then countEnc w.1 k b.xs.length blk else w.1

def execCaptureBlock (d e : Nat) (s : State) : Res := .next (captureBlock s d e)

/-! ### CDC_CTL (R437) -/

/-- A write of CDC_CTL.ENABLE by `fn`: 0 is ignored while the engine holds a slot, a job or capture work. -/
def cdcEnable (s : State) (fn k : Nat) (on : Bool) : State :=
  if on then handWaiting (setF s F.CDC_CTL_ENABLE (engO k) 1) (k / 4)
  else if engOn s k && (decide (0 < slotsHeld s k) || !(jobsOf s k).isEmpty || !(capsOf s k).isEmpty) then
    logWWR s fn (F.CDC_CTL_ENABLE.base + engO k)
  else setF s F.CDC_CTL_ENABLE (engO k) 0

end Sys2Proof.Machine
end

