-- ==== Sys2Proof/Machine/Fec.lean ====
section
/-! DEFINITION. The FEC layer of a Transit transmitter (03_transit.md R105 to R107): RS(544,514) over GF(2^10) with the code of
IEEE 802.3 Clause 91, which the spec cites by name, the data bits of a codeword pair, the symbols of the eight lanes, and the
slot cycle in which flits leave a port. -/

namespace Sys2Proof.Machine

/-! ### RS(544,514) -/

/-- A symbol times α in GF(2^10), whose field polynomial is x^10 + x^3 + 1. -/
def gfDouble (a : Nat) : Nat := if 1024 ≤ 2 * a then 2 * a ^^^ 0x409 else 2 * a

/-- The product of two symbols over the low `n` bits of `b`. -/
def gfMul : (n a b : Nat) → Nat
  | 0, _, _ => 0
  | n + 1, a, b => (if b % 2 = 1 then a else 0) ^^^ gfMul n (gfDouble a) (b / 2)

/-- A polynomial, lowest coefficient first, times x + r. -/
def gfTimesRoot (r : Nat) (p : List Nat) : List Nat :=
  List.zipWith (· ^^^ ·) (0 :: p) (p.map (gfMul 10 r) ++ [0])

/-- The product of x + α^j over `n` values of j from the one whose power is `a`. -/
def rsGenerator : (n a : Nat) → List Nat
  | 0, _ => [1]
  | n + 1, a => gfTimesRoot a (rsGenerator n (gfDouble a))

/-- The remainder `r` (highest coefficient first) after one more message symbol, `g` being the generator without its leading
1, highest first. -/
def rsStep (g r : List Nat) (m : Nat) : List Nat :=
  let q := m ^^^ r.headD 0
  List.zipWith (· ^^^ ·) (r.drop 1 ++ [0]) (g.map (gfMul 10 q))

/-- The 30 parity symbols of a message, highest coefficient first. -/
def rsParity (msg : List Nat) : List Nat :=
  msg.foldl (rsStep ((rsGenerator 30 1).reverse.drop 1)) (List.replicate 30 0)

/-! ### A codeword pair (R105, R106) -/

/-- The 1,285 data bytes of a pair: PAIR_IDX, CYCLE, and its five flits. -/
def pairData (idx cycle : Nat) (flits : List Bytes) : Bytes :=
  leBytes 1 (idx % 8) ++ leBytes 2 cycle ++ leBytes 2 0 ++ flits.flatten

/-- Symbol `s` of the codeword whose message starts at data bit `lo`: the first bit fills bit 0 of symbol 0. -/
def messageSymbol (data : Bytes) (lo s : Nat) : Nat :=
  let b := lo + 10 * s
  fld data (b / 8) 3 / 2 ^ (b % 8) % 1024

/-- A codeword of a pair: 514 message symbols from data bit `lo`, then the parity. -/
def codeword (data : Bytes) (lo : Nat) : List Nat :=
  let m := (List.range 514).map (messageSymbol data lo)
  m ++ rsParity m

/-- Codewords A and B of a pair. -/
def pairWords (idx cycle : Nat) (flits : List Bytes) : List Nat × List Nat :=
  let d := pairData idx cycle flits
  (codeword d 0, codeword d 5140)

/-- The 68 symbols of a codeword on one of the eight lanes: symbol s goes on lane s mod 8. -/
def laneSymbols (word : List Nat) (lane : Nat) : List Nat := (List.range 68).map (fun i => word.getD (8 * i + lane) 0)

/-! ### The slot cycle (R107) -/

/-- The hidden state of a port. -/
def portOf (s : State) (p : Nat) : Port := Tbl.getD s.ports p {}

/-- The hidden state of a port changed. -/
def modPort (s : State) (p : Nat) (f : Port → Port) : State := { s with ports := Tbl.upd s.ports p {} f }

/-- The next flit slot of a port is used: the flit leaves, its pair with the fifth, and the slot cycle ends with the
thirty-fifth. -/
def useSlot (s : State) (p : Nat) (flit : Bytes) : State :=
  let q := portOf s p
  let fs := q.pair ++ [flit]
  let s := emitOut s (.flit p flit)
  let last := decide (35 ≤ q.slot + 1)
  let s := modPort s p (fun x => { x with pair := if fs.length < 5 then fs else [], slot := if last then 0 else q.slot + 1,
                                          cycle := if last then (q.cycle + 1) % 65536 else q.cycle })
  if fs.length < 5 then s
  else
    let w := pairWords (q.slot / 5) q.cycle fs
    emitOut s (.pair p w.1 w.2)

end Sys2Proof.Machine
end

