-- ==== Sys2Proof/Machine/Transit.lean ====
section
/-! DEFINITION. Transit trace links (03_transit.md): the link state machine, flits and replay, credits, frame checks,
sources, violations, NAKs, HALT frames and federation stamps, with their commands. FRAME_ACCEPT is in Machine/Accept.lean,
TRIGGER_SEND and FED_TOKEN_SEND in Machine/Dest.lean. -/

namespace Sys2Proof.Machine

/-! ### Link states (R119) -/

def lkDisabled : Nat := 0
def lkDetect : Nat := 1
def lkTrain : Nat := 2
def lkLock : Nat := 3
def lkInit : Nat := 4
def lkUp : Nat := 5
def lkReset : Nat := 6

/-- The state of a port. -/
def link (s : State) (p : Nat) : Nat := getF s F.TRN_STAT_STATE (portO p)

/-- Virtual channel `v` of a port. -/
def vcOf (s : State) (p v : Nat) : Vc := Tbl.getD (portOf s p).vcs v {}

/-- Virtual channel `v` of a port changed. -/
def modVc (s : State) (p v : Nat) (f : Vc → Vc) : State :=
  modPort s p (fun q => { q with vcs := Tbl.upd q.vcs v {} f })

/-- Offset of the credit registers of VC `v` of port `p`. -/
def credO (p v : Nat) : Nat := portO p + v * 0x10

/-- The local indices that a port grants: SRC_COUNT, 0 acting as 1 and above 64 as 64. -/
def srcCount (s : State) (p : Nat) : Nat := min 64 (max 1 (getF s F.TRN_PORT_CFG_SRC_COUNT (portO p)))

/-- SRC_BASE of a port. -/
def srcBase (s : State) (p : Nat) : Nat := getF s F.TRN_PORT_CFG_SRC_BASE (portO p)

/-- Whether a port runs in federation mode. -/
def fedMode (s : State) (p : Nat) : Bool := isSet s F.TRN_PORT_CTL_MODE (portO p)

/-- Whether a source is PENDING, LIVE or STALLED. -/
def srcHeld (s : State) (n : Nat) : Bool := let st := srcState s n; st == srcPending || st == srcLive || st == srcStalled

/-- The sources that a port holds, ascending. -/
def portSources (s : State) (p : Nat) : List Nat :=
  (knownSources s).filter (fun n => srcHeld s n && getF s F.BMK_SRC_STAT_PORT (srcO n) == p)

/-! ### Flits (R108, R111, R116) -/

/-- A flit: type, VC, FSEQ, LEN, FRAME_PTR and a payload padded to 240 bytes, with its CRC. -/
def mkFlit (ftype vc fseq len ptr : Nat) (payload : Bytes) : Bytes :=
  let b := [BitVec.ofNat 8 ftype, BitVec.ofNat 8 vc] ++ leBytes 2 fseq ++ leBytes 2 len ++ leBytes 2 ptr ++
    List.replicate 4 0 ++ sub payload 0 240
  b ++ leBytes 4 (crc32c b)

/-- The LC fields of one virtual channel: credit, ACK of the last flit in order, FSEQ expected next. -/
def lcVc (s : State) (p v : Nat) : Bytes :=
  let e := (vcOf s p v).rxExp
  leBytes 4 (getF s F.TRN_CRED_RX_RX_GRANTED (credO p v)) ++ leBytes 2 (e + 65535) ++ leBytes 2 e

/-- An LC flit with flags and RESET_CAUSE (R111). -/
def lcFlit (s : State) (p flags cause : Nat) : Bytes :=
  mkFlit 2 0 0 0 0xFFFF ([BitVec.ofNat 8 flags, BitVec.ofNat 8 cause] ++ leBytes 2 0x0100 ++
    lcVc s p 0 ++ lcVc s p 1 ++ lcVc s p 2)

/-- `n` LC flits leave a port. -/
def sendLc (s : State) (p flags cause : Nat) : (n : Nat) → State
  | 0 => s
  | n + 1 => sendLc (useSlot s p (lcFlit s p flags cause)) p flags cause n

/-- An IDLE flit (R108). -/
def idleFlit : Bytes := mkFlit 0 0 0 0 0xFFFF []

/-- A DATA flit leaves a port: slot 0 of a cycle carries an LC flit before it (R107). -/
def sendData (s : State) (p : Nat) (flit : Bytes) : State :=
  useSlot (if (portOf s p).slot = 0 then sendLc s p 0 0 1 else s) p flit

/-- The `n` slots that a pair still lacks carry IDLE flits. -/
def fillPair (s : State) (p : Nat) : (n : Nat) → State
  | 0 => s
  | n + 1 => if (portOf s p).pair.isEmpty then s else fillPair (useSlot s p idleFlit) p n

/-- A flit slot passes with nothing else to send (R107, R119): IDLE flits in LOCK, INIT flits in INIT, and in UP an LC flit in slot
0 of a cycle and IDLE flits in the others. -/
def idleSlot (s : State) (p : Nat) : State :=
  if link s p = lkLock then useSlot s p idleFlit
  else if link s p = lkInit then sendLc s p 1 0 1
  else if link s p = lkUp then (if (portOf s p).slot = 0 then sendLc s p 0 0 1 else useSlot s p idleFlit)
  else s

/-- Credits of a frame of a length (R113). -/
def creditsOf (len : Nat) : Nat := ceilDiv len 64

/-- Credits that a port may still use on a VC (R113). -/
def txFree (s : State) (p v : Nat) : Nat :=
  subMod 32 (getF s F.TRN_CRED_TX_TX_GRANTED (credO p v)) (getF s F.TRN_CRED_TX_TX_CONSUMED (credO p v))

/-- Whether a frame of `len` bytes may start on a VC: the port is UP, credit allows it (R113) and a further DATA flit may
stay unacknowledged (R116). -/
def maySend (s : State) (p v len : Nat) : Bool :=
  link s p == lkUp && decide (creditsOf len ≤ txFree s p v) && decide ((vcOf s p v).unacked.length < 512)

/-- A frame leaves on a VC in a DATA flit of its own (log entry 10). -/
def sendFrame (s : State) (p v : Nat) (frame : Bytes) : State :=
  let q := (vcOf s p v).txSeq
  let fl := mkFlit 1 v q frame.length 0 frame
  let s := addF s F.TRN_CRED_TX_TX_CONSUMED (credO p v) (creditsOf frame.length)
  let s := modVc s p v (fun c => { c with txSeq := (q + 1) % 65536, unacked := c.unacked ++ [(q, fl)] })
  sendData s p fl

/-! ### Leaving UP and resetting (R119 to R122) -/

/-- The frames and flits of a port are discarded: frames not yet accepted, what waits for credit, and the replay buffers.
TRIGGERs that wait are discarded and counted (R294). -/
def clearPort (s : State) (p : Nat) : State :=
  let s := (portOf s p).trigs.foldl (fun s t => satF s F.FAB_EMIT_STAT_TRIG_DROPPED (dieO t.res.die) 1) s
  modPort s p (fun q => { q with initRx := 0, vcs := [], checked := [], vc1q := [], trigs := [] })

/-- A port takes a state. -/
def setLink (s : State) (p st : Nat) : State := setF s F.TRN_STAT_STATE (portO p) st

/-- A port leaves UP (R121): its sources detach in ascending order with `reason`. -/
def leaveUp (s : State) (p st reason : Nat) : State :=
  let held := portSources s p
  let s := clearPort (setLink s p st) p
  let s := raise s F.TRN_EVENT_LINK_DOWN (portO p)
  let s := if st = lkDetect then satF s F.TRN_LINK_ERR2_LOCK_LOSSES (portO p) 1
    else if st = lkReset then satF s F.TRN_LINK_ERR2_LINK_RESETS (portO p) 1 else s
  let s := setF s F.TRN_STAT_FAR_PKG_VALID (portO p) 0
  held.foldl (fun s n => detach s n reason) s

/-- 8 LC flits with LINK_RESET and the cause leave a port (R119, R122); their last pair is filled up. -/
def sendReset (s : State) (p cause : Nat) : State := fillPair (sendLc s p 2 cause 8) p 5

/-- A link reset from UP (R119): the LC flits with LINK_RESET, then RESET. -/
def resetLink (s : State) (p cause reason : Nat) : State := leaveUp (sendReset s p cause) p lkReset reason

/-- A loss of lock, also for a replay failure and a LINK_RESET received (R118, R121). -/
def loseLock (s : State) (p : Nat) : State := leaveUp s p lkDetect rsnLock

/-- A port enters DISABLED (R122): from UP with 8 LC flits and its sources detached with `reason`. -/
def disablePort (s : State) (p cause reason : Nat) : State :=
  let s := setF s F.TRN_PORT_CTL_ENABLE (portO p) 0
  let s := if link s p = lkUp then leaveUp (sendReset s p cause) p lkDisabled reason else clearPort (setLink s p lkDisabled) p
  setF s F.TRN_STAT_LANES_DETECTED (portO p) 0

/-! ### Commands of the link state machine -/

/-- Whether the source range of port `p` overlaps that of another enabled port (R123). -/
def overlaps (s : State) (p : Nat) : Bool :=
  (List.range s.part.ports).any (fun q => q != p && isSet s F.TRN_PORT_CTL_ENABLE (portO q) &&
    decide (srcBase s p < srcBase s q + srcCount s q) && decide (srcBase s q < srcBase s p + srcCount s p))

/-- PORT_ENABLE (R119, R123): a DISABLED port enters DETECT; refused while BMK_CTL.ENABLE is 0 or its sources overlap
those of an enabled port. -/
def portEnable (s : State) (fn p : Nat) : State :=
  if p < s.part.ports ∧ isSet s F.TRN_PORT_CTL_ENABLE (portO p) = false then
    if isSet s F.BMK_CTL_ENABLE 0 && !overlaps s p then
      setLink (setF s F.TRN_PORT_CTL_ENABLE (portO p) 1) p lkDetect
    else logIgn s fn (F.TRN_PORT_CTL_ENABLE.base + portO p)
  else s

def execPortEnable (fn p : Nat) (s : State) : Res := .next (portEnable s fn p)

/-- PORT_DISABLE (R122): ENABLE is cleared. -/
def portDisable (s : State) (p : Nat) : State :=
  if isSet s F.TRN_PORT_CTL_ENABLE (portO p) then disablePort s p 0 rsnPort else s

def execPortDisable (p : Nat) (s : State) : Res := .next (portDisable s p)

/-- LINK_RESET (R119): written by the manager in UP; the sources detach with DETACH_PORT (R121). -/
def linkReset (s : State) (p : Nat) : State := if link s p = lkUp then resetLink s p 0 rsnPort else s

def execLinkReset (p : Nat) (s : State) : Res := .next (linkReset s p)

/-- SIGNAL_DETECT (R119): DETECT to TRAIN. -/
def signalDetect (s : State) (p : Nat) : State :=
  if link s p = lkDetect then setLink (setF s F.TRN_STAT_LANES_DETECTED (portO p) 0xFF) p lkTrain else s

def execSignalDetect (p : Nat) (s : State) : Res := .next (signalDetect s p)

/-- LANES_ADAPTED (R104, R119): TRAIN to LOCK; the corrected reversal and polarities are reported, and slot cycles begin. DESIGN
CHOICE: CYCLE begins at 0, of which the spec says nothing (log entry 74). -/
def lanesAdapted (s : State) (p pol : Nat) (rev : Bool) : State :=
  if link s p = lkTrain then
    let s := setF s F.TRN_STAT_LANE_REVERSED (portO p) (if rev then 1 else 0)
    let s := modPort s p (fun q => { q with slot := 0, cycle := 0, pair := [] })
    setLink (setF s F.TRN_STAT_LANE_POLARITY (portO p) pol) p lkLock
  else s

def execLanesAdapted (p pol : Nat) (rev : Bool) (s : State) : Res := .next (lanesAdapted s p pol rev)

/-- TRAIN falls back to DETECT (R119). -/
def trainBack (s : State) (p : Nat) : State :=
  if link s p = lkTrain then
    let s := satF s F.TRN_LINK_ERR2_TRAIN_FAILS (portO p) 1
    setLink (raise s F.TRN_EVENT_TRAIN_FAIL (portO p)) p lkDetect
  else s

/-- LANE_FAIL (R119). -/
def execLaneFail (p : Nat) (s : State) : Res := .next (trainBack s p)

/-- TRAIN_TIMEOUT (R119). -/
def execTrainTimeout (p : Nat) (s : State) : Res := .next (trainBack s p)

/-- LOCK_ACQUIRED (R119, R120): LOCK to INIT; credits, ACKs and sequence numbers take their starting values, and INIT LC
flits are sent: three at once, further ones in every slot that passes (`idleSlot`). -/
def lockAcquired (s : State) (p : Nat) : State :=
  if link s p = lkLock then
    let s := clearPort (setLink s p lkInit) p
    let s := modPort s p (fun q => { q with lastFed := none, fedSeq := 0 })
    let s := setF s F.TRN_CRED_RX_RX_GRANTED (credO p 0) 4096
    let s := setF s F.TRN_CRED_RX_RX_GRANTED (credO p 1) 256
    let s := setF s F.TRN_CRED_RX_RX_GRANTED (credO p 2) 0
    let s := [0, 1, 2].foldl (fun s v => setF (setF (setF s F.TRN_CRED_RX_RX_CONSUMED (credO p v) 0)
      F.TRN_CRED_TX_TX_CONSUMED (credO p v) 0) F.TRN_CRED_TX_TX_GRANTED (credO p v) 0) s
    sendLc s p 1 0 3
  else s

def execLockAcquired (p : Nat) (s : State) : Res := .next (lockAcquired s p)

/-- LOCK_TIMEOUT (R119): LOCK or INIT falls back to DETECT. -/
def lockTimeout (s : State) (p : Nat) : State :=
  if link s p = lkLock ∨ link s p = lkInit then clearPort (setLink s p lkDetect) p else s

def execLockTimeout (p : Nat) (s : State) : Res := .next (lockTimeout s p)

/-- LOSS_OF_LOCK (R121). -/
def lossOfLock (s : State) (p : Nat) : State := if link s p = lkUp then loseLock s p else s

def execLossOfLock (p : Nat) (s : State) : Res := .next (lossOfLock s p)

/-- RESET_IDLE_DONE (R119). -/
def resetIdleDone (s : State) (p : Nat) : State := if link s p = lkReset then setLink s p lkDetect else s

def execResetIdleDone (p : Nat) (s : State) : Res := .next (resetIdleDone s p)

/-! ### Receiving flits (R109, R110, R116 to R118) -/

/-- A RETRY request leaves, naming the expected FSEQ of every VC (R117); the eighth in a row that names the same one on a
VC is a replay failure (R118). -/
def requestRetry (s : State) (p : Nat) : State :=
  let s := [0, 1, 2].foldl (fun s v => modVc s p v (fun c => { c with retryRun := c.retryRun + 1 })) s
  let s := satF s F.TRN_LINK_ERR2_RETRIES (portO p) 1
  let s := sendLc s p 4 0 1
  if [0, 1, 2].any (fun v => decide (8 ≤ (vcOf s p v).retryRun)) then loseLock s p else s

/-- The payload of a DATA flit received in order joins its stream (R110); while the receiver resumes after a bad LENGTH,
the bytes before the next marked frame start are dropped (R132). -/
def Vc.append (c : Vc) (payload : Bytes) (ptr : Nat) : Vc :=
  let c := { c with rxExp := (c.rxExp + 1) % 65536, waiting := false, retryRun := 0 }
  if c.resync then
    if ptr < payload.length then { c with stream := payload.drop ptr, marks := [0], resync := false } else c
  else if ptr < payload.length then
    { c with stream := c.stream ++ payload, marks := c.marks ++ [c.stream.length + ptr] }
  else { c with stream := c.stream ++ payload }

/-- A DATA flit with a good CRC (R117). A flit of the VC code 3, which no rule assigns, has no effect (log entry 10). -/
def dataFlit (s : State) (p : Nat) (f : Bytes) : State :=
  let v := byteAt f 1 % 4
  let c := vcOf s p v
  if v = 3 then s
  else if fld f 2 2 = c.rxExp then modVc s p v (fun c => c.append ((f.drop 12).take (min 240 (fld f 4 2))) (fld f 6 2))
  else if c.waiting then s
  else requestRetry (modVc s p v (fun c => { c with waiting := true })) p

/-- t lies at or before u in mod-2^16 order (R116). -/
def seq16le (t u : Nat) : Bool := decide (subMod 16 u t < 32768)

/-- The LC fields of VC `v` are taken over: GRANTED, then acknowledged flits leave the replay buffer, then with RETRY the
flits from the named FSEQ are sent again (R113, R116, R117). -/
def takeLc (s : State) (p v : Nat) (f : Bytes) (retry : Bool) : State :=
  let o := 16 + 8 * v
  let s := setF s F.TRN_CRED_TX_TX_GRANTED (credO p v) (fld f o 4)
  let ack := fld f (o + 4) 2
  let s := modVc s p v (fun c => { c with unacked := c.unacked.filter (fun e => !seq16le e.1 ack) })
  if retry then
    ((vcOf s p v).unacked.filter (fun e => seq16le (fld f (o + 6) 2) e.1)).foldl (fun s e => sendData s p e.2) s
  else s

/-- An LC flit with a good CRC (R111, R119, R120). The body lies at payload offset 12 of the flit. -/
def lcFlitIn (s : State) (p : Nat) (f : Bytes) : State :=
  let fl := byteAt f 12
  let st := link s p
  if st = lkInit then
    if bits fl 0 1 = 1 then
      let s := modPort s p (fun q => { q with initRx := q.initRx + 1 })
      [0, 1, 2].foldl (fun s v => setF s F.TRN_CRED_TX_TX_GRANTED (credO p v) (fld f (16 + 8 * v) 4)) s
    else if (portOf s p).initRx < 3 then modPort s p (fun q => { q with initRx := 0 }) else s
  else if st = lkUp then
    if bits fl 1 1 = 1 then loseLock s p
    else if bits fl 0 1 = 1 then s
    else [0, 1, 2].foldl (fun s v => takeLc s p v f (bits fl 2 1 == 1)) s
  else s

/-- A received flit (R108, R109): the FEC counts, the CRC, then its type. A discarded flit asks for a replay; the VC that
its header names as DATA waits (log entry 10). -/
def flitIn (s : State) (p corr unc : Nat) (f : Bytes) : State :=
  if p < s.part.ports ∧ (link s p = lkInit ∨ link s p = lkUp) then
    let s := satF (satF s F.TRN_LINK_ERR_FEC_CORRECTED (portO p) corr) F.TRN_LINK_ERR_FEC_UNCORRECTED (portO p) unc
    let t := byteAt f 0
    if f.length = 256 ∧ crc32c (f.take 252) = fld f 252 4 ∧ t ≤ 2 then
      if t = 2 then lcFlitIn s p f
      else if t = 1 ∧ link s p = lkUp then dataFlit s p f else s
    else
      let s := satF s F.TRN_LINK_ERR_FLIT_CRC (portO p) 1
      if link s p = lkUp then
        let v := byteAt f 1 % 4
        let s := if t = 1 ∧ v ≠ 3 then modVc s p v (fun c => { c with waiting := true }) else s
        requestRetry s p
      else s
  else s

/-- DATA_FLIT_RECEIVE (R117). -/
def execDataFlitReceive (p corr unc : Nat) (f : Bytes) (s : State) : Res := .next (flitIn s p corr unc f)

/-- LC_FLIT_RECEIVE (R111). -/
def execLcFlitReceive (p corr unc : Nat) (f : Bytes) (s : State) : Res := .next (flitIn s p corr unc f)

/-- RETRY_REPEAT (R117): while a VC waits for its expected FSEQ. -/
def retryRepeat (s : State) (p : Nat) : State :=
  if link s p = lkUp ∧ [0, 1, 2].any (fun v => (vcOf s p v).waiting) then requestRetry s p else s

def execRetryRepeat (p : Nat) (s : State) : Res := .next (retryRepeat s p)

/-- ACK_SEND (R116). -/
def ackSend (s : State) (p : Nat) : State := if link s p = lkUp then sendLc s p 0 0 1 else s

def execAckSend (p : Nat) (s : State) : Res := .next (ackSend s p)

/-! ### Frames sent on VC1 (R136, R140, R145, R148, R150) -/

/-- The HALT frame (R150). -/
def haltFrame (s : State) : Bytes :=
  [0x25, 0] ++ leBytes 2 32 ++ List.replicate 4 0 ++ leBytes 8 s.rings.haltFc ++ List.replicate 16 0

/-- A NAK is due: beyond 64 waiting, the oldest waiting NAK is discarded and counted (R148). -/
def dropOldNak (s : State) (p : Nat) : State :=
  let q := (portOf s p).vc1q
  if (q.filter (·.nak)).length < 64 then s
  else
    let s := match findIdx (·.nak) q with
      | some i => modPort s p (fun q => { q with vc1q := dropAt q.vc1q i })
      | none => s
    raise (satF s F.TRN_VIOL_STAT_NAK_LOST (portO p) 1) F.TRN_EVENT_NAK_LOST (portO p)

/-- The place in the VC1 queue of the frame that leaves next: the first, and during a package halt the first HALT frame, since no
other answer is then sent (R150). -/
def vc1Next (s : State) (p : Nat) : Option Nat :=
  findIdx (fun (x : Vc1Item) => !halted s || byteAt x.bytes 0 == 0x25) (portOf s p).vc1q

/-- A frame is due on VC1. During a package halt a HALT frame takes its place (R150, R151). Frames other than NAKs leave
at once when nothing that may leave waits and credit allows. -/
def queueVc1 (s : State) (p : Nat) (nak : Bool) (frame : Bytes) : State :=
  let nak := nak && !halted s
  let frame := if halted s then haltFrame s else frame
  let s := if nak then dropOldNak s p else s
  if !nak && (vc1Next s p).isNone && maySend s p 1 frame.length then sendFrame s p 1 frame
  else modPort s p (fun q => { q with vc1q := q.vc1q ++ [⟨nak, frame⟩] })

/-- NAK_SEND (R148): the first frame of the VC1 queue that may leave is sent. -/
def nakSend (s : State) (p : Nat) : State :=
  match vc1Next s p with
  | some i =>
    match (portOf s p).vc1q[i]? with
    | some x =>
      if maySend s p 1 x.bytes.length then sendFrame (modPort s p (fun q => { q with vc1q := dropAt q.vc1q i })) p 1 x.bytes else s
    | none => s
  | none => s

def execNakSend (p : Nat) (s : State) : Res := .next (nakSend s p)

/-- HALT_FRAME_SEND (R150): on each UP port during a package halt. -/
def haltFrameSend (s : State) (p : Nat) : State :=
  if halted s && link s p == lkUp then queueVc1 s p false (haltFrame s) else s

def execHaltFrameSend (p : Nat) (s : State) : Res := .next (haltFrameSend s p)

/-! ### Violations (R145 to R149) -/

/-- Transit reasons (R146). -/
def rsnUnknownType : Nat := 0x0401
def rsnMalHeader : Nat := 0x0402
def rsnSeqOrder : Nat := 0x0403
def rsnCreditOverrun : Nat := 0x0404
def rsnStampBack : Nat := 0x0405
def rsnUnknownSource : Nat := 0x0406
def rsnMalPayload : Nat := 0x0407
def rsnUnknownGroup : Nat := 0x0408
def rsnSourceBusy : Nat := 0x0409
def rsnSourceRange : Nat := 0x040A
def rsnModeMismatch : Nat := 0x040B
def rsnVersion : Nat := 0x040C
def rsnFedConflict : Nat := 0x040D
def rsnFedUnreach : Nat := 0x040E

/-- What a NAK and a log entry say of a frame. -/
structure FrameInfo where
  reason : Nat
  source : Nat := 0xFFFF
  seq : Nat := 0
  expected : Nat := 0
  info : Nat := 0
  type : Nat
  vc : Nat
  stamp : Nat := 0
  deriving DecidableEq, Repr, Inhabited

/-- The NAK frame (R145). -/
def nakFrame (x : FrameInfo) (viol : Bool) (count : Nat) : Bytes :=
  [0x24, if viol then 1 else 0] ++ leBytes 2 32 ++ leBytes 2 x.reason ++ leBytes 2 x.source ++ leBytes 4 x.seq ++
  leBytes 4 x.expected ++ leBytes 8 x.info ++ leBytes 1 x.type ++ leBytes 1 x.vc ++ leBytes 2 count ++ List.replicate 4 0

/-- An entry of the violation log (R149). -/
def violLog (s : State) (p : Nat) (x : FrameInfo) : State :=
  let k := getF s F.TRN_VLOG_HEAD_NEXT (portO p)
  let o := portO p + k * 0x20
  let s := if getF s F.TRN_VLOG_A_REASON o = 0 then s else setF s F.TRN_VLOG_HEAD_WRAPPED (portO p) 1
  let s := setF s F.TRN_VLOG_A_REASON o x.reason
  let s := setF s F.TRN_VLOG_A_SOURCE o x.source
  let s := setF s F.TRN_VLOG_A_FRAME_TYPE o x.type
  let s := setF s F.TRN_VLOG_A_VC o x.vc
  let s := setF s F.TRN_VLOG_B_SEQ o x.seq
  let s := setF s F.TRN_VLOG_B_EXPECTED o x.expected
  let s := setF s F.TRN_VLOG_C_STAMP o x.stamp
  let s := setF s F.TRN_VLOG_D_FC o (wall s)
  addF s F.TRN_VLOG_HEAD_NEXT (portO p) 1

/-- The earlier violations of a port that lie within the preceding VIOL_WINDOW fc (R147). -/
def violsWithin (s : State) (p : Nat) : List Nat :=
  (portOf s p).viols.filter (fun f => decide (wall s ≤ f + getF s F.TRN_VIOL_CFG_VIOL_WINDOW (portO p)))

/-- A NAK that is no violation; VIOL_COUNT counts the violations within the window. -/
def sendNak (s : State) (p : Nat) (x : FrameInfo) : State :=
  queueVc1 s p true (nakFrame x false (violsWithin s p).length)

/-- A violation (R147): it is logged and answered with a NAK, or resets the link when the limit is reached
(VIOLATION_RESET). -/
def violation (s : State) (p : Nat) (x : FrameInfo) : State :=
  let early := violsWithin s p
  let lim := getF s F.TRN_VIOL_CFG_VIOL_LIMIT (portO p)
  let fc := wall s
  let s := modPort s p (fun q => { q with viols := q.viols ++ [fc] })
  let s := satF (violLog s p x) F.TRN_VIOL_STAT_VIOL_TOTAL (portO p) 1
  let s := raise s F.TRN_EVENT_VIOLATION (portO p)
  if lim ≠ 0 ∧ lim - 1 ≤ early.length then
    resetLink (raise s F.TRN_EVENT_VIOL_RESET (portO p)) p 1 rsnReset
  else queueVc1 s p true (nakFrame x true (early.length + 1))

/-! ### Cutting frames out of a stream (R110, R124, R132) -/

/-- Whether a LENGTH is valid under step 3 of R129. -/
def lenOk (len : Nat) : Bool := len % 8 == 0 && decide (32 ≤ len) && decide (len ≤ 12288)

/-- The bytes of the next frame of a VC: the whole frame, or as many of the first 32 bytes as have come when its LENGTH is
not valid; none while the frame is not complete. -/
def nextFrame (s : State) (p v : Nat) : Option Bytes :=
  let st := (vcOf s p v).stream
  if st.length < 8 then none
  else if lenOk (fld st 2 2) then (if fld st 2 2 ≤ st.length then some (st.take (fld st 2 2)) else none)
  else some (sub st 0 32)

/-- The stream without its next frame; after a bad LENGTH it resumes at the next marked frame start (R132). -/
def Vc.cut (c : Vc) (len : Nat) : Vc :=
  if lenOk len then
    { c with stream := c.stream.drop len, marks := (c.marks.filter (fun m => decide (len ≤ m))).map (· - len) }
  else
    match c.marks.filter (fun m => decide (0 < m)) with
    | m :: t => { c with stream := c.stream.drop m, marks := (m :: t).map (· - m) }
    | [] => { c with stream := [], marks := [], resync := true }

/-- The next frame of a VC is taken out of the stream. -/
def cutFrame (s : State) (p v len : Nat) : State := modVc s p v (fun c => c.cut len)

/-- The credits of an accepted or dropped frame are charged and returned in one fc (R115, R132). -/
def returnCredit (s : State) (p v len : Nat) : State :=
  let c := creditsOf len
  addF (addF s F.TRN_CRED_RX_RX_CONSUMED (credO p v) c) F.TRN_CRED_RX_RX_GRANTED (credO p v) c

/-- Credit still open to the partner on a VC (step 1 of R129). -/
def rxFree (s : State) (p v : Nat) : Nat :=
  subMod 32 (getF s F.TRN_CRED_RX_RX_GRANTED (credO p v)) (getF s F.TRN_CRED_RX_RX_CONSUMED (credO p v))

/-! ### Closing a source by BYE (R139, R140) -/

/-- Frames of a source that passed their checks and wait. -/
def waitingOf (s : State) (p n : Nat) : List CFrame := (portOf s p).checked.filter (fun f => f.source == n)

/-- The sequence number that the next frame of a source must carry. -/
def expSeq (s : State) (p n : Nat) : Nat := (Tbl.getD s.bmk.expSeq n 0 + (waitingOf s p n).length) % 2 ^ 32

/-- The expected sequence number as accepted frames leave it (R131). -/
def accSeq (s : State) (n : Nat) : Nat := Tbl.getD s.bmk.expSeq n 0

/-- BYE_ACK (R140). -/
def byeAck (s : State) (n : Nat) : Bytes :=
  [0x23, 0] ++ leBytes 2 32 ++ leBytes 2 n ++ leBytes 2 0 ++ leBytes 4 (accSeq s n + 2 ^ 32 - 1) ++ leBytes 4 0 ++
  leBytes 8 (srcHzn s n) ++ List.replicate 8 0

/-- Whether SEQ follows LAST_SEQ of a BYE received for the source (R139). -/
def afterBye (s : State) (n seq : Nat) : Bool :=
  match Tbl.get? n s.bmk.bye with
  | some last => let d := subMod 32 seq last; decide (1 ≤ d ∧ d < 2 ^ 31)
  | none => false

/-- The complete frames at the front of a stream that `p` picks are taken out: the bytes left, the marks left, and the lengths of
the frames taken. -/
def sweepStream (p : Bytes → Bool) : (fuel : Nat) → Bytes → List Nat → Bytes × List Nat × List Nat
  | 0, st, ms => (st, ms, [])
  | n + 1, st, ms =>
    let len := fld st 2 2
    if decide (st.length < 8) || !lenOk len || decide (st.length < len) then (st, ms, [])
    else
      let r := sweepStream p n (st.drop len) ((ms.filter (fun m => decide (len ≤ m))).map (· - len))
      if p (st.take len) then (r.1, r.2.1, len :: r.2.2)
      else (st.take len ++ r.1, ms.filter (fun m => decide (m < len)) ++ r.2.1.map (· + len), r.2.2)

/-- Whether a VC0 frame not yet checked is one of source `n` that its close discards: one whose SEQ does not follow LAST_SEQ of
the BYE that waits, if one does (R139, R151). -/
def discardedBy (s : State) (p n : Nat) (f : Bytes) : Bool :=
  decide ((if fedMode s p then srcBase s p else fld f 4 2) = n) && [1, 2, 3, 4].contains (byteAt f 0) && !afterBye s n (fld f 8 4)

/-- The frames of a source not yet accepted are discarded, checked ones and those still in the stream, and their credits are
returned, which a package halt withholds (R139, R150). -/
def discardFrames (s : State) (p n : Nat) : State :=
  let c := vcOf s p 0
  let r := if c.resync then (c.stream, c.marks, []) else sweepStream (discardedBy s p n) (c.stream.length / 32 + 1) c.stream c.marks
  let lens := (waitingOf s p n).map (fun f => f.bytes.length) ++ r.2.2
  let s := modPort s p (fun q => { q with checked := q.checked.filter (fun f => f.source != n) })
  let s := modVc s p 0 (fun c => { c with stream := r.1, marks := r.2.1 })
  if halted s then s else lens.foldl (fun s l => returnCredit s p 0 l) s

/-- A source closes after a BYE: its frames not yet accepted are discarded, it detaches with DETACH_BYE, and BYE_ACK is due
(R139, R140). -/
def closeBye (s : State) (p n : Nat) : State :=
  let s := discardFrames s p n
  let s := detach s n rsnBye
  let s := raise s F.TRN_EVENT_BYE (portO p)
  queueVc1 s p false (byeAck s n)

/-- Whether a source's waiting BYE has its LAST_SEQ reached: `d` of R139 is 0. -/
def byeDue (s : State) (n : Nat) : Bool := (Tbl.get? n s.bmk.bye).any (fun last => subMod 32 (last + 1) (accSeq s n) == 0)

/-- A source whose BYE waits closes when its LAST_SEQ has been reached (R139). -/
def byeReached (s : State) (p n : Nat) : State := if byeDue s n then closeBye s p n else s

/-- BYE_WAIT_EXPIRY (R139). -/
def byeWaitExpiry (s : State) (n : Nat) : State :=
  match Tbl.get? n s.bmk.bye with
  | some _ => closeBye s (getF s F.BMK_SRC_STAT_PORT (srcO n)) n
  | none => s

def execByeWaitExpiry (n : Nat) (s : State) : Res := .next (byeWaitExpiry s n)

/-! ### The check of a VC0 frame (R129, R130, R154) -/

/-- What the checks find. -/
inductive Verdict where
  | fail (x : FrameInfo)
  | pass (source : Nat)
  | unknownGroup (source : Nat)
  deriving DecidableEq, Repr, Inhabited

/-- Steps 1 to 3 of R129 on VC `v`, with the reason and its INFO; `types` are the types defined for the VC and mode. Any frame on
VC2 fails step 2 in federation mode (R152). -/
def checkHeader (s : State) (p v : Nat) (types : List Nat) (resvOk : Bool) (f : Bytes) : Option (Nat × Nat) :=
  let len := fld f 2 2
  if rxFree s p v < creditsOf len ∧ (v ≠ 2 ∨ fedMode s p = false) then some (rsnCreditOverrun, creditsOf len)
  else if !types.contains (byteAt f 0) then some (rsnUnknownType, 0)
  else if !lenOk len || !resvOk then some (rsnMalHeader, len)
  else none

/-- The reserved fields of a trace header are zero, and GROUP and COUNT in a TRACE_STAMP (R126, step 3). -/
def traceResvOk (f : Bytes) : Bool :=
  byteAt f 1 == 0 && decide (fld f 4 2 < 1024) && fld f 14 2 == 0 && fld f 24 8 == 0 &&
  (byteAt f 0 != 3 || (fld f 6 2 == 0 && fld f 12 2 == 0))

/-- The byte offset of the first fault in the payload of a TRACE_DELTA (step 9): indices from the `i`-th on, `prev` the
one before; then the padding. -/
def deltaFault (f : Bytes) (w : Nat) : (n i : Nat) → (prev : Option Nat) → Option Nat
  | 0, i, _ =>
    (List.range (4 * ceilDiv i 4 - i)).findSome? (fun j =>
      if byteAt f (32 + 2 * (i + j)) ≠ 0 then some (32 + 2 * (i + j))
      else if byteAt f (33 + 2 * (i + j)) ≠ 0 then some (33 + 2 * (i + j)) else none)
  | n + 1, i, prev =>
    let x := fld f (32 + 2 * i) 2
    let up := match prev with
      | some q => decide (q < x)
      | none => true
    if x < w ∧ up = true then deltaFault f w n (i + 1) (some x) else some (32 + 2 * i)

/-- Whether a group number is a federation input of the active schema (R154, R162). -/
def fedInput (s : State) (g : Nat) : Bool := (activeGroup s g).any (·.fed)

/-- The checks of R129 on a VC0 frame. DESIGN CHOICE: a frame that fails step 1 or 2 counts as not parsed, so that its NAK carries
SOURCE 0xFFFF and SEQ 0, and one that fails step 3 shows its fields with EXPECTED 0; R145 names no steps (log entry 72). -/
def judge (s : State) (p : Nat) (f : Bytes) : Verdict :=
  let t := byteAt f 0
  let len := fld f 2 2
  let seq := fld f 8 4
  let stamp := fld f 16 8
  let fed := fedMode s p
  let raw : FrameInfo := { reason := 0, type := t, vc := 0 }
  match checkHeader s p 0 (if fed then [3, 4] else [1, 2, 3]) (traceResvOk f) f with
  | some (r, i) =>
    if r = rsnMalHeader then .fail { raw with reason := r, info := i, source := fld f 4 2, seq := seq, stamp := stamp }
    else .fail { raw with reason := r, info := i }
  | none =>
    let n := if fed then srcBase s p else fld f 4 2
    let held := srcHeld s n && getF s F.BMK_SRC_STAT_PORT (srcO n) == p && (!fed || fld f 4 2 == 0)
    let e := if held then expSeq s p n else 0
    let x : FrameInfo := { raw with source := fld f 4 2, seq := seq, expected := e, stamp := stamp }
    if !held || afterBye s n seq then .fail { x with reason := rsnUnknownSource }
    else if seq ≠ e then .fail { x with reason := rsnSeqOrder, info := stamp }
    else if stamp < srcHzn s n then .fail { x with reason := rsnStampBack, info := srcHzn s n }
    else if t = 4 then
      if !fedInput s (fld f 6 2) then .unknownGroup n
      else if len ≠ 112 then .fail { x with reason := rsnMalHeader, info := len } else .pass n
    else if t = 3 then (if len = 32 then .pass n else .fail { x with reason := rsnMalHeader, info := len })
    else match activeGroup s (fld f 6 2) with
      | none => .unknownGroup n
      | some g =>
        let c := fld f 12 2
        let want := if t = 1 then 32 + 8 * g.w else 32 + 8 * ceilDiv c 4 + 8 * c
        if len ≠ want ∨ (t = 2 ∧ (c = 0 ∨ g.w < c)) then .fail { x with reason := rsnMalHeader, info := len }
        else if t = 2 then
          match deltaFault f g.w c 0 none with
          | some o => .fail { x with reason := rsnMalPayload, info := o }
          | none => .pass n
        else .pass n

/-- The traverses that may have a frame's tokens (R497, judged at the check). -/
def deliverTo (s : State) (n : Nat) (f : Bytes) : List Nat :=
  ((streamTravs s (fld f 6 2)).filter (fun pv => mayDeliver s n pv.1 && (pv.2.input == 3) == (byteAt f 0 == 4))).map
    (fun pv => pv.2.num)

/-- A frame that fails is dropped: its credits return, a violation follows, and a source whose LAST_SEQ frame was dropped
closes (R129, R132, R139, R147). -/
def dropFrame (s : State) (p : Nat) (f : Bytes) (x : FrameInfo) : State :=
  let s := returnCredit s p 0 (fld f 2 2)
  let n := if fedMode s p then srcBase s p else fld f 4 2
  let s := match Tbl.get? n s.bmk.bye with
    | some last => if fld f 8 4 = last ∧ getF s F.BMK_SRC_STAT_PORT (srcO n) = p then closeBye s p n else s
    | none => s
  violation s p x

/-- What the check of VC0 frame `f` leaves once the frame is cut from its stream: a refused frame is dropped, the others wait
for acceptance (R130, R131, R139). -/
def applyVerdict (s : State) (p : Nat) (f : Bytes) : Verdict → State
  | .fail x => dropFrame s p f x
  | .pass n => modPort s p (fun q => { q with checked := q.checked ++ [⟨f, n, false, deliverTo s n f⟩] })
  | .unknownGroup n =>
    let x : FrameInfo := { reason := rsnUnknownGroup, source := fld f 4 2, seq := fld f 8 4, expected := expSeq s p n,
                           info := fld f 6 2, type := byteAt f 0, vc := 0 }
    let s := sendNak (satF s F.TRN_VIOL_STAT_UNKNOWN_GROUP (portO p) 1) p x
    modPort s p (fun q => { q with checked := q.checked ++ [⟨f, n, true, []⟩] })

/-- FRAME_CHECK (R129): the next complete VC0 frame. During a package halt frames wait (R150). -/
def frameCheck (s : State) (p : Nat) : State :=
  if link s p = lkUp ∧ halted s = false then
    match nextFrame s p 0 with
    | none => s
    | some f => applyVerdict (cutFrame s p 0 (fld f 2 2)) p f (judge s p f)
  else s

def execFrameCheck (p : Nat) (s : State) : Res := .next (frameCheck s p)

/-! ### HELLO and BYE (R134 to R140, R152) -/

/-- Whether local index `i` of a port can be granted (R135). A source ID above 1,023 does not exist. -/
def grantable (s : State) (p i : Nat) : Bool :=
  let st := srcState s (srcBase s p + i)
  decide (i < srcCount s p) && decide (srcBase s p + i < 1024) && (st == srcFree || st == srcClosed)

/-- The number with the bits of `l` set. -/
def maskOf (l : List Nat) : Nat := l.foldl (fun m i => m + 2 ^ i) 0

/-- A source is granted (R137): PENDING, its horizon afresh, SEQ from 0, its row copies zero (R261). -/
def grant (s : State) (p n : Nat) : State :=
  let s := setF s F.BMK_SRC_STAT_STATE (srcO n) srcPending
  let s := setF s F.BMK_SRC_STAT_PORT (srcO n) p
  let s := setF (setF s F.BMK_SRC_HZN_HORIZON (srcO n) 0) F.BMK_SRC_STAT_LATE_FRAMES (srcO n) 0
  let s := modBmk s (fun b => { b with expSeq := Tbl.put n 0 b.expSeq, bye := Tbl.del n b.bye,
                                       rows := b.rows.filter (fun e => e.1 / 65536 != n),
                                       srcView := b.srcView.filter (fun e => e.1 % 1024 != n) })
  modFab s (fun b => { b with fails := b.fails.filter (fun f => f.ctx != ctxSource n),
                              freed := b.freed.filter (fun f => f.2 != ctxSource n),
                              lostFrom := b.lostFrom.filter (fun f => f.2.1 != ctxSource n) })

/-- The HELLO_ACK frame (R136). -/
def helloAck (s : State) (p mask : Nat) : Bytes :=
  [0x21, 0] ++ leBytes 2 32 ++ leBytes 2 0x0100 ++ leBytes 1 (getF s F.TRN_PORT_CTL_MODE (portO p)) ++
  leBytes 1 (if fedMode s p then getF s F.TRN_PKG_PKG_NUM 0 else 0) ++ leBytes 8 mask ++ leBytes 2 (srcBase s p) ++
  leBytes 1 p ++ List.replicate 13 0

/-- A federation HELLO conflicts when it names the package's own number or one that an UP federation port already reaches
(R152). -/
def fedConflict (s : State) (p pkg : Nat) : Bool :=
  pkg == getF s F.TRN_PKG_PKG_NUM 0 ||
  (List.range s.part.ports).any (fun q => q != p && fedMode s q && link s q == lkUp &&
    isSet s F.TRN_STAT_FAR_PKG_VALID (portO q) && getF s F.TRN_STAT_FAR_PKG (portO q) == pkg)

/-- The refused indices are answered with one NAK, with the first refusal's reason (R135). -/
def refuse (s : State) (p : Nat) (no : List Nat) : State :=
  match no with
  | [] => s
  | i :: _ => sendNak s p { reason := if i < srcCount s p then rsnSourceBusy else rsnSourceRange,
                            info := maskOf no, type := 0x20, vc := 1 }

/-- A HELLO that has passed its checks is answered (R135, R137, R152). DESIGN CHOICE: of PKG_NUM the low four bits count; package
numbers are 0 to 15 and the spec says nothing of a larger byte (log entry 72). -/
def answerHello (s : State) (p : Nat) (f : Bytes) : State :=
  let s := setF s F.TRN_STAT_FAR_VERSION (portO p) (fld f 4 2)
  let nak := fun (s : State) (r i : Nat) => sendNak s p { reason := r, info := i, type := 0x20, vc := 1 }
  let mode := getF s F.TRN_PORT_CTL_MODE (portO p)
  let pkg := byteAt f 7 % 16
  if byteAt f 5 ≠ 1 then nak s rsnVersion 0x0100
  else if byteAt f 6 ≠ mode then nak s rsnModeMismatch mode
  else if mode = 1 ∧ fedConflict s p pkg = true then nak s rsnFedConflict pkg
  else
    let ask := (List.range 64).filter (fun i => bits (fld f 16 8) i 1 == 1)
    let yes := ask.filter (grantable s p)
    let no := ask.filter (fun i => !grantable s p i)
    let s := yes.foldl (fun s i => grant s p (srcBase s p + i)) s
    let s := if yes.isEmpty then s else setF (raise s F.TRN_EVENT_HELLO (portO p)) F.TRN_PARTNER_PARTNER_ID (portO p) (fld f 8 8)
    let s := if mode = 1 ∧ yes.isEmpty = false then
        setF (setF s F.TRN_STAT_FAR_PKG (portO p) pkg) F.TRN_STAT_FAR_PKG_VALID (portO p) 1 else s
    queueVc1 (refuse s p no) p false (helloAck s p (maskOf yes))

/-- A BYE that has passed its checks (R139). -/
def answerBye (s : State) (p : Nat) (f : Bytes) : State :=
  let last := fld f 8 4
  if fld f 4 2 = 0xFFFF then (portSources s p).foldl (fun s n => closeBye s p n) s
  else
    let n := if fedMode s p then srcBase s p else fld f 4 2
    let d := subMod 32 (last + 1) (accSeq s n)
    if d = 0 ∨ 2 ^ 31 ≤ d then closeBye s p n
    else modBmk s (fun b => { b with bye := Tbl.put n last b.bye })

/-- Whether the port holds the source that a BYE names (step 4). -/
def byeKnown (s : State) (p : Nat) (f : Bytes) : Bool :=
  let n := if fedMode s p then srcBase s p else fld f 4 2
  fld f 4 2 == 0xFFFF || (srcHeld s n && decide (n < 1024) && getF s F.BMK_SRC_STAT_PORT (srcO n) == p &&
    (!fedMode s p || fld f 4 2 == 0))

/-- The reserved fields of a VC1 frame are zero (R134, R138). -/
def vc1ResvOk (f : Bytes) : Bool :=
  byteAt f 1 == 0 &&
  (if byteAt f 0 = 0x20 then allZero (sub f 24 8) else if byteAt f 0 = 0x22 then fld f 6 2 == 0 && allZero (sub f 12 20) else true)

/-- The TYPEs that VC1 takes: HELLO and BYE, and in federation mode the answers that the far package sends as a device, which have
no further effect (R125, R152; DEDUCED, log entry 75). -/
def vc1Types (s : State) (p : Nat) : List Nat := if fedMode s p then [0x20, 0x22, 0x21, 0x23, 0x24, 0x25] else [0x20, 0x22]

/-- The next frame of VC1 or VC2 passes steps 1 to 3 of R129 and is handled by type; during a package halt it is consumed
and answered with HALT (R133, R150). -/
def takeVc1 (s : State) (p v : Nat) (f : Bytes) : State :=
  let len := fld f 2 2
  let bad := checkHeader s p v (if v = 1 then vc1Types s p else []) (vc1ResvOk f) f
  let s := returnCredit (cutFrame s p v len) p v len
  if halted s then queueVc1 s p false (haltFrame s)
  else
    match bad with
    | some (r, i) =>
      let src := if r = rsnMalHeader ∧ byteAt f 0 = 0x22 then fld f 4 2 else 0xFFFF
      violation s p { reason := r, info := i, type := byteAt f 0, vc := v, source := src }
    | none =>
      if byteAt f 0 = 0x20 then answerHello s p f
      else if byteAt f 0 ≠ 0x22 then s
      else if byeKnown s p f then answerBye s p f
      else violation s p { reason := rsnUnknownSource, type := 0x22, vc := 1, source := fld f 4 2 }

/-- The next frame of a VC is taken when its TYPE passes `ok`. -/
def takeIf (s : State) (p v : Nat) (ok : Nat → Bool) : State :=
  if link s p = lkUp then
    match nextFrame s p v with
    | some f => if ok (byteAt f 0) then takeVc1 s p v f else s
    | none => s
  else s

/-- HELLO (R135). -/
def execHello (p : Nat) (s : State) : Res := .next (takeIf s p 1 (· == 0x20))

/-- BYE (R139). -/
def execBye (p : Nat) (s : State) : Res := .next (takeIf s p 1 (· == 0x22))

/-- VC1_FRAME_CHECK (R133): a frame of VC1 or VC2 other than HELLO and BYE. -/
def execVc1FrameCheck (p v : Nat) (s : State) : Res :=
  .next (if v = 1 then takeIf s p 1 (fun t => t != 0x20 && t != 0x22) else takeIf s p 2 (fun _ => true))

/-! ### Federation (R152, R155) -/

/-- The package's own HELLO to a federation peer (R134, R152), with a PARTNER_ID. -/
def helloFrame (s : State) (id : Nat) : Bytes :=
  [0x20, 0] ++ leBytes 2 32 ++ leBytes 2 0x0100 ++ [1] ++ leBytes 1 (getF s F.TRN_PKG_PKG_NUM 0) ++ leBytes 8 id ++ leBytes 8 1 ++
  List.replicate 8 0

/-- The HELLO of a federation port leaves when credit allows; its PARTNER_ID, which no rule gives a package, is a free value (log
entry 75). -/
def sendHello (s : State) (p : Nat) : State :=
  let x := fresh s 64
  queueVc1 x.2 p false (helloFrame s x.1)

/-- INIT_COMPLETE (R119, R120): INIT to UP once three INIT LC flits have come in a row; a federation port then sends its HELLO
(R152). -/
def initComplete (s : State) (p : Nat) : State :=
  if link s p = lkInit ∧ 3 ≤ (portOf s p).initRx then
    let s := raise (setLink s p lkUp) F.TRN_EVENT_LINK_UP (portO p)
    if fedMode s p then sendHello s p else s
  else s

def execInitComplete (p : Nat) (s : State) : Res := .next (initComplete s p)

/-- FED_STAMP_SEND (R155): a TRACE_STAMP with G, while G has risen since the last one. It is a VC0 frame of the single
source 0 at the far side. -/
def fedStampSend (s : State) (p : Nat) : State :=
  let g := hznG s
  let due := match (portOf s p).lastFed with
    | none => true
    | some x => decide (x < g)
  if fedMode s p && link s p == lkUp && due && maySend s p 0 32 then
    let seq := (portOf s p).fedSeq
    let fr : Bytes := [3, 0] ++ leBytes 2 32 ++ leBytes 4 0 ++ leBytes 4 seq ++ leBytes 4 0 ++ leBytes 8 g ++ List.replicate 8 0
    let s := modPort s p (fun q => { q with lastFed := some g, fedSeq := (seq + 1) % 2 ^ 32 })
    sendFrame s p 0 fr
  else s

def execFedStampSend (p : Nat) (s : State) : Res := .next (fedStampSend s p)

end Sys2Proof.Machine
end

