-- ==== Sys2Proof/Machine/Accept.lean ====
section
/-! DEFINITION. Acceptance of a checked frame: credit, sequence, horizon, the row copies and the column tokens of the
splitter (03_transit.md R131; 02_design_time.md R67 to R78; 06_operators.md R261; 07_scheduler.md R315). -/

namespace Sys2Proof.Machine

/-- A column's value in a word, extended as the splitter and the scan engine do (R164, R262). -/
def Column.value (c : Column) (w : W64) : W64 :=
  opBfx (c.type == 1) c.lsb (if c.bits = 0 then 64 else c.bits) w

/-- The columns that a head node lists, with their input cells (R263): the cell, and the COLUMN record of group `g`. -/
def headColumns (g : Group) (n : Node) : List (Nat × Column) :=
  (List.range (byteAt n.param 3)).filterMap (fun k =>
    (g.cols.find? (fun c => c.col == fld n.param (4 + 2 * k) 2)).map (fun c => (n.first + k, c)))

/-- The input cells of stamp tokens of a traverse (R263). -/
def stampCells (v : Trav) : List Nat :=
  (v.nodes.filter (fun n => n.isHead && byteAt n.param 2 % 2 == 1)).map (fun n => n.first + byteAt n.param 3)

/-- A source's row of a group after a frame (R127, R261 step 1): `w` words, zero where the copy has none. -/
def rowAfter (f : Bytes) (w : Nat) (old : List W64) : List W64 :=
  let row := (List.range w).map (fun i => old.getD i 0)
  if byteAt f 0 = 1 then (leWords (sub f 32 (8 * w)))
  else
    let n := fld f 12 2
    let vals := 32 + 8 * ceilDiv n 4
    (List.range n).foldl (fun (r : List W64) i =>
      r.set (fld f (32 + 2 * i) 2) (BitVec.ofNat 64 (fld f (vals + 8 * i) 8))) row

/-- The traverses that take tokens of a frame: those judged at its check that are still active (R497). -/
def frameTravs (s : State) (c : CFrame) : List (Plat × Trav) :=
  (streamTravs s (fld c.bytes 6 2)).filter (fun pv => c.deliver.contains pv.2.num)

/-- A data token of the splitter (R203): one row, or the lanes of a FED_TOKEN. -/
def splitToken (s : State) (c : CFrame) (t : Nat) (l : Lanes) : Token :=
  ⟨t, 0, .data, ctxSource c.source, fld c.bytes 8 4 % 2 ^ 24, l, wall s % 2 ^ 32⟩

/-- The tokens that a frame makes, with their input cells (R154, R261), given its row. DESIGN CHOICE: the one token of a FED_TOKEN goes
to the first input cell of each traverse that reads its group; the spec names no cell (log entry 72). -/
def frameTokens (s : State) (c : CFrame) (g : Group) (row : List W64) : List (Nat × Token) :=
  let ty := byteAt c.bytes 0
  if c.asStamp || ty == 3 then []
  else if ty = 4 then
    (frameTravs s c).flatMap (fun pv => ((inputCells pv.2).take 1).map (fun cell =>
      (cell, splitToken s c pv.2.num (Lanes.ofWords (leWords (sub c.bytes 32 64)) (byteAt c.bytes 96)))))
  else
    (frameTravs s c).flatMap (fun pv =>
      (pv.2.nodes.filter Node.isHead).flatMap (fun n => (headColumns g n).map (fun x =>
        (x.1, splitToken s c pv.2.num (lane0 (some (x.2.value (row.getD x.2.word 0))))))) ++
      (stampCells pv.2).map (fun cell => (cell, splitToken s c pv.2.num (lane0 (num (fld c.bytes 16 8))))))

/-- The source state and counters after an accepted frame with stamp `h` (R69, R70, R73, R75, R78). -/
def sourceAccept (s : State) (n h : Nat) : State :=
  let st := srcState s n
  let s := if h < hznG s then raise (satF s F.BMK_SRC_STAT_LATE_FRAMES (srcO n) 1) F.BMK_EVENT_LATE 0 else s
  let s := if st = srcStalled then raise s F.BMK_EVENT_RESUMED 0 else s
  let s := if st = srcPending ∨ st = srcStalled then setF s F.BMK_SRC_STAT_STATE (srcO n) srcLive else s
  let s := setF s F.BMK_SRC_STAT_LAST_ACCEPT (srcO n) (wall s)
  setF s F.BMK_SRC_HZN_HORIZON (srcO n) (max (srcHzn s n) h)

/-- A source's horizon has risen: its value goes to the other dies, the stakes of the ingest die on it fire, and G is
recomputed (R76, R82, R88). Where the source closes in the same fc (`closes`), its stakes fire with the detach, once and with
the lost flag (R101). -/
def horizonRisen (s : State) (d n acc : Nat) (closes : Bool) : State :=
  let h := srcHzn s n
  let s := sendSource s d ((diesUp s).filter (· ≠ d)) ⟨some n, h, acc⟩
  recomputeG (if closes then s else fireSource s d n h) acc

/-- The row copies and the tokens of an accepted data frame, with its capture (R261, R315, R316). -/
def splitFrame (s : State) (p : Nat) (c : CFrame) (g : Group) (row : List W64) : State :=
  let toks := frameTokens s c g row
  let s := if byteAt c.bytes 0 < 3 then
      captureFrame (modBmk s (fun b => { b with rows := Tbl.put (c.source * 65536 + g.id) row b.rows }))
        p c.source g.id (fld c.bytes 16 8) row
    else s
  toks.foldl (fun s (x : Nat × Token) => pushHead s (splitterSrc p) [x.1] x.2) s

/-- The group of a frame that carries data, and the row after it. -/
def frameRow (s : State) (c : CFrame) : Option (Group × List W64) :=
  if c.asStamp || byteAt c.bytes 0 == 3 then none
  else (activeGroup s (fld c.bytes 6 2)).map (fun g =>
    (g, rowAfter c.bytes g.w (Tbl.getD s.bmk.rows (c.source * 65536 + g.id) [])))

/-- Entries of the splitter's output buffer that a frame's tokens take (R315). -/
def frameNeed (s : State) (c : CFrame) : Nat :=
  match frameRow s c with
  | some (g, row) => ((frameTokens s c g row).flatMap (fun x => placements s x.1)).length
  | none => 0

/-- PACE of a traverse (R330); 0 for one without reservations. -/
def paceFc (s : State) (t : Nat) : Nat := ((s.plats.resv.find? (fun r => r.trav == t)).map (·.pace)).getD 0

/-- Whether a head with key `k` may take input of traverse `t` that it spaces by `gap` fc (R330). -/
def paceOpen (s : State) (k t gap : Nat) : Bool := (Tbl.get? (k * 4096 + t) s.fab.paceAt).all (fun f => decide (f + gap ≤ s.now))

/-- A head has taken input of a traverse. -/
def paceMark (s : State) (k t : Nat) : State := modFab s (fun b => { b with paceAt := Tbl.put (k * 4096 + t) s.now b.paceAt })

/-- The traverses for which a frame carries tokens. -/
def tokenTravs (s : State) (c : CFrame) : List Nat :=
  match frameRow s c with
  | some (g, row) => ((frameTokens s c g row).map (fun x => x.2.trav)).eraseDups
  | none => []

/-- Whether PACE lets a port's splitter take a frame now: for each traverse with tokens in it, PACE × (Transit ports of the part) fc
after the last (R330). -/
def framePaced (s : State) (p : Nat) (c : CFrame) : Bool :=
  (tokenTravs s c).all (fun t => paceOpen s p t (paceFc s t * s.part.ports))

/-- A frame is accepted (R115, R131). -/
def acceptFrame (s : State) (p : Nat) (c : CFrame) : State :=
  let n := c.source
  let acc := wall s % 2 ^ 32
  let s := modPort s p (fun q => { q with checked := q.checked.drop 1 })
  let s := returnCredit s p 0 c.bytes.length
  let s := modBmk s (fun b => { b with expSeq := Tbl.put n ((Tbl.getD b.expSeq n 0 + 1) % 2 ^ 32) b.expSeq })
  let s := (tokenTravs s c).foldl (fun s t => paceMark s p t) s
  let s := match frameRow s c with
    | some (g, row) => splitFrame s p c g row
    | none => s
  let s := horizonRisen (sourceAccept s n (fld c.bytes 16 8)) (dieOfPort p) n acc (byeDue s n)
  byeReached s p n

/-- FRAME_ACCEPT (R131): the port's first checked frame is accepted when the splitter's output buffer of 256 entries takes
every token of it (R315) and PACE lets the splitter take it (R330). During a package halt frames wait (R150). -/
def frameAccept (s : State) (p : Nat) : State :=
  match (portOf s p).checked with
  | c :: _ =>
    if halted s || decide (256 < (outOf s (splitterSrc p)).length + frameNeed s c) || !framePaced s p c then s else acceptFrame s p c
  | [] => s

def execFrameAccept (p : Nat) (s : State) : Res := .next (frameAccept s p)

end Sys2Proof.Machine
end

