-- ==== Sys2Proof/Machine/Cache.lean ====
section
/-! DEFINITION. The spill cache's lookup of HRQ requests, its fills, its manager commands, parity and drain (R397 to R409).
CACHE_LOOKUP is in Machine/Isolate.lean, since a parity error may take the die out of service. -/

namespace Sys2Proof.Machine

/-! ### Lookup of an HRQ (R397 to R401) -/

/-- The class of a cell's requests (R399). -/
def cellClass (g : Nat) : Nat := g % 4096 / 64 / 8

/-- The owner of a traverse. -/
def travOwner (s : State) (t : Nat) : Nat := ((activeTrav s t).map (fun pv => pv.1.owner)).getD fnNone

/-- The request at the front of a cache's queue has been taken. -/
def popReq (s : State) (d : Nat) : State := modSpc s d (fun c => { c with reqs := c.reqs.drop 1 })

/-- An HRQ READ: a hit is answered; a miss makes a fill when the read queue and its victim's write queue have room (R383). -/
def lookupRead (s : State) (d : Nat) (r : MemReq) : State :=
  let a := r.addr % 2 ^ 36
  let ln := a / 128
  let need := sectorsOf (a % 128) (a % 128 + 64)
  let cls := cellClass r.cell
  let ways := fnWays s (travOwner s r.trav)
  let miss := fun (s : State) (_ : Unit) =>
    if lineState s d ln = 3 then answerFenced (popReq s d) r
    else if lineState s d ln ≠ 0 then answerFrozen (popReq s d) r
    else if 48 ≤ (hpc s d (pcOf s d a)).rq.length ∨
        ((lineAt s d ln).isSome || victimRoom s d ln (allowedWays s d ln cls ways)) = false then s
    else
      let s := if spcState s d = 0 then s else countMiss s d cls
      let s := startFill (popReq s d) d ln need cls ways true (some r) none
      if spcState s d = 0 then s else streamAccess s d r.cell cls ways ln true
  match lineAt s d ln with
  | some (w, l) =>
    if l.valid &&& need = need ∧ spcState s d ≠ 0 then
      let s := hitLine (countHit (popReq s d) d cls) d ln w l
      answerReq (streamAccess s d r.cell cls ways ln false) r (hrqLanes r l.data) false
    else miss s ()
  | none => miss s ()

/-- An HRQ WRITE of 64 bytes; null lanes of B carry zero (R200). It waits while a queue that it needs is full (R383). -/
def lookupWrite (s : State) (d : Nat) (r : MemReq) : State :=
  let a := r.addr % 2 ^ 36
  if !lineRoom s d (a / 128) (cellClass r.cell) (fnWays s (travOwner s r.trav)) then s
  else
  let x := writeLine (popReq s d) d (a / 128) (a % 128) (wordBytes (r.data.toList.map laneVal)) (cellClass r.cell)
    (fnWays s (travOwner s r.trav))
  if x.2 = 0 then answerReq x.1 r (lane0 (num r.off)) false
  else if x.2 = 3 then answerFenced x.1 r else answerFrozen x.1 r

/-- The request at the front of a cache's queue is looked up. -/
def lookup (s : State) (d : Nat) : State :=
  match (spcOf s d).reqs with
  | r :: _ => if r.kind = .hrqWrite then lookupWrite s d r else lookupRead s d r
  | [] => s

/-! ### Parity (R406) -/

/-- SPC_ERR names the set and way of a parity error. -/
def parityAt (s : State) (d k : Nat) : State := setF (setF s F.SPC_ERR_SET (dieO d) (k / 16)) F.SPC_ERR_WAY (dieO d) (k % 16)

/-- A clean line fails parity: invalidated and counted. -/
def parityClean (s : State) (d k : Nat) : State :=
  let first := getF s F.SPC_ERR_PARITY_CLEAN (dieO d) == 0
  let s := modSpc s d (fun c => { c with lines := Tbl.del k c.lines })
  let s := raise (satF (parityAt s d k) F.SPC_ERR_PARITY_CLEAN (dieO d) 1) F.SPC_EVENT_PARITY_CLEAN (dieO d)
  if first then logC s d rsnCorrected fnNone (k / 16) (k % 16) else s

/-- A lookup finds a parity error: `parity` 1 + w for the data of way w, 17 + w for its tag entry. The second component tells a
FATAL error, whose request is answered POISONED. -/
def lookupParity (s : State) (d parity : Nat) : State × Bool :=
  match (spcOf s d).reqs with
  | r :: _ =>
    if parity = 0 ∨ 32 < parity then (lookup s d, false)
    else
      let k := lineKey (r.addr % 2 ^ 36 / 128) ((parity - 1) % 16)
      let dirty := ((Tbl.get? k (spcOf s d).lines).map (fun l => l.dirty != 0)).getD false
      if parity > 16 ∨ dirty = true then
        let s := raise (parityAt s d k) F.SPC_EVENT_PARITY_FATAL (dieO d)
        (answerReq (popReq s d) r Lanes.null true, true)
      else (lookup (parityClean s d k) d, false)
  | [] => (s, false)

/-! ### Fills (R401) -/

/-- A sector of a fill reaches the cache: installed in its line unless a write has filled it meanwhile. -/
def installSector (s : State) (f : Fill) (i : Nat) : State :=
  match f.way, lineAt s f.die f.line with
  | some w, some (v, l) =>
    if v = w ∧ bits l.valid i 1 = 0 then
      putLine s f.die f.line w { l with valid := l.valid + 2 ^ i, data := mergeSectors l.data (ctlLine s f.die f.line) (2 ^ i) }
    else s
  | _, _ => s

/-- FILL_SECTOR_ARRIVE (R401): the next sector of a fill whose data have returned; an HRQ's reply leaves once both of its
sectors are there, and a read of HBM_IND_DATA is answered with its sector. A fill stays until the requester that waits for it
has taken its data. -/
def fillSectorArrive (s : State) (d id : Nat) : State :=
  match s.hbm.fills.find? (fun f => f.id == id && f.die == d && f.back) with
  | some f =>
    match f.order with
    | i :: rest =>
      let s := installSector s f i
      let due := f.req.filter (fun r => (hrqSectors r).all (fun x => !rest.contains x))
      let ind := (f.who.bind indDie).filter (fun e => decide (getF s F.HBM_IND_ADDR_ADDR (dieO e) % 128 / 32 = i))
      let f' := { f with order := rest, req := if due.isSome then none else f.req, who := if ind.isSome then none else f.who }
      let s := { s with hbm := { s.hbm with fills := if rest.isEmpty && f'.who.isNone then s.hbm.fills.filter (fun g => g.id != id)
                                                      else s.hbm.fills.map (fun g => if g.id = id then f' else g) } }
      match due, ind with
      | some r, _ => answerReq s r (hrqLanes r f.data) false
      | none, some e => indAnswer s e (some (leNat (sub f.data (getF s F.HBM_IND_ADDR_ADDR (dieO e) / 8 * 8 % 128) 8)))
      | none, none => s
    | [] => s
  | none => s

def execFillSectorArrive (d id : Nat) (s : State) : Res := .next (fillSectorArrive s d id)

/-! ### Commands of SPC_CMD (R403 to R408, R412) -/

/-- A command completes: its status, reason and lines, and the event. -/
def cmdDone (s : State) (d status reason lines : Nat) : State :=
  let o := dieO d
  let s := setF (setF (setF s F.SPC_CMD_STAT_STATUS o status) F.SPC_CMD_STAT_REASON o reason) F.SPC_CMD_STAT_LINES o lines
  raise s F.SPC_EVENT_CMD_DONE o

/-- Bits set in a mask of ways. -/
def wayCount (m : Nat) : Nat := ((List.range 16).filter (fun w => bits m w 1 == 1)).length

/-- Whether a mask names a way that the Gauntlet holds (R403). -/
def gntWay (s : State) (d m : Nat) : Bool := getF s F.SPC_STAT_GNT_WAYS (dieO d) &&& m != 0

/-- Whether the range of a command breaks its limits (R405, R407). -/
def badRange (s : State) (d : Nat) (c : SpcCmd) : Bool :=
  c.addr % 128 != 0 || c.len % 128 != 0 || decide (stackC s d / 128 * 128 < c.addr + c.len) ||
  (c.op == 3 && (c.len == 0 || decide (2 ^ 21 < c.len)))

/-- A command is taken: LOCK and UNLOCK complete at once, a range command runs (BUSY) until SPC_CMD_DONE. The second component
tells that it runs. -/
def startCmd (s : State) (d : Nat) (c : SpcCmd) : State × Bool :=
  let o := dieO d
  let locked := getF s F.SPC_STAT_LOCKED o
  if c.op = 1 then
    if gntWay s d c.ways then (cmdDone s d stRejected 0x0B04 0, false)
    else if 8 < wayCount (locked ||| c.ways) then (cmdDone s d stRejected 0x0B02 0, false)
    else (cmdDone (setF s F.SPC_STAT_LOCKED o (locked ||| c.ways)) d stOk 0 0, false)
  else if c.op = 2 then
    if gntWay s d c.ways then (cmdDone s d stRejected 0x0B04 0, false)
    else (cmdDone (setF s F.SPC_STAT_LOCKED o (locked &&& (0xFFFF - c.ways))) d stOk 0 0, false)
  else if c.op = 3 ∧ gntWay s d (2 ^ c.way) = true then (cmdDone s d stRejected 0x0B04 0, false)
  else if c.op = 3 ∧ bits locked c.way 1 = 0 then (cmdDone s d stRejected 0x0B03 0, false)
  else if badRange s d c then (cmdDone s d stMalformed 0x0B01 0, false)
  else (setF s F.SPC_CMD_STAT_BUSY o 1, true)

/-- The waiting commands run until one is busy. -/
def runCmds (s : State) (d : Nat) : State :=
  ((spcOf s d).cmds.foldl (fun (x : State × Bool) c =>
    if x.2 then x
    else
      let y := startCmd x.1 d c
      if y.2 then y else (modSpc y.1 d (fun z => { z with cmds := z.cmds.drop 1 }), false)) (s, false)).1

/-- A command is written to SPC_CMD: rejected while the cache is not ENABLED (R412), waiting while one runs (R408). -/
def spcCommand (s : State) (d : Nat) (op way ways : Nat) : State :=
  let c : SpcCmd := ⟨op, way, ways, getF s F.SPC_CMD_ADDR_ADDR (dieO d), getF s F.SPC_CMD_LEN_LEN (dieO d), 0, 0⟩
  if op = 0 ∨ 5 < op then s
  else if spcState s d ≠ 1 then cmdDone s d stRejected 0x0B05 0
  else
    let busy := !(spcOf s d).cmds.isEmpty
    let s := modSpc s d (fun z => { z with cmds := z.cmds ++ [c] })
    if busy then s else runCmds s d

/-- LOCK (R403). A tenant has no path to SPC_CMD. -/
def execLock (fn d ways : Nat) (s : State) : Res := .next (if isPf fn then spcCommand s d 1 0 (ways % 65536) else s)

/-- UNLOCK (R404). -/
def execUnlock (fn d ways : Nat) (s : State) : Res := .next (if isPf fn then spcCommand s d 2 0 (ways % 65536) else s)

/-- PRELOAD (R405), over the range of SPC_CMD_ADDR and SPC_CMD_LEN. -/
def execPreload (fn d way : Nat) (s : State) : Res := .next (if isPf fn then spcCommand s d 3 (way % 16) 0 else s)

/-- INVALIDATE (R407). -/
def execInvalidate (fn d way : Nat) (s : State) : Res := .next (if isPf fn then spcCommand s d 4 (way % 16) 0 else s)

/-- CLEAN_INVALIDATE (R407). -/
def execCleanInvalidate (fn d way : Nat) (s : State) : Res := .next (if isPf fn then spcCommand s d 5 (way % 16) 0 else s)

/-- The requester number of PRELOAD on die `d`. -/
def preloadWho (d : Nat) : Nat := 0xA00000 + d

/-- Whether way `w` of a line's set can be given up now: its line is not held (R391) and its writeback has room (R383). -/
def wayFree (s : State) (d ln w : Nat) : Bool :=
  match Tbl.get? (lineKey ln w) (spcOf s d).lines with
  | some l => l.dirty == 0 || (!heldLine s d (keyLine (lineKey ln w) l.tag) l && canPush s d (keyLine (lineKey ln w) l.tag))
  | none => true

/-- Way `w` of a line's set is given up, its dirty sectors written back. -/
def freeWay (s : State) (d ln w : Nat) : State :=
  match Tbl.get? (lineKey ln w) (spcOf s d).lines with
  | some l => writeBack s d (keyLine (lineKey ln w) l.tag) l
  | none => s

/-- The missing sectors of a line in way `w` are fetched by a bulk read (R405). -/
def preloadFetch (s : State) (d ln : Nat) (l : CLine) : State :=
  if l.valid % 16 = 15 then s else startFill s d ln 15 0 0 false none (some (preloadWho d))

/-- A line is brought into way `w` by a PRELOAD (R405): its copy in another way moves with its dirty bits, missing sectors are
fetched. The second component counts it; `none` when it must wait. A line of a pseudo-channel that makes no access is not
loaded. -/
def preloadLine (s : State) (d ln w : Nat) : Option (State × Nat) :=
  if 48 ≤ (hpc s d (pcOf s d (ln * 128))).rq.length then none
  else
    match lineAt s d ln with
    | some (v, l) =>
      if v = w then some (if lineState s d ln = 0 then preloadFetch s d ln l else s, if l.valid % 16 = 15 then 0 else 1)
      else if wayFree s d ln w then
        let s := putLine (freeWay (dropLine s d ln v) d ln w) d ln w l
        some (if lineState s d ln = 0 then preloadFetch s d ln l else s, 1)
      else none
    | none =>
      if lineState s d ln ≠ 0 ∨ heldBack s d (ln * 128) = true then some (s, 0)
      else if wayFree s d ln w then
        let l : CLine := ⟨ln / 16384, 0, 0, List.replicate 128 0, false⟩
        some (preloadFetch (putLine (freeWay s d ln w) d ln w l) d ln l, 1)
      else none

/-- A running PRELOAD treats its next lines, as far as none must wait. -/
def preloadRun (s : State) (d : Nat) (c : SpcCmd) : State × SpcCmd :=
  (List.range (c.len / 128 - c.next)).foldl (fun (x : State × SpcCmd) i =>
    if x.2.next = c.next + i then
      match preloadLine x.1 d (c.addr / 128 + c.next + i) c.way with
      | some y => (y.1, { x.2 with next := x.2.next + 1, done := x.2.done + y.2 })
      | none => x
    else x) (s, c)

/-- The fills of PRELOAD that have come, or failed, are done with. -/
def preloadTake (s : State) (d : Nat) : State :=
  { s with hbm := { s.hbm with fills := s.hbm.fills.filter (fun f => !(f.who == some (preloadWho d) && f.has 15)) } }

/-- The lines of a range operation. -/
def rangeLines (s : State) (d : Nat) (c : SpcCmd) : Tbl CLine :=
  (spcOf s d).lines.filter (fun e => decide (c.addr / 128 ≤ keyLine e.1 e.2.tag ∧ keyLine e.1 e.2.tag < (c.addr + c.len) / 128))

/-- A line is discarded by a range operation, written back first by CLEAN_INVALIDATE (R407). -/
def discardLine (s : State) (d : Nat) (clean : Bool) (e : Nat × CLine) : State :=
  modSpc (if clean then writeBack s d (keyLine e.1 e.2.tag) e.2 else s) d (fun c => { c with lines := Tbl.del e.1 c.lines })

/-- A running range command goes on: the third component tells that it has treated its last line, and the second is the command
with the lines it treated. A CLEAN_INVALIDATE waits for a writeback that R391 holds. -/
def rangeRun (s : State) (d : Nat) (c : SpcCmd) : State × SpcCmd × Bool :=
  if c.op = 3 then
    let x := preloadRun (preloadTake s d) d c
    (x.1, x.2, x.2.next == c.len / 128 && !x.1.hbm.fills.any (fun f => f.who == some (preloadWho d)))
  else if c.op = 5 ∧ (rangeLines s d c).any (fun e => heldLine s d (keyLine e.1 e.2.tag) e.2) = true then (s, c, false)
  else
    ((rangeLines s d c).foldl (fun s e => discardLine s d (c.op == 5) e) s,
      { c with done := c.done + (rangeLines s d c).length }, true)

/-- A drain that waited for the running command begins (R409, R410). -/
def drainDue (s : State) (d : Nat) : State :=
  if spcState s d = 1 ∧ isSet s F.SPC_CTL_ENABLE (dieO d) = false ∧ (spcOf s d).cmds.isEmpty = true then
    setF s F.SPC_STAT_STATE (dieO d) 2
  else s

/-- SPC_CMD_DONE (R408): the running range command has treated its last line and the next waiting commands start; a PRELOAD whose
bulk reads are still outstanding, or a command that R391 holds, goes on and stays busy (log entry 80). -/
def spcCmdDone (s : State) (d : Nat) : State :=
  match (spcOf s d).cmds with
  | c :: t =>
    let x := rangeRun s d c
    if x.2.2 then
      let s := modSpc x.1 d (fun z => { z with cmds := t })
      let s := cmdDone (setF s F.SPC_CMD_STAT_BUSY (dieO d) 0) d stOk 0 x.2.1.done
      drainDue (runCmds s d) d
    else modSpc x.1 d (fun z => { z with cmds := x.2.1 :: t })
  | [] => s

def execSpcCmdDone (d : Nat) (s : State) : Res := .next (spcCmdDone s d)

/-! ### Enabling and disabling (R409) -/

/-- A write of 0 to SPC_CTL.ENABLE by `fn`. -/
def spcDisable (s : State) (fn d : Nat) : State :=
  if spcState s d ≠ 1 then s
  else if d = 0 ∧ s.plats.resv.isEmpty = false then logWWR s fn (F.SPC_CTL_ENABLE.base + dieO d)
  else drainDue (setF s F.SPC_CTL_ENABLE (dieO d) 0) d

/-- A write of 1 to SPC_CTL.ENABLE by `fn`. -/
def spcEnable (s : State) (fn d : Nat) : State :=
  if spcState s d = 0 then
    let s := modSpc s d (fun c => { c with lines := [], plru := [] })
    setF (setF (setF s F.SPC_CTL_ENABLE (dieO d) 1) F.SPC_STAT_STATE (dieO d) 1) F.SPC_STAT_LOCKED (dieO d) 0
  else if spcState s d = 2 then logIgn s fn (F.SPC_CTL_ENABLE.base + dieO d)
  else s

/-- CACHE_DRAIN (R409). -/
def execCacheDrain (fn d : Nat) (s : State) : Res := .next (spcDisable s fn d)

/-- Every dirty line is written back and every line and lock is gone. -/
def emptyCache (s : State) (d : Nat) : State :=
  let s := (spcOf s d).lines.foldl (fun s e => writeBack s d (keyLine e.1 e.2.tag) e.2) s
  setF (modSpc s d (fun c => { c with lines := [] })) F.SPC_STAT_LOCKED (dieO d) 0

/-- CACHE_DRAINED (R409): the drain's last writeback has entered its queue; a writeback that R391 holds holds the drain. -/
def cacheDrained (s : State) (d : Nat) : State :=
  if spcState s d = 2 ∧ (spcOf s d).lines.any (fun e => heldLine s d (keyLine e.1 e.2.tag) e.2) = false then
    raise (setF (emptyCache s d) F.SPC_STAT_STATE (dieO d) 0) F.SPC_EVENT_DRAINED (dieO d)
  else s

def execCacheDrained (d : Nat) (s : State) : Res := .next (cacheDrained s d)

/-- CACHE_ENABLE (R409). -/
def execCacheEnable (fn d : Nat) (s : State) : Res := .next (spcEnable s fn d)

/-- The Gauntlet locks way 15 of D0 while any traverse is admitted (R403). -/
def gntWayFollow (s : State) : State :=
  let held := bits (getF s F.SPC_STAT_GNT_WAYS 0) 15 1 == 1
  let l := getF s F.SPC_STAT_LOCKED 0
  if s.plats.resv.isEmpty then
    if held then setF (setF s F.SPC_STAT_GNT_WAYS 0 0) F.SPC_STAT_LOCKED 0 (l &&& 0x7FFF) else s
  else if held then s else setF (setF s F.SPC_STAT_GNT_WAYS 0 0x8000) F.SPC_STAT_LOCKED 0 (l ||| 0x8000)

end Sys2Proof.Machine
end

