-- ==== Sys2Proof/Machine/Heads.lean ====
section
/-! DEFINITION. The scan engines: column tokens of an invocation and its END (06_operators.md R262; 07_scheduler.md R303, R315). -/

namespace Sys2Proof.Machine

/-- The producer number of the scan engine of die `d` (R300). -/
def scanSrc (d : Nat) : Nat := 0x40000 + d

/-- The table that a head node names, among those its plat's own SCHEMA declares (R265). -/
def Plat.table (p : Plat) (n : Node) : Option Group := p.schema.find? (fun g => g.isTable && g.id == fld n.param 0 2)

/-- The head columns of a ring traverse, in order: node, input cell, COLUMN record (R263). -/
def scanColumns (p : Plat) (v : Trav) : List (Node × Nat × Column) :=
  (v.nodes.filter Node.isHead).flatMap (fun n =>
    match p.table n with
    | some g => (headColumns g n).map (fun x => (n, x.1, x.2))
    | none => [])

/-- The words of a table row that a traverse's head columns use. -/
def scanWords (p : Plat) (v : Trav) : List Nat := (scanColumns p v).map (fun x => x.2.2.word)

/-- Whether every head input queue of a traverse, on every die, has room (R315). -/
def headRoom (s : State) (v : Trav) : Bool :=
  ((inputCells v).flatMap (placements s)).all (fun g => hasRoom s (tileOfCell g) v.num)

/-- Whether no earlier copy waits for a place in the head input queues of a cell of traverse `t` (R312, R323). -/
def headFirst (s : State) (cell t : Nat) : Bool :=
  (placements s cell).all (fun g => firstFor s (tileOfCell g) t (rank s.now (scanSrc (dieOfCell g)) 0))

/-- The requester number of a scan column (R402). -/
def scanWho (inv col : Nat) : Nat := 0x1000000 + inv * 32 + col

/-- Tokens of a column of `n` rows. -/
def scanTokens (n : Nat) : Nat := ceilDiv n 8

/-- Rows of token `k` of a column of `n` rows (R262). -/
def tokenRows (n k : Nat) : Nat := min 8 (n - 8 * k)

/-- A scan token or END enters the queue of its input cell, on each die at which the cell runs. -/
def scanArrive (s : State) (cell : Nat) (t : Token) : State :=
  (placements s cell).foldl (fun s (g : Nat) => arrive s g (scanSrc (dieOfCell g)) t) s

/-- A column's read fails: the invocation fails and no further token of it is issued. -/
def scanFails (s : State) (i : Inv) (e : Nat × Nat) : State :=
  modInv (markFail s i.trav (ctxInv i.num) e.1 e.2) i.num (fun j => { j with scanFail := true })

/-- Token `k` of a column leaves with its rows (R262). -/
def scanSend (s : State) (i : Inv) (col k cell : Nat) (c : Column) (ws : List W64) : State :=
  let t : Token := ⟨i.trav, 0, .data, ctxInv i.num, k % 2 ^ 24, Lanes.ofList (ws.map (fun w => some (c.value w))), i.acc⟩
  scanArrive (paceMark (modInv s i.num (fun j => { j with scan := Tbl.put col (k + 1) j.scan })) (16 + col) i.trav) cell t

/-- The next token of a SCAN column: its rows are read, urgently (R382), from the range of the column's word (R262, R453); the
token waits for them. A read that cannot reach its stack fails the invocation (R63). -/
def scanRead (s : State) (i : Inv) (col k : Nat) (n : Node) (cell : Nat) (c : Column) (host : Bytes) : State :=
  match i.ranges.find? (fun r => r.1 == c.word) with
  | none => s
  | some r =>
    let len := 8 * tokenRows i.rows k
    let a := r.2.1 + 64 * k
    let far := if isHost a then none else
      (lostTo s (dieOfCell cell) (readDie s (addrStack s a))).orElse (fun _ => lostTo s (readDie s (addrStack s a)) (dieOfCell cell))
    if let some e := far then scanFails (raise (dropAtEdge s e) F.FAB_EVENT_UNDELIVERABLE (dieO (dieOfCell cell))) i (stError, 0x0605)
    else if !addrReady s a len (scanWho i.num col) then addrAsk s i.fn a len (cellClass n.first) (scanWho i.num col) true
    else
      let x := readAddr s i.fn a len (cellClass n.first) (scanWho i.num col) host (decide (host.length < len))
      match x.2.2 with
      | some e => scanFails x.1 i e
      | none => scanSend x.1 i col k cell c (leWords x.2.1)

/-- The next token of a DECODE column: its rows come from the codec's output buffer (R434). -/
def scanDecoded (s : State) (i : Inv) (col k cell : Nat) (c : Column) : State :=
  let need := tokenRows i.rows k
  match s.cdc.cols.find? (fun d => d.inv == i.num && d.col == col) with
  | none => s
  | some d =>
    if d.buf.length < need then s
    else
      let s := modCdc s (fun x => { x with cols := x.cols.map (fun y =>
        if y.inv == i.num && y.col == col then { y with buf := y.buf.drop need } else y) })
      let k0 := d.engs.headD 0
      let before := engWork s k0
      let s := scanSend s i col k cell c (d.buf.take need)
      if !d.done && decide (d.buf.length - need < 8 ∧ 8 ≤ d.buf.length) then preempted s k0 before 1 else s

/-- END for the input cell of a column, once every column has issued its last token (R264, R303). -/
def scanEnd (s : State) (i : Inv) (cs : List (Node × Nat × Column)) (cell : Nat) : State :=
  let spent := i.scanFail || (List.range cs.length).all (fun c => decide (scanTokens i.rows ≤ Tbl.getD i.scan c 0))
  if spent && !i.ended.contains cell then
    let rows := if i.scanFail then min i.rows (8 * (minList ((List.range cs.length).map (fun c => Tbl.getD i.scan c 0))).getD 0)
      else i.rows
    scanArrive (modInv s i.num (fun j => { j with ended := cell :: j.ended })) cell
      (ctlToken i.trav (ctxInv i.num) 4 i.acc [rows])
  else s

/-- SCAN_TOKEN_ISSUE (R262, R303): the next token of head column `col` of an invocation, then END. Issuing pauses while a
head input queue of the traverse is full (R315) or an earlier copy waits for its place (R323), keeps to PACE (R330), and stops with
a squash (R318). -/
def scanTokenIssue (s : State) (inv col : Nat) (host : Bytes) : State :=
  match Tbl.get? inv s.fab.invs with
  | none => s
  | some i =>
    match activeTrav s i.trav with
    | none => s
    | some (p, v) =>
      let cs := scanColumns p v
      if i.done || i.squash.isSome || !headRoom s v then s
      else match cs[col]? with
        | none => s
        | some (n, cell, c) =>
          let k := Tbl.getD i.scan col 0
          if !headFirst s cell v.num then s
          else if i.scanFail || decide (scanTokens i.rows ≤ k) then scanEnd s i cs cell
          else if !paceOpen s (16 + col) v.num (paceFc s v.num) then s
          else if n.op = opDecode then scanDecoded s i col k cell c
          else scanRead s i col k n cell c host

def execScanTokenIssue (inv col : Nat) (host : Bytes) (s : State) : Res := .next (scanTokenIssue s inv col host)

end Sys2Proof.Machine
end

