-- ==== Sys2Proof/Machine/Gauntlet.lean ====
section
/-! DEFINITION. The Gauntlet's arithmetic: pipeline figure and path counts, dispatch wait, pace, bound, and the nine steps of
an admission (R330 to R339, R518), with the reservations and the GNT registers that show them. -/

namespace Sys2Proof.Machine

/-- A counted traverse: its plat, record and pace (R339). -/
structure Cnt where
  plat : Plat
  trav : Trav
  pace : Nat
  deriving DecidableEq, Repr, Inhabited

/-- Figures of a path: pipeline, Chain hops, serial stack SRAM and HBM requests, matching wait (R332, R334). -/
structure Fig where
  p : Nat
  hops : Nat
  sram : Nat
  hbm : Nat
  wait : Nat
  deriving DecidableEq, Repr, Inhabited

/-- The figures of a path continued by another. -/
def Fig.add (a b : Fig) : Fig := ⟨a.p + b.p, a.hops + b.hops, a.sram + b.sram, a.hbm + b.hbm, a.wait + b.wait⟩

/-- The greatest of each figure, which may come from different paths (R332). -/
def Fig.max (a b : Fig) : Fig :=
  ⟨Max.max a.p b.p, Max.max a.hops b.hops, Max.max a.sram b.sram, Max.max a.hbm b.hbm, Max.max a.wait b.wait⟩

/-- Figures `n` times over. -/
def Fig.times (n : Nat) (a : Fig) : Fig := ⟨n * a.p, n * a.hops, n * a.sram, n * a.hbm, n * a.wait⟩

/-- A way on from a cell: to a cell, or out at a collector; `probe` is PROBE_LIMIT for the reply of an SRQ, else 0 (R364). -/
structure PEdge where
  src : Nat
  dst : Option Nat
  fig : Fig
  probe : Nat
  deriving DecidableEq, Repr, Inhabited

/-! ### Plats and certificates -/

/-- The plat with a handle: active, or in a staging slot. -/
def platByHandle (s : State) (h : Nat) : Option Plat :=
  match s.plats.active.find? (fun p => p.handle == h) with
  | some p => some p
  | none => s.plats.slots.findSome? (fun e => e.2.plat.filter (fun p => p.handle == h))

/-- The CERT record of a traverse. -/
def Plat.cert (p : Plat) (t : Nat) : Cert := (p.certs.find? (fun c => c.trav == t)).getD ⟨t, 0, 0, 0, 0, 0, 0, 0, 0⟩

/-- Whether an admitted plat replaces the one with a handle: the displaced traverses are not counted (R339). -/
def displaced (s : State) (h : Nat) : Bool :=
  s.plats.slots.any (fun e => e.2.plat.any (fun p => p.replace && p.replaces == h && s.plats.resv.any (fun r => r.handle == p.handle)))

/-- The traverses that count, in the order of their admission (R339). -/
def countedTravs (s : State) : List Cnt :=
  (s.plats.resv.filter (fun r => !displaced s r.handle)).filterMap (fun r =>
    (platByHandle s r.handle).bind (fun p => (p.trav? r.trav).map (fun v => ⟨p, v, r.pace⟩)))

/-- The cells of a traverse. -/
def Trav.cells (v : Trav) : List Nat := v.nodes.flatMap (fun n => (List.range n.ncells).map (fun i => n.first + i))

/-- The micro-program that a plat holds for a cell. -/
def Plat.code (p : Plat) (g : Nat) : List Nat := ((p.micro.find? (fun m => m.cell == g)).map (·.code)).getD []

/-- p_c: 2 + NINSTR (R330). -/
def Plat.pc (p : Plat) (g : Nat) : Nat := 2 + (p.code g).length

/-- The node of a traverse that holds a cell. -/
def Trav.nodeOf (v : Trav) (g : Nat) : Option Node := v.nodes.find? (fun n => n.hasCell g)

/-! ### The dispatch wait (R335, R518) -/

/-- The tile on which the plats place what runs on `t`: that of the other die of a live pair is the same (R513). -/
def homeTile (s : State) (t : Nat) : Nat := if pairLive s (t / 128) then t / 128 * 128 + t % 64 else t

/-- p_c of the cells of C(T, L). -/
def cSet (s : State) (cs : List Cnt) (tile level : Nat) : List Nat :=
  (cs.filter (fun c => decide (level ≤ c.trav.prio))).flatMap (fun c =>
    (c.trav.cells.filter (fun g => homeTile s (tileOfCell g) == homeTile s tile)).map c.plat.pc)

/-- W for cells of these p_c: one less than the first w from 1 to 64 with 8w above the sum; `none` when overloaded. -/
def waitOf (ps : List Nat) : Option Nat :=
  (List.range 64).find? (fun w => decide ((ps.map (fun p => ceilDiv (w + 1) p)).foldl (· + ·) 0 < 8 * (w + 1)))

/-- W(T, L). -/
def dispatchWait (s : State) (cs : List Cnt) (tile level : Nat) : Nat := (waitOf (cSet s cs tile level)).getD 63

/-- Whether a tile is overloaded at some level. -/
def overloaded (s : State) (cs : List Cnt) (tile : Nat) : Bool :=
  (List.range 16).any (fun l => (waitOf (cSet s cs tile l)).isNone)

/-- PACE at its setting, and the figure that step 9 holds against it (R330). -/
def paceOf (s : State) (cs : List Cnt) (p : Plat) (v : Trav) : Nat :=
  let dests := (v.nodes.filter (fun n => n.op == opEmit)).map (fun n => byteAt n.param 0)
  let floor := if dests.contains 2 then 3 else if dests.contains 1 then 2 else 1
  v.cells.foldl (fun m g => max m (p.pc g + dispatchWait s cs (tileOfCell g) v.prio)) floor

/-! ### Paths (R241, R334, R364, R518) -/

/-- T_GATE (R517). -/
def tGate : Nat := 24

/-- A die as the figures take it: a TWINNED pair is computed on its die of parity `par` (R518). -/
def figDie (s : State) (par d : Nat) : Nat := if twinned s (d / 2) then d / 2 * 2 + par else d

/-- A cell as the figures take it. -/
def figCell (s : State) (par g : Nat) : Nat := figDie s par (g / 4096) * 4096 + g % 4096

/-- Latency of a route between tiles, and its hops (R241). -/
def routeFig (a b : Nat) : Fig :=
  if a = b then ⟨2, 0, 0, 0, 0⟩
  else if a / 64 = b / 64 then ⟨4 + dist (a % 8) (b % 8) + dist (a % 64 / 8) (b % 64 / 8), 0, 0, 0, 0⟩
  else ⟨chainFc (hops (a / 64) (b / 64)), hops (a / 64) (b / 64), 0, 0, 0⟩

/-- Hops between dies with their latency; none on one die. -/
def dieFig (a b : Nat) : Fig := if a = b then ⟨0, 0, 0, 0, 0⟩ else ⟨chainFc (hops a b), hops a b, 0, 0, 0⟩

/-- The gate of a pair, where a token enters it from outside. -/
def gateFig (s : State) (a b : Nat) : Fig := if twinned s (b / 2) && a / 2 != b / 2 then ⟨tGate, 0, 0, 0, 0⟩ else ⟨0, 0, 0, 0, 0⟩

/-- Figures of the request whose reply leaves on a port of a cell: an SRQ stays on its die, an HRQ to another die costs
12 + 24 × hops each way and its hops twice; a TWINNED pair adds T_GATE to an HBM access. -/
def requestFig (s : State) (par : Nat) (p : Plat) (g : Nat) (w : Nat) : Fig :=
  if iOp w = 0x78 then ⟨0, 0, 1, 0, 0⟩
  else
    let d := figDie s par (g / 4096)
    let h := match hrqPart s p g (bits (iImm w) 0 16) with
      | some (r, _) => if r.spread || onDie s r d then 0 else hops d (figDie s par r.die)
      | none => 0
    ⟨(if h = 0 then 0 else 2 * chainFc h) + (if twinned s (d / 2) then tGate else 0), 2 * h, 0, 1, 0⟩

/-- The request instruction of a cell whose reply leaves on a port. -/
def replyOf (p : Plat) (g port : Nat) : Option Nat :=
  (p.code g).find? (fun w => (iOp w == 0x78 || iOp w == 0x79) && iD w == port)

/-- The dies to which rows of an EMIT node travel from their collector (R38, R334, R338); a pin's is the die that drives it now
(R522). -/
def destDies (s : State) (owner : Nat) (n : Node) : List Nat :=
  let dest := byteAt n.param 0
  if dest ≤ 1 then [pfOf owner]
  else if dest = 2 then (if byteAt n.param 6 = 255 then List.range s.part.dies else [byteAt n.param 6 / 2]) else [pinDie s]

/-- The collector route of a cell: its latency, 2 fc into the queue, and the way to the destination unit. -/
def collFig (s : State) (par : Nat) (p : Plat) (v : Trav) (g tile : Nat) : Fig :=
  let t := figDie s par (tile / 64) * 64 + tile % 64
  let out := match v.nodeOf g with
    | some n => (destDies s p.owner n).foldl (fun m d => Fig.max m (dieFig (t / 64) d)) ⟨0, 0, 0, 0, 0⟩
    | none => ⟨0, 0, 0, 0, 0⟩
  Fig.add (Fig.add (routeFig (tileOfCell (figCell s par g)) t) ⟨2, 0, 0, 0, 0⟩) out

/-- The cells from which a route's tokens leave: for a SORT or TOPK node rows that reach any of its cells leave from its
first. -/
def routeSources (v : Trav) (r : Route) : List Nat :=
  match v.nodeOf r.src with
  | some n => if (n.op == opSort || n.op == opTopk) && n.first == r.src then (List.range n.ncells).map (fun i => n.first + i) else [r.src]
  | none => [r.src]

/-- The ways on that a route opens. -/
def routeEdges (s : State) (par : Nat) (p : Plat) (v : Trav) (r : Route) : List PEdge :=
  let step := fun (g d : Nat) => Fig.add (routeFig (tileOfCell (figCell s par g)) (tileOfCell (figCell s par d)))
    (gateFig s (g / 4096) (d / 4096))
  (routeSources v r).flatMap (fun g =>
    match r.kind with
    | 0 => match replyOf p g r.port with
      | some w => [⟨g, some r.dst, requestFig s par p g w, if iOp w = 0x78 then probeLimit s (g / 4096) else 0⟩]
      | none => [⟨g, some r.dst, step g r.dst, 0⟩]
    | 1 => ((List.range 8).filter (fun d => bits r.dieMask d 1 == 1)).map (fun d => ⟨g, some (d * 4096 + r.dst), step g (d * 4096 + r.dst), 0⟩)
    | 2 => [⟨g, none, collFig s par p v g r.dst, 0⟩]
    | _ => [])

/-- Every way on within a traverse. -/
def travEdges (s : State) (par : Nat) (p : Plat) (v : Trav) : List PEdge :=
  (p.routes.filter (fun r => r.trav == v.num)).flatMap (routeEdges s par p v)

/-- Heads with the figures up to the input cell (R334): the splitter of the farthest present die, the scan engine behind the
invocation's transfer from the port die, or a stake firing. The range of a scan or DECODE read comes with the invocation (R453), which
no plat holds: as in the worked example of 08_timing_promise.md no hops are charged for it (DEDUCED, log entry 82). -/
def headFig (s : State) (par : Nat) (p : Plat) (v : Trav) (g : Nat) : Fig :=
  let d := figDie s par (g / 4096)
  let gate : Fig := if twinned s (d / 2) then ⟨tGate, 0, 0, 0, 0⟩ else ⟨0, 0, 0, 0, 0⟩
  if v.input = 2 then Fig.add ⟨4 + 6, 0, 0, 0, 0⟩ gate
  else if v.input = 1 then
    let far := (v.nodes.filter Node.isHead).foldl (fun m n => max m (hops (pfOf p.owner) (figDie s par (n.first / 4096)))) 0
    Fig.add (Fig.add ⟨16 + 6, 0, 0, 1, 0⟩ (if far = 0 then ⟨0, 0, 0, 0, 0⟩ else ⟨chainFc far, far, 0, 0, 0⟩))
      (Fig.times (if twinned s (d / 2) then 2 else 0) ⟨tGate, 0, 0, 0, 0⟩)
  else
    let h := farthest s.part d
    Fig.add ⟨8 + (if h = 0 then 6 else chainFc h), h, 0, 0, 0⟩ gate

/-- The cells that a cell reaches by `n` ways on. -/
def reachSet (es : List PEdge) : (n : Nat) → List Nat → List Nat
  | 0, gs => gs
  | n + 1, gs => reachSet es n (es.foldl (fun acc e =>
      match e.dst with
      | some d => if acc.contains e.src && !acc.contains d then d :: acc else acc
      | none => acc) gs)

/-- Whether two cells lie on one cycle of routes, or are the same cell. -/
def sameLoop (es : List PEdge) (n a b : Nat) : Bool :=
  a == b || ((reachSet es n [a]).contains b && (reachSet es n [b]).contains a)

/-- The charge of the passes and ways within a cell's loop: each once, times PROBE_LIMIT when the loop passes an SRQ reply
(R334, R364). -/
def loopFig (es : List PEdge) (pass : Nat → Fig) (loop : List Nat) : Fig :=
  let inner := es.filter (fun e => loop.contains e.src && e.dst.any loop.contains)
  let once := inner.foldl (fun f e => Fig.add f e.fig) (loop.foldl (fun f g => Fig.add f (pass g)) ⟨0, 0, 0, 0, 0⟩)
  Fig.times (max 1 (inner.foldl (fun m e => max m e.probe) 0)) once

/-- One round: what is left of the greatest path from each loop, by the ways that leave it. -/
def pathRound (es : List PEdge) (loops : List (List Nat × Fig)) (best : List (Option Fig)) : List (Option Fig) :=
  loops.map (fun (l : List Nat × Fig) =>
    let rest := (es.filter (fun e => l.1.contains e.src && !(e.dst.any l.1.contains))).filterMap (fun e =>
      match e.dst with
      | none => some e.fig
      | some d => ((findIdx (fun (k : List Nat × Fig) => k.1.contains d) loops).bind (fun i => (best[i]?).join)).map (Fig.add e.fig))
    match rest with
    | [] => none
    | f :: t => some (Fig.add l.2 (t.foldl Fig.max f)))

/-- The loops of a traverse: each cell with the cells on a cycle with it, once. -/
def loopsOf (es : List PEdge) (cells : List Nat) : List (List Nat) :=
  cells.foldl (fun acc g => if acc.any (fun l => l.contains g) then acc
    else acc ++ [cells.filter (sameLoop es cells.length g)]) []

/-- The figures of a traverse on the dies of one parity: the greatest over the paths from its heads to its collectors. -/
def figuresAt (s : State) (cs : List Cnt) (par : Nat) (p : Plat) (v : Trav) : Fig :=
  let es := travEdges s par p v
  let pass := fun g => (⟨3 + p.pc g, 0, 0, 0, dispatchWait s cs (tileOfCell g) v.prio⟩ : Fig)
  let loops := (loopsOf es v.cells).map (fun l => (l, loopFig es pass l))
  let best := (List.range loops.length).foldl (fun b _ => pathRound es loops b) (List.replicate loops.length none)
  (inputCells v).foldl (fun m g =>
    match (findIdx (fun (k : List Nat × Fig) => k.1.contains g) loops).bind (fun i => (best[i]?).join) with
    | some f => Fig.max m (Fig.add (headFig s par p v g) f)
    | none => m) ⟨0, 0, 0, 0, 0⟩

/-- P and the counts of a traverse (R334), on whichever die of a pair gives the larger values (R518). -/
def figures (s : State) (cs : List Cnt) (p : Plat) (v : Trav) : Fig := Fig.max (figuresAt s cs 0 p v) (figuresAt s cs 1 p v)

/-! ### Collectors and destination units (R337, R338) -/

/-- The collector tiles of a traverse. -/
def collTiles (p : Plat) (v : Trav) : List Nat :=
  (p.routes.filter (fun r => r.kind == 2 && r.trav == v.num)).foldl (fun acc r => if acc.contains r.dst then acc else acc ++ [r.dst]) []

/-- Producing sources of a traverse for which `q` holds. -/
def sources (p : Plat) (v : Trav) (q : Route → Bool) : List Nat :=
  (p.routes.filter (fun r => r.kind == 2 && r.trav == v.num && q r)).foldl (fun acc r => if acc.contains r.src then acc else r.src :: acc) []

/-- N_coll of a collector. -/
def nColl (s : State) (cs : List Cnt) (tile : Nat) : Nat :=
  cs.foldl (fun n c => n + (c.plat.cert c.trav.num).results *
    (sources c.plat c.trav (fun r => homeTile s r.dst == homeTile s tile)).length) 0

/-- Whether a traverse holds a cell on a TWINNED pair (R518). -/
def onTwin (s : State) (v : Trav) : Bool := v.nodes.any (fun n => twinned s (n.first / 8192))

/-- The destination units of an EMIT node, numbered as GNT_DEST is, and 20 for TRIG_OUT. -/
def nodeUnits (s : State) (owner : Nat) (n : Node) : List Nat :=
  let dest := byteAt n.param 0
  if n.op ≠ opEmit then []
  else if dest = 0 then [pfOf owner] else if dest = 1 then [2 + pfOf owner]
  else if dest = 2 then (if byteAt n.param 6 = 255 then (List.range s.part.ports).map (· + 4) else [4 + byteAt n.param 6])
  else [20]

/-- The destination units of a traverse; an invocation's completion leaves by the completion writer. -/
def travUnits (s : State) (p : Plat) (v : Trav) : List Nat :=
  (if v.input = 1 then [pfOf p.owner] else []) ++ v.nodes.flatMap (nodeUnits s p.owner)

/-- N_dest of a unit: the sum of RESULTS over the producing sources of the traverses that emit to it, a traverse on a twin
pair twice. -/
def nDest (s : State) (cs : List Cnt) (unit : Nat) : Nat :=
  cs.foldl (fun n c =>
    let k := (sources c.plat c.trav (fun r => (c.trav.nodeOf r.src).any (fun x => (nodeUnits s c.plat.owner x).contains unit))).length
    n + (c.plat.cert c.trav.num).results * k * (if onTwin s c.trav then 2 else 1)) 0

/-- The largest N_dest of a unit. -/
def destLimit (unit : Nat) : Option Nat :=
  if unit < 2 then some 16384 else if unit < 4 then some 8192 else if unit < 20 then some 1024 else none

/-- The term of a unit. -/
def destTerm (s : State) (cs : List Cnt) (unit : Nat) : Nat :=
  let n := nDest s cs unit
  if unit < 2 then 24 + n else if unit < 4 then 24 + 2 * n else if unit < 20 then 12 + 3 * n else 64

/-! ### The bound (R332, R333, R336) -/

/-- k_sw and B: the repetition of R336, which stops when k_sw stays. -/
def boundLoop (sum tsw gap : Nat) : (fuel k : Nat) → Nat
  | 0, k => sum + k * tsw
  | n + 1, k =>
    let b := sum + k * tsw
    if 1 + b / gap = k then b else boundLoop sum tsw gap n (1 + b / gap)

/-- The sum of every term of R332 but the epoch switches. -/
def boundSum (s : State) (cs : List Cnt) (p : Plat) (v : Trav) (pace : Nat) : Nat :=
  let c := p.cert v.num
  let access := 720 + 984
  let twin := onTwin s v && v.nodes.any (fun n => n.op == opEmit && byteAt n.param 0 == 3)
  let stakes := (p.stakes.filter (fun k => k.trav == v.num)).length
  c.pipe + (figures s cs p v).wait + c.sramSerial * 32 + c.hbmSerial * access +
  (if v.input = 1 ∧ 0 < c.hbmSerial then max access (getF s F.GNT_CFG_HOST_READ_FC 0) - access else 0) +
  (if v.nodes.any (fun n => n.op == opDecode) then 192 else 0) + c.hops * 16 +
  (collTiles p v).foldl (fun m t => max m (ceilDiv (nColl s cs t) 4)) 0 +
  (travUnits s p v).foldl (fun m u => max m (destTerm s cs u)) 0 +
  (if wantsHorizon v then 4 + s.part.lag + 16 + pace else 0) +
  (if v.input = 2 then (stakes - 1) * pace else 0) + (if twin then 9600 else 0)

/-- B of a traverse. -/
def boundOf (s : State) (cs : List Cnt) (p : Plat) (v : Trav) (pace : Nat) : Nat :=
  boundLoop (boundSum s cs p v pace) s.part.tSwitch (minGap s) 4096 1

/-! ### Chain load (R339 step 5, R518) -/

/-- Edges of the column-first routes from a die to others, each once: pairs of neighbouring dies (R243). -/
def treeEdges (a : Nat) (ds : List Nat) : List (Nat × Nat) :=
  ds.foldl (fun acc b =>
    let r := routeDies a b
    (r.zip (r.drop 1)).foldl (fun acc e => if acc.contains e then acc else acc ++ [e]) acc) []

/-- EMIT and EMITD instructions of a cell that name a port, and requests whose replies leave on it (R312). -/
def emitsOn (p : Plat) (g port : Nat) : Nat :=
  ((p.code g).filter (fun w => ((iOp w == 0x7C || iOp w == 0x7D) && bits (iImm w) 0 2 == port) ||
    ((iOp w == 0x78 || iOp w == 0x79) && iD w == port))).length

/-- Messages per input that the routes of a traverse put on an edge, memory replies to cells of other dies among them (R312), each
cell making one pass per input. -/
def routeLoad (p : Plat) (v : Trav) (e : Nat × Nat) : Nat :=
  (p.routes.filter (fun r => r.trav == v.num && decide (r.kind ≤ 2))).foldl (fun n r =>
    let ds := match r.kind with
      | 0 => [r.dst / 4096]
      | 1 => (List.range 8).filter (fun d => bits r.dieMask d 1 == 1)
      | _ => [r.dst / 64]
    if (treeEdges (r.src / 4096) ds).contains e then n + max 1 (emitsOn p r.src r.port) else n) 0

/-- Messages per input that a splitter puts on an edge: its tokens to the input cells, from the die that makes most of them
cross the edge. -/
def headLoad (s : State) (v : Trav) (e : Nat × Nat) : Nat :=
  if v.input = 0 ∨ v.input = 3 then
    (List.range s.part.dies).foldl (fun m d =>
      max m ((inputCells v).filter (fun g => (treeEdges d [g / 4096]).contains e)).length) 0
  else 0

/-- The replica message of R516 on the vertical edge of a TWINNED pair. -/
def replicaLoad (s : State) (v : Trav) (e : Nat × Nat) : Nat :=
  if (v.input = 0 ∨ v.input = 3) ∧ e.1 / 2 = e.2 / 2 ∧ twinned s (e.1 / 2) = true ∧ onTwin s v = true then 1 else 0

/-- Token messages per input of a traverse on an edge. -/
def edgeLoad (s : State) (c : Cnt) (e : Nat × Nat) : Nat :=
  routeLoad c.plat c.trav e + headLoad s c.trav e + replicaLoad s c.trav e

/-- Every edge and direction of the mesh. -/
def meshEdges (p : Part) : List (Nat × Nat) :=
  (List.range p.dies).flatMap (fun a => (List.range p.dies).filterMap (fun b => if hops a b = 1 then some (a, b) else none))

/-- Whether the load of an edge is above 3: the sum of fractions over a common denominator. -/
def edgeOver (s : State) (cs : List Cnt) (e : Nat × Nat) : Bool :=
  let f := cs.foldl (fun (x : Nat × Nat) c => (x.1 * max 1 c.pace + edgeLoad s c e * x.2, x.2 * max 1 c.pace)) (0, 1)
  decide (3 * f.2 < f.1)

/-! ### Admission (R339, R340) -/

/-- UNITS that a traverse reserves on a die. -/
def sortLoad (v : Trav) (d : Nat) : Nat :=
  (v.nodes.filter (fun n => (n.op == opSort || n.op == opTopk) && n.first / 4096 == d)).foldl (fun k n => k + sortUnits n) 0

/-- The nine steps for one traverse, `cs` being the counted traverses with it: the reason of the failure, with B where it was
computed. -/
def admitSteps (s : State) (cs : List Cnt) (p : Plat) (v : Trav) (pace : Nat) : Option (Nat × Nat) :=
  let c := p.cert v.num
  let f := figures s cs p v
  let b := boundOf s cs p v pace
  if c.pipe < f.p then some (0x0801, 0)
  else if c.hops < f.hops ∨ c.sramSerial < f.sram ∨ c.hbmSerial < f.hbm then some (0x0802, 0)
  else if (collTiles p v).any (fun t => decide (1024 < nColl s cs t)) then some (0x0803, 0)
  else if v.cells.any (fun g => overloaded s cs (tileOfCell g)) then some (0x0804, 0)
  else if (meshEdges s.part).any (edgeOver s cs) then some (0x0805, 0)
  else if v.nodes.any (fun n => (n.op == opSort || n.op == opTopk) &&
      decide (4 < (cs.map (fun k => sortLoad k.trav (n.first / 4096))).foldl (· + ·) 0)) then some (0x0806, 0)
  else if (travUnits s p v).any (fun u => (destLimit u).any (fun l => decide (l < nDest s cs u))) then some (0x0807, 0)
  else if c.bound < b then some (0x0808, b)
  else if cs.any (fun k => decide ((k.plat.cert k.trav.num).bound < boundOf s cs k.plat k.trav k.pace) ||
      decide (k.pace < paceOf s cs k.plat k.trav)) then some (0x0809, b)
  else none

/-- The traverses of a plat in GRAPH order: the reservations made, or the first failure with its traverse. -/
def admitTravs (s : State) (p : Plat) : (cs : List Cnt) → List Trav → List Resv × Option (Nat × Nat × Nat)
  | _, [] => ([], none)
  | cs, v :: t =>
    let cs0 := cs ++ [⟨p, v, 0⟩]
    let pace := paceOf s cs0 p v
    let cs1 := cs ++ [⟨p, v, pace⟩]
    match admitSteps s cs1 p v pace with
    | some (r, b) => ([], some (v.num, r, b))
    | none =>
      let x := admitTravs s p cs1 t
      (⟨v.num, p.handle, pace, boundOf s cs1 p v pace⟩ :: x.1, x.2)

/-! ### The GNT registers -/

/-- Offset of the registers of traverse `t`. -/
def gntO (t : Nat) : Nat := t * 0x20

/-- GNT_TRAV_A and B of one traverse, as its reservation has them. -/
def showResv (s : State) (cs : List Cnt) (r : Resv) : State :=
  match (platByHandle s r.handle).bind (fun p => (p.trav? r.trav).map (fun v => (p, v))) with
  | some (p, v) =>
    let o := gntO r.trav
    let c := p.cert r.trav
    let s := setF (setF s F.GNT_TRAV_A_ADMITTED o 1) F.GNT_TRAV_A_WITHDRAWN o 0
    let s := setF (setF s F.GNT_TRAV_A_ACCEPT o c.accept) F.GNT_TRAV_A_PRIORITY o v.prio
    let s := setF (setF s F.GNT_TRAV_A_PACE o r.pace) F.GNT_TRAV_A_BOUND_FC o c.bound
    let s := setF s F.GNT_TRAV_B_COMPUTED_FC o r.computed
    setF s F.GNT_TRAV_B_W_MATCH o (v.cells.foldl (fun m g => max m (dispatchWait s cs (tileOfCell g) v.prio)) 0)
  | none => s

/-- The reservation that a traverse number shows: the one admitted first. -/
def shownResv (s : State) : List Resv :=
  s.plats.resv.foldl (fun acc r => if acc.any (fun x => x.trav == r.trav) then acc else acc ++ [r]) []

/-- Bounds recomputed and the registers brought up to date, after an admission or a withdrawal (R340). -/
def refreshGnt (s : State) : State :=
  let cs := countedTravs s
  let again := fun (r : Resv) => match cs.find? (fun c => c.plat.handle == r.handle && c.trav.num == r.trav) with
    | some c => { r with computed := boundOf s cs c.plat c.trav c.pace }
    | none => r
  let s := { s with plats := { s.plats with resv := s.plats.resv.map again } }
  let s := (shownResv s).foldl (fun s r => showResv s cs r) s
  let s := setF s F.GNT_STAT_ADMITTED 0 s.plats.resv.length
  let s := (List.range (64 * s.part.dies)).foldl (fun s g => setF s F.GNT_COLL_N_COLL (g * 8) (nColl s cs g)) s
  let s := (List.range (4 + s.part.ports)).foldl (fun s k => setF s F.GNT_DEST_N_DEST (k * 8) (nDest s cs k)) s
  gntWayFollow s

/-- Reservations are withdrawn: those that `p` picks. A number without one left shows no certificate (R192, R340). -/
def withdraw (s : State) (p : Resv → Bool) : State :=
  let gone := s.plats.resv.filter p
  if gone.isEmpty then s
  else
    let s := { s with plats := { s.plats with resv := s.plats.resv.filter (fun r => !p r) } }
    let s := gone.foldl (fun s r => if s.plats.resv.any (fun x => x.trav == r.trav) then s
      else
        let o := gntO r.trav
        let s := setF (setF s F.GNT_TRAV_A_ADMITTED o 0) F.GNT_TRAV_A_ACCEPT o 0
        let s := setF (setF (setF s F.GNT_TRAV_A_PRIORITY o 0) F.GNT_TRAV_A_PACE o 0) F.GNT_TRAV_A_BOUND_FC o 0
        setF (setF s F.GNT_TRAV_B_COMPUTED_FC o 0) F.GNT_TRAV_B_W_MATCH o 0) s
    refreshGnt s

/-- Certificates withdrawn under R63 (R344): WITHDRAWN and the event; measurement ends with the reservation. -/
def withdrawCert (s : State) (p : Resv → Bool) : State :=
  let gone := s.plats.resv.filter p
  let s := withdraw s p
  gone.foldl (fun s r => raise (setF s F.GNT_TRAV_A_WITHDRAWN (gntO r.trav) 1) F.GNT_EVENT_WITHDRAWN 0) s

/-- A traverse is rejected: counted, named and signalled (R339). -/
def rejectTrav (s : State) (t reason b : Nat) : State :=
  let s := raise (satF s F.GNT_STAT_REJECTS 0 1) F.GNT_EVENT_REJECT 0
  setF (setF (setF s F.GNT_LAST_REJECT_TRAVERSE 0 t) F.GNT_LAST_REJECT_REASON 0 reason) F.GNT_LAST_REJECT_COMPUTED_FC 0 b

end Sys2Proof.Machine
end

