-- ==== Sys2Proof/Machine/Plats.lean ====
section
/-! DEFINITION. Plat loading, staging, activation and removal (R178 to R199), indirect access to tiles (R258), with
PLAT_FETCH_DONE, PLAT_CHECK_DONE, GAUNTLET_ADMIT, PRELOAD_DONE, REPLACE_ZEROING_DONE and the FAB_IND_DATA rows. LOAD_PLAT and
UNLOAD_PLAT are in Machine/Rings.lean. -/

namespace Sys2Proof.Machine

/-! ### Slots (R187) -/

/-- Offset of the registers of slot `k`. -/
def platO (k : Nat) : Nat := k * 0x10

/-- PHASE of a slot. -/
def slotPhase (s : State) (k : Nat) : Nat := getF s F.PLAT_SLOT_STAT_PHASE (platO k)

/-- PHASE of a slot set. -/
def setPhase (s : State) (k ph : Nat) : State := setF s F.PLAT_SLOT_STAT_PHASE (platO k) ph

/-- A slot of the staging region. -/
def slotOf (s : State) (k : Nat) : Option PlatSlot := Tbl.get? k s.plats.slots

/-- The hidden part of a slot changed. -/
def modSlot (s : State) (k : Nat) (f : PlatSlot → PlatSlot) : State :=
  match slotOf s k with
  | some x => { s with plats := { s.plats with slots := Tbl.put k (f x) s.plats.slots } }
  | none => s

/-- The slots with a plat at or past a phase, in order of admission. -/
def slotsByOrder (s : State) (lo : Nat) : List (Nat × PlatSlot) :=
  sortBy (fun (a b : Nat × PlatSlot) => decide (a.2.order ≤ b.2.order))
    (s.plats.slots.filter (fun (e : Nat × PlatSlot) => e.2.plat.isSome && decide (lo ≤ slotPhase s e.1)))

/-- Whether a plat holds reservations. -/
def admitted (s : State) (h : Nat) : Bool := s.plats.resv.any (fun r => r.handle == h)

/-- The tiles on which a plat runs: on a live pair those of both dies (R513). -/
def runTiles (s : State) (p : Plat) : List Nat :=
  (platTiles p).flatMap (fun t => if pairLive s (t / 128) then [t / 128 * 128 + t % 64, t / 128 * 128 + 64 + t % 64] else [t])

/-! ### Zeroing of regions (R172, R194, R371, R503) -/

/-- Whether the plat that `p` replaces holds unit or slice `u` of a record's die. -/
def heldByReplaced (s : State) (p : Plat) (r : PartRec) (u : Nat) : Bool :=
  p.replace && s.plats.active.any (fun q => q.handle == p.replaces && q.parts.any (fun x => x.kind == r.kind && x.die == r.die &&
    decide (x.first ≤ u ∧ u < x.first + x.count)))

/-- The units or slices of a plat's ZERO_INIT regions of a kind, with their dies, that the replaced plat holds (`held`) or does
not hold. -/
def zeroParts (s : State) (p : Plat) (kind : Nat) (held : Bool) : List (Nat × Nat) :=
  (p.parts.filter (fun r => r.kind == kind && r.zeroInit)).flatMap (fun r =>
    ((List.range r.count).filter (fun i => heldByReplaced s p r (r.first + i) == held)).flatMap (fun i =>
      (mirrorDies s r.die).map (fun d => (d, r.first + i))))

/-- Whether a plat activates in two COMMITs (R194). -/
def needsTwo (s : State) (p : Plat) : Bool := !(zeroParts s p 1 true).isEmpty || !(zeroParts s p 2 true).isEmpty

/-- Slices of stack SRAM are handed to the zeroing engine: `kind` 0 for a region, 1 for a scrub. -/
def startSlices (s : State) (ds : List (Nat × Nat)) (kind : Nat) : State :=
  ds.foldl (fun s (x : Nat × Nat) => { s with srm := { s.srm with zeroing := Tbl.put (x.1 * 16 + x.2) kind s.srm.zeroing, zeroPos := Tbl.del (x.1 * 16 + x.2) s.srm.zeroPos } }) s

/-- The lines and queued writes of an HBM unit are discarded (R503). -/
def discardUnit (s : State) (d u : Nat) : State :=
  let inU := fun (ln : Nat) => decide (u * 2 ^ 23 ≤ ln ∧ ln < (u + 1) * 2 ^ 23)
  let s := modSpc s d (fun c => { c with lines := c.lines.filter (fun (e : Nat × CLine) => !inU (keyLine e.1 e.2.tag)) })
  (List.range 32).foldl (fun s c =>
    if (hpc s d c).wq.any (fun e => inU e.line) then modPc s d c (fun q => { q with wq := q.wq.filter (fun e => !inU e.line) }) else s) s

/-- The pseudo-channels in the interleave of stack `d` that do not run. -/
def stuckPcs (s : State) (d : Nat) : List Nat :=
  ((List.range (stackP s d)).map (posPc s d)).filter (fun c => pcState s d c != 0)

/-- An HBM unit becomes zero; the granules of pseudo-channels that do not run are not written (R503). -/
def zeroUnit (s : State) (d u : Nat) : State :=
  let s := discardUnit s d u
  let lo := hbmAddr d (u * 2 ^ 30)
  if (stuckPcs s d).isEmpty then zeroMem s 2 lo (2 ^ 30)
  else
    let n := stackP s d
    ((List.range n).filter (fun i => pcState s d (posPc s d i) == 0)).foldl (fun s i =>
      undefine s ⟨2, lo, lo + 2 ^ 30 - 1, n, (i + n - u * 2 ^ 22 % n) % n, .zero⟩) s

/-- A zeroing that its plat gives up: its slices leave the engine, which has written them up to its place (R371). -/
def abandonZero (s : State) (p : Plat) : State :=
  ((zeroParts s p 1 true ++ zeroParts s p 1 false)).foldl (fun s (x : Nat × Nat) =>
    let k := x.1 * 16 + x.2
    if Tbl.get? k s.srm.zeroing = some 0 then
      { s with srm := { s.srm with zeroing := Tbl.del k s.srm.zeroing, zeroPos := Tbl.del k s.srm.zeroPos } }
    else s) s

/-! ### Shadow banks (R189) -/

/-- FAB_TILE_BANK of a plat's tiles shows its shadow bank loaded, or not. -/
def showShadow (s : State) (p : Plat) (on : Bool) : State :=
  (runTiles s p).foldl (fun s t =>
    setF (setF s F.FAB_TILE_BANK_SHADOW_LOADED (tileO t) (if on then 1 else 0)) F.FAB_TILE_BANK_SHADOW_HANDLE (tileO t)
      (if on then p.handle else 0)) s

/-- Admitted plats take free shadow banks in order of admission and enter PRELOAD (R187, R189). -/
def takeBanks (s : State) : State :=
  ((slotsByOrder s 3).foldl (fun (x : State × List Nat) (e : Nat × PlatSlot) =>
    match e.2.plat with
    | some p =>
      let mine := platTiles p
      if 4 ≤ slotPhase x.1 e.1 then (x.1, x.2)
      else if !admitted x.1 p.handle || mine.any (fun t => x.2.contains t) then (x.1, x.2 ++ mine)
      else (showShadow (startSlices (setPhase x.1 e.1 4) (zeroParts x.1 p 1 false) 0) p true, x.2 ++ mine)
    | none => x)
    (s, ((slotsByOrder s 4).filterMap (fun (e : Nat × PlatSlot) => e.2.plat)).flatMap platTiles)).1

/-- A slot is freed (R187). -/
def freeSlot (s : State) (k : Nat) : State :=
  match slotOf s k with
  | some x =>
    let s := match x.plat with
      | some p => if 4 ≤ slotPhase s k then showShadow (abandonZero s p) p false else s
      | none => s
    let s := { s with plats := { s.plats with slots := Tbl.del k s.plats.slots } }
    let o := platO k
    setF (setF (setF (setF s F.PLAT_SLOT_STAT_PHASE o 0) F.PLAT_SLOT_STAT_HANDLE o 0) F.PLAT_SLOT_STAT_OWNER o 0) F.PLAT_SLOT_STAT_RING o 0
  | none => s

/-- A LOAD_PLAT command completes (R183): counted, and PLAT_EVENT.FAILED when not OK. -/
def loadCompletes (s : State) (ring cq tag handle status reason epoch : Nat) : State :=
  let s := addF s F.PLAT_COUNT_LOADS 0 1
  let s := if status = stOk then s else raise (satF s F.PLAT_COUNT_FAILS 0 1) F.PLAT_EVENT_FAILED 0
  complete s ring cq tag 0x10 status reason handle epoch

/-- PLAT_SLOT_FAULT of a slot. -/
def recordFault (s : State) (k status reason off : Nat) : State :=
  let o := platO k
  setF (setF (setF s F.PLAT_SLOT_FAULT_FAULT_OFFSET o off) F.PLAT_SLOT_FAULT_STATUS o status) F.PLAT_SLOT_FAULT_REASON o reason

/-- The plat in a slot fails: its LOAD_PLAT completes, its reservations and shadow banks are released, the slot is free
(R184, R190, R340). -/
def failLoad (s : State) (k status reason off : Nat) : State :=
  match slotOf s k with
  | some x =>
    let s := recordFault s k status reason off
    let s := loadCompletes s x.ring x.cq x.tag x.handle status reason 0
    let s := freeSlot s k
    takeBanks (withdraw s (fun r => r.handle == x.handle))
  | none => s

/-! ### LOAD_PLAT and UNLOAD_PLAT (R179 to R184) -/

/-- The next handle (R182): ascending mod 2^16, without 0 and the handles that active or staged plats hold (R618). -/
def nextHandle (s : State) : Nat :=
  let used := s.plats.active.map (·.handle) ++ (s.plats.slots.filter (fun e => e.2.staged)).map (fun e => e.2.handle)
  (((List.range 1024).map (fun i => (s.plats.lastHandle + 1 + i) % 65536)).find? (fun h => h != 0 && !used.contains h)).getD 0

/-- The system channel of a die carries a piece of its own traffic (R482): its DMA registers show it. -/
def sysTraffic (s : State) (d cls ring tag src dst n : Nat) : State :=
  let o := dmaO d 63
  let s := setF (setF (setF s F.DMA_SRC_SRC o src) F.DMA_DST_DST o dst) F.DMA_COUNT_COUNT o 0
  let s := setF (setF s F.DMA_COUNT_WRITTEN o (n % 2 ^ 32)) F.DMA_STAT_CLASS o cls
  let s := setF (setF s F.DMA_STAT_RING o ring) F.DMA_STAT_TAG o tag
  addF (addF s F.DMA_BYTES_BYTES o n) F.DMA_BEATS_BEATS (dieO d) (ceilDiv n 64)

/-- LOAD_PLAT of ring `ring` (R184 phases A1 to A4): a slot is taken and the system channel of the port die fetches the image
(R179, R482). DESIGN CHOICE, log entry 72: an ADDR that is no multiple of 64, or a DMA_CLASS above 3, fails A4 with BAD_LENGTH,
since the spec names no status for either. -/
def loadPlat (s : State) (ring cq tag : Nat) (body : Bytes) : State :=
  let fn := ringOwner s ring
  let addr := fld body 0 8
  let len := fld body 8 4
  let cls := byteAt body 12
  if !isPf fn then loadCompletes s ring cq tag 0 stRejected 0x0501 0
  else if !isSet s F.PLAT_CTL_ENABLE 0 || !isSet s F.PLAT_STAGE_CFG_VALID 0 then loadCompletes s ring cq tag 0 stRejected 0x0503 0
  else match (List.range 4).find? (fun k => slotPhase s k == 0) with
    | none => loadCompletes s ring cq tag 0 stRejected 0x0502 0
    | some k =>
      let s := recordFault s k 0 0 0
      if len % 64 ≠ 0 ∨ len < 192 ∨ 268435456 < len ∨ addr % 64 ≠ 0 ∨ 3 < cls then
        loadCompletes (recordFault s k stMalformed 0x0504 noField) ring cq tag 0 stMalformed 0x0504 0
      else
        let h := nextHandle s
        let x : PlatSlot := ⟨ring, tag, cq, addr, len, cls, h, [], none, false, 0, 0, [], [], 0⟩
        let s := { s with plats := { s.plats with slots := Tbl.put k x s.plats.slots, lastHandle := h } }
        let s := setF (setF (setPhase s k 1) F.PLAT_SLOT_STAT_HANDLE (platO k) h) F.PLAT_SLOT_STAT_RING (platO k) ring
        emitOut s (.hostRead (pfOf fn) fn addr len false)

/-- UNLOAD_PLAT of ring `ring` (R180, R181, R197). -/
def unloadPlat (s : State) (ring cq tag : Nat) (body : Bytes) : State :=
  let h := fld body 0 2
  if !isPf (ringOwner s ring) then complete s ring cq tag 0x11 stRejected 0x0501 0 0
  else match s.plats.slots.find? (fun e => e.2.staged && e.2.handle == h) with
    | some e => complete (failLoad s e.1 stCancelled 0x0522 noField) ring cq tag 0x11 stOk 0 0 0
    | none =>
      if s.plats.active.any (fun p => p.handle == h) then
        if s.plats.slots.any (fun e => e.2.staged && e.2.plat.any (fun p => p.replace && p.replaces == h)) then
          complete s ring cq tag 0x11 stRejected 0x0521 0 0
        else { s with plats := { s.plats with unloads := s.plats.unloads ++ [(h, ring, tag, cq)] } }
      else complete s ring cq tag 0x11 stRejected 0x0526 0 0

/-- PLAT_FETCH_DONE (R187): the image stands in its slot of the staging unit and the checks begin, or A5 fails. -/
def platFetchDone (s : State) (k : Nat) (ok : Bool) (image : Bytes) : State :=
  match slotOf s k with
  | some x =>
    if slotPhase s k ≠ 1 ∨ halted s = true then s
    else if !ok then failLoad s k stError 0x0505 noField
    else
      let img := sub image 0 x.len
      let st := getF s F.PLAT_STAGE_CFG_STACK 0
      let place := getF s F.PLAT_STAGE_CFG_UNIT 0 * 2 ^ 30 + k * 2 ^ 28
      let s := sysTraffic s (dieOfPort (pfOf (ringOwner s x.ring))) x.dmaClass x.ring x.tag x.addr (hbmAddr st place) x.len
      let w := hbmWrite s st place img 10 0xFFFF
      if w.2 ≠ 0 then failLoad w.1 k stError 0x0505 noField
      else setPhase (modSlot w.1 k (fun x => { x with image := img })) k 2
  | none => s

def execPlatFetchDone (k : Nat) (ok : Bool) (image : Bytes) (s : State) : Res := .next (platFetchDone s k ok image)

/-- The first failure of phases B to E for the image in slot `k` (R184, R185). -/
def checkImage (s : State) (k : Nat) (img : Bytes) (len handle : Nat) : Verdict3 :=
  match phaseB s img len with
  | some v => some v
  | none => match firstFail [phaseC1 s (imgSigned img), phaseC23 s img, phaseC4 s (imgSigned img) (fld img 18 2)] with
    | some v => some v
    | none => match phaseD s img with
      | some v => some v
      | none => phaseE s img k (platOf img handle)

/-- PLAT_CHECK_DONE (R188): phases B to E end; a plat that passes is staged and waits for the Gauntlet (R618). -/
def platCheckDone (s : State) (k : Nat) : State :=
  match slotOf s k with
  | some x =>
    if slotPhase s k ≠ 2 ∨ halted s = true then s
    else match checkImage s k x.image x.len x.handle with
      | some v => failLoad s k v.1 v.2.1 v.2.2
      | none =>
        let p := platOf x.image x.handle
        let n := s.plats.nextOrder
        let s := modSlot s k (fun x => { x with plat := some p, staged := true, order := n })
        let s := { s with plats := { s.plats with nextOrder := n + 1 } }
        setF (setPhase s k 3) F.PLAT_SLOT_STAT_OWNER (platO k) p.owner
  | none => s

def execPlatCheckDone (k : Nat) (s : State) : Res := .next (platCheckDone s k)

/-- GAUNTLET_ADMIT (R186, R339, R340): the plat that finished phase E first is admitted, or rejected with the reason of its
first rejected traverse. -/
def gauntletAdmit (s : State) (k : Nat) : State :=
  match (slotOf s k).bind (fun x => x.plat.map (fun p => (x, p))) with
  | some (x, p) =>
    let turn := s.plats.slots.all (fun e => e.1 == k || !e.2.staged || decide (x.order < e.2.order) ||
      decide (3 < slotPhase s e.1) || admitted s e.2.handle)
    if slotPhase s k ≠ 3 ∨ admitted s p.handle = true ∨ turn = false ∨ halted s = true then s
    else match admitTravs s p (countedTravs s) p.travs with
      | (_, some (t, r, b)) => failLoad (rejectTrav s t r b) k stRejected r noField
      | (rs, none) => takeBanks (refreshGnt { s with plats := { s.plats with resv := s.plats.resv ++ rs } })
  | none => s

def execGauntletAdmit (k : Nat) (s : State) : Res := .next (gauntletAdmit s k)

/-- The units of a list are zeroed when every pseudo-channel of their stacks runs and no slice is still in the engine. -/
def zeroReady (s : State) (slices units : List (Nat × Nat)) : Bool :=
  slices.all (fun x => (Tbl.get? (x.1 * 16 + x.2) s.srm.zeroing).isNone) && units.all (fun x => (stuckPcs s x.1).isEmpty)

/-- Units of HBM become zero. -/
def zeroUnits (s : State) (us : List (Nat × Nat)) : State := us.foldl (fun s (x : Nat × Nat) => zeroUnit s x.1 x.2) s

/-- PRELOAD_DONE (R187, R189, R194): banks written and regions zeroed, the slot is READY. -/
def preloadDone (s : State) (k : Nat) : State :=
  match (slotOf s k).bind (·.plat) with
  | some p =>
    if slotPhase s k ≠ 4 ∨ halted s = true ∨ zeroReady s (zeroParts s p 1 false) (zeroParts s p 2 false) = false then s
    else
      let s := modSlot (zeroUnits s (zeroParts s p 2 false)) k (fun x => { x with readyAt := s.now })
      raise (setPhase s k 5) F.PLAT_EVENT_STAGED 0
  | none => s

def execPreloadDone (k : Nat) (s : State) : Res := .next (preloadDone s k)

/-- The slices or units of a kind that a slot's first COMMIT left to zero (R194). -/
def PlatSlot.dueOf (x : PlatSlot) (kind : Nat) : List (Nat × Nat) := (x.due.filter (fun e => e.1 == kind)).map (fun e => e.2)

/-- REPLACE_ZEROING_DONE (R194): the memory that the removed plat held is zero; the next COMMIT activates. -/
def replaceZeroingDone (s : State) (k : Nat) : State :=
  match slotOf s k with
  | some x =>
    if x.twoCommit ≠ 1 ∨ zeroReady s (x.dueOf 1) (x.dueOf 2) = false then s
    else modSlot (zeroUnits s (x.dueOf 2)) k (fun x => { x with twoCommit := 2, due := [] })
  | none => s

def execReplaceZeroingDone (k : Nat) (s : State) : Res := .next (replaceZeroingDone s k)

/-! ### Activation (R190, R191, R176, R90 to R92) -/

/-- PLAT_ACT_A and B, PLAT_COUNT.ACTIVE and FAB_STAT.TILES_ACTIVE follow the active plats. -/
def showActive (s : State) : State :=
  let s := (List.range 256).foldl (fun s j =>
    let o := platO j
    match s.plats.active[j]? with
    | some p =>
      let s := setF (setF (setF s F.PLAT_ACT_A_HANDLE o p.handle) F.PLAT_ACT_A_OWNER o p.owner) F.PLAT_ACT_A_SIGNED o (if p.signed then 1 else 0)
      let s := setF (setF (setF s F.PLAT_ACT_A_KEY_SLOT o p.keySlot) F.PLAT_ACT_A_VALID o 1) F.PLAT_ACT_A_SVN o p.svn
      setF s F.PLAT_ACT_B_PLAT_ID o p.platId
    | none =>
      let s := setF (setF (setF s F.PLAT_ACT_A_HANDLE o 0) F.PLAT_ACT_A_OWNER o 0) F.PLAT_ACT_A_SIGNED o 0
      let s := setF (setF (setF s F.PLAT_ACT_A_KEY_SLOT o 0) F.PLAT_ACT_A_VALID o 0) F.PLAT_ACT_A_SVN o 0
      setF s F.PLAT_ACT_B_PLAT_ID o 0) s
  let s := setF s F.PLAT_COUNT_ACTIVE 0 s.plats.active.length
  (List.range 8).foldl (fun s d =>
    setF s F.FAB_STAT_TILES_ACTIVE (dieO d)
      ((List.range 64).filter (fun t => getF s F.FAB_TILE_BANK_ACTIVE_HANDLE (tileO (d * 64 + t)) != 0)).length) s

/-- The banks of a plat's tiles swap (R190). -/
def swapBanks (s : State) (p : Plat) : State :=
  (runTiles s p).foldl (fun s t =>
    let o := tileO t
    let s := setF s F.FAB_TILE_BANK_ACTIVE_BANK o (1 - getF s F.FAB_TILE_BANK_ACTIVE_BANK o)
    addF (setF s F.FAB_TILE_BANK_ACTIVE_HANDLE o p.handle) F.FAB_STAT_SWAPS (dieO (t / 64)) 1) (showShadow s p false)

/-- A stake entry takes a STAKE record and is armed (R87, R90, R176). -/
def armStake (s : State) (h n : Nat) (k : StakeRec) : State :=
  let o := stakeO n
  let s := setF (setF s F.BMK_STAKE_VAL_VALUE o k.value) F.BMK_STAKE_CTL_GLOBAL o (if k.isGlobal then 1 else 0)
  let s := setF (setF s F.BMK_STAKE_CTL_SOURCE o k.source) F.BMK_STAKE_CTL_TRAVERSE o k.trav
  let s := setF (setF s F.BMK_STAKE_CTL_REPEAT_EN o (if k.rep then 1 else 0)) F.BMK_STAKE_CTL_REPEAT_LOG2 o k.repLog2
  let s := setF (setF (setF s F.BMK_STAKE_CTL_LOST o 0) F.BMK_STAKE_CTL_FIRE_COUNT o 0) F.BMK_STAKE_CTL_PERIODS o 0
  let s := setF s F.BMK_STAKE_CTL_ARMED o 1
  let s := modBmk s (fun b => { b with firings := Tbl.del n b.firings })
  { s with plats := { s.plats with stakes := Tbl.put n h s.plats.stakes } }

/-- The horizon of a stake as die `d` sees it: G, or the source's, which its ingest die knows at once (R88). -/
def stakeView (s : State) (n d : Nat) : Nat :=
  if isSet s F.BMK_STAKE_CTL_GLOBAL (stakeO n) then Tbl.getD s.bmk.view d 0
  else
    let src := getF s F.BMK_STAKE_CTL_SOURCE (stakeO n)
    if dieOfPort (getF s F.BMK_SRC_STAT_PORT (srcO src)) = d then srcHzn s src else Tbl.getD s.bmk.srcView (d * 1024 + src) 0

/-- A stake fires at its activation when its horizon has already passed (R90) or its source is CLOSED (R92, R191). -/
def fireAtActivation (s : State) (n : Nat) : State :=
  let src := getF s F.BMK_STAKE_CTL_SOURCE (stakeO n)
  match stakeDie s n with
  | some d =>
    if isSet s F.BMK_STAKE_CTL_GLOBAL (stakeO n) = false ∧ srcState s src = srcClosed then
      fireStake s n d (srcHzn s src) (some (Tbl.getD s.bmk.closeRsn src rsnPort))
    else if isSet s F.BMK_STAKE_CTL_GLOBAL (stakeO n) = false ∧ srcState s src = srcFree then s
    else if getF s F.BMK_STAKE_VAL_VALUE (stakeO n) < stakeView s n d then fireStake s n d (stakeView s n d) none
    else s
  | none => s

/-- The lowest free stake entries. -/
def freeStakeEntries (s : State) (n : Nat) : List Nat :=
  ((List.range 2048).filter (fun i => (Tbl.get? i s.plats.stakes).isNone)).take n

/-- The plat in slot `k` activates (R190, R191): its banks swap, its numbers take the next GEN with TSEQ from 0, its stakes are
armed and its LOAD_PLAT completes OK. -/
def activatePlat (s : State) (k : Nat) : State :=
  match (slotOf s k).bind (fun x => x.plat.map (fun p => (x, p))) with
  | some (x, p) =>
    let ts := p.travs.map (·.num)
    let s := swapBanks s p
    let gen := ts.foldl (fun g t => Tbl.put t ((Tbl.getD g t 0 + 1) % 65536) g) s.plats.gen
    let s := { s with plats := { s.plats with active := s.plats.active ++ [p], gen := gen },
                      dst := { s.dst with tseq := s.dst.tseq.filter (fun (e : Nat × Nat) => !ts.contains (e.1 / 32)) } }
    let es := freeStakeEntries s p.stakes.length
    let s := (es.zip p.stakes).foldl (fun s (e : Nat × StakeRec) => armStake s p.handle e.1 e.2) s
    let s := loadCompletes s x.ring x.cq x.tag x.handle stOk 0 (getF s F.BMK_EPOCH_EPOCH 0)
    let s := freeSlot (setPhase s k 0) k
    let s := raise (showActive s) F.PLAT_EVENT_ACTIVATED 0
    takeBanks (es.foldl fireAtActivation s)
  | none => s

/-! ### Removal (R192) -/

/-- Results of picked traverses that wait at destination units are not emitted (R345). -/
def dropResults (s : State) (p : Nat → Bool) : State :=
  let row := fun (r : Result) => !p r.trav
  let keep := fun (c : Compl) => c.kind == 0 || !p c.trav
  let d := { s.dst with cw := s.dst.cw.map (fun (e : Nat × List Compl) => (e.1, e.2.filter keep)),
                        hbw := s.dst.hbw.map (fun (e : Nat × List Result) => (e.1, e.2.filter row)),
                        pinQ := s.dst.pinQ.map (fun (e : Nat × List Result) => (e.1, e.2.filter row)),
                        outs := s.dst.outs.filter (fun (o : Nat × Nat × Nat) => !p o.1) }
  { s with dst := d,
           ports := s.ports.map (fun (e : Nat × Port) => (e.1, { e.2 with trigs := e.2.trigs.filter (fun t => row t.res) })),
           twn := { s.twn with hold := s.twn.hold.map (fun (e : Nat × List (Result × Nat)) => (e.1, e.2.filter (fun x => row x.1))) } }

/-- The requests of removed traverses are still served, and their replies discarded on delivery (R318 step 4). -/
def disownRequests (s : State) (p : Nat → Bool) : State :=
  let mark := fun (r : MemReq) => if p r.trav then { r with dead := true } else r
  let s := s.fab.outb.foldl (fun s (e : Nat × List OutEnt) => setOut s e.1 (e.2.map (fun x => match x.work with
    | .copies _ _ => x
    | .leaving r => { x with work := .leaving (mark r) }
    | .outstanding r t => { x with work := .outstanding (mark r) t }))) s
  let s := { s with srm := { s.srm with chs := s.srm.chs.map (fun (e : Nat × SrmCh) => (e.1, { e.2 with queue := e.2.queue.map mark })) } }
  { s with hbm := { s.hbm with spcs := s.hbm.spcs.map (fun (e : Nat × Spc) => (e.1, { e.2 with reqs := e.2.reqs.map mark })),
                               fills := s.hbm.fills.map (fun f => { f with req := f.req.map mark }) } }

/-- Open invocations of picked traverses complete ABORTED with TRAVERSE_REMOVED, unless a failure came first (R28, R192). -/
def abortInvs (s : State) (p : Nat → Bool) (status reason : Nat) : State :=
  s.fab.invs.foldl (fun s (e : Nat × Inv) =>
    if p e.2.trav && !e.2.done then
      let o := match e.2.mark with
        | some m => m
        | none => e.2.squash.getD (status, reason)
      endInv s e.2 o.1 o.2
    else s) s

/-- What the fabric holds of picked traverses is discarded (R192 step 2). -/
def discardTravs (s : State) (p : Nat → Bool) : State :=
  let s := purgeTiles s (fun t _ => p t) true false true
  let s := disownRequests (dropResults (purgeTravel s (fun t _ => p t) true) p) p
  let s := modFab s (fun b => { b with fails := b.fails.filter (fun f => !p f.trav), freed := b.freed.filter (fun f => !p f.1),
                                       lostFrom := b.lostFrom.filter (fun f => !p f.1) })
  modBmk s (fun b => { b with lastHzn := b.lastHzn.filter (fun e => !p (e.1 / 8)) })

/-- The stakes of a plat are disarmed and their entries freed (R192 step 4). -/
def freeStakesOf (s : State) (h : Nat) : State :=
  let mine := s.plats.stakes.filter (fun (e : Nat × Nat) => e.2 == h)
  let s := mine.foldl (fun s (e : Nat × Nat) => setF s F.BMK_STAKE_CTL_ARMED (stakeO e.1) 0) s
  { s with plats := { s.plats with stakes := s.plats.stakes.filter (fun (e : Nat × Nat) => e.2 != h) } }

/-- An active plat is removed (R192). -/
def removePlat (s : State) (h : Nat) : State :=
  match s.plats.active.find? (fun p => p.handle == h) with
  | some p =>
    let ts := p.travs.map (·.num)
    let hit := fun t => ts.contains t
    let s := abortInvs (discardTravs s hit) hit stAborted 0x0524
    let s := freeStakesOf s h
    let s := (runTiles s p).foldl (fun s t => setF s F.FAB_TILE_BANK_ACTIVE_HANDLE (tileO t) 0) s
    let s := { s with plats := { s.plats with active := s.plats.active.filter (fun q => q.handle != h) } }
    let s := withdraw s (fun r => r.handle == h)
    showActive (ts.foldl (fun s t => setF s F.GNT_TRAV_A_WITHDRAWN (gntO t) 0) s)
  | none => s

/-! ### The plats' part of a COMMIT (R94 step 5, R190, R192, R194) -/

/-- A COMMIT removes an active plat (R192): PLAT_EVENT.REMOVED. -/
def commitRemoval (s : State) (h : Nat) : State :=
  if s.plats.active.any (fun p => p.handle == h) then raise (removePlat s h) F.PLAT_EVENT_REMOVED 0 else s

/-- The pending removals take place. -/
def commitUnloads (s : State) : State :=
  let us := s.plats.unloads
  let s := { s with plats := { s.plats with unloads := [] } }
  us.foldl (fun s (u : Nat × Nat × Nat × Nat) =>
    complete (commitRemoval s u.1) u.2.1 u.2.2.2 u.2.2.1 0x11 stOk 0 0 (getF s F.BMK_EPOCH_EPOCH 0)) s

/-- One READY slot is re-checked: its plat activates, or, before its second COMMIT, the replaced plat is removed, or it fails.
A plat that reached READY in the fc of COMMIT waits for the next switch (R197). -/
def commitSlot (s : State) (k : Nat) : State :=
  match (slotOf s k).bind (fun x => x.plat.map (fun p => (x, p))) with
  | some (x, p) =>
    if x.twoCommit = 1 ∨ x.readyAt = s.now then s
    else match recheck s x.image k p with
      | some v =>
        let s := if v.2.1 = 0x050B ∨ v.2.1 = 0x050E then raise s F.PLAT_EVENT_POLICY_FAIL 0 else s
        failLoad s k v.1 v.2.1 v.2.2
      | none =>
        if x.twoCommit = 0 ∧ needsTwo s p = true then
          let slices := zeroParts s p 1 true
          let due := slices.map (fun e => (1, e)) ++ (zeroParts s p 2 true).map (fun e => (2, e))
          let old := (s.plats.active.filter (fun q => q.handle == p.replaces)).flatMap (fun q => q.travs.map (·.num))
          let s := modSlot s k (fun x => { x with twoCommit := 1, reserved := old, due := due })
          startSlices (commitRemoval s p.replaces) slices 0
        else activatePlat (if p.replace then commitRemoval s p.replaces else s) k
  | none => s

/-- The plats' part of a COMMIT: removals, then the READY slots in order of admission. -/
def commitPlats (s : State) : State :=
  let s := commitUnloads s
  (slotsByOrder s 5).foldl (fun s (e : Nat × PlatSlot) => commitSlot s e.1) s

/-! ### Indirect access to tiles (R258, R515) -/

/-- Whether a tile counts as enabled for S-class fields: it holds an active plat or a plat in its shadow bank. -/
def tileEnabled (s : State) (t : Nat) : Bool :=
  getF s F.FAB_TILE_BANK_ACTIVE_HANDLE (tileO t) != 0 || isSet s F.FAB_TILE_BANK_SHADOW_LOADED (tileO t)

/-- The plat whose micro-programs the shadow bank of a tile holds. -/
def shadowPlat (s : State) (t : Nat) : Option Plat :=
  s.plats.slots.findSome? (fun e => e.2.plat.filter (fun p => decide (4 ≤ slotPhase s e.1) && (runTiles s p).contains t))

/-- Offset, space and step of an access. -/
def fabIndOff (s : State) (t : Nat) : Nat := getF s F.FAB_IND_ADDR_OFFSET (tileO t) / 8 * 8

/-- OFFSET rises by 8 after an access under AUTO_INC. -/
def fabIndStep (s : State) (t : Nat) : State :=
  if isSet s F.FAB_IND_ADDR_AUTO_INC (tileO t) then addF s F.FAB_IND_ADDR_OFFSET (tileO t) 8 else s

/-- The tile whose memory an access of tile `t` reaches on die `d`. -/
def tileOn (t d : Nat) : Nat := d * 64 + t % 64

/-- An instruction word of a bank: a word that no plat has written there is a free value (log entry 5). -/
def bankWord (s : State) (code : List Nat) (i : Nat) : State × Nat :=
  match code[i]? with
  | some w => (s, w)
  | none => let f := fresh s 64; (f.2, f.1)

/-- A read of FAB_IND_DATA. -/
def fabIndRead (s : State) (t : Nat) : State × Nat :=
  let off := fabIndOff s t
  let sp := getF s F.FAB_IND_ADDR_SPACE (tileO t)
  let u := tileOn t (readDie s (t / 64))
  let g := u * 64 + off / 256 % 64
  let r := if sp = 0 then (s, (rdWord s 0 (u * 0x200000 + off)).toNat)
    else if sp = 1 then bankWord s (if off < 0x4000 then cellCode s g else []) (off % 256 / 8)
    else if sp = 2 then
      bankWord s (if off < 0x4000 then ((shadowPlat s u).map (fun p => p.code (homeTile s u * 64 + off / 256 % 64))).getD [] else []) (off % 256 / 8)
    else (s, 0)
  (fabIndStep r.1 t, r.2)

/-- A write of FAB_IND_DATA by `fn` (R258); a refused one that leaves the word as it stands logs nothing (R617). -/
def fabIndWrite (s : State) (fn t v : Nat) : State :=
  let off := fabIndOff s t
  let sp := getF s F.FAB_IND_ADDR_SPACE (tileO t)
  let same := rdWord s 0 (tileOn t (readDie s (t / 64)) * 0x200000 + off) == BitVec.ofNat 64 v
  let s' := if sp ≠ 0 then logC s (t / 64) rsnIgnored fn t (F.FAB_IND_DATA_DATA.base + tileO t)
    else if tileEnabled s t && !(cellCode s (t * 64 + off / 0x8000)).isEmpty then
      (if same then s else logWWR s fn (F.FAB_IND_DATA_DATA.base + tileO t))
    else (mirrorDies s (t / 64)).foldl (fun s d => wrWord s 0 (tileOn t d * 0x200000 + off) (BitVec.ofNat 64 v)) s
  fabIndStep s' t

/-- FAB_IND_DATA_WRITE (R258). -/
def execFabIndDataWrite (fn t v : Nat) (s : State) : Res :=
  .next (if silentZero s (F.FAB_IND_DATA_DATA.base + tileO t) then s else fabIndWrite s fn t v)

/-- FAB_IND_DATA_READ (R258). -/
def execFabIndDataRead (_fn t : Nat) (s : State) : Res :=
  .next (if silentZero s (F.FAB_IND_DATA_DATA.base + tileO t) then answer s 0 0 else let r := fabIndRead s t; answer r.1 0 r.2)

end Sys2Proof.Machine
end

