-- ==== Sys2Proof/Machine/Dest.lean ====
section
/-! DEFINITION. Collectors, the destination units of rows, and the measurement of outputs against their deadlines
(06_operators.md R293 to R296; 08_timing_promise.md R327 to R338, R342, R343; 15_twin_power.md R519 to R525). -/

namespace Sys2Proof.Machine

/-! ### Suspension (R342) -/

/-- The spans in which a condition held, cut to the fc after `a` and up to `e`. -/
def spansIn (s : State) (key a e : Nat) : List (Nat × Nat) :=
  (Tbl.getD s.dst.susp key []).filterMap (fun x =>
    if max x.1 a < min x.2 e then some (max x.1 a, min x.2 e) else none)

/-- The fc that a list of spans covers, each counted once; spans are taken in order of their start. -/
def coverage : (upTo : Nat) → List (Nat × Nat) → Nat
  | _, [] => 0
  | u, x :: t => (x.2 - max u x.1) + coverage (max u x.2) t

/-- The fc covered by spans in any order. -/
def covered' (l : List (Nat × Nat)) : Nat := coverage 0 (sortBy (fun a b => decide (a.1 ≤ b.1)) l)

/-- The memory regions that a traverse's nodes and requests name. -/
def travRegions (p : Plat) (v : Trav) : List Nat :=
  v.nodes.map (·.region) ++ v.cells.flatMap (fun g => (p.code g).filterMap (fun w =>
    if iOp w = 0x78 ∨ iOp w = 0x79 then some (bits (iImm w) 0 16) else none))

/-- The keys of the channels to which the regions of a traverse map; a pseudo-channel that the interleave skips holds nothing. -/
def memKeys (s : State) (p : Plat) (v : Trav) : List Nat :=
  let rs := travRegions p v
  (p.parts.filter (fun r => rs.contains r.region)).flatMap (fun r =>
    (if pairLive s (r.die / 2) then [r.die, r.die + 1] else [r.die]).flatMap (fun d =>
      if r.kind = 1 then (List.range r.count).map (fun i => suspSrm d (r.first + i))
      else ((List.range 32).filter (fun c => !(skipOn s d && getF s F.HBM_STACK_CTL_SKIP_PC (dieO d) == c))).map (fun c => suspPc d c)))

/-! ### Emission and breach (R327, R329, R343) -/

/-- Destination codes of DETAIL [47:44] (R343). -/
def outRing : Nat := 0
def outBuffer : Nat := 1
def outTrigger : Nat := 2
def outPin : Nat := 3
def outEnd : Nat := 4

/-- ceil(log2 n). -/
def clog2 (n : Nat) : Nat := if n ≤ 1 then 0 else Nat.log2 (n - 1) + 1

/-- M of R329 for an invocation of `n` rows. -/
def sortTerm (v : Trav) (n : Nat) : Nat :=
  (v.nodes.filter (fun k => k.op == opSort || k.op == opTopk)).foldl (fun m k => m + ceilDiv (n * max 1 (clog2 n)) (sortUnits k)) 0

/-- Whether a fault has ended a context's measurement: it completes MEM_FAULT or FENCED (R342). A source stream never completes. -/
def unmeasured (s : State) (trav ctx : Nat) : Bool :=
  let bad := fun (st : Nat) => st == stMemFault || st == stFenced
  if ctxKind ctx = 1 then ((Tbl.get? (ctxInvNum ctx) s.fab.invs).bind (·.mark)).elim false (fun m => bad m.1)
  else if ctxKind ctx = 0 then false
  else (markOf s trav ctx).elim false (fun f => bad f.status)

/-- The outputs of a traverse with an acceptance stamp that have been emitted (R329). -/
def outputsOf (s : State) (trav acc : Nat) : Nat :=
  ((s.dst.outs.find? (fun o => o.1 == trav && o.2.1 == acc)).map (fun o => o.2.2)).getD 0

/-- One more output is emitted; stamps that lie 2^31 fc back are no longer told apart (R328) and are forgotten. -/
def countOutput (s : State) (trav acc : Nat) : State :=
  let n := outputsOf s trav acc
  let old := s.dst.outs.filter (fun o => !(o.1 == trav && o.2.1 == acc) && decide (subMod 32 (wall s % 2 ^ 32) o.2.1 < 2 ^ 31))
  { s with dst := { s.dst with outs := (trav, acc, n + 1) :: old } }

/-- The breach records of R343. -/
def recordBreach (s : State) (trav dest aux late : Nat) : State :=
  let o := gntO trav
  let s := satF s F.GNT_STAT_BREACHES 0 1
  let s := satF s F.GNT_TRAV_C_BREACHES o 1
  let s := maxF s F.GNT_TRAV_C_WORST_LATE_FC o (min late (2 ^ 32 - 1))
  let s := raise s F.GNT_EVENT_BREACH 0
  let ep := getF s F.BMK_EPOCH_EPOCH 0
  if Tbl.get? trav s.plats.breachEpoch = some ep then s
  else
    let s := { s with plats := { s.plats with breachEpoch := Tbl.put trav ep s.plats.breachEpoch } }
    if !isSet s F.GNT_CTL_LOG_EN 0 then s
    else logD s ((activeTrav s trav).elim 15 (fun pv => travDie pv.2)) 0x080B (travOwner s trav) trav
      (dest * 2 ^ 44 + aux * 2 ^ 40 + min late (2 ^ 40 - 1))

/-- An output of a traverse is emitted now: `acc` is its acceptance stamp, `rows` the rows of its invocation (0 for streams and
stakes), `spans` the fc in which it was suspended besides its memory. The second component tells a breach, of which its invocation
takes note (R343). -/
def emission (s : State) (trav ctx acc dest aux rows : Nat) (spans : List (Nat × Nat)) : State × Bool :=
  match activeTrav s trav with
  | none => (s, false)
  | some (p, v) =>
    match s.plats.resv.find? (fun r => r.trav == trav && r.handle == p.handle) with
    | none => (s, false)
    | some r =>
      if unmeasured s trav ctx then (s, false)
      else
        let e := wall s
        let age := subMod 32 (e % 2 ^ 32) acc
        let a := e - age
        let j := outputsOf s trav acc + 1
        let ntok := if rows = 0 then 1 else ceilDiv rows 8
        let susp := covered' (spans ++ (memKeys s p v).flatMap (fun k => spansIn s k a e))
        let limit := (p.cert trav).bound + (ntok + j - 2) * r.pace + (if rows = 0 then 0 else sortTerm v rows) + susp
        let s := countOutput s trav acc
        if limit < age then
          let s := recordBreach s trav dest aux (age - limit)
          (if ctxKind ctx = 1 then modInv s (ctxInvNum ctx) (fun i => { i with late := true }) else s, true)
        else (s, false)

/-- The fc since an acceptance stamp, as a span start. -/
def accFc (s : State) (acc : Nat) : Nat := wall s - subMod 32 (wall s % 2 ^ 32) acc

/-! ### Rows -/

/-- DEST of a row's EMIT node (R266). -/
def Result.dest (r : Result) : Nat := byteAt r.param 0

/-- WORDS of a row's EMIT node. -/
def Result.words (r : Result) : Nat := min 8 (byteAt r.param 1)

/-- Lane `i` of a row as its destination takes it: lanes at or above WORDS are null (R293). -/
def Result.lane (r : Result) (i : Nat) : Lane := if i < r.words then r.lanes.get i else none

/-- The value sent for a lane: 0 when null (R293). -/
def Result.word (r : Result) (i : Nat) : Nat := (laneVal (r.lane i)).toNat

/-- The view of G of a traverse's die (R294). -/
def travView (s : State) (trav : Nat) : Nat :=
  match activeTrav s trav with
  | some (_, v) => Tbl.getD s.bmk.view (travDie v) 0
  | none => hznG s

/-- STAMP of a row: lane STAMP_LANE, or the view of G when it is 0xFF or null (R294). -/
def rowStamp (s : State) (r : Result) : Nat :=
  let k := byteAt r.param 2
  match (if k = 0xFF then none else r.lanes.get (k % 8)) with
  | some x => x.toNat
  | none => travView s r.trav

/-- The open invocation of a row. -/
def rowInv (s : State) (r : Result) : Option Inv :=
  if ctxKind r.ctx = 1 then Tbl.get? (ctxInvNum r.ctx) s.fab.invs else none

/-- The host port of a row: that of its invocation's ring, else of its traverse's owner (R38). -/
def rowPort (s : State) (r : Result) : Nat := ((rowInv s r).map (·.port)).getD (pfOf (travOwner s r.trav))

/-- The ring that a row's RING field names: for a stream or stake row, of the traverse's owner (R293, R459). -/
def rowRing (s : State) (r : Result) : Option Nat := namedRing s (travOwner s r.trav) (fld r.param 9 2)

/-- The completion ring of a RING row. -/
def rowCq (s : State) (r : Result) : Option Nat :=
  if ctxKind r.ctx = 1 then (rowInv s r).map (·.cq) else rowRing s r

/-- The port of a TRIGGER row: PORT, or that of its source for 0xFF (R58, R294). DESIGN CHOICE, log entry 72: the spec names no
port for a row of a global-horizon context, which has no single source; the model takes that of source number (context mod
1,024), which for it is source 0. -/
def rowTrigPort (s : State) (r : Result) : Nat :=
  let p := byteAt r.param 6
  if p = 0xFF then getF s F.BMK_SRC_STAT_PORT (srcO (r.ctx % 1024)) else p % 16

/-! ### Destination queues -/

/-- The largest N_dest of a unit numbered as GNT_DEST is (R338): what its queue holds. -/
def destRoom (k : Nat) : Nat := if k < 2 then 16384 else if k < 4 then 8192 else 1024

/-- PI and CI of a completion ring differ by its size (R464). -/
def cqFull (s : State) (cq : Nat) : Bool :=
  subMod 32 (getF s F.RING_CQ_IDX_PI (ringO cq)) (getF s F.RING_CQ_IDX_CI (ringO cq)) ==
    2 ^ getF s F.RING_CQ_CFG_SIZE_LOG2 (ringO cq)

/-- Whether the completion writer takes no further result for a ring: it is full, and its overflow area of 256 entries too
(R463). -/
def cqBlocked (s : State) (cq : Nat) : Bool :=
  isSet s F.RING_CQ_CTL_ENABLE (ringO cq) && decide (256 ≤ (ringOf s cq).ovf.length) && cqFull s cq

/-- Whether a row's destination cannot take it now (R314, R338, R342). -/
def rowHeld (s : State) (r : Result) : Bool :=
  if r.poisoned then false
  else match r.dest with
    | 0 => (rowCq s r).elim false (fun cq => cqBlocked s cq ||
        decide (destRoom 0 ≤ (Tbl.getD s.dst.cw (ringPort s cq) []).length))
    | 1 => decide (destRoom 2 ≤ (Tbl.getD s.dst.hbw (rowPort s r) []).length)
    | 2 => decide (destRoom 4 ≤ (portOf s (rowTrigPort s r)).trigs.length)
    | _ => false

/-- A port has too little VC2 credit for the TRIGGER at the head of its queue (R342). -/
def portSuspends (s : State) (p : Nat) : Bool :=
  match (portOf s p).trigs with
  | t :: _ => decide (txFree s p 2 < creditsOf t.frame.length)
  | [] => false

/-- Whether a row's destination suspends the collector that R314 holds for it (R342): a full ring, or the full queue of a port
without VC2 credit. -/
def rowSuspends (s : State) (r : Result) : Bool :=
  rowHeld s r && (match r.dest with
    | 0 => (rowCq s r).elim false (cqBlocked s)
    | 2 => portSuspends s (rowTrigPort s r)
    | _ => false)

/-- Whether a collector is held by the destination of a row it has (R314, R463). -/
def collHeld (s : State) (tile : Nat) : Bool := (collRows s tile).any (rowHeld s)

/-- The occupancy of a unit numbered as GNT_DEST is. -/
def destOcc (s : State) (k n : Nat) : State := maxF s F.GNT_DEST_OCC_HIGH (k * 8) n

/-- A row that crosses to the die of its destination unit may meet an edge that is not UP (R63). -/
def rowLost (s : State) (r : Result) (d : Nat) : Option (Nat × Nat) := firstLost s (routeDies r.die d)

/-- A row as a token, for the mark of a message that cannot be delivered. -/
def Result.token (r : Result) : Token := ⟨r.trav, 0, .data, r.ctx, r.seq, r.lanes, r.acc⟩

/-! ### Twin numbers and digests (R519, R525) -/

/-- GEN of a traverse (R142, R191). -/
def genOf (s : State) (trav : Nat) : Nat := Tbl.getD s.plats.gen trav 0 % 2 ^ 16

/-- The next TWSEQ of a row's stream at its die, taken (R519). -/
def takeTwseq (s : State) (r : Result) : State × Nat :=
  let g := genOf s r.trav
  let is := fun (e : Nat × Nat × Nat × Nat × Nat) => e.1 == r.die && e.2.1 == r.trav && e.2.2.1 == g && e.2.2.2.1 == r.ctx
  let n := ((s.twn.twseq.find? is).map (fun e => e.2.2.2.2)).getD 0
  ({ s with twn := { s.twn with twseq := (r.die, r.trav, g, r.ctx, (n + 1) % 2 ^ 32) :: s.twn.twseq.filter (fun e => !is e) } }, n)

/-- The record of a row in its collector's digest (R525); kept while its pair is TWINNED. -/
def digestRow (s : State) (tile : Nat) (r : Result) (seq : Nat) : State :=
  if twinned s (r.die / 2) then
    let rec' := leBytes 2 r.trav ++ leBytes 1 r.dest ++ leBytes 1 r.lanes.mask ++ leBytes 4 seq ++ leBytes 8 r.ctx ++
      wordBytes (r.lanes.toList.map laneVal)
    { s with twn := { s.twn with recs := Tbl.put tile (Tbl.getD s.twn.recs tile [] ++ rec') s.twn.recs } }
  else s

/-- Whether a TWSEQ or TSEQ is newer than the last one (R143, R520). -/
def newer (t u : Nat) : Bool := let d := subMod 32 t u; decide (1 ≤ d ∧ d < 2 ^ 31)

/-- The last TWSEQ that unit `u` of a port has taken of a stream (R520): unit 0 the completion writer, 1 the host-buffer
writer, 2 the TRIGGER transmitter of a Transit port. -/
def lastTwOf (s : State) (port u trav gen ctx : Nat) : Option Nat :=
  (s.twn.lastTw.find? (fun e => e.1 == port * 4 + u && e.2.1 == trav && e.2.2.1 == gen && e.2.2.2.1 == ctx)).map (fun e => e.2.2.2.2)

/-- The last TWSEQ of a stream recorded. -/
def setLastTw (s : State) (port u trav gen ctx n : Nat) : State :=
  { s with twn := { s.twn with lastTw := (port * 4 + u, trav, gen, ctx, n) :: s.twn.lastTw.filter (fun e =>
      !(e.1 == port * 4 + u && e.2.1 == trav && e.2.2.1 == gen && e.2.2.2.1 == ctx)) } }

/-- A row copy at a host port's writer: the state with the copy judged, and whether it is written (R520). -/
def twinTake (s : State) (port u trav ctx : Nat) (twin : Option (Nat × Nat)) : State × Bool :=
  match twin with
  | none => (s, true)
  | some (g, t) =>
    match lastTwOf s port u trav g ctx with
    | none => (setLastTw s port u trav g ctx t, true)
    | some l =>
      if newer t l then
        let s := if 1 < subMod 32 t l then satF s F.TWN_DUP_GAPS (port * 8) 1 else s
        (setLastTw s port u trav g ctx t, true)
      else (satF s F.TWN_DUP_DROPPED (port * 8) 1, false)

/-! ### COLLECTOR_TAKE (R337) -/

/-- A POISONED row is dropped (R367). -/
def dropPoisoned (s : State) (r : Result) : State :=
  markPoison (raise (satF s F.SRM_STAT_POISON_DROPPED (dieO r.die) 1) F.SRM_EVENT_POISON_DROP (dieO r.die)) r.trav r.ctx

/-- A RING row goes to the completion writer as an INV_RESULT or STREAM_RESULT (R293, R457 to R459). A ring number that names
no ring of the owner takes nothing. -/
def passRing (s : State) (tile : Nat) (r : Result) : State :=
  match rowCq s r with
  | none => s
  | some cq =>
    let d := ringPort s cq
    match rowLost s r d with
    | some e => undeliverable s r.die e r.token
    | none =>
      let i := rowInv s r
      let s := pushCompl s ⟨cq, if i.isSome then 1 else 2, stOk, 0, (i.map (·.tag)).getD r.trav, r.seq % 65536, some r.stamp,
        r.lane 0, r.lane 1, (i.map (·.sq)).getD 0, i.map (·.num), r.trav, r.ctx, r.acc, r.twin, spansIn s (suspColl tile) r.inFc (wall s),
        (i.map (·.rows)).getD 0, unmeasured s r.trav r.ctx⟩
      destOcc s d (Tbl.getD s.dst.cw d []).length

/-- A HOST_BUFFER row goes to the host-buffer writer of its port (R296). -/
def passBuffer (s : State) (r : Result) : State :=
  let d := rowPort s r
  match rowLost s r d with
  | some e => undeliverable s r.die e r.token
  | none =>
    let q := Tbl.getD s.dst.hbw d [] ++ [r]
    destOcc { s with dst := { s.dst with hbw := Tbl.put d q s.dst.hbw } } (2 + d) q.length

/-- A TRIGGER frame without its WALL field (R141, R294). -/
def trigFrame (s : State) (r : Result) (tseq : Nat) : Bytes :=
  let n := r.words
  let k := r.die / 2
  let flags := (if pairLive s k then 1 else 0) + (if pairLive s k && leadDie s k == r.die then 2 else 0)
  leBytes 1 0x30 ++ leBytes 1 flags ++ leBytes 2 (32 + 8 * n) ++ leBytes 2 r.trav ++ leBytes 2 (genOf s r.trav) ++ leBytes 4 tseq ++
    leBytes 2 (fld r.param 4 2) ++ leBytes 1 (byteAt r.param 3) ++ leBytes 1 n ++ leBytes 8 r.stamp ++ leBytes 8 0 ++
    (List.range n).flatMap (fun i => leBytes 8 (r.word i))

/-- A TRIGGER row joins the queue of its port, or is discarded and counted when the port is not UP in trace mode (R294). The
two dies of a pair number their copies alike (R521). -/
def passTrigger (s : State) (tile : Nat) (r : Result) : State :=
  let p := rowTrigPort s r
  let key := (r.trav * 16 + p) * 2 + (if pairLive s (r.die / 2) then r.die % 2 else 0)
  if link s p ≠ lkUp ∨ fedMode s p = true ∨ s.part.ports ≤ p then satF s F.FAB_EMIT_STAT_TRIG_DROPPED (dieO r.die) 1
  else match rowLost s r (dieOfPort p) with
    | some e => undeliverable s r.die e r.token
    | none =>
      let t := Tbl.getD s.dst.tseq key 0
      let s := digestRow { s with dst := { s.dst with tseq := Tbl.put key ((t + 1) % 2 ^ 32) s.dst.tseq } } tile r t
      let r := { r with twin := if pairLive s (r.die / 2) then some (genOf s r.trav, t) else none }
      let s := modPort s p (fun q => { q with trigs := q.trigs ++ [⟨trigFrame s r t, r⟩] })
      let s := if portSuspends s p then noteSusp s (suspPort p) else s
      destOcc s (4 + p) (portOf s p).trigs.length

/-- A TRIG_OUT row goes to the driving die, or on a pair's shadow to its hold queue of 1,024 rows (R522, R523). Of rows that leave their collectors in one CTL cycle (2 fc) the lower traverse number comes first (R298). -/
def passPin (s : State) (r : Result) : State :=
  let k := r.die / 2
  if pairLive s k && leadDie s k != r.die then
    let q := Tbl.getD s.twn.hold r.die []
    let s := if 1024 ≤ q.length then
        raise (satF s F.TWN_PAIR_HOLD_DISCARDED (k * 0x40) 1) F.TWN_EVENT_HOLD_OVERFLOW 0 else s
    let q := if 1024 ≤ q.length then q.drop 1 else q
    { s with twn := { s.twn with hold := Tbl.put r.die (q ++ [(r, wall s)]) s.twn.hold } }
  else
    let d := pinDie s
    match rowLost s r d with
    | some e => undeliverable s r.die e r.token
    | none =>
      let later := fun (q : Result) => q.outFc / 2 == r.outFc / 2 && decide (r.trav < q.trav)
      { s with dst := { s.dst with pinQ := Tbl.put d (insertTail later r (Tbl.getD s.dst.pinQ d [])) s.dst.pinQ } }

/-- The sequence number that a row of a live pair takes (R519, R525), with its traverse's generation. -/
def twinNumber (s : State) (r : Result) : State × Option (Nat × Nat) :=
  if pairLive s (r.die / 2) then ((takeTwseq s r).1, some (genOf s r.trav, (takeTwseq s r).2)) else (s, none)

/-- A stamped row goes to its destination. -/
def passStamped (s : State) (tile : Nat) (r : Result) : State :=
  if r.dest = 2 then passTrigger s tile r
  else if r.dest = 3 then passPin (digestRow s tile r 0) r
  else
    let tw := twinNumber s r
    let s := digestRow tw.1 tile r ((tw.2.map (·.2)).getD 0)
    if r.dest = 0 then passRing s tile { r with twin := tw.2 } else passBuffer s { r with twin := tw.2 }

/-- A row leaves its collector for its destination (R293, R519, R525). -/
def passRow (s : State) (tile : Nat) (r : Result) : State :=
  if r.poisoned then dropPoisoned s r else passStamped s tile { r with stamp := rowStamp s r, outFc := wall s }

/-- A control token reaches the front of a collector's queue: the invocation has its END from that cell, or the stream its
SOURCE_LOST (R337, R620). -/
def takeMark (s : State) (cell : Nat) (t : Token) : State :=
  if t.sub = 4 ∧ ctxKind t.ctx = 1 then modInv s (ctxInvNum t.ctx) (fun i => { i with endFrom := cell :: i.endFrom })
  else if t.sub = 2 then modFab s (fun b => { b with lostFrom := (t.trav, t.ctx, cell) :: b.lostFrom })
  else s

/-- The marks at the front of a queue, and what stands behind them. -/
def frontMarks : List CollItem → List Token × List CollItem
  | .mark t :: rest => let x := frontMarks rest; (t :: x.1, x.2)
  | l => ([], l)

/-- A collector takes the marks that have no result ahead of them; empty queues go. -/
def takeMarks (s : State) (tile : Nat) : State :=
  let qs := collOf s tile
  let s := qs.foldl (fun s (q : CollQ) => (frontMarks q.items).1.foldl (fun s t => takeMark s q.cell t) s) s
  let qs := (qs.map (fun (q : CollQ) => { q with items := (frontMarks q.items).2 })).filter (fun q => !q.items.isEmpty)
  { s with dst := { s.dst with colls := if qs.isEmpty then Tbl.del tile s.dst.colls else Tbl.put tile qs s.dst.colls } }

/-- The queue whose turn it is: the first at or above the round-robin place, else the first of all (R337). -/
def nextQueue (s : State) (tile : Nat) : Option Nat :=
  let qs := collOf s tile
  let rr := Tbl.getD s.dst.collRR tile 0
  match findIdx (fun (q : CollQ) => decide (rr ≤ q.cell)) qs with
  | some i => some i
  | none => if qs.isEmpty then none else some 0

/-- One result leaves the collector. -/
def takeOne (s : State) (tile : Nat) : State :=
  match nextQueue s tile with
  | none => s
  | some i =>
    match (collOf s tile)[i]? with
    | some ⟨_, cell, .row r :: rest⟩ =>
      let qs := modAt (fun (q : CollQ) => { q with items := rest }) (collOf s tile) i
      let s := { s with dst := { s.dst with colls := Tbl.put tile qs s.dst.colls,
                                            collRR := Tbl.put tile (cell + 1) s.dst.collRR } }
      takeMarks (passRow s tile r) tile
    | _ => s

/-- Up to `n` results leave the collector; a collector that a destination holds stalls (R314). -/
def takeResults : (n : Nat) → State → Nat → State
  | 0, s, _ => s
  | n + 1, s, tile => if collHeld s tile then s else takeResults n (takeOne s tile) tile

/-- COLLECTOR_TAKE (R337): up to 4 results in round-robin order. -/
def collectorTake (s : State) (tile : Nat) : State :=
  takeResults 4 (takeMarks s tile) tile

def execCollectorTake (tile : Nat) (s : State) : Res := .next (collectorTake s tile)

/-! ### Destination units -/

/-- The record of a HOST_BUFFER row (R296). -/
def rowRecord (r : Result) : Bytes :=
  let n := r.words
  let mask := (List.range 8).foldl (fun m i => if (r.lane i).isSome then m + 2 ^ i else m) 0
  leBytes 1 mask ++ leBytes 3 r.seq ++ leBytes 2 r.trav ++ [0, 0] ++ leBytes 8 r.stamp ++
    (List.range n).flatMap (fun i => leBytes 8 (r.word i))

/-- The fc for which a RING or HOST_BUFFER row was held back at its collector (R342). -/
def collSpans (s : State) (tile : Nat) (r : Result) : List (Nat × Nat) := spansIn s (suspColl tile) r.inFc r.outFc

/-- The collector of a row's traverse. -/
def rowTile (s : State) (r : Result) : Nat :=
  match activeTrav s r.trav with
  | some (_, v) => r.die * 64 + v.coll % 64
  | none => 0

/-- A write to host memory of a function that is not resetting (R505). -/
def hostWrite (s : State) (fn addr : Nat) (data : Bytes) (ro : Bool) : State :=
  if resetting s fn then s else emitOut s (.hostWrite (pfOf fn) fn addr data ro false)

/-- A record of an invocation (R296): written while its buffer takes it. -/
def invRecord (s : State) (r : Result) (i : Inv) : State :=
  let b := rowRecord r
  if i.bufFull || decide (i.bufLen < i.written + b.length) then
    markFail (modInv s i.num (fun j => { j with bufFull := true })) i.trav r.ctx stOutputFull 0x0623
  else
    let s := hostWrite s i.fn (i.buf + i.written) b (mayRelax s i.fn)
    let s := modInv s i.num (fun j => { j with written := j.written + b.length })
    (emission s r.trav r.ctx r.acc outBuffer 0 i.rows (collSpans s (rowTile s r) r)).1

/-- A posted buffer completes (R456, R458). -/
def bufferDone (s : State) (ring : Nat) (b : PostBuf) (status reason : Nat) : State :=
  let s := modRing s ring (fun q => { q with posted := q.posted.drop 1 })
  complete s ring b.cq b.tag 0x03 status reason b.written b.records

/-- Posted buffers that a record does not fit complete, oldest first; what is left begins with one that takes it (R456). -/
def makeRoom : (n : Nat) → State → (ring len : Nat) → State
  | 0, s, _, _ => s
  | n + 1, s, ring, len =>
    match (ringOf s ring).posted with
    | b :: _ => if b.len < b.written + len then makeRoom n (bufferDone s ring b stOk 0) ring len else s
    | [] => s

/-- A record of a stream or stake traverse goes to the oldest posted buffer of ring RING, or is discarded and counted
(R296, R456). -/
def streamRecord (s : State) (r : Result) : State :=
  let b := rowRecord r
  match rowRing s r with
  | none => satF s F.FAB_EMIT_STAT_BUF_DROPPED (dieO r.die) 1
  | some ring =>
    let s := makeRoom 65 s ring b.length
    match (ringOf s ring).posted with
    | [] => satF s F.FAB_EMIT_STAT_BUF_DROPPED (dieO r.die) 1
    | p :: _ =>
      let s := hostWrite s (ringOwner s ring) (p.addr + p.written) b (mayRelax s (ringOwner s ring))
      let s := modRing s ring (fun q => { q with posted := modAt (fun (x : PostBuf) =>
        { x with written := x.written + b.length, records := x.records + 1, first := some (x.first.getD (wall s)) }) q.posted 0 })
      (emission s r.trav r.ctx r.acc outBuffer 0 0 (collSpans s (rowTile s r) r)).1

/-- HOST_BUFFER_WRITE (R296): the next record of a host port's writer. During a package halt none is issued (R470). -/
def hostBufferWrite (s : State) (port : Nat) : State :=
  match Tbl.getD s.dst.hbw port [] with
  | [] => s
  | r :: rest =>
    if halted s then s
    else
      let s := { s with dst := { s.dst with hbw := Tbl.put port rest s.dst.hbw } }
      let tk := twinTake s port 1 r.trav r.ctx r.twin
      if tk.2 then
        if ctxKind r.ctx = 1 then
          match rowInv tk.1 r with
          | some i => invRecord tk.1 r i
          | none => tk.1
        else streamRecord tk.1 r
      else tk.1

def execHostBufferWrite (port : Nat) (s : State) : Res := .next (hostBufferWrite s port)

/-- TRIGGER_SEND (R144): the TRIGGER at the front of a port's queue leaves on VC2 when credit allows; WALL is the time of its
emission. DESIGN CHOICE, log entry 72: during a package halt none leaves; R150 and R470 name no stop of VC2. -/
def triggerSend (s : State) (p : Nat) : State :=
  match (portOf s p).trigs with
  | [] => s
  | t :: rest =>
    if halted s || !maySend s p 2 t.frame.length then s
    else
      let s := modPort s p (fun q => { q with trigs := rest })
      let s := sendFrame s p 2 (t.frame.take 24 ++ leBytes 8 (wall s) ++ t.frame.drop 32)
      let s := if portSuspends s p then noteSusp s (suspPort p) else s
      let first := match t.res.twin with
        | none => (s, true)
        | some (g, n) => match lastTwOf s p 2 t.res.trav g 0 with
          | none => (setLastTw s p 2 t.res.trav g 0 n, true)
          | some l => if newer n l then (setLastTw s p 2 t.res.trav g 0 n, true) else (s, false)
      if first.2 then
        (emission first.1 t.res.trav t.res.ctx t.res.acc outTrigger p 0
          (spansIn s (suspPort p) t.res.outFc (wall s) ++ collSpans s (rowTile s t.res) t.res)).1
      else first.1

def execTriggerSend (p : Nat) (s : State) : Res := .next (triggerSend s p)

/-- A pin takes a level, as the carrier reads it. -/
def setPin (s : State) (pin : Nat) (on : Bool) : State :=
  if Tbl.getD s.dst.pins pin false = on then s
  else emitOut { s with dst := { s.dst with pins := Tbl.put pin on s.dst.pins } } (.pin pin on)

/-- A TRIG_OUT row acts on its pin (R295). -/
def driveRow (s : State) (r : Result) : State :=
  let pin := byteAt r.param 7 % 8
  let pulse := byteAt r.param 8
  let s :=
    if pulse ≠ 0 then
      setPin { s with dst := { s.dst with pulses := Tbl.put pin pulse s.dst.pulses } } pin true
    else match r.lanes.get 0 with
      | some x => setPin s pin (x.toNat % 2 == 1)
      | none => s
  (emission s r.trav r.ctx r.acc outPin pin 0 (collSpans s (rowTile s r) r)).1

/-- TRIG_OUT_DRIVE (R295): the driving die acts on its next row. During a package halt the pins are high impedance (R606) and
rows wait; a quiesce keeps them inactive (R566). -/
def trigOutDrive (s : State) (d : Nat) : State :=
  match Tbl.getD s.dst.pinQ d [] with
  | [] => s
  | r :: rest =>
    if halted s || isSet s F.CLK_HP_QUIESCE 0 || pinDie s != d then s
    else driveRow { s with dst := { s.dst with pinQ := Tbl.put d rest s.dst.pinQ } } r

def execTrigOutDrive (d : Nat) (s : State) : Res := .next (trigOutDrive s d)

/-- TRIG_OUT_PULSE_END (R295): the count of a pulse has ended; the pin goes inactive. -/
def trigOutPulseEnd (s : State) (pin : Nat) : State :=
  if (Tbl.get? pin s.dst.pulses).isSome then
    setPin { s with dst := { s.dst with pulses := Tbl.del pin s.dst.pulses } } pin false
  else s

def execTrigOutPulseEnd (pin : Nat) (s : State) : Res := .next (trigOutPulseEnd s pin)

/-! ### Federation (R153, R156) -/

/-- The lowest-numbered UP federation port whose far package has a number (R156). -/
def fedPort (s : State) (pkg : Nat) : Option Nat :=
  (List.range s.part.ports).find? (fun p => fedMode s p && link s p == lkUp && isSet s F.TRN_STAT_FAR_PKG_VALID (portO p) &&
    getF s F.TRN_STAT_FAR_PKG (portO p) == pkg)

/-- A FED_TOKEN frame (R153). -/
def fedFrame (s : State) (p group : Nat) (t : Token) : Bytes :=
  [4, 0] ++ leBytes 2 112 ++ leBytes 2 0 ++ leBytes 2 group ++ leBytes 4 (portOf s p).fedSeq ++ leBytes 4 0 ++ leBytes 8 (hznG s) ++
    List.replicate 8 0 ++ wordBytes (t.lanes.toList.map laneVal) ++ leBytes 1 t.lanes.mask ++ List.replicate 15 0

/-- Copy `j` of entry `i` of a producer has been dealt with. -/
def copyDone (s : State) (src i j : Nat) : State :=
  match (outOf s src)[i]? with
  | some ⟨fc, .copies t ds⟩ =>
    let rest := dropAt ds j
    if rest.isEmpty then setOut s src (dropAt (outOf s src) i)
    else setOut s src (modAt (fun _ => ⟨fc, .copies t rest⟩) (outOf s src) i)
  | _ => s

/-- FED_TOKEN_SEND (R156): a copy along a federation route leaves on the port of its package; without one the context
completes ERROR with FED_UNREACHABLE. A copy waits for VC0 credit, and goes behind earlier ones of its producer to the same
place (R242). An edge that is not UP on the way to the port's die makes it undeliverable (R63). DESIGN CHOICE, log entry 72: during a
package halt it neither leaves nor fails; no rule says. -/
def fedTokenSend (s : State) (src i j : Nat) : State :=
  match (outOf s src)[i]? with
  | some ⟨_, .copies t ds⟩ =>
    match ds[j]? with
    | some (.federation pkg group) =>
      let ahead := ((outOf s src).take i).any (fun e => match e.work with
        | .copies u es => u.trav == t.trav && es.contains (.federation pkg group)
        | _ => false)
      if ahead || halted s then s
      else match fedPort s pkg with
        | none => copyDone (markFail s t.trav t.ctx stError rsnFedUnreach) src i j
        | some p => match lostTo s (dieOfSrc src) (dieOfPort p) with
          | some e => copyDone (undeliverable s (dieOfSrc src) e t) src i j
          | none =>
          if maySend s p 0 112 then
            let f := fedFrame s p group t
            let s := modPort s p (fun q => { q with fedSeq := (q.fedSeq + 1) % 2 ^ 32 })
            copyDone (sendFrame s p 0 f) src i j
          else s
    | _ => s
  | _ => s

def execFedTokenSend (src i j : Nat) (s : State) : Res := .next (fedTokenSend s src i j)

end Sys2Proof.Machine
end

