-- ==== Sys2Proof/Machine/Dma.lean ====
section
/-! DEFINITION. DMA channels (13_dma.md, R477 to R491). -/

namespace Sys2Proof.Machine

/-- The key of channel `n` of die `d`. -/
def chanKey (d n : Nat) : Nat := d * 64 + n

/-- The hidden state of a channel. -/
def chanSt (s : State) (d n : Nat) : Chan := Tbl.getD s.dma.chans (chanKey d n) {}

/-- The hidden state of a channel replaced. -/
def setChan (s : State) (d n : Nat) (c : Chan) : State :=
  { s with dma := { s.dma with chans := Tbl.put (chanKey d n) c s.dma.chans } }

/-- Whether a channel is in service. -/
def chanOn (s : State) (d n : Nat) : Bool := isSet s F.DMA_CTL_ENABLE (dmaO d n)

/-- The function that holds a channel (R482): channel 63 belongs to none. -/
def chanFn (s : State) (d n : Nat) : Nat :=
  if n = 63 then fnNone else getF s F.FN_OWN_DMA_OWNER ((normDie s d * 64 + n) * 8)

/-- SHARE of a channel (R482, R486): 1 to 256, 0 acting as 1. -/
def chanShare (s : State) (d n : Nat) : Nat :=
  if n = 63 then 32 else min 256 (max 1 (getF s F.FN_OWN_DMA_AUX ((normDie s d * 64 + n) * 8)))

/-- The credit of a channel now, in 1/256 beat (R486): it rises by SHARE each fc, up to 8 beats. -/
def creditNow (s : State) (d n : Nat) (c : Chan) : Nat := min 2048 (c.credit + chanShare s d n * (s.now - c.creditAt))

/-! ### DMA_XFER (R478, R479) -/

/-- The channels of a function that are in service on a die, ascending. -/
def fnChannels (s : State) (fn d : Nat) : List Nat :=
  (List.range 63).filter (fun n => chanFn s d n == fn && chanOn s d n)

/-- The checks of R478 on the body of DMA_XFER; `none` when they pass. -/
def dmaCheck (s : State) (fn : Nat) (body : Bytes) : Option (Nat × Nat) :=
  let len := fld body 16 4
  if 3 < byteAt body 20 ∨ present s.part (byteAt body 22) = false ∨ len = 0 then some (stMalformed, rsnBadDesc)
  else match addrCheck s fn (fld body 0 8) len with
    | some e => some e
    | none => match addrCheck s fn (fld body 8 8) len with
      | some e => some e
      | none => if (fnChannels s fn (runDie s (byteAt body 22))).isEmpty then some (stRejected, rsnNoChannel) else none

/-- Whether a channel leaves its function by the pending partition change (R500). -/
def leavingChan (s : State) (d n : Nat) : Bool :=
  changePending s && chanFn s d n != fnNone && getF s F.FN_OWN_DMA_NEXT ((normDie s d * 64 + n) * 8) != chanFn s d n

/-- The channel that takes a transfer (R479): the one with the fewest queued, the lower-numbered on a tie; `none` while each
has 16 queued. A channel that drains takes none (R500). -/
def dmaChannel (s : State) (fn d : Nat) : Option Nat :=
  (fnChannels s fn d).foldl (fun best (n : Nat) =>
    if leavingChan s d n || decide (16 ≤ (chanSt s d n).queue.length) then best
    else match best with
      | some b => if (chanSt s d n).queue.length < (chanSt s d b).queue.length then some n else best
      | none => some n) none

/-- A transfer joins its channel's queue (R479). -/
def dmaQueue (s : State) (sq cq tag fn : Nat) (body : Bytes) : State :=
  let d := runDie s (byteAt body 22)
  match dmaChannel s fn d with
  | none => s
  | some n =>
    let c := chanSt s d n
    let x : Xfer := ⟨sq, cq, tag, fn, fld body 0 8, fld body 8 8, fld body 16 4, byteAt body 20, bits (byteAt body 21) 1 1 == 1⟩
    let x := (x, bits (byteAt body 21) 0 1 == 1)
    setF (setChan s d n { c with queue := c.queue ++ [{ x.1 with cls := x.1.cls + (if x.2 then 4 else 0) }] })
      F.DMA_STAT_QUEUED (dmaO d n) (c.queue.length + 1)

/-- CLASS of a transfer. -/
def Xfer.prio (x : Xfer) : Nat := x.cls % 4

/-- NO_SNOOP of a transfer. -/
def Xfer.noSnoop (x : Xfer) : Bool := decide (4 ≤ x.cls)

/-- DMA_TRANSFER_START (R479): a channel takes its next queued transfer. -/
def dmaStart (s : State) (d n : Nat) : State :=
  let c := chanSt s d n
  if chanOn s d n && c.cur.isNone && !halted s then
    match c.queue with
    | [] => s
    | x :: rest =>
      let o := dmaO d n
      let s := setChan s d n { c with queue := rest, cur := some x, infl := [], buf := [], burst := 0, fault := none, squash := none }
      let s := setF (setF s F.DMA_SRC_SRC o x.src) F.DMA_DST_DST o x.dst
      let s := setF (setF s F.DMA_COUNT_COUNT o x.len) F.DMA_COUNT_WRITTEN o 0
      let s := setF (setF s F.DMA_STAT_CLASS o x.prio) F.DMA_STAT_QUEUED o rest.length
      let s := setF (setF s F.DMA_STAT_RING o x.sq) F.DMA_STAT_TAG o x.tag
      setF s F.DMA_CTL_ACTIVE o 1
  else s

def execDmaTransferStart (d n : Nat) (s : State) : Res := .next (dmaStart s d n)

/-! ### Reads (R484, R487) -/

/-- Beats in a channel's buffer or on their way to it. -/
def Chan.beats (c : Chan) : Nat := c.buf.length + c.infl.foldl (fun n b => n + ceilDiv b.len 64) 0

/-- Bytes of the next read burst: at most 8 beats, not across a 4 KiB boundary of host memory, within Max Read Request Size
(R484). -/
def burstLen (s : State) (x : Xfer) (off count : Nat) : Nat :=
  let a := x.src + off
  if isHost x.src then min (min 512 count) (min (4096 - a % 4096) (maxRead s x.fn)) else min 512 count

/-- An HBM source beat by beat: the bytes read, and the failure of the first faulting beat. -/
def readBeats : (fuel : Nat) → State → (fn a n who : Nat) → (acc : Bytes) → State × Bytes × Option (Nat × Nat)
  | 0, s, _, _, _, _, acc => (s, acc, none)
  | k + 1, s, fn, a, n, who, acc =>
    if n = 0 then (s, acc, none)
    else
      let r := readAddr s fn a (min 64 n) 10 who [] false
      match r.2.2 with
      | some e => (r.1, acc, some e)
      | none => readBeats k r.1 fn (a + 64) (n - 64) who (acc ++ r.2.1)

/-- The requester number of a channel (R402). -/
def chanWho (d n : Nat) : Nat := 0x600000 + chanKey d n

/-- DMA_READ_BURST (R484): the next read burst of the running transfer; COUNT falls by its bytes. -/
def dmaReadBurst (s : State) (d n : Nat) : State :=
  let c := chanSt s d n
  let o := dmaO d n
  match c.cur with
  | none => s
  | some x =>
    let count := getF s F.DMA_COUNT_COUNT o
    let off := x.len - count
    let len := burstLen s x off count
    if c.fault.isSome || c.squash.isSome || count == 0 || halted s || decide (32 < c.beats + ceilDiv len 64) then s
    else
      let s := setF s F.DMA_COUNT_COUNT o (count - len)
      if isHost x.src then
        let s := emitOut s (.hostRead (pfOf x.fn) x.fn (x.src + off) len (x.noSnoop && mayNoSnoop s x.fn))
        setChan s d n { c with infl := c.infl ++ [⟨off, len⟩] }
      else
        let s := addrAsk s x.fn (x.src + off) len 10 (chanWho d n) false
        setChan s d n { c with infl := c.infl ++ [⟨off, len⟩] }

def execDmaReadBurst (d n : Nat) (s : State) : Res := .next (dmaReadBurst s d n)

/-- Bytes cut into beats, with their offsets. -/
def beatsOf : (fuel off : Nat) → Bytes → List (Nat × Bytes)
  | 0, _, _ => []
  | k + 1, off, b => if b.isEmpty then [] else (off, b.take 64) :: beatsOf k (off + 64) (b.drop 64)

/-- DMA_READ_RETURN (R487): the oldest burst of a channel returns, an HBM source's once its bulk reads have come (R383); an error
stops the transfer at its faulting beat, also in the fc of a squash (R491). -/
def dmaReadReturn (s : State) (d n : Nat) (ok : Bool) (data : Bytes) : State :=
  let c := chanSt s d n
  match c.cur, c.infl with
  | some x, b :: rest =>
    let c0 := c
    let c := { c with infl := rest }
    if c.fault.isSome || (c.squash.isSome && c.squashAt != s.now) then setChan s d n c
    else if isHost x.src then
      if ok then setChan s d n { c with buf := if c.squash.isSome then c.buf else c.buf ++ beatsOf 8 b.off (sub data 0 b.len) }
      else setChan s d n { c with fault := some (stError, rsnHostRead, x.src + b.off) }
    else if !addrReady s (x.src + b.off) b.len (chanWho d n) then
      setChan (addrAsk s x.fn (x.src + b.off) b.len 10 (chanWho d n) false) d n c0
    else
      let r := readBeats 8 s x.fn (x.src + b.off) b.len (chanWho d n) []
      let f := r.2.2.map (fun e => (e.1, e.2, x.src + b.off + r.2.1.length))
      setChan r.1 d n { c with buf := if c.squash.isSome then c.buf else c.buf ++ beatsOf 8 b.off r.2.1, fault := f }
  | _, _ => s

def execDmaReadReturn (d n : Nat) (ok : Bool) (data : Bytes) (s : State) : Res := .next (dmaReadReturn s d n ok data)

/-! ### Writes (R484 to R486) -/

/-- Beats of the write burst that a channel would start now. -/
def Chan.nextBurst (c : Chan) : Nat := min 8 c.buf.length

/-- Whether a channel has a beat to write in a started burst, or credit to start one (R485, R486). -/
def eligibleChan (s : State) (d n : Nat) : Bool :=
  let c := chanSt s d n
  c.cur.isSome && !c.buf.isEmpty && c.squash.isNone &&
    (decide (0 < c.burst) || decide (c.nextBurst * 256 ≤ creditNow s d n c))

/-- CLASS of a channel's transfer. -/
def chanPrio (s : State) (d n : Nat) : Nat := ((chanSt s d n).cur.map Xfer.prio).getD 0

/-- The channel that has the die's next beat (R485), if the datapath has not moved its beat of this fc. -/
def pickChan (s : State) (d : Nat) : Option Nat :=
  if Tbl.get? d s.dma.beatAt = some s.now then none
  else
  let es := (List.range 64).filter (eligibleChan s d)
  let top := es.foldl (fun m n => max m (chanPrio s d n)) 0
  let cs := es.filter (fun n => chanPrio s d n == top)
  let rr := Tbl.getD s.dma.rr (d * 4 + top) 0
  match cs.find? (fun n => decide (rr ≤ n)) with
  | some n => some n
  | none => cs.head?

/-- A channel starts a write burst, paying its credit (R486). -/
def startBurst (s : State) (d n : Nat) : State :=
  let c := chanSt s d n
  if 0 < c.burst then s
  else setChan s d n { c with burst := c.nextBurst, credit := creditNow s d n c - c.nextBurst * 256, creditAt := s.now }

/-- One beat of a channel is written (R484, R488). A write that faults lies below any beat whose read has faulted, and decides
(R487). -/
def writeBeat (s : State) (d n : Nat) : State :=
  let c := chanSt s d n
  let o := dmaO d n
  match c.cur, c.buf with
  | some x, (off, b) :: rest =>
    let s := setF s F.DMA_COUNT_WRITTEN o (getF s F.DMA_COUNT_WRITTEN o + b.length)
    let s := addF (addF s F.DMA_BYTES_BYTES o b.length) F.DMA_BEATS_BEATS (dieO d) 1
    let c := { c with buf := rest, burst := c.burst - 1 }
    if isHost x.dst then
      setChan (emitOut s (.hostWrite (pfOf x.fn) x.fn (x.dst + off) b (x.relaxed && mayRelax s x.fn)
        (x.noSnoop && mayNoSnoop s x.fn))) d n c
    else
      let w := writeAddr s x.fn (x.dst + off) b 10
      match w.2 with
      | none => setChan w.1 d n c
      | some e => setChan w.1 d n { c with buf := [], burst := 0, fault := some (e.1, e.2, x.dst + off) }
  | _, _ => s

/-- Whether the next beat of a channel finds room in the write queues of its destination (R383). -/
def beatRoom (s : State) (d n : Nat) : Bool :=
  let c := chanSt s d n
  match c.cur, c.buf with
  | some x, (off, b) :: _ => addrRoom s x.fn (x.dst + off) b.length 10 (chanWho d n)
  | _, _ => true

/-- DMA_WRITE_BEAT (R485): the die's datapath gives its beat to a channel; the eligible channels of lower class count a lost
beat. While a write queue that the beat needs is full, the beat waits (R383). -/
def dmaWriteBeat (s : State) (d : Nat) : State :=
  match (if halted s then none else pickChan s d) with
  | none => s
  | some n =>
    if !beatRoom s d n then s
    else
    let top := chanPrio s d n
    let lower := (List.range 64).filter (fun m => eligibleChan s d m && decide (chanPrio s d m < top))
    let s := lower.foldl (fun s m => satF s F.DMA_WAIT_PREEMPTS (dmaO d m) 1) s
    let s := { s with dma := { s.dma with rr := Tbl.put (d * 4 + top) (n + 1) s.dma.rr, beatAt := Tbl.put d s.now s.dma.beatAt } }
    writeBeat (startBurst s d n) d n

def execDmaWriteBeat (d : Nat) (s : State) : Res := .next (dmaWriteBeat s d)

/-! ### Completion (R481, R487, R488, R490) -/

/-- A transfer fails: registers, event, log (R488). -/
def dmaFailed (s : State) (d n fn : Nat) (f : Nat × Nat × Nat) : State :=
  let o := dmaO d n
  let s := setF (setF (setF s F.DMA_FAULT_FAULT_ADDR o f.2.2) F.DMA_ERR_STATUS o f.1) F.DMA_ERR_REASON o f.2.1
  logC (raise (satF s F.DMA_ERR_ERRORS o 1) F.DMA_EVENT_ERROR (dieO d)) d f.2.1 fn n f.2.2

/-- The running transfer of a channel completes. -/
def dmaFinish (s : State) (d n : Nat) (x : Xfer) (status reason r0 r1 : Nat) : State :=
  let c := chanSt s d n
  let s := setChan (dropReads s (· == chanWho d n)) d n { c with cur := none, infl := [], buf := [], burst := 0, fault := none, squash := none }
  complete (setF s F.DMA_CTL_ACTIVE (dmaO d n) 0) x.sq x.cq x.tag 0x30 status reason r0 r1

/-- DMA_WRITE_ACK (R481): the writes issued for the running transfer are acknowledged; it completes when nothing of it is left
to read or write, or when a failure or squash has stopped it and the beats below the fault are written. -/
def dmaWriteAck (s : State) (d n : Nat) : State :=
  let c := chanSt s d n
  let o := dmaO d n
  match c.cur with
  | none => s
  | some x =>
    let r0 := halves (getF s F.DMA_COUNT_COUNT o) (getF s F.DMA_COUNT_WRITTEN o)
    if !c.buf.isEmpty || halted s then s
    else match c.fault, c.squash with
      | some f, _ => dmaFinish (dmaFailed s d n x.fn f) d n x f.1 f.2.1 r0 f.2.2
      | none, some q => dmaFinish s d n x q.1 q.2 r0 0
      | none, none =>
        if getF s F.DMA_COUNT_COUNT o = 0 ∧ c.infl.isEmpty = true then dmaFinish s d n x stOk 0 r0 0 else s

def execDmaWriteAck (d n : Nat) (s : State) : Res := .next (dmaWriteAck s d n)

/-! ### Disable and squash (R489, R490) -/

/-- The commands of a list of transfers complete. -/
def xfersDone (s : State) (xs : List Xfer) (status reason : Nat) (r0 : Xfer → Nat) : State :=
  xs.foldl (fun s (x : Xfer) => complete s x.sq x.cq x.tag 0x30 status reason (r0 x) 0) s

/-- A channel is dropped at once (R489): its transfers complete ABORTED, the destination bytes of the running one and the
shown COUNT and WRITTEN become undefined. -/
def dmaDrop (s : State) (d n : Nat) : State :=
  let c := chanSt s d n
  let o := dmaO d n
  let xs := c.cur.toList ++ c.queue
  let s := setF (setF (setF s F.DMA_CTL_ENABLE o 0) F.DMA_CTL_ACTIVE o 0) F.DMA_STAT_QUEUED o 0
  let s := setChan (dropReads s (· == chanWho d n)) d n {}
  let s := if xs.isEmpty then s else raise s F.DMA_EVENT_DROPPED (dieO d)
  let s := match c.cur with
    | some x =>
      let s := undefAddr s x.dst x.len
      let a := fresh s 32
      let b := fresh a.2 32
      setF (setF b.2 F.DMA_COUNT_COUNT o a.1) F.DMA_COUNT_WRITTEN o b.1
    | none => s
  xfersDone s xs stAborted rsnChanDisabled (fun _ => 2 ^ 64 - 1)

/-- A write of 0 to DMA_CTL.ENABLE by `fn`: ignored on the system channel (R491). -/
def dmaDisable (s : State) (fn d n : Nat) : State :=
  if n = 63 then logWWR s fn (F.DMA_CTL_ENABLE.base + dmaO d n)
  else if chanOn s d n then dmaDrop s d n else s

def execChannelDisable (fn d n : Nat) (s : State) : Res := .next (dmaDisable s fn d n)

/-- A write of 1 to DMA_CTL.ENABLE by `fn`: the channel is enabled empty, with a full credit. -/
def dmaEnable (s : State) (fn d n : Nat) : State :=
  if n = 63 then logWWR s fn (F.DMA_CTL_ENABLE.base + dmaO d n)
  else if chanOn s d n then s
  else setF (setChan s d n { creditAt := s.now }) F.DMA_CTL_ENABLE (dmaO d n) 1

def execChannelEnable (fn d n : Nat) (s : State) : Res := .next (dmaEnable s fn d n)

/-- The cause of a squash that meets an earlier one: the earlier, but a function reset's (0x0F0C) stands over that of a partition change
(0x0F0B, R509). -/
def overSquash (old : Option (Nat × Nat)) (new : Nat × Nat) : Nat × Nat :=
  match old with
  | none => new
  | some q => if q.2 = 0x0F0B ∧ new.2 = 0x0F0C then new else q

/-- The picked transfers of channel `k` are squashed (R490): queued ones complete at once without access, a running one stops
and completes when its issued writes are acknowledged. -/
def chanSquash (s : State) (k : Nat) (p : Xfer → Bool) (status reason : Nat) : State :=
  let c := chanSt s (k / 64) (k % 64)
  let hit := c.cur.elim false p
  let c' := { c with
    queue := c.queue.filter (fun x => !p x)
    buf := if hit then [] else c.buf
    burst := if hit then 0 else c.burst
    squash := if hit && c.fault.isNone then some (overSquash c.squash (status, reason)) else c.squash
    squashAt := if hit && c.squash.isNone then s.now else c.squashAt }
  let s := setF (setChan s (k / 64) (k % 64) c') F.DMA_STAT_QUEUED (dmaO (k / 64) (k % 64)) c'.queue.length
  xfersDone s (c.queue.filter p) status reason (fun x => halves x.len 0)

/-- The picked transfers of every channel are squashed. -/
def dmaSquash (s : State) (p : Xfer → Bool) (status reason : Nat) : State :=
  s.dma.chans.foldl (fun s (e : Nat × Chan) => chanSquash s e.1 p status reason) s

end Sys2Proof.Machine
end

