-- ==== Sys2Proof/Machine/Fetch.lean ====
section
/-! DEFINITION. Submission rings: doorbells, the fetcher, the examination of the entry at CI and its consumption
(12_host_rings.md, R440 to R456). -/

namespace Sys2Proof.Machine

/-! ### Reasons (R473) -/

def rsnOwnership : Nat := 0x0D01
def rsnBadOpcode : Nat := 0x0D02
def rsnReserved : Nat := 0x0D03
def rsnBadTraverse : Nat := 0x0D04
def rsnBadList : Nat := 0x0D05
def rsnBadBuffer : Nat := 0x0D06
def rsnShutdown : Nat := 0x0D07
def rsnBufTable : Nat := 0x0D08
def rsnFetch : Nat := 0x0D09

/-! ### Rings -/

/-- STATE of a submission ring: 0 DISABLED, 1 RUNNING, 2 STOPPING. -/
def sqState (s : State) (n : Nat) : Nat := getF s F.RING_SQ_CTL_STATE (ringO n)

/-- The completion ring to which a submission ring is bound (R440). -/
def sqCq (s : State) (n : Nat) : Nat := getF s F.RING_SQ_CFG_CQ (ringO n)

def sqPi (s : State) (n : Nat) : Nat := getF s F.RING_SQ_IDX_PI (ringO n)
def sqCi (s : State) (n : Nat) : Nat := getF s F.RING_SQ_IDX_CI (ringO n)
def cqPi (s : State) (n : Nat) : Nat := getF s F.RING_CQ_IDX_PI (ringO n)
def cqCi (s : State) (n : Nat) : Nat := getF s F.RING_CQ_IDX_CI (ringO n)

/-- Entries of a submission ring (R441). -/
def sqSize (s : State) (n : Nat) : Nat := 2 ^ getF s F.RING_SQ_CFG_SIZE_LOG2 (ringO n)

/-- Entries of a completion ring. -/
def cqSize (s : State) (n : Nat) : Nat := 2 ^ getF s F.RING_CQ_CFG_SIZE_LOG2 (ringO n)

/-- The host address of submission entry `i` (R441). -/
def sqAddr (s : State) (n i : Nat) : Nat := getF s F.RING_SQ_BASE_BASE (ringO n) + i % sqSize s n * 64

/-- The host address of completion entry `i`. -/
def cqAddr (s : State) (n i : Nat) : Nat := getF s F.RING_CQ_BASE_BASE (ringO n) + i % cqSize s n * 32

/-! ### Doorbells (R54, R55, R442, R443) -/

/-- A doorbell field is dropped (R443). -/
def dbDropped (s : State) (fn n : Nat) : State :=
  logC (raise (satF s F.RING_SQ_STAT_DB_DROPPED (ringO n) 1) F.RING_EVENT_DB_DROPPED 0) 15 rsnDoorbell fn n 0

/-- Whether a submission ring takes a new SQ_PI (R443): it is RUNNING, or its shutdown began in this CTL cycle, which judges the
doorbell first (R472). -/
def sqTakes (s : State) (n : Nat) : Bool :=
  sqState s n == 1 || (sqState s n == 2 && (ringOf s n).stopAt == some (ctlNow s))

/-- A new SQ_PI (R443). A ring that leaves its function accepts none (R500). -/
def bellSq (s : State) (fn n v : Nat) : State :=
  if sqTakes s n = true ∧ leavingRing s n = false ∧ subMod 32 v (sqCi s n) ≤ sqSize s n ∧ subMod 32 v (sqPi s n) < 2 ^ 31 then
    setF s F.RING_SQ_IDX_PI (ringO n) v
  else dbDropped s fn n

/-- A new CQ_CI (R443). -/
def bellCq (s : State) (fn n v : Nat) : State :=
  if getF s F.RING_CQ_CTL_STATE (ringO n) = 1 ∧ subMod 32 v (cqCi s n) ≤ subMod 32 (cqPi s n) (cqCi s n) then
    let t := setF s F.RING_CQ_IDX_CI (ringO n) v
    if cqFull s n ∧ ¬cqFull t n then modRing t n (fun r => { r with freeAt := some s.now }) else t
  else dbDropped s fn n

/-- The global ring whose doorbell lies at an offset of a function's doorbell space (R54), if the function may ring it
(R55). -/
def bellRing (s : State) (fn off : Nat) : Option Nat :=
  let r := namedRing s fn (off / 8)
  if isPf fn then (if off / 8 < 65536 then r else none) else (if off / 8 < 2048 then r else none)

/-- DOORBELL_WRITE (R442, R443): during a package halt, and from a resetting function, it is dropped without a log entry
(R470, R505), and so it is while the package quiesces (R566). -/
def doorbellWrite (s : State) (fn off len v : Nat) : State :=
  if halted s || resetting s fn || isSet s F.CLK_HP_QUIESCE 0 then s
  else if !((len == 4 && off % 4 == 0) || (len == 8 && off % 8 == 0)) then logC s 15 rsnDoorbell fn 0 off
  else match bellRing s fn off with
    | none => logC s 15 rsnDoorbell fn 0 off
    | some n =>
      let s := if off % 8 = 0 then bellSq s fn n (v % 2 ^ 32) else s
      if len = 8 then bellCq s fn n (v / 2 ^ 32 % 2 ^ 32)
      else if off % 8 = 4 then bellCq s fn n (v % 2 ^ 32) else s

def execDoorbellWrite (fn off len v : Nat) (s : State) : Res := .next (doorbellWrite s fn off len v)

/-- A doorbell read returns the values accepted last (R55), and zero for a ring that the function does not hold. -/
def doorbellRead (s : State) (fn off len : Nat) : Nat :=
  match bellRing s fn off with
  | none => 0
  | some n => if len = 8 then halves (sqPi s n) (cqCi s n) else if off % 8 = 0 then sqPi s n else cqCi s n

/-! ### Completion of entries -/

/-- The requester number of a ring's list reads. -/
def listWho (n : Nat) : Nat := 0x800000 + n

/-- A STOPPING ring becomes DISABLED once everything it owed has been written (R471), and not before the CTL cycle of its shutdown
is over (R472). -/
def sqStopped (s : State) (n : Nat) : State :=
  if sqState s n = 2 ∧ (ringOf s n).stopAt ≠ some (ctlNow s) ∧ sqCi s n = sqPi s n ∧ (ringOf s n).owed = 0 then
    modRing (setF (dropReads s (· == listWho n)) F.RING_SQ_CTL_STATE (ringO n) 0) n (fun r =>
      { r with ents := [], rereads := 0, retried := false, listWait := false, listRetried := false, list := none })
  else s

/-- The entry at CI leaves the ring (R450): CI rises, and the completion owed is counted. `flip` tells that the ownership byte
is written. -/
def takeEntry (s : State) (n : Nat) (flip : Bool) : State :=
  let i := sqCi s n
  let s := if flip then hostWrite s (ringOwner s n) (sqAddr s n i) [0] false else s
  let s := dropReads s (· == listWho n)
  modRing (setF s F.RING_SQ_IDX_CI (ringO n) ((i + 1) % 2 ^ 32)) n (fun r =>
    { r with ents := r.ents.drop 1, rereads := 0, listWait := false, listRetried := false, list := none, owed := r.owed + 1 })

/-- An entry of a ring that shuts down (R471 step 2); one that could not be read completes as R452 says. -/
def abortEntry (s : State) (n : Nat) (reason : Nat) (b : Bytes) : State :=
  let cq := sqCq s n
  if b.isEmpty then complete (takeEntry s n false) n cq 0xFFFF 0 stError rsnFetch 0 0
  else
    complete (takeEntry s n true) n cq (fld b 2 2) (byteAt b 1) stAborted reason 0 0

/-- Every entry that a STOPPING ring has read is aborted. -/
def abortFetched (s : State) (n reason : Nat) : State :=
  (ringOf s n).ents.foldl (fun s (e : Nat × Bytes) => abortEntry s n reason e.2) s

/-! ### Fetching (R447, R448, R452) -/

/-- The next read of a ring: the index of its first entry and the number of entries, at most 8, not past PI, not across the
end of the ring (R447). -/
def nextRead (s : State) (n : Nat) : Nat × Nat :=
  let i := (sqCi s n + (ringOf s n).ents.length) % 2 ^ 32
  (i, min (min 8 (subMod 32 (sqPi s n) i)) (sqSize s n - i % sqSize s n))

/-- Whether the fetcher reads for a ring: it runs or stops, the package is not halted, its function is not resetting. -/
def fetches (s : State) (n : Nat) : Bool :=
  sqState s n != 0 && !halted s && !resetting s (ringOwner s n) && !isSet s F.CLK_HP_SAFE 0

/-- The record of a read of `k` entries from index `i`. -/
def emitRead (s : State) (n i k : Nat) : State :=
  emitOut s (.hostRead (ringPort s n) (ringOwner s n) (sqAddr s n i) (64 * k) false)

/-- The entries that `k` read entries from index `i` hold. -/
def readEntries (i k : Nat) (data : Bytes) : List (Nat × Bytes) :=
  (List.range k).map (fun j => ((i + j) % 2 ^ 32, sub data (64 * j) 64))

/-- A read of submission entries returns for the ring: the entries wait for their examination, or are aborted when the ring
stops. -/
def gotEntries (s : State) (n : Nat) (es : List (Nat × Bytes)) : State :=
  let s := modRing s n (fun r => { r with ents := r.ents ++ es, retried := false })
  if sqState s n = 2 then sqStopped (abortFetched s n (ringOf s n).stop) n else s

/-- A read of entries fails: it is retried once; when the retry fails, each entry it covered has no bytes (R452). -/
def readFails (s : State) (n i k : Nat) : State :=
  if (ringOf s n).retried then
    gotEntries (raise s F.RING_EVENT_FETCH_ERROR 0) n ((List.range k).map (fun j => ((i + j) % 2 ^ 32, [])))
  else modRing s n (fun r => { r with retried := true })

/-- ENTRY_READ_RETURN (R447, R448, R452): the ring's next read is made and has returned. -/
def entryReadReturn (s : State) (n : Nat) (ok : Bool) (data : Bytes) : State :=
  let x := nextRead s n
  if !fetches s n || x.2 == 0 then s
  else
    let s := emitRead s n x.1 x.2
    if ok then gotEntries s n (readEntries x.1 x.2 data) else readFails s n x.1 x.2

def execEntryReadReturn (n : Nat) (ok : Bool) (data : Bytes) (s : State) : Res := .next (entryReadReturn s n ok data)

/-- Whether the entry at CI shows OWN = 0. -/
def unowned (b : Bytes) : Bool := !b.isEmpty && byteAt b 0 % 2 == 0

/-- ENTRY_REREAD (R448): the entry at CI, which shows OWN = 0, is read again, up to 8 times. A re-read that fails is retried
once (R452). -/
def entryReread (s : State) (n : Nat) (ok : Bool) (data : Bytes) : State :=
  match (ringOf s n).ents with
  | (i, b) :: rest =>
    if !fetches s n || sqState s n != 1 || !unowned b || decide (8 ≤ (ringOf s n).rereads) then s
    else
      let s := emitRead s n i 1
      if ok then
        let s := if (ringOf s n).rereads = 0 then satF s F.RING_SQ_STAT_REREADS (ringO n) 1 else s
        modRing s n (fun r => { r with ents := (i, sub data 0 64) :: rest, rereads := r.rereads + 1, retried := false })
      else if (ringOf s n).retried then
        modRing (raise s F.RING_EVENT_FETCH_ERROR 0) n (fun r => { r with ents := (i, []) :: rest, retried := false })
      else modRing s n (fun r => { r with retried := true })
  | [] => s

def execEntryReread (n : Nat) (ok : Bool) (data : Bytes) (s : State) : Res := .next (entryReread s n ok data)

/-! ### Examination (R449) -/

/-- What the examination of an entry finds: it waits, it needs its column list read, it fails with a status, reason, RESULT0,
or it runs. -/
inductive Exam where
  | wait
  | list
  | fail (status reason r0 : Nat)
  | run
  deriving DecidableEq, Repr

/-- The opcodes of R445. -/
def opcodes : List Nat := [0x00, 0x01, 0x02, 0x03, 0x10, 0x11, 0x20, 0x21, 0x30]

/-- The bits of the body that an opcode defines, as ranges (byte, bytes, bits of the last byte that are defined). -/
def bodyDefined : Nat → List (Nat × Nat)
  | 0x01 => [(0, 36)]
  | 0x02 => [(0, 4)]
  | 0x03 => [(0, 12), (16, 4)]
  | 0x10 => [(0, 13)]
  | 0x11 => [(0, 2)]
  | 0x20 => [(0, 31), (32, 8)]
  | 0x21 => [(0, 31), (32, 8)]
  | 0x30 => [(0, 23)]
  | _ => []

/-- Reserved bits inside bytes that an opcode defines (R427, R453, R477): byte, and mask. -/
def bodyReservedBits : Nat → List (Nat × Nat)
  | 0x01 => [(1, 0xF0), (2, 0xFE)]
  | 0x20 => [(28, 0xFE)]
  | 0x21 => [(28, 0xFE)]
  | 0x30 => [(21, 0xFC)]
  | _ => []

/-- Step 3 of R449: whether reserved bits of the header or body are set. Reserved bits of a defined byte count as reserved
(DEDUCED, log entry 16). -/
def reservedSet (b : Bytes) : Bool :=
  let op := byteAt b 1
  let body := b.drop 16
  byteAt b 0 / 2 != 0 || !allZero (sub b 4 12) ||
  (List.range 48).any (fun j => byteAt body j != 0 && !(bodyDefined op).any (fun r => decide (r.1 ≤ j ∧ j < r.1 + r.2))) ||
  (bodyReservedBits op).any (fun r => Nat.land (byteAt body r.1) r.2 != 0)

/-! #### INVOKE (R453, R454) -/

/-- Whether a range lies in host memory, or in HBM units that the partition table gives the function. -/
def rangeOwned (s : State) (fn a n : Nat) : Bool :=
  isHost a ||
    (a / 2 ^ 60 == 1 && bits a 59 1 == 0 && bits a 36 20 == 0 && present s.part (bits a 56 3) &&
      decide (addrOff a + n ≤ stackU s (addrStack s a) * 2 ^ 30) && ownsUnits s fn (addrStack s a) (addrOff a) n)

/-- The column list of an INVOKE: word, address, length and reserved bytes of each entry. -/
def listEntries (k : Nat) (l : Bytes) : List (Nat × Nat × Nat × Nat) :=
  (List.range k).map (fun j => (fld l (16 * j + 12) 2, fld l (16 * j) 8, fld l (16 * j + 8) 4, fld l (16 * j + 14) 2))

/-- Whether words of a list are distinct. -/
def distinct : List Nat → Bool
  | [] => true
  | x :: t => !t.contains x && distinct t

/-- The ranges that an INVOKE names: word, address, length. -/
def invokeRanges (p : Plat) (v : Trav) (body l : Bytes) : List (Nat × Nat × Nat) :=
  if byteAt body 2 % 2 = 1 then (listEntries (byteAt body 3) l).map (fun e => (e.1, e.2.1, e.2.2.1))
  else (scanWords p v).eraseDups.map (fun w => (w, fld body 8 8 + w * fld body 16 8, fld body 16 8))

/-- Whether a traverse has an EMIT node with DEST HOST_BUFFER. -/
def emitsBuffer (v : Trav) : Bool := v.nodes.any (fun n => n.op == opEmit && byteAt n.param 0 == 1)

/-- Steps 4 to 7 of R454, with the column list. -/
def invokeRest (s : State) (fn : Nat) (p : Plat) (v : Trav) (body l : Bytes) : Exam :=
  let list := byteAt body 2 % 2 == 1
  let es := listEntries (byteAt body 3) l
  let words := es.map (fun e => e.1)
  let n := fld body 4 4
  let rs := invokeRanges p v body l
  let scans := ((scanColumns p v).filter (fun x => x.1.op == opScan)).map (fun x => x.2.2.word)
  if list && (es.any (fun e => e.2.1 % 8 != 0 || e.2.2.2 != 0) || !distinct words ||
      (scanWords p v).any (fun w => !words.contains w)) then .fail stMalformed rsnBadList 0
  else if n = 0 ∨ 2 ^ 27 < n ∨ rs.any (fun r => scans.contains r.1 && decide (r.2.2 < 8 * n)) ∨
      rs.any (fun r => !rangeOwned s fn r.2.1 r.2.2) then .fail stMalformed 0x0620 0
  else if getF s F.GNT_CFG_HOST_READ_FC 0 = 0 ∧ rs.any (fun r => isHost r.2.1) then .fail stRejected 0x080A 0
  else if emitsBuffer v != (fld body 24 8 != 0 && decide (16 ≤ fld body 32 4)) then .fail stMalformed rsnBadBuffer 0
  else .run

/-- The checks of R454. -/
def invokeExam (s : State) (n fn : Nat) (body : Bytes) : Exam :=
  match activeTrav s (fld body 0 2) with
  | none => .fail stMalformed rsnBadTraverse 0
  | some (p, v) =>
    let list := byteAt body 2 % 2 == 1
    let k := byteAt body 3
    if p.owner ≠ fn ∨ v.input ≠ 1 then .fail stMalformed rsnBadTraverse 0
    else if (if list then k == 0 || decide (24 < k) || fld body 16 8 != 0 else k != 0) || fld body 8 8 % 8 != 0 ||
        fld body 16 8 % 8 != 0 then .fail stMalformed rsnBadList 0
    else if list then
      match (ringOf s n).list with
      | none => .list
      | some [] => .fail stError rsnFetch 0
      | some l => invokeRest s fn p v body l
    else invokeRest s fn p v body []

/-- The open invocations of a port (R302). -/
def openInvs (s : State) (p : Nat) : Nat := (s.fab.invs.filter (fun e => e.2.port == p)).length

/-- The DECODE columns of an invocation with the dies that need a slot for each (R424); each reads up to its output limit
(R434). -/
def decodeCols (s : State) (p : Plat) (v : Trav) (num fn n : Nat) (rs : List (Nat × Nat × Nat)) : List (DCol × List Nat) :=
  let cs := scanColumns p v
  (List.range cs.length).filterMap (fun j =>
    match cs[j]? with
    | some (nd, cell, c) =>
      if nd.op = opDecode then
        let r := ((rs.find? (fun r => r.1 == c.word)).map (fun r => r.2)).getD (0, 0)
        some (⟨num, j, [], fn, r.1, r.2, 0, 0, 8 * n, [], false⟩, (placements s cell).map dieOfCell)
      else none
    | none => none)

/-- The next invocation number of a port (R301): ascending mod 2^21, past every open one, bit 21 the port. -/
def nextInv (s : State) (p : Nat) : Nat :=
  let last := Tbl.getD s.fab.lastInv p 0
  let go := (List.range 8193).find? (fun k => (Tbl.get? (p * 2 ^ 21 + (last + 1 + k) % 2 ^ 21) s.fab.invs).isNone)
  p * 2 ^ 21 + (last + 1 + go.getD 0) % 2 ^ 21

/-- Whether the resources that an INVOKE needs are free (step 5 of R449): an invocation number, head queues, decode slots. -/
def invokeRoom (s : State) (n fn : Nat) (body : Bytes) : Bool :=
  match activeTrav s (fld body 0 2) with
  | none => false
  | some (p, v) =>
    decide (openInvs s (ringPort s n) < 8192) && headRoom s v &&
      (slotsFor s [] (decodeCols s p v 0 fn (fld body 4 4) (invokeRanges p v body ((ringOf s n).list.getD [])))).isSome

/-! #### The other opcodes -/

/-- The checks of R456. -/
def postExam (s : State) (n : Nat) (body : Bytes) : Exam :=
  let len := fld body 8 4
  if !isHost (fld body 0 8) || fld body 0 8 % 8 != 0 || len % 8 != 0 || decide (len < 16 ∨ 0x7FFFFFF8 < len) then
    .fail stMalformed rsnBadBuffer 0
  else if 64 ≤ (ringOf s n).posted.length then .fail stRejected rsnBufTable 0
  else .run

/-- The checks of R455; CANCEL of no open invocation fails NOT_OPEN (R319). -/
def cancelExam (s : State) (fn : Nat) (body : Bytes) : Exam :=
  match namedRing s fn (fld body 2 2) with
  | none => .fail stMalformed rsnBadTraverse 0
  | some r => if s.fab.invs.any (fun e => e.2.sq == r && e.2.tag == fld body 0 2) then .run else .fail stRejected 0x0702 0

/-- The checks and resources of a codec job (R428, R429). -/
def cdcExam (s : State) (fn : Nat) (body : Bytes) (comp : Bool) : Exam :=
  match cdcCheck s fn body comp with
  | some e => .fail e.1 e.2 (cdcBodyResult body)
  | none => if (jobEngine s (runDie s (byteAt body 29))).isSome then .run else .wait

/-- The checks and resources of a transfer (R478, R479, R481). -/
def dmaExam (s : State) (fn : Nat) (body : Bytes) : Exam :=
  match dmaCheck s fn body with
  | some e => .fail e.1 e.2 (halves (fld body 16 4) 0)
  | none => if (dmaChannel s fn (runDie s (byteAt body 22))).isSome then .run else .wait

/-- Steps 4 and 5 of R449 for an opcode. LOAD_PLAT and UNLOAD_PLAT make their checks as they run (R184). -/
def opExam (s : State) (n fn op : Nat) (body : Bytes) : Exam :=
  match op with
  | 0x01 => match invokeExam s n fn body with
    | .run => if invokeRoom s n fn body then .run else .wait
    | e => e
  | 0x02 => cancelExam s fn body
  | 0x03 => postExam s n body
  | 0x20 => cdcExam s fn body true
  | 0x21 => cdcExam s fn body false
  | 0x30 => dmaExam s fn body
  | _ => .run

/-- The examination of the entry at CI (R449). -/
def examine (s : State) (n : Nat) : Exam :=
  match (ringOf s n).ents with
  | [] => .wait
  | (_, b) :: _ =>
    if b.isEmpty then .fail stError rsnFetch 0
    else if unowned b then (if (ringOf s n).rereads < 8 then .wait else .fail stMalformed rsnOwnership 0)
    else if !opcodes.contains (byteAt b 1) then .fail stMalformed rsnBadOpcode 0
    else if reservedSet b then .fail stMalformed rsnReserved 0
    else opExam s n (ringOwner s n) (byteAt b 1) (b.drop 16)

/-- Whether the fetcher may consume from a ring: it runs, and its completion ring is neither full nor overflowing (R461), and has
not stopped being so in this fc (R472). -/
def mayConsume (s : State) (n : Nat) : Bool :=
  fetches s n && sqState s n == 1 && !cqFull s (sqCq s n) && (ringOf s (sqCq s n)).ovf.isEmpty &&
    (ringOf s (sqCq s n)).freeAt != some s.now

/-- Whether a ring's entry is ready for the fetcher. -/
def ringReady (s : State) (n : Nat) : Bool :=
  mayConsume s n && (match examine s n with
    | .wait => false
    | .list => !(ringOf s n).listWait
    | _ => true)

/-- Whether it is a ring's turn (R451): ready rings of a port in round-robin order of ring number, at most one entry per fc. -/
def ringTurn (s : State) (n : Nat) : Bool :=
  let p := ringPort s n
  let rr := Tbl.getD s.rings.rr p 0
  let cs := (s.rings.rings.map (fun (e : Nat × Ring) => e.1)).filter (fun m => ringPort s m == p && ringReady s m)
  Tbl.get? p s.rings.tookAt != some s.now && match cs.find? (fun m => decide (rr ≤ m)) with
  | some m => m == n
  | none => cs.head? == some n

/-! ### Effects -/

/-- The registers of open invocations of a port (R302). -/
def showOpen (s : State) (p : Nat) : State :=
  let k := openInvs s p
  maxF (setF s F.SCH_INV_OPEN (dieO p) k) F.SCH_INV_HIGH_WATER (dieO p) k

/-- INVOKE opens an invocation (R301, R424); its acceptance is the fc of consumption (R59). -/
def openInv (s : State) (n cq tag fn : Nat) (body l : Bytes) : State :=
  match activeTrav s (fld body 0 2) with
  | none => s
  | some (p, v) =>
    let port := ringPort s n
    let k := nextInv s port
    let rs := invokeRanges p v body l
    let cols := (slotsFor s [] (decodeCols s p v k fn (fld body 4 4) rs)).getD []
    let i : Inv := ⟨k, v.num, n, cq, tag, fn, port, fld body 4 4, rs, wall s % 2 ^ 32, fld body 24 8, fld body 32 4, 0, 0,
      none, none, false, [], [], false, [], 0, false, false⟩
    let s := modFab s (fun f => { f with invs := Tbl.put k i f.invs, lastInv := Tbl.put port (k % 2 ^ 21) f.lastInv })
    startCols (showOpen s port) cols

/-- CANCEL (R455, R319). -/
def cancelRun (s : State) (n cq tag fn : Nat) (body : Bytes) : State :=
  match namedRing s fn (fld body 2 2) with
  | none => s
  | some r =>
    let hit := s.fab.invs.filter (fun e => e.2.sq == r && e.2.tag == fld body 0 2)
    complete (hit.foldl (fun s (e : Nat × Inv) => squash s e.1 stCancelled 0x0701) s) n cq tag 0x02 stOk 0 0 0

/-- POST_BUFFER (R456). -/
def postRun (s : State) (n cq tag : Nat) (body : Bytes) : State :=
  modRing s n (fun r =>
    { r with posted := r.posted ++ [⟨fld body 0 8, fld body 8 4, fld body 16 4, 0, 0, none, tag, cq⟩] })

/-- The command of a consumed entry runs. -/
def opRun (s : State) (n cq fn : Nat) (b l : Bytes) : State :=
  let tag := fld b 2 2
  let body := b.drop 16
  match byteAt b 1 with
  | 0x01 => openInv s n cq tag fn body l
  | 0x02 => cancelRun s n cq tag fn body
  | 0x03 => postRun s n cq tag body
  | 0x10 => loadPlat s n cq tag body
  | 0x11 => unloadPlat s n cq tag body
  | 0x20 => cdcStart s n cq tag fn body true
  | 0x21 => cdcStart s n cq tag fn body false
  | 0x30 => dmaQueue s n cq tag fn body
  | _ => complete s n cq tag 0 stOk 0 0 0

/-- The entry at CI is consumed (R450) and counted. -/
def consumed (s : State) (n : Nat) (flip : Bool) : State :=
  let p := ringPort s n
  let s := addF (takeEntry s n flip) F.RING_PORT_STAT_CONSUMED (p * 8) 1
  { s with rings := { s.rings with rr := Tbl.put p (n + 1) s.rings.rr, tookAt := Tbl.put p s.now s.rings.tookAt } }

/-- The entry completes a failure of R449 or R452. -/
def failEntry (s : State) (n : Nat) (b : Bytes) (status reason r0 : Nat) : State :=
  let cq := sqCq s n
  let s := consumed s n (!b.isEmpty)
  if b.isEmpty then complete s n cq 0xFFFF 0 status reason 0 0
  else complete s n cq (fld b 2 2) (byteAt b 1) status reason r0 0

/-- The column list of the INVOKE at CI has come, or could not be read. -/
def gotList (s : State) (n : Nat) (l : Bytes) : State :=
  modRing s n (fun r => { r with listWait := false, list := some l })

/-- The column list is read (R453): it comes later, from HBM on a later turn of the ring once its bulk reads have come. A list at an address that fails R476
cannot be read (DEDUCED, log entry 17). -/
def readList (s : State) (n fn : Nat) (body : Bytes) : State :=
  let a := fld body 8 8
  let len := 16 * byteAt body 3
  if isHost a then
    modRing (emitOut s (.hostRead (ringPort s n) fn a len false)) n (fun r => { r with listWait := true })
  else match addrCheck s fn a len with
    | some _ => gotList s n []
    | none =>
      if !addrReady s a len (listWho n) then addrAsk s fn a len 10 (listWho n) false
      else
        let r := readAddr s fn a len 10 (listWho n) [] false
        gotList (dropReads r.1 (· == listWho n)) n (if r.2.2.isSome then [] else r.2.1)

/-- What the fetcher does with the entry at CI of ring `n` when it is the ring's turn (R449 to R451). While 8,192 invocations
are open, an INVOKE that waits for a number sets SCH_EVENT.INV_FULL (R302). -/
def fetchTurn (s : State) (n : Nat) : State :=
  match (ringOf s n).ents with
  | [] => s
  | (_, b) :: _ =>
    if mayConsume s n && examine s n == .wait && byteAt b 1 == 1 && !unowned b &&
        decide (8192 ≤ openInvs s (ringPort s n)) then raise s F.SCH_EVENT_INV_FULL (dieO (ringPort s n))
    else if !ringTurn s n then s
    else
      let fn := ringOwner s n
      let cq := sqCq s n
      let l := (ringOf s n).list.getD []
      match examine s n with
      | .wait => s
      | .list => readList s n fn (b.drop 16)
      | .fail st rs r0 => failEntry s n b st rs r0
      | .run => opRun (consumed s n true) n cq fn b l

/-- The fetcher's turn at a ring whose entry at CI carries opcode `op`. -/
def fetchOp (s : State) (n op : Nat) : State :=
  match (ringOf s n).ents with
  | [] => s
  | (_, b) :: _ => if byteAt b 1 = op ∧ b.isEmpty = false then fetchTurn s n else s

/-- LIST_READ_RETURN (R452, R454): the host read of a column list returns. -/
def listReadReturn (s : State) (n : Nat) (ok : Bool) (data : Bytes) : State :=
  match (ringOf s n).ents with
  | [] => s
  | (_, b) :: _ =>
    let len := 16 * byteAt (b.drop 16) 3
    if !(ringOf s n).listWait then s
    else if ok then gotList s n (sub data 0 len)
    else if (ringOf s n).listRetried then gotList (raise s F.RING_EVENT_FETCH_ERROR 0) n []
    else modRing (emitOut s (.hostRead (ringPort s n) (ringOwner s n) (fld (b.drop 16) 8 8) len false)) n
      (fun r => { r with listRetried := true })

/-! ### Commands -/

/-- ENTRY_CONSUME (R450). -/
def execEntryConsume (n : Nat) (s : State) : Res := .next (fetchTurn s n)

/-- NOP (R445): completes OK. -/
def execNopEntry (n : Nat) (s : State) : Res := .next (fetchOp s n 0x00)

/-- INVOKE (R453, R454). -/
def execInvoke (n : Nat) (s : State) : Res := .next (fetchOp s n 0x01)

/-- CANCEL (R455). -/
def execCancel (n : Nat) (s : State) : Res := .next (fetchOp s n 0x02)

/-- POST_BUFFER (R456). -/
def execPostBuffer (n : Nat) (s : State) : Res := .next (fetchOp s n 0x03)

/-- LOAD_PLAT (R179, R184). -/
def execLoadPlat (n : Nat) (s : State) : Res := .next (fetchOp s n 0x10)

/-- UNLOAD_PLAT (R180). -/
def execUnloadPlat (n : Nat) (s : State) : Res := .next (fetchOp s n 0x11)

/-- CDC_COMPRESS (R427, R430). -/
def execCdcCompress (n : Nat) (s : State) : Res := .next (fetchOp s n 0x20)

/-- CDC_DECOMPRESS (R427, R430). -/
def execCdcDecompress (n : Nat) (s : State) : Res := .next (fetchOp s n 0x21)

/-- DMA_XFER (R477, R478). -/
def execDmaXfer (n : Nat) (s : State) : Res := .next (fetchOp s n 0x30)

/-- LIST_READ_RETURN. -/
def execListReadReturn (n : Nat) (ok : Bool) (data : Bytes) (s : State) : Res := .next (listReadReturn s n ok data)

end Sys2Proof.Machine
end

