-- ==== Sys2Proof/Machine/Rings.lean ====
section
/-! DEFINITION. Completion rings, interrupts, ring contexts, shutdown and the package halt (12_host_rings.md, R457 to
R472). -/

namespace Sys2Proof.Machine

/-! ### Messages (R467, R468) -/

/-- A completion ring requests a message: its pending count goes back to zero (R467). -/
def cqMessage (s : State) (cq : Nat) : State :=
  msix (modRing s cq (fun r => { r with pending := 0 })) (ringOwner s cq) (getF s F.RING_CQ_CFG_VECTOR (ringO cq))

/-- A message when the pending count has reached COAL_COUNT and IRQ_EN is 1. -/
def cqCoalesce (s : State) (cq : Nat) : State :=
  if isSet s F.RING_CQ_CFG_IRQ_EN (ringO cq) && decide (max 1 (getF s F.RING_CQ_CFG_COAL_COUNT (ringO cq)) ≤ (ringOf s cq).pending)
  then cqMessage s cq else s

/-- COALESCE_TIMEOUT (R467): COAL_FC has passed since the first pending entry. -/
def coalesceTimeout (s : State) (cq : Nat) : State :=
  if isSet s F.RING_CQ_CFG_IRQ_EN (ringO cq) ∧ getF s F.RING_CQ_CFG_COAL_FC (ringO cq) ≠ 0 ∧ 0 < (ringOf s cq).pending then
    cqMessage s cq
  else s

def execCoalesceTimeout (cq : Nat) (s : State) : Res := .next (coalesceTimeout s cq)

/-- MSIX_UNMASK (R467): a vector is unmasked; a pending message is sent. -/
def msixUnmask (s : State) (fn vec : Nat) : State :=
  let k := fn * 2048 + vec
  if resetting s fn || decide (2048 ≤ vec) then s
  else
    let s := { s with rings := { s.rings with unmasked := k :: s.rings.unmasked.erase k } }
    if s.rings.pendingBits.contains k then
      msixSend { s with rings := { s.rings with pendingBits := s.rings.pendingBits.erase k } } fn vec
    else s

def execMsixUnmask (fn vec : Nat) (s : State) : Res := .next (msixUnmask s fn vec)

/-! ### Completion entries (R457, R458) -/

/-- The 32 bytes of a completion entry written at fc `now` (R457). -/
def Compl.bytes (c : Compl) (now : Nat) : Bytes :=
  let v := fun (x : Lane) (b : Nat) => if x.isSome && c.kind != 0 then b else 0
  leBytes 1 (1 + c.kind * 2 + (if c.kind = 0 then 0 else 8) + v c.r0 16 + v c.r1 32) ++ leBytes 1 c.status ++
    leBytes 2 c.reason ++ leBytes 2 c.tag ++ leBytes 2 c.aux ++ leBytes 8 (c.stamp.getD now) ++
    leBytes 8 (laneVal c.r0).toNat ++ leBytes 8 (laneVal c.r1).toNat

/-- An entry is written at PI of a completion ring (R460), counted and pending (R467). -/
def cqWrite (s : State) (cq : Nat) (b : Bytes) : State :=
  let s := hostWrite s (ringOwner s cq) (cqAddr s cq (cqPi s cq)) b false
  let s := setF s F.RING_CQ_IDX_PI (ringO cq) ((cqPi s cq + 1) % 2 ^ 32)
  let s := if cqFull s cq then noteSusp s (suspRing cq) else s
  let s := addF s F.RING_PORT_STAT_COMPLETIONS (ringPort s cq * 8) 1
  cqCoalesce (modRing s cq (fun r => { r with pending := r.pending + 1 })) cq

/-! ### The overflow area (R462 to R465) -/

/-- The stack that holds the overflow areas, and the stack address of a slot of a ring's area. -/
def ovfPlace (s : State) (cq slot : Nat) : Nat × Nat :=
  (normDie s (getF s F.RING_OVF_CFG_STACK 0), getF s F.RING_OVF_CFG_UNIT 0 * 2 ^ 30 + cq * 0x2000 + slot % 256 * 32)

/-- An entry enters the overflow area (R462): the system channel of the port die carries it (R482). -/
def ovfPut (s : State) (c : Compl) : State :=
  let r := ringOf s c.cq
  let x := ovfPlace s c.cq (r.ovfHead + r.ovf.length)
  let s := noteSusp (hbmWrite s x.1 x.2 (c.bytes (wall s)) 10 0xFFFF).1 (suspRing c.cq)
  let d := dieOfPort (ringPort s c.cq)
  let s := addF (addF s F.DMA_BYTES_BYTES (dmaO d 63) 32) F.DMA_BEATS_BEATS (dieO d) 1
  let s := modRing s c.cq (fun r => { r with ovf := r.ovf ++ [c] })
  let n := (ringOf s c.cq).ovf.length
  let s := maxF (setF s F.RING_CQ_STAT_OVF (ringO c.cq) n) F.RING_CQ_STAT_OVF_HIGH (ringO c.cq) n
  let s := raise s F.RING_EVENT_OVERFLOW 0
  if n = 256 then raise s F.RING_EVENT_OVF_FULL 0 else s

/-- A COMMAND completion that a submission ring owed has been written, lost or discarded (R471). -/
def paid (s : State) (c : Compl) : State :=
  if c.kind = 0 then sqStopped (modRing s c.sq (fun r => { r with owed := r.owed - 1 })) c.sq else s

/-- The requester number of an overflow area's reads. -/
def ovfWho (cq : Nat) : Nat := 0x900000 + cq

/-- The read of an overflow area's place. -/
def ovfRead (s : State) (cq : Nat) (x : Nat × Nat) : State × Bytes × Nat :=
  hbmRead s (readDie s x.1) x.2 32 10 0xFFFF (ovfWho cq)

/-- The output behind an entry is emitted in the fc of its write (R327): a breach changes the status of a row, and that of an
invocation's completion which would be OK, also one that an earlier output of it has breached (R343). -/
def judgeCompl (s : State) (c : Compl) : State × Compl :=
  if c.kind = 0 ∧ c.inv.isNone = true ∨ c.off = true then (s, c)
  else
    let dest := if c.kind = 0 then outEnd else outRing
    let e := emission s c.trav c.ctx c.acc dest 0 c.rows (c.held ++ spansIn s (suspRing c.cq) (accFc s c.acc) (wall s))
    (e.1, if e.2 && c.status == stOk then { c with status := stBreach, reason := 0x080B } else c)

/-- The completion of an invocation that waits in an overflow area hears of a breach of one of its rows (R343). -/
def ovfLate (s : State) (c d : Compl) : State :=
  if c.kind = 1 ∧ d.status = stBreach then
    modRing s c.cq (fun r => { r with ovf := r.ovf.map (fun (x : Compl) =>
      if x.kind = 0 ∧ x.inv = c.inv ∧ x.status = stOk then { x with status := stBreach, reason := 0x080B } else x) })
  else s

/-- The oldest entry of an overflow area leaves it: `r` is what the read of its place gave, with what failed if anything
(R462, R465). Its status, reason and a command's STAMP are those of its writing (R327, R458). -/
def ovfTaken (s : State) (cq : Nat) (c : Compl) (rest : List Compl) (r : Bytes × Nat) : State :=
  let s := modRing s cq (fun q => { q with ovf := rest, ovfHead := (q.ovfHead + 1) % 256 })
  let s := setF s F.RING_CQ_STAT_OVF (ringO cq) rest.length
  if r.2 = 0 then
    let x := judgeCompl s c
    let stamp := if c.kind = 0 then leBytes 8 (wall s) else sub r.1 8 8
    paid (cqWrite (ovfLate x.1 c x.2) cq (r.1.take 1 ++ leBytes 1 x.2.status ++ leBytes 2 x.2.reason ++ sub r.1 4 4 ++ stamp ++
      r.1.drop 16)) c
  else
    let s := raise (satF s F.RING_CQ_STAT_OVF_LOST (ringO cq) 1) F.RING_EVENT_OVF_LOST 0
    paid (logD s (ringPort s cq) (hbmFail r.2).2 (ringOwner s cq) cq 0) c

/-- OVERFLOW_DRAIN (R462, R465): a free slot of a ring takes the oldest entry of its overflow area, once its bulk read has
come. -/
def overflowDrain (s : State) (cq : Nat) : State :=
  match (ringOf s cq).ovf with
  | [] => s
  | c :: rest =>
    let x := ovfPlace s cq (ringOf s cq).ovfHead
    if halted s || cqFull s cq then s
    else if !pathUp s (ovfWho cq) (readDie s x.1) then s
    else if !hbmReady s (readDie s x.1) x.2 32 (ovfWho cq) then hbmAsk s (readDie s x.1) x.2 32 10 0xFFFF (ovfWho cq) false
    else ovfTaken (ovfRead s cq x).1 cq c rest (ovfRead s cq x).2

def execOverflowDrain (cq : Nat) (s : State) : Res := .next (overflowDrain s cq)

/-! ### The completion writer (R459, R460, R463, R466) -/

/-- Whether records of a context still wait at the host-buffer writer of a port: they come first (R460). -/
def recordsDue (s : State) (port : Nat) (c : Compl) : Bool :=
  (Tbl.getD s.dst.hbw port []).any (fun r => r.trav == c.trav && r.ctx == c.ctx)

/-- Whether the completion writer takes an item now. -/
def writable (s : State) (port : Nat) (c : Compl) : Bool :=
  !cqBlocked s c.cq && !(c.kind == 0 && c.inv.isSome && recordsDue s port c)

/-- The rows of a context's invocation, 0 for streams and stakes. -/
def ctxRows (s : State) (ctx : Nat) : Nat := ((invOf s ctx).map (·.rows)).getD 0

/-- An invocation's completion is written or placed: its counts are final (R458), its number is free again (R301), its engines
and scan columns give their reads up, and its rows' twin numbers are forgotten (R520). On a TWINNED pair the other die's copy is
dropped (R520). A completion that would be OK tells the breach of one of its outputs (R343). -/
def closeInv (s : State) (port : Nat) (c : Compl) (n : Nat) : State × Compl :=
  match Tbl.get? n s.fab.invs with
  | none => (s, c)
  | some i =>
    let twin := match activeTrav s c.trav with
      | some (_, v) => twinned s (travDie v / 2)
      | none => false
    let off := unmeasured s c.trav c.ctx
    let engs := (s.cdc.cols.filter (fun x => x.inv == n)).flatMap (fun x => x.engs.map engWho)
    let s := dropReads s (fun w => decide (scanWho n 0 ≤ w ∧ w < scanWho n 0 + 32) || engs.contains w)
    let s := modFab s (fun f => { f with invs := Tbl.del n f.invs })
    let s := { s with twn := { s.twn with lastTw := s.twn.lastTw.filter (fun x => !(x.2.1 == c.trav && x.2.2.2.1 == c.ctx)),
                                          twseq := s.twn.twseq.filter (fun x => !(x.2.1 == c.trav && x.2.2.2.1 == c.ctx)) } }
    let s := if twin then satF s F.TWN_DUP_DROPPED (port * 8) 1 else s
    let c := { c with r0 := num (halves (min i.written (2 ^ 32 - 1)) (min i.results (2 ^ 32 - 1))), off := off }
    (showOpen s i.port, if i.late && c.status == stOk then { c with status := stBreach, reason := 0x080B } else c)

/-- An entry leaves the completion writer: a row counts for its invocation, an invocation's completion closes it. -/
def leaveCw (s : State) (port : Nat) (c : Compl) : State × Compl :=
  match c.inv with
  | some n => if c.kind = 0 then closeInv s port c n else (modInv s n (fun i => { i with results := i.results + 1 }),
      { c with off := unmeasured s c.trav c.ctx })
  | none => (s, c)

/-- An entry of a disabled ring or of a resetting function is counted and goes nowhere (R466, R505). -/
def discardCompl (s : State) (port : Nat) (c : Compl) : State :=
  paid (satF (leaveCw s port c).1 F.RING_CQ_STAT_DISCARDED (ringO c.cq) 1) c

/-- An entry is placed: in its ring, where it is emitted (R327), or behind a full ring or others in the overflow area (R462). A row
is judged before its invocation's counts change, an invocation's completion while its marks are still known. -/
def placeCompl (s : State) (port : Nat) (c : Compl) : State :=
  let x := leaveCw s port c
  if cqFull s c.cq || !(ringOf s c.cq).ovf.isEmpty then ovfPut x.1 x.2
  else
    let y := judgeCompl x.1 x.2
    paid (cqWrite y.1 c.cq (y.2.bytes (wall s))) c

/-- COMPLETION_WRITE (R460, R463): the completion writer of a port takes the first item that its ring can take, drops a
twin's duplicate row (R520), and writes the others. During a package halt it issues nothing (R470). -/
def completionWrite (s : State) (port : Nat) : State :=
  let q := Tbl.getD s.dst.cw port []
  match (if halted s then none else findIdx (writable s port) q) with
  | none => s
  | some i =>
    match q[i]? with
    | none => s
    | some c =>
      let s := { s with dst := { s.dst with cw := Tbl.put port (dropAt q i) s.dst.cw } }
      if getF s F.RING_CQ_CTL_STATE (ringO c.cq) = 0 ∨ resetting s (ringOwner s c.cq) = true then discardCompl s port c
      else
        let t := twinTake s port 0 c.trav c.ctx c.twin
        if t.2 then placeCompl t.1 port c else t.1

def execCompletionWrite (port : Nat) (s : State) : Res := .next (completionWrite s port)

/-- POST_BUFFER_TIMEOUT (R456): the oldest posted buffer, which holds a record, completes after its TIMEOUT_FC. -/
def postBufferTimeout (s : State) (n : Nat) : State :=
  match (ringOf s n).posted with
  | b :: _ => if b.timeout ≠ 0 ∧ b.first.isSome = true then bufferDone s n b stOk 0 else s
  | [] => s

def execPostBufferTimeout (n : Nat) (s : State) : Res := .next (postBufferTimeout s n)

/-! ### The package halt (R469, R470) -/

/-- The TRIG_OUT pins are high impedance, and read inactive through their pull-downs (R606). -/
def releasePins (s : State) : State := (s.dst.pins.filter (fun e => e.2)).foldl (fun s e => setPin s e.1 false) s

/-- The package halts (R470): `cause` fills RING_HALT_CAUSE, HALTED apart; the cause of the first halt stands. -/
def haltPackage (s : State) (cause : State → State) : State :=
  if halted s then s
  else
    let s := cause (setF (releasePins s) F.RING_HALT_CAUSE_HALTED 0 1)
    let s := { s with rings := { s.rings with haltFc := wall s } }
    let s := setF s F.RING_EVENT_HALT 0 1
    [0, 1].foldl (fun s p =>
      if isSet s F.RING_EVT_CFG_ENABLE (p * 8) then msix s p (getF s F.RING_EVT_CFG_VECTOR (p * 8)) else s) s

/-- RING_HALT_CAUSE of a ring context (R470). -/
def ringCause (n : Nat) (cq : Bool) (field : Nat) (s : State) : State :=
  let s := setF (setF s F.RING_HALT_CAUSE_RING_KIND 0 (if cq then 1 else 0)) F.RING_HALT_CAUSE_FIELD 0 field
  setF (setF s F.RING_HALT_CAUSE_RING 0 n) F.RING_HALT_CAUSE_FC 0 (wall s)

/-- A ring context fails its check: the package halts. -/
def ringHalt (s : State) (n : Nat) (cq : Bool) (field : Nat) : State :=
  logErr (haltPackage s (ringCause n cq field)) { sev := sevHalt, die := 15, reason := 0x130B, inst := n, detail := field }

/-- CONTEXT_PARITY_ERROR (R469): a stored context fails parity at its use. -/
def execContextParityError (n : Nat) (cq : Bool) (s : State) : Res := .next (ringHalt s n cq 6)

/-- The first failing case of R469 for a context, by FIELD code; 0 when it passes. -/
def contextFault (s : State) (n base sizeLog : Nat) (bound : Bool) (ctx : Nat) : Nat :=
  if base = 0 ∨ base % 4096 ≠ 0 then 1
  else if sizeLog < 6 ∨ 16 < sizeLog then 2
  else if bound = false then 3
  else if ringOwner s n = fnNone then 4
  else if s.rings.rsv.any (fun r => decide (ctx ≤ r ∧ r < ctx + 0x40)) then 5
  else 0

/-- The check of a submission ring's context. -/
def sqFault (s : State) (n : Nat) : Nat :=
  let o := ringO n
  contextFault s n (getF s F.RING_SQ_BASE_BASE o) (getF s F.RING_SQ_CFG_SIZE_LOG2 o)
    (getF s F.RING_CQ_CTL_STATE (ringO (sqCq s n)) == 1 && ringOwner s (sqCq s n) == ringOwner s n)
    (F.RING_SQ_BASE_BASE.base + o)

/-- The check of a completion ring's context. -/
def cqFault (s : State) (n : Nat) : Nat :=
  let o := ringO n
  contextFault s n (getF s F.RING_CQ_BASE_BASE o) (getF s F.RING_CQ_CFG_SIZE_LOG2 o) true
    (F.RING_CQ_BASE_BASE.base + o)

/-- A write of 1 to a submission ring's ENABLE by `fn` (R469, R471): PI and CI start at zero (R441). -/
def sqEnable (s : State) (fn n : Nat) : State :=
  let o := ringO n
  if sqState s n = 1 then s
  else if sqState s n = 2 then logIgn s fn (F.RING_SQ_CTL_ENABLE.base + o)
  else if sqFault s n ≠ 0 then ringHalt s n false (sqFault s n)
  else
    let s := setF (setF s F.RING_SQ_CTL_ENABLE o 1) F.RING_SQ_CTL_STATE o 1
    modRing (setF (setF s F.RING_SQ_IDX_PI o 0) F.RING_SQ_IDX_CI o 0) n (fun r =>
      { r with ents := [], rereads := 0, retried := false, listWait := false, listRetried := false, list := none, posted := [],
               owed := 0, stop := rsnShutdown, stopAt := none })

def execSqEnable (fn n : Nat) (s : State) : Res := .next (sqEnable s fn n)

/-- A write of 1 to a completion ring's ENABLE by `fn`: ignored while RING_OVF_CFG.VALID is 0. -/
def cqEnable (s : State) (fn n : Nat) : State :=
  let o := ringO n
  if getF s F.RING_CQ_CTL_STATE o = 1 then s
  else if getF s F.RING_OVF_CFG_VALID 0 = 0 then logIgn s fn (F.RING_CQ_CTL_ENABLE.base + o)
  else if cqFault s n ≠ 0 then ringHalt s n true (cqFault s n)
  else
    let s := setF (setF s F.RING_CQ_CTL_ENABLE o 1) F.RING_CQ_CTL_STATE o 1
    modRing (setF (setF s F.RING_CQ_IDX_PI o 0) F.RING_CQ_IDX_CI o 0) n (fun r => { r with ovf := [], ovfHead := 0, pending := 0, freeAt := none })

def execCqEnable (fn n : Nat) (s : State) : Res := .next (cqEnable s fn n)

/-! ### Shutdown and disable (R466, R471) -/

/-- Every posted buffer of a ring completes ABORTED with a reason (R456). -/
def abortPosted (s : State) (n reason : Nat) : State :=
  (ringOf s n).posted.foldl (fun s b => bufferDone s n b stAborted reason) s

/-- The codec jobs, loads and transfers of a ring stop with a reason (R471 step 4). -/
def stopWork (s : State) (n reason : Nat) : State :=
  let s := stopJobs s (fun j => j.sq == n) stAborted reason
  let s := (s.plats.slots.filter (fun e => e.2.ring == n)).foldl (fun s e => failLoad s e.1 stAborted reason noField) s
  dmaSquash s (fun x => x.sq == n) stAborted reason

/-- A RUNNING submission ring shuts down with a reason (R471): entries already read are aborted at once, the others as their
reads return. -/
def ringShutdown (s : State) (n reason : Nat) : State :=
  if sqState s n ≠ 1 then s
  else
    let s := setF (setF s F.RING_SQ_CTL_ENABLE (ringO n) 0) F.RING_SQ_CTL_STATE (ringO n) 2
    let s := modRing s n (fun r => { r with stop := reason, listWait := false, stopAt := some (ctlNow s) })
    let s := if halted s then s else abortFetched s n reason
    let s := (s.fab.invs.filter (fun e => e.2.sq == n)).foldl (fun s (e : Nat × Inv) => squash s e.1 stAborted reason) s
    sqStopped (abortPosted (stopWork s n reason) n reason) n

/-- SQ_SHUTDOWN (R471): a write of 0 to a submission ring's ENABLE. -/
def execSqShutdown (_fn n : Nat) (s : State) : Res := .next (ringShutdown s n rsnShutdown)

/-- Whether an enabled submission ring is bound to a completion ring. -/
def cqBound (s : State) (n : Nat) : Bool := s.rings.rings.any (fun e => sqState s e.1 != 0 && sqCq s e.1 == n)

/-- A completion ring becomes DISABLED; the entries of its overflow area are discarded (R466). -/
def cqDrop (s : State) (n : Nat) : State :=
  let o := ringO n
  let es := (ringOf s n).ovf
  let s := setF (setF s F.RING_CQ_CTL_ENABLE o 0) F.RING_CQ_CTL_STATE o 0
  let s := setF (satF (dropReads s (· == ovfWho n)) F.RING_CQ_STAT_DISCARDED o es.length) F.RING_CQ_STAT_OVF o 0
  es.foldl paid (modRing s n (fun r => { r with ovf := [], ovfHead := 0, pending := 0 }))

/-- CQ_DISABLE (R466): a write of 0 to a completion ring's ENABLE by `fn`. -/
def cqDisable (s : State) (fn n : Nat) : State :=
  if getF s F.RING_CQ_CTL_STATE (ringO n) = 0 then s
  else if cqBound s n then logWWR s fn (F.RING_CQ_CTL_ENABLE.base + ringO n)
  else cqDrop s n

def execCqDisable (fn n : Nat) (s : State) : Res := .next (cqDisable s fn n)

/-! ### Host reads that do not come back (R452, R487) -/

/-- COMPLETION_TIMEOUT: a host read of a unit of a port gets no completion: unit `die × 64 + channel` a DMA channel, unit
`0x10000 + ring` the fetcher of a ring. -/
def completionTimeout (s : State) (port unit : Nat) : State :=
  if unit < 512 then
    match (chanSt s (unit / 64) (unit % 64)).cur with
    | some x => if isHost x.src && pfOf x.fn == port then dmaReadReturn s (unit / 64) (unit % 64) false [] else s
    | none => s
  else
    let n := unit - 0x10000
    if unit < 0x10000 ∨ 0x20000 ≤ unit ∨ ringPort s n ≠ port then s
    else if (ringOf s n).listWait then listReadReturn s n false []
    else if (nextRead s n).2 ≠ 0 then entryReadReturn s n false []
    else entryReread s n false []

def execCompletionTimeout (port unit : Nat) (s : State) : Res := .next (completionTimeout s port unit)

end Sys2Proof.Machine
end

