-- ==== Sys2Proof/Machine/Funcs.lean ====
section
/-! DEFINITION. The partition table, drains, scrubbing and function reset (14_functions.md, R494 to R509). -/

namespace Sys2Proof.Machine

/-! ### Reasons (R510) -/

def rsnStageBusy : Nat := 0x0F01
def rsnRepart : Nat := 0x0F0B
def rsnFnReset : Nat := 0x0F0C

/-! ### The owner tables (R495) -/

/-- The fields of an owner table: 0 tiles, 1 slices, 2 units, 3 DMA channels, 4 sources, 5 rings. -/
structure OwnTable where
  owner : Fld
  dirty : Fld
  next : Fld
  aux : Fld
  auxNext : Fld
  deriving DecidableEq, Repr

/-- The owner table with a number. -/
def ownTable : Nat → OwnTable
  | 0 => ⟨F.FN_OWN_TILE_OWNER, F.FN_OWN_TILE_DIRTY, F.FN_OWN_TILE_NEXT, F.FN_OWN_TILE_AUX, F.FN_OWN_TILE_AUX_NEXT⟩
  | 1 => ⟨F.FN_OWN_SLICE_OWNER, F.FN_OWN_SLICE_DIRTY, F.FN_OWN_SLICE_NEXT, F.FN_OWN_SLICE_AUX, F.FN_OWN_SLICE_AUX_NEXT⟩
  | 2 => ⟨F.FN_OWN_UNIT_OWNER, F.FN_OWN_UNIT_DIRTY, F.FN_OWN_UNIT_NEXT, F.FN_OWN_UNIT_AUX, F.FN_OWN_UNIT_AUX_NEXT⟩
  | 3 => ⟨F.FN_OWN_DMA_OWNER, F.FN_OWN_DMA_DIRTY, F.FN_OWN_DMA_NEXT, F.FN_OWN_DMA_AUX, F.FN_OWN_DMA_AUX_NEXT⟩
  | 4 => ⟨F.FN_OWN_SRC_OWNER, F.FN_OWN_SRC_DIRTY, F.FN_OWN_SRC_NEXT, F.FN_OWN_SRC_AUX, F.FN_OWN_SRC_AUX_NEXT⟩
  | _ => ⟨F.FN_OWN_RING_OWNER, F.FN_OWN_RING_DIRTY, F.FN_OWN_RING_NEXT, F.FN_OWN_RING_AUX, F.FN_OWN_RING_AUX_NEXT⟩

/-- Entries of each owner table. -/
def tableSize : Nat → Nat
  | 0 => 512
  | 1 => 128
  | 2 => 512
  | 3 => 512
  | 4 => 1024
  | _ => 65536

def ownerOf (s : State) (t i : Nat) : Nat := getF s (ownTable t).owner (i * 8)
def nextOf (s : State) (t i : Nat) : Nat := getF s (ownTable t).next (i * 8)
def auxOf (s : State) (t i : Nat) : Nat := getF s (ownTable t).aux (i * 8)
def auxNextOf (s : State) (t i : Nat) : Nat := getF s (ownTable t).auxNext (i * 8)
def dirtyOf (s : State) (t i : Nat) : Bool := isSet s (ownTable t).dirty (i * 8)

/-- A rising list without its repeats. -/
def dedup : List Nat → List Nat
  | a :: b :: t => if a = b then dedup (b :: t) else a :: dedup (b :: t)
  | l => l

/-- The entries of a table of which some field differs from its reset value, ascending. -/
def listed (s : State) (t : Nat) : List Nat :=
  let lo := (ownTable t).owner.base
  dedup ((s.regs.filter (fun e => decide (lo * 64 ≤ e.1 ∧ e.1 < (lo + tableSize t * 8) * 64))).map (fun e => (e.1 / 64 - lo) / 8))

/-- The entries of a table that functions picked by `p` own, ascending. -/
def ownedBy (s : State) (t : Nat) (p : Nat → Bool) : List Nat :=
  (listed s t).filter (fun i => ownerOf s t i != fnNone && p (ownerOf s t i))

/-- Whether a further field of a table counts in a change (R495): SHARE of a channel and LOCAL of a ring. -/
def hasAux (t : Nat) : Bool := t == 3 || t == 5

/-- Whether the wanted value of an entry differs from the value in force. -/
def changes (s : State) (t i : Nat) : Bool :=
  !(t == 3 && i % 64 == 63) &&
    (nextOf s t i != ownerOf s t i || (hasAux t && nextOf s t i != fnNone && auxNextOf s t i != auxOf s t i))

/-- Whether an entry leaves its function by the change (R500). -/
def leaves (s : State) (t i : Nat) : Bool :=
  ownerOf s t i != fnNone && (nextOf s t i != ownerOf s t i || (t == 5 && auxNextOf s t i != auxOf s t i))

/-! ### The check (R498, R499) -/

/-- The entries of R496: those of absent dies, and units that do not exist. -/
def entryAbsent (s : State) (t i : Nat) : Bool :=
  match t with
  | 0 => !present s.part (i / 64)
  | 1 => !present s.part (i / 16)
  | 2 => !present s.part (i / 64) || decide (stackU s (i / 64) ≤ i % 64)
  | 3 => !present s.part (i / 64)
  | _ => false

/-- The plats that are active, and those staged. -/
def livePlats (s : State) : List Plat :=
  s.plats.active ++ (s.plats.slots.filter (fun e => e.2.staged)).filterMap (fun e => e.2.plat)

/-- Whether a plat holds a tile, slice or unit. -/
def platHolds (s : State) (t i : Nat) (p : Plat) : Bool :=
  match t with
  | 0 => (platTiles p).contains i
  | 1 => p.parts.any (fun r => r.kind == 1 && onDie s r (i / 16) && decide (r.first ≤ i % 16 ∧ i % 16 < r.first + r.count))
  | _ => p.parts.any (fun r => r.kind == 2 && onDie s r (i / 64) && decide (r.first ≤ i % 64 ∧ i % 64 < r.first + r.count))

/-- Whether a resource may leave while a plat holds it (R504): a fenced slice, a unit of a stack with a fenced
pseudo-channel. -/
def fencedOut (s : State) (t i : Nat) : Bool :=
  match t with
  | 1 => chState s i == 3
  | 2 => (List.range 32).any (fun c => pcState s (i / 64) c == 3)
  | _ => false

/-- Whether a unit is one that PLAT_STAGE_CFG or RING_OVF_CFG names. -/
def unitNamed (s : State) (i : Nat) : Bool :=
  (isSet s F.PLAT_STAGE_CFG_VALID 0 && getF s F.PLAT_STAGE_CFG_STACK 0 * 64 + getF s F.PLAT_STAGE_CFG_UNIT 0 == i) ||
  (isSet s F.RING_OVF_CFG_VALID 0 && getF s F.RING_OVF_CFG_STACK 0 * 64 + getF s F.RING_OVF_CFG_UNIT 0 == i)

/-- Step 5 of R499. -/
def inUse (s : State) (t i : Nat) : Bool :=
  decide (t < 3) && leaves s t i &&
    (((livePlats s).any (fun p => p.owner == ownerOf s t i && platHolds s t i p) && !fencedOut s t i) ||
      (t == 2 && isPf (ownerOf s t i) && unitNamed s i))

/-- Step 6 of R499. -/
def badRingMap (s : State) (i : Nat) : Bool :=
  let f := nextOf s 5 i
  if isPf f then auxNextOf s 5 i != 0
  else isVf f && (decide (2047 < auxNextOf s 5 i) ||
    (listed s 5).any (fun j => j != i && nextOf s 5 j == f && auxNextOf s 5 j == auxNextOf s 5 i))

/-- Step 7 of R499. -/
def badBinding (s : State) (i : Nat) : Bool :=
  sqState s i != 0 && ownerOf s 5 i != fnNone && nextOf s 5 i == ownerOf s 5 i &&
    ownerOf s 5 (sqCq s i) == ownerOf s 5 i && nextOf s 5 (sqCq s i) != ownerOf s 5 i

/-- Step 8 of R499. -/
def badShare (s : State) (i : Nat) : Bool :=
  nextOf s 3 i != fnNone &&
    (auxNextOf s 3 i == 0 || decide (256 < auxNextOf s 3 i) ||
      decide (224 < (((listed s 3).filter (fun j => j / 64 == i / 64 && j % 64 != 63 && nextOf s 3 j != fnNone)).map
        (auxNextOf s 3)).foldl (· + ·) 0))

/-- The first failing step of R499 for an entry of an owner table, as a reason. -/
def entryFault (s : State) (t i : Nat) : Option Nat :=
  let o := ownerOf s t i
  let n := nextOf s t i
  if t = 3 ∧ i % 64 = 63 then none
  else if !(n == fnNone || isPf n || isVf n) then some 0x0F02
  else if n != fnNone && entryAbsent s t i then some 0x0F03
  else if decide (t < 3) && o != fnNone && n != fnNone && n != o then some 0x0F04
  else if decide (t < 3) && dirtyOf s t i && n != fnNone then some 0x0F05
  else if inUse s t i then some 0x0F06
  else if t == 5 && badRingMap s i then some 0x0F07
  else if t == 5 && badBinding s i then some 0x0F08
  else if t == 3 && badShare s i then some 0x0F09
  else none

/-- Offset of the attributes of function `f`. -/
def attrO (f : Nat) : Nat := f * 0x10

/-- Functions of which an attribute's wanted value is listed, ascending. -/
def listedAttrs (s : State) : List Nat :=
  let lo := F.FN_ATTR_NEXT_WAYS.base - 8
  (dedup ((s.regs.filter (fun e => decide (lo * 64 ≤ e.1 ∧ e.1 < (lo + 0x600 * 0x10) * 64))).map
    (fun e => (e.1 / 64 - lo) / 0x10))).filter (fun f => isPf f || isVf f)

/-- Step 9 of R499. -/
def attrFault (s : State) (f : Nat) : Option Nat :=
  if (livePlats s).any (fun p => p.owner == f && p.travs.any (fun v => decide (getF s F.FN_ATTR_NEXT_CEILING (attrO f) < v.prio)))
  then some 0x0F0A else none

/-- The first failing entry of a list, with its reason. -/
def firstFault (f : Nat → Option Nat) (xs : List Nat) : Option (Nat × Nat) := xs.findSome? (fun i => (f i).map (fun r => (r, i)))

/-- The first failure of the check (R499): reason, table, index. -/
def stageFault (s : State) : Option (Nat × Nat × Nat) :=
  ((List.range 6).findSome? (fun t => (firstFault (entryFault s t) (listed s t)).map (fun x => (x.1, t, x.2)))).orElse
    (fun _ => (firstFault (attrFault s) (listedAttrs s)).map (fun x => (x.1, 6, x.2)))

/-! ### Drains (R500, R501) -/

/-- Whether a leaving entry is drained. -/
def drained (s : State) (t i : Nat) : Bool :=
  match t with
  | 3 =>
    let c := chanSt s (i / 64) (i % 64)
    !chanOn s (i / 64) (i % 64) || (c.cur.isNone && c.queue.isEmpty)
  | 4 => srcState s i == srcFree || srcState s i == srcClosed
  | 5 => sqState s i == 0 && getF s F.RING_CQ_CTL_STATE (ringO i) == 0
  | _ => true

/-- Whether an attribute of a function changes. -/
def attrChanges (s : State) (f : Nat) : Bool :=
  getF s F.FN_ATTR_NEXT_WAYS (attrO f) != getF s F.FN_ATTR_WAYS (attrO f) ||
    getF s F.FN_ATTR_NEXT_CEILING (attrO f) != getF s F.FN_ATTR_CEILING (attrO f)

/-- Whether a reset of function `j` covers function `f`: a physical function's covers each of its virtual functions that is
not in a reset of its own. -/
def flrCovers (s : State) (j f : Nat) : Bool :=
  f == j || (isPf j && isVf f && pfOf f == j && (Tbl.get? f s.fns.resets).isNone)

/-- Whether a function is resetting by a reset that did not begin in this fc (R509). -/
def resettingBefore (s : State) (f : Nat) : Bool :=
  resetting s f && !s.fns.resets.any (fun e => flrCovers s e.1 f && e.2.start == s.now)

/-- Whether the pending change is READY (R501), `r` telling the functions that are resetting. -/
def readyWhile (s : State) (r : Nat → Bool) : Bool :=
  changePending s &&
    (List.range 6).all (fun t => (listed s t).all (fun i =>
      !changes s t i || ((!leaves s t i || drained s t i) && !r (ownerOf s t i) && !r (nextOf s t i)))) &&
    (listedAttrs s).all (fun f => !attrChanges s f || !r f)

/-- Whether the pending change is READY (R501). -/
def changeReady (s : State) : Bool := readyWhile s (resetting s)

/-- Whether the pending change applies at a COMMIT in this fc: a reset that begins in the same fc does not hold it (R509). -/
def changeApplies (s : State) : Bool := readyWhile s (resettingBefore s)

/-- FN_STAGE_STAT.READY follows. -/
def refreshReady (s : State) : State := setF s F.FN_STAGE_STAT_READY 0 (if changeReady s then 1 else 0)

/-- STAGE_REQ (R498). -/
def stageReq (s : State) : State :=
  if getF s F.FN_STAGE_STAT_STATE 0 = 0 then setF s F.FN_STAGE_STAT_STATE 0 1
  else
    raise (setF (setF s F.FN_STAGE_STAT_STATUS 0 stRejected) F.FN_STAGE_STAT_REASON 0 rsnStageBusy) F.FN_EVENT_CHECK_FAILED 0

def execStageReq (s : State) : Res := .next (stageReq s)

/-- The result of a check. -/
def stageResult (s : State) (state status reason table index : Nat) : State :=
  let s := setF (setF s F.FN_STAGE_STAT_STATE 0 state) F.FN_STAGE_STAT_STATUS 0 status
  setF (setF (setF s F.FN_STAGE_STAT_REASON 0 reason) F.FN_STAGE_STAT_TABLE 0 table) F.FN_STAGE_STAT_INDEX 0 index

/-- STAGE_CHECK_DONE (R499, R500): the check ends. -/
def stageCheckDone (s : State) : State :=
  if getF s F.FN_STAGE_STAT_STATE 0 ≠ 1 then s
  else match stageFault s with
    | some (r, t, i) => raise (stageResult s 0 stRejected r t i) F.FN_EVENT_CHECK_FAILED 0
    | none => refreshReady (stageResult s 2 stOk 0 0 0)

def execStageCheckDone (s : State) : Res := .next (stageCheckDone s)

/-- WITHDRAW (R502). -/
def stageWithdraw (s : State) : State :=
  if changePending s then setF (setF s F.FN_STAGE_STAT_STATE 0 0) F.FN_STAGE_STAT_READY 0 0 else s

def execWithdraw (s : State) : Res := .next (stageWithdraw s)

/-- Whether a leaving submission ring has run out of work (R500): empty, no invocation opened from it, and nothing owed but
its posted buffers. -/
def ringIdle (s : State) (n : Nat) : Bool :=
  sqPi s n == sqCi s n && !s.fab.invs.any (fun e => e.2.sq == n) && (ringOf s n).owed == (ringOf s n).posted.length

/-- A ring's drain goes on (R500): its posted buffers complete ABORTED, it stops, and then its completion ring is disabled. -/
def drainRing (s : State) (n : Nat) : State :=
  if sqState s n = 1 then
    if ringIdle s n then
      let s := setF (setF s F.RING_SQ_CTL_ENABLE (ringO n) 0) F.RING_SQ_CTL_STATE (ringO n) 2
      sqStopped (abortPosted (modRing s n (fun r => { r with stop := rsnRepart })) n rsnRepart) n
    else s
  else if sqState s n = 0 ∧ getF s F.RING_CQ_CTL_STATE (ringO n) = 1 ∧ cqBound s n = false then cqDrop s n
  else s

/-- DRAIN_COMPLETE (R500, R501): the drain of a leaving entry completes. -/
def drainComplete (s : State) (t i : Nat) : State :=
  if changePending s && leaves s t i then refreshReady (if t = 5 then drainRing s i else s) else s

def execDrainComplete (t i : Nat) (s : State) : Res := .next (drainComplete s t i)

/-- DRAIN_LIMIT (R500): leaving rings that still run are shut down, and transfers of leaving channels squashed. -/
def drainLimit (s : State) : State :=
  if changePending s then
    let rs := (listed s 5).filter (fun i => leaves s 5 i && sqState s i == 1)
    let cs := (listed s 3).filter (fun i => leaves s 3 i && !drained s 3 i)
    let s := rs.foldl (fun s i => ringShutdown s i rsnRepart) s
    let s := cs.foldl (fun s k => chanSquash s k (fun _ => true) stAborted rsnRepart) s
    refreshReady (if rs.isEmpty && cs.isEmpty then s else raise s F.FN_EVENT_DRAIN_SQUASH 0)
  else s

def execDrainLimit (s : State) : Res := .next (drainLimit s)

/-! ### Applying a change (R501, R503, R504) -/

/-- Active plats that hold a fenced resource which leaves their owner are removed (R504). -/
def removeHolders (s : State) (t i : Nat) : State :=
  (s.plats.active.filter (fun p => p.owner == ownerOf s t i && platHolds s t i p)).foldl (fun s p =>
    removePlat (abortInvs s (fun v => (p.travs.map (·.num)).contains v) stAborted rsnRepart) p.handle) s

/-- A tile, slice or unit is taken from its function: it has no owner, is DIRTY, and its scrub begins (R503). -/
def takeResource (s : State) (t i : Nat) : State :=
  let s := removeHolders s t i
  let s := setF (setF s (ownTable t).owner (i * 8) fnNone) (ownTable t).dirty (i * 8) 1
  match t with
  | 1 => startSlices s ((mirrorDies s (i / 16)).map (fun d => (d, i % 16))) 1
  | 2 => { s with hbm := { s.hbm with zeroing := Tbl.put i 1 s.hbm.zeroing } }
  | _ => s

/-- An entry takes its wanted value. -/
def applyEntry (s : State) (t i : Nat) : State :=
  if !changes s t i then s
  else if decide (t < 3) && leaves s t i then takeResource s t i
  else
    let n := nextOf s t i
    let s := setF s (ownTable t).aux (i * 8) (if hasAux t && n != fnNone then auxNextOf s t i else 0)
    setF s (ownTable t).owner (i * 8) n

/-- A function's attributes take their wanted values. -/
def applyAttr (s : State) (f : Nat) : State :=
  let s := setF s F.FN_ATTR_WAYS (attrO f) (getF s F.FN_ATTR_NEXT_WAYS (attrO f))
  setF s F.FN_ATTR_CEILING (attrO f) (getF s F.FN_ATTR_NEXT_CEILING (attrO f))

/-- The READY change is applied at a COMMIT (R501). -/
def applyChange (s : State) (epoch : Nat) : State :=
  if changeApplies s then
    let s := (List.range 6).foldl (fun s t => (listed s t).foldl (fun s i => applyEntry s t i) s) s
    let s := (listedAttrs s).foldl applyAttr s
    let s := setF (setF s F.FN_STAGE_STAT_STATE 0 0) F.FN_STAGE_STAT_READY 0 0
    raise (setF s F.FN_APPLIED_EPOCH 0 epoch) F.FN_EVENT_APPLIED 0
  else s

/-! ### Scrubbing (R503) -/

/-- A scrub cannot write a channel (R503): `inst` is the channel, `state` its state. -/
def scrubFault (s : State) (d inst state : Nat) (sram : Bool) : State :=
  let r := if state = 3 then (if sram then 0x0903 else 0x0A03) else (if sram then 0x0902 else 0x0A02)
  logD (raise s F.FN_EVENT_SCRUB_FAULT 0) d r fnNone inst 0

/-- A tile, slice or unit is written zero on the dies that hold it (R503, R514), with whether all of it was written. -/
def scrubOn (s : State) (t u d : Nat) : State × Bool :=
  match t with
  | 0 => (zeroMem s 0 ((d * 64 + u) * 0x200000) 0x200000, true)
  | 1 => if chState s (d * 16 + u) = 0 then (zeroSlice s (d * 16 + u), true)
         else (scrubFault s d u (chState s (d * 16 + u)) true, false)
  | _ =>
    match stuckPcs s d with
    | [] => (zeroUnit s d u, true)
    | c :: _ => (scrubFault (zeroUnit s d u) d c (pcState s d c) false, false)

/-- Entries of a table on one die. -/
def perDie (t : Nat) : Nat := if t = 1 then 16 else 64

/-- A resource is scrubbed on every die that holds it. -/
def scrub (s : State) (t i : Nat) : State × Bool :=
  (mirrorDies s (i / perDie t)).foldl (fun (x : State × Bool) d =>
    let y := scrubOn x.1 t (i % perDie t) d
    (y.1, x.2 && y.2)) (s, true)

/-- Whether a DIRTY resource is being scrubbed: after a scrub fault it is not. -/
def scrubbing (s : State) (t i : Nat) : Bool :=
  dirtyOf s t i && (match t with
    | 0 => true
    | 1 => (Tbl.get? i s.srm.zeroing).isSome
    | _ => (Tbl.get? i s.hbm.zeroing).isSome)

/-- A resource leaves the scrub engines. -/
def scrubEnds (s : State) (t i : Nat) : State :=
  match t with
  | 1 => (mirrorDies s (i / 16)).foldl (fun s d =>
      { s with srm := { s.srm with zeroing := Tbl.del (d * 16 + i % 16) s.srm.zeroing } }) s
  | 2 => { s with hbm := { s.hbm with zeroing := Tbl.del i s.hbm.zeroing } }
  | _ => s

/-- Whether any resource is DIRTY. -/
def anyDirty (s : State) : Bool := (List.range 3).any (fun t => (listed s t).any (dirtyOf s t))

/-- SCRUB_DONE (R503): the scrub of a tile (table 0), slice (1) or unit (2) ends; DIRTY clears unless the scrub met a
fault. -/
def scrubDone (s : State) (t i : Nat) : State :=
  if decide (2 < t) || !scrubbing s t i then s
  else
    let x := scrub s t i
    let s := scrubEnds x.1 t i
    if x.2 then
      let s := setF s (ownTable t).dirty (i * 8) 0
      if anyDirty s then s else raise s F.FN_EVENT_SCRUBBED 0
    else s

def execScrubDone (t i : Nat) (s : State) : Res := .next (scrubDone s t i)

/-! ### Functions in service (R494) -/

/-- The virtual functions of a physical function, by their numbers. -/
def vfNum (pf v : Nat) : Nat := 0x200 * (pf + 1) + v - 1

/-- NumVFs of a physical function while VF Enable is set, else 0. -/
def numVfs (s : State) (pf : Nat) : Nat := Tbl.getD s.fns.vfs pf 0

/-- Whether a function meets R494, but for a reset. -/
def mayServe (s : State) (f : Nat) : Bool :=
  if isPf f then (f == 0 || isSet s F.PKG_STRAP_PORT1 0) && isSet s F.CLK_PORT_LINK_UP (f * 8)
  else isVf f && decide (f - vfNum (pfOf f) 1 < numVfs s (pfOf f))

/-- STATE of a function that is not resetting follows R494. -/
def refreshFn (s : State) (f : Nat) : State :=
  if resetting s f then s else setF s F.FN_ATTR_STATE (attrO f) (if mayServe s f then 1 else 0)

/-! ### Function reset (R505 to R508) -/

/-- The functions that a reset of `j` covers. -/
def flrMembers (s : State) (j : Nat) : List Nat :=
  if isPf j then j :: ((List.range 512).map (fun v => vfNum j (v + 1))).filter (flrCovers s j) else [j]

/-- A reset changed. -/
def modFlr (s : State) (j : Nat) (f : Flr → Flr) : State :=
  match Tbl.get? j s.fns.resets with
  | some x => { s with fns := { s.fns with resets := Tbl.put j (f x) s.fns.resets } }
  | none => s

/-- Transfers that a reset squashes are counted (R506). -/
def countSquash (s : State) (j : Nat) (xs : List Xfer) : State :=
  xs.foldl (fun s x =>
    let s := if isVf x.fn then satF s F.FN_VF_STAT_SQUASHED (vfO x.fn) 1 else s
    modFlr s j (fun r => { r with squashed := min 65535 (r.squashed + 1) })) s

/-- The queued transfers of picked functions complete without access; the running ones go on (R506 step 1). -/
def squashQueued (s : State) (j reason : Nat) (p : Nat → Bool) : State :=
  s.dma.chans.foldl (fun s (e : Nat × Chan) =>
    let hit := e.2.queue.filter (fun x => p x.fn)
    let c := { e.2 with queue := e.2.queue.filter (fun x => !p x.fn) }
    let s := setF (setChan s (e.1 / 64) (e.1 % 64) c) F.DMA_STAT_QUEUED (dmaO (e.1 / 64) (e.1 % 64)) c.queue.length
    xfersDone (countSquash s j hit) hit stAborted reason (fun x => halves x.len 0)) s

/-- The running transfers of picked functions that no squash has stopped yet, but for one of a partition change (R509). -/
def runningOf (s : State) (p : Nat → Bool) : List (Nat × Xfer) :=
  s.dma.chans.filterMap (fun e =>
    match e.2.cur with
    | some x => if p x.fn && e.2.squash.all (fun q => q.2 == rsnRepart) then some (e.1, x) else none
    | none => none)

/-- The running transfers of picked functions are squashed, at DRAIN_LIMIT (R506 step 1). -/
def squashRunning (s : State) (j reason : Nat) (p : Nat → Bool) : State :=
  (runningOf s p).foldl (fun s e => countSquash (chanSquash s e.1 (fun x => p x.fn) stAborted reason) j [e.2]) s

/-- Whether a transfer of picked functions is still running. -/
def anyRunning (s : State) (p : Nat → Bool) : Bool := s.dma.chans.any (fun e => e.2.cur.elim false (fun x => p x.fn))

/-- A function enters its reset (R505): its state reads RESETTING, and its message table and Device Control go back to their
reset values. -/
def enterReset (s : State) (f : Nat) : State :=
  let s := setF s F.FN_ATTR_STATE (attrO f) 2
  let s := if isVf f then setF s F.FN_VF_STAT_SQUASHED (vfO f) 0 else s
  let keep := fun (k : Nat) => k / 2048 != f
  let s := { s with rings := { s.rings with unmasked := s.rings.unmasked.filter keep,
                                            pendingBits := s.rings.pendingBits.filter keep,
                                            msixTable := s.rings.msixTable.filter (fun e => keep (e.1 / 4)),
                                            cfg := s.rings.cfg.filter (fun e => e.1 / 0x1000 != f) } }
  { s with devCtl := Tbl.del f s.devCtl }

/-- A reset of function `j` begins with step 1 (R505, R506): `reason` is what it completes work with; with `now` DRAIN_LIMIT is
0 (R562). The loads of its rings, and the staged plats that it owns, end with OWNER_RESET. A physical function's reset clears VF Enable
(R508). -/
def beginReset (s : State) (j reason : Nat) (now : Bool) : State :=
  let ms := flrMembers s j
  let s := { s with fns := { s.fns with resets := Tbl.put j ⟨1, s.now, 0, reason, false⟩ s.fns.resets } }
  let s := if isPf j then { s with fns := { s.fns with vfs := Tbl.del j s.fns.vfs } } else s
  let s := ms.foldl enterReset s
  let p := flrCovers s j
  let loads := s.plats.slots.filter (fun e => p (ringOwner s e.2.ring) || (e.2.staged && e.2.plat.any (fun x => p x.owner)))
  let s := loads.foldl (fun s e => failLoad s e.1 stAborted 0x0523 noField) s
  let s := squashQueued s j reason p
  let s := stopJobs s (fun x => p x.fn) stAborted reason
  refreshReady (if now then squashRunning s j reason p else s)

/-- Step 2 of R506 on a ring: CI is set to SQ_PI, posted buffers go, both rings become DISABLED. -/
def resetRing (s : State) (n : Nat) : State :=
  let o := ringO n
  let s := setF s F.RING_SQ_IDX_CI o (sqPi s n)
  let s := setF (setF s F.RING_SQ_CTL_ENABLE o 0) F.RING_SQ_CTL_STATE o 0
  let s := if getF s F.RING_CQ_CTL_STATE o = 1 then cqDrop s n else s
  modRing s n (fun _ => {})

/-- Step 2 of R506. -/
def resetRings (s : State) (reason : Nat) (p : Nat → Bool) : State :=
  let s := (s.fab.invs.filter (fun e => p e.2.fn)).foldl (fun s (e : Nat × Inv) => squash s e.1 stAborted reason) s
  (ownedBy s 5 p).foldl resetRing s

/-- Step 3 of R506: the functions' active plats are removed at once. -/
def resetPlats (s : State) (p : Nat → Bool) : State :=
  (s.plats.active.filter (fun q => p q.owner)).foldl (fun s q => removePlat s q.handle) s

/-- Step 4 of R506: the functions' tiles, slices and units are zeroed; the second component tells a scrub fault. -/
def resetScrub (s : State) (p : Nat → Bool) : State × Bool :=
  (List.range 3).foldl (fun (x : State × Bool) t =>
    (ownedBy x.1 t p).foldl (fun (y : State × Bool) i =>
      let z := scrub y.1 t i
      (z.1, y.2 || !z.2)) x) (s, false)

/-- Step 5 of R506: the reset is over. -/
def resetReport (s : State) (j : Nat) (x : Flr) : State :=
  let ms := flrMembers s j
  let s := { s with fns := { s.fns with resets := Tbl.del j s.fns.resets } }
  let s := ms.foldl (fun s f =>
    refreshFn (setF (setF s F.FN_ATTR_STATE (attrO f) 0) F.FN_ATTR_SCRUB_FAULT (attrO f) (if x.fault then 1 else 0)) f) s
  let s := setF (setF s F.FN_RESET_LAST_FUNCTION 0 j) F.FN_RESET_LAST_SQUASHED 0 x.squashed
  refreshReady (raise (setF s F.FN_RESET_LAST_DURATION_FC 0 (s.now - x.start)) F.FN_EVENT_RESET_DONE 0)

/-- FLR_STEP_END (R506): the running step of the reset of function `j` ends and the next begins. Step 1 with transfers still
running has reached DRAIN_LIMIT: they are squashed, and the step ends once they have completed. Step 2 ends when no
invocation of the functions is left. -/
def flrStepEnd (s : State) (j : Nat) : State :=
  match Tbl.get? j s.fns.resets with
  | none => s
  | some x =>
    let p := flrCovers s j
    let goOn := fun (n : Nat) => modFlr s j (fun r => { r with step := n })
    match x.step with
    | 1 => if anyRunning s p then squashRunning s j x.reason p else resetRings (goOn 2) x.reason p
    | 2 => if s.fab.invs.any (fun e => p e.2.fn && !e.2.done) then s else resetPlats (goOn 3) p
    | 3 => goOn 4
    | 4 =>
      let y := resetScrub s p
      resetReport y.1 j { x with fault := y.2 }
    | _ => s

def execFlrStepEnd (j : Nat) (s : State) : Res := .next (flrStepEnd s j)

/-- FUNCTION_LEVEL_RESET (R505): a virtual function is reset; a request while it is resetting is ignored (R509). -/
def execFunctionLevelReset (f : Nat) (s : State) : Res :=
  .next (if isVf f && !resetting s f then beginReset s f rsnFnReset false else s)

/-- PF_FUNCTION_LEVEL_RESET (R508). -/
def execPfFunctionLevelReset (pf : Nat) (s : State) : Res :=
  .next (if isPf pf && !resetting s pf then beginReset s pf rsnFnReset false else s)

/-- VF_ENABLE (R494, R505): VF Enable and NumVFs of a physical function are set (`num` 0 clears VF Enable). A virtual function
that this disables is reset. -/
def vfEnable (s : State) (pf num : Nat) : State :=
  if !isPf pf || resetting s pf then s
  else
    let s := { s with fns := { s.fns with vfs := if num = 0 then Tbl.del pf s.fns.vfs else Tbl.put pf (min num 512) s.fns.vfs } }
    (List.range 512).foldl (fun s v =>
      let f := vfNum pf (v + 1)
      if getF s F.FN_ATTR_STATE (attrO f) = 1 ∧ mayServe s f = false then beginReset s f rsnFnReset false else refreshFn s f) s

def execVfEnable (pf num : Nat) (s : State) : Res := .next (vfEnable s pf num)

end Sys2Proof.Machine
end

