-- ==== Sys2Proof/Machine/DieReset.lean ====
section
/-! DEFINITION. Die reset, the release of a die, and the Chain edges' training (16_clocks_bringup.md R555, R558, R560, R561;
10_hbm_cache.md R380, R394). -/

namespace Sys2Proof.Machine

/-- Reason DIE_RESET (R569). -/
def rsnDieReset : Nat := 0x1202

/-! ### What a die reset ends (R558, R560) -/

/-- The transfers of a channel end with a die reset: the running one with its counts, or with the failure or squash that had
already stopped it. -/
def chanAbort (s : State) (k : Nat) : State :=
  let c := chanSt s (k / 64) (k % 64)
  let o := dmaO (k / 64) (k % 64)
  let s := match c.cur with
    | some x =>
      let r0 := halves (getF s F.DMA_COUNT_COUNT o) (getF s F.DMA_COUNT_WRITTEN o)
      (match c.fault, c.squash with
       | some f, _ => dmaFinish s (k / 64) (k % 64) x f.1 f.2.1 r0 f.2.2
       | none, some q => dmaFinish s (k / 64) (k % 64) x q.1 q.2 r0 0
       | none, none => dmaFinish s (k / 64) (k % 64) x stAborted rsnDieReset r0 0)
    | none => s
  let s := xfersDone s c.queue stAborted rsnDieReset (fun x => halves x.len 0)
  { s with dma := { s.dma with chans := Tbl.del k s.dma.chans } }

/-- The transfers and codec jobs of a die complete ABORTED with DIE_RESET (R560, R591). -/
def dieAbort (s : State) (d : Nat) : State :=
  let s := (s.dma.chans.filter (fun e => e.1 / 64 == d)).foldl (fun s e => chanAbort s e.1) s
  let js := s.cdc.jobs.filter (fun e => e.1 / 4 == d)
  let s := dropReads s (fun w => (List.range 4).any (fun e => w == engWho (engKey d e)))
  let s := modCdc s (fun c => { c with jobs := c.jobs.filter (fun e => e.1 / 4 != d) })
  js.foldl (fun s e => e.2.foldl (fun s (j : CJob) =>
    complete s j.sq j.cq j.tag (if j.comp then 0x20 else 0x21) stAborted rsnDieReset (halves j.inDone j.outDone) 0) s) s

/-- The parts of a table that do not belong to a die: `f` gives the die of a key. -/
def others {α : Type} (t : Tbl α) (d : Nat) (f : Nat → Nat) : Tbl α := t.filter (fun e => f e.1 != d)

/-- The fabric's queues, stores, tasks, passes, buffers and sort jobs of a die are gone. -/
def fabClear (b : Fab) (d : Nat) : Fab :=
  { b with inQ := others b.inQ d (· / 262144), store := others b.store d (· / 64), ready := others b.ready d (· / 64),
           passes := others b.passes d (· / 4096), outb := others b.outb d dieOfSrc, chainRx := Tbl.del d b.chainRx,
           sorts := b.sorts.filter (fun j => j.first / 4096 != d), found := b.found.filter (fun m => m.first / 4096 != d),
           asof := b.asof.filter (fun a => a.first / 4096 != d), paceAt := b.paceAt.filter (fun e => e.1 / 8192 != d), lostFrom := b.lostFrom.filter (fun x => x.2.2 / 4096 != d) }

/-- The codec's blocks, columns and gathered rows of a die are gone; a column that other dies decode too goes on there. -/
def cdcClear (c : Cdc) (d : Nat) : Cdc :=
  { c with jobs := others c.jobs d (· / 4), caps := others c.caps d (· / 4),
           capWait := c.capWait.filter (fun b => dieOfPort b.port != d), accs := c.accs.filter (fun a => dieOfPort a.port != d),
           gaps := c.gaps.filter (fun p => dieOfPort p != d),
           cols := (c.cols.map (fun x => { x with engs := x.engs.filter (fun k => k / 4 != d) })).filter (fun x => !x.engs.isEmpty) }

/-- The queues and caches of a die's memories are gone; their contents, and the fence table, stay. -/
def memClear (s : State) (d : Nat) : State :=
  { s with srm := { s.srm with chs := others s.srm.chs d (· / 16) },
           hbm := { s.hbm with pcs := others s.hbm.pcs d (· / 32), fills := s.hbm.fills.filter (fun f => f.die != d),
                               spcs := Tbl.del d s.hbm.spcs, retrain := Tbl.del d s.hbm.retrain,
                               trained := Tbl.del d s.hbm.trained, 
                               ind := s.hbm.ind.filter (fun e => e.1 != d &&
                                 s.hbm.fills.any (fun f => f.who == some (indWho e.1) && f.die != d)) } }

/-- What the Benchmark slice of a die and its part of twin mode hold is gone. -/
def sliceClear (s : State) (d : Nat) : State :=
  let b := s.bmk
  let b := { b with view := Tbl.del d b.view, viewAcc := Tbl.del d b.viewAcc, msgs := Tbl.del d b.msgs,
                    srcView := others b.srcView d (· / 1024), prepAt := Tbl.del d b.prepAt, held := b.held.filter (· != d),
                    lastHzn := others b.lastHzn d (· % 8), hznAt := others b.hznAt d (· % 8) }
  let w := s.twn
  let w := { w with twseq := w.twseq.filter (fun e => e.1 != d), recs := others w.recs d (· / 64),
                    sent := w.sent.filter (fun e => e.die != d), beat := Tbl.del d w.beat, hold := Tbl.del d w.hold }
  { s with bmk := b, twn := w }

/-- The collectors and drivers of a die stop. -/
def dstClear (x : Dst) (d : Nat) : Dst :=
  { x with colls := others x.colls d (· / 64), collRR := others x.collRR d (· / 64), pinQ := Tbl.del d x.pinQ }

/-- The register windows of a die that a die reset resets: FAB, SCH, TRN, SRM, HBM, SPC, CDC and DMA (R558), but for the
violation logs of its two ports, which only a package reset clears (R149). -/
def dieRegs (s : State) (d : Nat) : State :=
  [(0, 0x200A0), (0x200A8, 0x20100), (0x20300, 0x280A0), (0x280A8, 0x28100), (0x28300, 0x90000), (0x100000, 0x200000)].foldl
    (fun s (x : Nat × Nat) => resetRange s (0x1000000 + dieO d + x.1) (0x1000000 + dieO d + x.2)) s

/-- The hidden state of a die's ports. -/
def portsClear (s : State) (d : Nat) : State := { s with ports := others s.ports d dieOfPort }

/-- An epoch switch that waited only for a die no longer up goes on (R94 step 4). -/
def switchGoesOn (s : State) : State :=
  match s.bmk.sw with
  | some w => setSwitch s w
  | none => s

/-- STATE of a die's reset, with the fc of its change (R570). -/
def dieState (s : State) (d : Nat) : Nat := getF s F.CLK_DIE_RST_STATE (d * 8)

/-- STATE of a die's reset set. -/
def setDieState (s : State) (d st : Nat) : State :=
  if dieState s d = st then s else setF (setF s F.CLK_DIE_RST_STATE (d * 8) st) F.CLK_DIE_RST_FC (d * 8) (wall s)

/-- A die enters die reset (R558): its transfers and jobs complete, its queues, tasks and registers are reset. PKG_EDGE keeps
what the routing of other dies' traffic needs, the state of an edge; its counters reset (R570). -/
def resetDie (s : State) (d : Nat) : State :=
  let s := dieAbort s d
  let s := modCdc (modFab s (fun b => fabClear b d)) (fun c => cdcClear c d)
  let s := sliceClear (memClear { s with dst := dstClear s.dst d } d) d
  let s := portsClear (dieRegs s d) d
  let s := (List.range 3).foldl (fun s e =>
    setF (setF s F.PKG_EDGE_LOSSES (edgeO d e) 0) F.PKG_EDGE_DROPPED (edgeO d e) 0) s
  switchGoesOn (setDieState s d 2)

/-! ### Chain edges (R34, R555 step 5, R561) -/

/-- The die at the other end of edge `e` of die `d`, if the part has it. -/
def edgeFar (s : State) (d e : Nat) : Option Nat :=
  let n := if e = 0 then (if d % 2 = 0 then some (d + 1) else some (d - 1))
    else if e = 1 then (if 2 ≤ d then some (d - 2) else none)
    else if e = 2 then some (d + 2) else none
  n.filter (fun x => present s.part x && present s.part d)

/-- Both ends of an edge take a state and a number of attempts. -/
def setEdge (s : State) (d e st tries : Nat) : State :=
  match edgeFar s d e with
  | none => s
  | some n => [(d, e), (n, edgeToward n d)].foldl (fun s (x : Nat × Nat) =>
      setF (setF s F.PKG_EDGE_STATE (edgeO x.1 x.2) st) F.PKG_EDGE_ATTEMPTS (edgeO x.1 x.2) tries) s

/-- The edges of a die train: all of them, or only those that are DOWN (R561). Training succeeds (log entry 14). -/
def trainEdges (s : State) (d : Nat) (onlyDown : Bool) : State :=
  (List.range 3).foldl (fun s e =>
    if onlyDown && getF s F.PKG_EDGE_STATE (edgeO d e) != 0 then s else setEdge s d e 2 0) s

/-! ### Bring-up of a die (R555 steps 4 to 6) -/

/-- Brim sets the enables of a released die (R257, R376, R413, R437 and 13_dma.md). -/
def enableDie (s : State) (d : Nat) : State :=
  let o := dieO d
  let s := setF (setF s F.FAB_CTL_ENABLE o 1) F.SRM_CTL_ENABLE o 1
  let s := setF (setF (setF s F.HBM_STACK_CTL_ENABLE o 1) F.SPC_CTL_ENABLE o 1) F.SPC_STAT_STATE o 1
  let s := (List.range 4).foldl (fun s e => setF s F.CDC_CTL_ENABLE (cdcO d e) 1) s
  (List.range 64).foldl (fun s n => setF (setChan s d n { creditAt := s.now }) F.DMA_CTL_ENABLE (dmaO d n) 1) s

/-- Brim restores the fences and the interleave of a stack from the fence table (R380, R394). -/
def restoreFences (s : State) (d : Nat) : State :=
  let m := Tbl.getD s.hbm.fences d 0
  let s := (List.range 32).foldl (fun s c =>
    if bits m c 1 = 1 then
      let s := setF s F.HBM_PC_STAT_STATE (pcO d c) 3
      if bits m (32 + c) 1 = 1 then setF s F.HBM_PC_STAT_FENCE_CAUSE (pcO d c) 1 else setF s F.HBM_PC_CTL_FENCE (pcO d c) 1
    else s) s
  match Tbl.get? d s.hbm.skips with
  | some c => setF (setF (setF s F.HBM_STACK_CTL_SKIP_EN (dieO d) 1) F.HBM_STACK_CTL_SKIP_PC (dieO d) c) F.HBM_STACK_STAT_UNITS (dieO d) 32
  | none => s

/-- A stack trains: every pseudo-channel that is not fenced finds a setting, whose value and margin are free (log entries 5 and
14). -/
def trainStack (s : State) (d : Nat) : State :=
  let s := (List.range 32).foldl (fun s c =>
    if pcState s d c = 3 then s
    else
      let a := fresh s 8
      let b := fresh a.2 8
      setF (setF (setF b.2 F.HBM_PC_TRAIN_SETTING (pcO d c) a.1) F.HBM_PC_TRAIN_MARGIN (pcO d c) b.1) F.HBM_PC_TRAIN_FC (pcO d c) (wall b.2)) s
  setF s F.HBM_STACK_STAT_TRAINED (dieO d) 1

/-- The slice of die `d` hears of G and of the horizons of the other dies' sources (R81, R82). -/
def sendViews (s : State) (d : Nat) : State :=
  ((knownSources s).filter (fun n => dieOfPort (getF s F.BMK_SRC_STAT_PORT (srcO n)) != d)).foldl (fun s n =>
    sendG s [d] ⟨some n, srcHzn s n, getF s F.BMK_SRC_STAT_LAST_ACCEPT (srcO n)⟩) (sendG s [d] ⟨none, hznG s, s.bmk.acc⟩)

/-- A released die has come up: its enables are set and its slice hears of the horizons. -/
def dieComesUp (s : State) (d : Nat) : State := sendViews (setDieState (enableDie s d) d 0) d

end Sys2Proof.Machine
end

