-- ==== Sys2Proof/Machine/Isolate.lean ====
section
/-! DEFINITION. FATAL errors, the loss of a die of a twinned pair, and the loss of a host port (17_security_errors.md R591;
15_twin_power.md R526 to R531; 16_clocks_bringup.md R562; 10_hbm_cache.md R398). Commands CACHE_LOOKUP, CONTROL_STATE_PARITY,
HEARTBEAT_TIMEOUT, DIE_DIGEST and HOST_PORT_LOSS. -/

namespace Sys2Proof.Machine

/-- Reasons of 15_twin_power.md and 17_security_errors.md. -/
def rsnPairLost : Nat := 0x1001
def rsnDieFailed : Nat := 0x1002
def rsnDigest : Nat := 0x1003
def rsnHeartbeat : Nat := 0x1004
def rsnPortLost : Nat := 0x1201
def rsnParity : Nat := 0x1308
def rsnDieFatal : Nat := 0x1309
def rsnHostDie : Nat := 0x130A

/-! ### The loss of a host port (R562) -/

/-- A host port is lost: its functions are reset at once with HOST_PORT_LOST; a function reset already running is taken over
(R568). -/
def portLost (s : State) (p : Nat) : State :=
  let s := satF (setF (setF (setF s F.CLK_PORT_LINK_UP (p * 8) 0) F.CLK_PORT_SPEED (p * 8) 0) F.CLK_PORT_WIDTH (p * 8) 0)
    F.CLK_PORT_LOSSES (p * 8) 1
  let s := { s with fns := { s.fns with resets := s.fns.resets.filter (fun e => pfOf e.1 != p) } }
  let s := beginReset s p rsnPortLost true
  logC (raise s F.CLK_EVENT_PORT_LOST 0) p rsnPortLost fnNone p 0

/-- HOST_PORT_LOSS (R562): the port's link leaves DL_Active, or its PERST_N is asserted. After a completed quiesce the link
only goes down (R566). -/
def hostPortLoss (s : State) (p : Nat) : State :=
  if isSet s F.CLK_PORT_LINK_UP (p * 8) = false then s
  else if isSet s F.CLK_HP_SAFE 0 then
    let s := setF s F.CLK_PORT_LINK_UP (p * 8) 0
    refreshFn s p
  else portLost s p

def execHostPortLoss (p : Nat) (s : State) : Res := .next (hostPortLoss s p)

/-! ### Contexts on lost dies (R531, R591) -/

/-- Whether a traverse has a cell, or a region part that it names, on one of the dies `ds`. -/
def touchesDies (p : Plat) (v : Trav) (ds : List Nat) : Bool :=
  v.cells.any (fun g => ds.contains (g / 4096)) ||
  (p.parts.filter (fun r => (travRegions p v).contains r.region)).any (fun r => ds.contains r.die)

/-- The numbers of the active traverses with a cell or region part on the dies `ds`. -/
def travsOn (s : State) (ds : List Nat) : List Nat :=
  s.plats.active.flatMap (fun p => (p.travs.filter (fun v => touchesDies p v ds)).map (·.num))

/-- The stake firings of picked traverses with work in the fabric. -/
def stakeCtxs (s : State) (hit : Nat → Bool) : List (Nat × Nat) :=
  let toks := s.fab.inQ.flatMap (fun e => e.2.map (·.tok)) ++ s.fab.store.flatMap (fun e => e.2.flatMap (·.toks)) ++
    s.fab.ready.flatMap (fun e => e.2.map (·.key)) ++ s.fab.passes.map (fun e => e.2.task.key) ++
    s.fab.chainRx.flatMap (fun e => e.2.map (·.tok)) ++ s.fab.outb.flatMap (fun e => e.2.filterMap (fun x =>
      match x.work with
      | .copies t _ => some t
      | _ => none))
  (toks.filter (fun t => hit t.trav && ctxKind t.ctx == 2)).foldl (fun acc t =>
    if acc.contains (t.trav, t.ctx) then acc else (t.trav, t.ctx) :: acc) []

/-- The open source streams of picked traverses. -/
def streamCtxs (s : State) (hit : Nat → Bool) : List (Nat × Nat) :=
  (allStreamTravs s).flatMap (fun pv =>
    if hit pv.2.num then ((knownSources s).filter (fun n => srcHeld s n && mayDeliver s n pv.1)).map (fun n => (pv.2.num, ctxSource n))
    else [])

/-- The requests of picked invocation contexts no longer wait. -/
def dropInvRequests (s : State) (hit : Nat → Bool) : State :=
  let mine := fun (r : MemReq) => hit r.trav && ctxKind r.ctx == 1
  s.fab.outb.foldl (fun s e => setOut s e.1 (e.2.filter (fun x => match x.work with
    | .copies _ _ => true
    | .leaving r => !mine r
    | .outstanding r _ => !mine r))) s

/-- Every open context of picked traverses completes with a status and reason, unless a failure came first (R28), and the
certificates of the traverses are withdrawn (R344): those of the active plats, not of a staged one that carries the number again. -/
def failContexts (s : State) (hit : Nat → Bool) (status reason : Nat) : State :=
  let s := (streamCtxs s hit ++ stakeCtxs s hit).foldl (fun s x => markFail s x.1 x.2 status reason) s
  let p := fun t c => hit t && ctxKind c == 1
  let s := dropInvRequests (purgeTravel (purgeTiles s p true false false) p false) hit
  withdrawCert (abortInvs s hit status reason) (fun r => hit r.trav && s.plats.active.any (fun p => p.handle == r.handle))

/-! ### Isolation (R528 step 1, R591) -/

/-- The SOURCE_LOST markers that the Benchmark slice of a die still has to send (R99, R300). -/
def lostMarkers (s : State) (d : Nat) : Tbl (List OutEnt) :=
  (s.fab.outb.filter (fun e => isSlice e.1 && dieOfSrc e.1 == d)).map (fun e =>
    (e.1, e.2.filter (fun x => match x.work with
      | .copies t _ => t.kind == .control && t.sub == 2
      | _ => false)))

/-- The ports of a die go to DISABLED and their sources detach with DETACH_LOCK. -/
def portsDown (s : State) (d : Nat) : State :=
  ([2 * d, 2 * d + 1].filter (fun p => decide (p < s.part.ports))).foldl (fun s p => disablePort s p 0 rsnLock) s

/-- Brim isolates a die and holds it in die reset (R528 steps 1 and 5, R591 steps 1, 2, 4 and 5). The markers of its lost
sources are still sent. -/
def isolate (s : State) (d : Nat) : State :=
  let s := portsDown s d
  let ms := lostMarkers s d
  let s := resetDie s d
  let s := ms.foldl (fun s e => if e.2.isEmpty then s else setOut s e.1 e.2) s
  setF (setF s F.CLK_DIE_RST_HOLD (d * 8) 1) F.CLK_DIE_RST_BY_BRIM (d * 8) 1

/-! ### A failed die of a pair (R527 to R531) -/

/-- The replicas of accepted frames that the splitters of the failing die `d` owe to the survivor `x` have already crossed the
vertical edge (R516). -/
def keepReplicas (s : State) (d x : Nat) : State :=
  (s.fab.outb.filter (fun e => decide (0x10000 ≤ e.1 ∧ e.1 < 0x20000) && dieOfSrc e.1 == d)).foldl (fun s e =>
    e.2.foldl (fun s o => match o.work with
      | .copies t ds => ds.foldl (fun s (c : Dest) => match c with
          | .cell g slot => if g / 4096 = x then chainPut s x ⟨2 ^ x, g % 4096, { t with slot := slot }, e.1, o.fc, false⟩ else s
          | _ => s) s
      | _ => s) s) s

/-- The inputs at a pair's gate that have arrived on the survivor `x` stay (R517). -/
def keepGate (s : State) (k x : Nat) : State :=
  { s with twn := { s.twn with gate := s.twn.gate.filter (fun e => e.pair != k || (if x % 2 = 0 then e.at0 else e.at1)) } }

/-- A host port whose die is gone is lost (R529). -/
def portOfDie (s : State) (d : Nat) : State := if d < 2 ∧ isSet s F.CLK_PORT_LINK_UP (d * 8) then portLost s d else s

/-- A die of a TWINNED pair has failed (R528, R529): `cause` 1 FATAL, 2 silence, 3 digest, 0 the loss of the vertical edge. The
new lead drives the rows of its hold queue. -/
def failDie (s : State) (d cause : Nat) : State :=
  let k := d / 2
  let o := k * 0x40
  let x := 2 * k + (1 - d % 2)
  let wasLead := leadDie s k == d
  let rows := if wasLead then (Tbl.getD s.twn.hold x []).map (·.1) else []
  let s := isolate (keepGate (keepReplicas s d x) k x) d
  let s := { s with twn := { s.twn with hold := Tbl.del x s.twn.hold } }
  let s := setF (setF s F.TWN_PAIR_STAT_LEAD o (x % 2)) F.TWN_PAIR_STAT_STATE o 3
  let s := setF (setF s F.TWN_PAIR_STAT_FAILED o (2 ^ (d % 2))) F.TWN_PAIR_STAT_CAUSE o cause
  let s := raise s F.TWN_EVENT_DIE_FAILED 0
  let s := logErr s { sev := sevFatal, die := d, reason := if cause = 2 then rsnHeartbeat else rsnDieFailed, inst := k }
  portOfDie (rows.foldl passPin s) d

/-- The survivor of a SOLO pair has failed too (R531). -/
def pairLost (s : State) (k : Nat) : State :=
  let x := leadDie s k
  let o := k * 0x40
  let ts := travsOn s [2 * k, 2 * k + 1]
  let s := failContexts s (fun t => ts.contains t) stError rsnPairLost
  let s := isolate s x
  let s := setF (setF s F.TWN_PAIR_STAT_STATE o 4) F.TWN_PAIR_STAT_FAILED o 3
  let s := raise s F.TWN_EVENT_PAIR_LOST 0
  let s := [2 * k, 2 * k + 1].foldl (fun s d => logErr s { sev := sevFatal, die := d, reason := rsnPairLost, inst := k }) s
  portOfDie s x

/-! ### FATAL entries (R591) -/

/-- A SYNCING pair that loses a die or its edge returns to OFF (R527). -/
def syncStops (s : State) (k : Nat) : State :=
  if syncing s k then setF (setF s F.TWN_PAIR_STAT_STATE (k * 0x40) 0) F.TWN_PAIR_CTL_ENABLE (k * 0x40) 0 else s

/-- The package halts because of a FATAL entry of `die` (R591). -/
def hostDieHalt (s : State) (die : Nat) : State :=
  logErr (haltPackage s id) { sev := sevHalt, die := 15, reason := rsnHostDie, inst := die }

/-- A FATAL entry takes its die out of service (R591). -/
def fatalActs (s : State) (d : Nat) : State :=
  let k := d / 2
  if d < 8 ∧ dieUp s d = false then s
  else if d < 8 ∧ twinned s k then failDie s d 1
  else if d < 8 ∧ pairLive s k then pairLost s k
  else if d < 2 ∨ d = 8 then hostDieHalt s d
  else if d < 8 then
    let ts := travsOn s [d]
    syncStops (isolate (failContexts s (fun t => ts.contains t) stError rsnDieFatal) d) k
  else s

/-- A FATAL error of a die is logged and acts (R584, R591). -/
def fatal (s : State) (d reason inst detail : Nat) : State :=
  fatalActs (logErr s { sev := sevFatal, die := d, reason := reason, inst := inst, detail := detail }) d

/-- CACHE_LOOKUP (R397): `parity` tells in which way of the set the lookup finds a parity error; one in a tag or a dirty line is
FATAL (R398). -/
def cacheLookup (s : State) (d parity : Nat) : State :=
  let x := lookupParity s d parity
  if x.2 then fatal x.1 d rsnParity (getF x.1 F.SPC_ERR_SET (dieO d)) (getF x.1 F.SPC_ERR_WAY (dieO d)) else x.1

def execCacheLookup (d parity : Nat) (s : State) : Res := .next (cacheLookup s d parity)

/-- CONTROL_STATE_PARITY (R591): an error in the control state of an engine die, or of Brim (8). -/
def execControlStateParity (d : Nat) (s : State) : Res :=
  .next (if d = 8 ∨ dieUp s d then fatal s d rsnParity 0 0 else s)

/-! ### Silence and digests (R524 to R526) -/

/-- A die of a SOLO pair is declared silent in the fc in which the other was: both have failed (R526, case 2). -/
def bothSilent (s : State) (d : Nat) : Bool :=
  let o := d / 2 * 0x40
  getF s F.TWN_PAIR_STAT_STATE o == 3 && getF s F.TWN_PAIR_STAT_CAUSE o == 2 && leadDie s (d / 2) == d &&
    getF s F.CLK_DIE_RST_FC ((d / 2 * 2 + (1 - d % 2)) * 8) == wall s % 2 ^ 32

/-- HEARTBEAT_TIMEOUT (R524, R526): die `d` of a TWINNED pair is silent. -/
def heartbeatTimeout (s : State) (d : Nat) : State :=
  if 8 ≤ d then s
  else if twinned s (d / 2) then failDie s d 2
  else if bothSilent s d then pairLost s (d / 2)
  else s

def execHeartbeatTimeout (d : Nat) (s : State) : Res := .next (heartbeatTimeout s d)

/-- TWN_DIGEST and TWN_DIGEST_EPOCH of a die show its last digest. -/
def showDigest (s : State) (x : DieDigest) : State :=
  let s := (List.range 4).foldl (fun s w => setF s F.TWN_DIGEST_DIGEST (x.die * 0x20 + w * 8) (fld x.digest (8 * w) 8)) s
  setF s F.TWN_DIGEST_EPOCH_EPOCH (x.die * 8) x.epoch

/-- Brim compares the two digests of a pair (R525, R526): with exactly one die that logged a DEFERRED entry of block SRM, HBM or
SPC in the epoch, that one has failed, else the one that was shadow at its end. -/
def compareDigests (s : State) (x y : DieDigest) : State :=
  let k := x.die / 2
  let o := k * 0x40
  let s := addF s F.TWN_PAIR_DIG_COMPARED o 1
  if x.digest = y.digest then s
  else
    let s := raise (satF s F.TWN_PAIR_DIG_MISMATCHES o 1) F.TWN_EVENT_MISMATCH 0
    let ex := s.twn.deferred.contains (x.die, x.epoch)
    let ey := s.twn.deferred.contains (y.die, x.epoch)
    let d := if ex != ey then (if ex then x.die else y.die) else if x.shadow then x.die else y.die
    let s := logErr s { sev := sevFatal, die := d, reason := rsnDigest, inst := k, detail := x.epoch }
    let s := if ex != ey then s else setF s F.TWN_PAIR_STAT_UNRESOLVED o 1
    if twinned s k then failDie s d 3 else s

/-- DIE_DIGEST (R525): the oldest die digest of die `d` on its way reaches Brim, which compares it when the other die's is
there. -/
def dieDigest (s : State) (d : Nat) : State :=
  match s.twn.sent.find? (fun x => x.die == d) with
  | none => s
  | some x =>
    let s := showDigest { s with twn := { s.twn with sent := s.twn.sent.erase x } } x
    let y? := s.twn.received.find? (fun y => y.die / 2 == d / 2 && y.die != d && y.epoch == x.epoch)
    match y? with
    | some y => compareDigests { s with twn := { s.twn with received := s.twn.received.erase y } } x y
    | none => { s with twn := { s.twn with received := x :: s.twn.received } }

def execDieDigest (d : Nat) (s : State) : Res := .next (dieDigest s d)

end Sys2Proof.Machine
end

