-- ==== Sys2Proof/Machine/Twin.lean ====
section
/-! DEFINITION. Twinned pairs (15_twin_power.md R511 to R514, R523, R524, R532). Commands PAIR_ENABLE, PAIR_DISABLE,
SYNC_DONE, HEARTBEAT, HOLD_EXPIRY and ROLE_SWAP. -/

namespace Sys2Proof.Machine

/-- STATE of a pair (R511). -/
def pairState (s : State) (k : Nat) : Nat := getF s F.TWN_PAIR_STAT_STATE (k * 0x40)

/-- Pair `k` exists: two dies of the part; the M-820 has no pair (R511). -/
def pairThere (s : State) (k : Nat) : Bool := s.part != .m820 && present s.part (2 * k) && present s.part (2 * k + 1)

/-- The entries of owner table `t` that belong to die `d`. -/
def dieEntries (s : State) (t d : Nat) : List Nat := (listed s t).filter (fun i => i / perDie t == d)

/-- Whether an entry of die D2k+1 is taken, as it reads (R514): owned, dirty, or, where the pair does not mirror, wanted. -/
def entryTaken (s : State) (k t : Nat) : Bool :=
  if mirrored s k then (dieEntries s t (2 * k)).any (fun i => ownerOf s t i != fnNone || dirtyOf s t i)
  else (dieEntries s t (2 * k + 1)).any (fun i => ownerOf s t i != fnNone || nextOf s t i != fnNone || dirtyOf s t i)

/-- Whether pair `k` counts as enabled for TWN_PAIR_CTL.ENABLE (R512). -/
def pairBusy (s : State) (k : Nat) : Bool :=
  (List.range 128).any (fun i => tileEnabled s (k * 128 + i)) || (List.range 4).any (entryTaken s k) || changePending s

/-- TWN_PAIR_STAT of a pair that starts afresh. -/
def clearPair (s : State) (k : Nat) : State :=
  let o := k * 0x40
  let s := setF (setF (setF s F.TWN_PAIR_STAT_LEAD o 0) F.TWN_PAIR_STAT_FAILED o 0) F.TWN_PAIR_STAT_CAUSE o 0
  setF (setF s F.TWN_PAIR_STAT_UNRESOLVED o 0) F.TWN_PAIR_STAT_EDGE o 0

/-- A write of 1 to TWN_PAIR_CTL.ENABLE by `fn` (R512): an OFF pair enters SYNCING. -/
def pairEnable (s : State) (fn k : Nat) : State :=
  if pairThere s k = false ∨ pairState s k ≠ 0 then s
  else if pairBusy s k then logWWR s fn (F.TWN_PAIR_CTL_ENABLE.base + k * 0x40)
  else setF (setF (clearPair s k) F.TWN_PAIR_CTL_ENABLE (k * 0x40) 1) F.TWN_PAIR_STAT_STATE (k * 0x40) 1

def execPairEnable (fn k : Nat) (s : State) : Res := .next (pairEnable s fn k)

/-- A write of 0 to TWN_PAIR_CTL.ENABLE by `fn` (R512): the pair returns to OFF. -/
def pairDisable (s : State) (fn k : Nat) : State :=
  if pairThere s k = false ∨ pairState s k = 0 then s
  else if pairBusy s k then logWWR s fn (F.TWN_PAIR_CTL_ENABLE.base + k * 0x40)
  else
    let s := { s with twn := { s.twn with gate := s.twn.gate.filter (fun e => e.pair != k),
                                          hold := s.twn.hold.filter (fun e => e.1 / 2 != k) } }
    setF (setF s F.TWN_PAIR_CTL_ENABLE (k * 0x40) 0) F.TWN_PAIR_STAT_STATE (k * 0x40) 0

def execPairDisable (fn k : Nat) (s : State) : Res := .next (pairDisable s fn k)

/-! ### The copy (R512) -/

/-- A dirty line reaches DRAM, unless its pseudo-channel does not run (R391). -/
def settleLine (s : State) (d k : Nat) (l : CLine) : State :=
  let ln := keyLine k l.tag
  if l.dirty = 0 ∨ lineState s d ln ≠ 0 then s
  else modSpc (dramWrite s d ln (sectorTbl l.data l.dirty)) d (fun c => { c with lines := Tbl.put k { l with dirty := 0 } c.lines })

/-- The writes of a stack's spill cache and controllers reach its DRAM; the cache's lines stay, clean. -/
def settle (s : State) (d : Nat) : State :=
  let s := (s.hbm.pcs.filter (fun e => e.1 / 32 == d)).foldl (fun s e =>
    e.2.wq.foldl (fun s (_ : WqEnt) => issueWrite s d (e.1 % 32)) s) s
  (spcOf s d).lines.foldl (fun s e => settleLine s d e.1 e.2) s

/-- A stack's cache and queues hold nothing. -/
def dropCached (s : State) (d : Nat) : State :=
  let s := modSpc s d (fun c => { c with lines := [] })
  { s with hbm := { s.hbm with pcs := others s.hbm.pcs d (· / 32) } }

/-- HBM units of die D2k with an owner. -/
def ownedUnits (s : State) (k : Nat) : List Nat := (dieEntries s 2 (2 * k)).filter (fun i => ownerOf s 2 i != fnNone)

/-- What D2k+1 takes over from D2k: owned HBM units, every stack SRAM slice with its error state, every tile store. -/
def copyPair (s : State) (k : Nat) : State :=
  let a := 2 * k
  let s := dropCached (settle s a) (a + 1)
  let s := (ownedUnits s k).foldl (fun s i =>
    copyMem s 2 (hbmAddr a (i % 64 * 2 ^ 30)) (hbmAddr (a + 1) (i % 64 * 2 ^ 30)) (2 ^ 30)) s
  let s := copyMem s 1 (a * 2 ^ 30) ((a + 1) * 2 ^ 30) (2 ^ 30)
  let move := fun (ws : List Nat) => ws.filter (fun w => w * 8 / 2 ^ 30 != a + 1) ++
    (ws.filter (fun w => w * 8 / 2 ^ 30 == a)).map (· + 2 ^ 27)
  let s := { s with srm := { s.srm with ce := move s.srm.ce, ue := move s.srm.ue } }
  copyMem s 0 (a * 2 ^ 27) ((a + 1) * 2 ^ 27) (2 ^ 27)

/-- SYNC_DONE (R512): the copy of a SYNCING pair ends, over an edge that is UP and between dies that run; D2k leads. -/
def syncDone (s : State) (k : Nat) : State :=
  if syncing s k && edgeUp s (2 * k) 0 && dieUp s (2 * k) && dieUp s (2 * k + 1) then
    let n := (ownedUnits s k).length * 2 ^ 30 + 2 ^ 30 + 2 ^ 27
    let s := setF (setF (copyPair s k) F.TWN_PAIR_SYNC_BYTES (k * 0x40) n) F.TWN_PAIR_STAT_STATE (k * 0x40) 2
    let t := s.twn
    let s := { s with twn := { t with beat := Tbl.put (2 * k) s.now (Tbl.put (2 * k + 1) s.now t.beat),
                                      twseq := t.twseq.filter (fun e => e.1 / 2 != k) } }
    raise (setF s F.TWN_PAIR_STAT_LEAD (k * 0x40) 0) F.TWN_EVENT_SYNCED 0
  else s

def execSyncDone (k : Nat) (s : State) : Res := .next (syncDone s k)

/-! ### Heartbeats, hold queues, role swaps -/

/-- HEARTBEAT (R524): a heartbeat of die `d` reaches Brim. -/
def execHeartbeat (d : Nat) (s : State) : Res :=
  .next (if twinned s (d / 2) then { s with twn := { s.twn with beat := Tbl.put d s.now s.twn.beat } } else s)

/-- HOLD_EXPIRY (R523): the oldest row of a shadow's hold queue has been kept its time. -/
def execHoldExpiry (d : Nat) (s : State) : Res :=
  .next { s with twn := { s.twn with hold := match Tbl.getD s.twn.hold d [] with
    | _ :: [] => Tbl.del d s.twn.hold
    | _ :: t => Tbl.put d t s.twn.hold
    | [] => s.twn.hold } }

/-- Pair `k` swaps lead and shadow; the new lead's hold queue is discarded and the new shadow's starts empty (R532). -/
def swapPair (s : State) (k : Nat) : State :=
  let o := k * 0x40
  let s := { s with twn := { s.twn with hold := s.twn.hold.filter (fun e => e.1 / 2 != k) } }
  let s := setF s F.TWN_PAIR_STAT_LEAD o (1 - getF s F.TWN_PAIR_STAT_LEAD o)
  raise (addF s F.TWN_PAIR_STAT_SWAPS o 1) F.TWN_EVENT_SWAPPED 0

/-- Every TWINNED pair swaps. -/
def swapPairs (s : State) : State :=
  ((List.range 4).filter (twinned s)).foldl swapPair { s with twn := { s.twn with swapDue := false } }

/-- ROLE_SWAP (R532): while SWAP_EN is 1; during an epoch switch the swap waits until dispatch has resumed on every die
(R538). -/
def roleSwap (s : State) : State :=
  if isSet s F.TWN_CTL_SWAP_EN 0 = false then s
  else if s.bmk.sw.isSome then { s with twn := { s.twn with swapDue := true } }
  else swapPairs s

def execRoleSwap (s : State) : Res := .next (roleSwap s)

end Sys2Proof.Machine
end

