-- ==== Sys2Proof/Machine/Sec.lean ====
section
/-! DEFINITION. Trust, attestation, debug unlock and the error log's commands (17_security_errors.md R571 to R583, R589,
R594, R598). Commands SEC_SVN_COMMIT, INSTALL, CLEAR, ATTEST_REQ, ATTEST_DONE, CHALLENGE, SUBMIT, DEBUG_VERIFY_DONE,
ERR_SLOT_FREE, ERR_INJECT and ERASE. -/

namespace Sys2Proof.Machine

/-- Brim's die number in a log entry (R584). -/
def dieBrim : Nat := 8

/-- Reasons of 17_security_errors.md. -/
def rsnInjected : Nat := 0x130C
def rsnSealed : Nat := 0x130D
def rsnDebugActive : Nat := 0x1406
def rsnNoChallenge : Nat := 0x1407
def rsnDebugKey : Nat := 0x1408
def rsnDebugSig : Nat := 0x1409
def rsnUnlocked : Nat := 0x140B

/-- The hidden state of the security services changed. -/
def modSec (s : State) (f : Sec → Sec) : State := { s with sec := f s.sec }

/-! ### Measurements (R573) -/

/-- A 32-byte digest shown in four registers. -/
def setDigest (s : State) (f : Fld) (o : Nat) (d : Bytes) : State :=
  (List.range 4).foldl (fun s w => setF s f (o + w * 8) (fld d (8 * w) 8)) s

/-- A 32-byte digest as four registers show it. -/
def getDigest (s : State) (f : Fld) (o : Nat) : Bytes := (List.range 4).flatMap (fun w => leBytes 8 (getF s f (o + w * 8)))

/-- The digest of plat key slot `k` (R576): slot 0 holds the key in ROM. -/
def slotDigest (s : State) (k : Nat) : Bytes :=
  if k = 0 then sha3 Config.romPlatKey else getDigest s F.SEC_PK_DIG_DIGEST (k * 0x20)

/-- PLAT_POLICY bits [31:0]. -/
def policyWord (s : State) : Nat :=
  getF s F.PLAT_POLICY_REQUIRE_SIGNED 0 + getF s F.PLAT_POLICY_LOCK 0 * 2 + getF s F.PLAT_POLICY_MIN_SVN 0 * 2 ^ 16

/-- M_POLICY is recomputed (R573). -/
def refreshPolicy (s : State) : State :=
  setDigest s F.SEC_MEAS_DIGEST 0x40 (sha3 (leBytes 4 (policyWord s) ++ (List.range 8).flatMap (slotDigest s) ++
    leBytes 1 (getF s F.SEC_DBG_STAT_STATE 0 + getF s F.SEC_DBG_STAT_GRANTED 0 * 4)))

/-! ### Boot images (R571, R572, R574) -/

/-- Bytes of an image's signature. -/
def sigLen : Nat := 2420

/-- The first failing check of R572 on an image, as a cause code; 0 when it passes. -/
def imageCause (s : State) (kind : Nat) (img : Bytes) : Nat :=
  let len := fld img 8 4
  let key := byteAt img 5
  let body := 64 + len
  if img.length < 64 ∨ (len % 64 = 0 ∧ len ≤ 2 ^ 23 ∧ img.length < body + sigLen) then 5
  else if fld img 0 4 ≠ 0x4D495242 ∨ byteAt img 4 ≠ kind ∨ 1 < key ∨ len % 64 ≠ 0 ∨ 2 ^ 23 < len ∨
      allZero (sub img 12 52) = false then 1
  else if key = 0 ∧ s.sec.key0Revoked = true then 3
  else if Config.mldsaVerify (Config.romImageKey key) (sub img 0 body) (sub img body sigLen) = false then 2
  else if fld img 6 2 < s.sec.minSvn then 4
  else 0

/-- The cause code of a flash slot: of its firmware image, else of its microcode image. -/
def slotCause (s : State) (slot : Nat) : Nat :=
  let c := imageCause s 0 (Config.flashImage slot 0)
  if c = 0 then imageCause s 1 (Config.flashImage slot 1) else c

/-- The header and body of an image. -/
def imageBody (img : Bytes) : Bytes := sub img 0 (64 + fld img 8 4)

/-- SEC_BOOT shows the fuses. -/
def showFuses (s : State) : State :=
  setF (setF s F.SEC_BOOT_MIN_SVN 0 s.sec.minSvn) F.SEC_BOOT_KEY0_REVOKED 0 (if s.sec.key0Revoked then 1 else 0)

/-- Brim runs the images of a slot: versions and measurements (R572, R573, R575). -/
def bootSlot (s : State) (slot : Nat) : State :=
  let fw := Config.flashImage slot 0
  let uc := Config.flashImage slot 1
  let s := setF (setF (setF s F.SEC_BOOT_IMAGE 0 slot) F.SEC_BOOT_FW_SVN 0 (fld fw 6 2)) F.SEC_BOOT_UCODE_SVN 0 (fld uc 6 2)
  let s := setDigest (setDigest s F.SEC_MEAS_DIGEST 0 (sha3 (imageBody fw))) F.SEC_MEAS_DIGEST 0x20 (sha3 (imageBody uc))
  refreshPolicy (setDigest s F.SEC_MEAS_DIGEST 0x60 (sha3 Config.idPublicKey))

/-- SEC_SVN_COMMIT (R574): `data` is the value written; with COMMIT and KEY 0x5356 the fused MIN_SVN rises to the running
firmware's, at most 64. -/
def svnCommit (s : State) (data : Nat) : State :=
  if bits data 0 1 = 1 ∧ bits data 16 16 = 0x5356 then
    showFuses (modSec s (fun c => { c with minSvn := max c.minSvn (min 64 (getF s F.SEC_BOOT_FW_SVN 0)) }))
  else s

def execSecSvnCommit (_fn data : Nat) (s : State) : Res := .next (svnCommit s data)

/-! ### Plat keys (R576, R577) -/

/-- Bytes `off` to `off + n - 1` of a window; absent bytes are zero. -/
def window (t : Tbl Byte) (off n : Nat) : Bytes := (List.range n).map (fun i => Tbl.getD t (off + i) 0)

/-- A plat key slot takes a key, or none. -/
def setKey (s : State) (k : Nat) (key : Option Bytes) : State :=
  let s := setF (modSec s (fun c => { c with keys := match key with
    | some b => Tbl.put k b c.keys
    | none => Tbl.del k c.keys })) F.SEC_PK_CTL_SLOT 0 k
  let v := getF s F.SEC_PK_CTL_VALID 0
  let s := setF s F.SEC_PK_CTL_VALID 0 (if key.isSome then v ||| 2 ^ k else v - bits v k 1 * 2 ^ k)
  let s := setDigest s F.SEC_PK_DIG_DIGEST (k * 0x20) ((key.map sha3).getD [])
  refreshPolicy (raise s F.SEC_EVENT_KEY_CHANGED 0)

/-- A locked slot ignores INSTALL and CLEAR. -/
def keyLocked (s : State) (k : Nat) : Bool := bits (getF s F.SEC_PK_CTL_LOCK 0) k 1 == 1

/-- INSTALL (R576): the key buffer is copied into slot `k` (its low three bits count, as in the register). -/
def keyInstall (s : State) (fn k : Nat) : State :=
  if keyLocked s (k % 8) then logWWR s fn F.SEC_PK_CTL_INSTALL.base
  else setKey s (k % 8) (some (window s.sec.keyBuf 0 1312))

def execInstall (fn k : Nat) (s : State) : Res := .next (keyInstall s fn k)

/-- CLEAR (R576). -/
def keyClear (s : State) (fn k : Nat) : State :=
  if keyLocked s (k % 8) then logWWR s fn F.SEC_PK_CTL_CLEAR.base else setKey s (k % 8) none

def execClear (fn k : Nat) (s : State) : Res := .next (keyClear s fn k)

/-! ### Attestation (R578 to R580) -/

/-- PKG_ID as PF0 reads it. -/
def pkgId (s : State) : Nat :=
  getF s F.PKG_ID_STEPPING 0 + getF s F.PKG_ID_PART 0 * 2 ^ 8 + getF s F.PKG_ID_DIE_COUNT 0 * 2 ^ 16 +
    getF s F.PKG_ID_DIE_PRESENT 0 * 2 ^ 24 + getF s F.PKG_ID_TWIN_CAPABLE 0 * 2 ^ 32 + getF s F.PKG_ID_FAMILY 0 * 2 ^ 48

/-- A plat entry of a report (R580). -/
def platEntry (p : Plat) : Bytes :=
  leBytes 2 p.handle ++ leBytes 2 p.owner ++ leBytes 2 p.svn ++ leBytes 1 (if p.signed then 1 else 0) ++
    leBytes 1 (if p.signed then p.keySlot else 0xFF) ++ leBytes 8 p.platId ++ sub p.measure 0 32

/-- The report body (R579). -/
def reportBody (s : State) : Bytes :=
  let ps := s.plats.active
  let flags := (if getF s F.SEC_DBG_STAT_GRANTED 0 = 0 then 0 else 1) + getF s F.PLAT_POLICY_REQUIRE_SIGNED 0 * 2 +
    getF s F.PLAT_POLICY_LOCK 0 * 4 + (if halted s then 8 else 0)
  leBytes 4 0x54535441 ++ leBytes 2 0x0100 ++ leBytes 2 ps.length ++ leBytes 4 (224 + 48 * ps.length) ++ leBytes 4 flags ++
    leBytes 8 (pkgId s) ++ leBytes 8 (getF s F.BMK_EPOCH_EPOCH 0) ++ leBytes 8 (wall s) ++
    leBytes 2 (getF s F.SEC_BOOT_FW_SVN 0) ++ leBytes 2 (getF s F.SEC_BOOT_UCODE_SVN 0) ++ leBytes 2 s.sec.minSvn ++
    leBytes 2 (getF s F.PLAT_POLICY_MIN_SVN 0) ++ List.replicate 16 0 ++ getDigest s F.SEC_NONCE_NONCE 0 ++
    getDigest s F.SEC_MEAS_DIGEST 0x60 ++ getDigest s F.SEC_MEAS_DIGEST 0 ++ getDigest s F.SEC_MEAS_DIGEST 0x20 ++
    getDigest s F.SEC_MEAS_DIGEST 0x40 ++ ps.flatMap platEntry

/-- A report request completes with a status and reason. -/
def attestEnds (s : State) (status reason : Nat) : State :=
  let s := modSec s (fun c => { c with body := none })
  raise (setF (setF (setF s F.SEC_ATTEST_BUSY 0 0) F.SEC_ATTEST_STATUS 0 status) F.SEC_ATTEST_REASON 0 reason)
    F.SEC_EVENT_ATTEST_DONE 0

/-- ATTEST_REQ (R578): the snapshot is taken; while BUSY is 1 the request is ignored, at debug level 2 it is rejected (R581). -/
def attestReq (s : State) : State :=
  if isSet s F.SEC_ATTEST_BUSY 0 then s
  else if getF s F.SEC_DBG_STAT_GRANTED 0 = 2 then attestEnds s stRejected rsnDebugActive
  else setF (modSec s (fun c => { c with body := some (reportBody s) })) F.SEC_ATTEST_BUSY 0 1

def execAttestReq (s : State) : Res := .next (attestReq s)

/-- ATTEST_DONE (R578): the signed report replaces the report window. -/
def attestDone (s : State) : State :=
  match s.sec.body with
  | none => s
  | some b =>
    let s := modSec s (fun c => { c with report := b ++ sub (Config.mldsaSign b) 0 sigLen })
    setF (attestEnds s stOk 0) F.SEC_ATTEST_REPORT_LEN 0 (b.length + sigLen)

def execAttestDone (s : State) : Res := .next (attestDone s)

/-! ### Debug unlock (R581 to R583) -/

/-- STATE of SEC_DBG_STAT: 0 IDLE, 1 CHALLENGED, 2 VERIFYING, 3 LOCKOUT. -/
def dbgState (s : State) : Nat := getF s F.SEC_DBG_STAT_STATE 0

/-- CHALLENGE (R582): Brim draws a fresh nonce. Ignored in LOCKOUT, and while a response is being verified. -/
def challenge (s : State) : State :=
  if 2 ≤ dbgState s then s
  else
    let s := (List.range 4).foldl (fun s w =>
      let x := fresh s 64
      setF x.2 F.SEC_DBG_CHAL_NONCE (w * 8) x.1) s
    refreshPolicy (setF (modSec s (fun c => { c with nonce := true })) F.SEC_DBG_STAT_STATE 0 1)

def execChallenge (s : State) : Res := .next (challenge s)

/-- A SUBMIT fails (R583); the third failure is the lockout. -/
def dbgFail (s : State) (reason : Nat) : State :=
  let s := modSec s (fun c => { c with nonce := false, sub := none })
  let n := min 3 (getF s F.SEC_DBG_STAT_FAILS 0 + 1)
  let s := setF (setF s F.SEC_DBG_STAT_FAILS 0 n) F.SEC_DBG_STAT_STATE 0 (if n = 3 then 3 else 0)
  let s := setF (setF s F.SEC_DBG_STAT_STATUS 0 stRejected) F.SEC_DBG_STAT_REASON 0 reason
  refreshPolicy (raise s F.SEC_EVENT_DEBUG_DENIED 0)

/-- SUBMIT (R582): the response window is taken with LEVEL, and the nonce is used up. -/
def submit (s : State) : State :=
  if 2 ≤ dbgState s then s
  else if s.sec.nonce = false then dbgFail s rsnNoChallenge
  else
    let r : DbgResp := ⟨window s.sec.resp 0 1312, window s.sec.resp 0x520 sigLen, getF s F.SEC_DBG_CTL_LEVEL 0⟩
    refreshPolicy (setF (modSec s (fun c => { c with nonce := false, sub := some r })) F.SEC_DBG_STAT_STATE 0 2)

def execSubmit (s : State) : Res := .next (submit s)

/-- The signed message of a response: DEVICE_ID, the nonce, LEVEL, 7 zero bytes (R582). -/
def dbgMessage (s : State) (level : Nat) : Bytes :=
  getDigest s F.SEC_MEAS_DIGEST 0x60 ++ getDigest s F.SEC_DBG_CHAL_NONCE 0 ++ leBytes 1 level ++ List.replicate 7 0

/-- A debug level is granted (R581, R595): it only rises; level 2 stops a report being signed. -/
def dbgGrant (s : State) (level : Nat) : State :=
  let s := modSec s (fun c => { c with sub := none })
  let s := setF (maxF s F.SEC_DBG_STAT_GRANTED 0 level) F.SEC_DBG_STAT_STATE 0 0
  let s := setF (setF s F.SEC_DBG_STAT_STATUS 0 stOk) F.SEC_DBG_STAT_REASON 0 0
  let s := logC (raise s F.SEC_EVENT_DEBUG_UNLOCKED 0) dieBrim rsnUnlocked fnNone 0 0
  refreshPolicy (if level = 2 ∧ s.sec.body.isSome = true then attestEnds s stRejected rsnDebugActive else s)

/-- DEBUG_VERIFY_DONE (R582, R583): the key's digest, then the signature. A LEVEL other than 1 or 2 is no level to grant
(log entry 15). -/
def debugVerifyDone (s : State) : State :=
  match s.sec.sub with
  | none => s
  | some r =>
    if sha3 r.key ≠ Config.debugKeyDigest then dbgFail s rsnDebugKey
    else if Config.mldsaVerify r.key (dbgMessage s r.level) r.sig = false ∨ r.level = 0 ∨ 2 < r.level then dbgFail s rsnDebugSig
    else dbgGrant s r.level

def execDebugVerifyDone (s : State) : Res := .next (debugVerifyDone s)

/-! ### The error log (R589, R594, R598) -/

/-- ERR_SLOT_FREE (R589): VALID of a slot is written 1. -/
def execErrSlotFree (slot : Nat) (s : State) : Res :=
  .next (if slot < 64 then setF s F.ERR_ENT_A_VALID (slotO slot) 0 else s)

/-- ERR_INJECT (R598): one entry of severity `sev` (two bits) with DIE 15. -/
def errInject (s : State) (sev : Nat) : State := logErr s { sev := sev % 4, die := 15, reason := rsnInjected }

def execErrInject (_fn sev : Nat) (s : State) : Res := .next (errInject s sev)

/-- Registers of the live log that a seal holds: ERR_STAT to ERR_COUNT and the 64 slots. -/
def sealKey (k : Nat) : Bool :=
  decide ((fkey F.ERR_STAT_VALID 0 ≤ k ∧ k < fkey F.ERR_ESC_CFG_ENABLE 0) ∨
    (fkey F.ERR_ENT_A_VALID 0 ≤ k ∧ k < fkey F.ERR_SEAL_A_VALID 0))

/-- Brim seals the error log (R594). -/
def sealLog (s : State) : State :=
  let y := (youngest s (validSlots s)).map (fun i => getF s F.ERR_ENT_C_FC (slotO i))
  modSec s (fun c => { c with store := some ⟨s.regs.filter (fun e => sealKey e.1), (validSlots s).length, y.getD 0, c.store.isSome⟩ })

/-- Brim shows the sealed log at power-up (R594). -/
def showSeal (s : State) : State :=
  match s.sec.store with
  | none => s
  | some x =>
    let shift := (F.ERR_SEAL_A_VALID.base - F.ERR_ENT_A_VALID.base) * 64
    let slots := x.regs.filter (fun e => decide (fkey F.ERR_ENT_A_VALID 0 ≤ e.1))
    let s := { s with regs := slots.foldl (fun t e => Tbl.put (e.1 + shift) e.2 t) s.regs }
    let s := setF (setF s F.ERR_SEAL_STAT_INTACT 0 1) F.ERR_SEAL_STAT_OVERWRITTEN 0 (if x.replaced then 1 else 0)
    let s := setF (setF s F.ERR_SEAL_STAT_VALID 0 x.valid) F.ERR_SEAL_STAT_FC 0 x.fc
    logC (setF s F.PWR_STAT_SEALED_VALID 0 1) dieBrim rsnSealed fnNone 0 0

/-- ERASE (R594): the store and SEALED_VALID are cleared. -/
def eraseLog (s : State) : State := setF (modSec s (fun c => { c with store := none })) F.PWR_STAT_SEALED_VALID 0 0

def execErase (s : State) : Res := .next (eraseLog s)

end Sys2Proof.Machine
end

