-- ==== Sys2Proof/Machine/Power.lean ====
section
/-! DEFINITION. The power feeds, the references and the root PLL, and power-up (15_twin_power.md R533 to R538, 16_clocks_bringup.md
R542 to R551, R555, R556, R564 to R568, 18_package.md R608, R613). Commands FEED_SAMPLE, FEED_SENSE_CHANGE, POWER_FAIL,
COLD_RST_N_LOW, COLD_RESET, POWER_UP_STEP_END, REF_WINDOW_END, REF_DEAD, PLL_LOCK, REF_SWITCH and PLL_FAULT. -/

namespace Sys2Proof.Machine

/-- Reasons of R540 and R569. -/
def rsnFeedLost : Nat := 0x1101
def rsnFeedOv : Nat := 0x1102
def rsnPowerFail : Nat := 0x1103
def rsnRefUnstable : Nat := 0x1203
def rsnHoldover : Nat := 0x1204
def rsnPllFault : Nat := 0x1205
def rsnEdgeDown : Nat := 0x1206
def rsnBootFail : Nat := 0x1207

/-- The pins that the package drives beside TRIG_OUT0 to TRIG_OUT7, by number (R605; an open-drain pin counts as driven low). -/
def pinReady : Nat := 16
def pinSafe : Nat := 17
def pinAlert : Nat := 18

/-- The hidden state of power, clocks and bring-up changed. -/
def modPwr (s : State) (f : Pwr → Pwr) : State := { s with pwr := f s.pwr }

/-- The present dies. -/
def diesHere (s : State) : List Nat := (List.range 8).filter (present s.part)

/-! ### Feeds (R533 to R535, R565) -/

/-- STATE of feed `f` in PWR_STAT: 0 GOOD, 1 DEGRADED, 2 LOST. -/
def feedFld (f : Nat) : Fld := if f = 0 then F.PWR_STAT_FEED_A else F.PWR_STAT_FEED_B

def feedState (s : State) (f : Nat) : Nat := getF s (feedFld f) 0

/-- A feed is mated (R565); without STRAP_HOTPLUG both feeds are treated as mated (R608). -/
def mated (s : State) (f : Nat) : Bool :=
  getF s F.PKG_STRAP_HOTPLUG 0 == 0 || isSet s (if f = 0 then F.CLK_HP_FEED_A_MATED else F.CLK_HP_FEED_B_MATED) 0

/-- The judgment of a feed (R534, R565). A single sample out of range makes a feed that was not LOST at most DEGRADED. -/
def judgeFeed (s : State) (f was : Nat) : Nat :=
  let bad := Tbl.getD s.pwr.badRun f 0
  if mated s f = false ∨ 2 ≤ bad then 2
  else if 10000 ≤ Tbl.getD s.pwr.goodRun f 0 then 0
  else if bad = 1 ∧ was = 2 then 2
  else 1

/-- PWR_STAT.ALERT and the pin PWR_ALERT_N follow the feeds and, with ALERT_EN, PWR_EVENT (R535). -/
def refreshAlert (s : State) : State :=
  let ev := [F.PWR_EVENT_FEED_A_LOST, F.PWR_EVENT_FEED_B_LOST, F.PWR_EVENT_FEED_A_RESTORED, F.PWR_EVENT_FEED_B_RESTORED,
    F.PWR_EVENT_DEGRADED].any (fun f => isSet s f 0)
  let on := feedState s 0 != 0 || feedState s 1 != 0 || (isSet s F.PWR_CTL_ALERT_EN 0 && ev)
  if isSet s F.PWR_STAT_ALERT 0 == on then s
  else emitOut (setF s F.PWR_STAT_ALERT 0 (if on then 1 else 0)) (.pin pinAlert (!on))

/-- A feed takes its judged state: events, counters and the CORRECTED entry of R535, which names no disconnection unless the
feed stands above 14.0 V. -/
def enterFeed (s : State) (f st : Nat) : State :=
  let was := feedState s f
  if was = st then s
  else
    let s := setF s (feedFld f) 0 st
    if st = 0 then raise s (if f = 0 then F.PWR_EVENT_FEED_A_RESTORED else F.PWR_EVENT_FEED_B_RESTORED) 0
    else if st = 1 then raise (satF s F.PWR_FEED_CNT_DEGRADES (f * 0x10) 1) F.PWR_EVENT_DEGRADED 0
    else raise (satF s F.PWR_FEED_CNT_LOSSES (f * 0x10) 1) (if f = 0 then F.PWR_EVENT_FEED_A_LOST else F.PWR_EVENT_FEED_B_LOST) 0

/-- The entry of a feed that has become LOST while the other is not (R535). -/
def logFeed (s : State) (f was : Nat) : State :=
  if feedState s f = 2 ∧ was ≠ 2 ∧ feedState s (1 - f) ≠ 2 then
    logC s dieBrim (if 14000 < getF s F.PWR_FEED_MV (f * 0x10) then rsnFeedOv else rsnFeedLost) fnNone f 0
  else s

/-- Both feeds are judged. -/
def judgeFeeds (s : State) : State :=
  let a := feedState s 0
  let b := feedState s 1
  let s := enterFeed (enterFeed s 0 (judgeFeed s 0 a)) 1 (judgeFeed s 1 b)
  refreshAlert (logFeed (logFeed s 0 a) 1 b)

/-- One sample of a feed, in mV; its current is a free value (log entry 5). -/
def takeSample (s : State) (f mv : Nat) : State :=
  let o := f * 0x10
  let c := fresh s 16
  let s := setF (setF c.2 F.PWR_FEED_MV o mv) F.PWR_FEED_CURRENT o c.1
  let s := if trunc 16 mv < getF s F.PWR_FEED_MIN_MV o then setF s F.PWR_FEED_MIN_MV o mv else s
  let good := decide (10800 ≤ mv ∧ mv ≤ 13200) && mated s f
  let bad := decide (mv < 9600 ∨ 14000 < mv)
  modPwr s (fun p => { p with
    goodRun := Tbl.put f (if good then min 10000 (Tbl.getD p.goodRun f 0 + 1) else 0) p.goodRun,
    badRun := Tbl.put f (if bad then min 2 (Tbl.getD p.badRun f 0 + 1) else 0) p.badRun })

/-- FEED_SAMPLE (R534): Brim samples both feeds, `a` and `b` in mV; the package's input power is a free value (log entry 5). -/
def feedSample (s : State) (a b : Nat) : State :=
  let w := fresh (takeSample (takeSample s 0 a) 1 b) 16
  judgeFeeds (maxF (setF w.2 F.PWR_STAT_PACKAGE_W 0 w.1) F.PWR_STAT_PEAK_W 0 w.1)

def execFeedSample (a b : Nat) (s : State) : Res := .next (feedSample s a b)

/-! ### The power-fail sequence (R536, R537) -/

/-- PKG_READY changes (R564). -/
def pkgReady (s : State) (on : Bool) : State :=
  if s.pwr.ready == on then s else emitOut (modPwr s (fun p => { p with ready := on })) (.pin pinReady on)

/-- Brim holds every engine die in reset with its clocks gated (R536 step 3, R611). -/
def holdAll (s : State) : State :=
  (diesHere s).foldl (fun s d =>
    let s := if dieState s d = 2 then s else resetDie s d
    setF (setF s F.CLK_DIE_RST_HOLD (d * 8) 1) F.CLK_GATE_GATE (d * 8) 0xFFFFF) s

/-- Bytes of the three memories as they are numbered (tile stores, stack SRAM, HBM). -/
def memTop (m : Nat) : Nat := if m = 0 then 2 ^ 30 else if m = 1 then 2 ^ 33 else 2 ^ 39

/-- The contents of every HBM stack become undefined. -/
def loseHbm (s : State) : State := mkUndef s 2 0 (memTop 2)

/-- The power-fail sequence (R536) of a package with both feeds LOST: it halts, holds its dies, stops HBM, seals the log, and
goes dark. -/
def powerFail (s : State) : State :=
  if s.pwr.failing ∨ feedState s 0 ≠ 2 ∨ feedState s 1 ≠ 2 then s
  else
    let s := logErr (haltPackage s id) { sev := sevHalt, die := 15, reason := rsnPowerFail }
    let s := { s with logOff := true }
    let s := pkgReady (sealLog (loseHbm (holdAll s))) false
    modPwr s (fun p => { p with failing := true, dark := true, boot := 0, warm := 0, quiescing := false })

/-- POWER_FAIL (R536). -/
def execPowerFail (s : State) : Res := .next (powerFail s)

/-- FEED_SENSE_CHANGE (R565): the sense pin of a feed reads `high`. With both high the power-fail sequence starts at once.
Without STRAP_HOTPLUG the pins are treated as mated (R608); their levels still show in CLK_HP. -/
def feedSense (s : State) (f : Nat) (high : Bool) : State :=
  let s := setF s (if f = 0 then F.CLK_HP_FEED_A_MATED else F.CLK_HP_FEED_B_MATED) 0 (if high then 0 else 1)
  let s := if mated s f then s else modPwr s (fun p => { p with goodRun := Tbl.put f 0 p.goodRun })
  let s := judgeFeeds s
  if !mated s 0 && !mated s 1 then powerFail s else s

def execFeedSenseChange (f : Nat) (high : Bool) (s : State) : Res := .next (if f < 2 then feedSense s f high else s)

/-! ### Package cold reset (R555, R558) -/

/-- PKG_LIFE and PKG_LIFE2 show the life counters (R613): equivalent life in 1/16 hours, hours, counts that saturate. -/
def showLife (s : State) : State :=
  let l := s.pwr.life
  let s := setF (setF s F.PKG_LIFE_EQUIV 0 (l.equiv / 2 ^ 32 / 225)) F.PKG_LIFE_ON_HOURS 0 (l.on / 3600)
  let s := setF s F.PKG_LIFE2_HOURS_ABOVE_95 0 (l.above / 3600)
  setF (setF s F.PKG_LIFE2_COLD_CYCLES 0 (min l.cold 65535)) F.PKG_LIFE2_TRIPS 0 (min l.trips 65535)

/-- What a package cold reset leaves (R558): the fuses, the sealed log, the straps, the life counters (the last stored ones
after the package went dark), the levels of the pins, the judging of the feeds, and the fence table until the stacks have
trained (R394). The contents of every memory are undefined. -/
def coldState (s : State) : State :=
  let p := s.pwr
  let sec : Sec := { minSvn := s.sec.minSvn, key0Revoked := s.sec.key0Revoked, store := s.sec.store }
  let pwr : Pwr := { goodRun := p.goodRun, badRun := p.badRun, ready := p.ready, perst := p.perst, stored := p.stored }
  let k : State := { part := s.part, now := s.now, nonce := s.nonce, undef := s.undef, out := s.out, pending := s.pending }
  let k := { k with hbm := { fences := s.hbm.fences, skips := s.hbm.skips }, sec := sec, pwr := { pwr with life := if p.dark then p.stored else p.life } }
  let k := [F.PKG_STRAP_HOTPLUG, F.PKG_STRAP_PORT1, F.PKG_STRAP_MFG, F.CLK_HP_ATTN, F.CLK_HP_EJECT, F.CLK_HP_FEED_A_MATED,
    F.CLK_HP_FEED_B_MATED].foldl (fun k f => setF k f 0 (getF s f 0)) k
  let k := [0, 1].foldl (fun (k : State) f => setF k (feedFld f) 0 (judgeFeed k f 2)) (showFuses (showLife k))
  pkgReady (refreshAlert ([0, 1, 2].foldl (fun k m => mkUndef k m 0 (memTop m)) k)) false

/-- COLD_RST_N_LOW (R558): the package is held in cold reset. -/
def coldLow (s : State) : State := modPwr (coldState s) (fun p => { p with coldLow := true })

def execColdRstNLow (s : State) : Res := .next (coldLow s)

/-- COLD_RESET (R555): COLD_RST_N rises where it is low, else a feed has become GOOD. Step 1 of power-up starts; Brim samples
the straps (R608), whose levels are the carrier's: free values (log entry 4). -/
def coldReset (s : State) : State :=
  let pin := s.pwr.coldLow
  let s := coldState s
  let s := if pin then s else showLife (modPwr s (fun p => { p with life := { p.life with cold := min 65535 (p.life.cold + 1) } }))
  let x := fresh s 3
  let s := setF (setF (setF x.2 F.PKG_STRAP_HOTPLUG 0 (bits x.1 0 1)) F.PKG_STRAP_PORT1 0 (bits x.1 1 1)) F.PKG_STRAP_MFG 0 (bits x.1 2 1)
  modPwr (setF s F.CLK_BOOT_STEP 0 1) (fun p => { p with boot := 1, bootAt := s.now })

def execColdReset (s : State) : Res := .next (coldReset s)

/-! ### References (R546, R547) -/

/-- A reference is STABLE. -/
def refStable (s : State) (r : Nat) : Bool := getF s F.CLK_REF_STAT_STATE (r * 8) == 2

/-- STATE of the PLL: 0 UNLOCKED, 1 LOCKED, 2 HOLDOVER, 3 FAULT. -/
def pllState (s : State) : Nat := getF s F.CLK_PLL_STAT_STATE 0

/-- A reference takes a state with its consecutive passes. Leaving STABLE is logged, and puts a PLL that follows it into HOLDOVER
(R547, R549). -/
def setRef (s : State) (r st passes : Nat) : State :=
  let was := refStable s r
  let s := setF (setF s F.CLK_REF_STAT_STATE (r * 8) st) F.CLK_REF_STAT_PASSES (r * 8) passes
  if was && st != 2 then
    let s := logC (raise s F.CLK_EVENT_REF_UNSTABLE 0) dieBrim rsnRefUnstable fnNone r 0
    if pllState s = 1 ∧ getF s F.CLK_PLL_STAT_REF 0 = r then
      logC (raise (setF s F.CLK_PLL_STAT_STATE 0 2) F.CLK_EVENT_HOLDOVER 0) dieBrim rsnHoldover fnNone r 0
    else s
  else s

/-- A count within 100,000 ± 10. -/
def nearNominal (c : Nat) : Bool := decide (99990 ≤ c ∧ c ≤ 100010)

/-- A reference with count `c` passes a window, against the other's latest count `c2`. -/
def windowPass (c c2 : Nat) : Bool := nearNominal c && (!nearNominal c2 || decide (dist c c2 ≤ 10))

/-- REF_WINDOW_END (R546, R547): a window of reference `r` ends with `c` rising edges. A window with a stretch that made the
reference DEAD leaves it so, and so does one without an edge. A deviation beyond what ERR_PPM holds shows a free value (log entry 5). -/
def refWindowEnd (s : State) (r c : Nat) : State :=
  let o := r * 8
  let pass := windowPass c (Tbl.getD s.pwr.counts (1 - r) 0)
  let cut := decide (c = 0) || s.pwr.spoilt.contains r
  let s := modPwr s (fun p => { p with counts := Tbl.put r c p.counts, spoilt := p.spoilt.filter (· != r) })
  let s := if 96724 ≤ c ∧ c ≤ 103276 then setF s F.CLK_REF_STAT_ERR_PPM o ((c * 10 + 2 ^ 16 * 16 - 1000000) % 2 ^ 16)
    else
      let x := fresh s 16
      setF x.2 F.CLK_REF_STAT_ERR_PPM o x.1
  let s := if pass then s else satF s F.CLK_REF_STAT_FAILS o 1
  if cut then setRef s r 0 0
  else if pass then
    let n := min 3 (getF s F.CLK_REF_STAT_PASSES o + 1)
    setRef s r (if n = 3 then 2 else 1) n
  else setRef s r 1 0

def execRefWindowEnd (r edges : Nat) (s : State) : Res := .next (if r < 2 then refWindowEnd s r edges else s)

/-- REF_DEAD (R546): 100 OSC cycles without an edge. -/
def execRefDead (r : Nat) (s : State) : Res :=
  .next (if r < 2 then
      setRef (modPwr s (fun p => { p with spoilt := r :: p.spoilt.filter (· != r) })) r 0 0
    else s)

/-! ### The root PLL (R548 to R551) -/

/-- The four domains switch their source together: `src` 0 OSC, 1 PLL (R551). -/
def switchDomains (s : State) (src forced : Nat) : State :=
  (List.range 4).foldl (fun s k =>
    addF (setF (setF s F.CLK_DOM_SRC (k * 8) src) F.CLK_DOM_FORCED (k * 8) forced) F.CLK_DOM_SWITCHES (k * 8) 1) s

/-- PLL_LOCK (R548): at step 3 of power-up the PLL locks on the preferred reference if that one is STABLE, else on the other. -/
def pllLock (s : State) : State :=
  let a := getF s F.CLK_REF_CTL_PREFER 0
  if s.pwr.boot = 3 ∧ pllState s ≠ 1 ∧ (refStable s 0 || refStable s 1) then
    let r := if refStable s a then a else 1 - a
    switchDomains (setF (setF s F.CLK_PLL_STAT_STATE 0 1) F.CLK_PLL_STAT_REF 0 r) 1 0
  else s

def execPllLock (s : State) : Res := .next (pllLock s)

/-- REF_SWITCH (R549, R568): in HOLDOVER the PLL moves to the other reference once that one is STABLE; when the reference it
follows is the first to become STABLE again it returns to LOCKED on that one. -/
def refSwitch (s : State) : State :=
  let r := getF s F.CLK_PLL_STAT_REF 0
  if pllState s ≠ 2 then s
  else if refStable s (1 - r) then
    raise (addF (setF (setF s F.CLK_PLL_STAT_STATE 0 1) F.CLK_PLL_STAT_REF 0 (1 - r)) F.CLK_PLL_STAT_SWITCHES 0 1)
      F.CLK_EVENT_REF_SWITCH 0
  else if refStable s r then raise (setF s F.CLK_PLL_STAT_STATE 0 1) F.CLK_EVENT_REF_SWITCH 0
  else s

def execRefSwitch (s : State) : Res := .next (refSwitch s)

/-- PLL_FAULT (R550): every domain moves to OSC (by force where its old source has stopped, which is a free bit), the package
halts, the HBM contents and the fence table are lost. -/
def pllFault (s : State) : State :=
  if pllState s ≠ 1 ∧ pllState s ≠ 2 then s
  else
    let x := fresh (setF s F.CLK_PLL_STAT_STATE 0 3) 1
    let s := haltPackage (switchDomains x.2 0 x.1) id
    let s := logErr s { sev := sevHalt, die := 15, reason := rsnPllFault }
    let s := loseHbm { s with hbm := { s.hbm with fences := [], skips := [] } }
    modPwr s (fun p => { p with pllLost := true })

def execPllFault (s : State) : Res := .next (pllFault s)

/-! ### Power-up (R555, R556) -/

/-- Power-up stops at its running step (R556). -/
def bootFail (s : State) (detail : Nat) : State :=
  let s := modPwr (setF s F.CLK_BOOT_FAILED 0 1) (fun p => { p with boot := 0, warm := 0 })
  logErr s { sev := sevHalt, die := 15, reason := rsnBootFail, detail := detail }

/-- The next step begins. A warm reset after a PLL fault takes steps 2 to 6 of power-up, then its own (R550); its own steps show
in CLK_BOOT as the reset that they are. -/
def bootNext (s : State) : State :=
  let k := s.pwr.boot
  let s := if s.pwr.warm ≠ 0 then s else setF s F.CLK_BOOT_T_FC ((k - 1) * 8) (s.now - s.pwr.bootAt)
  if s.pwr.warm ≠ 0 ∧ k = 6 then modPwr s (fun p => { p with boot := 0, warm := 2 })
  else if k = 8 then modPwr s (fun p => { p with boot := 0 })
  else modPwr (if s.pwr.warm ≠ 0 then s else setF s F.CLK_BOOT_STEP 0 (k + 1)) (fun p => { p with boot := k + 1, bootAt := s.now })

/-- Step 1: the sealed log is shown, and Brim boots from slot A, or from slot B when A fails (R571, R572). With STRAP_MFG set
power-up stops here (R608). -/
def bootRom (s : State) : State :=
  let s := showSeal s
  if isSet s F.PKG_STRAP_MFG 0 then modPwr s (fun p => { p with boot := 0 })
  else
    let a := slotCause s 0
    if a = 0 then bootNext (bootSlot s 0)
    else
      let s := setF s F.SEC_BOOT_A_CAUSE 0 a
      let b := slotCause s 1
      if b = 0 then bootNext (bootSlot s 1) else bootFail s (a * 2 ^ 16 + b * 2 ^ 24)

/-- Brim holds a die that power-up does not bring up. -/
def holdBoot (s : State) (d : Nat) : State :=
  setF (setF (setDieState s d 2) F.CLK_DIE_RST_HOLD (d * 8) 1) F.CLK_DIE_RST_BY_BRIM (d * 8) 1

/-- Whether a die that power-up needs is held: D0 or D1. -/
def hostDieHeld (s : State) : Bool := dieState s 0 == 2 || dieState s 1 == 2

/-- Step 4: the dies come up; bit d of `bad` a self-test that fails. The FATAL entry's reason is a free value: the spec names
none; it carries one of the block numbers 0x01 to 0x14 of R27. -/
def bootDies (s : State) (bad : Nat) : State :=
  let s := (diesHere s).foldl (fun s d =>
    if bits bad d 1 = 1 then
      let x := fresh (holdBoot s d) 16
      logErr x.2 { sev := sevFatal, die := d, reason := (x.1 / 256 % 20 + 1) * 256 + x.1 % 256 }
    else dieComesUp s d) s
  if hostDieHeld s then bootFail s 0 else bootNext s

/-- The edges of the part, each once: die, and edge number at that die. -/
def edges (s : State) : List (Nat × Nat) :=
  (List.range 8).flatMap (fun d => ((List.range 3).filter (fun e => match edgeFar s d e with
    | some n => decide (d < n)
    | none => false)).map (fun e => (d, e)))

/-- The dies that a list of dies reaches over one UP edge or none. -/
def reachOne (s : State) (ds : List Nat) : List Nat :=
  (List.range 8).filter (fun n => ds.contains n || (List.range 3).any (fun e =>
    match edgeFar s n e with
    | some m => ds.contains m && getF s F.PKG_EDGE_STATE (edgeO n e) == 2
    | none => false))

/-- The dies that a trained path reaches from D0. -/
def reached (s : State) : List Nat := (List.range 8).foldl (fun ds _ => reachOne s ds) [0]

/-- Step 5: the edges train; bit i of `bad` is edge i of the part's list, which fails and is DOWN under R561. -/
def bootEdges (s : State) (bad : Nat) : State :=
  let s := ((edges s).zipIdx).foldl (fun s (x : (Nat × Nat) × Nat) =>
    if bits bad x.2 1 = 1 then
      let s := raise (setEdge s x.1.1 x.1.2 0 3) F.CLK_EVENT_EDGE_DOWN 0
      logErr s { sev := sevFatal, die := x.1.1, reason := rsnEdgeDown, inst := x.1.2 }
    else setEdge s x.1.1 x.1.2 2 0) s
  let ok := reached s
  let s := ((diesHere s).filter (fun d => !ok.contains d)).foldl (fun s d => holdBoot s d) s
  if hostDieHeld s then bootFail s 0 else bootNext s

/-- Step 6: the stacks of the dies that run train, and the fences follow from that training alone (R394); a pseudo-channel that finds
a setting leaves the fence table, its SKIP_PC entry too; with `ok` false a free
set of pseudo-channels of each finds no setting. PKG_READY rises. -/
def bootStacks (s : State) (ok : Bool) : State :=
  let s := (diesUp s).foldl (fun s d =>
    let x := if ok then (0, s) else fresh s 32
    let skip := (Tbl.get? d x.2.hbm.skips).any (fun c => bits x.1 c 1 == 0)
    let s := trainStack { x.2 with hbm := { x.2.hbm with fences := Tbl.del d x.2.hbm.fences,
                                                         skips := if skip then Tbl.del d x.2.hbm.skips else x.2.hbm.skips } } d
    (List.range 32).foldl (fun s c => if bits x.1 c 1 = 1 then fencePc s d c 1 else s) s) s
  let warm := s.pwr.warm
  let s := bootNext s
  if warm = 0 then pkgReady s true else s

/-- POWER_UP_STEP_END (R555, R556): the running step ends, or with `ok` false exceeds its limit or meets a failure: a free set
of dies, edges or pseudo-channels at steps 4 to 6. A step 2 or 3 that has what it waits for passes all the same (R568). -/
def powerUpStepEnd (s : State) (ok : Bool) : State :=
  match s.pwr.boot with
  | 1 => if ok then bootRom s else bootFail s 0
  | 2 => if refStable s 0 || refStable s 1 then bootNext s else if ok then s else bootFail s 0
  | 3 => if pllState s = 1 then bootNext s else if ok then s else bootFail s 0
  | 4 =>
    let x := if ok then (0, s) else fresh s 8
    bootDies x.2 x.1
  | 5 =>
    let x := if ok then (0, s) else fresh s 16
    bootEdges x.2 x.1
  | 6 => bootStacks s ok
  | 7 => bootNext s
  | 8 => bootNext s
  | _ => s

def execPowerUpStepEnd (ok : Bool) (s : State) : Res := .next (powerUpStepEnd s ok)

end Sys2Proof.Machine
end

