-- ==== Sys2Proof/Machine/Clocks.lean ====
section
/-! DEFINITION. Clock gates, package warm reset, hold and release of a die, Chain edges, host port links and live insertion
(16_clocks_bringup.md R552 to R568). Commands CLK_GATE_WRITE, WARM, WARM_RESET_STEP_END, DIE_HOLD, DIE_FLUSH_DONE, DIE_RELEASE,
DIE_RELEASE_DONE, CHAIN_EDGE_LOSS, EDGE_RETRAIN_ATTEMPT_END, PERST_DEASSERT, DL_ACTIVE, HP_ATTN, QUIESCE, QUIESCE_DONE and
HP_EJECT. -/

namespace Sys2Proof.Machine

/-- Reason EDGE_LOST (R569). -/
def rsnEdgeLost : Nat := 0x1208

/-! ### Clock gates (R552) -/

/-- The sort units of a die that admitted traverses reserve, as a count; they count as the lowest-numbered units (log
entry 18). -/
def sortReserved (s : State) (d : Nat) : Nat :=
  s.plats.resv.foldl (fun n r => n + ((activeTrav s r.trav).map (fun x => sortLoad x.2 d)).getD 0) 0

/-- Whether the block of a gate bit is in service. -/
def inService (s : State) (d b : Nat) : Bool :=
  if b < 8 then (List.range 8).any (fun i => tileEnabled s (d * 64 + b * 8 + i))
  else if b < 12 then isSet s F.CDC_CTL_ENABLE (cdcO d (b - 8))
  else if b < 16 then isSet s F.FAB_SORT_STAT_BUSY (sortO d (b - 12)) || decide (b - 12 < sortReserved s d)
  else if b = 16 then isSet s F.SRM_CTL_ENABLE (dieO d)
  else if b = 17 then isSet s F.HBM_STACK_CTL_ENABLE (dieO d) || getF s F.SPC_STAT_STATE (dieO d) != 0
  else isSet s F.TRN_PORT_CTL_ENABLE (portO (2 * d + (b - 18)))

/-- CLK_GATE_WRITE (R552): `data` is written to CLK_GATE of a die by `fn`. The bits of blocks in service are not set, and the
refused change is logged. -/
def gateWrite (s : State) (fn d data : Nat) : State :=
  let cur := getF s F.CLK_GATE_GATE (d * 8)
  let refused := fun b => bits data b 1 == 1 && bits cur b 1 == 0 && inService s d b
  let v := (List.range 20).foldl (fun n b => if bits data b 1 = 1 ∧ refused b = false then n + 2 ^ b else n) 0
  let s' := setF s F.CLK_GATE_GATE (d * 8) v
  if (List.range 20).any refused then logWWR s' fn (F.CLK_GATE_GATE.base + d * 8) else s'

def execClkGateWrite (fn die data : Nat) (s : State) : Res := .next (if present s.part die then gateWrite s fn die data else s)

/-! ### Package warm reset (R550, R558, R559) -/

/-- WARM (R559): a package warm reset starts with step W1, or after a PLL fault with step 2 of power-up; it ends a quiesce (R568)
and whatever power-up has not yet done. -/
def warm (s : State) : State :=
  if s.pwr.warm ≠ 0 ∨ s.pwr.dark ∨ s.pwr.coldLow then s
  else
    let s := setF (addF s F.CLK_RESET_WARM_COUNT 0 1) F.CLK_BOOT_WARM 0 1
    if s.pwr.pllLost then modPwr s (fun p => { p with warm := 1, quiescing := false, boot := 2, bootAt := s.now })
    else
      let s := modPwr s (fun p => { p with warm := 1, quiescing := false, boot := 0 })
      (List.range s.part.ports).foldl (fun s p => disablePort s p 3 rsnPort) s

def execWarm (s : State) : Res := .next (warm s)

/-- The registers that a package warm reset resets: those of every die, of rings, functions, plats (but PLAT_POLICY), pairs and
the Gauntlet, sources and stakes, BMK_CTL, BMK_SILENCE, BMK_PACER, G with the epoch and the pacer's horizon (log entry 19),
ERR_ESC_CFG, CLK_GATE, CLK_DIE_RST and the quiesce bits. -/
def warmRegs (s : State) : State :=
  let keep := [F.PLAT_POLICY_REQUIRE_SIGNED, F.PLAT_POLICY_LOCK, F.PLAT_POLICY_MIN_SVN]
  let r := [(0x20000, 0x20020), (0x20030, 0x20038), (0x20048, 0x20050), (0x22000, 0x30000), (0x40100, 0x40140),
    (0x40200, 0x40240), (0x50020, 0x50030), (0x70000, 0x1000000), (0x1000000, 0x3000000)].foldl
      (fun (x : State) (y : Nat × Nat) => resetRange x y.1 y.2) s
  let r := keep.foldl (fun (x : State) f => setF x f 0 (getF s f 0)) r
  let r := setF r F.CLK_HP_QUIESCE 0 0
  if isSet r F.CLK_HP_SAFE 0 then emitOut (setF r F.CLK_HP_SAFE 0 0) (.pin pinSafe true) else r

/-- A zeroing of HBM that a reset cuts short leaves its memory undefined; one of stack SRAM stops at its place (R371). -/
def cutZeroing (s : State) : State :=
  s.hbm.zeroing.foldl (fun s (e : Nat × Nat) =>
    mkUndef s 2 (e.1 / 64 * 2 ^ 36 + e.1 % 64 * 2 ^ 30) (e.1 / 64 * 2 ^ 36 + (e.1 % 64 + 1) * 2 ^ 30 - 1)) s

/-- Step W2: every engine die enters die reset, every plat, ring, source, invocation, partition entry and pair is gone; Brim
restores the fences. Memories, message tables and configuration space stay. -/
def warmClear (s : State) : State :=
  let s := warmRegs (cutZeroing s)
  let s := { s with bmk := {}, ports := [], plats := {}, fab := {}, dst := {}, cdc := {}, dma := {}, twn := {} }
  let s := { s with rings := { unmasked := s.rings.unmasked, pendingBits := s.rings.pendingBits, msixTable := s.rings.msixTable, cfg := s.rings.cfg } }
  let s := { s with srm := { s.srm with chs := [], zeroing := [], zeroPos := [] },
                    hbm := { s.hbm with pcs := [], fills := [], spcs := [], retrain := [], trained := [], ind := [], zeroing := [] },
                    fns := { s.fns with resets := [] } }
  (diesHere s).foldl (fun s d => restoreFences (setDieState s d 2) d) s

/-- Every sensor reads 95 °C or below (R611). -/
def coolEnough (s : State) : Bool :=
  (8 :: diesHere s).all (fun d => decide (getF s F.PKG_THERM_TEMP (d * 8) ≤ 95))

/-- The functions that may serve are in service again. -/
def refreshFns (s : State) : State :=
  [0, 1].foldl (fun s p => (List.range (numVfs s p)).foldl (fun s v => refreshFn s (vfNum p (v + 1))) (refreshFn s p)) s

/-- Step W3: the dies come up, and their edges train. -/
def warmDies (s : State) : State :=
  let s := (diesHere s).foldl (fun s d => dieComesUp s d) s
  (diesHere s).foldl (fun s d => trainEdges s d false) s

/-- Step `k` of the warm reset begins; the steps of power-up that it repeats show in CLK_BOOT. -/
def warmNext (s : State) (k : Nat) : State :=
  let b := if k = 3 then 4 else if k = 4 then 5 else 8
  modPwr (if k < 3 then s else setF s F.CLK_BOOT_STEP 0 b) (fun p => { p with warm := k })

/-- WARM_RESET_STEP_END (R559): the running step ends. W3 does not start above 95 °C (R611); after a PLL fault W1 and W4 are
skipped (R550), and the stacks keep the training of step 6. -/
def warmStepEnd (s : State) : State :=
  if s.pwr.boot ≠ 0 then s
  else match s.pwr.warm with
  | 1 => warmNext ((diesUp s).foldl (fun s d => settle s d) s) 2
  | 2 => warmNext (warmClear s) 3
  | 3 =>
    if coolEnough s then
      let s := warmDies s
      if s.pwr.pllLost then warmNext ((diesHere s).foldl (fun s d => trainStack s d) s) 5 else warmNext s 4
    else s
  | 4 => warmNext ((diesHere s).foldl (fun s d => trainStack s d) s) 5
  | 5 => refreshFns (modPwr s (fun p => { p with warm := 0, pllLost := false }))
  | _ => s

def execWarmResetStepEnd (s : State) : Res := .next (warmStepEnd s)

/-! ### Hold and release of a die (R560) -/

/-- Whether a tile of a die holds a plat in either bank. -/
def diePlat (s : State) (d : Nat) : Bool := (List.range 64).any (fun t => tileEnabled s (d * 64 + t))

/-- Whether HOLD may be set. -/
def holdable (s : State) (d : Nat) : Bool :=
  let st := getF s F.TWN_PAIR_STAT_STATE (d / 2 * 0x40)
  let failed := bits (getF s F.TWN_PAIR_STAT_FAILED (d / 2 * 0x40)) (d % 2) 1 == 1
  (decide (2 ≤ d) || ((st == 3 || st == 4) && failed)) && !diePlat s d &&
    !isSet s F.TRN_PORT_CTL_ENABLE (portO (2 * d)) && !isSet s F.TRN_PORT_CTL_ENABLE (portO (2 * d + 1)) && st != 1 && st != 2

/-- DIE_HOLD (R560): HOLD = 1 is written by `fn`; an accepted write starts the write-back of the die's spill cache. -/
def dieHold (s : State) (fn d : Nat) : State :=
  if isSet s F.CLK_DIE_RST_HOLD (d * 8) then s
  else if holdable s d then setDieState (setF s F.CLK_DIE_RST_HOLD (d * 8) 1) d 1
  else logWWR s fn (F.CLK_DIE_RST_HOLD.base + d * 8)

def execDieHold (fn die : Nat) (s : State) : Res := .next (if present s.part die then dieHold s fn die else s)

/-- DIE_FLUSH_DONE (R560): the write-back has ended and the die enters die reset. -/
def execDieFlushDone (die : Nat) (s : State) : Res :=
  .next (if die < 8 ∧ dieState s die = 1 then resetDie (settle s die) die else s)

/-- DIE_RELEASE (R560): HOLD = 0 is written for a held die, from which every plat has been unloaded (R591). -/
def dieRelease (s : State) (die : Nat) : State :=
  if die < 8 ∧ dieState s die = 2 ∧ diePlat s die = false then
    setF (setF (setDieState s die 3) F.CLK_DIE_RST_HOLD (die * 8) 0) F.CLK_DIE_RST_BY_BRIM (die * 8) 0
  else s

def execDieRelease (die : Nat) (s : State) : Res := .next (dieRelease s die)

/-- DIE_RELEASE_DONE (R560, R561): the die's edges that were DOWN train again, its fences are restored, its stack retrains and
the die comes up. -/
def execDieReleaseDone (die : Nat) (s : State) : Res :=
  .next (if die < 8 ∧ dieState s die = 3 then dieComesUp (trainStack (restoreFences (trainEdges s die true) die) die) die else s)

/-! ### Chain edges (R63, R527, R561) -/

/-- The dies on which what is named for die `d` exists: both of a live pair. -/
def twinDies (s : State) (d : Nat) : List Nat := if pairLive s (d / 2) then [d / 2 * 2, d / 2 * 2 + 1] else [d]

/-- Whether tokens from die `a` to die `b`, each as named, cross the edge between dies `x` and `y`. -/
def crosses (s : State) (a b x y : Nat) : Bool :=
  !(pairLive s (a / 2) && a / 2 == b / 2) && (twinDies s a).any (fun a => (twinDies s b).any (fun b =>
    let es := treeEdges a [b]
    es.contains (x, y) || es.contains (y, x)))

/-- The dies to which a route leads. -/
def routeEnds (r : Route) : List Nat :=
  match r.kind with
  | 0 => [r.dst / 4096]
  | 1 => (List.range 8).filter (fun d => bits r.dieMask d 1 == 1)
  | 2 => [r.dst / 64]
  | _ => []

/-- The die of the port by which a federation route leaves now (R156). -/
def fedEnds (s : State) (r : Route) : List Nat :=
  if r.kind = 3 then ((fedPort s (r.dst % 16)).map dieOfPort).toList else []

/-- Whether a traverse's tokens need the edge between dies `x` and `y` (R63): on its routes, from a splitter to its input
cells, or as replies of requests. -/
def needsEdge (s : State) (p : Plat) (v : Trav) (x y : Nat) : Bool :=
  (p.routes.filter (fun r => r.trav == v.num)).any (fun r => (routeEnds r ++ fedEnds s r).any (fun b => crosses s (r.src / 4096) b x y)) ||
  ((v.input == 0 || v.input == 3) && (List.range s.part.dies).any (fun a => (inputCells v).any (fun g => crosses s a (g / 4096) x y))) ||
  v.cells.any (fun g => (p.code g).any (fun w => iOp w == 0x79 &&
    (hrqPart s p g (bits (iImm w) 0 16)).any (fun r => crosses s r.2 (g / 4096) x y)))

/-- CHAIN_EDGE_LOSS (R63, R561): die `d` detects the loss of its edge `e`. The edge retrains, open contexts of the traverses that
need it complete ERROR, and a twinned pair that loses its vertical edge loses the die that is shadow (R527). -/
def edgeLoss (s : State) (d e : Nat) : State :=
  match edgeFar s d e with
  | none => s
  | some n =>
    if edgeUp s d e = false then s
    else
      let s := setEdge s d e 1 0
      let s := satF (satF s F.PKG_EDGE_LOSSES (edgeO d e) 1) F.PKG_EDGE_LOSSES (edgeO n (edgeToward n d)) 1
      let s := logD s d rsnEdgeLost fnNone e 0
      let hit := s.plats.active.flatMap (fun p => (p.travs.filter (fun v => needsEdge s p v d n)).map (·.num))
      let s := failContexts s (fun t => hit.contains t) stError 0x0605
      if e ≠ 0 then s
      else
        let k := d / 2
        if twinned s k then setF (failDie s (2 * k + (1 - leadDie s k % 2)) 0) F.TWN_PAIR_STAT_EDGE (k * 0x40) 1
        else syncStops s k

def execChainEdgeLoss (die edge : Nat) (s : State) : Res := .next (edgeLoss s die edge)

/-- EDGE_RETRAIN_ATTEMPT_END (R561): an attempt ends; the third failure leaves the edge DOWN, with a FATAL entry that takes no
die out of service (R591). -/
def retrainEnd (s : State) (d e : Nat) (ok : Bool) : State :=
  if (edgeFar s d e).isNone ∨ getF s F.PKG_EDGE_STATE (edgeO d e) ≠ 1 then s
  else
    let n := getF s F.PKG_EDGE_ATTEMPTS (edgeO d e) + 1
    if ok then raise (setEdge s d e 2 n) F.CLK_EVENT_EDGE_UP 0
    else if n < 3 then setEdge s d e 1 n
    else
      let s := raise (setEdge s d e 0 3) F.CLK_EVENT_EDGE_DOWN 0
      logErr s { sev := sevFatal, die := d, reason := rsnEdgeDown, inst := e }

def execEdgeRetrainAttemptEnd (die edge : Nat) (ok : Bool) (s : State) : Res := .next (retrainEnd s die edge ok)

/-! ### Host port links (R494, R557, R563) -/

/-- PERST_DEASSERT (R557): PERST_N of a host port is released. -/
def execPerstDeassert (port : Nat) (s : State) : Res :=
  .next (modPwr s (fun p => { p with perst := p.perst.filter (· != port) }))

/-- Whether a host port may train: PKG_READY is high, PERST_N released, the port in use and its die released. -/
def mayTrain (s : State) (p : Nat) : Bool :=
  decide (p < 2) && s.pwr.ready && !s.pwr.perst.contains p && (p == 0 || isSet s F.PKG_STRAP_PORT1 0) && dieUp s p &&
    !isSet s F.CLK_PORT_LINK_UP (p * 8)

/-- DL_ACTIVE (R494, R557, R563): the link enters DL_Active, at a speed and width that the far end settles (free values among
those of CLK_PORT), and its physical function is in service. -/
def dlActive (s : State) (p : Nat) : State :=
  if mayTrain s p then
    let a := fresh s 16
    let b := fresh a.2 16
    let s := setF (setF b.2 F.CLK_PORT_SPEED (p * 8) (1 + a.1 % 6)) F.CLK_PORT_WIDTH (p * 8) (2 ^ (b.1 % 5))
    refreshFn (setF s F.CLK_PORT_LINK_UP (p * 8) 1) p
  else s

def execDlActive (port : Nat) (s : State) : Res := .next (dlActive s port)

/-! ### Live insertion and removal (R566 to R568) -/

/-- HP_ATTN rises (R566); ignored without STRAP_HOTPLUG (R608). -/
def execHpAttn (s : State) : Res :=
  .next (if isSet s F.PKG_STRAP_HOTPLUG 0 then raise (setF s F.CLK_HP_ATTN 0 1) F.CLK_EVENT_HP_ATTN 0 else s)

/-- The submission rings whose STATE is `st`. -/
def ringsIn (s : State) (st : Nat) : List Nat :=
  (s.regs.filterMap (fun e =>
    let o := e.1 / 64
    if 0x400000 ≤ o ∧ o < 0x800000 then some ((o - 0x400000) / 0x40) else none)).foldl
      (fun acc n => if acc.contains n || sqState s n != st then acc else acc ++ [n]) []

/-- Step 3 of a quiesce (R566): ports are disabled, running submission rings shut down, TRIG_OUT pins inactive; dispatch is held
while CLK_HP.QUIESCE is 1. -/
def quiesce (s : State) : State :=
  if isSet s F.CLK_HP_QUIESCE 0 then s
  else
    let s := (List.range s.part.ports).foldl (fun s p =>
      if isSet s F.TRN_PORT_CTL_ENABLE (portO p) then disablePort s p 0 rsnPort else s) s
    let s := (ringsIn s 1).foldl (fun s n => ringShutdown s n rsnShutdown) s
    let s := releasePins s
    modPwr (setF s F.CLK_HP_QUIESCE 0 1) (fun p => { p with quiescing := true })

/-- QUIESCE (R566). -/
def execQuiesce (s : State) : Res := .next (quiesce s)

/-- QUIESCE_DONE (R566 steps 4 and 5): every completion has been written; the log is sealed and HP_SAFE_N asserted. -/
def quiesceDone (s : State) : State :=
  if s.pwr.quiescing ∧ (ringsIn s 2).isEmpty ∧ s.dst.cw.all (fun e => e.2.isEmpty) then
    let s := modPwr (sealLog s) (fun p => { p with quiescing := false })
    raise (emitOut (setF s F.CLK_HP_SAFE 0 1) (.pin pinSafe false)) F.CLK_EVENT_QUIESCED 0
  else s

def execQuiesceDone (s : State) : Res := .next (quiesceDone s)

/-- The drains of a pending change and of running function resets reach DRAIN_LIMIT at once. -/
def drainAtOnce (s : State) : State :=
  s.fns.resets.foldl (fun s e => if e.2.step = 1 then squashRunning s e.1 e.2.reason (flrCovers s e.1) else s) (drainLimit s)

/-- HP_EJECT rises (R567): while HP_SAFE_N is high the quiesce starts if it has not yet, with DRAIN_LIMIT 0. Ignored without
STRAP_HOTPLUG (R608). -/
def hpEject (s : State) : State :=
  if isSet s F.PKG_STRAP_HOTPLUG 0 = false then s
  else
    let s := setF s F.CLK_HP_EJECT 0 1
    if isSet s F.CLK_HP_SAFE 0 then s
    else raise (drainAtOnce (quiesce s)) F.CLK_EVENT_HP_EJECT 0

def execHpEject (s : State) : Res := .next (hpEject s)

end Sys2Proof.Machine
end

