-- ==== Sys2Proof/Machine/Pkg.lean ====
section
/-! DEFINITION. Temperatures and service life (18_package.md R609 to R616). Commands THERMAL_SAMPLE, LIFE_SECOND and
LIFE_STORE. -/

namespace Sys2Proof.Machine

/-- Reasons of R615. -/
def rsnThermWarn : Nat := 0x0101
def rsnThermTrip : Nat := 0x0102

/-- The thermal trip (R611, R614): every engine die is held with its clocks gated, the package halts, a running quiesce ends. -/
def thermTrip (s : State) (d : Nat) : State :=
  let s := holdAll (haltPackage s id)
  let s := logErr s { sev := sevHalt, die := d, reason := rsnThermTrip }
  let s := modPwr s (fun p => { p with quiescing := false, life := { p.life with trips := min 65535 (p.life.trips + 1) } })
  raise (showLife s) F.PKG_EVENT_THERM_TRIP 0

/-- Whether every engine die is held. -/
def allHeld (s : State) : Bool := (diesHere s).all (fun d => dieState s d == 2)

/-- THERMAL_SAMPLE (R611): the sensor of die `d` (8 Brim) reads `temp` °C. A trip that has already held every die does not
happen again. -/
def thermalSample (s : State) (d temp : Nat) : State :=
  let o := d * 8
  let was := getF s F.PKG_THERM_TEMP o
  let t := trunc 8 temp
  let s := maxF (setF s F.PKG_THERM_TEMP o t) F.PKG_THERM_PEAK o t
  let s := if 100 ≤ t ∧ was < 100 then logC (raise s F.PKG_EVENT_THERM_WARN 0) d rsnThermWarn fnNone 0 0 else s
  if 110 ≤ t ∧ 110 ≤ was ∧ (halted s && allHeld s) = false then thermTrip s d else s

def execThermalSample (die temp : Nat) (s : State) : Res :=
  .next (if present s.part die ∨ die = 8 then thermalSample s die temp else s)

/-- 2^(k/10) for k = 0 to 9 in units of 2^-32, rounded down. -/
def tenthPower : List Nat :=
  [4294967296, 4603231970, 4933621867, 5287724991, 5667243323, 6074000999, 6509953083, 6977194956, 7477972397, 8014692369]

/-- r(T) of R612 in units of 2^-32. -/
def lifeRate (t : Nat) : Nat :=
  if t ≤ 95 then 2 ^ 32 else (tenthPower[(t - 95) % 10]?.getD 0) * 2 ^ ((t - 95) / 10)

/-- LIFE_SECOND (R613): a second at a highest reading of `t` °C is counted. -/
def lifeSecond (s : State) (t : Nat) : State :=
  let s := showLife (modPwr s (fun p => { p with life :=
    { p.life with equiv := p.life.equiv + lifeRate t, on := p.life.on + 1, above := p.life.above + (if 95 < t then 1 else 0) } }))
  if 95 < t then raise s F.PKG_EVENT_LIFE_95 0 else s

def execLifeSecond (temp : Nat) (s : State) : Res := .next (if s.pwr.dark then s else lifeSecond s temp)

/-- LIFE_STORE (R613): the life counters are written to the non-volatile store. -/
def execLifeStore (s : State) : Res := .next (if s.pwr.dark then s else modPwr s (fun p => { p with stored := p.life }))

end Sys2Proof.Machine
end

