-- ==== Sys2Proof/Machine/Commit.lean ====
section
/-! DEFINITION. COMMIT of an epoch switch (02_design_time.md R94 steps 4 to 6; 07_scheduler.md R321; 15_twin_power.md R525,
R538). Command COMMIT_APPLY. -/

namespace Sys2Proof.Machine

/-! ### Pending E-class writes (R21, R22) -/

/-- The E-class fields of a die, with the offsets of their instances. -/
def epochFields (d : Nat) : List (Fld × Nat) :=
  (F.SCH_CTL_SNAP_EN, dieO d) :: (List.range 12).map (fun c => (F.SPC_CLASS_MASK_MASK, dieO d + c * 8))

/-- A pending write of an E-class field takes effect. -/
def applyField (s : State) (x : Fld × Nat) : State :=
  let k := fkey x.1 x.2
  match Tbl.get? k s.shadow with
  | some v => { setF s x.1 x.2 v with shadow := Tbl.del k s.shadow }
  | none => s

/-- The pending write of STALL_POLICY takes effect, unless it came in this fc: then the write that was pending before does, and it
waits for the next switch (R101). -/
def applyPolicy (s : State) : State :=
  match s.bmk.policyAt with
  | some (f, older) =>
    if f = s.now then
      let s := modBmk s (fun b => { b with policyAt := some (f, none) })
      older.elim s (fun v => setF s F.BMK_CTL_STALL_POLICY 0 v)
    else applyField (modBmk s (fun b => { b with policyAt := none })) (F.BMK_CTL_STALL_POLICY, 0)
  | none => applyField s (F.BMK_CTL_STALL_POLICY, 0)

/-! ### The scheduler snapshot (R321, R325) -/

/-- The counters of a tile with their mirrors. -/
def snapFields : List (Fld × Fld) :=
  [(F.SCH_TILE_DEPTH_READY, F.SCH_SNAP_TILE_DEPTH_READY), (F.SCH_TILE_DEPTH_READY_HIGH, F.SCH_SNAP_TILE_DEPTH_READY_HIGH),
   (F.SCH_TILE_DEPTH_QUEUED, F.SCH_SNAP_TILE_DEPTH_QUEUED), (F.SCH_TILE_DEPTH_QUEUED_HIGH, F.SCH_SNAP_TILE_DEPTH_QUEUED_HIGH),
   (F.SCH_TILE_LEVELS_NONEMPTY, F.SCH_SNAP_TILE_LEVELS_NONEMPTY), (F.SCH_TILE_DISP_DISPATCHED, F.SCH_SNAP_TILE_DISP_DISPATCHED),
   (F.SCH_TILE_BUSY_BUSY_CELL_FC, F.SCH_SNAP_TILE_BUSY_BUSY_CELL_FC), (F.SCH_TILE_HOLD_IN_HOLD_FC, F.SCH_SNAP_TILE_HOLD_IN_HOLD_FC),
   (F.SCH_TILE_HOLD_OUT_GATE_FC, F.SCH_SNAP_TILE_HOLD_OUT_GATE_FC), (F.SCH_TILE_CANCEL_CANCELLED, F.SCH_SNAP_TILE_CANCEL_CANCELLED)]

/-- The mirrors of a tile take its counters. -/
def snapTile (s : State) (t : Nat) : State :=
  let o := tileO t
  let s := snapFields.foldl (fun s x => setF s x.2 o (getF s x.1 o)) s
  (List.range 16).foldl (fun s b => setF s F.SCH_SNAP_TILE_WAIT_COUNT (o + b * 8) (getF s F.SCH_TILE_WAIT_COUNT (o + b * 8))) s

/-- The snapshot of a die, while SNAP_EN is 1. -/
def snapshot (s : State) (d epoch : Nat) : State :=
  if isSet s F.SCH_CTL_SNAP_EN (dieO d) then
    let s := (List.range 64).foldl (fun s t => snapTile s (d * 64 + t)) s
    raise (setF s F.SCH_SNAP_EPOCH_EPOCH (dieO d) epoch) F.SCH_EVENT_SNAPSHOT (dieO d)
  else s

/-! ### Die digests (R525) -/

/-- A die of a TWINNED pair closes the epoch `was` and sends its digest on its way; the records of the epoch are done with. -/
def closeDigest (s : State) (d was : Nat) : State :=
  let recs := fun t => Tbl.getD s.twn.recs (d * 64 + t) []
  let sent := if twinned s (d / 2) then
      [⟨d, was, leadDie s (d / 2) != d, sha3 ((List.range 64).flatMap (fun t => sha3 (recs t)) ++ leBytes 8 was)⟩]
    else []
  { s with twn := { s.twn with sent := s.twn.sent ++ sent, recs := s.twn.recs.filter (fun e => e.1 / 64 != d) } }

/-! ### COMMIT (R94) -/

/-- What is one for the package takes effect with the first die's COMMIT (R190, R501): pending writes of global fields, the
partition change, then removals and activations of plats. -/
def commitGlobal (s : State) (epoch : Nat) : State :=
  let s := recomputeG (applyPolicy s) s.bmk.acc
  commitPlats (applyChange s epoch)

/-- Dispatch resumes on a die; its hold counts in LAST_HOLD_FC. -/
def resumeDie (s : State) (d : Nat) (first : Bool) : State :=
  let hold := s.now - Tbl.getD s.bmk.prepAt d s.now
  let s := if first then setF s F.BMK_EPOCH_STAT_LAST_HOLD_FC 0 (min hold 65535)
    else maxF s F.BMK_EPOCH_STAT_LAST_HOLD_FC 0 (min hold 65535)
  modBmk s (fun b => { b with held := b.held.filter (· != d), prepAt := Tbl.del d b.prepAt })

/-- The switch ends when every die that is up has committed; a role swap that waited for it takes place (R538). -/
def endSwitch (s : State) : State :=
  match s.bmk.sw with
  | some w =>
    if (diesUp s).all (fun x => w.committed.contains x || w.cut.contains x) then
      let s := addF (modBmk s (fun b => { b with sw := none })) F.BMK_EPOCH_STAT_SWITCHES 0 1
      if s.twn.swapDue then swapPairs s else s
    else s
  | none => s

/-- COMMIT_APPLY (R94 steps 5 and 6): COMMIT reaches die `d`, once every die has answered; on a die held in reset, or behind
a lost edge, it is dropped. -/
def commitApply (s : State) (d : Nat) : State :=
  match s.bmk.sw with
  | some w =>
    if w.going = false ∨ w.committed.contains d then s
    else if dieUp s d = false then endSwitch s
    else if let some e := lostTo s (masterDie s) d then
      if w.cut.contains d then endSwitch s else endSwitch (switchCut s w d e)
    else
      let first := w.committed.isEmpty
      let s := modBmk s (fun b => { b with sw := some { w with committed := d :: w.committed } })
      let s := if first then commitGlobal s w.epoch else s
      let s := (epochFields d).foldl applyField s
      endSwitch (resumeDie (closeDigest (snapshot s d w.epoch) d w.was) d first)
  | none => s

def execCommitApply (die : Nat) (s : State) : Res := .next (commitApply s die)

end Sys2Proof.Machine
end

