-- ==== Sys2Proof/Machine/Tick.lean ====
section
/-! DEFINITION. One fc of time: what an idle step does (log entry 3): the fc counters, BMK_WALL and the conditions that suspend
outputs (02_design_time.md, 07_scheduler.md R320, 08_timing_promise.md R342, 13_dma.md R486, 16_clocks_bringup.md R545, R549). -/

namespace Sys2Proof.Machine

/-! ### Suspension (R342, R464) -/

/-- The rings with a register of the context block that starts at `base` away from its reset value. -/
def ringsListed (s : State) (base : Nat) : List Nat :=
  (s.regs.filterMap (fun e =>
    let o := e.1 / 64
    if base ≤ o ∧ o < base + 0x400000 then some ((o - base) / 0x40) else none)).foldl
      (fun acc n => if acc.contains n then acc else acc ++ [n]) []

/-- A completion ring counts as full (R464): also while its overflow area holds entries. -/
def ringSuspends (s : State) (cq : Nat) : Bool :=
  getF s F.RING_CQ_CTL_STATE (ringO cq) == 1 && (cqFull s cq || !(ringOf s cq).ovf.isEmpty)

/-- The collectors that hold something. -/
def collTilesNow (s : State) : List Nat := s.dst.colls.map (·.1)

/-- The keys of the conditions of R342 that hold now. -/
def suspendedKeys (s : State) : List Nat :=
  ((ringsListed s 0x800000).filter (ringSuspends s)).map suspRing ++
  ((collTilesNow s).filter (fun t => (collRows s t).any (rowSuspends s))).map suspColl ++
  ((List.range s.part.ports).filter (portSuspends s)).map suspPort ++
  (List.range s.part.dies).flatMap (fun d => ((List.range 16).filter (fun c => chState s (d * 16 + c) != 0)).map (suspSrm d)) ++
  (List.range s.part.dies).flatMap (fun d => ((List.range 32).filter (fun c => pcState s d c != 0)).map (suspPc d))

/-- A condition holds in the fc that begins at `w`: its last span goes on, or a new one begins. -/
def addSpan (t : Tbl (List (Nat × Nat))) (key w : Nat) : Tbl (List (Nat × Nat)) :=
  let l := Tbl.getD t key []
  match l.getLast? with
  | some x => if x.2 = w then Tbl.put key (l.dropLast ++ [(x.1, w + 1)]) t else Tbl.put key (l ++ [(w, w + 1)]) t
  | none => Tbl.put key [(w, w + 1)] t

/-- Whether work of a traverse is anywhere between acceptance and emission. -/
def travBusy (s : State) (t : Nat) : Bool :=
  s.fab.inQ.any (fun e => e.2.any (fun x => x.tok.trav == t)) || s.fab.store.any (fun e => e.2.any (fun x => x.toks.any (·.trav == t))) ||
  s.fab.ready.any (fun e => e.2.any (fun x => x.key.trav == t)) || s.fab.passes.any (fun e => e.2.task.key.trav == t) ||
  s.fab.chainRx.any (fun e => e.2.any (fun x => x.tok.trav == t)) || s.fab.invs.any (fun e => e.2.trav == t) ||
  s.fab.outb.any (fun e => e.2.any (fun x => match x.work with
    | .copies k _ => k.trav == t
    | .leaving r => r.trav == t
    | .outstanding r _ => r.trav == t)) ||
  s.dst.colls.any (fun e => e.2.any (fun q => q.trav == t)) || s.dst.cw.any (fun e => e.2.any (fun c => c.trav == t)) ||
  s.rings.rings.any (fun e => e.2.ovf.any (fun c => c.trav == t)) || s.dst.hbw.any (fun e => e.2.any (fun r => r.trav == t)) ||
  s.dst.pinQ.any (fun e => e.2.any (fun r => r.trav == t)) || s.twn.hold.any (fun e => e.2.any (fun x => x.1.trav == t)) ||
  s.ports.any (fun e => e.2.trigs.any (fun x => x.res.trav == t))

/-- The completion rings of a traverse's outputs: of its open invocations, of its entries that wait, and of the RING rows that its
streams and stakes may still emit. -/
def travRings (s : State) (p : Plat) (v : Trav) : List Nat :=
  (s.fab.invs.filter (fun e => e.2.trav == v.num)).map (fun e => e.2.cq) ++
  s.dst.cw.flatMap (fun e => (e.2.filter (fun c => c.trav == v.num)).map (·.cq)) ++
  (s.rings.rings.filter (fun e => e.2.ovf.any (fun c => c.trav == v.num))).map (·.1) ++
  (if v.input = 1 then [] else (v.nodes.filter (fun n => n.op == opEmit && byteAt n.param 0 == 0)).filterMap (fun n =>
    namedRing s p.owner (fld n.param 9 2)))

/-- Whether an output of a traverse is suspended in this fc, `ks` being the conditions that hold. -/
def travSuspended (s : State) (ks : List Nat) (p : Plat) (v : Trav) : Bool :=
  (collTilesNow s).any (fun t => ks.contains (suspColl t) && (collRows s t).any (fun r => r.trav == v.num)) ||
  (travBusy s v.num && (travRings s p v).any (fun q => ks.contains (suspRing q))) ||
  s.ports.any (fun e => ks.contains (suspPort e.1) && e.2.trigs.any (fun x => x.res.trav == v.num)) ||
  ((memKeys s p v).any (fun k => ks.contains k) && travBusy s v.num)

/-- The counters of suspension and the spans of R342. An fc in which a condition starts or ends is suspended (R345). -/
def tickSuspension (s : State) : State :=
  let now := suspendedKeys s
  let ks := (now ++ s.dst.suspOn ++ s.dst.suspHit).eraseDups
  let w := wall s
  let ts := s.plats.active.flatMap (fun p => (p.travs.filter (travSuspended s ks p)).map (·.num))
  let ss := (collTilesNow s).filter (fun t => ks.contains (suspColl t))
  let s := { s with dst := { s.dst with susp := ks.foldl (fun t k => addSpan t k w) s.dst.susp, suspOn := now, suspHit := [] } }
  let s := ts.foldl (fun s t => addF s F.GNT_TRAV_D_SUSPENDED_FC (gntO t) 1) s
  ss.foldl (fun s t => addF s F.GNT_COLL_STALL_FC (t * 8) 1) s

/-! ### Waiting (R302, R310, R320, R486) -/

/-- Whether the head of an input queue waits because it cannot be taken (R310). -/
def headWaits (s : State) (tile trav : Nat) : Bool :=
  let q := inQueue s tile trav
  !q.isEmpty && (inQueue (tokenMatch s tile trav) tile trav).length == q.length

/-- Whether the oldest ready task of a cell of a tile lacks only output-buffer entries (R320). -/
def outGate (s : State) (tile : Nat) : Bool :=
  !halted s && !isSet s F.CLK_HP_QUIESCE 0 && fabOn s (tile / 64) && !s.bmk.held.contains (tile / 64) &&
  (readyOf s tile).any (fun t => (Tbl.get? t.cell s.fab.passes).isNone &&
    ((readyOf s tile).find? (fun u => u.cell == t.cell)) == some t &&
    decide (64 < (outOf s t.cell).length + (cellCode s t.cell).length))

/-- Whether the fetcher of a port waits for an invocation number (R302). -/
def fetchWaits (s : State) (p : Nat) : Bool :=
  decide (8192 ≤ openInvs s p) && s.rings.rings.any (fun e => ringPort s e.1 == p && (match e.2.ents with
    | (_, b) :: _ => mayConsume s e.1 && examine s e.1 == .wait && byteAt b 1 == 1 && !unowned b
    | [] => false))

/-- Whether a channel has a burst to start and waits for its credit (R486). -/
def rateWaits (s : State) (k : Nat) : Bool :=
  let c := chanSt s (k / 64) (k % 64)
  c.cur.isSome && !c.buf.isEmpty && c.squash.isNone && c.burst == 0 && decide (creditNow s (k / 64) (k % 64) c < c.nextBurst * 256)

/-- The counters of waiting. -/
def tickWaits (s : State) : State :=
  let heads := (s.fab.inQ.filter (fun e => headWaits s (e.1 / 4096) (e.1 % 4096))).foldl (fun acc e =>
    if acc.contains (e.1 / 4096) then acc else acc ++ [e.1 / 4096]) []
  let gates := (s.fab.ready.map (·.1)).filter (outGate s)
  let ports := [0, 1].filter (fetchWaits s)
  let chans := (s.dma.chans.map (·.1)).filter (rateWaits s)
  let s := heads.foldl (fun s t => addF s F.SCH_TILE_HOLD_IN_HOLD_FC (tileO t) 1) s
  let s := gates.foldl (fun s t => addF s F.SCH_TILE_HOLD_OUT_GATE_FC (tileO t) 1) s
  let s := ports.foldl (fun s p => addF s F.SCH_INV_FETCH_WAIT_FC (dieO p) 1) s
  chans.foldl (fun s k => addF s F.DMA_WAIT_RATE_WAIT_FC (dmaO (k / 64) (k % 64)) 1) s

/-! ### Passes and zeroing (R320, R371) -/

/-- The fc of running passes (R209, R320): each pass takes 2 + NINSTR fc from its dispatch. -/
def tickPasses (s : State) : State :=
  (s.fab.passes.filter (fun e => decide (s.now - e.2.start < 2 + (cellCode s e.1).length))).foldl (fun s (e : Nat × Pass) =>
    addF s F.SCH_TILE_BUSY_BUSY_CELL_FC (tileO (tileOfCell e.1)) 1) s

/-- The zeroing engines write their next entries (R371). -/
def tickZero (s : State) : State :=
  (s.srm.zeroing.filter (fun e => decide (e.2 ≤ 1))).foldl (fun s (e : Nat × Nat) => zeroNext s e.1) s

/-! ### Shutdown (R471, R472) -/

/-- The STOPPING rings that have written all they owed become DISABLED. -/
def tickStops (s : State) : State := s.rings.rings.foldl (fun s (e : Nat × Ring) => sqStopped s e.1) s

/-! ### Flit slots (R107) -/

/-- Whether a flit slot begins in this fc: 35 slots last 204 fc. -/
def slotBegins (s : State) : Bool := decide (35 * s.now / 204 < 35 * (s.now + 1) / 204)

/-- A slot passes on every port that transmits. -/
def tickSlots (s : State) : State :=
  if slotBegins s then (List.range s.part.ports).foldl idleSlot s else s

/-! ### Time -/

/-- One fc passes. BMK_WALL counts while the PLL runs (R545). -/
def tick (s : State) : State :=
  let st := pllState s
  let s := tickSlots (tickStops (finishJobs (tickZero (tickPasses (tickWaits s)))))
  let s := if st = 1 ∨ st = 2 then addF (tickSuspension s) F.BMK_WALL_FC 0 1 else s
  let s := if st = 2 then addF s F.CLK_PLL_STAT_HOLDOVER_FC 0 1 else s
  { s with now := s.now + 1 }

end Sys2Proof.Machine
end

