-- ==== Sys2Proof/Machine/Pcie.lean ====
section
/-! DEFINITION. The configuration space and the MSI-X BAR of a function (01_architecture.md R41 to R43). The spec gives their contents
and sizes; the places of the fields are PCIe's own (PRESUMED, log entry 20). -/

namespace Sys2Proof.Machine

/-! ### BAR4/5: the MSI-X table and the pending-bit array (R42, R43) -/

/-- The key of a dword (0 to 2) of a vector's table entry. -/
def vecDword (fn vec i : Nat) : Nat := (fn * 2048 + vec) * 4 + i

/-- A dword of the BAR: message address (low, high), message data, vector control (bit 0 MASK) of each entry of 16 bytes; pending
bits from 0x8000. -/
def msixDword (s : State) (fn off : Nat) : Nat :=
  if off < 0x8000 then
    if off % 16 = 12 then (if s.rings.unmasked.contains (fn * 2048 + off / 16) then 0 else 1)
    else Tbl.getD s.rings.msixTable (vecDword fn (off / 16) (off % 16 / 4)) 0
  else if off < 0x8100 then
    bitSet ((List.range 32).filter (fun b => s.rings.pendingBits.contains (fn * 2048 + (off - 0x8000) * 8 + b)))
  else 0

/-- A dword of the BAR is written: an entry's address and data, or its mask. The pending bits cannot be written. -/
def msixWrite (s : State) (fn off v : Nat) : State :=
  let vec := off / 16
  if 0x8000 ≤ off ∨ resetting s fn = true then s
  else if off % 16 = 12 then
    if v % 2 = 1 then { s with rings := { s.rings with unmasked := s.rings.unmasked.erase (fn * 2048 + vec) } }
    else msixUnmask s fn vec
  else
    let v := if off % 16 = 0 then v / 4 * 4 else v
    { s with rings := { s.rings with msixTable := Tbl.put (vecDword fn vec (off % 16 / 4)) (v % 2 ^ 32) s.rings.msixTable } }

/-! ### Configuration space (R41) -/

/-- The PF device ID of a part; the VFs' is one more (R41). -/
def deviceId (p : Part) : Nat :=
  match p with
  | .m820 => 0x0820
  | .m840 => 0x0840
  | .m880 => 0x0880

/-- log2 of the sizes of BAR0/1, BAR2/3 and BAR4/5 of a PF and of a VF (R42). -/
def barLog2 (vf : Bool) (i : Nat) : Nat :=
  if i = 0 then (if vf then 16 else 26) else if i = 1 then (if vf then 14 else 19) else 16

/-- The key of a configuration dword. -/
def cfgKey (fn off : Nat) : Nat := fn * 0x1000 + off

/-- The dword that stands in a 64-bit, non-prefetchable BAR: what was written, without the bits below its size. -/
def barDword (s : State) (fn off k lg : Nat) : Nat :=
  let v := Tbl.getD s.rings.cfg (cfgKey fn off) 0
  if k = 0 then v / 2 ^ lg * 2 ^ lg + 4 else v

/-- A dword of a function's configuration space: IDs, class code 0x12_0000, header type 0, the BARs of a PF, the PCI Express
capability with Device Control at 0x48, MSI-X at 0x80, the device serial number at 0x100, and SR-IOV with its 512 VFs, their device
ID and BARs at 0x140. -/
def cfgDword (s : State) (fn off : Nat) : Nat :=
  let pf := isPf fn
  if off = 0 then (if pf then Config.vendorId.toNat + deviceId s.part * 2 ^ 16 else 0xFFFFFFFF)
  else if off = 8 then 0x12000000
  else if 0x10 ≤ off ∧ off < 0x28 ∧ pf = true then barDword s fn off ((off - 0x10) / 4 % 2) (barLog2 false ((off - 0x10) / 8))
  else if off = 0x34 then 0x40
  else if off = 0x40 then 0x8010
  else if off = 0x48 then devCtl s fn
  else if off = 0x80 then 0x07FF0011
  else if off = 0x84 then 4
  else if off = 0x88 then 0x8004
  else if off = 0x100 then (if pf then 0x14010003 else 0)
  else if off = 0x104 ∧ pf = true then Config.serial.toNat % 2 ^ 32
  else if off = 0x108 ∧ pf = true then Config.serial.toNat / 2 ^ 32
  else if off = 0x140 ∧ pf = true then 0x00010010
  else if off = 0x14C ∧ pf = true then 512 * 2 ^ 16 + 512
  else if off = 0x150 ∧ pf = true then numVfs s fn
  else if off = 0x158 ∧ pf = true then (deviceId s.part + 1) * 2 ^ 16
  else if 0x164 ≤ off ∧ off < 0x17C ∧ pf = true then barDword s fn off ((off - 0x164) / 4 % 2) (barLog2 true ((off - 0x164) / 8))
  else 0

/-- A dword of the configuration space is written: Device Control, or a BAR. -/
def cfgWrite (s : State) (fn off v : Nat) : State :=
  if off = 0x48 then { s with devCtl := Tbl.put fn (v % 2 ^ 16) s.devCtl }
  else if isPf fn = true ∧ (0x10 ≤ off ∧ off < 0x28 ∨ 0x164 ≤ off ∧ off < 0x17C) then
    { s with rings := { s.rings with cfg := Tbl.put (cfgKey fn off) (v % 2 ^ 32) s.rings.cfg } }
  else s

/-! ### Accesses of 4 or 8 bytes to either -/

/-- `len` bytes of dwords. -/
def dwords (f : Nat → Nat) (off len : Nat) : Nat := if len = 8 then halves (f off) (f (off + 4)) else f off

/-- A write of `len` bytes as one or two dwords. -/
def putDwords (f : State → Nat → Nat → State) (s : State) (off len data : Nat) : State :=
  if len = 8 then f (f s off (data % 2 ^ 32)) (off + 4) (data / 2 ^ 32 % 2 ^ 32) else f s off (data % 2 ^ 32)

end Sys2Proof.Machine
end

