-- ==== Sys2Proof/Machine/Host.lean ====
section
/-! DEFINITION. Register accesses of the host (01_architecture.md R16 to R26, R44 to R56, R617, and the rules of each chapter's
register tables): what a register shows, what a write does, and REGISTER_READ, REGISTER_WRITE and ACCESS_TIMEOUT. -/

namespace Sys2Proof.Machine

/-! ### Which access reaches a register -/

/-- An access that R16 allows: 4 or 8 bytes, naturally aligned. -/
def goodAccess (off len : Nat) : Bool := (len == 4 && off % 4 == 0) || (len == 8 && off % 8 == 0)

/-- A CORRECTED entry for an access by `fn` that R16 or R48 turns away. -/
def badAccess (s : State) (fn off : Nat) : State := logC s (dieOfOff off) rsnBadAccess fn 0 off

/-- The key of a VF's register in the register map (R52). -/
def vfKey (fn off : Nat) : Nat := 0x100000000 + fn * 0x10000 + off

/-! ### Values computed from other state -/

/-- The block bits of RING_EVT_SUMMARY (R468): those of the event registers that have a bit set. -/
def evtSummary (s : State) : Nat :=
  let glob := [0x18, 0x20040, 0x30008, 0x40020, 0x50010, 0x60080, 0x70008, 0x80018, 0x100020, 0x200018, 0xC00010]
  let die := [0x10, 0x10010, 0x20098, 0x28098, 0x30008, 0x40828, 0x60010, 0x70010, 0x74010, 0x78010, 0x7C010, 0x80200]
  let hit := fun o => if o < 0x1000000 then glob.contains o else die.contains ((o - 0x1000000) % 0x400000)
  bitSet (dedup ((s.regs.filter (fun e => hit (e.1 / 64))).map (fun e => blockOf (e.1 / 64) - 1)))

/-- The owner table in which a register lies, with its entry. -/
def ownEntry (base o : Nat) : Option (Nat × Nat) :=
  ((List.range 6).find? (fun t => (ownTable t).owner.base == base)).map (fun t => (t, o / 8))

/-- An entry of the odd die of a mirroring pair (R514): its counterpart. -/
def counterpart (s : State) (t i : Nat) : Option Nat :=
  if t < 4 ∧ i / perDie t % 2 = 1 ∧ mirrored s (i / perDie t / 2) then some (i - perDie t) else none

/-- What an entry of an owner table shows where it differs from its own fields: the system channel's place (R495), and the odd
die of a mirroring pair (R514). -/
def ownView (s : State) (t i : Nat) : List (Fld × Nat) :=
  let f := ownTable t
  let sys := fun (aux : Nat) => [(f.owner, fnNone), (f.dirty, 0), (f.next, fnNone), (f.aux, aux), (f.auxNext, 0)]
  if t = 3 ∧ i % 64 = 63 then sys 32
  else match counterpart s t i with
    | some j => [(f.owner, ownerOf s t j), (f.dirty, if dirtyOf s t j then 1 else 0), (f.next, fnNone), (f.aux, auxOf s t j), (f.auxNext, 0)]
    | none => []

/-- Entry HBM_PC_QIDX of a pseudo-channel's queues: address, class, in use. -/
def queueEntry (s : State) (d c : Nat) : Nat × Nat × Nat :=
  let i := getF s F.HBM_PC_QIDX_ENTRY (pcO d c)
  if isSet s F.HBM_PC_QIDX_QUEUE (pcO d c) then
    match (hpc s d c).wq[i]? with
    | some e => (e.line * 128, 2, 1)
    | none => (0, 0, 0)
  else
    match (hpc s d c).rq[i]? with
    | some e => (e.line * 128, if e.urgent then 0 else 1, 1)
    | none => (0, 0, 0)

/-- The local indices of a port that are PENDING, LIVE or STALLED. -/
def heldMask (s : State) (p : Nat) : Nat :=
  bitSet ((List.range 64).filter (fun i =>
    let n := getF s F.TRN_PORT_CFG_SRC_BASE (portO p) + i
    decide (i < srcCount s p ∧ 1 ≤ srcState s n ∧ srcState s n ≤ 3) && getF s F.BMK_SRC_STAT_PORT (srcO n) == p))

/-- REGION_ID of the active region that holds slice `c` of die `d`; 0xFFFF when none. -/
def sliceRegion (s : State) (d c : Nat) : Nat :=
  (s.plats.active.findSome? (fun p => (p.parts.find? (fun r =>
    r.kind == 1 && onDie s r d && decide (r.first ≤ c ∧ c < r.first + r.count))).map (·.region))).getD 0xFFFF

/-- The die, and the offset within its window, of an instance of a die-window register. -/
def dieOfO (o : Nat) : Nat × Nat := (o / 0x400000, o % 0x400000)

/-- What the registers of a virtual function's window show (R52). -/
def vfView (s : State) (fn base : Nat) : List (Fld × Nat) :=
  let n := fun t => (ownedBy s t (· == fn)).length
  if base = F.FN_VF_ID_FUNCTION.base then
    if isVf fn then [(F.FN_VF_ID_FUNCTION, fn), (F.FN_VF_ID_PF, pfOf fn), (F.FN_VF_ID_VF, fn % 0x200 + 1)] else []
  else if base = F.FN_VF_RES_TILES.base then
    [(F.FN_VF_RES_TILES, n 0), (F.FN_VF_RES_SLICES, n 1), (F.FN_VF_RES_UNITS, n 2), (F.FN_VF_RES_RINGS, n 5),
      (F.FN_VF_RES_CHANNELS, n 3), (F.FN_VF_RES_CEILING, getF s F.FN_ATTR_CEILING (attrO fn))]
  else if base = F.FN_VF_STAT_STATE.base then
    [(F.FN_VF_STAT_STATE, getF s F.FN_ATTR_STATE (attrO fn)), (F.FN_VF_STAT_SCRUB_FAULT, getF s F.FN_ATTR_SCRUB_FAULT (attrO fn))]
  else []

/-- Fields of the register at `base`, instance offset `o`, that show other state, as `fn` reads them. -/
def computed (s : State) (fn base o : Nat) : List (Fld × Nat) :=
  let d := (dieOfO o).1
  let w := (dieOfO o).2
  if base = F.PKG_ID_HOST_PF.base then [(F.PKG_ID_HOST_PF, pfOf fn)]
  else if base = F.TRN_STAT_HALTED.base then [(F.TRN_STAT_HALTED, if halted s then 1 else 0)]
  else if base = F.TRN_SRC_MASK_HELD.base then [(F.TRN_SRC_MASK_HELD, heldMask s (d * 2 + w / 0x8000))]
  else if base = F.SRM_CH_STAT_REGION.base then [(F.SRM_CH_STAT_REGION, sliceRegion s d (w / 0x40))]
  else if base = F.HBM_STACK_PC_FROZEN.base then
    [(F.HBM_STACK_PC_FROZEN, bitSet ((List.range 32).filter (fun c => pcState s d c == 1 || pcState s d c == 2))),
      (F.HBM_STACK_PC_FENCED, bitSet ((List.range 32).filter (fun c => pcState s d c == 3)))]
  else if base = F.HBM_PC_STAT_RQ.base then
    [(F.HBM_PC_STAT_RQ, (hpc s d (w / 0x1000)).rq.length), (F.HBM_PC_STAT_WQ, (hpc s d (w / 0x1000)).wq.length)]
  else if base = F.HBM_PC_QDATA_ADDR.base then
    let e := queueEntry s d (w / 0x1000)
    [(F.HBM_PC_QDATA_ADDR, e.1), (F.HBM_PC_QDATA_CLASS, e.2.1), (F.HBM_PC_QDATA_VALID, e.2.2)]
  else if base = F.SPC_WB_DIRTY.base then [(F.SPC_WB_DIRTY, ((spcOf s d).lines.filter (fun e => e.2.dirty != 0)).length)]
  else if base = F.CDC_STAT_WORK.base then
    let k := d * 4 + w / 0x4000
    [(F.CDC_STAT_WORK, engWork s k), (F.CDC_STAT_SLOTS, slotsHeld s k), (F.CDC_STAT_JOBS, (jobsOf s k).length),
      (F.CDC_STAT_CAPTURE, (capsOf s k).length)]
  else if base = F.DMA_CFG_FN.base then
    let i := d * 64 + w / 0x400
    let v := ownView s 3 i
    let get := fun (f : Fld) => (v.find? (fun e => e.1 == f)).elim (getF s f (i * 8)) (·.2)
    [(F.DMA_CFG_FN, get F.FN_OWN_DMA_OWNER), (F.DMA_CFG_SHARE, get F.FN_OWN_DMA_AUX)]
  else if base = F.DMA_ACTIVE_ACTIVE.base then
    [(F.DMA_ACTIVE_ACTIVE, bitSet ((List.range 64).filter (fun n => (chanSt s d n).cur.isSome)))]
  else if base = F.RING_EVT_SUMMARY_BLOCK.base then [(F.RING_EVT_SUMMARY_BLOCK, evtSummary s)]
  else if base = F.TWN_PAIR_HOLD_HELD.base then
    let n := fun k => (Tbl.getD s.twn.hold k []).length
    [(F.TWN_PAIR_HOLD_HELD, n (o / 0x40 * 2) + n (o / 0x40 * 2 + 1))]
  else if base = F.ERR_STAT_VALID.base then
    [(F.ERR_STAT_VALID, (validSlots s).length), (F.ERR_STAT_CURRENT, curSev s), (F.ERR_STAT_OLDEST, (oldest s (validSlots s)).getD 0)]
  else if base = F.SEC_ID_STAT_CERT_LEN.base then [(F.SEC_ID_STAT_CERT_LEN, Config.idCert.length)]
  else if base = F.SEC_PK_DIG_DIGEST.base then
    if o < 0x20 then [(F.SEC_PK_DIG_DIGEST, fld (slotDigest s 0) o 8)] else []
  else if base = F.FN_ATTR_WAYS.base then
    if isPf (o / 0x10) || isVf (o / 0x10) then []
    else [(F.FN_ATTR_WAYS, 0), (F.FN_ATTR_CEILING, 0), (F.FN_ATTR_STATE, 0), (F.FN_ATTR_SCRUB_FAULT, 0)]
  else if base = F.FN_ATTR_NEXT_WAYS.base then
    if isPf (o / 0x10) || isVf (o / 0x10) then [] else [(F.FN_ATTR_NEXT_WAYS, 0), (F.FN_ATTR_NEXT_CEILING, 0)]
  else match ownEntry base o with
    | some (t, i) => ownView s t i
    | none => if 0x100000000 ≤ base then vfView s fn base else []

/-- The 64 bits that a register shows to `fn` (R17): a WO field reads zero. -/
def regValue (s : State) (fn : Nat) (r : RegRow) (o : Nat) : Nat :=
  let c := computed s fn r.base o
  r.fields.foldl (fun n f =>
    let v := if f.acc = .wo then 0 else (c.find? (fun e => e.1 == f)).elim (getF s f o) (·.2)
    n + v % 2 ^ f.width * 2 ^ f.lsb) 0

/-- Whether an access of `len` bytes at `off` covers a field. -/
def covers (off len : Nat) (f : Fld) : Bool :=
  len == 8 || (if off % 8 = 0 then decide (f.lsb < 32) else decide (32 < f.lsb + f.width))

/-- The half or the whole of 64 bits that an access reads. -/
def slice64 (off len v : Nat) : Nat := if len = 8 then v else if off % 8 = 0 then v % 2 ^ 32 else v / 2 ^ 32

/-- What a clearing read leaves of a field: the bits of the half that it does not reach (R16, R17). -/
def leftOver (off len : Nat) (f : Fld) (v : Nat) : Nat :=
  if len = 8 then 0 else if off % 8 = 0 then v / 2 ^ (32 - f.lsb) * 2 ^ (32 - f.lsb) else v % 2 ^ (32 - f.lsb)

/-- The bits of RC fields that a read covers clear (R17). After a read of SCH_CAPTURE_STAMP the next dropped frame is the first
again (R316). -/
def clearRead (s : State) (r : RegRow) (o off len : Nat) : State :=
  let s := if r.base = F.SCH_CAPTURE_STAMP_FIRST_STAMP.base then
      modCdc s (fun c => { c with gaps := c.gaps.filter (fun p => capO p != o) }) else s
  r.fields.foldl (fun s f => if f.acc = .rc ∧ covers off len f = true then setF s f o (leftOver off len f (getF s f o)) else s) s

/-! ### Reads -/

/-- The SEC windows (R575, R576, R578, R582): bytes of the identity key and certificate, of the report, the key buffer and the
response window. -/
def secWindow (s : State) (off n : Nat) : Option Bytes :=
  if 0x62000 ≤ off ∧ off < 0x63000 then some (sub Config.idPublicKey (off - 0x62000) n)
  else if 0x63000 ≤ off ∧ off < 0x64000 then some (sub Config.idCert (off - 0x63000) n)
  else if 0x64000 ≤ off ∧ off < 0x68000 then some (sub s.sec.report (off - 0x64000) n)
  else if 0x68000 ≤ off ∧ off < 0x68520 then some (window s.sec.keyBuf (off - 0x68000) n)
  else if 0x6A000 ≤ off ∧ off < 0x70000 then some (window s.sec.resp (off - 0x6A000) n)
  else none

/-- The die whose HBM_IND_DATA an offset names. -/
def hbmIndAt (off : Nat) : Option Nat :=
  match findReg (off / 8 * 8) regRows with
  | some (r, o) => if r.base = F.HBM_IND_DATA_DATA.base then some (dieOfO o).1 else none
  | none => none

/-- A register of the PF space is read; HBM_IND_DATA answers for itself (`hbmIndAt`). -/
def readReg (s : State) (fn off len : Nat) : State × Nat :=
  match findReg (off / 8 * 8) regRows with
  | none => (s, (secWindow s off len).elim 0 leNat)
  | some (r, o) =>
    let d := (dieOfO o).1
    let half := fun (x : State × Nat) => (x.1, slice64 off len x.2)
    if r.base = F.FAB_IND_DATA_DATA.base then half (fabIndRead s (d * 64 + (dieOfO o).2 / 0x4000))
    else if r.base = F.SRM_IND_DATA_DATA.base then half (srmIndRead s d)
    else (clearRead s r o off len, slice64 off len (regValue s fn r o))

/-- What a mirror of a VF's window shows: the register at an offset of the PF space, or zero where its die is silent. -/
def mirrorValue (s : State) (off : Nat) : Nat :=
  if silentZero s off then 0 else (findReg off regRows).elim 0 (fun x => regValue s 0 x.1 x.2)

/-- The traverses of a function that hold an admitted certificate, ascending (R347). -/
def fnTravs (s : State) (fn : Nat) : List Nat :=
  let own := (livePlats s).filter (fun p => p.owner == fn) |>.flatMap (fun p => p.travs.map (·.num))
  (List.range 4096).filter (fun n => own.contains n && isSet s F.GNT_TRAV_A_ADMITTED (gntO n))

/-- An offset of a VF's window that mirrors other registers: the word shown (R322, R347, R474). -/
def vfMirror (s : State) (fn off : Nat) : Option Nat :=
  if 0x1000 ≤ off ∧ off < 0x5000 then
    some ((namedRing s fn ((off - 0x1000) / 8)).elim 0 (fun n =>
      halves (getF s F.RING_SQ_IDX_CI (ringO n)) (getF s F.RING_CQ_IDX_PI (ringO n))))
  else if 0x9000 ≤ off ∧ off < 0xA000 then
    some (((fnTravs s fn)[(off - 0x9000) / 0x20]?).elim 0 (fun n =>
      mirrorValue s (F.GNT_TRAV_A_ADMITTED.base + gntO n + off % 0x20 / 8 * 8)))
  else if 0xA000 ≤ off ∧ off < 0xB000 then
    some (((ownedBy s 0 (· == fn))[(off - 0xA000) / 0x40]?).elim 0 (fun t =>
      if off % 0x40 < 0x38 then mirrorValue s (F.SCH_TILE_DEPTH_READY.base + tileO t + off % 0x40 / 8 * 8) else 0))
  else none

/-- A virtual function reads its window. -/
def readVf (s : State) (fn off len : Nat) : State × Nat :=
  match vfMirror s fn off with
  | some v => (s, slice64 off len v)
  | none => match findReg (vfKey fn off / 8 * 8) regRows with
    | none => (s, 0)
    | some (r, o) => (clearRead s r o off len, slice64 off len (regValue s fn r o))

/-- Whether the package answers no host: it is dark, or held in cold reset. -/
def unpowered (s : State) : Bool := s.pwr.dark || s.pwr.coldLow

/-- Whether an offset lies in the BAR of a function (R42); an offset of 2^32 and above names the doorbell space. -/
def inBar (fn off : Nat) : Bool := if isPf fn then decide (off < 0x4000000) else isVf fn && decide (off < 0x10000)

/-- Whether an access by `fn` crosses a Chain edge that is not UP on its way to a die window or back: it gets no response, and
ACCESS_TIMEOUT ends it (R50). -/
def accessLost (s : State) (fn off : Nat) : Bool := (windowDie off).any (fun d => !roundTrip s (pfOf fn) d)

/-- A read of another of a function's spaces, by offset less 2^32 (log entry 20): the doorbell space (R55), from 2^33 its MSI-X BAR
(R42, R43), from 2^34 its configuration space (R41). -/
def readSpace (s : State) (fn off len : Nat) : Nat :=
  if off < 2 ^ 33 then doorbellRead s fn (off - 2 ^ 32) len
  else if off < 2 ^ 34 then dwords (msixDword s fn) (off - 2 ^ 33) len
  else dwords (cfgDword s fn) (off - 2 ^ 34) len

/-- REGISTER_READ: a function reads its register space, or one of its other spaces. -/
def registerRead (s : State) (fn off len : Nat) : State :=
  if unpowered s then s
  else if s.pwr.warm ≠ 0 then answer s 0 0
  else if goodAccess off len = false then answer (badAccess s fn off) 1 0
  else if 2 ^ 32 ≤ off then answer s 0 (readSpace s fn off len)
  else if inBar fn off = false then s
  else if resetting s fn ∧ (isPf fn ∨ off / 8 * 8 ≠ 0x10) then answer s 0 0
  else if isVf fn then let r := readVf s fn off len; answer r.1 0 r.2
  else if silentZero s off then answer s 0 0
  else if accessLost s fn off then s
  else match hbmIndAt off with
    | some d => hbmIndRead s d off len
    | none => let r := readReg s fn off len; answer r.1 0 r.2

def execRegisterRead (fn off len : Nat) (s : State) : Res := .next (registerRead s fn off len)

/-! ### Writes -/

/-- Whether any completion ring is enabled. -/
def anyCq (s : State) : Bool := (ringsListed s 0x800000).any (fun n => getF s F.RING_CQ_CTL_STATE (ringO n) == 1)

/-- Whether any unit of a stack lies in a partition, or in the staging region. -/
def stackTaken (s : State) (d : Nat) : Bool :=
  (ownedBy s 2 (fun _ => true)).any (fun i => i / 64 == d) ||
    (isSet s F.PLAT_STAGE_CFG_VALID 0 && getF s F.PLAT_STAGE_CFG_STACK 0 == d) ||
    (isSet s F.RING_OVF_CFG_VALID 0 && getF s F.RING_OVF_CFG_STACK 0 == d)

/-- Whether the block that owns the S-class fields of the register at `base`, instance offset `o`, counts as enabled (R21). -/
def staticLocked (s : State) (base o : Nat) : Bool :=
  let d := (dieOfO o).1
  if base = F.BMK_CTL_ENABLE.base then isSet s F.BMK_CTL_ENABLE 0
  else if base = F.TRN_PORT_CTL_ENABLE.base ∨ base = F.TRN_PORT_CFG_SRC_BASE.base then isSet s F.TRN_PORT_CTL_ENABLE o
  else if base = F.TRN_PKG_PKG_NUM.base then
    (List.range s.part.ports).any (fun p => isSet s F.TRN_PORT_CTL_ENABLE (portO p) && isSet s F.TRN_PORT_CTL_MODE (portO p))
  else if base = F.PLAT_STAGE_CFG_STACK.base then isSet s F.PLAT_CTL_ENABLE 0
  else if base = F.GNT_CFG_HOST_READ_FC.base then !s.plats.resv.isEmpty
  else if base = F.SRM_CTL_ENABLE.base then (List.range 16).any (fun c => regionHolds s 1 d c)
  else if base = F.HBM_STACK_CTL_ENABLE.base then stackTaken s d
  else if base = F.RING_SQ_BASE_BASE.base ∨ base = F.RING_SQ_CFG_SIZE_LOG2.base then sqState s (o / 0x40) != 0
  else if base = F.RING_CQ_BASE_BASE.base ∨ base = F.RING_CQ_CFG_SIZE_LOG2.base then getF s F.RING_CQ_CTL_STATE o != 0
  else if base = F.RING_OVF_CFG_STACK.base then anyCq s
  else if 0x200000 ≤ base ∧ base < 0x300000 then getF s F.FN_STAGE_STAT_STATE 0 != 0
  else false

/-- Whether the block that owns an E-class field counts as enabled. -/
def epochLocked (s : State) (base o : Nat) : Bool :=
  if base = F.BMK_CTL_ENABLE.base then isSet s F.BMK_CTL_ENABLE 0
  else if base = F.SCH_CTL_SNAP_EN.base then isSet s F.FAB_CTL_ENABLE (dieO (dieOfO o).1)
  else spcState s (dieOfO o).1 != 0

/-- Fields whose write is more than a stored value: their register's own rule acts on them. -/
def special : List Fld :=
  [F.BMK_CTL_ENABLE, F.BMK_CTL_EPOCH_SHIFT, F.BMK_PACER_PACER_EN, F.BMK_STAKE_CTL_ARMED, F.TRN_PORT_CTL_ENABLE, F.PLAT_CTL_ENABLE,
    F.PLAT_POLICY_REQUIRE_SIGNED, F.PLAT_POLICY_MIN_SVN, F.FAB_CTL_ENABLE, F.FAB_IND_DATA_DATA, F.SRM_CTL_ENABLE,
    F.SRM_IND_DATA_DATA, F.SRM_CH_CTL_RESET, F.SRM_CH_CTL_FENCE, F.HBM_STACK_CTL_ENABLE, F.HBM_STACK_CTL_SKIP_EN,
    F.HBM_STACK_CTL_SKIP_PC, F.HBM_IND_DATA_DATA, F.HBM_PC_CTL_RESET, F.HBM_PC_CTL_FENCE, F.SPC_CTL_ENABLE, F.CDC_CTL_ENABLE,
    F.RING_SQ_CTL_ENABLE, F.RING_CQ_CTL_ENABLE, F.DMA_CTL_ENABLE, F.TWN_PAIR_CTL_ENABLE, F.CLK_HP_QUIESCE, F.CLK_GATE_GATE,
    F.CLK_DIE_RST_HOLD]

/-- A field is written `v` under its access type and class (R17, R21, R22, R617); `s0` is the state before the write. -/
def writeField (s0 : State) (fn off base o : Nat) (s : State) (f : Fld) (v : Nat) : State :=
  if special.contains f then s
  else match f.acc with
    | .ro | .rc | .wo => s
    | .w1c => if roseNow s (fkey f o) then s else setF s f o (getF s f o - (getF s f o &&& v))
    | .w1s => setF s f o (getF s f o ||| v)
    | .rw =>
      match f.cls with
      | .s => if staticLocked s0 base o then (if getF s0 f o = v then s else logWWR s fn (off / 8 * 8)) else setF s f o v
      | .e =>
        if epochLocked s0 base o then { s with shadow := Tbl.put (fkey f o) v s.shadow }
        else setF { s with shadow := Tbl.del (fkey f o) s.shadow } f o v
      | .l => setF s f o v

/-- What the RW fields of a register hold, as 64 bits: what a 4-byte write leaves of the half that it does not cover. -/
def stored (s : State) (r : RegRow) (o : Nat) : Nat :=
  r.fields.foldl (fun n f => if f.acc = .rw then n + getF s f o * 2 ^ f.lsb else n) 0

/-- The 64 bits of a write of `len` bytes at `off` over the bits `old`. -/
def merged (off len old data : Nat) : Nat :=
  if len = 8 then data % 2 ^ 64
  else if off % 8 = 0 then old / 2 ^ 32 * 2 ^ 32 + data % 2 ^ 32
  else data % 2 ^ 32 * 2 ^ 32 + old % 2 ^ 32

/-- A one-bit enable is written `v`: nothing where it leaves the bit as it stands (R617). -/
def onChange (s : State) (f : Fld) (o : Nat) (w : Option Nat) (set clear : State → State) : State :=
  match w with
  | none => s
  | some v => if getF s f o = v then s else if v = 1 then set s else clear s

/-- A write of a one-bit WO or W1S field that acts on a 1. -/
def onOne (s : State) (w : Option Nat) (act : State → State) : State := if w = some 1 then act s else s

/-- An enable that is set freely, and cleared unless `busy` (WRITE_WHILE_RUNNING). -/
def plainEnable (s : State) (fn off : Nat) (f : Fld) (o : Nat) (w : Option Nat) (busy : Bool) : State :=
  onChange s f o w (fun s => setF s f o 1) (fun s => if busy then logWWR s fn (off / 8 * 8) else setF s f o 0)

/-- A write of STALL_POLICY that waits for a boundary: its fc is noted, with the value that waited before that fc (R101). -/
def notePolicy (s0 s : State) : State :=
  let k := fkey F.BMK_CTL_STALL_POLICY 0
  if (Tbl.get? k s.shadow).isNone then modBmk s (fun b => { b with policyAt := none })
  else if s0.bmk.policyAt.any (fun x => x.1 == s.now) then s
  else modBmk s (fun b => { b with policyAt := some (s.now, Tbl.get? k s0.shadow) })

/-- BMK_CTL (R102): EPOCH_SHIFT, an E-class STALL_POLICY that takes effect at once, and ENABLE. -/
def writeBmkCtl (s0 s : State) (fn off : Nat) (w : Fld → Option Nat) : State :=
  let s := match w F.BMK_CTL_EPOCH_SHIFT with
    | none => s
    | some v =>
      if getF s0 F.BMK_CTL_EPOCH_SHIFT 0 = v then s
      else if isSet s0 F.BMK_CTL_ENABLE 0 then logWWR s fn (off / 8 * 8)
      else if v < 8 ∨ 40 < v then logIgn s fn (off / 8 * 8)
      else setF s F.BMK_CTL_EPOCH_SHIFT 0 v
  let s := if getF s0 F.BMK_CTL_STALL_POLICY 0 ≠ getF s F.BMK_CTL_STALL_POLICY 0 then recomputeG s (wall s % 2 ^ 32) else s
  let s := if (w F.BMK_CTL_STALL_POLICY).isSome then notePolicy s0 s else s
  plainEnable s fn off F.BMK_CTL_ENABLE 0 (w F.BMK_CTL_ENABLE)
    ((List.range s.part.ports).any (fun p => isSet s F.TRN_PORT_CTL_ENABLE (portO p)) || isSet s F.BMK_PACER_PACER_EN 0)

/-- PLAT_POLICY (R196, R573). -/
def writePolicy (s0 s : State) (fn off : Nat) (w : Fld → Option Nat) : State :=
  let one := fun (s : State) (f : Fld) => match w f with
    | none => s
    | some v =>
      if getF s0 f 0 = v then s
      else if isSet s0 F.PLAT_POLICY_LOCK 0 then logWWR s fn (off / 8 * 8) else setF s f 0 v
  refreshPolicy (one (one s F.PLAT_POLICY_REQUIRE_SIGNED) F.PLAT_POLICY_MIN_SVN)

/-- HBM_STACK_CTL (R377, R378, R413): ENABLE, and the interleave of a stack that lies in no partition; a new interleave leaves
the contents undefined, and its skipped pseudo-channel is kept in the fence table (R380). -/
def writeStack (s0 s : State) (fn off d : Nat) (w : Fld → Option Nat) : State :=
  let o := dieO d
  let taken := stackTaken s0 d
  let en := (w F.HBM_STACK_CTL_SKIP_EN).getD (getF s0 F.HBM_STACK_CTL_SKIP_EN o)
  let pc := (w F.HBM_STACK_CTL_SKIP_PC).getD (getF s0 F.HBM_STACK_CTL_SKIP_PC o)
  let dEn := getF s0 F.HBM_STACK_CTL_SKIP_EN o != en
  let dPc := getF s0 F.HBM_STACK_CTL_SKIP_PC o != pc
  let s :=
    if !(dEn || dPc) then s
    else if taken then
      let s := if dEn then logWWR s fn (off / 8 * 8) else s
      if dPc then logWWR s fn (off / 8 * 8) else s
    else
      let s := setF (setF s F.HBM_STACK_CTL_SKIP_EN o en) F.HBM_STACK_CTL_SKIP_PC o pc
      let s := setF s F.HBM_STACK_STAT_UNITS o (if en = 1 then 32 else 33)
      let s := { s with hbm := { s.hbm with skips := if en = 1 then Tbl.put d pc s.hbm.skips else Tbl.del d s.hbm.skips } }
      if dEn || en == 1 then mkUndef (dropCached s d) 2 (hbmAddr d 0) (hbmAddr d (2 ^ 36) - 1) else s
  plainEnable s fn off F.HBM_STACK_CTL_ENABLE o (w F.HBM_STACK_CTL_ENABLE) (stackTaken s d)

/-- The value a write of IND_DATA carries: a 4-byte write leaves the other half of the word, as a read shows it. -/
def indWord (off len data : Nat) (s : State) (rd : State → State × Nat) : State × Nat :=
  if len = 8 then (s, data % 2 ^ 64)
  else let r := rd s; ({ s with nonce := r.1.nonce }, merged off len r.2 data)

/-- Whether a write sets a reserved bit of a register among the bytes that it covers. -/
def setsReserved (r : RegRow) (off len data : Nat) : Bool :=
  let v := merged off len 0 data
  v != r.fields.foldl (fun n f => n + bits v f.lsb f.width * 2 ^ f.lsb) 0

/-- The reserved bits of a ring context's register follow a write while the context is DISABLED (R469): the covered halves. -/
def writeReserved (s : State) (r : RegRow) (off len data : Nat) : State :=
  let halvesAt := if len = 8 then [off, off + 4] else [off]
  halvesAt.foldl (fun s h =>
    let v := if len = 8 then (if h = off then data % 2 ^ 32 else data / 2 ^ 32) else data
    let l := s.rings.rsv.filter (· != h)
    { s with rings := { s.rings with rsv := if setsReserved r h 4 v then h :: l else l } }) s

/-- The ring context whose reserved bytes 0x28 to 0x3F an offset names: whether it is a completion ring's, and its ring. -/
def reservedCtx (off : Nat) : Option (Bool × Nat) :=
  if 0x400000 ≤ off ∧ off < 0xC00000 ∧ 0x28 ≤ off % 0x40 then some (decide (0x800000 ≤ off), off % 0x400000 / 0x40) else none

/-- A write to the reserved bytes of a ring context, which are reserved bits of the context (R469). -/
def writeReservedCtx (s : State) (off len data : Nat) (x : Bool × Nat) : State :=
  let off0 := (if x.1 then getF s F.RING_CQ_CTL_STATE (ringO x.2) else sqState s x.2) = 0
  if off0 then writeReserved s { base := off, dims := [], fields := [] } off len data else s

/-- SRM_CH_CTL and HBM_PC_CTL: RESET, and FENCE where it changes. -/
def writeChannel (s : State) (fReset fFence : Fld) (o : Nat) (w : Fld → Option Nat) (reset : State → State)
    (fence : Bool → State → State) : State :=
  let s := onOne s (w fReset) reset
  onChange s fFence o (w fFence) (fence true) (fence false)

/-- Die-window registers whose write acts: `d` the die, `x` the offset of the instance in its window. -/
def actDie (s0 s : State) (fn off len base data d x : Nat) (w : Fld → Option Nat) : State :=
  let o := d * 0x400000 + x
  if base = F.TRN_PORT_CTL_ENABLE.base then
    let p := d * 2 + x / 0x8000
    let s := onChange s F.TRN_PORT_CTL_ENABLE o (w F.TRN_PORT_CTL_ENABLE) (fun s => portEnable s fn p) (fun s => portDisable s p)
    onOne s (w F.TRN_PORT_CTL_LINK_RESET) (fun s => linkReset s p)
  else if base = F.FAB_CTL_ENABLE.base then
    plainEnable s fn off F.FAB_CTL_ENABLE o (w F.FAB_CTL_ENABLE)
      ((List.range 64).any (fun t => getF s F.FAB_TILE_BANK_ACTIVE_HANDLE (tileO (d * 64 + t)) != 0))
  else if base = F.FAB_IND_DATA_DATA.base then
    let t := d * 64 + x / 0x4000
    let v := indWord off len data s (fun s => fabIndRead s t)
    fabIndWrite v.1 fn t v.2
  else if base = F.SRM_CTL_ENABLE.base then
    plainEnable s fn off F.SRM_CTL_ENABLE o (w F.SRM_CTL_ENABLE) ((List.range 16).any (fun c => regionHolds s 1 d c))
  else if base = F.SRM_IND_DATA_DATA.base then
    let v := indWord off len data s (fun s => srmIndRead s d)
    srmIndWrite v.1 fn d v.2
  else if base = F.SRM_CH_CTL_RESET.base then
    writeChannel s F.SRM_CH_CTL_RESET F.SRM_CH_CTL_FENCE o w (fun s => sramChannelReset s d (x / 0x40))
      (fun b s => sramFence s d (x / 0x40) b)
  else if base = F.HBM_STACK_CTL_ENABLE.base then writeStack s0 s fn off d w
  else if base = F.HBM_IND_DATA_DATA.base then
    hbmIndWrite s fn d (off % 8) (leBytes len data)
  else if base = F.HBM_PC_CTL_RESET.base then
    writeChannel s F.HBM_PC_CTL_RESET F.HBM_PC_CTL_FENCE o w (fun s => hbmChannelReset s d (x / 0x1000))
      (fun b s => hbmFence s d (x / 0x1000) b)
  else if base = F.SPC_CTL_ENABLE.base then
    onChange s F.SPC_CTL_ENABLE o (w F.SPC_CTL_ENABLE) (fun s => spcEnable s fn d) (fun s => spcDisable s fn d)
  else if base = F.SPC_CMD_OP.base then
    match w F.SPC_CMD_OP with
    | none => s
    | some op => spcCommand s d op ((w F.SPC_CMD_WAY).getD 0) ((w F.SPC_CMD_WAYS).getD 0)
  else if base = F.CDC_CTL_ENABLE.base then
    let k := d * 4 + x / 0x4000
    onChange s F.CDC_CTL_ENABLE o (w F.CDC_CTL_ENABLE) (fun s => cdcEnable s fn k true) (fun s => cdcEnable s fn k false)
  else if base = F.DMA_CTL_ENABLE.base then
    onChange s F.DMA_CTL_ENABLE o (w F.DMA_CTL_ENABLE) (fun s => dmaEnable s fn d (x / 0x400)) (fun s => dmaDisable s fn d (x / 0x400))
  else s

/-- Ring contexts whose write acts: `n` the ring. -/
def actRing (s0 s : State) (fn off len base data n : Nat) (r : RegRow) (w : Fld → Option Nat) : State :=
  let sqOff := sqState s0 n = 0
  let cqOff := getF s0 F.RING_CQ_CTL_STATE (ringO n) = 0
  if base = F.RING_SQ_CFG_SIZE_LOG2.base then if sqOff then writeReserved s r off len data else s
  else if base = F.RING_CQ_CFG_SIZE_LOG2.base then
    cqCoalesce (if cqOff then writeReserved s r off len data else s) n
  else if base = F.RING_SQ_CTL_ENABLE.base then
    let s := if sqOff then writeReserved s r off len data else s
    onChange s F.RING_SQ_CTL_ENABLE (ringO n) (w F.RING_SQ_CTL_ENABLE) (fun s => sqEnable s fn n) (fun s => ringShutdown s n rsnShutdown)
  else if base = F.RING_CQ_CTL_ENABLE.base then
    let s := if cqOff then writeReserved s r off len data else s
    onChange s F.RING_CQ_CTL_ENABLE (ringO n) (w F.RING_CQ_CTL_ENABLE) (fun s => cqEnable s fn n) (fun s => cqDisable s fn n)
  else s

/-- Registers of the global area whose write acts. DESIGN CHOICE, log entry 72: a 4-byte write of a WO register of 64 bits
(BMK_ADVANCE, SEC_SVN_COMMIT) acts with the half that it does not cover as zero; R16 says nothing of a value that is not stored. -/
def actGlobal (s0 s : State) (fn off len base data o : Nat) (w : Fld → Option Nat) : State :=
  if base = F.BMK_CTL_ENABLE.base then writeBmkCtl s0 s fn off w
  else if base = F.BMK_PACER_PACER_EN.base then
    onChange s F.BMK_PACER_PACER_EN 0 (w F.BMK_PACER_PACER_EN)
      (fun s => recomputeG (setF s F.BMK_PACER_PACER_EN 0 1) (wall s % 2 ^ 32))
      (fun s => recomputeG (setF s F.BMK_PACER_PACER_EN 0 0) (wall s % 2 ^ 32))
  else if base = F.BMK_ADVANCE_TARGET.base then bmkAdvance s (merged off len 0 data)
  else if base = F.BMK_STAKE_CTL_ARMED.base then onOne s (w F.BMK_STAKE_CTL_ARMED) (fun s => stakeDisarm s (o / 0x10))
  else if base = F.PLAT_CTL_ENABLE.base then
    plainEnable s fn off F.PLAT_CTL_ENABLE 0 (w F.PLAT_CTL_ENABLE) ((List.range 4).any (fun k => slotPhase s k != 0))
  else if base = F.PLAT_POLICY_LOCK.base then writePolicy s0 s fn off w
  else if base = F.FN_STAGE_REQ.base then
    onOne (onOne s (w F.FN_STAGE_REQ) stageReq) (w F.FN_STAGE_WITHDRAW) stageWithdraw
  else if base = F.TWN_PAIR_CTL_ENABLE.base then
    let k := o / 0x40
    if pairThere s k then
      onChange s F.TWN_PAIR_CTL_ENABLE o (w F.TWN_PAIR_CTL_ENABLE) (fun s => pairEnable s fn k) (fun s => pairDisable s fn k)
    else s
  else if base = F.PWR_CTL_ALERT_EN.base ∨ base = F.PWR_EVENT_DEGRADED.base then refreshAlert s
  else if base = F.CLK_RESET_WARM.base then
    if w F.CLK_RESET_WARM = some 1 ∧ w F.CLK_RESET_KEY = some 0x5752 then warm s else s
  else if base = F.CLK_HP_QUIESCE.base then onOne s (w F.CLK_HP_QUIESCE) quiesce
  else if base = F.CLK_GATE_GATE.base then
    match w F.CLK_GATE_GATE with
    | none => s
    | some v => if present s.part (o / 8) then gateWrite s fn (o / 8) v else s
  else if base = F.CLK_DIE_RST_HOLD.base then
    if present s.part (o / 8) then
      onChange s F.CLK_DIE_RST_HOLD o (w F.CLK_DIE_RST_HOLD) (fun s => dieHold s fn (o / 8)) (fun s => dieRelease s (o / 8))
    else s
  else if base = F.ERR_INJECT_GO.base then onOne s (w F.ERR_INJECT_GO) (fun s => errInject s ((w F.ERR_INJECT_SEV).getD 0))
  else if base = F.ERR_SEAL_CTL_ERASE.base then onOne s (w F.ERR_SEAL_CTL_ERASE) eraseLog
  else if base = F.SEC_SVN_COMMIT_COMMIT.base then svnCommit s (merged off len 0 data)
  else if base = F.SEC_ATTEST_REQ.base then onOne s (w F.SEC_ATTEST_REQ) attestReq
  else if base = F.SEC_PK_CTL_INSTALL.base then
    let k := getF s F.SEC_PK_CTL_SLOT 0
    onOne (onOne s (w F.SEC_PK_CTL_INSTALL) (fun s => keyInstall s fn k)) (w F.SEC_PK_CTL_CLEAR) (fun s => keyClear s fn k)
  else if base = F.SEC_DBG_CTL_SUBMIT.base then
    onOne (onOne s (w F.SEC_DBG_CTL_CHALLENGE) challenge) (w F.SEC_DBG_CTL_SUBMIT) submit
  else s

/-- Entries whose writes are ignored: the system channel's place in FN_OWN_DMA (logged, R495), the odd die of a mirroring pair
(R514), attributes of reserved function numbers. The second component tells that the write is logged. -/
def ignoredEntry (s : State) (base o : Nat) : Option Bool :=
  if base = F.FN_ATTR_NEXT_WAYS.base then (if isPf (o / 0x10) || isVf (o / 0x10) then none else some false)
  else match ownEntry base o with
    | none => none
    | some (t, i) =>
      if t = 3 ∧ i % 64 = 63 then some true else if (counterpart s t i).isSome then some false else none

/-- A write of a register: its plain fields first, then what its own rule does. -/
def writeReg (s : State) (fn off len data : Nat) (r : RegRow) (o : Nat) : State :=
  match ignoredEntry s r.base o with
  | some true => logIgn s fn (off / 8 * 8)
  | some false => s
  | none =>
    let v := merged off len (stored s r o) data
    let w := fun (f : Fld) => if covers off len f then some (bits v f.lsb f.width) else none
    let s' := r.fields.foldl (fun t f => (w f).elim t (fun x => writeField s fn off r.base o t f x)) s
    if 0x1000000 ≤ r.base then actDie s s' fn off len r.base data (o / 0x400000) (o % 0x400000) w
    else if 0x400000 ≤ r.base ∧ r.base < 0xC00000 then actRing s s' fn off len r.base data (o / 0x40) r w
    else actGlobal s s' fn off len r.base data o w

/-- Bytes written into a window from offset `off`. -/
def putBytes (t : Tbl Byte) (off : Nat) (bs : Bytes) : Tbl Byte :=
  (bs.zipIdx.foldl (fun t x => if x.1 = 0#8 then Tbl.del (off + x.2) t else Tbl.put (off + x.2) x.1 t) t)

/-- A write to the SEC windows: the key buffer and the response window take bytes, those past 0xE93 of the response window are
ignored (R582), and the others cannot be written. -/
def writeWindow (s : State) (off len data : Nat) : State :=
  let bs := leBytes len data
  if 0x68000 ≤ off ∧ off < 0x68520 then modSec s (fun c => { c with keyBuf := putBytes c.keyBuf (off - 0x68000) bs })
  else if 0x6A000 ≤ off ∧ off < 0x6AE94 then modSec s (fun c => { c with resp := putBytes c.resp (off - 0x6A000) bs })
  else s

/-- A write to another of a function's spaces (`readSpace`); a doorbell is rung by DOORBELL_WRITE. -/
def writeSpace (s : State) (fn off len data : Nat) : State :=
  if off < 2 ^ 33 then s
  else if off < 2 ^ 34 then putDwords (fun s o v => msixWrite s fn o v) s (off - 2 ^ 33) len data
  else putDwords (fun s o v => cfgWrite s fn o v) s (off - 2 ^ 34) len data

/-- REGISTER_WRITE: a function writes its register space, or one of its other spaces. -/
def registerWrite (s : State) (fn off len data : Nat) : State :=
  if unpowered s ∨ s.pwr.warm ≠ 0 then s
  else if goodAccess off len = false then answer (badAccess s fn off) 1 0
  else if 2 ^ 32 ≤ off then (if isPf fn || isVf fn then writeSpace s fn off len data else s)
  else if inBar fn off = false ∨ resetting s fn then s
  else if isVf fn then
    if (vfMirror s fn off).isSome then s
    else match findReg (vfKey fn off / 8 * 8) regRows with
      | none => badAccess s fn off
      | some (r, o) =>
        let v := merged off len (stored s r o) data
        r.fields.foldl (fun t f => if covers off len f then writeField s fn off r.base o t f (bits v f.lsb f.width) else t) s
  else if silentZero s off || accessLost s fn off then s
  else match findReg (off / 8 * 8) regRows with
    | some (r, o) => writeReg s fn off len data r o
    | none =>
      if (secWindow s off len).isSome then writeWindow s off len data
      else match reservedCtx off with
        | some x => writeReservedCtx s off len data x
        | none => badAccess s fn off

def execRegisterWrite (fn off len data : Nat) (s : State) : Res := .next (registerWrite s fn off len data)

/-- A read of HBM_IND_DATA that still waits is given up. -/
def indGiveUp (s : State) (off : Nat) : State :=
  match hbmIndAt off with
  | some d => dropReads { s with hbm := { s.hbm with ind := Tbl.del d s.hbm.ind } } (· == indWho d)
  | none => s

/-- ACCESS_TIMEOUT (R50): an access to the window of a die gets no response; a read is completed with a Completer Abort. -/
def accessTimeout (s : State) (fn off : Nat) (write : Bool) : State :=
  match windowDie off with
  | none => s
  | some d =>
    if dieUp s d then
      let s := logC s d rsnTimeout fn 0 off
      let s := if write then s else indGiveUp s off
      if write then s else answer s 2 0
    else s

def execAccessTimeout (fn off : Nat) (write : Bool) (s : State) : Res := .next (accessTimeout s fn off write)

end Sys2Proof.Machine
end

