-- ==== Sys2Proof/Machine/Dispatch.lean ====
section
/-! DEFINITION. One arm per command: its meaning. -/

namespace Sys2Proof.Machine

/-- The effect of a command on everything but the queue. -/
def exec (i : Instr) (s : State) : Host.Outcome State Fault Refusal :=
  match i with
  | .registerWrite fn off len data => Sys2Proof.Machine.execRegisterWrite fn off len data s
  | .accessTimeout fn off write => Sys2Proof.Machine.execAccessTimeout fn off write s
  | .gViewUpdate die => Sys2Proof.Machine.execGViewUpdate die s
  | .silenceTimeout src => Sys2Proof.Machine.execSilenceTimeout src s
  | .pacerTick => Sys2Proof.Machine.execPacerTick s
  | .bmkAdvance target => Sys2Proof.Machine.execBmkAdvance target s
  | .stakeDisarm n => Sys2Proof.Machine.execStakeDisarm n s
  | .horizonTokenSend trav die => Sys2Proof.Machine.execHorizonTokenSend trav die s
  | .epochSwitchStart => Sys2Proof.Machine.execEpochSwitchStart s
  | .prepare die => Sys2Proof.Machine.execPrepare die s
  | .ready die => Sys2Proof.Machine.execReady die s
  | .commitApply die => Sys2Proof.Machine.execCommitApply die s
  | .portEnable fn port => Sys2Proof.Machine.execPortEnable fn port s
  | .portDisable port => Sys2Proof.Machine.execPortDisable port s
  | .linkReset port => Sys2Proof.Machine.execLinkReset port s
  | .signalDetect port => Sys2Proof.Machine.execSignalDetect port s
  | .lanesAdapted port polarity reversed => Sys2Proof.Machine.execLanesAdapted port polarity reversed s
  | .laneFail port => Sys2Proof.Machine.execLaneFail port s
  | .trainTimeout port => Sys2Proof.Machine.execTrainTimeout port s
  | .lockAcquired port => Sys2Proof.Machine.execLockAcquired port s
  | .lockTimeout port => Sys2Proof.Machine.execLockTimeout port s
  | .initComplete port => Sys2Proof.Machine.execInitComplete port s
  | .lossOfLock port => Sys2Proof.Machine.execLossOfLock port s
  | .resetIdleDone port => Sys2Proof.Machine.execResetIdleDone port s
  | .dataFlitReceive port fecCorrected fecUncorrected flit => Sys2Proof.Machine.execDataFlitReceive port fecCorrected fecUncorrected flit s
  | .lcFlitReceive port fecCorrected fecUncorrected flit => Sys2Proof.Machine.execLcFlitReceive port fecCorrected fecUncorrected flit s
  | .retryRepeat port => Sys2Proof.Machine.execRetryRepeat port s
  | .ackSend port => Sys2Proof.Machine.execAckSend port s
  | .frameCheck port => Sys2Proof.Machine.execFrameCheck port s
  | .frameAccept port => Sys2Proof.Machine.execFrameAccept port s
  | .hello port => Sys2Proof.Machine.execHello port s
  | .bye port => Sys2Proof.Machine.execBye port s
  | .byeWaitExpiry src => Sys2Proof.Machine.execByeWaitExpiry src s
  | .nakSend port => Sys2Proof.Machine.execNakSend port s
  | .triggerSend port => Sys2Proof.Machine.execTriggerSend port s
  | .haltFrameSend port => Sys2Proof.Machine.execHaltFrameSend port s
  | .fedStampSend port => Sys2Proof.Machine.execFedStampSend port s
  | .fedTokenSend src entry copy => Sys2Proof.Machine.execFedTokenSend src entry copy s
  | .loadPlat ring => Sys2Proof.Machine.execLoadPlat ring s
  | .platFetchDone slot ok image => Sys2Proof.Machine.execPlatFetchDone slot ok image s
  | .platCheckDone slot => Sys2Proof.Machine.execPlatCheckDone slot s
  | .gauntletAdmit slot => Sys2Proof.Machine.execGauntletAdmit slot s
  | .preloadDone slot => Sys2Proof.Machine.execPreloadDone slot s
  | .replaceZeroingDone slot => Sys2Proof.Machine.execReplaceZeroingDone slot s
  | .unloadPlat ring => Sys2Proof.Machine.execUnloadPlat ring s
  | .taskDispatch tile => Sys2Proof.Machine.execTaskDispatch tile s
  | .tokenMatch tile trav => Sys2Proof.Machine.execTokenMatch tile trav s
  | .nop cell => Sys2Proof.Machine.execNop cell s
  | .mov cell => Sys2Proof.Machine.execMov cell s
  | .add cell => Sys2Proof.Machine.execAdd cell s
  | .sub cell => Sys2Proof.Machine.execSub cell s
  | .mul cell => Sys2Proof.Machine.execMul cell s
  | .mulh cell => Sys2Proof.Machine.execMulh cell s
  | .neg cell => Sys2Proof.Machine.execNeg cell s
  | .abs cell => Sys2Proof.Machine.execAbs cell s
  | .min cell => Sys2Proof.Machine.execMin cell s
  | .max cell => Sys2Proof.Machine.execMax cell s
  | .and cell => Sys2Proof.Machine.execAnd cell s
  | .or cell => Sys2Proof.Machine.execOr cell s
  | .xor cell => Sys2Proof.Machine.execXor cell s
  | .not cell => Sys2Proof.Machine.execNot cell s
  | .shl cell => Sys2Proof.Machine.execShl cell s
  | .shr cell => Sys2Proof.Machine.execShr cell s
  | .rol cell => Sys2Proof.Machine.execRol cell s
  | .popc cell => Sys2Proof.Machine.execPopc cell s
  | .clz cell => Sys2Proof.Machine.execClz cell s
  | .ctz cell => Sys2Proof.Machine.execCtz cell s
  | .bfx cell => Sys2Proof.Machine.execBfx cell s
  | .bfi cell => Sys2Proof.Machine.execBfi cell s
  | .h64 cell => Sys2Proof.Machine.execH64 cell s
  | .cmpeq cell => Sys2Proof.Machine.execCmpeq cell s
  | .cmpne cell => Sys2Proof.Machine.execCmpne cell s
  | .cmplt cell => Sys2Proof.Machine.execCmplt cell s
  | .cmple cell => Sys2Proof.Machine.execCmple cell s
  | .sel cell => Sys2Proof.Machine.execSel cell s
  | .isnull cell => Sys2Proof.Machine.execIsnull cell s
  | .merge cell => Sys2Proof.Machine.execMerge cell s
  | .keep cell => Sys2Proof.Machine.execKeep cell s
  | .drop cell => Sys2Proof.Machine.execDrop cell s
  | .rsum cell => Sys2Proof.Machine.execRsum cell s
  | .rmin cell => Sys2Proof.Machine.execRmin cell s
  | .rmax cell => Sys2Proof.Machine.execRmax cell s
  | .rcnt cell => Sys2Proof.Machine.execRcnt cell s
  | .ror cell => Sys2Proof.Machine.execRor cell s
  | .rfirst cell => Sys2Proof.Machine.execRfirst cell s
  | .rlast cell => Sys2Proof.Machine.execRlast cell s
  | .fadd32 cell => Sys2Proof.Machine.execFadd32 cell s
  | .fadd64 cell => Sys2Proof.Machine.execFadd64 cell s
  | .fsub32 cell => Sys2Proof.Machine.execFsub32 cell s
  | .fsub64 cell => Sys2Proof.Machine.execFsub64 cell s
  | .fcmp32 cell => Sys2Proof.Machine.execFcmp32 cell s
  | .fcmp64 cell => Sys2Proof.Machine.execFcmp64 cell s
  | .fkey32 cell => Sys2Proof.Machine.execFkey32 cell s
  | .fkey64 cell => Sys2Proof.Machine.execFkey64 cell s
  | .shuf cell => Sys2Proof.Machine.execShuf cell s
  | .compact cell => Sys2Proof.Machine.execCompact cell s
  | .bcast cell => Sys2Proof.Machine.execBcast cell s
  | .tagf cell => Sys2Proof.Machine.execTagf cell s
  | .ld cell => Sys2Proof.Machine.execLd cell s
  | .st cell => Sys2Proof.Machine.execSt cell s
  | .upd cell => Sys2Proof.Machine.execUpd cell s
  | .srq cell => Sys2Proof.Machine.execSrq cell s
  | .hrq cell => Sys2Proof.Machine.execHrq cell s
  | .emit cell => Sys2Proof.Machine.execEmit cell s
  | .emitd cell => Sys2Proof.Machine.execEmitd cell s
  | .routeCopySend src entry copy => Sys2Proof.Machine.execRouteCopySend src entry copy s
  | .chainTokenDeliver die msg => Sys2Proof.Machine.execChainTokenDeliver die msg s
  | .nullReplyDeliver cell entry => Sys2Proof.Machine.execNullReplyDeliver cell entry s
  | .holdStall tile trav => Sys2Proof.Machine.execHoldStall tile trav s
  | .scanTokenIssue inv col host => Sys2Proof.Machine.execScanTokenIssue inv col host s
  | .sortMergeDone inv first => Sys2Proof.Machine.execSortMergeDone inv first s
  | .collectorTake tile => Sys2Proof.Machine.execCollectorTake tile s
  | .hostBufferWrite port => Sys2Proof.Machine.execHostBufferWrite port s
  | .trigOutDrive die => Sys2Proof.Machine.execTrigOutDrive die s
  | .trigOutPulseEnd pin => Sys2Proof.Machine.execTrigOutPulseEnd pin s
  | .invocationEnd inv => Sys2Proof.Machine.execInvocationEnd inv s
  | .streamEnd trav src => Sys2Proof.Machine.execStreamEnd trav src s
  | .fabIndDataWrite fn tile data => Sys2Proof.Machine.execFabIndDataWrite fn tile data s
  | .fabIndDataRead fn tile => Sys2Proof.Machine.execFabIndDataRead fn tile s
  | .srqServe die ch ce ue syndrome => Sys2Proof.Machine.execSrqServe die ch ce ue syndrome s
  | .eccWriteback die ch => Sys2Proof.Machine.execEccWriteback die ch s
  | .sramParityFreeze die ch writeData => Sys2Proof.Machine.execSramParityFreeze die ch writeData s
  | .sramChannelReset die ch => Sys2Proof.Machine.execSramChannelReset die ch s
  | .sramChannelResetDone die ch pass => Sys2Proof.Machine.execSramChannelResetDone die ch pass s
  | .sramFence die ch set => Sys2Proof.Machine.execSramFence die ch set s
  | .sliceZeroingDone die slice => Sys2Proof.Machine.execSliceZeroingDone die slice s
  | .sramScrubRead die ch ce ue syndrome => Sys2Proof.Machine.execSramScrubRead die ch ce ue syndrome s
  | .srmIndDataAccess fn die write data => Sys2Proof.Machine.execSrmIndDataAccess fn die write data s
  | .hbmReadIssue stack pc => Sys2Proof.Machine.execHbmReadIssue stack pc s
  | .hbmWriteIssue stack pc => Sys2Proof.Machine.execHbmWriteIssue stack pc s
  | .hbmReadReturn stack pc outcome syndrome => Sys2Proof.Machine.execHbmReadReturn stack pc outcome syndrome s
  | .hbmParityError stack pc => Sys2Proof.Machine.execHbmParityError stack pc s
  | .hbmWriteCrcError stack pc => Sys2Proof.Machine.execHbmWriteCrcError stack pc s
  | .refreshWindow stack setting margin ok => Sys2Proof.Machine.execRefreshWindow stack setting margin ok s
  | .retrainPassStart stack => Sys2Proof.Machine.execRetrainPassStart stack s
  | .hbmChannelReset stack pc => Sys2Proof.Machine.execHbmChannelReset stack pc s
  | .hbmChannelResetDone stack pc pass => Sys2Proof.Machine.execHbmChannelResetDone stack pc pass s
  | .hbmFence stack pc set => Sys2Proof.Machine.execHbmFence stack pc set s
  | .hbmIndDataAccess fn die write data => Sys2Proof.Machine.execHbmIndDataAccess fn die write data s
  | .cacheLookup die parity => Sys2Proof.Machine.execCacheLookup die parity s
  | .fillSectorArrive die fill => Sys2Proof.Machine.execFillSectorArrive die fill s
  | .lock fn die ways => Sys2Proof.Machine.execLock fn die ways s
  | .unlock fn die ways => Sys2Proof.Machine.execUnlock fn die ways s
  | .preload fn die way => Sys2Proof.Machine.execPreload fn die way s
  | .invalidate fn die way => Sys2Proof.Machine.execInvalidate fn die way s
  | .cleanInvalidate fn die way => Sys2Proof.Machine.execCleanInvalidate fn die way s
  | .spcCmdDone die => Sys2Proof.Machine.execSpcCmdDone die s
  | .cacheDrain fn die => Sys2Proof.Machine.execCacheDrain fn die s
  | .cacheDrained die => Sys2Proof.Machine.execCacheDrained die s
  | .cacheEnable fn die => Sys2Proof.Machine.execCacheEnable fn die s
  | .cdcCompress ring => Sys2Proof.Machine.execCdcCompress ring s
  | .cdcDecompress ring => Sys2Proof.Machine.execCdcDecompress ring s
  | .codecBlockDone die engine host hostError => Sys2Proof.Machine.execCodecBlockDone die engine host hostError s
  | .decodeBlock die engine host hostError => Sys2Proof.Machine.execDecodeBlock die engine host hostError s
  | .captureBlock die engine => Sys2Proof.Machine.execCaptureBlock die engine s
  | .doorbellWrite fn off len data => Sys2Proof.Machine.execDoorbellWrite fn off len data s
  | .entryReadReturn ring ok data => Sys2Proof.Machine.execEntryReadReturn ring ok data s
  | .entryReread ring ok data => Sys2Proof.Machine.execEntryReread ring ok data s
  | .entryConsume ring => Sys2Proof.Machine.execEntryConsume ring s
  | .nopEntry ring => Sys2Proof.Machine.execNopEntry ring s
  | .invoke ring => Sys2Proof.Machine.execInvoke ring s
  | .cancel ring => Sys2Proof.Machine.execCancel ring s
  | .postBuffer ring => Sys2Proof.Machine.execPostBuffer ring s
  | .dmaXfer ring => Sys2Proof.Machine.execDmaXfer ring s
  | .postBufferTimeout ring => Sys2Proof.Machine.execPostBufferTimeout ring s
  | .completionWrite port => Sys2Proof.Machine.execCompletionWrite port s
  | .overflowDrain ring => Sys2Proof.Machine.execOverflowDrain ring s
  | .coalesceTimeout ring => Sys2Proof.Machine.execCoalesceTimeout ring s
  | .sqEnable fn ring => Sys2Proof.Machine.execSqEnable fn ring s
  | .sqShutdown fn ring => Sys2Proof.Machine.execSqShutdown fn ring s
  | .cqEnable fn ring => Sys2Proof.Machine.execCqEnable fn ring s
  | .cqDisable fn ring => Sys2Proof.Machine.execCqDisable fn ring s
  | .contextParityError ring cq => Sys2Proof.Machine.execContextParityError ring cq s
  | .dmaTransferStart die ch => Sys2Proof.Machine.execDmaTransferStart die ch s
  | .dmaReadBurst die ch => Sys2Proof.Machine.execDmaReadBurst die ch s
  | .dmaReadReturn die ch ok data => Sys2Proof.Machine.execDmaReadReturn die ch ok data s
  | .dmaWriteBeat die => Sys2Proof.Machine.execDmaWriteBeat die s
  | .dmaWriteAck die ch => Sys2Proof.Machine.execDmaWriteAck die ch s
  | .channelDisable fn die ch => Sys2Proof.Machine.execChannelDisable fn die ch s
  | .channelEnable fn die ch => Sys2Proof.Machine.execChannelEnable fn die ch s
  | .stageReq => Sys2Proof.Machine.execStageReq s
  | .stageCheckDone => Sys2Proof.Machine.execStageCheckDone s
  | .withdraw => Sys2Proof.Machine.execWithdraw s
  | .drainComplete table index => Sys2Proof.Machine.execDrainComplete table index s
  | .drainLimit => Sys2Proof.Machine.execDrainLimit s
  | .scrubDone table index => Sys2Proof.Machine.execScrubDone table index s
  | .functionLevelReset fn => Sys2Proof.Machine.execFunctionLevelReset fn s
  | .pfFunctionLevelReset pf => Sys2Proof.Machine.execPfFunctionLevelReset pf s
  | .flrStepEnd fn => Sys2Proof.Machine.execFlrStepEnd fn s
  | .pairEnable fn pair => Sys2Proof.Machine.execPairEnable fn pair s
  | .pairDisable fn pair => Sys2Proof.Machine.execPairDisable fn pair s
  | .syncDone pair => Sys2Proof.Machine.execSyncDone pair s
  | .twinGateRelease pair => Sys2Proof.Machine.execTwinGateRelease pair s
  | .heartbeat die => Sys2Proof.Machine.execHeartbeat die s
  | .heartbeatTimeout die => Sys2Proof.Machine.execHeartbeatTimeout die s
  | .dieDigest die => Sys2Proof.Machine.execDieDigest die s
  | .holdExpiry die => Sys2Proof.Machine.execHoldExpiry die s
  | .roleSwap => Sys2Proof.Machine.execRoleSwap s
  | .feedSample a b => Sys2Proof.Machine.execFeedSample a b s
  | .powerFail => Sys2Proof.Machine.execPowerFail s
  | .refWindowEnd ref edges => Sys2Proof.Machine.execRefWindowEnd ref edges s
  | .refDead ref => Sys2Proof.Machine.execRefDead ref s
  | .pllLock => Sys2Proof.Machine.execPllLock s
  | .refSwitch => Sys2Proof.Machine.execRefSwitch s
  | .pllFault => Sys2Proof.Machine.execPllFault s
  | .clkGateWrite fn die data => Sys2Proof.Machine.execClkGateWrite fn die data s
  | .coldReset => Sys2Proof.Machine.execColdReset s
  | .powerUpStepEnd ok => Sys2Proof.Machine.execPowerUpStepEnd ok s
  | .warm => Sys2Proof.Machine.execWarm s
  | .warmResetStepEnd => Sys2Proof.Machine.execWarmResetStepEnd s
  | .dieHold fn die => Sys2Proof.Machine.execDieHold fn die s
  | .dieRelease die => Sys2Proof.Machine.execDieRelease die s
  | .dieReleaseDone die => Sys2Proof.Machine.execDieReleaseDone die s
  | .chainEdgeLoss die edge => Sys2Proof.Machine.execChainEdgeLoss die edge s
  | .edgeRetrainAttemptEnd die edge ok => Sys2Proof.Machine.execEdgeRetrainAttemptEnd die edge ok s
  | .hostPortLoss port => Sys2Proof.Machine.execHostPortLoss port s
  | .perstDeassert port => Sys2Proof.Machine.execPerstDeassert port s
  | .feedSenseChange feed high => Sys2Proof.Machine.execFeedSenseChange feed high s
  | .hpAttn => Sys2Proof.Machine.execHpAttn s
  | .quiesce => Sys2Proof.Machine.execQuiesce s
  | .quiesceDone => Sys2Proof.Machine.execQuiesceDone s
  | .hpEject => Sys2Proof.Machine.execHpEject s
  | .secSvnCommit fn data => Sys2Proof.Machine.execSecSvnCommit fn data s
  | .install fn slot => Sys2Proof.Machine.execInstall fn slot s
  | .clear fn slot => Sys2Proof.Machine.execClear fn slot s
  | .attestReq => Sys2Proof.Machine.execAttestReq s
  | .attestDone => Sys2Proof.Machine.execAttestDone s
  | .challenge => Sys2Proof.Machine.execChallenge s
  | .submit => Sys2Proof.Machine.execSubmit s
  | .debugVerifyDone => Sys2Proof.Machine.execDebugVerifyDone s
  | .errSlotFree slot => Sys2Proof.Machine.execErrSlotFree slot s
  | .errInject fn sev => Sys2Proof.Machine.execErrInject fn sev s
  | .erase => Sys2Proof.Machine.execErase s
  | .thermalSample die temp => Sys2Proof.Machine.execThermalSample die temp s
  | .lifeSecond temp => Sys2Proof.Machine.execLifeSecond temp s
  | .lifeStore => Sys2Proof.Machine.execLifeStore s
  | .registerRead fn off len => Sys2Proof.Machine.execRegisterRead fn off len s
  | .dlActive port => Sys2Proof.Machine.execDlActive port s
  | .vfEnable pf num => Sys2Proof.Machine.execVfEnable pf num s
  | .completionTimeout port unit => Sys2Proof.Machine.execCompletionTimeout port unit s
  | .listReadReturn ring ok data => Sys2Proof.Machine.execListReadReturn ring ok data s
  | .vc1FrameCheck port vc => Sys2Proof.Machine.execVc1FrameCheck port vc s
  | .dieFlushDone die => Sys2Proof.Machine.execDieFlushDone die s
  | .msixUnmask fn vector => Sys2Proof.Machine.execMsixUnmask fn vector s
  | .hbmStackHot stack temp => Sys2Proof.Machine.execHbmStackHot stack temp s
  | .controlStateParity die => Sys2Proof.Machine.execControlStateParity die s
  | .coldRstNLow => Sys2Proof.Machine.execColdRstNLow s

end Sys2Proof.Machine
end

