-- ==== Sys2Proof/Safety.lean ====
section
/-! DEFINITION. What every state of a run holds, and the areas of the state that a command may leave as they were. -/

namespace Sys2Proof.Machine

/-- The package's tables are in their canonical form: the register table has rising keys, and the
tile stores, the stack SRAM and the HBM hold what Memory.wf says (log entry 9). -/
def State.wf (s : State) : Bool :=
  Tbl.sorted s.regs && Memory.wf s.undef 0 s.tstore && Memory.wf s.undef 1 s.srm.mem && Memory.wf s.undef 2 s.hbm.mem

/-- The areas of the state beside the registers: the bytes of the three memories, and what each unit holds. -/
inductive Area where
  | tiles | sram | hbm | bmk | ports | plats | fabric | dests | rings | sramUnits | hbmUnits | codec | dma | functions
  | twins | power | security | devCtl | shadow | time | log
  deriving DecidableEq, Repr

/-- The area of memory `m` (Machine/Ops.lean numbers them). -/
@[reducible] def memArea (m : Nat) : Area :=
  match m with
  | 0 => .tiles
  | 1 => .sram
  | _ => .hbm

/-- An area holds in `t` what it held in `s`: each byte of a memory reads as it did, each unit is as it was. -/
def Area.same (a : Area) (s t : State) : Prop :=
  match a with
  | .tiles => ∀ x, rdByte t 0 x = rdByte s 0 x
  | .sram => ∀ x, rdByte t 1 x = rdByte s 1 x
  | .hbm => ∀ x, rdByte t 2 x = rdByte s 2 x
  | .bmk => t.bmk = s.bmk
  | .ports => t.ports = s.ports
  | .plats => t.plats = s.plats
  | .fabric => t.fab = s.fab
  | .dests => t.dst = s.dst
  | .rings => t.rings = s.rings
  | .sramUnits => { t.srm with mem := [] } = { s.srm with mem := [] }
  | .hbmUnits => { t.hbm with mem := [] } = { s.hbm with mem := [] }
  | .codec => t.cdc = s.cdc
  | .dma => t.dma = s.dma
  | .functions => t.fns = s.fns
  | .twins => t.twn = s.twn
  | .power => t.pwr = s.pwr
  | .security => t.sec = s.sec
  | .devCtl => t.devCtl = s.devCtl
  | .shadow => t.shadow = s.shadow
  | .time => t.now = s.now
  | .log => t.logSeq = s.logSeq ∧ t.logOff = s.logOff ∧ t.logCyc = s.logCyc ∧ t.logNow = s.logNow

/-- A register frame: every field whose key `K` does not name is as it was. -/
def RegsOnly (K : Nat → Prop) (s t : State) : Prop := ∀ k, ¬ K k → Tbl.get? k t.regs = Tbl.get? k s.regs

/-- Keys of the fields that a log entry may write: the error log block (offsets 0x50000 to 0x5FFFF), and the windows of
the virtual functions with their error summaries (R592). -/
def logKey (k : Nat) : Prop := (0x50000 * 64 ≤ k ∧ k < 0x60000 * 64) ∨ 0x100000000 * 64 ≤ k

/-- Keys of the counters of messages dropped at an edge (R63). -/
def edgeKey (k : Nat) : Prop := ∃ a b, b < 3 ∧ k = fkey F.PKG_EDGE_DROPPED (edgeO a b)

/-- Keys that a recomputation of G writes (R76): the INCLUDED bits, GLOBAL_HORIZON and the counters of dropped messages. -/
def gKey (k : Nat) : Prop :=
  k = fkey F.BMK_GLOBAL_HORIZON 0 ∨ (∃ n, n < 1024 ∧ k = fkey F.BMK_SRC_STAT_INCLUDED (srcO n)) ∨ edgeKey k

/-- Every area. -/
def Area.all : List Area :=
  [.tiles, .sram, .hbm, .bmk, .ports, .plats, .fabric, .dests, .rings, .sramUnits, .hbmUnits, .codec, .dma, .functions, .twins,
    .power, .security, .devCtl, .shadow, .time, .log]

/-- Every area but those named. -/
def Area.allBut (l : List Area) : List Area := Area.all.filter (fun a => !l.contains a)

/-- The areas that a command may change; it leaves every other area as it was. What an operation may touch is gathered from the
rules of the commands' chapters: an error log entry brings in the log, the summary message of a virtual function (rings), and the
evidence of twinned dies (twins). -/
def touches (c : Instr) : List Area :=
  match c with
  | .registerWrite _ _ _ _ => Area.allBut [.functions, .time]
  | .accessTimeout _ _ _ | .cacheEnable _ _ | .cqDisable _ _ => [.rings, .hbmUnits, .twins, .log]
  | .gViewUpdate _ => [.bmk, .fabric, .rings, .twins, .log]
  | .silenceTimeout _ => [.bmk, .rings, .twins, .log]
  | .pacerTick | .bmkAdvance _ | .prepare _ | .ready _ => [.bmk]
  | .stakeDisarm _ | .signalDetect _ | .resetIdleDone _ | .fabIndDataRead _ _ | .withdraw | .pllLock | .dieRelease _
  | .errSlotFree _ | .dlActive _ => []
  | .horizonTokenSend _ _ => [.bmk, .fabric]
  | .epochSwitchStart => [.bmk, .rings]
  | .commitApply _ => [.bmk, .ports, .plats, .fabric, .dests, .rings, .sramUnits, .hbmUnits, .twins, .shadow, .log]
  | .portEnable _ _ | .cacheDrain _ _ | .doorbellWrite _ _ _ _ | .pairEnable _ _ | .pairDisable _ _ | .clkGateWrite _ _ _
  | .dieHold _ _ | .edgeRetrainAttemptEnd _ _ _ | .errInject _ _ => [.rings, .twins, .log]
  | .portDisable _ | .linkReset _ | .lossOfLock _ | .dataFlitReceive _ _ _ _ | .lcFlitReceive _ _ _ _ | .retryRepeat _
  | .frameCheck _ | .hello _ | .bye _ | .byeWaitExpiry _ | .vc1FrameCheck _ _ => [.bmk, .ports, .fabric, .rings, .twins, .log]
  | .lanesAdapted _ _ _ | .lockAcquired _ | .lockTimeout _ | .ackSend _ | .nakSend _ | .fedStampSend _ => [.ports]
  | .laneFail _ | .trainTimeout _ | .entryReread _ _ _ | .coalesceTimeout _ | .stageReq | .stageCheckDone | .refSwitch
  | .hpAttn | .listReadReturn _ _ _ | .msixUnmask _ _ | .hbmStackHot _ _ => [.rings]
  | .initComplete _ | .haltFrameSend _ => [.ports, .rings]
  | .frameAccept _ => [.bmk, .ports, .fabric, .rings, .codec, .twins, .log]
  | .triggerSend _ => [.ports, .plats, .fabric, .dests, .rings, .twins, .log]
  | .fedTokenSend _ _ _ => [.ports, .fabric, .rings, .twins, .log]
  | .loadPlat _ | .unloadPlat _ | .cdcCompress _ | .cdcDecompress _ | .entryConsume _ | .nopEntry _ | .invoke _ | .cancel _
  | .postBuffer _ | .dmaXfer _ => [.hbm, .plats, .fabric, .dests, .rings, .sramUnits, .hbmUnits, .codec, .dma, .twins]
  | .platFetchDone _ _ _ => [.hbm, .plats, .dests, .rings, .sramUnits, .hbmUnits]
  | .platCheckDone _ | .gauntletAdmit _ => [.plats, .dests, .rings, .sramUnits]
  | .preloadDone _ => [.hbm, .plats, .rings, .hbmUnits]
  | .replaceZeroingDone _ => [.hbm, .plats, .hbmUnits]
  | .taskDispatch _ | .streamEnd _ _ => [.fabric, .rings]
  | .tokenMatch _ _ => [.sram, .fabric, .rings, .twins, .log]
  | .nop _ | .mov _ | .add _ | .sub _ | .mul _ | .mulh _ | .neg _ | .abs _ | .min _ | .max _ | .and _ | .or _ | .xor _
  | .not _ | .shl _ | .shr _ | .rol _ | .popc _ | .clz _ | .ctz _ | .bfx _ | .bfi _ | .h64 _ | .cmpeq _ | .cmpne _
  | .cmplt _ | .cmple _ | .sel _ | .isnull _ | .merge _ | .keep _ | .drop _ | .rsum _ | .rmin _ | .rmax _ | .rcnt _ | .ror _
  | .rfirst _ | .rlast _ | .fadd32 _ | .fadd64 _ | .fsub32 _ | .fsub64 _ | .fcmp32 _ | .fcmp64 _ | .fkey32 _ | .fkey64 _
  | .shuf _ | .compact _ | .bcast _ | .tagf _ => [.fabric]
  | .ld _ | .st _ | .upd _ => [.tiles, .fabric, .rings, .twins, .log]
  | .srq _ | .hrq _ => [.fabric, .rings, .sramUnits, .hbmUnits, .twins, .log]
  | .emit _ | .emitd _ | .nullReplyDeliver _ _ | .holdStall _ _ | .sortMergeDone _ _ => [.fabric, .rings, .twins, .log]
  | .routeCopySend _ _ _ => [.fabric, .dests, .rings, .sramUnits, .hbmUnits, .twins, .log]
  | .chainTokenDeliver _ _ | .twinGateRelease _ => [.fabric, .twins]
  | .scanTokenIssue _ _ _ | .decodeBlock _ _ _ _ => [.hbm, .fabric, .rings, .hbmUnits, .codec, .twins, .log]
  | .collectorTake _ => [.ports, .fabric, .dests, .rings, .twins, .log]
  | .hostBufferWrite _ | .trigOutDrive _ => [.plats, .fabric, .dests, .rings, .twins, .log]
  | .trigOutPulseEnd _ => [.dests]
  | .invocationEnd _ => [.fabric, .dests, .rings]
  | .fabIndDataWrite _ _ _ => [.tiles, .rings, .twins, .log]
  | .srqServe _ _ _ _ _ => [.sram, .fabric, .rings, .sramUnits, .twins, .log]
  | .eccWriteback _ _ => [.sramUnits]
  | .sramParityFreeze _ _ _ => [.sram, .fabric, .dests, .rings, .sramUnits, .twins, .log]
  | .sramChannelReset _ _ => [.fabric, .rings, .sramUnits, .twins, .log]
  | .sramChannelResetDone _ _ _ | .sramFence _ _ _ => [.fabric, .dests, .rings, .sramUnits, .twins, .log]
  | .sliceZeroingDone _ _ => [.sram, .sramUnits]
  | .sramScrubRead _ _ _ _ _ => [.rings, .sramUnits, .twins, .log]
  | .srmIndDataAccess _ _ _ _ => [.sram, .rings, .sramUnits, .twins, .log]
  | .hbmReadIssue _ _ | .retrainPassStart _ => [.hbmUnits]
  | .hbmWriteIssue _ _ => [.hbm, .hbmUnits]
  | .hbmReadReturn _ _ _ _ | .hbmParityError _ _ | .hbmWriteCrcError _ _ => [.fabric, .dests, .rings, .hbmUnits, .twins, .log]
  | .refreshWindow _ _ _ _ | .hbmChannelResetDone _ _ _ | .hbmFence _ _ _ =>
    [.hbm, .fabric, .dests, .rings, .hbmUnits, .twins, .log]
  | .hbmChannelReset _ _ | .fillSectorArrive _ _ => [.fabric, .rings, .hbmUnits, .twins, .log]
  | .hbmIndDataAccess _ _ _ _ => [.hbm, .rings, .hbmUnits, .twins, .log]
  | .cacheLookup _ _ => Area.allBut [.tiles, .sram, .power, .security, .time]
  | .lock _ _ _ | .unlock _ _ _ | .preload _ _ _ | .invalidate _ _ _ | .cleanInvalidate _ _ _ => [.rings, .hbmUnits]
  | .spcCmdDone _ | .cacheDrained _ => [.hbm, .rings, .hbmUnits]
  | .codecBlockDone _ _ _ _ => [.hbm, .dests, .rings, .hbmUnits, .codec]
  | .captureBlock _ _ => [.hbm, .hbmUnits, .codec]
  | .entryReadReturn _ _ _ | .drainComplete _ _ => [.dests, .rings, .hbmUnits]
  | .postBufferTimeout _ => [.dests, .rings]
  | .completionWrite _ | .overflowDrain _ => [.hbm, .plats, .fabric, .dests, .rings, .hbmUnits, .twins, .log]
  | .sqEnable _ _ | .cqEnable _ _ | .contextParityError _ _ => [.dests, .rings, .twins, .log]
  | .sqShutdown _ _ | .drainLimit => [.plats, .fabric, .dests, .rings, .sramUnits, .hbmUnits, .codec, .dma, .twins]
  | .dmaTransferStart _ _ => [.dma]
  | .dmaReadBurst _ _ | .dmaReadReturn _ _ _ _ | .dmaWriteBeat _ => [.hbm, .hbmUnits, .dma]
  | .dmaWriteAck _ _ => [.dests, .rings, .hbmUnits, .dma, .twins, .log]
  | .channelDisable _ _ _ => [.hbm, .dests, .rings, .hbmUnits, .dma, .twins, .log]
  | .channelEnable _ _ _ => [.rings, .dma, .twins, .log]
  | .scrubDone _ _ => [.tiles, .sram, .hbm, .rings, .sramUnits, .hbmUnits, .twins, .log]
  | .functionLevelReset _ | .pfFunctionLevelReset _ | .vfEnable _ _ =>
    [.plats, .dests, .rings, .sramUnits, .hbmUnits, .codec, .dma, .functions, .devCtl]
  | .flrStepEnd _ => Area.allBut [.codec, .power, .security, .devCtl, .shadow, .time]
  | .syncDone _ => [.tiles, .sram, .hbm, .rings, .sramUnits, .hbmUnits, .twins]
  | .heartbeat _ | .holdExpiry _ => [.twins]
  | .heartbeatTimeout _ | .dieDigest _ | .chainEdgeLoss _ _ | .controlStateParity _ =>
    Area.allBut [.tiles, .sram, .hbm, .power, .security, .time]
  | .roleSwap => [.rings, .twins]
  | .feedSample _ _ | .refWindowEnd _ _ | .refDead _ => [.rings, .twins, .power, .log]
  | .powerFail | .feedSenseChange _ _ => Area.allBut [.tiles, .sram, .plats, .functions, .devCtl, .time]
  | .pllFault => [.hbm, .dests, .rings, .hbmUnits, .twins, .power, .log]
  | .coldReset | .coldRstNLow => Area.all
  | .powerUpStepEnd _ => [.hbm, .bmk, .ports, .fabric, .dests, .rings, .hbmUnits, .dma, .twins, .power, .log]
  | .warm => [.bmk, .ports, .fabric, .rings, .twins, .power, .log]
  | .warmResetStepEnd => Area.allBut [.tiles, .sram, .security, .devCtl, .time, .log]
  | .dieReleaseDone _ => [.bmk, .dma]
  | .hostPortLoss _ => [.plats, .dests, .rings, .sramUnits, .hbmUnits, .codec, .dma, .functions, .twins, .devCtl, .log]
  | .perstDeassert _ | .lifeStore => [.power]
  | .quiesce => Area.allBut [.tiles, .sram, .hbm, .functions, .security, .devCtl, .shadow, .time]
  | .quiesceDone => [.rings, .power, .security]
  | .hpEject => Area.allBut [.tiles, .sram, .hbm, .security, .devCtl, .shadow, .time]
  | .secSvnCommit _ _ | .challenge | .erase => [.security]
  | .install _ _ | .clear _ _ | .debugVerifyDone => [.rings, .twins, .security, .log]
  | .attestReq | .attestDone | .submit => [.rings, .security]
  | .thermalSample _ _ => Area.allBut [.tiles, .sram, .hbm, .plats, .functions, .security, .devCtl, .time]
  | .lifeSecond _ => [.rings, .power]
  | .registerRead _ _ _ => [.hbm, .rings, .sramUnits, .hbmUnits, .codec, .twins, .log]
  | .completionTimeout _ _ => [.hbm, .dests, .rings, .hbmUnits, .dma]
  | .dieFlushDone _ => Area.allBut [.tiles, .sram, .plats, .functions, .power, .security, .devCtl, .time, .log]

/-- Commands whose effect lies in units and memories alone: they write no register. -/
def writesNoRegister (c : Instr) : Bool :=
  match c with
  | .horizonTokenSend _ _ | .ackSend _ | .replaceZeroingDone _ | .nop _ | .mov _ | .add _ | .sub _ | .mul _ | .mulh _
  | .neg _ | .abs _ | .min _ | .max _ | .and _ | .or _ | .xor _ | .not _ | .shl _ | .shr _ | .rol _ | .popc _ | .clz _
  | .ctz _ | .bfx _ | .bfi _ | .h64 _ | .cmpeq _ | .cmpne _ | .cmplt _ | .cmple _ | .sel _ | .isnull _ | .merge _ | .keep _
  | .drop _ | .rsum _ | .rmin _ | .rmax _ | .rcnt _ | .ror _ | .rfirst _ | .rlast _ | .fadd32 _ | .fadd64 _ | .fsub32 _
  | .fsub64 _ | .fcmp32 _ | .fcmp64 _ | .fkey32 _ | .fkey64 _ | .shuf _ | .compact _ | .bcast _ | .tagf _
  | .trigOutPulseEnd _ | .eccWriteback _ _ | .sliceZeroingDone _ _ | .coalesceTimeout _ | .heartbeat _ | .holdExpiry _
  | .perstDeassert _ | .lifeStore | .msixUnmask _ _ => true
  | _ => false

/-! ### What the statements say of a result -/

/-- Cell `g` is about to run instruction word `w` of pass `p`, whose OP is `op`, and acts (R209 to R211). -/
def Runs (s : State) (g op : Nat) (p : Pass) (w : Nat) : Prop :=
  g < 32768 ∧ current s g = some (p, w) ∧ iOp w = op ∧ acts p w = true

/-- The pass of cell `g` has gone on from `p` (R209, R210): D of `w` holds `d` if one was written, or the pass ended with its last
instruction. Nothing but the pass of `g` changed. -/
def PassedOn (s t : State) (g : Nat) (p : Pass) (w : Nat) (d : Option Lanes) : Prop :=
  (∃ ps, t = { s with fab := { s.fab with passes := ps } }) ∧
  (∀ h, h ≠ g → Tbl.get? h t.fab.passes = Tbl.get? h s.fab.passes) ∧
  (p.pc + 1 < (cellCode s g).length →
    ∃ q, Tbl.get? g t.fab.passes = some q ∧ q.pc = p.pc + 1 ∧ q.task = p.task ∧ q.squashed = p.squashed ∧
      (∀ l, d = some l → q.reg (iD w) = l) ∧ ∀ n, n ≠ iD w ∨ d = none → q.reg n = p.reg n) ∧
  ((cellCode s g).length ≤ p.pc + 1 → Tbl.get? g t.fab.passes = none)

/-- Each lane of `d` is `R`-related to the same lane of `a`; it is null where that is (R216). -/
def Each1 (a d : Lanes) (R : W64 → W64 → Prop) : Prop :=
  ∀ i, i < 8 → (a.get i = none → d.get i = none) ∧ ∀ x, a.get i = some x → ∃ z, d.get i = some z ∧ R x z

/-- Each lane of `d` is `R`-related to the same lanes of `a` and `b`; it is null where either is (R216). -/
def Each2 (a b d : Lanes) (R : W64 → W64 → W64 → Prop) : Prop :=
  ∀ i, i < 8 → (a.get i = none ∨ b.get i = none → d.get i = none) ∧
    ∀ x y, a.get i = some x → b.get i = some y → ∃ z, d.get i = some z ∧ R x y z

/-- The 64-bit result of an exact value (R218): it wraps, or saturates to the range of its signedness. -/
def Narrowed (sat sgn : Bool) (v : Int) (z : W64) : Prop :=
  (sat = false → z = BitVec.ofInt 64 v) ∧
  (sat = true → sgn = true → z.toInt = max (-(2 ^ 63)) (min v (2 ^ 63 - 1))) ∧
  (sat = true → sgn = false → (z.toNat : Int) = max 0 (min v (2 ^ 64 - 1)))

/-- `m` is the magnitude pattern nearest to `n` units of the least subnormal, ties going to the even pattern; the pattern of ∞ stands
for the value that follows the largest finite one (R222). -/
def FFmt.Nearest (f : FFmt) (n m : Nat) : Prop :=
  m ≤ f.inf ∧ ∀ k, k ≤ f.inf → k ≠ m →
    dist (f.units m) n < dist (f.units k) n ∨ (dist (f.units m) n = dist (f.units k) n ∧ m % 2 = 0)

/-- `z` is the sum of patterns `a` and `b` (R222). -/
def FFmt.IsSum (f : FFmt) (a b : Nat) (z : W64) : Prop :=
  (f.isNan a = true ∨ f.isNan b = true → z.toNat = f.nan) ∧
  (f.isInf a = true → f.isInf b = true → f.neg a ≠ f.neg b → z.toNat = f.nan) ∧
  (f.isInf a = true → f.isNan b = false → (f.isInf b = true → f.neg a = f.neg b) → z.toNat = a) ∧
  (f.isInf b = true → f.isNan a = false → f.isInf a = false → z.toNat = b) ∧
  (f.mag a < f.inf → f.mag b < f.inf →
    (f.toInt a + f.toInt b = 0 → z.toNat = if f.neg a = true ∧ f.neg b = true then f.top else 0) ∧
    (f.toInt a + f.toInt b ≠ 0 → ∃ m, f.Nearest (f.toInt a + f.toInt b).natAbs m ∧
      z.toNat = if f.toInt a + f.toInt b < 0 then f.top + m else m))

/-- A comparison of patterns `a` and `b` under a predicate of FCMP (R223). -/
def FFmt.holds (f : FFmt) (pred a b : Nat) : Prop :=
  let un := f.isNan a = true ∨ f.isNan b = true
  let x : Int := if f.neg a then -(f.mag a : Int) else f.mag a
  let y : Int := if f.neg b then -(f.mag b : Int) else f.mag b
  match pred with
  | 0 => ¬ un ∧ x = y
  | 1 => ¬ un ∧ x < y
  | 2 => ¬ un ∧ x ≤ y
  | 3 => un
  | _ => un ∨ x ≠ y

/-- The word that lane `i` of LD, ST or UPD accesses (R226, R228); `two` when B counts too. -/
def wordOf (g : Nat) (p : Pass) (w : Nat) (two : Bool) (i : Nat) : Option Nat :=
  match (srcA p w).get i with
  | some x =>
    let a := (x + immSext w).toNat
    if (two = true → (srcB p w).get i ≠ none) ∧ a < 0x8000 ∧ a % 8 = 0 then some (g / 64 * 0x200000 + g % 64 * 0x8000 + a) else none
  | none => none

/-- What the lanes below `n` leave in the word at `a`, one after the other (R229). -/
def wordAfter (s : State) (g : Nat) (p : Pass) (w : Nat) (op : W64 → W64 → W64) (a n : Nat) : W64 :=
  ((List.range n).filter (fun i => wordOf g p w true i == some a)).foldl (fun old i => op old (laneVal ((srcB p w).get i))) (rdWord s 0 a)

/-- The flit that an output of port `p` carries. -/
def flitOn (p : Nat) (o : Out) : Option Bytes :=
  match o with
  | .flit q f => if q = p then some f else none
  | _ => none

/-- Port `p` has sent the flits `fs` in this order, with the codeword pairs that they complete (R107), and nothing else has been
sent. -/
def SentFlits (s t : State) (p : Nat) (fs : List Bytes) : Prop :=
  ∃ os, t.out = s.out ++ os ∧ os.filterMap (flitOn p) = fs ∧ ∀ o ∈ os, (∃ f, o = .flit p f) ∨ ∃ a b, o = .pair p a b

/-- The LC flit that goes before a DATA flit of port `p`: slot 0 of a slot cycle carries one (R107). -/
def leadFlits (s : State) (p : Nat) : List Bytes := if (portOf s p).slot = 0 then [lcFlit s p 0 0] else []

/-- A frame has left on a VC of a port: its flit, behind the LC flit of a new slot cycle, is the newest that the port has sent, its
credit is used and it waits for its ACK (R107, R113, R116). -/
def FrameSent (s t : State) (p v : Nat) (frame : Bytes) : Prop :=
  SentFlits s t p (leadFlits s p ++ [mkFlit 1 v (vcOf s p v).txSeq frame.length 0 frame]) ∧
  (vcOf t p v).txSeq = ((vcOf s p v).txSeq + 1) % 65536 ∧
  (vcOf t p v).unacked = (vcOf s p v).unacked ++ [((vcOf s p v).txSeq, mkFlit 1 v (vcOf s p v).txSeq frame.length 0 frame)] ∧
  getF t F.TRN_CRED_TX_TX_CONSUMED (credO p v) = (getF s F.TRN_CRED_TX_TX_CONSUMED (credO p v) + ceilDiv frame.length 64) % 2 ^ 32

/-- The package has sent `o`, and maybe messages after it. -/
def SentFirst (s t : State) (o : Out) : Prop := (s.out ++ [o]) <+: t.out

/-- The entry `b` at CI of ring `n` has opcode `op`, passes its examination, and it is the ring's turn (R449, R451). -/
def EntryReady (s : State) (n op : Nat) (b : Bytes) : Prop :=
  n < 65536 ∧ sqCq s n < 65536 ∧ (∃ i rest, (ringOf s n).ents = (i, b) :: rest) ∧ b ≠ [] ∧ byteAt b 1 = op ∧ examine s n = .run ∧ ringTurn s n = true

/-- The entry at CI of ring `n` has been consumed (R450): CI has risen and its ownership byte is written. -/
def EntryTaken (s t : State) (n : Nat) : Prop :=
  getF t F.RING_SQ_IDX_CI (ringO n) = (sqCi s n + 1) % 2 ^ 32 ∧ (ringOf t n).ents = (ringOf s n).ents.drop 1 ∧
  SentFirst s t (.hostWrite (ringPort s n) (ringOwner s n) (sqAddr s n (sqCi s n)) [0] false false)

/-- The completion writer of ring `cq`'s port has been given one more item, a COMMAND completion of ring `sq` (R458). -/
def Completed (s t : State) (sq cq tag status reason : Nat) : Prop :=
  ∃ c, Tbl.getD t.dst.cw (ringPort s cq) [] = Tbl.getD s.dst.cw (ringPort s cq) [] ++ [c] ∧ c.cq = cq ∧ c.sq = sq ∧ c.kind = 0 ∧
    c.tag = tag ∧ c.status = status ∧ c.reason = reason

/-- The plat in slot `k` has failed (R184, R190): its slot is free, PLAT_SLOT_FAULT tells why, and its LOAD_PLAT completes. -/
def LoadFailed (s t : State) (k : Nat) (x : PlatSlot) (status reason : Nat) : Prop :=
  slotPhase t k = 0 ∧ slotOf t k = none ∧ getF t F.PLAT_SLOT_FAULT_STATUS (platO k) = status ∧
  getF t F.PLAT_SLOT_FAULT_REASON (platO k) = reason ∧ isSet t F.PLAT_EVENT_FAILED 0 = true ∧
  Completed s t x.ring x.cq x.tag status reason

/-- Every byte of unit `u` of stack `d` reads as zero. -/
def UnitZero (t : State) (d u : Nat) : Prop := ∀ i, i < 2 ^ 30 → rdByte t 2 (hbmAddr d (u * 2 ^ 30) + i) = 0

/-- No word of the entry at byte address `a` of the stack SRAM holds an uncorrectable error, and the mask `ue` strikes none. -/
def EntryGood (s : State) (a ue : Nat) : Prop := ue % 16 = 0 ∧ ∀ w ∈ entryWords a, hasUe s w = false

/-- Bytes outside the `n` bytes from `a` of memory `m` read as before. -/
def OnlyBytes (m a n : Nat) (s t : State) : Prop := ∀ x, x < a ∨ a + n ≤ x → rdByte t m x = rdByte s m x

/-- The stack SRAM entry at byte address `a` holds lanes 0 to 3, null lanes as zero (R360). -/
def EntryHolds (t : State) (a : Nat) (l : Lanes) : Prop := ∀ i, i < 4 → rdWord t 1 (a / 32 * 32 + 8 * i) = laneVal (l.get i)

/-- The last command of a spill cache has completed (R408): its status and reason stand in SPC_CMD_STAT and CMD_DONE is set. -/
def CmdDone (t : State) (d status reason : Nat) : Prop :=
  getF t F.SPC_CMD_STAT_STATUS (dieO d) = status ∧ getF t F.SPC_CMD_STAT_REASON (dieO d) = reason ∧
  isSet t F.SPC_EVENT_CMD_DONE (dieO d) = true ∧ (spcOf t d).cmds = []

/-- A physical function's command can be taken at once by the spill cache of die `d`. -/
def CmdReady (s : State) (fn d : Nat) : Prop :=
  isPf fn = true ∧ d < 8 ∧ spcState s d = 1 ∧ (spcOf s d).cmds = []

/-- The hidden tables name slots and traverses that exist, as in every run. -/
def TablesNamed (s : State) : Prop := (∀ e ∈ s.plats.slots, e.1 < 4) ∧ ∀ r ∈ s.plats.resv, r.trav < 4096

/-- A function is in the first step of a reset that began now (R505, R506). -/
def ResetBegun (s t : State) (j : Nat) : Prop :=
  resetting t j = true ∧ ∃ x, Tbl.get? j t.fns.resets = some x ∧ x.step = 1 ∧ x.start = s.now

/-- A SUBMIT has failed (R583): the nonce is void, the reason recorded, the failure counted; the third one locks the unlock. The
granted level stands. -/
def Denied (s t : State) (reason : Nat) : Prop :=
  t.sec.nonce = false ∧ getF t F.SEC_DBG_STAT_REASON 0 = reason ∧ getF t F.SEC_DBG_STAT_STATUS 0 = stRejected ∧
  getF t F.SEC_DBG_STAT_FAILS 0 = min 3 (getF s F.SEC_DBG_STAT_FAILS 0 + 1) ∧
  dbgState t = (if 2 ≤ getF s F.SEC_DBG_STAT_FAILS 0 then 3 else 0) ∧ isSet t F.SEC_EVENT_DEBUG_DENIED 0 = true ∧
  getF t F.SEC_DBG_STAT_GRANTED 0 = getF s F.SEC_DBG_STAT_GRANTED 0

/-- The package answers a physical function's accesses: it is powered, in no warm reset, and the function is not resetting. -/
def Answers (s : State) (fn : Nat) : Prop :=
  fn < 2 ∧ unpowered s = false ∧ s.pwr.warm = 0 ∧ resetting s fn = false

end Sys2Proof.Machine
end

