-- ==== Sys2Proof/Certificates/Slice0/Obligations.lean ====
section
/-! DEFINITION. The statements about the package, each `Obligations.<Name>`: what a step does as a whole, what commands leave as it
was, and what each command does where it completes. A docstring names the spec file or the rule that a statement formalises; where a
clause rests on a choice of the model it names the entry of the assumption log. -/

open Sys2Proof Sys2Proof.Machine

/-- O1. A step runs the command at the front of the queue. From 01_architecture.md. -/
def Obligations.StepRunsTheFrontCommand : Prop :=
  ∀ (s : State) (c : Instr) (rest : List Instr), step { s with pending := c :: rest } = exec c { s with pending := rest }

/-- O2. No command is refused; a step with an empty queue is one fc (DESIGN CHOICE of log entry 3), in which only a zeroing engine
changes a memory. From 01_architecture.md, 02_design_time.md, 09_stack_sram.md. -/
def Obligations.EveryStepGoesOn : Prop :=
  (∀ c s, ∃ t, exec c s = .next t) ∧
  (∀ s, s.pending = [] → ∃ t, step s = .next t ∧ t.now = s.now + 1 ∧ t.pending = [] ∧ s.out <+: t.out ∧
    (pllState s ≠ 1 → pllState s ≠ 2 → wall t = wall s) ∧ (pllState s = 1 ∨ pllState s = 2 → wall t = (wall s + 1) % 2 ^ 64) ∧
    (∀ m x, m ≠ 1 → rdByte t m x = rdByte s m x) ∧
    ((∀ e ∈ s.srm.zeroing, 1 < e.2) → ∀ x, rdByte t 1 x = rdByte s 1 x))

/-- O3. After a package cold reset every field has its reset value. From 01_architecture.md. -/
def Obligations.ResetHoldsEveryResetValue : Prop :=
  State.reset.wf = true ∧ State.reset.pending = [] ∧ State.reset.out = [] ∧
  (∀ f o, getF State.reset f o = rstVal .m880 f.rst o % 2 ^ f.width) ∧ (∀ m x, rdByte State.reset m x = 0) ∧
  getF State.reset F.PKG_ID_PART 0 = 0x80 ∧ getF State.reset F.PKG_ID_DIE_COUNT 0 = 8

/-- O4. Every step keeps the register table and the three memories in canonical form. From 01_architecture.md, 09_stack_sram.md,
10_hbm_cache.md. -/
def Obligations.StepKeepsTablesCanonical : Prop :=
  ∀ s t, s.wf = true → step s = .next t → t.wf = true

/-- O5. A step takes one command, never changes the part, never unsends an output and never redraws a free value. From
01_architecture.md. -/
def Obligations.StepKeepsQueueAndHistory : Prop :=
  ∀ s t, step s = .next t → t.pending = s.pending.tail ∧ t.part = s.part ∧ s.nonce ≤ t.nonce ∧ s.out <+: t.out

/-- O6. Frame: a command leaves every unit and memory that it does not name as it was. From 01_architecture.md, 05_fabric.md,
09_stack_sram.md, 10_hbm_cache.md, 11_codec.md, 13_dma.md, 12_host_rings.md, 14_functions.md, 15_twin_power.md,
16_clocks_bringup.md, 17_security_errors.md, 18_package.md. -/
def Obligations.CommandsTouchOnlyTheirUnits : Prop :=
  ∀ c s t, exec c s = .next t → ∀ a, a ∉ touches c → a.same s t

/-- O7. Frame: the commands whose effect lies in units and memories alone write no register. From 05_fabric.md,
09_stack_sram.md, 13_dma.md, 12_host_rings.md, 15_twin_power.md, 18_package.md. -/
def Obligations.CommandsWithoutRegistersLeaveThemAll : Prop :=
  ∀ c s t, writesNoRegister c = true → exec c s = .next t → t.regs = s.regs

/-- O8. Whatever a step does, the fused MIN_SVN never falls and a revoked key stays revoked. From 17_security_errors.md. -/
def Obligations.FusesNeverFall : Prop :=
  ∀ s t, step s = .next t → s.sec.minSvn ≤ t.sec.minSvn ∧ (s.sec.key0Revoked = true → t.sec.key0Revoked = true) ∧
    (t.sec.minSvn ≤ max s.sec.minSvn 64)

/-- O9. Codec: a decoded block gives back the elements that were encoded. From 11_codec.md. -/
def Obligations.EncodedBlocksDecodeToTheirElements : Prop :=
  ∀ (xs : List W64) (rest : Bytes) (out limit space : Nat), 1 ≤ xs.length → xs.length ≤ 512 → out + 8 * xs.length ≤ limit →
    8 * xs.length ≤ space → decodeBlock (encodeBlock xs ++ rest) out limit space = .good xs (encodeBlock xs).length

/-- O10. Pacer ticks, BMK_ADVANCE, the silence timeout and disarming a stake. Completion: pacerTick, bmkAdvance, silenceTimeout,
stakeDisarm. From 02_design_time.md. -/
def Obligations.SourcesPaceStallAndDisarm : Prop :=
  (∀ s, isSet s F.BMK_PACER_PACER_EN 0 = true →
    ∃ t, exec .pacerTick s = .next t ∧
      getF t F.BMK_PACER_HZN_HORIZON 0 = (getF s F.BMK_PACER_HZN_HORIZON 0 + 1) % 2 ^ 64 ∧
      RegsOnly (fun k => k = fkey F.BMK_PACER_HZN_HORIZON 0 ∨ gKey k) s t) ∧
  (∀ s, isSet s F.BMK_PACER_PACER_EN 0 = false → exec .pacerTick s = .next s) ∧
  (∀ s v, v < 2 ^ 64 → getF s F.BMK_PACER_HZN_HORIZON 0 < v →
    ∃ t, exec (.bmkAdvance v) s = .next t ∧ getF t F.BMK_PACER_HZN_HORIZON 0 = v ∧
      RegsOnly (fun k => k = fkey F.BMK_PACER_HZN_HORIZON 0 ∨ gKey k) s t) ∧
  (∀ s v, v < 2 ^ 64 → v ≤ getF s F.BMK_PACER_HZN_HORIZON 0 → exec (.bmkAdvance v) s = .next s) ∧
  (∀ s v, isSet s F.BMK_PACER_PACER_EN 0 = true → knownSources s = [] → v < 2 ^ 64 →
    getF s F.BMK_PACER_HZN_HORIZON 0 < v → hznG s < v →
    ∃ t, exec (.bmkAdvance v) s = .next t ∧ hznG t = v) ∧
  (∀ s n, n < 1024 → srcState s n = srcLive → getF s F.BMK_SILENCE_SILENCE_TIMEOUT 0 ≠ 0 →
    getF s F.BMK_SRC_STAT_LAST_ACCEPT (srcO n) ≠ wall s % 2 ^ 32 → s.logOff = false →
    ∃ t, exec (.silenceTimeout n) s = .next t ∧ srcState t n = srcStalled ∧ isSet t F.BMK_EVENT_STALLED 0 = true ∧
      getF t F.ERR_COUNT_CORRECTED 0 = min (getF s F.ERR_COUNT_CORRECTED 0 + 1) 65535 ∧
      (∀ m, m < 1024 → m ≠ n → srcState t m = srcState s m)) ∧
  (∀ s n, srcState s n ≠ srcLive ∨ getF s F.BMK_SILENCE_SILENCE_TIMEOUT 0 = 0 ∨
    getF s F.BMK_SRC_STAT_LAST_ACCEPT (srcO n) = wall s % 2 ^ 32 → exec (.silenceTimeout n) s = .next s) ∧
  (∀ s n, ∃ t, exec (.stakeDisarm n) s = .next t ∧ isSet t F.BMK_STAKE_CTL_ARMED (stakeO n) = false ∧
    RegsOnly (fun k => k = fkey F.BMK_STAKE_CTL_ARMED (stakeO n)) s t)

/-- O11. The view of a die takes the next message of the master and HORIZON tokens carry it, at most one in 16 fc. Completion:
gViewUpdate, horizonTokenSend. From 02_design_time.md, 05_fabric.md. -/
def Obligations.ViewsFollowTheMaster : Prop :=
  (∀ s d m rest, Tbl.getD s.bmk.msgs d [] = m :: rest → m.src = none →
    ∃ t, exec (.gViewUpdate d) s = .next t ∧ Tbl.getD t.bmk.view d 0 = max (Tbl.getD s.bmk.view d 0) m.value ∧
      Tbl.getD t.bmk.msgs d [] = rest ∧ (∀ e, e ≠ d → Tbl.getD t.bmk.view e 0 = Tbl.getD s.bmk.view e 0)) ∧
  (∀ s d m rest n, Tbl.getD s.bmk.msgs d [] = m :: rest → m.src = some n →
    ∃ t, exec (.gViewUpdate d) s = .next t ∧ Tbl.getD t.bmk.srcView (d * 1024 + n) 0 = m.value ∧
      Tbl.getD t.bmk.msgs d [] = rest ∧ t.bmk.view = s.bmk.view) ∧
  (∀ s n d p v, activeTrav s n = some (p, v) → wantsHorizon v = true → sliceCells s v d ≠ [] →
    (∀ f, Tbl.get? (n * 8 + d) s.bmk.hznAt = some f → f + 16 ≤ s.now) →
    Tbl.getD s.bmk.lastHzn (n * 8 + d) 0 < Tbl.getD s.bmk.view d 0 →
    ∃ t, exec (.horizonTokenSend n d) s = .next t ∧ Tbl.getD t.bmk.lastHzn (n * 8 + d) 0 = Tbl.getD s.bmk.view d 0 ∧
      outOf t (sliceSrc d) = outOf s (sliceSrc d) ++ ((sliceCells s v d).flatMap (placements s)).map (fun c =>
        ⟨s.now, .copies (ctlToken n ctxHorizon 3 (Tbl.getD s.bmk.viewAcc d 0) [Tbl.getD s.bmk.view d 0]) [.cell c 0]⟩)) ∧
  (∀ s n d f, Tbl.get? (n * 8 + d) s.bmk.hznAt = some f → s.now < f + 16 → exec (.horizonTokenSend n d) s = .next s)

/-- O12. An epoch switch starts, prepares, is ready and commits in the order of R94, without the dies that a lost edge cuts off from
the master (DESIGN CHOICE of log entry 73). Completion: epochSwitchStart, prepare, ready, commitApply. From 02_design_time.md. -/
def Obligations.EpochSwitchRuns : Prop :=
  (∀ s, s.bmk.sw = none → halted s = false → 0 < s.bmk.crossed →
    (∀ f, s.bmk.lastStart = some f → f + max 1024 (getF s F.BMK_CTL_EPOCH_MIN_GAP 0) ≤ s.now) →
    ∃ t, exec .epochSwitchStart s = .next t ∧
      t.bmk.sw = some ⟨hznG s / 2 ^ getF s F.BMK_CTL_EPOCH_SHIFT 0, getF s F.BMK_EPOCH_EPOCH 0, s.now, [], [], [], [], false⟩ ∧
      t.bmk.crossed = 0 ∧ t.bmk.lastStart = some s.now ∧ getF t F.BMK_EPOCH_EPOCH 0 = getF s F.BMK_EPOCH_EPOCH 0 ∧
      getF t F.BMK_EPOCH_STAT_MERGED 0 = (if s.bmk.crossed = 1 then getF s F.BMK_EPOCH_STAT_MERGED 0
        else min (getF s F.BMK_EPOCH_STAT_MERGED 0 + (s.bmk.crossed - 1)) 65535) ∧
      (1 < s.bmk.crossed → isSet t F.BMK_EVENT_MERGED 0 = true)) ∧
  (∀ s, s.bmk.sw ≠ none ∨ halted s = true ∨ s.bmk.crossed = 0 ∨
      (∃ f, s.bmk.lastStart = some f ∧ s.now < f + max 1024 (getF s F.BMK_CTL_EPOCH_MIN_GAP 0)) →
    exec .epochSwitchStart s = .next s) ∧
  (∀ s d w, s.bmk.sw = some w → dieUp s d = true → d ∉ w.prepared → d ∉ w.cut → Tbl.getD s.bmk.msgs d [] = [] →
    lostTo s (masterDie s) d = none →
    ∃ t, exec (.prepare d) s = .next t ∧ t.bmk.sw = some { w with prepared := d :: w.prepared } ∧ d ∈ t.bmk.held ∧
      t.regs = s.regs) ∧
  (∀ s d w e, s.bmk.sw = some w → dieUp s d = true → d ∉ w.prepared → d ∉ w.cut → Tbl.getD s.bmk.msgs d [] = [] →
    lostTo s (masterDie s) d = some e →
    ∃ t w', exec (.prepare d) s = .next t ∧ t.bmk.sw = some w' ∧ d ∈ w'.cut ∧ w'.prepared = w.prepared ∧
      t.bmk.held = s.bmk.held ∧
      getF t F.PKG_EDGE_DROPPED (edgeO e.1 e.2) = min (getF s F.PKG_EDGE_DROPPED (edgeO e.1 e.2) + 1) 4294967295) ∧
  (∀ s d w, s.bmk.sw = some w → d ∈ w.prepared → d ∉ w.ready → d ∉ w.cut → leavingRuns s d = false → halted s = false →
    lostTo s d (masterDie s) = none → w.going = false → (∀ x, x < 8 → dieUp s x = true → x = d ∨ x ∈ w.ready ∨ x ∈ w.cut) →
    ∃ t, exec (.ready d) s = .next t ∧ t.bmk.sw = some { w with ready := d :: w.ready, going := true } ∧
      getF t F.BMK_EPOCH_EPOCH 0 = w.epoch % 2 ^ 64 ∧ RegsOnly (fun k => k = fkey F.BMK_EPOCH_EPOCH 0) s t) ∧
  (∀ s d w x, s.bmk.sw = some w → d ∈ w.prepared → d ∉ w.ready → d ∉ w.cut → leavingRuns s d = false →
    lostTo s d (masterDie s) = none → x < 8 → dieUp s x = true → x ≠ d → x ∉ w.ready → x ∉ w.cut →
    ∃ t, exec (.ready d) s = .next t ∧ t.bmk.sw = some { w with ready := d :: w.ready } ∧ t.regs = s.regs) ∧
  (∀ s d w, s.bmk.sw = some w → w.going = true → d ∉ w.committed → dieUp s d = true → lostTo s (masterDie s) d = none →
    ∃ t, exec (.commitApply d) s = .next t ∧ d ∉ t.bmk.held ∧
      (w.committed ≠ [] →
        (∀ v, Tbl.get? (fkey F.SCH_CTL_SNAP_EN (dieO d)) s.shadow = some v → getF t F.SCH_CTL_SNAP_EN (dieO d) = v % 2) ∧
        (∀ c v, c < 12 → Tbl.get? (fkey F.SPC_CLASS_MASK_MASK (dieO d + c * 8)) s.shadow = some v →
          getF t F.SPC_CLASS_MASK_MASK (dieO d + c * 8) = v % 65536) ∧
        ((∀ x, x < 8 → dieUp s x = true → x = d ∨ x ∈ w.committed ∨ x ∈ w.cut) →
          t.bmk.sw = none ∧ getF t F.BMK_EPOCH_STAT_SWITCHES 0 = (getF s F.BMK_EPOCH_STAT_SWITCHES 0 + 1) % 2 ^ 32) ∧
        (∀ x, x < 8 → dieUp s x = true → x ≠ d → x ∉ w.committed → x ∉ w.cut →
          t.bmk.sw = some { w with committed := d :: w.committed }))) ∧
  (∀ s d w, s.bmk.sw = some w → w.going = false → exec (.commitApply d) s = .next s)

/-- O13. A port goes through its link states as its events say. Completion: portEnable, signalDetect, lanesAdapted, laneFail,
trainTimeout, lockAcquired, lockTimeout, initComplete, resetIdleDone. From 03_transit.md. -/
def Obligations.LinkStateMachine : Prop :=
  (∀ s fn p, p < s.part.ports → isSet s F.TRN_PORT_CTL_ENABLE (portO p) = false → isSet s F.BMK_CTL_ENABLE 0 = true →
    overlaps s p = false →
    ∃ t, exec (.portEnable fn p) s = .next t ∧ link t p = lkDetect ∧ isSet t F.TRN_PORT_CTL_ENABLE (portO p) = true ∧
      RegsOnly (fun k => k = fkey F.TRN_PORT_CTL_ENABLE (portO p) ∨ k = fkey F.TRN_STAT_STATE (portO p)) s t) ∧
  (∀ s fn p, p < 16 → isSet s F.TRN_PORT_CTL_ENABLE (portO p) = false → isSet s F.BMK_CTL_ENABLE 0 = false ∨ overlaps s p = true →
    ∃ t, exec (.portEnable fn p) s = .next t ∧ link t p = link s p ∧ isSet t F.TRN_PORT_CTL_ENABLE (portO p) = false) ∧
  (∀ s p, link s p = lkDetect →
    ∃ t, exec (.signalDetect p) s = .next t ∧ link t p = lkTrain ∧ getF t F.TRN_STAT_LANES_DETECTED (portO p) = 255 ∧
      RegsOnly (fun k => k = fkey F.TRN_STAT_LANES_DETECTED (portO p) ∨ k = fkey F.TRN_STAT_STATE (portO p)) s t) ∧
  (∀ s p pol rev, link s p = lkTrain → pol < 256 →
    ∃ t, exec (.lanesAdapted p pol rev) s = .next t ∧ link t p = lkLock ∧
      getF t F.TRN_STAT_LANE_POLARITY (portO p) = pol ∧ isSet t F.TRN_STAT_LANE_REVERSED (portO p) = rev) ∧
  (∀ s p c, c = .laneFail p ∨ c = .trainTimeout p → link s p = lkTrain →
    ∃ t, exec c s = .next t ∧ link t p = lkDetect ∧ isSet t F.TRN_EVENT_TRAIN_FAIL (portO p) = true ∧
      getF t F.TRN_LINK_ERR2_TRAIN_FAILS (portO p) = min (getF s F.TRN_LINK_ERR2_TRAIN_FAILS (portO p) + 1) 65535) ∧
  (∀ s p, link s p = lkLock →
    ∃ t, exec (.lockAcquired p) s = .next t ∧ link t p = lkInit ∧ getF t F.TRN_CRED_RX_RX_GRANTED (credO p 0) = 4096 ∧
      getF t F.TRN_CRED_RX_RX_GRANTED (credO p 1) = 256 ∧ getF t F.TRN_CRED_RX_RX_GRANTED (credO p 2) = 0 ∧
      ∃ f, SentFlits s t p [f, f, f] ∧ byteAt f 0 = 2 ∧ bits (byteAt f 12) 0 1 = 1 ∧ bits (byteAt f 12) 1 1 = 0 ∧
        fld f 16 4 = 4096 ∧ fld f 24 4 = 256 ∧ fld f 32 4 = 0) ∧
  (∀ s p, link s p = lkLock ∨ link s p = lkInit →
    ∃ t, exec (.lockTimeout p) s = .next t ∧ link t p = lkDetect ∧ (portOf t p).initRx = 0) ∧
  (∀ s p, link s p = lkInit → 3 ≤ (portOf s p).initRx →
    ∃ t, exec (.initComplete p) s = .next t ∧ link t p = lkUp ∧ isSet t F.TRN_EVENT_LINK_UP (portO p) = true) ∧
  (∀ s p, link s p = lkInit → (portOf s p).initRx < 3 → exec (.initComplete p) s = .next s) ∧
  (∀ s p, link s p = lkReset →
    ∃ t, exec (.resetIdleDone p) s = .next t ∧ link t p = lkDetect ∧
      RegsOnly (fun k => k = fkey F.TRN_STAT_STATE (portO p)) s t)

/-- O14. A port that leaves UP closes its own sources and no others.
Completion: linkReset, lossOfLock, portDisable. From 03_transit.md. -/
def Obligations.LeavingUpDetachesSources : Prop :=
  (∀ s p, p < 16 → link s p = lkUp →
    ∃ t, exec (.linkReset p) s = .next t ∧ link t p = lkReset ∧ isSet t F.TRN_EVENT_LINK_DOWN (portO p) = true ∧
      getF t F.TRN_LINK_ERR2_LINK_RESETS (portO p) = min (getF s F.TRN_LINK_ERR2_LINK_RESETS (portO p) + 1) 65535 ∧
      (∀ n, n ∈ portSources s p → srcState t n = srcClosed) ∧
      (∀ n, n < 1024 → n ∉ portSources s p → srcState t n = srcState s n)) ∧
  (∀ s p, p < 16 → link s p = lkUp →
    ∃ t, exec (.lossOfLock p) s = .next t ∧ link t p = lkDetect ∧ isSet t F.TRN_EVENT_LINK_DOWN (portO p) = true ∧
      getF t F.TRN_LINK_ERR2_LOCK_LOSSES (portO p) = min (getF s F.TRN_LINK_ERR2_LOCK_LOSSES (portO p) + 1) 65535 ∧
      (∀ n, n ∈ portSources s p → srcState t n = srcClosed) ∧
      (∀ n, n < 1024 → n ∉ portSources s p → srcState t n = srcState s n)) ∧
  (∀ s p, p < 16 → isSet s F.TRN_PORT_CTL_ENABLE (portO p) = true →
    ∃ t, exec (.portDisable p) s = .next t ∧ link t p = lkDisabled ∧ isSet t F.TRN_PORT_CTL_ENABLE (portO p) = false ∧
      (link s p = lkUp → ∀ n, n ∈ portSources s p → srcState t n = srcClosed) ∧
      (link s p ≠ lkUp → ∀ n, n < 1024 → srcState t n = srcState s n))

/-- O15. Good flits are taken in sequence, LC flits grant credits and acknowledge, retries repeat. Completion: ackSend,
dataFlitReceive, lcFlitReceive, retryRepeat. From 03_transit.md. -/
def Obligations.FlitsAreReceivedAndAcknowledged : Prop :=
  (∀ s p, link s p = lkUp →
    ∃ t, exec (.ackSend p) s = .next t ∧ SentFlits s t p [lcFlit s p 0 0] ∧ t.regs = s.regs ∧ (∀ v, vcOf t p v = vcOf s p v) ∧
      ∀ q, q ≠ p → portOf t q = portOf s q) ∧
  (∀ s p f v corr unc, p < s.part.ports → link s p = lkUp → f.length = 256 → crc32c (f.take 252) = fld f 252 4 →
    byteAt f 0 = 1 → v = byteAt f 1 % 4 → v ≠ 3 → fld f 2 2 = (vcOf s p v).rxExp →
    ∃ t, exec (.dataFlitReceive p corr unc f) s = .next t ∧ (vcOf t p v).rxExp = ((vcOf s p v).rxExp + 1) % 65536 ∧
      (vcOf t p v).waiting = false ∧
      ((vcOf s p v).resync = false →
        (vcOf t p v).stream = (vcOf s p v).stream ++ (f.drop 12).take (min 240 (fld f 4 2))) ∧
      getF t F.TRN_LINK_ERR_FEC_CORRECTED (portO p) = min (getF s F.TRN_LINK_ERR_FEC_CORRECTED (portO p) + corr) 4294967295 ∧
      getF t F.TRN_LINK_ERR_FEC_UNCORRECTED (portO p) = min (getF s F.TRN_LINK_ERR_FEC_UNCORRECTED (portO p) + unc) 65535 ∧
      t.out = s.out) ∧
  (∀ s p f v corr unc, p < s.part.ports → link s p = lkUp → f.length = 256 → crc32c (f.take 252) = fld f 252 4 →
    byteAt f 0 = 1 → v = byteAt f 1 % 4 → v ≠ 3 → fld f 2 2 ≠ (vcOf s p v).rxExp → (vcOf s p v).waiting = true →
    ∃ t, exec (.dataFlitReceive p corr unc f) s = .next t ∧ t.ports = s.ports ∧ t.out = s.out) ∧
  (∀ s p f corr unc, p < s.part.ports → p < 16 → link s p = lkUp → f.length ≠ 256 ∨ crc32c (f.take 252) ≠ fld f 252 4 →
    (∀ v, v < 3 → (vcOf s p v).retryRun < 7) →
    ∃ t, exec (.dataFlitReceive p corr unc f) s = .next t ∧ link t p = lkUp ∧
      getF t F.TRN_LINK_ERR_FLIT_CRC (portO p) = min (getF s F.TRN_LINK_ERR_FLIT_CRC (portO p) + 1) 65535 ∧
      ∃ x, SentFlits s t p [x] ∧ byteAt x 0 = 2 ∧ bits (byteAt x 12) 2 1 = 1) ∧
  (∀ s p f corr unc, p < s.part.ports → link s p = lkUp → f.length = 256 → crc32c (f.take 252) = fld f 252 4 →
    byteAt f 0 = 2 → bits (byteAt f 12) 0 1 = 0 → bits (byteAt f 12) 1 1 = 0 →
    ∃ t fs, exec (.lcFlitReceive p corr unc f) s = .next t ∧
      (∀ v, v < 3 → getF t F.TRN_CRED_TX_TX_GRANTED (credO p v) = fld f (16 + 8 * v) 4 % 2 ^ 32 ∧
        (vcOf t p v).unacked = (vcOf s p v).unacked.filter (fun e => !seq16le e.1 (fld f (20 + 8 * v) 2))) ∧
      SentFlits s t p fs ∧ (bits (byteAt f 12) 2 1 = 0 → fs = []) ∧
      (bits (byteAt f 12) 2 1 = 1 → ([0, 1, 2].flatMap (fun v =>
        ((vcOf t p v).unacked.filter (fun e => seq16le (fld f (22 + 8 * v) 2) e.1)).map (·.2))).Sublist fs)) ∧
  (∀ s p f corr unc, p < s.part.ports → p < 16 → link s p = lkUp → f.length = 256 → crc32c (f.take 252) = fld f 252 4 →
    byteAt f 0 = 2 → bits (byteAt f 12) 1 1 = 1 →
    ∃ t, exec (.lcFlitReceive p corr unc f) s = .next t ∧ link t p = lkDetect ∧ isSet t F.TRN_EVENT_LINK_DOWN (portO p) = true) ∧
  (∀ s p f corr unc, p < s.part.ports → link s p = lkInit → f.length = 256 → crc32c (f.take 252) = fld f 252 4 →
    byteAt f 0 = 2 → bits (byteAt f 12) 0 1 = 1 →
    ∃ t, exec (.lcFlitReceive p corr unc f) s = .next t ∧ (portOf t p).initRx = (portOf s p).initRx + 1 ∧
      ∀ v, v < 3 → getF t F.TRN_CRED_TX_TX_GRANTED (credO p v) = fld f (16 + 8 * v) 4 % 2 ^ 32) ∧
  (∀ s p, link s p = lkUp → (∃ v, v < 3 ∧ (vcOf s p v).waiting = true) → (∀ v, v < 3 → (vcOf s p v).retryRun < 7) →
    ∃ t, exec (.retryRepeat p) s = .next t ∧ link t p = lkUp ∧
      (∃ x, SentFlits s t p [x] ∧ byteAt x 0 = 2 ∧ bits (byteAt x 12) 2 1 = 1) ∧
      getF t F.TRN_LINK_ERR2_RETRIES (portO p) = min (getF s F.TRN_LINK_ERR2_RETRIES (portO p) + 1) 65535 ∧
      ∀ v, v < 3 → (vcOf t p v).retryRun = (vcOf s p v).retryRun + 1)

/-- O16. A frame on VC0 is judged, counted when it fails, and accepted into its traverse when the splitter has room and PACE lets it.
Completion: frameCheck, frameAccept. From 03_transit.md, 08_timing_promise.md. -/
def Obligations.FramesAreCheckedAndAccepted : Prop :=
  (∀ s p f n, link s p = lkUp → halted s = false → nextFrame s p 0 = some f → judge s p f = .pass n →
    ∃ t, exec (.frameCheck p) s = .next t ∧
      (portOf t p).checked = (portOf s p).checked ++ [⟨f, n, false, deliverTo s n f⟩] ∧
      vcOf t p 0 = (vcOf s p 0).cut (fld f 2 2) ∧ t.regs = s.regs) ∧
  (∀ s p f n, link s p = lkUp → halted s = false → nextFrame s p 0 = some f → judge s p f = .unknownGroup n →
    ∃ t, exec (.frameCheck p) s = .next t ∧
      (portOf t p).checked = (portOf s p).checked ++ [⟨f, n, true, []⟩] ∧
      getF t F.TRN_VIOL_STAT_UNKNOWN_GROUP (portO p) = min (getF s F.TRN_VIOL_STAT_UNKNOWN_GROUP (portO p) + 1) 65535) ∧
  (∀ s p f x, p < 16 → link s p = lkUp → halted s = false → nextFrame s p 0 = some f → judge s p f = .fail x →
    Tbl.get? (if fedMode s p then srcBase s p else fld f 4 2) s.bmk.bye = none →
    ∃ t, exec (.frameCheck p) s = .next t ∧
      getF t F.TRN_VIOL_STAT_VIOL_TOTAL (portO p) = min (getF s F.TRN_VIOL_STAT_VIOL_TOTAL (portO p) + 1) 4294967295) ∧
  (∀ s p c rest, (portOf s p).checked = c :: rest → halted s = false → c.source < 1024 →
    (outOf s (splitterSrc p)).length + frameNeed s c ≤ 256 → framePaced s p c = true → Tbl.get? c.source s.bmk.bye = none →
    srcState s c.source = srcPending ∨ srcState s c.source = srcLive ∨ srcState s c.source = srcStalled →
    ∃ t, exec (.frameAccept p) s = .next t ∧ (portOf t p).checked = rest ∧ srcState t c.source = srcLive ∧
      srcHzn t c.source = max (srcHzn s c.source) (fld c.bytes 16 8) % 2 ^ 64 ∧
      Tbl.getD t.bmk.expSeq c.source 0 = (Tbl.getD s.bmk.expSeq c.source 0 + 1) % 2 ^ 32) ∧
  (∀ s p c rest, (portOf s p).checked = c :: rest →
    256 < (outOf s (splitterSrc p)).length + frameNeed s c ∨ framePaced s p c = false → exec (.frameAccept p) s = .next s)

/-- O17. HELLO grants the sources it asks for; BYE closes its source, at once or after the frames it waits for. Completion: hello, bye,
byeWaitExpiry, vc1FrameCheck. From 03_transit.md. -/
def Obligations.HelloGrantsAndByeCloses : Prop :=
  (∀ s p f, link s p = lkUp → halted s = false → nextFrame s p 1 = some f → byteAt f 0 = 0x20 →
    checkHeader s p 1 (vc1Types s p) (vc1ResvOk f) f = none → byteAt f 5 = 1 → byteAt f 6 = getF s F.TRN_PORT_CTL_MODE (portO p) →
    (fedMode s p = true → fedConflict s p (byteAt f 7 % 16) = false) →
    ∃ t, exec (.hello p) s = .next t ∧
      (∀ i, i < 64 → bits (fld f 16 8) i 1 = 1 → grantable s p i = true →
        srcState t (srcBase s p + i) = srcPending ∧ srcHzn t (srcBase s p + i) = 0) ∧
      ∀ n, n < 1024 → (∀ i, i < 64 → bits (fld f 16 8) i 1 = 1 → grantable s p i = true → n ≠ srcBase s p + i) →
        srcState t n = srcState s n) ∧
  (∀ s p f n, p < 16 → link s p = lkUp → halted s = false → nextFrame s p 1 = some f → byteAt f 0 = 0x22 →
    checkHeader s p 1 (vc1Types s p) (vc1ResvOk f) f = none → fld f 4 2 ≠ 0xFFFF → (fedMode s p = true → fld f 4 2 = 0) →
    n = (if fedMode s p then srcBase s p else fld f 4 2) → n < 1024 →
    srcHeld s n = true → getF s F.BMK_SRC_STAT_PORT (srcO n) = p →
    ∃ t, exec (.bye p) s = .next t ∧
      (subMod 32 (fld f 8 4 + 1) (accSeq s n) = 0 ∨ 2 ^ 31 ≤ subMod 32 (fld f 8 4 + 1) (accSeq s n) →
        srcState t n = srcClosed ∧ isSet t F.TRN_EVENT_BYE (portO p) = true) ∧
      (0 < subMod 32 (fld f 8 4 + 1) (accSeq s n) → subMod 32 (fld f 8 4 + 1) (accSeq s n) < 2 ^ 31 →
        srcState t n = srcState s n ∧ Tbl.get? n t.bmk.bye = some (fld f 8 4)) ∧
      ∀ m, m < 1024 → m ≠ n → srcState t m = srcState s m) ∧
  (∀ s p f, p < 16 → link s p = lkUp → halted s = false → nextFrame s p 1 = some f → byteAt f 0 = 0x22 →
    checkHeader s p 1 (vc1Types s p) (vc1ResvOk f) f = none → fld f 4 2 = 0xFFFF →
    ∃ t, exec (.bye p) s = .next t ∧ ∀ n, n ∈ portSources s p → srcState t n = srcClosed) ∧
  (∀ s n last, n < 1024 → Tbl.get? n s.bmk.bye = some last →
    srcState s n = srcPending ∨ srcState s n = srcLive ∨ srcState s n = srcStalled →
    ∃ t, exec (.byeWaitExpiry n) s = .next t ∧ srcState t n = srcClosed ∧
      ∀ m, m < 1024 → m ≠ n → srcState t m = srcState s m) ∧
  (∀ s p v f, p < 16 → link s p = lkUp → halted s = false → nextFrame s p v = some f →
    (v = 1 ∧ byteAt f 0 ∉ vc1Types s p) ∨ v = 2 →
    ∃ t, exec (.vc1FrameCheck p v) s = .next t ∧
      getF t F.TRN_VIOL_STAT_VIOL_TOTAL (portO p) = min (getF s F.TRN_VIOL_STAT_VIOL_TOTAL (portO p) + 1) 4294967295)

/-- O18. ADD, SUB, MUL, NEG, ABS wrap or saturate (and MULH gives the high half), and the pass goes on.
Completion: add, sub, mul, mulh, neg, abs. From R218. -/
def Obligations.CellArithmeticWrapsOrSaturates : Prop :=
  ∀ s g p w,
  (Runs s g 0x02 p w → ∃ t d, exec (.add g) s = .next t ∧ PassedOn s t g p w (some d) ∧
    Each2 (srcA p w) (srcB p w) d (fun x y => Narrowed (iSat w) (iSgn w) (ival (iSgn w) x + ival (iSgn w) y))) ∧
  (Runs s g 0x03 p w → ∃ t d, exec (.sub g) s = .next t ∧ PassedOn s t g p w (some d) ∧
    Each2 (srcA p w) (srcB p w) d (fun x y => Narrowed (iSat w) (iSgn w) (ival (iSgn w) x - ival (iSgn w) y))) ∧
  (Runs s g 0x04 p w → ∃ t d, exec (.mul g) s = .next t ∧ PassedOn s t g p w (some d) ∧
    Each2 (srcA p w) (srcB p w) d (fun x y => Narrowed (iSat w) (iSgn w) (ival (iSgn w) x * ival (iSgn w) y))) ∧
  (Runs s g 0x05 p w → ∃ t d, exec (.mulh g) s = .next t ∧ PassedOn s t g p w (some d) ∧
    Each2 (srcA p w) (srcB p w) d (fun x y z => ∃ hi lo : Int, 0 ≤ lo ∧ lo < 2 ^ 64 ∧
      ival (iSgn w) x * ival (iSgn w) y = hi * 2 ^ 64 + lo ∧ z = BitVec.ofInt 64 hi)) ∧
  (Runs s g 0x06 p w → ∃ t d, exec (.neg g) s = .next t ∧ PassedOn s t g p w (some d) ∧
    Each1 (srcA p w) d (fun x => Narrowed (iSat w) (iSgn w) (-ival (iSgn w) x))) ∧
  (Runs s g 0x07 p w → ∃ t d, exec (.abs g) s = .next t ∧ PassedOn s t g p w (some d) ∧
    Each1 (srcA p w) d (fun x => Narrowed (iSat w) (iSgn w) (ival (iSgn w) x).natAbs))

/-- O19. MOV, MIN, MAX, AND, OR, XOR, NOT, shifts, ROL and the bit counts (R217).
Completion: mov, min, max, and, or, xor, not, shl, shr, rol, popc, clz, ctz. From 05_fabric.md. -/
def Obligations.CellLogicShiftsAndCounts : Prop :=
  (∀ s g p w,
  (Runs s g 0x01 p w → ∃ t d, exec (.mov g) s = .next t ∧ PassedOn s t g p w (some d) ∧ Each1 (srcA p w) d (fun x z => z = x)) ∧
  (Runs s g 0x08 p w → ∃ t d, exec (.min g) s = .next t ∧ PassedOn s t g p w (some d) ∧
    Each2 (srcA p w) (srcB p w) d (fun x y z => ival (iSgn w) z = min (ival (iSgn w) x) (ival (iSgn w) y))) ∧
  (Runs s g 0x09 p w → ∃ t d, exec (.max g) s = .next t ∧ PassedOn s t g p w (some d) ∧
    Each2 (srcA p w) (srcB p w) d (fun x y z => ival (iSgn w) z = max (ival (iSgn w) x) (ival (iSgn w) y))) ∧
  (Runs s g 0x0A p w → ∃ t d, exec (.and g) s = .next t ∧ PassedOn s t g p w (some d) ∧
    Each2 (srcA p w) (srcB p w) d (fun x y z => ∀ j, z.getLsbD j = (x.getLsbD j && y.getLsbD j))) ∧
  (Runs s g 0x0B p w → ∃ t d, exec (.or g) s = .next t ∧ PassedOn s t g p w (some d) ∧
    Each2 (srcA p w) (srcB p w) d (fun x y z => ∀ j, z.getLsbD j = (x.getLsbD j || y.getLsbD j))) ∧
  (Runs s g 0x0C p w → ∃ t d, exec (.xor g) s = .next t ∧ PassedOn s t g p w (some d) ∧
    Each2 (srcA p w) (srcB p w) d (fun x y z => ∀ j, z.getLsbD j = (x.getLsbD j ^^ y.getLsbD j))) ∧
  (Runs s g 0x0D p w → ∃ t d, exec (.not g) s = .next t ∧ PassedOn s t g p w (some d) ∧
    Each1 (srcA p w) d (fun x z => ∀ j, j < 64 → z.getLsbD j = !x.getLsbD j))) ∧
  (∀ s g p w,
  (Runs s g 0x0E p w → ∃ t d, exec (.shl g) s = .next t ∧ PassedOn s t g p w (some d) ∧
    Each2 (srcA p w) (srcB p w) d (fun x y z => z.toNat = x.toNat * 2 ^ (y.toNat % 64) % 2 ^ 64)) ∧
  (Runs s g 0x0F p w → ∃ t d, exec (.shr g) s = .next t ∧ PassedOn s t g p w (some d) ∧
    Each2 (srcA p w) (srcB p w) d (fun x y z => ival (iSgn w) z = ival (iSgn w) x / 2 ^ (y.toNat % 64))) ∧
  (Runs s g 0x10 p w → ∃ t d, exec (.rol g) s = .next t ∧ PassedOn s t g p w (some d) ∧
    Each2 (srcA p w) (srcB p w) d (fun x y z => ∀ j, j < 64 → z.getLsbD ((j + y.toNat % 64) % 64) = x.getLsbD j)) ∧
  (Runs s g 0x11 p w → ∃ t d, exec (.popc g) s = .next t ∧ PassedOn s t g p w (some d) ∧
    Each1 (srcA p w) d (fun x z => z.toNat = ((List.range 64).filter (fun i => x.getLsbD i)).length)) ∧
  (Runs s g 0x12 p w → ∃ t d, exec (.clz g) s = .next t ∧ PassedOn s t g p w (some d) ∧
    Each1 (srcA p w) d (fun x z => (x = 0 → z.toNat = 64) ∧
      (x ≠ 0 → z.toNat < 64 ∧ 2 ^ (63 - z.toNat) ≤ x.toNat ∧ x.toNat < 2 ^ (64 - z.toNat)))) ∧
  (Runs s g 0x13 p w → ∃ t d, exec (.ctz g) s = .next t ∧ PassedOn s t g p w (some d) ∧
    Each1 (srcA p w) d (fun x z => (x = 0 → z.toNat = 64) ∧
      (x ≠ 0 → x.getLsbD z.toNat = true ∧ ∀ j, j < z.toNat → x.getLsbD j = false))))

/-- O20. BFX, BFI and H64 (R217).
Completion: bfx, bfi, h64. From 05_fabric.md. -/
def Obligations.CellBitFieldsAndHash : Prop :=
  ∀ s g p w,
  (Runs s g 0x14 p w → ∃ t d, exec (.bfx g) s = .next t ∧ PassedOn s t g p w (some d) ∧
    Each1 (srcA p w) d (fun x z =>
      (iSgn w = false → z.toNat = x.toNat / 2 ^ bfLsb w % 2 ^ bfWidth w) ∧
      (iSgn w = true → z.toInt = Int.bmod (x.toNat / 2 ^ bfLsb w % 2 ^ bfWidth w : Nat) (2 ^ bfWidth w)))) ∧
  (Runs s g 0x15 p w → ∃ t d, exec (.bfi g) s = .next t ∧ PassedOn s t g p w (some d) ∧
    Each2 (srcA p w) (srcB p w) d (fun x y z => ∀ j, j < 64 →
      z.getLsbD j = if bfLsb w ≤ j ∧ j < bfLsb w + bfWidth w then x.getLsbD (j - bfLsb w) else y.getLsbD j)) ∧
  (Runs s g 0x50 p w → ∃ t d, exec (.h64 g) s = .next t ∧ PassedOn s t g p w (some d) ∧
    Each2 (srcA p w) (srcB p w) d (fun k c z => ∃ x1 x2 : W64,
      x1 = h64Mix ((k ^^^ c) + 0x7A3D1C58E6B2940F#64) 16 40 ∧ x2 = h64Mix (x1 + 0x1F84C9A73D65E0B3#64) 28 52 ∧
      z = h64Mix (x2 + 0xD2E75B19A48C36F1#64) 12 44))

/-- O21. The compare, select and mask operations of R219.
Completion: cmpeq, cmpne, cmplt, cmple, sel, isnull, merge, keep, drop. From R219. -/
def Obligations.CellComparesAndSelects : Prop :=
  ∀ s g p w,
  (Runs s g 0x20 p w → ∃ t d, exec (.cmpeq g) s = .next t ∧ PassedOn s t g p w (some d) ∧
    Each2 (srcA p w) (srcB p w) d (fun x y z => z = if x = y then 1 else 0)) ∧
  (Runs s g 0x21 p w → ∃ t d, exec (.cmpne g) s = .next t ∧ PassedOn s t g p w (some d) ∧
    Each2 (srcA p w) (srcB p w) d (fun x y z => z = if x = y then 0 else 1)) ∧
  (Runs s g 0x22 p w → ∃ t d, exec (.cmplt g) s = .next t ∧ PassedOn s t g p w (some d) ∧
    Each2 (srcA p w) (srcB p w) d (fun x y z => z = if ival (iSgn w) x < ival (iSgn w) y then 1 else 0)) ∧
  (Runs s g 0x23 p w → ∃ t d, exec (.cmple g) s = .next t ∧ PassedOn s t g p w (some d) ∧
    Each2 (srcA p w) (srcB p w) d (fun x y z => z = if ival (iSgn w) x ≤ ival (iSgn w) y then 1 else 0)) ∧
  (Runs s g 0x24 p w → ∃ t d, exec (.sel g) s = .next t ∧ PassedOn s t g p w (some d) ∧ ∀ i, i < 8 →
    ((srcC p w).get i = none → d.get i = none) ∧ ((srcC p w).get i = some 0 → d.get i = (srcB p w).get i) ∧
    ∀ c, (srcC p w).get i = some c → c ≠ 0 → d.get i = (srcA p w).get i) ∧
  (Runs s g 0x25 p w → ∃ t d, exec (.isnull g) s = .next t ∧ PassedOn s t g p w (some d) ∧ ∀ i, i < 8 →
    d.get i = some (if (srcA p w).get i = none then 1 else 0)) ∧
  (Runs s g 0x26 p w → ∃ t d, exec (.merge g) s = .next t ∧ PassedOn s t g p w (some d) ∧ ∀ i, i < 8 →
    d.get i = if (srcA p w).get i = none then (srcB p w).get i else (srcA p w).get i) ∧
  (Runs s g 0x27 p w → ∃ t d, exec (.keep g) s = .next t ∧ PassedOn s t g p w (some d) ∧ ∀ i, i < 8 →
    d.get i = if (srcC p w).get i = none ∨ (srcC p w).get i = some 0 then none else (srcA p w).get i) ∧
  (Runs s g 0x28 p w → ∃ t d, exec (.drop g) s = .next t ∧ PassedOn s t g p w (some d) ∧ ∀ i, i < 8 →
    d.get i = if (srcC p w).get i = none ∨ (srcC p w).get i = some 0 then (srcA p w).get i else none)

/-- O22. The reductions of R220, and NOP, SHUF, COMPACT, BCAST and TAGF.
Completion: rsum, rmin, rmax, rcnt, ror, rfirst, rlast, nop, shuf, compact, bcast, tagf. From R220. -/
def Obligations.CellReductionsAndPermutes : Prop :=
  (∀ s g p w,
  (Runs s g 0x30 p w → ∃ t d, exec (.rsum g) s = .next t ∧ PassedOn s t g p w (some (lane0 d)) ∧
    ((srcA p w).valid = [] → d = none) ∧
    ((srcA p w).valid ≠ [] → ∃ z, d = some z ∧ Narrowed (iSat w) (iSgn w) (((srcA p w).valid.map (ival (iSgn w))).sum) z)) ∧
  (Runs s g 0x31 p w → ∃ t d, exec (.rmin g) s = .next t ∧ PassedOn s t g p w (some (lane0 d)) ∧
    ((srcA p w).valid = [] → d = none) ∧
    ((srcA p w).valid ≠ [] → ∃ z, d = some z ∧ z ∈ (srcA p w).valid ∧ ∀ x ∈ (srcA p w).valid, ival (iSgn w) z ≤ ival (iSgn w) x)) ∧
  (Runs s g 0x32 p w → ∃ t d, exec (.rmax g) s = .next t ∧ PassedOn s t g p w (some (lane0 d)) ∧
    ((srcA p w).valid = [] → d = none) ∧
    ((srcA p w).valid ≠ [] → ∃ z, d = some z ∧ z ∈ (srcA p w).valid ∧ ∀ x ∈ (srcA p w).valid, ival (iSgn w) x ≤ ival (iSgn w) z)) ∧
  (Runs s g 0x33 p w → ∃ t, exec (.rcnt g) s = .next t ∧
    PassedOn s t g p w (some (lane0 (some (BitVec.ofNat 64 (srcA p w).valid.length))))) ∧
  (Runs s g 0x34 p w → ∃ t d, exec (.ror g) s = .next t ∧ PassedOn s t g p w (some (lane0 d)) ∧
    ((srcA p w).valid = [] → d = none) ∧
    ((srcA p w).valid ≠ [] → ∃ z, d = some z ∧ ∀ j, z.getLsbD j = (srcA p w).valid.any (fun x => x.getLsbD j))) ∧
  (Runs s g 0x35 p w → ∃ t, exec (.rfirst g) s = .next t ∧ PassedOn s t g p w (some (lane0 ((srcA p w).valid[0]?)))) ∧
  (Runs s g 0x36 p w → ∃ t, exec (.rlast g) s = .next t ∧
    PassedOn s t g p w (some (lane0 ((srcA p w).valid.reverse[0]?))))) ∧
  (∀ s g p w,
  (Runs s g 0x00 p w → ∃ t, exec (.nop g) s = .next t ∧ PassedOn s t g p w none) ∧
  (Runs s g 0x60 p w → ∃ t d, exec (.shuf g) s = .next t ∧ PassedOn s t g p w (some d) ∧ ∀ i, i < 8 →
    ((srcB p w).get i = none → d.get i = none) ∧
    ∀ b, (srcB p w).get i = some b → d.get i = (srcA p w).get (b.toNat % 8)) ∧
  (Runs s g 0x61 p w → ∃ t d, exec (.compact g) s = .next t ∧ PassedOn s t g p w (some d) ∧ ∀ i, i < 8 →
    d.get i = (srcA p w).valid[i]?) ∧
  (Runs s g 0x62 p w → ∃ t d, exec (.bcast g) s = .next t ∧ PassedOn s t g p w (some d) ∧ ∀ i, i < 8 →
    d.get i = (srcA p w).get (iImm w % 8)) ∧
  (∀ k, Runs s g 0x63 p w → p.operand (iA w - 8) = some k → ∃ t d, exec (.tagf g) s = .next t ∧ PassedOn s t g p w (some d) ∧
    d.get 0 = some (BitVec.ofNat 64 k.trav) ∧ d.get 1 = some (BitVec.ofNat 64 k.ctx) ∧ d.get 2 = some (BitVec.ofNat 64 k.seq) ∧
    d.get 3 = some (BitVec.ofNat 64 k.kind.code) ∧ d.get 4 = some (BitVec.ofNat 64 k.slot) ∧
    d.get 5 = none ∧ d.get 6 = none ∧ d.get 7 = none))

/-- O23. FADD, FSUB, FCMP and FKEY in binary32 and binary64.
Completion: fadd32, fadd64, fsub32, fsub64, fcmp32, fcmp64, fkey32, fkey64. From R222. -/
def Obligations.CellFloatingPoint : Prop :=
  ∀ s g p w,
  (Runs s g 0x40 p w → ∃ t d, exec (.fadd32 g) s = .next t ∧ PassedOn s t g p w (some d) ∧
    Each2 (srcA p w) (srcB p w) d (fun x y z => f32.IsSum (x.toNat % 2 ^ 32) (y.toNat % 2 ^ 32) z)) ∧
  (Runs s g 0x41 p w → ∃ t d, exec (.fadd64 g) s = .next t ∧ PassedOn s t g p w (some d) ∧
    Each2 (srcA p w) (srcB p w) d (fun x y z => f64.IsSum x.toNat y.toNat z)) ∧
  (Runs s g 0x42 p w → ∃ t d, exec (.fsub32 g) s = .next t ∧ PassedOn s t g p w (some d) ∧
    Each2 (srcA p w) (srcB p w) d (fun x y z => f32.IsSum (x.toNat % 2 ^ 32) ((y.toNat + 2 ^ 31) % 2 ^ 32) z)) ∧
  (Runs s g 0x43 p w → ∃ t d, exec (.fsub64 g) s = .next t ∧ PassedOn s t g p w (some d) ∧
    Each2 (srcA p w) (srcB p w) d (fun x y z => f64.IsSum x.toNat ((y.toNat + 2 ^ 63) % 2 ^ 64) z)) ∧
  (Runs s g 0x44 p w → iImm w % 8 < 5 → ∃ t d, exec (.fcmp32 g) s = .next t ∧ PassedOn s t g p w (some d) ∧
    Each2 (srcA p w) (srcB p w) d (fun x y z =>
      (f32.holds (iImm w % 8) (x.toNat % 2 ^ 32) (y.toNat % 2 ^ 32) → z = 1) ∧
      (¬ f32.holds (iImm w % 8) (x.toNat % 2 ^ 32) (y.toNat % 2 ^ 32) → z = 0))) ∧
  (Runs s g 0x45 p w → iImm w % 8 < 5 → ∃ t d, exec (.fcmp64 g) s = .next t ∧ PassedOn s t g p w (some d) ∧
    Each2 (srcA p w) (srcB p w) d (fun x y z =>
      (f64.holds (iImm w % 8) x.toNat y.toNat → z = 1) ∧ (¬ f64.holds (iImm w % 8) x.toNat y.toNat → z = 0))) ∧
  (Runs s g 0x46 p w → ∃ t d, exec (.fkey32 g) s = .next t ∧ PassedOn s t g p w (some d) ∧
    Each1 (srcA p w) d (fun x z => z.toNat = if x.toNat % 2 ^ 32 < 2 ^ 31 then x.toNat % 2 ^ 32 + 2 ^ 31 else 2 ^ 32 - 1 - x.toNat % 2 ^ 32)) ∧
  (Runs s g 0x47 p w → ∃ t d, exec (.fkey64 g) s = .next t ∧ PassedOn s t g p w (some d) ∧
    Each1 (srcA p w) d (fun x z => z.toNat = if x.toNat < 2 ^ 63 then x.toNat + 2 ^ 63 else 2 ^ 64 - 1 - x.toNat))

/-- O24. LD, ST and UPD on the own bank of the cell, lanes in ascending order.
Completion: ld, st, upd. From R229. -/
def Obligations.CellTileStore : Prop :=
  ∀ s g p w,
  (Runs s g 0x70 p w → (∀ i, i < 8 → (srcA p w).get i ≠ none → wordOf g p w false i ≠ none) →
    ∃ t d, exec (.ld g) s = .next t ∧ PassedOn s t g p w (some d) ∧
      ∀ i, i < 8 → d.get i = (wordOf g p w false i).map (rdWord s 0)) ∧
  (Runs s g 0x71 p w → p.task.poisoned = false →
    (∀ i, i < 8 → (srcA p w).get i ≠ none → (srcB p w).get i ≠ none → wordOf g p w true i ≠ none) →
    ∃ t u, exec (.st g) s = .next t ∧ u = { s with tstore := u.tstore } ∧ PassedOn u t g p w none ∧
      (∀ i a, i < 8 → wordOf g p w true i = some a → rdWord t 0 a = wordAfter s g p w (fun _ b => b) a 8) ∧
      ∀ x, (∀ i a, i < 8 → wordOf g p w true i = some a → x < a ∨ a + 8 ≤ x) → rdByte t 0 x = rdByte s 0 x) ∧
  (Runs s g 0x72 p w → p.task.poisoned = false →
    (∀ i, i < 8 → (srcA p w).get i ≠ none → (srcB p w).get i ≠ none → wordOf g p w true i ≠ none) →
    ∃ t u d, exec (.upd g) s = .next t ∧ u = { s with tstore := u.tstore } ∧ PassedOn u t g p w (some d) ∧
      (∀ i, i < 8 → d.get i = (wordOf g p w true i).map (fun a => wordAfter s g p w (updOp (iC w)) a i)) ∧
      (∀ i a, i < 8 → wordOf g p w true i = some a → rdWord t 0 a = wordAfter s g p w (updOp (iC w)) a 8) ∧
      ∀ x, (∀ i a, i < 8 → wordOf g p w true i = some a → x < a ∨ a + 8 ≤ x) → rdByte t 0 x = rdByte s 0 x) ∧
  (∀ c op i x, (c = .ld g ∧ op = 0x70) ∨ (c = .st g ∧ op = 0x71) ∨ (c = .upd g ∧ op = 0x72) → Runs s g op p w → i < 8 →
    (srcA p w).get i = some x → (op = 0x70 ∨ (srcB p w).get i ≠ none) → wordOf g p w (op != 0x70) i = none →
    ∃ t, exec c s = .next t ∧ isSet t F.FAB_EVENT_TILE_ADDR (dieO (g / 4096)) = true)

/-- O25. EMIT and EMITD put one token with its copies into the output buffer; a row that leaves a join counts as a match of its probe
row (R276; DEDUCED in log entry 78: matches count as the node emits them). Completion: emit, emitd. From 05_fabric.md,
06_operators.md. -/
def Obligations.EmissionsEnterTheOutputBuffer : Prop :=
  (∀ s g p w rs ds, Runs s g 0x7C p w → cellRoutes s g (iImm w % 4) = rs → rs ≠ [] → rs.filterMap (routeDest s g) = ds → ds ≠ [] →
    (∀ x, cellOwner s g = some x → x.2.2.op ≠ 9 ∧ x.2.2.op ≠ 12) →
    p.squashed = false → deadCtx s p.task.key.trav p.task.key.ctx = false →
    ∃ t u, exec (.emit g) s = .next t ∧ PassedOn u t g p w none ∧
      outOf t g = outOf s g ++ [⟨s.now, .copies
        { trav := p.task.key.trav, slot := 0, ctx := p.task.key.ctx, seq := (p.task.key.seq + iImm w / 2 ^ 8 % 2 ^ 24) % 2 ^ 24,
          kind := if iImm w / 4 % 2 = 1 then .control else if p.task.poisoned then .poisoned else .data,
          lanes := srcA p w, acc := p.task.acc } ds⟩] ∧
      getF t F.FAB_TILE_TOK_TOKENS_OUT (tileO (g / 64)) = (getF s F.FAB_TILE_TOK_TOKENS_OUT (tileO (g / 64)) + 1) % 2 ^ 32 ∧
      RegsOnly (fun k => k = fkey F.FAB_TILE_TOK_TOKENS_OUT (tileO (g / 64))) s t) ∧
  (∀ s g p w rs ds x m, Runs s g 0x7C p w → cellRoutes s g (iImm w % 4) = rs → rs ≠ [] → rs.filterMap (routeDest s g) = ds → ds ≠ [] →
    cellOwner s g = some x → x.2.2.op = 9 ∨ x.2.2.op = 12 → iImm w / 4 % 2 = 0 → rs.all (staysIn x.2.2) = false →
    m = matchCount s (nodeFirst s g x.2.2) (emitToken p w (srcA p w)) →
    p.squashed = false → deadCtx s p.task.key.trav p.task.key.ctx = false →
    ∃ t, exec (.emit g) s = .next t ∧
      (m < 2 ^ byteAt x.2.2.param 1 → ∃ e k es, outOf t g = outOf s g ++ [e] ∧ e.work = .copies k es ∧ es = ds ∧ k.lanes = srcA p w ∧
        k.seq = ((p.task.key.seq + iImm w / 2 ^ 8 % 2 ^ 24) % 2 ^ 24 * 2 ^ byteAt x.2.2.param 1 + m) % 2 ^ 24 ∧
        matchCount t (nodeFirst s g x.2.2) (emitToken p w (srcA p w)) = m + 1) ∧
      (2 ^ byteAt x.2.2.param 1 ≤ m → outOf t g = outOf s g ∧
        ∀ i, invOf s p.task.key.ctx = some i → i.mark = none → i.squash = none →
          ∃ j, invOf t p.task.key.ctx = some j ∧ j.mark = some (stError, 0x0621))) ∧
  (∀ s g p w, Runs s g 0x7C p w → cellRoutes s g (iImm w % 4) = [] →
    ∃ t, exec (.emit g) s = .next t ∧ outOf t g = outOf s g ∧ isSet t F.FAB_EVENT_UNROUTED (dieO (g / 4096)) = true ∧
      getF t F.FAB_TILE_ERR_UNROUTED (tileO (g / 64)) = min (getF s F.FAB_TILE_ERR_UNROUTED (tileO (g / 64)) + 1) 65535) ∧
  (∀ s g p w b rs, Runs s g 0x7D p w → (srcB p w).get 0 = some b →
    (cellRoutes s g (iImm w % 4)).filter (fun r => r.kind == 1 && r.dieMask / 2 ^ (b.toNat % 8) % 2 == 1) = rs → rs ≠ [] →
    maskDies s g (2 ^ (b.toNat % 8)) = [b.toNat % 8] → (∀ x, cellOwner s g = some x → x.2.2.op ≠ 9 ∧ x.2.2.op ≠ 12) →
    p.squashed = false → deadCtx s p.task.key.trav p.task.key.ctx = false →
    ∃ t, exec (.emitd g) s = .next t ∧
      outOf t g = outOf s g ++ [⟨s.now, .copies
        { trav := p.task.key.trav, slot := 0, ctx := p.task.key.ctx, seq := (p.task.key.seq + iImm w / 2 ^ 8 % 2 ^ 24) % 2 ^ 24,
          kind := if iImm w / 4 % 2 = 1 then .control else if p.task.poisoned then .poisoned else .data,
          lanes := srcA p w, acc := p.task.acc } (rs.map (fun r => .die (2 ^ (b.toNat % 8)) r.dst r.slot false))⟩]) ∧
  (∀ s g p w, Runs s g 0x7D p w → (∀ b, (srcB p w).get 0 = some b → ∀ r ∈ cellRoutes s g (iImm w % 4), r.kind = 1 →
      r.dieMask / 2 ^ (b.toNat % 8) % 2 = 0) →
    ∃ t, exec (.emitd g) s = .next t ∧ isSet t F.FAB_EVENT_DIRECT_MISS (dieO (g / 4096)) = true ∧
      getF t F.FAB_TILE_ERR2_DIRECT_MISS (tileO (g / 64)) = min (getF s F.FAB_TILE_ERR2_DIRECT_MISS (tileO (g / 64)) + 1) 65535)

/-- O26. SRQ and HRQ leave for their channel or cache, and a request out of range is told. Completion: srq, hrq, nullReplyDeliver. From
05_fabric.md, 09_stack_sram.md, 10_hbm_cache.md. -/
def Obligations.MemoryRequestsLeaveAndReply : Prop :=
  (∀ s g p w r x, Runs s g 0x78 p w → (srcA p w).get 0 = some x → p.task.poisoned = false →
    r = { id := s.fab.nextReq, cell := g, port := iD w % 4, kind := srqKind (iC w), trav := p.task.key.trav, ctx := p.task.key.ctx,
          seq := p.task.key.seq, acc := p.task.acc, poisoned := false, off := x.toNat, data := srcB p w, addr := r.addr, why := 0,
          fc := 0, dead := false } →
    target s g (iImm w % 2 ^ 16) x.toNat true = .ok r.addr → outOf s g = [] → replyPlace s r = true →
    chState s (chanOf r.addr) = 0 → (srmCh s (chanOf r.addr)).queue.length < 64 →
    (∀ q ∈ (srmCh s (chanOf r.addr)).queue, q.fc = s.now → q.cell ≤ g) →
    ∃ t, exec (.srq g) s = .next t ∧
      (srmCh t (chanOf r.addr)).queue = (srmCh s (chanOf r.addr)).queue ++ [{ r with fc := s.now }] ∧
      outOf t g = [⟨s.now, .outstanding r none⟩] ∧
      getF t F.SRM_CH_STAT_QUEUED (chO (chanOf r.addr)) = ((srmCh s (chanOf r.addr)).queue.length + 1) % 2 ^ 7) ∧
  (∀ s g p w r x, Runs s g 0x79 p w → (srcA p w).get 0 = some x → p.task.poisoned = false →
    r = { id := s.fab.nextReq, cell := g, port := iD w % 4, kind := if iC w = 1 then .hrqWrite else .hrqRead, trav := p.task.key.trav,
          ctx := p.task.key.ctx, seq := p.task.key.seq, acc := p.task.acc, poisoned := false, off := x.toNat, data := srcB p w,
          addr := r.addr, why := 0, fc := 0, dead := false } →
    target s g (iImm w % 2 ^ 16) x.toNat false = .ok r.addr → outOf s g = [] → replyPlace s r = true →
    lostTo s (g / 4096) (r.addr / 2 ^ 36) = none → dieUp s (r.addr / 2 ^ 36) = true →
    ∃ t, exec (.hrq g) s = .next t ∧ (spcOf t (r.addr / 2 ^ 36)).reqs = (spcOf s (r.addr / 2 ^ 36)).reqs ++ [r] ∧
      outOf t g = [⟨s.now, .outstanding r none⟩] ∧ t.regs = s.regs) ∧
  (∀ s g p w c x, (c = .srq g ∧ Runs s g 0x78 p w ∧ target s g (iImm w % 2 ^ 16) x.toNat true = .fault) ∨
      (c = .hrq g ∧ Runs s g 0x79 p w ∧ target s g (iImm w % 2 ^ 16) x.toNat false = .fault) →
    (srcA p w).get 0 = some x →
    ∃ t, exec c s = .next t ∧ isSet t F.FAB_EVENT_MEM_RANGE (dieO (g / 4096)) = true ∧
      getF t F.FAB_TILE_ERR2_MEM_RANGE (tileO (g / 64)) = min (getF s F.FAB_TILE_ERR2_MEM_RANGE (tileO (g / 64)) + 1) 65535) ∧
  (∀ s g fc r rt q, outOf s g = [⟨fc, .outstanding r none⟩] → r.cell = g → r.why = 1 → r.dead = false → r.kind.sram = true →
    replyRoute s r = some rt → routeDest s g rt = some (.cell (localCell s g rt.dst) rt.slot) → deadCtx s r.trav r.ctx = false →
    (activeTrav s r.trav).isSome = true → q = inQueue s (tileOfCell (localCell s g rt.dst)) r.trav →
    (∀ k ∈ q, k.since = s.now → entryRank k.src ≤ entryRank g) →
    ∃ t, exec (.nullReplyDeliver g 0) s = .next t ∧ outOf t g = [] ∧
      inQueue t (tileOfCell (localCell s g rt.dst)) r.trav = q ++ [⟨localCell s g rt.dst,
        Token.mk r.trav rt.slot (if r.poisoned then .poisoned else .data) r.ctx r.seq Lanes.null r.acc, g, s.now, false, false⟩])

/-- O27. A copy enters the input queue of its tile, and the head of a queue matches or waits in the store, goes to a sort unit, or stays
while its node refuses it. Completion: routeCopySend, chainTokenDeliver, twinGateRelease, tokenMatch. From 05_fabric.md,
07_scheduler.md, 15_twin_power.md. -/
def Obligations.TokensTravelAndMatch : Prop :=
  (∀ s src fc tk g slot, src < 0x10000 → outOf s src = [⟨fc, .copies tk [.cell g slot]⟩] → g / 4096 = src / 4096 →
    hasRoom s (tileOfCell g) tk.trav = true → firstFor s (tileOfCell g) tk.trav (rank fc src 0) = true →
    (∀ q ∈ inQueue s (tileOfCell g) tk.trav, q.since = s.now → entryRank q.src ≤ entryRank src) →
    ∃ t, exec (.routeCopySend src 0 0) s = .next t ∧ outOf t src = [] ∧
      inQueue t (tileOfCell g) tk.trav = inQueue s (tileOfCell g) tk.trav ++ [⟨g, { tk with slot := slot }, src, s.now, false, false⟩] ∧
      getF t F.SCH_TILE_DEPTH_QUEUED (tileO (tileOfCell g)) = (getF s F.SCH_TILE_DEPTH_QUEUED (tileO (tileOfCell g)) + 1) % 2 ^ 11) ∧
  (∀ s d m x, (Tbl.getD s.fab.chainRx d [])[m]? = some x → twinned s (d / 2) = false → x.dst < 4096 →
    hasRoom s (tileOfCell (d * 4096 + x.dst)) x.tok.trav = true →
    firstFor s (tileOfCell (d * 4096 + x.dst)) x.tok.trav (rank x.fc x.src m) = true →
    (∀ q ∈ inQueue s (tileOfCell (d * 4096 + x.dst)) x.tok.trav, q.since = s.now → entryRank q.src ≤ entryRank x.src) →
    ∃ t, exec (.chainTokenDeliver d m) s = .next t ∧
      Tbl.getD t.fab.chainRx d [] = (Tbl.getD s.fab.chainRx d []).eraseIdx m ∧
      inQueue t (tileOfCell (d * 4096 + x.dst)) x.tok.trav =
        inQueue s (tileOfCell (d * 4096 + x.dst)) x.tok.trav ++ [⟨d * 4096 + x.dst, x.tok, x.src, s.now, false, false⟩]) ∧
  (∀ s k e, s.twn.gate = [e] → e.pair = k → e.at0 = true → e.at1 = true → twinned s k = true → e.cell < 4096 →
    hasRoom s (tileOfCell (8192 * k + e.cell)) e.tok.trav = true → hasRoom s (tileOfCell (8192 * k + 4096 + e.cell)) e.tok.trav = true →
    (∀ g, g = 8192 * k + e.cell ∨ g = 8192 * k + 4096 + e.cell →
      ∀ q ∈ inQueue s (tileOfCell g) e.tok.trav, q.since = s.now → entryRank q.src ≤ entryRank e.src) →
    ∃ t, exec (.twinGateRelease k) s = .next t ∧ t.twn.gate = [] ∧
      ∀ g, g = 8192 * k + e.cell ∨ g = 8192 * k + 4096 + e.cell →
        inQueue t (tileOfCell g) e.tok.trav = inQueue s (tileOfCell g) e.tok.trav ++ [⟨g, e.tok, e.src, s.now, false, false⟩]) ∧
  (∀ s tile trav h rest, inQueue s tile trav = h :: rest → h.tok.trav = trav → tileOfCell h.dst = tile →
    (activeTrav s trav).isSome = true → deadCtx s trav h.tok.ctx = false → sortNode s h.dst = none →
    nodeRefuses s h.dst h.src h.tok = false →
    h.tok.kind = .control ∨ (requiredSlots s h.dst).length ≤ 1 → readyRoom s h.dst = true →
    ∃ t, exec (.tokenMatch tile trav) s = .next t ∧ inQueue t tile trav = rest ∧
      readyOf t tile = readyOf s tile ++ [⟨h.dst, [h.tok], levelOf s trav, s.now⟩]) ∧
  (∀ s tile trav h rest, inQueue s tile trav = h :: rest → h.tok.trav = trav →
    (activeTrav s trav).isSome = true → deadCtx s trav h.tok.ctx = false → sortNode s h.dst = none →
    nodeRefuses s h.dst h.src h.tok = false →
    h.tok.kind ≠ .control → 1 < (requiredSlots s h.dst).length → (∀ e ∈ storeOf s tile, e.fits h.dst h.tok = false) →
    ((storeOf s tile).filter (fun e => e.trav == trav)).length < rangeEntries s tile trav →
    ∃ t, exec (.tokenMatch tile trav) s = .next t ∧ inQueue t tile trav = rest ∧
      storeOf t tile = storeOf s tile ++ [⟨h.dst, trav, h.tok.ctx, h.tok.seq, [h.tok]⟩]) ∧
  (∀ s tile trav h rest e, inQueue s tile trav = h :: rest → h.tok.trav = trav → tileOfCell h.dst = tile →
    (activeTrav s trav).isSome = true → deadCtx s trav h.tok.ctx = false → sortNode s h.dst = none →
    nodeRefuses s h.dst h.src h.tok = false →
    h.tok.kind ≠ .control → 1 < (requiredSlots s h.dst).length → storeOf s tile = [e] → e.fits h.dst h.tok = true →
    (∀ k ∈ e.toks, k.slot ≠ h.tok.slot) → (∀ x ∈ requiredSlots s h.dst, x = h.tok.slot ∨ ∃ k ∈ e.toks, k.slot = x) →
    readyRoom s h.dst = true →
    ∃ t, exec (.tokenMatch tile trav) s = .next t ∧ inQueue t tile trav = rest ∧ storeOf t tile = [] ∧
      readyOf t tile = readyOf s tile ++ [⟨h.dst, e.toks ++ [h.tok], levelOf s trav, s.now⟩]) ∧
  (∀ s tile trav h rest x, inQueue s tile trav = h :: rest → h.tok.trav = trav → (activeTrav s trav).isSome = true →
    deadCtx s trav h.tok.ctx = false → sortNode s h.dst = some x → h.tok.kind ≠ .control →
    ∃ t j, exec (.tokenMatch tile trav) s = .next t ∧ inQueue t tile trav = rest ∧ j ∈ t.fab.sorts ∧ j.trav = trav ∧
      j.ctx = h.tok.ctx ∧ j.first = nodeFirst s h.dst x.2.2 ∧ j.rows.getLast?.map (·.1) = some (h.tok.lanes.get 0)) ∧
  (∀ s tile trav h rest, inQueue s tile trav = h :: rest → (activeTrav s trav).isSome = true → deadCtx s trav h.tok.ctx = false →
    sortNode s h.dst = none → nodeRefuses s h.dst h.src h.tok = true → exec (.tokenMatch tile trav) s = .next s)

/-- O28. A dispatched task starts its pass, at most eight in an fc; a hold stalls; invocations, streams and sort jobs end. Completion:
taskDispatch, holdStall, invocationEnd, streamEnd, sortMergeDone. From 07_scheduler.md, 05_fabric.md, 06_operators.md. -/
def Obligations.TasksDispatchAndContextsEnd : Prop :=
  (∀ s tile u, u ∈ readyOf s tile → (∀ v ∈ readyOf s tile, eligible s tile v = true ↔ v = u) → u.poisoned = false →
    dispatchedNow s tile < 8 →
    ∃ t, exec (.taskDispatch tile) s = .next t ∧ Tbl.get? u.cell t.fab.passes = some ⟨u, [], 0, false, s.now⟩ ∧
      (readyOf t tile).length + 1 = (readyOf s tile).length ∧
      getF t F.SCH_TILE_DISP_DISPATCHED (tileO tile) = (getF s F.SCH_TILE_DISP_DISPATCHED (tileO tile) + 1) % 2 ^ 64) ∧
  (∀ s tile, dispatchedNow s tile ≤ 8 → ∃ t, exec (.taskDispatch tile) s = .next t ∧ dispatchedNow t tile ≤ 8) ∧
  (∀ s tile trav h rest, inQueue s tile trav = h :: rest → h.stalled = false →
    getF s F.SCH_CTL_STALL_LIMIT (dieO (tile / 64)) ≠ 0 → tile < 512 → trav < 4096 →
    ∃ t, exec (.holdStall tile trav) s = .next t ∧ inQueue t tile trav = { h with stalled := true } :: rest ∧
      isSet t F.SCH_EVENT_HOLD_STALL (dieO (tile / 64)) = true ∧ getF t F.SCH_STALL_TILE (dieO (tile / 64)) = tile % 64 ∧
      getF t F.SCH_STALL_TRAVERSE (dieO (tile / 64)) = trav) ∧
  (∀ s n i, Tbl.get? n s.fab.invs = some i → i.num = n → i.cq < 65536 → i.done = false → invOver s i = true →
    ∃ t, exec (.invocationEnd n) s = .next t ∧ (∃ j, Tbl.get? n t.fab.invs = some j ∧ j.done = true) ∧
      ∃ c, Tbl.getD t.dst.cw (ringPort s i.cq) [] = Tbl.getD s.dst.cw (ringPort s i.cq) [] ++ [c] ∧ c.cq = i.cq ∧ c.tag = i.tag ∧
        (c.status, c.reason) = i.outcome) ∧
  (∀ s trav src p v, activeTrav s trav = some (p, v) → srcState s src = srcClosed → src < 1024 →
    (∀ g ∈ (collCells p trav).flatMap (placements s), (trav, ctxSource src, g) ∈ s.fab.lostFrom) →
    busyCtx s trav (ctxSource src) = false → (trav, ctxSource src) ∉ s.fab.freed →
    ∃ t, exec (.streamEnd trav src) s = .next t ∧ (trav, ctxSource src) ∈ t.fab.freed ∧
      ∀ tile, ∀ e ∈ storeOf t tile, ¬ (e.trav = trav ∧ e.ctx = ctxSource src)) ∧
  (∀ s inv first j p v n, s.fab.sorts = [j] → j.ctx = ctxInv inv → j.first = first → j.poisoned = false →
    sortNode s first = some (p, v, n) → n.op = opTopk → j.ends ≠ [] → allEnded (nodeSources p v.num n) j.ends = true →
    (∀ port, port < 4 → port ≠ 0 → cellRoutes s first port = []) →
    (cellRoutes s first 0).filterMap (routeDest s first) ≠ [] → outOf s (sortSrc first) = [] →
    ∃ t rows, exec (.sortMergeDone inv first) s = .next t ∧ t.fab.sorts = [] ∧
      List.Perm rows j.rows ∧ rows.Pairwise (fun a b => sortLe n a b = true) ∧
      ∀ i, i < min (fld n.param 4 4) rows.length → ∃ e tok ds r, (outOf t (sortSrc first))[i]? = some e ∧
        e.work = .copies tok ds ∧ rows[i]? = some r ∧ tok.seq = i % 2 ^ 24 ∧ tok.ctx = ctxInv inv ∧ tok.lanes.get 0 = r.1)

/-- O29. Trigger, transmit and END frames leave with their flit, credit and SEQ; none but HALT frames leave on VC1 during a package
halt. Completion: nakSend, haltFrameSend, fedStampSend, fedTokenSend, triggerSend. From 03_transit.md, 08_timing_promise.md. -/
def Obligations.FramesAreSent : Prop :=
  (∀ s p x rest, (portOf s p).vc1q = x :: rest → halted s = false ∨ byteAt x.bytes 0 = 0x25 → maySend s p 1 x.bytes.length = true →
    ∃ t, exec (.nakSend p) s = .next t ∧ (portOf t p).vc1q = rest ∧ FrameSent s t p 1 x.bytes) ∧
  (∀ s p, halted s = true → (∀ x ∈ (portOf s p).vc1q, byteAt x.bytes 0 ≠ 0x25) → exec (.nakSend p) s = .next s) ∧
  (∀ s p, halted s = true → (portOf s p).vc1q = [] → maySend s p 1 32 = true →
    ∃ t, exec (.haltFrameSend p) s = .next t ∧
      FrameSent s t p 1 ([0x25, 0] ++ leBytes 2 32 ++ List.replicate 4 0 ++ leBytes 8 s.rings.haltFc ++ List.replicate 16 0)) ∧
  (∀ s p, fedMode s p = true → (∀ x, (portOf s p).lastFed = some x → x < hznG s) → maySend s p 0 32 = true →
    ∃ t, exec (.fedStampSend p) s = .next t ∧ (portOf t p).lastFed = some (hznG s) ∧
      (portOf t p).fedSeq = ((portOf s p).fedSeq + 1) % 2 ^ 32 ∧
      FrameSent s t p 0 ([3, 0] ++ leBytes 2 32 ++ leBytes 4 0 ++ leBytes 4 (portOf s p).fedSeq ++ leBytes 4 0 ++ leBytes 8 (hznG s) ++
        List.replicate 8 0)) ∧
  (∀ s src fc tk pkg group p, outOf s src = [⟨fc, .copies tk [.federation pkg group]⟩] → halted s = false → fedPort s pkg = some p →
    lostTo s (dieOfSrc src) (dieOfPort p) = none → maySend s p 0 112 = true →
    ∃ t, exec (.fedTokenSend src 0 0) s = .next t ∧ outOf t src = [] ∧
      FrameSent s t p 0 ([4, 0] ++ leBytes 2 112 ++ leBytes 2 0 ++ leBytes 2 group ++ leBytes 4 (portOf s p).fedSeq ++ leBytes 4 0 ++
        leBytes 8 (hznG s) ++ List.replicate 8 0 ++ wordBytes (tk.lanes.toList.map laneVal) ++ leBytes 1 tk.lanes.mask ++
        List.replicate 15 0)) ∧
  (∀ s p x rest, (portOf s p).trigs = x :: rest → halted s = false → maySend s p 2 x.frame.length = true →
    ∃ t u, exec (.triggerSend p) s = .next t ∧ (portOf t p).trigs = rest ∧
      FrameSent s u p 2 (x.frame.take 24 ++ leBytes 8 (wall s) ++ x.frame.drop 32) ∧ u.out <+: t.out)

/-- O30. The collector takes a row to its destination: trigger, ring, host buffer or pins. Completion: collectorTake, hostBufferWrite,
trigOutDrive, trigOutPulseEnd. From 09_stack_sram.md, 06_operators.md, 12_host_rings.md. -/
def Obligations.RowsReachTheirDestinations : Prop :=
  (∀ s tile g r cq, tile < 512 → collOf s tile = [⟨r.trav, g, [.row r]⟩] → r.poisoned = false → r.dest = 0 → ctxKind r.ctx ≠ 1 →
    pairLive s (r.die / 2) = false → rowRing s r = some cq → rowHeld s r = false → rowLost s r (ringPort s cq) = none →
    ∃ t c, exec (.collectorTake tile) s = .next t ∧ collOf t tile = [] ∧
      Tbl.getD t.dst.cw (ringPort s cq) [] = Tbl.getD s.dst.cw (ringPort s cq) [] ++ [c] ∧ c.cq = cq ∧ c.kind = 2 ∧ c.tag = r.trav ∧
      c.stamp = some (rowStamp s r) ∧ c.r0 = r.lane 0 ∧ c.r1 = r.lane 1) ∧
  (∀ s tile g r, tile < 512 → collOf s tile = [⟨r.trav, g, [.row r]⟩] → r.poisoned = false → r.dest = 1 → pairLive s (r.die / 2) = false →
    rowHeld s r = false → rowLost s r (rowPort s r) = none →
    ∃ t q, exec (.collectorTake tile) s = .next t ∧ collOf t tile = [] ∧
      Tbl.getD t.dst.hbw (rowPort s r) [] = Tbl.getD s.dst.hbw (rowPort s r) [] ++ [q] ∧ rowRecord q = rowRecord { r with stamp := rowStamp s r }) ∧
  (∀ s tile g r, tile < 512 → collOf s tile = [⟨r.trav, g, [.row r]⟩] → r.poisoned = false → r.dest = 2 → pairLive s (r.die / 2) = false →
    rowHeld s r = false → link s (rowTrigPort s r) = lkUp → fedMode s (rowTrigPort s r) = false → rowTrigPort s r < s.part.ports →
    rowLost s r (dieOfPort (rowTrigPort s r)) = none →
    ∃ t x, exec (.collectorTake tile) s = .next t ∧ collOf t tile = [] ∧
      (portOf t (rowTrigPort s r)).trigs = (portOf s (rowTrigPort s r)).trigs ++ [x] ∧
      x.frame = trigFrame s { r with stamp := rowStamp s r } (Tbl.getD s.dst.tseq ((r.trav * 16 + rowTrigPort s r) * 2) 0)) ∧
  (∀ s tile g r, tile < 512 → collOf s tile = [⟨r.trav, g, [.row r]⟩] → r.poisoned = false → r.dest = 3 → pairLive s (r.die / 2) = false →
    pairLive s 0 = false → rowLost s r 0 = none → (∀ q ∈ Tbl.getD s.dst.pinQ 0 [], q.outFc / 2 = wall s / 2 → q.trav ≤ r.trav) →
    ∃ t q, exec (.collectorTake tile) s = .next t ∧ collOf t tile = [] ∧ Tbl.getD t.dst.pinQ 0 [] = Tbl.getD s.dst.pinQ 0 [] ++ [q] ∧
      q.lanes = r.lanes ∧ q.param = r.param) ∧
  (∀ s tile g r, tile < 512 → collOf s tile = [⟨r.trav, g, [.row r]⟩] → r.poisoned = true →
    ∃ t, exec (.collectorTake tile) s = .next t ∧ collOf t tile = [] ∧ isSet t F.SRM_EVENT_POISON_DROP (dieO r.die) = true ∧
      t.dst.cw = s.dst.cw ∧ t.dst.hbw = s.dst.hbw ∧ t.dst.pinQ = s.dst.pinQ) ∧
  (∀ s port r rest i, Tbl.getD s.dst.hbw port [] = r :: rest → halted s = false → r.twin = none → rowInv s r = some i →
    i.num = ctxInvNum r.ctx → i.bufFull = false → i.written + (rowRecord r).length ≤ i.bufLen → resetting s i.fn = false →
    ∃ t ro, exec (.hostBufferWrite port) s = .next t ∧ Tbl.getD t.dst.hbw port [] = rest ∧
      SentFirst s t (.hostWrite (pfOf i.fn) i.fn (i.buf + i.written) (rowRecord r) ro false) ∧
      ∃ j, Tbl.get? i.num t.fab.invs = some j ∧ j.written = i.written + (rowRecord r).length) ∧
  (∀ s r rest, Tbl.getD s.dst.pinQ 0 [] = r :: rest → halted s = false → isSet s F.CLK_HP_QUIESCE 0 = false → pairLive s 0 = false →
    byteAt r.param 8 ≠ 0 →
    ∃ t, exec (.trigOutDrive 0) s = .next t ∧ Tbl.getD t.dst.pinQ 0 [] = rest ∧ Tbl.getD t.dst.pins (byteAt r.param 7 % 8) false = true ∧
      Tbl.get? (byteAt r.param 7 % 8) t.dst.pulses = some (byteAt r.param 8)) ∧
  (∀ s pin n, Tbl.get? pin s.dst.pulses = some n →
    ∃ t, exec (.trigOutPulseEnd pin) s = .next t ∧ Tbl.getD t.dst.pins pin false = false ∧ Tbl.get? pin t.dst.pulses = none ∧ t.regs = s.regs)

/-- O31. A SCAN column issues its next token from host memory when PACE lets it, and END when every column is done. Completion:
scanTokenIssue. From 06_operators.md, 07_scheduler.md, 08_timing_promise.md. -/
def Obligations.ScanColumnsIssueTokens : Prop :=
  (∀ s inv col host i p v n cell c r, Tbl.get? inv s.fab.invs = some i → i.num = inv → activeTrav s i.trav = some (p, v) →
    (scanColumns p v)[col]? = some (n, cell, c) → i.done = false → i.squash = none → headRoom s v = true → headFirst s cell v.num = true →
    i.scanFail = false → Tbl.getD i.scan col 0 < ceilDiv i.rows 8 → paceOpen s (16 + col) v.num (paceFc s v.num) = true →
    n.op = opScan → i.ranges.find? (fun r => r.1 == c.word) = some r →
    isHost (r.2.1 + 64 * Tbl.getD i.scan col 0) = true → placements s cell = [cell] → twinned s (cell / 8192) = false →
    8 * min 8 (i.rows - 8 * Tbl.getD i.scan col 0) ≤ host.length →
    (∀ q ∈ inQueue s (tileOfCell cell) i.trav, q.since = s.now → entryRank q.src ≤ entryRank (0x40000 + cell / 4096)) →
    ∃ t j, exec (.scanTokenIssue inv col host) s = .next t ∧ Tbl.get? inv t.fab.invs = some j ∧
      Tbl.getD j.scan col 0 = Tbl.getD i.scan col 0 + 1 ∧
      SentFirst s t (.hostRead (pfOf i.fn) i.fn (r.2.1 + 64 * Tbl.getD i.scan col 0) (8 * min 8 (i.rows - 8 * Tbl.getD i.scan col 0)) false) ∧
      inQueue t (tileOfCell cell) i.trav = inQueue s (tileOfCell cell) i.trav ++ [⟨cell,
        Token.mk i.trav 0 .data (ctxInv inv) (Tbl.getD i.scan col 0 % 2 ^ 24)
          (Lanes.ofList ((leWords (host.take (8 * min 8 (i.rows - 8 * Tbl.getD i.scan col 0)))).map (fun w => some (c.value w)))) i.acc,
        0x40000 + cell / 4096, s.now, false, false⟩]) ∧
  (∀ s inv col host i p v n cell c, Tbl.get? inv s.fab.invs = some i → activeTrav s i.trav = some (p, v) →
    (scanColumns p v)[col]? = some (n, cell, c) → i.scanFail = false → Tbl.getD i.scan col 0 < ceilDiv i.rows 8 →
    paceOpen s (16 + col) v.num (paceFc s v.num) = false → exec (.scanTokenIssue inv col host) s = .next s) ∧
  (∀ s inv col host i p v n cell c, Tbl.get? inv s.fab.invs = some i → i.num = inv → activeTrav s i.trav = some (p, v) →
    (scanColumns p v)[col]? = some (n, cell, c) → i.done = false → i.squash = none → headRoom s v = true → headFirst s cell v.num = true →
    i.scanFail = false → (∀ x, x < (scanColumns p v).length → ceilDiv i.rows 8 ≤ Tbl.getD i.scan x 0) → cell ∉ i.ended →
    placements s cell = [cell] → twinned s (cell / 8192) = false →
    (∀ q ∈ inQueue s (tileOfCell cell) i.trav, q.since = s.now → entryRank q.src ≤ entryRank (0x40000 + cell / 4096)) →
    ∃ t j q, exec (.scanTokenIssue inv col host) s = .next t ∧ Tbl.get? inv t.fab.invs = some j ∧ cell ∈ j.ended ∧
      inQueue t (tileOfCell cell) i.trav = inQueue s (tileOfCell cell) i.trav ++ [q] ∧ q.dst = cell ∧
      q.tok.kind = .control ∧ q.tok.sub = 4 ∧ q.tok.lanes.get 0 = some (BitVec.ofNat 64 i.rows))

/-- O32. NOP, malformed, INVOKE, CANCEL and POST_BUFFER entries are consumed. Completion: nopEntry, entryConsume, invoke, cancel,
postBuffer. From 12_host_rings.md, 07_scheduler.md. -/
def Obligations.RingEntriesRun : Prop :=
  (∀ s n b c, c = .nopEntry n ∨ c = .entryConsume n → EntryReady s n 0x00 b →
    ∃ t, exec c s = .next t ∧ EntryTaken s t n ∧ Completed s t n (sqCq s n) (fld b 2 2) 0 0) ∧
  (∀ s n b r r0, n < 65536 → sqCq s n < 65536 → (∃ i rest, (ringOf s n).ents = (i, b) :: rest) → b ≠ [] → examine s n = .fail stMalformed r r0 → ringTurn s n = true →
    ∃ t, exec (.entryConsume n) s = .next t ∧ EntryTaken s t n ∧ Completed s t n (sqCq s n) (fld b 2 2) 2 r ∧
      isSet t F.RING_EVENT_MALFORMED 0 = true ∧
      getF t F.RING_SQ_STAT_MALFORMED (ringO n) = min (getF s F.RING_SQ_STAT_MALFORMED (ringO n) + 1) 65535) ∧
  (∀ s n b, EntryReady s n 0x01 b →
    ∃ t i, exec (.invoke n) s = .next t ∧ EntryTaken s t n ∧ Tbl.get? (nextInv s (ringPort s n)) t.fab.invs = some i ∧
      i.num = nextInv s (ringPort s n) ∧ i.trav = fld b 16 2 ∧ i.sq = n ∧ i.cq = sqCq s n ∧ i.tag = fld b 2 2 ∧ i.rows = fld b 20 4 ∧
      i.acc = wall s % 2 ^ 32 ∧ i.done = false ∧ i.mark = none) ∧
  (∀ s n b r k i, EntryReady s n 0x02 b → namedRing s (ringOwner s n) (fld b 18 2) = some r → Tbl.get? k s.fab.invs = some i →
    i.sq = r → i.tag = fld b 16 2 → i.squash = none → i.done = false → i.num = k →
    ∃ t j, exec (.cancel n) s = .next t ∧ EntryTaken s t n ∧ Completed s t n (sqCq s n) (fld b 2 2) 0 0 ∧
      Tbl.get? k t.fab.invs = some j ∧ j.squash = some (3, 0x0701)) ∧
  (∀ s n b, EntryReady s n 0x03 b →
    ∃ t, exec (.postBuffer n) s = .next t ∧ EntryTaken s t n ∧ (ringOf t n).posted = (ringOf s n).posted ++
      [{ addr := fld b 16 8, len := fld b 24 4, timeout := fld b 32 4, written := 0, records := 0, first := none, tag := fld b 2 2,
         cq := sqCq s n }])

/-- O33. LOAD_PLAT, UNLOAD_PLAT, codec and DMA entries start their work. Completion: loadPlat, unloadPlat, cdcCompress, cdcDecompress,
dmaXfer. From 12_host_rings.md, 04_plats.md, 11_codec.md, 13_dma.md. -/
def Obligations.RingCommandsStart : Prop :=
  (∀ s n b k, EntryReady s n 0x10 b → isPf (ringOwner s n) = true → isSet s F.PLAT_CTL_ENABLE 0 = true →
    isSet s F.PLAT_STAGE_CFG_VALID 0 = true → (List.range 4).find? (fun k => slotPhase s k == 0) = some k →
    fld b 24 4 % 64 = 0 → 192 ≤ fld b 24 4 → fld b 24 4 ≤ 2 ^ 28 → fld b 16 8 % 64 = 0 → byteAt b 28 ≤ 3 →
    ∃ t x, exec (.loadPlat n) s = .next t ∧ EntryTaken s t n ∧ slotPhase t k = 1 ∧ Tbl.get? k t.plats.slots = some x ∧ x.ring = n ∧
      x.tag = fld b 2 2 ∧ x.addr = fld b 16 8 ∧ x.len = fld b 24 4 ∧ x.handle = nextHandle s ∧
      t.out.getLast? = some (.hostRead (ringPort s n) (ringOwner s n) (fld b 16 8) (fld b 24 4) false)) ∧
  (∀ s n b h, EntryReady s n 0x11 b → isPf (ringOwner s n) = true → fld b 16 2 = h →
    (∀ e ∈ s.plats.slots, e.2.staged = true → e.2.handle ≠ h ∧ ∀ p, e.2.plat = some p → ¬ (p.replace = true ∧ p.replaces = h)) →
    (∃ p ∈ s.plats.active, p.handle = h) →
    ∃ t, exec (.unloadPlat n) s = .next t ∧ EntryTaken s t n ∧ t.plats.unloads = s.plats.unloads ++ [(h, n, fld b 2 2, sqCq s n)] ∧
      t.plats.active = s.plats.active) ∧
  (∀ s n b comp k, EntryReady s n (if comp then 0x20 else 0x21) b → jobEngine s (runDie s (byteAt b 45)) = some k →
    ∃ t j, exec (if comp then .cdcCompress n else .cdcDecompress n) s = .next t ∧ EntryTaken s t n ∧
      jobsOf t k = jobsOf s k ++ [j] ∧ j.comp = comp ∧ j.sq = n ∧ j.cq = sqCq s n ∧ j.tag = fld b 2 2 ∧ j.src = fld b 16 8 ∧
      j.dst = fld b 24 8 ∧ j.srcLen = fld b 32 4 ∧ j.dstLen = fld b 36 4 ∧ j.limit = fld b 40 4) ∧
  (∀ s n b k, EntryReady s n 0x30 b → dmaChannel s (ringOwner s n) (runDie s (byteAt b 38)) = some k →
    ∃ t x, exec (.dmaXfer n) s = .next t ∧ EntryTaken s t n ∧
      (chanSt t (runDie s (byteAt b 38)) k).queue = (chanSt s (runDie s (byteAt b 38)) k).queue ++ [x] ∧
      x.sq = n ∧ x.cq = sqCq s n ∧ x.tag = fld b 2 2 ∧ x.src = fld b 16 8 ∧ x.dst = fld b 24 8 ∧ x.len = fld b 32 4)

/-- O34. Doorbells move their index, ring reads return, are repeated, or are lost. Completion: doorbellWrite, entryReadReturn,
entryReread, listReadReturn, completionTimeout. From 12_host_rings.md, 13_dma.md. -/
def Obligations.RingReadsReturn : Prop :=
  (∀ s fn off v n, halted s = false → resetting s fn = false → isSet s F.CLK_HP_QUIESCE 0 = false → off % 8 = 0 → v < 2 ^ 32 →
    bellRing s fn off = some n →
    ∃ t, exec (.doorbellWrite fn off 4 v) s = .next t ∧
      (sqTakes s n = true → leavingRing s n = false → subMod 32 v (sqCi s n) ≤ sqSize s n → subMod 32 v (sqPi s n) < 2 ^ 31 →
        getF t F.RING_SQ_IDX_PI (ringO n) = v ∧ RegsOnly (fun k => k = fkey F.RING_SQ_IDX_PI (ringO n)) s t) ∧
      (sqTakes s n = false ∨ leavingRing s n = true ∨ sqSize s n < subMod 32 v (sqCi s n) ∨ 2 ^ 31 ≤ subMod 32 v (sqPi s n) →
        isSet t F.RING_EVENT_DB_DROPPED 0 = true ∧ sqPi t n = sqPi s n ∧
        getF t F.RING_SQ_STAT_DB_DROPPED (ringO n) = min (getF s F.RING_SQ_STAT_DB_DROPPED (ringO n) + 1) 65535)) ∧
  (∀ s fn off v n, halted s = false → resetting s fn = false → isSet s F.CLK_HP_QUIESCE 0 = false → off % 8 = 4 → v < 2 ^ 32 →
    bellRing s fn off = some n → getF s F.RING_CQ_CTL_STATE (ringO n) = 1 →
    subMod 32 v (cqCi s n) ≤ subMod 32 (cqPi s n) (cqCi s n) →
    ∃ t, exec (.doorbellWrite fn off 4 v) s = .next t ∧ cqCi t n = v) ∧
  (∀ s n data, fetches s n = true → sqState s n = 1 → (nextRead s n).2 ≠ 0 →
    ∃ t, exec (.entryReadReturn n true data) s = .next t ∧
      (ringOf t n).ents = (ringOf s n).ents ++ (List.range (nextRead s n).2).map (fun j =>
        (((nextRead s n).1 + j) % 2 ^ 32, sub data (64 * j) 64)) ∧
      t.out = s.out ++ [.hostRead (ringPort s n) (ringOwner s n) (sqAddr s n (nextRead s n).1) (64 * (nextRead s n).2) false] ∧
      t.regs = s.regs) ∧
  (∀ s n data i b rest, n < 65536 → (ringOf s n).ents = (i, b) :: rest → fetches s n = true → sqState s n = 1 → b ≠ [] → byteAt b 0 % 2 = 0 →
    (ringOf s n).rereads < 8 →
    ∃ t, exec (.entryReread n true data) s = .next t ∧ (ringOf t n).ents = (i, sub data 0 64) :: rest ∧
      (ringOf t n).rereads = (ringOf s n).rereads + 1 ∧
      ((ringOf s n).rereads = 0 → getF t F.RING_SQ_STAT_REREADS (ringO n) = min (getF s F.RING_SQ_STAT_REREADS (ringO n) + 1) 65535)) ∧
  (∀ s n data i b rest, (ringOf s n).ents = (i, b) :: rest → (ringOf s n).listWait = true →
    ∃ t, exec (.listReadReturn n true data) s = .next t ∧ (ringOf t n).list = some (sub data 0 (16 * byteAt b 19)) ∧
      (ringOf t n).listWait = false ∧ t.regs = s.regs) ∧
  (∀ s n, n < 0x10000 → (ringOf s n).listWait = false → fetches s n = true → (nextRead s n).2 ≠ 0 → (ringOf s n).retried = false →
    ∃ t, exec (.completionTimeout (ringPort s n) (0x10000 + n)) s = .next t ∧ (ringOf t n).retried = true ∧
      (ringOf t n).ents = (ringOf s n).ents ∧ t.regs = s.regs) ∧
  (∀ s d n x b rest, d < 8 → n < 64 → (chanSt s d n).cur = some x → isHost x.src = true → (chanSt s d n).infl = b :: rest →
    (chanSt s d n).fault = none → (chanSt s d n).squash = none →
    ∃ t, exec (.completionTimeout (pfOf x.fn) (d * 64 + n)) s = .next t ∧ (chanSt t d n).infl = rest ∧
      (chanSt t d n).fault = some (9, rsnHostRead, x.src + b.off) ∧ t.regs = s.regs)

/-- O35. Completions are written, overflow when the ring is full, and are told. Completion: completionWrite, overflowDrain,
coalesceTimeout, msixUnmask, postBufferTimeout. From 12_host_rings.md, 01_architecture.md. -/
def Obligations.CompletionsAreWritten : Prop :=
  (∀ s port c rest, Tbl.getD s.dst.cw port [] = c :: rest → halted s = false → c.kind = 0 → c.inv = none → c.twin = none →
    c.cq < 65536 → ringPort s c.cq = port → getF s F.RING_CQ_CTL_STATE (ringO c.cq) = 1 → resetting s (ringOwner s c.cq) = false →
    cqFull s c.cq = false → (ringOf s c.cq).ovf = [] →
    ∃ t, exec (.completionWrite port) s = .next t ∧ Tbl.getD t.dst.cw port [] = rest ∧ cqPi t c.cq = (cqPi s c.cq + 1) % 2 ^ 32 ∧
      SentFirst s t (.hostWrite port (ringOwner s c.cq) (cqAddr s c.cq (cqPi s c.cq)) (c.bytes (wall s)) false false)) ∧
  (∀ s port c rest, Tbl.getD s.dst.cw port [] = c :: rest → halted s = false → c.kind = 0 → c.inv = none → c.twin = none →
    c.cq < 65536 → getF s F.RING_CQ_CTL_STATE (ringO c.cq) = 1 → resetting s (ringOwner s c.cq) = false → cqFull s c.cq = true →
    (ringOf s c.cq).ovf.length < 256 →
    ∃ t, exec (.completionWrite port) s = .next t ∧ Tbl.getD t.dst.cw port [] = rest ∧ cqPi t c.cq = cqPi s c.cq ∧
      (ringOf t c.cq).ovf = (ringOf s c.cq).ovf ++ [c] ∧ isSet t F.RING_EVENT_OVERFLOW 0 = true ∧
      getF t F.RING_CQ_STAT_OVF (ringO c.cq) = (ringOf s c.cq).ovf.length + 1) ∧
  (∀ s cq c rest x, cq < 65536 → (ringOf s cq).ovf = c :: rest → halted s = false → cqFull s cq = false → rest.length < 256 → c.cq = cq →
    x = ovfPlace s cq (ringOf s cq).ovfHead → pathUp s (ovfWho cq) (readDie s x.1) = true →
    ∃ t, exec (.overflowDrain cq) s = .next t ∧
      (hbmReady s (readDie s x.1) x.2 32 (ovfWho cq) = true → (ringOf t cq).ovf.map (·.tag) = rest.map (·.tag) ∧
        (c.kind ≠ 1 → (ringOf t cq).ovf = rest) ∧ getF t F.RING_CQ_STAT_OVF (ringO cq) = rest.length) ∧
      (hbmReady s (readDie s x.1) x.2 32 (ovfWho cq) = false → (ringOf t cq).ovf = c :: rest ∧ cqPi t cq = cqPi s cq)) ∧
  (∀ s cq k, isSet s F.RING_CQ_CFG_IRQ_EN (ringO cq) = true → getF s F.RING_CQ_CFG_COAL_FC (ringO cq) ≠ 0 → 0 < (ringOf s cq).pending →
    resetting s (ringOwner s cq) = false → k = ringOwner s cq * 2048 + getF s F.RING_CQ_CFG_VECTOR (ringO cq) → k ∈ s.rings.unmasked →
    ∃ t, exec (.coalesceTimeout cq) s = .next t ∧ (ringOf t cq).pending = 0 ∧ t.regs = s.regs ∧
      t.out = s.out ++ [.msix (ringOwner s cq) (getF s F.RING_CQ_CFG_VECTOR (ringO cq))
        (Tbl.getD s.rings.msixTable (k * 4) 0 + Tbl.getD s.rings.msixTable (k * 4 + 1) 0 * 2 ^ 32)
        (Tbl.getD s.rings.msixTable (k * 4 + 2) 0)]) ∧
  (∀ s fn vec k, resetting s fn = false → vec < 2048 → k = fn * 2048 + vec →
    ∃ t, exec (.msixUnmask fn vec) s = .next t ∧ k ∈ t.rings.unmasked ∧ t.regs = s.regs ∧
      (k ∈ s.rings.pendingBits → t.out = s.out ++ [.msix fn vec
        (Tbl.getD s.rings.msixTable (k * 4) 0 + Tbl.getD s.rings.msixTable (k * 4 + 1) 0 * 2 ^ 32)
        (Tbl.getD s.rings.msixTable (k * 4 + 2) 0)]) ∧
      (k ∉ s.rings.pendingBits → t.out = s.out)) ∧
  (∀ s n b rest, (ringOf s n).posted = b :: rest → b.timeout ≠ 0 → b.first ≠ none →
    ∃ t, exec (.postBufferTimeout n) s = .next t ∧ (ringOf t n).posted = rest ∧ Completed s t n b.cq b.tag 0 0 ∧ t.regs = s.regs)

/-- O36. Rings enable, halt on a bad context, shut down and disable; a ring that has written all it owed is DISABLED in a later CTL
cycle. Completion: sqEnable, cqEnable, sqShutdown, cqDisable, contextParityError. From 12_host_rings.md. -/
def Obligations.RingsEnableAndStop : Prop :=
  (∀ s fn n, n < 65536 → sqState s n = 0 → sqFault s n = 0 →
    ∃ t, exec (.sqEnable fn n) s = .next t ∧ sqState t n = 1 ∧ isSet t F.RING_SQ_CTL_ENABLE (ringO n) = true ∧
      sqPi t n = 0 ∧ sqCi t n = 0 ∧ (ringOf t n).ents = []) ∧
  (∀ s fn n, n < 65536 → sqState s n = 0 → sqFault s n ≠ 0 → halted s = false →
    ∃ t, exec (.sqEnable fn n) s = .next t ∧ halted t = true ∧ sqState t n = 0 ∧
      getF t F.RING_HALT_CAUSE_FIELD 0 = sqFault s n ∧ getF t F.RING_HALT_CAUSE_RING 0 = n) ∧
  (∀ s fn n, n < 65536 → getF s F.RING_CQ_CTL_STATE (ringO n) = 0 → getF s F.RING_OVF_CFG_VALID 0 = 1 → cqFault s n = 0 →
    ∃ t, exec (.cqEnable fn n) s = .next t ∧ getF t F.RING_CQ_CTL_STATE (ringO n) = 1 ∧ cqPi t n = 0 ∧ cqCi t n = 0 ∧
      (ringOf t n).ovf = []) ∧
  (∀ s fn n, n < 65536 → sqState s n = 1 →
    ∃ t, exec (.sqShutdown fn n) s = .next t ∧ sqState t n = 2 ∧ isSet t F.RING_SQ_CTL_ENABLE (ringO n) = false ∧
      (∀ k i, Tbl.get? k s.fab.invs = some i → i.sq = n → i.squash = none → i.done = false →
        ∃ j, Tbl.get? k t.fab.invs = some j ∧ j.squash = some (1, 0x0D07))) ∧
  (∀ s n, s.pending = [] → n < 65536 → sqState s n = 2 → (∃ e ∈ s.rings.rings, e.1 = n) → (ringOf s n).stopAt ≠ some (s.now / 2) →
    sqPi s n = sqCi s n → (ringOf s n).owed = 0 →
    ∃ t, step s = .next t ∧ sqState t n = 0 ∧ (ringOf t n).ents = []) ∧
  (∀ s fn n, n < 65536 → getF s F.RING_CQ_CTL_STATE (ringO n) = 1 → cqBound s n = false → (ringOf s n).ovf = [] →
    ∃ t, exec (.cqDisable fn n) s = .next t ∧ getF t F.RING_CQ_CTL_STATE (ringO n) = 0 ∧
      isSet t F.RING_CQ_CTL_ENABLE (ringO n) = false) ∧
  (∀ s n cq, n < 65536 → halted s = false →
    ∃ t, exec (.contextParityError n cq) s = .next t ∧ halted t = true ∧ isSet t F.RING_EVENT_HALT 0 = true ∧
      getF t F.RING_HALT_CAUSE_RING_KIND 0 = (if cq then 1 else 0) ∧ getF t F.RING_HALT_CAUSE_FIELD 0 = 6 ∧
      getF t F.RING_HALT_CAUSE_RING 0 = n ∧ t.rings.haltFc = wall s)

/-- O37. A plat goes from fetch to check, admission and preload, or fails with its reason; the memory that a removed plat held is
zeroed before the second COMMIT. Completion: platFetchDone, platCheckDone, gauntletAdmit, preloadDone, replaceZeroingDone. From
04_plats.md, 08_timing_promise.md. -/
def Obligations.PlatsAreLoaded : Prop :=
  (∀ s k x image w, k < 4 → slotOf s k = some x → slotPhase s k = 1 → halted s = false →
    w = hbmWrite (sysTraffic s (dieOfPort (pfOf (ringOwner s x.ring))) x.dmaClass x.ring x.tag x.addr
        (hbmAddr (getF s F.PLAT_STAGE_CFG_STACK 0) (getF s F.PLAT_STAGE_CFG_UNIT 0 * 2 ^ 30 + k * 2 ^ 28)) x.len)
      (getF s F.PLAT_STAGE_CFG_STACK 0) (getF s F.PLAT_STAGE_CFG_UNIT 0 * 2 ^ 30 + k * 2 ^ 28) (sub image 0 x.len) 10 0xFFFF →
    (w.2 = 0 → ∃ t, exec (.platFetchDone k true image) s = .next t ∧ slotPhase t k = 2 ∧
      slotOf t k = some { x with image := sub image 0 x.len } ∧ t.hbm = w.1.hbm) ∧
    (w.2 ≠ 0 → ∃ t, exec (.platFetchDone k true image) s = .next t ∧ LoadFailed s t k x stError 0x0505)) ∧
  (∀ s k x image, k < 4 → slotOf s k = some x → slotPhase s k = 1 → halted s = false →
    ∃ t, exec (.platFetchDone k false image) s = .next t ∧ LoadFailed s t k x stError 0x0505 ∧
      getF t F.PLAT_SLOT_FAULT_FAULT_OFFSET (platO k) = 2 ^ 32 - 1) ∧
  (∀ s k x, k < 4 → slotOf s k = some x → slotPhase s k = 2 → halted s = false → checkImage s k x.image x.len x.handle = none →
    ∃ t, exec (.platCheckDone k) s = .next t ∧ slotPhase t k = 3 ∧
      slotOf t k = some { x with plat := some (platOf x.image x.handle), staged := true, order := s.plats.nextOrder } ∧
      t.plats.nextOrder = s.plats.nextOrder + 1) ∧
  (∀ s k x v, k < 4 → slotOf s k = some x → slotPhase s k = 2 → halted s = false → checkImage s k x.image x.len x.handle = some v →
    v.1 < 256 → v.2.1 < 65536 → v.2.2 < 2 ^ 32 →
    ∃ t, exec (.platCheckDone k) s = .next t ∧ LoadFailed s t k x v.1 v.2.1 ∧
      getF t F.PLAT_SLOT_FAULT_FAULT_OFFSET (platO k) = v.2.2) ∧
  (∀ s k x p, k < 4 → slotOf s k = some x → x.plat = some p → slotPhase s k = 3 → halted s = false → admitted s p.handle = false →
    (∀ e ∈ s.plats.slots, e.1 ≠ k → e.2.staged = true → x.order < e.2.order ∨ 3 < slotPhase s e.1 ∨ admitted s e.2.handle = true) →
    (∀ rs, admitTravs s p (countedTravs s) p.travs = (rs, none) →
      ∃ t, exec (.gauntletAdmit k) s = .next t ∧
        t.plats.resv.map (fun r => (r.handle, r.trav)) = (s.plats.resv ++ rs).map (fun r => (r.handle, r.trav))) ∧
    (∀ rs y r b, admitTravs s p (countedTravs s) p.travs = (rs, some (y, r, b)) → r < 65536 →
      ∃ t, exec (.gauntletAdmit k) s = .next t ∧ LoadFailed s t k x stRejected r ∧ isSet t F.GNT_EVENT_REJECT 0 = true)) ∧
  (∀ s k x p, k < 4 → slotOf s k = some x → x.plat = some p → slotPhase s k = 4 → halted s = false →
    zeroReady s (zeroParts s p 1 false) (zeroParts s p 2 false) = true →
    ∃ t, exec (.preloadDone k) s = .next t ∧ slotPhase t k = 5 ∧ slotOf t k = some { x with readyAt := s.now } ∧
      isSet t F.PLAT_EVENT_STAGED 0 = true ∧ ∀ e ∈ zeroParts s p 2 false, UnitZero t e.1 e.2) ∧
  (∀ s k x, slotOf s k = some x → x.twoCommit = 1 → zeroReady s (x.dueOf 1) (x.dueOf 2) = true →
    ∃ t, exec (.replaceZeroingDone k) s = .next t ∧ slotOf t k = some { x with twoCommit := 2, due := [] } ∧ t.regs = s.regs ∧
      ∀ e ∈ x.dueOf 2, UnitZero t e.1 e.2)

/-- O38. FAB_IND_DATA and HBM_IND_DATA read and write the memory at their address register; on a die that is absent or held they
read zero and write nothing. Completion: fabIndDataWrite, fabIndDataRead, hbmIndDataAccess. From 05_fabric.md, 10_hbm_cache.md,
15_twin_power.md, 00_scope.md. -/
def Obligations.MemoriesAreReachedIndirectly : Prop :=
  (∀ s fn tile v, tile < 512 → v < 2 ^ 64 → silentZero s (F.FAB_IND_DATA_DATA.base + tileO tile) = false →
    getF s F.FAB_IND_ADDR_SPACE (tileO tile) = 0 →
    tileEnabled s tile = false ∨ cellCode s (tile * 64 + fabIndOff s tile / 0x8000) = [] →
    ∃ t, exec (.fabIndDataWrite fn tile v) s = .next t ∧
      (∀ d ∈ mirrorDies s (tile / 64), rdWord t 0 (tileOn tile d * 0x200000 + fabIndOff s tile) = BitVec.ofNat 64 v) ∧
      (∀ x, (∀ d ∈ mirrorDies s (tile / 64), x < tileOn tile d * 0x200000 + fabIndOff s tile ∨
        tileOn tile d * 0x200000 + fabIndOff s tile + 8 ≤ x) → rdByte t 0 x = rdByte s 0 x) ∧
      (isSet s F.FAB_IND_ADDR_AUTO_INC (tileO tile) = false → t.regs = s.regs) ∧
      (isSet s F.FAB_IND_ADDR_AUTO_INC (tileO tile) = true →
        getF t F.FAB_IND_ADDR_OFFSET (tileO tile) = (getF s F.FAB_IND_ADDR_OFFSET (tileO tile) + 8) % 2 ^ 21)) ∧
  (∀ s fn tile v w, tile < 512 → v < 2 ^ 64 → silentZero s (F.FAB_IND_DATA_DATA.base + tileO tile) = false →
    getF s F.FAB_IND_ADDR_SPACE (tileO tile) = 0 → tileEnabled s tile = true →
    cellCode s (tile * 64 + fabIndOff s tile / 0x8000) ≠ [] → s.logOff = false →
    w = rdWord s 0 (tileOn tile (readDie s (tile / 64)) * 0x200000 + fabIndOff s tile) →
    ∃ t, exec (.fabIndDataWrite fn tile v) s = .next t ∧ (∀ m x, rdByte t m x = rdByte s m x) ∧
      getF t F.ERR_COUNT_CORRECTED 0 = (if w = BitVec.ofNat 64 v then getF s F.ERR_COUNT_CORRECTED 0
        else min (getF s F.ERR_COUNT_CORRECTED 0 + 1) 65535)) ∧
  (∀ s fn tile v, tile < 512 → silentZero s (F.FAB_IND_DATA_DATA.base + tileO tile) = false →
    getF s F.FAB_IND_ADDR_SPACE (tileO tile) ≠ 0 → s.logOff = false →
    ∃ t, exec (.fabIndDataWrite fn tile v) s = .next t ∧ (∀ m x, rdByte t m x = rdByte s m x) ∧
      getF t F.ERR_COUNT_CORRECTED 0 = min (getF s F.ERR_COUNT_CORRECTED 0 + 1) 65535) ∧
  (∀ s fn tile, tile < 512 → silentZero s (F.FAB_IND_DATA_DATA.base + tileO tile) = false →
    getF s F.FAB_IND_ADDR_SPACE (tileO tile) = 0 →
    ∃ t, exec (.fabIndDataRead fn tile) s = .next t ∧
      t.out = s.out ++ [.access 0 (rdWord s 0 (tileOn tile (readDie s (tile / 64)) * 0x200000 + fabIndOff s tile)).toNat] ∧
      (∀ m x, rdByte t m x = rdByte s m x) ∧
      (isSet s F.FAB_IND_ADDR_AUTO_INC (tileO tile) = false → t.regs = s.regs) ∧
      (isSet s F.FAB_IND_ADDR_AUTO_INC (tileO tile) = true →
        getF t F.FAB_IND_ADDR_OFFSET (tileO tile) = (getF s F.FAB_IND_ADDR_OFFSET (tileO tile) + 8) % 2 ^ 21)) ∧
  (∀ s fn tile i w, tile < 512 → silentZero s (F.FAB_IND_DATA_DATA.base + tileO tile) = false →
    getF s F.FAB_IND_ADDR_SPACE (tileO tile) = 1 → fabIndOff s tile < 0x4000 → i = fabIndOff s tile % 256 / 8 →
    (cellCode s (tileOn tile (readDie s (tile / 64)) * 64 + fabIndOff s tile / 256 % 64))[i]? = some w →
    ∃ t, exec (.fabIndDataRead fn tile) s = .next t ∧ t.out = s.out ++ [.access 0 w]) ∧
  (∀ s fn tile v, silentZero s (F.FAB_IND_DATA_DATA.base + tileO tile) = true →
    exec (.fabIndDataWrite fn tile v) s = .next s ∧
    ∃ t, exec (.fabIndDataRead fn tile) s = .next t ∧ t.out = s.out ++ [.access 0 0] ∧ t.regs = s.regs) ∧
  (∀ s fn d v a, d < 8 → v < 2 ^ 64 → silentZero s (F.HBM_IND_DATA_DATA.base + dieO d) = false →
    getF s F.HBM_IND_ADDR_ADDR (dieO d) / 8 * 8 = a → a < stackC s d → heldBack s d a = false →
    regionHolds s 2 d (a / 2 ^ 30) = false → mirrorDies s d = [d] → spcState s d = 0 → lineAt s d (a / 128) = none →
    pcState s d (pcOf s d a) = 0 → (hpc s d (pcOf s d a)).wq = [] →
    ∃ t bs, exec (.hbmIndDataAccess fn d true v) s = .next t ∧ (hpc t d (pcOf s d a)).wq = [⟨a / 128, bs, 0⟩] ∧
      (∀ i, i < 8 → Tbl.get? (a % 128 + i) bs = (leBytes 8 v)[i]?) ∧ bs.length = 8 ∧ isSet t F.HBM_IND_ADDR_FAULT (dieO d) = false) ∧
  (∀ s fn d v a w l, d < 8 → silentZero s (F.HBM_IND_DATA_DATA.base + dieO d) = false → Tbl.get? d s.hbm.ind = none →
    getF s F.HBM_IND_ADDR_ADDR (dieO d) / 8 * 8 = a → a < stackC s d → brimTable s d a = false → spcState s (readDie s d) ≠ 0 →
    fillOf s (readDie s d) (a / 128) (indWho d) = none → lineAt s (readDie s d) (a / 128) = some (w, l) →
    l.valid &&& sectorsOf (a % 128) (a % 128 + 8) = sectorsOf (a % 128) (a % 128 + 8) →
    ∃ t, exec (.hbmIndDataAccess fn d false v) s = .next t ∧ Tbl.get? d t.hbm.ind = none ∧
      t.out = s.out ++ [.access 0 (leNat ((l.data.take (a % 128 + 8)).drop (a % 128)))] ∧
      isSet t F.HBM_IND_ADDR_FAULT (dieO d) = false) ∧
  (∀ s fn d v a, d < 8 → silentZero s (F.HBM_IND_DATA_DATA.base + dieO d) = false → Tbl.get? d s.hbm.ind = none →
    getF s F.HBM_IND_ADDR_ADDR (dieO d) / 8 * 8 = a → a < stackC s d → brimTable s d a = false → spcState s (readDie s d) = 0 →
    fillOf s (readDie s d) (a / 128) (indWho d) = none → lineAt s (readDie s d) (a / 128) = none →
    lineState s (readDie s d) (a / 128) = 0 →
    (hpc s (readDie s d) (pcOf s (readDie s d) (a / 128 * 128))).rq.length < 48 →
    ∃ t f, exec (.hbmIndDataAccess fn d false v) s = .next t ∧ Tbl.get? d t.hbm.ind = some (0, 8) ∧ t.out = s.out ∧
      t.hbm.fills = s.hbm.fills ++ [f] ∧ f.die = readDie s d ∧ f.line = a / 128 ∧ f.who = some (indWho d)) ∧
  (∀ s fn d v, d < 8 → silentZero s (F.HBM_IND_DATA_DATA.base + dieO d) = false → Tbl.get? d s.hbm.ind = none →
    stackC s d ≤ getF s F.HBM_IND_ADDR_ADDR (dieO d) / 8 * 8 →
    ∃ t, exec (.hbmIndDataAccess fn d false v) s = .next t ∧ t.out = s.out ++ [.access 0 0] ∧
      isSet t F.HBM_IND_ADDR_FAULT (dieO d) = true ∧ ∀ m x, rdByte t m x = rdByte s m x) ∧
  (∀ s fn d v, silentZero s (F.HBM_IND_DATA_DATA.base + dieO d) = true →
    exec (.hbmIndDataAccess fn d true v) s = .next s ∧
    ∃ t, exec (.hbmIndDataAccess fn d false v) s = .next t ∧ t.out = s.out ++ [.access 0 0] ∧ t.regs = s.regs)

/-- O39. A DMA transfer starts, reads, writes beat by beat and completes. Completion: dmaTransferStart, dmaReadBurst, dmaReadReturn,
dmaWriteBeat, dmaWriteAck. From 13_dma.md. -/
def Obligations.DmaTransfersRun : Prop :=
  (∀ s d n x rest, d < 8 → n < 64 → chanOn s d n = true → (chanSt s d n).cur = none → (chanSt s d n).queue = x :: rest → halted s = false →
    ∃ t, exec (.dmaTransferStart d n) s = .next t ∧ (chanSt t d n).cur = some x ∧ (chanSt t d n).queue = rest ∧
      getF t F.DMA_SRC_SRC (dmaO d n) = x.src % 2 ^ 64 ∧ getF t F.DMA_DST_DST (dmaO d n) = x.dst % 2 ^ 64 ∧
      getF t F.DMA_COUNT_COUNT (dmaO d n) = x.len % 2 ^ 32 ∧ getF t F.DMA_COUNT_WRITTEN (dmaO d n) = 0 ∧
      isSet t F.DMA_CTL_ACTIVE (dmaO d n) = true) ∧
  (∀ s d n x off len, (chanSt s d n).cur = some x → (chanSt s d n).fault = none → (chanSt s d n).squash = none →
    getF s F.DMA_COUNT_COUNT (dmaO d n) ≠ 0 → halted s = false → off = x.len - getF s F.DMA_COUNT_COUNT (dmaO d n) →
    burstLen s x off (getF s F.DMA_COUNT_COUNT (dmaO d n)) = len → (chanSt s d n).beats + ceilDiv len 64 ≤ 32 →
    ∃ t, exec (.dmaReadBurst d n) s = .next t ∧ (chanSt t d n).infl = (chanSt s d n).infl ++ [⟨off, len⟩] ∧
      getF t F.DMA_COUNT_COUNT (dmaO d n) = (getF s F.DMA_COUNT_COUNT (dmaO d n) - len) % 2 ^ 32 ∧
      (isHost x.src = true → t.out = s.out ++ [.hostRead (pfOf x.fn) x.fn (x.src + off) len (x.noSnoop && mayNoSnoop s x.fn)]) ∧
      (isHost x.src = false → t.out = s.out)) ∧
  (∀ s d n x b rest data, (chanSt s d n).cur = some x → (chanSt s d n).infl = b :: rest → (chanSt s d n).fault = none →
    (chanSt s d n).squash = none → isHost x.src = true →
    (∃ t, exec (.dmaReadReturn d n true data) s = .next t ∧ (chanSt t d n).infl = rest ∧
      (chanSt t d n).buf = (chanSt s d n).buf ++ beatsOf 8 b.off (sub data 0 b.len) ∧ t.regs = s.regs) ∧
    (∃ t, exec (.dmaReadReturn d n false data) s = .next t ∧ (chanSt t d n).buf = (chanSt s d n).buf ∧
      (chanSt t d n).fault = some (stError, rsnHostRead, x.src + b.off) ∧ t.regs = s.regs)) ∧
  (∀ s d n ok data x b rest u got e, (chanSt s d n).cur = some x → (chanSt s d n).infl = b :: rest → (chanSt s d n).fault = none →
    (chanSt s d n).squash = none → isHost x.src = false →
    (addrReady s (x.src + b.off) b.len (chanWho d n) = false →
      ∃ t, exec (.dmaReadReturn d n ok data) s = .next t ∧ chanSt t d n = chanSt s d n) ∧
    (addrReady s (x.src + b.off) b.len (chanWho d n) = true →
      readBeats 8 s x.fn (x.src + b.off) b.len (chanWho d n) [] = (u, got, e) →
      ∃ t, exec (.dmaReadReturn d n ok data) s = .next t ∧ (chanSt t d n).infl = rest ∧
        (chanSt t d n).buf = (chanSt s d n).buf ++ beatsOf 8 b.off got ∧
        (chanSt t d n).fault = e.map (fun y => (y.1, y.2, x.src + b.off + got.length)))) ∧
  (∀ s d n x off b rest, d < 8 → halted s = false → pickChan s d = some n → (chanSt s d n).cur = some x → (chanSt s d n).buf = (off, b) :: rest →
    isHost x.dst = true → isHost (x.dst + off) = true →
    ∃ t, exec (.dmaWriteBeat d) s = .next t ∧ (chanSt t d n).buf = rest ∧
      t.out = s.out ++ [.hostWrite (pfOf x.fn) x.fn (x.dst + off) b (x.relaxed && mayRelax s x.fn) (x.noSnoop && mayNoSnoop s x.fn)] ∧
      getF t F.DMA_COUNT_WRITTEN (dmaO d n) = (getF s F.DMA_COUNT_WRITTEN (dmaO d n) + b.length) % 2 ^ 32 ∧
      getF t F.DMA_BEATS_BEATS (dieO d) = (getF s F.DMA_BEATS_BEATS (dieO d) + 1) % 2 ^ 64) ∧
  (∀ s d n x off b rest, d < 8 → halted s = false → pickChan s d = some n → (chanSt s d n).cur = some x → (chanSt s d n).buf = (off, b) :: rest →
    isHost x.dst = false →
    (beatRoom s d n = false → exec (.dmaWriteBeat d) s = .next s) ∧
    (beatRoom s d n = true → ∃ t, exec (.dmaWriteBeat d) s = .next t ∧ t.out = s.out ∧
      getF t F.DMA_COUNT_WRITTEN (dmaO d n) = (getF s F.DMA_COUNT_WRITTEN (dmaO d n) + b.length) % 2 ^ 32 ∧
      ((chanSt t d n).buf = rest ∧ (chanSt t d n).fault = (chanSt s d n).fault ∨
        (chanSt t d n).buf = [] ∧ ∃ st rsn, (chanSt t d n).fault = some (st, rsn, x.dst + off)))) ∧
  (∀ s d, pickChan s d = none → exec (.dmaWriteBeat d) s = .next s) ∧
  (∀ s d n x, d < 8 → n < 64 → (chanSt s d n).cur = some x → (chanSt s d n).buf = [] → (chanSt s d n).infl = [] → (chanSt s d n).fault = none →
    (chanSt s d n).squash = none → halted s = false → getF s F.DMA_COUNT_COUNT (dmaO d n) = 0 → x.cq < 65536 →
    ∃ t, exec (.dmaWriteAck d n) s = .next t ∧ (chanSt t d n).cur = none ∧ isSet t F.DMA_CTL_ACTIVE (dmaO d n) = false ∧
      Completed s t x.sq x.cq x.tag 0 0) ∧
  (∀ s d n x q, d < 8 → n < 64 → (chanSt s d n).cur = some x → (chanSt s d n).buf = [] → (chanSt s d n).fault = none →
    (chanSt s d n).squash = some q → halted s = false → x.cq < 65536 →
    ∃ t, exec (.dmaWriteAck d n) s = .next t ∧ (chanSt t d n).cur = none ∧ (chanSt t d n).squash = none ∧
      Completed s t x.sq x.cq x.tag q.1 q.2) ∧
  (∀ s d n x f, d < 8 → n < 64 → (chanSt s d n).cur = some x → (chanSt s d n).buf = [] → (chanSt s d n).fault = some f → halted s = false →
    f.1 < 256 → f.2.1 < 65536 → f.2.2 < 2 ^ 64 → x.cq < 65536 →
    ∃ t, exec (.dmaWriteAck d n) s = .next t ∧ (chanSt t d n).cur = none ∧ isSet t F.DMA_EVENT_ERROR (dieO d) = true ∧
      getF t F.DMA_FAULT_FAULT_ADDR (dmaO d n) = f.2.2 ∧ getF t F.DMA_ERR_STATUS (dmaO d n) = f.1 ∧
      getF t F.DMA_ERR_REASON (dmaO d n) = f.2.1 ∧ Completed s t x.sq x.cq x.tag f.1 f.2.1)

/-- O40. DMA channels and spill caches are enabled, disabled, drained and drop what they hold. Completion: channelEnable,
channelDisable, cacheEnable, cacheDrain, cacheDrained. From 13_dma.md, 10_hbm_cache.md, 08_timing_promise.md. -/
def Obligations.ChannelsAndCachesAreEnabled : Prop :=
  (∀ s fn d n, d < 8 → n < 63 → chanOn s d n = false →
    ∃ t, exec (.channelEnable fn d n) s = .next t ∧ chanOn t d n = true ∧ chanSt t d n = { creditAt := s.now } ∧
      RegsOnly (fun k => k = fkey F.DMA_CTL_ENABLE (dmaO d n)) s t) ∧
  (∀ s fn d n, n < 63 → chanOn s d n = true → exec (.channelEnable fn d n) s = .next s) ∧
  (∀ s fn d n, n < 63 → chanOn s d n = false → exec (.channelDisable fn d n) s = .next s) ∧
  (∀ s fn d n, d < 8 → n < 63 → chanOn s d n = true → (chanSt s d n).cur = none → (chanSt s d n).queue = [] →
    ∃ t, exec (.channelDisable fn d n) s = .next t ∧ chanOn t d n = false ∧ chanSt t d n = {} ∧ t.out = s.out) ∧
  (∀ s fn d n x, d < 8 → n < 63 → chanOn s d n = true → (chanSt s d n).cur = none → (chanSt s d n).queue = [x] → x.cq < 65536 →
    ∃ t, exec (.channelDisable fn d n) s = .next t ∧ chanOn t d n = false ∧ chanSt t d n = {} ∧
      isSet t F.DMA_EVENT_DROPPED (dieO d) = true ∧ Completed s t x.sq x.cq x.tag stAborted rsnChanDisabled) ∧
  (∀ s fn d n x, d < 8 → n < 63 → chanOn s d n = true → (chanSt s d n).cur = some x → (chanSt s d n).queue = [] → x.cq < 65536 →
    ∃ t, exec (.channelDisable fn d n) s = .next t ∧ chanOn t d n = false ∧ chanSt t d n = {} ∧
      isSet t F.DMA_EVENT_DROPPED (dieO d) = true ∧ Completed s t x.sq x.cq x.tag stAborted rsnChanDisabled) ∧
  (∀ s fn d n c, c = .channelEnable fn d n ∨ c = .channelDisable fn d n → d < 8 → n = 63 → s.logOff = false →
    ∃ t, exec c s = .next t ∧ chanOn t d n = chanOn s d n ∧ t.dma = s.dma ∧
      getF t F.ERR_COUNT_CORRECTED 0 = min (getF s F.ERR_COUNT_CORRECTED 0 + 1) 65535) ∧
  (∀ s fn d, d < 8 → spcState s d = 1 → ¬ (d = 0 ∧ s.plats.resv ≠ []) →
    ((spcOf s d).cmds = [] → ∃ t, exec (.cacheDrain fn d) s = .next t ∧ spcState t d = 2 ∧ isSet t F.SPC_CTL_ENABLE (dieO d) = false ∧
      t.hbm = s.hbm) ∧
    ((spcOf s d).cmds ≠ [] → ∃ t, exec (.cacheDrain fn d) s = .next t ∧ spcState t d = 1 ∧ isSet t F.SPC_CTL_ENABLE (dieO d) = false ∧
      t.hbm = s.hbm)) ∧
  (∀ s fn, spcState s 0 = 1 → s.plats.resv ≠ [] → s.logOff = false →
    ∃ t, exec (.cacheDrain fn 0) s = .next t ∧ spcState t 0 = 1 ∧ t.hbm = s.hbm ∧
      isSet t F.SPC_CTL_ENABLE (dieO 0) = isSet s F.SPC_CTL_ENABLE (dieO 0) ∧
      getF t F.ERR_COUNT_CORRECTED 0 = min (getF s F.ERR_COUNT_CORRECTED 0 + 1) 65535) ∧
  (∀ s fn d, spcState s d ≠ 1 → exec (.cacheDrain fn d) s = .next s) ∧
  (∀ s d, d < 8 → spcState s d = 2 → (∀ e ∈ (spcOf s d).lines, heldLine s d (keyLine e.1 e.2.tag) e.2 = false) →
    ∃ t, exec (.cacheDrained d) s = .next t ∧ spcState t d = 0 ∧ (spcOf t d).lines = [] ∧ getF t F.SPC_STAT_LOCKED (dieO d) = 0 ∧
      isSet t F.SPC_EVENT_DRAINED (dieO d) = true) ∧
  (∀ s d, (∃ e ∈ (spcOf s d).lines, heldLine s d (keyLine e.1 e.2.tag) e.2 = true) → exec (.cacheDrained d) s = .next s) ∧
  (∀ s fn d, d < 8 → spcState s d = 0 →
    ∃ t, exec (.cacheEnable fn d) s = .next t ∧ spcState t d = 1 ∧ isSet t F.SPC_CTL_ENABLE (dieO d) = true ∧
      getF t F.SPC_STAT_LOCKED (dieO d) = 0 ∧ (spcOf t d).lines = [] ∧ t.hbm.pcs = s.hbm.pcs) ∧
  (∀ s fn d, d < 8 → spcState s d = 2 → s.logOff = false →
    ∃ t, exec (.cacheEnable fn d) s = .next t ∧ spcState t d = 2 ∧ t.hbm = s.hbm ∧
      getF t F.ERR_COUNT_CORRECTED 0 = min (getF s F.ERR_COUNT_CORRECTED 0 + 1) 65535)

/-- O41. Codec jobs, DECODE columns and capture blocks go on by one block; a job whose last block is written completes with the next
command of its engine. Completion: codecBlockDone, decodeBlock, captureBlock. From 11_codec.md, 06_operators.md. -/
def Obligations.CodecJobsColumnsAndCaptureRun : Prop :=
  (∀ s d e j rest n host, d < 8 → e < 4 → engWork s (engKey d e) = 3 → jobsOf s (engKey d e) = j :: rest → j.comp = true → isHost (j.src + j.inDone) = true →
    isHost (j.dst + (j.outDone - j.outBase)) = true → min 4096 (j.srcLen - j.inDone) = n → 0 < n →
    j.outDone - j.outBase + (encodeBlock (leWords (sub host 0 n))).length ≤ j.dstLen →
    ∃ t blk, exec (.codecBlockDone d e host false) s = .next t ∧ blk = encodeBlock (leWords (sub host 0 n)) ∧
      t.out = s.out ++ [.hostRead (pfOf j.fn) j.fn (j.src + j.inDone) n false,
        .hostWrite (pfOf j.fn) j.fn (j.dst + (j.outDone - j.outBase)) blk false false] ∧
      getF t F.CDC_BYTES_OUT_BYTES (engO (engKey d e)) = (getF s F.CDC_BYTES_OUT_BYTES (engO (engKey d e)) + blk.length) % 2 ^ 64 ∧
      jobsOf t (engKey d e) = { j with inDone := j.inDone + n, outDone := j.outDone + blk.length } :: rest) ∧
  (∀ s d e j rest n host, d < 8 → e < 4 → engWork s (engKey d e) = 3 → jobsOf s (engKey d e) = j :: rest → j.comp = true → isHost (j.src + j.inDone) = true →
    min 4096 (j.srcLen - j.inDone) = n → 0 < n → j.cq < 65536 →
    j.dstLen < j.outDone - j.outBase + (encodeBlock (leWords (sub host 0 n))).length →
    ∃ t, exec (.codecBlockDone d e host false) s = .next t ∧ jobsOf t (engKey d e) = rest ∧
      Completed s t j.sq j.cq j.tag stOutputFull rsnDstFull) ∧
  (∀ s d e j rest xs host, d < 8 → e < 4 → engWork s (engKey d e) = 3 → jobsOf s (engKey d e) = j :: rest → j.comp = false →
    isHost (j.src + j.inDone + 16) = true → isHost (j.dst + (j.outDone - j.outBase)) = true → 0 < xs.length → xs.length ≤ 512 →
    (encodeBlock xs).length ≤ j.srcLen - j.inDone → sub host 0 (encodeBlock xs).length = encodeBlock xs →
    j.outDone + 8 * xs.length ≤ j.limit → 8 * xs.length ≤ j.dstLen - (j.outDone - j.outBase) →
    ∃ t, exec (.codecBlockDone d e host false) s = .next t ∧
      (.hostWrite (pfOf j.fn) j.fn (j.dst + (j.outDone - j.outBase)) (wordBytes xs) false false) ∈ t.out ∧
      jobsOf t (engKey d e) = { j with inDone := j.inDone + (encodeBlock xs).length, outDone := j.outDone + 8 * xs.length } :: rest) ∧
  (∀ s d e j rest host, d < 8 → e < 4 → engWork s (engKey d e) = 3 → jobsOf s (engKey d e) = j :: rest → j.inDone < j.srcLen →
    isHost (j.src + j.inDone) = true →
    ∃ t, exec (.codecBlockDone d e host true) s = .next t ∧ jobsOf t (engKey d e) = rest ∧ Completed s t j.sq j.cq j.tag stError rsnHostRead) ∧
  (∀ s d e j rest, engWork s (engKey d e) = 3 → e < 4 → jobsOf s (engKey d e) = j :: rest → j.srcLen ≤ j.inDone →
    ∃ t, exec (.codecBlockDone d e [] false) s = .next t ∧ jobsOf t (engKey d e) = rest ∧ Completed s t j.sq j.cq j.tag 0 0 ∧ t.regs = s.regs) ∧
  (∀ s d e c host xs, d < 8 → e < 4 → engWork s (engKey d e) = 1 → nextCol s (engKey d e) = some c → c.inDone < c.len →
    isHost (c.addr + c.inDone + 16) = true → 0 < xs.length → xs.length ≤ 512 → (encodeBlock xs).length ≤ c.len - c.inDone →
    c.outDone + 8 * xs.length ≤ c.limit → sub host 0 (encodeBlock xs).length = encodeBlock xs →
    ∃ t k, exec (.decodeBlock d e host false) s = .next t ∧ k ∈ t.cdc.cols ∧ k.inv = c.inv ∧ k.col = c.col ∧
      k.buf = c.buf ++ xs ∧ k.inDone = c.inDone + (encodeBlock xs).length ∧ k.outDone = c.outDone + 8 * xs.length ∧
      k.done = decide (c.limit ≤ c.outDone + 8 * xs.length) ∧
      getF t F.CDC_BYTES_OUT_BYTES (engO (engKey d e)) = (getF s F.CDC_BYTES_OUT_BYTES (engO (engKey d e)) + 8 * xs.length) % 2 ^ 64) ∧
  (∀ s d e c host, d < 8 → e < 4 → engWork s (engKey d e) = 1 → nextCol s (engKey d e) = some c → c.len ≤ c.inDone →
    ∃ t k, exec (.decodeBlock d e host false) s = .next t ∧ k ∈ t.cdc.cols ∧ k.inv = c.inv ∧ k.col = c.col ∧ k.done = true ∧
      isSet t F.CDC_EVENT_SHORT (engO (engKey d e)) = true) ∧
  (∀ s d e b rest, engWork s (engKey d e) = 2 → e < 4 → capsOf s (engKey d e) = b :: rest → (∀ p ∈ s.plats.active, p.handle ≠ b.handle) →
    ∃ t, exec (.captureBlock d e) s = .next t ∧ capsOf t (engKey d e) = rest ∧ t.regs = s.regs ∧ t.hbm = s.hbm) ∧
  (∀ s d e b rest p r, engWork s (engKey d e) = 2 → e < 4 → capsOf s (engKey d e) = b :: rest →
    s.plats.active.find? (fun p => p.handle == b.handle) = some p → capturePart s p d = some r →
    (∀ a, hbmRoom s r.die a (encodeBlock b.xs).length 8 (fnWays s p.owner) = true) →
    ∃ t, exec (.captureBlock d e) s = .next t ∧ capsOf t (engKey d e) = rest ∧ t.plats = s.plats ∧ t.nonce = s.nonce + 1 ∧
      (∀ x, rdByte t 0 x = rdByte s 0 x) ∧ ∀ x, rdByte t 1 x = rdByte s 1 x)

/-- O42. A stack SRAM channel serves READ, WRITE and INSERT, and answers an uncorrectable entry poisoned; a row whose entry would read
as empty marks its context. Completion: srqServe. From 09_stack_sram.md, 06_operators.md. -/
def Obligations.StackSramServes : Prop :=
  ∀ s d ch ce ue syn r rest, d < 8 → ch < 16 → (srmCh s (d * 16 + ch)).queue = r :: rest → isSet s F.SRM_CTL_ENABLE (dieO d) = true →
    chState s (d * 16 + ch) = 0 →
  (r.kind = .srqWrite → ∃ u, exec (.srqServe d ch ce ue syn) s = .next (answerReq u r (lane0 (num r.off)) false) ∧
    (srmCh u (d * 16 + ch)).queue = rest ∧ EntryHolds u r.addr r.data ∧ OnlyBytes 1 (r.addr / 32 * 32) 32 s u ∧
    getF u F.SRM_CH_LOAD_SERVED (chO (d * 16 + ch)) = (getF s F.SRM_CH_LOAD_SERVED (chO (d * 16 + ch)) + 1) % 2 ^ 32) ∧
  (r.kind = .srqRead → EntryGood s r.addr ue → ∃ u, exec (.srqServe d ch ce ue syn) s = .next (answerReq u r
      (Lanes.ofFn (fun i => if i < 4 then some (rdWord s 1 (r.addr / 32 * 32 + 8 * i)) else r.data.get (i - 4))) false) ∧
    (srmCh u (d * 16 + ch)).queue = rest ∧ ∀ x, rdByte u 1 x = rdByte s 1 x) ∧
  (r.kind = .srqInsert → EntryGood s r.addr ue → (∀ i, i < 32 → rdByte s 1 (r.addr / 32 * 32 + i) = 0) →
    ∃ u, exec (.srqServe d ch ce ue syn) s = .next (answerReq u r
      (Lanes.ofFn (fun i => if i < 4 then some 0 else if i = 4 then num 1 else none)) false) ∧
    (srmCh u (d * 16 + ch)).queue = rest ∧ EntryHolds u r.addr r.data ∧ OnlyBytes 1 (r.addr / 32 * 32) 32 s u) ∧
  (r.kind = .srqInsert → EntryGood s r.addr ue → (∃ i, i < 32 ∧ rdByte s 1 (r.addr / 32 * 32 + i) ≠ 0) →
    ∃ u, exec (.srqServe d ch ce ue syn) s = .next (answerReq u r
      (Lanes.ofFn (fun i => if i < 4 then some (rdWord s 1 (r.addr / 32 * 32 + 8 * i)) else if i = 4 then num 0 else none)) false) ∧
    (srmCh u (d * 16 + ch)).queue = rest ∧ ∀ x, rdByte u 1 x = rdByte s 1 x) ∧
  (r.kind = .srqInsert → EntryGood s r.addr ue → buildsTable s r = true → (∀ i, i < 4 → laneVal (r.data.get i) = 0) → r.dead = false →
    ctxKind r.ctx = 1 → (∀ i, Tbl.get? (ctxInvNum r.ctx) s.fab.invs = some i → i.mark = none → i.squash = none →
    ∃ t j, exec (.srqServe d ch ce ue syn) s = .next t ∧ Tbl.get? (ctxInvNum r.ctx) t.fab.invs = some j ∧
      j.mark = some (stError, 0x0624))) ∧
  (r.kind = .srqRead ∨ r.kind = .srqInsert → (∃ w ∈ entryWords r.addr, hasUe s w = true) → r.addr / 2 ^ 26 = d * 16 + ch →
    ∃ u lanes, exec (.srqServe d ch ce ue syn) s = .next (answerReq u r lanes true) ∧ (∀ x, rdByte u 1 x = rdByte s 1 x) ∧
      isSet u F.SRM_EVENT_UNCORRECTABLE (dieO d) = true ∧
      getF u F.SRM_CH_ECC_UE (chO (d * 16 + ch)) = min (getF s F.SRM_CH_ECC_UE (chO (d * 16 + ch)) + 1) 65535 ∧
      getF u F.SRM_CH_UE_ENTRY (chO (d * 16 + ch)) = r.addr % 2 ^ 26 / 32)

/-- O43. ECC writeback, slice zeroing, the scrub pointer and SRM_IND_DATA. Completion: eccWriteback, sliceZeroingDone, sramScrubRead,
srmIndDataAccess. From 09_stack_sram.md. -/
def Obligations.StackSramMaintains : Prop :=
  (∀ s d ch e rest, chState s (d * 16 + ch) = 0 → (srmCh s (d * 16 + ch)).wb = e :: rest →
    ∃ t, exec (.eccWriteback d ch) s = .next t ∧ (srmCh t (d * 16 + ch)).wb = rest ∧ t.regs = s.regs ∧ t.srm.mem = s.srm.mem ∧
      ∀ w, hasCe t w = (hasCe s w && w / 4 != e)) ∧
  (∀ s d sl, d < 8 → sl < 16 → chState s (d * 16 + sl) = 0 →
    Tbl.get? (d * 16 + sl) s.srm.zeroing = some 0 ∨ Tbl.get? (d * 16 + sl) s.srm.zeroing = some 1 →
    ∃ t, exec (.sliceZeroingDone d sl) s = .next t ∧ (∀ i, i < 2 ^ 26 → rdByte t 1 ((d * 16 + sl) * 2 ^ 26 + i) = 0) ∧
      OnlyBytes 1 ((d * 16 + sl) * 2 ^ 26) (2 ^ 26) s t ∧ t.regs = s.regs ∧
      Tbl.get? (d * 16 + sl) t.srm.zeroing ≠ some 0 ∧ Tbl.get? (d * 16 + sl) t.srm.zeroing ≠ some 1) ∧
  (∀ s d ch ce ue syn, d < 8 → ch < 16 → isSet s F.SRM_CTL_SCRUB_EN (dieO d) = true → chState s (d * 16 + ch) = 0 →
    ∃ t, exec (.sramScrubRead d ch ce ue syn) s = .next t ∧
      (srmCh t (d * 16 + ch)).scrub = ((srmCh s (d * 16 + ch)).scrub + 1) % 2 ^ 21 ∧ ∀ x, rdByte t 1 x = rdByte s 1 x) ∧
  (∀ s fn d v, d < 8 → v < 2 ^ 64 → silentZero s (F.SRM_IND_DATA_DATA.base + dieO d) = false →
    regionHolds s 1 d (getF s F.SRM_IND_ADDR_SLICE (dieO d)) = false →
    (∀ e ∈ mirrorDies s d, chState s (chanOf (srmIndAddr s d e)) = 0) →
    ∃ t, exec (.srmIndDataAccess fn d true v) s = .next t ∧
      (∀ e ∈ mirrorDies s d, rdWord t 1 (srmIndAddr s d e) = BitVec.ofNat 64 v ∧ hasUe t (srmIndAddr s d e / 8) = false) ∧
      (∀ x, (∀ e ∈ mirrorDies s d, x < srmIndAddr s d e ∨ srmIndAddr s d e + 8 ≤ x) → rdByte t 1 x = rdByte s 1 x) ∧
      (isSet s F.SRM_IND_ADDR_AUTO_INC (dieO d) = false → t.regs = s.regs)) ∧
  (∀ s fn d v, d < 8 → v < 2 ^ 64 → silentZero s (F.SRM_IND_DATA_DATA.base + dieO d) = false →
    regionHolds s 1 d (getF s F.SRM_IND_ADDR_SLICE (dieO d)) = true → s.logOff = false →
    ∃ t, exec (.srmIndDataAccess fn d true v) s = .next t ∧ (∀ m x, rdByte t m x = rdByte s m x) ∧
      getF t F.ERR_COUNT_CORRECTED 0 = (if rdWord s 1 (srmIndAddr s d (readDie s d)) = BitVec.ofNat 64 v
        then getF s F.ERR_COUNT_CORRECTED 0 else min (getF s F.ERR_COUNT_CORRECTED 0 + 1) 65535)) ∧
  (∀ s fn d v, silentZero s (F.SRM_IND_DATA_DATA.base + dieO d) = true →
    exec (.srmIndDataAccess fn d true v) s = .next s ∧
    ∃ t, exec (.srmIndDataAccess fn d false v) s = .next t ∧ t.out = s.out ++ [.access 0 0] ∧ t.regs = s.regs) ∧
  (∀ s fn d v, d < 8 → silentZero s (F.SRM_IND_DATA_DATA.base + dieO d) = false →
    chState s (chanOf (srmIndAddr s d (readDie s d))) = 0 → hasUe s (srmIndAddr s d (readDie s d) / 8) = false →
    ∃ t, exec (.srmIndDataAccess fn d false v) s = .next t ∧
      t.out.getLast? = some (.access 0 (rdWord s 1 (srmIndAddr s d (readDie s d))).toNat) ∧
      isSet t F.SRM_IND_ADDR_UE (dieO d) = false ∧ ∀ x, rdByte t 1 x = rdByte s 1 x)

/-- O44. Stack SRAM channels freeze on parity, reset, fence and return. Completion: sramParityFreeze, sramChannelReset,
sramChannelResetDone, sramFence. From 09_stack_sram.md. -/
def Obligations.StackSramChannelsFreezeAndReset : Prop :=
  (∀ s d ch wd r rest, d < 8 → ch < 16 → (srmCh s (d * 16 + ch)).queue = r :: rest → chState s (d * 16 + ch) = 0 →
    ∃ t, exec (.sramParityFreeze d ch wd) s = .next t ∧ chState t (d * 16 + ch) = 1 ∧ (srmCh t (d * 16 + ch)).queue = [] ∧
      getF t F.SRM_CH_STAT_FREEZE_CAUSE (chO (d * 16 + ch)) = (if wd && r.kind.writes then 2 else 1) ∧
      getF t F.SRM_CH_FRZ_ENTRY (chO (d * 16 + ch)) = r.addr % 2 ^ 26 / 32 ∧
      getF t F.SRM_CH_FRZ_GCELL (chO (d * 16 + ch)) = r.cell % 2 ^ 15 ∧ isSet t F.SRM_EVENT_FROZEN (dieO d) = true) ∧
  (∀ s d ch, d < 8 → ch < 16 → chState s (d * 16 + ch) ≠ 2 →
    ∃ t, exec (.sramChannelReset d ch) s = .next t ∧ chState t (d * 16 + ch) = 2 ∧ (srmCh t (d * 16 + ch)).queue = [] ∧
      isSet t F.SRM_CH_CTL_RESET (chO (d * 16 + ch)) = true ∧ getF t F.SRM_CH_STAT_QUEUED (chO (d * 16 + ch)) = 0 ∧
      ∀ m x, rdByte t m x = rdByte s m x) ∧
  (∀ s d ch, d < 8 → ch < 16 → chState s (d * 16 + ch) = 2 → isSet s F.SRM_CH_CTL_FENCE (chO (d * 16 + ch)) = false →
    ∃ t, exec (.sramChannelResetDone d ch true) s = .next t ∧ chState t (d * 16 + ch) = 0 ∧
      isSet t F.SRM_CH_CTL_RESET (chO (d * 16 + ch)) = false ∧ getF t F.SRM_CH_STAT_FREEZE_CAUSE (chO (d * 16 + ch)) = 0 ∧
      t.srm = s.srm) ∧
  (∀ s d ch, d < 8 → ch < 16 → chState s (d * 16 + ch) = 2 →
    ∃ t, exec (.sramChannelResetDone d ch false) s = .next t ∧ chState t (d * 16 + ch) = 3 ∧
      getF t F.SRM_CH_STAT_FREEZE_CAUSE (chO (d * 16 + ch)) = 3 ∧ isSet t F.SRM_EVENT_FENCED (dieO d) = true) ∧
  (∀ s d ch, d < 8 → ch < 16 → chState s (d * 16 + ch) ≠ 2 → chState s (d * 16 + ch) ≠ 3 →
    ∃ t, exec (.sramFence d ch true) s = .next t ∧ chState t (d * 16 + ch) = 3 ∧ (srmCh t (d * 16 + ch)).queue = [] ∧
      isSet t F.SRM_CH_CTL_FENCE (chO (d * 16 + ch)) = true ∧ isSet t F.SRM_EVENT_FENCED (dieO d) = true) ∧
  (∀ s d ch, d < 8 → ch < 16 → chState s (d * 16 + ch) ≠ 2 → isSet s F.SRM_CH_CTL_FENCE (chO (d * 16 + ch)) = true →
    ∃ t, exec (.sramFence d ch false) s = .next t ∧ chState t (d * 16 + ch) = 2 ∧
      isSet t F.SRM_CH_CTL_FENCE (chO (d * 16 + ch)) = false ∧ isSet t F.SRM_CH_CTL_RESET (chO (d * 16 + ch)) = true)

/-- O45. HBM issues reads and writes, corrects, retries, and freezes on the errors that remain; a freeze answers the reads in flight.
Completion: hbmReadIssue, hbmWriteIssue, hbmReadReturn, hbmParityError, hbmWriteCrcError. From 10_hbm_cache.md. -/
def Obligations.HbmIssuesReadsAndWrites : Prop :=
  (∀ s d c i e, d < 8 → c < 32 → pickRead (hpc s d c) = some i → (hpc s d c).rq[i]? = some e → pcState s d c = 0 →
    isSet s F.HBM_STACK_CTL_ENABLE (dieO d) = true →
    ∃ t, exec (.hbmReadIssue d c) s = .next t ∧ (hpc t d c).infl = (hpc s d c).infl ++ [e] ∧ (hpc t d c).rq = (hpc s d c).rq.eraseIdx i ∧
      getF t F.HBM_PC_LOAD_ACCESSES (pcO d c) = (getF s F.HBM_PC_LOAD_ACCESSES (pcO d c) + 1) % 2 ^ 32 ∧
      RegsOnly (fun k => k = fkey F.HBM_PC_LOAD_ACCESSES (pcO d c)) s t) ∧
  (∀ s d c n e rest, d < 8 → c < 32 → drainNow (hpc s d c) = some n → (hpc s d c).wq = e :: rest → pcState s d c = 0 →
    isSet s F.HBM_STACK_CTL_ENABLE (dieO d) = true → n < 16 ∨ (∀ r ∈ (hpc s d c).rq, r.urgent = false) → Tbl.sorted e.bytes = true →
    ∃ t, exec (.hbmWriteIssue d c) s = .next t ∧ (hpc t d c).wq = rest ∧
      (∀ i b, Tbl.get? i e.bytes = some b → rdByte t 2 (hbmAddr d (e.line * 128) + i) = b) ∧
      (∀ x, (∀ b ∈ e.bytes, x ≠ hbmAddr d (e.line * 128) + b.1) → rdByte t 2 x = rdByte s 2 x) ∧
      getF t F.HBM_PC_LOAD_ACCESSES (pcO d c) = (getF s F.HBM_PC_LOAD_ACCESSES (pcO d c) + 1) % 2 ^ 32) ∧
  (∀ s d c syn e rest, d < 8 → c < 32 → (hpc s d c).infl = e :: rest →
    (∃ t, exec (.hbmReadReturn d c 0 syn) s = .next t ∧ (hpc t d c).infl = rest ∧ (∀ f ∈ t.hbm.fills, f.id = e.fill → f.back = true) ∧
      t.regs = s.regs) ∧
    (∃ t, exec (.hbmReadReturn d c 1 syn) s = .next t ∧ (hpc t d c).infl = rest ∧ (∀ f ∈ t.hbm.fills, f.id = e.fill → f.back = true) ∧
      getF t F.HBM_PC_ECC_CE (pcO d c) = min (getF s F.HBM_PC_ECC_CE (pcO d c) + 1) (2 ^ 32 - 1) ∧
      isSet t F.HBM_EVENT_CORRECTED (dieO d) = true) ∧
    (e.again = false → ∃ t, exec (.hbmReadReturn d c 2 syn) s = .next t ∧ (hpc t d c).infl = rest ++ [{ e with again := true }] ∧
      getF t F.HBM_PC_ECC_RETRIES (pcO d c) = min (getF s F.HBM_PC_ECC_RETRIES (pcO d c) + 1) 65535) ∧
    (e.again = true → ∃ t, exec (.hbmReadReturn d c 2 syn) s = .next t ∧ pcState t d c = 1 ∧ (hpc t d c).infl = [] ∧
      getF t F.HBM_PC_STAT_FREEZE_CAUSE (pcO d c) = 1 ∧ isSet t F.HBM_EVENT_FROZEN (dieO d) = true ∧
      getF t F.HBM_PC_ECC_UE (pcO d c) = min (getF s F.HBM_PC_ECC_UE (pcO d c) + 1) 65535)) ∧
  (∀ s d c, d < 8 → c < 32 → pcState s d c = 0 →
    ∃ t, exec (.hbmParityError d c) s = .next t ∧ pcState t d c = 1 ∧ (hpc t d c).infl = [] ∧
      getF t F.HBM_PC_STAT_FREEZE_CAUSE (pcO d c) = 2 ∧
      getF t F.HBM_PC_FRZ_A_KIND (pcO d c) = 2 ∧ isSet t F.HBM_EVENT_FROZEN (dieO d) = true) ∧
  (∀ s d c e rest, d < 8 → c < 32 → (hpc s d c).wq = e :: rest → pcState s d c = 0 →
    (e.retries < 4 → ∃ t, exec (.hbmWriteCrcError d c) s = .next t ∧ (hpc t d c).wq = { e with retries := e.retries + 1 } :: rest ∧
      getF t F.HBM_PC_ECC_RETRIES (pcO d c) = min (getF s F.HBM_PC_ECC_RETRIES (pcO d c) + 1) 65535) ∧
    (4 ≤ e.retries → ∃ t, exec (.hbmWriteCrcError d c) s = .next t ∧ pcState t d c = 1 ∧
      getF t F.HBM_PC_STAT_FREEZE_CAUSE (pcO d c) = 3 ∧ isSet t F.HBM_EVENT_FROZEN (dieO d) = true))

/-- O46. Pseudo-channels reset, fence, refresh, retrain, and a hot stack is told; a setting that retraining finds is in force from the
next window on. Completion: hbmChannelReset, hbmChannelResetDone, hbmFence, refreshWindow, retrainPassStart, hbmStackHot. From
10_hbm_cache.md. -/
def Obligations.HbmChannelsResetAndFence : Prop :=
  (∀ s d c, d < 8 → c < 32 → pcState s d c ≠ 2 →
    ∃ t, exec (.hbmChannelReset d c) s = .next t ∧ pcState t d c = 2 ∧ isSet t F.HBM_PC_CTL_RESET (pcO d c) = true ∧
      (hpc t d c).rq = [] ∧ (hpc t d c).wq = [] ∧ (hpc t d c).infl = [] ∧
      getF t F.HBM_PC_FRZ_B_LOST_WRITES (pcO d c) = (hpc s d c).wq.length % 2 ^ 16 ∧
      ((hpc s d c).wq ≠ [] → isSet t F.HBM_EVENT_LOST_WRITES (dieO d) = true) ∧ ∀ x, rdByte t 2 x = rdByte s 2 x) ∧
  (∀ s d c, d < 8 → c < 32 → pcState s d c = 2 → isSet s F.HBM_PC_CTL_FENCE (pcO d c) = false →
    ∃ t, exec (.hbmChannelResetDone d c true) s = .next t ∧ pcState t d c = 0 ∧ isSet t F.HBM_PC_CTL_RESET (pcO d c) = false ∧
      getF t F.HBM_PC_STAT_FREEZE_CAUSE (pcO d c) = 0 ∧ getF t F.HBM_PC_TRAIN_FC (pcO d c) = wall s % 2 ^ 32 ∧
      ((∀ e ∈ (spcOf s d).lines, e.2.dirty = 0) → hpc t d c = hpc s d c)) ∧
  (∀ s d c, d < 8 → c < 32 → pcState s d c = 2 →
    ∃ t, exec (.hbmChannelResetDone d c false) s = .next t ∧ pcState t d c = 3 ∧ isSet t F.HBM_PC_CTL_RESET (pcO d c) = false ∧
      getF t F.HBM_PC_STAT_FENCE_CAUSE (pcO d c) = 1 ∧ hpc t d c = {}) ∧
  (∀ s d c, d < 8 → c < 32 → pcState s d c ≠ 2 → pcState s d c ≠ 3 →
    ∃ t, exec (.hbmFence d c true) s = .next t ∧ pcState t d c = 3 ∧ isSet t F.HBM_PC_CTL_FENCE (pcO d c) = true ∧
      getF t F.HBM_PC_STAT_FENCE_CAUSE (pcO d c) = 0 ∧ hpc t d c = {} ∧ isSet t F.HBM_EVENT_FENCED (dieO d) = true ∧
      ∀ e ∈ (spcOf t d).lines, pcOf t d (keyLine e.1 e.2.tag * 128) ≠ c) ∧
  (∀ s d c, d < 8 → c < 32 → pcState s d c ≠ 2 → isSet s F.HBM_PC_CTL_FENCE (pcO d c) = true →
    ∃ t, exec (.hbmFence d c false) s = .next t ∧ pcState t d c = 2 ∧ isSet t F.HBM_PC_CTL_FENCE (pcO d c) = false ∧
      isSet t F.HBM_PC_CTL_RESET (pcO d c) = true) ∧
  (∀ s d setting margin ok, d < 8 → Tbl.get? d s.hbm.retrain = none → Tbl.get? d s.hbm.trained = none →
    ∃ t, exec (.refreshWindow d setting margin ok) s = .next t ∧
      getF t F.HBM_REFRESH_COUNT (dieO d) = (getF s F.HBM_REFRESH_COUNT (dieO d) + 1) % 2 ^ 48 ∧
      RegsOnly (fun k => k = fkey F.HBM_REFRESH_COUNT (dieO d)) s t) ∧
  (∀ s d setting margin k, d < 8 → Tbl.get? d s.hbm.retrain = some k → k < 512 → pcState s d (k / 16) = 0 →
    isSet s F.HBM_RETRAIN_EN (dieO d) = true →
    (∃ t, exec (.refreshWindow d setting margin true) s = .next t ∧ Tbl.get? d t.hbm.trained = some (k / 16, setting, margin) ∧
      (k % 16 < 15 → Tbl.get? d t.hbm.retrain = some (k + 1)) ∧
      (k % 16 = 15 → getF t F.HBM_PC_TRAIN_FC (pcO d (k / 16)) = wall s % 2 ^ 32)) ∧
    (Tbl.get? d s.hbm.trained = none → ∃ t, exec (.refreshWindow d setting margin false) s = .next t ∧ pcState t d (k / 16) = 3 ∧
      getF t F.HBM_PC_STAT_FENCE_CAUSE (pcO d (k / 16)) = 1)) ∧
  (∀ s d setting margin ok k, d < 8 → Tbl.get? d s.hbm.retrain = some k → isSet s F.HBM_RETRAIN_EN (dieO d) = false →
    ∃ t, exec (.refreshWindow d setting margin ok) s = .next t ∧ Tbl.get? d t.hbm.retrain = none) ∧
  (∀ s d setting margin c found mg, d < 8 → c < 32 → Tbl.get? d s.hbm.trained = some (c, found, mg) → pcState s d c = 0 →
    ∃ t, exec (.refreshWindow d setting margin true) s = .next t ∧ getF t F.HBM_PC_TRAIN_SETTING (pcO d c) = found % 256 ∧
      getF t F.HBM_PC_TRAIN_MARGIN (pcO d c) = mg % 256) ∧
  (∀ s d c, d < 8 → isSet s F.HBM_RETRAIN_EN (dieO d) = true → Tbl.get? d s.hbm.retrain = none → c < 32 → pcState s d c = 0 →
    (∀ x, x < c → pcState s d x ≠ 0) →
    ∃ t, exec (.retrainPassStart d) s = .next t ∧ Tbl.get? d t.hbm.retrain = some (c * 16) ∧ getF t F.HBM_RETRAIN_PC (dieO d) = c) ∧
  (∀ s d temp, d < 8 →
    ∃ t, exec (.hbmStackHot d temp) s = .next t ∧ getF t F.HBM_STACK_STAT_TEMP (dieO d) = temp % 256 ∧
      (95 < temp → isSet t F.HBM_EVENT_HOT (dieO d) = true) ∧
      (temp ≤ 95 → RegsOnly (fun k => k = fkey F.HBM_STACK_STAT_TEMP (dieO d)) s t))

/-- O47. Spill cache lookups hit, miss or pass through, or wait for room in the queues, and fills arrive sector by sector. Completion:
cacheLookup, fillSectorArrive. From 10_hbm_cache.md. -/
def Obligations.CacheLookupsAndFills : Prop :=
  (∀ s d r rest w l, d < 8 → (spcOf s d).reqs = r :: rest → r.kind = .hrqRead → lineAt s d (r.addr % 2 ^ 36 / 128) = some (w, l) →
    spcState s d ≠ 0 → l.valid &&& sectorsOf (r.addr % 2 ^ 36 % 128) (r.addr % 2 ^ 36 % 128 + 64) =
      sectorsOf (r.addr % 2 ^ 36 % 128) (r.addr % 2 ^ 36 % 128 + 64) →
    ∃ u, exec (.cacheLookup d 0) s = .next (answerReq u r (hrqLanes r l.data) false) ∧ (spcOf u d).reqs = rest ∧
      getF u F.SPC_CLASS_STAT_HITS (dieO d + cellClass r.cell * 8) =
        (getF s F.SPC_CLASS_STAT_HITS (dieO d + cellClass r.cell * 8) + 1) % 2 ^ 32) ∧
  (∀ s d r rest, d < 8 → (spcOf s d).reqs = r :: rest → r.kind = .hrqRead → lineAt s d (r.addr % 2 ^ 36 / 128) = none →
    lineState s d (r.addr % 2 ^ 36 / 128) = 0 → (hpc s d (pcOf s d (r.addr % 2 ^ 36))).rq.length < 48 →
    victimRoom s d (r.addr % 2 ^ 36 / 128) (allowedWays s d (r.addr % 2 ^ 36 / 128) (cellClass r.cell)
      (fnWays s (travOwner s r.trav))) = true →
    ∃ t f, exec (.cacheLookup d 0) s = .next t ∧ (spcOf t d).reqs = rest ∧ f ∈ t.hbm.fills ∧ f.id = s.hbm.nextFill ∧ f.die = d ∧
      f.line = r.addr % 2 ^ 36 / 128 ∧ f.req = some r) ∧
  (∀ s d r rest, d < 8 → (spcOf s d).reqs = r :: rest → r.kind = .hrqWrite → spcState s d = 0 →
    lineState s d (r.addr % 2 ^ 36 / 128) = 0 → lineAt s d (r.addr % 2 ^ 36 / 128) = none → canPush s d (r.addr % 2 ^ 36 / 128) = true →
    ∃ u, exec (.cacheLookup d 0) s = .next (answerReq u r (lane0 (num r.off)) false) ∧ (spcOf u d).reqs = rest ∧
      ∃ e ∈ (hpc u d (pcOf s d (r.addr % 2 ^ 36 / 128 * 128))).wq, e.line = r.addr % 2 ^ 36 / 128) ∧
  (∀ s d r rest, (spcOf s d).reqs = r :: rest → r.kind = .hrqWrite → canPush s d (r.addr % 2 ^ 36 / 128) = false →
    exec (.cacheLookup d 0) s = .next s) ∧
  (∀ s d r rest, (spcOf s d).reqs = r :: rest → r.kind = .hrqRead → lineAt s d (r.addr % 2 ^ 36 / 128) = none →
    lineState s d (r.addr % 2 ^ 36 / 128) = 0 → 48 ≤ (hpc s d (pcOf s d (r.addr % 2 ^ 36))).rq.length →
    exec (.cacheLookup d 0) s = .next s) ∧
  (∀ s d id f i rest e x, d < 8 → e < 8 → s.hbm.fills = [f] → f.id = id → f.die = d → f.back = true → f.order = i :: rest → f.req = none →
    f.who = some (indWho e) → Tbl.get? e s.hbm.ind = some (x, 8) → getF s F.HBM_IND_ADDR_ADDR (dieO e) % 128 / 32 = i →
    ∃ t, exec (.fillSectorArrive d id) s = .next t ∧ Tbl.get? e t.hbm.ind = none ∧ isSet t F.HBM_IND_ADDR_FAULT (dieO e) = false ∧
      t.out = s.out ++ [.access 0 (leNat (sub f.data (getF s F.HBM_IND_ADDR_ADDR (dieO e) / 8 * 8 % 128) 8))]) ∧
  (∀ s d id f i rest w, s.hbm.fills = [f] → f.id = id → f.die = d → f.back = true → f.order = i :: rest → f.req = none →
    f.who = some w → indDie w = none →
    ∃ t, exec (.fillSectorArrive d id) s = .next t ∧ t.hbm.fills = [{ f with order := rest }] ∧ t.regs = s.regs) ∧
  (∀ s d id f i rest, s.hbm.fills = [f] → f.id = id → f.die = d → f.back = true → f.order = i :: rest → f.who = none →
    (f.req = none → ∃ t, exec (.fillSectorArrive d id) s = .next t ∧
      t.hbm.fills = (if rest = [] then [] else [{ f with order := rest }]) ∧ t.regs = s.regs) ∧
    (∀ r, f.req = some r → (∀ x ∈ hrqSectors r, x ∉ rest) →
      ∃ u, exec (.fillSectorArrive d id) s = .next (answerReq u r (hrqLanes r f.data) false) ∧
        u.hbm.fills = (if rest = [] then [] else [{ f with order := rest, req := none }]) ∧ u.regs = s.regs))

/-- O48. LOCK, UNLOCK, PRELOAD, INVALIDATE and CLEAN_INVALIDATE run, or are rejected; a PRELOAD stays busy until its bulk reads have
come. Completion: lock, unlock, preload, invalidate, cleanInvalidate, spcCmdDone. From 10_hbm_cache.md, 08_timing_promise.md. -/
def Obligations.CacheCommandsRun : Prop :=
  (∀ s fn d ways, CmdReady s fn d → ways < 65536 → gntWay s d ways = false →
    (wayCount (getF s F.SPC_STAT_LOCKED (dieO d) ||| ways) ≤ 8 → getF s F.SPC_STAT_LOCKED (dieO d) < 65536 →
      ∃ t, exec (.lock fn d ways) s = .next t ∧ CmdDone t d 0 0 ∧
        getF t F.SPC_STAT_LOCKED (dieO d) = getF s F.SPC_STAT_LOCKED (dieO d) ||| ways) ∧
    (8 < wayCount (getF s F.SPC_STAT_LOCKED (dieO d) ||| ways) →
      ∃ t, exec (.lock fn d ways) s = .next t ∧ CmdDone t d stRejected 0x0B02 ∧
        getF t F.SPC_STAT_LOCKED (dieO d) = getF s F.SPC_STAT_LOCKED (dieO d)) ∧
    (∃ t, exec (.unlock fn d ways) s = .next t ∧ CmdDone t d 0 0 ∧
      ∀ w, w < 16 → bits (getF t F.SPC_STAT_LOCKED (dieO d)) w 1 =
        if bits ways w 1 = 1 then 0 else bits (getF s F.SPC_STAT_LOCKED (dieO d)) w 1)) ∧
  (∀ s fn d way, CmdReady s fn d → way < 16 → gntWay s d (2 ^ way) = false → bits (getF s F.SPC_STAT_LOCKED (dieO d)) way 1 = 1 →
    badRange s d ⟨3, way, 0, getF s F.SPC_CMD_ADDR_ADDR (dieO d), getF s F.SPC_CMD_LEN_LEN (dieO d), 0, 0⟩ = false →
    ∃ t, exec (.preload fn d way) s = .next t ∧ isSet t F.SPC_CMD_STAT_BUSY (dieO d) = true ∧
      (spcOf t d).cmds = [⟨3, way, 0, getF s F.SPC_CMD_ADDR_ADDR (dieO d), getF s F.SPC_CMD_LEN_LEN (dieO d), 0, 0⟩]) ∧
  (∀ s fn d way (clean : Bool), CmdReady s fn d → way < 16 →
    badRange s d ⟨if clean then 5 else 4, way, 0, getF s F.SPC_CMD_ADDR_ADDR (dieO d), getF s F.SPC_CMD_LEN_LEN (dieO d), 0, 0⟩ = false →
    ∃ t, exec (if clean then .cleanInvalidate fn d way else .invalidate fn d way) s = .next t ∧
      isSet t F.SPC_CMD_STAT_BUSY (dieO d) = true ∧
      (spcOf t d).cmds = [⟨if clean then 5 else 4, way, 0, getF s F.SPC_CMD_ADDR_ADDR (dieO d), getF s F.SPC_CMD_LEN_LEN (dieO d), 0, 0⟩]) ∧
  (∀ s c fn d way, (c = .preload fn d way ∨ c = .invalidate fn d way ∨ c = .cleanInvalidate fn d way ∨ c = .lock fn d way ∨
      c = .unlock fn d way) → isPf fn = true → d < 8 → spcState s d ≠ 1 → (spcOf s d).cmds = [] →
    ∃ t, exec c s = .next t ∧ CmdDone t d stRejected 0x0B05 ∧ getF t F.SPC_STAT_LOCKED (dieO d) = getF s F.SPC_STAT_LOCKED (dieO d)) ∧
  (∀ s d c, d < 8 → (spcOf s d).cmds = [c] → c.op = 4 →
    ∃ t, exec (.spcCmdDone d) s = .next t ∧ CmdDone t d 0 0 ∧ isSet t F.SPC_CMD_STAT_BUSY (dieO d) = false ∧
      t.hbm.pcs = s.hbm.pcs ∧ t.hbm.mem = s.hbm.mem ∧
      ∀ e, e ∈ (spcOf t d).lines ↔ e ∈ (spcOf s d).lines ∧
        ∀ f ∈ (spcOf s d).lines, f.1 = e.1 → ¬ (c.addr / 128 ≤ keyLine f.1 f.2.tag ∧ keyLine f.1 f.2.tag < (c.addr + c.len) / 128)) ∧
  (∀ s d c, d < 8 → (spcOf s d).cmds = [c] → c.op = 5 →
    ((∀ e ∈ rangeLines s d c, heldLine s d (keyLine e.1 e.2.tag) e.2 = false) →
      ∃ t, exec (.spcCmdDone d) s = .next t ∧ CmdDone t d 0 0 ∧ isSet t F.SPC_CMD_STAT_BUSY (dieO d) = false) ∧
    ((∃ e ∈ rangeLines s d c, heldLine s d (keyLine e.1 e.2.tag) e.2 = true) →
      ∃ t, exec (.spcCmdDone d) s = .next t ∧ (spcOf t d).cmds = [c] ∧ t.regs = s.regs)) ∧
  (∀ s d c x, d < 8 → (spcOf s d).cmds = [c] → c.op = 3 → rangeRun s d c = x →
    (x.2.2 = true → ∃ t, exec (.spcCmdDone d) s = .next t ∧ CmdDone t d 0 0 ∧ isSet t F.SPC_CMD_STAT_BUSY (dieO d) = false) ∧
    (x.2.2 = false → ∃ t, exec (.spcCmdDone d) s = .next t ∧ (spcOf t d).cmds = [x.2.1] ∧
      isSet t F.SPC_CMD_STAT_BUSY (dieO d) = isSet s F.SPC_CMD_STAT_BUSY (dieO d))) ∧
  (∀ s d way addr ln, d < 8 → way < 16 → (spcOf s d).cmds = [⟨3, way, 0, addr, 128, 0, 0⟩] → addr = ln * 128 → s.hbm.fills = [] →
    lineAt s d ln = none → Tbl.get? (lineKey ln way) (spcOf s d).lines = none → lineState s d ln = 0 → heldBack s d addr = false →
    (hpc s d (pcOf s d addr)).rq.length < 48 →
    ∃ t f l, exec (.spcCmdDone d) s = .next t ∧ (spcOf t d).cmds = [⟨3, way, 0, addr, 128, 1, 1⟩] ∧ t.hbm.fills = [f] ∧
      f.die = d ∧ f.line = ln ∧ f.who = some (preloadWho d) ∧
      Tbl.get? (lineKey ln way) (spcOf t d).lines = some l ∧ l.valid = 0 ∧ l.tag = ln / 16384)

/-- O49. Failed dies are isolated, digests compared, lost host ports told. Completion: heartbeatTimeout, dieDigest, hostPortLoss,
controlStateParity. From 15_twin_power.md, 17_security_errors.md, 16_clocks_bringup.md. -/
def Obligations.FailedDiesAreIsolated : Prop :=
  (∀ s d, d < 8 → twinned s (d / 2) = true →
    ∃ t, exec (.heartbeatTimeout d) s = .next t ∧ getF t F.TWN_PAIR_STAT_STATE (d / 2 * 0x40) = 3 ∧
      getF t F.TWN_PAIR_STAT_CAUSE (d / 2 * 0x40) = 2 ∧ getF t F.TWN_PAIR_STAT_FAILED (d / 2 * 0x40) = 2 ^ (d % 2) ∧
      getF t F.TWN_PAIR_STAT_LEAD (d / 2 * 0x40) = 1 - d % 2 ∧ isSet t F.TWN_EVENT_DIE_FAILED 0 = true ∧ dieState t d = 2 ∧
      isSet t F.CLK_DIE_RST_BY_BRIM (d * 8) = true) ∧
  (∀ s d x, d < 8 → s.twn.sent.find? (fun x => x.die == d) = some x →
    s.twn.received.find? (fun y => y.die / 2 == d / 2 && y.die != d && y.epoch == x.epoch) = none →
    ∃ t, exec (.dieDigest d) s = .next t ∧ t.twn.received = x :: s.twn.received ∧ t.twn.sent = s.twn.sent.erase x ∧
      getF t F.TWN_DIGEST_EPOCH_EPOCH (d * 8) = x.epoch % 2 ^ F.TWN_DIGEST_EPOCH_EPOCH.width) ∧
  (∀ s d x y, d < 8 → s.twn.sent.find? (fun x => x.die == d) = some x →
    s.twn.received.find? (fun y => y.die / 2 == d / 2 && y.die != d && y.epoch == x.epoch) = some y → x.digest = y.digest →
    ∃ t, exec (.dieDigest d) s = .next t ∧ t.twn.received = s.twn.received.erase y ∧ pairLive t (d / 2) = pairLive s (d / 2) ∧
      getF t F.TWN_PAIR_DIG_COMPARED (d / 2 * 0x40) =
        (getF s F.TWN_PAIR_DIG_COMPARED (d / 2 * 0x40) + 1) % 2 ^ F.TWN_PAIR_DIG_COMPARED.width) ∧
  (∀ s d x y, d < 8 → s.twn.sent.find? (fun x => x.die == d) = some x →
    s.twn.received.find? (fun y => y.die / 2 == d / 2 && y.die != d && y.epoch == x.epoch) = some y → x.digest ≠ y.digest →
    s.twn.deferred = [] → twinned s (d / 2) = true →
    ∃ t, exec (.dieDigest d) s = .next t ∧ isSet t F.TWN_EVENT_MISMATCH 0 = true ∧ getF t F.TWN_PAIR_STAT_STATE (d / 2 * 0x40) = 3 ∧
      getF t F.TWN_PAIR_STAT_CAUSE (d / 2 * 0x40) = 3 ∧ isSet t F.TWN_PAIR_STAT_UNRESOLVED (d / 2 * 0x40) = true ∧
      dieState t (if x.shadow then d else y.die) = 2) ∧
  (∀ s p, p < 2 → isSet s F.CLK_PORT_LINK_UP (p * 8) = true → isSet s F.CLK_HP_SAFE 0 = false →
    ∃ t, exec (.hostPortLoss p) s = .next t ∧ isSet t F.CLK_PORT_LINK_UP (p * 8) = false ∧ isSet t F.CLK_EVENT_PORT_LOST 0 = true) ∧
  (∀ s p, p < 2 → isSet s F.CLK_PORT_LINK_UP (p * 8) = true → isSet s F.CLK_HP_SAFE 0 = true →
    ∃ t, exec (.hostPortLoss p) s = .next t ∧ isSet t F.CLK_PORT_LINK_UP (p * 8) = false ∧ t.fns = s.fns) ∧
  (∀ s p, isSet s F.CLK_PORT_LINK_UP (p * 8) = false → exec (.hostPortLoss p) s = .next s) ∧
  (∀ s, ∃ t, exec (.controlStateParity 8) s = .next t ∧ halted t = true) ∧
  (∀ s d, d < 8 → dieUp s d = false → exec (.controlStateParity d) s = .next s) ∧
  (∀ s d, 2 ≤ d → d < 8 → dieUp s d = true → pairLive s (d / 2) = false →
    ∃ t, exec (.controlStateParity d) s = .next t ∧ dieState t d = 2 ∧ isSet t F.CLK_DIE_RST_HOLD (d * 8) = true ∧
      isSet t F.CLK_DIE_RST_BY_BRIM (d * 8) = true)

/-- O50. Pairs are enabled, synchronised, swapped and disabled. Completion: pairEnable, pairDisable, syncDone, heartbeat, holdExpiry,
roleSwap. From 15_twin_power.md. -/
def Obligations.PairsSyncAndSwap : Prop :=
  (∀ s fn k, k < 4 → pairThere s k = true → pairState s k = 0 → pairBusy s k = false →
    ∃ t, exec (.pairEnable fn k) s = .next t ∧ pairState t k = 1 ∧ isSet t F.TWN_PAIR_CTL_ENABLE (k * 0x40) = true ∧
      getF t F.TWN_PAIR_STAT_LEAD (k * 0x40) = 0 ∧ getF t F.TWN_PAIR_STAT_FAILED (k * 0x40) = 0) ∧
  (∀ s fn k, k < 4 → pairThere s k = true → pairState s k ≠ 0 → pairBusy s k = false →
    ∃ t, exec (.pairDisable fn k) s = .next t ∧ pairState t k = 0 ∧ isSet t F.TWN_PAIR_CTL_ENABLE (k * 0x40) = false ∧
      (∀ e ∈ t.twn.gate, e.pair ≠ k) ∧ ∀ m x, rdByte t m x = rdByte s m x) ∧
  (∀ s k, k < 4 → s.wf = true → syncing s k = true → edgeUp s (2 * k) 0 = true → dieUp s (2 * k) = true → dieUp s (2 * k + 1) = true →
    ∃ t, exec (.syncDone k) s = .next t ∧ pairState t k = 2 ∧ getF t F.TWN_PAIR_STAT_LEAD (k * 0x40) = 0 ∧
      isSet t F.TWN_EVENT_SYNCED 0 = true ∧
      (∀ i, i < 2 ^ 27 → rdByte t 0 ((2 * k + 1) * 2 ^ 27 + i) = rdByte s 0 (2 * k * 2 ^ 27 + i)) ∧
      ∀ i, i < 2 ^ 30 → rdByte t 1 ((2 * k + 1) * 2 ^ 30 + i) = rdByte s 1 (2 * k * 2 ^ 30 + i)) ∧
  (∀ s d, twinned s (d / 2) = true →
    ∃ t, exec (.heartbeat d) s = .next t ∧ Tbl.get? d t.twn.beat = some s.now ∧ t.regs = s.regs) ∧
  (∀ s d x rest, Tbl.getD s.twn.hold d [] = x :: rest →
    ∃ t, exec (.holdExpiry d) s = .next t ∧ Tbl.getD t.twn.hold d [] = rest ∧ t.regs = s.regs) ∧
  (∀ s, isSet s F.TWN_CTL_SWAP_EN 0 = true → s.bmk.sw = none →
    ∃ t, exec .roleSwap s = .next t ∧ t.twn.swapDue = false ∧
      ∀ k, k < 4 → getF t F.TWN_PAIR_STAT_LEAD (k * 0x40) =
        if twinned s k then 1 - getF s F.TWN_PAIR_STAT_LEAD (k * 0x40) else getF s F.TWN_PAIR_STAT_LEAD (k * 0x40)) ∧
  (∀ s, isSet s F.TWN_CTL_SWAP_EN 0 = true → s.bmk.sw ≠ none →
    ∃ t, exec .roleSwap s = .next t ∧ t.twn.swapDue = true ∧ t.regs = s.regs)

/-- O51. A partition change is staged, checked, drained and withdrawn. Completion: stageReq, stageCheckDone, withdraw, drainComplete,
drainLimit. From 14_functions.md. -/
def Obligations.PartitionChangesAreStaged : Prop :=
  (∀ s, getF s F.FN_STAGE_STAT_STATE 0 = 0 →
    ∃ t, exec .stageReq s = .next t ∧ getF t F.FN_STAGE_STAT_STATE 0 = 1 ∧ RegsOnly (fun k => k = fkey F.FN_STAGE_STAT_STATE 0) s t) ∧
  (∀ s, getF s F.FN_STAGE_STAT_STATE 0 ≠ 0 →
    ∃ t, exec .stageReq s = .next t ∧ getF t F.FN_STAGE_STAT_STATE 0 = getF s F.FN_STAGE_STAT_STATE 0 ∧
      getF t F.FN_STAGE_STAT_STATUS 0 = stRejected ∧ getF t F.FN_STAGE_STAT_REASON 0 = rsnStageBusy ∧
      isSet t F.FN_EVENT_CHECK_FAILED 0 = true) ∧
  (∀ s, getF s F.FN_STAGE_STAT_STATE 0 = 1 →
    (stageFault s = none → ∃ t, exec .stageCheckDone s = .next t ∧ changePending t = true ∧ getF t F.FN_STAGE_STAT_STATUS 0 = 0 ∧
      getF t F.FN_STAGE_STAT_REASON 0 = 0) ∧
    (∀ r tb i, stageFault s = some (r, tb, i) → r < 65536 → tb < 8 → i < 65536 →
      ∃ t, exec .stageCheckDone s = .next t ∧ getF t F.FN_STAGE_STAT_STATE 0 = 0 ∧ getF t F.FN_STAGE_STAT_STATUS 0 = stRejected ∧
        getF t F.FN_STAGE_STAT_REASON 0 = r ∧ getF t F.FN_STAGE_STAT_TABLE 0 = tb ∧ getF t F.FN_STAGE_STAT_INDEX 0 = i ∧
        isSet t F.FN_EVENT_CHECK_FAILED 0 = true)) ∧
  (∀ s, changePending s = true →
    ∃ t, exec .withdraw s = .next t ∧ getF t F.FN_STAGE_STAT_STATE 0 = 0 ∧ isSet t F.FN_STAGE_STAT_READY 0 = false ∧
      RegsOnly (fun k => k = fkey F.FN_STAGE_STAT_STATE 0 ∨ k = fkey F.FN_STAGE_STAT_READY 0) s t) ∧
  (∀ s tb i, changePending s = true → leaves s tb i = true → tb < 5 →
    ∃ t, exec (.drainComplete tb i) s = .next t ∧ isSet t F.FN_STAGE_STAT_READY 0 = changeReady s ∧
      RegsOnly (fun k => k = fkey F.FN_STAGE_STAT_READY 0) s t) ∧
  (∀ s i, changePending s = true → leaves s 5 i = true → i < 65536 → sqState s i = 1 → ringIdle s i = true →
    ∃ t, exec (.drainComplete 5 i) s = .next t ∧ sqState t i ≠ 1 ∧ isSet t F.RING_SQ_CTL_ENABLE (ringO i) = false) ∧
  (∀ s i, changePending s = true → (i ∈ listed s 5 ∧ leaves s 5 i = true ∧ sqState s i = 1) ∨
      (i ∈ listed s 3 ∧ leaves s 3 i = true ∧ drained s 3 i = false) →
    ∃ t, exec .drainLimit s = .next t ∧ isSet t F.FN_EVENT_DRAIN_SQUASH 0 = true) ∧
  (∀ s, changePending s = true → (∀ i ∈ listed s 5, leaves s 5 i = true → sqState s i ≠ 1) →
    (∀ i ∈ listed s 3, leaves s 3 i = true → drained s 3 i = true) →
    ∃ t, exec .drainLimit s = .next t ∧ isSet t F.FN_STAGE_STAT_READY 0 = changeReady s ∧
      RegsOnly (fun k => k = fkey F.FN_STAGE_STAT_READY 0) s t)

/-- O52. Scrubs leave zeros; functions reset step by step; VFs are enabled and disabled. Completion: scrubDone, functionLevelReset,
pfFunctionLevelReset, flrStepEnd, vfEnable. From 14_functions.md. -/
def Obligations.FunctionsAreResetAndScrubbed : Prop :=
  (∀ s i, i < 512 → dirtyOf s 0 i = true →
    ∃ t, exec (.scrubDone 0 i) s = .next t ∧ dirtyOf t 0 i = false ∧
      ∀ d ∈ mirrorDies s (i / 64), ∀ x, x < 0x200000 → rdByte t 0 ((d * 64 + i % 64) * 0x200000 + x) = 0) ∧
  (∀ s i, i < 128 → dirtyOf s 1 i = true → (Tbl.get? i s.srm.zeroing).isSome = true →
    (∀ d ∈ mirrorDies s (i / 16), chState s (d * 16 + i % 16) = 0) →
    ∃ t, exec (.scrubDone 1 i) s = .next t ∧ dirtyOf t 1 i = false ∧
      ∀ d ∈ mirrorDies s (i / 16), ∀ x, x < 2 ^ 26 → rdByte t 1 ((d * 16 + i % 16) * 2 ^ 26 + x) = 0) ∧
  (∀ s i, i < 512 → dirtyOf s 2 i = true → (Tbl.get? i s.hbm.zeroing).isSome = true →
    (∀ d ∈ mirrorDies s (i / 64), stuckPcs s d = []) →
    ∃ t, exec (.scrubDone 2 i) s = .next t ∧ dirtyOf t 2 i = false ∧ ∀ d ∈ mirrorDies s (i / 64), UnitZero t d (i % 64)) ∧
  (∀ s f, isVf f = true → resetting s f = false → TablesNamed s →
    ∃ t, exec (.functionLevelReset f) s = .next t ∧ ResetBegun s t f ∧ Tbl.get? f t.devCtl = none) ∧
  (∀ s f, isVf f = true → resetting s f = true → exec (.functionLevelReset f) s = .next s) ∧
  (∀ s pf, pf < 2 → resetting s pf = false → TablesNamed s →
    ∃ t, exec (.pfFunctionLevelReset pf) s = .next t ∧ ResetBegun s t pf ∧ numVfs t pf = 0 ∧
      ∀ f, isVf f = true → pfOf f = pf → Tbl.get? f s.fns.resets = none → resetting t f = true) ∧
  (∀ s j x, Tbl.get? j s.fns.resets = some x →
    (x.step = 1 → anyRunning s (flrCovers s j) = false →
      ∃ t y, exec (.flrStepEnd j) s = .next t ∧ Tbl.get? j t.fns.resets = some y ∧ y.step = 2) ∧
    (x.step = 2 → (∀ e ∈ s.fab.invs, flrCovers s j e.2.fn = true → e.2.done = true) →
      ∃ t y, exec (.flrStepEnd j) s = .next t ∧ Tbl.get? j t.fns.resets = some y ∧ y.step = 3) ∧
    (x.step = 3 → ∃ t y, exec (.flrStepEnd j) s = .next t ∧ Tbl.get? j t.fns.resets = some y ∧ y.step = 4 ∧ t.regs = s.regs) ∧
    (x.step = 4 → ∃ t, exec (.flrStepEnd j) s = .next t ∧ Tbl.get? j t.fns.resets = none ∧
      isSet t F.FN_EVENT_RESET_DONE 0 = true ∧ getF t F.FN_RESET_LAST_FUNCTION 0 = j % 2 ^ F.FN_RESET_LAST_FUNCTION.width)) ∧
  (∀ s pf num, pf < 2 → resetting s pf = false → 0 < num → num ≤ 512 →
    (∀ v, num ≤ v → v < 512 → getF s F.FN_ATTR_STATE (attrO (vfNum pf (v + 1))) ≠ 1) →
    ∃ t, exec (.vfEnable pf num) s = .next t ∧ numVfs t pf = num ∧
      ∀ v, v < num → resetting s (vfNum pf (v + 1)) = false → getF t F.FN_ATTR_STATE (attrO (vfNum pf (v + 1))) = 1) ∧
  (∀ s pf v, pf < 2 → v < 512 → resetting s pf = false → TablesNamed s → getF s F.FN_ATTR_STATE (attrO (vfNum pf (v + 1))) = 1 →
    ∃ t, exec (.vfEnable pf 0) s = .next t ∧ numVfs t pf = 0 ∧ ResetBegun s t (vfNum pf (v + 1)))

/-- O53. Feeds, the power-fail sequence, cold reset, temperatures and the life counters. Completion: feedSample, powerFail,
feedSenseChange, coldRstNLow, coldReset, thermalSample, lifeSecond, lifeStore. From 15_twin_power.md, 18_package.md. -/
def Obligations.PowerTemperatureAndLife : Prop :=
  (∀ s a b, a < 65536 → b < 65536 →
    ∃ t, exec (.feedSample a b) s = .next t ∧ getF t F.PWR_FEED_MV 0 = a ∧ getF t F.PWR_FEED_MV 0x10 = b ∧
      (a < 9600 ∨ 14000 < a → 1 ≤ Tbl.getD s.pwr.badRun 0 0 → feedState t 0 = 2) ∧
      (b < 9600 ∨ 14000 < b → 1 ≤ Tbl.getD s.pwr.badRun 1 0 → feedState t 1 = 2) ∧
      (10800 ≤ a → a ≤ 13200 → mated s 0 = true → 9999 ≤ Tbl.getD s.pwr.goodRun 0 0 → feedState t 0 = 0) ∧
      (10800 ≤ b → b ≤ 13200 → mated s 1 = true → 9999 ≤ Tbl.getD s.pwr.goodRun 1 0 → feedState t 1 = 0)) ∧
  (∀ s, s.pwr.failing = false → feedState s 0 = 2 → feedState s 1 = 2 →
    ∃ t, exec .powerFail s = .next t ∧ halted t = true ∧ t.logOff = true ∧ t.pwr.dark = true ∧ t.pwr.ready = false ∧
      t.sec.store.isSome = true ∧ ∀ d ∈ diesHere s, dieState t d = 2) ∧
  (∀ s f, f < 2 → mated s (1 - f) = true →
    (∃ t, exec (.feedSenseChange f false) s = .next t ∧ mated t f = true) ∧
    (getF s F.PKG_STRAP_HOTPLUG 0 ≠ 0 → ∃ t, exec (.feedSenseChange f true) s = .next t ∧ mated t f = false ∧ feedState t f = 2)) ∧
  (∀ s, s.pwr.failing = true ∨ feedState s 0 ≠ 2 ∨ feedState s 1 ≠ 2 → exec .powerFail s = .next s) ∧
  (∀ s, ∃ t, exec .coldRstNLow s = .next t ∧ t.pwr.coldLow = true ∧ t.pwr.boot = 0 ∧ t.plats = {} ∧ t.bmk = {} ∧
    t.sec.minSvn = s.sec.minSvn ∧ t.sec.store = s.sec.store) ∧
  (∀ s, ∃ t, exec .coldReset s = .next t ∧ t.pwr.coldLow = false ∧ t.pwr.boot = 1 ∧ getF t F.CLK_BOOT_STEP 0 = 1 ∧ t.plats = {} ∧
    t.bmk = {} ∧ t.fab = {} ∧ t.sec.minSvn = s.sec.minSvn ∧ t.sec.store = s.sec.store) ∧
  (∀ s d temp, d < 9 → present s.part d = true ∨ d = 8 → temp < 100 →
    ∃ t, exec (.thermalSample d temp) s = .next t ∧ getF t F.PKG_THERM_TEMP (d * 8) = temp ∧
      getF t F.PKG_THERM_PEAK (d * 8) = max (getF s F.PKG_THERM_PEAK (d * 8)) temp % 256 ∧
      RegsOnly (fun k => k = fkey F.PKG_THERM_TEMP (d * 8) ∨ k = fkey F.PKG_THERM_PEAK (d * 8)) s t) ∧
  (∀ s d temp, d < 9 → present s.part d = true ∨ d = 8 → 100 ≤ temp → temp < 256 → getF s F.PKG_THERM_TEMP (d * 8) < 100 →
    ∃ t, exec (.thermalSample d temp) s = .next t ∧ getF t F.PKG_THERM_TEMP (d * 8) = temp ∧ isSet t F.PKG_EVENT_THERM_WARN 0 = true) ∧
  (∀ s d temp, d < 9 → present s.part d = true ∨ d = 8 → 110 ≤ temp → temp < 256 → 110 ≤ getF s F.PKG_THERM_TEMP (d * 8) → halted s = false →
    ∃ t, exec (.thermalSample d temp) s = .next t ∧ halted t = true ∧ isSet t F.PKG_EVENT_THERM_TRIP 0 = true ∧
      (∀ x ∈ diesHere s, dieState t x = 2) ∧ t.pwr.life.trips = min 65535 (s.pwr.life.trips + 1)) ∧
  (∀ s temp, s.pwr.dark = false →
    ∃ t, exec (.lifeSecond temp) s = .next t ∧ t.pwr.life.on = s.pwr.life.on + 1 ∧
      t.pwr.life.equiv = s.pwr.life.equiv + lifeRate temp ∧
      t.pwr.life.above = s.pwr.life.above + (if 95 < temp then 1 else 0) ∧ (95 < temp → isSet t F.PKG_EVENT_LIFE_95 0 = true)) ∧
  (∀ s, s.pwr.dark = false →
    ∃ t, exec .lifeStore s = .next t ∧ t.pwr.stored = s.pwr.life ∧ t.pwr.life = s.pwr.life ∧ t.regs = s.regs) ∧
  (∀ s c temp, c = .lifeSecond temp ∨ c = .lifeStore → s.pwr.dark = true → exec c s = .next s)

/-- O54. References, PLL, power-up steps, gates and the steps of a warm reset. Completion: refWindowEnd, refDead, pllLock, refSwitch,
pllFault, powerUpStepEnd, clkGateWrite, warm, warmResetStepEnd. From 16_clocks_bringup.md. -/
def Obligations.ClocksAreChosenAndGated : Prop :=
  (∀ s r c, r < 2 → windowPass c (Tbl.getD s.pwr.counts (1 - r) 0) = true → r ∉ s.pwr.spoilt → 2 ≤ getF s F.CLK_REF_STAT_PASSES (r * 8) →
    ∃ t, exec (.refWindowEnd r c) s = .next t ∧ refStable t r = true ∧ getF t F.CLK_REF_STAT_PASSES (r * 8) = 3 ∧
      Tbl.get? r t.pwr.counts = some c) ∧
  (∀ s r c, r < 2 → windowPass c (Tbl.getD s.pwr.counts (1 - r) 0) = false → c ≠ 0 → r ∉ s.pwr.spoilt →
    ∃ t, exec (.refWindowEnd r c) s = .next t ∧ getF t F.CLK_REF_STAT_STATE (r * 8) = 1 ∧ getF t F.CLK_REF_STAT_PASSES (r * 8) = 0 ∧
      getF t F.CLK_REF_STAT_FAILS (r * 8) =
        min (getF s F.CLK_REF_STAT_FAILS (r * 8) + 1) (2 ^ F.CLK_REF_STAT_FAILS.width - 1)) ∧
  (∀ s r, r < 2 →
    ∃ t, exec (.refDead r) s = .next t ∧ getF t F.CLK_REF_STAT_STATE (r * 8) = 0 ∧ getF t F.CLK_REF_STAT_PASSES (r * 8) = 0 ∧
      r ∈ t.pwr.spoilt ∧
      (refStable s r = true → pllState s = 1 → getF s F.CLK_PLL_STAT_REF 0 = r →
        pllState t = 2 ∧ isSet t F.CLK_EVENT_HOLDOVER 0 = true)) ∧
  (∀ s a, s.pwr.boot = 3 → pllState s ≠ 1 → getF s F.CLK_REF_CTL_PREFER 0 = a → a < 2 → refStable s 0 = true ∨ refStable s 1 = true →
    ∃ t, exec .pllLock s = .next t ∧ pllState t = 1 ∧ getF t F.CLK_PLL_STAT_REF 0 = (if refStable s a then a else 1 - a) ∧
      ∀ k, k < 4 → getF t F.CLK_DOM_SRC (k * 8) = 1) ∧
  (∀ s r, pllState s = 2 → getF s F.CLK_PLL_STAT_REF 0 = r → r < 2 → refStable s (1 - r) = true →
    ∃ t, exec .refSwitch s = .next t ∧ pllState t = 1 ∧ getF t F.CLK_PLL_STAT_REF 0 = 1 - r ∧ isSet t F.CLK_EVENT_REF_SWITCH 0 = true) ∧
  (∀ s, pllState s = 1 ∨ pllState s = 2 →
    ∃ t, exec .pllFault s = .next t ∧ pllState t = 3 ∧ halted t = true ∧ t.pwr.pllLost = true ∧ t.hbm.fences = [] ∧
      ∀ k, k < 4 → getF t F.CLK_DOM_SRC (k * 8) = 0) ∧
  (∀ s ok, s.pwr.warm = 0 →
    (s.pwr.boot = 2 → refStable s 0 = true ∨ refStable s 1 = true →
      ∃ t, exec (.powerUpStepEnd ok) s = .next t ∧ t.pwr.boot = 3 ∧ getF t F.CLK_BOOT_STEP 0 = 3) ∧
    (s.pwr.boot = 3 → pllState s = 1 →
      ∃ t, exec (.powerUpStepEnd ok) s = .next t ∧ t.pwr.boot = 4 ∧ getF t F.CLK_BOOT_STEP 0 = 4) ∧
    (s.pwr.boot = 7 → ∃ t, exec (.powerUpStepEnd ok) s = .next t ∧ t.pwr.boot = 8 ∧ getF t F.CLK_BOOT_STEP 0 = 8) ∧
    (s.pwr.boot = 8 → ∃ t, exec (.powerUpStepEnd ok) s = .next t ∧ t.pwr.boot = 0) ∧
    (s.pwr.boot = 2 → refStable s 0 = false → refStable s 1 = false →
      ∃ t, exec (.powerUpStepEnd false) s = .next t ∧ t.pwr.boot = 0 ∧ isSet t F.CLK_BOOT_FAILED 0 = true) ∧
    (s.pwr.boot = 1 →
      ∃ t, exec (.powerUpStepEnd false) s = .next t ∧ t.pwr.boot = 0 ∧ isSet t F.CLK_BOOT_FAILED 0 = true) ∧
    (s.pwr.boot = 6 → ∃ t, exec (.powerUpStepEnd true) s = .next t ∧ t.pwr.boot = 7 ∧ t.pwr.ready = true)) ∧
  (∀ s, s.pwr.boot = 4 → s.pwr.warm = 0 →
    ∃ t, exec (.powerUpStepEnd true) s = .next t ∧ t.pwr.boot = 5 ∧ ∀ d ∈ diesHere s, dieState t d = 0) ∧
  (∀ s fn d data, d < 8 → present s.part d = true →
    ∃ t, exec (.clkGateWrite fn d data) s = .next t ∧ ∀ b, b < 20 → bits (getF t F.CLK_GATE_GATE (d * 8)) b 1 =
      if bits data b 1 = 1 ∧ (bits (getF s F.CLK_GATE_GATE (d * 8)) b 1 = 1 ∨ inService s d b = false) then 1 else 0) ∧
  (∀ s, s.pwr.warm = 0 → s.pwr.dark = false → s.pwr.coldLow = false → s.pwr.pllLost = false →
    ∃ t, exec .warm s = .next t ∧ t.pwr.warm = 1 ∧ isSet t F.CLK_BOOT_WARM 0 = true ∧
      ∀ p, p < s.part.ports → isSet t F.TRN_PORT_CTL_ENABLE (portO p) = false) ∧
  (∀ s, s.pwr.warm = 0 → s.pwr.dark = false → s.pwr.coldLow = false → s.pwr.pllLost = true →
    ∃ t, exec .warm s = .next t ∧ t.pwr.warm = 1 ∧ t.pwr.boot = 2 ∧ isSet t F.CLK_BOOT_WARM 0 = true) ∧
  (∀ s, s.pwr.boot = 0 → s.pwr.warm = 1 → ∃ t, exec .warmResetStepEnd s = .next t ∧ t.pwr.warm = 2) ∧
  (∀ s, s.pwr.boot = 0 → s.pwr.warm = 2 →
    ∃ t, exec .warmResetStepEnd s = .next t ∧ t.pwr.warm = 3 ∧ t.plats = {} ∧ t.fab = {} ∧ t.bmk = {} ∧ t.fns.resets = [] ∧
      ∀ d ∈ diesHere s, dieState t d = 2) ∧
  (∀ s, s.pwr.boot = 0 → s.pwr.warm = 3 → coolEnough s = true → s.pwr.pllLost = false →
    ∃ t, exec .warmResetStepEnd s = .next t ∧ t.pwr.warm = 4 ∧ ∀ d ∈ diesHere s, dieState t d = 0) ∧
  (∀ s, s.pwr.boot = 0 → s.pwr.warm = 3 → coolEnough s = false → exec .warmResetStepEnd s = .next s) ∧
  (∀ s, s.pwr.boot = 0 → s.pwr.warm = 3 → coolEnough s = true → s.pwr.pllLost = true →
    ∃ t, exec .warmResetStepEnd s = .next t ∧ t.pwr.warm = 5 ∧ ∀ d ∈ diesHere s, dieState t d = 0) ∧
  (∀ s, s.pwr.boot = 0 → s.pwr.warm = 4 →
    ∃ t, exec .warmResetStepEnd s = .next t ∧ t.pwr.warm = 5 ∧ ∀ d ∈ diesHere s, isSet t F.HBM_STACK_STAT_TRAINED (dieO d) = true) ∧
  (∀ s, s.pwr.boot = 0 → s.pwr.warm = 5 → ∃ t, exec .warmResetStepEnd s = .next t ∧ t.pwr.warm = 0 ∧ t.pwr.pllLost = false)

/-- O55. Dies are held, flushed, released; chain edges are lost and retrain. Completion: dieHold, dieFlushDone, dieRelease,
dieReleaseDone, chainEdgeLoss, edgeRetrainAttemptEnd. From 16_clocks_bringup.md. -/
def Obligations.DiesAreHeldAndReleased : Prop :=
  (∀ s fn d, d < 8 → present s.part d = true → isSet s F.CLK_DIE_RST_HOLD (d * 8) = false → holdable s d = true →
    ∃ t, exec (.dieHold fn d) s = .next t ∧ isSet t F.CLK_DIE_RST_HOLD (d * 8) = true ∧ dieState t d = 1) ∧
  (∀ s fn d, d < 8 → present s.part d = true → isSet s F.CLK_DIE_RST_HOLD (d * 8) = false → holdable s d = false →
    ∃ t, exec (.dieHold fn d) s = .next t ∧ isSet t F.CLK_DIE_RST_HOLD (d * 8) = false ∧ dieState t d = dieState s d) ∧
  (∀ s d, d < 8 → dieState s d = 1 →
    ∃ t, exec (.dieFlushDone d) s = .next t ∧ dieState t d = 2 ∧ t.plats = s.plats ∧ jobsOf t (d * 4) = []) ∧
  (∀ s d, d < 8 → dieState s d = 2 → diePlat s d = false →
    ∃ t, exec (.dieRelease d) s = .next t ∧ dieState t d = 3 ∧ isSet t F.CLK_DIE_RST_HOLD (d * 8) = false ∧
      isSet t F.CLK_DIE_RST_BY_BRIM (d * 8) = false) ∧
  (∀ s d, d < 8 → dieState s d = 3 →
    ∃ t, exec (.dieReleaseDone d) s = .next t ∧ dieState t d = 0 ∧ isSet t F.FAB_CTL_ENABLE (dieO d) = true ∧
      isSet t F.HBM_STACK_CTL_ENABLE (dieO d) = true ∧ spcState t d = 1) ∧
  (∀ s d e n, edgeFar s d e = some n → e < 3 → edgeUp s d e = true → TablesNamed s → e ≠ 0 ∨ twinned s (d / 2) = false →
    ∃ t, exec (.chainEdgeLoss d e) s = .next t ∧ getF t F.PKG_EDGE_STATE (edgeO d e) = 1 ∧
      getF t F.PKG_EDGE_STATE (edgeO n (edgeToward n d)) = 1) ∧
  (∀ s d e n, edgeFar s d e = some n → e < 3 → getF s F.PKG_EDGE_STATE (edgeO d e) = 1 →
    (∃ t, exec (.edgeRetrainAttemptEnd d e true) s = .next t ∧ getF t F.PKG_EDGE_STATE (edgeO d e) = 2 ∧
      getF t F.PKG_EDGE_STATE (edgeO n (edgeToward n d)) = 2 ∧ isSet t F.CLK_EVENT_EDGE_UP 0 = true) ∧
    (getF s F.PKG_EDGE_ATTEMPTS (edgeO d e) < 2 →
      ∃ t, exec (.edgeRetrainAttemptEnd d e false) s = .next t ∧ getF t F.PKG_EDGE_STATE (edgeO d e) = 1 ∧
        getF t F.PKG_EDGE_ATTEMPTS (edgeO d e) = getF s F.PKG_EDGE_ATTEMPTS (edgeO d e) + 1) ∧
    (2 ≤ getF s F.PKG_EDGE_ATTEMPTS (edgeO d e) →
      ∃ t, exec (.edgeRetrainAttemptEnd d e false) s = .next t ∧ getF t F.PKG_EDGE_STATE (edgeO d e) = 0 ∧
        isSet t F.CLK_EVENT_EDGE_DOWN 0 = true))

/-- O56. Host ports train, attention and eject raise their events, quiesce makes the package safe. Completion: perstDeassert, dlActive,
hpAttn, quiesce, quiesceDone, hpEject. From 16_clocks_bringup.md,
14_functions.md. -/
def Obligations.PortsTrainAndPackageEjects : Prop :=
  (∀ s p, ∃ t, exec (.perstDeassert p) s = .next t ∧ p ∉ t.pwr.perst ∧ t.regs = s.regs) ∧
  (∀ s p, mayTrain s p = true →
    ∃ t, exec (.dlActive p) s = .next t ∧ isSet t F.CLK_PORT_LINK_UP (p * 8) = true ∧ 1 ≤ getF t F.CLK_PORT_SPEED (p * 8) ∧
      getF t F.CLK_PORT_SPEED (p * 8) ≤ 6 ∧ (resetting s p = false → getF t F.FN_ATTR_STATE (attrO p) = 1)) ∧
  (∀ s p, mayTrain s p = false → exec (.dlActive p) s = .next s) ∧
  (∀ s, isSet s F.PKG_STRAP_HOTPLUG 0 = true →
    ∃ t, exec .hpAttn s = .next t ∧ isSet t F.CLK_HP_ATTN 0 = true ∧ isSet t F.CLK_EVENT_HP_ATTN 0 = true) ∧
  (∀ s c, c = .hpAttn ∨ c = .hpEject → isSet s F.PKG_STRAP_HOTPLUG 0 = false → exec c s = .next s) ∧
  (∀ s, isSet s F.CLK_HP_QUIESCE 0 = false → TablesNamed s →
    ∃ t, exec .quiesce s = .next t ∧ isSet t F.CLK_HP_QUIESCE 0 = true ∧ t.pwr.quiescing = true ∧
      ∀ p, p < s.part.ports → isSet t F.TRN_PORT_CTL_ENABLE (portO p) = false) ∧
  (∀ s, s.pwr.quiescing = true → ringsIn s 2 = [] → (∀ e ∈ s.dst.cw, e.2 = []) →
    ∃ t, exec .quiesceDone s = .next t ∧ isSet t F.CLK_HP_SAFE 0 = true ∧ isSet t F.CLK_EVENT_QUIESCED 0 = true ∧
      t.pwr.quiescing = false ∧ t.sec.store.isSome = true ∧ SentFirst s t (.pin pinSafe false)) ∧
  (∀ s, isSet s F.PKG_STRAP_HOTPLUG 0 = true → isSet s F.CLK_HP_SAFE 0 = false →
    ∃ t, exec .hpEject s = .next t ∧ isSet t F.CLK_HP_EJECT 0 = true ∧ isSet t F.CLK_HP_QUIESCE 0 = true ∧
      isSet t F.CLK_EVENT_HP_EJECT 0 = true)

/-- O57. MIN_SVN commits, plat keys and attestation reports. Completion: secSvnCommit, install, clear, attestReq, attestDone. From 17_security_errors.md. -/
def Obligations.KeysAndAttestation : Prop :=
  (∀ s fn data, bits data 0 1 = 1 → bits data 16 16 = 0x5356 →
    ∃ t, exec (.secSvnCommit fn data) s = .next t ∧ t.sec.minSvn = max s.sec.minSvn (min 64 (getF s F.SEC_BOOT_FW_SVN 0)) ∧
      getF t F.SEC_BOOT_MIN_SVN 0 = t.sec.minSvn % 256) ∧
  (∀ s fn data, bits data 0 1 = 0 ∨ bits data 16 16 ≠ 0x5356 → exec (.secSvnCommit fn data) s = .next s) ∧
  (∀ s fn k, 0 < k → k < 8 → keyLocked s k = false →
    (∃ t, exec (.install fn k) s = .next t ∧ Tbl.get? k t.sec.keys = some (window s.sec.keyBuf 0 1312) ∧
      bits (getF t F.SEC_PK_CTL_VALID 0) k 1 = 1 ∧ getDigest t F.SEC_PK_DIG_DIGEST (k * 0x20) =
        leBytes 8 (fld (sha3 (window s.sec.keyBuf 0 1312)) 0 8) ++ leBytes 8 (fld (sha3 (window s.sec.keyBuf 0 1312)) 8 8) ++
        leBytes 8 (fld (sha3 (window s.sec.keyBuf 0 1312)) 16 8) ++ leBytes 8 (fld (sha3 (window s.sec.keyBuf 0 1312)) 24 8) ∧
      isSet t F.SEC_EVENT_KEY_CHANGED 0 = true) ∧
    (∃ t, exec (.clear fn k) s = .next t ∧ Tbl.get? k t.sec.keys = none ∧ bits (getF t F.SEC_PK_CTL_VALID 0) k 1 = 0 ∧
      isSet t F.SEC_EVENT_KEY_CHANGED 0 = true)) ∧
  (∀ s c fn k, c = .install fn k ∨ c = .clear fn k → k < 8 → keyLocked s k = true → s.logOff = false →
    ∃ t, exec c s = .next t ∧ t.sec = s.sec ∧ getF t F.SEC_PK_CTL_VALID 0 = getF s F.SEC_PK_CTL_VALID 0 ∧
      getF t F.ERR_COUNT_CORRECTED 0 = min (getF s F.ERR_COUNT_CORRECTED 0 + 1) 65535) ∧
  (∀ s, isSet s F.SEC_ATTEST_BUSY 0 = false →
    (getF s F.SEC_DBG_STAT_GRANTED 0 ≠ 2 → ∃ t, exec .attestReq s = .next t ∧ isSet t F.SEC_ATTEST_BUSY 0 = true ∧
      t.sec.body = some (reportBody s)) ∧
    (getF s F.SEC_DBG_STAT_GRANTED 0 = 2 → ∃ t, exec .attestReq s = .next t ∧ isSet t F.SEC_ATTEST_BUSY 0 = false ∧
      getF t F.SEC_ATTEST_STATUS 0 = stRejected ∧ getF t F.SEC_ATTEST_REASON 0 = 0x1406 ∧ isSet t F.SEC_EVENT_ATTEST_DONE 0 = true)) ∧
  (∀ s b, s.sec.body = some b →
    ∃ t, exec .attestDone s = .next t ∧ t.sec.report = b ++ sub (Config.mldsaSign b) 0 2420 ∧ isSet t F.SEC_ATTEST_BUSY 0 = false ∧
      getF t F.SEC_ATTEST_REPORT_LEN 0 = (b.length + 2420) % 65536 ∧ getF t F.SEC_ATTEST_STATUS 0 = 0 ∧
      isSet t F.SEC_EVENT_ATTEST_DONE 0 = true)

/-- O58. Debug unlock: challenge, submit, verification, and the three failures of R583. Completion: challenge, submit,
debugVerifyDone. From R583. -/
def Obligations.DebugUnlocks : Prop :=
  (∀ s, dbgState s < 2 → ∃ t, exec .challenge s = .next t ∧ dbgState t = 1 ∧ t.sec.nonce = true ∧
    getF t F.SEC_DBG_STAT_GRANTED 0 = getF s F.SEC_DBG_STAT_GRANTED 0) ∧
  (∀ s, dbgState s < 2 → s.sec.nonce = true →
    ∃ t r, exec .submit s = .next t ∧ dbgState t = 2 ∧ t.sec.nonce = false ∧ t.sec.sub = some r ∧
      r.level = getF s F.SEC_DBG_CTL_LEVEL 0) ∧
  (∀ s, dbgState s < 2 → s.sec.nonce = false →
    ∃ t, exec .submit s = .next t ∧ Denied s t 0x1407) ∧
  (∀ s c, c = .challenge ∨ c = .submit → 2 ≤ dbgState s → exec c s = .next s) ∧
  (∀ s, ∃ t, exec .coldReset s = .next t ∧ dbgState t = 0 ∧ getF t F.SEC_DBG_STAT_FAILS 0 = 0) ∧
  (∀ s r, s.sec.sub = some r → getF s F.SEC_DBG_STAT_GRANTED 0 ≤ 2 →
    ∃ t, exec .debugVerifyDone s = .next t ∧ t.sec.sub = none ∧
      (sha3 r.key = Config.debugKeyDigest → Config.mldsaVerify r.key (dbgMessage s r.level) r.sig = true → r.level = 1 ∨ r.level = 2 →
        getF t F.SEC_DBG_STAT_GRANTED 0 = max (getF s F.SEC_DBG_STAT_GRANTED 0) r.level ∧ dbgState t = 0 ∧
        isSet t F.SEC_EVENT_DEBUG_UNLOCKED 0 = true) ∧
      (sha3 r.key ≠ Config.debugKeyDigest → Denied s t 0x1408) ∧
      (sha3 r.key = Config.debugKeyDigest → Config.mldsaVerify r.key (dbgMessage s r.level) r.sig = false → Denied s t 0x1409))

/-- O59. Log slots are freed, entries injected, the sealed log erased. Completion: errSlotFree, errInject, erase. From 17_security_errors.md. -/
def Obligations.TheErrorLogServes : Prop :=
  (∀ s slot, slot < 64 →
    ∃ t, exec (.errSlotFree slot) s = .next t ∧ isSet t F.ERR_ENT_A_VALID (slotO slot) = false ∧
      RegsOnly (fun k => k = fkey F.ERR_ENT_A_VALID (slotO slot)) s t) ∧
  (∀ s fn sev, sev < 4 → 2 ≤ sev ∨ s.logOff = false → validSlots s = [] →
    ∃ t, exec (.errInject fn sev) s = .next t ∧ isSet t F.ERR_ENT_A_VALID (slotO 0) = true ∧ getF t F.ERR_ENT_A_SEV (slotO 0) = sev ∧
      getF t F.ERR_ENT_A_DIE (slotO 0) = 15 ∧ getF t F.ERR_ENT_A_REASON (slotO 0) = 0x130C ∧ getF t F.ERR_ENT_A_REPEAT (slotO 0) = 0 ∧
      getF t (errCountFld sev) 0 = min (getF s (errCountFld sev) 0 + 1) 65535 ∧ isSet t F.ERR_EVENT_LOGGED 0 = true) ∧
  (∀ s, ∃ t, exec .erase s = .next t ∧ t.sec.store = none ∧ isSet t F.PWR_STAT_SEALED_VALID 0 = false ∧
    RegsOnly (fun k => k = fkey F.PWR_STAT_SEALED_VALID 0) s t)

/-- O60. Register accesses: plain fields, read-to-clear, write-one-to-clear (an event of the same CTL cycle stays), bad accesses, dies
that are absent, held or cut off, gated blocks, timeouts, the MSI-X table and configuration space (at PCIe's own places: PRESUMED, log
entry 20). Completion: registerRead, registerWrite, accessTimeout. From R553, 00_scope.md, 01_architecture.md. -/
def Obligations.RegistersAreReadAndWritten : Prop :=
  (∀ s fn p data, Answers s fn → p < 2 → data < 2 ^ 64 →
    ∃ t, exec (.registerWrite fn (0xC00020 + p * 8) 8 data) s = .next t ∧ getF t F.RING_EVT_CFG_ENABLE (p * 8) = bits data 0 1 ∧
      getF t F.RING_EVT_CFG_MASK (p * 8) = bits data 1 20 ∧ getF t F.RING_EVT_CFG_VECTOR (p * 8) = bits data 32 11 ∧
      RegsOnly (fun k => k = fkey F.RING_EVT_CFG_ENABLE (p * 8) ∨ k = fkey F.RING_EVT_CFG_MASK (p * 8) ∨
        k = fkey F.RING_EVT_CFG_VECTOR (p * 8)) s t) ∧
  (∀ s fn p, Answers s fn → p < 2 →
    ∃ t, exec (.registerRead fn (0xC00020 + p * 8) 8) s = .next t ∧ t.regs = s.regs ∧
      t.out = s.out ++ [.access 0 (getF s F.RING_EVT_CFG_ENABLE (p * 8) % 2 + getF s F.RING_EVT_CFG_MASK (p * 8) % 2 ^ 20 * 2 +
        getF s F.RING_EVT_CFG_VECTOR (p * 8) % 2 ^ 11 * 2 ^ 32)]) ∧
  (∀ s fn, Answers s fn →
    ∃ t, exec (.registerRead fn 0x50018 8) s = .next t ∧
      t.out = s.out ++ [.access 0 (getF s F.ERR_COUNT_CORRECTED 0 % 2 ^ 16 + getF s F.ERR_COUNT_DEFERRED 0 % 2 ^ 16 * 2 ^ 16 +
        getF s F.ERR_COUNT_FATAL 0 % 2 ^ 16 * 2 ^ 32 + getF s F.ERR_COUNT_HALT 0 % 2 ^ 16 * 2 ^ 48)] ∧
      getF t F.ERR_COUNT_CORRECTED 0 = 0 ∧ getF t F.ERR_COUNT_DEFERRED 0 = 0 ∧ getF t F.ERR_COUNT_FATAL 0 = 0 ∧
      getF t F.ERR_COUNT_HALT 0 = 0) ∧
  (∀ s fn, Answers s fn →
    ∃ t, exec (.registerWrite fn 0x40020 8 0x10) s = .next t ∧
      (roseNow s (fkey F.CLK_EVENT_EDGE_UP 0) = false → isSet t F.CLK_EVENT_EDGE_UP 0 = false) ∧
      (roseNow s (fkey F.CLK_EVENT_EDGE_UP 0) = true → getF t F.CLK_EVENT_EDGE_UP 0 = getF s F.CLK_EVENT_EDGE_UP 0) ∧
      (∀ f ∈ [F.CLK_EVENT_REF_UNSTABLE, F.CLK_EVENT_HOLDOVER, F.CLK_EVENT_REF_SWITCH, F.CLK_EVENT_EDGE_DOWN, F.CLK_EVENT_PORT_LOST,
        F.CLK_EVENT_HP_ATTN, F.CLK_EVENT_HP_EJECT, F.CLK_EVENT_QUIESCED], getF t f 0 = getF s f 0 % 2) ∧
      RegsOnly (fun k => fkey F.CLK_EVENT_REF_UNSTABLE 0 ≤ k ∧ k ≤ fkey F.CLK_EVENT_QUIESCED 0) s t) ∧
  (∀ s c fn off len v, Answers s fn → goodAccess off len = false → c = .registerRead fn off len ∨ c = .registerWrite fn off len v →
    s.logOff = false →
    ∃ t, exec c s = .next t ∧ t.out.getLast? = some (.access 1 0) ∧
      getF t F.ERR_COUNT_CORRECTED 0 = min (getF s F.ERR_COUNT_CORRECTED 0 + 1) 65535) ∧
  (∀ s fn off d, windowDie off = some d → dieUp s d = true → s.logOff = false →
    ∃ t u, exec (.accessTimeout fn off false) s = .next t ∧ exec (.accessTimeout fn off true) s = .next u ∧
      t.out = u.out ++ [.access 2 0] ∧
      getF u F.ERR_COUNT_CORRECTED 0 = min (getF s F.ERR_COUNT_CORRECTED 0 + 1) 65535) ∧
  (∀ s fn off len data d b, Answers s fn → goodAccess off len = true → windowDie off = some d → gateBit off = some b →
    bits (getF s F.CLK_GATE_GATE (d * 8)) b 1 = 1 →
    exec (.registerRead fn off len) s = .next (answer s 0 0) ∧ exec (.registerWrite fn off len data) s = .next s) ∧
  (∀ s fn off len data d, Answers s fn → goodAccess off len = true → windowDie off = some d → dieUp s d = false →
    exec (.registerRead fn off len) s = .next (answer s 0 0) ∧ exec (.registerWrite fn off len data) s = .next s) ∧
  (∀ s fn off len data, Answers s fn → goodAccess off len = true → silentZero s off = false → accessLost s fn off = true →
    exec (.registerRead fn off len) s = .next s ∧ exec (.registerWrite fn off len data) s = .next s) ∧
  (∀ s fn vec data, Answers s fn → vec < 2048 →
    ∃ t u, exec (.registerWrite fn (2 ^ 33 + vec * 16 + 8) 4 data) s = .next t ∧ t.regs = s.regs ∧
      Tbl.getD t.rings.msixTable ((fn * 2048 + vec) * 4 + 2) 0 = data % 2 ^ 32 ∧
      exec (.registerRead fn (2 ^ 33 + vec * 16 + 8) 4) t = .next u ∧ u.out = t.out ++ [.access 0 (data % 2 ^ 32)]) ∧
  (∀ s fn vec, Answers s fn → vec < 2048 →
    ∃ t, exec (.registerWrite fn (2 ^ 33 + vec * 16 + 12) 4 1) s = .next t ∧ t.regs = s.regs ∧
      t.rings.unmasked = s.rings.unmasked.erase (fn * 2048 + vec)) ∧
  (∀ s fn, Answers s fn →
    ∃ t, exec (.registerRead fn (2 ^ 34) 4) s = .next t ∧ t.regs = s.regs ∧
      t.out = s.out ++ [.access 0 (Config.vendorId.toNat + deviceId s.part * 2 ^ 16)]) ∧
  (∀ s fn, isVf fn = true → unpowered s = false → s.pwr.warm = 0 → resetting s fn = false →
    ∃ t, exec (.registerRead fn 0 8) s = .next t ∧ t.regs = s.regs ∧
      t.out = s.out ++ [.access 0 (fn + pfOf fn * 2 ^ 11 + (fn % 0x200 + 1) * 2 ^ 12)])
end

