-- ==== Sys2Proof/Laws/State.lean ====
section
/-! SUPPORT. What each update of the state leaves in each field of `State`: one lemma for each field and update. -/

namespace Sys2Proof.Machine

/-! ### modFab -/

@[simp] theorem modFab_part (s : State) (f : Fab → Fab) : (modFab s f).part = s.part := rfl
@[simp] theorem modFab_now (s : State) (f : Fab → Fab) : (modFab s f).now = s.now := rfl
@[simp] theorem modFab_nonce (s : State) (f : Fab → Fab) : (modFab s f).nonce = s.nonce := rfl
@[simp] theorem modFab_regs (s : State) (f : Fab → Fab) : (modFab s f).regs = s.regs := rfl
@[simp] theorem modFab_shadow (s : State) (f : Fab → Fab) : (modFab s f).shadow = s.shadow := rfl
@[simp] theorem modFab_undef (s : State) (f : Fab → Fab) : (modFab s f).undef = s.undef := rfl
@[simp] theorem modFab_bmk (s : State) (f : Fab → Fab) : (modFab s f).bmk = s.bmk := rfl
@[simp] theorem modFab_ports (s : State) (f : Fab → Fab) : (modFab s f).ports = s.ports := rfl
@[simp] theorem modFab_plats (s : State) (f : Fab → Fab) : (modFab s f).plats = s.plats := rfl
@[simp] theorem modFab_fab (s : State) (f : Fab → Fab) : (modFab s f).fab = f s.fab := rfl
@[simp] theorem modFab_tstore (s : State) (f : Fab → Fab) : (modFab s f).tstore = s.tstore := rfl
@[simp] theorem modFab_dst (s : State) (f : Fab → Fab) : (modFab s f).dst = s.dst := rfl
@[simp] theorem modFab_rings (s : State) (f : Fab → Fab) : (modFab s f).rings = s.rings := rfl
@[simp] theorem modFab_srm (s : State) (f : Fab → Fab) : (modFab s f).srm = s.srm := rfl
@[simp] theorem modFab_hbm (s : State) (f : Fab → Fab) : (modFab s f).hbm = s.hbm := rfl
@[simp] theorem modFab_cdc (s : State) (f : Fab → Fab) : (modFab s f).cdc = s.cdc := rfl
@[simp] theorem modFab_dma (s : State) (f : Fab → Fab) : (modFab s f).dma = s.dma := rfl
@[simp] theorem modFab_devCtl (s : State) (f : Fab → Fab) : (modFab s f).devCtl = s.devCtl := rfl
@[simp] theorem modFab_fns (s : State) (f : Fab → Fab) : (modFab s f).fns = s.fns := rfl
@[simp] theorem modFab_twn (s : State) (f : Fab → Fab) : (modFab s f).twn = s.twn := rfl
@[simp] theorem modFab_pwr (s : State) (f : Fab → Fab) : (modFab s f).pwr = s.pwr := rfl
@[simp] theorem modFab_sec (s : State) (f : Fab → Fab) : (modFab s f).sec = s.sec := rfl
@[simp] theorem modFab_logSeq (s : State) (f : Fab → Fab) : (modFab s f).logSeq = s.logSeq := rfl
@[simp] theorem modFab_logOff (s : State) (f : Fab → Fab) : (modFab s f).logOff = s.logOff := rfl
@[simp] theorem modFab_logCyc (s : State) (f : Fab → Fab) : (modFab s f).logCyc = s.logCyc := rfl
@[simp] theorem modFab_logNow (s : State) (f : Fab → Fab) : (modFab s f).logNow = s.logNow := rfl
@[simp] theorem modFab_out (s : State) (f : Fab → Fab) : (modFab s f).out = s.out := rfl
@[simp] theorem modFab_pending (s : State) (f : Fab → Fab) : (modFab s f).pending = s.pending := rfl

/-! ### modBmk -/

@[simp] theorem modBmk_part (s : State) (f : Bmk → Bmk) : (modBmk s f).part = s.part := rfl
@[simp] theorem modBmk_now (s : State) (f : Bmk → Bmk) : (modBmk s f).now = s.now := rfl
@[simp] theorem modBmk_nonce (s : State) (f : Bmk → Bmk) : (modBmk s f).nonce = s.nonce := rfl
@[simp] theorem modBmk_regs (s : State) (f : Bmk → Bmk) : (modBmk s f).regs = s.regs := rfl
@[simp] theorem modBmk_shadow (s : State) (f : Bmk → Bmk) : (modBmk s f).shadow = s.shadow := rfl
@[simp] theorem modBmk_undef (s : State) (f : Bmk → Bmk) : (modBmk s f).undef = s.undef := rfl
@[simp] theorem modBmk_bmk (s : State) (f : Bmk → Bmk) : (modBmk s f).bmk = f s.bmk := rfl
@[simp] theorem modBmk_ports (s : State) (f : Bmk → Bmk) : (modBmk s f).ports = s.ports := rfl
@[simp] theorem modBmk_plats (s : State) (f : Bmk → Bmk) : (modBmk s f).plats = s.plats := rfl
@[simp] theorem modBmk_fab (s : State) (f : Bmk → Bmk) : (modBmk s f).fab = s.fab := rfl
@[simp] theorem modBmk_tstore (s : State) (f : Bmk → Bmk) : (modBmk s f).tstore = s.tstore := rfl
@[simp] theorem modBmk_dst (s : State) (f : Bmk → Bmk) : (modBmk s f).dst = s.dst := rfl
@[simp] theorem modBmk_rings (s : State) (f : Bmk → Bmk) : (modBmk s f).rings = s.rings := rfl
@[simp] theorem modBmk_srm (s : State) (f : Bmk → Bmk) : (modBmk s f).srm = s.srm := rfl
@[simp] theorem modBmk_hbm (s : State) (f : Bmk → Bmk) : (modBmk s f).hbm = s.hbm := rfl
@[simp] theorem modBmk_cdc (s : State) (f : Bmk → Bmk) : (modBmk s f).cdc = s.cdc := rfl
@[simp] theorem modBmk_dma (s : State) (f : Bmk → Bmk) : (modBmk s f).dma = s.dma := rfl
@[simp] theorem modBmk_devCtl (s : State) (f : Bmk → Bmk) : (modBmk s f).devCtl = s.devCtl := rfl
@[simp] theorem modBmk_fns (s : State) (f : Bmk → Bmk) : (modBmk s f).fns = s.fns := rfl
@[simp] theorem modBmk_twn (s : State) (f : Bmk → Bmk) : (modBmk s f).twn = s.twn := rfl
@[simp] theorem modBmk_pwr (s : State) (f : Bmk → Bmk) : (modBmk s f).pwr = s.pwr := rfl
@[simp] theorem modBmk_sec (s : State) (f : Bmk → Bmk) : (modBmk s f).sec = s.sec := rfl
@[simp] theorem modBmk_logSeq (s : State) (f : Bmk → Bmk) : (modBmk s f).logSeq = s.logSeq := rfl
@[simp] theorem modBmk_logOff (s : State) (f : Bmk → Bmk) : (modBmk s f).logOff = s.logOff := rfl
@[simp] theorem modBmk_logCyc (s : State) (f : Bmk → Bmk) : (modBmk s f).logCyc = s.logCyc := rfl
@[simp] theorem modBmk_logNow (s : State) (f : Bmk → Bmk) : (modBmk s f).logNow = s.logNow := rfl
@[simp] theorem modBmk_out (s : State) (f : Bmk → Bmk) : (modBmk s f).out = s.out := rfl
@[simp] theorem modBmk_pending (s : State) (f : Bmk → Bmk) : (modBmk s f).pending = s.pending := rfl

/-! ### modCdc -/

@[simp] theorem modCdc_part (s : State) (f : Cdc → Cdc) : (modCdc s f).part = s.part := rfl
@[simp] theorem modCdc_now (s : State) (f : Cdc → Cdc) : (modCdc s f).now = s.now := rfl
@[simp] theorem modCdc_nonce (s : State) (f : Cdc → Cdc) : (modCdc s f).nonce = s.nonce := rfl
@[simp] theorem modCdc_regs (s : State) (f : Cdc → Cdc) : (modCdc s f).regs = s.regs := rfl
@[simp] theorem modCdc_shadow (s : State) (f : Cdc → Cdc) : (modCdc s f).shadow = s.shadow := rfl
@[simp] theorem modCdc_undef (s : State) (f : Cdc → Cdc) : (modCdc s f).undef = s.undef := rfl
@[simp] theorem modCdc_bmk (s : State) (f : Cdc → Cdc) : (modCdc s f).bmk = s.bmk := rfl
@[simp] theorem modCdc_ports (s : State) (f : Cdc → Cdc) : (modCdc s f).ports = s.ports := rfl
@[simp] theorem modCdc_plats (s : State) (f : Cdc → Cdc) : (modCdc s f).plats = s.plats := rfl
@[simp] theorem modCdc_fab (s : State) (f : Cdc → Cdc) : (modCdc s f).fab = s.fab := rfl
@[simp] theorem modCdc_tstore (s : State) (f : Cdc → Cdc) : (modCdc s f).tstore = s.tstore := rfl
@[simp] theorem modCdc_dst (s : State) (f : Cdc → Cdc) : (modCdc s f).dst = s.dst := rfl
@[simp] theorem modCdc_rings (s : State) (f : Cdc → Cdc) : (modCdc s f).rings = s.rings := rfl
@[simp] theorem modCdc_srm (s : State) (f : Cdc → Cdc) : (modCdc s f).srm = s.srm := rfl
@[simp] theorem modCdc_hbm (s : State) (f : Cdc → Cdc) : (modCdc s f).hbm = s.hbm := rfl
@[simp] theorem modCdc_cdc (s : State) (f : Cdc → Cdc) : (modCdc s f).cdc = f s.cdc := rfl
@[simp] theorem modCdc_dma (s : State) (f : Cdc → Cdc) : (modCdc s f).dma = s.dma := rfl
@[simp] theorem modCdc_devCtl (s : State) (f : Cdc → Cdc) : (modCdc s f).devCtl = s.devCtl := rfl
@[simp] theorem modCdc_fns (s : State) (f : Cdc → Cdc) : (modCdc s f).fns = s.fns := rfl
@[simp] theorem modCdc_twn (s : State) (f : Cdc → Cdc) : (modCdc s f).twn = s.twn := rfl
@[simp] theorem modCdc_pwr (s : State) (f : Cdc → Cdc) : (modCdc s f).pwr = s.pwr := rfl
@[simp] theorem modCdc_sec (s : State) (f : Cdc → Cdc) : (modCdc s f).sec = s.sec := rfl
@[simp] theorem modCdc_logSeq (s : State) (f : Cdc → Cdc) : (modCdc s f).logSeq = s.logSeq := rfl
@[simp] theorem modCdc_logOff (s : State) (f : Cdc → Cdc) : (modCdc s f).logOff = s.logOff := rfl
@[simp] theorem modCdc_logCyc (s : State) (f : Cdc → Cdc) : (modCdc s f).logCyc = s.logCyc := rfl
@[simp] theorem modCdc_logNow (s : State) (f : Cdc → Cdc) : (modCdc s f).logNow = s.logNow := rfl
@[simp] theorem modCdc_out (s : State) (f : Cdc → Cdc) : (modCdc s f).out = s.out := rfl
@[simp] theorem modCdc_pending (s : State) (f : Cdc → Cdc) : (modCdc s f).pending = s.pending := rfl

/-! ### modPwr -/

@[simp] theorem modPwr_part (s : State) (f : Pwr → Pwr) : (modPwr s f).part = s.part := rfl
@[simp] theorem modPwr_now (s : State) (f : Pwr → Pwr) : (modPwr s f).now = s.now := rfl
@[simp] theorem modPwr_nonce (s : State) (f : Pwr → Pwr) : (modPwr s f).nonce = s.nonce := rfl
@[simp] theorem modPwr_regs (s : State) (f : Pwr → Pwr) : (modPwr s f).regs = s.regs := rfl
@[simp] theorem modPwr_shadow (s : State) (f : Pwr → Pwr) : (modPwr s f).shadow = s.shadow := rfl
@[simp] theorem modPwr_undef (s : State) (f : Pwr → Pwr) : (modPwr s f).undef = s.undef := rfl
@[simp] theorem modPwr_bmk (s : State) (f : Pwr → Pwr) : (modPwr s f).bmk = s.bmk := rfl
@[simp] theorem modPwr_ports (s : State) (f : Pwr → Pwr) : (modPwr s f).ports = s.ports := rfl
@[simp] theorem modPwr_plats (s : State) (f : Pwr → Pwr) : (modPwr s f).plats = s.plats := rfl
@[simp] theorem modPwr_fab (s : State) (f : Pwr → Pwr) : (modPwr s f).fab = s.fab := rfl
@[simp] theorem modPwr_tstore (s : State) (f : Pwr → Pwr) : (modPwr s f).tstore = s.tstore := rfl
@[simp] theorem modPwr_dst (s : State) (f : Pwr → Pwr) : (modPwr s f).dst = s.dst := rfl
@[simp] theorem modPwr_rings (s : State) (f : Pwr → Pwr) : (modPwr s f).rings = s.rings := rfl
@[simp] theorem modPwr_srm (s : State) (f : Pwr → Pwr) : (modPwr s f).srm = s.srm := rfl
@[simp] theorem modPwr_hbm (s : State) (f : Pwr → Pwr) : (modPwr s f).hbm = s.hbm := rfl
@[simp] theorem modPwr_cdc (s : State) (f : Pwr → Pwr) : (modPwr s f).cdc = s.cdc := rfl
@[simp] theorem modPwr_dma (s : State) (f : Pwr → Pwr) : (modPwr s f).dma = s.dma := rfl
@[simp] theorem modPwr_devCtl (s : State) (f : Pwr → Pwr) : (modPwr s f).devCtl = s.devCtl := rfl
@[simp] theorem modPwr_fns (s : State) (f : Pwr → Pwr) : (modPwr s f).fns = s.fns := rfl
@[simp] theorem modPwr_twn (s : State) (f : Pwr → Pwr) : (modPwr s f).twn = s.twn := rfl
@[simp] theorem modPwr_pwr (s : State) (f : Pwr → Pwr) : (modPwr s f).pwr = f s.pwr := rfl
@[simp] theorem modPwr_sec (s : State) (f : Pwr → Pwr) : (modPwr s f).sec = s.sec := rfl
@[simp] theorem modPwr_logSeq (s : State) (f : Pwr → Pwr) : (modPwr s f).logSeq = s.logSeq := rfl
@[simp] theorem modPwr_logOff (s : State) (f : Pwr → Pwr) : (modPwr s f).logOff = s.logOff := rfl
@[simp] theorem modPwr_logCyc (s : State) (f : Pwr → Pwr) : (modPwr s f).logCyc = s.logCyc := rfl
@[simp] theorem modPwr_logNow (s : State) (f : Pwr → Pwr) : (modPwr s f).logNow = s.logNow := rfl
@[simp] theorem modPwr_out (s : State) (f : Pwr → Pwr) : (modPwr s f).out = s.out := rfl
@[simp] theorem modPwr_pending (s : State) (f : Pwr → Pwr) : (modPwr s f).pending = s.pending := rfl

/-! ### modSec -/

@[simp] theorem modSec_part (s : State) (f : Sec → Sec) : (modSec s f).part = s.part := rfl
@[simp] theorem modSec_now (s : State) (f : Sec → Sec) : (modSec s f).now = s.now := rfl
@[simp] theorem modSec_nonce (s : State) (f : Sec → Sec) : (modSec s f).nonce = s.nonce := rfl
@[simp] theorem modSec_regs (s : State) (f : Sec → Sec) : (modSec s f).regs = s.regs := rfl
@[simp] theorem modSec_shadow (s : State) (f : Sec → Sec) : (modSec s f).shadow = s.shadow := rfl
@[simp] theorem modSec_undef (s : State) (f : Sec → Sec) : (modSec s f).undef = s.undef := rfl
@[simp] theorem modSec_bmk (s : State) (f : Sec → Sec) : (modSec s f).bmk = s.bmk := rfl
@[simp] theorem modSec_ports (s : State) (f : Sec → Sec) : (modSec s f).ports = s.ports := rfl
@[simp] theorem modSec_plats (s : State) (f : Sec → Sec) : (modSec s f).plats = s.plats := rfl
@[simp] theorem modSec_fab (s : State) (f : Sec → Sec) : (modSec s f).fab = s.fab := rfl
@[simp] theorem modSec_tstore (s : State) (f : Sec → Sec) : (modSec s f).tstore = s.tstore := rfl
@[simp] theorem modSec_dst (s : State) (f : Sec → Sec) : (modSec s f).dst = s.dst := rfl
@[simp] theorem modSec_rings (s : State) (f : Sec → Sec) : (modSec s f).rings = s.rings := rfl
@[simp] theorem modSec_srm (s : State) (f : Sec → Sec) : (modSec s f).srm = s.srm := rfl
@[simp] theorem modSec_hbm (s : State) (f : Sec → Sec) : (modSec s f).hbm = s.hbm := rfl
@[simp] theorem modSec_cdc (s : State) (f : Sec → Sec) : (modSec s f).cdc = s.cdc := rfl
@[simp] theorem modSec_dma (s : State) (f : Sec → Sec) : (modSec s f).dma = s.dma := rfl
@[simp] theorem modSec_devCtl (s : State) (f : Sec → Sec) : (modSec s f).devCtl = s.devCtl := rfl
@[simp] theorem modSec_fns (s : State) (f : Sec → Sec) : (modSec s f).fns = s.fns := rfl
@[simp] theorem modSec_twn (s : State) (f : Sec → Sec) : (modSec s f).twn = s.twn := rfl
@[simp] theorem modSec_pwr (s : State) (f : Sec → Sec) : (modSec s f).pwr = s.pwr := rfl
@[simp] theorem modSec_sec (s : State) (f : Sec → Sec) : (modSec s f).sec = f s.sec := rfl
@[simp] theorem modSec_logSeq (s : State) (f : Sec → Sec) : (modSec s f).logSeq = s.logSeq := rfl
@[simp] theorem modSec_logOff (s : State) (f : Sec → Sec) : (modSec s f).logOff = s.logOff := rfl
@[simp] theorem modSec_logCyc (s : State) (f : Sec → Sec) : (modSec s f).logCyc = s.logCyc := rfl
@[simp] theorem modSec_logNow (s : State) (f : Sec → Sec) : (modSec s f).logNow = s.logNow := rfl
@[simp] theorem modSec_out (s : State) (f : Sec → Sec) : (modSec s f).out = s.out := rfl
@[simp] theorem modSec_pending (s : State) (f : Sec → Sec) : (modSec s f).pending = s.pending := rfl

/-! ### modPort -/

@[simp] theorem modPort_part (s : State) (p : Nat) (f : Port → Port) : (modPort s p f).part = s.part := rfl
@[simp] theorem modPort_now (s : State) (p : Nat) (f : Port → Port) : (modPort s p f).now = s.now := rfl
@[simp] theorem modPort_nonce (s : State) (p : Nat) (f : Port → Port) : (modPort s p f).nonce = s.nonce := rfl
@[simp] theorem modPort_regs (s : State) (p : Nat) (f : Port → Port) : (modPort s p f).regs = s.regs := rfl
@[simp] theorem modPort_shadow (s : State) (p : Nat) (f : Port → Port) : (modPort s p f).shadow = s.shadow := rfl
@[simp] theorem modPort_undef (s : State) (p : Nat) (f : Port → Port) : (modPort s p f).undef = s.undef := rfl
@[simp] theorem modPort_bmk (s : State) (p : Nat) (f : Port → Port) : (modPort s p f).bmk = s.bmk := rfl
@[simp] theorem modPort_ports (s : State) (p : Nat) (f : Port → Port) : (modPort s p f).ports = Tbl.upd s.ports p {} f := rfl
@[simp] theorem modPort_plats (s : State) (p : Nat) (f : Port → Port) : (modPort s p f).plats = s.plats := rfl
@[simp] theorem modPort_fab (s : State) (p : Nat) (f : Port → Port) : (modPort s p f).fab = s.fab := rfl
@[simp] theorem modPort_tstore (s : State) (p : Nat) (f : Port → Port) : (modPort s p f).tstore = s.tstore := rfl
@[simp] theorem modPort_dst (s : State) (p : Nat) (f : Port → Port) : (modPort s p f).dst = s.dst := rfl
@[simp] theorem modPort_rings (s : State) (p : Nat) (f : Port → Port) : (modPort s p f).rings = s.rings := rfl
@[simp] theorem modPort_srm (s : State) (p : Nat) (f : Port → Port) : (modPort s p f).srm = s.srm := rfl
@[simp] theorem modPort_hbm (s : State) (p : Nat) (f : Port → Port) : (modPort s p f).hbm = s.hbm := rfl
@[simp] theorem modPort_cdc (s : State) (p : Nat) (f : Port → Port) : (modPort s p f).cdc = s.cdc := rfl
@[simp] theorem modPort_dma (s : State) (p : Nat) (f : Port → Port) : (modPort s p f).dma = s.dma := rfl
@[simp] theorem modPort_devCtl (s : State) (p : Nat) (f : Port → Port) : (modPort s p f).devCtl = s.devCtl := rfl
@[simp] theorem modPort_fns (s : State) (p : Nat) (f : Port → Port) : (modPort s p f).fns = s.fns := rfl
@[simp] theorem modPort_twn (s : State) (p : Nat) (f : Port → Port) : (modPort s p f).twn = s.twn := rfl
@[simp] theorem modPort_pwr (s : State) (p : Nat) (f : Port → Port) : (modPort s p f).pwr = s.pwr := rfl
@[simp] theorem modPort_sec (s : State) (p : Nat) (f : Port → Port) : (modPort s p f).sec = s.sec := rfl
@[simp] theorem modPort_logSeq (s : State) (p : Nat) (f : Port → Port) : (modPort s p f).logSeq = s.logSeq := rfl
@[simp] theorem modPort_logOff (s : State) (p : Nat) (f : Port → Port) : (modPort s p f).logOff = s.logOff := rfl
@[simp] theorem modPort_logCyc (s : State) (p : Nat) (f : Port → Port) : (modPort s p f).logCyc = s.logCyc := rfl
@[simp] theorem modPort_logNow (s : State) (p : Nat) (f : Port → Port) : (modPort s p f).logNow = s.logNow := rfl
@[simp] theorem modPort_out (s : State) (p : Nat) (f : Port → Port) : (modPort s p f).out = s.out := rfl
@[simp] theorem modPort_pending (s : State) (p : Nat) (f : Port → Port) : (modPort s p f).pending = s.pending := rfl

/-! ### modRing -/

@[simp] theorem modRing_part (s : State) (n : Nat) (f : Ring → Ring) : (modRing s n f).part = s.part := rfl
@[simp] theorem modRing_now (s : State) (n : Nat) (f : Ring → Ring) : (modRing s n f).now = s.now := rfl
@[simp] theorem modRing_nonce (s : State) (n : Nat) (f : Ring → Ring) : (modRing s n f).nonce = s.nonce := rfl
@[simp] theorem modRing_regs (s : State) (n : Nat) (f : Ring → Ring) : (modRing s n f).regs = s.regs := rfl
@[simp] theorem modRing_shadow (s : State) (n : Nat) (f : Ring → Ring) : (modRing s n f).shadow = s.shadow := rfl
@[simp] theorem modRing_undef (s : State) (n : Nat) (f : Ring → Ring) : (modRing s n f).undef = s.undef := rfl
@[simp] theorem modRing_bmk (s : State) (n : Nat) (f : Ring → Ring) : (modRing s n f).bmk = s.bmk := rfl
@[simp] theorem modRing_ports (s : State) (n : Nat) (f : Ring → Ring) : (modRing s n f).ports = s.ports := rfl
@[simp] theorem modRing_plats (s : State) (n : Nat) (f : Ring → Ring) : (modRing s n f).plats = s.plats := rfl
@[simp] theorem modRing_fab (s : State) (n : Nat) (f : Ring → Ring) : (modRing s n f).fab = s.fab := rfl
@[simp] theorem modRing_tstore (s : State) (n : Nat) (f : Ring → Ring) : (modRing s n f).tstore = s.tstore := rfl
@[simp] theorem modRing_dst (s : State) (n : Nat) (f : Ring → Ring) : (modRing s n f).dst = s.dst := rfl
@[simp] theorem modRing_rings (s : State) (n : Nat) (f : Ring → Ring) : (modRing s n f).rings = { s.rings with rings := Tbl.upd s.rings.rings n {} f } := rfl
@[simp] theorem modRing_srm (s : State) (n : Nat) (f : Ring → Ring) : (modRing s n f).srm = s.srm := rfl
@[simp] theorem modRing_hbm (s : State) (n : Nat) (f : Ring → Ring) : (modRing s n f).hbm = s.hbm := rfl
@[simp] theorem modRing_cdc (s : State) (n : Nat) (f : Ring → Ring) : (modRing s n f).cdc = s.cdc := rfl
@[simp] theorem modRing_dma (s : State) (n : Nat) (f : Ring → Ring) : (modRing s n f).dma = s.dma := rfl
@[simp] theorem modRing_devCtl (s : State) (n : Nat) (f : Ring → Ring) : (modRing s n f).devCtl = s.devCtl := rfl
@[simp] theorem modRing_fns (s : State) (n : Nat) (f : Ring → Ring) : (modRing s n f).fns = s.fns := rfl
@[simp] theorem modRing_twn (s : State) (n : Nat) (f : Ring → Ring) : (modRing s n f).twn = s.twn := rfl
@[simp] theorem modRing_pwr (s : State) (n : Nat) (f : Ring → Ring) : (modRing s n f).pwr = s.pwr := rfl
@[simp] theorem modRing_sec (s : State) (n : Nat) (f : Ring → Ring) : (modRing s n f).sec = s.sec := rfl
@[simp] theorem modRing_logSeq (s : State) (n : Nat) (f : Ring → Ring) : (modRing s n f).logSeq = s.logSeq := rfl
@[simp] theorem modRing_logOff (s : State) (n : Nat) (f : Ring → Ring) : (modRing s n f).logOff = s.logOff := rfl
@[simp] theorem modRing_logCyc (s : State) (n : Nat) (f : Ring → Ring) : (modRing s n f).logCyc = s.logCyc := rfl
@[simp] theorem modRing_logNow (s : State) (n : Nat) (f : Ring → Ring) : (modRing s n f).logNow = s.logNow := rfl
@[simp] theorem modRing_out (s : State) (n : Nat) (f : Ring → Ring) : (modRing s n f).out = s.out := rfl
@[simp] theorem modRing_pending (s : State) (n : Nat) (f : Ring → Ring) : (modRing s n f).pending = s.pending := rfl

/-! ### modPc -/

@[simp] theorem modPc_part (s : State) (d c : Nat) (f : HPc → HPc) : (modPc s d c f).part = s.part := rfl
@[simp] theorem modPc_now (s : State) (d c : Nat) (f : HPc → HPc) : (modPc s d c f).now = s.now := rfl
@[simp] theorem modPc_nonce (s : State) (d c : Nat) (f : HPc → HPc) : (modPc s d c f).nonce = s.nonce := rfl
@[simp] theorem modPc_regs (s : State) (d c : Nat) (f : HPc → HPc) : (modPc s d c f).regs = s.regs := rfl
@[simp] theorem modPc_shadow (s : State) (d c : Nat) (f : HPc → HPc) : (modPc s d c f).shadow = s.shadow := rfl
@[simp] theorem modPc_undef (s : State) (d c : Nat) (f : HPc → HPc) : (modPc s d c f).undef = s.undef := rfl
@[simp] theorem modPc_bmk (s : State) (d c : Nat) (f : HPc → HPc) : (modPc s d c f).bmk = s.bmk := rfl
@[simp] theorem modPc_ports (s : State) (d c : Nat) (f : HPc → HPc) : (modPc s d c f).ports = s.ports := rfl
@[simp] theorem modPc_plats (s : State) (d c : Nat) (f : HPc → HPc) : (modPc s d c f).plats = s.plats := rfl
@[simp] theorem modPc_fab (s : State) (d c : Nat) (f : HPc → HPc) : (modPc s d c f).fab = s.fab := rfl
@[simp] theorem modPc_tstore (s : State) (d c : Nat) (f : HPc → HPc) : (modPc s d c f).tstore = s.tstore := rfl
@[simp] theorem modPc_dst (s : State) (d c : Nat) (f : HPc → HPc) : (modPc s d c f).dst = s.dst := rfl
@[simp] theorem modPc_rings (s : State) (d c : Nat) (f : HPc → HPc) : (modPc s d c f).rings = s.rings := rfl
@[simp] theorem modPc_srm (s : State) (d c : Nat) (f : HPc → HPc) : (modPc s d c f).srm = s.srm := rfl
@[simp] theorem modPc_hbm (s : State) (d c : Nat) (f : HPc → HPc) : (modPc s d c f).hbm = { s.hbm with pcs := Tbl.upd s.hbm.pcs (d * 32 + c) {} f } := rfl
@[simp] theorem modPc_cdc (s : State) (d c : Nat) (f : HPc → HPc) : (modPc s d c f).cdc = s.cdc := rfl
@[simp] theorem modPc_dma (s : State) (d c : Nat) (f : HPc → HPc) : (modPc s d c f).dma = s.dma := rfl
@[simp] theorem modPc_devCtl (s : State) (d c : Nat) (f : HPc → HPc) : (modPc s d c f).devCtl = s.devCtl := rfl
@[simp] theorem modPc_fns (s : State) (d c : Nat) (f : HPc → HPc) : (modPc s d c f).fns = s.fns := rfl
@[simp] theorem modPc_twn (s : State) (d c : Nat) (f : HPc → HPc) : (modPc s d c f).twn = s.twn := rfl
@[simp] theorem modPc_pwr (s : State) (d c : Nat) (f : HPc → HPc) : (modPc s d c f).pwr = s.pwr := rfl
@[simp] theorem modPc_sec (s : State) (d c : Nat) (f : HPc → HPc) : (modPc s d c f).sec = s.sec := rfl
@[simp] theorem modPc_logSeq (s : State) (d c : Nat) (f : HPc → HPc) : (modPc s d c f).logSeq = s.logSeq := rfl
@[simp] theorem modPc_logOff (s : State) (d c : Nat) (f : HPc → HPc) : (modPc s d c f).logOff = s.logOff := rfl
@[simp] theorem modPc_logCyc (s : State) (d c : Nat) (f : HPc → HPc) : (modPc s d c f).logCyc = s.logCyc := rfl
@[simp] theorem modPc_logNow (s : State) (d c : Nat) (f : HPc → HPc) : (modPc s d c f).logNow = s.logNow := rfl
@[simp] theorem modPc_out (s : State) (d c : Nat) (f : HPc → HPc) : (modPc s d c f).out = s.out := rfl
@[simp] theorem modPc_pending (s : State) (d c : Nat) (f : HPc → HPc) : (modPc s d c f).pending = s.pending := rfl

/-! ### modSpc -/

@[simp] theorem modSpc_part (s : State) (d : Nat) (f : Spc → Spc) : (modSpc s d f).part = s.part := rfl
@[simp] theorem modSpc_now (s : State) (d : Nat) (f : Spc → Spc) : (modSpc s d f).now = s.now := rfl
@[simp] theorem modSpc_nonce (s : State) (d : Nat) (f : Spc → Spc) : (modSpc s d f).nonce = s.nonce := rfl
@[simp] theorem modSpc_regs (s : State) (d : Nat) (f : Spc → Spc) : (modSpc s d f).regs = s.regs := rfl
@[simp] theorem modSpc_shadow (s : State) (d : Nat) (f : Spc → Spc) : (modSpc s d f).shadow = s.shadow := rfl
@[simp] theorem modSpc_undef (s : State) (d : Nat) (f : Spc → Spc) : (modSpc s d f).undef = s.undef := rfl
@[simp] theorem modSpc_bmk (s : State) (d : Nat) (f : Spc → Spc) : (modSpc s d f).bmk = s.bmk := rfl
@[simp] theorem modSpc_ports (s : State) (d : Nat) (f : Spc → Spc) : (modSpc s d f).ports = s.ports := rfl
@[simp] theorem modSpc_plats (s : State) (d : Nat) (f : Spc → Spc) : (modSpc s d f).plats = s.plats := rfl
@[simp] theorem modSpc_fab (s : State) (d : Nat) (f : Spc → Spc) : (modSpc s d f).fab = s.fab := rfl
@[simp] theorem modSpc_tstore (s : State) (d : Nat) (f : Spc → Spc) : (modSpc s d f).tstore = s.tstore := rfl
@[simp] theorem modSpc_dst (s : State) (d : Nat) (f : Spc → Spc) : (modSpc s d f).dst = s.dst := rfl
@[simp] theorem modSpc_rings (s : State) (d : Nat) (f : Spc → Spc) : (modSpc s d f).rings = s.rings := rfl
@[simp] theorem modSpc_srm (s : State) (d : Nat) (f : Spc → Spc) : (modSpc s d f).srm = s.srm := rfl
@[simp] theorem modSpc_hbm (s : State) (d : Nat) (f : Spc → Spc) : (modSpc s d f).hbm = { s.hbm with spcs := Tbl.upd s.hbm.spcs d {} f } := rfl
@[simp] theorem modSpc_cdc (s : State) (d : Nat) (f : Spc → Spc) : (modSpc s d f).cdc = s.cdc := rfl
@[simp] theorem modSpc_dma (s : State) (d : Nat) (f : Spc → Spc) : (modSpc s d f).dma = s.dma := rfl
@[simp] theorem modSpc_devCtl (s : State) (d : Nat) (f : Spc → Spc) : (modSpc s d f).devCtl = s.devCtl := rfl
@[simp] theorem modSpc_fns (s : State) (d : Nat) (f : Spc → Spc) : (modSpc s d f).fns = s.fns := rfl
@[simp] theorem modSpc_twn (s : State) (d : Nat) (f : Spc → Spc) : (modSpc s d f).twn = s.twn := rfl
@[simp] theorem modSpc_pwr (s : State) (d : Nat) (f : Spc → Spc) : (modSpc s d f).pwr = s.pwr := rfl
@[simp] theorem modSpc_sec (s : State) (d : Nat) (f : Spc → Spc) : (modSpc s d f).sec = s.sec := rfl
@[simp] theorem modSpc_logSeq (s : State) (d : Nat) (f : Spc → Spc) : (modSpc s d f).logSeq = s.logSeq := rfl
@[simp] theorem modSpc_logOff (s : State) (d : Nat) (f : Spc → Spc) : (modSpc s d f).logOff = s.logOff := rfl
@[simp] theorem modSpc_logCyc (s : State) (d : Nat) (f : Spc → Spc) : (modSpc s d f).logCyc = s.logCyc := rfl
@[simp] theorem modSpc_logNow (s : State) (d : Nat) (f : Spc → Spc) : (modSpc s d f).logNow = s.logNow := rfl
@[simp] theorem modSpc_out (s : State) (d : Nat) (f : Spc → Spc) : (modSpc s d f).out = s.out := rfl
@[simp] theorem modSpc_pending (s : State) (d : Nat) (f : Spc → Spc) : (modSpc s d f).pending = s.pending := rfl

/-! ### modCh -/

@[simp] theorem modCh_part (s : State) (k : Nat) (f : SrmCh → SrmCh) : (modCh s k f).part = s.part := rfl
@[simp] theorem modCh_now (s : State) (k : Nat) (f : SrmCh → SrmCh) : (modCh s k f).now = s.now := rfl
@[simp] theorem modCh_nonce (s : State) (k : Nat) (f : SrmCh → SrmCh) : (modCh s k f).nonce = s.nonce := rfl
@[simp] theorem modCh_regs (s : State) (k : Nat) (f : SrmCh → SrmCh) : (modCh s k f).regs = s.regs := rfl
@[simp] theorem modCh_shadow (s : State) (k : Nat) (f : SrmCh → SrmCh) : (modCh s k f).shadow = s.shadow := rfl
@[simp] theorem modCh_undef (s : State) (k : Nat) (f : SrmCh → SrmCh) : (modCh s k f).undef = s.undef := rfl
@[simp] theorem modCh_bmk (s : State) (k : Nat) (f : SrmCh → SrmCh) : (modCh s k f).bmk = s.bmk := rfl
@[simp] theorem modCh_ports (s : State) (k : Nat) (f : SrmCh → SrmCh) : (modCh s k f).ports = s.ports := rfl
@[simp] theorem modCh_plats (s : State) (k : Nat) (f : SrmCh → SrmCh) : (modCh s k f).plats = s.plats := rfl
@[simp] theorem modCh_fab (s : State) (k : Nat) (f : SrmCh → SrmCh) : (modCh s k f).fab = s.fab := rfl
@[simp] theorem modCh_tstore (s : State) (k : Nat) (f : SrmCh → SrmCh) : (modCh s k f).tstore = s.tstore := rfl
@[simp] theorem modCh_dst (s : State) (k : Nat) (f : SrmCh → SrmCh) : (modCh s k f).dst = s.dst := rfl
@[simp] theorem modCh_rings (s : State) (k : Nat) (f : SrmCh → SrmCh) : (modCh s k f).rings = s.rings := rfl
@[simp] theorem modCh_srm (s : State) (k : Nat) (f : SrmCh → SrmCh) : (modCh s k f).srm = { s.srm with chs := Tbl.upd s.srm.chs k {} f } := rfl
@[simp] theorem modCh_hbm (s : State) (k : Nat) (f : SrmCh → SrmCh) : (modCh s k f).hbm = s.hbm := rfl
@[simp] theorem modCh_cdc (s : State) (k : Nat) (f : SrmCh → SrmCh) : (modCh s k f).cdc = s.cdc := rfl
@[simp] theorem modCh_dma (s : State) (k : Nat) (f : SrmCh → SrmCh) : (modCh s k f).dma = s.dma := rfl
@[simp] theorem modCh_devCtl (s : State) (k : Nat) (f : SrmCh → SrmCh) : (modCh s k f).devCtl = s.devCtl := rfl
@[simp] theorem modCh_fns (s : State) (k : Nat) (f : SrmCh → SrmCh) : (modCh s k f).fns = s.fns := rfl
@[simp] theorem modCh_twn (s : State) (k : Nat) (f : SrmCh → SrmCh) : (modCh s k f).twn = s.twn := rfl
@[simp] theorem modCh_pwr (s : State) (k : Nat) (f : SrmCh → SrmCh) : (modCh s k f).pwr = s.pwr := rfl
@[simp] theorem modCh_sec (s : State) (k : Nat) (f : SrmCh → SrmCh) : (modCh s k f).sec = s.sec := rfl
@[simp] theorem modCh_logSeq (s : State) (k : Nat) (f : SrmCh → SrmCh) : (modCh s k f).logSeq = s.logSeq := rfl
@[simp] theorem modCh_logOff (s : State) (k : Nat) (f : SrmCh → SrmCh) : (modCh s k f).logOff = s.logOff := rfl
@[simp] theorem modCh_logCyc (s : State) (k : Nat) (f : SrmCh → SrmCh) : (modCh s k f).logCyc = s.logCyc := rfl
@[simp] theorem modCh_logNow (s : State) (k : Nat) (f : SrmCh → SrmCh) : (modCh s k f).logNow = s.logNow := rfl
@[simp] theorem modCh_out (s : State) (k : Nat) (f : SrmCh → SrmCh) : (modCh s k f).out = s.out := rfl
@[simp] theorem modCh_pending (s : State) (k : Nat) (f : SrmCh → SrmCh) : (modCh s k f).pending = s.pending := rfl

/-! ### emitOut -/

@[simp] theorem emitOut_part (s : State) (x : Out) : (emitOut s x).part = s.part := rfl
@[simp] theorem emitOut_now (s : State) (x : Out) : (emitOut s x).now = s.now := rfl
@[simp] theorem emitOut_nonce (s : State) (x : Out) : (emitOut s x).nonce = s.nonce := rfl
@[simp] theorem emitOut_regs (s : State) (x : Out) : (emitOut s x).regs = s.regs := rfl
@[simp] theorem emitOut_shadow (s : State) (x : Out) : (emitOut s x).shadow = s.shadow := rfl
@[simp] theorem emitOut_undef (s : State) (x : Out) : (emitOut s x).undef = s.undef := rfl
@[simp] theorem emitOut_bmk (s : State) (x : Out) : (emitOut s x).bmk = s.bmk := rfl
@[simp] theorem emitOut_ports (s : State) (x : Out) : (emitOut s x).ports = s.ports := rfl
@[simp] theorem emitOut_plats (s : State) (x : Out) : (emitOut s x).plats = s.plats := rfl
@[simp] theorem emitOut_fab (s : State) (x : Out) : (emitOut s x).fab = s.fab := rfl
@[simp] theorem emitOut_tstore (s : State) (x : Out) : (emitOut s x).tstore = s.tstore := rfl
@[simp] theorem emitOut_dst (s : State) (x : Out) : (emitOut s x).dst = s.dst := rfl
@[simp] theorem emitOut_rings (s : State) (x : Out) : (emitOut s x).rings = s.rings := rfl
@[simp] theorem emitOut_srm (s : State) (x : Out) : (emitOut s x).srm = s.srm := rfl
@[simp] theorem emitOut_hbm (s : State) (x : Out) : (emitOut s x).hbm = s.hbm := rfl
@[simp] theorem emitOut_cdc (s : State) (x : Out) : (emitOut s x).cdc = s.cdc := rfl
@[simp] theorem emitOut_dma (s : State) (x : Out) : (emitOut s x).dma = s.dma := rfl
@[simp] theorem emitOut_devCtl (s : State) (x : Out) : (emitOut s x).devCtl = s.devCtl := rfl
@[simp] theorem emitOut_fns (s : State) (x : Out) : (emitOut s x).fns = s.fns := rfl
@[simp] theorem emitOut_twn (s : State) (x : Out) : (emitOut s x).twn = s.twn := rfl
@[simp] theorem emitOut_pwr (s : State) (x : Out) : (emitOut s x).pwr = s.pwr := rfl
@[simp] theorem emitOut_sec (s : State) (x : Out) : (emitOut s x).sec = s.sec := rfl
@[simp] theorem emitOut_logSeq (s : State) (x : Out) : (emitOut s x).logSeq = s.logSeq := rfl
@[simp] theorem emitOut_logOff (s : State) (x : Out) : (emitOut s x).logOff = s.logOff := rfl
@[simp] theorem emitOut_logCyc (s : State) (x : Out) : (emitOut s x).logCyc = s.logCyc := rfl
@[simp] theorem emitOut_logNow (s : State) (x : Out) : (emitOut s x).logNow = s.logNow := rfl
@[simp] theorem emitOut_out (s : State) (x : Out) : (emitOut s x).out = s.out ++ [x] := rfl
@[simp] theorem emitOut_pending (s : State) (x : Out) : (emitOut s x).pending = s.pending := rfl

/-! ### setCells -/

@[simp] theorem setCells_part (s : State) (m : Nat) (c : List Host.Cell) : (setCells s m c).part = s.part := by unfold setCells; split <;> rfl
@[simp] theorem setCells_now (s : State) (m : Nat) (c : List Host.Cell) : (setCells s m c).now = s.now := by unfold setCells; split <;> rfl
@[simp] theorem setCells_nonce (s : State) (m : Nat) (c : List Host.Cell) : (setCells s m c).nonce = s.nonce := by unfold setCells; split <;> rfl
@[simp] theorem setCells_regs (s : State) (m : Nat) (c : List Host.Cell) : (setCells s m c).regs = s.regs := by unfold setCells; split <;> rfl
@[simp] theorem setCells_shadow (s : State) (m : Nat) (c : List Host.Cell) : (setCells s m c).shadow = s.shadow := by unfold setCells; split <;> rfl
@[simp] theorem setCells_undef (s : State) (m : Nat) (c : List Host.Cell) : (setCells s m c).undef = s.undef := by unfold setCells; split <;> rfl
@[simp] theorem setCells_bmk (s : State) (m : Nat) (c : List Host.Cell) : (setCells s m c).bmk = s.bmk := by unfold setCells; split <;> rfl
@[simp] theorem setCells_ports (s : State) (m : Nat) (c : List Host.Cell) : (setCells s m c).ports = s.ports := by unfold setCells; split <;> rfl
@[simp] theorem setCells_plats (s : State) (m : Nat) (c : List Host.Cell) : (setCells s m c).plats = s.plats := by unfold setCells; split <;> rfl
@[simp] theorem setCells_fab (s : State) (m : Nat) (c : List Host.Cell) : (setCells s m c).fab = s.fab := by unfold setCells; split <;> rfl
@[simp] theorem setCells_dst (s : State) (m : Nat) (c : List Host.Cell) : (setCells s m c).dst = s.dst := by unfold setCells; split <;> rfl
@[simp] theorem setCells_rings (s : State) (m : Nat) (c : List Host.Cell) : (setCells s m c).rings = s.rings := by unfold setCells; split <;> rfl
@[simp] theorem setCells_cdc (s : State) (m : Nat) (c : List Host.Cell) : (setCells s m c).cdc = s.cdc := by unfold setCells; split <;> rfl
@[simp] theorem setCells_dma (s : State) (m : Nat) (c : List Host.Cell) : (setCells s m c).dma = s.dma := by unfold setCells; split <;> rfl
@[simp] theorem setCells_devCtl (s : State) (m : Nat) (c : List Host.Cell) : (setCells s m c).devCtl = s.devCtl := by unfold setCells; split <;> rfl
@[simp] theorem setCells_fns (s : State) (m : Nat) (c : List Host.Cell) : (setCells s m c).fns = s.fns := by unfold setCells; split <;> rfl
@[simp] theorem setCells_twn (s : State) (m : Nat) (c : List Host.Cell) : (setCells s m c).twn = s.twn := by unfold setCells; split <;> rfl
@[simp] theorem setCells_pwr (s : State) (m : Nat) (c : List Host.Cell) : (setCells s m c).pwr = s.pwr := by unfold setCells; split <;> rfl
@[simp] theorem setCells_sec (s : State) (m : Nat) (c : List Host.Cell) : (setCells s m c).sec = s.sec := by unfold setCells; split <;> rfl
@[simp] theorem setCells_logSeq (s : State) (m : Nat) (c : List Host.Cell) : (setCells s m c).logSeq = s.logSeq := by unfold setCells; split <;> rfl
@[simp] theorem setCells_logOff (s : State) (m : Nat) (c : List Host.Cell) : (setCells s m c).logOff = s.logOff := by unfold setCells; split <;> rfl
@[simp] theorem setCells_logCyc (s : State) (m : Nat) (c : List Host.Cell) : (setCells s m c).logCyc = s.logCyc := by unfold setCells; split <;> rfl
@[simp] theorem setCells_logNow (s : State) (m : Nat) (c : List Host.Cell) : (setCells s m c).logNow = s.logNow := by unfold setCells; split <;> rfl
@[simp] theorem setCells_out (s : State) (m : Nat) (c : List Host.Cell) : (setCells s m c).out = s.out := by unfold setCells; split <;> rfl
@[simp] theorem setCells_pending (s : State) (m : Nat) (c : List Host.Cell) : (setCells s m c).pending = s.pending := by unfold setCells; split <;> rfl

/-! ### setF -/

@[simp] theorem setF_part (s : State) (f : Fld) (o v : Nat) : (setF s f o v).part = s.part := by unfold setF; dsimp only; split <;> rfl
@[simp] theorem setF_now (s : State) (f : Fld) (o v : Nat) : (setF s f o v).now = s.now := by unfold setF; dsimp only; split <;> rfl
@[simp] theorem setF_nonce (s : State) (f : Fld) (o v : Nat) : (setF s f o v).nonce = s.nonce := by unfold setF; dsimp only; split <;> rfl
@[simp] theorem setF_shadow (s : State) (f : Fld) (o v : Nat) : (setF s f o v).shadow = s.shadow := by unfold setF; dsimp only; split <;> rfl
@[simp] theorem setF_undef (s : State) (f : Fld) (o v : Nat) : (setF s f o v).undef = s.undef := by unfold setF; dsimp only; split <;> rfl
@[simp] theorem setF_bmk (s : State) (f : Fld) (o v : Nat) : (setF s f o v).bmk = s.bmk := by unfold setF; dsimp only; split <;> rfl
@[simp] theorem setF_ports (s : State) (f : Fld) (o v : Nat) : (setF s f o v).ports = s.ports := by unfold setF; dsimp only; split <;> rfl
@[simp] theorem setF_plats (s : State) (f : Fld) (o v : Nat) : (setF s f o v).plats = s.plats := by unfold setF; dsimp only; split <;> rfl
@[simp] theorem setF_fab (s : State) (f : Fld) (o v : Nat) : (setF s f o v).fab = s.fab := by unfold setF; dsimp only; split <;> rfl
@[simp] theorem setF_tstore (s : State) (f : Fld) (o v : Nat) : (setF s f o v).tstore = s.tstore := by unfold setF; dsimp only; split <;> rfl
@[simp] theorem setF_dst (s : State) (f : Fld) (o v : Nat) : (setF s f o v).dst = s.dst := by unfold setF; dsimp only; split <;> rfl
@[simp] theorem setF_rings (s : State) (f : Fld) (o v : Nat) : (setF s f o v).rings = s.rings := by unfold setF; dsimp only; split <;> rfl
@[simp] theorem setF_srm (s : State) (f : Fld) (o v : Nat) : (setF s f o v).srm = s.srm := by unfold setF; dsimp only; split <;> rfl
@[simp] theorem setF_hbm (s : State) (f : Fld) (o v : Nat) : (setF s f o v).hbm = s.hbm := by unfold setF; dsimp only; split <;> rfl
@[simp] theorem setF_cdc (s : State) (f : Fld) (o v : Nat) : (setF s f o v).cdc = s.cdc := by unfold setF; dsimp only; split <;> rfl
@[simp] theorem setF_dma (s : State) (f : Fld) (o v : Nat) : (setF s f o v).dma = s.dma := by unfold setF; dsimp only; split <;> rfl
@[simp] theorem setF_devCtl (s : State) (f : Fld) (o v : Nat) : (setF s f o v).devCtl = s.devCtl := by unfold setF; dsimp only; split <;> rfl
@[simp] theorem setF_fns (s : State) (f : Fld) (o v : Nat) : (setF s f o v).fns = s.fns := by unfold setF; dsimp only; split <;> rfl
@[simp] theorem setF_twn (s : State) (f : Fld) (o v : Nat) : (setF s f o v).twn = s.twn := by unfold setF; dsimp only; split <;> rfl
@[simp] theorem setF_pwr (s : State) (f : Fld) (o v : Nat) : (setF s f o v).pwr = s.pwr := by unfold setF; dsimp only; split <;> rfl
@[simp] theorem setF_sec (s : State) (f : Fld) (o v : Nat) : (setF s f o v).sec = s.sec := by unfold setF; dsimp only; split <;> rfl
@[simp] theorem setF_logSeq (s : State) (f : Fld) (o v : Nat) : (setF s f o v).logSeq = s.logSeq := by unfold setF; dsimp only; split <;> rfl
@[simp] theorem setF_logOff (s : State) (f : Fld) (o v : Nat) : (setF s f o v).logOff = s.logOff := by unfold setF; dsimp only; split <;> rfl
@[simp] theorem setF_logCyc (s : State) (f : Fld) (o v : Nat) : (setF s f o v).logCyc = s.logCyc := by unfold setF; dsimp only; split <;> rfl
@[simp] theorem setF_logNow (s : State) (f : Fld) (o v : Nat) : (setF s f o v).logNow = s.logNow := by unfold setF; dsimp only; split <;> rfl
@[simp] theorem setF_out (s : State) (f : Fld) (o v : Nat) : (setF s f o v).out = s.out := by unfold setF; dsimp only; split <;> rfl
@[simp] theorem setF_pending (s : State) (f : Fld) (o v : Nat) : (setF s f o v).pending = s.pending := by unfold setF; dsimp only; split <;> rfl

/-! ### addF -/

@[simp] theorem addF_part (s : State) (f : Fld) (o v : Nat) : (addF s f o v).part = s.part := by simp [addF]
@[simp] theorem addF_now (s : State) (f : Fld) (o v : Nat) : (addF s f o v).now = s.now := by simp [addF]
@[simp] theorem addF_nonce (s : State) (f : Fld) (o v : Nat) : (addF s f o v).nonce = s.nonce := by simp [addF]
@[simp] theorem addF_shadow (s : State) (f : Fld) (o v : Nat) : (addF s f o v).shadow = s.shadow := by simp [addF]
@[simp] theorem addF_undef (s : State) (f : Fld) (o v : Nat) : (addF s f o v).undef = s.undef := by simp [addF]
@[simp] theorem addF_bmk (s : State) (f : Fld) (o v : Nat) : (addF s f o v).bmk = s.bmk := by simp [addF]
@[simp] theorem addF_ports (s : State) (f : Fld) (o v : Nat) : (addF s f o v).ports = s.ports := by simp [addF]
@[simp] theorem addF_plats (s : State) (f : Fld) (o v : Nat) : (addF s f o v).plats = s.plats := by simp [addF]
@[simp] theorem addF_fab (s : State) (f : Fld) (o v : Nat) : (addF s f o v).fab = s.fab := by simp [addF]
@[simp] theorem addF_tstore (s : State) (f : Fld) (o v : Nat) : (addF s f o v).tstore = s.tstore := by simp [addF]
@[simp] theorem addF_dst (s : State) (f : Fld) (o v : Nat) : (addF s f o v).dst = s.dst := by simp [addF]
@[simp] theorem addF_rings (s : State) (f : Fld) (o v : Nat) : (addF s f o v).rings = s.rings := by simp [addF]
@[simp] theorem addF_srm (s : State) (f : Fld) (o v : Nat) : (addF s f o v).srm = s.srm := by simp [addF]
@[simp] theorem addF_hbm (s : State) (f : Fld) (o v : Nat) : (addF s f o v).hbm = s.hbm := by simp [addF]
@[simp] theorem addF_cdc (s : State) (f : Fld) (o v : Nat) : (addF s f o v).cdc = s.cdc := by simp [addF]
@[simp] theorem addF_dma (s : State) (f : Fld) (o v : Nat) : (addF s f o v).dma = s.dma := by simp [addF]
@[simp] theorem addF_devCtl (s : State) (f : Fld) (o v : Nat) : (addF s f o v).devCtl = s.devCtl := by simp [addF]
@[simp] theorem addF_fns (s : State) (f : Fld) (o v : Nat) : (addF s f o v).fns = s.fns := by simp [addF]
@[simp] theorem addF_twn (s : State) (f : Fld) (o v : Nat) : (addF s f o v).twn = s.twn := by simp [addF]
@[simp] theorem addF_pwr (s : State) (f : Fld) (o v : Nat) : (addF s f o v).pwr = s.pwr := by simp [addF]
@[simp] theorem addF_sec (s : State) (f : Fld) (o v : Nat) : (addF s f o v).sec = s.sec := by simp [addF]
@[simp] theorem addF_logSeq (s : State) (f : Fld) (o v : Nat) : (addF s f o v).logSeq = s.logSeq := by simp [addF]
@[simp] theorem addF_logOff (s : State) (f : Fld) (o v : Nat) : (addF s f o v).logOff = s.logOff := by simp [addF]
@[simp] theorem addF_logCyc (s : State) (f : Fld) (o v : Nat) : (addF s f o v).logCyc = s.logCyc := by simp [addF]
@[simp] theorem addF_logNow (s : State) (f : Fld) (o v : Nat) : (addF s f o v).logNow = s.logNow := by simp [addF]
@[simp] theorem addF_out (s : State) (f : Fld) (o v : Nat) : (addF s f o v).out = s.out := by simp [addF]
@[simp] theorem addF_pending (s : State) (f : Fld) (o v : Nat) : (addF s f o v).pending = s.pending := by simp [addF]

/-! ### satF -/

@[simp] theorem satF_part (s : State) (f : Fld) (o v : Nat) : (satF s f o v).part = s.part := by simp [satF]
@[simp] theorem satF_now (s : State) (f : Fld) (o v : Nat) : (satF s f o v).now = s.now := by simp [satF]
@[simp] theorem satF_nonce (s : State) (f : Fld) (o v : Nat) : (satF s f o v).nonce = s.nonce := by simp [satF]
@[simp] theorem satF_shadow (s : State) (f : Fld) (o v : Nat) : (satF s f o v).shadow = s.shadow := by simp [satF]
@[simp] theorem satF_undef (s : State) (f : Fld) (o v : Nat) : (satF s f o v).undef = s.undef := by simp [satF]
@[simp] theorem satF_bmk (s : State) (f : Fld) (o v : Nat) : (satF s f o v).bmk = s.bmk := by simp [satF]
@[simp] theorem satF_ports (s : State) (f : Fld) (o v : Nat) : (satF s f o v).ports = s.ports := by simp [satF]
@[simp] theorem satF_plats (s : State) (f : Fld) (o v : Nat) : (satF s f o v).plats = s.plats := by simp [satF]
@[simp] theorem satF_fab (s : State) (f : Fld) (o v : Nat) : (satF s f o v).fab = s.fab := by simp [satF]
@[simp] theorem satF_tstore (s : State) (f : Fld) (o v : Nat) : (satF s f o v).tstore = s.tstore := by simp [satF]
@[simp] theorem satF_dst (s : State) (f : Fld) (o v : Nat) : (satF s f o v).dst = s.dst := by simp [satF]
@[simp] theorem satF_rings (s : State) (f : Fld) (o v : Nat) : (satF s f o v).rings = s.rings := by simp [satF]
@[simp] theorem satF_srm (s : State) (f : Fld) (o v : Nat) : (satF s f o v).srm = s.srm := by simp [satF]
@[simp] theorem satF_hbm (s : State) (f : Fld) (o v : Nat) : (satF s f o v).hbm = s.hbm := by simp [satF]
@[simp] theorem satF_cdc (s : State) (f : Fld) (o v : Nat) : (satF s f o v).cdc = s.cdc := by simp [satF]
@[simp] theorem satF_dma (s : State) (f : Fld) (o v : Nat) : (satF s f o v).dma = s.dma := by simp [satF]
@[simp] theorem satF_devCtl (s : State) (f : Fld) (o v : Nat) : (satF s f o v).devCtl = s.devCtl := by simp [satF]
@[simp] theorem satF_fns (s : State) (f : Fld) (o v : Nat) : (satF s f o v).fns = s.fns := by simp [satF]
@[simp] theorem satF_twn (s : State) (f : Fld) (o v : Nat) : (satF s f o v).twn = s.twn := by simp [satF]
@[simp] theorem satF_pwr (s : State) (f : Fld) (o v : Nat) : (satF s f o v).pwr = s.pwr := by simp [satF]
@[simp] theorem satF_sec (s : State) (f : Fld) (o v : Nat) : (satF s f o v).sec = s.sec := by simp [satF]
@[simp] theorem satF_logSeq (s : State) (f : Fld) (o v : Nat) : (satF s f o v).logSeq = s.logSeq := by simp [satF]
@[simp] theorem satF_logOff (s : State) (f : Fld) (o v : Nat) : (satF s f o v).logOff = s.logOff := by simp [satF]
@[simp] theorem satF_logCyc (s : State) (f : Fld) (o v : Nat) : (satF s f o v).logCyc = s.logCyc := by simp [satF]
@[simp] theorem satF_logNow (s : State) (f : Fld) (o v : Nat) : (satF s f o v).logNow = s.logNow := by simp [satF]
@[simp] theorem satF_out (s : State) (f : Fld) (o v : Nat) : (satF s f o v).out = s.out := by simp [satF]
@[simp] theorem satF_pending (s : State) (f : Fld) (o v : Nat) : (satF s f o v).pending = s.pending := by simp [satF]

/-! ### maxF -/

@[simp] theorem maxF_part (s : State) (f : Fld) (o v : Nat) : (maxF s f o v).part = s.part := by simp [maxF]
@[simp] theorem maxF_now (s : State) (f : Fld) (o v : Nat) : (maxF s f o v).now = s.now := by simp [maxF]
@[simp] theorem maxF_nonce (s : State) (f : Fld) (o v : Nat) : (maxF s f o v).nonce = s.nonce := by simp [maxF]
@[simp] theorem maxF_shadow (s : State) (f : Fld) (o v : Nat) : (maxF s f o v).shadow = s.shadow := by simp [maxF]
@[simp] theorem maxF_undef (s : State) (f : Fld) (o v : Nat) : (maxF s f o v).undef = s.undef := by simp [maxF]
@[simp] theorem maxF_bmk (s : State) (f : Fld) (o v : Nat) : (maxF s f o v).bmk = s.bmk := by simp [maxF]
@[simp] theorem maxF_ports (s : State) (f : Fld) (o v : Nat) : (maxF s f o v).ports = s.ports := by simp [maxF]
@[simp] theorem maxF_plats (s : State) (f : Fld) (o v : Nat) : (maxF s f o v).plats = s.plats := by simp [maxF]
@[simp] theorem maxF_fab (s : State) (f : Fld) (o v : Nat) : (maxF s f o v).fab = s.fab := by simp [maxF]
@[simp] theorem maxF_tstore (s : State) (f : Fld) (o v : Nat) : (maxF s f o v).tstore = s.tstore := by simp [maxF]
@[simp] theorem maxF_dst (s : State) (f : Fld) (o v : Nat) : (maxF s f o v).dst = s.dst := by simp [maxF]
@[simp] theorem maxF_rings (s : State) (f : Fld) (o v : Nat) : (maxF s f o v).rings = s.rings := by simp [maxF]
@[simp] theorem maxF_srm (s : State) (f : Fld) (o v : Nat) : (maxF s f o v).srm = s.srm := by simp [maxF]
@[simp] theorem maxF_hbm (s : State) (f : Fld) (o v : Nat) : (maxF s f o v).hbm = s.hbm := by simp [maxF]
@[simp] theorem maxF_cdc (s : State) (f : Fld) (o v : Nat) : (maxF s f o v).cdc = s.cdc := by simp [maxF]
@[simp] theorem maxF_dma (s : State) (f : Fld) (o v : Nat) : (maxF s f o v).dma = s.dma := by simp [maxF]
@[simp] theorem maxF_devCtl (s : State) (f : Fld) (o v : Nat) : (maxF s f o v).devCtl = s.devCtl := by simp [maxF]
@[simp] theorem maxF_fns (s : State) (f : Fld) (o v : Nat) : (maxF s f o v).fns = s.fns := by simp [maxF]
@[simp] theorem maxF_twn (s : State) (f : Fld) (o v : Nat) : (maxF s f o v).twn = s.twn := by simp [maxF]
@[simp] theorem maxF_pwr (s : State) (f : Fld) (o v : Nat) : (maxF s f o v).pwr = s.pwr := by simp [maxF]
@[simp] theorem maxF_sec (s : State) (f : Fld) (o v : Nat) : (maxF s f o v).sec = s.sec := by simp [maxF]
@[simp] theorem maxF_logSeq (s : State) (f : Fld) (o v : Nat) : (maxF s f o v).logSeq = s.logSeq := by simp [maxF]
@[simp] theorem maxF_logOff (s : State) (f : Fld) (o v : Nat) : (maxF s f o v).logOff = s.logOff := by simp [maxF]
@[simp] theorem maxF_logCyc (s : State) (f : Fld) (o v : Nat) : (maxF s f o v).logCyc = s.logCyc := by simp [maxF]
@[simp] theorem maxF_logNow (s : State) (f : Fld) (o v : Nat) : (maxF s f o v).logNow = s.logNow := by simp [maxF]
@[simp] theorem maxF_out (s : State) (f : Fld) (o v : Nat) : (maxF s f o v).out = s.out := by simp [maxF]
@[simp] theorem maxF_pending (s : State) (f : Fld) (o v : Nat) : (maxF s f o v).pending = s.pending := by simp [maxF]

/-! ### fresh -/

@[simp] theorem fresh_part (s : State) (w : Nat) : (fresh s w).2.part = s.part := rfl
@[simp] theorem fresh_now (s : State) (w : Nat) : (fresh s w).2.now = s.now := rfl
@[simp] theorem fresh_regs (s : State) (w : Nat) : (fresh s w).2.regs = s.regs := rfl
@[simp] theorem fresh_shadow (s : State) (w : Nat) : (fresh s w).2.shadow = s.shadow := rfl
@[simp] theorem fresh_undef (s : State) (w : Nat) : (fresh s w).2.undef = s.undef := rfl
@[simp] theorem fresh_bmk (s : State) (w : Nat) : (fresh s w).2.bmk = s.bmk := rfl
@[simp] theorem fresh_ports (s : State) (w : Nat) : (fresh s w).2.ports = s.ports := rfl
@[simp] theorem fresh_plats (s : State) (w : Nat) : (fresh s w).2.plats = s.plats := rfl
@[simp] theorem fresh_fab (s : State) (w : Nat) : (fresh s w).2.fab = s.fab := rfl
@[simp] theorem fresh_tstore (s : State) (w : Nat) : (fresh s w).2.tstore = s.tstore := rfl
@[simp] theorem fresh_dst (s : State) (w : Nat) : (fresh s w).2.dst = s.dst := rfl
@[simp] theorem fresh_rings (s : State) (w : Nat) : (fresh s w).2.rings = s.rings := rfl
@[simp] theorem fresh_srm (s : State) (w : Nat) : (fresh s w).2.srm = s.srm := rfl
@[simp] theorem fresh_hbm (s : State) (w : Nat) : (fresh s w).2.hbm = s.hbm := rfl
@[simp] theorem fresh_cdc (s : State) (w : Nat) : (fresh s w).2.cdc = s.cdc := rfl
@[simp] theorem fresh_dma (s : State) (w : Nat) : (fresh s w).2.dma = s.dma := rfl
@[simp] theorem fresh_devCtl (s : State) (w : Nat) : (fresh s w).2.devCtl = s.devCtl := rfl
@[simp] theorem fresh_fns (s : State) (w : Nat) : (fresh s w).2.fns = s.fns := rfl
@[simp] theorem fresh_twn (s : State) (w : Nat) : (fresh s w).2.twn = s.twn := rfl
@[simp] theorem fresh_pwr (s : State) (w : Nat) : (fresh s w).2.pwr = s.pwr := rfl
@[simp] theorem fresh_sec (s : State) (w : Nat) : (fresh s w).2.sec = s.sec := rfl
@[simp] theorem fresh_logSeq (s : State) (w : Nat) : (fresh s w).2.logSeq = s.logSeq := rfl
@[simp] theorem fresh_logOff (s : State) (w : Nat) : (fresh s w).2.logOff = s.logOff := rfl
@[simp] theorem fresh_logCyc (s : State) (w : Nat) : (fresh s w).2.logCyc = s.logCyc := rfl
@[simp] theorem fresh_logNow (s : State) (w : Nat) : (fresh s w).2.logNow = s.logNow := rfl
@[simp] theorem fresh_out (s : State) (w : Nat) : (fresh s w).2.out = s.out := rfl
@[simp] theorem fresh_pending (s : State) (w : Nat) : (fresh s w).2.pending = s.pending := rfl
@[simp] theorem fresh_nonce (s : State) (w : Nat) : (fresh s w).2.nonce = s.nonce + 1 := rfl

/-! ### msix -/

@[simp] theorem msix_part (s : State) (fn v : Nat) : (msix s fn v).part = s.part := by unfold msix; split; rfl; split <;> rfl
@[simp] theorem msix_now (s : State) (fn v : Nat) : (msix s fn v).now = s.now := by unfold msix; split; rfl; split <;> rfl
@[simp] theorem msix_nonce (s : State) (fn v : Nat) : (msix s fn v).nonce = s.nonce := by unfold msix; split; rfl; split <;> rfl
@[simp] theorem msix_regs (s : State) (fn v : Nat) : (msix s fn v).regs = s.regs := by unfold msix; split; rfl; split <;> rfl
@[simp] theorem msix_shadow (s : State) (fn v : Nat) : (msix s fn v).shadow = s.shadow := by unfold msix; split; rfl; split <;> rfl
@[simp] theorem msix_undef (s : State) (fn v : Nat) : (msix s fn v).undef = s.undef := by unfold msix; split; rfl; split <;> rfl
@[simp] theorem msix_bmk (s : State) (fn v : Nat) : (msix s fn v).bmk = s.bmk := by unfold msix; split; rfl; split <;> rfl
@[simp] theorem msix_ports (s : State) (fn v : Nat) : (msix s fn v).ports = s.ports := by unfold msix; split; rfl; split <;> rfl
@[simp] theorem msix_plats (s : State) (fn v : Nat) : (msix s fn v).plats = s.plats := by unfold msix; split; rfl; split <;> rfl
@[simp] theorem msix_fab (s : State) (fn v : Nat) : (msix s fn v).fab = s.fab := by unfold msix; split; rfl; split <;> rfl
@[simp] theorem msix_tstore (s : State) (fn v : Nat) : (msix s fn v).tstore = s.tstore := by unfold msix; split; rfl; split <;> rfl
@[simp] theorem msix_dst (s : State) (fn v : Nat) : (msix s fn v).dst = s.dst := by unfold msix; split; rfl; split <;> rfl
@[simp] theorem msix_srm (s : State) (fn v : Nat) : (msix s fn v).srm = s.srm := by unfold msix; split; rfl; split <;> rfl
@[simp] theorem msix_hbm (s : State) (fn v : Nat) : (msix s fn v).hbm = s.hbm := by unfold msix; split; rfl; split <;> rfl
@[simp] theorem msix_cdc (s : State) (fn v : Nat) : (msix s fn v).cdc = s.cdc := by unfold msix; split; rfl; split <;> rfl
@[simp] theorem msix_dma (s : State) (fn v : Nat) : (msix s fn v).dma = s.dma := by unfold msix; split; rfl; split <;> rfl
@[simp] theorem msix_devCtl (s : State) (fn v : Nat) : (msix s fn v).devCtl = s.devCtl := by unfold msix; split; rfl; split <;> rfl
@[simp] theorem msix_fns (s : State) (fn v : Nat) : (msix s fn v).fns = s.fns := by unfold msix; split; rfl; split <;> rfl
@[simp] theorem msix_twn (s : State) (fn v : Nat) : (msix s fn v).twn = s.twn := by unfold msix; split; rfl; split <;> rfl
@[simp] theorem msix_pwr (s : State) (fn v : Nat) : (msix s fn v).pwr = s.pwr := by unfold msix; split; rfl; split <;> rfl
@[simp] theorem msix_sec (s : State) (fn v : Nat) : (msix s fn v).sec = s.sec := by unfold msix; split; rfl; split <;> rfl
@[simp] theorem msix_logSeq (s : State) (fn v : Nat) : (msix s fn v).logSeq = s.logSeq := by unfold msix; split; rfl; split <;> rfl
@[simp] theorem msix_logOff (s : State) (fn v : Nat) : (msix s fn v).logOff = s.logOff := by unfold msix; split; rfl; split <;> rfl
@[simp] theorem msix_logCyc (s : State) (fn v : Nat) : (msix s fn v).logCyc = s.logCyc := by unfold msix; split; rfl; split <;> rfl
@[simp] theorem msix_logNow (s : State) (fn v : Nat) : (msix s fn v).logNow = s.logNow := by unfold msix; split; rfl; split <;> rfl
@[simp] theorem msix_pending (s : State) (fn v : Nat) : (msix s fn v).pending = s.pending := by unfold msix; split; rfl; split <;> rfl

/-! ### evtMsgPf -/

@[simp] theorem evtMsgPf_part (s : State) (b p : Nat) : (evtMsgPf s b p).part = s.part := by unfold evtMsgPf; split <;> simp
@[simp] theorem evtMsgPf_now (s : State) (b p : Nat) : (evtMsgPf s b p).now = s.now := by unfold evtMsgPf; split <;> simp
@[simp] theorem evtMsgPf_nonce (s : State) (b p : Nat) : (evtMsgPf s b p).nonce = s.nonce := by unfold evtMsgPf; split <;> simp
@[simp] theorem evtMsgPf_regs (s : State) (b p : Nat) : (evtMsgPf s b p).regs = s.regs := by unfold evtMsgPf; split <;> simp
@[simp] theorem evtMsgPf_shadow (s : State) (b p : Nat) : (evtMsgPf s b p).shadow = s.shadow := by unfold evtMsgPf; split <;> simp
@[simp] theorem evtMsgPf_undef (s : State) (b p : Nat) : (evtMsgPf s b p).undef = s.undef := by unfold evtMsgPf; split <;> simp
@[simp] theorem evtMsgPf_bmk (s : State) (b p : Nat) : (evtMsgPf s b p).bmk = s.bmk := by unfold evtMsgPf; split <;> simp
@[simp] theorem evtMsgPf_ports (s : State) (b p : Nat) : (evtMsgPf s b p).ports = s.ports := by unfold evtMsgPf; split <;> simp
@[simp] theorem evtMsgPf_plats (s : State) (b p : Nat) : (evtMsgPf s b p).plats = s.plats := by unfold evtMsgPf; split <;> simp
@[simp] theorem evtMsgPf_fab (s : State) (b p : Nat) : (evtMsgPf s b p).fab = s.fab := by unfold evtMsgPf; split <;> simp
@[simp] theorem evtMsgPf_tstore (s : State) (b p : Nat) : (evtMsgPf s b p).tstore = s.tstore := by unfold evtMsgPf; split <;> simp
@[simp] theorem evtMsgPf_dst (s : State) (b p : Nat) : (evtMsgPf s b p).dst = s.dst := by unfold evtMsgPf; split <;> simp
@[simp] theorem evtMsgPf_srm (s : State) (b p : Nat) : (evtMsgPf s b p).srm = s.srm := by unfold evtMsgPf; split <;> simp
@[simp] theorem evtMsgPf_hbm (s : State) (b p : Nat) : (evtMsgPf s b p).hbm = s.hbm := by unfold evtMsgPf; split <;> simp
@[simp] theorem evtMsgPf_cdc (s : State) (b p : Nat) : (evtMsgPf s b p).cdc = s.cdc := by unfold evtMsgPf; split <;> simp
@[simp] theorem evtMsgPf_dma (s : State) (b p : Nat) : (evtMsgPf s b p).dma = s.dma := by unfold evtMsgPf; split <;> simp
@[simp] theorem evtMsgPf_devCtl (s : State) (b p : Nat) : (evtMsgPf s b p).devCtl = s.devCtl := by unfold evtMsgPf; split <;> simp
@[simp] theorem evtMsgPf_fns (s : State) (b p : Nat) : (evtMsgPf s b p).fns = s.fns := by unfold evtMsgPf; split <;> simp
@[simp] theorem evtMsgPf_twn (s : State) (b p : Nat) : (evtMsgPf s b p).twn = s.twn := by unfold evtMsgPf; split <;> simp
@[simp] theorem evtMsgPf_pwr (s : State) (b p : Nat) : (evtMsgPf s b p).pwr = s.pwr := by unfold evtMsgPf; split <;> simp
@[simp] theorem evtMsgPf_sec (s : State) (b p : Nat) : (evtMsgPf s b p).sec = s.sec := by unfold evtMsgPf; split <;> simp
@[simp] theorem evtMsgPf_logSeq (s : State) (b p : Nat) : (evtMsgPf s b p).logSeq = s.logSeq := by unfold evtMsgPf; split <;> simp
@[simp] theorem evtMsgPf_logOff (s : State) (b p : Nat) : (evtMsgPf s b p).logOff = s.logOff := by unfold evtMsgPf; split <;> simp
@[simp] theorem evtMsgPf_logCyc (s : State) (b p : Nat) : (evtMsgPf s b p).logCyc = s.logCyc := by unfold evtMsgPf; split <;> simp
@[simp] theorem evtMsgPf_logNow (s : State) (b p : Nat) : (evtMsgPf s b p).logNow = s.logNow := by unfold evtMsgPf; split <;> simp
@[simp] theorem evtMsgPf_pending (s : State) (b p : Nat) : (evtMsgPf s b p).pending = s.pending := by unfold evtMsgPf; split <;> simp

/-! ### noteRose -/


@[simp] theorem noteRose_part (s : State) (k : Nat) : (noteRose s k).part = s.part := rfl
@[simp] theorem noteRose_now (s : State) (k : Nat) : (noteRose s k).now = s.now := rfl
@[simp] theorem noteRose_nonce (s : State) (k : Nat) : (noteRose s k).nonce = s.nonce := rfl
@[simp] theorem noteRose_regs (s : State) (k : Nat) : (noteRose s k).regs = s.regs := rfl
@[simp] theorem noteRose_shadow (s : State) (k : Nat) : (noteRose s k).shadow = s.shadow := rfl
@[simp] theorem noteRose_undef (s : State) (k : Nat) : (noteRose s k).undef = s.undef := rfl
@[simp] theorem noteRose_bmk (s : State) (k : Nat) : (noteRose s k).bmk = s.bmk := rfl
@[simp] theorem noteRose_ports (s : State) (k : Nat) : (noteRose s k).ports = s.ports := rfl
@[simp] theorem noteRose_plats (s : State) (k : Nat) : (noteRose s k).plats = s.plats := rfl
@[simp] theorem noteRose_fab (s : State) (k : Nat) : (noteRose s k).fab = s.fab := rfl
@[simp] theorem noteRose_tstore (s : State) (k : Nat) : (noteRose s k).tstore = s.tstore := rfl
@[simp] theorem noteRose_dst (s : State) (k : Nat) : (noteRose s k).dst = s.dst := rfl
@[simp] theorem noteRose_srm (s : State) (k : Nat) : (noteRose s k).srm = s.srm := rfl
@[simp] theorem noteRose_hbm (s : State) (k : Nat) : (noteRose s k).hbm = s.hbm := rfl
@[simp] theorem noteRose_cdc (s : State) (k : Nat) : (noteRose s k).cdc = s.cdc := rfl
@[simp] theorem noteRose_dma (s : State) (k : Nat) : (noteRose s k).dma = s.dma := rfl
@[simp] theorem noteRose_devCtl (s : State) (k : Nat) : (noteRose s k).devCtl = s.devCtl := rfl
@[simp] theorem noteRose_fns (s : State) (k : Nat) : (noteRose s k).fns = s.fns := rfl
@[simp] theorem noteRose_twn (s : State) (k : Nat) : (noteRose s k).twn = s.twn := rfl
@[simp] theorem noteRose_pwr (s : State) (k : Nat) : (noteRose s k).pwr = s.pwr := rfl
@[simp] theorem noteRose_sec (s : State) (k : Nat) : (noteRose s k).sec = s.sec := rfl
@[simp] theorem noteRose_logSeq (s : State) (k : Nat) : (noteRose s k).logSeq = s.logSeq := rfl
@[simp] theorem noteRose_logOff (s : State) (k : Nat) : (noteRose s k).logOff = s.logOff := rfl
@[simp] theorem noteRose_logCyc (s : State) (k : Nat) : (noteRose s k).logCyc = s.logCyc := rfl
@[simp] theorem noteRose_logNow (s : State) (k : Nat) : (noteRose s k).logNow = s.logNow := rfl
@[simp] theorem noteRose_out (s : State) (k : Nat) : (noteRose s k).out = s.out := rfl
@[simp] theorem noteRose_pending (s : State) (k : Nat) : (noteRose s k).pending = s.pending := rfl

/-! ### raise -/

@[simp] theorem raise_part (s : State) (f : Fld) (o : Nat) : (raise s f o).part = s.part := by unfold raise; dsimp only; split <;> simp
@[simp] theorem raise_now (s : State) (f : Fld) (o : Nat) : (raise s f o).now = s.now := by unfold raise; dsimp only; split <;> simp
@[simp] theorem raise_nonce (s : State) (f : Fld) (o : Nat) : (raise s f o).nonce = s.nonce := by unfold raise; dsimp only; split <;> simp
@[simp] theorem raise_shadow (s : State) (f : Fld) (o : Nat) : (raise s f o).shadow = s.shadow := by unfold raise; dsimp only; split <;> simp
@[simp] theorem raise_undef (s : State) (f : Fld) (o : Nat) : (raise s f o).undef = s.undef := by unfold raise; dsimp only; split <;> simp
@[simp] theorem raise_bmk (s : State) (f : Fld) (o : Nat) : (raise s f o).bmk = s.bmk := by unfold raise; dsimp only; split <;> simp
@[simp] theorem raise_ports (s : State) (f : Fld) (o : Nat) : (raise s f o).ports = s.ports := by unfold raise; dsimp only; split <;> simp
@[simp] theorem raise_plats (s : State) (f : Fld) (o : Nat) : (raise s f o).plats = s.plats := by unfold raise; dsimp only; split <;> simp
@[simp] theorem raise_fab (s : State) (f : Fld) (o : Nat) : (raise s f o).fab = s.fab := by unfold raise; dsimp only; split <;> simp
@[simp] theorem raise_tstore (s : State) (f : Fld) (o : Nat) : (raise s f o).tstore = s.tstore := by unfold raise; dsimp only; split <;> simp
@[simp] theorem raise_dst (s : State) (f : Fld) (o : Nat) : (raise s f o).dst = s.dst := by unfold raise; dsimp only; split <;> simp
@[simp] theorem raise_srm (s : State) (f : Fld) (o : Nat) : (raise s f o).srm = s.srm := by unfold raise; dsimp only; split <;> simp
@[simp] theorem raise_hbm (s : State) (f : Fld) (o : Nat) : (raise s f o).hbm = s.hbm := by unfold raise; dsimp only; split <;> simp
@[simp] theorem raise_cdc (s : State) (f : Fld) (o : Nat) : (raise s f o).cdc = s.cdc := by unfold raise; dsimp only; split <;> simp
@[simp] theorem raise_dma (s : State) (f : Fld) (o : Nat) : (raise s f o).dma = s.dma := by unfold raise; dsimp only; split <;> simp
@[simp] theorem raise_devCtl (s : State) (f : Fld) (o : Nat) : (raise s f o).devCtl = s.devCtl := by unfold raise; dsimp only; split <;> simp
@[simp] theorem raise_fns (s : State) (f : Fld) (o : Nat) : (raise s f o).fns = s.fns := by unfold raise; dsimp only; split <;> simp
@[simp] theorem raise_twn (s : State) (f : Fld) (o : Nat) : (raise s f o).twn = s.twn := by unfold raise; dsimp only; split <;> simp
@[simp] theorem raise_pwr (s : State) (f : Fld) (o : Nat) : (raise s f o).pwr = s.pwr := by unfold raise; dsimp only; split <;> simp
@[simp] theorem raise_sec (s : State) (f : Fld) (o : Nat) : (raise s f o).sec = s.sec := by unfold raise; dsimp only; split <;> simp
@[simp] theorem raise_logSeq (s : State) (f : Fld) (o : Nat) : (raise s f o).logSeq = s.logSeq := by unfold raise; dsimp only; split <;> simp
@[simp] theorem raise_logOff (s : State) (f : Fld) (o : Nat) : (raise s f o).logOff = s.logOff := by unfold raise; dsimp only; split <;> simp
@[simp] theorem raise_logCyc (s : State) (f : Fld) (o : Nat) : (raise s f o).logCyc = s.logCyc := by unfold raise; dsimp only; split <;> simp
@[simp] theorem raise_logNow (s : State) (f : Fld) (o : Nat) : (raise s f o).logNow = s.logNow := by unfold raise; dsimp only; split <;> simp
@[simp] theorem raise_pending (s : State) (f : Fld) (o : Nat) : (raise s f o).pending = s.pending := by unfold raise; dsimp only; split <;> simp

/-! ### The error log -/

/-! ### vfSummary -/

@[simp] theorem vfSummary_part (s : State) (e : LogEnt) : (vfSummary s e).part = s.part := by unfold vfSummary; dsimp only; (repeat' split) <;> simp
@[simp] theorem vfSummary_now (s : State) (e : LogEnt) : (vfSummary s e).now = s.now := by unfold vfSummary; dsimp only; (repeat' split) <;> simp
@[simp] theorem vfSummary_nonce (s : State) (e : LogEnt) : (vfSummary s e).nonce = s.nonce := by unfold vfSummary; dsimp only; (repeat' split) <;> simp
@[simp] theorem vfSummary_shadow (s : State) (e : LogEnt) : (vfSummary s e).shadow = s.shadow := by unfold vfSummary; dsimp only; (repeat' split) <;> simp
@[simp] theorem vfSummary_undef (s : State) (e : LogEnt) : (vfSummary s e).undef = s.undef := by unfold vfSummary; dsimp only; (repeat' split) <;> simp
@[simp] theorem vfSummary_bmk (s : State) (e : LogEnt) : (vfSummary s e).bmk = s.bmk := by unfold vfSummary; dsimp only; (repeat' split) <;> simp
@[simp] theorem vfSummary_ports (s : State) (e : LogEnt) : (vfSummary s e).ports = s.ports := by unfold vfSummary; dsimp only; (repeat' split) <;> simp
@[simp] theorem vfSummary_plats (s : State) (e : LogEnt) : (vfSummary s e).plats = s.plats := by unfold vfSummary; dsimp only; (repeat' split) <;> simp
@[simp] theorem vfSummary_fab (s : State) (e : LogEnt) : (vfSummary s e).fab = s.fab := by unfold vfSummary; dsimp only; (repeat' split) <;> simp
@[simp] theorem vfSummary_tstore (s : State) (e : LogEnt) : (vfSummary s e).tstore = s.tstore := by unfold vfSummary; dsimp only; (repeat' split) <;> simp
@[simp] theorem vfSummary_dst (s : State) (e : LogEnt) : (vfSummary s e).dst = s.dst := by unfold vfSummary; dsimp only; (repeat' split) <;> simp
@[simp] theorem vfSummary_srm (s : State) (e : LogEnt) : (vfSummary s e).srm = s.srm := by unfold vfSummary; dsimp only; (repeat' split) <;> simp
@[simp] theorem vfSummary_hbm (s : State) (e : LogEnt) : (vfSummary s e).hbm = s.hbm := by unfold vfSummary; dsimp only; (repeat' split) <;> simp
@[simp] theorem vfSummary_cdc (s : State) (e : LogEnt) : (vfSummary s e).cdc = s.cdc := by unfold vfSummary; dsimp only; (repeat' split) <;> simp
@[simp] theorem vfSummary_dma (s : State) (e : LogEnt) : (vfSummary s e).dma = s.dma := by unfold vfSummary; dsimp only; (repeat' split) <;> simp
@[simp] theorem vfSummary_devCtl (s : State) (e : LogEnt) : (vfSummary s e).devCtl = s.devCtl := by unfold vfSummary; dsimp only; (repeat' split) <;> simp
@[simp] theorem vfSummary_fns (s : State) (e : LogEnt) : (vfSummary s e).fns = s.fns := by unfold vfSummary; dsimp only; (repeat' split) <;> simp
@[simp] theorem vfSummary_twn (s : State) (e : LogEnt) : (vfSummary s e).twn = s.twn := by unfold vfSummary; dsimp only; (repeat' split) <;> simp
@[simp] theorem vfSummary_pwr (s : State) (e : LogEnt) : (vfSummary s e).pwr = s.pwr := by unfold vfSummary; dsimp only; (repeat' split) <;> simp
@[simp] theorem vfSummary_sec (s : State) (e : LogEnt) : (vfSummary s e).sec = s.sec := by unfold vfSummary; dsimp only; (repeat' split) <;> simp
@[simp] theorem vfSummary_logSeq (s : State) (e : LogEnt) : (vfSummary s e).logSeq = s.logSeq := by unfold vfSummary; dsimp only; (repeat' split) <;> simp
@[simp] theorem vfSummary_logOff (s : State) (e : LogEnt) : (vfSummary s e).logOff = s.logOff := by unfold vfSummary; dsimp only; (repeat' split) <;> simp
@[simp] theorem vfSummary_logCyc (s : State) (e : LogEnt) : (vfSummary s e).logCyc = s.logCyc := by unfold vfSummary; dsimp only; (repeat' split) <;> simp
@[simp] theorem vfSummary_logNow (s : State) (e : LogEnt) : (vfSummary s e).logNow = s.logNow := by unfold vfSummary; dsimp only; (repeat' split) <;> simp
@[simp] theorem vfSummary_pending (s : State) (e : LogEnt) : (vfSummary s e).pending = s.pending := by unfold vfSummary; dsimp only; (repeat' split) <;> simp

/-! ### escMsg -/


@[simp] theorem escMsg_part (s : State) (p : Nat) : (escMsg s p).part = s.part := by unfold escMsg; split <;> simp
@[simp] theorem escMsg_now (s : State) (p : Nat) : (escMsg s p).now = s.now := by unfold escMsg; split <;> simp
@[simp] theorem escMsg_nonce (s : State) (p : Nat) : (escMsg s p).nonce = s.nonce := by unfold escMsg; split <;> simp
@[simp] theorem escMsg_regs (s : State) (p : Nat) : (escMsg s p).regs = s.regs := by unfold escMsg; split <;> simp
@[simp] theorem escMsg_shadow (s : State) (p : Nat) : (escMsg s p).shadow = s.shadow := by unfold escMsg; split <;> simp
@[simp] theorem escMsg_undef (s : State) (p : Nat) : (escMsg s p).undef = s.undef := by unfold escMsg; split <;> simp
@[simp] theorem escMsg_bmk (s : State) (p : Nat) : (escMsg s p).bmk = s.bmk := by unfold escMsg; split <;> simp
@[simp] theorem escMsg_ports (s : State) (p : Nat) : (escMsg s p).ports = s.ports := by unfold escMsg; split <;> simp
@[simp] theorem escMsg_plats (s : State) (p : Nat) : (escMsg s p).plats = s.plats := by unfold escMsg; split <;> simp
@[simp] theorem escMsg_fab (s : State) (p : Nat) : (escMsg s p).fab = s.fab := by unfold escMsg; split <;> simp
@[simp] theorem escMsg_tstore (s : State) (p : Nat) : (escMsg s p).tstore = s.tstore := by unfold escMsg; split <;> simp
@[simp] theorem escMsg_dst (s : State) (p : Nat) : (escMsg s p).dst = s.dst := by unfold escMsg; split <;> simp
@[simp] theorem escMsg_srm (s : State) (p : Nat) : (escMsg s p).srm = s.srm := by unfold escMsg; split <;> simp
@[simp] theorem escMsg_hbm (s : State) (p : Nat) : (escMsg s p).hbm = s.hbm := by unfold escMsg; split <;> simp
@[simp] theorem escMsg_cdc (s : State) (p : Nat) : (escMsg s p).cdc = s.cdc := by unfold escMsg; split <;> simp
@[simp] theorem escMsg_dma (s : State) (p : Nat) : (escMsg s p).dma = s.dma := by unfold escMsg; split <;> simp
@[simp] theorem escMsg_devCtl (s : State) (p : Nat) : (escMsg s p).devCtl = s.devCtl := by unfold escMsg; split <;> simp
@[simp] theorem escMsg_fns (s : State) (p : Nat) : (escMsg s p).fns = s.fns := by unfold escMsg; split <;> simp
@[simp] theorem escMsg_twn (s : State) (p : Nat) : (escMsg s p).twn = s.twn := by unfold escMsg; split <;> simp
@[simp] theorem escMsg_pwr (s : State) (p : Nat) : (escMsg s p).pwr = s.pwr := by unfold escMsg; split <;> simp
@[simp] theorem escMsg_sec (s : State) (p : Nat) : (escMsg s p).sec = s.sec := by unfold escMsg; split <;> simp
@[simp] theorem escMsg_logSeq (s : State) (p : Nat) : (escMsg s p).logSeq = s.logSeq := by unfold escMsg; split <;> simp
@[simp] theorem escMsg_logOff (s : State) (p : Nat) : (escMsg s p).logOff = s.logOff := by unfold escMsg; split <;> simp
@[simp] theorem escMsg_logCyc (s : State) (p : Nat) : (escMsg s p).logCyc = s.logCyc := by unfold escMsg; split <;> simp
@[simp] theorem escMsg_logNow (s : State) (p : Nat) : (escMsg s p).logNow = s.logNow := by unfold escMsg; split <;> simp
@[simp] theorem escMsg_pending (s : State) (p : Nat) : (escMsg s p).pending = s.pending := by unfold escMsg; split <;> simp

/-! ### escalate -/

@[simp] theorem escalate_part (s : State) : (escalate s).part = s.part := by simp [escalate]
@[simp] theorem escalate_now (s : State) : (escalate s).now = s.now := by simp [escalate]
@[simp] theorem escalate_nonce (s : State) : (escalate s).nonce = s.nonce := by simp [escalate]
@[simp] theorem escalate_shadow (s : State) : (escalate s).shadow = s.shadow := by simp [escalate]
@[simp] theorem escalate_undef (s : State) : (escalate s).undef = s.undef := by simp [escalate]
@[simp] theorem escalate_bmk (s : State) : (escalate s).bmk = s.bmk := by simp [escalate]
@[simp] theorem escalate_ports (s : State) : (escalate s).ports = s.ports := by simp [escalate]
@[simp] theorem escalate_plats (s : State) : (escalate s).plats = s.plats := by simp [escalate]
@[simp] theorem escalate_fab (s : State) : (escalate s).fab = s.fab := by simp [escalate]
@[simp] theorem escalate_tstore (s : State) : (escalate s).tstore = s.tstore := by simp [escalate]
@[simp] theorem escalate_dst (s : State) : (escalate s).dst = s.dst := by simp [escalate]
@[simp] theorem escalate_srm (s : State) : (escalate s).srm = s.srm := by simp [escalate]
@[simp] theorem escalate_hbm (s : State) : (escalate s).hbm = s.hbm := by simp [escalate]
@[simp] theorem escalate_cdc (s : State) : (escalate s).cdc = s.cdc := by simp [escalate]
@[simp] theorem escalate_dma (s : State) : (escalate s).dma = s.dma := by simp [escalate]
@[simp] theorem escalate_devCtl (s : State) : (escalate s).devCtl = s.devCtl := by simp [escalate]
@[simp] theorem escalate_fns (s : State) : (escalate s).fns = s.fns := by simp [escalate]
@[simp] theorem escalate_twn (s : State) : (escalate s).twn = s.twn := by simp [escalate]
@[simp] theorem escalate_pwr (s : State) : (escalate s).pwr = s.pwr := by simp [escalate]
@[simp] theorem escalate_sec (s : State) : (escalate s).sec = s.sec := by simp [escalate]
@[simp] theorem escalate_logSeq (s : State) : (escalate s).logSeq = s.logSeq := by simp [escalate]
@[simp] theorem escalate_logOff (s : State) : (escalate s).logOff = s.logOff := by simp [escalate]
@[simp] theorem escalate_logCyc (s : State) : (escalate s).logCyc = s.logCyc := by simp [escalate]
@[simp] theorem escalate_logNow (s : State) : (escalate s).logNow = s.logNow := by simp [escalate]
@[simp] theorem escalate_pending (s : State) : (escalate s).pending = s.pending := by simp [escalate]

/-! ### setSeqs -/


@[simp] theorem setSeqs_part (s : State) (l : List (Nat × Nat)) : (setSeqs s l).part = s.part := by unfold setSeqs; induction l generalizing s <;> simp [*]
@[simp] theorem setSeqs_now (s : State) (l : List (Nat × Nat)) : (setSeqs s l).now = s.now := by unfold setSeqs; induction l generalizing s <;> simp [*]
@[simp] theorem setSeqs_nonce (s : State) (l : List (Nat × Nat)) : (setSeqs s l).nonce = s.nonce := by unfold setSeqs; induction l generalizing s <;> simp [*]
@[simp] theorem setSeqs_shadow (s : State) (l : List (Nat × Nat)) : (setSeqs s l).shadow = s.shadow := by unfold setSeqs; induction l generalizing s <;> simp [*]
@[simp] theorem setSeqs_undef (s : State) (l : List (Nat × Nat)) : (setSeqs s l).undef = s.undef := by unfold setSeqs; induction l generalizing s <;> simp [*]
@[simp] theorem setSeqs_bmk (s : State) (l : List (Nat × Nat)) : (setSeqs s l).bmk = s.bmk := by unfold setSeqs; induction l generalizing s <;> simp [*]
@[simp] theorem setSeqs_ports (s : State) (l : List (Nat × Nat)) : (setSeqs s l).ports = s.ports := by unfold setSeqs; induction l generalizing s <;> simp [*]
@[simp] theorem setSeqs_plats (s : State) (l : List (Nat × Nat)) : (setSeqs s l).plats = s.plats := by unfold setSeqs; induction l generalizing s <;> simp [*]
@[simp] theorem setSeqs_fab (s : State) (l : List (Nat × Nat)) : (setSeqs s l).fab = s.fab := by unfold setSeqs; induction l generalizing s <;> simp [*]
@[simp] theorem setSeqs_tstore (s : State) (l : List (Nat × Nat)) : (setSeqs s l).tstore = s.tstore := by unfold setSeqs; induction l generalizing s <;> simp [*]
@[simp] theorem setSeqs_dst (s : State) (l : List (Nat × Nat)) : (setSeqs s l).dst = s.dst := by unfold setSeqs; induction l generalizing s <;> simp [*]
@[simp] theorem setSeqs_rings (s : State) (l : List (Nat × Nat)) : (setSeqs s l).rings = s.rings := by unfold setSeqs; induction l generalizing s <;> simp [*]
@[simp] theorem setSeqs_srm (s : State) (l : List (Nat × Nat)) : (setSeqs s l).srm = s.srm := by unfold setSeqs; induction l generalizing s <;> simp [*]
@[simp] theorem setSeqs_hbm (s : State) (l : List (Nat × Nat)) : (setSeqs s l).hbm = s.hbm := by unfold setSeqs; induction l generalizing s <;> simp [*]
@[simp] theorem setSeqs_cdc (s : State) (l : List (Nat × Nat)) : (setSeqs s l).cdc = s.cdc := by unfold setSeqs; induction l generalizing s <;> simp [*]
@[simp] theorem setSeqs_dma (s : State) (l : List (Nat × Nat)) : (setSeqs s l).dma = s.dma := by unfold setSeqs; induction l generalizing s <;> simp [*]
@[simp] theorem setSeqs_devCtl (s : State) (l : List (Nat × Nat)) : (setSeqs s l).devCtl = s.devCtl := by unfold setSeqs; induction l generalizing s <;> simp [*]
@[simp] theorem setSeqs_fns (s : State) (l : List (Nat × Nat)) : (setSeqs s l).fns = s.fns := by unfold setSeqs; induction l generalizing s <;> simp [*]
@[simp] theorem setSeqs_twn (s : State) (l : List (Nat × Nat)) : (setSeqs s l).twn = s.twn := by unfold setSeqs; induction l generalizing s <;> simp [*]
@[simp] theorem setSeqs_pwr (s : State) (l : List (Nat × Nat)) : (setSeqs s l).pwr = s.pwr := by unfold setSeqs; induction l generalizing s <;> simp [*]
@[simp] theorem setSeqs_sec (s : State) (l : List (Nat × Nat)) : (setSeqs s l).sec = s.sec := by unfold setSeqs; induction l generalizing s <;> simp [*]
@[simp] theorem setSeqs_logSeq (s : State) (l : List (Nat × Nat)) : (setSeqs s l).logSeq = s.logSeq := by unfold setSeqs; induction l generalizing s <;> simp [*]
@[simp] theorem setSeqs_logOff (s : State) (l : List (Nat × Nat)) : (setSeqs s l).logOff = s.logOff := by unfold setSeqs; induction l generalizing s <;> simp [*]
@[simp] theorem setSeqs_logCyc (s : State) (l : List (Nat × Nat)) : (setSeqs s l).logCyc = s.logCyc := by unfold setSeqs; induction l generalizing s <;> simp [*]
@[simp] theorem setSeqs_logNow (s : State) (l : List (Nat × Nat)) : (setSeqs s l).logNow = s.logNow := by unfold setSeqs; induction l generalizing s <;> simp [*]
@[simp] theorem setSeqs_out (s : State) (l : List (Nat × Nat)) : (setSeqs s l).out = s.out := by unfold setSeqs; induction l generalizing s <;> simp [*]
@[simp] theorem setSeqs_pending (s : State) (l : List (Nat × Nat)) : (setSeqs s l).pending = s.pending := by unfold setSeqs; induction l generalizing s <;> simp [*]

/-! ### seqOrder -/


@[simp] theorem seqOrder_part (s : State) (i : Nat) : (seqOrder s i).part = s.part := by simp [seqOrder]
@[simp] theorem seqOrder_now (s : State) (i : Nat) : (seqOrder s i).now = s.now := by simp [seqOrder]
@[simp] theorem seqOrder_nonce (s : State) (i : Nat) : (seqOrder s i).nonce = s.nonce := by simp [seqOrder]
@[simp] theorem seqOrder_shadow (s : State) (i : Nat) : (seqOrder s i).shadow = s.shadow := by simp [seqOrder]
@[simp] theorem seqOrder_undef (s : State) (i : Nat) : (seqOrder s i).undef = s.undef := by simp [seqOrder]
@[simp] theorem seqOrder_bmk (s : State) (i : Nat) : (seqOrder s i).bmk = s.bmk := by simp [seqOrder]
@[simp] theorem seqOrder_ports (s : State) (i : Nat) : (seqOrder s i).ports = s.ports := by simp [seqOrder]
@[simp] theorem seqOrder_plats (s : State) (i : Nat) : (seqOrder s i).plats = s.plats := by simp [seqOrder]
@[simp] theorem seqOrder_fab (s : State) (i : Nat) : (seqOrder s i).fab = s.fab := by simp [seqOrder]
@[simp] theorem seqOrder_tstore (s : State) (i : Nat) : (seqOrder s i).tstore = s.tstore := by simp [seqOrder]
@[simp] theorem seqOrder_dst (s : State) (i : Nat) : (seqOrder s i).dst = s.dst := by simp [seqOrder]
@[simp] theorem seqOrder_rings (s : State) (i : Nat) : (seqOrder s i).rings = s.rings := by simp [seqOrder]
@[simp] theorem seqOrder_srm (s : State) (i : Nat) : (seqOrder s i).srm = s.srm := by simp [seqOrder]
@[simp] theorem seqOrder_hbm (s : State) (i : Nat) : (seqOrder s i).hbm = s.hbm := by simp [seqOrder]
@[simp] theorem seqOrder_cdc (s : State) (i : Nat) : (seqOrder s i).cdc = s.cdc := by simp [seqOrder]
@[simp] theorem seqOrder_dma (s : State) (i : Nat) : (seqOrder s i).dma = s.dma := by simp [seqOrder]
@[simp] theorem seqOrder_devCtl (s : State) (i : Nat) : (seqOrder s i).devCtl = s.devCtl := by simp [seqOrder]
@[simp] theorem seqOrder_fns (s : State) (i : Nat) : (seqOrder s i).fns = s.fns := by simp [seqOrder]
@[simp] theorem seqOrder_twn (s : State) (i : Nat) : (seqOrder s i).twn = s.twn := by simp [seqOrder]
@[simp] theorem seqOrder_pwr (s : State) (i : Nat) : (seqOrder s i).pwr = s.pwr := by simp [seqOrder]
@[simp] theorem seqOrder_sec (s : State) (i : Nat) : (seqOrder s i).sec = s.sec := by simp [seqOrder]
@[simp] theorem seqOrder_logSeq (s : State) (i : Nat) : (seqOrder s i).logSeq = s.logSeq := by simp [seqOrder]
@[simp] theorem seqOrder_logOff (s : State) (i : Nat) : (seqOrder s i).logOff = s.logOff := by simp [seqOrder]
@[simp] theorem seqOrder_out (s : State) (i : Nat) : (seqOrder s i).out = s.out := by simp [seqOrder]
@[simp] theorem seqOrder_pending (s : State) (i : Nat) : (seqOrder s i).pending = s.pending := by simp [seqOrder]

/-! ### fillSlot -/

@[simp] theorem fillSlot_part (s : State) (e : LogEnt) (i : Nat) : (fillSlot s e i).part = s.part := by simp [fillSlot, apply_ite State.part]
@[simp] theorem fillSlot_now (s : State) (e : LogEnt) (i : Nat) : (fillSlot s e i).now = s.now := by simp [fillSlot, apply_ite State.now]
@[simp] theorem fillSlot_nonce (s : State) (e : LogEnt) (i : Nat) : (fillSlot s e i).nonce = s.nonce := by simp [fillSlot, apply_ite State.nonce]
@[simp] theorem fillSlot_shadow (s : State) (e : LogEnt) (i : Nat) : (fillSlot s e i).shadow = s.shadow := by simp [fillSlot, apply_ite State.shadow]
@[simp] theorem fillSlot_undef (s : State) (e : LogEnt) (i : Nat) : (fillSlot s e i).undef = s.undef := by simp [fillSlot, apply_ite State.undef]
@[simp] theorem fillSlot_bmk (s : State) (e : LogEnt) (i : Nat) : (fillSlot s e i).bmk = s.bmk := by simp [fillSlot, apply_ite State.bmk]
@[simp] theorem fillSlot_ports (s : State) (e : LogEnt) (i : Nat) : (fillSlot s e i).ports = s.ports := by simp [fillSlot, apply_ite State.ports]
@[simp] theorem fillSlot_plats (s : State) (e : LogEnt) (i : Nat) : (fillSlot s e i).plats = s.plats := by simp [fillSlot, apply_ite State.plats]
@[simp] theorem fillSlot_fab (s : State) (e : LogEnt) (i : Nat) : (fillSlot s e i).fab = s.fab := by simp [fillSlot, apply_ite State.fab]
@[simp] theorem fillSlot_tstore (s : State) (e : LogEnt) (i : Nat) : (fillSlot s e i).tstore = s.tstore := by simp [fillSlot, apply_ite State.tstore]
@[simp] theorem fillSlot_dst (s : State) (e : LogEnt) (i : Nat) : (fillSlot s e i).dst = s.dst := by simp [fillSlot, apply_ite State.dst]
@[simp] theorem fillSlot_srm (s : State) (e : LogEnt) (i : Nat) : (fillSlot s e i).srm = s.srm := by simp [fillSlot, apply_ite State.srm]
@[simp] theorem fillSlot_hbm (s : State) (e : LogEnt) (i : Nat) : (fillSlot s e i).hbm = s.hbm := by simp [fillSlot, apply_ite State.hbm]
@[simp] theorem fillSlot_cdc (s : State) (e : LogEnt) (i : Nat) : (fillSlot s e i).cdc = s.cdc := by simp [fillSlot, apply_ite State.cdc]
@[simp] theorem fillSlot_dma (s : State) (e : LogEnt) (i : Nat) : (fillSlot s e i).dma = s.dma := by simp [fillSlot, apply_ite State.dma]
@[simp] theorem fillSlot_devCtl (s : State) (e : LogEnt) (i : Nat) : (fillSlot s e i).devCtl = s.devCtl := by simp [fillSlot, apply_ite State.devCtl]
@[simp] theorem fillSlot_fns (s : State) (e : LogEnt) (i : Nat) : (fillSlot s e i).fns = s.fns := by simp [fillSlot, apply_ite State.fns]
@[simp] theorem fillSlot_twn (s : State) (e : LogEnt) (i : Nat) : (fillSlot s e i).twn = s.twn := by simp [fillSlot, apply_ite State.twn]
@[simp] theorem fillSlot_pwr (s : State) (e : LogEnt) (i : Nat) : (fillSlot s e i).pwr = s.pwr := by simp [fillSlot, apply_ite State.pwr]
@[simp] theorem fillSlot_sec (s : State) (e : LogEnt) (i : Nat) : (fillSlot s e i).sec = s.sec := by simp [fillSlot, apply_ite State.sec]
@[simp] theorem fillSlot_logOff (s : State) (e : LogEnt) (i : Nat) : (fillSlot s e i).logOff = s.logOff := by simp [fillSlot, apply_ite State.logOff]
@[simp] theorem fillSlot_pending (s : State) (e : LogEnt) (i : Nat) : (fillSlot s e i).pending = s.pending := by simp [fillSlot, apply_ite State.pending]

/-! ### loseEntry -/

@[simp] theorem loseEntry_part (s : State) : (loseEntry s).part = s.part := by simp [loseEntry]
@[simp] theorem loseEntry_now (s : State) : (loseEntry s).now = s.now := by simp [loseEntry]
@[simp] theorem loseEntry_nonce (s : State) : (loseEntry s).nonce = s.nonce := by simp [loseEntry]
@[simp] theorem loseEntry_shadow (s : State) : (loseEntry s).shadow = s.shadow := by simp [loseEntry]
@[simp] theorem loseEntry_undef (s : State) : (loseEntry s).undef = s.undef := by simp [loseEntry]
@[simp] theorem loseEntry_bmk (s : State) : (loseEntry s).bmk = s.bmk := by simp [loseEntry]
@[simp] theorem loseEntry_ports (s : State) : (loseEntry s).ports = s.ports := by simp [loseEntry]
@[simp] theorem loseEntry_plats (s : State) : (loseEntry s).plats = s.plats := by simp [loseEntry]
@[simp] theorem loseEntry_fab (s : State) : (loseEntry s).fab = s.fab := by simp [loseEntry]
@[simp] theorem loseEntry_tstore (s : State) : (loseEntry s).tstore = s.tstore := by simp [loseEntry]
@[simp] theorem loseEntry_dst (s : State) : (loseEntry s).dst = s.dst := by simp [loseEntry]
@[simp] theorem loseEntry_srm (s : State) : (loseEntry s).srm = s.srm := by simp [loseEntry]
@[simp] theorem loseEntry_hbm (s : State) : (loseEntry s).hbm = s.hbm := by simp [loseEntry]
@[simp] theorem loseEntry_cdc (s : State) : (loseEntry s).cdc = s.cdc := by simp [loseEntry]
@[simp] theorem loseEntry_dma (s : State) : (loseEntry s).dma = s.dma := by simp [loseEntry]
@[simp] theorem loseEntry_devCtl (s : State) : (loseEntry s).devCtl = s.devCtl := by simp [loseEntry]
@[simp] theorem loseEntry_fns (s : State) : (loseEntry s).fns = s.fns := by simp [loseEntry]
@[simp] theorem loseEntry_twn (s : State) : (loseEntry s).twn = s.twn := by simp [loseEntry]
@[simp] theorem loseEntry_pwr (s : State) : (loseEntry s).pwr = s.pwr := by simp [loseEntry]
@[simp] theorem loseEntry_sec (s : State) : (loseEntry s).sec = s.sec := by simp [loseEntry]
@[simp] theorem loseEntry_logSeq (s : State) : (loseEntry s).logSeq = s.logSeq := by simp [loseEntry]
@[simp] theorem loseEntry_logOff (s : State) : (loseEntry s).logOff = s.logOff := by simp [loseEntry]
@[simp] theorem loseEntry_logCyc (s : State) : (loseEntry s).logCyc = s.logCyc := by simp [loseEntry]
@[simp] theorem loseEntry_logNow (s : State) : (loseEntry s).logNow = s.logNow := by simp [loseEntry]
@[simp] theorem loseEntry_pending (s : State) : (loseEntry s).pending = s.pending := by simp [loseEntry]

/-! ### placeEntry -/

@[simp] theorem placeEntry_part (s : State) (e : LogEnt) : (placeEntry s e).part = s.part := by unfold placeEntry; dsimp only; (repeat' split) <;> simp
@[simp] theorem placeEntry_now (s : State) (e : LogEnt) : (placeEntry s e).now = s.now := by unfold placeEntry; dsimp only; (repeat' split) <;> simp
@[simp] theorem placeEntry_nonce (s : State) (e : LogEnt) : (placeEntry s e).nonce = s.nonce := by unfold placeEntry; dsimp only; (repeat' split) <;> simp
@[simp] theorem placeEntry_shadow (s : State) (e : LogEnt) : (placeEntry s e).shadow = s.shadow := by unfold placeEntry; dsimp only; (repeat' split) <;> simp
@[simp] theorem placeEntry_undef (s : State) (e : LogEnt) : (placeEntry s e).undef = s.undef := by unfold placeEntry; dsimp only; (repeat' split) <;> simp
@[simp] theorem placeEntry_bmk (s : State) (e : LogEnt) : (placeEntry s e).bmk = s.bmk := by unfold placeEntry; dsimp only; (repeat' split) <;> simp
@[simp] theorem placeEntry_ports (s : State) (e : LogEnt) : (placeEntry s e).ports = s.ports := by unfold placeEntry; dsimp only; (repeat' split) <;> simp
@[simp] theorem placeEntry_plats (s : State) (e : LogEnt) : (placeEntry s e).plats = s.plats := by unfold placeEntry; dsimp only; (repeat' split) <;> simp
@[simp] theorem placeEntry_fab (s : State) (e : LogEnt) : (placeEntry s e).fab = s.fab := by unfold placeEntry; dsimp only; (repeat' split) <;> simp
@[simp] theorem placeEntry_tstore (s : State) (e : LogEnt) : (placeEntry s e).tstore = s.tstore := by unfold placeEntry; dsimp only; (repeat' split) <;> simp
@[simp] theorem placeEntry_dst (s : State) (e : LogEnt) : (placeEntry s e).dst = s.dst := by unfold placeEntry; dsimp only; (repeat' split) <;> simp
@[simp] theorem placeEntry_srm (s : State) (e : LogEnt) : (placeEntry s e).srm = s.srm := by unfold placeEntry; dsimp only; (repeat' split) <;> simp
@[simp] theorem placeEntry_hbm (s : State) (e : LogEnt) : (placeEntry s e).hbm = s.hbm := by unfold placeEntry; dsimp only; (repeat' split) <;> simp
@[simp] theorem placeEntry_cdc (s : State) (e : LogEnt) : (placeEntry s e).cdc = s.cdc := by unfold placeEntry; dsimp only; (repeat' split) <;> simp
@[simp] theorem placeEntry_dma (s : State) (e : LogEnt) : (placeEntry s e).dma = s.dma := by unfold placeEntry; dsimp only; (repeat' split) <;> simp
@[simp] theorem placeEntry_devCtl (s : State) (e : LogEnt) : (placeEntry s e).devCtl = s.devCtl := by unfold placeEntry; dsimp only; (repeat' split) <;> simp
@[simp] theorem placeEntry_fns (s : State) (e : LogEnt) : (placeEntry s e).fns = s.fns := by unfold placeEntry; dsimp only; (repeat' split) <;> simp
@[simp] theorem placeEntry_twn (s : State) (e : LogEnt) : (placeEntry s e).twn = s.twn := by unfold placeEntry; dsimp only; (repeat' split) <;> simp
@[simp] theorem placeEntry_pwr (s : State) (e : LogEnt) : (placeEntry s e).pwr = s.pwr := by unfold placeEntry; dsimp only; (repeat' split) <;> simp
@[simp] theorem placeEntry_sec (s : State) (e : LogEnt) : (placeEntry s e).sec = s.sec := by unfold placeEntry; dsimp only; (repeat' split) <;> simp
@[simp] theorem placeEntry_logOff (s : State) (e : LogEnt) : (placeEntry s e).logOff = s.logOff := by unfold placeEntry; dsimp only; (repeat' split) <;> simp
@[simp] theorem placeEntry_pending (s : State) (e : LogEnt) : (placeEntry s e).pending = s.pending := by unfold placeEntry; dsimp only; (repeat' split) <;> simp

/-! ### logLow -/

@[simp] theorem logLow_part (s : State) (e : LogEnt) : (logLow s e).part = s.part := by unfold logLow; split <;> simp [repeatSlot]
@[simp] theorem logLow_now (s : State) (e : LogEnt) : (logLow s e).now = s.now := by unfold logLow; split <;> simp [repeatSlot]
@[simp] theorem logLow_nonce (s : State) (e : LogEnt) : (logLow s e).nonce = s.nonce := by unfold logLow; split <;> simp [repeatSlot]
@[simp] theorem logLow_shadow (s : State) (e : LogEnt) : (logLow s e).shadow = s.shadow := by unfold logLow; split <;> simp [repeatSlot]
@[simp] theorem logLow_undef (s : State) (e : LogEnt) : (logLow s e).undef = s.undef := by unfold logLow; split <;> simp [repeatSlot]
@[simp] theorem logLow_bmk (s : State) (e : LogEnt) : (logLow s e).bmk = s.bmk := by unfold logLow; split <;> simp [repeatSlot]
@[simp] theorem logLow_ports (s : State) (e : LogEnt) : (logLow s e).ports = s.ports := by unfold logLow; split <;> simp [repeatSlot]
@[simp] theorem logLow_plats (s : State) (e : LogEnt) : (logLow s e).plats = s.plats := by unfold logLow; split <;> simp [repeatSlot]
@[simp] theorem logLow_fab (s : State) (e : LogEnt) : (logLow s e).fab = s.fab := by unfold logLow; split <;> simp [repeatSlot]
@[simp] theorem logLow_tstore (s : State) (e : LogEnt) : (logLow s e).tstore = s.tstore := by unfold logLow; split <;> simp [repeatSlot]
@[simp] theorem logLow_dst (s : State) (e : LogEnt) : (logLow s e).dst = s.dst := by unfold logLow; split <;> simp [repeatSlot]
@[simp] theorem logLow_srm (s : State) (e : LogEnt) : (logLow s e).srm = s.srm := by unfold logLow; split <;> simp [repeatSlot]
@[simp] theorem logLow_hbm (s : State) (e : LogEnt) : (logLow s e).hbm = s.hbm := by unfold logLow; split <;> simp [repeatSlot]
@[simp] theorem logLow_cdc (s : State) (e : LogEnt) : (logLow s e).cdc = s.cdc := by unfold logLow; split <;> simp [repeatSlot]
@[simp] theorem logLow_dma (s : State) (e : LogEnt) : (logLow s e).dma = s.dma := by unfold logLow; split <;> simp [repeatSlot]
@[simp] theorem logLow_devCtl (s : State) (e : LogEnt) : (logLow s e).devCtl = s.devCtl := by unfold logLow; split <;> simp [repeatSlot]
@[simp] theorem logLow_fns (s : State) (e : LogEnt) : (logLow s e).fns = s.fns := by unfold logLow; split <;> simp [repeatSlot]
@[simp] theorem logLow_twn (s : State) (e : LogEnt) : (logLow s e).twn = s.twn := by unfold logLow; split <;> simp [repeatSlot]
@[simp] theorem logLow_pwr (s : State) (e : LogEnt) : (logLow s e).pwr = s.pwr := by unfold logLow; split <;> simp [repeatSlot]
@[simp] theorem logLow_sec (s : State) (e : LogEnt) : (logLow s e).sec = s.sec := by unfold logLow; split <;> simp [repeatSlot]
@[simp] theorem logLow_logOff (s : State) (e : LogEnt) : (logLow s e).logOff = s.logOff := by unfold logLow; split <;> simp [repeatSlot]
@[simp] theorem logLow_pending (s : State) (e : LogEnt) : (logLow s e).pending = s.pending := by unfold logLow; split <;> simp [repeatSlot]

/-! ### logHigh -/

@[simp] theorem logHigh_part (s : State) (e : LogEnt) : (logHigh s e).part = s.part := by unfold logHigh; (repeat' split) <;> simp [repeatSlot]
@[simp] theorem logHigh_now (s : State) (e : LogEnt) : (logHigh s e).now = s.now := by unfold logHigh; (repeat' split) <;> simp [repeatSlot]
@[simp] theorem logHigh_nonce (s : State) (e : LogEnt) : (logHigh s e).nonce = s.nonce := by unfold logHigh; (repeat' split) <;> simp [repeatSlot]
@[simp] theorem logHigh_shadow (s : State) (e : LogEnt) : (logHigh s e).shadow = s.shadow := by unfold logHigh; (repeat' split) <;> simp [repeatSlot]
@[simp] theorem logHigh_undef (s : State) (e : LogEnt) : (logHigh s e).undef = s.undef := by unfold logHigh; (repeat' split) <;> simp [repeatSlot]
@[simp] theorem logHigh_bmk (s : State) (e : LogEnt) : (logHigh s e).bmk = s.bmk := by unfold logHigh; (repeat' split) <;> simp [repeatSlot]
@[simp] theorem logHigh_ports (s : State) (e : LogEnt) : (logHigh s e).ports = s.ports := by unfold logHigh; (repeat' split) <;> simp [repeatSlot]
@[simp] theorem logHigh_plats (s : State) (e : LogEnt) : (logHigh s e).plats = s.plats := by unfold logHigh; (repeat' split) <;> simp [repeatSlot]
@[simp] theorem logHigh_fab (s : State) (e : LogEnt) : (logHigh s e).fab = s.fab := by unfold logHigh; (repeat' split) <;> simp [repeatSlot]
@[simp] theorem logHigh_tstore (s : State) (e : LogEnt) : (logHigh s e).tstore = s.tstore := by unfold logHigh; (repeat' split) <;> simp [repeatSlot]
@[simp] theorem logHigh_dst (s : State) (e : LogEnt) : (logHigh s e).dst = s.dst := by unfold logHigh; (repeat' split) <;> simp [repeatSlot]
@[simp] theorem logHigh_srm (s : State) (e : LogEnt) : (logHigh s e).srm = s.srm := by unfold logHigh; (repeat' split) <;> simp [repeatSlot]
@[simp] theorem logHigh_hbm (s : State) (e : LogEnt) : (logHigh s e).hbm = s.hbm := by unfold logHigh; (repeat' split) <;> simp [repeatSlot]
@[simp] theorem logHigh_cdc (s : State) (e : LogEnt) : (logHigh s e).cdc = s.cdc := by unfold logHigh; (repeat' split) <;> simp [repeatSlot]
@[simp] theorem logHigh_dma (s : State) (e : LogEnt) : (logHigh s e).dma = s.dma := by unfold logHigh; (repeat' split) <;> simp [repeatSlot]
@[simp] theorem logHigh_devCtl (s : State) (e : LogEnt) : (logHigh s e).devCtl = s.devCtl := by unfold logHigh; (repeat' split) <;> simp [repeatSlot]
@[simp] theorem logHigh_fns (s : State) (e : LogEnt) : (logHigh s e).fns = s.fns := by unfold logHigh; (repeat' split) <;> simp [repeatSlot]
@[simp] theorem logHigh_twn (s : State) (e : LogEnt) : (logHigh s e).twn = s.twn := by unfold logHigh; (repeat' split) <;> simp [repeatSlot]
@[simp] theorem logHigh_pwr (s : State) (e : LogEnt) : (logHigh s e).pwr = s.pwr := by unfold logHigh; (repeat' split) <;> simp [repeatSlot]
@[simp] theorem logHigh_sec (s : State) (e : LogEnt) : (logHigh s e).sec = s.sec := by unfold logHigh; (repeat' split) <;> simp [repeatSlot]
@[simp] theorem logHigh_logOff (s : State) (e : LogEnt) : (logHigh s e).logOff = s.logOff := by unfold logHigh; (repeat' split) <;> simp [repeatSlot]
@[simp] theorem logHigh_pending (s : State) (e : LogEnt) : (logHigh s e).pending = s.pending := by unfold logHigh; (repeat' split) <;> simp [repeatSlot]

/-! ### logErr -/

@[simp] theorem logErr_part (s : State) (e : LogEnt) : (logErr s e).part = s.part := by unfold logErr noteDeferred; dsimp only; (repeat' split) <;> simp
@[simp] theorem logErr_now (s : State) (e : LogEnt) : (logErr s e).now = s.now := by unfold logErr noteDeferred; dsimp only; (repeat' split) <;> simp
@[simp] theorem logErr_nonce (s : State) (e : LogEnt) : (logErr s e).nonce = s.nonce := by unfold logErr noteDeferred; dsimp only; (repeat' split) <;> simp
@[simp] theorem logErr_shadow (s : State) (e : LogEnt) : (logErr s e).shadow = s.shadow := by unfold logErr noteDeferred; dsimp only; (repeat' split) <;> simp
@[simp] theorem logErr_undef (s : State) (e : LogEnt) : (logErr s e).undef = s.undef := by unfold logErr noteDeferred; dsimp only; (repeat' split) <;> simp
@[simp] theorem logErr_bmk (s : State) (e : LogEnt) : (logErr s e).bmk = s.bmk := by unfold logErr noteDeferred; dsimp only; (repeat' split) <;> simp
@[simp] theorem logErr_ports (s : State) (e : LogEnt) : (logErr s e).ports = s.ports := by unfold logErr noteDeferred; dsimp only; (repeat' split) <;> simp
@[simp] theorem logErr_plats (s : State) (e : LogEnt) : (logErr s e).plats = s.plats := by unfold logErr noteDeferred; dsimp only; (repeat' split) <;> simp
@[simp] theorem logErr_fab (s : State) (e : LogEnt) : (logErr s e).fab = s.fab := by unfold logErr noteDeferred; dsimp only; (repeat' split) <;> simp
@[simp] theorem logErr_tstore (s : State) (e : LogEnt) : (logErr s e).tstore = s.tstore := by unfold logErr noteDeferred; dsimp only; (repeat' split) <;> simp
@[simp] theorem logErr_dst (s : State) (e : LogEnt) : (logErr s e).dst = s.dst := by unfold logErr noteDeferred; dsimp only; (repeat' split) <;> simp
@[simp] theorem logErr_srm (s : State) (e : LogEnt) : (logErr s e).srm = s.srm := by unfold logErr noteDeferred; dsimp only; (repeat' split) <;> simp
@[simp] theorem logErr_hbm (s : State) (e : LogEnt) : (logErr s e).hbm = s.hbm := by unfold logErr noteDeferred; dsimp only; (repeat' split) <;> simp
@[simp] theorem logErr_cdc (s : State) (e : LogEnt) : (logErr s e).cdc = s.cdc := by unfold logErr noteDeferred; dsimp only; (repeat' split) <;> simp
@[simp] theorem logErr_dma (s : State) (e : LogEnt) : (logErr s e).dma = s.dma := by unfold logErr noteDeferred; dsimp only; (repeat' split) <;> simp
@[simp] theorem logErr_devCtl (s : State) (e : LogEnt) : (logErr s e).devCtl = s.devCtl := by unfold logErr noteDeferred; dsimp only; (repeat' split) <;> simp
@[simp] theorem logErr_fns (s : State) (e : LogEnt) : (logErr s e).fns = s.fns := by unfold logErr noteDeferred; dsimp only; (repeat' split) <;> simp
@[simp] theorem logErr_pwr (s : State) (e : LogEnt) : (logErr s e).pwr = s.pwr := by unfold logErr noteDeferred; dsimp only; (repeat' split) <;> simp
@[simp] theorem logErr_sec (s : State) (e : LogEnt) : (logErr s e).sec = s.sec := by unfold logErr noteDeferred; dsimp only; (repeat' split) <;> simp
@[simp] theorem logErr_logOff (s : State) (e : LogEnt) : (logErr s e).logOff = s.logOff := by unfold logErr noteDeferred; dsimp only; (repeat' split) <;> simp
@[simp] theorem logErr_pending (s : State) (e : LogEnt) : (logErr s e).pending = s.pending := by unfold logErr noteDeferred; dsimp only; (repeat' split) <;> simp

/-! ### logC -/

@[simp] theorem logC_part (s : State) (die rsn fn ins det : Nat) : (logC s die rsn fn ins det).part = s.part := by simp [logC]
@[simp] theorem logC_now (s : State) (die rsn fn ins det : Nat) : (logC s die rsn fn ins det).now = s.now := by simp [logC]
@[simp] theorem logC_nonce (s : State) (die rsn fn ins det : Nat) : (logC s die rsn fn ins det).nonce = s.nonce := by simp [logC]
@[simp] theorem logC_shadow (s : State) (die rsn fn ins det : Nat) : (logC s die rsn fn ins det).shadow = s.shadow := by simp [logC]
@[simp] theorem logC_undef (s : State) (die rsn fn ins det : Nat) : (logC s die rsn fn ins det).undef = s.undef := by simp [logC]
@[simp] theorem logC_bmk (s : State) (die rsn fn ins det : Nat) : (logC s die rsn fn ins det).bmk = s.bmk := by simp [logC]
@[simp] theorem logC_ports (s : State) (die rsn fn ins det : Nat) : (logC s die rsn fn ins det).ports = s.ports := by simp [logC]
@[simp] theorem logC_plats (s : State) (die rsn fn ins det : Nat) : (logC s die rsn fn ins det).plats = s.plats := by simp [logC]
@[simp] theorem logC_fab (s : State) (die rsn fn ins det : Nat) : (logC s die rsn fn ins det).fab = s.fab := by simp [logC]
@[simp] theorem logC_tstore (s : State) (die rsn fn ins det : Nat) : (logC s die rsn fn ins det).tstore = s.tstore := by simp [logC]
@[simp] theorem logC_dst (s : State) (die rsn fn ins det : Nat) : (logC s die rsn fn ins det).dst = s.dst := by simp [logC]
@[simp] theorem logC_srm (s : State) (die rsn fn ins det : Nat) : (logC s die rsn fn ins det).srm = s.srm := by simp [logC]
@[simp] theorem logC_hbm (s : State) (die rsn fn ins det : Nat) : (logC s die rsn fn ins det).hbm = s.hbm := by simp [logC]
@[simp] theorem logC_cdc (s : State) (die rsn fn ins det : Nat) : (logC s die rsn fn ins det).cdc = s.cdc := by simp [logC]
@[simp] theorem logC_dma (s : State) (die rsn fn ins det : Nat) : (logC s die rsn fn ins det).dma = s.dma := by simp [logC]
@[simp] theorem logC_devCtl (s : State) (die rsn fn ins det : Nat) : (logC s die rsn fn ins det).devCtl = s.devCtl := by simp [logC]
@[simp] theorem logC_fns (s : State) (die rsn fn ins det : Nat) : (logC s die rsn fn ins det).fns = s.fns := by simp [logC]
@[simp] theorem logC_pwr (s : State) (die rsn fn ins det : Nat) : (logC s die rsn fn ins det).pwr = s.pwr := by simp [logC]
@[simp] theorem logC_sec (s : State) (die rsn fn ins det : Nat) : (logC s die rsn fn ins det).sec = s.sec := by simp [logC]
@[simp] theorem logC_logOff (s : State) (die rsn fn ins det : Nat) : (logC s die rsn fn ins det).logOff = s.logOff := by simp [logC]
@[simp] theorem logC_pending (s : State) (die rsn fn ins det : Nat) : (logC s die rsn fn ins det).pending = s.pending := by simp [logC]

/-! ### logD -/

@[simp] theorem logD_part (s : State) (die rsn fn ins det : Nat) : (logD s die rsn fn ins det).part = s.part := by simp [logD]
@[simp] theorem logD_now (s : State) (die rsn fn ins det : Nat) : (logD s die rsn fn ins det).now = s.now := by simp [logD]
@[simp] theorem logD_nonce (s : State) (die rsn fn ins det : Nat) : (logD s die rsn fn ins det).nonce = s.nonce := by simp [logD]
@[simp] theorem logD_shadow (s : State) (die rsn fn ins det : Nat) : (logD s die rsn fn ins det).shadow = s.shadow := by simp [logD]
@[simp] theorem logD_undef (s : State) (die rsn fn ins det : Nat) : (logD s die rsn fn ins det).undef = s.undef := by simp [logD]
@[simp] theorem logD_bmk (s : State) (die rsn fn ins det : Nat) : (logD s die rsn fn ins det).bmk = s.bmk := by simp [logD]
@[simp] theorem logD_ports (s : State) (die rsn fn ins det : Nat) : (logD s die rsn fn ins det).ports = s.ports := by simp [logD]
@[simp] theorem logD_plats (s : State) (die rsn fn ins det : Nat) : (logD s die rsn fn ins det).plats = s.plats := by simp [logD]
@[simp] theorem logD_fab (s : State) (die rsn fn ins det : Nat) : (logD s die rsn fn ins det).fab = s.fab := by simp [logD]
@[simp] theorem logD_tstore (s : State) (die rsn fn ins det : Nat) : (logD s die rsn fn ins det).tstore = s.tstore := by simp [logD]
@[simp] theorem logD_dst (s : State) (die rsn fn ins det : Nat) : (logD s die rsn fn ins det).dst = s.dst := by simp [logD]
@[simp] theorem logD_srm (s : State) (die rsn fn ins det : Nat) : (logD s die rsn fn ins det).srm = s.srm := by simp [logD]
@[simp] theorem logD_hbm (s : State) (die rsn fn ins det : Nat) : (logD s die rsn fn ins det).hbm = s.hbm := by simp [logD]
@[simp] theorem logD_cdc (s : State) (die rsn fn ins det : Nat) : (logD s die rsn fn ins det).cdc = s.cdc := by simp [logD]
@[simp] theorem logD_dma (s : State) (die rsn fn ins det : Nat) : (logD s die rsn fn ins det).dma = s.dma := by simp [logD]
@[simp] theorem logD_devCtl (s : State) (die rsn fn ins det : Nat) : (logD s die rsn fn ins det).devCtl = s.devCtl := by simp [logD]
@[simp] theorem logD_fns (s : State) (die rsn fn ins det : Nat) : (logD s die rsn fn ins det).fns = s.fns := by simp [logD]
@[simp] theorem logD_pwr (s : State) (die rsn fn ins det : Nat) : (logD s die rsn fn ins det).pwr = s.pwr := by simp [logD]
@[simp] theorem logD_sec (s : State) (die rsn fn ins det : Nat) : (logD s die rsn fn ins det).sec = s.sec := by simp [logD]
@[simp] theorem logD_logOff (s : State) (die rsn fn ins det : Nat) : (logD s die rsn fn ins det).logOff = s.logOff := by simp [logD]
@[simp] theorem logD_pending (s : State) (die rsn fn ins det : Nat) : (logD s die rsn fn ins det).pending = s.pending := by simp [logD]

/-! ### logWWR -/

@[simp] theorem logWWR_part (s : State) (fn off : Nat) : (logWWR s fn off).part = s.part := by simp [logWWR]
@[simp] theorem logWWR_now (s : State) (fn off : Nat) : (logWWR s fn off).now = s.now := by simp [logWWR]
@[simp] theorem logWWR_nonce (s : State) (fn off : Nat) : (logWWR s fn off).nonce = s.nonce := by simp [logWWR]
@[simp] theorem logWWR_shadow (s : State) (fn off : Nat) : (logWWR s fn off).shadow = s.shadow := by simp [logWWR]
@[simp] theorem logWWR_undef (s : State) (fn off : Nat) : (logWWR s fn off).undef = s.undef := by simp [logWWR]
@[simp] theorem logWWR_bmk (s : State) (fn off : Nat) : (logWWR s fn off).bmk = s.bmk := by simp [logWWR]
@[simp] theorem logWWR_ports (s : State) (fn off : Nat) : (logWWR s fn off).ports = s.ports := by simp [logWWR]
@[simp] theorem logWWR_plats (s : State) (fn off : Nat) : (logWWR s fn off).plats = s.plats := by simp [logWWR]
@[simp] theorem logWWR_fab (s : State) (fn off : Nat) : (logWWR s fn off).fab = s.fab := by simp [logWWR]
@[simp] theorem logWWR_tstore (s : State) (fn off : Nat) : (logWWR s fn off).tstore = s.tstore := by simp [logWWR]
@[simp] theorem logWWR_dst (s : State) (fn off : Nat) : (logWWR s fn off).dst = s.dst := by simp [logWWR]
@[simp] theorem logWWR_srm (s : State) (fn off : Nat) : (logWWR s fn off).srm = s.srm := by simp [logWWR]
@[simp] theorem logWWR_hbm (s : State) (fn off : Nat) : (logWWR s fn off).hbm = s.hbm := by simp [logWWR]
@[simp] theorem logWWR_cdc (s : State) (fn off : Nat) : (logWWR s fn off).cdc = s.cdc := by simp [logWWR]
@[simp] theorem logWWR_dma (s : State) (fn off : Nat) : (logWWR s fn off).dma = s.dma := by simp [logWWR]
@[simp] theorem logWWR_devCtl (s : State) (fn off : Nat) : (logWWR s fn off).devCtl = s.devCtl := by simp [logWWR]
@[simp] theorem logWWR_fns (s : State) (fn off : Nat) : (logWWR s fn off).fns = s.fns := by simp [logWWR]
@[simp] theorem logWWR_pwr (s : State) (fn off : Nat) : (logWWR s fn off).pwr = s.pwr := by simp [logWWR]
@[simp] theorem logWWR_sec (s : State) (fn off : Nat) : (logWWR s fn off).sec = s.sec := by simp [logWWR]
@[simp] theorem logWWR_logOff (s : State) (fn off : Nat) : (logWWR s fn off).logOff = s.logOff := by simp [logWWR]
@[simp] theorem logWWR_pending (s : State) (fn off : Nat) : (logWWR s fn off).pending = s.pending := by simp [logWWR]

/-! ### logIgn -/

@[simp] theorem logIgn_part (s : State) (fn off : Nat) : (logIgn s fn off).part = s.part := by simp [logIgn]
@[simp] theorem logIgn_now (s : State) (fn off : Nat) : (logIgn s fn off).now = s.now := by simp [logIgn]
@[simp] theorem logIgn_nonce (s : State) (fn off : Nat) : (logIgn s fn off).nonce = s.nonce := by simp [logIgn]
@[simp] theorem logIgn_shadow (s : State) (fn off : Nat) : (logIgn s fn off).shadow = s.shadow := by simp [logIgn]
@[simp] theorem logIgn_undef (s : State) (fn off : Nat) : (logIgn s fn off).undef = s.undef := by simp [logIgn]
@[simp] theorem logIgn_bmk (s : State) (fn off : Nat) : (logIgn s fn off).bmk = s.bmk := by simp [logIgn]
@[simp] theorem logIgn_ports (s : State) (fn off : Nat) : (logIgn s fn off).ports = s.ports := by simp [logIgn]
@[simp] theorem logIgn_plats (s : State) (fn off : Nat) : (logIgn s fn off).plats = s.plats := by simp [logIgn]
@[simp] theorem logIgn_fab (s : State) (fn off : Nat) : (logIgn s fn off).fab = s.fab := by simp [logIgn]
@[simp] theorem logIgn_tstore (s : State) (fn off : Nat) : (logIgn s fn off).tstore = s.tstore := by simp [logIgn]
@[simp] theorem logIgn_dst (s : State) (fn off : Nat) : (logIgn s fn off).dst = s.dst := by simp [logIgn]
@[simp] theorem logIgn_srm (s : State) (fn off : Nat) : (logIgn s fn off).srm = s.srm := by simp [logIgn]
@[simp] theorem logIgn_hbm (s : State) (fn off : Nat) : (logIgn s fn off).hbm = s.hbm := by simp [logIgn]
@[simp] theorem logIgn_cdc (s : State) (fn off : Nat) : (logIgn s fn off).cdc = s.cdc := by simp [logIgn]
@[simp] theorem logIgn_dma (s : State) (fn off : Nat) : (logIgn s fn off).dma = s.dma := by simp [logIgn]
@[simp] theorem logIgn_devCtl (s : State) (fn off : Nat) : (logIgn s fn off).devCtl = s.devCtl := by simp [logIgn]
@[simp] theorem logIgn_fns (s : State) (fn off : Nat) : (logIgn s fn off).fns = s.fns := by simp [logIgn]
@[simp] theorem logIgn_pwr (s : State) (fn off : Nat) : (logIgn s fn off).pwr = s.pwr := by simp [logIgn]
@[simp] theorem logIgn_sec (s : State) (fn off : Nat) : (logIgn s fn off).sec = s.sec := by simp [logIgn]
@[simp] theorem logIgn_logOff (s : State) (fn off : Nat) : (logIgn s fn off).logOff = s.logOff := by simp [logIgn]
@[simp] theorem logIgn_pending (s : State) (fn off : Nat) : (logIgn s fn off).pending = s.pending := by simp [logIgn]

/-! ### noteSusp -/


@[simp] theorem noteSusp_part (s : State) (k : Nat) : (noteSusp s k).part = s.part := by unfold noteSusp; split <;> rfl
@[simp] theorem noteSusp_now (s : State) (k : Nat) : (noteSusp s k).now = s.now := by unfold noteSusp; split <;> rfl
@[simp] theorem noteSusp_nonce (s : State) (k : Nat) : (noteSusp s k).nonce = s.nonce := by unfold noteSusp; split <;> rfl
@[simp] theorem noteSusp_regs (s : State) (k : Nat) : (noteSusp s k).regs = s.regs := by unfold noteSusp; split <;> rfl
@[simp] theorem noteSusp_shadow (s : State) (k : Nat) : (noteSusp s k).shadow = s.shadow := by unfold noteSusp; split <;> rfl
@[simp] theorem noteSusp_undef (s : State) (k : Nat) : (noteSusp s k).undef = s.undef := by unfold noteSusp; split <;> rfl
@[simp] theorem noteSusp_bmk (s : State) (k : Nat) : (noteSusp s k).bmk = s.bmk := by unfold noteSusp; split <;> rfl
@[simp] theorem noteSusp_ports (s : State) (k : Nat) : (noteSusp s k).ports = s.ports := by unfold noteSusp; split <;> rfl
@[simp] theorem noteSusp_plats (s : State) (k : Nat) : (noteSusp s k).plats = s.plats := by unfold noteSusp; split <;> rfl
@[simp] theorem noteSusp_fab (s : State) (k : Nat) : (noteSusp s k).fab = s.fab := by unfold noteSusp; split <;> rfl
@[simp] theorem noteSusp_tstore (s : State) (k : Nat) : (noteSusp s k).tstore = s.tstore := by unfold noteSusp; split <;> rfl
@[simp] theorem noteSusp_rings (s : State) (k : Nat) : (noteSusp s k).rings = s.rings := by unfold noteSusp; split <;> rfl
@[simp] theorem noteSusp_srm (s : State) (k : Nat) : (noteSusp s k).srm = s.srm := by unfold noteSusp; split <;> rfl
@[simp] theorem noteSusp_hbm (s : State) (k : Nat) : (noteSusp s k).hbm = s.hbm := by unfold noteSusp; split <;> rfl
@[simp] theorem noteSusp_cdc (s : State) (k : Nat) : (noteSusp s k).cdc = s.cdc := by unfold noteSusp; split <;> rfl
@[simp] theorem noteSusp_dma (s : State) (k : Nat) : (noteSusp s k).dma = s.dma := by unfold noteSusp; split <;> rfl
@[simp] theorem noteSusp_devCtl (s : State) (k : Nat) : (noteSusp s k).devCtl = s.devCtl := by unfold noteSusp; split <;> rfl
@[simp] theorem noteSusp_fns (s : State) (k : Nat) : (noteSusp s k).fns = s.fns := by unfold noteSusp; split <;> rfl
@[simp] theorem noteSusp_twn (s : State) (k : Nat) : (noteSusp s k).twn = s.twn := by unfold noteSusp; split <;> rfl
@[simp] theorem noteSusp_pwr (s : State) (k : Nat) : (noteSusp s k).pwr = s.pwr := by unfold noteSusp; split <;> rfl
@[simp] theorem noteSusp_sec (s : State) (k : Nat) : (noteSusp s k).sec = s.sec := by unfold noteSusp; split <;> rfl
@[simp] theorem noteSusp_logSeq (s : State) (k : Nat) : (noteSusp s k).logSeq = s.logSeq := by unfold noteSusp; split <;> rfl
@[simp] theorem noteSusp_logOff (s : State) (k : Nat) : (noteSusp s k).logOff = s.logOff := by unfold noteSusp; split <;> rfl
@[simp] theorem noteSusp_logCyc (s : State) (k : Nat) : (noteSusp s k).logCyc = s.logCyc := by unfold noteSusp; split <;> rfl
@[simp] theorem noteSusp_logNow (s : State) (k : Nat) : (noteSusp s k).logNow = s.logNow := by unfold noteSusp; split <;> rfl
@[simp] theorem noteSusp_out (s : State) (k : Nat) : (noteSusp s k).out = s.out := by unfold noteSusp; split <;> rfl
@[simp] theorem noteSusp_pending (s : State) (k : Nat) : (noteSusp s k).pending = s.pending := by unfold noteSusp; split <;> rfl

end Sys2Proof.Machine
end

