-- ==== Sys2Proof/Laws/Keep.lean ====
section
/-! SUPPORT. What every operation of the machine keeps (`Keeps`): the canonical form of its tables, the queue, the part, the
free values already drawn, and what the package has already sent. This file has the operations of Machine/Ops.lean that write
registers and memories; Laws/KeepOps.lean and its followers have the rest, one lemma per operation. -/

namespace Sys2Proof.Machine

/-- What an operation that takes `s` to `t`, and changes the areas of which `P` holds at most, keeps. -/
structure Keeps (P : Area → Prop) (s t : State) : Prop where
  wf : s.wf = true → t.wf = true
  pending : t.pending = s.pending
  part : t.part = s.part
  nonce : s.nonce ≤ t.nonce
  out : s.out <+: t.out
  same : ∀ a, ¬ P a → a.same s t

theorem Area.same_refl (a : Area) (s : State) : a.same s s := by
  cases a <;> first | rfl | exact fun _ => rfl | exact ⟨rfl, rfl, rfl, rfl⟩

theorem Area.same_trans {a : Area} {s t u : State} (h : a.same s t) (k : a.same t u) : a.same s u := by
  cases a <;> first | exact Eq.trans k h | exact fun x => (k x).trans (h x) | exact ⟨k.1.trans h.1, k.2.1.trans h.2.1, k.2.2.1.trans h.2.2.1, k.2.2.2.trans h.2.2.2⟩

theorem memArea_of {P : Area → Prop} {m : Nat} (h0 : P .tiles) (h1 : P .sram) (h2 : P .hbm) : P (memArea m) := by
  unfold memArea; split <;> assumption

theorem Keeps.refl (P : Area → Prop) (s : State) : Keeps P s s := ⟨id, rfl, rfl, Nat.le_refl _, List.prefix_refl _, fun a _ => a.same_refl s⟩

theorem Keeps.trans {P : Area → Prop} {s t u : State} (h : Keeps P s t) (k : Keeps P t u) : Keeps P s u :=
  ⟨fun w => k.wf (h.wf w), k.pending.trans h.pending, k.part.trans h.part, Nat.le_trans h.nonce k.nonce, h.out.trans k.out,
    fun a ha => Area.same_trans (h.same a ha) (k.same a ha)⟩

/-- A change that leaves the tables of `State.wf`, the queue, the part, the free values and the output as they are. -/
theorem Keeps.change {P : Area → Prop} {z s t : State} (h : Keeps P z s) (h1 : t.regs = s.regs) (h2 : t.tstore = s.tstore)
    (h3 : t.srm.mem = s.srm.mem) (h4 : t.hbm.mem = s.hbm.mem) (h5 : t.undef = s.undef) (h6 : t.pending = s.pending)
    (h7 : t.part = s.part) (h8 : t.nonce = s.nonce) (h9 : t.out = s.out)
    (h10 : ∀ a, ¬ P a → a.same s t) : Keeps P z t := by
  refine ⟨fun w => ?_, h6.trans h.pending, h7.trans h.part, h8 ▸ h.nonce, h9 ▸ h.out,
    fun a ha => Area.same_trans (h.same a ha) (h10 a ha)⟩
  have := h.wf w
  unfold State.wf at *
  rw [h1, h2, h3, h4, h5]; exact this

theorem keep_ite {P : Area → Prop} {z a b : State} {c : Prop} [Decidable c] (ha : Keeps P z a) (hb : Keeps P z b) : Keeps P z (if c then a else b) := by
  split <;> assumption

theorem keep_foldl {α : Type} {P : Area → Prop} {z : State} {f : State → α → State} (l : List α) {s : State} (h : Keeps P z s)
    (hf : ∀ s x, Keeps P z s → Keeps P z (f s x)) : Keeps P z (l.foldl f s) := by
  induction l generalizing s with
  | nil => exact h
  | cons x t ih => exact ih (hf s x h)

theorem keep_foldl1 {α β : Type} {P : Area → Prop} {z : State} {f : State × β → α → State × β} (l : List α) {a : State × β} (h : Keeps P z a.1)
    (hf : ∀ a x, Keeps P z a.1 → Keeps P z (f a x).1) : Keeps P z (l.foldl f a).1 := by
  induction l generalizing a with
  | nil => exact h
  | cons x t ih => exact ih (hf a x h)

/-! ### A step of a proof: an intermediate state, or a pair that holds one -/

theorem keep_cut {P : Area → Prop} {z y t : State} (h : Keeps P z y) (k : Keeps P z y → Keeps P z t) : Keeps P z t := k h

theorem keep_cut1 {α : Type} {P : Area → Prop} {z t : State} {y : State × α} (h : Keeps P z y.1) (k : Keeps P z y.1 → Keeps P z t) : Keeps P z t := k h

theorem keep_cut2 {α : Type} {P : Area → Prop} {z t : State} {y : α × State} (h : Keeps P z y.2) (k : Keeps P z y.2 → Keeps P z t) : Keeps P z t := k h

/-! ### Sparse tables -/

theorem Tbl.sorted_iff {α : Type} (t : Tbl α) : Tbl.sorted t = true ↔ t.Pairwise (fun a b => a.1 < b.1) := by
  induction t with
  | nil => simp [Tbl.sorted]
  | cons a t ih =>
    cases t with
    | nil => simp [Tbl.sorted]
    | cons b u =>
      obtain ⟨a1, a2⟩ := a; obtain ⟨b1, b2⟩ := b
      simp only [Tbl.sorted, Bool.and_eq_true, decide_eq_true_eq, ih]
      constructor
      · rintro ⟨h, k⟩
        refine List.pairwise_cons.2 ⟨?_, k⟩
        intro x hx
        rcases List.mem_cons.1 hx with rfl | hx
        · exact h
        · exact Nat.lt_trans h ((List.pairwise_cons.1 k).1 x hx)
      · intro k
        exact ⟨(List.pairwise_cons.1 k).1 (b1, b2) (by simp), (List.pairwise_cons.1 k).2⟩

theorem Tbl.mem_put {α : Type} (k : Nat) (v : α) (t : Tbl α) (e : Nat × α) (h : e ∈ Tbl.put k v t) : e = (k, v) ∨ e ∈ t := by
  induction t with
  | nil => simp [Tbl.put] at h; exact .inl h
  | cons a t ih =>
    obtain ⟨j, w⟩ := a
    simp only [Tbl.put] at h
    split at h
    · rcases List.mem_cons.1 h with h | h
      · exact .inl h
      · exact .inr (by simp [h])
    · split at h
      · rcases List.mem_cons.1 h with h | h
        · exact .inl h
        · exact .inr h
      · rcases List.mem_cons.1 h with h | h
        · exact .inr (by simp [h])
        · rcases ih h with h | h
          · exact .inl h
          · exact .inr (by simp [h])

theorem Tbl.put_sorted {α : Type} (k : Nat) (v : α) (t : Tbl α) (h : Tbl.sorted t = true) : Tbl.sorted (Tbl.put k v t) = true := by
  rw [Tbl.sorted_iff] at *
  induction t with
  | nil => simp [Tbl.put]
  | cons a t ih =>
    obtain ⟨j, w⟩ := a
    obtain ⟨h1, h2⟩ := List.pairwise_cons.1 h
    simp only [Tbl.put]
    split
    · rename_i e; subst e; exact List.pairwise_cons.2 ⟨h1, h2⟩
    · split
      · rename_i hk
        refine List.pairwise_cons.2 ⟨?_, h⟩
        intro x hx
        rcases List.mem_cons.1 hx with rfl | hx
        · exact hk
        · exact Nat.lt_trans hk (h1 x hx)
      · rename_i ne hk
        refine List.pairwise_cons.2 ⟨?_, ih h2⟩
        intro x hx
        rcases Tbl.mem_put k v t x hx with rfl | hx
        · exact Nat.lt_of_le_of_ne (Nat.le_of_not_lt hk) ne
        · exact h1 x hx

theorem Tbl.filter_sorted {α : Type} (p : Nat × α → Bool) (t : Tbl α) (h : Tbl.sorted t = true) :
    Tbl.sorted (t.filter p) = true := by
  rw [Tbl.sorted_iff] at *
  exact h.sublist List.filter_sublist

theorem Tbl.del_sorted {α : Type} (k : Nat) (t : Tbl α) (h : Tbl.sorted t = true) : Tbl.sorted (Tbl.del k t) = true :=
  Tbl.filter_sorted _ _ h

/-! ### Memories -/

theorem Memory.wf_iff (u : List Undef) (m : Nat) (cs : List Host.Cell) :
    Memory.wf u m cs = true ↔ Tbl.sorted cs = true ∧ ∀ c ∈ cs, c.2 ≠ unlisted u m c.1 := by
  unfold Memory.wf; simp [bne_iff_ne]

theorem Memory.wf_filter (u : List Undef) (m : Nat) (cs : List Host.Cell) (p : Host.Cell → Bool) (h : Memory.wf u m cs = true) :
    Memory.wf u m (cs.filter p) = true := by
  rw [Memory.wf_iff] at *
  exact ⟨Tbl.filter_sorted _ _ h.1, fun c hc => h.2 c (List.mem_filter.1 hc).1⟩

theorem Memory.wf_put (u : List Undef) (m : Nat) (cs : List Host.Cell) (a : Nat) (b : Byte) (hb : b ≠ unlisted u m a)
    (h : Memory.wf u m cs = true) : Memory.wf u m (Tbl.put a b cs) = true := by
  rw [Memory.wf_iff] at *
  refine ⟨Tbl.put_sorted _ _ _ h.1, fun c hc => ?_⟩
  rcases Tbl.mem_put a b cs c hc with rfl | hc
  · exact hb
  · exact h.2 c hc

/-- `State.wf` says that each of the three memories has its canonical form. -/
theorem State.wf_iff (s : State) : s.wf = true ↔ Tbl.sorted s.regs = true ∧ ∀ m, m < 3 → Memory.wf s.undef m (memCells s m) = true := by
  unfold State.wf
  simp only [Bool.and_eq_true]
  constructor
  · rintro ⟨⟨⟨h, h0⟩, h1⟩, h2⟩
    refine ⟨h, fun m hm => ?_⟩
    match m, hm with
    | 0, _ => exact h0
    | 1, _ => exact h1
    | 2, _ => exact h2
  · rintro ⟨h, k⟩
    exact ⟨⟨⟨h, k 0 (by decide)⟩, k 1 (by decide)⟩, k 2 (by decide)⟩


theorem memCells_setCells (s : State) (m n : Nat) (c : List Host.Cell) (hm : m < 3) (hn : n < 3) :
    memCells (setCells s m c) n = if n = m then c else memCells s n := by
  match m, hm, n, hn with
  | 0, _, 0, _ => rfl
  | 0, _, 1, _ => rfl
  | 0, _, 2, _ => rfl
  | 1, _, 0, _ => rfl
  | 1, _, 1, _ => rfl
  | 1, _, 2, _ => rfl
  | 2, _, 0, _ => rfl
  | 2, _, 1, _ => rfl
  | 2, _, 2, _ => rfl

theorem rdByte_setCells_other (s : State) (m n : Nat) (c : List Host.Cell) (a : Nat) (hm : m < 3) (hn : n < 3) (h : n ≠ m) :
    rdByte (setCells s m c) n a = rdByte s n a := by
  unfold rdByte
  rw [memCells_setCells s m n c hm hn, if_neg h, setCells_undef]

/-- New cells of a memory change no other area. -/
theorem same_setCells (s : State) (m : Nat) (c : List Host.Cell) (hm : m < 3) (a : Area) (h : a ≠ memArea m) :
    a.same s (setCells s m c) := by
  match m, hm with
  | 0, _ => cases a <;> first | exact absurd rfl h | rfl | exact fun _ => rfl | exact ⟨rfl, rfl, rfl, rfl⟩
  | 1, _ => cases a <;> first | exact absurd rfl h | rfl | exact fun _ => rfl | exact ⟨rfl, rfl, rfl, rfl⟩
  | 2, _ => cases a <;> first | exact absurd rfl h | rfl | exact fun _ => rfl | exact ⟨rfl, rfl, rfl, rfl⟩

/-- Cells in the canonical form replace those of a memory. -/
theorem keep_setCells {P : Area → Prop} {z s : State} {m : Nat} {c : List Host.Cell} (hm : m < 3) (h : Keeps P z s)
    (hk : P (memArea m))
    (hc : z.wf = true → Memory.wf s.undef m c = true) : Keeps P z (setCells s m c) := by
  refine ⟨fun w => ?_, by simpa using h.pending, by simpa using h.part, by simpa using h.nonce, by simpa using h.out,
    fun a ha => Area.same_trans (h.same a ha) (same_setCells s m c hm a (fun e => ha (e ▸ hk)))⟩
  have k := (State.wf_iff s).1 (h.wf w)
  refine (State.wf_iff _).2 ⟨by simpa using k.1, fun n hn => ?_⟩
  rw [memCells_setCells s m n c hm hn, setCells_undef]
  split
  · rename_i e; subst e; exact hc w
  · exact k.2 n hn

theorem keep_wrByte {P : Area → Prop} {z s : State} {m a : Nat} {b : Byte} (hm : m < 3) (hk : P (memArea m)) (h : Keeps P z s) : Keeps P z (wrByte s m a b) := by
  unfold wrByte
  split
  · exact keep_setCells hm h hk (fun w => Memory.wf_filter _ _ _ _ (((State.wf_iff s).1 (h.wf w)).2 m hm))
  · rename_i hb
    exact keep_setCells hm h hk (fun w => Memory.wf_put _ _ _ _ _ hb (((State.wf_iff s).1 (h.wf w)).2 m hm))

theorem keep_wrMem {P : Area → Prop} {z : State} {m : Nat} (hm : m < 3) (hk : P (memArea m)) (bs : Bytes) : ∀ {s : State} {a : Nat}, Keeps P z s → Keeps P z (wrMem s m a bs) := by
  induction bs with
  | nil => intro s a h; exact h
  | cons b t ih => intro s a h; exact ih (keep_wrByte hm hk h)

theorem keep_wrWord {P : Area → Prop} {z s : State} {m a : Nat} {w : W64} (hm : m < 3) (hk : P (memArea m)) (h : Keeps P z s) : Keeps P z (wrWord s m a w) :=
  keep_wrMem hm hk _ h

/-- A memory keeps its form when an event's bytes leave its list. -/
theorem Memory.wf_event (u : List Undef) (x : Undef) (m : Nat) (cs : List Host.Cell) (h : Memory.wf u m cs = true) :
    Memory.wf (x :: u) m (cs.filter (fun c => !x.hits m c.1)) = true := by
  rw [Memory.wf_iff] at *
  refine ⟨Tbl.filter_sorted _ _ h.1, fun c hc => ?_⟩
  obtain ⟨h1, h2⟩ := List.mem_filter.1 hc
  have : x.hits m c.1 = false := by simpa using h2
  simp only [unlisted, this]
  exact h.2 c h1

theorem Undef.hits_other (x : Undef) (m a : Nat) (h : x.mem ≠ m) : x.hits m a = false := by
  unfold Undef.hits
  have : (x.mem == m) = false := by simpa using h
  simp [this]

theorem Memory.wf_event_other (u : List Undef) (x : Undef) (m : Nat) (cs : List Host.Cell) (hx : x.mem ≠ m)
    (h : Memory.wf u m cs = true) : Memory.wf (x :: u) m cs = true := by
  have := Memory.wf_event u x m cs h
  have e : cs.filter (fun c => !x.hits m c.1) = cs := by
    apply List.filter_eq_self.2
    intro c _; simp [Undef.hits_other x m c.1 hx]
  rwa [e] at this

theorem same_undefine (s : State) (x : Undef) (hx : x.mem < 3) (a : Area) (h : a ≠ memArea x.mem) : a.same s (undefine s x) := by
  have key : ∀ n y, n < 3 → n ≠ x.mem → rdByte (undefine s x) n y = rdByte s n y := by
    intro n y hn hne
    have e : rdByte (undefine s x) n y =
        (Tbl.get? y (memCells (setCells s x.mem ((memCells s x.mem).filter (fun c => !x.hits x.mem c.1))) n)).getD
          (unlisted (x :: (setCells s x.mem ((memCells s x.mem).filter (fun c => !x.hits x.mem c.1))).undef) n y) := by
      match n, hn with
      | 0, _ => rfl
      | 1, _ => rfl
      | 2, _ => rfl
    rw [e, memCells_setCells s x.mem n _ hx hn, if_neg hne, setCells_undef]
    simp only [unlisted, Undef.hits_other x n y (fun q => hne q.symm)]
    rfl
  have other : a ≠ .tiles → a ≠ .sram → a ≠ .hbm → a.same s (undefine s x) := by
    intro h0 h1 h2
    have := same_setCells s x.mem ((memCells s x.mem).filter (fun c => !x.hits x.mem c.1)) hx a h
    cases a <;> first | exact absurd rfl h0 | exact absurd rfl h1 | exact absurd rfl h2 | exact this
  cases a
  case tiles => exact fun y => key 0 y (by decide) (fun e => h (by rw [← e]; rfl))
  case sram => exact fun y => key 1 y (by decide) (fun e => h (by rw [← e]; rfl))
  case hbm => exact fun y => key 2 y (by decide) (fun e => h (by rw [← e]; rfl))
  all_goals exact other (by decide) (by decide) (by decide)

theorem keep_undefine {P : Area → Prop} {z s : State} {x : Undef} (hx : x.mem < 3) (hk : P (memArea x.mem)) (h : Keeps P z s) : Keeps P z (undefine s x) := by
  have hs : ∀ a, ¬ P a → a.same z (undefine s x) := fun a ha =>
    Area.same_trans (h.same a ha) (same_undefine s x hx a (fun e => ha (e ▸ hk)))
  unfold undefine at hs ⊢
  refine ⟨fun w => ?_, by simpa using h.pending, by simpa using h.part, by simpa using h.nonce, by simpa using h.out, hs⟩
  have k := (State.wf_iff s).1 (h.wf w)
  refine (State.wf_iff _).2 ⟨by simpa using k.1, fun n hn => ?_⟩
  have e : memCells { setCells s x.mem (memCells s x.mem |>.filter (fun c => !x.hits x.mem c.1)) with
      undef := x :: (setCells s x.mem (memCells s x.mem |>.filter (fun c => !x.hits x.mem c.1))).undef } n =
      memCells (setCells s x.mem (memCells s x.mem |>.filter (fun c => !x.hits x.mem c.1))) n := by
    match n, hn with
    | 0, _ => rfl
    | 1, _ => rfl
    | 2, _ => rfl
  rw [e, memCells_setCells s x.mem n _ hx hn]
  simp only [setCells_undef]
  split
  · rename_i e; subst e; exact Memory.wf_event _ _ _ _ (k.2 _ hn)
  · rename_i ne; exact Memory.wf_event_other _ _ _ _ (fun e => ne e.symm) (k.2 n hn)

theorem keep_mkUndef {P : Area → Prop} {z s : State} {m lo hi : Nat} (hm : m < 3) (hk : P (memArea m)) (h : Keeps P z s) : Keeps P z (mkUndef s m lo hi) :=
  keep_undefine hm hk h

theorem keep_zeroMem {P : Area → Prop} {z s : State} {m a n : Nat} (hm : m < 3) (hk : P (memArea m)) (h : Keeps P z s) : Keeps P z (zeroMem s m a n) := by
  unfold zeroMem
  split
  · exact h
  · rename_i hn
    dsimp only
    split
    · exact keep_setCells hm h hk (fun w => Memory.wf_filter _ _ _ _ (((State.wf_iff s).1 (h.wf w)).2 m hm))
    · have hf : (fun c : Host.Cell => decide (c.1 < a) || decide (a + n ≤ c.1)) =
          (fun c : Host.Cell => !(⟨m, a, a + n - 1, 0, 0, .zero⟩ : Undef).hits m c.1) := by
        funext c
        simp only [Undef.hits, beq_self_eq_true, Bool.true_and, Bool.true_or, Bool.and_true]
        by_cases h1 : c.1 < a <;> by_cases h2 : a + n ≤ c.1 <;> simp [h1, h2] <;> omega
      have := keep_undefine (x := ⟨m, a, a + n - 1, 0, 0, .zero⟩) hm hk h
      unfold undefine at this
      simp only [hf]
      exact this

theorem keep_copyMem {P : Area → Prop} {z s : State} {m src dst n : Nat} (hm : m < 3) (hk : P (memArea m)) (h : Keeps P z s) : Keeps P z (copyMem s m src dst n) := by
  unfold copyMem
  split
  · exact h
  · rename_i hn
    have hu := keep_undefine (x := ⟨m, dst, dst + n - 1, 0, 0, .copy src⟩) hm hk h
    refine keep_setCells hm hu hk (fun w => ?_)
    have k0 := ((State.wf_iff s).1 (h.wf w)).2 m hm
    have k1 := ((State.wf_iff _).1 (hu.wf w)).2 m hm
    have e : (undefine s ⟨m, dst, dst + n - 1, 0, 0, .copy src⟩).undef = ⟨m, dst, dst + n - 1, 0, 0, .copy src⟩ :: s.undef := by
      unfold undefine; simp
    rw [e] at k1 ⊢
    generalize memCells (undefine s ⟨m, dst, dst + n - 1, 0, 0, .copy src⟩) m = t at k1
    have key : ∀ (l : List Host.Cell) (t : List Host.Cell), (∀ c ∈ l, src ≤ c.1 ∧ c.1 < src + n ∧ c.2 ≠ unlisted s.undef m c.1) →
        Memory.wf (⟨m, dst, dst + n - 1, 0, 0, .copy src⟩ :: s.undef) m t = true →
        Memory.wf (⟨m, dst, dst + n - 1, 0, 0, .copy src⟩ :: s.undef) m
          (l.foldl (fun t c => Tbl.put (dst + (c.1 - src)) c.2 t) t) = true := by
      intro l
      induction l with
      | nil => intro t _ ht; exact ht
      | cons c l ih =>
        intro t hl ht
        refine ih _ (fun x hx => hl x (by simp [hx])) (Memory.wf_put _ _ _ _ _ ?_ ht)
        obtain ⟨h1, h2, h3⟩ := hl c (by simp)
        have hit : (⟨m, dst, dst + n - 1, 0, 0, .copy src⟩ : Undef).hits m (dst + (c.1 - src)) = true := by
          simp [Undef.hits]; omega
        simp only [unlisted, hit, if_true]
        have : src + (dst + (c.1 - src) - dst) = c.1 := by omega
        rw [this]; exact h3
    refine key _ _ (fun c hc => ?_) k1
    obtain ⟨hc1, hc2⟩ := List.mem_filter.1 hc
    have hc2 : src ≤ c.1 ∧ c.1 < src + n := by simpa using hc2
    exact ⟨hc2.1, hc2.2, ((Memory.wf_iff _ _ _).1 k0).2 c hc1⟩

/-! ### Registers -/

theorem Keeps.regs {P : Area → Prop} {z s : State} {t : Tbl Nat} (h : Keeps P z s) (ht : Tbl.sorted s.regs = true → Tbl.sorted t = true) :
    Keeps P z { s with regs := t } := by
  refine ⟨fun w => ?_, h.pending, h.part, h.nonce, h.out, fun a ha => Area.same_trans (h.same a ha) ?_⟩
  · have k := (State.wf_iff s).1 (h.wf w)
    exact (State.wf_iff _).2 ⟨ht k.1, k.2⟩
  · cases a <;> first | rfl | exact fun _ => rfl | exact ⟨rfl, rfl, rfl, rfl⟩

theorem keep_setF {P : Area → Prop} {z s : State} {f : Fld} {o v : Nat} (h : Keeps P z s) : Keeps P z (setF s f o v) := by
  unfold setF
  exact keep_ite (h.regs (Tbl.del_sorted _ _)) (h.regs (Tbl.put_sorted _ _ _))

theorem keep_resetRange {P : Area → Prop} {z s : State} {lo hi : Nat} (hk : P .shadow) (h : Keeps P z s) :
    Keeps P z (resetRange s lo hi) := by
  have := h.regs (Tbl.filter_sorted (fun e => e.1 < lo * 64 || hi * 64 ≤ e.1) s.regs)
  exact this.change rfl rfl rfl rfl rfl rfl rfl rfl rfl
    (fun a ha => by cases a <;> first | exact absurd hk ha | rfl | exact fun _ => rfl | exact ⟨rfl, rfl, rfl, rfl⟩)

theorem keep_fresh {P : Area → Prop} {z s : State} {w : Nat} (h : Keeps P z s) : Keeps P z (fresh s w).2 :=
  ⟨h.wf, h.pending, h.part, Nat.le_succ_of_le h.nonce, h.out, fun a ha => Area.same_trans (h.same a ha)
    (by cases a <;> first | rfl | exact fun _ => rfl | exact ⟨rfl, rfl, rfl, rfl⟩)⟩

theorem keep_emitOut {P : Area → Prop} {z s : State} {o : Out} (h : Keeps P z s) : Keeps P z (emitOut s o) :=
  ⟨h.wf, h.pending, h.part, h.nonce, h.out.trans (List.prefix_append _ _), fun a ha => Area.same_trans (h.same a ha)
    (by cases a <;> first | rfl | exact fun _ => rfl | exact ⟨rfl, rfl, rfl, rfl⟩)⟩

/-- `Keeps.same` for a state written out field by field. -/
theorem keep_mk {P : Area → Prop} {z s : State}
    {part : Part} {now : Nat} {nonce : Nat} {regs : Tbl Nat} {shadow : Tbl Nat} {undef : List Undef} {bmk : Bmk}
    {ports : Tbl Port} {plats : Plats} {fab : Fab} {tstore : List Host.Cell} {dst : Dst} {rings : Rings} {srm : Srm}
    {hbm : Hbm} {cdc : Cdc} {dma : Dma} {devCtl : Tbl Nat} {fns : Fns} {twn : Twn} {pwr : Pwr} {sec : Sec} {logSeq : Nat}
    {logOff : Bool} {logCyc : Nat} {logNow : List Nat} {out : List Out} {pending : List Instr}
    (h : Keeps P z s) (h1 : regs = s.regs) (h2 : tstore = s.tstore) (h3 : srm.mem = s.srm.mem) (h4 : hbm.mem = s.hbm.mem)
    (h5 : undef = s.undef) (h6 : pending = s.pending) (h7 : part = s.part) (h8 : nonce = s.nonce) (h9 : out = s.out)
    (h10 : P .bmk ∨ bmk = s.bmk) (h11 : P .ports ∨ ports = s.ports) (h12 : P .plats ∨ plats = s.plats)
    (h13 : P .fabric ∨ fab = s.fab) (h14 : P .dests ∨ dst = s.dst) (h15 : P .rings ∨ rings = s.rings)
    (h16 : P .sramUnits ∨ { srm with mem := [] } = { s.srm with mem := [] })
    (h17 : P .hbmUnits ∨ { hbm with mem := [] } = { s.hbm with mem := [] }) (h18 : P .codec ∨ cdc = s.cdc)
    (h19 : P .dma ∨ dma = s.dma) (h20 : P .functions ∨ fns = s.fns) (h21 : P .twins ∨ twn = s.twn)
    (h22 : P .power ∨ pwr = s.pwr) (h23 : P .security ∨ sec = s.sec) (h24 : P .devCtl ∨ devCtl = s.devCtl)
    (h25 : P .shadow ∨ shadow = s.shadow) (h26 : P .time ∨ now = s.now)
    (h27 : P .log ∨ (logSeq = s.logSeq ∧ logOff = s.logOff ∧ logCyc = s.logCyc ∧ logNow = s.logNow)) :
    Keeps P z (State.mk
      part now nonce regs shadow undef bmk ports plats fab tstore dst rings srm hbm cdc dma devCtl fns twn pwr sec logSeq
      logOff logCyc logNow out pending) :=
  h.change h1 h2 h3 h4 h5 h6 h7 h8 h9 (fun a ha => by
    subst h5
    cases a
    case tiles => exact fun x => by subst h2; rfl
    case sram => exact fun x => by show (Tbl.get? x srm.mem).getD _ = _; rw [h3]; rfl
    case hbm => exact fun x => by show (Tbl.get? x hbm.mem).getD _ = _; rw [h4]; rfl
    case bmk => exact h10.resolve_left ha
    case ports => exact h11.resolve_left ha
    case plats => exact h12.resolve_left ha
    case fabric => exact h13.resolve_left ha
    case dests => exact h14.resolve_left ha
    case rings => exact h15.resolve_left ha
    case sramUnits => exact h16.resolve_left ha
    case hbmUnits => exact h17.resolve_left ha
    case codec => exact h18.resolve_left ha
    case dma => exact h19.resolve_left ha
    case functions => exact h20.resolve_left ha
    case twins => exact h21.resolve_left ha
    case power => exact h22.resolve_left ha
    case security => exact h23.resolve_left ha
    case devCtl => exact h24.resolve_left ha
    case shadow => exact h25.resolve_left ha
    case time => exact h26.resolve_left ha
    case log => exact h27.resolve_left ha)

end Sys2Proof.Machine
end

