-- ==== Sys2Proof/Laws/Regs.lean ====
section
/-! SUPPORT. What a register field reads as after a write, an event and a log entry. -/

namespace Sys2Proof.Machine

/-! ### Sparse tables -/

theorem Tbl.get?_put {α : Type} (k j : Nat) (v : α) (t : Tbl α) :
    Tbl.get? j (Tbl.put k v t) = if j = k then some v else Tbl.get? j t := by
  induction t with
  | nil => by_cases h : j = k <;> simp [Tbl.put, Tbl.get?, h]; exact fun e => absurd e.symm h
  | cons a t ih =>
    obtain ⟨i, w⟩ := a
    simp only [Tbl.put]
    by_cases h : j = k
    · subst h
      split
      · simp [Tbl.get?]
      · split
        · simp [Tbl.get?]
        · rename_i hi _; simp [Tbl.get?, hi, ih]
    · split
      · rename_i hi; subst hi
        have : ¬ i = j := fun e => h e.symm
        simp [Tbl.get?, this]
      · split
        · have : ¬ k = j := fun e => h e.symm
          simp [Tbl.get?, this]
        · simp [Tbl.get?, ih, h]

theorem Tbl.get?_del {α : Type} (k j : Nat) (t : Tbl α) :
    Tbl.get? j (Tbl.del k t) = if j = k then none else Tbl.get? j t := by
  induction t with
  | nil => simp [Tbl.del, Tbl.get?]
  | cons a t ih =>
    obtain ⟨i, w⟩ := a
    unfold Tbl.del at ih ⊢
    by_cases hi : i = k
    · subst hi
      simp only [List.filter, ne_eq, not_true_eq_false, decide_false, ih, Tbl.get?]
      by_cases h : j = i
      · simp [h]
      · have : ¬ i = j := fun e => h e.symm
        simp [h, this]
    · simp only [List.filter, ne_eq, hi, not_false_eq_true, decide_true, Tbl.get?]
      by_cases h : i = j
      · subst h; simp [hi]
      · simp only [if_neg h]; simpa using ih

theorem Tbl.getD_put_same {α : Type} (k : Nat) (v d : α) (t : Tbl α) : Tbl.getD (Tbl.put k v t) k d = v := by
  simp [Tbl.getD, Tbl.get?_put]

theorem Tbl.getD_put_ne {α : Type} (k j : Nat) (v d : α) (t : Tbl α) (h : j ≠ k) :
    Tbl.getD (Tbl.put k v t) j d = Tbl.getD t j d := by
  simp [Tbl.getD, Tbl.get?_put, h]

@[simp] theorem Tbl.getD_upd_same {α : Type} (t : Tbl α) (k : Nat) (d : α) (f : α → α) :
    Tbl.getD (Tbl.upd t k d f) k d = f (Tbl.getD t k d) := Tbl.getD_put_same _ _ _ _

theorem Tbl.getD_upd_ne {α : Type} (t : Tbl α) (k j : Nat) (d : α) (f : α → α) (h : j ≠ k) :
    Tbl.getD (Tbl.upd t k d f) j d = Tbl.getD t j d := Tbl.getD_put_ne _ _ _ _ _ h

/-! ### A field after a write -/

/-- The register table after a write differs at the field's key only. -/
theorem get?_setF (s : State) (f : Fld) (o v k : Nat) :
    Tbl.get? k (setF s f o v).regs =
      if k = fkey f o then
        (if v % 2 ^ f.width = rstVal s.part f.rst o % 2 ^ f.width then none else some (v % 2 ^ f.width))
      else Tbl.get? k s.regs := by
  unfold setF
  by_cases h : v % 2 ^ f.width = rstVal s.part f.rst o % 2 ^ f.width
  · simp [h, Tbl.get?_del]
  · simp [h, Tbl.get?_put]

/-- A field reads as the value last written to it, cut to its width. -/
@[simp] theorem getF_setF_same (s : State) (f : Fld) (o v : Nat) : getF (setF s f o v) f o = v % 2 ^ f.width := by
  unfold getF Tbl.getD
  rw [get?_setF, setF_part]
  by_cases h : v % 2 ^ f.width = rstVal s.part f.rst o % 2 ^ f.width <;> simp [h]

/-- Two states whose register tables agree at a field's key give the field one value. -/
theorem getF_congr {s t : State} (f : Fld) (o : Nat) (hp : t.part = s.part)
    (h : Tbl.get? (fkey f o) t.regs = Tbl.get? (fkey f o) s.regs) : getF t f o = getF s f o := by
  unfold getF Tbl.getD; rw [hp, h]

/-- A write changes no other field. -/
theorem getF_setF_ne (s : State) (f g : Fld) (o p v : Nat) (h : fkey g p ≠ fkey f o) :
    getF (setF s f o v) g p = getF s g p :=
  getF_congr _ _ (by simp) (by rw [get?_setF, if_neg h])

theorem get?_setF_ne (s : State) (f : Fld) (o v k : Nat) (h : k ≠ fkey f o) :
    Tbl.get? k (setF s f o v).regs = Tbl.get? k s.regs := by rw [get?_setF, if_neg h]

/-- A field's value depends on the part and the register table alone. -/
theorem getF_of_regs {s t : State} (hp : t.part = s.part) (h : t.regs = s.regs) (f : Fld) (o : Nat) : getF t f o = getF s f o :=
  getF_congr _ _ hp (by rw [h])

theorem isSet_of_regs {s t : State} (hp : t.part = s.part) (h : t.regs = s.regs) (f : Fld) (o : Nat) : isSet t f o = isSet s f o := by
  unfold isSet; rw [getF_of_regs hp h]

theorem isSet_setF_ne (s : State) (f g : Fld) (o p v : Nat) (h : fkey g p ≠ fkey f o) :
    isSet (setF s f o v) g p = isSet s g p := by unfold isSet; rw [getF_setF_ne _ _ _ _ _ _ h]

theorem isSet_iff (s : State) (f : Fld) (o : Nat) : isSet s f o = true ↔ getF s f o ≠ 0 := by simp [isSet]

/-! ### Events and messages -/

theorem get?_raise_ne (s : State) (f : Fld) (o k : Nat) (h : k ≠ fkey f o) :
    Tbl.get? k (raise s f o).regs = Tbl.get? k s.regs := by
  unfold raise
  dsimp only
  split
  · rfl
  · simp [get?_setF_ne _ _ _ _ _ h]

theorem getF_raise_ne (s : State) (f g : Fld) (o p : Nat) (h : fkey g p ≠ fkey f o) :
    getF (raise s f o) g p = getF s g p := getF_congr _ _ (by simp) (get?_raise_ne _ _ _ _ h)

/-- A raised event bit is set. -/
theorem isSet_raise (s : State) (f : Fld) (o : Nat) (hw : f.width ≠ 0) : isSet (raise s f o) f o = true := by
  unfold raise
  dsimp only
  split
  · assumption
  · have : ∀ t u, t.part = u.part → t.regs = u.regs → getF u f o = 1 → isSet t f o = true := by
      intro t u h1 h2 h3
      rw [isSet_iff, getF_of_regs h1 h2, h3]; decide
    refine this _ (setF (noteRose s (fkey f o)) f o 1) (by simp) (by simp) ?_
    rw [getF_setF_same]
    exact Nat.mod_eq_of_lt (Nat.one_lt_two_pow hw)

/-! ### Updates that write no register -/

@[simp] theorem getF_modFab (s : State) (f : Fab → Fab) (g : Fld) (o : Nat) : getF (modFab s f) g o = getF s g o := rfl
@[simp] theorem isSet_modFab (s : State) (f : Fab → Fab) (g : Fld) (o : Nat) : isSet (modFab s f) g o = isSet s g o := rfl
@[simp] theorem getF_modBmk (s : State) (f : Bmk → Bmk) (g : Fld) (o : Nat) : getF (modBmk s f) g o = getF s g o := rfl
@[simp] theorem isSet_modBmk (s : State) (f : Bmk → Bmk) (g : Fld) (o : Nat) : isSet (modBmk s f) g o = isSet s g o := rfl
@[simp] theorem getF_modCdc (s : State) (f : Cdc → Cdc) (g : Fld) (o : Nat) : getF (modCdc s f) g o = getF s g o := rfl
@[simp] theorem isSet_modCdc (s : State) (f : Cdc → Cdc) (g : Fld) (o : Nat) : isSet (modCdc s f) g o = isSet s g o := rfl
@[simp] theorem getF_modPwr (s : State) (f : Pwr → Pwr) (g : Fld) (o : Nat) : getF (modPwr s f) g o = getF s g o := rfl
@[simp] theorem isSet_modPwr (s : State) (f : Pwr → Pwr) (g : Fld) (o : Nat) : isSet (modPwr s f) g o = isSet s g o := rfl
@[simp] theorem getF_modSec (s : State) (f : Sec → Sec) (g : Fld) (o : Nat) : getF (modSec s f) g o = getF s g o := rfl
@[simp] theorem isSet_modSec (s : State) (f : Sec → Sec) (g : Fld) (o : Nat) : isSet (modSec s f) g o = isSet s g o := rfl
@[simp] theorem getF_modPort (s : State) (p : Nat) (f : Port → Port) (g : Fld) (o : Nat) : getF (modPort s p f) g o = getF s g o := rfl
@[simp] theorem isSet_modPort (s : State) (p : Nat) (f : Port → Port) (g : Fld) (o : Nat) : isSet (modPort s p f) g o = isSet s g o := rfl
@[simp] theorem getF_modRing (s : State) (n : Nat) (f : Ring → Ring) (g : Fld) (o : Nat) : getF (modRing s n f) g o = getF s g o := rfl
@[simp] theorem isSet_modRing (s : State) (n : Nat) (f : Ring → Ring) (g : Fld) (o : Nat) : isSet (modRing s n f) g o = isSet s g o := rfl
@[simp] theorem getF_modPc (s : State) (d c : Nat) (f : HPc → HPc) (g : Fld) (o : Nat) : getF (modPc s d c f) g o = getF s g o := rfl
@[simp] theorem isSet_modPc (s : State) (d c : Nat) (f : HPc → HPc) (g : Fld) (o : Nat) : isSet (modPc s d c f) g o = isSet s g o := rfl
@[simp] theorem getF_modSpc (s : State) (d : Nat) (f : Spc → Spc) (g : Fld) (o : Nat) : getF (modSpc s d f) g o = getF s g o := rfl
@[simp] theorem isSet_modSpc (s : State) (d : Nat) (f : Spc → Spc) (g : Fld) (o : Nat) : isSet (modSpc s d f) g o = isSet s g o := rfl
@[simp] theorem getF_modCh (s : State) (k : Nat) (f : SrmCh → SrmCh) (g : Fld) (o : Nat) : getF (modCh s k f) g o = getF s g o := rfl
@[simp] theorem isSet_modCh (s : State) (k : Nat) (f : SrmCh → SrmCh) (g : Fld) (o : Nat) : isSet (modCh s k f) g o = isSet s g o := rfl
@[simp] theorem getF_emitOut (s : State) (x : Out) (g : Fld) (o : Nat) : getF (emitOut s x) g o = getF s g o := rfl
@[simp] theorem isSet_emitOut (s : State) (x : Out) (g : Fld) (o : Nat) : isSet (emitOut s x) g o = isSet s g o := rfl
@[simp] theorem getF_fresh (s : State) (w : Nat) (g : Fld) (o : Nat) : getF (fresh s w).2 g o = getF s g o := rfl
@[simp] theorem getF_msix (s : State) (fn v : Nat) (g : Fld) (o : Nat) : getF (msix s fn v) g o = getF s g o :=
  getF_of_regs (msix_part s fn v) (msix_regs s fn v) g o
@[simp] theorem isSet_msix (s : State) (fn v : Nat) (g : Fld) (o : Nat) : isSet (msix s fn v) g o = isSet s g o :=
  isSet_of_regs (msix_part s fn v) (msix_regs s fn v) g o

theorem isSet_raise_ne (s : State) (f g : Fld) (o p : Nat) (h : fkey g p ≠ fkey f o) : isSet (raise s f o) g p = isSet s g p := by
  unfold isSet; rw [getF_raise_ne _ _ _ _ _ h]

/-- A bit written with 1 is set, and with 0 is clear. -/
theorem isSet_setF_same (s : State) (f : Fld) (o v : Nat) : isSet (setF s f o v) f o = (v % 2 ^ f.width != 0) := by
  unfold isSet; rw [getF_setF_same]

/-- A saturating counter after a count. -/
theorem getF_satF_same (s : State) (f : Fld) (o n : Nat) :
    getF (satF s f o n) f o = min (getF s f o + n) (2 ^ f.width - 1) := by
  unfold satF
  rw [getF_setF_same]
  unfold satAdd
  have : 0 < 2 ^ f.width := Nat.two_pow_pos _
  exact Nat.mod_eq_of_lt (by omega)

theorem getF_satF_ne (s : State) (f g : Fld) (o p n : Nat) (h : fkey g p ≠ fkey f o) :
    getF (satF s f o n) g p = getF s g p := getF_setF_ne _ _ _ _ _ _ h

/-- A wrapping counter after a count. -/
theorem getF_addF_same (s : State) (f : Fld) (o n : Nat) : getF (addF s f o n) f o = (getF s f o + n) % 2 ^ f.width :=
  getF_setF_same _ _ _ _

theorem getF_addF_ne (s : State) (f g : Fld) (o p n : Nat) (h : fkey g p ≠ fkey f o) :
    getF (addF s f o n) g p = getF s g p := getF_setF_ne _ _ _ _ _ _ h

/-! ### Register frames -/

theorem RegsOnly.refl (K : Nat → Prop) (s : State) : RegsOnly K s s := fun _ _ => rfl

theorem RegsOnly.of_eq {K : Nat → Prop} {s t : State} (h : t.regs = s.regs) : RegsOnly K s t := fun _ _ => by rw [h]

theorem RegsOnly.trans {K : Nat → Prop} {s t u : State} (h : RegsOnly K s t) (k : RegsOnly K t u) : RegsOnly K s u :=
  fun j hj => (k j hj).trans (h j hj)

theorem RegsOnly.mono {K L : Nat → Prop} {s t : State} (h : RegsOnly K s t) (hl : ∀ k, K k → L k) : RegsOnly L s t :=
  fun j hj => h j (fun q => hj (hl j q))

/-- A field whose key the frame does not name reads as before. -/
theorem RegsOnly.getF {K : Nat → Prop} {s t : State} (h : RegsOnly K s t) (hp : t.part = s.part) (f : Fld) (o : Nat)
    (hk : ¬ K (fkey f o)) : Machine.getF t f o = Machine.getF s f o := getF_congr f o hp (h _ hk)

theorem regsOnly_setF {K : Nat → Prop} {z s : State} {f : Fld} {o v : Nat} (h : RegsOnly K z s) (hk : K (fkey f o)) :
    RegsOnly K z (setF s f o v) :=
  h.trans (fun k hn => get?_setF_ne s f o v k (fun e => hn (e ▸ hk)))

theorem regsOnly_satF {K : Nat → Prop} {z s : State} {f : Fld} {o v : Nat} (h : RegsOnly K z s) (hk : K (fkey f o)) :
    RegsOnly K z (satF s f o v) := regsOnly_setF h hk

theorem regsOnly_raise {K : Nat → Prop} {z s : State} {f : Fld} {o : Nat} (h : RegsOnly K z s) (hk : K (fkey f o)) :
    RegsOnly K z (raise s f o) :=
  h.trans (fun k hn => get?_raise_ne s f o k (fun e => hn (e ▸ hk)))

theorem regsOnly_eq {K : Nat → Prop} {z s t : State} (h : RegsOnly K z s) (e : t.regs = s.regs) : RegsOnly K z t :=
  h.trans (RegsOnly.of_eq e)

theorem regsOnly_ite {K : Nat → Prop} {z a b : State} {c : Prop} [Decidable c] (ha : RegsOnly K z a) (hb : RegsOnly K z b) :
    RegsOnly K z (if c then a else b) := by split <;> assumption

/-! ### What a log entry changes -/

theorem youngest_mem (s : State) (l : List Nat) (i : Nat) (h : youngest s l = some i) : i ∈ l := by
  induction l generalizing i with
  | nil => simp [youngest] at h
  | cons a t ih =>
    simp only [youngest] at h
    split at h
    · simp_all
    · rename_i j hj
      have := ih j hj
      injection h with h
      split at h <;> simp_all

theorem validSlots_lt (s : State) (i : Nat) (h : i ∈ validSlots s) : i < 64 := by
  simp [validSlots] at h; exact h.1

/-- Keys that a log entry writes beside ERR_COUNT. -/
def entKey (k : Nat) : Prop := logKey k ∧ k / 64 ≠ 0x50018

theorem regsOnly_vfSummary {z s : State} {e : LogEnt} (h : RegsOnly entKey z s) : RegsOnly entKey z (vfSummary s e) := by
  unfold vfSummary
  dsimp only
  have k : ∀ (f : Fld) (o : Nat), 0x100000000 ≤ f.base → entKey (fkey f o) := by
    intro f o hf; unfold entKey logKey fkey; omega
  split
  · refine regsOnly_ite ?_ ?_
    · refine regsOnly_eq ?_ (msix_regs _ _ _)
      exact regsOnly_setF (regsOnly_setF (regsOnly_setF (regsOnly_satF h (k _ _ (by decide))) (k _ _ (by decide))) (k _ _ (by decide)))
        (k _ _ (by decide))
    · exact regsOnly_setF (regsOnly_setF (regsOnly_setF (regsOnly_satF h (k _ _ (by decide))) (k _ _ (by decide))) (k _ _ (by decide)))
        (k _ _ (by decide))
  · exact h

/-- Keys of the fields of the error log block beside ERR_COUNT. -/
theorem entKey_of (f : Fld) (o : Nat) (h1 : 0x50000 ≤ f.base) (h2 : f.base + o < 0x60000) (h3 : f.lsb < 64)
    (h4 : f.base + o ≠ 0x50018) : entKey (fkey f o) := by
  unfold entKey logKey fkey; omega

theorem regsOnly_escalate {z s : State} (h : RegsOnly entKey z s) : RegsOnly entKey z (escalate s) := by
  have h1 : RegsOnly entKey z (raise s F.ERR_EVENT_ESCALATE 0) :=
    regsOnly_raise h (entKey_of _ _ (by decide) (by decide) (by decide) (by decide))
  exact regsOnly_eq (regsOnly_eq h1 (escMsg_regs _ _)) (escMsg_regs _ _)

theorem regsOnly_setSeqs {z s : State} {l : List (Nat × Nat)} (hl : ∀ x ∈ l, x.1 < 64) (h : RegsOnly entKey z s) :
    RegsOnly entKey z (setSeqs s l) := by
  unfold setSeqs
  induction l generalizing s with
  | nil => exact h
  | cons a t ih =>
    have ha : a.1 < 64 := hl a (by simp)
    exact ih (fun x hx => hl x (by simp [hx])) (regsOnly_setF h
      (entKey_of _ _ (by decide) (by unfold slotO; show 0x51018 + _ < _; omega) (by decide) (by unfold slotO; show 0x51018 + _ ≠ _; omega)))

theorem regsOnly_seqOrder {z s : State} {i : Nat} (hi : i < 64) (h : RegsOnly entKey z s) : RegsOnly entKey z (seqOrder s i) := by
  unfold seqOrder
  dsimp only
  refine regsOnly_eq (regsOnly_setSeqs ?_ h) rfl
  intro x hx
  obtain ⟨a, b⟩ := x
  have := (List.of_mem_zip hx).1
  split at this <;> simp at this <;> simp only <;> omega

theorem regsOnly_fillSlot {z s : State} {e : LogEnt} {i : Nat} (hi : i < 64) (h : RegsOnly entKey z s) :
    RegsOnly entKey z (fillSlot s e i) := by
  have k : ∀ f : Fld, 0x50000 ≤ f.base → f.base ≤ 0x51018 → f.lsb < 64 → f.base ≠ 0x50018 → 0x51000 ≤ f.base → entKey (fkey f (slotO i)) := by
    intro f h1 h2 h3 _ h5; exact entKey_of f _ h1 (by unfold slotO; omega) h3 (by unfold slotO; omega)
  have k0 : ∀ f : Fld, 0x50000 ≤ f.base → f.base ≤ 0x51018 → f.lsb < 64 → f.base ≠ 0x50018 → entKey (fkey f 0) := by
    intro f h1 h2 h3 h4; exact entKey_of f _ h1 (by omega) h3 (by omega)
  unfold fillSlot
  dsimp only
  have h0 : RegsOnly entKey z { s with logSeq := (s.logSeq + 1) % 2 ^ 32 } := regsOnly_eq h rfl
  generalize { s with logSeq := (s.logSeq + 1) % 2 ^ 32 } = s0 at h0
  have h1 := regsOnly_setF (v := 1) h0 (k F.ERR_ENT_A_VALID (by decide) (by decide) (by decide) (by decide) (by decide))
  generalize setF s0 F.ERR_ENT_A_VALID (slotO i) 1 = s1 at h1
  have h2 := regsOnly_setF (v := e.sev) h1 (k F.ERR_ENT_A_SEV (by decide) (by decide) (by decide) (by decide) (by decide))
  generalize setF s1 F.ERR_ENT_A_SEV (slotO i) e.sev = s2 at h2
  have h3 := regsOnly_setF (v := e.die) h2 (k F.ERR_ENT_A_DIE (by decide) (by decide) (by decide) (by decide) (by decide))
  generalize setF s2 F.ERR_ENT_A_DIE (slotO i) e.die = s3 at h3
  have h4 := regsOnly_setF (v := e.reason) h3 (k F.ERR_ENT_A_REASON (by decide) (by decide) (by decide) (by decide) (by decide))
  generalize setF s3 F.ERR_ENT_A_REASON (slotO i) e.reason = s4 at h4
  have h5 := regsOnly_setF (v := e.fn) h4 (k F.ERR_ENT_A_FN (by decide) (by decide) (by decide) (by decide) (by decide))
  generalize setF s4 F.ERR_ENT_A_FN (slotO i) e.fn = s5 at h5
  have h6 := regsOnly_setF (v := 0) h5 (k F.ERR_ENT_A_REPEAT (by decide) (by decide) (by decide) (by decide) (by decide))
  generalize setF s5 F.ERR_ENT_A_REPEAT (slotO i) 0 = s6 at h6
  have h7 := regsOnly_setF (v := e.inst) h6 (k F.ERR_ENT_B_INSTANCE (by decide) (by decide) (by decide) (by decide) (by decide))
  generalize setF s6 F.ERR_ENT_B_INSTANCE (slotO i) e.inst = s7 at h7
  have h8 := regsOnly_setF (v := e.detail) h7 (k F.ERR_ENT_B_DETAIL (by decide) (by decide) (by decide) (by decide) (by decide))
  generalize setF s7 F.ERR_ENT_B_DETAIL (slotO i) e.detail = s8 at h8
  have h9 := regsOnly_setF (v := wall s8) h8 (k F.ERR_ENT_C_FC (by decide) (by decide) (by decide) (by decide) (by decide))
  generalize setF s8 F.ERR_ENT_C_FC (slotO i) (wall s8) = s9 at h9
  have h10 := regsOnly_setF (v := 0) h9 (k F.ERR_ENT_D_LAST_REASON (by decide) (by decide) (by decide) (by decide) (by decide))
  generalize setF s9 F.ERR_ENT_D_LAST_REASON (slotO i) 0 = s10 at h10
  have h11 := regsOnly_seqOrder hi h10
  generalize seqOrder s10 i = s11 at h11
  have h12 := regsOnly_raise h11 (k0 F.ERR_EVENT_LOGGED (by decide) (by decide) (by decide) (by decide))
  generalize raise s11 F.ERR_EVENT_LOGGED 0 = s12 at h12
  have h13 : RegsOnly entKey z (if e.sev = 2 then raise s12 F.ERR_EVENT_FATAL 0
      else if e.sev = 3 then raise s12 F.ERR_EVENT_HALT 0 else s12) :=
    regsOnly_ite (regsOnly_raise h12 (k0 F.ERR_EVENT_FATAL (by decide) (by decide) (by decide) (by decide)))
      (regsOnly_ite (regsOnly_raise h12 (k0 F.ERR_EVENT_HALT (by decide) (by decide) (by decide) (by decide))) h12)
  generalize (if e.sev = 2 then raise s12 F.ERR_EVENT_FATAL 0
      else if e.sev = 3 then raise s12 F.ERR_EVENT_HALT 0 else s12) = s13 at h13
  exact regsOnly_ite (regsOnly_escalate h13) h13

theorem regsOnly_loseEntry {z s : State} (h : RegsOnly entKey z s) : RegsOnly entKey z (loseEntry s) := by
  have k0 : ∀ f : Fld, 0x50000 ≤ f.base → f.base ≤ 0x51018 → f.lsb < 64 → f.base ≠ 0x50018 → entKey (fkey f 0) := by
    intro f h1 h2 h3 h4; exact entKey_of f _ h1 (by omega) h3 (by omega)
  unfold loseEntry
  exact regsOnly_raise (regsOnly_setF (regsOnly_eq (regsOnly_satF h (k0 _ (by decide) (by decide) (by decide) (by decide))) (noteRose_regs _ _))
    (k0 _ (by decide) (by decide) (by decide) (by decide))) (k0 _ (by decide) (by decide) (by decide) (by decide))

theorem regsOnly_placeEntry {z s : State} {e : LogEnt} (h : RegsOnly entKey z s) : RegsOnly entKey z (placeEntry s e) := by
  unfold placeEntry
  dsimp only
  split
  · split
    · rename_i i hi
      have := List.mem_of_find?_eq_some hi
      exact regsOnly_ite (regsOnly_fillSlot (by simpa using this) h) (regsOnly_loseEntry h)
    · exact regsOnly_loseEntry h
  · split
    · rename_i i hi
      have := List.mem_of_find?_eq_some hi
      exact regsOnly_fillSlot (by simpa using this) h
    · split
      · rename_i i hi
        have := validSlots_lt s i (List.mem_filter.1 (youngest_mem _ _ _ hi)).1
        exact regsOnly_fillSlot this (regsOnly_setF (regsOnly_loseEntry h)
          (entKey_of _ _ (by decide) (by unfold slotO; show 0x51000 + _ < _; omega) (by decide)
          (by unfold slotO; show 0x51000 + _ ≠ _; omega)))
      · exact regsOnly_loseEntry h

theorem regsOnly_logLow {z s : State} {e : LogEnt} (h : RegsOnly entKey z s) : RegsOnly entKey z (logLow s e) := by
  unfold logLow repeatSlot
  split
  · rename_i i hi
    have hl : i < 64 := by
      unfold foldSlot at hi
      split at hi
      · rename_i j hj
        split at hi
        · injection hi with hi; subst hi; exact validSlots_lt s _ (youngest_mem _ _ _ hj)
        · simp at hi
      · simp at hi
    exact regsOnly_setF (regsOnly_satF h (entKey_of _ _ (by decide) (by unfold slotO; show 0x51000 + _ < _; omega) (by decide)
          (by unfold slotO; show 0x51000 + _ ≠ _; omega)))
      (entKey_of _ _ (by decide) (by unfold slotO; show 0x51018 + _ < _; omega) (by decide)
          (by unfold slotO; show 0x51018 + _ ≠ _; omega))
  · exact regsOnly_placeEntry h

theorem regsOnly_logHigh {z s : State} {e : LogEnt} (h : RegsOnly entKey z s) : RegsOnly entKey z (logHigh s e) := by
  unfold logHigh repeatSlot
  dsimp only
  split
  · rename_i i hi
    have hl : i < 64 := validSlots_lt s i (List.mem_of_find?_eq_some hi)
    have h1 : RegsOnly entKey z (setF (satF s F.ERR_ENT_A_REPEAT (slotO i) 1) F.ERR_ENT_D_LAST_REASON (slotO i) e.reason) :=
      regsOnly_setF (regsOnly_satF h (entKey_of _ _ (by decide) (by unfold slotO; show 0x51000 + _ < _; omega) (by decide)
          (by unfold slotO; show 0x51000 + _ ≠ _; omega)))
        (entKey_of _ _ (by decide) (by unfold slotO; show 0x51018 + _ < _; omega) (by decide)
          (by unfold slotO; show 0x51018 + _ ≠ _; omega))
    exact regsOnly_ite (regsOnly_raise h1 (entKey_of _ _ (by decide) (by decide) (by decide) (by decide)))
      (regsOnly_raise h1 (entKey_of _ _ (by decide) (by decide) (by decide) (by decide)))
  · exact regsOnly_placeEntry h

/-- A log entry writes registers of the error log and of the virtual functions' error summaries only. -/
theorem regsOnly_logErr {z s : State} {e : LogEnt} (h : RegsOnly logKey z s) : RegsOnly logKey z (logErr s e) := by
  have hc : ∀ n, logKey (fkey (errCountFld n) 0) := by
    intro n; unfold errCountFld logKey
    repeat' split
    all_goals decide
  unfold logErr
  dsimp only
  split
  · exact h
  · have h1 : RegsOnly logKey z (noteDeferred (vfSummary (satF s (errCountFld e.sev) 0 1) e) e) := by
      have := (regsOnly_satF (v := 1) h (hc e.sev)).trans ((regsOnly_vfSummary (e := e) (RegsOnly.refl _ _)).mono (fun _ q => q.1))
      unfold noteDeferred
      dsimp only
      exact regsOnly_ite (regsOnly_eq this rfl) this
    exact regsOnly_ite (h1.trans ((regsOnly_logLow (RegsOnly.refl _ _)).mono (fun _ q => q.1)))
      (h1.trans ((regsOnly_logHigh (RegsOnly.refl _ _)).mono (fun _ q => q.1)))

/-- A logged event counts in ERR_COUNT (R584), saturating. -/
theorem getF_logErr_count (s : State) (e : LogEnt) (h : s.logOff = false) :
    getF (logErr s e) (errCountFld e.sev) 0 = satAdd 16 (getF s (errCountFld e.sev) 0) 1 % 2 ^ 16 := by
  have hw : ∀ n, (errCountFld n).width = 16 := by
    intro n; unfold errCountFld
    split
    · rfl
    · split
      · rfl
      · split <;> rfl
  have hk : ∀ n, ¬ entKey (fkey (errCountFld n) 0) := by
    intro n q
    refine q.2 ?_
    unfold errCountFld
    split
    · rfl
    · split
      · rfl
      · split <;> rfl
  have h0 : getF (satF s (errCountFld e.sev) 0 1) (errCountFld e.sev) 0 = satAdd 16 (getF s (errCountFld e.sev) 0) 1 % 2 ^ 16 := by
    unfold satF; rw [getF_setF_same, hw]
  unfold logErr
  rw [h, Bool.false_and, if_neg (by decide)]
  dsimp only
  have hp : (satF s (errCountFld e.sev) 0 1).part = s.part := by simp
  generalize satF s (errCountFld e.sev) 0 1 = x at h0 hp
  rw [← h0]
  have h1 : RegsOnly entKey x (noteDeferred (vfSummary x e) e) := by
    have := regsOnly_vfSummary (e := e) (RegsOnly.refl _ x)
    unfold noteDeferred
    dsimp only
    exact regsOnly_ite (regsOnly_eq this rfl) this
  have h2 : RegsOnly entKey x (if e.sev < 2 then logLow (noteDeferred (vfSummary x e) e) e
      else logHigh (noteDeferred (vfSummary x e) e) e) := regsOnly_ite (regsOnly_logLow h1) (regsOnly_logHigh h1)
  refine h2.getF ?_ _ _ (hk _)
  have h3 : (noteDeferred (vfSummary x e) e).part = x.part := by
    unfold noteDeferred; dsimp only; split <;> simp
  split <;> simp [h3]

theorem getF_logErr (s : State) (e : LogEnt) (f : Fld) (o : Nat) (h : ¬ logKey (fkey f o)) : getF (logErr s e) f o = getF s f o :=
  (regsOnly_logErr (RegsOnly.refl _ s)).getF (by simp) f o h

theorem getF_logC (s : State) (a b c d x : Nat) (f : Fld) (o : Nat) (h : ¬ logKey (fkey f o)) :
    getF (logC s a b c d x) f o = getF s f o := getF_logErr _ _ f o h

theorem getF_logD (s : State) (a b c d x : Nat) (f : Fld) (o : Nat) (h : ¬ logKey (fkey f o)) :
    getF (logD s a b c d x) f o = getF s f o := getF_logErr _ _ f o h

end Sys2Proof.Machine
end

