-- ==== Sys2Proof/Laws/Bmk.lean ====
section
/-! SUPPORT. What the Benchmark unit's operations change (02_design_time.md). -/

namespace Sys2Proof.Machine

theorem regsOnly_foldl {α : Type} {K : Nat → Prop} {z : State} {f : State → α → State} (l : List α) {s : State}
    (h : RegsOnly K z s) (hf : ∀ s x, RegsOnly K z s → RegsOnly K z (f s x)) : RegsOnly K z (l.foldl f s) := by
  induction l generalizing s with
  | nil => exact h
  | cons x t ih => exact ih (hf s x h)

theorem foldl_keeps {α β : Type} (g : State → β) {f : State → α → State} (hf : ∀ s x, g (f s x) = g s) (l : List α) (s : State) :
    g (l.foldl f s) = g s := by
  induction l generalizing s with
  | nil => rfl
  | cons x t ih => rw [List.foldl_cons, ih, hf]

theorem firstLost_lt (s : State) (l : List Nat) (e : Nat × Nat) (h : firstLost s l = some e) : e.2 < 3 := by
  induction l with
  | nil => simp [firstLost] at h
  | cons a t ih =>
    cases t with
    | nil => simp [firstLost] at h
    | cons b t =>
      rw [firstLost] at h
      split at h
      · exact ih h
      · injection h with h
        subst h
        unfold edgeToward
        dsimp only
        split
        · omega
        · split <;> omega

/-- A die has three edges (R33), and a message is dropped at one of them. -/
theorem lostEdges_lt (s : State) (a : Nat) (ds : List Nat) : ∀ e ∈ lostEdges s a ds, e.2 < 3 := by
  unfold lostEdges
  have h : ∀ e ∈ ds.filterMap (lostTo s a), e.2 < 3 := by
    intro e he
    obtain ⟨d, _, hd⟩ := List.mem_filterMap.1 he
    exact firstLost_lt s _ e hd
  generalize ds.filterMap (lostTo s a) = l at h
  suffices q : ∀ acc : List (Nat × Nat), (∀ e ∈ acc, e.2 < 3) →
      ∀ e ∈ l.foldl (fun acc e => if acc.contains e then acc else acc ++ [e]) acc, e.2 < 3 from q [] (by simp)
  induction l with
  | nil => exact fun acc h => h
  | cons x l ih =>
    intro acc hacc
    refine ih (fun e he => h e (by simp [he])) _ ?_
    dsimp only
    split
    · exact hacc
    · intro e he
      rcases List.mem_append.1 he with q | q
      · exact hacc e q
      · rw [List.mem_singleton.1 q]; exact h x (by simp)

/-- A message of the master slice writes no register but the counters of the edges that drop it (R63). -/
theorem regsOnly_sendG {K : Nat → Prop} {z s : State} {ds : List Nat} {m : GMsg} (hk : ∀ k, edgeKey k → K k) (h : RegsOnly K z s) :
    RegsOnly K z (sendG s ds m) := by
  unfold sendG
  dsimp only
  have h1 : RegsOnly K z ((ds.filter (reaches s (masterDie s))).foldl (fun s d =>
      modBmk s (fun b => { b with msgs := Tbl.put d (Tbl.getD b.msgs d [] ++ [m]) b.msgs })) s) :=
    regsOnly_foldl _ h (fun _ _ h => regsOnly_eq h (modBmk_regs _ _))
  generalize ((ds.filter (reaches s (masterDie s))).foldl (fun s d =>
      modBmk s (fun b => { b with msgs := Tbl.put d (Tbl.getD b.msgs d [] ++ [m]) b.msgs })) s) = x at h1
  have hl := lostEdges_lt s (masterDie s) ds
  generalize lostEdges s (masterDie s) ds = es at hl
  induction es generalizing x with
  | nil => exact h1
  | cons e es ih => exact ih _ (regsOnly_satF h1 (hk _ ⟨_, _, hl e (by simp), rfl⟩)) (fun e he => hl e (by simp [he]))

@[simp] theorem sendG_part (s : State) (ds : List Nat) (m : GMsg) : (sendG s ds m).part = s.part := by
  unfold sendG
  dsimp only
  refine (foldl_keeps (·.part) (fun _ _ => by simp [dropAtEdge]) _ _).trans (foldl_keeps (·.part) ?_ _ _); intros; rfl

@[simp] theorem markIncluded_part (s : State) : (markIncluded s).part = s.part := foldl_keeps (·.part) (fun _ _ => by simp) _ _

theorem knownSources_lt (s : State) (n : Nat) (h : n ∈ knownSources s) : n < 1024 := by
  unfold knownSources at h
  rw [List.mem_filterMap] at h
  obtain ⟨e, _, h⟩ := h
  split at h
  · rename_i hc
    injection h with h
    have h2 := hc.2.1
    simp [fkey, F.BMK_SRC_STAT_STATE, srcO] at h2 h
    omega
  · simp at h

theorem regsOnly_markIncluded {z s : State} (h : RegsOnly gKey z s) : RegsOnly gKey z (markIncluded s) := by
  unfold markIncluded
  have hl := knownSources_lt s
  have : ∀ (l : List Nat) (x : State), (∀ n, n ∈ l → n < 1024) → RegsOnly gKey z x →
      RegsOnly gKey z (l.foldl (fun y n => setF y F.BMK_SRC_STAT_INCLUDED (srcO n) (if included y n then 1 else 0)) x) := by
    intro l
    induction l with
    | nil => exact fun _ _ h => h
    | cons a l ih =>
      intro x hl h
      exact ih _ (fun m hm => hl m (by simp [hm])) (regsOnly_setF h (.inr (.inl ⟨a, hl a (by simp), rfl⟩)))
  exact this _ _ hl h

/-- A recomputation of G writes GLOBAL_HORIZON, the INCLUDED bits and the counters of dropped messages only (R76). -/
theorem regsOnly_recomputeG {z s : State} {acc : Nat} (h : RegsOnly gKey z s) : RegsOnly gKey z (recomputeG s acc) := by
  unfold recomputeG
  dsimp only
  have := regsOnly_markIncluded h
  exact regsOnly_ite this (regsOnly_sendG (fun _ h => .inr (.inr h))
    (regsOnly_setF (v := gNew (markIncluded s)) (regsOnly_eq this (modBmk_regs _ _)) (.inl rfl)))

@[simp] theorem recomputeG_part (s : State) (acc : Nat) : (recomputeG s acc).part = s.part := by
  unfold recomputeG; dsimp only; split <;> simp

/-- A field beside GLOBAL_HORIZON and INCLUDED reads as before a recomputation of G. -/
theorem getF_recomputeG (s : State) (acc : Nat) (f : Fld) (o : Nat) (h : ¬ gKey (fkey f o)) :
    getF (recomputeG s acc) f o = getF s f o := (regsOnly_recomputeG (RegsOnly.refl _ s)).getF (by simp) f o h

/-- Beside the memories, a recomputation of G changes the Benchmark unit alone. -/
theorem recomputeG_out (s : State) (acc : Nat) : (recomputeG s acc).out = s.out ∧ (recomputeG s acc).pending = s.pending := by
  have hs : ∀ s ds m, (sendG s ds m).out = s.out ∧ (sendG s ds m).pending = s.pending := fun s ds m => by
    unfold sendG
    dsimp only
    constructor
    · refine (foldl_keeps (·.out) (fun _ _ => by simp [dropAtEdge]) _ _).trans (foldl_keeps (·.out) ?_ _ _); intros; rfl
    · refine (foldl_keeps (·.pending) (fun _ _ => by simp [dropAtEdge]) _ _).trans (foldl_keeps (·.pending) ?_ _ _); intros; rfl
  have hm : ∀ s : State, (markIncluded s).out = s.out ∧ (markIncluded s).pending = s.pending := fun s =>
    ⟨foldl_keeps (·.out) (fun _ _ => by simp) _ _, foldl_keeps (·.pending) (fun _ _ => by simp) _ _⟩
  unfold recomputeG
  dsimp only
  split
  · exact hm s
  · rw [(hs _ _ _).1, (hs _ _ _).2]
    simp [hm s]

theorem Tbl.filterMap_put {α β : Type} (g : Nat × α → Option β) (k : Nat) (v : α) (t : Tbl α) (h : ∀ w, g (k, w) = none) :
    (Tbl.put k v t).filterMap g = t.filterMap g := by
  induction t with
  | nil => simp [Tbl.put, h]
  | cons a t ih =>
    obtain ⟨j, w⟩ := a
    simp only [Tbl.put]
    split
    · rename_i e; subst e; simp [h]
    · split
      · simp [h]
      · simp only [List.filterMap_cons, ih]

theorem Tbl.filterMap_del {α β : Type} (g : Nat × α → Option β) (k : Nat) (t : Tbl α) (h : ∀ w, g (k, w) = none) :
    (Tbl.del k t).filterMap g = t.filterMap g := by
  induction t with
  | nil => rfl
  | cons a t ih =>
    obtain ⟨j, w⟩ := a
    unfold Tbl.del at ih ⊢
    by_cases e : j = k
    · subst e
      rw [List.filter_cons_of_neg (by simp), ih, List.filterMap_cons, h]
    · rw [List.filter_cons_of_pos (by simpa using e), List.filterMap_cons, List.filterMap_cons, ih]

/-- A write to a register that is no source's STATE leaves the known sources. -/
theorem knownSources_setF (s : State) (f : Fld) (o v : Nat)
    (hk : fkey f o < fkey F.BMK_SRC_STAT_STATE 0 ∨ fkey F.BMK_SRC_STAT_STATE (srcO 1024) ≤ fkey f o ∨
      (fkey f o - fkey F.BMK_SRC_STAT_STATE 0) % 1024 ≠ 0) :
    knownSources (setF s f o v) = knownSources s := by
  unfold knownSources setF
  dsimp only
  split
  · exact Tbl.filterMap_del _ _ _ (fun w => by rw [if_neg]; dsimp only; omega)
  · exact Tbl.filterMap_put _ _ _ _ (fun w => by rw [if_neg]; dsimp only; omega)

/-- A firing on no lost source leaves the views and the messages of the Benchmark unit (R88, R89). -/
theorem fireStake_bmk (s : State) (n d h : Nat) : (fireStake s n d h none).bmk.view = s.bmk.view ∧
    (fireStake s n d h none).bmk.srcView = s.bmk.srcView ∧ (fireStake s n d h none).bmk.msgs = s.bmk.msgs := by
  have hp : ∀ s src cells t, (pushHead s src cells t).bmk = s.bmk := by
    intro s src cells t
    unfold pushHead
    refine foldl_keeps (·.bmk) ?_ _ _
    intros; rfl
  have ho : ∀ s src es, (setOut s src es).bmk = s.bmk := fun _ _ _ => rfl
  unfold fireStake
  dsimp only
  repeat' split
  all_goals simp [hp, ho]

theorem fireGlobal_bmk (s : State) (d g : Nat) : (fireGlobal s d g).bmk.view = s.bmk.view ∧
    (fireGlobal s d g).bmk.msgs = s.bmk.msgs := by
  unfold fireGlobal
  constructor
  · refine foldl_keeps (·.bmk.view) ?_ _ _
    intro s x; split
    · exact (fireStake_bmk s x d g).1
    · rfl
  · refine foldl_keeps (·.bmk.msgs) ?_ _ _
    intro s x; split
    · exact (fireStake_bmk s x d g).2.2
    · rfl

theorem fireSource_bmk (s : State) (d src h : Nat) : (fireSource s d src h).bmk.srcView = s.bmk.srcView ∧
    (fireSource s d src h).bmk.msgs = s.bmk.msgs := by
  unfold fireSource
  constructor
  · refine foldl_keeps (·.bmk.srcView) ?_ _ _
    intro s x; split
    · exact (fireStake_bmk s x d h).2.1
    · rfl
  · refine foldl_keeps (·.bmk.msgs) ?_ _ _
    intro s x; split
    · exact (fireStake_bmk s x d h).2.2
    · rfl

/-! ### Heads' tokens, marks of failure, firings and detaching sources -/

@[simp] theorem setOut_regs (s : State) (src : Nat) (es : List OutEnt) : (setOut s src es).regs = s.regs := rfl
@[simp] theorem setOut_part (s : State) (src : Nat) (es : List OutEnt) : (setOut s src es).part = s.part := rfl

@[simp] theorem pushHead_regs (s : State) (src : Nat) (cells : List Nat) (t : Token) : (pushHead s src cells t).regs = s.regs := by
  unfold pushHead; refine foldl_keeps (·.regs) ?_ _ _; intros; rfl

@[simp] theorem pushHead_part (s : State) (src : Nat) (cells : List Nat) (t : Token) : (pushHead s src cells t).part = s.part := by
  unfold pushHead; refine foldl_keeps (·.part) ?_ _ _; intros; rfl

/-- A head's token joins the end of its producer's output buffer, one entry for each cell at which the cells it names run. -/
theorem outOf_pushHead (s : State) (src : Nat) (cells : List Nat) (t : Token) :
    outOf (pushHead s src cells t) src = outOf s src ++ (cells.flatMap (placements s)).map (fun c => ⟨s.now, .copies t [.cell c 0]⟩) := by
  unfold pushHead
  generalize cells.flatMap (placements s) = l
  suffices h : ∀ x : State, x.now = s.now → outOf (l.foldl (fun s c => pushOut s src ⟨s.now, .copies t [.cell c 0]⟩) x) src =
      outOf x src ++ l.map (fun c => ⟨s.now, .copies t [.cell c 0]⟩) from h s rfl
  induction l with
  | nil => intro x _; simp
  | cons a l ih =>
    intro x hx
    rw [List.foldl_cons, ih _ (by simp [pushOut, setOut, hx])]
    simp [pushOut, setOut, outOf, Tbl.getD_put_same, hx]

theorem regsOnly_logCtx {z s : State} {t c st r : Nat} (h : RegsOnly logKey z s) : RegsOnly logKey z (logCtx s t c st r) := by
  unfold logCtx
  split
  · exact regsOnly_logErr h
  · exact h

/-- A mark of failure writes the error log only. -/
theorem regsOnly_markFail {z s : State} {t c st r : Nat} (h : RegsOnly logKey z s) : RegsOnly logKey z (markFail s t c st r) := by
  unfold markFail
  split
  · unfold modInv; split
    · exact regsOnly_eq h (by simp)
    · exact h
  · dsimp only; split
    · exact regsOnly_logCtx (regsOnly_eq h (by simp))
    · split
      · exact regsOnly_logCtx (regsOnly_eq h (by simp))
      · exact h

@[simp] theorem markFail_part (s : State) (t c st r : Nat) : (markFail s t c st r).part = s.part := by
  unfold markFail modInv logCtx; dsimp only; (repeat' split) <;> simp

/-- Keys that firings write: the stakes' registers, their event, and the error log. -/
def stakeKey (k : Nat) : Prop := (0x28000 * 64 ≤ k ∧ k < 0x30000 * 64) ∨ k = fkey F.BMK_EVENT_STAKE_COALESCED 0 ∨ logKey k

theorem armedStakes_lt (s : State) (n : Nat) (h : n ∈ armedStakes s) : n < 2048 := by
  unfold armedStakes at h
  rw [List.mem_filterMap] at h
  obtain ⟨e, _, h⟩ := h
  split at h
  · rename_i hc
    injection h with h
    have h2 := hc.2.1
    simp [fkey, F.BMK_STAKE_CTL_ARMED, stakeO] at h2 h
    omega
  · simp at h

theorem regsOnly_fireStake {z s : State} {n d h : Nat} {lost : Option Nat} (hn : n < 2048) (hz : RegsOnly stakeKey z s) :
    RegsOnly stakeKey z (fireStake s n d h lost) := by
  have k : ∀ f : Fld, 0x28000 ≤ f.base → f.base ≤ 0x28008 → f.lsb < 64 → stakeKey (fkey f (stakeO n)) := by
    intro f h1 h2 h3; left; unfold fkey stakeO; omega
  have kc : stakeKey (fkey F.BMK_EVENT_STAKE_COALESCED 0) := .inr (.inl rfl)
  have km : ∀ {s t c st r}, RegsOnly stakeKey z s → RegsOnly stakeKey z (markFail s t c st r) := fun h =>
    h.trans ((regsOnly_markFail (RegsOnly.refl _ _)).mono (fun _ q => .inr (.inr q)))
  unfold fireStake
  extract_lets o v t rep pn firing ctx lb s1 s2 s3 s4 s5 held s6 s7
  have h1 : RegsOnly stakeKey z s1 := regsOnly_satF hz (k F.BMK_STAKE_CTL_FIRE_COUNT (by decide) (by decide) (by decide))
  clear_value s1
  have h2 : RegsOnly stakeKey z s2 := regsOnly_setF h1 (k F.BMK_STAKE_CTL_PERIODS (by decide) (by decide) (by decide))
  clear_value s2
  have h3 : RegsOnly stakeKey z s3 := regsOnly_setF h2 (k F.BMK_STAKE_CTL_LOST (by decide) (by decide) (by decide))
  clear_value s3
  have h4 : RegsOnly stakeKey z s4 := regsOnly_ite (regsOnly_setF h3 (k F.BMK_STAKE_VAL_VALUE (by decide) (by decide) (by decide)))
    (regsOnly_setF h3 (k F.BMK_STAKE_CTL_ARMED (by decide) (by decide) (by decide)))
  clear_value s4
  have h5 : RegsOnly stakeKey z s5 := regsOnly_eq h4 (modBmk_regs _ _)
  clear_value s5
  have h6 : RegsOnly stakeKey z s6 := regsOnly_ite (regsOnly_raise h5 kc) h5
  clear_value s6 held
  have h7 : RegsOnly stakeKey z s7 := by
    dsimp only [s7]
    split
    · exact regsOnly_eq h6 (setOut_regs _ _ _)
    · split
      · exact regsOnly_eq h6 (pushHead_regs _ _ _ _)
      · exact h6
  clear_value s7
  split
  · exact km h7
  · exact h7

@[simp] theorem fireStake_part (s : State) (n d h : Nat) (lost : Option Nat) : (fireStake s n d h lost).part = s.part := by
  unfold fireStake; dsimp only; (repeat' split) <;> simp

theorem regsOnly_fireLost {z s : State} {n r : Nat} (h : RegsOnly stakeKey z s) : RegsOnly stakeKey z (fireLost s n r) := by
  unfold fireLost
  have hl := armedStakes_lt s
  generalize armedStakes s = l at hl
  induction l generalizing s with
  | nil => exact h
  | cons a l ih =>
    rw [List.foldl_cons]
    refine ih ?_ (fun m hm => hl m (by simp [hm]))
    have ha := hl a (by simp)
    split
    · split
      · exact regsOnly_fireStake ha h
      · exact regsOnly_setF h (.inl (by simp only [fkey, F.BMK_STAKE_CTL_ARMED, stakeO]; omega))
    · exact h

@[simp] theorem fireLost_part (s : State) (n r : Nat) : (fireLost s n r).part = s.part := by
  unfold fireLost; refine foldl_keeps (·.part) ?_ _ _; intro s x; (repeat' split) <;> simp

/-- Keys that a detach of a source writes beside the source's STATE. -/
def detachKey (k : Nat) : Prop := k = fkey F.BMK_EVENT_CLOSED 0 ∨ stakeKey k ∨ gKey k

@[simp] theorem sendLost_regs (s : State) (n r : Nat) : (sendLost s n r).regs = s.regs := by
  unfold sendLost; refine foldl_keeps (·.regs) ?_ _ _; intros; simp

@[simp] theorem sendLost_part (s : State) (n r : Nat) : (sendLost s n r).part = s.part := by
  unfold sendLost; refine foldl_keeps (·.part) ?_ _ _; intros; simp

@[simp] theorem detach_part (s : State) (n r : Nat) : (detach s n r).part = s.part := by
  unfold detach; dsimp only; split <;> simp

/-- SOURCE_DETACH writes the source's STATE, the stakes, the event, the log and what a recomputation of G writes (R99). -/
theorem regsOnly_detach {z s : State} {n r : Nat}
    (h : RegsOnly (fun k => k = fkey F.BMK_SRC_STAT_STATE (srcO n) ∨ detachKey k) z s) :
    RegsOnly (fun k => k = fkey F.BMK_SRC_STAT_STATE (srcO n) ∨ detachKey k) z (detach s n r) := by
  unfold detach
  dsimp only
  refine regsOnly_ite ?_ h
  have h1 := regsOnly_raise (o := 0) (f := F.BMK_EVENT_CLOSED) (regsOnly_setF (f := F.BMK_SRC_STAT_STATE) (o := srcO n) (v := srcClosed)
    (regsOnly_eq h (sendLost_regs s n r)) (.inl rfl)) (.inr (.inl rfl))
  refine (RegsOnly.trans ?_ ((regsOnly_recomputeG (RegsOnly.refl _ _)).mono (fun _ q => .inr (.inr (.inr q)))))
  refine (RegsOnly.trans ?_ ((regsOnly_fireLost (RegsOnly.refl _ _)).mono (fun _ q => .inr (.inr (.inl q)))))
  exact regsOnly_eq h1 (by simp)

theorem not_detachKey_state (m : Nat) (hm : m < 1024) : ¬ detachKey (fkey F.BMK_SRC_STAT_STATE (srcO m)) := by
  rintro (h | (h | h | h) | (h | ⟨n, _, h⟩ | ⟨a, b, _, h⟩))
  · simp [fkey, F.BMK_SRC_STAT_STATE, F.BMK_EVENT_CLOSED, srcO] at h; omega
  · simp [fkey, F.BMK_SRC_STAT_STATE, srcO] at h; omega
  · simp [fkey, F.BMK_SRC_STAT_STATE, F.BMK_EVENT_STAKE_COALESCED, srcO] at h; omega
  · simp [logKey, fkey, F.BMK_SRC_STAT_STATE, srcO] at h; omega
  · simp [fkey, F.BMK_SRC_STAT_STATE, F.BMK_GLOBAL_HORIZON, srcO] at h; omega
  · simp [fkey, F.BMK_SRC_STAT_STATE, F.BMK_SRC_STAT_INCLUDED, srcO] at h; omega
  · simp [fkey, F.BMK_SRC_STAT_STATE, F.PKG_EDGE_DROPPED, srcO] at h; omega

/-- A detach closes its source, if that is PENDING, LIVE or STALLED, and changes the state of no other (R99). -/
theorem srcState_detach (s : State) (n m r : Nat) (hn : n < 1024) (hm : m < 1024) :
    srcState (detach s n r) m =
      if m = n ∧ (srcState s n = srcPending ∨ srcState s n = srcLive ∨ srcState s n = srcStalled) then srcClosed
      else srcState s m := by
  by_cases hmn : m = n
  · subst hmn
    by_cases hh : srcState s m = srcPending ∨ srcState s m = srcLive ∨ srcState s m = srcStalled
    · rw [if_pos ⟨rfl, hh⟩]
      unfold detach
      dsimp only
      rw [if_pos hh]
      show getF _ _ _ = _
      have nk := not_detachKey_state m hm
      rw [getF_recomputeG _ _ _ _ (fun q => nk (.inr (.inr q)))]
      rw [(regsOnly_fireLost (RegsOnly.refl _ _)).getF (by simp) _ _ (fun q => nk (.inr (.inl q)))]
      rw [getF_of_regs (modBmk_part _ _) (modBmk_regs _ _), getF_raise_ne _ _ _ _ _ (fun q => nk (.inl q)), getF_setF_same]
      rfl
    · rw [if_neg (fun q => hh q.2)]
      unfold detach; dsimp only; rw [if_neg hh]
  · rw [if_neg (fun q => hmn q.1)]
    refine (regsOnly_detach (RegsOnly.refl _ s)).getF (by simp) _ _ ?_
    rintro (h | h)
    · simp [fkey, srcO] at h; exact hmn (by omega)
    · exact not_detachKey_state m hm h


end Sys2Proof.Machine
end

