-- ==== Sys2Proof/Laws/KeepOps.lean ====
section
/-! SUPPORT. What the operations of Machine/Ops.lean keep (Laws/Keep.lean), one lemma per operation. -/

set_option linter.tactic.unusedName false
set_option linter.all false
set_option Elab.async false

namespace Sys2Proof.Machine

theorem keep_addF {P : Area → Prop} {z : State} {s : State} {a_f : Fld} {a_o : Nat} {a_n : Nat} (h : Keeps P z s) :
    Keeps P z (addF s a_f a_o a_n) := by
  unfold addF
  repeat' (first | (with_reducible assumption) | (intro) | (with_reducible apply keep_setF) | split | (dsimp only))

theorem keep_satF {P : Area → Prop} {z : State} {s : State} {a_f : Fld} {a_o : Nat} {a_n : Nat} (h : Keeps P z s) :
    Keeps P z (satF s a_f a_o a_n) := by
  unfold satF
  repeat' (first | (with_reducible assumption) | (intro) | (with_reducible apply keep_setF) | split | (dsimp only))

theorem keep_maxF {P : Area → Prop} {z : State} {s : State} {a_f : Fld} {a_o : Nat} {a_v : Nat} (h : Keeps P z s) :
    Keeps P z (maxF s a_f a_o a_v) := by
  unfold maxF
  repeat' (first | (with_reducible assumption) | (intro) | (with_reducible apply keep_setF) | split | (dsimp only))

theorem keep_msixSend {P : Area → Prop} {z : State} {s : State} {a_fn : Nat} {a_vec : Nat} (h : Keeps P z s) :
    Keeps P z (msixSend s a_fn a_vec) := by
  unfold msixSend
  repeat' (first | (with_reducible assumption) | (intro)
                 | (extract_lets +onlyGivenNames y; refine keep_cut (y := y) ?_ ?_; (focus (dsimp only [y]; clear y)); rotate_left; (focus (clear_value y; revert y; intro _ _)))
                 | (extract_lets +onlyGivenNames y; refine keep_cut1 (y := y) ?_ ?_; (focus (dsimp only [y]; clear y)); rotate_left; (focus (clear_value y; revert y; intro _ _)))
                 | (extract_lets +onlyGivenNames y; refine keep_cut2 (y := y) ?_ ?_; (focus (dsimp only [y]; clear y)); rotate_left; (focus (clear_value y; revert y; intro _ _)))
                 | (extract_lets +onlyGivenNames y; clear_value y; revert y; intro _) | (with_reducible apply keep_emitOut)
                 | split | (dsimp only))

theorem keep_msix {P : Area → Prop} {z : State} {s : State} {a_fn : Nat} {a_vec : Nat} (h : Keeps P z s)
    (krings : P .rings := by assumption) :
    Keeps P z (msix s a_fn a_vec) := by
  unfold msix
  repeat' (first | (with_reducible assumption) | (exact Or.inl (by assumption)) | (exact Or.inr rfl)
                 | (exact Or.inr ⟨rfl, rfl, rfl, rfl⟩) | (intro)
                 | (extract_lets +onlyGivenNames y; refine keep_cut (y := y) ?_ ?_; (focus (dsimp only [y]; clear y)); rotate_left; (focus (clear_value y; revert y; intro _ _)))
                 | (extract_lets +onlyGivenNames y; refine keep_cut1 (y := y) ?_ ?_; (focus (dsimp only [y]; clear y)); rotate_left; (focus (clear_value y; revert y; intro _ _)))
                 | (extract_lets +onlyGivenNames y; refine keep_cut2 (y := y) ?_ ?_; (focus (dsimp only [y]; clear y)); rotate_left; (focus (clear_value y; revert y; intro _ _)))
                 | (extract_lets +onlyGivenNames y; clear_value y; revert y; intro _) | (with_reducible apply keep_msixSend)
                 | (with_reducible refine keep_ite ?_ ?_) | split | (dsimp only)
                 | (with_reducible refine keep_mk ?_ rfl rfl rfl rfl rfl rfl rfl rfl rfl ?_ ?_ ?_ ?_ ?_ ?_ ?_ ?_ ?_ ?_ ?_ ?_ ?_ ?_ ?_ ?_ ?_ ?_))

theorem keep_evtMsgPf {P : Area → Prop} {z : State} {s : State} {a_b : Nat} {a_p : Nat} (h : Keeps P z s)
    (krings : P .rings := by assumption) :
    Keeps P z (evtMsgPf s a_b a_p) := by
  unfold evtMsgPf
  repeat' (first | (with_reducible assumption) | (exact Or.inl (by assumption)) | (exact Or.inr rfl)
                 | (exact Or.inr ⟨rfl, rfl, rfl, rfl⟩) | (intro)
                 | (extract_lets +onlyGivenNames y; refine keep_cut (y := y) ?_ ?_; (focus (dsimp only [y]; clear y)); rotate_left; (focus (clear_value y; revert y; intro _ _)))
                 | (extract_lets +onlyGivenNames y; refine keep_cut1 (y := y) ?_ ?_; (focus (dsimp only [y]; clear y)); rotate_left; (focus (clear_value y; revert y; intro _ _)))
                 | (extract_lets +onlyGivenNames y; refine keep_cut2 (y := y) ?_ ?_; (focus (dsimp only [y]; clear y)); rotate_left; (focus (clear_value y; revert y; intro _ _)))
                 | (extract_lets +onlyGivenNames y; clear_value y; revert y; intro _) | (with_reducible apply keep_msix)
                 | (with_reducible refine keep_ite ?_ ?_) | split | (dsimp only)
                 | (with_reducible refine keep_mk ?_ rfl rfl rfl rfl rfl rfl rfl rfl rfl ?_ ?_ ?_ ?_ ?_ ?_ ?_ ?_ ?_ ?_ ?_ ?_ ?_ ?_ ?_ ?_ ?_ ?_))

theorem keep_noteRose {P : Area → Prop} {z : State} {s : State} {a_k : Nat} (h : Keeps P z s)
    (krings : P .rings := by assumption) :
    Keeps P z (noteRose s a_k) := by
  unfold noteRose
  repeat' (first | (with_reducible assumption) | (exact Or.inl (by assumption)) | (exact Or.inr rfl)
                 | (exact Or.inr ⟨rfl, rfl, rfl, rfl⟩) | (intro)
                 | (extract_lets +onlyGivenNames y; refine keep_cut (y := y) ?_ ?_; (focus (dsimp only [y]; clear y)); rotate_left; (focus (clear_value y; revert y; intro _ _)))
                 | (extract_lets +onlyGivenNames y; refine keep_cut1 (y := y) ?_ ?_; (focus (dsimp only [y]; clear y)); rotate_left; (focus (clear_value y; revert y; intro _ _)))
                 | (extract_lets +onlyGivenNames y; refine keep_cut2 (y := y) ?_ ?_; (focus (dsimp only [y]; clear y)); rotate_left; (focus (clear_value y; revert y; intro _ _)))
                 | (extract_lets +onlyGivenNames y; clear_value y; revert y; intro _) | (with_reducible refine keep_ite ?_ ?_)
                 | split | (dsimp only)
                 | (with_reducible refine keep_mk ?_ rfl rfl rfl rfl rfl rfl rfl rfl rfl ?_ ?_ ?_ ?_ ?_ ?_ ?_ ?_ ?_ ?_ ?_ ?_ ?_ ?_ ?_ ?_ ?_ ?_))

theorem keep_raise {P : Area → Prop} {z : State} {s : State} {a_f : Fld} {a_o : Nat} (h : Keeps P z s)
    (krings : P .rings := by assumption) :
    Keeps P z (raise s a_f a_o) := by
  unfold raise
  repeat' (first | (with_reducible assumption) | (intro)
                 | (extract_lets +onlyGivenNames y; refine keep_cut (y := y) ?_ ?_; (focus (dsimp only [y]; clear y)); rotate_left; (focus (clear_value y; revert y; intro _ _)))
                 | (extract_lets +onlyGivenNames y; refine keep_cut1 (y := y) ?_ ?_; (focus (dsimp only [y]; clear y)); rotate_left; (focus (clear_value y; revert y; intro _ _)))
                 | (extract_lets +onlyGivenNames y; refine keep_cut2 (y := y) ?_ ?_; (focus (dsimp only [y]; clear y)); rotate_left; (focus (clear_value y; revert y; intro _ _)))
                 | (extract_lets +onlyGivenNames y; clear_value y; revert y; intro _) | (with_reducible apply keep_noteRose)
                 | (with_reducible apply keep_setF) | (with_reducible apply keep_evtMsgPf)
                 | (with_reducible refine keep_ite ?_ ?_) | split | (dsimp only))

theorem keep_vfSummary {P : Area → Prop} {z : State} {s : State} {a_e : LogEnt} (h : Keeps P z s)
    (krings : P .rings := by assumption) :
    Keeps P z (vfSummary s a_e) := by
  unfold vfSummary
  repeat' (first | (with_reducible assumption) | (intro)
                 | (extract_lets +onlyGivenNames y; refine keep_cut (y := y) ?_ ?_; (focus (dsimp only [y]; clear y)); rotate_left; (focus (clear_value y; revert y; intro _ _)))
                 | (extract_lets +onlyGivenNames y; refine keep_cut1 (y := y) ?_ ?_; (focus (dsimp only [y]; clear y)); rotate_left; (focus (clear_value y; revert y; intro _ _)))
                 | (extract_lets +onlyGivenNames y; refine keep_cut2 (y := y) ?_ ?_; (focus (dsimp only [y]; clear y)); rotate_left; (focus (clear_value y; revert y; intro _ _)))
                 | (extract_lets +onlyGivenNames y; clear_value y; revert y; intro _) | (with_reducible apply keep_satF)
                 | (with_reducible apply keep_setF) | (with_reducible apply keep_noteRose) | (with_reducible apply keep_msix)
                 | (with_reducible refine keep_ite ?_ ?_) | split | (dsimp only))

theorem keep_repeatSlot {P : Area → Prop} {z : State} {s : State} {a_i : Nat} (h : Keeps P z s) :
    Keeps P z (repeatSlot s a_i) := by
  unfold repeatSlot
  repeat' (first | (with_reducible assumption) | (intro) | (with_reducible apply keep_satF) | split | (dsimp only))

theorem keep_escMsg {P : Area → Prop} {z : State} {s : State} {a_p : Nat} (h : Keeps P z s)
    (krings : P .rings := by assumption) :
    Keeps P z (escMsg s a_p) := by
  unfold escMsg
  repeat' (first | (with_reducible assumption) | (exact Or.inl (by assumption)) | (exact Or.inr rfl)
                 | (exact Or.inr ⟨rfl, rfl, rfl, rfl⟩) | (intro)
                 | (extract_lets +onlyGivenNames y; refine keep_cut (y := y) ?_ ?_; (focus (dsimp only [y]; clear y)); rotate_left; (focus (clear_value y; revert y; intro _ _)))
                 | (extract_lets +onlyGivenNames y; refine keep_cut1 (y := y) ?_ ?_; (focus (dsimp only [y]; clear y)); rotate_left; (focus (clear_value y; revert y; intro _ _)))
                 | (extract_lets +onlyGivenNames y; refine keep_cut2 (y := y) ?_ ?_; (focus (dsimp only [y]; clear y)); rotate_left; (focus (clear_value y; revert y; intro _ _)))
                 | (extract_lets +onlyGivenNames y; clear_value y; revert y; intro _) | (with_reducible apply keep_msix)
                 | (with_reducible refine keep_ite ?_ ?_) | split | (dsimp only)
                 | (with_reducible refine keep_mk ?_ rfl rfl rfl rfl rfl rfl rfl rfl rfl ?_ ?_ ?_ ?_ ?_ ?_ ?_ ?_ ?_ ?_ ?_ ?_ ?_ ?_ ?_ ?_ ?_ ?_))

theorem keep_escalate {P : Area → Prop} {z : State} {s : State} (h : Keeps P z s) (krings : P .rings := by assumption) :
    Keeps P z (escalate s) := by
  unfold escalate
  repeat' (first | (with_reducible assumption) | (intro) | (with_reducible apply keep_escMsg)
                 | (with_reducible apply keep_raise) | split | (dsimp only))

theorem keep_setSeqs {P : Area → Prop} {z : State} {s : State} {a_l : List (Nat × Nat)} (h : Keeps P z s) :
    Keeps P z (setSeqs s a_l) := by
  unfold setSeqs
  repeat' (first | (with_reducible assumption) | (intro) | (with_reducible apply keep_setF) | (with_reducible apply keep_foldl)
                 | (with_reducible apply keep_foldl1) | split | (dsimp only))

theorem keep_seqOrder {P : Area → Prop} {z : State} {s : State} {a_i : Nat} (h : Keeps P z s)
    (klog : P .log := by assumption) :
    Keeps P z (seqOrder s a_i) := by
  unfold seqOrder
  repeat' (first | (with_reducible assumption) | (exact Or.inl (by assumption)) | (exact Or.inr rfl)
                 | (exact Or.inr ⟨rfl, rfl, rfl, rfl⟩) | (intro)
                 | (extract_lets +onlyGivenNames y; refine keep_cut (y := y) ?_ ?_; (focus (dsimp only [y]; clear y)); rotate_left; (focus (clear_value y; revert y; intro _ _)))
                 | (extract_lets +onlyGivenNames y; refine keep_cut1 (y := y) ?_ ?_; (focus (dsimp only [y]; clear y)); rotate_left; (focus (clear_value y; revert y; intro _ _)))
                 | (extract_lets +onlyGivenNames y; refine keep_cut2 (y := y) ?_ ?_; (focus (dsimp only [y]; clear y)); rotate_left; (focus (clear_value y; revert y; intro _ _)))
                 | (extract_lets +onlyGivenNames y; have q : (_ : _) → _ := y; clear q; dsimp only [y]; clear y)
                 | (extract_lets +onlyGivenNames y; clear_value y; revert y; intro _) | (with_reducible apply keep_setSeqs)
                 | (with_reducible refine keep_ite ?_ ?_) | split | (dsimp only)
                 | (with_reducible refine keep_mk ?_ rfl rfl rfl rfl rfl rfl rfl rfl rfl ?_ ?_ ?_ ?_ ?_ ?_ ?_ ?_ ?_ ?_ ?_ ?_ ?_ ?_ ?_ ?_ ?_ ?_))

theorem keep_fillSlot {P : Area → Prop} {z : State} {s : State} {a_e : LogEnt} {a_i : Nat} (h : Keeps P z s)
    (krings : P .rings := by assumption) (klog : P .log := by assumption) :
    Keeps P z (fillSlot s a_e a_i) := by
  unfold fillSlot
  repeat' (first | (with_reducible assumption) | (exact Or.inl (by assumption)) | (exact Or.inr rfl)
                 | (exact Or.inr ⟨rfl, rfl, rfl, rfl⟩) | (intro)
                 | (extract_lets +onlyGivenNames y; refine keep_cut (y := y) ?_ ?_; (focus (dsimp only [y]; clear y)); rotate_left; (focus (clear_value y; revert y; intro _ _)))
                 | (extract_lets +onlyGivenNames y; refine keep_cut1 (y := y) ?_ ?_; (focus (dsimp only [y]; clear y)); rotate_left; (focus (clear_value y; revert y; intro _ _)))
                 | (extract_lets +onlyGivenNames y; refine keep_cut2 (y := y) ?_ ?_; (focus (dsimp only [y]; clear y)); rotate_left; (focus (clear_value y; revert y; intro _ _)))
                 | (extract_lets +onlyGivenNames y; clear_value y; revert y; intro _) | (with_reducible apply keep_setF)
                 | (with_reducible apply keep_seqOrder) | (with_reducible apply keep_raise)
                 | (with_reducible apply keep_escalate) | (with_reducible refine keep_ite ?_ ?_) | split | (dsimp only)
                 | (with_reducible refine keep_mk ?_ rfl rfl rfl rfl rfl rfl rfl rfl rfl ?_ ?_ ?_ ?_ ?_ ?_ ?_ ?_ ?_ ?_ ?_ ?_ ?_ ?_ ?_ ?_ ?_ ?_))

theorem keep_loseEntry {P : Area → Prop} {z : State} {s : State} (h : Keeps P z s) (krings : P .rings := by assumption) :
    Keeps P z (loseEntry s) := by
  unfold loseEntry
  repeat' (first | (with_reducible assumption) | (intro)
                 | (extract_lets +onlyGivenNames y; refine keep_cut (y := y) ?_ ?_; (focus (dsimp only [y]; clear y)); rotate_left; (focus (clear_value y; revert y; intro _ _)))
                 | (extract_lets +onlyGivenNames y; refine keep_cut1 (y := y) ?_ ?_; (focus (dsimp only [y]; clear y)); rotate_left; (focus (clear_value y; revert y; intro _ _)))
                 | (extract_lets +onlyGivenNames y; refine keep_cut2 (y := y) ?_ ?_; (focus (dsimp only [y]; clear y)); rotate_left; (focus (clear_value y; revert y; intro _ _)))
                 | (extract_lets +onlyGivenNames y; clear_value y; revert y; intro _) | (with_reducible apply keep_satF)
                 | (with_reducible apply keep_setF) | (with_reducible apply keep_noteRose) | (with_reducible apply keep_raise)
                 | split | (dsimp only))

theorem keep_placeEntry {P : Area → Prop} {z : State} {s : State} {a_e : LogEnt} (h : Keeps P z s)
    (krings : P .rings := by assumption) (klog : P .log := by assumption) :
    Keeps P z (placeEntry s a_e) := by
  unfold placeEntry
  repeat' (first | (with_reducible assumption) | (exact Or.inl (by assumption)) | (exact Or.inr rfl)
                 | (exact Or.inr ⟨rfl, rfl, rfl, rfl⟩) | (intro)
                 | (extract_lets +onlyGivenNames y; refine keep_cut (y := y) ?_ ?_; (focus (dsimp only [y]; clear y)); rotate_left; (focus (clear_value y; revert y; intro _ _)))
                 | (extract_lets +onlyGivenNames y; refine keep_cut1 (y := y) ?_ ?_; (focus (dsimp only [y]; clear y)); rotate_left; (focus (clear_value y; revert y; intro _ _)))
                 | (extract_lets +onlyGivenNames y; refine keep_cut2 (y := y) ?_ ?_; (focus (dsimp only [y]; clear y)); rotate_left; (focus (clear_value y; revert y; intro _ _)))
                 | (extract_lets +onlyGivenNames y; clear_value y; revert y; intro _) | (with_reducible apply keep_fillSlot)
                 | (with_reducible apply keep_loseEntry) | (with_reducible apply keep_setF)
                 | (with_reducible refine keep_ite ?_ ?_) | (with_reducible apply keep_foldl)
                 | (with_reducible apply keep_foldl1) | split | (dsimp only)
                 | (with_reducible refine keep_mk ?_ rfl rfl rfl rfl rfl rfl rfl rfl rfl ?_ ?_ ?_ ?_ ?_ ?_ ?_ ?_ ?_ ?_ ?_ ?_ ?_ ?_ ?_ ?_ ?_ ?_))

theorem keep_logLow {P : Area → Prop} {z : State} {s : State} {a_e : LogEnt} (h : Keeps P z s)
    (krings : P .rings := by assumption) (klog : P .log := by assumption) :
    Keeps P z (logLow s a_e) := by
  unfold logLow
  repeat' (first | (with_reducible assumption) | (exact Or.inl (by assumption)) | (exact Or.inr rfl)
                 | (exact Or.inr ⟨rfl, rfl, rfl, rfl⟩) | (intro)
                 | (extract_lets +onlyGivenNames y; refine keep_cut (y := y) ?_ ?_; (focus (dsimp only [y]; clear y)); rotate_left; (focus (clear_value y; revert y; intro _ _)))
                 | (extract_lets +onlyGivenNames y; refine keep_cut1 (y := y) ?_ ?_; (focus (dsimp only [y]; clear y)); rotate_left; (focus (clear_value y; revert y; intro _ _)))
                 | (extract_lets +onlyGivenNames y; refine keep_cut2 (y := y) ?_ ?_; (focus (dsimp only [y]; clear y)); rotate_left; (focus (clear_value y; revert y; intro _ _)))
                 | (extract_lets +onlyGivenNames y; clear_value y; revert y; intro _) | (with_reducible apply keep_setF)
                 | (with_reducible apply keep_repeatSlot) | (with_reducible apply keep_placeEntry)
                 | (with_reducible apply keep_foldl) | (with_reducible apply keep_foldl1) | split | (dsimp only)
                 | (with_reducible refine keep_mk ?_ rfl rfl rfl rfl rfl rfl rfl rfl rfl ?_ ?_ ?_ ?_ ?_ ?_ ?_ ?_ ?_ ?_ ?_ ?_ ?_ ?_ ?_ ?_ ?_ ?_))

theorem keep_logHigh {P : Area → Prop} {z : State} {s : State} {a_e : LogEnt} (h : Keeps P z s)
    (krings : P .rings := by assumption) (klog : P .log := by assumption) :
    Keeps P z (logHigh s a_e) := by
  unfold logHigh
  repeat' (first | (with_reducible assumption) | (exact Or.inl (by assumption)) | (exact Or.inr rfl)
                 | (exact Or.inr ⟨rfl, rfl, rfl, rfl⟩) | (intro)
                 | (extract_lets +onlyGivenNames y; refine keep_cut (y := y) ?_ ?_; (focus (dsimp only [y]; clear y)); rotate_left; (focus (clear_value y; revert y; intro _ _)))
                 | (extract_lets +onlyGivenNames y; refine keep_cut1 (y := y) ?_ ?_; (focus (dsimp only [y]; clear y)); rotate_left; (focus (clear_value y; revert y; intro _ _)))
                 | (extract_lets +onlyGivenNames y; refine keep_cut2 (y := y) ?_ ?_; (focus (dsimp only [y]; clear y)); rotate_left; (focus (clear_value y; revert y; intro _ _)))
                 | (extract_lets +onlyGivenNames y; clear_value y; revert y; intro _) | (with_reducible apply keep_setF)
                 | (with_reducible apply keep_repeatSlot) | (with_reducible apply keep_raise)
                 | (with_reducible apply keep_placeEntry) | (with_reducible refine keep_ite ?_ ?_) | split | (dsimp only)
                 | (with_reducible refine keep_mk ?_ rfl rfl rfl rfl rfl rfl rfl rfl rfl ?_ ?_ ?_ ?_ ?_ ?_ ?_ ?_ ?_ ?_ ?_ ?_ ?_ ?_ ?_ ?_ ?_ ?_))

theorem keep_noteDeferred {P : Area → Prop} {z : State} {s : State} {a_e : LogEnt} (h : Keeps P z s)
    (ktwins : P .twins := by assumption) :
    Keeps P z (noteDeferred s a_e) := by
  unfold noteDeferred
  repeat' (first | (with_reducible assumption) | (exact Or.inl (by assumption)) | (exact Or.inr rfl)
                 | (exact Or.inr ⟨rfl, rfl, rfl, rfl⟩) | (intro)
                 | (extract_lets +onlyGivenNames y; refine keep_cut (y := y) ?_ ?_; (focus (dsimp only [y]; clear y)); rotate_left; (focus (clear_value y; revert y; intro _ _)))
                 | (extract_lets +onlyGivenNames y; refine keep_cut1 (y := y) ?_ ?_; (focus (dsimp only [y]; clear y)); rotate_left; (focus (clear_value y; revert y; intro _ _)))
                 | (extract_lets +onlyGivenNames y; refine keep_cut2 (y := y) ?_ ?_; (focus (dsimp only [y]; clear y)); rotate_left; (focus (clear_value y; revert y; intro _ _)))
                 | (extract_lets +onlyGivenNames y; clear_value y; revert y; intro _) | (with_reducible refine keep_ite ?_ ?_)
                 | split | (dsimp only)
                 | (with_reducible refine keep_mk ?_ rfl rfl rfl rfl rfl rfl rfl rfl rfl ?_ ?_ ?_ ?_ ?_ ?_ ?_ ?_ ?_ ?_ ?_ ?_ ?_ ?_ ?_ ?_ ?_ ?_))

theorem keep_logErr {P : Area → Prop} {z : State} {s : State} {a_e : LogEnt} (h : Keeps P z s)
    (krings : P .rings := by assumption) (ktwins : P .twins := by assumption) (klog : P .log := by assumption) :
    Keeps P z (logErr s a_e) := by
  unfold logErr
  repeat' (first | (with_reducible assumption) | (intro)
                 | (extract_lets +onlyGivenNames y; refine keep_cut (y := y) ?_ ?_; (focus (dsimp only [y]; clear y)); rotate_left; (focus (clear_value y; revert y; intro _ _)))
                 | (extract_lets +onlyGivenNames y; refine keep_cut1 (y := y) ?_ ?_; (focus (dsimp only [y]; clear y)); rotate_left; (focus (clear_value y; revert y; intro _ _)))
                 | (extract_lets +onlyGivenNames y; refine keep_cut2 (y := y) ?_ ?_; (focus (dsimp only [y]; clear y)); rotate_left; (focus (clear_value y; revert y; intro _ _)))
                 | (extract_lets +onlyGivenNames y; clear_value y; revert y; intro _) | (with_reducible apply keep_noteDeferred)
                 | (with_reducible apply keep_vfSummary) | (with_reducible apply keep_satF) | (with_reducible apply keep_logLow)
                 | (with_reducible apply keep_logHigh) | (with_reducible refine keep_ite ?_ ?_) | split | (dsimp only))

theorem keep_logC {P : Area → Prop} {z : State} {s : State} {a_die : Nat} {a_reason : Nat} {a_fn : Nat} {a_inst : Nat}
    {a_detail : Nat} (h : Keeps P z s) (krings : P .rings := by assumption) (ktwins : P .twins := by assumption)
    (klog : P .log := by assumption) :
    Keeps P z (logC s a_die a_reason a_fn a_inst a_detail) := by
  unfold logC
  repeat' (first | (with_reducible assumption) | (intro) | (with_reducible apply keep_logErr) | split | (dsimp only))

theorem keep_logD {P : Area → Prop} {z : State} {s : State} {a_die : Nat} {a_reason : Nat} {a_fn : Nat} {a_inst : Nat}
    {a_detail : Nat} (h : Keeps P z s) (krings : P .rings := by assumption) (ktwins : P .twins := by assumption)
    (klog : P .log := by assumption) :
    Keeps P z (logD s a_die a_reason a_fn a_inst a_detail) := by
  unfold logD
  repeat' (first | (with_reducible assumption) | (intro) | (with_reducible apply keep_logErr) | split | (dsimp only))

theorem keep_logWWR {P : Area → Prop} {z : State} {s : State} {a_fn : Nat} {a_off : Nat} (h : Keeps P z s)
    (krings : P .rings := by assumption) (ktwins : P .twins := by assumption) (klog : P .log := by assumption) :
    Keeps P z (logWWR s a_fn a_off) := by
  unfold logWWR
  repeat' (first | (with_reducible assumption) | (intro) | (with_reducible apply keep_logC) | split | (dsimp only))

theorem keep_logIgn {P : Area → Prop} {z : State} {s : State} {a_fn : Nat} {a_off : Nat} (h : Keeps P z s)
    (krings : P .rings := by assumption) (ktwins : P .twins := by assumption) (klog : P .log := by assumption) :
    Keeps P z (logIgn s a_fn a_off) := by
  unfold logIgn
  repeat' (first | (with_reducible assumption) | (intro) | (with_reducible apply keep_logC) | split | (dsimp only))

theorem keep_answer {P : Area → Prop} {z : State} {s : State} {a_code : Nat} {a_data : Nat} (h : Keeps P z s) :
    Keeps P z (answer s a_code a_data) := by
  unfold answer
  repeat' (first | (with_reducible assumption) | (intro) | (with_reducible apply keep_emitOut) | split | (dsimp only))

theorem keep_noteSusp {P : Area → Prop} {z : State} {s : State} {a_key : Nat} (h : Keeps P z s)
    (kdests : P .dests := by assumption) :
    Keeps P z (noteSusp s a_key) := by
  unfold noteSusp
  repeat' (first | (with_reducible assumption) | (exact Or.inl (by assumption)) | (exact Or.inr rfl)
                 | (exact Or.inr ⟨rfl, rfl, rfl, rfl⟩) | (intro)
                 | (extract_lets +onlyGivenNames y; refine keep_cut (y := y) ?_ ?_; (focus (dsimp only [y]; clear y)); rotate_left; (focus (clear_value y; revert y; intro _ _)))
                 | (extract_lets +onlyGivenNames y; refine keep_cut1 (y := y) ?_ ?_; (focus (dsimp only [y]; clear y)); rotate_left; (focus (clear_value y; revert y; intro _ _)))
                 | (extract_lets +onlyGivenNames y; refine keep_cut2 (y := y) ?_ ?_; (focus (dsimp only [y]; clear y)); rotate_left; (focus (clear_value y; revert y; intro _ _)))
                 | (extract_lets +onlyGivenNames y; clear_value y; revert y; intro _) | (with_reducible refine keep_ite ?_ ?_)
                 | split | (dsimp only)
                 | (with_reducible refine keep_mk ?_ rfl rfl rfl rfl rfl rfl rfl rfl rfl ?_ ?_ ?_ ?_ ?_ ?_ ?_ ?_ ?_ ?_ ?_ ?_ ?_ ?_ ?_ ?_ ?_ ?_))

end Sys2Proof.Machine
end

