-- ==== Sys2Proof/Laws/KeepToken.lean ====
section
/-! SUPPORT. What the operations of Machine/Token.lean keep (Laws/Keep.lean), one lemma per operation. -/

set_option linter.tactic.unusedName false
set_option linter.all false
set_option Elab.async false

namespace Sys2Proof.Machine

theorem keep_dropAtEdge {P : Area → Prop} {z : State} {s : State} {a_e : Nat × Nat} (h : Keeps P z s) :
    Keeps P z (dropAtEdge s a_e) := by
  unfold dropAtEdge
  repeat' (first | (with_reducible assumption) | (intro) | (with_reducible apply keep_satF) | split | (dsimp only))

theorem keep_logCtx {P : Area → Prop} {z : State} {s : State} {a_trav : Nat} {a_ctx : Nat} {a_status : Nat}
    {a_reason : Nat} (h : Keeps P z s) (krings : P .rings := by assumption) (ktwins : P .twins := by assumption)
    (klog : P .log := by assumption) :
    Keeps P z (logCtx s a_trav a_ctx a_status a_reason) := by
  unfold logCtx
  repeat' (first | (with_reducible assumption) | (exact Or.inl (by assumption)) | (exact Or.inr rfl)
                 | (exact Or.inr ⟨rfl, rfl, rfl, rfl⟩) | (intro)
                 | (extract_lets +onlyGivenNames y; refine keep_cut (y := y) ?_ ?_; (focus (dsimp only [y]; clear y)); rotate_left; (focus (clear_value y; revert y; intro _ _)))
                 | (extract_lets +onlyGivenNames y; refine keep_cut1 (y := y) ?_ ?_; (focus (dsimp only [y]; clear y)); rotate_left; (focus (clear_value y; revert y; intro _ _)))
                 | (extract_lets +onlyGivenNames y; refine keep_cut2 (y := y) ?_ ?_; (focus (dsimp only [y]; clear y)); rotate_left; (focus (clear_value y; revert y; intro _ _)))
                 | (extract_lets +onlyGivenNames y; clear_value y; revert y; intro _) | (with_reducible apply keep_logErr)
                 | (with_reducible refine keep_ite ?_ ?_) | split | (dsimp only)
                 | (with_reducible refine keep_mk ?_ rfl rfl rfl rfl rfl rfl rfl rfl rfl ?_ ?_ ?_ ?_ ?_ ?_ ?_ ?_ ?_ ?_ ?_ ?_ ?_ ?_ ?_ ?_ ?_ ?_))

theorem keep_modFab {P : Area → Prop} {z : State} {s : State} {a_f : Fab → Fab} (h : Keeps P z s)
    (kfabric : P .fabric := by assumption) :
    Keeps P z (modFab s a_f) := by
  unfold modFab
  repeat' (first | (with_reducible assumption) | (exact Or.inl (by assumption)) | (exact Or.inr rfl)
                 | (exact Or.inr ⟨rfl, rfl, rfl, rfl⟩) | (intro)
                 | (extract_lets +onlyGivenNames y; refine keep_cut (y := y) ?_ ?_; (focus (dsimp only [y]; clear y)); rotate_left; (focus (clear_value y; revert y; intro _ _)))
                 | (extract_lets +onlyGivenNames y; refine keep_cut1 (y := y) ?_ ?_; (focus (dsimp only [y]; clear y)); rotate_left; (focus (clear_value y; revert y; intro _ _)))
                 | (extract_lets +onlyGivenNames y; refine keep_cut2 (y := y) ?_ ?_; (focus (dsimp only [y]; clear y)); rotate_left; (focus (clear_value y; revert y; intro _ _)))
                 | (extract_lets +onlyGivenNames y; clear_value y; revert y; intro _) | split | (dsimp only)
                 | (with_reducible refine keep_mk ?_ rfl rfl rfl rfl rfl rfl rfl rfl rfl ?_ ?_ ?_ ?_ ?_ ?_ ?_ ?_ ?_ ?_ ?_ ?_ ?_ ?_ ?_ ?_ ?_ ?_))

theorem keep_modInv {P : Area → Prop} {z : State} {s : State} {a_n : Nat} {a_f : Inv → Inv} (h : Keeps P z s)
    (kfabric : P .fabric := by assumption) :
    Keeps P z (modInv s a_n a_f) := by
  unfold modInv
  repeat' (first | (with_reducible assumption) | (exact Or.inl (by assumption)) | (exact Or.inr rfl)
                 | (exact Or.inr ⟨rfl, rfl, rfl, rfl⟩) | (intro)
                 | (extract_lets +onlyGivenNames y; refine keep_cut (y := y) ?_ ?_; (focus (dsimp only [y]; clear y)); rotate_left; (focus (clear_value y; revert y; intro _ _)))
                 | (extract_lets +onlyGivenNames y; refine keep_cut1 (y := y) ?_ ?_; (focus (dsimp only [y]; clear y)); rotate_left; (focus (clear_value y; revert y; intro _ _)))
                 | (extract_lets +onlyGivenNames y; refine keep_cut2 (y := y) ?_ ?_; (focus (dsimp only [y]; clear y)); rotate_left; (focus (clear_value y; revert y; intro _ _)))
                 | (extract_lets +onlyGivenNames y; clear_value y; revert y; intro _) | (with_reducible apply keep_modFab)
                 | split | (dsimp only)
                 | (with_reducible refine keep_mk ?_ rfl rfl rfl rfl rfl rfl rfl rfl rfl ?_ ?_ ?_ ?_ ?_ ?_ ?_ ?_ ?_ ?_ ?_ ?_ ?_ ?_ ?_ ?_ ?_ ?_))

theorem keep_markFail {P : Area → Prop} {z : State} {s : State} {a_trav : Nat} {a_ctx : Nat} {a_status : Nat}
    {a_reason : Nat} (h : Keeps P z s) (kfabric : P .fabric := by assumption) (krings : P .rings := by assumption)
    (ktwins : P .twins := by assumption) (klog : P .log := by assumption) :
    Keeps P z (markFail s a_trav a_ctx a_status a_reason) := by
  unfold markFail
  repeat' (first | (with_reducible assumption) | (exact Or.inl (by assumption)) | (exact Or.inr rfl)
                 | (exact Or.inr ⟨rfl, rfl, rfl, rfl⟩) | (intro)
                 | (extract_lets +onlyGivenNames y; refine keep_cut (y := y) ?_ ?_; (focus (dsimp only [y]; clear y)); rotate_left; (focus (clear_value y; revert y; intro _ _)))
                 | (extract_lets +onlyGivenNames y; refine keep_cut1 (y := y) ?_ ?_; (focus (dsimp only [y]; clear y)); rotate_left; (focus (clear_value y; revert y; intro _ _)))
                 | (extract_lets +onlyGivenNames y; refine keep_cut2 (y := y) ?_ ?_; (focus (dsimp only [y]; clear y)); rotate_left; (focus (clear_value y; revert y; intro _ _)))
                 | (extract_lets +onlyGivenNames y; clear_value y; revert y; intro _) | (with_reducible apply keep_modInv)
                 | (with_reducible apply keep_logCtx) | (with_reducible apply keep_modFab)
                 | (with_reducible refine keep_ite ?_ ?_) | split | (dsimp only)
                 | (with_reducible refine keep_mk ?_ rfl rfl rfl rfl rfl rfl rfl rfl rfl ?_ ?_ ?_ ?_ ?_ ?_ ?_ ?_ ?_ ?_ ?_ ?_ ?_ ?_ ?_ ?_ ?_ ?_))

theorem keep_setOut {P : Area → Prop} {z : State} {s : State} {a_src : Nat} {a_es : List OutEnt} (h : Keeps P z s)
    (kfabric : P .fabric := by assumption) :
    Keeps P z (setOut s a_src a_es) := by
  unfold setOut
  repeat' (first | (with_reducible assumption) | (exact Or.inl (by assumption)) | (exact Or.inr rfl)
                 | (exact Or.inr ⟨rfl, rfl, rfl, rfl⟩) | (intro)
                 | (extract_lets +onlyGivenNames y; refine keep_cut (y := y) ?_ ?_; (focus (dsimp only [y]; clear y)); rotate_left; (focus (clear_value y; revert y; intro _ _)))
                 | (extract_lets +onlyGivenNames y; refine keep_cut1 (y := y) ?_ ?_; (focus (dsimp only [y]; clear y)); rotate_left; (focus (clear_value y; revert y; intro _ _)))
                 | (extract_lets +onlyGivenNames y; refine keep_cut2 (y := y) ?_ ?_; (focus (dsimp only [y]; clear y)); rotate_left; (focus (clear_value y; revert y; intro _ _)))
                 | (extract_lets +onlyGivenNames y; clear_value y; revert y; intro _) | (with_reducible apply keep_modFab)
                 | (with_reducible refine keep_ite ?_ ?_) | split | (dsimp only)
                 | (with_reducible refine keep_mk ?_ rfl rfl rfl rfl rfl rfl rfl rfl rfl ?_ ?_ ?_ ?_ ?_ ?_ ?_ ?_ ?_ ?_ ?_ ?_ ?_ ?_ ?_ ?_ ?_ ?_))

theorem keep_pushOut {P : Area → Prop} {z : State} {s : State} {a_src : Nat} {a_e : OutEnt} (h : Keeps P z s)
    (kfabric : P .fabric := by assumption) :
    Keeps P z (pushOut s a_src a_e) := by
  unfold pushOut
  repeat' (first | (with_reducible assumption) | (intro) | (with_reducible apply keep_setOut) | split | (dsimp only))

theorem keep_pushHead {P : Area → Prop} {z : State} {s : State} {a_src : Nat} {a_cells : List Nat} {a_t : Token}
    (h : Keeps P z s) (kfabric : P .fabric := by assumption) :
    Keeps P z (pushHead s a_src a_cells a_t) := by
  unfold pushHead
  repeat' (first | (with_reducible assumption) | (intro) | (with_reducible apply keep_pushOut)
                 | (with_reducible apply keep_foldl) | (with_reducible apply keep_foldl1) | split | (dsimp only))

theorem keep_enqueue {P : Area → Prop} {z : State} {s : State} {a_dst : Nat} {a_src : Nat} {a_t : Token}
    (h : Keeps P z s) (kfabric : P .fabric := by assumption) :
    Keeps P z (enqueue s a_dst a_src a_t) := by
  unfold enqueue
  repeat' (first | (with_reducible assumption) | (exact Or.inl (by assumption)) | (exact Or.inr rfl)
                 | (exact Or.inr ⟨rfl, rfl, rfl, rfl⟩) | (intro)
                 | (extract_lets +onlyGivenNames y; refine keep_cut (y := y) ?_ ?_; (focus (dsimp only [y]; clear y)); rotate_left; (focus (clear_value y; revert y; intro _ _)))
                 | (extract_lets +onlyGivenNames y; refine keep_cut1 (y := y) ?_ ?_; (focus (dsimp only [y]; clear y)); rotate_left; (focus (clear_value y; revert y; intro _ _)))
                 | (extract_lets +onlyGivenNames y; refine keep_cut2 (y := y) ?_ ?_; (focus (dsimp only [y]; clear y)); rotate_left; (focus (clear_value y; revert y; intro _ _)))
                 | (extract_lets +onlyGivenNames y; have q : (_ : _) → _ := y; clear q; dsimp only [y]; clear y)
                 | (extract_lets +onlyGivenNames y; clear_value y; revert y; intro _) | (with_reducible apply keep_modFab)
                 | (with_reducible apply keep_setF) | (with_reducible apply keep_maxF) | split | (dsimp only)
                 | (with_reducible refine keep_mk ?_ rfl rfl rfl rfl rfl rfl rfl rfl rfl ?_ ?_ ?_ ?_ ?_ ?_ ?_ ?_ ?_ ?_ ?_ ?_ ?_ ?_ ?_ ?_ ?_ ?_))

theorem keep_arrive {P : Area → Prop} {z : State} {s : State} {a_dst : Nat} {a_src : Nat} {a_t : Token} (h : Keeps P z s)
    (kfabric : P .fabric := by assumption) (ktwins : P .twins := by assumption) :
    Keeps P z (arrive s a_dst a_src a_t) := by
  unfold arrive
  repeat' (first | (with_reducible assumption) | (exact Or.inl (by assumption)) | (exact Or.inr rfl)
                 | (exact Or.inr ⟨rfl, rfl, rfl, rfl⟩) | (intro)
                 | (extract_lets +onlyGivenNames y; refine keep_cut (y := y) ?_ ?_; (focus (dsimp only [y]; clear y)); rotate_left; (focus (clear_value y; revert y; intro _ _)))
                 | (extract_lets +onlyGivenNames y; refine keep_cut1 (y := y) ?_ ?_; (focus (dsimp only [y]; clear y)); rotate_left; (focus (clear_value y; revert y; intro _ _)))
                 | (extract_lets +onlyGivenNames y; refine keep_cut2 (y := y) ?_ ?_; (focus (dsimp only [y]; clear y)); rotate_left; (focus (clear_value y; revert y; intro _ _)))
                 | (extract_lets +onlyGivenNames y; have q : (_ : _) → _ := y; clear q; dsimp only [y]; clear y)
                 | (extract_lets +onlyGivenNames y; clear_value y; revert y; intro _) | (with_reducible apply keep_enqueue)
                 | (with_reducible refine keep_ite ?_ ?_) | split | (dsimp only)
                 | (with_reducible refine keep_mk ?_ rfl rfl rfl rfl rfl rfl rfl rfl rfl ?_ ?_ ?_ ?_ ?_ ?_ ?_ ?_ ?_ ?_ ?_ ?_ ?_ ?_ ?_ ?_ ?_ ?_))

theorem keep_countOrphan {P : Area → Prop} {z : State} {s : State} {a_tile : Nat} {a_n : Nat} (h : Keeps P z s)
    (krings : P .rings := by assumption) :
    Keeps P z (countOrphan s a_tile a_n) := by
  unfold countOrphan
  repeat' (first | (with_reducible assumption) | (intro) | (with_reducible apply keep_raise) | (with_reducible apply keep_satF)
                 | (with_reducible refine keep_ite ?_ ?_) | split | (dsimp only))

end Sys2Proof.Machine
end

