-- ==== Sys2Proof/Laws/KeepComplete.lean ====
section
/-! SUPPORT. What the operations of Machine/Complete.lean keep (Laws/Keep.lean), one lemma per operation. -/

set_option linter.tactic.unusedName false
set_option linter.all false
set_option Elab.async false

namespace Sys2Proof.Machine

theorem keep_modRing {P : Area → Prop} {z : State} {s : State} {a_n : Nat} {a_f : Ring → Ring} (h : Keeps P z s)
    (krings : P .rings := by assumption) :
    Keeps P z (modRing s a_n a_f) := by
  unfold modRing
  repeat' (first | (with_reducible assumption) | (exact Or.inl (by assumption)) | (exact Or.inr rfl)
                 | (exact Or.inr ⟨rfl, rfl, rfl, rfl⟩) | (intro)
                 | (extract_lets +onlyGivenNames y; refine keep_cut (y := y) ?_ ?_; (focus (dsimp only [y]; clear y)); rotate_left; (focus (clear_value y; revert y; intro _ _)))
                 | (extract_lets +onlyGivenNames y; refine keep_cut1 (y := y) ?_ ?_; (focus (dsimp only [y]; clear y)); rotate_left; (focus (clear_value y; revert y; intro _ _)))
                 | (extract_lets +onlyGivenNames y; refine keep_cut2 (y := y) ?_ ?_; (focus (dsimp only [y]; clear y)); rotate_left; (focus (clear_value y; revert y; intro _ _)))
                 | (extract_lets +onlyGivenNames y; clear_value y; revert y; intro _) | split | (dsimp only)
                 | (with_reducible refine keep_mk ?_ rfl rfl rfl rfl rfl rfl rfl rfl rfl ?_ ?_ ?_ ?_ ?_ ?_ ?_ ?_ ?_ ?_ ?_ ?_ ?_ ?_ ?_ ?_ ?_ ?_))

theorem keep_pushCompl {P : Area → Prop} {z : State} {s : State} {a_c : Compl} (h : Keeps P z s)
    (kdests : P .dests := by assumption) :
    Keeps P z (pushCompl s a_c) := by
  unfold pushCompl
  repeat' (first | (with_reducible assumption) | (exact Or.inl (by assumption)) | (exact Or.inr rfl)
                 | (exact Or.inr ⟨rfl, rfl, rfl, rfl⟩) | (intro)
                 | (extract_lets +onlyGivenNames y; refine keep_cut (y := y) ?_ ?_; (focus (dsimp only [y]; clear y)); rotate_left; (focus (clear_value y; revert y; intro _ _)))
                 | (extract_lets +onlyGivenNames y; refine keep_cut1 (y := y) ?_ ?_; (focus (dsimp only [y]; clear y)); rotate_left; (focus (clear_value y; revert y; intro _ _)))
                 | (extract_lets +onlyGivenNames y; refine keep_cut2 (y := y) ?_ ?_; (focus (dsimp only [y]; clear y)); rotate_left; (focus (clear_value y; revert y; intro _ _)))
                 | (extract_lets +onlyGivenNames y; clear_value y; revert y; intro _) | split | (dsimp only)
                 | (with_reducible refine keep_mk ?_ rfl rfl rfl rfl rfl rfl rfl rfl rfl ?_ ?_ ?_ ?_ ?_ ?_ ?_ ?_ ?_ ?_ ?_ ?_ ?_ ?_ ?_ ?_ ?_ ?_))

theorem keep_countEnd {P : Area → Prop} {z : State} {s : State} {a_sq : Nat} {a_status : Nat} {a_reason : Nat}
    (h : Keeps P z s) (krings : P .rings := by assumption) :
    Keeps P z (countEnd s a_sq a_status a_reason) := by
  unfold countEnd
  repeat' (first | (with_reducible assumption) | (intro) | (with_reducible apply keep_raise) | (with_reducible apply keep_satF)
                 | (with_reducible refine keep_ite ?_ ?_) | split | (dsimp only))

theorem keep_complete {P : Area → Prop} {z : State} {s : State} {a_sq : Nat} {a_cq : Nat} {a_tag : Nat} {a_opcode : Nat}
    {a_status : Nat} {a_reason : Nat} {a_r0 : Nat} {a_r1 : Nat} (h : Keeps P z s) (kdests : P .dests := by assumption)
    (krings : P .rings := by assumption) :
    Keeps P z (complete s a_sq a_cq a_tag a_opcode a_status a_reason a_r0 a_r1) := by
  unfold complete
  repeat' (first | (with_reducible assumption) | (intro) | (with_reducible apply keep_pushCompl)
                 | (with_reducible apply keep_countEnd) | split | (dsimp only))

end Sys2Proof.Machine
end

