-- ==== Sys2Proof/Laws/KeepBmk.lean ====
section
/-! SUPPORT. What the operations of Machine/Bmk.lean keep (Laws/Keep.lean), one lemma per operation. -/

set_option linter.tactic.unusedName false
set_option linter.all false
set_option Elab.async false

namespace Sys2Proof.Machine

theorem keep_modBmk {P : Area → Prop} {z : State} {s : State} {a_f : Bmk → Bmk} (h : Keeps P z s)
    (kbmk : P .bmk := by assumption) :
    Keeps P z (modBmk s a_f) := by
  unfold modBmk
  repeat' (first | (with_reducible assumption) | (exact Or.inl (by assumption)) | (exact Or.inr rfl)
                 | (exact Or.inr ⟨rfl, rfl, rfl, rfl⟩) | (intro)
                 | (extract_lets +onlyGivenNames y; refine keep_cut (y := y) ?_ ?_; (focus (dsimp only [y]; clear y)); rotate_left; (focus (clear_value y; revert y; intro _ _)))
                 | (extract_lets +onlyGivenNames y; refine keep_cut1 (y := y) ?_ ?_; (focus (dsimp only [y]; clear y)); rotate_left; (focus (clear_value y; revert y; intro _ _)))
                 | (extract_lets +onlyGivenNames y; refine keep_cut2 (y := y) ?_ ?_; (focus (dsimp only [y]; clear y)); rotate_left; (focus (clear_value y; revert y; intro _ _)))
                 | (extract_lets +onlyGivenNames y; clear_value y; revert y; intro _) | split | (dsimp only)
                 | (with_reducible refine keep_mk ?_ rfl rfl rfl rfl rfl rfl rfl rfl rfl ?_ ?_ ?_ ?_ ?_ ?_ ?_ ?_ ?_ ?_ ?_ ?_ ?_ ?_ ?_ ?_ ?_ ?_))

theorem keep_sendG {P : Area → Prop} {z : State} {s : State} {a_ds : List Nat} {a_m : GMsg} (h : Keeps P z s)
    (kbmk : P .bmk := by assumption) :
    Keeps P z (sendG s a_ds a_m) := by
  unfold sendG
  repeat' (first | (with_reducible assumption) | (exact Or.inl (by assumption)) | (exact Or.inr rfl)
                 | (exact Or.inr ⟨rfl, rfl, rfl, rfl⟩) | (intro)
                 | (extract_lets +onlyGivenNames y; refine keep_cut (y := y) ?_ ?_; (focus (dsimp only [y]; clear y)); rotate_left; (focus (clear_value y; revert y; intro _ _)))
                 | (extract_lets +onlyGivenNames y; refine keep_cut1 (y := y) ?_ ?_; (focus (dsimp only [y]; clear y)); rotate_left; (focus (clear_value y; revert y; intro _ _)))
                 | (extract_lets +onlyGivenNames y; refine keep_cut2 (y := y) ?_ ?_; (focus (dsimp only [y]; clear y)); rotate_left; (focus (clear_value y; revert y; intro _ _)))
                 | (extract_lets +onlyGivenNames y; clear_value y; revert y; intro _) | (with_reducible apply keep_modBmk)
                 | (with_reducible apply keep_dropAtEdge) | (with_reducible apply keep_foldl)
                 | (with_reducible apply keep_foldl1) | split | (dsimp only)
                 | (with_reducible refine keep_mk ?_ rfl rfl rfl rfl rfl rfl rfl rfl rfl ?_ ?_ ?_ ?_ ?_ ?_ ?_ ?_ ?_ ?_ ?_ ?_ ?_ ?_ ?_ ?_ ?_ ?_))

theorem keep_sendSource {P : Area → Prop} {z : State} {s : State} {a_a : Nat} {a_ds : List Nat} {a_m : GMsg}
    (h : Keeps P z s) (kbmk : P .bmk := by assumption) :
    Keeps P z (sendSource s a_a a_ds a_m) := by
  unfold sendSource
  repeat' (first | (with_reducible assumption) | (exact Or.inl (by assumption)) | (exact Or.inr rfl)
                 | (exact Or.inr ⟨rfl, rfl, rfl, rfl⟩) | (intro)
                 | (extract_lets +onlyGivenNames y; refine keep_cut (y := y) ?_ ?_; (focus (dsimp only [y]; clear y)); rotate_left; (focus (clear_value y; revert y; intro _ _)))
                 | (extract_lets +onlyGivenNames y; refine keep_cut1 (y := y) ?_ ?_; (focus (dsimp only [y]; clear y)); rotate_left; (focus (clear_value y; revert y; intro _ _)))
                 | (extract_lets +onlyGivenNames y; refine keep_cut2 (y := y) ?_ ?_; (focus (dsimp only [y]; clear y)); rotate_left; (focus (clear_value y; revert y; intro _ _)))
                 | (extract_lets +onlyGivenNames y; clear_value y; revert y; intro _) | (with_reducible apply keep_dropAtEdge)
                 | (with_reducible apply keep_sendG) | split | (dsimp only)
                 | (with_reducible refine keep_mk ?_ rfl rfl rfl rfl rfl rfl rfl rfl rfl ?_ ?_ ?_ ?_ ?_ ?_ ?_ ?_ ?_ ?_ ?_ ?_ ?_ ?_ ?_ ?_ ?_ ?_))

theorem keep_markIncluded {P : Area → Prop} {z : State} {s : State} (h : Keeps P z s) :
    Keeps P z (markIncluded s) := by
  unfold markIncluded
  repeat' (first | (with_reducible assumption) | (intro) | (with_reducible apply keep_setF)
                 | (with_reducible refine keep_ite ?_ ?_) | (with_reducible apply keep_foldl)
                 | (with_reducible apply keep_foldl1) | split | (dsimp only))

theorem keep_recomputeG {P : Area → Prop} {z : State} {s : State} {a_acc : Nat} (h : Keeps P z s)
    (kbmk : P .bmk := by assumption) :
    Keeps P z (recomputeG s a_acc) := by
  unfold recomputeG
  repeat' (first | (with_reducible assumption) | (exact Or.inl (by assumption)) | (exact Or.inr rfl)
                 | (exact Or.inr ⟨rfl, rfl, rfl, rfl⟩) | (intro)
                 | (extract_lets +onlyGivenNames y; refine keep_cut (y := y) ?_ ?_; (focus (dsimp only [y]; clear y)); rotate_left; (focus (clear_value y; revert y; intro _ _)))
                 | (extract_lets +onlyGivenNames y; refine keep_cut1 (y := y) ?_ ?_; (focus (dsimp only [y]; clear y)); rotate_left; (focus (clear_value y; revert y; intro _ _)))
                 | (extract_lets +onlyGivenNames y; refine keep_cut2 (y := y) ?_ ?_; (focus (dsimp only [y]; clear y)); rotate_left; (focus (clear_value y; revert y; intro _ _)))
                 | (extract_lets +onlyGivenNames y; clear_value y; revert y; intro _) | (with_reducible apply keep_markIncluded)
                 | (with_reducible apply keep_modBmk) | (with_reducible apply keep_setF) | (with_reducible apply keep_sendG)
                 | (with_reducible refine keep_ite ?_ ?_) | split | (dsimp only)
                 | (with_reducible refine keep_mk ?_ rfl rfl rfl rfl rfl rfl rfl rfl rfl ?_ ?_ ?_ ?_ ?_ ?_ ?_ ?_ ?_ ?_ ?_ ?_ ?_ ?_ ?_ ?_ ?_ ?_))

theorem keep_fireStake {P : Area → Prop} {z : State} {s : State} {a_n : Nat} {a_d : Nat} {a_h : Nat}
    {a_lost : Option Nat} (h : Keeps P z s) (kbmk : P .bmk := by assumption) (kfabric : P .fabric := by assumption)
    (krings : P .rings := by assumption) (ktwins : P .twins := by assumption) (klog : P .log := by assumption) :
    Keeps P z (fireStake s a_n a_d a_h a_lost) := by
  unfold fireStake
  repeat' (first | (with_reducible assumption) | (exact Or.inl (by assumption)) | (exact Or.inr rfl)
                 | (exact Or.inr ⟨rfl, rfl, rfl, rfl⟩) | (intro)
                 | (extract_lets +onlyGivenNames y; refine keep_cut (y := y) ?_ ?_; (focus (dsimp only [y]; clear y)); rotate_left; (focus (clear_value y; revert y; intro _ _)))
                 | (extract_lets +onlyGivenNames y; refine keep_cut1 (y := y) ?_ ?_; (focus (dsimp only [y]; clear y)); rotate_left; (focus (clear_value y; revert y; intro _ _)))
                 | (extract_lets +onlyGivenNames y; refine keep_cut2 (y := y) ?_ ?_; (focus (dsimp only [y]; clear y)); rotate_left; (focus (clear_value y; revert y; intro _ _)))
                 | (extract_lets +onlyGivenNames y; clear_value y; revert y; intro _) | (with_reducible apply keep_satF)
                 | (with_reducible apply keep_setF) | (with_reducible apply keep_modBmk) | (with_reducible apply keep_raise)
                 | (with_reducible apply keep_setOut) | (with_reducible apply keep_pushHead)
                 | (with_reducible apply keep_markFail) | (with_reducible refine keep_ite ?_ ?_) | split | (dsimp only)
                 | (with_reducible refine keep_mk ?_ rfl rfl rfl rfl rfl rfl rfl rfl rfl ?_ ?_ ?_ ?_ ?_ ?_ ?_ ?_ ?_ ?_ ?_ ?_ ?_ ?_ ?_ ?_ ?_ ?_))

theorem keep_fireGlobal {P : Area → Prop} {z : State} {s : State} {a_d : Nat} {a_g : Nat} (h : Keeps P z s)
    (kbmk : P .bmk := by assumption) (kfabric : P .fabric := by assumption) (krings : P .rings := by assumption)
    (ktwins : P .twins := by assumption) (klog : P .log := by assumption) :
    Keeps P z (fireGlobal s a_d a_g) := by
  unfold fireGlobal
  repeat' (first | (with_reducible assumption) | (intro) | (with_reducible apply keep_fireStake)
                 | (with_reducible refine keep_ite ?_ ?_) | (with_reducible apply keep_foldl)
                 | (with_reducible apply keep_foldl1) | split | (dsimp only))

theorem keep_fireSource {P : Area → Prop} {z : State} {s : State} {a_d : Nat} {a_src : Nat} {a_h : Nat} (h : Keeps P z s)
    (kbmk : P .bmk := by assumption) (kfabric : P .fabric := by assumption) (krings : P .rings := by assumption)
    (ktwins : P .twins := by assumption) (klog : P .log := by assumption) :
    Keeps P z (fireSource s a_d a_src a_h) := by
  unfold fireSource
  repeat' (first | (with_reducible assumption) | (intro) | (with_reducible apply keep_fireStake)
                 | (with_reducible refine keep_ite ?_ ?_) | (with_reducible apply keep_foldl)
                 | (with_reducible apply keep_foldl1) | split | (dsimp only))

theorem keep_fireLost {P : Area → Prop} {z : State} {s : State} {a_src : Nat} {a_reason : Nat} (h : Keeps P z s)
    (kbmk : P .bmk := by assumption) (kfabric : P .fabric := by assumption) (krings : P .rings := by assumption)
    (ktwins : P .twins := by assumption) (klog : P .log := by assumption) :
    Keeps P z (fireLost s a_src a_reason) := by
  unfold fireLost
  repeat' (first | (with_reducible assumption) | (exact Or.inl (by assumption)) | (exact Or.inr rfl)
                 | (exact Or.inr ⟨rfl, rfl, rfl, rfl⟩) | (intro)
                 | (extract_lets +onlyGivenNames y; refine keep_cut (y := y) ?_ ?_; (focus (dsimp only [y]; clear y)); rotate_left; (focus (clear_value y; revert y; intro _ _)))
                 | (extract_lets +onlyGivenNames y; refine keep_cut1 (y := y) ?_ ?_; (focus (dsimp only [y]; clear y)); rotate_left; (focus (clear_value y; revert y; intro _ _)))
                 | (extract_lets +onlyGivenNames y; refine keep_cut2 (y := y) ?_ ?_; (focus (dsimp only [y]; clear y)); rotate_left; (focus (clear_value y; revert y; intro _ _)))
                 | (extract_lets +onlyGivenNames y; clear_value y; revert y; intro _) | (with_reducible apply keep_fireStake)
                 | (with_reducible apply keep_setF) | (with_reducible refine keep_ite ?_ ?_) | (with_reducible apply keep_foldl)
                 | (with_reducible apply keep_foldl1) | split | (dsimp only)
                 | (with_reducible refine keep_mk ?_ rfl rfl rfl rfl rfl rfl rfl rfl rfl ?_ ?_ ?_ ?_ ?_ ?_ ?_ ?_ ?_ ?_ ?_ ?_ ?_ ?_ ?_ ?_ ?_ ?_))

theorem keep_sendLost {P : Area → Prop} {z : State} {s : State} {a_src : Nat} {a_reason : Nat} (h : Keeps P z s)
    (kfabric : P .fabric := by assumption) :
    Keeps P z (sendLost s a_src a_reason) := by
  unfold sendLost
  repeat' (first | (with_reducible assumption) | (intro)
                 | (extract_lets +onlyGivenNames y; refine keep_cut (y := y) ?_ ?_; (focus (dsimp only [y]; clear y)); rotate_left; (focus (clear_value y; revert y; intro _ _)))
                 | (extract_lets +onlyGivenNames y; refine keep_cut1 (y := y) ?_ ?_; (focus (dsimp only [y]; clear y)); rotate_left; (focus (clear_value y; revert y; intro _ _)))
                 | (extract_lets +onlyGivenNames y; refine keep_cut2 (y := y) ?_ ?_; (focus (dsimp only [y]; clear y)); rotate_left; (focus (clear_value y; revert y; intro _ _)))
                 | (extract_lets +onlyGivenNames y; clear_value y; revert y; intro _) | (with_reducible apply keep_pushHead)
                 | (with_reducible apply keep_foldl) | (with_reducible apply keep_foldl1) | split | (dsimp only))

theorem keep_detach {P : Area → Prop} {z : State} {s : State} {a_src : Nat} {a_reason : Nat} (h : Keeps P z s)
    (kbmk : P .bmk := by assumption) (kfabric : P .fabric := by assumption) (krings : P .rings := by assumption)
    (ktwins : P .twins := by assumption) (klog : P .log := by assumption) :
    Keeps P z (detach s a_src a_reason) := by
  unfold detach
  repeat' (first | (with_reducible assumption) | (exact Or.inl (by assumption)) | (exact Or.inr rfl)
                 | (exact Or.inr ⟨rfl, rfl, rfl, rfl⟩) | (intro)
                 | (extract_lets +onlyGivenNames y; refine keep_cut (y := y) ?_ ?_; (focus (dsimp only [y]; clear y)); rotate_left; (focus (clear_value y; revert y; intro _ _)))
                 | (extract_lets +onlyGivenNames y; refine keep_cut1 (y := y) ?_ ?_; (focus (dsimp only [y]; clear y)); rotate_left; (focus (clear_value y; revert y; intro _ _)))
                 | (extract_lets +onlyGivenNames y; refine keep_cut2 (y := y) ?_ ?_; (focus (dsimp only [y]; clear y)); rotate_left; (focus (clear_value y; revert y; intro _ _)))
                 | (extract_lets +onlyGivenNames y; clear_value y; revert y; intro _) | (with_reducible apply keep_sendLost)
                 | (with_reducible apply keep_setF) | (with_reducible apply keep_raise) | (with_reducible apply keep_modBmk)
                 | (with_reducible apply keep_fireLost) | (with_reducible apply keep_recomputeG)
                 | (with_reducible refine keep_ite ?_ ?_) | split | (dsimp only)
                 | (with_reducible refine keep_mk ?_ rfl rfl rfl rfl rfl rfl rfl rfl rfl ?_ ?_ ?_ ?_ ?_ ?_ ?_ ?_ ?_ ?_ ?_ ?_ ?_ ?_ ?_ ?_ ?_ ?_))

theorem keep_gViewUpdate {P : Area → Prop} {z : State} {s : State} {a_d : Nat} (h : Keeps P z s)
    (kbmk : P .bmk := by assumption) (kfabric : P .fabric := by assumption) (krings : P .rings := by assumption)
    (ktwins : P .twins := by assumption) (klog : P .log := by assumption) :
    Keeps P z (gViewUpdate s a_d) := by
  unfold gViewUpdate
  repeat' (first | (with_reducible assumption) | (exact Or.inl (by assumption)) | (exact Or.inr rfl)
                 | (exact Or.inr ⟨rfl, rfl, rfl, rfl⟩) | (intro)
                 | (extract_lets +onlyGivenNames y; refine keep_cut (y := y) ?_ ?_; (focus (dsimp only [y]; clear y)); rotate_left; (focus (clear_value y; revert y; intro _ _)))
                 | (extract_lets +onlyGivenNames y; refine keep_cut1 (y := y) ?_ ?_; (focus (dsimp only [y]; clear y)); rotate_left; (focus (clear_value y; revert y; intro _ _)))
                 | (extract_lets +onlyGivenNames y; refine keep_cut2 (y := y) ?_ ?_; (focus (dsimp only [y]; clear y)); rotate_left; (focus (clear_value y; revert y; intro _ _)))
                 | (extract_lets +onlyGivenNames y; clear_value y; revert y; intro _) | (with_reducible apply keep_modBmk)
                 | (with_reducible apply keep_fireGlobal) | (with_reducible apply keep_fireSource) | split | (dsimp only)
                 | (with_reducible refine keep_mk ?_ rfl rfl rfl rfl rfl rfl rfl rfl rfl ?_ ?_ ?_ ?_ ?_ ?_ ?_ ?_ ?_ ?_ ?_ ?_ ?_ ?_ ?_ ?_ ?_ ?_))

theorem keep_execGViewUpdate {P : Area → Prop} {z : State} {a_d : Nat} {s : State} (h : Keeps P z s)
    (kbmk : P .bmk := by assumption) (kfabric : P .fabric := by assumption) (krings : P .rings := by assumption)
    (ktwins : P .twins := by assumption) (klog : P .log := by assumption) :
    ∀ t, execGViewUpdate a_d s = .next t → Keeps P z t := by
  unfold execGViewUpdate; intro t e; injection e with e; subst e
  repeat' (first | (with_reducible assumption) | (intro) | (with_reducible apply keep_gViewUpdate) | split | (dsimp only))

theorem keep_silenceTimeout {P : Area → Prop} {z : State} {s : State} {a_n : Nat} (h : Keeps P z s)
    (kbmk : P .bmk := by assumption) (krings : P .rings := by assumption) (ktwins : P .twins := by assumption)
    (klog : P .log := by assumption) :
    Keeps P z (silenceTimeout s a_n) := by
  unfold silenceTimeout
  repeat' (first | (with_reducible assumption) | (intro)
                 | (extract_lets +onlyGivenNames y; refine keep_cut (y := y) ?_ ?_; (focus (dsimp only [y]; clear y)); rotate_left; (focus (clear_value y; revert y; intro _ _)))
                 | (extract_lets +onlyGivenNames y; refine keep_cut1 (y := y) ?_ ?_; (focus (dsimp only [y]; clear y)); rotate_left; (focus (clear_value y; revert y; intro _ _)))
                 | (extract_lets +onlyGivenNames y; refine keep_cut2 (y := y) ?_ ?_; (focus (dsimp only [y]; clear y)); rotate_left; (focus (clear_value y; revert y; intro _ _)))
                 | (extract_lets +onlyGivenNames y; clear_value y; revert y; intro _) | (with_reducible apply keep_setF)
                 | (with_reducible apply keep_raise) | (with_reducible apply keep_logC) | (with_reducible apply keep_recomputeG)
                 | (with_reducible refine keep_ite ?_ ?_) | split | (dsimp only))

theorem keep_execSilenceTimeout {P : Area → Prop} {z : State} {a_n : Nat} {s : State} (h : Keeps P z s)
    (kbmk : P .bmk := by assumption) (krings : P .rings := by assumption) (ktwins : P .twins := by assumption)
    (klog : P .log := by assumption) :
    ∀ t, execSilenceTimeout a_n s = .next t → Keeps P z t := by
  unfold execSilenceTimeout; intro t e; injection e with e; subst e
  repeat' (first | (with_reducible assumption) | (intro) | (with_reducible apply keep_silenceTimeout) | split | (dsimp only))

theorem keep_pacerTick {P : Area → Prop} {z : State} {s : State} (h : Keeps P z s) (kbmk : P .bmk := by assumption) :
    Keeps P z (pacerTick s) := by
  unfold pacerTick
  repeat' (first | (with_reducible assumption) | (intro) | (with_reducible apply keep_recomputeG)
                 | (with_reducible apply keep_addF) | (with_reducible refine keep_ite ?_ ?_) | split | (dsimp only))

theorem keep_execPacerTick {P : Area → Prop} {z : State} {s : State} (h : Keeps P z s) (kbmk : P .bmk := by assumption) :
    ∀ t, execPacerTick s = .next t → Keeps P z t := by
  unfold execPacerTick; intro t e; injection e with e; subst e
  repeat' (first | (with_reducible assumption) | (intro) | (with_reducible apply keep_pacerTick) | split | (dsimp only))

theorem keep_bmkAdvance {P : Area → Prop} {z : State} {s : State} {a_v : Nat} (h : Keeps P z s)
    (kbmk : P .bmk := by assumption) :
    Keeps P z (bmkAdvance s a_v) := by
  unfold bmkAdvance
  repeat' (first | (with_reducible assumption) | (intro) | (with_reducible apply keep_recomputeG)
                 | (with_reducible apply keep_setF) | (with_reducible refine keep_ite ?_ ?_) | split | (dsimp only))

theorem keep_execBmkAdvance {P : Area → Prop} {z : State} {a_v : Nat} {s : State} (h : Keeps P z s)
    (kbmk : P .bmk := by assumption) :
    ∀ t, execBmkAdvance a_v s = .next t → Keeps P z t := by
  unfold execBmkAdvance; intro t e; injection e with e; subst e
  repeat' (first | (with_reducible assumption) | (intro) | (with_reducible apply keep_bmkAdvance) | split | (dsimp only))

theorem keep_stakeDisarm {P : Area → Prop} {z : State} {s : State} {a_n : Nat} (h : Keeps P z s) :
    Keeps P z (stakeDisarm s a_n) := by
  unfold stakeDisarm
  repeat' (first | (with_reducible assumption) | (intro) | (with_reducible apply keep_setF) | split | (dsimp only))

theorem keep_execStakeDisarm {P : Area → Prop} {z : State} {a_n : Nat} {s : State} (h : Keeps P z s) :
    ∀ t, execStakeDisarm a_n s = .next t → Keeps P z t := by
  unfold execStakeDisarm; intro t e; injection e with e; subst e
  repeat' (first | (with_reducible assumption) | (intro) | (with_reducible apply keep_stakeDisarm) | split | (dsimp only))

theorem keep_horizonTokenSend {P : Area → Prop} {z : State} {s : State} {a_t : Nat} {a_d : Nat} (h : Keeps P z s)
    (kbmk : P .bmk := by assumption) (kfabric : P .fabric := by assumption) :
    Keeps P z (horizonTokenSend s a_t a_d) := by
  unfold horizonTokenSend
  repeat' (first | (with_reducible assumption) | (exact Or.inl (by assumption)) | (exact Or.inr rfl)
                 | (exact Or.inr ⟨rfl, rfl, rfl, rfl⟩) | (intro)
                 | (extract_lets +onlyGivenNames y; refine keep_cut (y := y) ?_ ?_; (focus (dsimp only [y]; clear y)); rotate_left; (focus (clear_value y; revert y; intro _ _)))
                 | (extract_lets +onlyGivenNames y; refine keep_cut1 (y := y) ?_ ?_; (focus (dsimp only [y]; clear y)); rotate_left; (focus (clear_value y; revert y; intro _ _)))
                 | (extract_lets +onlyGivenNames y; refine keep_cut2 (y := y) ?_ ?_; (focus (dsimp only [y]; clear y)); rotate_left; (focus (clear_value y; revert y; intro _ _)))
                 | (extract_lets +onlyGivenNames y; clear_value y; revert y; intro _) | (with_reducible apply keep_modBmk)
                 | (with_reducible apply keep_pushHead) | (with_reducible refine keep_ite ?_ ?_) | split | (dsimp only)
                 | (with_reducible refine keep_mk ?_ rfl rfl rfl rfl rfl rfl rfl rfl rfl ?_ ?_ ?_ ?_ ?_ ?_ ?_ ?_ ?_ ?_ ?_ ?_ ?_ ?_ ?_ ?_ ?_ ?_))

theorem keep_execHorizonTokenSend {P : Area → Prop} {z : State} {a_t : Nat} {a_d : Nat} {s : State} (h : Keeps P z s)
    (kbmk : P .bmk := by assumption) (kfabric : P .fabric := by assumption) :
    ∀ t, execHorizonTokenSend a_t a_d s = .next t → Keeps P z t := by
  unfold execHorizonTokenSend; intro t e; injection e with e; subst e
  repeat' (first | (with_reducible assumption) | (intro) | (with_reducible apply keep_horizonTokenSend) | split | (dsimp only))

theorem keep_epochSwitchStart {P : Area → Prop} {z : State} {s : State} (h : Keeps P z s)
    (kbmk : P .bmk := by assumption) (krings : P .rings := by assumption) :
    Keeps P z (epochSwitchStart s) := by
  unfold epochSwitchStart
  repeat' (first | (with_reducible assumption) | (exact Or.inl (by assumption)) | (exact Or.inr rfl)
                 | (exact Or.inr ⟨rfl, rfl, rfl, rfl⟩) | (intro)
                 | (extract_lets +onlyGivenNames y; refine keep_cut (y := y) ?_ ?_; (focus (dsimp only [y]; clear y)); rotate_left; (focus (clear_value y; revert y; intro _ _)))
                 | (extract_lets +onlyGivenNames y; refine keep_cut1 (y := y) ?_ ?_; (focus (dsimp only [y]; clear y)); rotate_left; (focus (clear_value y; revert y; intro _ _)))
                 | (extract_lets +onlyGivenNames y; refine keep_cut2 (y := y) ?_ ?_; (focus (dsimp only [y]; clear y)); rotate_left; (focus (clear_value y; revert y; intro _ _)))
                 | (extract_lets +onlyGivenNames y; clear_value y; revert y; intro _) | (with_reducible apply keep_raise)
                 | (with_reducible apply keep_satF) | (with_reducible apply keep_modBmk)
                 | (with_reducible refine keep_ite ?_ ?_) | split | (dsimp only)
                 | (with_reducible refine keep_mk ?_ rfl rfl rfl rfl rfl rfl rfl rfl rfl ?_ ?_ ?_ ?_ ?_ ?_ ?_ ?_ ?_ ?_ ?_ ?_ ?_ ?_ ?_ ?_ ?_ ?_))

theorem keep_execEpochSwitchStart {P : Area → Prop} {z : State} {s : State} (h : Keeps P z s)
    (kbmk : P .bmk := by assumption) (krings : P .rings := by assumption) :
    ∀ t, execEpochSwitchStart s = .next t → Keeps P z t := by
  unfold execEpochSwitchStart; intro t e; injection e with e; subst e
  repeat' (first | (with_reducible assumption) | (intro) | (with_reducible apply keep_epochSwitchStart) | split | (dsimp only))

theorem keep_setSwitch {P : Area → Prop} {z : State} {s : State} {a_w : EpochSwitch} (h : Keeps P z s)
    (kbmk : P .bmk := by assumption) :
    Keeps P z (setSwitch s a_w) := by
  unfold setSwitch
  repeat' (first | (with_reducible assumption) | (exact Or.inl (by assumption)) | (exact Or.inr rfl)
                 | (exact Or.inr ⟨rfl, rfl, rfl, rfl⟩) | (intro)
                 | (extract_lets +onlyGivenNames y; refine keep_cut (y := y) ?_ ?_; (focus (dsimp only [y]; clear y)); rotate_left; (focus (clear_value y; revert y; intro _ _)))
                 | (extract_lets +onlyGivenNames y; refine keep_cut1 (y := y) ?_ ?_; (focus (dsimp only [y]; clear y)); rotate_left; (focus (clear_value y; revert y; intro _ _)))
                 | (extract_lets +onlyGivenNames y; refine keep_cut2 (y := y) ?_ ?_; (focus (dsimp only [y]; clear y)); rotate_left; (focus (clear_value y; revert y; intro _ _)))
                 | (extract_lets +onlyGivenNames y; clear_value y; revert y; intro _) | (with_reducible apply keep_setF)
                 | (with_reducible apply keep_modBmk) | (with_reducible refine keep_ite ?_ ?_) | split | (dsimp only)
                 | (with_reducible refine keep_mk ?_ rfl rfl rfl rfl rfl rfl rfl rfl rfl ?_ ?_ ?_ ?_ ?_ ?_ ?_ ?_ ?_ ?_ ?_ ?_ ?_ ?_ ?_ ?_ ?_ ?_))

theorem keep_switchCut {P : Area → Prop} {z : State} {s : State} {a_w : EpochSwitch} {a_d : Nat} {a_e : Nat × Nat}
    (h : Keeps P z s) (kbmk : P .bmk := by assumption) :
    Keeps P z (switchCut s a_w a_d a_e) := by
  unfold switchCut
  repeat' (first | (with_reducible assumption) | (exact Or.inl (by assumption)) | (exact Or.inr rfl)
                 | (exact Or.inr ⟨rfl, rfl, rfl, rfl⟩) | (intro)
                 | (extract_lets +onlyGivenNames y; refine keep_cut (y := y) ?_ ?_; (focus (dsimp only [y]; clear y)); rotate_left; (focus (clear_value y; revert y; intro _ _)))
                 | (extract_lets +onlyGivenNames y; refine keep_cut1 (y := y) ?_ ?_; (focus (dsimp only [y]; clear y)); rotate_left; (focus (clear_value y; revert y; intro _ _)))
                 | (extract_lets +onlyGivenNames y; refine keep_cut2 (y := y) ?_ ?_; (focus (dsimp only [y]; clear y)); rotate_left; (focus (clear_value y; revert y; intro _ _)))
                 | (extract_lets +onlyGivenNames y; clear_value y; revert y; intro _) | (with_reducible apply keep_setSwitch)
                 | (with_reducible apply keep_dropAtEdge) | split | (dsimp only)
                 | (with_reducible refine keep_mk ?_ rfl rfl rfl rfl rfl rfl rfl rfl rfl ?_ ?_ ?_ ?_ ?_ ?_ ?_ ?_ ?_ ?_ ?_ ?_ ?_ ?_ ?_ ?_ ?_ ?_))

theorem keep_prepare {P : Area → Prop} {z : State} {s : State} {a_d : Nat} (h : Keeps P z s)
    (kbmk : P .bmk := by assumption) :
    Keeps P z (prepare s a_d) := by
  unfold prepare
  repeat' (first | (with_reducible assumption) | (exact Or.inl (by assumption)) | (exact Or.inr rfl)
                 | (exact Or.inr ⟨rfl, rfl, rfl, rfl⟩) | (intro)
                 | (extract_lets +onlyGivenNames y; refine keep_cut (y := y) ?_ ?_; (focus (dsimp only [y]; clear y)); rotate_left; (focus (clear_value y; revert y; intro _ _)))
                 | (extract_lets +onlyGivenNames y; refine keep_cut1 (y := y) ?_ ?_; (focus (dsimp only [y]; clear y)); rotate_left; (focus (clear_value y; revert y; intro _ _)))
                 | (extract_lets +onlyGivenNames y; refine keep_cut2 (y := y) ?_ ?_; (focus (dsimp only [y]; clear y)); rotate_left; (focus (clear_value y; revert y; intro _ _)))
                 | (extract_lets +onlyGivenNames y; clear_value y; revert y; intro _) | (with_reducible apply keep_switchCut)
                 | (with_reducible apply keep_modBmk) | (with_reducible refine keep_ite ?_ ?_) | split | (dsimp only)
                 | (with_reducible refine keep_mk ?_ rfl rfl rfl rfl rfl rfl rfl rfl rfl ?_ ?_ ?_ ?_ ?_ ?_ ?_ ?_ ?_ ?_ ?_ ?_ ?_ ?_ ?_ ?_ ?_ ?_))

theorem keep_execPrepare {P : Area → Prop} {z : State} {a_d : Nat} {s : State} (h : Keeps P z s)
    (kbmk : P .bmk := by assumption) :
    ∀ t, execPrepare a_d s = .next t → Keeps P z t := by
  unfold execPrepare; intro t e; injection e with e; subst e
  repeat' (first | (with_reducible assumption) | (intro) | (with_reducible apply keep_prepare) | split | (dsimp only))

theorem keep_ready {P : Area → Prop} {z : State} {s : State} {a_d : Nat} (h : Keeps P z s) (kbmk : P .bmk := by assumption) :
    Keeps P z (ready s a_d) := by
  unfold ready
  repeat' (first | (with_reducible assumption) | (exact Or.inl (by assumption)) | (exact Or.inr rfl)
                 | (exact Or.inr ⟨rfl, rfl, rfl, rfl⟩) | (intro)
                 | (extract_lets +onlyGivenNames y; refine keep_cut (y := y) ?_ ?_; (focus (dsimp only [y]; clear y)); rotate_left; (focus (clear_value y; revert y; intro _ _)))
                 | (extract_lets +onlyGivenNames y; refine keep_cut1 (y := y) ?_ ?_; (focus (dsimp only [y]; clear y)); rotate_left; (focus (clear_value y; revert y; intro _ _)))
                 | (extract_lets +onlyGivenNames y; refine keep_cut2 (y := y) ?_ ?_; (focus (dsimp only [y]; clear y)); rotate_left; (focus (clear_value y; revert y; intro _ _)))
                 | (extract_lets +onlyGivenNames y; clear_value y; revert y; intro _) | (with_reducible apply keep_switchCut)
                 | (with_reducible apply keep_setSwitch) | (with_reducible refine keep_ite ?_ ?_) | split | (dsimp only)
                 | (with_reducible refine keep_mk ?_ rfl rfl rfl rfl rfl rfl rfl rfl rfl ?_ ?_ ?_ ?_ ?_ ?_ ?_ ?_ ?_ ?_ ?_ ?_ ?_ ?_ ?_ ?_ ?_ ?_))

theorem keep_execReady {P : Area → Prop} {z : State} {a_d : Nat} {s : State} (h : Keeps P z s)
    (kbmk : P .bmk := by assumption) :
    ∀ t, execReady a_d s = .next t → Keeps P z t := by
  unfold execReady; intro t e; injection e with e; subst e
  repeat' (first | (with_reducible assumption) | (intro) | (with_reducible apply keep_ready) | split | (dsimp only))

end Sys2Proof.Machine
end

