-- ==== Sys2Proof/Laws/KeepFec.lean ====
section
/-! SUPPORT. What the operations of Machine/Fec.lean keep (Laws/Keep.lean), one lemma per operation. -/

set_option linter.tactic.unusedName false
set_option linter.all false
set_option Elab.async false

namespace Sys2Proof.Machine

theorem keep_modPort {P : Area → Prop} {z : State} {s : State} {a_p : Nat} {a_f : Port → Port} (h : Keeps P z s)
    (kports : P .ports := by assumption) :
    Keeps P z (modPort s a_p a_f) := by
  unfold modPort
  repeat' (first | (with_reducible assumption) | (exact Or.inl (by assumption)) | (exact Or.inr rfl)
                 | (exact Or.inr ⟨rfl, rfl, rfl, rfl⟩) | (intro)
                 | (extract_lets +onlyGivenNames y; refine keep_cut (y := y) ?_ ?_; (focus (dsimp only [y]; clear y)); rotate_left; (focus (clear_value y; revert y; intro _ _)))
                 | (extract_lets +onlyGivenNames y; refine keep_cut1 (y := y) ?_ ?_; (focus (dsimp only [y]; clear y)); rotate_left; (focus (clear_value y; revert y; intro _ _)))
                 | (extract_lets +onlyGivenNames y; refine keep_cut2 (y := y) ?_ ?_; (focus (dsimp only [y]; clear y)); rotate_left; (focus (clear_value y; revert y; intro _ _)))
                 | (extract_lets +onlyGivenNames y; clear_value y; revert y; intro _) | split | (dsimp only)
                 | (with_reducible refine keep_mk ?_ rfl rfl rfl rfl rfl rfl rfl rfl rfl ?_ ?_ ?_ ?_ ?_ ?_ ?_ ?_ ?_ ?_ ?_ ?_ ?_ ?_ ?_ ?_ ?_ ?_))

theorem keep_useSlot {P : Area → Prop} {z : State} {s : State} {a_p : Nat} {a_flit : Bytes} (h : Keeps P z s)
    (kports : P .ports := by assumption) :
    Keeps P z (useSlot s a_p a_flit) := by
  unfold useSlot
  repeat' (first | (with_reducible assumption) | (exact Or.inl (by assumption)) | (exact Or.inr rfl)
                 | (exact Or.inr ⟨rfl, rfl, rfl, rfl⟩) | (intro)
                 | (extract_lets +onlyGivenNames y; refine keep_cut (y := y) ?_ ?_; (focus (dsimp only [y]; clear y)); rotate_left; (focus (clear_value y; revert y; intro _ _)))
                 | (extract_lets +onlyGivenNames y; refine keep_cut1 (y := y) ?_ ?_; (focus (dsimp only [y]; clear y)); rotate_left; (focus (clear_value y; revert y; intro _ _)))
                 | (extract_lets +onlyGivenNames y; refine keep_cut2 (y := y) ?_ ?_; (focus (dsimp only [y]; clear y)); rotate_left; (focus (clear_value y; revert y; intro _ _)))
                 | (extract_lets +onlyGivenNames y; clear_value y; revert y; intro _) | (with_reducible apply keep_emitOut)
                 | (with_reducible apply keep_modPort) | (with_reducible refine keep_ite ?_ ?_) | split | (dsimp only)
                 | (with_reducible refine keep_mk ?_ rfl rfl rfl rfl rfl rfl rfl rfl rfl ?_ ?_ ?_ ?_ ?_ ?_ ?_ ?_ ?_ ?_ ?_ ?_ ?_ ?_ ?_ ?_ ?_ ?_))

end Sys2Proof.Machine
end

