-- ==== Sys2Proof/Laws/KeepTransit.lean ====
section
/-! SUPPORT. What the operations of Machine/Transit.lean keep (Laws/Keep.lean), one lemma per operation. -/

set_option linter.tactic.unusedName false
set_option linter.all false
set_option Elab.async false

namespace Sys2Proof.Machine

theorem keep_modVc {P : Area → Prop} {z : State} {s : State} {a_p : Nat} {a_v : Nat} {a_f : Vc → Vc} (h : Keeps P z s)
    (kports : P .ports := by assumption) :
    Keeps P z (modVc s a_p a_v a_f) := by
  unfold modVc
  repeat' (first | (with_reducible assumption) | (exact Or.inl (by assumption)) | (exact Or.inr rfl)
                 | (exact Or.inr ⟨rfl, rfl, rfl, rfl⟩) | (intro)
                 | (extract_lets +onlyGivenNames y; refine keep_cut (y := y) ?_ ?_; (focus (dsimp only [y]; clear y)); rotate_left; (focus (clear_value y; revert y; intro _ _)))
                 | (extract_lets +onlyGivenNames y; refine keep_cut1 (y := y) ?_ ?_; (focus (dsimp only [y]; clear y)); rotate_left; (focus (clear_value y; revert y; intro _ _)))
                 | (extract_lets +onlyGivenNames y; refine keep_cut2 (y := y) ?_ ?_; (focus (dsimp only [y]; clear y)); rotate_left; (focus (clear_value y; revert y; intro _ _)))
                 | (extract_lets +onlyGivenNames y; clear_value y; revert y; intro _) | (with_reducible apply keep_modPort)
                 | split | (dsimp only)
                 | (with_reducible refine keep_mk ?_ rfl rfl rfl rfl rfl rfl rfl rfl rfl ?_ ?_ ?_ ?_ ?_ ?_ ?_ ?_ ?_ ?_ ?_ ?_ ?_ ?_ ?_ ?_ ?_ ?_))

theorem keep_sendLc {P : Area → Prop} {z : State} {a_p a_flags a_cause : Nat} (n : Nat) 
    (kports : P .ports := by assumption) : ∀ {s : State}, Keeps P z s → Keeps P z (sendLc s a_p a_flags a_cause n) := by
  induction n with
  | zero => intro s h; exact h
  | succ n ih => intro s h; exact ih (keep_useSlot h)

theorem keep_sendData {P : Area → Prop} {z : State} {s : State} {a_p : Nat} {a_flit : Bytes} (h : Keeps P z s)
    (kports : P .ports := by assumption) :
    Keeps P z (sendData s a_p a_flit) := by
  unfold sendData
  repeat' (first | (with_reducible assumption) | (intro) | (with_reducible apply keep_useSlot)
                 | (with_reducible apply keep_sendLc) | (with_reducible refine keep_ite ?_ ?_) | split | (dsimp only))

theorem keep_fillPair {P : Area → Prop} {z : State} {p : Nat} (n : Nat) 
    (kports : P .ports := by assumption) : ∀ {s : State}, Keeps P z s → Keeps P z (fillPair s p n) := by
  induction n with
  | zero => intro s h; exact h
  | succ n ih => intro s h; exact keep_ite h (ih (keep_useSlot h))

theorem keep_idleSlot {P : Area → Prop} {z : State} {s : State} {a_p : Nat} (h : Keeps P z s)
    (kports : P .ports := by assumption) :
    Keeps P z (idleSlot s a_p) := by
  unfold idleSlot
  repeat' (first | (with_reducible assumption) | (intro) | (with_reducible apply keep_useSlot)
                 | (with_reducible apply keep_sendLc) | (with_reducible refine keep_ite ?_ ?_) | split | (dsimp only))

theorem keep_sendFrame {P : Area → Prop} {z : State} {s : State} {a_p : Nat} {a_v : Nat} {a_frame : Bytes}
    (h : Keeps P z s) (kports : P .ports := by assumption) :
    Keeps P z (sendFrame s a_p a_v a_frame) := by
  unfold sendFrame
  repeat' (first | (with_reducible assumption) | (exact Or.inl (by assumption)) | (exact Or.inr rfl)
                 | (exact Or.inr ⟨rfl, rfl, rfl, rfl⟩) | (intro)
                 | (extract_lets +onlyGivenNames y; refine keep_cut (y := y) ?_ ?_; (focus (dsimp only [y]; clear y)); rotate_left; (focus (clear_value y; revert y; intro _ _)))
                 | (extract_lets +onlyGivenNames y; refine keep_cut1 (y := y) ?_ ?_; (focus (dsimp only [y]; clear y)); rotate_left; (focus (clear_value y; revert y; intro _ _)))
                 | (extract_lets +onlyGivenNames y; refine keep_cut2 (y := y) ?_ ?_; (focus (dsimp only [y]; clear y)); rotate_left; (focus (clear_value y; revert y; intro _ _)))
                 | (extract_lets +onlyGivenNames y; clear_value y; revert y; intro _) | (with_reducible apply keep_addF)
                 | (with_reducible apply keep_modVc) | (with_reducible apply keep_sendData) | split | (dsimp only)
                 | (with_reducible refine keep_mk ?_ rfl rfl rfl rfl rfl rfl rfl rfl rfl ?_ ?_ ?_ ?_ ?_ ?_ ?_ ?_ ?_ ?_ ?_ ?_ ?_ ?_ ?_ ?_ ?_ ?_))

theorem keep_clearPort {P : Area → Prop} {z : State} {s : State} {a_p : Nat} (h : Keeps P z s)
    (kports : P .ports := by assumption) :
    Keeps P z (clearPort s a_p) := by
  unfold clearPort
  repeat' (first | (with_reducible assumption) | (exact Or.inl (by assumption)) | (exact Or.inr rfl)
                 | (exact Or.inr ⟨rfl, rfl, rfl, rfl⟩) | (intro)
                 | (extract_lets +onlyGivenNames y; refine keep_cut (y := y) ?_ ?_; (focus (dsimp only [y]; clear y)); rotate_left; (focus (clear_value y; revert y; intro _ _)))
                 | (extract_lets +onlyGivenNames y; refine keep_cut1 (y := y) ?_ ?_; (focus (dsimp only [y]; clear y)); rotate_left; (focus (clear_value y; revert y; intro _ _)))
                 | (extract_lets +onlyGivenNames y; refine keep_cut2 (y := y) ?_ ?_; (focus (dsimp only [y]; clear y)); rotate_left; (focus (clear_value y; revert y; intro _ _)))
                 | (extract_lets +onlyGivenNames y; clear_value y; revert y; intro _) | (with_reducible apply keep_satF)
                 | (with_reducible apply keep_modPort) | (with_reducible apply keep_foldl) | (with_reducible apply keep_foldl1)
                 | split | (dsimp only)
                 | (with_reducible refine keep_mk ?_ rfl rfl rfl rfl rfl rfl rfl rfl rfl ?_ ?_ ?_ ?_ ?_ ?_ ?_ ?_ ?_ ?_ ?_ ?_ ?_ ?_ ?_ ?_ ?_ ?_))

theorem keep_setLink {P : Area → Prop} {z : State} {s : State} {a_p : Nat} {a_st : Nat} (h : Keeps P z s) :
    Keeps P z (setLink s a_p a_st) := by
  unfold setLink
  repeat' (first | (with_reducible assumption) | (intro) | (with_reducible apply keep_setF) | split | (dsimp only))

theorem keep_leaveUp {P : Area → Prop} {z : State} {s : State} {a_p : Nat} {a_st : Nat} {a_reason : Nat}
    (h : Keeps P z s) (kbmk : P .bmk := by assumption) (kports : P .ports := by assumption)
    (kfabric : P .fabric := by assumption) (krings : P .rings := by assumption) (ktwins : P .twins := by assumption)
    (klog : P .log := by assumption) :
    Keeps P z (leaveUp s a_p a_st a_reason) := by
  unfold leaveUp
  repeat' (first | (with_reducible assumption) | (intro)
                 | (extract_lets +onlyGivenNames y; refine keep_cut (y := y) ?_ ?_; (focus (dsimp only [y]; clear y)); rotate_left; (focus (clear_value y; revert y; intro _ _)))
                 | (extract_lets +onlyGivenNames y; refine keep_cut1 (y := y) ?_ ?_; (focus (dsimp only [y]; clear y)); rotate_left; (focus (clear_value y; revert y; intro _ _)))
                 | (extract_lets +onlyGivenNames y; refine keep_cut2 (y := y) ?_ ?_; (focus (dsimp only [y]; clear y)); rotate_left; (focus (clear_value y; revert y; intro _ _)))
                 | (extract_lets +onlyGivenNames y; clear_value y; revert y; intro _) | (with_reducible apply keep_clearPort)
                 | (with_reducible apply keep_setLink) | (with_reducible apply keep_raise) | (with_reducible apply keep_satF)
                 | (with_reducible apply keep_setF) | (with_reducible apply keep_detach)
                 | (with_reducible refine keep_ite ?_ ?_) | (with_reducible apply keep_foldl)
                 | (with_reducible apply keep_foldl1) | split | (dsimp only))

theorem keep_sendReset {P : Area → Prop} {z : State} {s : State} {a_p : Nat} {a_cause : Nat} (h : Keeps P z s)
    (kports : P .ports := by assumption) :
    Keeps P z (sendReset s a_p a_cause) := by
  unfold sendReset
  repeat' (first | (with_reducible assumption) | (intro) | (with_reducible apply keep_fillPair)
                 | (with_reducible apply keep_sendLc) | split | (dsimp only))

theorem keep_resetLink {P : Area → Prop} {z : State} {s : State} {a_p : Nat} {a_cause : Nat} {a_reason : Nat}
    (h : Keeps P z s) (kbmk : P .bmk := by assumption) (kports : P .ports := by assumption)
    (kfabric : P .fabric := by assumption) (krings : P .rings := by assumption) (ktwins : P .twins := by assumption)
    (klog : P .log := by assumption) :
    Keeps P z (resetLink s a_p a_cause a_reason) := by
  unfold resetLink
  repeat' (first | (with_reducible assumption) | (intro) | (with_reducible apply keep_leaveUp)
                 | (with_reducible apply keep_sendReset) | split | (dsimp only))

theorem keep_loseLock {P : Area → Prop} {z : State} {s : State} {a_p : Nat} (h : Keeps P z s)
    (kbmk : P .bmk := by assumption) (kports : P .ports := by assumption) (kfabric : P .fabric := by assumption)
    (krings : P .rings := by assumption) (ktwins : P .twins := by assumption) (klog : P .log := by assumption) :
    Keeps P z (loseLock s a_p) := by
  unfold loseLock
  repeat' (first | (with_reducible assumption) | (intro) | (with_reducible apply keep_leaveUp) | split | (dsimp only))

theorem keep_disablePort {P : Area → Prop} {z : State} {s : State} {a_p : Nat} {a_cause : Nat} {a_reason : Nat}
    (h : Keeps P z s) (kbmk : P .bmk := by assumption) (kports : P .ports := by assumption)
    (kfabric : P .fabric := by assumption) (krings : P .rings := by assumption) (ktwins : P .twins := by assumption)
    (klog : P .log := by assumption) :
    Keeps P z (disablePort s a_p a_cause a_reason) := by
  unfold disablePort
  repeat' (first | (with_reducible assumption) | (intro)
                 | (extract_lets +onlyGivenNames y; refine keep_cut (y := y) ?_ ?_; (focus (dsimp only [y]; clear y)); rotate_left; (focus (clear_value y; revert y; intro _ _)))
                 | (extract_lets +onlyGivenNames y; refine keep_cut1 (y := y) ?_ ?_; (focus (dsimp only [y]; clear y)); rotate_left; (focus (clear_value y; revert y; intro _ _)))
                 | (extract_lets +onlyGivenNames y; refine keep_cut2 (y := y) ?_ ?_; (focus (dsimp only [y]; clear y)); rotate_left; (focus (clear_value y; revert y; intro _ _)))
                 | (extract_lets +onlyGivenNames y; clear_value y; revert y; intro _) | (with_reducible apply keep_setF)
                 | (with_reducible apply keep_leaveUp) | (with_reducible apply keep_sendReset)
                 | (with_reducible apply keep_clearPort) | (with_reducible apply keep_setLink)
                 | (with_reducible refine keep_ite ?_ ?_) | split | (dsimp only))

theorem keep_portEnable {P : Area → Prop} {z : State} {s : State} {a_fn : Nat} {a_p : Nat} (h : Keeps P z s)
    (krings : P .rings := by assumption) (ktwins : P .twins := by assumption) (klog : P .log := by assumption) :
    Keeps P z (portEnable s a_fn a_p) := by
  unfold portEnable
  repeat' (first | (with_reducible assumption) | (intro) | (with_reducible apply keep_setLink)
                 | (with_reducible apply keep_setF) | (with_reducible apply keep_logIgn)
                 | (with_reducible refine keep_ite ?_ ?_) | split | (dsimp only))

theorem keep_execPortEnable {P : Area → Prop} {z : State} {a_fn : Nat} {a_p : Nat} {s : State} (h : Keeps P z s)
    (krings : P .rings := by assumption) (ktwins : P .twins := by assumption) (klog : P .log := by assumption) :
    ∀ t, execPortEnable a_fn a_p s = .next t → Keeps P z t := by
  unfold execPortEnable; intro t e; injection e with e; subst e
  repeat' (first | (with_reducible assumption) | (intro) | (with_reducible apply keep_portEnable) | split | (dsimp only))

theorem keep_portDisable {P : Area → Prop} {z : State} {s : State} {a_p : Nat} (h : Keeps P z s)
    (kbmk : P .bmk := by assumption) (kports : P .ports := by assumption) (kfabric : P .fabric := by assumption)
    (krings : P .rings := by assumption) (ktwins : P .twins := by assumption) (klog : P .log := by assumption) :
    Keeps P z (portDisable s a_p) := by
  unfold portDisable
  repeat' (first | (with_reducible assumption) | (intro) | (with_reducible apply keep_disablePort)
                 | (with_reducible refine keep_ite ?_ ?_) | split | (dsimp only))

theorem keep_execPortDisable {P : Area → Prop} {z : State} {a_p : Nat} {s : State} (h : Keeps P z s)
    (kbmk : P .bmk := by assumption) (kports : P .ports := by assumption) (kfabric : P .fabric := by assumption)
    (krings : P .rings := by assumption) (ktwins : P .twins := by assumption) (klog : P .log := by assumption) :
    ∀ t, execPortDisable a_p s = .next t → Keeps P z t := by
  unfold execPortDisable; intro t e; injection e with e; subst e
  repeat' (first | (with_reducible assumption) | (intro) | (with_reducible apply keep_portDisable) | split | (dsimp only))

theorem keep_linkReset {P : Area → Prop} {z : State} {s : State} {a_p : Nat} (h : Keeps P z s)
    (kbmk : P .bmk := by assumption) (kports : P .ports := by assumption) (kfabric : P .fabric := by assumption)
    (krings : P .rings := by assumption) (ktwins : P .twins := by assumption) (klog : P .log := by assumption) :
    Keeps P z (linkReset s a_p) := by
  unfold linkReset
  repeat' (first | (with_reducible assumption) | (intro) | (with_reducible apply keep_resetLink)
                 | (with_reducible refine keep_ite ?_ ?_) | split | (dsimp only))

theorem keep_execLinkReset {P : Area → Prop} {z : State} {a_p : Nat} {s : State} (h : Keeps P z s)
    (kbmk : P .bmk := by assumption) (kports : P .ports := by assumption) (kfabric : P .fabric := by assumption)
    (krings : P .rings := by assumption) (ktwins : P .twins := by assumption) (klog : P .log := by assumption) :
    ∀ t, execLinkReset a_p s = .next t → Keeps P z t := by
  unfold execLinkReset; intro t e; injection e with e; subst e
  repeat' (first | (with_reducible assumption) | (intro) | (with_reducible apply keep_linkReset) | split | (dsimp only))

theorem keep_signalDetect {P : Area → Prop} {z : State} {s : State} {a_p : Nat} (h : Keeps P z s) :
    Keeps P z (signalDetect s a_p) := by
  unfold signalDetect
  repeat' (first | (with_reducible assumption) | (intro) | (with_reducible apply keep_setLink)
                 | (with_reducible apply keep_setF) | (with_reducible refine keep_ite ?_ ?_) | split | (dsimp only))

theorem keep_execSignalDetect {P : Area → Prop} {z : State} {a_p : Nat} {s : State} (h : Keeps P z s) :
    ∀ t, execSignalDetect a_p s = .next t → Keeps P z t := by
  unfold execSignalDetect; intro t e; injection e with e; subst e
  repeat' (first | (with_reducible assumption) | (intro) | (with_reducible apply keep_signalDetect) | split | (dsimp only))

theorem keep_lanesAdapted {P : Area → Prop} {z : State} {s : State} {a_p : Nat} {a_pol : Nat} {a_rev : Bool}
    (h : Keeps P z s) (kports : P .ports := by assumption) :
    Keeps P z (lanesAdapted s a_p a_pol a_rev) := by
  unfold lanesAdapted
  repeat' (first | (with_reducible assumption) | (exact Or.inl (by assumption)) | (exact Or.inr rfl)
                 | (exact Or.inr ⟨rfl, rfl, rfl, rfl⟩) | (intro)
                 | (extract_lets +onlyGivenNames y; refine keep_cut (y := y) ?_ ?_; (focus (dsimp only [y]; clear y)); rotate_left; (focus (clear_value y; revert y; intro _ _)))
                 | (extract_lets +onlyGivenNames y; refine keep_cut1 (y := y) ?_ ?_; (focus (dsimp only [y]; clear y)); rotate_left; (focus (clear_value y; revert y; intro _ _)))
                 | (extract_lets +onlyGivenNames y; refine keep_cut2 (y := y) ?_ ?_; (focus (dsimp only [y]; clear y)); rotate_left; (focus (clear_value y; revert y; intro _ _)))
                 | (extract_lets +onlyGivenNames y; clear_value y; revert y; intro _) | (with_reducible apply keep_setF)
                 | (with_reducible apply keep_modPort) | (with_reducible apply keep_setLink)
                 | (with_reducible refine keep_ite ?_ ?_) | split | (dsimp only)
                 | (with_reducible refine keep_mk ?_ rfl rfl rfl rfl rfl rfl rfl rfl rfl ?_ ?_ ?_ ?_ ?_ ?_ ?_ ?_ ?_ ?_ ?_ ?_ ?_ ?_ ?_ ?_ ?_ ?_))

theorem keep_execLanesAdapted {P : Area → Prop} {z : State} {a_p : Nat} {a_pol : Nat} {a_rev : Bool} {s : State}
    (h : Keeps P z s) (kports : P .ports := by assumption) :
    ∀ t, execLanesAdapted a_p a_pol a_rev s = .next t → Keeps P z t := by
  unfold execLanesAdapted; intro t e; injection e with e; subst e
  repeat' (first | (with_reducible assumption) | (intro) | (with_reducible apply keep_lanesAdapted) | split | (dsimp only))

theorem keep_trainBack {P : Area → Prop} {z : State} {s : State} {a_p : Nat} (h : Keeps P z s)
    (krings : P .rings := by assumption) :
    Keeps P z (trainBack s a_p) := by
  unfold trainBack
  repeat' (first | (with_reducible assumption) | (intro)
                 | (extract_lets +onlyGivenNames y; refine keep_cut (y := y) ?_ ?_; (focus (dsimp only [y]; clear y)); rotate_left; (focus (clear_value y; revert y; intro _ _)))
                 | (extract_lets +onlyGivenNames y; refine keep_cut1 (y := y) ?_ ?_; (focus (dsimp only [y]; clear y)); rotate_left; (focus (clear_value y; revert y; intro _ _)))
                 | (extract_lets +onlyGivenNames y; refine keep_cut2 (y := y) ?_ ?_; (focus (dsimp only [y]; clear y)); rotate_left; (focus (clear_value y; revert y; intro _ _)))
                 | (extract_lets +onlyGivenNames y; clear_value y; revert y; intro _) | (with_reducible apply keep_satF)
                 | (with_reducible apply keep_setLink) | (with_reducible apply keep_raise)
                 | (with_reducible refine keep_ite ?_ ?_) | split | (dsimp only))

theorem keep_execLaneFail {P : Area → Prop} {z : State} {a_p : Nat} {s : State} (h : Keeps P z s)
    (krings : P .rings := by assumption) :
    ∀ t, execLaneFail a_p s = .next t → Keeps P z t := by
  unfold execLaneFail; intro t e; injection e with e; subst e
  repeat' (first | (with_reducible assumption) | (intro) | (with_reducible apply keep_trainBack) | split | (dsimp only))

theorem keep_execTrainTimeout {P : Area → Prop} {z : State} {a_p : Nat} {s : State} (h : Keeps P z s)
    (krings : P .rings := by assumption) :
    ∀ t, execTrainTimeout a_p s = .next t → Keeps P z t := by
  unfold execTrainTimeout; intro t e; injection e with e; subst e
  repeat' (first | (with_reducible assumption) | (intro) | (with_reducible apply keep_trainBack) | split | (dsimp only))

theorem keep_lockAcquired {P : Area → Prop} {z : State} {s : State} {a_p : Nat} (h : Keeps P z s)
    (kports : P .ports := by assumption) :
    Keeps P z (lockAcquired s a_p) := by
  unfold lockAcquired
  repeat' (first | (with_reducible assumption) | (exact Or.inl (by assumption)) | (exact Or.inr rfl)
                 | (exact Or.inr ⟨rfl, rfl, rfl, rfl⟩) | (intro)
                 | (extract_lets +onlyGivenNames y; refine keep_cut (y := y) ?_ ?_; (focus (dsimp only [y]; clear y)); rotate_left; (focus (clear_value y; revert y; intro _ _)))
                 | (extract_lets +onlyGivenNames y; refine keep_cut1 (y := y) ?_ ?_; (focus (dsimp only [y]; clear y)); rotate_left; (focus (clear_value y; revert y; intro _ _)))
                 | (extract_lets +onlyGivenNames y; refine keep_cut2 (y := y) ?_ ?_; (focus (dsimp only [y]; clear y)); rotate_left; (focus (clear_value y; revert y; intro _ _)))
                 | (extract_lets +onlyGivenNames y; clear_value y; revert y; intro _) | (with_reducible apply keep_clearPort)
                 | (with_reducible apply keep_setLink) | (with_reducible apply keep_modPort) | (with_reducible apply keep_setF)
                 | (with_reducible apply keep_sendLc) | (with_reducible refine keep_ite ?_ ?_)
                 | (with_reducible apply keep_foldl) | (with_reducible apply keep_foldl1) | split | (dsimp only)
                 | (with_reducible refine keep_mk ?_ rfl rfl rfl rfl rfl rfl rfl rfl rfl ?_ ?_ ?_ ?_ ?_ ?_ ?_ ?_ ?_ ?_ ?_ ?_ ?_ ?_ ?_ ?_ ?_ ?_))

theorem keep_execLockAcquired {P : Area → Prop} {z : State} {a_p : Nat} {s : State} (h : Keeps P z s)
    (kports : P .ports := by assumption) :
    ∀ t, execLockAcquired a_p s = .next t → Keeps P z t := by
  unfold execLockAcquired; intro t e; injection e with e; subst e
  repeat' (first | (with_reducible assumption) | (intro) | (with_reducible apply keep_lockAcquired) | split | (dsimp only))

theorem keep_lockTimeout {P : Area → Prop} {z : State} {s : State} {a_p : Nat} (h : Keeps P z s)
    (kports : P .ports := by assumption) :
    Keeps P z (lockTimeout s a_p) := by
  unfold lockTimeout
  repeat' (first | (with_reducible assumption) | (intro) | (with_reducible apply keep_clearPort)
                 | (with_reducible apply keep_setLink) | (with_reducible refine keep_ite ?_ ?_) | split | (dsimp only))

theorem keep_execLockTimeout {P : Area → Prop} {z : State} {a_p : Nat} {s : State} (h : Keeps P z s)
    (kports : P .ports := by assumption) :
    ∀ t, execLockTimeout a_p s = .next t → Keeps P z t := by
  unfold execLockTimeout; intro t e; injection e with e; subst e
  repeat' (first | (with_reducible assumption) | (intro) | (with_reducible apply keep_lockTimeout) | split | (dsimp only))

theorem keep_lossOfLock {P : Area → Prop} {z : State} {s : State} {a_p : Nat} (h : Keeps P z s)
    (kbmk : P .bmk := by assumption) (kports : P .ports := by assumption) (kfabric : P .fabric := by assumption)
    (krings : P .rings := by assumption) (ktwins : P .twins := by assumption) (klog : P .log := by assumption) :
    Keeps P z (lossOfLock s a_p) := by
  unfold lossOfLock
  repeat' (first | (with_reducible assumption) | (intro) | (with_reducible apply keep_loseLock)
                 | (with_reducible refine keep_ite ?_ ?_) | split | (dsimp only))

theorem keep_execLossOfLock {P : Area → Prop} {z : State} {a_p : Nat} {s : State} (h : Keeps P z s)
    (kbmk : P .bmk := by assumption) (kports : P .ports := by assumption) (kfabric : P .fabric := by assumption)
    (krings : P .rings := by assumption) (ktwins : P .twins := by assumption) (klog : P .log := by assumption) :
    ∀ t, execLossOfLock a_p s = .next t → Keeps P z t := by
  unfold execLossOfLock; intro t e; injection e with e; subst e
  repeat' (first | (with_reducible assumption) | (intro) | (with_reducible apply keep_lossOfLock) | split | (dsimp only))

theorem keep_resetIdleDone {P : Area → Prop} {z : State} {s : State} {a_p : Nat} (h : Keeps P z s) :
    Keeps P z (resetIdleDone s a_p) := by
  unfold resetIdleDone
  repeat' (first | (with_reducible assumption) | (intro) | (with_reducible apply keep_setLink)
                 | (with_reducible refine keep_ite ?_ ?_) | split | (dsimp only))

theorem keep_execResetIdleDone {P : Area → Prop} {z : State} {a_p : Nat} {s : State} (h : Keeps P z s) :
    ∀ t, execResetIdleDone a_p s = .next t → Keeps P z t := by
  unfold execResetIdleDone; intro t e; injection e with e; subst e
  repeat' (first | (with_reducible assumption) | (intro) | (with_reducible apply keep_resetIdleDone) | split | (dsimp only))

theorem keep_requestRetry {P : Area → Prop} {z : State} {s : State} {a_p : Nat} (h : Keeps P z s)
    (kbmk : P .bmk := by assumption) (kports : P .ports := by assumption) (kfabric : P .fabric := by assumption)
    (krings : P .rings := by assumption) (ktwins : P .twins := by assumption) (klog : P .log := by assumption) :
    Keeps P z (requestRetry s a_p) := by
  unfold requestRetry
  repeat' (first | (with_reducible assumption) | (exact Or.inl (by assumption)) | (exact Or.inr rfl)
                 | (exact Or.inr ⟨rfl, rfl, rfl, rfl⟩) | (intro)
                 | (extract_lets +onlyGivenNames y; refine keep_cut (y := y) ?_ ?_; (focus (dsimp only [y]; clear y)); rotate_left; (focus (clear_value y; revert y; intro _ _)))
                 | (extract_lets +onlyGivenNames y; refine keep_cut1 (y := y) ?_ ?_; (focus (dsimp only [y]; clear y)); rotate_left; (focus (clear_value y; revert y; intro _ _)))
                 | (extract_lets +onlyGivenNames y; refine keep_cut2 (y := y) ?_ ?_; (focus (dsimp only [y]; clear y)); rotate_left; (focus (clear_value y; revert y; intro _ _)))
                 | (extract_lets +onlyGivenNames y; clear_value y; revert y; intro _) | (with_reducible apply keep_modVc)
                 | (with_reducible apply keep_satF) | (with_reducible apply keep_sendLc) | (with_reducible apply keep_loseLock)
                 | (with_reducible refine keep_ite ?_ ?_) | (with_reducible apply keep_foldl)
                 | (with_reducible apply keep_foldl1) | split | (dsimp only)
                 | (with_reducible refine keep_mk ?_ rfl rfl rfl rfl rfl rfl rfl rfl rfl ?_ ?_ ?_ ?_ ?_ ?_ ?_ ?_ ?_ ?_ ?_ ?_ ?_ ?_ ?_ ?_ ?_ ?_))

theorem keep_dataFlit {P : Area → Prop} {z : State} {s : State} {a_p : Nat} {a_f : Bytes} (h : Keeps P z s)
    (kbmk : P .bmk := by assumption) (kports : P .ports := by assumption) (kfabric : P .fabric := by assumption)
    (krings : P .rings := by assumption) (ktwins : P .twins := by assumption) (klog : P .log := by assumption) :
    Keeps P z (dataFlit s a_p a_f) := by
  unfold dataFlit
  repeat' (first | (with_reducible assumption) | (exact Or.inl (by assumption)) | (exact Or.inr rfl)
                 | (exact Or.inr ⟨rfl, rfl, rfl, rfl⟩) | (intro)
                 | (extract_lets +onlyGivenNames y; refine keep_cut (y := y) ?_ ?_; (focus (dsimp only [y]; clear y)); rotate_left; (focus (clear_value y; revert y; intro _ _)))
                 | (extract_lets +onlyGivenNames y; refine keep_cut1 (y := y) ?_ ?_; (focus (dsimp only [y]; clear y)); rotate_left; (focus (clear_value y; revert y; intro _ _)))
                 | (extract_lets +onlyGivenNames y; refine keep_cut2 (y := y) ?_ ?_; (focus (dsimp only [y]; clear y)); rotate_left; (focus (clear_value y; revert y; intro _ _)))
                 | (extract_lets +onlyGivenNames y; clear_value y; revert y; intro _) | (with_reducible apply keep_modVc)
                 | (with_reducible apply keep_requestRetry) | (with_reducible refine keep_ite ?_ ?_) | split | (dsimp only)
                 | (with_reducible refine keep_mk ?_ rfl rfl rfl rfl rfl rfl rfl rfl rfl ?_ ?_ ?_ ?_ ?_ ?_ ?_ ?_ ?_ ?_ ?_ ?_ ?_ ?_ ?_ ?_ ?_ ?_))

theorem keep_takeLc {P : Area → Prop} {z : State} {s : State} {a_p : Nat} {a_v : Nat} {a_f : Bytes} {a_retry : Bool}
    (h : Keeps P z s) (kports : P .ports := by assumption) :
    Keeps P z (takeLc s a_p a_v a_f a_retry) := by
  unfold takeLc
  repeat' (first | (with_reducible assumption) | (exact Or.inl (by assumption)) | (exact Or.inr rfl)
                 | (exact Or.inr ⟨rfl, rfl, rfl, rfl⟩) | (intro)
                 | (extract_lets +onlyGivenNames y; refine keep_cut (y := y) ?_ ?_; (focus (dsimp only [y]; clear y)); rotate_left; (focus (clear_value y; revert y; intro _ _)))
                 | (extract_lets +onlyGivenNames y; refine keep_cut1 (y := y) ?_ ?_; (focus (dsimp only [y]; clear y)); rotate_left; (focus (clear_value y; revert y; intro _ _)))
                 | (extract_lets +onlyGivenNames y; refine keep_cut2 (y := y) ?_ ?_; (focus (dsimp only [y]; clear y)); rotate_left; (focus (clear_value y; revert y; intro _ _)))
                 | (extract_lets +onlyGivenNames y; clear_value y; revert y; intro _) | (with_reducible apply keep_setF)
                 | (with_reducible apply keep_modVc) | (with_reducible apply keep_sendData)
                 | (with_reducible refine keep_ite ?_ ?_) | (with_reducible apply keep_foldl)
                 | (with_reducible apply keep_foldl1) | split | (dsimp only)
                 | (with_reducible refine keep_mk ?_ rfl rfl rfl rfl rfl rfl rfl rfl rfl ?_ ?_ ?_ ?_ ?_ ?_ ?_ ?_ ?_ ?_ ?_ ?_ ?_ ?_ ?_ ?_ ?_ ?_))

theorem keep_lcFlitIn {P : Area → Prop} {z : State} {s : State} {a_p : Nat} {a_f : Bytes} (h : Keeps P z s)
    (kbmk : P .bmk := by assumption) (kports : P .ports := by assumption) (kfabric : P .fabric := by assumption)
    (krings : P .rings := by assumption) (ktwins : P .twins := by assumption) (klog : P .log := by assumption) :
    Keeps P z (lcFlitIn s a_p a_f) := by
  unfold lcFlitIn
  repeat' (first | (with_reducible assumption) | (exact Or.inl (by assumption)) | (exact Or.inr rfl)
                 | (exact Or.inr ⟨rfl, rfl, rfl, rfl⟩) | (intro)
                 | (extract_lets +onlyGivenNames y; refine keep_cut (y := y) ?_ ?_; (focus (dsimp only [y]; clear y)); rotate_left; (focus (clear_value y; revert y; intro _ _)))
                 | (extract_lets +onlyGivenNames y; refine keep_cut1 (y := y) ?_ ?_; (focus (dsimp only [y]; clear y)); rotate_left; (focus (clear_value y; revert y; intro _ _)))
                 | (extract_lets +onlyGivenNames y; refine keep_cut2 (y := y) ?_ ?_; (focus (dsimp only [y]; clear y)); rotate_left; (focus (clear_value y; revert y; intro _ _)))
                 | (extract_lets +onlyGivenNames y; clear_value y; revert y; intro _) | (with_reducible apply keep_modPort)
                 | (with_reducible apply keep_setF) | (with_reducible apply keep_loseLock) | (with_reducible apply keep_takeLc)
                 | (with_reducible refine keep_ite ?_ ?_) | (with_reducible apply keep_foldl)
                 | (with_reducible apply keep_foldl1) | split | (dsimp only)
                 | (with_reducible refine keep_mk ?_ rfl rfl rfl rfl rfl rfl rfl rfl rfl ?_ ?_ ?_ ?_ ?_ ?_ ?_ ?_ ?_ ?_ ?_ ?_ ?_ ?_ ?_ ?_ ?_ ?_))

theorem keep_flitIn {P : Area → Prop} {z : State} {s : State} {a_p : Nat} {a_corr : Nat} {a_unc : Nat} {a_f : Bytes}
    (h : Keeps P z s) (kbmk : P .bmk := by assumption) (kports : P .ports := by assumption)
    (kfabric : P .fabric := by assumption) (krings : P .rings := by assumption) (ktwins : P .twins := by assumption)
    (klog : P .log := by assumption) :
    Keeps P z (flitIn s a_p a_corr a_unc a_f) := by
  unfold flitIn
  repeat' (first | (with_reducible assumption) | (exact Or.inl (by assumption)) | (exact Or.inr rfl)
                 | (exact Or.inr ⟨rfl, rfl, rfl, rfl⟩) | (intro)
                 | (extract_lets +onlyGivenNames y; refine keep_cut (y := y) ?_ ?_; (focus (dsimp only [y]; clear y)); rotate_left; (focus (clear_value y; revert y; intro _ _)))
                 | (extract_lets +onlyGivenNames y; refine keep_cut1 (y := y) ?_ ?_; (focus (dsimp only [y]; clear y)); rotate_left; (focus (clear_value y; revert y; intro _ _)))
                 | (extract_lets +onlyGivenNames y; refine keep_cut2 (y := y) ?_ ?_; (focus (dsimp only [y]; clear y)); rotate_left; (focus (clear_value y; revert y; intro _ _)))
                 | (extract_lets +onlyGivenNames y; clear_value y; revert y; intro _) | (with_reducible apply keep_satF)
                 | (with_reducible apply keep_lcFlitIn) | (with_reducible apply keep_dataFlit)
                 | (with_reducible apply keep_modVc) | (with_reducible apply keep_requestRetry)
                 | (with_reducible refine keep_ite ?_ ?_) | split | (dsimp only)
                 | (with_reducible refine keep_mk ?_ rfl rfl rfl rfl rfl rfl rfl rfl rfl ?_ ?_ ?_ ?_ ?_ ?_ ?_ ?_ ?_ ?_ ?_ ?_ ?_ ?_ ?_ ?_ ?_ ?_))

theorem keep_execDataFlitReceive {P : Area → Prop} {z : State} {a_p : Nat} {a_corr : Nat} {a_unc : Nat} {a_f : Bytes}
    {s : State} (h : Keeps P z s) (kbmk : P .bmk := by assumption) (kports : P .ports := by assumption)
    (kfabric : P .fabric := by assumption) (krings : P .rings := by assumption) (ktwins : P .twins := by assumption)
    (klog : P .log := by assumption) :
    ∀ t, execDataFlitReceive a_p a_corr a_unc a_f s = .next t → Keeps P z t := by
  unfold execDataFlitReceive; intro t e; injection e with e; subst e
  repeat' (first | (with_reducible assumption) | (intro) | (with_reducible apply keep_flitIn) | split | (dsimp only))

theorem keep_execLcFlitReceive {P : Area → Prop} {z : State} {a_p : Nat} {a_corr : Nat} {a_unc : Nat} {a_f : Bytes}
    {s : State} (h : Keeps P z s) (kbmk : P .bmk := by assumption) (kports : P .ports := by assumption)
    (kfabric : P .fabric := by assumption) (krings : P .rings := by assumption) (ktwins : P .twins := by assumption)
    (klog : P .log := by assumption) :
    ∀ t, execLcFlitReceive a_p a_corr a_unc a_f s = .next t → Keeps P z t := by
  unfold execLcFlitReceive; intro t e; injection e with e; subst e
  repeat' (first | (with_reducible assumption) | (intro) | (with_reducible apply keep_flitIn) | split | (dsimp only))

theorem keep_retryRepeat {P : Area → Prop} {z : State} {s : State} {a_p : Nat} (h : Keeps P z s)
    (kbmk : P .bmk := by assumption) (kports : P .ports := by assumption) (kfabric : P .fabric := by assumption)
    (krings : P .rings := by assumption) (ktwins : P .twins := by assumption) (klog : P .log := by assumption) :
    Keeps P z (retryRepeat s a_p) := by
  unfold retryRepeat
  repeat' (first | (with_reducible assumption) | (intro) | (with_reducible apply keep_requestRetry)
                 | (with_reducible refine keep_ite ?_ ?_) | split | (dsimp only))

theorem keep_execRetryRepeat {P : Area → Prop} {z : State} {a_p : Nat} {s : State} (h : Keeps P z s)
    (kbmk : P .bmk := by assumption) (kports : P .ports := by assumption) (kfabric : P .fabric := by assumption)
    (krings : P .rings := by assumption) (ktwins : P .twins := by assumption) (klog : P .log := by assumption) :
    ∀ t, execRetryRepeat a_p s = .next t → Keeps P z t := by
  unfold execRetryRepeat; intro t e; injection e with e; subst e
  repeat' (first | (with_reducible assumption) | (intro) | (with_reducible apply keep_retryRepeat) | split | (dsimp only))

theorem keep_ackSend {P : Area → Prop} {z : State} {s : State} {a_p : Nat} (h : Keeps P z s)
    (kports : P .ports := by assumption) :
    Keeps P z (ackSend s a_p) := by
  unfold ackSend
  repeat' (first | (with_reducible assumption) | (intro) | (with_reducible apply keep_sendLc)
                 | (with_reducible refine keep_ite ?_ ?_) | split | (dsimp only))

theorem keep_execAckSend {P : Area → Prop} {z : State} {a_p : Nat} {s : State} (h : Keeps P z s)
    (kports : P .ports := by assumption) :
    ∀ t, execAckSend a_p s = .next t → Keeps P z t := by
  unfold execAckSend; intro t e; injection e with e; subst e
  repeat' (first | (with_reducible assumption) | (intro) | (with_reducible apply keep_ackSend) | split | (dsimp only))

theorem keep_dropOldNak {P : Area → Prop} {z : State} {s : State} {a_p : Nat} (h : Keeps P z s)
    (kports : P .ports := by assumption) (krings : P .rings := by assumption) :
    Keeps P z (dropOldNak s a_p) := by
  unfold dropOldNak
  repeat' (first | (with_reducible assumption) | (exact Or.inl (by assumption)) | (exact Or.inr rfl)
                 | (exact Or.inr ⟨rfl, rfl, rfl, rfl⟩) | (intro)
                 | (extract_lets +onlyGivenNames y; refine keep_cut (y := y) ?_ ?_; (focus (dsimp only [y]; clear y)); rotate_left; (focus (clear_value y; revert y; intro _ _)))
                 | (extract_lets +onlyGivenNames y; refine keep_cut1 (y := y) ?_ ?_; (focus (dsimp only [y]; clear y)); rotate_left; (focus (clear_value y; revert y; intro _ _)))
                 | (extract_lets +onlyGivenNames y; refine keep_cut2 (y := y) ?_ ?_; (focus (dsimp only [y]; clear y)); rotate_left; (focus (clear_value y; revert y; intro _ _)))
                 | (extract_lets +onlyGivenNames y; clear_value y; revert y; intro _) | (with_reducible apply keep_modPort)
                 | (with_reducible apply keep_raise) | (with_reducible apply keep_satF) | (with_reducible refine keep_ite ?_ ?_)
                 | split | (dsimp only)
                 | (with_reducible refine keep_mk ?_ rfl rfl rfl rfl rfl rfl rfl rfl rfl ?_ ?_ ?_ ?_ ?_ ?_ ?_ ?_ ?_ ?_ ?_ ?_ ?_ ?_ ?_ ?_ ?_ ?_))

theorem keep_queueVc1 {P : Area → Prop} {z : State} {s : State} {a_p : Nat} {a_nak : Bool} {a_frame : Bytes}
    (h : Keeps P z s) (kports : P .ports := by assumption) (krings : P .rings := by assumption) :
    Keeps P z (queueVc1 s a_p a_nak a_frame) := by
  unfold queueVc1
  repeat' (first | (with_reducible assumption) | (exact Or.inl (by assumption)) | (exact Or.inr rfl)
                 | (exact Or.inr ⟨rfl, rfl, rfl, rfl⟩) | (intro)
                 | (extract_lets +onlyGivenNames y; refine keep_cut (y := y) ?_ ?_; (focus (dsimp only [y]; clear y)); rotate_left; (focus (clear_value y; revert y; intro _ _)))
                 | (extract_lets +onlyGivenNames y; refine keep_cut1 (y := y) ?_ ?_; (focus (dsimp only [y]; clear y)); rotate_left; (focus (clear_value y; revert y; intro _ _)))
                 | (extract_lets +onlyGivenNames y; refine keep_cut2 (y := y) ?_ ?_; (focus (dsimp only [y]; clear y)); rotate_left; (focus (clear_value y; revert y; intro _ _)))
                 | (extract_lets +onlyGivenNames y; clear_value y; revert y; intro _) | (with_reducible apply keep_dropOldNak)
                 | (with_reducible apply keep_sendFrame) | (with_reducible apply keep_modPort)
                 | (with_reducible refine keep_ite ?_ ?_) | split | (dsimp only)
                 | (with_reducible refine keep_mk ?_ rfl rfl rfl rfl rfl rfl rfl rfl rfl ?_ ?_ ?_ ?_ ?_ ?_ ?_ ?_ ?_ ?_ ?_ ?_ ?_ ?_ ?_ ?_ ?_ ?_))

theorem keep_nakSend {P : Area → Prop} {z : State} {s : State} {a_p : Nat} (h : Keeps P z s)
    (kports : P .ports := by assumption) :
    Keeps P z (nakSend s a_p) := by
  unfold nakSend
  repeat' (first | (with_reducible assumption) | (exact Or.inl (by assumption)) | (exact Or.inr rfl)
                 | (exact Or.inr ⟨rfl, rfl, rfl, rfl⟩) | (intro)
                 | (extract_lets +onlyGivenNames y; refine keep_cut (y := y) ?_ ?_; (focus (dsimp only [y]; clear y)); rotate_left; (focus (clear_value y; revert y; intro _ _)))
                 | (extract_lets +onlyGivenNames y; refine keep_cut1 (y := y) ?_ ?_; (focus (dsimp only [y]; clear y)); rotate_left; (focus (clear_value y; revert y; intro _ _)))
                 | (extract_lets +onlyGivenNames y; refine keep_cut2 (y := y) ?_ ?_; (focus (dsimp only [y]; clear y)); rotate_left; (focus (clear_value y; revert y; intro _ _)))
                 | (extract_lets +onlyGivenNames y; clear_value y; revert y; intro _) | (with_reducible apply keep_sendFrame)
                 | (with_reducible apply keep_modPort) | (with_reducible refine keep_ite ?_ ?_) | split | (dsimp only)
                 | (with_reducible refine keep_mk ?_ rfl rfl rfl rfl rfl rfl rfl rfl rfl ?_ ?_ ?_ ?_ ?_ ?_ ?_ ?_ ?_ ?_ ?_ ?_ ?_ ?_ ?_ ?_ ?_ ?_))

theorem keep_execNakSend {P : Area → Prop} {z : State} {a_p : Nat} {s : State} (h : Keeps P z s)
    (kports : P .ports := by assumption) :
    ∀ t, execNakSend a_p s = .next t → Keeps P z t := by
  unfold execNakSend; intro t e; injection e with e; subst e
  repeat' (first | (with_reducible assumption) | (intro) | (with_reducible apply keep_nakSend) | split | (dsimp only))

theorem keep_haltFrameSend {P : Area → Prop} {z : State} {s : State} {a_p : Nat} (h : Keeps P z s)
    (kports : P .ports := by assumption) (krings : P .rings := by assumption) :
    Keeps P z (haltFrameSend s a_p) := by
  unfold haltFrameSend
  repeat' (first | (with_reducible assumption) | (intro) | (with_reducible apply keep_queueVc1)
                 | (with_reducible refine keep_ite ?_ ?_) | split | (dsimp only))

theorem keep_execHaltFrameSend {P : Area → Prop} {z : State} {a_p : Nat} {s : State} (h : Keeps P z s)
    (kports : P .ports := by assumption) (krings : P .rings := by assumption) :
    ∀ t, execHaltFrameSend a_p s = .next t → Keeps P z t := by
  unfold execHaltFrameSend; intro t e; injection e with e; subst e
  repeat' (first | (with_reducible assumption) | (intro) | (with_reducible apply keep_haltFrameSend) | split | (dsimp only))

theorem keep_violLog {P : Area → Prop} {z : State} {s : State} {a_p : Nat} {a_x : FrameInfo} (h : Keeps P z s) :
    Keeps P z (violLog s a_p a_x) := by
  unfold violLog
  repeat' (first | (with_reducible assumption) | (intro)
                 | (extract_lets +onlyGivenNames y; refine keep_cut (y := y) ?_ ?_; (focus (dsimp only [y]; clear y)); rotate_left; (focus (clear_value y; revert y; intro _ _)))
                 | (extract_lets +onlyGivenNames y; refine keep_cut1 (y := y) ?_ ?_; (focus (dsimp only [y]; clear y)); rotate_left; (focus (clear_value y; revert y; intro _ _)))
                 | (extract_lets +onlyGivenNames y; refine keep_cut2 (y := y) ?_ ?_; (focus (dsimp only [y]; clear y)); rotate_left; (focus (clear_value y; revert y; intro _ _)))
                 | (extract_lets +onlyGivenNames y; clear_value y; revert y; intro _) | (with_reducible apply keep_setF)
                 | (with_reducible apply keep_addF) | (with_reducible refine keep_ite ?_ ?_) | split | (dsimp only))

theorem keep_sendNak {P : Area → Prop} {z : State} {s : State} {a_p : Nat} {a_x : FrameInfo} (h : Keeps P z s)
    (kports : P .ports := by assumption) (krings : P .rings := by assumption) :
    Keeps P z (sendNak s a_p a_x) := by
  unfold sendNak
  repeat' (first | (with_reducible assumption) | (intro) | (with_reducible apply keep_queueVc1) | split | (dsimp only))

theorem keep_violation {P : Area → Prop} {z : State} {s : State} {a_p : Nat} {a_x : FrameInfo} (h : Keeps P z s)
    (kbmk : P .bmk := by assumption) (kports : P .ports := by assumption) (kfabric : P .fabric := by assumption)
    (krings : P .rings := by assumption) (ktwins : P .twins := by assumption) (klog : P .log := by assumption) :
    Keeps P z (violation s a_p a_x) := by
  unfold violation
  repeat' (first | (with_reducible assumption) | (exact Or.inl (by assumption)) | (exact Or.inr rfl)
                 | (exact Or.inr ⟨rfl, rfl, rfl, rfl⟩) | (intro)
                 | (extract_lets +onlyGivenNames y; refine keep_cut (y := y) ?_ ?_; (focus (dsimp only [y]; clear y)); rotate_left; (focus (clear_value y; revert y; intro _ _)))
                 | (extract_lets +onlyGivenNames y; refine keep_cut1 (y := y) ?_ ?_; (focus (dsimp only [y]; clear y)); rotate_left; (focus (clear_value y; revert y; intro _ _)))
                 | (extract_lets +onlyGivenNames y; refine keep_cut2 (y := y) ?_ ?_; (focus (dsimp only [y]; clear y)); rotate_left; (focus (clear_value y; revert y; intro _ _)))
                 | (extract_lets +onlyGivenNames y; clear_value y; revert y; intro _) | (with_reducible apply keep_modPort)
                 | (with_reducible apply keep_satF) | (with_reducible apply keep_violLog) | (with_reducible apply keep_raise)
                 | (with_reducible apply keep_resetLink) | (with_reducible apply keep_queueVc1)
                 | (with_reducible refine keep_ite ?_ ?_) | split | (dsimp only)
                 | (with_reducible refine keep_mk ?_ rfl rfl rfl rfl rfl rfl rfl rfl rfl ?_ ?_ ?_ ?_ ?_ ?_ ?_ ?_ ?_ ?_ ?_ ?_ ?_ ?_ ?_ ?_ ?_ ?_))

theorem keep_cutFrame {P : Area → Prop} {z : State} {s : State} {a_p : Nat} {a_v : Nat} {a_len : Nat} (h : Keeps P z s)
    (kports : P .ports := by assumption) :
    Keeps P z (cutFrame s a_p a_v a_len) := by
  unfold cutFrame
  repeat' (first | (with_reducible assumption) | (intro) | (with_reducible apply keep_modVc) | split | (dsimp only))

theorem keep_returnCredit {P : Area → Prop} {z : State} {s : State} {a_p : Nat} {a_v : Nat} {a_len : Nat} (h : Keeps P z s) :
    Keeps P z (returnCredit s a_p a_v a_len) := by
  unfold returnCredit
  repeat' (first | (with_reducible assumption) | (intro)
                 | (extract_lets +onlyGivenNames y; refine keep_cut (y := y) ?_ ?_; (focus (dsimp only [y]; clear y)); rotate_left; (focus (clear_value y; revert y; intro _ _)))
                 | (extract_lets +onlyGivenNames y; refine keep_cut1 (y := y) ?_ ?_; (focus (dsimp only [y]; clear y)); rotate_left; (focus (clear_value y; revert y; intro _ _)))
                 | (extract_lets +onlyGivenNames y; refine keep_cut2 (y := y) ?_ ?_; (focus (dsimp only [y]; clear y)); rotate_left; (focus (clear_value y; revert y; intro _ _)))
                 | (extract_lets +onlyGivenNames y; clear_value y; revert y; intro _) | (with_reducible apply keep_addF) | split
                 | (dsimp only))

theorem keep_discardFrames {P : Area → Prop} {z : State} {s : State} {a_p : Nat} {a_n : Nat} (h : Keeps P z s)
    (kports : P .ports := by assumption) :
    Keeps P z (discardFrames s a_p a_n) := by
  unfold discardFrames
  repeat' (first | (with_reducible assumption) | (exact Or.inl (by assumption)) | (exact Or.inr rfl)
                 | (exact Or.inr ⟨rfl, rfl, rfl, rfl⟩) | (intro)
                 | (extract_lets +onlyGivenNames y; refine keep_cut (y := y) ?_ ?_; (focus (dsimp only [y]; clear y)); rotate_left; (focus (clear_value y; revert y; intro _ _)))
                 | (extract_lets +onlyGivenNames y; refine keep_cut1 (y := y) ?_ ?_; (focus (dsimp only [y]; clear y)); rotate_left; (focus (clear_value y; revert y; intro _ _)))
                 | (extract_lets +onlyGivenNames y; refine keep_cut2 (y := y) ?_ ?_; (focus (dsimp only [y]; clear y)); rotate_left; (focus (clear_value y; revert y; intro _ _)))
                 | (extract_lets +onlyGivenNames y; clear_value y; revert y; intro _) | (with_reducible apply keep_modPort)
                 | (with_reducible apply keep_modVc) | (with_reducible apply keep_returnCredit)
                 | (with_reducible refine keep_ite ?_ ?_) | (with_reducible apply keep_foldl)
                 | (with_reducible apply keep_foldl1) | split | (dsimp only)
                 | (with_reducible refine keep_mk ?_ rfl rfl rfl rfl rfl rfl rfl rfl rfl ?_ ?_ ?_ ?_ ?_ ?_ ?_ ?_ ?_ ?_ ?_ ?_ ?_ ?_ ?_ ?_ ?_ ?_))

theorem keep_closeBye {P : Area → Prop} {z : State} {s : State} {a_p : Nat} {a_n : Nat} (h : Keeps P z s)
    (kbmk : P .bmk := by assumption) (kports : P .ports := by assumption) (kfabric : P .fabric := by assumption)
    (krings : P .rings := by assumption) (ktwins : P .twins := by assumption) (klog : P .log := by assumption) :
    Keeps P z (closeBye s a_p a_n) := by
  unfold closeBye
  repeat' (first | (with_reducible assumption) | (intro)
                 | (extract_lets +onlyGivenNames y; refine keep_cut (y := y) ?_ ?_; (focus (dsimp only [y]; clear y)); rotate_left; (focus (clear_value y; revert y; intro _ _)))
                 | (extract_lets +onlyGivenNames y; refine keep_cut1 (y := y) ?_ ?_; (focus (dsimp only [y]; clear y)); rotate_left; (focus (clear_value y; revert y; intro _ _)))
                 | (extract_lets +onlyGivenNames y; refine keep_cut2 (y := y) ?_ ?_; (focus (dsimp only [y]; clear y)); rotate_left; (focus (clear_value y; revert y; intro _ _)))
                 | (extract_lets +onlyGivenNames y; clear_value y; revert y; intro _)
                 | (with_reducible apply keep_discardFrames) | (with_reducible apply keep_detach)
                 | (with_reducible apply keep_raise) | (with_reducible apply keep_queueVc1) | split | (dsimp only))

theorem keep_byeReached {P : Area → Prop} {z : State} {s : State} {a_p : Nat} {a_n : Nat} (h : Keeps P z s)
    (kbmk : P .bmk := by assumption) (kports : P .ports := by assumption) (kfabric : P .fabric := by assumption)
    (krings : P .rings := by assumption) (ktwins : P .twins := by assumption) (klog : P .log := by assumption) :
    Keeps P z (byeReached s a_p a_n) := by
  unfold byeReached
  repeat' (first | (with_reducible assumption) | (intro) | (with_reducible apply keep_closeBye)
                 | (with_reducible refine keep_ite ?_ ?_) | split | (dsimp only))

theorem keep_byeWaitExpiry {P : Area → Prop} {z : State} {s : State} {a_n : Nat} (h : Keeps P z s)
    (kbmk : P .bmk := by assumption) (kports : P .ports := by assumption) (kfabric : P .fabric := by assumption)
    (krings : P .rings := by assumption) (ktwins : P .twins := by assumption) (klog : P .log := by assumption) :
    Keeps P z (byeWaitExpiry s a_n) := by
  unfold byeWaitExpiry
  repeat' (first | (with_reducible assumption) | (exact Or.inl (by assumption)) | (exact Or.inr rfl)
                 | (exact Or.inr ⟨rfl, rfl, rfl, rfl⟩) | (intro)
                 | (extract_lets +onlyGivenNames y; refine keep_cut (y := y) ?_ ?_; (focus (dsimp only [y]; clear y)); rotate_left; (focus (clear_value y; revert y; intro _ _)))
                 | (extract_lets +onlyGivenNames y; refine keep_cut1 (y := y) ?_ ?_; (focus (dsimp only [y]; clear y)); rotate_left; (focus (clear_value y; revert y; intro _ _)))
                 | (extract_lets +onlyGivenNames y; refine keep_cut2 (y := y) ?_ ?_; (focus (dsimp only [y]; clear y)); rotate_left; (focus (clear_value y; revert y; intro _ _)))
                 | (extract_lets +onlyGivenNames y; clear_value y; revert y; intro _) | (with_reducible apply keep_closeBye)
                 | split | (dsimp only)
                 | (with_reducible refine keep_mk ?_ rfl rfl rfl rfl rfl rfl rfl rfl rfl ?_ ?_ ?_ ?_ ?_ ?_ ?_ ?_ ?_ ?_ ?_ ?_ ?_ ?_ ?_ ?_ ?_ ?_))

theorem keep_execByeWaitExpiry {P : Area → Prop} {z : State} {a_n : Nat} {s : State} (h : Keeps P z s)
    (kbmk : P .bmk := by assumption) (kports : P .ports := by assumption) (kfabric : P .fabric := by assumption)
    (krings : P .rings := by assumption) (ktwins : P .twins := by assumption) (klog : P .log := by assumption) :
    ∀ t, execByeWaitExpiry a_n s = .next t → Keeps P z t := by
  unfold execByeWaitExpiry; intro t e; injection e with e; subst e
  repeat' (first | (with_reducible assumption) | (intro) | (with_reducible apply keep_byeWaitExpiry) | split | (dsimp only))

theorem keep_dropFrame {P : Area → Prop} {z : State} {s : State} {a_p : Nat} {a_f : Bytes} {a_x : FrameInfo}
    (h : Keeps P z s) (kbmk : P .bmk := by assumption) (kports : P .ports := by assumption)
    (kfabric : P .fabric := by assumption) (krings : P .rings := by assumption) (ktwins : P .twins := by assumption)
    (klog : P .log := by assumption) :
    Keeps P z (dropFrame s a_p a_f a_x) := by
  unfold dropFrame
  repeat' (first | (with_reducible assumption) | (exact Or.inl (by assumption)) | (exact Or.inr rfl)
                 | (exact Or.inr ⟨rfl, rfl, rfl, rfl⟩) | (intro)
                 | (extract_lets +onlyGivenNames y; refine keep_cut (y := y) ?_ ?_; (focus (dsimp only [y]; clear y)); rotate_left; (focus (clear_value y; revert y; intro _ _)))
                 | (extract_lets +onlyGivenNames y; refine keep_cut1 (y := y) ?_ ?_; (focus (dsimp only [y]; clear y)); rotate_left; (focus (clear_value y; revert y; intro _ _)))
                 | (extract_lets +onlyGivenNames y; refine keep_cut2 (y := y) ?_ ?_; (focus (dsimp only [y]; clear y)); rotate_left; (focus (clear_value y; revert y; intro _ _)))
                 | (extract_lets +onlyGivenNames y; clear_value y; revert y; intro _) | (with_reducible apply keep_returnCredit)
                 | (with_reducible apply keep_closeBye) | (with_reducible apply keep_violation)
                 | (with_reducible refine keep_ite ?_ ?_) | split | (dsimp only)
                 | (with_reducible refine keep_mk ?_ rfl rfl rfl rfl rfl rfl rfl rfl rfl ?_ ?_ ?_ ?_ ?_ ?_ ?_ ?_ ?_ ?_ ?_ ?_ ?_ ?_ ?_ ?_ ?_ ?_))

theorem keep_applyVerdict {P : Area → Prop} {z s : State} {p : Nat} {f : Bytes} {v : Verdict} (h : Keeps P z s) 
    (kbmk : P .bmk := by assumption) (kports : P .ports := by assumption) (kfabric : P .fabric := by assumption) (krings : P .rings := by assumption) (ktwins : P .twins := by assumption) (klog : P .log := by assumption) : Keeps P z (applyVerdict s p f v) := by
  cases v with
  | fail x => exact keep_dropFrame h
  | pass n => exact keep_modPort h
  | unknownGroup n => exact keep_modPort (keep_sendNak (keep_satF h))

theorem keep_frameCheck {P : Area → Prop} {z : State} {s : State} {a_p : Nat} (h : Keeps P z s)
    (kbmk : P .bmk := by assumption) (kports : P .ports := by assumption) (kfabric : P .fabric := by assumption)
    (krings : P .rings := by assumption) (ktwins : P .twins := by assumption) (klog : P .log := by assumption) :
    Keeps P z (frameCheck s a_p) := by
  unfold frameCheck
  repeat' (first | (with_reducible assumption) | (exact Or.inl (by assumption)) | (exact Or.inr rfl)
                 | (exact Or.inr ⟨rfl, rfl, rfl, rfl⟩) | (intro)
                 | (extract_lets +onlyGivenNames y; refine keep_cut (y := y) ?_ ?_; (focus (dsimp only [y]; clear y)); rotate_left; (focus (clear_value y; revert y; intro _ _)))
                 | (extract_lets +onlyGivenNames y; refine keep_cut1 (y := y) ?_ ?_; (focus (dsimp only [y]; clear y)); rotate_left; (focus (clear_value y; revert y; intro _ _)))
                 | (extract_lets +onlyGivenNames y; refine keep_cut2 (y := y) ?_ ?_; (focus (dsimp only [y]; clear y)); rotate_left; (focus (clear_value y; revert y; intro _ _)))
                 | (extract_lets +onlyGivenNames y; clear_value y; revert y; intro _) | (with_reducible apply keep_applyVerdict)
                 | (with_reducible apply keep_cutFrame) | (with_reducible refine keep_ite ?_ ?_) | split | (dsimp only)
                 | (with_reducible refine keep_mk ?_ rfl rfl rfl rfl rfl rfl rfl rfl rfl ?_ ?_ ?_ ?_ ?_ ?_ ?_ ?_ ?_ ?_ ?_ ?_ ?_ ?_ ?_ ?_ ?_ ?_))

theorem keep_execFrameCheck {P : Area → Prop} {z : State} {a_p : Nat} {s : State} (h : Keeps P z s)
    (kbmk : P .bmk := by assumption) (kports : P .ports := by assumption) (kfabric : P .fabric := by assumption)
    (krings : P .rings := by assumption) (ktwins : P .twins := by assumption) (klog : P .log := by assumption) :
    ∀ t, execFrameCheck a_p s = .next t → Keeps P z t := by
  unfold execFrameCheck; intro t e; injection e with e; subst e
  repeat' (first | (with_reducible assumption) | (intro) | (with_reducible apply keep_frameCheck) | split | (dsimp only))

theorem keep_grant {P : Area → Prop} {z : State} {s : State} {a_p : Nat} {a_n : Nat} (h : Keeps P z s)
    (kbmk : P .bmk := by assumption) (kfabric : P .fabric := by assumption) :
    Keeps P z (grant s a_p a_n) := by
  unfold grant
  repeat' (first | (with_reducible assumption) | (exact Or.inl (by assumption)) | (exact Or.inr rfl)
                 | (exact Or.inr ⟨rfl, rfl, rfl, rfl⟩) | (intro)
                 | (extract_lets +onlyGivenNames y; refine keep_cut (y := y) ?_ ?_; (focus (dsimp only [y]; clear y)); rotate_left; (focus (clear_value y; revert y; intro _ _)))
                 | (extract_lets +onlyGivenNames y; refine keep_cut1 (y := y) ?_ ?_; (focus (dsimp only [y]; clear y)); rotate_left; (focus (clear_value y; revert y; intro _ _)))
                 | (extract_lets +onlyGivenNames y; refine keep_cut2 (y := y) ?_ ?_; (focus (dsimp only [y]; clear y)); rotate_left; (focus (clear_value y; revert y; intro _ _)))
                 | (extract_lets +onlyGivenNames y; clear_value y; revert y; intro _) | (with_reducible apply keep_setF)
                 | (with_reducible apply keep_modBmk) | (with_reducible apply keep_modFab) | split | (dsimp only)
                 | (with_reducible refine keep_mk ?_ rfl rfl rfl rfl rfl rfl rfl rfl rfl ?_ ?_ ?_ ?_ ?_ ?_ ?_ ?_ ?_ ?_ ?_ ?_ ?_ ?_ ?_ ?_ ?_ ?_))

theorem keep_refuse {P : Area → Prop} {z : State} {s : State} {a_p : Nat} {a_no : List Nat} (h : Keeps P z s)
    (kports : P .ports := by assumption) (krings : P .rings := by assumption) :
    Keeps P z (refuse s a_p a_no) := by
  unfold refuse
  repeat' (first | (with_reducible assumption) | (exact Or.inl (by assumption)) | (exact Or.inr rfl)
                 | (exact Or.inr ⟨rfl, rfl, rfl, rfl⟩) | (intro)
                 | (extract_lets +onlyGivenNames y; refine keep_cut (y := y) ?_ ?_; (focus (dsimp only [y]; clear y)); rotate_left; (focus (clear_value y; revert y; intro _ _)))
                 | (extract_lets +onlyGivenNames y; refine keep_cut1 (y := y) ?_ ?_; (focus (dsimp only [y]; clear y)); rotate_left; (focus (clear_value y; revert y; intro _ _)))
                 | (extract_lets +onlyGivenNames y; refine keep_cut2 (y := y) ?_ ?_; (focus (dsimp only [y]; clear y)); rotate_left; (focus (clear_value y; revert y; intro _ _)))
                 | (extract_lets +onlyGivenNames y; clear_value y; revert y; intro _) | (with_reducible apply keep_sendNak)
                 | (with_reducible refine keep_ite ?_ ?_) | split | (dsimp only)
                 | (with_reducible refine keep_mk ?_ rfl rfl rfl rfl rfl rfl rfl rfl rfl ?_ ?_ ?_ ?_ ?_ ?_ ?_ ?_ ?_ ?_ ?_ ?_ ?_ ?_ ?_ ?_ ?_ ?_))

theorem keep_answerHello {P : Area → Prop} {z : State} {s : State} {a_p : Nat} {a_f : Bytes} (h : Keeps P z s)
    (kbmk : P .bmk := by assumption) (kports : P .ports := by assumption) (kfabric : P .fabric := by assumption)
    (krings : P .rings := by assumption) :
    Keeps P z (answerHello s a_p a_f) := by
  unfold answerHello
  repeat' (first | (with_reducible assumption) | (intro)
                 | (extract_lets +onlyGivenNames y; refine keep_cut (y := y) ?_ ?_; (focus (dsimp only [y]; clear y)); rotate_left; (focus (clear_value y; revert y; intro _ _)))
                 | (extract_lets +onlyGivenNames y; refine keep_cut1 (y := y) ?_ ?_; (focus (dsimp only [y]; clear y)); rotate_left; (focus (clear_value y; revert y; intro _ _)))
                 | (extract_lets +onlyGivenNames y; refine keep_cut2 (y := y) ?_ ?_; (focus (dsimp only [y]; clear y)); rotate_left; (focus (clear_value y; revert y; intro _ _)))
                 | (extract_lets +onlyGivenNames y; have q : (_ : _) → _ := y; clear q; dsimp only [y]; clear y)
                 | (extract_lets +onlyGivenNames y; clear_value y; revert y; intro _) | (with_reducible apply keep_setF)
                 | (with_reducible apply keep_sendNak) | (with_reducible apply keep_grant) | (with_reducible apply keep_raise)
                 | (with_reducible apply keep_queueVc1) | (with_reducible apply keep_refuse)
                 | (with_reducible refine keep_ite ?_ ?_) | (with_reducible apply keep_foldl)
                 | (with_reducible apply keep_foldl1) | split | (dsimp only))

theorem keep_answerBye {P : Area → Prop} {z : State} {s : State} {a_p : Nat} {a_f : Bytes} (h : Keeps P z s)
    (kbmk : P .bmk := by assumption) (kports : P .ports := by assumption) (kfabric : P .fabric := by assumption)
    (krings : P .rings := by assumption) (ktwins : P .twins := by assumption) (klog : P .log := by assumption) :
    Keeps P z (answerBye s a_p a_f) := by
  unfold answerBye
  repeat' (first | (with_reducible assumption) | (exact Or.inl (by assumption)) | (exact Or.inr rfl)
                 | (exact Or.inr ⟨rfl, rfl, rfl, rfl⟩) | (intro)
                 | (extract_lets +onlyGivenNames y; refine keep_cut (y := y) ?_ ?_; (focus (dsimp only [y]; clear y)); rotate_left; (focus (clear_value y; revert y; intro _ _)))
                 | (extract_lets +onlyGivenNames y; refine keep_cut1 (y := y) ?_ ?_; (focus (dsimp only [y]; clear y)); rotate_left; (focus (clear_value y; revert y; intro _ _)))
                 | (extract_lets +onlyGivenNames y; refine keep_cut2 (y := y) ?_ ?_; (focus (dsimp only [y]; clear y)); rotate_left; (focus (clear_value y; revert y; intro _ _)))
                 | (extract_lets +onlyGivenNames y; clear_value y; revert y; intro _) | (with_reducible apply keep_closeBye)
                 | (with_reducible apply keep_modBmk) | (with_reducible refine keep_ite ?_ ?_)
                 | (with_reducible apply keep_foldl) | (with_reducible apply keep_foldl1) | split | (dsimp only)
                 | (with_reducible refine keep_mk ?_ rfl rfl rfl rfl rfl rfl rfl rfl rfl ?_ ?_ ?_ ?_ ?_ ?_ ?_ ?_ ?_ ?_ ?_ ?_ ?_ ?_ ?_ ?_ ?_ ?_))

theorem keep_takeVc1 {P : Area → Prop} {z : State} {s : State} {a_p : Nat} {a_v : Nat} {a_f : Bytes} (h : Keeps P z s)
    (kbmk : P .bmk := by assumption) (kports : P .ports := by assumption) (kfabric : P .fabric := by assumption)
    (krings : P .rings := by assumption) (ktwins : P .twins := by assumption) (klog : P .log := by assumption) :
    Keeps P z (takeVc1 s a_p a_v a_f) := by
  unfold takeVc1
  repeat' (first | (with_reducible assumption) | (exact Or.inl (by assumption)) | (exact Or.inr rfl)
                 | (exact Or.inr ⟨rfl, rfl, rfl, rfl⟩) | (intro)
                 | (extract_lets +onlyGivenNames y; refine keep_cut (y := y) ?_ ?_; (focus (dsimp only [y]; clear y)); rotate_left; (focus (clear_value y; revert y; intro _ _)))
                 | (extract_lets +onlyGivenNames y; refine keep_cut1 (y := y) ?_ ?_; (focus (dsimp only [y]; clear y)); rotate_left; (focus (clear_value y; revert y; intro _ _)))
                 | (extract_lets +onlyGivenNames y; refine keep_cut2 (y := y) ?_ ?_; (focus (dsimp only [y]; clear y)); rotate_left; (focus (clear_value y; revert y; intro _ _)))
                 | (extract_lets +onlyGivenNames y; clear_value y; revert y; intro _) | (with_reducible apply keep_returnCredit)
                 | (with_reducible apply keep_cutFrame) | (with_reducible apply keep_queueVc1)
                 | (with_reducible apply keep_violation) | (with_reducible apply keep_answerHello)
                 | (with_reducible apply keep_answerBye) | (with_reducible refine keep_ite ?_ ?_) | split | (dsimp only)
                 | (with_reducible refine keep_mk ?_ rfl rfl rfl rfl rfl rfl rfl rfl rfl ?_ ?_ ?_ ?_ ?_ ?_ ?_ ?_ ?_ ?_ ?_ ?_ ?_ ?_ ?_ ?_ ?_ ?_))

theorem keep_takeIf {P : Area → Prop} {z : State} {s : State} {a_p : Nat} {a_v : Nat} {a_ok : Nat → Bool}
    (h : Keeps P z s) (kbmk : P .bmk := by assumption) (kports : P .ports := by assumption)
    (kfabric : P .fabric := by assumption) (krings : P .rings := by assumption) (ktwins : P .twins := by assumption)
    (klog : P .log := by assumption) :
    Keeps P z (takeIf s a_p a_v a_ok) := by
  unfold takeIf
  repeat' (first | (with_reducible assumption) | (exact Or.inl (by assumption)) | (exact Or.inr rfl)
                 | (exact Or.inr ⟨rfl, rfl, rfl, rfl⟩) | (intro)
                 | (extract_lets +onlyGivenNames y; refine keep_cut (y := y) ?_ ?_; (focus (dsimp only [y]; clear y)); rotate_left; (focus (clear_value y; revert y; intro _ _)))
                 | (extract_lets +onlyGivenNames y; refine keep_cut1 (y := y) ?_ ?_; (focus (dsimp only [y]; clear y)); rotate_left; (focus (clear_value y; revert y; intro _ _)))
                 | (extract_lets +onlyGivenNames y; refine keep_cut2 (y := y) ?_ ?_; (focus (dsimp only [y]; clear y)); rotate_left; (focus (clear_value y; revert y; intro _ _)))
                 | (extract_lets +onlyGivenNames y; clear_value y; revert y; intro _) | (with_reducible apply keep_takeVc1)
                 | (with_reducible refine keep_ite ?_ ?_) | split | (dsimp only)
                 | (with_reducible refine keep_mk ?_ rfl rfl rfl rfl rfl rfl rfl rfl rfl ?_ ?_ ?_ ?_ ?_ ?_ ?_ ?_ ?_ ?_ ?_ ?_ ?_ ?_ ?_ ?_ ?_ ?_))

theorem keep_execHello {P : Area → Prop} {z : State} {a_p : Nat} {s : State} (h : Keeps P z s)
    (kbmk : P .bmk := by assumption) (kports : P .ports := by assumption) (kfabric : P .fabric := by assumption)
    (krings : P .rings := by assumption) (ktwins : P .twins := by assumption) (klog : P .log := by assumption) :
    ∀ t, execHello a_p s = .next t → Keeps P z t := by
  unfold execHello; intro t e; injection e with e; subst e
  repeat' (first | (with_reducible assumption) | (intro) | (with_reducible apply keep_takeIf) | split | (dsimp only))

theorem keep_execBye {P : Area → Prop} {z : State} {a_p : Nat} {s : State} (h : Keeps P z s)
    (kbmk : P .bmk := by assumption) (kports : P .ports := by assumption) (kfabric : P .fabric := by assumption)
    (krings : P .rings := by assumption) (ktwins : P .twins := by assumption) (klog : P .log := by assumption) :
    ∀ t, execBye a_p s = .next t → Keeps P z t := by
  unfold execBye; intro t e; injection e with e; subst e
  repeat' (first | (with_reducible assumption) | (intro) | (with_reducible apply keep_takeIf) | split | (dsimp only))

theorem keep_execVc1FrameCheck {P : Area → Prop} {z : State} {a_p : Nat} {a_v : Nat} {s : State} (h : Keeps P z s)
    (kbmk : P .bmk := by assumption) (kports : P .ports := by assumption) (kfabric : P .fabric := by assumption)
    (krings : P .rings := by assumption) (ktwins : P .twins := by assumption) (klog : P .log := by assumption) :
    ∀ t, execVc1FrameCheck a_p a_v s = .next t → Keeps P z t := by
  unfold execVc1FrameCheck; intro t e; injection e with e; subst e
  repeat' (first | (with_reducible assumption) | (intro) | (with_reducible apply keep_takeIf)
                 | (with_reducible refine keep_ite ?_ ?_) | split | (dsimp only))

theorem keep_sendHello {P : Area → Prop} {z : State} {s : State} {a_p : Nat} (h : Keeps P z s)
    (kports : P .ports := by assumption) (krings : P .rings := by assumption) :
    Keeps P z (sendHello s a_p) := by
  unfold sendHello
  repeat' (first | (with_reducible assumption) | (intro)
                 | (extract_lets +onlyGivenNames y; refine keep_cut (y := y) ?_ ?_; (focus (dsimp only [y]; clear y)); rotate_left; (focus (clear_value y; revert y; intro _ _)))
                 | (extract_lets +onlyGivenNames y; refine keep_cut1 (y := y) ?_ ?_; (focus (dsimp only [y]; clear y)); rotate_left; (focus (clear_value y; revert y; intro _ _)))
                 | (extract_lets +onlyGivenNames y; refine keep_cut2 (y := y) ?_ ?_; (focus (dsimp only [y]; clear y)); rotate_left; (focus (clear_value y; revert y; intro _ _)))
                 | (extract_lets +onlyGivenNames y; clear_value y; revert y; intro _) | (with_reducible apply keep_fresh)
                 | (with_reducible apply keep_queueVc1) | split | (dsimp only))

theorem keep_initComplete {P : Area → Prop} {z : State} {s : State} {a_p : Nat} (h : Keeps P z s)
    (kports : P .ports := by assumption) (krings : P .rings := by assumption) :
    Keeps P z (initComplete s a_p) := by
  unfold initComplete
  repeat' (first | (with_reducible assumption) | (intro)
                 | (extract_lets +onlyGivenNames y; refine keep_cut (y := y) ?_ ?_; (focus (dsimp only [y]; clear y)); rotate_left; (focus (clear_value y; revert y; intro _ _)))
                 | (extract_lets +onlyGivenNames y; refine keep_cut1 (y := y) ?_ ?_; (focus (dsimp only [y]; clear y)); rotate_left; (focus (clear_value y; revert y; intro _ _)))
                 | (extract_lets +onlyGivenNames y; refine keep_cut2 (y := y) ?_ ?_; (focus (dsimp only [y]; clear y)); rotate_left; (focus (clear_value y; revert y; intro _ _)))
                 | (extract_lets +onlyGivenNames y; clear_value y; revert y; intro _) | (with_reducible apply keep_raise)
                 | (with_reducible apply keep_setLink) | (with_reducible apply keep_sendHello)
                 | (with_reducible refine keep_ite ?_ ?_) | split | (dsimp only))

theorem keep_execInitComplete {P : Area → Prop} {z : State} {a_p : Nat} {s : State} (h : Keeps P z s)
    (kports : P .ports := by assumption) (krings : P .rings := by assumption) :
    ∀ t, execInitComplete a_p s = .next t → Keeps P z t := by
  unfold execInitComplete; intro t e; injection e with e; subst e
  repeat' (first | (with_reducible assumption) | (intro) | (with_reducible apply keep_initComplete) | split | (dsimp only))

theorem keep_fedStampSend {P : Area → Prop} {z : State} {s : State} {a_p : Nat} (h : Keeps P z s)
    (kports : P .ports := by assumption) :
    Keeps P z (fedStampSend s a_p) := by
  unfold fedStampSend
  repeat' (first | (with_reducible assumption) | (exact Or.inl (by assumption)) | (exact Or.inr rfl)
                 | (exact Or.inr ⟨rfl, rfl, rfl, rfl⟩) | (intro)
                 | (extract_lets +onlyGivenNames y; refine keep_cut (y := y) ?_ ?_; (focus (dsimp only [y]; clear y)); rotate_left; (focus (clear_value y; revert y; intro _ _)))
                 | (extract_lets +onlyGivenNames y; refine keep_cut1 (y := y) ?_ ?_; (focus (dsimp only [y]; clear y)); rotate_left; (focus (clear_value y; revert y; intro _ _)))
                 | (extract_lets +onlyGivenNames y; refine keep_cut2 (y := y) ?_ ?_; (focus (dsimp only [y]; clear y)); rotate_left; (focus (clear_value y; revert y; intro _ _)))
                 | (extract_lets +onlyGivenNames y; clear_value y; revert y; intro _) | (with_reducible apply keep_modPort)
                 | (with_reducible apply keep_sendFrame) | (with_reducible refine keep_ite ?_ ?_) | split | (dsimp only)
                 | (with_reducible refine keep_mk ?_ rfl rfl rfl rfl rfl rfl rfl rfl rfl ?_ ?_ ?_ ?_ ?_ ?_ ?_ ?_ ?_ ?_ ?_ ?_ ?_ ?_ ?_ ?_ ?_ ?_))

theorem keep_execFedStampSend {P : Area → Prop} {z : State} {a_p : Nat} {s : State} (h : Keeps P z s)
    (kports : P .ports := by assumption) :
    ∀ t, execFedStampSend a_p s = .next t → Keeps P z t := by
  unfold execFedStampSend; intro t e; injection e with e; subst e
  repeat' (first | (with_reducible assumption) | (intro) | (with_reducible apply keep_fedStampSend) | split | (dsimp only))

end Sys2Proof.Machine
end

