-- ==== Sys2Proof/Laws/KeepCells.lean ====
section
/-! SUPPORT. What the operations of Machine/Cells.lean keep (Laws/Keep.lean), one lemma per operation. -/

set_option linter.tactic.unusedName false
set_option linter.all false
set_option Elab.async false

namespace Sys2Proof.Machine

theorem keep_advance {P : Area → Prop} {z : State} {s : State} {a_g : Nat} {a_p : Pass} {a_w : Nat} {a_d : Option Lanes}
    (h : Keeps P z s) (kfabric : P .fabric := by assumption) :
    Keeps P z (advance s a_g a_p a_w a_d) := by
  unfold advance
  repeat' (first | (with_reducible assumption) | (exact Or.inl (by assumption)) | (exact Or.inr rfl)
                 | (exact Or.inr ⟨rfl, rfl, rfl, rfl⟩) | (intro)
                 | (extract_lets +onlyGivenNames y; refine keep_cut (y := y) ?_ ?_; (focus (dsimp only [y]; clear y)); rotate_left; (focus (clear_value y; revert y; intro _ _)))
                 | (extract_lets +onlyGivenNames y; refine keep_cut1 (y := y) ?_ ?_; (focus (dsimp only [y]; clear y)); rotate_left; (focus (clear_value y; revert y; intro _ _)))
                 | (extract_lets +onlyGivenNames y; refine keep_cut2 (y := y) ?_ ?_; (focus (dsimp only [y]; clear y)); rotate_left; (focus (clear_value y; revert y; intro _ _)))
                 | (extract_lets +onlyGivenNames y; clear_value y; revert y; intro _) | (with_reducible apply keep_modFab)
                 | (with_reducible refine keep_ite ?_ ?_) | split | (dsimp only)
                 | (with_reducible refine keep_mk ?_ rfl rfl rfl rfl rfl rfl rfl rfl rfl ?_ ?_ ?_ ?_ ?_ ?_ ?_ ?_ ?_ ?_ ?_ ?_ ?_ ?_ ?_ ?_ ?_ ?_))

theorem keep_runInstr {P : Area → Prop} {z : State} {s : State} {g op : Nat} {eff : State → Pass → Nat → State × Option Lanes} (h : Keeps P z s)
    (he : ∀ s p w, Keeps P z s → Keeps P z (eff s p w).1) 
    (kfabric : P .fabric := by assumption) : Keeps P z (runInstr s g op eff) := by
  unfold runInstr
  split
  · refine keep_ite ?_ h
    dsimp only
    split
    · exact keep_advance (he _ _ _ h)
    · exact keep_advance h
  · exact h

theorem keep_runPure {P : Area → Prop} {z : State} {s : State} {g op : Nat} {f : Pass → Nat → Lanes} (h : Keeps P z s) 
    (kfabric : P .fabric := by assumption) : Keeps P z (runPure s g op f) :=
  keep_runInstr h (fun _ _ _ h => h)

theorem keep_runLane1 {P : Area → Prop} {z : State} {s : State} {a_g : Nat} {a_op : Nat} {a_f : Nat → W64 → W64}
    (h : Keeps P z s) (kfabric : P .fabric := by assumption) :
    Keeps P z (runLane1 s a_g a_op a_f) := by
  unfold runLane1
  repeat' (first | (with_reducible assumption) | (intro) | (with_reducible apply keep_runPure) | split | (dsimp only))

theorem keep_runLane2 {P : Area → Prop} {z : State} {s : State} {a_g : Nat} {a_op : Nat} {a_f : Nat → W64 → W64 → W64}
    (h : Keeps P z s) (kfabric : P .fabric := by assumption) :
    Keeps P z (runLane2 s a_g a_op a_f) := by
  unfold runLane2
  repeat' (first | (with_reducible assumption) | (intro) | (with_reducible apply keep_runPure) | split | (dsimp only))

theorem keep_runRed {P : Area → Prop} {z : State} {s : State} {a_g : Nat} {a_op : Nat} {a_f : Nat → List W64 → Lane}
    (h : Keeps P z s) (kfabric : P .fabric := by assumption) :
    Keeps P z (runRed s a_g a_op a_f) := by
  unfold runRed
  repeat' (first | (with_reducible assumption) | (intro) | (with_reducible apply keep_runPure) | split | (dsimp only))

theorem keep_tileFault {P : Area → Prop} {z : State} {s : State} {a_g : Nat} {a_p : Pass} (h : Keeps P z s)
    (kfabric : P .fabric := by assumption) (krings : P .rings := by assumption) (ktwins : P .twins := by assumption)
    (klog : P .log := by assumption) :
    Keeps P z (tileFault s a_g a_p) := by
  unfold tileFault
  repeat' (first | (with_reducible assumption) | (intro)
                 | (extract_lets +onlyGivenNames y; refine keep_cut (y := y) ?_ ?_; (focus (dsimp only [y]; clear y)); rotate_left; (focus (clear_value y; revert y; intro _ _)))
                 | (extract_lets +onlyGivenNames y; refine keep_cut1 (y := y) ?_ ?_; (focus (dsimp only [y]; clear y)); rotate_left; (focus (clear_value y; revert y; intro _ _)))
                 | (extract_lets +onlyGivenNames y; refine keep_cut2 (y := y) ?_ ?_; (focus (dsimp only [y]; clear y)); rotate_left; (focus (clear_value y; revert y; intro _ _)))
                 | (extract_lets +onlyGivenNames y; clear_value y; revert y; intro _) | (with_reducible apply keep_satF)
                 | (with_reducible apply keep_raise) | (with_reducible apply keep_markFail) | split | (dsimp only))

theorem keep_bankLane {P : Area → Prop} {z : State} {a_g : Nat} {a_p : Pass} {a_w : Nat} {a_ok : Bool} {a_store : Bool}
    {a_new : W64 → W64} {a_a : Lane} {s : State} (h : Keeps P z s) (ktiles : P .tiles := by assumption)
    (kfabric : P .fabric := by assumption) (krings : P .rings := by assumption) (ktwins : P .twins := by assumption)
    (klog : P .log := by assumption) :
    Keeps P z (bankLane a_g a_p a_w a_ok a_store a_new a_a s).1 := by
  unfold bankLane
  repeat' (first | (with_reducible assumption) | (exact Or.inl (by assumption)) | (exact Or.inr rfl)
                 | (exact Or.inr ⟨rfl, rfl, rfl, rfl⟩) | (intro)
                 | (extract_lets +onlyGivenNames y; refine keep_cut (y := y) ?_ ?_; (focus (dsimp only [y]; clear y)); rotate_left; (focus (clear_value y; revert y; intro _ _)))
                 | (extract_lets +onlyGivenNames y; refine keep_cut1 (y := y) ?_ ?_; (focus (dsimp only [y]; clear y)); rotate_left; (focus (clear_value y; revert y; intro _ _)))
                 | (extract_lets +onlyGivenNames y; refine keep_cut2 (y := y) ?_ ?_; (focus (dsimp only [y]; clear y)); rotate_left; (focus (clear_value y; revert y; intro _ _)))
                 | (extract_lets +onlyGivenNames y; clear_value y; revert y; intro _) | (with_reducible apply keep_tileFault)
                 | (with_reducible apply keep_wrWord) | (with_reducible refine keep_ite ?_ ?_) | split | (dsimp only)
                 | (exact by decide) | (show P _; assumption) | (exact memArea_of ‹_› ‹_› ‹_›)
                 | (with_reducible refine keep_mk ?_ rfl rfl rfl rfl rfl rfl rfl rfl rfl ?_ ?_ ?_ ?_ ?_ ?_ ?_ ?_ ?_ ?_ ?_ ?_ ?_ ?_ ?_ ?_ ?_ ?_))

theorem keep_bankOp {P : Area → Prop} {z : State} {a_g : Nat} {a_p : Pass} {a_w : Nat} {a_store : Bool} {a_needB : Bool}
    {a_new : W64 → W64 → W64} {s : State} (h : Keeps P z s) (ktiles : P .tiles := by assumption)
    (kfabric : P .fabric := by assumption) (krings : P .rings := by assumption) (ktwins : P .twins := by assumption)
    (klog : P .log := by assumption) :
    Keeps P z (bankOp a_g a_p a_w a_store a_needB a_new s).1 := by
  unfold bankOp
  repeat' (first | (with_reducible assumption) | (intro)
                 | (extract_lets +onlyGivenNames y; refine keep_cut (y := y) ?_ ?_; (focus (dsimp only [y]; clear y)); rotate_left; (focus (clear_value y; revert y; intro _ _)))
                 | (extract_lets +onlyGivenNames y; refine keep_cut1 (y := y) ?_ ?_; (focus (dsimp only [y]; clear y)); rotate_left; (focus (clear_value y; revert y; intro _ _)))
                 | (extract_lets +onlyGivenNames y; refine keep_cut2 (y := y) ?_ ?_; (focus (dsimp only [y]; clear y)); rotate_left; (focus (clear_value y; revert y; intro _ _)))
                 | (extract_lets +onlyGivenNames y; clear_value y; revert y; intro _) | (with_reducible apply keep_bankLane)
                 | (with_reducible apply keep_foldl) | (with_reducible apply keep_foldl1) | split | (dsimp only))

theorem keep_emitTo {P : Area → Prop} {z : State} {s : State} {a_g : Nat} {a_p : Pass} {a_t : Token} {a_ds : List Dest}
    (h : Keeps P z s) (kfabric : P .fabric := by assumption) (krings : P .rings := by assumption) :
    Keeps P z (emitTo s a_g a_p a_t a_ds) := by
  unfold emitTo
  repeat' (first | (with_reducible assumption) | (intro)
                 | (extract_lets +onlyGivenNames y; refine keep_cut (y := y) ?_ ?_; (focus (dsimp only [y]; clear y)); rotate_left; (focus (clear_value y; revert y; intro _ _)))
                 | (extract_lets +onlyGivenNames y; refine keep_cut1 (y := y) ?_ ?_; (focus (dsimp only [y]; clear y)); rotate_left; (focus (clear_value y; revert y; intro _ _)))
                 | (extract_lets +onlyGivenNames y; refine keep_cut2 (y := y) ?_ ?_; (focus (dsimp only [y]; clear y)); rotate_left; (focus (clear_value y; revert y; intro _ _)))
                 | (extract_lets +onlyGivenNames y; clear_value y; revert y; intro _) | (with_reducible apply keep_addF)
                 | (with_reducible apply keep_countOrphan) | (with_reducible apply keep_pushOut)
                 | (with_reducible refine keep_ite ?_ ?_) | split | (dsimp only))

theorem keep_setMatches {P : Area → Prop} {z : State} {s : State} {a_first : Nat} {a_t : Token} {a_n : Nat}
    (h : Keeps P z s) (kfabric : P .fabric := by assumption) :
    Keeps P z (setMatches s a_first a_t a_n) := by
  unfold setMatches
  repeat' (first | (with_reducible assumption) | (exact Or.inl (by assumption)) | (exact Or.inr rfl)
                 | (exact Or.inr ⟨rfl, rfl, rfl, rfl⟩) | (intro)
                 | (extract_lets +onlyGivenNames y; refine keep_cut (y := y) ?_ ?_; (focus (dsimp only [y]; clear y)); rotate_left; (focus (clear_value y; revert y; intro _ _)))
                 | (extract_lets +onlyGivenNames y; refine keep_cut1 (y := y) ?_ ?_; (focus (dsimp only [y]; clear y)); rotate_left; (focus (clear_value y; revert y; intro _ _)))
                 | (extract_lets +onlyGivenNames y; refine keep_cut2 (y := y) ?_ ?_; (focus (dsimp only [y]; clear y)); rotate_left; (focus (clear_value y; revert y; intro _ _)))
                 | (extract_lets +onlyGivenNames y; have q : (_ : _) → _ := y; clear q; dsimp only [y]; clear y)
                 | (extract_lets +onlyGivenNames y; clear_value y; revert y; intro _) | (with_reducible apply keep_modFab)
                 | (with_reducible refine keep_ite ?_ ?_) | split | (dsimp only)
                 | (with_reducible refine keep_mk ?_ rfl rfl rfl rfl rfl rfl rfl rfl rfl ?_ ?_ ?_ ?_ ?_ ?_ ?_ ?_ ?_ ?_ ?_ ?_ ?_ ?_ ?_ ?_ ?_ ?_))

theorem keep_joinMatch {P : Area → Prop} {z : State} {s : State} {a_g : Nat} {a_rs : List Route} {a_t : Token}
    (h : Keeps P z s) (kfabric : P .fabric := by assumption) (krings : P .rings := by assumption)
    (ktwins : P .twins := by assumption) (klog : P .log := by assumption) :
    Keeps P z (joinMatch s a_g a_rs a_t).1 := by
  unfold joinMatch
  repeat' (first | (with_reducible assumption) | (exact Or.inl (by assumption)) | (exact Or.inr rfl)
                 | (exact Or.inr ⟨rfl, rfl, rfl, rfl⟩) | (intro)
                 | (extract_lets +onlyGivenNames y; refine keep_cut (y := y) ?_ ?_; (focus (dsimp only [y]; clear y)); rotate_left; (focus (clear_value y; revert y; intro _ _)))
                 | (extract_lets +onlyGivenNames y; refine keep_cut1 (y := y) ?_ ?_; (focus (dsimp only [y]; clear y)); rotate_left; (focus (clear_value y; revert y; intro _ _)))
                 | (extract_lets +onlyGivenNames y; refine keep_cut2 (y := y) ?_ ?_; (focus (dsimp only [y]; clear y)); rotate_left; (focus (clear_value y; revert y; intro _ _)))
                 | (extract_lets +onlyGivenNames y; clear_value y; revert y; intro _) | (with_reducible apply keep_setMatches)
                 | (with_reducible apply keep_markFail) | (with_reducible refine keep_ite ?_ ?_) | split | (dsimp only)
                 | (with_reducible refine keep_mk ?_ rfl rfl rfl rfl rfl rfl rfl rfl rfl ?_ ?_ ?_ ?_ ?_ ?_ ?_ ?_ ?_ ?_ ?_ ?_ ?_ ?_ ?_ ?_ ?_ ?_))

theorem keep_emitAlong {P : Area → Prop} {z s : State} {g : Nat} {p : Pass} {rs : List Route} {t : Token} {ds : List Dest} (h : Keeps P z s) 
    (kfabric : P .fabric := by assumption) (krings : P .rings := by assumption) (ktwins : P .twins := by assumption) (klog : P .log := by assumption) :
    Keeps P z (emitAlong s g p rs t ds) := by
  unfold emitAlong
  have hj := keep_joinMatch (a_g := g) (a_rs := rs) (a_t := t) h
  split <;> rename_i e <;> rw [e] at hj <;> exact keep_emitTo hj

theorem keep_emitPort {P : Area → Prop} {z : State} {s : State} {a_g : Nat} {a_p : Pass} {a_w : Nat} (h : Keeps P z s)
    (kfabric : P .fabric := by assumption) (krings : P .rings := by assumption) (ktwins : P .twins := by assumption)
    (klog : P .log := by assumption) :
    Keeps P z (emitPort s a_g a_p a_w) := by
  unfold emitPort
  repeat' (first | (with_reducible assumption) | (intro)
                 | (extract_lets +onlyGivenNames y; refine keep_cut (y := y) ?_ ?_; (focus (dsimp only [y]; clear y)); rotate_left; (focus (clear_value y; revert y; intro _ _)))
                 | (extract_lets +onlyGivenNames y; refine keep_cut1 (y := y) ?_ ?_; (focus (dsimp only [y]; clear y)); rotate_left; (focus (clear_value y; revert y; intro _ _)))
                 | (extract_lets +onlyGivenNames y; refine keep_cut2 (y := y) ?_ ?_; (focus (dsimp only [y]; clear y)); rotate_left; (focus (clear_value y; revert y; intro _ _)))
                 | (extract_lets +onlyGivenNames y; clear_value y; revert y; intro _) | (with_reducible apply keep_addF)
                 | (with_reducible apply keep_raise) | (with_reducible apply keep_satF) | (with_reducible apply keep_emitAlong)
                 | (with_reducible refine keep_ite ?_ ?_) | split | (dsimp only))

theorem keep_emitDie {P : Area → Prop} {z : State} {s : State} {a_g : Nat} {a_p : Pass} {a_w : Nat} (h : Keeps P z s)
    (kfabric : P .fabric := by assumption) (krings : P .rings := by assumption) (ktwins : P .twins := by assumption)
    (klog : P .log := by assumption) :
    Keeps P z (emitDie s a_g a_p a_w) := by
  unfold emitDie
  repeat' (first | (with_reducible assumption) | (exact Or.inl (by assumption)) | (exact Or.inr rfl)
                 | (exact Or.inr ⟨rfl, rfl, rfl, rfl⟩) | (intro)
                 | (extract_lets +onlyGivenNames y; refine keep_cut (y := y) ?_ ?_; (focus (dsimp only [y]; clear y)); rotate_left; (focus (clear_value y; revert y; intro _ _)))
                 | (extract_lets +onlyGivenNames y; refine keep_cut1 (y := y) ?_ ?_; (focus (dsimp only [y]; clear y)); rotate_left; (focus (clear_value y; revert y; intro _ _)))
                 | (extract_lets +onlyGivenNames y; refine keep_cut2 (y := y) ?_ ?_; (focus (dsimp only [y]; clear y)); rotate_left; (focus (clear_value y; revert y; intro _ _)))
                 | (extract_lets +onlyGivenNames y; clear_value y; revert y; intro _) | (with_reducible apply keep_addF)
                 | (with_reducible apply keep_satF) | (with_reducible apply keep_markFail) | (with_reducible apply keep_raise)
                 | (with_reducible apply keep_emitAlong) | (with_reducible refine keep_ite ?_ ?_) | split | (dsimp only)
                 | (with_reducible refine keep_mk ?_ rfl rfl rfl rfl rfl rfl rfl rfl rfl ?_ ?_ ?_ ?_ ?_ ?_ ?_ ?_ ?_ ?_ ?_ ?_ ?_ ?_ ?_ ?_ ?_ ?_))

theorem keep_execNop {P : Area → Prop} {z s : State} {g : Nat} (h : Keeps P z s) 
    (kfabric : P .fabric := by assumption) : ∀ t, execNop g s = .next t → Keeps P z t := by
  unfold execNop; intro t e; injection e with e; subst e
  exact keep_runInstr h (fun _ _ _ h => h)

theorem keep_execMov {P : Area → Prop} {z : State} {a_g : Nat} {s : State} (h : Keeps P z s)
    (kfabric : P .fabric := by assumption) :
    ∀ t, execMov a_g s = .next t → Keeps P z t := by
  unfold execMov; intro t e; injection e with e; subst e
  repeat' (first | (with_reducible assumption) | (intro) | (with_reducible apply keep_runLane1) | split | (dsimp only))

theorem keep_execAdd {P : Area → Prop} {z : State} {a_g : Nat} {s : State} (h : Keeps P z s)
    (kfabric : P .fabric := by assumption) :
    ∀ t, execAdd a_g s = .next t → Keeps P z t := by
  unfold execAdd; intro t e; injection e with e; subst e
  repeat' (first | (with_reducible assumption) | (intro) | (with_reducible apply keep_runLane2) | split | (dsimp only))

theorem keep_execSub {P : Area → Prop} {z : State} {a_g : Nat} {s : State} (h : Keeps P z s)
    (kfabric : P .fabric := by assumption) :
    ∀ t, execSub a_g s = .next t → Keeps P z t := by
  unfold execSub; intro t e; injection e with e; subst e
  repeat' (first | (with_reducible assumption) | (intro) | (with_reducible apply keep_runLane2) | split | (dsimp only))

theorem keep_execMul {P : Area → Prop} {z : State} {a_g : Nat} {s : State} (h : Keeps P z s)
    (kfabric : P .fabric := by assumption) :
    ∀ t, execMul a_g s = .next t → Keeps P z t := by
  unfold execMul; intro t e; injection e with e; subst e
  repeat' (first | (with_reducible assumption) | (intro) | (with_reducible apply keep_runLane2) | split | (dsimp only))

theorem keep_execMulh {P : Area → Prop} {z : State} {a_g : Nat} {s : State} (h : Keeps P z s)
    (kfabric : P .fabric := by assumption) :
    ∀ t, execMulh a_g s = .next t → Keeps P z t := by
  unfold execMulh; intro t e; injection e with e; subst e
  repeat' (first | (with_reducible assumption) | (intro) | (with_reducible apply keep_runLane2) | split | (dsimp only))

theorem keep_execNeg {P : Area → Prop} {z : State} {a_g : Nat} {s : State} (h : Keeps P z s)
    (kfabric : P .fabric := by assumption) :
    ∀ t, execNeg a_g s = .next t → Keeps P z t := by
  unfold execNeg; intro t e; injection e with e; subst e
  repeat' (first | (with_reducible assumption) | (intro) | (with_reducible apply keep_runLane1) | split | (dsimp only))

theorem keep_execAbs {P : Area → Prop} {z : State} {a_g : Nat} {s : State} (h : Keeps P z s)
    (kfabric : P .fabric := by assumption) :
    ∀ t, execAbs a_g s = .next t → Keeps P z t := by
  unfold execAbs; intro t e; injection e with e; subst e
  repeat' (first | (with_reducible assumption) | (intro) | (with_reducible apply keep_runLane1) | split | (dsimp only))

theorem keep_execMin {P : Area → Prop} {z : State} {a_g : Nat} {s : State} (h : Keeps P z s)
    (kfabric : P .fabric := by assumption) :
    ∀ t, execMin a_g s = .next t → Keeps P z t := by
  unfold execMin; intro t e; injection e with e; subst e
  repeat' (first | (with_reducible assumption) | (intro) | (with_reducible apply keep_runLane2) | split | (dsimp only))

theorem keep_execMax {P : Area → Prop} {z : State} {a_g : Nat} {s : State} (h : Keeps P z s)
    (kfabric : P .fabric := by assumption) :
    ∀ t, execMax a_g s = .next t → Keeps P z t := by
  unfold execMax; intro t e; injection e with e; subst e
  repeat' (first | (with_reducible assumption) | (intro) | (with_reducible apply keep_runLane2) | split | (dsimp only))

theorem keep_execAnd {P : Area → Prop} {z : State} {a_g : Nat} {s : State} (h : Keeps P z s)
    (kfabric : P .fabric := by assumption) :
    ∀ t, execAnd a_g s = .next t → Keeps P z t := by
  unfold execAnd; intro t e; injection e with e; subst e
  repeat' (first | (with_reducible assumption) | (intro) | (with_reducible apply keep_runLane2) | split | (dsimp only))

theorem keep_execOr {P : Area → Prop} {z : State} {a_g : Nat} {s : State} (h : Keeps P z s)
    (kfabric : P .fabric := by assumption) :
    ∀ t, execOr a_g s = .next t → Keeps P z t := by
  unfold execOr; intro t e; injection e with e; subst e
  repeat' (first | (with_reducible assumption) | (intro) | (with_reducible apply keep_runLane2) | split | (dsimp only))

theorem keep_execXor {P : Area → Prop} {z : State} {a_g : Nat} {s : State} (h : Keeps P z s)
    (kfabric : P .fabric := by assumption) :
    ∀ t, execXor a_g s = .next t → Keeps P z t := by
  unfold execXor; intro t e; injection e with e; subst e
  repeat' (first | (with_reducible assumption) | (intro) | (with_reducible apply keep_runLane2) | split | (dsimp only))

theorem keep_execNot {P : Area → Prop} {z : State} {a_g : Nat} {s : State} (h : Keeps P z s)
    (kfabric : P .fabric := by assumption) :
    ∀ t, execNot a_g s = .next t → Keeps P z t := by
  unfold execNot; intro t e; injection e with e; subst e
  repeat' (first | (with_reducible assumption) | (intro) | (with_reducible apply keep_runLane1) | split | (dsimp only))

theorem keep_execShl {P : Area → Prop} {z : State} {a_g : Nat} {s : State} (h : Keeps P z s)
    (kfabric : P .fabric := by assumption) :
    ∀ t, execShl a_g s = .next t → Keeps P z t := by
  unfold execShl; intro t e; injection e with e; subst e
  repeat' (first | (with_reducible assumption) | (intro) | (with_reducible apply keep_runLane2) | split | (dsimp only))

theorem keep_execShr {P : Area → Prop} {z : State} {a_g : Nat} {s : State} (h : Keeps P z s)
    (kfabric : P .fabric := by assumption) :
    ∀ t, execShr a_g s = .next t → Keeps P z t := by
  unfold execShr; intro t e; injection e with e; subst e
  repeat' (first | (with_reducible assumption) | (intro) | (with_reducible apply keep_runLane2) | split | (dsimp only))

theorem keep_execRol {P : Area → Prop} {z : State} {a_g : Nat} {s : State} (h : Keeps P z s)
    (kfabric : P .fabric := by assumption) :
    ∀ t, execRol a_g s = .next t → Keeps P z t := by
  unfold execRol; intro t e; injection e with e; subst e
  repeat' (first | (with_reducible assumption) | (intro) | (with_reducible apply keep_runLane2) | split | (dsimp only))

theorem keep_execPopc {P : Area → Prop} {z : State} {a_g : Nat} {s : State} (h : Keeps P z s)
    (kfabric : P .fabric := by assumption) :
    ∀ t, execPopc a_g s = .next t → Keeps P z t := by
  unfold execPopc; intro t e; injection e with e; subst e
  repeat' (first | (with_reducible assumption) | (intro) | (with_reducible apply keep_runLane1) | split | (dsimp only))

theorem keep_execClz {P : Area → Prop} {z : State} {a_g : Nat} {s : State} (h : Keeps P z s)
    (kfabric : P .fabric := by assumption) :
    ∀ t, execClz a_g s = .next t → Keeps P z t := by
  unfold execClz; intro t e; injection e with e; subst e
  repeat' (first | (with_reducible assumption) | (intro) | (with_reducible apply keep_runLane1) | split | (dsimp only))

theorem keep_execCtz {P : Area → Prop} {z : State} {a_g : Nat} {s : State} (h : Keeps P z s)
    (kfabric : P .fabric := by assumption) :
    ∀ t, execCtz a_g s = .next t → Keeps P z t := by
  unfold execCtz; intro t e; injection e with e; subst e
  repeat' (first | (with_reducible assumption) | (intro) | (with_reducible apply keep_runLane1) | split | (dsimp only))

theorem keep_execBfx {P : Area → Prop} {z : State} {a_g : Nat} {s : State} (h : Keeps P z s)
    (kfabric : P .fabric := by assumption) :
    ∀ t, execBfx a_g s = .next t → Keeps P z t := by
  unfold execBfx; intro t e; injection e with e; subst e
  repeat' (first | (with_reducible assumption) | (intro) | (with_reducible apply keep_runLane1) | split | (dsimp only))

theorem keep_execBfi {P : Area → Prop} {z : State} {a_g : Nat} {s : State} (h : Keeps P z s)
    (kfabric : P .fabric := by assumption) :
    ∀ t, execBfi a_g s = .next t → Keeps P z t := by
  unfold execBfi; intro t e; injection e with e; subst e
  repeat' (first | (with_reducible assumption) | (intro) | (with_reducible apply keep_runLane2) | split | (dsimp only))

theorem keep_execH64 {P : Area → Prop} {z : State} {a_g : Nat} {s : State} (h : Keeps P z s)
    (kfabric : P .fabric := by assumption) :
    ∀ t, execH64 a_g s = .next t → Keeps P z t := by
  unfold execH64; intro t e; injection e with e; subst e
  repeat' (first | (with_reducible assumption) | (intro) | (with_reducible apply keep_runLane2) | split | (dsimp only))

theorem keep_execCmpeq {P : Area → Prop} {z : State} {a_g : Nat} {s : State} (h : Keeps P z s)
    (kfabric : P .fabric := by assumption) :
    ∀ t, execCmpeq a_g s = .next t → Keeps P z t := by
  unfold execCmpeq; intro t e; injection e with e; subst e
  repeat' (first | (with_reducible assumption) | (intro) | (with_reducible apply keep_runLane2) | split | (dsimp only))

theorem keep_execCmpne {P : Area → Prop} {z : State} {a_g : Nat} {s : State} (h : Keeps P z s)
    (kfabric : P .fabric := by assumption) :
    ∀ t, execCmpne a_g s = .next t → Keeps P z t := by
  unfold execCmpne; intro t e; injection e with e; subst e
  repeat' (first | (with_reducible assumption) | (intro) | (with_reducible apply keep_runLane2) | split | (dsimp only))

theorem keep_execCmplt {P : Area → Prop} {z : State} {a_g : Nat} {s : State} (h : Keeps P z s)
    (kfabric : P .fabric := by assumption) :
    ∀ t, execCmplt a_g s = .next t → Keeps P z t := by
  unfold execCmplt; intro t e; injection e with e; subst e
  repeat' (first | (with_reducible assumption) | (intro) | (with_reducible apply keep_runLane2) | split | (dsimp only))

theorem keep_execCmple {P : Area → Prop} {z : State} {a_g : Nat} {s : State} (h : Keeps P z s)
    (kfabric : P .fabric := by assumption) :
    ∀ t, execCmple a_g s = .next t → Keeps P z t := by
  unfold execCmple; intro t e; injection e with e; subst e
  repeat' (first | (with_reducible assumption) | (intro) | (with_reducible apply keep_runLane2) | split | (dsimp only))

theorem keep_execSel {P : Area → Prop} {z : State} {a_g : Nat} {s : State} (h : Keeps P z s)
    (kfabric : P .fabric := by assumption) :
    ∀ t, execSel a_g s = .next t → Keeps P z t := by
  unfold execSel; intro t e; injection e with e; subst e
  repeat' (first | (with_reducible assumption) | (intro) | (with_reducible apply keep_runPure) | split | (dsimp only))

theorem keep_execIsnull {P : Area → Prop} {z : State} {a_g : Nat} {s : State} (h : Keeps P z s)
    (kfabric : P .fabric := by assumption) :
    ∀ t, execIsnull a_g s = .next t → Keeps P z t := by
  unfold execIsnull; intro t e; injection e with e; subst e
  repeat' (first | (with_reducible assumption) | (intro) | (with_reducible apply keep_runPure) | split | (dsimp only))

theorem keep_execMerge {P : Area → Prop} {z : State} {a_g : Nat} {s : State} (h : Keeps P z s)
    (kfabric : P .fabric := by assumption) :
    ∀ t, execMerge a_g s = .next t → Keeps P z t := by
  unfold execMerge; intro t e; injection e with e; subst e
  repeat' (first | (with_reducible assumption) | (intro) | (with_reducible apply keep_runPure) | split | (dsimp only))

theorem keep_execKeep {P : Area → Prop} {z : State} {a_g : Nat} {s : State} (h : Keeps P z s)
    (kfabric : P .fabric := by assumption) :
    ∀ t, execKeep a_g s = .next t → Keeps P z t := by
  unfold execKeep; intro t e; injection e with e; subst e
  repeat' (first | (with_reducible assumption) | (intro) | (with_reducible apply keep_runPure)
                 | (with_reducible refine keep_ite ?_ ?_) | split | (dsimp only))

theorem keep_execDrop {P : Area → Prop} {z : State} {a_g : Nat} {s : State} (h : Keeps P z s)
    (kfabric : P .fabric := by assumption) :
    ∀ t, execDrop a_g s = .next t → Keeps P z t := by
  unfold execDrop; intro t e; injection e with e; subst e
  repeat' (first | (with_reducible assumption) | (intro) | (with_reducible apply keep_runPure)
                 | (with_reducible refine keep_ite ?_ ?_) | split | (dsimp only))

theorem keep_execRsum {P : Area → Prop} {z : State} {a_g : Nat} {s : State} (h : Keeps P z s)
    (kfabric : P .fabric := by assumption) :
    ∀ t, execRsum a_g s = .next t → Keeps P z t := by
  unfold execRsum; intro t e; injection e with e; subst e
  repeat' (first | (with_reducible assumption) | (intro) | (with_reducible apply keep_runRed)
                 | (with_reducible refine keep_ite ?_ ?_) | (with_reducible apply keep_foldl)
                 | (with_reducible apply keep_foldl1) | split | (dsimp only))

theorem keep_execRmin {P : Area → Prop} {z : State} {a_g : Nat} {s : State} (h : Keeps P z s)
    (kfabric : P .fabric := by assumption) :
    ∀ t, execRmin a_g s = .next t → Keeps P z t := by
  unfold execRmin; intro t e; injection e with e; subst e
  repeat' (first | (with_reducible assumption) | (intro) | (with_reducible apply keep_runRed) | split | (dsimp only))

theorem keep_execRmax {P : Area → Prop} {z : State} {a_g : Nat} {s : State} (h : Keeps P z s)
    (kfabric : P .fabric := by assumption) :
    ∀ t, execRmax a_g s = .next t → Keeps P z t := by
  unfold execRmax; intro t e; injection e with e; subst e
  repeat' (first | (with_reducible assumption) | (intro) | (with_reducible apply keep_runRed) | split | (dsimp only))

theorem keep_execRcnt {P : Area → Prop} {z : State} {a_g : Nat} {s : State} (h : Keeps P z s)
    (kfabric : P .fabric := by assumption) :
    ∀ t, execRcnt a_g s = .next t → Keeps P z t := by
  unfold execRcnt; intro t e; injection e with e; subst e
  repeat' (first | (with_reducible assumption) | (intro) | (with_reducible apply keep_runRed) | split | (dsimp only))

theorem keep_execRor {P : Area → Prop} {z : State} {a_g : Nat} {s : State} (h : Keeps P z s)
    (kfabric : P .fabric := by assumption) :
    ∀ t, execRor a_g s = .next t → Keeps P z t := by
  unfold execRor; intro t e; injection e with e; subst e
  repeat' (first | (with_reducible assumption) | (intro) | (with_reducible apply keep_runRed)
                 | (with_reducible refine keep_ite ?_ ?_) | (with_reducible apply keep_foldl)
                 | (with_reducible apply keep_foldl1) | split | (dsimp only))

theorem keep_execRfirst {P : Area → Prop} {z : State} {a_g : Nat} {s : State} (h : Keeps P z s)
    (kfabric : P .fabric := by assumption) :
    ∀ t, execRfirst a_g s = .next t → Keeps P z t := by
  unfold execRfirst; intro t e; injection e with e; subst e
  repeat' (first | (with_reducible assumption) | (intro) | (with_reducible apply keep_runRed) | split | (dsimp only))

theorem keep_execRlast {P : Area → Prop} {z : State} {a_g : Nat} {s : State} (h : Keeps P z s)
    (kfabric : P .fabric := by assumption) :
    ∀ t, execRlast a_g s = .next t → Keeps P z t := by
  unfold execRlast; intro t e; injection e with e; subst e
  repeat' (first | (with_reducible assumption) | (intro) | (with_reducible apply keep_runRed) | split | (dsimp only))

theorem keep_execFadd32 {P : Area → Prop} {z : State} {a_g : Nat} {s : State} (h : Keeps P z s)
    (kfabric : P .fabric := by assumption) :
    ∀ t, execFadd32 a_g s = .next t → Keeps P z t := by
  unfold execFadd32; intro t e; injection e with e; subst e
  repeat' (first | (with_reducible assumption) | (intro) | (with_reducible apply keep_runLane2) | split | (dsimp only))

theorem keep_execFadd64 {P : Area → Prop} {z : State} {a_g : Nat} {s : State} (h : Keeps P z s)
    (kfabric : P .fabric := by assumption) :
    ∀ t, execFadd64 a_g s = .next t → Keeps P z t := by
  unfold execFadd64; intro t e; injection e with e; subst e
  repeat' (first | (with_reducible assumption) | (intro) | (with_reducible apply keep_runLane2) | split | (dsimp only))

theorem keep_execFsub32 {P : Area → Prop} {z : State} {a_g : Nat} {s : State} (h : Keeps P z s)
    (kfabric : P .fabric := by assumption) :
    ∀ t, execFsub32 a_g s = .next t → Keeps P z t := by
  unfold execFsub32; intro t e; injection e with e; subst e
  repeat' (first | (with_reducible assumption) | (intro) | (with_reducible apply keep_runLane2) | split | (dsimp only))

theorem keep_execFsub64 {P : Area → Prop} {z : State} {a_g : Nat} {s : State} (h : Keeps P z s)
    (kfabric : P .fabric := by assumption) :
    ∀ t, execFsub64 a_g s = .next t → Keeps P z t := by
  unfold execFsub64; intro t e; injection e with e; subst e
  repeat' (first | (with_reducible assumption) | (intro) | (with_reducible apply keep_runLane2) | split | (dsimp only))

theorem keep_execFcmp32 {P : Area → Prop} {z : State} {a_g : Nat} {s : State} (h : Keeps P z s)
    (kfabric : P .fabric := by assumption) :
    ∀ t, execFcmp32 a_g s = .next t → Keeps P z t := by
  unfold execFcmp32; intro t e; injection e with e; subst e
  repeat' (first | (with_reducible assumption) | (intro) | (with_reducible apply keep_runLane2) | split | (dsimp only))

theorem keep_execFcmp64 {P : Area → Prop} {z : State} {a_g : Nat} {s : State} (h : Keeps P z s)
    (kfabric : P .fabric := by assumption) :
    ∀ t, execFcmp64 a_g s = .next t → Keeps P z t := by
  unfold execFcmp64; intro t e; injection e with e; subst e
  repeat' (first | (with_reducible assumption) | (intro) | (with_reducible apply keep_runLane2) | split | (dsimp only))

theorem keep_execFkey32 {P : Area → Prop} {z : State} {a_g : Nat} {s : State} (h : Keeps P z s)
    (kfabric : P .fabric := by assumption) :
    ∀ t, execFkey32 a_g s = .next t → Keeps P z t := by
  unfold execFkey32; intro t e; injection e with e; subst e
  repeat' (first | (with_reducible assumption) | (intro) | (with_reducible apply keep_runLane1) | split | (dsimp only))

theorem keep_execFkey64 {P : Area → Prop} {z : State} {a_g : Nat} {s : State} (h : Keeps P z s)
    (kfabric : P .fabric := by assumption) :
    ∀ t, execFkey64 a_g s = .next t → Keeps P z t := by
  unfold execFkey64; intro t e; injection e with e; subst e
  repeat' (first | (with_reducible assumption) | (intro) | (with_reducible apply keep_runLane1) | split | (dsimp only))

theorem keep_execShuf {P : Area → Prop} {z : State} {a_g : Nat} {s : State} (h : Keeps P z s)
    (kfabric : P .fabric := by assumption) :
    ∀ t, execShuf a_g s = .next t → Keeps P z t := by
  unfold execShuf; intro t e; injection e with e; subst e
  repeat' (first | (with_reducible assumption) | (intro) | (with_reducible apply keep_runPure) | split | (dsimp only))

theorem keep_execCompact {P : Area → Prop} {z : State} {a_g : Nat} {s : State} (h : Keeps P z s)
    (kfabric : P .fabric := by assumption) :
    ∀ t, execCompact a_g s = .next t → Keeps P z t := by
  unfold execCompact; intro t e; injection e with e; subst e
  repeat' (first | (with_reducible assumption) | (intro) | (with_reducible apply keep_runPure) | split | (dsimp only))

theorem keep_execBcast {P : Area → Prop} {z : State} {a_g : Nat} {s : State} (h : Keeps P z s)
    (kfabric : P .fabric := by assumption) :
    ∀ t, execBcast a_g s = .next t → Keeps P z t := by
  unfold execBcast; intro t e; injection e with e; subst e
  repeat' (first | (with_reducible assumption) | (intro)
                 | (extract_lets +onlyGivenNames y; refine keep_cut (y := y) ?_ ?_; (focus (dsimp only [y]; clear y)); rotate_left; (focus (clear_value y; revert y; intro _ _)))
                 | (extract_lets +onlyGivenNames y; refine keep_cut1 (y := y) ?_ ?_; (focus (dsimp only [y]; clear y)); rotate_left; (focus (clear_value y; revert y; intro _ _)))
                 | (extract_lets +onlyGivenNames y; refine keep_cut2 (y := y) ?_ ?_; (focus (dsimp only [y]; clear y)); rotate_left; (focus (clear_value y; revert y; intro _ _)))
                 | (extract_lets +onlyGivenNames y; clear_value y; revert y; intro _) | (with_reducible apply keep_runPure)
                 | split | (dsimp only))

theorem keep_execTagf {P : Area → Prop} {z : State} {a_g : Nat} {s : State} (h : Keeps P z s)
    (kfabric : P .fabric := by assumption) :
    ∀ t, execTagf a_g s = .next t → Keeps P z t := by
  unfold execTagf; intro t e; injection e with e; subst e
  repeat' (first | (with_reducible assumption) | (intro) | (with_reducible apply keep_runPure) | split | (dsimp only))

theorem keep_execLd {P : Area → Prop} {z s : State} {g : Nat} (h : Keeps P z s) 
    (ktiles : P .tiles := by assumption) (kfabric : P .fabric := by assumption) (krings : P .rings := by assumption) (ktwins : P .twins := by assumption) (klog : P .log := by assumption) : ∀ t, execLd g s = .next t → Keeps P z t := by
  unfold execLd; intro t e; injection e with e; subst e
  refine keep_runInstr h (fun s p w h => ?_)
  dsimp only
  with_reducible apply keep_bankOp
  all_goals assumption

theorem keep_execSt {P : Area → Prop} {z s : State} {g : Nat} (h : Keeps P z s) 
    (ktiles : P .tiles := by assumption) (kfabric : P .fabric := by assumption) (krings : P .rings := by assumption) (ktwins : P .twins := by assumption) (klog : P .log := by assumption) : ∀ t, execSt g s = .next t → Keeps P z t := by
  unfold execSt; intro t e; injection e with e; subst e
  refine keep_runInstr h (fun s p w h => ?_)
  dsimp only
  with_reducible apply keep_bankOp
  all_goals assumption

theorem keep_execUpd {P : Area → Prop} {z s : State} {g : Nat} (h : Keeps P z s) 
    (ktiles : P .tiles := by assumption) (kfabric : P .fabric := by assumption) (krings : P .rings := by assumption) (ktwins : P .twins := by assumption) (klog : P .log := by assumption) : ∀ t, execUpd g s = .next t → Keeps P z t := by
  unfold execUpd; intro t e; injection e with e; subst e
  exact keep_runInstr h (fun _ _ _ h => keep_bankOp h)

theorem keep_execEmit {P : Area → Prop} {z s : State} {g : Nat} (h : Keeps P z s) 
    (kfabric : P .fabric := by assumption) (krings : P .rings := by assumption) (ktwins : P .twins := by assumption) (klog : P .log := by assumption) : ∀ t, execEmit g s = .next t → Keeps P z t := by
  unfold execEmit; intro t e; injection e with e; subst e
  exact keep_runInstr h (fun _ _ _ h => keep_emitPort h)

theorem keep_execEmitd {P : Area → Prop} {z s : State} {g : Nat} (h : Keeps P z s) 
    (kfabric : P .fabric := by assumption) (krings : P .rings := by assumption) (ktwins : P .twins := by assumption) (klog : P .log := by assumption) : ∀ t, execEmitd g s = .next t → Keeps P z t := by
  unfold execEmitd; intro t e; injection e with e; subst e
  exact keep_runInstr h (fun _ _ _ h => keep_emitDie h)

end Sys2Proof.Machine
end

