-- ==== Sys2Proof/Laws/KeepSched.lean ====
section
/-! SUPPORT. What the operations of Machine/Sched.lean keep (Laws/Keep.lean), one lemma per operation. -/

set_option linter.tactic.unusedName false
set_option linter.all false
set_option Elab.async false

namespace Sys2Proof.Machine

theorem keep_setReady {P : Area → Prop} {z : State} {s : State} {a_tile : Nat} {a_ts : List Task} (h : Keeps P z s)
    (kfabric : P .fabric := by assumption) :
    Keeps P z (setReady s a_tile a_ts) := by
  unfold setReady
  repeat' (first | (with_reducible assumption) | (exact Or.inl (by assumption)) | (exact Or.inr rfl)
                 | (exact Or.inr ⟨rfl, rfl, rfl, rfl⟩) | (intro)
                 | (extract_lets +onlyGivenNames y; refine keep_cut (y := y) ?_ ?_; (focus (dsimp only [y]; clear y)); rotate_left; (focus (clear_value y; revert y; intro _ _)))
                 | (extract_lets +onlyGivenNames y; refine keep_cut1 (y := y) ?_ ?_; (focus (dsimp only [y]; clear y)); rotate_left; (focus (clear_value y; revert y; intro _ _)))
                 | (extract_lets +onlyGivenNames y; refine keep_cut2 (y := y) ?_ ?_; (focus (dsimp only [y]; clear y)); rotate_left; (focus (clear_value y; revert y; intro _ _)))
                 | (extract_lets +onlyGivenNames y; clear_value y; revert y; intro _) | (with_reducible apply keep_modFab)
                 | (with_reducible apply keep_maxF) | (with_reducible apply keep_setF) | (with_reducible refine keep_ite ?_ ?_)
                 | split | (dsimp only)
                 | (with_reducible refine keep_mk ?_ rfl rfl rfl rfl rfl rfl rfl rfl rfl ?_ ?_ ?_ ?_ ?_ ?_ ?_ ?_ ?_ ?_ ?_ ?_ ?_ ?_ ?_ ?_ ?_ ?_))

theorem keep_setStore {P : Area → Prop} {z : State} {s : State} {a_tile : Nat} {a_es : List MatchEnt} (h : Keeps P z s)
    (kfabric : P .fabric := by assumption) :
    Keeps P z (setStore s a_tile a_es) := by
  unfold setStore
  repeat' (first | (with_reducible assumption) | (exact Or.inl (by assumption)) | (exact Or.inr rfl)
                 | (exact Or.inr ⟨rfl, rfl, rfl, rfl⟩) | (intro)
                 | (extract_lets +onlyGivenNames y; refine keep_cut (y := y) ?_ ?_; (focus (dsimp only [y]; clear y)); rotate_left; (focus (clear_value y; revert y; intro _ _)))
                 | (extract_lets +onlyGivenNames y; refine keep_cut1 (y := y) ?_ ?_; (focus (dsimp only [y]; clear y)); rotate_left; (focus (clear_value y; revert y; intro _ _)))
                 | (extract_lets +onlyGivenNames y; refine keep_cut2 (y := y) ?_ ?_; (focus (dsimp only [y]; clear y)); rotate_left; (focus (clear_value y; revert y; intro _ _)))
                 | (extract_lets +onlyGivenNames y; clear_value y; revert y; intro _) | (with_reducible apply keep_modFab)
                 | (with_reducible apply keep_maxF) | (with_reducible apply keep_setF) | (with_reducible refine keep_ite ?_ ?_)
                 | split | (dsimp only)
                 | (with_reducible refine keep_mk ?_ rfl rfl rfl rfl rfl rfl rfl rfl rfl ?_ ?_ ?_ ?_ ?_ ?_ ?_ ?_ ?_ ?_ ?_ ?_ ?_ ?_ ?_ ?_ ?_ ?_))

theorem keep_setQueue {P : Area → Prop} {z : State} {s : State} {a_tile : Nat} {a_trav : Nat} {a_q : List QTok}
    (h : Keeps P z s) (kfabric : P .fabric := by assumption) :
    Keeps P z (setQueue s a_tile a_trav a_q) := by
  unfold setQueue
  repeat' (first | (with_reducible assumption) | (exact Or.inl (by assumption)) | (exact Or.inr rfl)
                 | (exact Or.inr ⟨rfl, rfl, rfl, rfl⟩) | (intro)
                 | (extract_lets +onlyGivenNames y; refine keep_cut (y := y) ?_ ?_; (focus (dsimp only [y]; clear y)); rotate_left; (focus (clear_value y; revert y; intro _ _)))
                 | (extract_lets +onlyGivenNames y; refine keep_cut1 (y := y) ?_ ?_; (focus (dsimp only [y]; clear y)); rotate_left; (focus (clear_value y; revert y; intro _ _)))
                 | (extract_lets +onlyGivenNames y; refine keep_cut2 (y := y) ?_ ?_; (focus (dsimp only [y]; clear y)); rotate_left; (focus (clear_value y; revert y; intro _ _)))
                 | (extract_lets +onlyGivenNames y; clear_value y; revert y; intro _) | (with_reducible apply keep_modFab)
                 | (with_reducible apply keep_setF) | (with_reducible refine keep_ite ?_ ?_) | split | (dsimp only)
                 | (with_reducible refine keep_mk ?_ rfl rfl rfl rfl rfl rfl rfl rfl rfl ?_ ?_ ?_ ?_ ?_ ?_ ?_ ?_ ?_ ?_ ?_ ?_ ?_ ?_ ?_ ?_ ?_ ?_))

theorem keep_addTask {P : Area → Prop} {z : State} {s : State} {a_g : Nat} {a_trav : Nat} {a_toks : List Token}
    (h : Keeps P z s) (kfabric : P .fabric := by assumption) :
    Keeps P z (addTask s a_g a_trav a_toks) := by
  unfold addTask
  repeat' (first | (with_reducible assumption) | (intro) | (with_reducible apply keep_setReady) | split | (dsimp only))

theorem keep_takeUnits {P : Area → Prop} {z : State} {s : State} {a_d : Nat} {a_n : Nat} {a_trav : Nat} (h : Keeps P z s) :
    Keeps P z (takeUnits s a_d a_n a_trav) := by
  unfold takeUnits
  repeat' (first | (with_reducible assumption) | (intro) | (with_reducible apply keep_setF) | (with_reducible apply keep_foldl)
                 | (with_reducible apply keep_foldl1) | split | (dsimp only))

theorem keep_freeUnits {P : Area → Prop} {z : State} {s : State} {a_d : Nat} {a_n : Nat} {a_trav : Nat} {a_keys : Nat}
    {a_done : Bool} (h : Keeps P z s) :
    Keeps P z (freeUnits s a_d a_n a_trav a_keys a_done) := by
  unfold freeUnits
  repeat' (first | (with_reducible assumption) | (intro)
                 | (extract_lets +onlyGivenNames y; refine keep_cut (y := y) ?_ ?_; (focus (dsimp only [y]; clear y)); rotate_left; (focus (clear_value y; revert y; intro _ _)))
                 | (extract_lets +onlyGivenNames y; refine keep_cut1 (y := y) ?_ ?_; (focus (dsimp only [y]; clear y)); rotate_left; (focus (clear_value y; revert y; intro _ _)))
                 | (extract_lets +onlyGivenNames y; refine keep_cut2 (y := y) ?_ ?_; (focus (dsimp only [y]; clear y)); rotate_left; (focus (clear_value y; revert y; intro _ _)))
                 | (extract_lets +onlyGivenNames y; clear_value y; revert y; intro _) | (with_reducible apply keep_setF)
                 | (with_reducible apply keep_addF) | (with_reducible refine keep_ite ?_ ?_) | (with_reducible apply keep_foldl)
                 | (with_reducible apply keep_foldl1) | split | (dsimp only))

theorem keep_undefRegion {P : Area → Prop} {z : State} {s : State} {a_p : Plat} {a_region : Nat} (h : Keeps P z s)
    (ksram : P .sram := by assumption) :
    Keeps P z (undefRegion s a_p a_region) := by
  unfold undefRegion
  repeat' (first | (with_reducible assumption) | (intro) | (with_reducible apply keep_mkUndef)
                 | (with_reducible apply keep_foldl) | (with_reducible apply keep_foldl1) | split | (dsimp only)
                 | (exact by decide) | (show P _; assumption) | (exact memArea_of ‹_› ‹_› ‹_›))

theorem keep_sortTake {P : Area → Prop} {z : State} {s : State} {a_g : Nat} {a_src : Nat} {a_p : Plat} {a_n : Node}
    {a_t : Token} (h : Keeps P z s) (ksram : P .sram := by assumption) (kfabric : P .fabric := by assumption) :
    Keeps P z (sortTake s a_g a_src a_p a_n a_t) := by
  unfold sortTake
  repeat' (first | (with_reducible assumption) | (exact Or.inl (by assumption)) | (exact Or.inr rfl)
                 | (exact Or.inr ⟨rfl, rfl, rfl, rfl⟩) | (intro)
                 | (extract_lets +onlyGivenNames y; refine keep_cut (y := y) ?_ ?_; (focus (dsimp only [y]; clear y)); rotate_left; (focus (clear_value y; revert y; intro _ _)))
                 | (extract_lets +onlyGivenNames y; refine keep_cut1 (y := y) ?_ ?_; (focus (dsimp only [y]; clear y)); rotate_left; (focus (clear_value y; revert y; intro _ _)))
                 | (extract_lets +onlyGivenNames y; refine keep_cut2 (y := y) ?_ ?_; (focus (dsimp only [y]; clear y)); rotate_left; (focus (clear_value y; revert y; intro _ _)))
                 | (extract_lets +onlyGivenNames y; clear_value y; revert y; intro _) | (with_reducible apply keep_undefRegion)
                 | (with_reducible apply keep_takeUnits) | (with_reducible apply keep_modFab)
                 | (with_reducible refine keep_ite ?_ ?_) | split | (dsimp only)
                 | (with_reducible refine keep_mk ?_ rfl rfl rfl rfl rfl rfl rfl rfl rfl ?_ ?_ ?_ ?_ ?_ ?_ ?_ ?_ ?_ ?_ ?_ ?_ ?_ ?_ ?_ ?_ ?_ ?_))

theorem keep_sortEmit {P : Area → Prop} {z : State} {s : State} {a_f : Nat} {a_t : Token} (h : Keeps P z s)
    (kfabric : P .fabric := by assumption) :
    Keeps P z (sortEmit s a_f a_t) := by
  unfold sortEmit
  repeat' (first | (with_reducible assumption) | (intro)
                 | (extract_lets +onlyGivenNames y; refine keep_cut (y := y) ?_ ?_; (focus (dsimp only [y]; clear y)); rotate_left; (focus (clear_value y; revert y; intro _ _)))
                 | (extract_lets +onlyGivenNames y; refine keep_cut1 (y := y) ?_ ?_; (focus (dsimp only [y]; clear y)); rotate_left; (focus (clear_value y; revert y; intro _ _)))
                 | (extract_lets +onlyGivenNames y; refine keep_cut2 (y := y) ?_ ?_; (focus (dsimp only [y]; clear y)); rotate_left; (focus (clear_value y; revert y; intro _ _)))
                 | (extract_lets +onlyGivenNames y; clear_value y; revert y; intro _) | (with_reducible apply keep_pushOut)
                 | (with_reducible refine keep_ite ?_ ?_) | (with_reducible apply keep_foldl)
                 | (with_reducible apply keep_foldl1) | split | (dsimp only))

theorem keep_sortMergeDone {P : Area → Prop} {z : State} {s : State} {a_inv : Nat} {a_first : Nat} (h : Keeps P z s)
    (kfabric : P .fabric := by assumption) (krings : P .rings := by assumption) (ktwins : P .twins := by assumption)
    (klog : P .log := by assumption) :
    Keeps P z (sortMergeDone s a_inv a_first) := by
  unfold sortMergeDone
  repeat' (first | (with_reducible assumption) | (exact Or.inl (by assumption)) | (exact Or.inr rfl)
                 | (exact Or.inr ⟨rfl, rfl, rfl, rfl⟩) | (intro)
                 | (extract_lets +onlyGivenNames y; refine keep_cut (y := y) ?_ ?_; (focus (dsimp only [y]; clear y)); rotate_left; (focus (clear_value y; revert y; intro _ _)))
                 | (extract_lets +onlyGivenNames y; refine keep_cut1 (y := y) ?_ ?_; (focus (dsimp only [y]; clear y)); rotate_left; (focus (clear_value y; revert y; intro _ _)))
                 | (extract_lets +onlyGivenNames y; refine keep_cut2 (y := y) ?_ ?_; (focus (dsimp only [y]; clear y)); rotate_left; (focus (clear_value y; revert y; intro _ _)))
                 | (extract_lets +onlyGivenNames y; clear_value y; revert y; intro _) | (with_reducible apply keep_modFab)
                 | (with_reducible apply keep_freeUnits) | (with_reducible apply keep_markFail)
                 | (with_reducible apply keep_sortEmit) | (with_reducible refine keep_ite ?_ ?_)
                 | (with_reducible apply keep_foldl) | (with_reducible apply keep_foldl1) | split | (dsimp only)
                 | (with_reducible refine keep_mk ?_ rfl rfl rfl rfl rfl rfl rfl rfl rfl ?_ ?_ ?_ ?_ ?_ ?_ ?_ ?_ ?_ ?_ ?_ ?_ ?_ ?_ ?_ ?_ ?_ ?_))

theorem keep_execSortMergeDone {P : Area → Prop} {z : State} {a_inv : Nat} {a_first : Nat} {s : State} (h : Keeps P z s)
    (kfabric : P .fabric := by assumption) (krings : P .rings := by assumption) (ktwins : P .twins := by assumption)
    (klog : P .log := by assumption) :
    ∀ t, execSortMergeDone a_inv a_first s = .next t → Keeps P z t := by
  unfold execSortMergeDone; intro t e; injection e with e; subst e
  repeat' (first | (with_reducible assumption) | (intro) | (with_reducible apply keep_sortMergeDone) | split | (dsimp only))

theorem keep_setAsof {P : Area → Prop} {z : State} {s : State} {a_x : AsofBuf} (h : Keeps P z s)
    (kfabric : P .fabric := by assumption) :
    Keeps P z (setAsof s a_x) := by
  unfold setAsof
  repeat' (first | (with_reducible assumption) | (exact Or.inl (by assumption)) | (exact Or.inr rfl)
                 | (exact Or.inr ⟨rfl, rfl, rfl, rfl⟩) | (intro)
                 | (extract_lets +onlyGivenNames y; refine keep_cut (y := y) ?_ ?_; (focus (dsimp only [y]; clear y)); rotate_left; (focus (clear_value y; revert y; intro _ _)))
                 | (extract_lets +onlyGivenNames y; refine keep_cut1 (y := y) ?_ ?_; (focus (dsimp only [y]; clear y)); rotate_left; (focus (clear_value y; revert y; intro _ _)))
                 | (extract_lets +onlyGivenNames y; refine keep_cut2 (y := y) ?_ ?_; (focus (dsimp only [y]; clear y)); rotate_left; (focus (clear_value y; revert y; intro _ _)))
                 | (extract_lets +onlyGivenNames y; clear_value y; revert y; intro _) | (with_reducible apply keep_modFab)
                 | split | (dsimp only)
                 | (with_reducible refine keep_mk ?_ rfl rfl rfl rfl rfl rfl rfl rfl rfl ?_ ?_ ?_ ?_ ?_ ?_ ?_ ?_ ?_ ?_ ?_ ?_ ?_ ?_ ?_ ?_ ?_ ?_))

theorem keep_asofTake {P : Area → Prop} {z : State} {s : State} {a_g : Nat} {a_src : Nat} {a_p : Plat} {a_n : Node}
    {a_t : Token} (h : Keeps P z s) (kfabric : P .fabric := by assumption) :
    Keeps P z (asofTake s a_g a_src a_p a_n a_t) := by
  unfold asofTake
  repeat' (first | (with_reducible assumption) | (exact Or.inl (by assumption)) | (exact Or.inr rfl)
                 | (exact Or.inr ⟨rfl, rfl, rfl, rfl⟩) | (intro)
                 | (extract_lets +onlyGivenNames y; refine keep_cut (y := y) ?_ ?_; (focus (dsimp only [y]; clear y)); rotate_left; (focus (clear_value y; revert y; intro _ _)))
                 | (extract_lets +onlyGivenNames y; refine keep_cut1 (y := y) ?_ ?_; (focus (dsimp only [y]; clear y)); rotate_left; (focus (clear_value y; revert y; intro _ _)))
                 | (extract_lets +onlyGivenNames y; refine keep_cut2 (y := y) ?_ ?_; (focus (dsimp only [y]; clear y)); rotate_left; (focus (clear_value y; revert y; intro _ _)))
                 | (extract_lets +onlyGivenNames y; clear_value y; revert y; intro _) | (with_reducible apply keep_setAsof)
                 | (with_reducible refine keep_ite ?_ ?_) | split | (dsimp only)
                 | (with_reducible refine keep_mk ?_ rfl rfl rfl rfl rfl rfl rfl rfl rfl ?_ ?_ ?_ ?_ ?_ ?_ ?_ ?_ ?_ ?_ ?_ ?_ ?_ ?_ ?_ ?_ ?_ ?_))

theorem keep_popQueue {P : Area → Prop} {z : State} {s : State} {a_tile : Nat} {a_trav : Nat} (h : Keeps P z s)
    (kfabric : P .fabric := by assumption) :
    Keeps P z (popQueue s a_tile a_trav) := by
  unfold popQueue
  repeat' (first | (with_reducible assumption) | (intro) | (with_reducible apply keep_setQueue) | split | (dsimp only))

theorem keep_countIn {P : Area → Prop} {z : State} {s : State} {a_tile : Nat} (h : Keeps P z s) :
    Keeps P z (countIn s a_tile) := by
  unfold countIn
  repeat' (first | (with_reducible assumption) | (intro) | (with_reducible apply keep_addF) | split | (dsimp only))

theorem keep_countWait {P : Area → Prop} {z : State} {s : State} {a_tile : Nat} {a_trav : Nat} (h : Keeps P z s)
    (kfabric : P .fabric := by assumption) :
    Keeps P z (countWait s a_tile a_trav) := by
  unfold countWait
  repeat' (first | (with_reducible assumption) | (exact Or.inl (by assumption)) | (exact Or.inr rfl)
                 | (exact Or.inr ⟨rfl, rfl, rfl, rfl⟩) | (intro)
                 | (extract_lets +onlyGivenNames y; refine keep_cut (y := y) ?_ ?_; (focus (dsimp only [y]; clear y)); rotate_left; (focus (clear_value y; revert y; intro _ _)))
                 | (extract_lets +onlyGivenNames y; refine keep_cut1 (y := y) ?_ ?_; (focus (dsimp only [y]; clear y)); rotate_left; (focus (clear_value y; revert y; intro _ _)))
                 | (extract_lets +onlyGivenNames y; refine keep_cut2 (y := y) ?_ ?_; (focus (dsimp only [y]; clear y)); rotate_left; (focus (clear_value y; revert y; intro _ _)))
                 | (extract_lets +onlyGivenNames y; clear_value y; revert y; intro _) | (with_reducible apply keep_satF)
                 | (with_reducible apply keep_setQueue) | (with_reducible refine keep_ite ?_ ?_) | split | (dsimp only)
                 | (with_reducible refine keep_mk ?_ rfl rfl rfl rfl rfl rfl rfl rfl rfl ?_ ?_ ?_ ?_ ?_ ?_ ?_ ?_ ?_ ?_ ?_ ?_ ?_ ?_ ?_ ?_ ?_ ?_))

theorem keep_dupSlot {P : Area → Prop} {z : State} {s : State} {a_tile : Nat} {a_t : Token} (h : Keeps P z s)
    (kfabric : P .fabric := by assumption) (krings : P .rings := by assumption) (ktwins : P .twins := by assumption)
    (klog : P .log := by assumption) :
    Keeps P z (dupSlot s a_tile a_t) := by
  unfold dupSlot
  repeat' (first | (with_reducible assumption) | (intro)
                 | (extract_lets +onlyGivenNames y; refine keep_cut (y := y) ?_ ?_; (focus (dsimp only [y]; clear y)); rotate_left; (focus (clear_value y; revert y; intro _ _)))
                 | (extract_lets +onlyGivenNames y; refine keep_cut1 (y := y) ?_ ?_; (focus (dsimp only [y]; clear y)); rotate_left; (focus (clear_value y; revert y; intro _ _)))
                 | (extract_lets +onlyGivenNames y; refine keep_cut2 (y := y) ?_ ?_; (focus (dsimp only [y]; clear y)); rotate_left; (focus (clear_value y; revert y; intro _ _)))
                 | (extract_lets +onlyGivenNames y; clear_value y; revert y; intro _) | (with_reducible apply keep_satF)
                 | (with_reducible apply keep_markFail) | (with_reducible apply keep_raise) | split | (dsimp only))

theorem keep_matchToken {P : Area → Prop} {z : State} {s : State} {a_tile : Nat} {a_g : Nat} {a_t : Token}
    (h : Keeps P z s) (kfabric : P .fabric := by assumption) (krings : P .rings := by assumption)
    (ktwins : P .twins := by assumption) (klog : P .log := by assumption) :
    Keeps P z (matchToken s a_tile a_g a_t) := by
  unfold matchToken
  repeat' (first | (with_reducible assumption) | (exact Or.inl (by assumption)) | (exact Or.inr rfl)
                 | (exact Or.inr ⟨rfl, rfl, rfl, rfl⟩) | (intro)
                 | (extract_lets +onlyGivenNames y; refine keep_cut (y := y) ?_ ?_; (focus (dsimp only [y]; clear y)); rotate_left; (focus (clear_value y; revert y; intro _ _)))
                 | (extract_lets +onlyGivenNames y; refine keep_cut1 (y := y) ?_ ?_; (focus (dsimp only [y]; clear y)); rotate_left; (focus (clear_value y; revert y; intro _ _)))
                 | (extract_lets +onlyGivenNames y; refine keep_cut2 (y := y) ?_ ?_; (focus (dsimp only [y]; clear y)); rotate_left; (focus (clear_value y; revert y; intro _ _)))
                 | (extract_lets +onlyGivenNames y; clear_value y; revert y; intro _) | (with_reducible apply keep_dupSlot)
                 | (with_reducible apply keep_popQueue) | (with_reducible apply keep_addTask)
                 | (with_reducible apply keep_setStore) | (with_reducible apply keep_countIn)
                 | (with_reducible apply keep_countWait) | (with_reducible refine keep_ite ?_ ?_) | split | (dsimp only)
                 | (with_reducible refine keep_mk ?_ rfl rfl rfl rfl rfl rfl rfl rfl rfl ?_ ?_ ?_ ?_ ?_ ?_ ?_ ?_ ?_ ?_ ?_ ?_ ?_ ?_ ?_ ?_ ?_ ?_))

theorem keep_nodeTake {P : Area → Prop} {z : State} {s : State} {a_g : Nat} {a_src : Nat} {a_t : Token} (h : Keeps P z s)
    (kfabric : P .fabric := by assumption) :
    Keeps P z (nodeTake s a_g a_src a_t) := by
  unfold nodeTake
  repeat' (first | (with_reducible assumption) | (exact Or.inl (by assumption)) | (exact Or.inr rfl)
                 | (exact Or.inr ⟨rfl, rfl, rfl, rfl⟩) | (intro)
                 | (extract_lets +onlyGivenNames y; refine keep_cut (y := y) ?_ ?_; (focus (dsimp only [y]; clear y)); rotate_left; (focus (clear_value y; revert y; intro _ _)))
                 | (extract_lets +onlyGivenNames y; refine keep_cut1 (y := y) ?_ ?_; (focus (dsimp only [y]; clear y)); rotate_left; (focus (clear_value y; revert y; intro _ _)))
                 | (extract_lets +onlyGivenNames y; refine keep_cut2 (y := y) ?_ ?_; (focus (dsimp only [y]; clear y)); rotate_left; (focus (clear_value y; revert y; intro _ _)))
                 | (extract_lets +onlyGivenNames y; clear_value y; revert y; intro _) | (with_reducible apply keep_asofTake)
                 | (with_reducible apply keep_setMatches) | (with_reducible refine keep_ite ?_ ?_) | split | (dsimp only)
                 | (with_reducible refine keep_mk ?_ rfl rfl rfl rfl rfl rfl rfl rfl rfl ?_ ?_ ?_ ?_ ?_ ?_ ?_ ?_ ?_ ?_ ?_ ?_ ?_ ?_ ?_ ?_ ?_ ?_))

theorem keep_takeHead {P : Area → Prop} {z : State} {s : State} {a_tile : Nat} {a_h : QTok} (h : Keeps P z s)
    (kfabric : P .fabric := by assumption) (krings : P .rings := by assumption) (ktwins : P .twins := by assumption)
    (klog : P .log := by assumption) :
    Keeps P z (takeHead s a_tile a_h) := by
  unfold takeHead
  repeat' (first | (with_reducible assumption) | (intro)
                 | (extract_lets +onlyGivenNames y; refine keep_cut (y := y) ?_ ?_; (focus (dsimp only [y]; clear y)); rotate_left; (focus (clear_value y; revert y; intro _ _)))
                 | (extract_lets +onlyGivenNames y; refine keep_cut1 (y := y) ?_ ?_; (focus (dsimp only [y]; clear y)); rotate_left; (focus (clear_value y; revert y; intro _ _)))
                 | (extract_lets +onlyGivenNames y; refine keep_cut2 (y := y) ?_ ?_; (focus (dsimp only [y]; clear y)); rotate_left; (focus (clear_value y; revert y; intro _ _)))
                 | (extract_lets +onlyGivenNames y; clear_value y; revert y; intro _) | (with_reducible apply keep_addTask)
                 | (with_reducible apply keep_countIn) | (with_reducible apply keep_popQueue)
                 | (with_reducible apply keep_matchToken) | (with_reducible refine keep_ite ?_ ?_) | split | (dsimp only))

theorem keep_tokenMatch {P : Area → Prop} {z : State} {s : State} {a_tile : Nat} {a_trav : Nat} (h : Keeps P z s)
    (ksram : P .sram := by assumption) (kfabric : P .fabric := by assumption) (krings : P .rings := by assumption)
    (ktwins : P .twins := by assumption) (klog : P .log := by assumption) :
    Keeps P z (tokenMatch s a_tile a_trav) := by
  unfold tokenMatch
  repeat' (first | (with_reducible assumption) | (exact Or.inl (by assumption)) | (exact Or.inr rfl)
                 | (exact Or.inr ⟨rfl, rfl, rfl, rfl⟩) | (intro)
                 | (extract_lets +onlyGivenNames y; refine keep_cut (y := y) ?_ ?_; (focus (dsimp only [y]; clear y)); rotate_left; (focus (clear_value y; revert y; intro _ _)))
                 | (extract_lets +onlyGivenNames y; refine keep_cut1 (y := y) ?_ ?_; (focus (dsimp only [y]; clear y)); rotate_left; (focus (clear_value y; revert y; intro _ _)))
                 | (extract_lets +onlyGivenNames y; refine keep_cut2 (y := y) ?_ ?_; (focus (dsimp only [y]; clear y)); rotate_left; (focus (clear_value y; revert y; intro _ _)))
                 | (extract_lets +onlyGivenNames y; clear_value y; revert y; intro _) | (with_reducible apply keep_countOrphan)
                 | (with_reducible apply keep_popQueue) | (with_reducible apply keep_sortTake)
                 | (with_reducible apply keep_countIn) | (with_reducible apply keep_takeHead)
                 | (with_reducible apply keep_nodeTake) | (with_reducible refine keep_ite ?_ ?_) | split | (dsimp only)
                 | (with_reducible refine keep_mk ?_ rfl rfl rfl rfl rfl rfl rfl rfl rfl ?_ ?_ ?_ ?_ ?_ ?_ ?_ ?_ ?_ ?_ ?_ ?_ ?_ ?_ ?_ ?_ ?_ ?_))

theorem keep_execTokenMatch {P : Area → Prop} {z : State} {a_tile : Nat} {a_trav : Nat} {s : State} (h : Keeps P z s)
    (ksram : P .sram := by assumption) (kfabric : P .fabric := by assumption) (krings : P .rings := by assumption)
    (ktwins : P .twins := by assumption) (klog : P .log := by assumption) :
    ∀ t, execTokenMatch a_tile a_trav s = .next t → Keeps P z t := by
  unfold execTokenMatch; intro t e; injection e with e; subst e
  repeat' (first | (with_reducible assumption) | (intro) | (with_reducible apply keep_tokenMatch) | split | (dsimp only))

theorem keep_holdStall {P : Area → Prop} {z : State} {s : State} {a_tile : Nat} {a_trav : Nat} (h : Keeps P z s)
    (kfabric : P .fabric := by assumption) (krings : P .rings := by assumption) (ktwins : P .twins := by assumption)
    (klog : P .log := by assumption) :
    Keeps P z (holdStall s a_tile a_trav) := by
  unfold holdStall
  repeat' (first | (with_reducible assumption) | (exact Or.inl (by assumption)) | (exact Or.inr rfl)
                 | (exact Or.inr ⟨rfl, rfl, rfl, rfl⟩) | (intro)
                 | (extract_lets +onlyGivenNames y; refine keep_cut (y := y) ?_ ?_; (focus (dsimp only [y]; clear y)); rotate_left; (focus (clear_value y; revert y; intro _ _)))
                 | (extract_lets +onlyGivenNames y; refine keep_cut1 (y := y) ?_ ?_; (focus (dsimp only [y]; clear y)); rotate_left; (focus (clear_value y; revert y; intro _ _)))
                 | (extract_lets +onlyGivenNames y; refine keep_cut2 (y := y) ?_ ?_; (focus (dsimp only [y]; clear y)); rotate_left; (focus (clear_value y; revert y; intro _ _)))
                 | (extract_lets +onlyGivenNames y; clear_value y; revert y; intro _) | (with_reducible apply keep_setQueue)
                 | (with_reducible apply keep_raise) | (with_reducible apply keep_setF) | (with_reducible apply keep_satF)
                 | (with_reducible apply keep_logC) | (with_reducible refine keep_ite ?_ ?_) | split | (dsimp only)
                 | (with_reducible refine keep_mk ?_ rfl rfl rfl rfl rfl rfl rfl rfl rfl ?_ ?_ ?_ ?_ ?_ ?_ ?_ ?_ ?_ ?_ ?_ ?_ ?_ ?_ ?_ ?_ ?_ ?_))

theorem keep_execHoldStall {P : Area → Prop} {z : State} {a_tile : Nat} {a_trav : Nat} {s : State} (h : Keeps P z s)
    (kfabric : P .fabric := by assumption) (krings : P .rings := by assumption) (ktwins : P .twins := by assumption)
    (klog : P .log := by assumption) :
    ∀ t, execHoldStall a_tile a_trav s = .next t → Keeps P z t := by
  unfold execHoldStall; intro t e; injection e with e; subst e
  repeat' (first | (with_reducible assumption) | (intro) | (with_reducible apply keep_holdStall) | split | (dsimp only))

theorem keep_dispatch {P : Area → Prop} {z : State} {s : State} {a_tile : Nat} {a_t : Task} (h : Keeps P z s)
    (kfabric : P .fabric := by assumption) (krings : P .rings := by assumption) :
    Keeps P z (dispatch s a_tile a_t) := by
  unfold dispatch
  repeat' (first | (with_reducible assumption) | (exact Or.inl (by assumption)) | (exact Or.inr rfl)
                 | (exact Or.inr ⟨rfl, rfl, rfl, rfl⟩) | (intro)
                 | (extract_lets +onlyGivenNames y; refine keep_cut (y := y) ?_ ?_; (focus (dsimp only [y]; clear y)); rotate_left; (focus (clear_value y; revert y; intro _ _)))
                 | (extract_lets +onlyGivenNames y; refine keep_cut1 (y := y) ?_ ?_; (focus (dsimp only [y]; clear y)); rotate_left; (focus (clear_value y; revert y; intro _ _)))
                 | (extract_lets +onlyGivenNames y; refine keep_cut2 (y := y) ?_ ?_; (focus (dsimp only [y]; clear y)); rotate_left; (focus (clear_value y; revert y; intro _ _)))
                 | (extract_lets +onlyGivenNames y; clear_value y; revert y; intro _) | (with_reducible apply keep_setReady)
                 | (with_reducible apply keep_addF) | (with_reducible apply keep_raise) | (with_reducible apply keep_satF)
                 | (with_reducible apply keep_modFab) | (with_reducible refine keep_ite ?_ ?_) | split | (dsimp only)
                 | (with_reducible refine keep_mk ?_ rfl rfl rfl rfl rfl rfl rfl rfl rfl ?_ ?_ ?_ ?_ ?_ ?_ ?_ ?_ ?_ ?_ ?_ ?_ ?_ ?_ ?_ ?_ ?_ ?_))

theorem keep_taskDispatch {P : Area → Prop} {z : State} {s : State} {a_tile : Nat} (h : Keeps P z s)
    (kfabric : P .fabric := by assumption) (krings : P .rings := by assumption) :
    Keeps P z (taskDispatch s a_tile) := by
  unfold taskDispatch
  repeat' (first | (with_reducible assumption) | (intro) | (with_reducible apply keep_dispatch)
                 | (with_reducible apply keep_foldl) | (with_reducible apply keep_foldl1) | split | (dsimp only))

theorem keep_execTaskDispatch {P : Area → Prop} {z : State} {a_tile : Nat} {s : State} (h : Keeps P z s)
    (kfabric : P .fabric := by assumption) (krings : P .rings := by assumption) :
    ∀ t, execTaskDispatch a_tile s = .next t → Keeps P z t := by
  unfold execTaskDispatch; intro t e; injection e with e; subst e
  repeat' (first | (with_reducible assumption) | (intro) | (with_reducible apply keep_taskDispatch) | split | (dsimp only))

theorem keep_undeliverable {P : Area → Prop} {z : State} {s : State} {a_d : Nat} {a_e : Nat × Nat} {a_t : Token}
    (h : Keeps P z s) (kfabric : P .fabric := by assumption) (krings : P .rings := by assumption)
    (ktwins : P .twins := by assumption) (klog : P .log := by assumption) :
    Keeps P z (undeliverable s a_d a_e a_t) := by
  unfold undeliverable
  repeat' (first | (with_reducible assumption) | (intro)
                 | (extract_lets +onlyGivenNames y; refine keep_cut (y := y) ?_ ?_; (focus (dsimp only [y]; clear y)); rotate_left; (focus (clear_value y; revert y; intro _ _)))
                 | (extract_lets +onlyGivenNames y; refine keep_cut1 (y := y) ?_ ?_; (focus (dsimp only [y]; clear y)); rotate_left; (focus (clear_value y; revert y; intro _ _)))
                 | (extract_lets +onlyGivenNames y; refine keep_cut2 (y := y) ?_ ?_; (focus (dsimp only [y]; clear y)); rotate_left; (focus (clear_value y; revert y; intro _ _)))
                 | (extract_lets +onlyGivenNames y; clear_value y; revert y; intro _) | (with_reducible apply keep_dropAtEdge)
                 | (with_reducible apply keep_markFail) | (with_reducible apply keep_raise) | split | (dsimp only))

theorem keep_markPoison {P : Area → Prop} {z : State} {s : State} {a_trav : Nat} {a_ctx : Nat} (h : Keeps P z s)
    (kfabric : P .fabric := by assumption) (krings : P .rings := by assumption) (ktwins : P .twins := by assumption)
    (klog : P .log := by assumption) :
    Keeps P z (markPoison s a_trav a_ctx) := by
  unfold markPoison
  repeat' (first | (with_reducible assumption) | (exact Or.inl (by assumption)) | (exact Or.inr rfl)
                 | (exact Or.inr ⟨rfl, rfl, rfl, rfl⟩) | (intro)
                 | (extract_lets +onlyGivenNames y; refine keep_cut (y := y) ?_ ?_; (focus (dsimp only [y]; clear y)); rotate_left; (focus (clear_value y; revert y; intro _ _)))
                 | (extract_lets +onlyGivenNames y; refine keep_cut1 (y := y) ?_ ?_; (focus (dsimp only [y]; clear y)); rotate_left; (focus (clear_value y; revert y; intro _ _)))
                 | (extract_lets +onlyGivenNames y; refine keep_cut2 (y := y) ?_ ?_; (focus (dsimp only [y]; clear y)); rotate_left; (focus (clear_value y; revert y; intro _ _)))
                 | (extract_lets +onlyGivenNames y; clear_value y; revert y; intro _) | (with_reducible apply keep_markFail)
                 | (with_reducible apply keep_logCtx) | (with_reducible apply keep_modFab)
                 | (with_reducible refine keep_ite ?_ ?_) | split | (dsimp only)
                 | (with_reducible refine keep_mk ?_ rfl rfl rfl rfl rfl rfl rfl rfl rfl ?_ ?_ ?_ ?_ ?_ ?_ ?_ ?_ ?_ ?_ ?_ ?_ ?_ ?_ ?_ ?_ ?_ ?_))

theorem keep_collPut {P : Area → Prop} {z : State} {s : State} {a_tile : Nat} {a_g : Nat} {a_t : Token} (h : Keeps P z s)
    (kdests : P .dests := by assumption) :
    Keeps P z (collPut s a_tile a_g a_t) := by
  unfold collPut
  repeat' (first | (with_reducible assumption) | (exact Or.inl (by assumption)) | (exact Or.inr rfl)
                 | (exact Or.inr ⟨rfl, rfl, rfl, rfl⟩) | (intro)
                 | (extract_lets +onlyGivenNames y; refine keep_cut (y := y) ?_ ?_; (focus (dsimp only [y]; clear y)); rotate_left; (focus (clear_value y; revert y; intro _ _)))
                 | (extract_lets +onlyGivenNames y; refine keep_cut1 (y := y) ?_ ?_; (focus (dsimp only [y]; clear y)); rotate_left; (focus (clear_value y; revert y; intro _ _)))
                 | (extract_lets +onlyGivenNames y; refine keep_cut2 (y := y) ?_ ?_; (focus (dsimp only [y]; clear y)); rotate_left; (focus (clear_value y; revert y; intro _ _)))
                 | (extract_lets +onlyGivenNames y; clear_value y; revert y; intro _) | (with_reducible apply keep_maxF)
                 | (with_reducible refine keep_ite ?_ ?_) | split | (dsimp only)
                 | (with_reducible refine keep_mk ?_ rfl rfl rfl rfl rfl rfl rfl rfl rfl ?_ ?_ ?_ ?_ ?_ ?_ ?_ ?_ ?_ ?_ ?_ ?_ ?_ ?_ ?_ ?_ ?_ ?_))

theorem keep_chainPut {P : Area → Prop} {z : State} {s : State} {a_d : Nat} {a_m : ChainMsg} (h : Keeps P z s)
    (kfabric : P .fabric := by assumption) :
    Keeps P z (chainPut s a_d a_m) := by
  unfold chainPut
  repeat' (first | (with_reducible assumption) | (exact Or.inl (by assumption)) | (exact Or.inr rfl)
                 | (exact Or.inr ⟨rfl, rfl, rfl, rfl⟩) | (intro)
                 | (extract_lets +onlyGivenNames y; refine keep_cut (y := y) ?_ ?_; (focus (dsimp only [y]; clear y)); rotate_left; (focus (clear_value y; revert y; intro _ _)))
                 | (extract_lets +onlyGivenNames y; refine keep_cut1 (y := y) ?_ ?_; (focus (dsimp only [y]; clear y)); rotate_left; (focus (clear_value y; revert y; intro _ _)))
                 | (extract_lets +onlyGivenNames y; refine keep_cut2 (y := y) ?_ ?_; (focus (dsimp only [y]; clear y)); rotate_left; (focus (clear_value y; revert y; intro _ _)))
                 | (extract_lets +onlyGivenNames y; clear_value y; revert y; intro _) | (with_reducible apply keep_modFab)
                 | split | (dsimp only)
                 | (with_reducible refine keep_mk ?_ rfl rfl rfl rfl rfl rfl rfl rfl rfl ?_ ?_ ?_ ?_ ?_ ?_ ?_ ?_ ?_ ?_ ?_ ?_ ?_ ?_ ?_ ?_ ?_ ?_))

theorem keep_chainSend {P : Area → Prop} {z : State} {s : State} {a_src : Nat} {a_m : ChainMsg} {a_ds : List Nat}
    (h : Keeps P z s) (kfabric : P .fabric := by assumption) (krings : P .rings := by assumption)
    (ktwins : P .twins := by assumption) (klog : P .log := by assumption) :
    Keeps P z (chainSend s a_src a_m a_ds).1 := by
  unfold chainSend
  repeat' (first | (with_reducible assumption) | (intro)
                 | (extract_lets +onlyGivenNames y; refine keep_cut (y := y) ?_ ?_; (focus (dsimp only [y]; clear y)); rotate_left; (focus (clear_value y; revert y; intro _ _)))
                 | (extract_lets +onlyGivenNames y; refine keep_cut1 (y := y) ?_ ?_; (focus (dsimp only [y]; clear y)); rotate_left; (focus (clear_value y; revert y; intro _ _)))
                 | (extract_lets +onlyGivenNames y; refine keep_cut2 (y := y) ?_ ?_; (focus (dsimp only [y]; clear y)); rotate_left; (focus (clear_value y; revert y; intro _ _)))
                 | (extract_lets +onlyGivenNames y; clear_value y; revert y; intro _)
                 | (with_reducible apply keep_undeliverable) | (with_reducible apply keep_chainPut)
                 | (with_reducible apply keep_foldl) | (with_reducible apply keep_foldl1) | split | (dsimp only))

theorem keep_sendOne {P : Area → Prop} {z : State} {s : State} {a_src : Nat} {a_i : Nat} {a_fc : Nat} {a_t : Token}
    {a_d : Dest} (h : Keeps P z s) (kfabric : P .fabric := by assumption) (kdests : P .dests := by assumption)
    (krings : P .rings := by assumption) (ktwins : P .twins := by assumption) (klog : P .log := by assumption) :
    Keeps P z (sendOne s a_src a_i a_fc a_t a_d).1 := by
  unfold sendOne
  repeat' (first | (with_reducible assumption) | (exact Or.inl (by assumption)) | (exact Or.inr rfl)
                 | (exact Or.inr ⟨rfl, rfl, rfl, rfl⟩) | (intro)
                 | (extract_lets +onlyGivenNames y; refine keep_cut (y := y) ?_ ?_; (focus (dsimp only [y]; clear y)); rotate_left; (focus (clear_value y; revert y; intro _ _)))
                 | (extract_lets +onlyGivenNames y; refine keep_cut1 (y := y) ?_ ?_; (focus (dsimp only [y]; clear y)); rotate_left; (focus (clear_value y; revert y; intro _ _)))
                 | (extract_lets +onlyGivenNames y; refine keep_cut2 (y := y) ?_ ?_; (focus (dsimp only [y]; clear y)); rotate_left; (focus (clear_value y; revert y; intro _ _)))
                 | (extract_lets +onlyGivenNames y; clear_value y; revert y; intro _) | (with_reducible apply keep_arrive)
                 | (with_reducible apply keep_enqueue) | (with_reducible apply keep_chainSend)
                 | (with_reducible apply keep_undeliverable) | (with_reducible apply keep_collPut)
                 | (with_reducible refine keep_ite ?_ ?_) | split | (dsimp only)
                 | (with_reducible refine keep_mk ?_ rfl rfl rfl rfl rfl rfl rfl rfl rfl ?_ ?_ ?_ ?_ ?_ ?_ ?_ ?_ ?_ ?_ ?_ ?_ ?_ ?_ ?_ ?_ ?_ ?_))

theorem keep_sendCopy {P : Area → Prop} {z : State} {s : State} {a_src : Nat} {a_i : Nat} {a_j : Nat} (h : Keeps P z s)
    (kfabric : P .fabric := by assumption) (kdests : P .dests := by assumption) (krings : P .rings := by assumption)
    (ktwins : P .twins := by assumption) (klog : P .log := by assumption) :
    Keeps P z (sendCopy s a_src a_i a_j) := by
  unfold sendCopy
  repeat' (first | (with_reducible assumption) | (exact Or.inl (by assumption)) | (exact Or.inr rfl)
                 | (exact Or.inr ⟨rfl, rfl, rfl, rfl⟩) | (intro)
                 | (extract_lets +onlyGivenNames y; refine keep_cut (y := y) ?_ ?_; (focus (dsimp only [y]; clear y)); rotate_left; (focus (clear_value y; revert y; intro _ _)))
                 | (extract_lets +onlyGivenNames y; refine keep_cut1 (y := y) ?_ ?_; (focus (dsimp only [y]; clear y)); rotate_left; (focus (clear_value y; revert y; intro _ _)))
                 | (extract_lets +onlyGivenNames y; refine keep_cut2 (y := y) ?_ ?_; (focus (dsimp only [y]; clear y)); rotate_left; (focus (clear_value y; revert y; intro _ _)))
                 | (extract_lets +onlyGivenNames y; clear_value y; revert y; intro _) | (with_reducible apply keep_sendOne)
                 | (with_reducible apply keep_addF) | (with_reducible apply keep_setOut)
                 | (with_reducible refine keep_ite ?_ ?_) | split | (dsimp only)
                 | (with_reducible refine keep_mk ?_ rfl rfl rfl rfl rfl rfl rfl rfl rfl ?_ ?_ ?_ ?_ ?_ ?_ ?_ ?_ ?_ ?_ ?_ ?_ ?_ ?_ ?_ ?_ ?_ ?_))

theorem keep_chainTokenDeliver {P : Area → Prop} {z : State} {s : State} {a_d : Nat} {a_m : Nat} (h : Keeps P z s)
    (kfabric : P .fabric := by assumption) (ktwins : P .twins := by assumption) :
    Keeps P z (chainTokenDeliver s a_d a_m) := by
  unfold chainTokenDeliver
  repeat' (first | (with_reducible assumption) | (exact Or.inl (by assumption)) | (exact Or.inr rfl)
                 | (exact Or.inr ⟨rfl, rfl, rfl, rfl⟩) | (intro)
                 | (extract_lets +onlyGivenNames y; refine keep_cut (y := y) ?_ ?_; (focus (dsimp only [y]; clear y)); rotate_left; (focus (clear_value y; revert y; intro _ _)))
                 | (extract_lets +onlyGivenNames y; refine keep_cut1 (y := y) ?_ ?_; (focus (dsimp only [y]; clear y)); rotate_left; (focus (clear_value y; revert y; intro _ _)))
                 | (extract_lets +onlyGivenNames y; refine keep_cut2 (y := y) ?_ ?_; (focus (dsimp only [y]; clear y)); rotate_left; (focus (clear_value y; revert y; intro _ _)))
                 | (extract_lets +onlyGivenNames y; clear_value y; revert y; intro _) | (with_reducible apply keep_modFab)
                 | (with_reducible apply keep_addF) | (with_reducible apply keep_arrive)
                 | (with_reducible refine keep_ite ?_ ?_) | split | (dsimp only)
                 | (with_reducible refine keep_mk ?_ rfl rfl rfl rfl rfl rfl rfl rfl rfl ?_ ?_ ?_ ?_ ?_ ?_ ?_ ?_ ?_ ?_ ?_ ?_ ?_ ?_ ?_ ?_ ?_ ?_))

theorem keep_execChainTokenDeliver {P : Area → Prop} {z : State} {a_d : Nat} {a_m : Nat} {s : State} (h : Keeps P z s)
    (kfabric : P .fabric := by assumption) (ktwins : P .twins := by assumption) :
    ∀ t, execChainTokenDeliver a_d a_m s = .next t → Keeps P z t := by
  unfold execChainTokenDeliver; intro t e; injection e with e; subst e
  repeat' (first | (with_reducible assumption) | (intro) | (with_reducible apply keep_chainTokenDeliver) | split | (dsimp only))

theorem keep_gateRelease {P : Area → Prop} {z : State} {s : State} {a_k : Nat} (h : Keeps P z s)
    (kfabric : P .fabric := by assumption) (ktwins : P .twins := by assumption) :
    Keeps P z (gateRelease s a_k) := by
  unfold gateRelease
  repeat' (first | (with_reducible assumption) | (exact Or.inl (by assumption)) | (exact Or.inr rfl)
                 | (exact Or.inr ⟨rfl, rfl, rfl, rfl⟩) | (intro)
                 | (extract_lets +onlyGivenNames y; refine keep_cut (y := y) ?_ ?_; (focus (dsimp only [y]; clear y)); rotate_left; (focus (clear_value y; revert y; intro _ _)))
                 | (extract_lets +onlyGivenNames y; refine keep_cut1 (y := y) ?_ ?_; (focus (dsimp only [y]; clear y)); rotate_left; (focus (clear_value y; revert y; intro _ _)))
                 | (extract_lets +onlyGivenNames y; refine keep_cut2 (y := y) ?_ ?_; (focus (dsimp only [y]; clear y)); rotate_left; (focus (clear_value y; revert y; intro _ _)))
                 | (extract_lets +onlyGivenNames y; clear_value y; revert y; intro _) | (with_reducible apply keep_enqueue)
                 | (with_reducible refine keep_ite ?_ ?_) | (with_reducible apply keep_foldl)
                 | (with_reducible apply keep_foldl1) | split | (dsimp only)
                 | (with_reducible refine keep_mk ?_ rfl rfl rfl rfl rfl rfl rfl rfl rfl ?_ ?_ ?_ ?_ ?_ ?_ ?_ ?_ ?_ ?_ ?_ ?_ ?_ ?_ ?_ ?_ ?_ ?_))

theorem keep_execTwinGateRelease {P : Area → Prop} {z : State} {a_k : Nat} {s : State} (h : Keeps P z s)
    (kfabric : P .fabric := by assumption) (ktwins : P .twins := by assumption) :
    ∀ t, execTwinGateRelease a_k s = .next t → Keeps P z t := by
  unfold execTwinGateRelease; intro t e; injection e with e; subst e
  repeat' (first | (with_reducible assumption) | (intro) | (with_reducible apply keep_gateRelease) | split | (dsimp only))

theorem keep_purgeTiles {P : Area → Prop} {z : State} {s : State} {a_p : Nat → Nat → Bool} {a_cancel : Bool}
    {a_orphan : Bool} {a_queues : Bool} (h : Keeps P z s) (kfabric : P .fabric := by assumption)
    (krings : P .rings := by assumption) :
    Keeps P z (purgeTiles s a_p a_cancel a_orphan a_queues) := by
  unfold purgeTiles
  repeat' (first | (with_reducible assumption) | (exact Or.inl (by assumption)) | (exact Or.inr rfl)
                 | (exact Or.inr ⟨rfl, rfl, rfl, rfl⟩) | (intro)
                 | (extract_lets +onlyGivenNames y; refine keep_cut (y := y) ?_ ?_; (focus (dsimp only [y]; clear y)); rotate_left; (focus (clear_value y; revert y; intro _ _)))
                 | (extract_lets +onlyGivenNames y; refine keep_cut1 (y := y) ?_ ?_; (focus (dsimp only [y]; clear y)); rotate_left; (focus (clear_value y; revert y; intro _ _)))
                 | (extract_lets +onlyGivenNames y; refine keep_cut2 (y := y) ?_ ?_; (focus (dsimp only [y]; clear y)); rotate_left; (focus (clear_value y; revert y; intro _ _)))
                 | (extract_lets +onlyGivenNames y; have q : (_ : _) → _ := y; clear q; dsimp only [y]; clear y)
                 | (extract_lets +onlyGivenNames y; clear_value y; revert y; intro _) | (with_reducible apply keep_setReady)
                 | (with_reducible apply keep_countOrphan) | (with_reducible apply keep_addF)
                 | (with_reducible apply keep_setStore) | (with_reducible apply keep_setQueue)
                 | (with_reducible apply keep_modFab) | (with_reducible refine keep_ite ?_ ?_)
                 | (with_reducible apply keep_foldl) | (with_reducible apply keep_foldl1) | split | (dsimp only)
                 | (with_reducible refine keep_mk ?_ rfl rfl rfl rfl rfl rfl rfl rfl rfl ?_ ?_ ?_ ?_ ?_ ?_ ?_ ?_ ?_ ?_ ?_ ?_ ?_ ?_ ?_ ?_ ?_ ?_))

theorem keep_purgeTravel {P : Area → Prop} {z : State} {s : State} {a_p : Nat → Nat → Bool} {a_queues : Bool}
    (h : Keeps P z s) (kfabric : P .fabric := by assumption) (kdests : P .dests := by assumption)
    (krings : P .rings := by assumption) (ktwins : P .twins := by assumption) :
    Keeps P z (purgeTravel s a_p a_queues) := by
  unfold purgeTravel
  repeat' (first | (with_reducible assumption) | (exact Or.inl (by assumption)) | (exact Or.inr rfl)
                 | (exact Or.inr ⟨rfl, rfl, rfl, rfl⟩) | (intro)
                 | (extract_lets +onlyGivenNames y; refine keep_cut (y := y) ?_ ?_; (focus (dsimp only [y]; clear y)); rotate_left; (focus (clear_value y; revert y; intro _ _)))
                 | (extract_lets +onlyGivenNames y; refine keep_cut1 (y := y) ?_ ?_; (focus (dsimp only [y]; clear y)); rotate_left; (focus (clear_value y; revert y; intro _ _)))
                 | (extract_lets +onlyGivenNames y; refine keep_cut2 (y := y) ?_ ?_; (focus (dsimp only [y]; clear y)); rotate_left; (focus (clear_value y; revert y; intro _ _)))
                 | (extract_lets +onlyGivenNames y; have q : (_ : _) → _ := y; clear q; dsimp only [y]; clear y)
                 | (extract_lets +onlyGivenNames y; clear_value y; revert y; intro _) | (with_reducible apply keep_setOut)
                 | (with_reducible apply keep_countOrphan) | (with_reducible apply keep_modFab)
                 | (with_reducible apply keep_freeUnits) | (with_reducible refine keep_ite ?_ ?_)
                 | (with_reducible apply keep_foldl) | (with_reducible apply keep_foldl1) | split | (dsimp only)
                 | (with_reducible refine keep_mk ?_ rfl rfl rfl rfl rfl rfl rfl rfl rfl ?_ ?_ ?_ ?_ ?_ ?_ ?_ ?_ ?_ ?_ ?_ ?_ ?_ ?_ ?_ ?_ ?_ ?_))

theorem keep_squash {P : Area → Prop} {z : State} {s : State} {a_n : Nat} {a_status : Nat} {a_reason : Nat}
    (h : Keeps P z s) (kfabric : P .fabric := by assumption) (kdests : P .dests := by assumption)
    (krings : P .rings := by assumption) (ktwins : P .twins := by assumption) :
    Keeps P z (squash s a_n a_status a_reason) := by
  unfold squash
  repeat' (first | (with_reducible assumption) | (exact Or.inl (by assumption)) | (exact Or.inr rfl)
                 | (exact Or.inr ⟨rfl, rfl, rfl, rfl⟩) | (intro)
                 | (extract_lets +onlyGivenNames y; refine keep_cut (y := y) ?_ ?_; (focus (dsimp only [y]; clear y)); rotate_left; (focus (clear_value y; revert y; intro _ _)))
                 | (extract_lets +onlyGivenNames y; refine keep_cut1 (y := y) ?_ ?_; (focus (dsimp only [y]; clear y)); rotate_left; (focus (clear_value y; revert y; intro _ _)))
                 | (extract_lets +onlyGivenNames y; refine keep_cut2 (y := y) ?_ ?_; (focus (dsimp only [y]; clear y)); rotate_left; (focus (clear_value y; revert y; intro _ _)))
                 | (extract_lets +onlyGivenNames y; have q : (_ : _) → _ := y; clear q; dsimp only [y]; clear y)
                 | (extract_lets +onlyGivenNames y; clear_value y; revert y; intro _) | (with_reducible apply keep_modInv)
                 | (with_reducible apply keep_purgeTravel) | (with_reducible apply keep_purgeTiles)
                 | (with_reducible refine keep_ite ?_ ?_) | split | (dsimp only)
                 | (with_reducible refine keep_mk ?_ rfl rfl rfl rfl rfl rfl rfl rfl rfl ?_ ?_ ?_ ?_ ?_ ?_ ?_ ?_ ?_ ?_ ?_ ?_ ?_ ?_ ?_ ?_ ?_ ?_))

theorem keep_endInv {P : Area → Prop} {z : State} {s : State} {a_i : Inv} {a_status : Nat} {a_reason : Nat}
    (h : Keeps P z s) (kfabric : P .fabric := by assumption) (kdests : P .dests := by assumption)
    (krings : P .rings := by assumption) :
    Keeps P z (endInv s a_i a_status a_reason) := by
  unfold endInv
  repeat' (first | (with_reducible assumption) | (exact Or.inl (by assumption)) | (exact Or.inr rfl)
                 | (exact Or.inr ⟨rfl, rfl, rfl, rfl⟩) | (intro)
                 | (extract_lets +onlyGivenNames y; refine keep_cut (y := y) ?_ ?_; (focus (dsimp only [y]; clear y)); rotate_left; (focus (clear_value y; revert y; intro _ _)))
                 | (extract_lets +onlyGivenNames y; refine keep_cut1 (y := y) ?_ ?_; (focus (dsimp only [y]; clear y)); rotate_left; (focus (clear_value y; revert y; intro _ _)))
                 | (extract_lets +onlyGivenNames y; refine keep_cut2 (y := y) ?_ ?_; (focus (dsimp only [y]; clear y)); rotate_left; (focus (clear_value y; revert y; intro _ _)))
                 | (extract_lets +onlyGivenNames y; clear_value y; revert y; intro _) | (with_reducible apply keep_modInv)
                 | (with_reducible apply keep_pushCompl) | (with_reducible apply keep_countEnd) | split | (dsimp only)
                 | (with_reducible refine keep_mk ?_ rfl rfl rfl rfl rfl rfl rfl rfl rfl ?_ ?_ ?_ ?_ ?_ ?_ ?_ ?_ ?_ ?_ ?_ ?_ ?_ ?_ ?_ ?_ ?_ ?_))

theorem keep_invocationEnd {P : Area → Prop} {z : State} {s : State} {a_n : Nat} (h : Keeps P z s)
    (kfabric : P .fabric := by assumption) (kdests : P .dests := by assumption) (krings : P .rings := by assumption) :
    Keeps P z (invocationEnd s a_n) := by
  unfold invocationEnd
  repeat' (first | (with_reducible assumption) | (exact Or.inl (by assumption)) | (exact Or.inr rfl)
                 | (exact Or.inr ⟨rfl, rfl, rfl, rfl⟩) | (intro)
                 | (extract_lets +onlyGivenNames y; refine keep_cut (y := y) ?_ ?_; (focus (dsimp only [y]; clear y)); rotate_left; (focus (clear_value y; revert y; intro _ _)))
                 | (extract_lets +onlyGivenNames y; refine keep_cut1 (y := y) ?_ ?_; (focus (dsimp only [y]; clear y)); rotate_left; (focus (clear_value y; revert y; intro _ _)))
                 | (extract_lets +onlyGivenNames y; refine keep_cut2 (y := y) ?_ ?_; (focus (dsimp only [y]; clear y)); rotate_left; (focus (clear_value y; revert y; intro _ _)))
                 | (extract_lets +onlyGivenNames y; clear_value y; revert y; intro _) | (with_reducible apply keep_purgeTiles)
                 | (with_reducible apply keep_endInv) | (with_reducible refine keep_ite ?_ ?_) | split | (dsimp only)
                 | (with_reducible refine keep_mk ?_ rfl rfl rfl rfl rfl rfl rfl rfl rfl ?_ ?_ ?_ ?_ ?_ ?_ ?_ ?_ ?_ ?_ ?_ ?_ ?_ ?_ ?_ ?_ ?_ ?_))

theorem keep_execInvocationEnd {P : Area → Prop} {z : State} {a_n : Nat} {s : State} (h : Keeps P z s)
    (kfabric : P .fabric := by assumption) (kdests : P .dests := by assumption) (krings : P .rings := by assumption) :
    ∀ t, execInvocationEnd a_n s = .next t → Keeps P z t := by
  unfold execInvocationEnd; intro t e; injection e with e; subst e
  repeat' (first | (with_reducible assumption) | (intro) | (with_reducible apply keep_invocationEnd) | split | (dsimp only))

theorem keep_streamEnd {P : Area → Prop} {z : State} {s : State} {a_trav : Nat} {a_src : Nat} (h : Keeps P z s)
    (kfabric : P .fabric := by assumption) (krings : P .rings := by assumption) :
    Keeps P z (streamEnd s a_trav a_src) := by
  unfold streamEnd
  repeat' (first | (with_reducible assumption) | (exact Or.inl (by assumption)) | (exact Or.inr rfl)
                 | (exact Or.inr ⟨rfl, rfl, rfl, rfl⟩) | (intro)
                 | (extract_lets +onlyGivenNames y; refine keep_cut (y := y) ?_ ?_; (focus (dsimp only [y]; clear y)); rotate_left; (focus (clear_value y; revert y; intro _ _)))
                 | (extract_lets +onlyGivenNames y; refine keep_cut1 (y := y) ?_ ?_; (focus (dsimp only [y]; clear y)); rotate_left; (focus (clear_value y; revert y; intro _ _)))
                 | (extract_lets +onlyGivenNames y; refine keep_cut2 (y := y) ?_ ?_; (focus (dsimp only [y]; clear y)); rotate_left; (focus (clear_value y; revert y; intro _ _)))
                 | (extract_lets +onlyGivenNames y; clear_value y; revert y; intro _) | (with_reducible apply keep_purgeTiles)
                 | (with_reducible apply keep_modFab) | (with_reducible refine keep_ite ?_ ?_) | split | (dsimp only)
                 | (with_reducible refine keep_mk ?_ rfl rfl rfl rfl rfl rfl rfl rfl rfl ?_ ?_ ?_ ?_ ?_ ?_ ?_ ?_ ?_ ?_ ?_ ?_ ?_ ?_ ?_ ?_ ?_ ?_))

theorem keep_execStreamEnd {P : Area → Prop} {z : State} {a_trav : Nat} {a_src : Nat} {s : State} (h : Keeps P z s)
    (kfabric : P .fabric := by assumption) (krings : P .rings := by assumption) :
    ∀ t, execStreamEnd a_trav a_src s = .next t → Keeps P z t := by
  unfold execStreamEnd; intro t e; injection e with e; subst e
  repeat' (first | (with_reducible assumption) | (intro) | (with_reducible apply keep_streamEnd) | split | (dsimp only))

end Sys2Proof.Machine
end

