-- ==== Sys2Proof/Laws/KeepRequests.lean ====
section
/-! SUPPORT. What the operations of Machine/Requests.lean keep (Laws/Keep.lean), one lemma per operation. -/

set_option linter.tactic.unusedName false
set_option linter.all false
set_option Elab.async false

namespace Sys2Proof.Machine

theorem keep_freeOut {P : Area → Prop} {z : State} {s : State} {a_g : Nat} {a_i : Nat} (h : Keeps P z s)
    (kfabric : P .fabric := by assumption) :
    Keeps P z (freeOut s a_g a_i) := by
  unfold freeOut
  repeat' (first | (with_reducible assumption) | (intro) | (with_reducible apply keep_setOut) | split | (dsimp only))

theorem keep_deliverReply {P : Area → Prop} {z : State} {s : State} {a_g : Nat} {a_id : Nat} (h : Keeps P z s)
    (kfabric : P .fabric := by assumption) (krings : P .rings := by assumption) (ktwins : P .twins := by assumption)
    (klog : P .log := by assumption) :
    Keeps P z (deliverReply s a_g a_id) := by
  unfold deliverReply
  repeat' (first | (with_reducible assumption) | (exact fun _ h => h) | (exact Or.inl (by assumption)) | (exact Or.inr rfl)
                 | (exact Or.inr ⟨rfl, rfl, rfl, rfl⟩) | (intro)
                 | (extract_lets +onlyGivenNames y; refine keep_cut (y := y) ?_ ?_; (focus (dsimp only [y]; clear y)); rotate_left; (focus (clear_value y; revert y; intro _ _)))
                 | (extract_lets +onlyGivenNames y; refine keep_cut1 (y := y) ?_ ?_; (focus (dsimp only [y]; clear y)); rotate_left; (focus (clear_value y; revert y; intro _ _)))
                 | (extract_lets +onlyGivenNames y; refine keep_cut2 (y := y) ?_ ?_; (focus (dsimp only [y]; clear y)); rotate_left; (focus (clear_value y; revert y; intro _ _)))
                 | (extract_lets +onlyGivenNames y; clear_value y; revert y; intro _) | (with_reducible apply keep_freeOut)
                 | (with_reducible apply keep_countOrphan) | (with_reducible apply keep_raise)
                 | (with_reducible apply keep_satF) | (with_reducible apply keep_enqueue) | (with_reducible apply keep_arrive)
                 | (with_reducible apply keep_chainSend) | (with_reducible refine keep_ite ?_ ?_) | split | (dsimp only)
                 | (with_reducible refine keep_mk ?_ rfl rfl rfl rfl rfl rfl rfl rfl rfl ?_ ?_ ?_ ?_ ?_ ?_ ?_ ?_ ?_ ?_ ?_ ?_ ?_ ?_ ?_ ?_ ?_ ?_))

theorem keep_deliverReplies {P : Area → Prop} {z : State} {s : State} {a_g : Nat} (h : Keeps P z s)
    (kfabric : P .fabric := by assumption) (krings : P .rings := by assumption) (ktwins : P .twins := by assumption)
    (klog : P .log := by assumption) :
    Keeps P z (deliverReplies s a_g) := by
  unfold deliverReplies
  repeat' (first | (with_reducible assumption) | (exact fun _ h => h) | (intro) | (with_reducible apply keep_deliverReply)
                 | (with_reducible apply keep_foldl) | (with_reducible apply keep_foldl1) | split | (dsimp only))

theorem keep_answerReq {P : Area → Prop} {z : State} {s : State} {a_r : MemReq} {a_lanes : Lanes} {a_bad : Bool}
    (h : Keeps P z s) (kfabric : P .fabric := by assumption) (krings : P .rings := by assumption)
    (ktwins : P .twins := by assumption) (klog : P .log := by assumption) :
    Keeps P z (answerReq s a_r a_lanes a_bad) := by
  unfold answerReq
  repeat' (first | (with_reducible assumption) | (exact fun _ h => h) | (exact Or.inl (by assumption)) | (exact Or.inr rfl)
                 | (exact Or.inr ⟨rfl, rfl, rfl, rfl⟩) | (intro)
                 | (extract_lets +onlyGivenNames y; refine keep_cut (y := y) ?_ ?_; (focus (dsimp only [y]; clear y)); rotate_left; (focus (clear_value y; revert y; intro _ _)))
                 | (extract_lets +onlyGivenNames y; refine keep_cut1 (y := y) ?_ ?_; (focus (dsimp only [y]; clear y)); rotate_left; (focus (clear_value y; revert y; intro _ _)))
                 | (extract_lets +onlyGivenNames y; refine keep_cut2 (y := y) ?_ ?_; (focus (dsimp only [y]; clear y)); rotate_left; (focus (clear_value y; revert y; intro _ _)))
                 | (extract_lets +onlyGivenNames y; clear_value y; revert y; intro _) | (with_reducible apply keep_setOut)
                 | (with_reducible apply keep_deliverReplies) | (with_reducible refine keep_ite ?_ ?_) | split | (dsimp only)
                 | (with_reducible refine keep_mk ?_ rfl rfl rfl rfl rfl rfl rfl rfl rfl ?_ ?_ ?_ ?_ ?_ ?_ ?_ ?_ ?_ ?_ ?_ ?_ ?_ ?_ ?_ ?_ ?_ ?_))

theorem keep_failReq {P : Area → Prop} {z : State} {s : State} {a_r : MemReq} {a_status : Nat} {a_reason : Nat}
    (h : Keeps P z s) (kfabric : P .fabric := by assumption) (krings : P .rings := by assumption)
    (ktwins : P .twins := by assumption) (klog : P .log := by assumption) :
    Keeps P z (failReq s a_r a_status a_reason) := by
  unfold failReq
  repeat' (first | (with_reducible assumption) | (intro) | (with_reducible apply keep_markFail)
                 | (with_reducible refine keep_ite ?_ ?_) | split | (dsimp only))

theorem keep_answerFrozen {P : Area → Prop} {z : State} {s : State} {a_r : MemReq} (h : Keeps P z s)
    (kfabric : P .fabric := by assumption) (krings : P .rings := by assumption) (ktwins : P .twins := by assumption)
    (klog : P .log := by assumption) :
    Keeps P z (answerFrozen s a_r) := by
  unfold answerFrozen
  repeat' (first | (with_reducible assumption) | (intro) | (with_reducible apply keep_answerReq)
                 | (with_reducible apply keep_failReq) | (with_reducible refine keep_ite ?_ ?_) | split | (dsimp only))

theorem keep_answerFenced {P : Area → Prop} {z : State} {s : State} {a_r : MemReq} (h : Keeps P z s)
    (kfabric : P .fabric := by assumption) (krings : P .rings := by assumption) (ktwins : P .twins := by assumption)
    (klog : P .log := by assumption) :
    Keeps P z (answerFenced s a_r) := by
  unfold answerFenced
  repeat' (first | (with_reducible assumption) | (intro) | (with_reducible apply keep_answerReq)
                 | (with_reducible apply keep_failReq) | (with_reducible refine keep_ite ?_ ?_) | split | (dsimp only))

theorem keep_modCh {P : Area → Prop} {z : State} {s : State} {a_k : Nat} {a_f : SrmCh → SrmCh} (h : Keeps P z s)
    (ksramUnits : P .sramUnits := by assumption) :
    Keeps P z (modCh s a_k a_f) := by
  unfold modCh
  repeat' (first | (with_reducible assumption) | (exact Or.inl (by assumption)) | (exact Or.inr rfl)
                 | (exact Or.inr ⟨rfl, rfl, rfl, rfl⟩) | (intro)
                 | (extract_lets +onlyGivenNames y; refine keep_cut (y := y) ?_ ?_; (focus (dsimp only [y]; clear y)); rotate_left; (focus (clear_value y; revert y; intro _ _)))
                 | (extract_lets +onlyGivenNames y; refine keep_cut1 (y := y) ?_ ?_; (focus (dsimp only [y]; clear y)); rotate_left; (focus (clear_value y; revert y; intro _ _)))
                 | (extract_lets +onlyGivenNames y; refine keep_cut2 (y := y) ?_ ?_; (focus (dsimp only [y]; clear y)); rotate_left; (focus (clear_value y; revert y; intro _ _)))
                 | (extract_lets +onlyGivenNames y; have q : Srm := y; clear q; dsimp only [y]; clear y)
                 | (extract_lets +onlyGivenNames y; clear_value y; revert y; intro _) | split | (dsimp only)
                 | (with_reducible refine keep_mk ?_ rfl rfl rfl rfl rfl rfl rfl rfl rfl ?_ ?_ ?_ ?_ ?_ ?_ ?_ ?_ ?_ ?_ ?_ ?_ ?_ ?_ ?_ ?_ ?_ ?_))

theorem keep_setChQueue {P : Area → Prop} {z : State} {s : State} {a_k : Nat} {a_q : List MemReq} (h : Keeps P z s)
    (ksramUnits : P .sramUnits := by assumption) :
    Keeps P z (setChQueue s a_k a_q) := by
  unfold setChQueue
  repeat' (first | (with_reducible assumption) | (exact Or.inl (by assumption)) | (exact Or.inr rfl)
                 | (exact Or.inr ⟨rfl, rfl, rfl, rfl⟩) | (intro)
                 | (extract_lets +onlyGivenNames y; refine keep_cut (y := y) ?_ ?_; (focus (dsimp only [y]; clear y)); rotate_left; (focus (clear_value y; revert y; intro _ _)))
                 | (extract_lets +onlyGivenNames y; refine keep_cut1 (y := y) ?_ ?_; (focus (dsimp only [y]; clear y)); rotate_left; (focus (clear_value y; revert y; intro _ _)))
                 | (extract_lets +onlyGivenNames y; refine keep_cut2 (y := y) ?_ ?_; (focus (dsimp only [y]; clear y)); rotate_left; (focus (clear_value y; revert y; intro _ _)))
                 | (extract_lets +onlyGivenNames y; clear_value y; revert y; intro _) | (with_reducible apply keep_setF)
                 | (with_reducible apply keep_modCh) | split | (dsimp only)
                 | (with_reducible refine keep_mk ?_ rfl rfl rfl rfl rfl rfl rfl rfl rfl ?_ ?_ ?_ ?_ ?_ ?_ ?_ ?_ ?_ ?_ ?_ ?_ ?_ ?_ ?_ ?_ ?_ ?_))

theorem keep_modSpc {P : Area → Prop} {z : State} {s : State} {a_d : Nat} {a_f : Spc → Spc} (h : Keeps P z s)
    (khbmUnits : P .hbmUnits := by assumption) :
    Keeps P z (modSpc s a_d a_f) := by
  unfold modSpc
  repeat' (first | (with_reducible assumption) | (exact Or.inl (by assumption)) | (exact Or.inr rfl)
                 | (exact Or.inr ⟨rfl, rfl, rfl, rfl⟩) | (intro)
                 | (extract_lets +onlyGivenNames y; refine keep_cut (y := y) ?_ ?_; (focus (dsimp only [y]; clear y)); rotate_left; (focus (clear_value y; revert y; intro _ _)))
                 | (extract_lets +onlyGivenNames y; refine keep_cut1 (y := y) ?_ ?_; (focus (dsimp only [y]; clear y)); rotate_left; (focus (clear_value y; revert y; intro _ _)))
                 | (extract_lets +onlyGivenNames y; refine keep_cut2 (y := y) ?_ ?_; (focus (dsimp only [y]; clear y)); rotate_left; (focus (clear_value y; revert y; intro _ _)))
                 | (extract_lets +onlyGivenNames y; have q : Hbm := y; clear q; dsimp only [y]; clear y)
                 | (extract_lets +onlyGivenNames y; clear_value y; revert y; intro _) | split | (dsimp only)
                 | (with_reducible refine keep_mk ?_ rfl rfl rfl rfl rfl rfl rfl rfl rfl ?_ ?_ ?_ ?_ ?_ ?_ ?_ ?_ ?_ ?_ ?_ ?_ ?_ ?_ ?_ ?_ ?_ ?_))

theorem keep_enterChannel {P : Area → Prop} {z : State} {s : State} {a_k : Nat} {a_r : MemReq} (h : Keeps P z s)
    (ksramUnits : P .sramUnits := by assumption) :
    Keeps P z (enterChannel s a_k a_r) := by
  unfold enterChannel
  repeat' (first | (with_reducible assumption) | (exact Or.inl (by assumption)) | (exact Or.inr rfl)
                 | (exact Or.inr ⟨rfl, rfl, rfl, rfl⟩) | (intro)
                 | (extract_lets +onlyGivenNames y; refine keep_cut (y := y) ?_ ?_; (focus (dsimp only [y]; clear y)); rotate_left; (focus (clear_value y; revert y; intro _ _)))
                 | (extract_lets +onlyGivenNames y; refine keep_cut1 (y := y) ?_ ?_; (focus (dsimp only [y]; clear y)); rotate_left; (focus (clear_value y; revert y; intro _ _)))
                 | (extract_lets +onlyGivenNames y; refine keep_cut2 (y := y) ?_ ?_; (focus (dsimp only [y]; clear y)); rotate_left; (focus (clear_value y; revert y; intro _ _)))
                 | (extract_lets +onlyGivenNames y; clear_value y; revert y; intro _) | (with_reducible apply keep_maxF)
                 | (with_reducible apply keep_setChQueue) | split | (dsimp only)
                 | (with_reducible refine keep_mk ?_ rfl rfl rfl rfl rfl rfl rfl rfl rfl ?_ ?_ ?_ ?_ ?_ ?_ ?_ ?_ ?_ ?_ ?_ ?_ ?_ ?_ ?_ ?_ ?_ ?_))

theorem keep_reachTarget {P : Area → Prop} {z : State} {s : State} {a_r : MemReq} (h : Keeps P z s)
    (kfabric : P .fabric := by assumption) (krings : P .rings := by assumption)
    (ksramUnits : P .sramUnits := by assumption) (khbmUnits : P .hbmUnits := by assumption)
    (ktwins : P .twins := by assumption) (klog : P .log := by assumption) :
    Keeps P z (reachTarget s a_r) := by
  unfold reachTarget
  repeat' (first | (with_reducible assumption) | (exact Or.inl (by assumption)) | (exact Or.inr rfl)
                 | (exact Or.inr ⟨rfl, rfl, rfl, rfl⟩) | (intro)
                 | (extract_lets +onlyGivenNames y; refine keep_cut (y := y) ?_ ?_; (focus (dsimp only [y]; clear y)); rotate_left; (focus (clear_value y; revert y; intro _ _)))
                 | (extract_lets +onlyGivenNames y; refine keep_cut1 (y := y) ?_ ?_; (focus (dsimp only [y]; clear y)); rotate_left; (focus (clear_value y; revert y; intro _ _)))
                 | (extract_lets +onlyGivenNames y; refine keep_cut2 (y := y) ?_ ?_; (focus (dsimp only [y]; clear y)); rotate_left; (focus (clear_value y; revert y; intro _ _)))
                 | (extract_lets +onlyGivenNames y; clear_value y; revert y; intro _) | (with_reducible apply keep_enterChannel)
                 | (with_reducible apply keep_answerFenced) | (with_reducible apply keep_answerFrozen)
                 | (with_reducible apply keep_answerReq) | (with_reducible apply keep_undeliverable)
                 | (with_reducible apply keep_modSpc) | (with_reducible refine keep_ite ?_ ?_) | split | (dsimp only)
                 | (with_reducible refine keep_mk ?_ rfl rfl rfl rfl rfl rfl rfl rfl rfl ?_ ?_ ?_ ?_ ?_ ?_ ?_ ?_ ?_ ?_ ?_ ?_ ?_ ?_ ?_ ?_ ?_ ?_))

theorem keep_leave {P : Area → Prop} {z : State} {s : State} {a_g : Nat} {a_i : Nat} (h : Keeps P z s)
    (kfabric : P .fabric := by assumption) (krings : P .rings := by assumption)
    (ksramUnits : P .sramUnits := by assumption) (khbmUnits : P .hbmUnits := by assumption)
    (ktwins : P .twins := by assumption) (klog : P .log := by assumption) :
    Keeps P z (leave s a_g a_i) := by
  unfold leave
  repeat' (first | (with_reducible assumption) | (exact Or.inl (by assumption)) | (exact Or.inr rfl)
                 | (exact Or.inr ⟨rfl, rfl, rfl, rfl⟩) | (intro)
                 | (extract_lets +onlyGivenNames y; refine keep_cut (y := y) ?_ ?_; (focus (dsimp only [y]; clear y)); rotate_left; (focus (clear_value y; revert y; intro _ _)))
                 | (extract_lets +onlyGivenNames y; refine keep_cut1 (y := y) ?_ ?_; (focus (dsimp only [y]; clear y)); rotate_left; (focus (clear_value y; revert y; intro _ _)))
                 | (extract_lets +onlyGivenNames y; refine keep_cut2 (y := y) ?_ ?_; (focus (dsimp only [y]; clear y)); rotate_left; (focus (clear_value y; revert y; intro _ _)))
                 | (extract_lets +onlyGivenNames y; clear_value y; revert y; intro _) | (with_reducible apply keep_reachTarget)
                 | (with_reducible apply keep_setOut) | (with_reducible refine keep_ite ?_ ?_) | split | (dsimp only)
                 | (with_reducible refine keep_mk ?_ rfl rfl rfl rfl rfl rfl rfl rfl rfl ?_ ?_ ?_ ?_ ?_ ?_ ?_ ?_ ?_ ?_ ?_ ?_ ?_ ?_ ?_ ?_ ?_ ?_))

theorem keep_memRange {P : Area → Prop} {z : State} {s : State} {a_g : Nat} {a_k : Token} (h : Keeps P z s)
    (kfabric : P .fabric := by assumption) (krings : P .rings := by assumption) (ktwins : P .twins := by assumption)
    (klog : P .log := by assumption) :
    Keeps P z (memRange s a_g a_k) := by
  unfold memRange
  repeat' (first | (with_reducible assumption) | (intro)
                 | (extract_lets +onlyGivenNames y; refine keep_cut (y := y) ?_ ?_; (focus (dsimp only [y]; clear y)); rotate_left; (focus (clear_value y; revert y; intro _ _)))
                 | (extract_lets +onlyGivenNames y; refine keep_cut1 (y := y) ?_ ?_; (focus (dsimp only [y]; clear y)); rotate_left; (focus (clear_value y; revert y; intro _ _)))
                 | (extract_lets +onlyGivenNames y; refine keep_cut2 (y := y) ?_ ?_; (focus (dsimp only [y]; clear y)); rotate_left; (focus (clear_value y; revert y; intro _ _)))
                 | (extract_lets +onlyGivenNames y; clear_value y; revert y; intro _) | (with_reducible apply keep_satF)
                 | (with_reducible apply keep_markFail) | (with_reducible apply keep_raise) | split | (dsimp only))

theorem keep_tableFull {P : Area → Prop} {z : State} {s : State} {a_g : Nat} {a_k : Token} (h : Keeps P z s)
    (kfabric : P .fabric := by assumption) (krings : P .rings := by assumption) (ktwins : P .twins := by assumption)
    (klog : P .log := by assumption) :
    Keeps P z (tableFull s a_g a_k) := by
  unfold tableFull
  repeat' (first | (with_reducible assumption) | (intro)
                 | (extract_lets +onlyGivenNames y; refine keep_cut (y := y) ?_ ?_; (focus (dsimp only [y]; clear y)); rotate_left; (focus (clear_value y; revert y; intro _ _)))
                 | (extract_lets +onlyGivenNames y; refine keep_cut1 (y := y) ?_ ?_; (focus (dsimp only [y]; clear y)); rotate_left; (focus (clear_value y; revert y; intro _ _)))
                 | (extract_lets +onlyGivenNames y; refine keep_cut2 (y := y) ?_ ?_; (focus (dsimp only [y]; clear y)); rotate_left; (focus (clear_value y; revert y; intro _ _)))
                 | (extract_lets +onlyGivenNames y; clear_value y; revert y; intro _) | (with_reducible apply keep_satF)
                 | (with_reducible apply keep_markFail) | (with_reducible apply keep_raise) | split | (dsimp only))

theorem keep_makeReq {P : Area → Prop} {z : State} {s : State} {a_g : Nat} {a_p : Pass} {a_w : Nat} {a_kind : ReqKind}
    (h : Keeps P z s) (kfabric : P .fabric := by assumption) (krings : P .rings := by assumption)
    (ktwins : P .twins := by assumption) (klog : P .log := by assumption) :
    Keeps P z (makeReq s a_g a_p a_w a_kind).1 := by
  unfold makeReq
  repeat' (first | (with_reducible assumption) | (exact Or.inl (by assumption)) | (exact Or.inr rfl)
                 | (exact Or.inr ⟨rfl, rfl, rfl, rfl⟩) | (intro)
                 | (extract_lets +onlyGivenNames y; refine keep_cut (y := y) ?_ ?_; (focus (dsimp only [y]; clear y)); rotate_left; (focus (clear_value y; revert y; intro _ _)))
                 | (extract_lets +onlyGivenNames y; refine keep_cut1 (y := y) ?_ ?_; (focus (dsimp only [y]; clear y)); rotate_left; (focus (clear_value y; revert y; intro _ _)))
                 | (extract_lets +onlyGivenNames y; refine keep_cut2 (y := y) ?_ ?_; (focus (dsimp only [y]; clear y)); rotate_left; (focus (clear_value y; revert y; intro _ _)))
                 | (extract_lets +onlyGivenNames y; clear_value y; revert y; intro _) | (with_reducible apply keep_modFab)
                 | (with_reducible apply keep_memRange) | (with_reducible apply keep_tableFull)
                 | (with_reducible refine keep_ite ?_ ?_) | split | (dsimp only)
                 | (with_reducible refine keep_mk ?_ rfl rfl rfl rfl rfl rfl rfl rfl rfl ?_ ?_ ?_ ?_ ?_ ?_ ?_ ?_ ?_ ?_ ?_ ?_ ?_ ?_ ?_ ?_ ?_ ?_))

theorem keep_issueReq {P : Area → Prop} {z : State} {s : State} {a_g : Nat} {a_p : Pass} {a_w : Nat} {a_kind : ReqKind}
    (h : Keeps P z s) (kfabric : P .fabric := by assumption) (krings : P .rings := by assumption)
    (ksramUnits : P .sramUnits := by assumption) (khbmUnits : P .hbmUnits := by assumption)
    (ktwins : P .twins := by assumption) (klog : P .log := by assumption) :
    Keeps P z (issueReq s a_g a_p a_w a_kind) := by
  unfold issueReq
  repeat' (first | (with_reducible assumption) | (intro)
                 | (extract_lets +onlyGivenNames y; refine keep_cut (y := y) ?_ ?_; (focus (dsimp only [y]; clear y)); rotate_left; (focus (clear_value y; revert y; intro _ _)))
                 | (extract_lets +onlyGivenNames y; refine keep_cut1 (y := y) ?_ ?_; (focus (dsimp only [y]; clear y)); rotate_left; (focus (clear_value y; revert y; intro _ _)))
                 | (extract_lets +onlyGivenNames y; refine keep_cut2 (y := y) ?_ ?_; (focus (dsimp only [y]; clear y)); rotate_left; (focus (clear_value y; revert y; intro _ _)))
                 | (extract_lets +onlyGivenNames y; clear_value y; revert y; intro _) | (with_reducible apply keep_makeReq)
                 | (with_reducible apply keep_pushOut) | (with_reducible apply keep_leave) | split | (dsimp only))

theorem keep_execSrq {P : Area → Prop} {z : State} {a_g : Nat} {s : State} (h : Keeps P z s)
    (kfabric : P .fabric := by assumption) (krings : P .rings := by assumption)
    (ksramUnits : P .sramUnits := by assumption) (khbmUnits : P .hbmUnits := by assumption)
    (ktwins : P .twins := by assumption) (klog : P .log := by assumption) :
    ∀ t, execSrq a_g s = .next t → Keeps P z t := by
  unfold execSrq; intro t e; injection e with e; subst e
  repeat' (first | (with_reducible assumption) | (intro) | (with_reducible apply keep_runInstr)
                 | (with_reducible apply keep_issueReq) | split | (dsimp only))

theorem keep_execHrq {P : Area → Prop} {z : State} {a_g : Nat} {s : State} (h : Keeps P z s)
    (kfabric : P .fabric := by assumption) (krings : P .rings := by assumption)
    (ksramUnits : P .sramUnits := by assumption) (khbmUnits : P .hbmUnits := by assumption)
    (ktwins : P .twins := by assumption) (klog : P .log := by assumption) :
    ∀ t, execHrq a_g s = .next t → Keeps P z t := by
  unfold execHrq; intro t e; injection e with e; subst e
  repeat' (first | (with_reducible assumption) | (intro) | (with_reducible apply keep_runInstr)
                 | (with_reducible apply keep_issueReq) | (with_reducible refine keep_ite ?_ ?_) | split | (dsimp only))

theorem keep_routeCopySend {P : Area → Prop} {z : State} {s : State} {a_src : Nat} {a_i : Nat} {a_j : Nat}
    (h : Keeps P z s) (kfabric : P .fabric := by assumption) (kdests : P .dests := by assumption)
    (krings : P .rings := by assumption) (ksramUnits : P .sramUnits := by assumption)
    (khbmUnits : P .hbmUnits := by assumption) (ktwins : P .twins := by assumption) (klog : P .log := by assumption) :
    Keeps P z (routeCopySend s a_src a_i a_j) := by
  unfold routeCopySend
  repeat' (first | (with_reducible assumption) | (exact fun _ h => h) | (exact Or.inl (by assumption)) | (exact Or.inr rfl)
                 | (exact Or.inr ⟨rfl, rfl, rfl, rfl⟩) | (intro)
                 | (extract_lets +onlyGivenNames y; refine keep_cut (y := y) ?_ ?_; (focus (dsimp only [y]; clear y)); rotate_left; (focus (clear_value y; revert y; intro _ _)))
                 | (extract_lets +onlyGivenNames y; refine keep_cut1 (y := y) ?_ ?_; (focus (dsimp only [y]; clear y)); rotate_left; (focus (clear_value y; revert y; intro _ _)))
                 | (extract_lets +onlyGivenNames y; refine keep_cut2 (y := y) ?_ ?_; (focus (dsimp only [y]; clear y)); rotate_left; (focus (clear_value y; revert y; intro _ _)))
                 | (extract_lets +onlyGivenNames y; clear_value y; revert y; intro _) | (with_reducible apply keep_sendCopy)
                 | (with_reducible apply keep_leave) | (with_reducible apply keep_deliverReply) | split | (dsimp only)
                 | (with_reducible refine keep_mk ?_ rfl rfl rfl rfl rfl rfl rfl rfl rfl ?_ ?_ ?_ ?_ ?_ ?_ ?_ ?_ ?_ ?_ ?_ ?_ ?_ ?_ ?_ ?_ ?_ ?_))

theorem keep_execRouteCopySend {P : Area → Prop} {z : State} {a_src : Nat} {a_i : Nat} {a_j : Nat} {s : State}
    (h : Keeps P z s) (kfabric : P .fabric := by assumption) (kdests : P .dests := by assumption)
    (krings : P .rings := by assumption) (ksramUnits : P .sramUnits := by assumption)
    (khbmUnits : P .hbmUnits := by assumption) (ktwins : P .twins := by assumption) (klog : P .log := by assumption) :
    ∀ t, execRouteCopySend a_src a_i a_j s = .next t → Keeps P z t := by
  unfold execRouteCopySend; intro t e; injection e with e; subst e
  repeat' (first | (with_reducible assumption) | (intro) | (with_reducible apply keep_routeCopySend) | split | (dsimp only))

theorem keep_nullReplyDeliver {P : Area → Prop} {z : State} {s : State} {a_g : Nat} {a_i : Nat} (h : Keeps P z s)
    (kfabric : P .fabric := by assumption) (krings : P .rings := by assumption) (ktwins : P .twins := by assumption)
    (klog : P .log := by assumption) :
    Keeps P z (nullReplyDeliver s a_g a_i) := by
  unfold nullReplyDeliver
  repeat' (first | (with_reducible assumption) | (exact Or.inl (by assumption)) | (exact Or.inr rfl)
                 | (exact Or.inr ⟨rfl, rfl, rfl, rfl⟩) | (intro)
                 | (extract_lets +onlyGivenNames y; refine keep_cut (y := y) ?_ ?_; (focus (dsimp only [y]; clear y)); rotate_left; (focus (clear_value y; revert y; intro _ _)))
                 | (extract_lets +onlyGivenNames y; refine keep_cut1 (y := y) ?_ ?_; (focus (dsimp only [y]; clear y)); rotate_left; (focus (clear_value y; revert y; intro _ _)))
                 | (extract_lets +onlyGivenNames y; refine keep_cut2 (y := y) ?_ ?_; (focus (dsimp only [y]; clear y)); rotate_left; (focus (clear_value y; revert y; intro _ _)))
                 | (extract_lets +onlyGivenNames y; clear_value y; revert y; intro _) | (with_reducible apply keep_answerReq)
                 | (with_reducible refine keep_ite ?_ ?_) | split | (dsimp only)
                 | (with_reducible refine keep_mk ?_ rfl rfl rfl rfl rfl rfl rfl rfl rfl ?_ ?_ ?_ ?_ ?_ ?_ ?_ ?_ ?_ ?_ ?_ ?_ ?_ ?_ ?_ ?_ ?_ ?_))

theorem keep_execNullReplyDeliver {P : Area → Prop} {z : State} {a_g : Nat} {a_i : Nat} {s : State} (h : Keeps P z s)
    (kfabric : P .fabric := by assumption) (krings : P .rings := by assumption) (ktwins : P .twins := by assumption)
    (klog : P .log := by assumption) :
    ∀ t, execNullReplyDeliver a_g a_i s = .next t → Keeps P z t := by
  unfold execNullReplyDeliver; intro t e; injection e with e; subst e
  repeat' (first | (with_reducible assumption) | (intro) | (with_reducible apply keep_nullReplyDeliver) | split | (dsimp only))

end Sys2Proof.Machine
end

