-- ==== Sys2Proof/Laws/KeepSram.lean ====
section
/-! SUPPORT. What the operations of Machine/Sram.lean keep (Laws/Keep.lean), one lemma per operation. -/

set_option linter.tactic.unusedName false
set_option linter.all false
set_option Elab.async false

namespace Sys2Proof.Machine

theorem keep_clearErr {P : Area → Prop} {z : State} {s : State} {a_p : Nat → Bool} (h : Keeps P z s)
    (ksramUnits : P .sramUnits := by assumption) :
    Keeps P z (clearErr s a_p) := by
  unfold clearErr
  repeat' (first | (with_reducible assumption) | (exact Or.inl (by assumption)) | (exact Or.inr rfl)
                 | (exact Or.inr ⟨rfl, rfl, rfl, rfl⟩) | (intro)
                 | (extract_lets +onlyGivenNames y; refine keep_cut (y := y) ?_ ?_; (focus (dsimp only [y]; clear y)); rotate_left; (focus (clear_value y; revert y; intro _ _)))
                 | (extract_lets +onlyGivenNames y; refine keep_cut1 (y := y) ?_ ?_; (focus (dsimp only [y]; clear y)); rotate_left; (focus (clear_value y; revert y; intro _ _)))
                 | (extract_lets +onlyGivenNames y; refine keep_cut2 (y := y) ?_ ?_; (focus (dsimp only [y]; clear y)); rotate_left; (focus (clear_value y; revert y; intro _ _)))
                 | (extract_lets +onlyGivenNames y; have q : Srm := y; clear q; dsimp only [y]; clear y)
                 | (extract_lets +onlyGivenNames y; clear_value y; revert y; intro _) | split | (dsimp only)
                 | (with_reducible refine keep_mk ?_ rfl rfl rfl rfl rfl rfl rfl rfl rfl ?_ ?_ ?_ ?_ ?_ ?_ ?_ ?_ ?_ ?_ ?_ ?_ ?_ ?_ ?_ ?_ ?_ ?_))

theorem keep_strike {P : Area → Prop} {z : State} {s : State} {a_a : Nat} {a_ce : Nat} {a_ue : Nat} (h : Keeps P z s)
    (ksramUnits : P .sramUnits := by assumption) :
    Keeps P z (strike s a_a a_ce a_ue) := by
  unfold strike
  repeat' (first | (with_reducible assumption) | (exact Or.inl (by assumption)) | (exact Or.inr rfl)
                 | (exact Or.inr ⟨rfl, rfl, rfl, rfl⟩) | (intro)
                 | (extract_lets +onlyGivenNames y; refine keep_cut (y := y) ?_ ?_; (focus (dsimp only [y]; clear y)); rotate_left; (focus (clear_value y; revert y; intro _ _)))
                 | (extract_lets +onlyGivenNames y; refine keep_cut1 (y := y) ?_ ?_; (focus (dsimp only [y]; clear y)); rotate_left; (focus (clear_value y; revert y; intro _ _)))
                 | (extract_lets +onlyGivenNames y; refine keep_cut2 (y := y) ?_ ?_; (focus (dsimp only [y]; clear y)); rotate_left; (focus (clear_value y; revert y; intro _ _)))
                 | (extract_lets +onlyGivenNames y; have q : Srm := y; clear q; dsimp only [y]; clear y)
                 | (extract_lets +onlyGivenNames y; have q : (_ : _) → _ := y; clear q; dsimp only [y]; clear y)
                 | (extract_lets +onlyGivenNames y; clear_value y; revert y; intro _) | (with_reducible refine keep_ite ?_ ?_)
                 | (with_reducible apply keep_foldl) | (with_reducible apply keep_foldl1) | split | (dsimp only)
                 | (with_reducible refine keep_mk ?_ rfl rfl rfl rfl rfl rfl rfl rfl rfl ?_ ?_ ?_ ?_ ?_ ?_ ?_ ?_ ?_ ?_ ?_ ?_ ?_ ?_ ?_ ?_ ?_ ?_))

theorem keep_recordUe {P : Area → Prop} {z : State} {s : State} {a_a : Nat} {a_w : Nat} {a_syn : Nat} (h : Keeps P z s) :
    Keeps P z (recordUe s a_a a_w a_syn) := by
  unfold recordUe
  repeat' (first | (with_reducible assumption) | (intro)
                 | (extract_lets +onlyGivenNames y; refine keep_cut (y := y) ?_ ?_; (focus (dsimp only [y]; clear y)); rotate_left; (focus (clear_value y; revert y; intro _ _)))
                 | (extract_lets +onlyGivenNames y; refine keep_cut1 (y := y) ?_ ?_; (focus (dsimp only [y]; clear y)); rotate_left; (focus (clear_value y; revert y; intro _ _)))
                 | (extract_lets +onlyGivenNames y; refine keep_cut2 (y := y) ?_ ?_; (focus (dsimp only [y]; clear y)); rotate_left; (focus (clear_value y; revert y; intro _ _)))
                 | (extract_lets +onlyGivenNames y; clear_value y; revert y; intro _) | (with_reducible apply keep_setF) | split
                 | (dsimp only))

theorem keep_correct {P : Area → Prop} {z : State} {s : State} {a_a : Nat} (h : Keeps P z s)
    (krings : P .rings := by assumption) (ksramUnits : P .sramUnits := by assumption)
    (ktwins : P .twins := by assumption) (klog : P .log := by assumption) :
    Keeps P z (correct s a_a) := by
  unfold correct
  repeat' (first | (with_reducible assumption) | (exact Or.inl (by assumption)) | (exact Or.inr rfl)
                 | (exact Or.inr ⟨rfl, rfl, rfl, rfl⟩) | (intro)
                 | (extract_lets +onlyGivenNames y; refine keep_cut (y := y) ?_ ?_; (focus (dsimp only [y]; clear y)); rotate_left; (focus (clear_value y; revert y; intro _ _)))
                 | (extract_lets +onlyGivenNames y; refine keep_cut1 (y := y) ?_ ?_; (focus (dsimp only [y]; clear y)); rotate_left; (focus (clear_value y; revert y; intro _ _)))
                 | (extract_lets +onlyGivenNames y; refine keep_cut2 (y := y) ?_ ?_; (focus (dsimp only [y]; clear y)); rotate_left; (focus (clear_value y; revert y; intro _ _)))
                 | (extract_lets +onlyGivenNames y; clear_value y; revert y; intro _) | (with_reducible apply keep_raise)
                 | (with_reducible apply keep_satF) | (with_reducible apply keep_logC) | (with_reducible apply keep_modCh)
                 | (with_reducible refine keep_ite ?_ ?_) | split | (dsimp only)
                 | (with_reducible refine keep_mk ?_ rfl rfl rfl rfl rfl rfl rfl rfl rfl ?_ ?_ ?_ ?_ ?_ ?_ ?_ ?_ ?_ ?_ ?_ ?_ ?_ ?_ ?_ ?_ ?_ ?_))

theorem keep_meetUe {P : Area → Prop} {z : State} {s : State} {a_a : Nat} {a_w : Nat} {a_syn : Nat} (h : Keeps P z s)
    (krings : P .rings := by assumption) (ktwins : P .twins := by assumption) (klog : P .log := by assumption) :
    Keeps P z (meetUe s a_a a_w a_syn) := by
  unfold meetUe
  repeat' (first | (with_reducible assumption) | (intro)
                 | (extract_lets +onlyGivenNames y; refine keep_cut (y := y) ?_ ?_; (focus (dsimp only [y]; clear y)); rotate_left; (focus (clear_value y; revert y; intro _ _)))
                 | (extract_lets +onlyGivenNames y; refine keep_cut1 (y := y) ?_ ?_; (focus (dsimp only [y]; clear y)); rotate_left; (focus (clear_value y; revert y; intro _ _)))
                 | (extract_lets +onlyGivenNames y; refine keep_cut2 (y := y) ?_ ?_; (focus (dsimp only [y]; clear y)); rotate_left; (focus (clear_value y; revert y; intro _ _)))
                 | (extract_lets +onlyGivenNames y; clear_value y; revert y; intro _) | (with_reducible apply keep_recordUe)
                 | (with_reducible apply keep_satF) | (with_reducible apply keep_logD) | (with_reducible apply keep_raise)
                 | split | (dsimp only))

theorem keep_readEntry {P : Area → Prop} {z : State} {s : State} {a_a : Nat} (h : Keeps P z s) :
    Keeps P z (readEntry s a_a).1 := by
  unfold readEntry
  repeat' (first | (with_reducible assumption) | (intro)
                 | (extract_lets +onlyGivenNames y; refine keep_cut (y := y) ?_ ?_; (focus (dsimp only [y]; clear y)); rotate_left; (focus (clear_value y; revert y; intro _ _)))
                 | (extract_lets +onlyGivenNames y; refine keep_cut1 (y := y) ?_ ?_; (focus (dsimp only [y]; clear y)); rotate_left; (focus (clear_value y; revert y; intro _ _)))
                 | (extract_lets +onlyGivenNames y; refine keep_cut2 (y := y) ?_ ?_; (focus (dsimp only [y]; clear y)); rotate_left; (focus (clear_value y; revert y; intro _ _)))
                 | (extract_lets +onlyGivenNames y; clear_value y; revert y; intro _) | (with_reducible apply keep_fresh)
                 | (with_reducible refine keep_ite ?_ ?_) | (with_reducible apply keep_foldl)
                 | (with_reducible apply keep_foldl1) | split | (dsimp only))

theorem keep_writeEntry {P : Area → Prop} {z : State} {s : State} {a_a : Nat} {a_l : Lanes} (h : Keeps P z s)
    (ksram : P .sram := by assumption) (ksramUnits : P .sramUnits := by assumption) :
    Keeps P z (writeEntry s a_a a_l) := by
  unfold writeEntry
  repeat' (first | (with_reducible assumption) | (exact Or.inl (by assumption)) | (exact Or.inr rfl)
                 | (exact Or.inr ⟨rfl, rfl, rfl, rfl⟩) | (intro)
                 | (extract_lets +onlyGivenNames y; refine keep_cut (y := y) ?_ ?_; (focus (dsimp only [y]; clear y)); rotate_left; (focus (clear_value y; revert y; intro _ _)))
                 | (extract_lets +onlyGivenNames y; refine keep_cut1 (y := y) ?_ ?_; (focus (dsimp only [y]; clear y)); rotate_left; (focus (clear_value y; revert y; intro _ _)))
                 | (extract_lets +onlyGivenNames y; refine keep_cut2 (y := y) ?_ ?_; (focus (dsimp only [y]; clear y)); rotate_left; (focus (clear_value y; revert y; intro _ _)))
                 | (extract_lets +onlyGivenNames y; clear_value y; revert y; intro _) | (with_reducible apply keep_wrMem)
                 | (with_reducible apply keep_clearErr) | (with_reducible apply keep_modCh) | split | (dsimp only)
                 | (exact by decide) | (show P _; assumption) | (exact memArea_of ‹_› ‹_› ‹_›)
                 | (with_reducible refine keep_mk ?_ rfl rfl rfl rfl rfl rfl rfl rfl rfl ?_ ?_ ?_ ?_ ?_ ?_ ?_ ?_ ?_ ?_ ?_ ?_ ?_ ?_ ?_ ?_ ?_ ?_))

theorem keep_emptyKey {P : Area → Prop} {z : State} {s : State} {a_r : MemReq} (h : Keeps P z s)
    (kfabric : P .fabric := by assumption) (krings : P .rings := by assumption) (ktwins : P .twins := by assumption)
    (klog : P .log := by assumption) :
    Keeps P z (emptyKey s a_r) := by
  unfold emptyKey
  repeat' (first | (with_reducible assumption) | (intro) | (with_reducible apply keep_failReq)
                 | (with_reducible refine keep_ite ?_ ?_) | split | (dsimp only))

theorem keep_walkFails {P : Area → Prop} {z : State} {s : State} {a_r : MemReq} (h : Keeps P z s)
    (kfabric : P .fabric := by assumption) (krings : P .rings := by assumption) (ktwins : P .twins := by assumption)
    (klog : P .log := by assumption) :
    Keeps P z (walkFails s a_r) := by
  unfold walkFails
  repeat' (first | (with_reducible assumption) | (intro)
                 | (extract_lets +onlyGivenNames y; refine keep_cut (y := y) ?_ ?_; (focus (dsimp only [y]; clear y)); rotate_left; (focus (clear_value y; revert y; intro _ _)))
                 | (extract_lets +onlyGivenNames y; refine keep_cut1 (y := y) ?_ ?_; (focus (dsimp only [y]; clear y)); rotate_left; (focus (clear_value y; revert y; intro _ _)))
                 | (extract_lets +onlyGivenNames y; refine keep_cut2 (y := y) ?_ ?_; (focus (dsimp only [y]; clear y)); rotate_left; (focus (clear_value y; revert y; intro _ _)))
                 | (extract_lets +onlyGivenNames y; clear_value y; revert y; intro _) | (with_reducible apply keep_failReq)
                 | (with_reducible refine keep_ite ?_ ?_) | split | (dsimp only))

theorem keep_serve {P : Area → Prop} {z : State} {s : State} {a_r : MemReq} {a_syn : Nat} (h : Keeps P z s)
    (ksram : P .sram := by assumption) (kfabric : P .fabric := by assumption) (krings : P .rings := by assumption)
    (ksramUnits : P .sramUnits := by assumption) (ktwins : P .twins := by assumption) (klog : P .log := by assumption) :
    Keeps P z (serve s a_r a_syn) := by
  unfold serve
  repeat' (first | (with_reducible assumption) | (exact Or.inl (by assumption)) | (exact Or.inr rfl)
                 | (exact Or.inr ⟨rfl, rfl, rfl, rfl⟩) | (intro)
                 | (extract_lets +onlyGivenNames y; refine keep_cut (y := y) ?_ ?_; (focus (dsimp only [y]; clear y)); rotate_left; (focus (clear_value y; revert y; intro _ _)))
                 | (extract_lets +onlyGivenNames y; refine keep_cut1 (y := y) ?_ ?_; (focus (dsimp only [y]; clear y)); rotate_left; (focus (clear_value y; revert y; intro _ _)))
                 | (extract_lets +onlyGivenNames y; refine keep_cut2 (y := y) ?_ ?_; (focus (dsimp only [y]; clear y)); rotate_left; (focus (clear_value y; revert y; intro _ _)))
                 | (extract_lets +onlyGivenNames y; clear_value y; revert y; intro _) | (with_reducible apply keep_answerReq)
                 | (with_reducible apply keep_writeEntry) | (with_reducible apply keep_correct)
                 | (with_reducible apply keep_readEntry) | (with_reducible apply keep_walkFails)
                 | (with_reducible apply keep_meetUe) | (with_reducible apply keep_emptyKey)
                 | (with_reducible refine keep_ite ?_ ?_) | split | (dsimp only)
                 | (with_reducible refine keep_mk ?_ rfl rfl rfl rfl rfl rfl rfl rfl rfl ?_ ?_ ?_ ?_ ?_ ?_ ?_ ?_ ?_ ?_ ?_ ?_ ?_ ?_ ?_ ?_ ?_ ?_))

theorem keep_srqServe {P : Area → Prop} {z : State} {s : State} {a_d : Nat} {a_ch : Nat} {a_ce : Nat} {a_ue : Nat}
    {a_syn : Nat} (h : Keeps P z s) (ksram : P .sram := by assumption) (kfabric : P .fabric := by assumption)
    (krings : P .rings := by assumption) (ksramUnits : P .sramUnits := by assumption)
    (ktwins : P .twins := by assumption) (klog : P .log := by assumption) :
    Keeps P z (srqServe s a_d a_ch a_ce a_ue a_syn) := by
  unfold srqServe
  repeat' (first | (with_reducible assumption) | (exact Or.inl (by assumption)) | (exact Or.inr rfl)
                 | (exact Or.inr ⟨rfl, rfl, rfl, rfl⟩) | (intro)
                 | (extract_lets +onlyGivenNames y; refine keep_cut (y := y) ?_ ?_; (focus (dsimp only [y]; clear y)); rotate_left; (focus (clear_value y; revert y; intro _ _)))
                 | (extract_lets +onlyGivenNames y; refine keep_cut1 (y := y) ?_ ?_; (focus (dsimp only [y]; clear y)); rotate_left; (focus (clear_value y; revert y; intro _ _)))
                 | (extract_lets +onlyGivenNames y; refine keep_cut2 (y := y) ?_ ?_; (focus (dsimp only [y]; clear y)); rotate_left; (focus (clear_value y; revert y; intro _ _)))
                 | (extract_lets +onlyGivenNames y; clear_value y; revert y; intro _) | (with_reducible apply keep_addF)
                 | (with_reducible apply keep_setChQueue) | (with_reducible apply keep_serve)
                 | (with_reducible apply keep_strike) | (with_reducible refine keep_ite ?_ ?_) | split | (dsimp only)
                 | (with_reducible refine keep_mk ?_ rfl rfl rfl rfl rfl rfl rfl rfl rfl ?_ ?_ ?_ ?_ ?_ ?_ ?_ ?_ ?_ ?_ ?_ ?_ ?_ ?_ ?_ ?_ ?_ ?_))

theorem keep_execSrqServe {P : Area → Prop} {z : State} {a_d : Nat} {a_ch : Nat} {a_ce : Nat} {a_ue : Nat} {a_syn : Nat}
    {s : State} (h : Keeps P z s) (ksram : P .sram := by assumption) (kfabric : P .fabric := by assumption)
    (krings : P .rings := by assumption) (ksramUnits : P .sramUnits := by assumption)
    (ktwins : P .twins := by assumption) (klog : P .log := by assumption) :
    ∀ t, execSrqServe a_d a_ch a_ce a_ue a_syn s = .next t → Keeps P z t := by
  unfold execSrqServe; intro t e; injection e with e; subst e
  repeat' (first | (with_reducible assumption) | (intro) | (with_reducible apply keep_srqServe) | split | (dsimp only))

theorem keep_eccWriteback {P : Area → Prop} {z : State} {s : State} {a_d : Nat} {a_ch : Nat} (h : Keeps P z s)
    (ksramUnits : P .sramUnits := by assumption) :
    Keeps P z (eccWriteback s a_d a_ch) := by
  unfold eccWriteback
  repeat' (first | (with_reducible assumption) | (exact Or.inl (by assumption)) | (exact Or.inr rfl)
                 | (exact Or.inr ⟨rfl, rfl, rfl, rfl⟩) | (intro)
                 | (extract_lets +onlyGivenNames y; refine keep_cut (y := y) ?_ ?_; (focus (dsimp only [y]; clear y)); rotate_left; (focus (clear_value y; revert y; intro _ _)))
                 | (extract_lets +onlyGivenNames y; refine keep_cut1 (y := y) ?_ ?_; (focus (dsimp only [y]; clear y)); rotate_left; (focus (clear_value y; revert y; intro _ _)))
                 | (extract_lets +onlyGivenNames y; refine keep_cut2 (y := y) ?_ ?_; (focus (dsimp only [y]; clear y)); rotate_left; (focus (clear_value y; revert y; intro _ _)))
                 | (extract_lets +onlyGivenNames y; have q : Srm := y; clear q; dsimp only [y]; clear y)
                 | (extract_lets +onlyGivenNames y; clear_value y; revert y; intro _) | (with_reducible apply keep_modCh)
                 | (with_reducible refine keep_ite ?_ ?_) | split | (dsimp only)
                 | (with_reducible refine keep_mk ?_ rfl rfl rfl rfl rfl rfl rfl rfl rfl ?_ ?_ ?_ ?_ ?_ ?_ ?_ ?_ ?_ ?_ ?_ ?_ ?_ ?_ ?_ ?_ ?_ ?_))

theorem keep_execEccWriteback {P : Area → Prop} {z : State} {a_d : Nat} {a_ch : Nat} {s : State} (h : Keeps P z s)
    (ksramUnits : P .sramUnits := by assumption) :
    ∀ t, execEccWriteback a_d a_ch s = .next t → Keeps P z t := by
  unfold execEccWriteback; intro t e; injection e with e; subst e
  repeat' (first | (with_reducible assumption) | (intro) | (with_reducible apply keep_eccWriteback) | split | (dsimp only))

theorem keep_flushCh {P : Area → Prop} {z : State} {s : State} {a_k : Nat} {a_f : State → MemReq → State}
    (h : Keeps P z s) (hf : ∀ x0 x1, Keeps P z x0 → Keeps P z (a_f x0 x1)) (ksramUnits : P .sramUnits := by assumption) :
    Keeps P z (flushCh s a_k a_f) := by
  unfold flushCh
  repeat' (first | (with_reducible assumption) | (exact Or.inl (by assumption)) | (exact Or.inr rfl)
                 | (exact Or.inr ⟨rfl, rfl, rfl, rfl⟩) | (intro)
                 | (extract_lets +onlyGivenNames y; refine keep_cut (y := y) ?_ ?_; (focus (dsimp only [y]; clear y)); rotate_left; (focus (clear_value y; revert y; intro _ _)))
                 | (extract_lets +onlyGivenNames y; refine keep_cut1 (y := y) ?_ ?_; (focus (dsimp only [y]; clear y)); rotate_left; (focus (clear_value y; revert y; intro _ _)))
                 | (extract_lets +onlyGivenNames y; refine keep_cut2 (y := y) ?_ ?_; (focus (dsimp only [y]; clear y)); rotate_left; (focus (clear_value y; revert y; intro _ _)))
                 | (extract_lets +onlyGivenNames y; clear_value y; revert y; intro _) | (with_reducible apply hf)
                 | (with_reducible apply keep_modCh) | (with_reducible apply keep_foldl) | (with_reducible apply keep_foldl1)
                 | split | (dsimp only)
                 | (with_reducible refine keep_mk ?_ rfl rfl rfl rfl rfl rfl rfl rfl rfl ?_ ?_ ?_ ?_ ?_ ?_ ?_ ?_ ?_ ?_ ?_ ?_ ?_ ?_ ?_ ?_ ?_ ?_))

theorem keep_sramParityFreeze {P : Area → Prop} {z : State} {s : State} {a_d : Nat} {a_ch : Nat} {a_wd : Bool}
    (h : Keeps P z s) (ksram : P .sram := by assumption) (kfabric : P .fabric := by assumption)
    (kdests : P .dests := by assumption) (krings : P .rings := by assumption)
    (ksramUnits : P .sramUnits := by assumption) (ktwins : P .twins := by assumption) (klog : P .log := by assumption) :
    Keeps P z (sramParityFreeze s a_d a_ch a_wd) := by
  unfold sramParityFreeze
  repeat' (first | (with_reducible assumption) | (exact Or.inl (by assumption)) | (exact Or.inr rfl)
                 | (exact Or.inr ⟨rfl, rfl, rfl, rfl⟩) | (intro)
                 | (extract_lets +onlyGivenNames y; refine keep_cut (y := y) ?_ ?_; (focus (dsimp only [y]; clear y)); rotate_left; (focus (clear_value y; revert y; intro _ _)))
                 | (extract_lets +onlyGivenNames y; refine keep_cut1 (y := y) ?_ ?_; (focus (dsimp only [y]; clear y)); rotate_left; (focus (clear_value y; revert y; intro _ _)))
                 | (extract_lets +onlyGivenNames y; refine keep_cut2 (y := y) ?_ ?_; (focus (dsimp only [y]; clear y)); rotate_left; (focus (clear_value y; revert y; intro _ _)))
                 | (extract_lets +onlyGivenNames y; clear_value y; revert y; intro _) | (with_reducible apply keep_noteSusp)
                 | (with_reducible apply keep_setF) | (with_reducible apply keep_mkUndef) | (with_reducible apply keep_raise)
                 | (with_reducible apply keep_logD) | (with_reducible apply keep_flushCh)
                 | (with_reducible apply keep_answerFrozen) | (with_reducible refine keep_ite ?_ ?_) | split | (dsimp only)
                 | (exact by decide) | (show P _; assumption) | (exact memArea_of ‹_› ‹_› ‹_›)
                 | (with_reducible refine keep_mk ?_ rfl rfl rfl rfl rfl rfl rfl rfl rfl ?_ ?_ ?_ ?_ ?_ ?_ ?_ ?_ ?_ ?_ ?_ ?_ ?_ ?_ ?_ ?_ ?_ ?_))

theorem keep_execSramParityFreeze {P : Area → Prop} {z : State} {a_d : Nat} {a_ch : Nat} {a_wd : Bool} {s : State}
    (h : Keeps P z s) (ksram : P .sram := by assumption) (kfabric : P .fabric := by assumption)
    (kdests : P .dests := by assumption) (krings : P .rings := by assumption)
    (ksramUnits : P .sramUnits := by assumption) (ktwins : P .twins := by assumption) (klog : P .log := by assumption) :
    ∀ t, execSramParityFreeze a_d a_ch a_wd s = .next t → Keeps P z t := by
  unfold execSramParityFreeze; intro t e; injection e with e; subst e
  repeat' (first | (with_reducible assumption) | (intro) | (with_reducible apply keep_sramParityFreeze) | split | (dsimp only))

theorem keep_sramChannelReset {P : Area → Prop} {z : State} {s : State} {a_d : Nat} {a_ch : Nat} (h : Keeps P z s)
    (kfabric : P .fabric := by assumption) (krings : P .rings := by assumption)
    (ksramUnits : P .sramUnits := by assumption) (ktwins : P .twins := by assumption) (klog : P .log := by assumption) :
    Keeps P z (sramChannelReset s a_d a_ch) := by
  unfold sramChannelReset
  repeat' (first | (with_reducible assumption) | (intro)
                 | (extract_lets +onlyGivenNames y; refine keep_cut (y := y) ?_ ?_; (focus (dsimp only [y]; clear y)); rotate_left; (focus (clear_value y; revert y; intro _ _)))
                 | (extract_lets +onlyGivenNames y; refine keep_cut1 (y := y) ?_ ?_; (focus (dsimp only [y]; clear y)); rotate_left; (focus (clear_value y; revert y; intro _ _)))
                 | (extract_lets +onlyGivenNames y; refine keep_cut2 (y := y) ?_ ?_; (focus (dsimp only [y]; clear y)); rotate_left; (focus (clear_value y; revert y; intro _ _)))
                 | (extract_lets +onlyGivenNames y; clear_value y; revert y; intro _) | (with_reducible apply keep_setF)
                 | (with_reducible apply keep_flushCh) | (with_reducible apply keep_answerFrozen)
                 | (with_reducible refine keep_ite ?_ ?_) | split | (dsimp only))

theorem keep_execSramChannelReset {P : Area → Prop} {z : State} {a_d : Nat} {a_ch : Nat} {s : State} (h : Keeps P z s)
    (kfabric : P .fabric := by assumption) (krings : P .rings := by assumption)
    (ksramUnits : P .sramUnits := by assumption) (ktwins : P .twins := by assumption) (klog : P .log := by assumption) :
    ∀ t, execSramChannelReset a_d a_ch s = .next t → Keeps P z t := by
  unfold execSramChannelReset; intro t e; injection e with e; subst e
  repeat' (first | (with_reducible assumption) | (intro) | (with_reducible apply keep_sramChannelReset) | split | (dsimp only))

theorem keep_fenceCh {P : Area → Prop} {z : State} {s : State} {a_d : Nat} {a_ch : Nat} (h : Keeps P z s)
    (kfabric : P .fabric := by assumption) (kdests : P .dests := by assumption) (krings : P .rings := by assumption)
    (ksramUnits : P .sramUnits := by assumption) (ktwins : P .twins := by assumption) (klog : P .log := by assumption) :
    Keeps P z (fenceCh s a_d a_ch) := by
  unfold fenceCh
  repeat' (first | (with_reducible assumption) | (intro)
                 | (extract_lets +onlyGivenNames y; refine keep_cut (y := y) ?_ ?_; (focus (dsimp only [y]; clear y)); rotate_left; (focus (clear_value y; revert y; intro _ _)))
                 | (extract_lets +onlyGivenNames y; refine keep_cut1 (y := y) ?_ ?_; (focus (dsimp only [y]; clear y)); rotate_left; (focus (clear_value y; revert y; intro _ _)))
                 | (extract_lets +onlyGivenNames y; refine keep_cut2 (y := y) ?_ ?_; (focus (dsimp only [y]; clear y)); rotate_left; (focus (clear_value y; revert y; intro _ _)))
                 | (extract_lets +onlyGivenNames y; clear_value y; revert y; intro _) | (with_reducible apply keep_noteSusp)
                 | (with_reducible apply keep_raise) | (with_reducible apply keep_setF) | (with_reducible apply keep_flushCh)
                 | (with_reducible apply keep_answerFenced) | split | (dsimp only))

theorem keep_sramChannelResetDone {P : Area → Prop} {z : State} {s : State} {a_d : Nat} {a_ch : Nat} {a_pass : Bool}
    (h : Keeps P z s) (kfabric : P .fabric := by assumption) (kdests : P .dests := by assumption)
    (krings : P .rings := by assumption) (ksramUnits : P .sramUnits := by assumption)
    (ktwins : P .twins := by assumption) (klog : P .log := by assumption) :
    Keeps P z (sramChannelResetDone s a_d a_ch a_pass) := by
  unfold sramChannelResetDone
  repeat' (first | (with_reducible assumption) | (intro)
                 | (extract_lets +onlyGivenNames y; refine keep_cut (y := y) ?_ ?_; (focus (dsimp only [y]; clear y)); rotate_left; (focus (clear_value y; revert y; intro _ _)))
                 | (extract_lets +onlyGivenNames y; refine keep_cut1 (y := y) ?_ ?_; (focus (dsimp only [y]; clear y)); rotate_left; (focus (clear_value y; revert y; intro _ _)))
                 | (extract_lets +onlyGivenNames y; refine keep_cut2 (y := y) ?_ ?_; (focus (dsimp only [y]; clear y)); rotate_left; (focus (clear_value y; revert y; intro _ _)))
                 | (extract_lets +onlyGivenNames y; clear_value y; revert y; intro _) | (with_reducible apply keep_setF)
                 | (with_reducible apply keep_fenceCh) | (with_reducible refine keep_ite ?_ ?_) | split | (dsimp only))

theorem keep_execSramChannelResetDone {P : Area → Prop} {z : State} {a_d : Nat} {a_ch : Nat} {a_pass : Bool} {s : State}
    (h : Keeps P z s) (kfabric : P .fabric := by assumption) (kdests : P .dests := by assumption)
    (krings : P .rings := by assumption) (ksramUnits : P .sramUnits := by assumption)
    (ktwins : P .twins := by assumption) (klog : P .log := by assumption) :
    ∀ t, execSramChannelResetDone a_d a_ch a_pass s = .next t → Keeps P z t := by
  unfold execSramChannelResetDone; intro t e; injection e with e; subst e
  repeat' (first | (with_reducible assumption) | (intro) | (with_reducible apply keep_sramChannelResetDone) | split
                 | (dsimp only))

theorem keep_sramFence {P : Area → Prop} {z : State} {s : State} {a_d : Nat} {a_ch : Nat} {a_set : Bool}
    (h : Keeps P z s) (kfabric : P .fabric := by assumption) (kdests : P .dests := by assumption)
    (krings : P .rings := by assumption) (ksramUnits : P .sramUnits := by assumption)
    (ktwins : P .twins := by assumption) (klog : P .log := by assumption) :
    Keeps P z (sramFence s a_d a_ch a_set) := by
  unfold sramFence
  repeat' (first | (with_reducible assumption) | (intro)
                 | (extract_lets +onlyGivenNames y; refine keep_cut (y := y) ?_ ?_; (focus (dsimp only [y]; clear y)); rotate_left; (focus (clear_value y; revert y; intro _ _)))
                 | (extract_lets +onlyGivenNames y; refine keep_cut1 (y := y) ?_ ?_; (focus (dsimp only [y]; clear y)); rotate_left; (focus (clear_value y; revert y; intro _ _)))
                 | (extract_lets +onlyGivenNames y; refine keep_cut2 (y := y) ?_ ?_; (focus (dsimp only [y]; clear y)); rotate_left; (focus (clear_value y; revert y; intro _ _)))
                 | (extract_lets +onlyGivenNames y; clear_value y; revert y; intro _) | (with_reducible apply keep_setF)
                 | (with_reducible apply keep_fenceCh) | (with_reducible apply keep_sramChannelReset)
                 | (with_reducible refine keep_ite ?_ ?_) | split | (dsimp only))

theorem keep_execSramFence {P : Area → Prop} {z : State} {a_d : Nat} {a_ch : Nat} {a_set : Bool} {s : State}
    (h : Keeps P z s) (kfabric : P .fabric := by assumption) (kdests : P .dests := by assumption)
    (krings : P .rings := by assumption) (ksramUnits : P .sramUnits := by assumption)
    (ktwins : P .twins := by assumption) (klog : P .log := by assumption) :
    ∀ t, execSramFence a_d a_ch a_set s = .next t → Keeps P z t := by
  unfold execSramFence; intro t e; injection e with e; subst e
  repeat' (first | (with_reducible assumption) | (intro) | (with_reducible apply keep_sramFence) | split | (dsimp only))

theorem keep_zeroSlice {P : Area → Prop} {z : State} {s : State} {a_k : Nat} (h : Keeps P z s)
    (ksram : P .sram := by assumption) (ksramUnits : P .sramUnits := by assumption) :
    Keeps P z (zeroSlice s a_k) := by
  unfold zeroSlice
  repeat' (first | (with_reducible assumption) | (exact Or.inl (by assumption)) | (exact Or.inr rfl)
                 | (exact Or.inr ⟨rfl, rfl, rfl, rfl⟩) | (intro)
                 | (extract_lets +onlyGivenNames y; refine keep_cut (y := y) ?_ ?_; (focus (dsimp only [y]; clear y)); rotate_left; (focus (clear_value y; revert y; intro _ _)))
                 | (extract_lets +onlyGivenNames y; refine keep_cut1 (y := y) ?_ ?_; (focus (dsimp only [y]; clear y)); rotate_left; (focus (clear_value y; revert y; intro _ _)))
                 | (extract_lets +onlyGivenNames y; refine keep_cut2 (y := y) ?_ ?_; (focus (dsimp only [y]; clear y)); rotate_left; (focus (clear_value y; revert y; intro _ _)))
                 | (extract_lets +onlyGivenNames y; have q : Srm := y; clear q; dsimp only [y]; clear y)
                 | (extract_lets +onlyGivenNames y; clear_value y; revert y; intro _) | (with_reducible apply keep_clearErr)
                 | (with_reducible apply keep_zeroMem) | (with_reducible apply keep_modCh) | split | (dsimp only)
                 | (exact by decide) | (show P _; assumption) | (exact memArea_of ‹_› ‹_› ‹_›)
                 | (with_reducible refine keep_mk ?_ rfl rfl rfl rfl rfl rfl rfl rfl rfl ?_ ?_ ?_ ?_ ?_ ?_ ?_ ?_ ?_ ?_ ?_ ?_ ?_ ?_ ?_ ?_ ?_ ?_))

theorem keep_zeroNext {P : Area → Prop} {z : State} {s : State} {a_k : Nat} (h : Keeps P z s)
    (ksram : P .sram := by assumption) (ksramUnits : P .sramUnits := by assumption) :
    Keeps P z (zeroNext s a_k) := by
  unfold zeroNext
  repeat' (first | (with_reducible assumption) | (exact Or.inl (by assumption)) | (exact Or.inr rfl)
                 | (exact Or.inr ⟨rfl, rfl, rfl, rfl⟩) | (intro)
                 | (extract_lets +onlyGivenNames y; refine keep_cut (y := y) ?_ ?_; (focus (dsimp only [y]; clear y)); rotate_left; (focus (clear_value y; revert y; intro _ _)))
                 | (extract_lets +onlyGivenNames y; refine keep_cut1 (y := y) ?_ ?_; (focus (dsimp only [y]; clear y)); rotate_left; (focus (clear_value y; revert y; intro _ _)))
                 | (extract_lets +onlyGivenNames y; refine keep_cut2 (y := y) ?_ ?_; (focus (dsimp only [y]; clear y)); rotate_left; (focus (clear_value y; revert y; intro _ _)))
                 | (extract_lets +onlyGivenNames y; have q : Srm := y; clear q; dsimp only [y]; clear y)
                 | (extract_lets +onlyGivenNames y; clear_value y; revert y; intro _) | (with_reducible apply keep_clearErr)
                 | (with_reducible apply keep_zeroMem) | (with_reducible apply keep_modCh)
                 | (with_reducible refine keep_ite ?_ ?_) | split | (dsimp only) | (exact by decide) | (show P _; assumption)
                 | (exact memArea_of ‹_› ‹_› ‹_›)
                 | (with_reducible refine keep_mk ?_ rfl rfl rfl rfl rfl rfl rfl rfl rfl ?_ ?_ ?_ ?_ ?_ ?_ ?_ ?_ ?_ ?_ ?_ ?_ ?_ ?_ ?_ ?_ ?_ ?_))

theorem keep_sliceZeroingDone {P : Area → Prop} {z : State} {s : State} {a_d : Nat} {a_sl : Nat} (h : Keeps P z s)
    (ksram : P .sram := by assumption) (ksramUnits : P .sramUnits := by assumption) :
    Keeps P z (sliceZeroingDone s a_d a_sl) := by
  unfold sliceZeroingDone
  repeat' (first | (with_reducible assumption) | (exact Or.inl (by assumption)) | (exact Or.inr rfl)
                 | (exact Or.inr ⟨rfl, rfl, rfl, rfl⟩) | (intro)
                 | (extract_lets +onlyGivenNames y; refine keep_cut (y := y) ?_ ?_; (focus (dsimp only [y]; clear y)); rotate_left; (focus (clear_value y; revert y; intro _ _)))
                 | (extract_lets +onlyGivenNames y; refine keep_cut1 (y := y) ?_ ?_; (focus (dsimp only [y]; clear y)); rotate_left; (focus (clear_value y; revert y; intro _ _)))
                 | (extract_lets +onlyGivenNames y; refine keep_cut2 (y := y) ?_ ?_; (focus (dsimp only [y]; clear y)); rotate_left; (focus (clear_value y; revert y; intro _ _)))
                 | (extract_lets +onlyGivenNames y; have q : Srm := y; clear q; dsimp only [y]; clear y)
                 | (extract_lets +onlyGivenNames y; clear_value y; revert y; intro _) | (with_reducible apply keep_zeroSlice)
                 | (with_reducible refine keep_ite ?_ ?_) | split | (dsimp only)
                 | (with_reducible refine keep_mk ?_ rfl rfl rfl rfl rfl rfl rfl rfl rfl ?_ ?_ ?_ ?_ ?_ ?_ ?_ ?_ ?_ ?_ ?_ ?_ ?_ ?_ ?_ ?_ ?_ ?_))

theorem keep_execSliceZeroingDone {P : Area → Prop} {z : State} {a_d : Nat} {a_sl : Nat} {s : State} (h : Keeps P z s)
    (ksram : P .sram := by assumption) (ksramUnits : P .sramUnits := by assumption) :
    ∀ t, execSliceZeroingDone a_d a_sl s = .next t → Keeps P z t := by
  unfold execSliceZeroingDone; intro t e; injection e with e; subst e
  repeat' (first | (with_reducible assumption) | (intro) | (with_reducible apply keep_sliceZeroingDone) | split | (dsimp only))

theorem keep_sramScrubRead {P : Area → Prop} {z : State} {s : State} {a_d : Nat} {a_ch : Nat} {a_ce : Nat} {a_ue : Nat}
    {a_syn : Nat} (h : Keeps P z s) (krings : P .rings := by assumption) (ksramUnits : P .sramUnits := by assumption)
    (ktwins : P .twins := by assumption) (klog : P .log := by assumption) :
    Keeps P z (sramScrubRead s a_d a_ch a_ce a_ue a_syn) := by
  unfold sramScrubRead
  repeat' (first | (with_reducible assumption) | (exact Or.inl (by assumption)) | (exact Or.inr rfl)
                 | (exact Or.inr ⟨rfl, rfl, rfl, rfl⟩) | (intro)
                 | (extract_lets +onlyGivenNames y; refine keep_cut (y := y) ?_ ?_; (focus (dsimp only [y]; clear y)); rotate_left; (focus (clear_value y; revert y; intro _ _)))
                 | (extract_lets +onlyGivenNames y; refine keep_cut1 (y := y) ?_ ?_; (focus (dsimp only [y]; clear y)); rotate_left; (focus (clear_value y; revert y; intro _ _)))
                 | (extract_lets +onlyGivenNames y; refine keep_cut2 (y := y) ?_ ?_; (focus (dsimp only [y]; clear y)); rotate_left; (focus (clear_value y; revert y; intro _ _)))
                 | (extract_lets +onlyGivenNames y; clear_value y; revert y; intro _) | (with_reducible apply keep_strike)
                 | (with_reducible apply keep_modCh) | (with_reducible apply keep_correct)
                 | (with_reducible apply keep_recordUe) | (with_reducible apply keep_satF) | (with_reducible apply keep_logD)
                 | (with_reducible apply keep_raise) | (with_reducible refine keep_ite ?_ ?_) | split | (dsimp only)
                 | (with_reducible refine keep_mk ?_ rfl rfl rfl rfl rfl rfl rfl rfl rfl ?_ ?_ ?_ ?_ ?_ ?_ ?_ ?_ ?_ ?_ ?_ ?_ ?_ ?_ ?_ ?_ ?_ ?_))

theorem keep_execSramScrubRead {P : Area → Prop} {z : State} {a_d : Nat} {a_ch : Nat} {a_ce : Nat} {a_ue : Nat}
    {a_syn : Nat} {s : State} (h : Keeps P z s) (krings : P .rings := by assumption)
    (ksramUnits : P .sramUnits := by assumption) (ktwins : P .twins := by assumption) (klog : P .log := by assumption) :
    ∀ t, execSramScrubRead a_d a_ch a_ce a_ue a_syn s = .next t → Keeps P z t := by
  unfold execSramScrubRead; intro t e; injection e with e; subst e
  repeat' (first | (with_reducible assumption) | (intro) | (with_reducible apply keep_sramScrubRead) | split | (dsimp only))

theorem keep_srmIndStep {P : Area → Prop} {z : State} {s : State} {a_d : Nat} (h : Keeps P z s) :
    Keeps P z (srmIndStep s a_d) := by
  unfold srmIndStep
  repeat' (first | (with_reducible assumption) | (intro) | (with_reducible apply keep_addF)
                 | (with_reducible refine keep_ite ?_ ?_) | split | (dsimp only))

theorem keep_srmIndRead {P : Area → Prop} {z : State} {s : State} {a_d : Nat} (h : Keeps P z s)
    (krings : P .rings := by assumption) (ksramUnits : P .sramUnits := by assumption)
    (ktwins : P .twins := by assumption) (klog : P .log := by assumption) :
    Keeps P z (srmIndRead s a_d).1 := by
  unfold srmIndRead
  repeat' (first | (with_reducible assumption) | (intro)
                 | (extract_lets +onlyGivenNames y; refine keep_cut (y := y) ?_ ?_; (focus (dsimp only [y]; clear y)); rotate_left; (focus (clear_value y; revert y; intro _ _)))
                 | (extract_lets +onlyGivenNames y; refine keep_cut1 (y := y) ?_ ?_; (focus (dsimp only [y]; clear y)); rotate_left; (focus (clear_value y; revert y; intro _ _)))
                 | (extract_lets +onlyGivenNames y; refine keep_cut2 (y := y) ?_ ?_; (focus (dsimp only [y]; clear y)); rotate_left; (focus (clear_value y; revert y; intro _ _)))
                 | (extract_lets +onlyGivenNames y; clear_value y; revert y; intro _) | (with_reducible apply keep_correct)
                 | (with_reducible apply keep_setF) | (with_reducible apply keep_srmIndStep) | (with_reducible apply keep_fresh)
                 | (with_reducible refine keep_ite ?_ ?_) | split | (dsimp only))

theorem keep_srmIndWrite {P : Area → Prop} {z : State} {s : State} {a_fn : Nat} {a_d : Nat} {a_v : Nat} (h : Keeps P z s)
    (ksram : P .sram := by assumption) (krings : P .rings := by assumption) (ksramUnits : P .sramUnits := by assumption)
    (ktwins : P .twins := by assumption) (klog : P .log := by assumption) :
    Keeps P z (srmIndWrite s a_fn a_d a_v) := by
  unfold srmIndWrite
  repeat' (first | (with_reducible assumption) | (intro)
                 | (extract_lets +onlyGivenNames y; refine keep_cut (y := y) ?_ ?_; (focus (dsimp only [y]; clear y)); rotate_left; (focus (clear_value y; revert y; intro _ _)))
                 | (extract_lets +onlyGivenNames y; refine keep_cut1 (y := y) ?_ ?_; (focus (dsimp only [y]; clear y)); rotate_left; (focus (clear_value y; revert y; intro _ _)))
                 | (extract_lets +onlyGivenNames y; refine keep_cut2 (y := y) ?_ ?_; (focus (dsimp only [y]; clear y)); rotate_left; (focus (clear_value y; revert y; intro _ _)))
                 | (extract_lets +onlyGivenNames y; clear_value y; revert y; intro _) | (with_reducible apply keep_logWWR)
                 | (with_reducible apply keep_clearErr) | (with_reducible apply keep_wrWord)
                 | (with_reducible apply keep_srmIndStep) | (with_reducible refine keep_ite ?_ ?_)
                 | (with_reducible apply keep_foldl) | (with_reducible apply keep_foldl1) | split | (dsimp only)
                 | (exact by decide) | (show P _; assumption) | (exact memArea_of ‹_› ‹_› ‹_›))

theorem keep_execSrmIndDataAccess {P : Area → Prop} {z : State} {a_fn : Nat} {a_d : Nat} {a_write : Bool} {a_v : Nat}
    {s : State} (h : Keeps P z s) (ksram : P .sram := by assumption) (krings : P .rings := by assumption)
    (ksramUnits : P .sramUnits := by assumption) (ktwins : P .twins := by assumption) (klog : P .log := by assumption) :
    ∀ t, execSrmIndDataAccess a_fn a_d a_write a_v s = .next t → Keeps P z t := by
  unfold execSrmIndDataAccess; intro t e; injection e with e; subst e
  repeat' (first | (with_reducible assumption) | (intro)
                 | (extract_lets +onlyGivenNames y; refine keep_cut (y := y) ?_ ?_; (focus (dsimp only [y]; clear y)); rotate_left; (focus (clear_value y; revert y; intro _ _)))
                 | (extract_lets +onlyGivenNames y; refine keep_cut1 (y := y) ?_ ?_; (focus (dsimp only [y]; clear y)); rotate_left; (focus (clear_value y; revert y; intro _ _)))
                 | (extract_lets +onlyGivenNames y; refine keep_cut2 (y := y) ?_ ?_; (focus (dsimp only [y]; clear y)); rotate_left; (focus (clear_value y; revert y; intro _ _)))
                 | (extract_lets +onlyGivenNames y; clear_value y; revert y; intro _) | (with_reducible apply keep_answer)
                 | (with_reducible apply keep_srmIndWrite) | (with_reducible apply keep_srmIndRead)
                 | (with_reducible refine keep_ite ?_ ?_) | split | (dsimp only))

end Sys2Proof.Machine
end

