-- ==== Sys2Proof/Laws/KeepHbm.lean ====
section
/-! SUPPORT. What the operations of Machine/Hbm.lean keep (Laws/Keep.lean), one lemma per operation. -/

set_option linter.tactic.unusedName false
set_option linter.all false
set_option Elab.async false

namespace Sys2Proof.Machine

theorem keep_modPc {P : Area → Prop} {z : State} {s : State} {a_d : Nat} {a_c : Nat} {a_f : HPc → HPc} (h : Keeps P z s)
    (khbmUnits : P .hbmUnits := by assumption) :
    Keeps P z (modPc s a_d a_c a_f) := by
  unfold modPc
  repeat' (first | (with_reducible assumption) | (exact Or.inl (by assumption)) | (exact Or.inr rfl)
                 | (exact Or.inr ⟨rfl, rfl, rfl, rfl⟩) | (intro)
                 | (extract_lets +onlyGivenNames y; refine keep_cut (y := y) ?_ ?_; (focus (dsimp only [y]; clear y)); rotate_left; (focus (clear_value y; revert y; intro _ _)))
                 | (extract_lets +onlyGivenNames y; refine keep_cut1 (y := y) ?_ ?_; (focus (dsimp only [y]; clear y)); rotate_left; (focus (clear_value y; revert y; intro _ _)))
                 | (extract_lets +onlyGivenNames y; refine keep_cut2 (y := y) ?_ ?_; (focus (dsimp only [y]; clear y)); rotate_left; (focus (clear_value y; revert y; intro _ _)))
                 | (extract_lets +onlyGivenNames y; have q : Hbm := y; clear q; dsimp only [y]; clear y)
                 | (extract_lets +onlyGivenNames y; clear_value y; revert y; intro _) | split | (dsimp only)
                 | (with_reducible refine keep_mk ?_ rfl rfl rfl rfl rfl rfl rfl rfl rfl ?_ ?_ ?_ ?_ ?_ ?_ ?_ ?_ ?_ ?_ ?_ ?_ ?_ ?_ ?_ ?_ ?_ ?_))

theorem keep_countAccess {P : Area → Prop} {z : State} {s : State} {a_d : Nat} {a_c : Nat} {a_n : Nat} (h : Keeps P z s) :
    Keeps P z (countAccess s a_d a_c a_n) := by
  unfold countAccess
  repeat' (first | (with_reducible assumption) | (intro) | (with_reducible apply keep_addF) | split | (dsimp only))

theorem keep_dramWrite {P : Area → Prop} {z : State} {s : State} {a_d : Nat} {a_ln : Nat} {a_bs : Tbl Byte}
    (h : Keeps P z s) (khbm : P .hbm := by assumption) :
    Keeps P z (dramWrite s a_d a_ln a_bs) := by
  unfold dramWrite
  repeat' (first | (with_reducible assumption) | (intro) | (with_reducible apply keep_wrByte)
                 | (with_reducible apply keep_foldl) | (with_reducible apply keep_foldl1) | split | (dsimp only)
                 | (exact by decide) | (show P _; assumption) | (exact memArea_of ‹_› ‹_› ‹_›))

theorem keep_issueWrite {P : Area → Prop} {z : State} {s : State} {a_d : Nat} {a_c : Nat} (h : Keeps P z s)
    (khbm : P .hbm := by assumption) (khbmUnits : P .hbmUnits := by assumption) :
    Keeps P z (issueWrite s a_d a_c) := by
  unfold issueWrite
  repeat' (first | (with_reducible assumption) | (exact Or.inl (by assumption)) | (exact Or.inr rfl)
                 | (exact Or.inr ⟨rfl, rfl, rfl, rfl⟩) | (intro)
                 | (extract_lets +onlyGivenNames y; refine keep_cut (y := y) ?_ ?_; (focus (dsimp only [y]; clear y)); rotate_left; (focus (clear_value y; revert y; intro _ _)))
                 | (extract_lets +onlyGivenNames y; refine keep_cut1 (y := y) ?_ ?_; (focus (dsimp only [y]; clear y)); rotate_left; (focus (clear_value y; revert y; intro _ _)))
                 | (extract_lets +onlyGivenNames y; refine keep_cut2 (y := y) ?_ ?_; (focus (dsimp only [y]; clear y)); rotate_left; (focus (clear_value y; revert y; intro _ _)))
                 | (extract_lets +onlyGivenNames y; clear_value y; revert y; intro _) | (with_reducible apply keep_countAccess)
                 | (with_reducible apply keep_dramWrite) | (with_reducible apply keep_modPc) | split | (dsimp only)
                 | (with_reducible refine keep_mk ?_ rfl rfl rfl rfl rfl rfl rfl rfl rfl ?_ ?_ ?_ ?_ ?_ ?_ ?_ ?_ ?_ ?_ ?_ ?_ ?_ ?_ ?_ ?_ ?_ ?_))

theorem keep_wqPush {P : Area → Prop} {z : State} {s : State} {a_d : Nat} {a_ln : Nat} {a_bs : Tbl Byte}
    (h : Keeps P z s) (khbm : P .hbm := by assumption) (khbmUnits : P .hbmUnits := by assumption) :
    Keeps P z (wqPush s a_d a_ln a_bs) := by
  unfold wqPush
  repeat' (first | (with_reducible assumption) | (exact Or.inl (by assumption)) | (exact Or.inr rfl)
                 | (exact Or.inr ⟨rfl, rfl, rfl, rfl⟩) | (intro)
                 | (extract_lets +onlyGivenNames y; refine keep_cut (y := y) ?_ ?_; (focus (dsimp only [y]; clear y)); rotate_left; (focus (clear_value y; revert y; intro _ _)))
                 | (extract_lets +onlyGivenNames y; refine keep_cut1 (y := y) ?_ ?_; (focus (dsimp only [y]; clear y)); rotate_left; (focus (clear_value y; revert y; intro _ _)))
                 | (extract_lets +onlyGivenNames y; refine keep_cut2 (y := y) ?_ ?_; (focus (dsimp only [y]; clear y)); rotate_left; (focus (clear_value y; revert y; intro _ _)))
                 | (extract_lets +onlyGivenNames y; clear_value y; revert y; intro _) | (with_reducible apply keep_modPc)
                 | (with_reducible apply keep_issueWrite) | (with_reducible refine keep_ite ?_ ?_)
                 | (with_reducible apply keep_foldl) | (with_reducible apply keep_foldl1) | split | (dsimp only)
                 | (with_reducible refine keep_mk ?_ rfl rfl rfl rfl rfl rfl rfl rfl rfl ?_ ?_ ?_ ?_ ?_ ?_ ?_ ?_ ?_ ?_ ?_ ?_ ?_ ?_ ?_ ?_ ?_ ?_))

theorem keep_putLine {P : Area → Prop} {z : State} {s : State} {a_d : Nat} {a_ln : Nat} {a_w : Nat} {a_l : CLine}
    (h : Keeps P z s) (khbmUnits : P .hbmUnits := by assumption) :
    Keeps P z (putLine s a_d a_ln a_w a_l) := by
  unfold putLine
  repeat' (first | (with_reducible assumption) | (exact Or.inl (by assumption)) | (exact Or.inr rfl)
                 | (exact Or.inr ⟨rfl, rfl, rfl, rfl⟩) | (intro)
                 | (extract_lets +onlyGivenNames y; refine keep_cut (y := y) ?_ ?_; (focus (dsimp only [y]; clear y)); rotate_left; (focus (clear_value y; revert y; intro _ _)))
                 | (extract_lets +onlyGivenNames y; refine keep_cut1 (y := y) ?_ ?_; (focus (dsimp only [y]; clear y)); rotate_left; (focus (clear_value y; revert y; intro _ _)))
                 | (extract_lets +onlyGivenNames y; refine keep_cut2 (y := y) ?_ ?_; (focus (dsimp only [y]; clear y)); rotate_left; (focus (clear_value y; revert y; intro _ _)))
                 | (extract_lets +onlyGivenNames y; clear_value y; revert y; intro _) | (with_reducible apply keep_modSpc)
                 | split | (dsimp only)
                 | (with_reducible refine keep_mk ?_ rfl rfl rfl rfl rfl rfl rfl rfl rfl ?_ ?_ ?_ ?_ ?_ ?_ ?_ ?_ ?_ ?_ ?_ ?_ ?_ ?_ ?_ ?_ ?_ ?_))

theorem keep_dropLine {P : Area → Prop} {z : State} {s : State} {a_d : Nat} {a_ln : Nat} {a_w : Nat} (h : Keeps P z s)
    (khbmUnits : P .hbmUnits := by assumption) :
    Keeps P z (dropLine s a_d a_ln a_w) := by
  unfold dropLine
  repeat' (first | (with_reducible assumption) | (exact Or.inl (by assumption)) | (exact Or.inr rfl)
                 | (exact Or.inr ⟨rfl, rfl, rfl, rfl⟩) | (intro)
                 | (extract_lets +onlyGivenNames y; refine keep_cut (y := y) ?_ ?_; (focus (dsimp only [y]; clear y)); rotate_left; (focus (clear_value y; revert y; intro _ _)))
                 | (extract_lets +onlyGivenNames y; refine keep_cut1 (y := y) ?_ ?_; (focus (dsimp only [y]; clear y)); rotate_left; (focus (clear_value y; revert y; intro _ _)))
                 | (extract_lets +onlyGivenNames y; refine keep_cut2 (y := y) ?_ ?_; (focus (dsimp only [y]; clear y)); rotate_left; (focus (clear_value y; revert y; intro _ _)))
                 | (extract_lets +onlyGivenNames y; clear_value y; revert y; intro _) | (with_reducible apply keep_modSpc)
                 | split | (dsimp only)
                 | (with_reducible refine keep_mk ?_ rfl rfl rfl rfl rfl rfl rfl rfl rfl ?_ ?_ ?_ ?_ ?_ ?_ ?_ ?_ ?_ ?_ ?_ ?_ ?_ ?_ ?_ ?_ ?_ ?_))

theorem keep_writeBack {P : Area → Prop} {z : State} {s : State} {a_d : Nat} {a_ln : Nat} {a_l : CLine} (h : Keeps P z s)
    (khbm : P .hbm := by assumption) (khbmUnits : P .hbmUnits := by assumption) :
    Keeps P z (writeBack s a_d a_ln a_l) := by
  unfold writeBack
  repeat' (first | (with_reducible assumption) | (intro) | (with_reducible apply keep_wqPush) | split | (dsimp only))

theorem keep_touch {P : Area → Prop} {z : State} {s : State} {a_d : Nat} {a_ln : Nat} {a_w : Nat} (h : Keeps P z s)
    (khbmUnits : P .hbmUnits := by assumption) :
    Keeps P z (touch s a_d a_ln a_w) := by
  unfold touch
  repeat' (first | (with_reducible assumption) | (exact Or.inl (by assumption)) | (exact Or.inr rfl)
                 | (exact Or.inr ⟨rfl, rfl, rfl, rfl⟩) | (intro)
                 | (extract_lets +onlyGivenNames y; refine keep_cut (y := y) ?_ ?_; (focus (dsimp only [y]; clear y)); rotate_left; (focus (clear_value y; revert y; intro _ _)))
                 | (extract_lets +onlyGivenNames y; refine keep_cut1 (y := y) ?_ ?_; (focus (dsimp only [y]; clear y)); rotate_left; (focus (clear_value y; revert y; intro _ _)))
                 | (extract_lets +onlyGivenNames y; refine keep_cut2 (y := y) ?_ ?_; (focus (dsimp only [y]; clear y)); rotate_left; (focus (clear_value y; revert y; intro _ _)))
                 | (extract_lets +onlyGivenNames y; clear_value y; revert y; intro _) | (with_reducible apply keep_modSpc)
                 | split | (dsimp only)
                 | (with_reducible refine keep_mk ?_ rfl rfl rfl rfl rfl rfl rfl rfl rfl ?_ ?_ ?_ ?_ ?_ ?_ ?_ ?_ ?_ ?_ ?_ ?_ ?_ ?_ ?_ ?_ ?_ ?_))

theorem keep_allocate {P : Area → Prop} {z : State} {s : State} {a_d : Nat} {a_ln : Nat} {a_mask : Nat} (h : Keeps P z s)
    (khbm : P .hbm := by assumption) (khbmUnits : P .hbmUnits := by assumption) :
    Keeps P z (allocate s a_d a_ln a_mask).1 := by
  unfold allocate
  repeat' (first | (with_reducible assumption) | (exact Or.inl (by assumption)) | (exact Or.inr rfl)
                 | (exact Or.inr ⟨rfl, rfl, rfl, rfl⟩) | (intro)
                 | (extract_lets +onlyGivenNames y; refine keep_cut (y := y) ?_ ?_; (focus (dsimp only [y]; clear y)); rotate_left; (focus (clear_value y; revert y; intro _ _)))
                 | (extract_lets +onlyGivenNames y; refine keep_cut1 (y := y) ?_ ?_; (focus (dsimp only [y]; clear y)); rotate_left; (focus (clear_value y; revert y; intro _ _)))
                 | (extract_lets +onlyGivenNames y; refine keep_cut2 (y := y) ?_ ?_; (focus (dsimp only [y]; clear y)); rotate_left; (focus (clear_value y; revert y; intro _ _)))
                 | (extract_lets +onlyGivenNames y; clear_value y; revert y; intro _) | (with_reducible apply keep_dropLine)
                 | (with_reducible apply keep_writeBack) | (with_reducible refine keep_ite ?_ ?_) | split | (dsimp only)
                 | (with_reducible refine keep_mk ?_ rfl rfl rfl rfl rfl rfl rfl rfl rfl ?_ ?_ ?_ ?_ ?_ ?_ ?_ ?_ ?_ ?_ ?_ ?_ ?_ ?_ ?_ ?_ ?_ ?_))

theorem keep_countHit {P : Area → Prop} {z : State} {s : State} {a_d : Nat} {a_cls : Nat} (h : Keeps P z s) :
    Keeps P z (countHit s a_d a_cls) := by
  unfold countHit
  repeat' (first | (with_reducible assumption) | (intro) | (with_reducible apply keep_addF) | split | (dsimp only))

theorem keep_countMiss {P : Area → Prop} {z : State} {s : State} {a_d : Nat} {a_cls : Nat} (h : Keeps P z s) :
    Keeps P z (countMiss s a_d a_cls) := by
  unfold countMiss
  repeat' (first | (with_reducible assumption) | (intro) | (with_reducible apply keep_addF) | split | (dsimp only))

theorem keep_hitLine {P : Area → Prop} {z : State} {s : State} {a_d : Nat} {a_ln : Nat} {a_w : Nat} {a_l : CLine}
    (h : Keeps P z s) (khbmUnits : P .hbmUnits := by assumption) :
    Keeps P z (hitLine s a_d a_ln a_w a_l) := by
  unfold hitLine
  repeat' (first | (with_reducible assumption) | (exact Or.inl (by assumption)) | (exact Or.inr rfl)
                 | (exact Or.inr ⟨rfl, rfl, rfl, rfl⟩) | (intro)
                 | (extract_lets +onlyGivenNames y; refine keep_cut (y := y) ?_ ?_; (focus (dsimp only [y]; clear y)); rotate_left; (focus (clear_value y; revert y; intro _ _)))
                 | (extract_lets +onlyGivenNames y; refine keep_cut1 (y := y) ?_ ?_; (focus (dsimp only [y]; clear y)); rotate_left; (focus (clear_value y; revert y; intro _ _)))
                 | (extract_lets +onlyGivenNames y; refine keep_cut2 (y := y) ?_ ?_; (focus (dsimp only [y]; clear y)); rotate_left; (focus (clear_value y; revert y; intro _ _)))
                 | (extract_lets +onlyGivenNames y; clear_value y; revert y; intro _) | (with_reducible apply keep_touch)
                 | (with_reducible apply keep_addF) | (with_reducible apply keep_putLine)
                 | (with_reducible refine keep_ite ?_ ?_) | split | (dsimp only)
                 | (with_reducible refine keep_mk ?_ rfl rfl rfl rfl rfl rfl rfl rfl rfl ?_ ?_ ?_ ?_ ?_ ?_ ?_ ?_ ?_ ?_ ?_ ?_ ?_ ?_ ?_ ?_ ?_ ?_))

theorem keep_prefetch {P : Area → Prop} {z : State} {s : State} {a_d : Nat} {a_cls : Nat} {a_ways : Nat} {a_ln : Int}
    (h : Keeps P z s) (khbm : P .hbm := by assumption) (khbmUnits : P .hbmUnits := by assumption) :
    Keeps P z (prefetch s a_d a_cls a_ways a_ln) := by
  unfold prefetch
  repeat' (first | (with_reducible assumption) | (exact fun _ h => h) | (exact Or.inl (by assumption)) | (exact Or.inr rfl)
                 | (exact Or.inr ⟨rfl, rfl, rfl, rfl⟩) | (intro)
                 | (extract_lets +onlyGivenNames y; refine keep_cut (y := y) ?_ ?_; (focus (dsimp only [y]; clear y)); rotate_left; (focus (clear_value y; revert y; intro _ _)))
                 | (extract_lets +onlyGivenNames y; refine keep_cut1 (y := y) ?_ ?_; (focus (dsimp only [y]; clear y)); rotate_left; (focus (clear_value y; revert y; intro _ _)))
                 | (extract_lets +onlyGivenNames y; refine keep_cut2 (y := y) ?_ ?_; (focus (dsimp only [y]; clear y)); rotate_left; (focus (clear_value y; revert y; intro _ _)))
                 | (extract_lets +onlyGivenNames y; have q : Hbm := y; clear q; dsimp only [y]; clear y)
                 | (extract_lets +onlyGivenNames y; clear_value y; revert y; intro _) | (with_reducible apply keep_allocate)
                 | (with_reducible apply keep_putLine) | (with_reducible apply keep_addF) | (with_reducible apply keep_modPc)
                 | (with_reducible refine keep_ite ?_ ?_) | split | (dsimp only)
                 | (with_reducible refine keep_mk ?_ rfl rfl rfl rfl rfl rfl rfl rfl rfl ?_ ?_ ?_ ?_ ?_ ?_ ?_ ?_ ?_ ?_ ?_ ?_ ?_ ?_ ?_ ?_ ?_ ?_))

theorem keep_streamAccess {P : Area → Prop} {z : State} {s : State} {a_d : Nat} {a_who : Nat} {a_cls : Nat} {a_ways : Nat}
    {a_ln : Nat} {a_miss : Bool} (h : Keeps P z s) (khbm : P .hbm := by assumption)
    (khbmUnits : P .hbmUnits := by assumption) :
    Keeps P z (streamAccess s a_d a_who a_cls a_ways a_ln a_miss) := by
  unfold streamAccess
  repeat' (first | (with_reducible assumption) | (exact Or.inl (by assumption)) | (exact Or.inr rfl)
                 | (exact Or.inr ⟨rfl, rfl, rfl, rfl⟩) | (intro)
                 | (extract_lets +onlyGivenNames y; refine keep_cut (y := y) ?_ ?_; (focus (dsimp only [y]; clear y)); rotate_left; (focus (clear_value y; revert y; intro _ _)))
                 | (extract_lets +onlyGivenNames y; refine keep_cut1 (y := y) ?_ ?_; (focus (dsimp only [y]; clear y)); rotate_left; (focus (clear_value y; revert y; intro _ _)))
                 | (extract_lets +onlyGivenNames y; refine keep_cut2 (y := y) ?_ ?_; (focus (dsimp only [y]; clear y)); rotate_left; (focus (clear_value y; revert y; intro _ _)))
                 | (extract_lets +onlyGivenNames y; have q : (_ : _) → _ := y; clear q; dsimp only [y]; clear y)
                 | (extract_lets +onlyGivenNames y; clear_value y; revert y; intro _) | (with_reducible apply keep_modSpc)
                 | (with_reducible apply keep_prefetch) | (with_reducible refine keep_ite ?_ ?_)
                 | (with_reducible apply keep_foldl) | (with_reducible apply keep_foldl1) | split | (dsimp only)
                 | (with_reducible refine keep_mk ?_ rfl rfl rfl rfl rfl rfl rfl rfl rfl ?_ ?_ ?_ ?_ ?_ ?_ ?_ ?_ ?_ ?_ ?_ ?_ ?_ ?_ ?_ ?_ ?_ ?_))

theorem keep_startFill {P : Area → Prop} {z : State} {s : State} {a_d : Nat} {a_ln : Nat} {a_need : Nat} {a_cls : Nat}
    {a_ways : Nat} {a_urgent : Bool} {a_req : Option MemReq} {a_who : Option Nat} (h : Keeps P z s)
    (khbm : P .hbm := by assumption) (khbmUnits : P .hbmUnits := by assumption) :
    Keeps P z (startFill s a_d a_ln a_need a_cls a_ways a_urgent a_req a_who) := by
  unfold startFill
  repeat' (first | (with_reducible assumption) | (exact fun _ h => h) | (exact Or.inl (by assumption)) | (exact Or.inr rfl)
                 | (exact Or.inr ⟨rfl, rfl, rfl, rfl⟩) | (intro)
                 | (extract_lets +onlyGivenNames y; refine keep_cut (y := y) ?_ ?_; (focus (dsimp only [y]; clear y)); rotate_left; (focus (clear_value y; revert y; intro _ _)))
                 | (extract_lets +onlyGivenNames y; refine keep_cut1 (y := y) ?_ ?_; (focus (dsimp only [y]; clear y)); rotate_left; (focus (clear_value y; revert y; intro _ _)))
                 | (extract_lets +onlyGivenNames y; refine keep_cut2 (y := y) ?_ ?_; (focus (dsimp only [y]; clear y)); rotate_left; (focus (clear_value y; revert y; intro _ _)))
                 | (extract_lets +onlyGivenNames y; have q : Hbm := y; clear q; dsimp only [y]; clear y)
                 | (extract_lets +onlyGivenNames y; clear_value y; revert y; intro _) | (with_reducible apply keep_allocate)
                 | (with_reducible apply keep_touch) | (with_reducible apply keep_putLine) | (with_reducible apply keep_addF)
                 | (with_reducible apply keep_modPc) | (with_reducible refine keep_ite ?_ ?_) | split | (dsimp only)
                 | (with_reducible refine keep_mk ?_ rfl rfl rfl rfl rfl rfl rfl rfl rfl ?_ ?_ ?_ ?_ ?_ ?_ ?_ ?_ ?_ ?_ ?_ ?_ ?_ ?_ ?_ ?_ ?_ ?_))

theorem keep_askLine {P : Area → Prop} {z : State} {s : State} {a_d : Nat} {a_ln : Nat} {a_lo : Nat} {a_hi : Nat}
    {a_cls : Nat} {a_ways : Nat} {a_who : Nat} {a_urgent : Bool} (h : Keeps P z s) (khbm : P .hbm := by assumption)
    (khbmUnits : P .hbmUnits := by assumption) :
    Keeps P z (askLine s a_d a_ln a_lo a_hi a_cls a_ways a_who a_urgent) := by
  unfold askLine
  repeat' (first | (with_reducible assumption) | (intro)
                 | (extract_lets +onlyGivenNames y; refine keep_cut (y := y) ?_ ?_; (focus (dsimp only [y]; clear y)); rotate_left; (focus (clear_value y; revert y; intro _ _)))
                 | (extract_lets +onlyGivenNames y; refine keep_cut1 (y := y) ?_ ?_; (focus (dsimp only [y]; clear y)); rotate_left; (focus (clear_value y; revert y; intro _ _)))
                 | (extract_lets +onlyGivenNames y; refine keep_cut2 (y := y) ?_ ?_; (focus (dsimp only [y]; clear y)); rotate_left; (focus (clear_value y; revert y; intro _ _)))
                 | (extract_lets +onlyGivenNames y; clear_value y; revert y; intro _) | (with_reducible apply keep_startFill)
                 | (with_reducible apply keep_countMiss) | (with_reducible apply keep_streamAccess)
                 | (with_reducible refine keep_ite ?_ ?_) | split | (dsimp only))

theorem keep_takeFill {P : Area → Prop} {z : State} {s : State} {a_f : Fill} (h : Keeps P z s)
    (khbmUnits : P .hbmUnits := by assumption) :
    Keeps P z (takeFill s a_f) := by
  unfold takeFill
  repeat' (first | (with_reducible assumption) | (exact fun _ h => h) | (exact Or.inl (by assumption)) | (exact Or.inr rfl)
                 | (exact Or.inr ⟨rfl, rfl, rfl, rfl⟩) | (intro)
                 | (extract_lets +onlyGivenNames y; refine keep_cut (y := y) ?_ ?_; (focus (dsimp only [y]; clear y)); rotate_left; (focus (clear_value y; revert y; intro _ _)))
                 | (extract_lets +onlyGivenNames y; refine keep_cut1 (y := y) ?_ ?_; (focus (dsimp only [y]; clear y)); rotate_left; (focus (clear_value y; revert y; intro _ _)))
                 | (extract_lets +onlyGivenNames y; refine keep_cut2 (y := y) ?_ ?_; (focus (dsimp only [y]; clear y)); rotate_left; (focus (clear_value y; revert y; intro _ _)))
                 | (extract_lets +onlyGivenNames y; have q : Hbm := y; clear q; dsimp only [y]; clear y)
                 | (extract_lets +onlyGivenNames y; clear_value y; revert y; intro _) | (with_reducible refine keep_ite ?_ ?_)
                 | split | (dsimp only)
                 | (with_reducible refine keep_mk ?_ rfl rfl rfl rfl rfl rfl rfl rfl rfl ?_ ?_ ?_ ?_ ?_ ?_ ?_ ?_ ?_ ?_ ?_ ?_ ?_ ?_ ?_ ?_ ?_ ?_))

theorem keep_dropReads {P : Area → Prop} {z : State} {s : State} {a_p : Nat → Bool} (h : Keeps P z s)
    (khbmUnits : P .hbmUnits := by assumption) :
    Keeps P z (dropReads s a_p) := by
  unfold dropReads
  repeat' (first | (with_reducible assumption) | (exact Or.inl (by assumption)) | (exact Or.inr rfl)
                 | (exact Or.inr ⟨rfl, rfl, rfl, rfl⟩) | (intro)
                 | (extract_lets +onlyGivenNames y; refine keep_cut (y := y) ?_ ?_; (focus (dsimp only [y]; clear y)); rotate_left; (focus (clear_value y; revert y; intro _ _)))
                 | (extract_lets +onlyGivenNames y; refine keep_cut1 (y := y) ?_ ?_; (focus (dsimp only [y]; clear y)); rotate_left; (focus (clear_value y; revert y; intro _ _)))
                 | (extract_lets +onlyGivenNames y; refine keep_cut2 (y := y) ?_ ?_; (focus (dsimp only [y]; clear y)); rotate_left; (focus (clear_value y; revert y; intro _ _)))
                 | (extract_lets +onlyGivenNames y; have q : Hbm := y; clear q; dsimp only [y]; clear y)
                 | (extract_lets +onlyGivenNames y; clear_value y; revert y; intro _) | (with_reducible refine keep_ite ?_ ?_)
                 | split | (dsimp only)
                 | (with_reducible refine keep_mk ?_ rfl rfl rfl rfl rfl rfl rfl rfl rfl ?_ ?_ ?_ ?_ ?_ ?_ ?_ ?_ ?_ ?_ ?_ ?_ ?_ ?_ ?_ ?_ ?_ ?_))

theorem keep_readLine {P : Area → Prop} {z : State} {s : State} {a_d : Nat} {a_ln : Nat} {a_lo : Nat} {a_hi : Nat}
    {a_cls : Nat} {a_ways : Nat} {a_who : Nat} (h : Keeps P z s) (khbm : P .hbm := by assumption)
    (khbmUnits : P .hbmUnits := by assumption) :
    Keeps P z (readLine s a_d a_ln a_lo a_hi a_cls a_ways a_who).1 := by
  unfold readLine
  repeat' (first | (with_reducible assumption) | (exact Or.inl (by assumption)) | (exact Or.inr rfl)
                 | (exact Or.inr ⟨rfl, rfl, rfl, rfl⟩) | (intro)
                 | (extract_lets +onlyGivenNames y; refine keep_cut (y := y) ?_ ?_; (focus (dsimp only [y]; clear y)); rotate_left; (focus (clear_value y; revert y; intro _ _)))
                 | (extract_lets +onlyGivenNames y; refine keep_cut1 (y := y) ?_ ?_; (focus (dsimp only [y]; clear y)); rotate_left; (focus (clear_value y; revert y; intro _ _)))
                 | (extract_lets +onlyGivenNames y; refine keep_cut2 (y := y) ?_ ?_; (focus (dsimp only [y]; clear y)); rotate_left; (focus (clear_value y; revert y; intro _ _)))
                 | (extract_lets +onlyGivenNames y; have q : (_ : _) → _ := y; clear q; dsimp only [y]; clear y)
                 | (extract_lets +onlyGivenNames y; clear_value y; revert y; intro _) | (with_reducible apply keep_takeFill)
                 | (with_reducible apply keep_streamAccess) | (with_reducible apply keep_hitLine)
                 | (with_reducible apply keep_countHit) | (with_reducible refine keep_ite ?_ ?_) | split | (dsimp only)
                 | (with_reducible refine keep_mk ?_ rfl rfl rfl rfl rfl rfl rfl rfl rfl ?_ ?_ ?_ ?_ ?_ ?_ ?_ ?_ ?_ ?_ ?_ ?_ ?_ ?_ ?_ ?_ ?_ ?_))

theorem keep_writeLine {P : Area → Prop} {z : State} {s : State} {a_d : Nat} {a_ln : Nat} {a_lo : Nat} {a_data : Bytes}
    {a_cls : Nat} {a_ways : Nat} (h : Keeps P z s) (khbm : P .hbm := by assumption)
    (khbmUnits : P .hbmUnits := by assumption) :
    Keeps P z (writeLine s a_d a_ln a_lo a_data a_cls a_ways).1 := by
  unfold writeLine
  repeat' (first | (with_reducible assumption) | (exact Or.inl (by assumption)) | (exact Or.inr rfl)
                 | (exact Or.inr ⟨rfl, rfl, rfl, rfl⟩) | (intro)
                 | (extract_lets +onlyGivenNames y; refine keep_cut (y := y) ?_ ?_; (focus (dsimp only [y]; clear y)); rotate_left; (focus (clear_value y; revert y; intro _ _)))
                 | (extract_lets +onlyGivenNames y; refine keep_cut1 (y := y) ?_ ?_; (focus (dsimp only [y]; clear y)); rotate_left; (focus (clear_value y; revert y; intro _ _)))
                 | (extract_lets +onlyGivenNames y; refine keep_cut2 (y := y) ?_ ?_; (focus (dsimp only [y]; clear y)); rotate_left; (focus (clear_value y; revert y; intro _ _)))
                 | (extract_lets +onlyGivenNames y; clear_value y; revert y; intro _) | (with_reducible apply keep_wqPush)
                 | (with_reducible apply keep_hitLine) | (with_reducible apply keep_countHit)
                 | (with_reducible apply keep_putLine) | (with_reducible apply keep_countMiss)
                 | (with_reducible apply keep_allocate) | (with_reducible apply keep_touch)
                 | (with_reducible refine keep_ite ?_ ?_) | split | (dsimp only)
                 | (with_reducible refine keep_mk ?_ rfl rfl rfl rfl rfl rfl rfl rfl rfl ?_ ?_ ?_ ?_ ?_ ?_ ?_ ?_ ?_ ?_ ?_ ?_ ?_ ?_ ?_ ?_ ?_ ?_))

theorem keep_hbmAsk {P : Area → Prop} {z : State} {s : State} {a_d : Nat} {a_a : Nat} {a_n : Nat} {a_cls : Nat}
    {a_ways : Nat} {a_who : Nat} {a_urgent : Bool} (h : Keeps P z s) (khbm : P .hbm := by assumption)
    (khbmUnits : P .hbmUnits := by assumption) :
    Keeps P z (hbmAsk s a_d a_a a_n a_cls a_ways a_who a_urgent) := by
  unfold hbmAsk
  repeat' (first | (with_reducible assumption) | (intro) | (with_reducible apply keep_askLine)
                 | (with_reducible refine keep_ite ?_ ?_) | (with_reducible apply keep_foldl)
                 | (with_reducible apply keep_foldl1) | split | (dsimp only))

theorem keep_hbmRead {P : Area → Prop} {z s : State} {a_d a_a a_n a_cls a_ways a_who : Nat} (h : Keeps P z s) 
    (khbm : P .hbm := by assumption) (khbmUnits : P .hbmUnits := by assumption) :
    Keeps P z (hbmRead s a_d a_a a_n a_cls a_ways a_who).1 := by
  unfold hbmRead
  split
  · exact h
  · refine keep_foldl1 _ h (fun a x ha => ?_)
    split
    · exact ha
    · with_reducible exact keep_readLine ha

theorem keep_hbmWrite {P : Area → Prop} {z s : State} {a_d a_a : Nat} {a_data : Bytes} {a_cls a_ways : Nat} (h : Keeps P z s) 
    (khbm : P .hbm := by assumption) (khbmUnits : P .hbmUnits := by assumption) :
    Keeps P z (hbmWrite s a_d a_a a_data a_cls a_ways).1 := by
  unfold hbmWrite
  split
  · exact h
  · refine keep_foldl1 _ h (fun a x ha => keep_foldl1 _ ha (fun b y hb => ?_))
    split
    · exact hb
    · with_reducible exact keep_writeLine hb

theorem keep_hbmIndStep {P : Area → Prop} {z : State} {s : State} {a_d : Nat} (h : Keeps P z s) :
    Keeps P z (hbmIndStep s a_d) := by
  unfold hbmIndStep
  repeat' (first | (with_reducible assumption) | (intro) | (with_reducible apply keep_addF)
                 | (with_reducible refine keep_ite ?_ ?_) | split | (dsimp only))

theorem keep_hbmIndFault {P : Area → Prop} {z : State} {s : State} {a_d : Nat} {a_f : Bool} (h : Keeps P z s) :
    Keeps P z (hbmIndFault s a_d a_f) := by
  unfold hbmIndFault
  repeat' (first | (with_reducible assumption) | (intro) | (with_reducible apply keep_setF)
                 | (with_reducible refine keep_ite ?_ ?_) | split | (dsimp only))

theorem keep_indAnswer {P : Area → Prop} {z : State} {s : State} {a_d : Nat} {a_word : Option Nat} (h : Keeps P z s)
    (khbmUnits : P .hbmUnits := by assumption) :
    Keeps P z (indAnswer s a_d a_word) := by
  unfold indAnswer
  repeat' (first | (with_reducible assumption) | (exact Or.inl (by assumption)) | (exact Or.inr rfl)
                 | (exact Or.inr ⟨rfl, rfl, rfl, rfl⟩) | (intro)
                 | (extract_lets +onlyGivenNames y; refine keep_cut (y := y) ?_ ?_; (focus (dsimp only [y]; clear y)); rotate_left; (focus (clear_value y; revert y; intro _ _)))
                 | (extract_lets +onlyGivenNames y; refine keep_cut1 (y := y) ?_ ?_; (focus (dsimp only [y]; clear y)); rotate_left; (focus (clear_value y; revert y; intro _ _)))
                 | (extract_lets +onlyGivenNames y; refine keep_cut2 (y := y) ?_ ?_; (focus (dsimp only [y]; clear y)); rotate_left; (focus (clear_value y; revert y; intro _ _)))
                 | (extract_lets +onlyGivenNames y; have q : Hbm := y; clear q; dsimp only [y]; clear y)
                 | (extract_lets +onlyGivenNames y; clear_value y; revert y; intro _) | (with_reducible apply keep_hbmIndStep)
                 | (with_reducible apply keep_hbmIndFault) | (with_reducible apply keep_answer)
                 | (with_reducible refine keep_ite ?_ ?_) | split | (dsimp only)
                 | (with_reducible refine keep_mk ?_ rfl rfl rfl rfl rfl rfl rfl rfl rfl ?_ ?_ ?_ ?_ ?_ ?_ ?_ ?_ ?_ ?_ ?_ ?_ ?_ ?_ ?_ ?_ ?_ ?_))

theorem keep_failFill {P : Area → Prop} {z : State} {s : State} {a_f : Fill} {a_st : Nat} (h : Keeps P z s)
    (kfabric : P .fabric := by assumption) (krings : P .rings := by assumption)
    (khbmUnits : P .hbmUnits := by assumption) (ktwins : P .twins := by assumption) (klog : P .log := by assumption) :
    Keeps P z (failFill s a_f a_st) := by
  unfold failFill
  repeat' (first | (with_reducible assumption) | (exact fun _ h => h) | (exact Or.inl (by assumption)) | (exact Or.inr rfl)
                 | (exact Or.inr ⟨rfl, rfl, rfl, rfl⟩) | (intro)
                 | (extract_lets +onlyGivenNames y; refine keep_cut (y := y) ?_ ?_; (focus (dsimp only [y]; clear y)); rotate_left; (focus (clear_value y; revert y; intro _ _)))
                 | (extract_lets +onlyGivenNames y; refine keep_cut1 (y := y) ?_ ?_; (focus (dsimp only [y]; clear y)); rotate_left; (focus (clear_value y; revert y; intro _ _)))
                 | (extract_lets +onlyGivenNames y; refine keep_cut2 (y := y) ?_ ?_; (focus (dsimp only [y]; clear y)); rotate_left; (focus (clear_value y; revert y; intro _ _)))
                 | (extract_lets +onlyGivenNames y; have q : Hbm := y; clear q; dsimp only [y]; clear y)
                 | (extract_lets +onlyGivenNames y; clear_value y; revert y; intro _) | (with_reducible apply keep_dropLine)
                 | (with_reducible apply keep_answerFenced) | (with_reducible apply keep_answerFrozen)
                 | (with_reducible apply keep_indAnswer) | (with_reducible refine keep_ite ?_ ?_) | split | (dsimp only)
                 | (with_reducible refine keep_mk ?_ rfl rfl rfl rfl rfl rfl rfl rfl rfl ?_ ?_ ?_ ?_ ?_ ?_ ?_ ?_ ?_ ?_ ?_ ?_ ?_ ?_ ?_ ?_ ?_ ?_))

theorem keep_failReads {P : Area → Prop} {z : State} {s : State} {a_d : Nat} {a_c : Nat} {a_st : Nat} (h : Keeps P z s)
    (kfabric : P .fabric := by assumption) (krings : P .rings := by assumption)
    (khbmUnits : P .hbmUnits := by assumption) (ktwins : P .twins := by assumption) (klog : P .log := by assumption) :
    Keeps P z (failReads s a_d a_c a_st) := by
  unfold failReads
  repeat' (first | (with_reducible assumption) | (exact fun _ h => h) | (exact Or.inl (by assumption)) | (exact Or.inr rfl)
                 | (exact Or.inr ⟨rfl, rfl, rfl, rfl⟩) | (intro)
                 | (extract_lets +onlyGivenNames y; refine keep_cut (y := y) ?_ ?_; (focus (dsimp only [y]; clear y)); rotate_left; (focus (clear_value y; revert y; intro _ _)))
                 | (extract_lets +onlyGivenNames y; refine keep_cut1 (y := y) ?_ ?_; (focus (dsimp only [y]; clear y)); rotate_left; (focus (clear_value y; revert y; intro _ _)))
                 | (extract_lets +onlyGivenNames y; refine keep_cut2 (y := y) ?_ ?_; (focus (dsimp only [y]; clear y)); rotate_left; (focus (clear_value y; revert y; intro _ _)))
                 | (extract_lets +onlyGivenNames y; clear_value y; revert y; intro _) | (with_reducible apply keep_modPc)
                 | (with_reducible apply keep_failFill) | (with_reducible apply keep_foldl) | (with_reducible apply keep_foldl1)
                 | split | (dsimp only)
                 | (with_reducible refine keep_mk ?_ rfl rfl rfl rfl rfl rfl rfl rfl rfl ?_ ?_ ?_ ?_ ?_ ?_ ?_ ?_ ?_ ?_ ?_ ?_ ?_ ?_ ?_ ?_ ?_ ?_))

theorem keep_freezePc {P : Area → Prop} {z : State} {s : State} {a_d : Nat} {a_c : Nat} {a_cause : Nat} {a_addr : Nat}
    {a_kind : Nat} {a_syn : Nat} (h : Keeps P z s) (kfabric : P .fabric := by assumption)
    (kdests : P .dests := by assumption) (krings : P .rings := by assumption) (khbmUnits : P .hbmUnits := by assumption)
    (ktwins : P .twins := by assumption) (klog : P .log := by assumption) :
    Keeps P z (freezePc s a_d a_c a_cause a_addr a_kind a_syn) := by
  unfold freezePc
  repeat' (first | (with_reducible assumption) | (exact Or.inl (by assumption)) | (exact Or.inr rfl)
                 | (exact Or.inr ⟨rfl, rfl, rfl, rfl⟩) | (intro)
                 | (extract_lets +onlyGivenNames y; refine keep_cut (y := y) ?_ ?_; (focus (dsimp only [y]; clear y)); rotate_left; (focus (clear_value y; revert y; intro _ _)))
                 | (extract_lets +onlyGivenNames y; refine keep_cut1 (y := y) ?_ ?_; (focus (dsimp only [y]; clear y)); rotate_left; (focus (clear_value y; revert y; intro _ _)))
                 | (extract_lets +onlyGivenNames y; refine keep_cut2 (y := y) ?_ ?_; (focus (dsimp only [y]; clear y)); rotate_left; (focus (clear_value y; revert y; intro _ _)))
                 | (extract_lets +onlyGivenNames y; clear_value y; revert y; intro _) | (with_reducible apply keep_setF)
                 | (with_reducible apply keep_noteSusp) | (with_reducible apply keep_modPc) | (with_reducible apply keep_raise)
                 | (with_reducible apply keep_logD) | (with_reducible apply keep_failReads) | split | (dsimp only)
                 | (with_reducible refine keep_mk ?_ rfl rfl rfl rfl rfl rfl rfl rfl rfl ?_ ?_ ?_ ?_ ?_ ?_ ?_ ?_ ?_ ?_ ?_ ?_ ?_ ?_ ?_ ?_ ?_ ?_))

theorem keep_hbmReadIssue {P : Area → Prop} {z : State} {s : State} {a_d : Nat} {a_c : Nat} (h : Keeps P z s)
    (khbmUnits : P .hbmUnits := by assumption) :
    Keeps P z (hbmReadIssue s a_d a_c) := by
  unfold hbmReadIssue
  repeat' (first | (with_reducible assumption) | (exact Or.inl (by assumption)) | (exact Or.inr rfl)
                 | (exact Or.inr ⟨rfl, rfl, rfl, rfl⟩) | (intro)
                 | (extract_lets +onlyGivenNames y; refine keep_cut (y := y) ?_ ?_; (focus (dsimp only [y]; clear y)); rotate_left; (focus (clear_value y; revert y; intro _ _)))
                 | (extract_lets +onlyGivenNames y; refine keep_cut1 (y := y) ?_ ?_; (focus (dsimp only [y]; clear y)); rotate_left; (focus (clear_value y; revert y; intro _ _)))
                 | (extract_lets +onlyGivenNames y; refine keep_cut2 (y := y) ?_ ?_; (focus (dsimp only [y]; clear y)); rotate_left; (focus (clear_value y; revert y; intro _ _)))
                 | (extract_lets +onlyGivenNames y; clear_value y; revert y; intro _) | (with_reducible apply keep_countAccess)
                 | (with_reducible apply keep_modPc) | (with_reducible refine keep_ite ?_ ?_) | split | (dsimp only)
                 | (with_reducible refine keep_mk ?_ rfl rfl rfl rfl rfl rfl rfl rfl rfl ?_ ?_ ?_ ?_ ?_ ?_ ?_ ?_ ?_ ?_ ?_ ?_ ?_ ?_ ?_ ?_ ?_ ?_))

theorem keep_execHbmReadIssue {P : Area → Prop} {z : State} {a_d : Nat} {a_c : Nat} {s : State} (h : Keeps P z s)
    (khbmUnits : P .hbmUnits := by assumption) :
    ∀ t, execHbmReadIssue a_d a_c s = .next t → Keeps P z t := by
  unfold execHbmReadIssue; intro t e; injection e with e; subst e
  repeat' (first | (with_reducible assumption) | (intro) | (with_reducible apply keep_hbmReadIssue) | split | (dsimp only))

theorem keep_hbmWriteIssue {P : Area → Prop} {z : State} {s : State} {a_d : Nat} {a_c : Nat} (h : Keeps P z s)
    (khbm : P .hbm := by assumption) (khbmUnits : P .hbmUnits := by assumption) :
    Keeps P z (hbmWriteIssue s a_d a_c) := by
  unfold hbmWriteIssue
  repeat' (first | (with_reducible assumption) | (exact Or.inl (by assumption)) | (exact Or.inr rfl)
                 | (exact Or.inr ⟨rfl, rfl, rfl, rfl⟩) | (intro)
                 | (extract_lets +onlyGivenNames y; refine keep_cut (y := y) ?_ ?_; (focus (dsimp only [y]; clear y)); rotate_left; (focus (clear_value y; revert y; intro _ _)))
                 | (extract_lets +onlyGivenNames y; refine keep_cut1 (y := y) ?_ ?_; (focus (dsimp only [y]; clear y)); rotate_left; (focus (clear_value y; revert y; intro _ _)))
                 | (extract_lets +onlyGivenNames y; refine keep_cut2 (y := y) ?_ ?_; (focus (dsimp only [y]; clear y)); rotate_left; (focus (clear_value y; revert y; intro _ _)))
                 | (extract_lets +onlyGivenNames y; clear_value y; revert y; intro _) | (with_reducible apply keep_issueWrite)
                 | (with_reducible apply keep_modPc) | (with_reducible refine keep_ite ?_ ?_) | split | (dsimp only)
                 | (with_reducible refine keep_mk ?_ rfl rfl rfl rfl rfl rfl rfl rfl rfl ?_ ?_ ?_ ?_ ?_ ?_ ?_ ?_ ?_ ?_ ?_ ?_ ?_ ?_ ?_ ?_ ?_ ?_))

theorem keep_execHbmWriteIssue {P : Area → Prop} {z : State} {a_d : Nat} {a_c : Nat} {s : State} (h : Keeps P z s)
    (khbm : P .hbm := by assumption) (khbmUnits : P .hbmUnits := by assumption) :
    ∀ t, execHbmWriteIssue a_d a_c s = .next t → Keeps P z t := by
  unfold execHbmWriteIssue; intro t e; injection e with e; subst e
  repeat' (first | (with_reducible assumption) | (intro) | (with_reducible apply keep_hbmWriteIssue) | split | (dsimp only))

theorem keep_fillBack {P : Area → Prop} {z : State} {s : State} {a_id : Nat} (h : Keeps P z s)
    (khbmUnits : P .hbmUnits := by assumption) :
    Keeps P z (fillBack s a_id) := by
  unfold fillBack
  repeat' (first | (with_reducible assumption) | (exact fun _ h => h) | (exact Or.inl (by assumption)) | (exact Or.inr rfl)
                 | (exact Or.inr ⟨rfl, rfl, rfl, rfl⟩) | (intro)
                 | (extract_lets +onlyGivenNames y; refine keep_cut (y := y) ?_ ?_; (focus (dsimp only [y]; clear y)); rotate_left; (focus (clear_value y; revert y; intro _ _)))
                 | (extract_lets +onlyGivenNames y; refine keep_cut1 (y := y) ?_ ?_; (focus (dsimp only [y]; clear y)); rotate_left; (focus (clear_value y; revert y; intro _ _)))
                 | (extract_lets +onlyGivenNames y; refine keep_cut2 (y := y) ?_ ?_; (focus (dsimp only [y]; clear y)); rotate_left; (focus (clear_value y; revert y; intro _ _)))
                 | (extract_lets +onlyGivenNames y; have q : Hbm := y; clear q; dsimp only [y]; clear y)
                 | (extract_lets +onlyGivenNames y; clear_value y; revert y; intro _) | (with_reducible refine keep_ite ?_ ?_)
                 | split | (dsimp only)
                 | (with_reducible refine keep_mk ?_ rfl rfl rfl rfl rfl rfl rfl rfl rfl ?_ ?_ ?_ ?_ ?_ ?_ ?_ ?_ ?_ ?_ ?_ ?_ ?_ ?_ ?_ ?_ ?_ ?_))

theorem keep_hbmReadReturn {P : Area → Prop} {z : State} {s : State} {a_d : Nat} {a_c : Nat} {a_outcome : Nat}
    {a_syn : Nat} (h : Keeps P z s) (kfabric : P .fabric := by assumption) (kdests : P .dests := by assumption)
    (krings : P .rings := by assumption) (khbmUnits : P .hbmUnits := by assumption) (ktwins : P .twins := by assumption)
    (klog : P .log := by assumption) :
    Keeps P z (hbmReadReturn s a_d a_c a_outcome a_syn) := by
  unfold hbmReadReturn
  repeat' (first | (with_reducible assumption) | (exact fun _ h => h) | (exact Or.inl (by assumption)) | (exact Or.inr rfl)
                 | (exact Or.inr ⟨rfl, rfl, rfl, rfl⟩) | (intro)
                 | (extract_lets +onlyGivenNames y; refine keep_cut (y := y) ?_ ?_; (focus (dsimp only [y]; clear y)); rotate_left; (focus (clear_value y; revert y; intro _ _)))
                 | (extract_lets +onlyGivenNames y; refine keep_cut1 (y := y) ?_ ?_; (focus (dsimp only [y]; clear y)); rotate_left; (focus (clear_value y; revert y; intro _ _)))
                 | (extract_lets +onlyGivenNames y; refine keep_cut2 (y := y) ?_ ?_; (focus (dsimp only [y]; clear y)); rotate_left; (focus (clear_value y; revert y; intro _ _)))
                 | (extract_lets +onlyGivenNames y; clear_value y; revert y; intro _) | (with_reducible apply keep_modPc)
                 | (with_reducible apply keep_fillBack) | (with_reducible apply keep_raise) | (with_reducible apply keep_satF)
                 | (with_reducible apply keep_countAccess) | (with_reducible apply keep_freezePc)
                 | (with_reducible apply keep_failFill) | (with_reducible refine keep_ite ?_ ?_) | split | (dsimp only)
                 | (with_reducible refine keep_mk ?_ rfl rfl rfl rfl rfl rfl rfl rfl rfl ?_ ?_ ?_ ?_ ?_ ?_ ?_ ?_ ?_ ?_ ?_ ?_ ?_ ?_ ?_ ?_ ?_ ?_))

theorem keep_execHbmReadReturn {P : Area → Prop} {z : State} {a_d : Nat} {a_c : Nat} {a_outcome : Nat} {a_syn : Nat}
    {s : State} (h : Keeps P z s) (kfabric : P .fabric := by assumption) (kdests : P .dests := by assumption)
    (krings : P .rings := by assumption) (khbmUnits : P .hbmUnits := by assumption) (ktwins : P .twins := by assumption)
    (klog : P .log := by assumption) :
    ∀ t, execHbmReadReturn a_d a_c a_outcome a_syn s = .next t → Keeps P z t := by
  unfold execHbmReadReturn; intro t e; injection e with e; subst e
  repeat' (first | (with_reducible assumption) | (intro) | (with_reducible apply keep_hbmReadReturn) | split | (dsimp only))

theorem keep_hbmParityError {P : Area → Prop} {z : State} {s : State} {a_d : Nat} {a_c : Nat} (h : Keeps P z s)
    (kfabric : P .fabric := by assumption) (kdests : P .dests := by assumption) (krings : P .rings := by assumption)
    (khbmUnits : P .hbmUnits := by assumption) (ktwins : P .twins := by assumption) (klog : P .log := by assumption) :
    Keeps P z (hbmParityError s a_d a_c) := by
  unfold hbmParityError
  repeat' (first | (with_reducible assumption) | (exact Or.inl (by assumption)) | (exact Or.inr rfl)
                 | (exact Or.inr ⟨rfl, rfl, rfl, rfl⟩) | (intro)
                 | (extract_lets +onlyGivenNames y; refine keep_cut (y := y) ?_ ?_; (focus (dsimp only [y]; clear y)); rotate_left; (focus (clear_value y; revert y; intro _ _)))
                 | (extract_lets +onlyGivenNames y; refine keep_cut1 (y := y) ?_ ?_; (focus (dsimp only [y]; clear y)); rotate_left; (focus (clear_value y; revert y; intro _ _)))
                 | (extract_lets +onlyGivenNames y; refine keep_cut2 (y := y) ?_ ?_; (focus (dsimp only [y]; clear y)); rotate_left; (focus (clear_value y; revert y; intro _ _)))
                 | (extract_lets +onlyGivenNames y; clear_value y; revert y; intro _) | (with_reducible apply keep_freezePc)
                 | (with_reducible refine keep_ite ?_ ?_) | split | (dsimp only)
                 | (with_reducible refine keep_mk ?_ rfl rfl rfl rfl rfl rfl rfl rfl rfl ?_ ?_ ?_ ?_ ?_ ?_ ?_ ?_ ?_ ?_ ?_ ?_ ?_ ?_ ?_ ?_ ?_ ?_))

theorem keep_execHbmParityError {P : Area → Prop} {z : State} {a_d : Nat} {a_c : Nat} {s : State} (h : Keeps P z s)
    (kfabric : P .fabric := by assumption) (kdests : P .dests := by assumption) (krings : P .rings := by assumption)
    (khbmUnits : P .hbmUnits := by assumption) (ktwins : P .twins := by assumption) (klog : P .log := by assumption) :
    ∀ t, execHbmParityError a_d a_c s = .next t → Keeps P z t := by
  unfold execHbmParityError; intro t e; injection e with e; subst e
  repeat' (first | (with_reducible assumption) | (intro) | (with_reducible apply keep_hbmParityError) | split | (dsimp only))

theorem keep_hbmWriteCrcError {P : Area → Prop} {z : State} {s : State} {a_d : Nat} {a_c : Nat} (h : Keeps P z s)
    (kfabric : P .fabric := by assumption) (kdests : P .dests := by assumption) (krings : P .rings := by assumption)
    (khbmUnits : P .hbmUnits := by assumption) (ktwins : P .twins := by assumption) (klog : P .log := by assumption) :
    Keeps P z (hbmWriteCrcError s a_d a_c) := by
  unfold hbmWriteCrcError
  repeat' (first | (with_reducible assumption) | (exact Or.inl (by assumption)) | (exact Or.inr rfl)
                 | (exact Or.inr ⟨rfl, rfl, rfl, rfl⟩) | (intro)
                 | (extract_lets +onlyGivenNames y; refine keep_cut (y := y) ?_ ?_; (focus (dsimp only [y]; clear y)); rotate_left; (focus (clear_value y; revert y; intro _ _)))
                 | (extract_lets +onlyGivenNames y; refine keep_cut1 (y := y) ?_ ?_; (focus (dsimp only [y]; clear y)); rotate_left; (focus (clear_value y; revert y; intro _ _)))
                 | (extract_lets +onlyGivenNames y; refine keep_cut2 (y := y) ?_ ?_; (focus (dsimp only [y]; clear y)); rotate_left; (focus (clear_value y; revert y; intro _ _)))
                 | (extract_lets +onlyGivenNames y; clear_value y; revert y; intro _) | (with_reducible apply keep_satF)
                 | (with_reducible apply keep_modPc) | (with_reducible apply keep_freezePc)
                 | (with_reducible refine keep_ite ?_ ?_) | split | (dsimp only)
                 | (with_reducible refine keep_mk ?_ rfl rfl rfl rfl rfl rfl rfl rfl rfl ?_ ?_ ?_ ?_ ?_ ?_ ?_ ?_ ?_ ?_ ?_ ?_ ?_ ?_ ?_ ?_ ?_ ?_))

theorem keep_execHbmWriteCrcError {P : Area → Prop} {z : State} {a_d : Nat} {a_c : Nat} {s : State} (h : Keeps P z s)
    (kfabric : P .fabric := by assumption) (kdests : P .dests := by assumption) (krings : P .rings := by assumption)
    (khbmUnits : P .hbmUnits := by assumption) (ktwins : P .twins := by assumption) (klog : P .log := by assumption) :
    ∀ t, execHbmWriteCrcError a_d a_c s = .next t → Keeps P z t := by
  unfold execHbmWriteCrcError; intro t e; injection e with e; subst e
  repeat' (first | (with_reducible assumption) | (intro) | (with_reducible apply keep_hbmWriteCrcError) | split | (dsimp only))

theorem keep_invalidatePc {P : Area → Prop} {z : State} {s : State} {a_d : Nat} {a_c : Nat} (h : Keeps P z s)
    (krings : P .rings := by assumption) (khbmUnits : P .hbmUnits := by assumption) (ktwins : P .twins := by assumption)
    (klog : P .log := by assumption) :
    Keeps P z (invalidatePc s a_d a_c) := by
  unfold invalidatePc
  repeat' (first | (with_reducible assumption) | (exact Or.inl (by assumption)) | (exact Or.inr rfl)
                 | (exact Or.inr ⟨rfl, rfl, rfl, rfl⟩) | (intro)
                 | (extract_lets +onlyGivenNames y; refine keep_cut (y := y) ?_ ?_; (focus (dsimp only [y]; clear y)); rotate_left; (focus (clear_value y; revert y; intro _ _)))
                 | (extract_lets +onlyGivenNames y; refine keep_cut1 (y := y) ?_ ?_; (focus (dsimp only [y]; clear y)); rotate_left; (focus (clear_value y; revert y; intro _ _)))
                 | (extract_lets +onlyGivenNames y; refine keep_cut2 (y := y) ?_ ?_; (focus (dsimp only [y]; clear y)); rotate_left; (focus (clear_value y; revert y; intro _ _)))
                 | (extract_lets +onlyGivenNames y; have q : (_ : _) → _ := y; clear q; dsimp only [y]; clear y)
                 | (extract_lets +onlyGivenNames y; clear_value y; revert y; intro _) | (with_reducible apply keep_modSpc)
                 | (with_reducible apply keep_raise) | (with_reducible apply keep_satF) | (with_reducible apply keep_logD)
                 | (with_reducible refine keep_ite ?_ ?_) | split | (dsimp only)
                 | (with_reducible refine keep_mk ?_ rfl rfl rfl rfl rfl rfl rfl rfl rfl ?_ ?_ ?_ ?_ ?_ ?_ ?_ ?_ ?_ ?_ ?_ ?_ ?_ ?_ ?_ ?_ ?_ ?_))

theorem keep_fencePc {P : Area → Prop} {z : State} {s : State} {a_d : Nat} {a_c : Nat} {a_cause : Nat} (h : Keeps P z s)
    (khbm : P .hbm := by assumption) (kfabric : P .fabric := by assumption) (kdests : P .dests := by assumption)
    (krings : P .rings := by assumption) (khbmUnits : P .hbmUnits := by assumption) (ktwins : P .twins := by assumption)
    (klog : P .log := by assumption) :
    Keeps P z (fencePc s a_d a_c a_cause) := by
  unfold fencePc
  repeat' (first | (with_reducible assumption) | (exact Or.inl (by assumption)) | (exact Or.inr rfl)
                 | (exact Or.inr ⟨rfl, rfl, rfl, rfl⟩) | (intro)
                 | (extract_lets +onlyGivenNames y; refine keep_cut (y := y) ?_ ?_; (focus (dsimp only [y]; clear y)); rotate_left; (focus (clear_value y; revert y; intro _ _)))
                 | (extract_lets +onlyGivenNames y; refine keep_cut1 (y := y) ?_ ?_; (focus (dsimp only [y]; clear y)); rotate_left; (focus (clear_value y; revert y; intro _ _)))
                 | (extract_lets +onlyGivenNames y; refine keep_cut2 (y := y) ?_ ?_; (focus (dsimp only [y]; clear y)); rotate_left; (focus (clear_value y; revert y; intro _ _)))
                 | (extract_lets +onlyGivenNames y; have q : Hbm := y; clear q; dsimp only [y]; clear y)
                 | (extract_lets +onlyGivenNames y; clear_value y; revert y; intro _) | (with_reducible apply keep_setF)
                 | (with_reducible apply keep_noteSusp) | (with_reducible apply keep_failReads)
                 | (with_reducible apply keep_modPc) | (with_reducible apply keep_raise) | (with_reducible apply keep_logD)
                 | (with_reducible apply keep_invalidatePc) | (with_reducible apply keep_undefine)
                 | (with_reducible refine keep_ite ?_ ?_) | split | (dsimp only) | (exact by decide) | (show P _; assumption)
                 | (exact memArea_of ‹_› ‹_› ‹_›)
                 | (with_reducible refine keep_mk ?_ rfl rfl rfl rfl rfl rfl rfl rfl rfl ?_ ?_ ?_ ?_ ?_ ?_ ?_ ?_ ?_ ?_ ?_ ?_ ?_ ?_ ?_ ?_ ?_ ?_))

theorem keep_hbmChannelReset {P : Area → Prop} {z : State} {s : State} {a_d : Nat} {a_c : Nat} (h : Keeps P z s)
    (kfabric : P .fabric := by assumption) (krings : P .rings := by assumption)
    (khbmUnits : P .hbmUnits := by assumption) (ktwins : P .twins := by assumption) (klog : P .log := by assumption) :
    Keeps P z (hbmChannelReset s a_d a_c) := by
  unfold hbmChannelReset
  repeat' (first | (with_reducible assumption) | (exact Or.inl (by assumption)) | (exact Or.inr rfl)
                 | (exact Or.inr ⟨rfl, rfl, rfl, rfl⟩) | (intro)
                 | (extract_lets +onlyGivenNames y; refine keep_cut (y := y) ?_ ?_; (focus (dsimp only [y]; clear y)); rotate_left; (focus (clear_value y; revert y; intro _ _)))
                 | (extract_lets +onlyGivenNames y; refine keep_cut1 (y := y) ?_ ?_; (focus (dsimp only [y]; clear y)); rotate_left; (focus (clear_value y; revert y; intro _ _)))
                 | (extract_lets +onlyGivenNames y; refine keep_cut2 (y := y) ?_ ?_; (focus (dsimp only [y]; clear y)); rotate_left; (focus (clear_value y; revert y; intro _ _)))
                 | (extract_lets +onlyGivenNames y; clear_value y; revert y; intro _) | (with_reducible apply keep_setF)
                 | (with_reducible apply keep_failReads) | (with_reducible apply keep_modPc) | (with_reducible apply keep_logD)
                 | (with_reducible apply keep_raise) | (with_reducible refine keep_ite ?_ ?_) | split | (dsimp only)
                 | (with_reducible refine keep_mk ?_ rfl rfl rfl rfl rfl rfl rfl rfl rfl ?_ ?_ ?_ ?_ ?_ ?_ ?_ ?_ ?_ ?_ ?_ ?_ ?_ ?_ ?_ ?_ ?_ ?_))

theorem keep_execHbmChannelReset {P : Area → Prop} {z : State} {a_d : Nat} {a_c : Nat} {s : State} (h : Keeps P z s)
    (kfabric : P .fabric := by assumption) (krings : P .rings := by assumption)
    (khbmUnits : P .hbmUnits := by assumption) (ktwins : P .twins := by assumption) (klog : P .log := by assumption) :
    ∀ t, execHbmChannelReset a_d a_c s = .next t → Keeps P z t := by
  unfold execHbmChannelReset; intro t e; injection e with e; subst e
  repeat' (first | (with_reducible assumption) | (intro) | (with_reducible apply keep_hbmChannelReset) | split | (dsimp only))

theorem keep_releaseHeld {P : Area → Prop} {z : State} {s : State} {a_d : Nat} {a_c : Nat} (h : Keeps P z s)
    (khbm : P .hbm := by assumption) (khbmUnits : P .hbmUnits := by assumption) :
    Keeps P z (releaseHeld s a_d a_c) := by
  unfold releaseHeld
  repeat' (first | (with_reducible assumption) | (exact Or.inl (by assumption)) | (exact Or.inr rfl)
                 | (exact Or.inr ⟨rfl, rfl, rfl, rfl⟩) | (intro)
                 | (extract_lets +onlyGivenNames y; refine keep_cut (y := y) ?_ ?_; (focus (dsimp only [y]; clear y)); rotate_left; (focus (clear_value y; revert y; intro _ _)))
                 | (extract_lets +onlyGivenNames y; refine keep_cut1 (y := y) ?_ ?_; (focus (dsimp only [y]; clear y)); rotate_left; (focus (clear_value y; revert y; intro _ _)))
                 | (extract_lets +onlyGivenNames y; refine keep_cut2 (y := y) ?_ ?_; (focus (dsimp only [y]; clear y)); rotate_left; (focus (clear_value y; revert y; intro _ _)))
                 | (extract_lets +onlyGivenNames y; have q : (_ : _) → _ := y; clear q; dsimp only [y]; clear y)
                 | (extract_lets +onlyGivenNames y; clear_value y; revert y; intro _) | (with_reducible apply keep_writeBack)
                 | (with_reducible apply keep_modSpc) | (with_reducible apply keep_foldl) | (with_reducible apply keep_foldl1)
                 | split | (dsimp only)
                 | (with_reducible refine keep_mk ?_ rfl rfl rfl rfl rfl rfl rfl rfl rfl ?_ ?_ ?_ ?_ ?_ ?_ ?_ ?_ ?_ ?_ ?_ ?_ ?_ ?_ ?_ ?_ ?_ ?_))

theorem keep_retrained {P : Area → Prop} {z : State} {s : State} {a_d : Nat} {a_c : Nat} (h : Keeps P z s) :
    Keeps P z (retrained s a_d a_c) := by
  unfold retrained
  repeat' (first | (with_reducible assumption) | (intro)
                 | (extract_lets +onlyGivenNames y; refine keep_cut (y := y) ?_ ?_; (focus (dsimp only [y]; clear y)); rotate_left; (focus (clear_value y; revert y; intro _ _)))
                 | (extract_lets +onlyGivenNames y; refine keep_cut1 (y := y) ?_ ?_; (focus (dsimp only [y]; clear y)); rotate_left; (focus (clear_value y; revert y; intro _ _)))
                 | (extract_lets +onlyGivenNames y; refine keep_cut2 (y := y) ?_ ?_; (focus (dsimp only [y]; clear y)); rotate_left; (focus (clear_value y; revert y; intro _ _)))
                 | (extract_lets +onlyGivenNames y; clear_value y; revert y; intro _) | (with_reducible apply keep_fresh)
                 | (with_reducible apply keep_addF) | (with_reducible apply keep_setF) | (with_reducible refine keep_ite ?_ ?_)
                 | split | (dsimp only))

theorem keep_hbmChannelResetDone {P : Area → Prop} {z : State} {s : State} {a_d : Nat} {a_c : Nat} {a_pass : Bool}
    (h : Keeps P z s) (khbm : P .hbm := by assumption) (kfabric : P .fabric := by assumption)
    (kdests : P .dests := by assumption) (krings : P .rings := by assumption) (khbmUnits : P .hbmUnits := by assumption)
    (ktwins : P .twins := by assumption) (klog : P .log := by assumption) :
    Keeps P z (hbmChannelResetDone s a_d a_c a_pass) := by
  unfold hbmChannelResetDone
  repeat' (first | (with_reducible assumption) | (exact Or.inl (by assumption)) | (exact Or.inr rfl)
                 | (exact Or.inr ⟨rfl, rfl, rfl, rfl⟩) | (intro)
                 | (extract_lets +onlyGivenNames y; refine keep_cut (y := y) ?_ ?_; (focus (dsimp only [y]; clear y)); rotate_left; (focus (clear_value y; revert y; intro _ _)))
                 | (extract_lets +onlyGivenNames y; refine keep_cut1 (y := y) ?_ ?_; (focus (dsimp only [y]; clear y)); rotate_left; (focus (clear_value y; revert y; intro _ _)))
                 | (extract_lets +onlyGivenNames y; refine keep_cut2 (y := y) ?_ ?_; (focus (dsimp only [y]; clear y)); rotate_left; (focus (clear_value y; revert y; intro _ _)))
                 | (extract_lets +onlyGivenNames y; have q : Hbm := y; clear q; dsimp only [y]; clear y)
                 | (extract_lets +onlyGivenNames y; clear_value y; revert y; intro _) | (with_reducible apply keep_setF)
                 | (with_reducible apply keep_fencePc) | (with_reducible apply keep_retrained)
                 | (with_reducible apply keep_releaseHeld) | (with_reducible refine keep_ite ?_ ?_) | split | (dsimp only)
                 | (with_reducible refine keep_mk ?_ rfl rfl rfl rfl rfl rfl rfl rfl rfl ?_ ?_ ?_ ?_ ?_ ?_ ?_ ?_ ?_ ?_ ?_ ?_ ?_ ?_ ?_ ?_ ?_ ?_))

theorem keep_execHbmChannelResetDone {P : Area → Prop} {z : State} {a_d : Nat} {a_c : Nat} {a_pass : Bool} {s : State}
    (h : Keeps P z s) (khbm : P .hbm := by assumption) (kfabric : P .fabric := by assumption)
    (kdests : P .dests := by assumption) (krings : P .rings := by assumption) (khbmUnits : P .hbmUnits := by assumption)
    (ktwins : P .twins := by assumption) (klog : P .log := by assumption) :
    ∀ t, execHbmChannelResetDone a_d a_c a_pass s = .next t → Keeps P z t := by
  unfold execHbmChannelResetDone; intro t e; injection e with e; subst e
  repeat' (first | (with_reducible assumption) | (intro) | (with_reducible apply keep_hbmChannelResetDone) | split
                 | (dsimp only))

theorem keep_hbmFence {P : Area → Prop} {z : State} {s : State} {a_d : Nat} {a_c : Nat} {a_set : Bool} (h : Keeps P z s)
    (khbm : P .hbm := by assumption) (kfabric : P .fabric := by assumption) (kdests : P .dests := by assumption)
    (krings : P .rings := by assumption) (khbmUnits : P .hbmUnits := by assumption) (ktwins : P .twins := by assumption)
    (klog : P .log := by assumption) :
    Keeps P z (hbmFence s a_d a_c a_set) := by
  unfold hbmFence
  repeat' (first | (with_reducible assumption) | (intro)
                 | (extract_lets +onlyGivenNames y; refine keep_cut (y := y) ?_ ?_; (focus (dsimp only [y]; clear y)); rotate_left; (focus (clear_value y; revert y; intro _ _)))
                 | (extract_lets +onlyGivenNames y; refine keep_cut1 (y := y) ?_ ?_; (focus (dsimp only [y]; clear y)); rotate_left; (focus (clear_value y; revert y; intro _ _)))
                 | (extract_lets +onlyGivenNames y; refine keep_cut2 (y := y) ?_ ?_; (focus (dsimp only [y]; clear y)); rotate_left; (focus (clear_value y; revert y; intro _ _)))
                 | (extract_lets +onlyGivenNames y; clear_value y; revert y; intro _) | (with_reducible apply keep_setF)
                 | (with_reducible apply keep_fencePc) | (with_reducible apply keep_hbmChannelReset)
                 | (with_reducible refine keep_ite ?_ ?_) | split | (dsimp only))

theorem keep_execHbmFence {P : Area → Prop} {z : State} {a_d : Nat} {a_c : Nat} {a_set : Bool} {s : State}
    (h : Keeps P z s) (khbm : P .hbm := by assumption) (kfabric : P .fabric := by assumption)
    (kdests : P .dests := by assumption) (krings : P .rings := by assumption) (khbmUnits : P .hbmUnits := by assumption)
    (ktwins : P .twins := by assumption) (klog : P .log := by assumption) :
    ∀ t, execHbmFence a_d a_c a_set s = .next t → Keeps P z t := by
  unfold execHbmFence; intro t e; injection e with e; subst e
  repeat' (first | (with_reducible assumption) | (intro) | (with_reducible apply keep_hbmFence) | split | (dsimp only))

theorem keep_setTrain {P : Area → Prop} {z : State} {s : State} {a_d : Nat} {a_x : Option Nat} (h : Keeps P z s)
    (khbmUnits : P .hbmUnits := by assumption) :
    Keeps P z (setTrain s a_d a_x) := by
  unfold setTrain
  repeat' (first | (with_reducible assumption) | (exact Or.inl (by assumption)) | (exact Or.inr rfl)
                 | (exact Or.inr ⟨rfl, rfl, rfl, rfl⟩) | (intro)
                 | (extract_lets +onlyGivenNames y; refine keep_cut (y := y) ?_ ?_; (focus (dsimp only [y]; clear y)); rotate_left; (focus (clear_value y; revert y; intro _ _)))
                 | (extract_lets +onlyGivenNames y; refine keep_cut1 (y := y) ?_ ?_; (focus (dsimp only [y]; clear y)); rotate_left; (focus (clear_value y; revert y; intro _ _)))
                 | (extract_lets +onlyGivenNames y; refine keep_cut2 (y := y) ?_ ?_; (focus (dsimp only [y]; clear y)); rotate_left; (focus (clear_value y; revert y; intro _ _)))
                 | (extract_lets +onlyGivenNames y; have q : Hbm := y; clear q; dsimp only [y]; clear y)
                 | (extract_lets +onlyGivenNames y; clear_value y; revert y; intro _) | (with_reducible apply keep_setF) | split
                 | (dsimp only)
                 | (with_reducible refine keep_mk ?_ rfl rfl rfl rfl rfl rfl rfl rfl rfl ?_ ?_ ?_ ?_ ?_ ?_ ?_ ?_ ?_ ?_ ?_ ?_ ?_ ?_ ?_ ?_ ?_ ?_))

theorem keep_trainTo {P : Area → Prop} {z : State} {s : State} {a_d : Nat} {a_c : Nat} {a_setting : Nat} {a_margin : Nat}
    (h : Keeps P z s) (krings : P .rings := by assumption) :
    Keeps P z (trainTo s a_d a_c a_setting a_margin) := by
  unfold trainTo
  repeat' (first | (with_reducible assumption) | (intro)
                 | (extract_lets +onlyGivenNames y; refine keep_cut (y := y) ?_ ?_; (focus (dsimp only [y]; clear y)); rotate_left; (focus (clear_value y; revert y; intro _ _)))
                 | (extract_lets +onlyGivenNames y; refine keep_cut1 (y := y) ?_ ?_; (focus (dsimp only [y]; clear y)); rotate_left; (focus (clear_value y; revert y; intro _ _)))
                 | (extract_lets +onlyGivenNames y; refine keep_cut2 (y := y) ?_ ?_; (focus (dsimp only [y]; clear y)); rotate_left; (focus (clear_value y; revert y; intro _ _)))
                 | (extract_lets +onlyGivenNames y; clear_value y; revert y; intro _) | (with_reducible apply keep_raise)
                 | (with_reducible apply keep_addF) | (with_reducible apply keep_setF) | (with_reducible refine keep_ite ?_ ?_)
                 | split | (dsimp only))

theorem keep_trainApply {P : Area → Prop} {z : State} {s : State} {a_d : Nat} (h : Keeps P z s)
    (krings : P .rings := by assumption) (khbmUnits : P .hbmUnits := by assumption) :
    Keeps P z (trainApply s a_d) := by
  unfold trainApply
  repeat' (first | (with_reducible assumption) | (exact Or.inl (by assumption)) | (exact Or.inr rfl)
                 | (exact Or.inr ⟨rfl, rfl, rfl, rfl⟩) | (intro)
                 | (extract_lets +onlyGivenNames y; refine keep_cut (y := y) ?_ ?_; (focus (dsimp only [y]; clear y)); rotate_left; (focus (clear_value y; revert y; intro _ _)))
                 | (extract_lets +onlyGivenNames y; refine keep_cut1 (y := y) ?_ ?_; (focus (dsimp only [y]; clear y)); rotate_left; (focus (clear_value y; revert y; intro _ _)))
                 | (extract_lets +onlyGivenNames y; refine keep_cut2 (y := y) ?_ ?_; (focus (dsimp only [y]; clear y)); rotate_left; (focus (clear_value y; revert y; intro _ _)))
                 | (extract_lets +onlyGivenNames y; have q : Hbm := y; clear q; dsimp only [y]; clear y)
                 | (extract_lets +onlyGivenNames y; clear_value y; revert y; intro _) | (with_reducible apply keep_trainTo)
                 | (with_reducible refine keep_ite ?_ ?_) | split | (dsimp only)
                 | (with_reducible refine keep_mk ?_ rfl rfl rfl rfl rfl rfl rfl rfl rfl ?_ ?_ ?_ ?_ ?_ ?_ ?_ ?_ ?_ ?_ ?_ ?_ ?_ ?_ ?_ ?_ ?_ ?_))

theorem keep_trainStep {P : Area → Prop} {z : State} {s : State} {a_d : Nat} {a_k : Nat} {a_setting : Nat}
    {a_margin : Nat} {a_ok : Bool} (h : Keeps P z s) (khbm : P .hbm := by assumption)
    (kfabric : P .fabric := by assumption) (kdests : P .dests := by assumption) (krings : P .rings := by assumption)
    (khbmUnits : P .hbmUnits := by assumption) (ktwins : P .twins := by assumption) (klog : P .log := by assumption) :
    Keeps P z (trainStep s a_d a_k a_setting a_margin a_ok) := by
  unfold trainStep
  repeat' (first | (with_reducible assumption) | (exact Or.inl (by assumption)) | (exact Or.inr rfl)
                 | (exact Or.inr ⟨rfl, rfl, rfl, rfl⟩) | (intro)
                 | (extract_lets +onlyGivenNames y; refine keep_cut (y := y) ?_ ?_; (focus (dsimp only [y]; clear y)); rotate_left; (focus (clear_value y; revert y; intro _ _)))
                 | (extract_lets +onlyGivenNames y; refine keep_cut1 (y := y) ?_ ?_; (focus (dsimp only [y]; clear y)); rotate_left; (focus (clear_value y; revert y; intro _ _)))
                 | (extract_lets +onlyGivenNames y; refine keep_cut2 (y := y) ?_ ?_; (focus (dsimp only [y]; clear y)); rotate_left; (focus (clear_value y; revert y; intro _ _)))
                 | (extract_lets +onlyGivenNames y; have q : Hbm := y; clear q; dsimp only [y]; clear y)
                 | (extract_lets +onlyGivenNames y; clear_value y; revert y; intro _) | (with_reducible apply keep_setTrain)
                 | (with_reducible apply keep_fencePc) | (with_reducible apply keep_setF)
                 | (with_reducible refine keep_ite ?_ ?_) | split | (dsimp only)
                 | (with_reducible refine keep_mk ?_ rfl rfl rfl rfl rfl rfl rfl rfl rfl ?_ ?_ ?_ ?_ ?_ ?_ ?_ ?_ ?_ ?_ ?_ ?_ ?_ ?_ ?_ ?_ ?_ ?_))

theorem keep_refreshWindow {P : Area → Prop} {z : State} {s : State} {a_d : Nat} {a_setting : Nat} {a_margin : Nat}
    {a_ok : Bool} (h : Keeps P z s) (khbm : P .hbm := by assumption) (kfabric : P .fabric := by assumption)
    (kdests : P .dests := by assumption) (krings : P .rings := by assumption) (khbmUnits : P .hbmUnits := by assumption)
    (ktwins : P .twins := by assumption) (klog : P .log := by assumption) :
    Keeps P z (refreshWindow s a_d a_setting a_margin a_ok) := by
  unfold refreshWindow
  repeat' (first | (with_reducible assumption) | (exact Or.inl (by assumption)) | (exact Or.inr rfl)
                 | (exact Or.inr ⟨rfl, rfl, rfl, rfl⟩) | (intro)
                 | (extract_lets +onlyGivenNames y; refine keep_cut (y := y) ?_ ?_; (focus (dsimp only [y]; clear y)); rotate_left; (focus (clear_value y; revert y; intro _ _)))
                 | (extract_lets +onlyGivenNames y; refine keep_cut1 (y := y) ?_ ?_; (focus (dsimp only [y]; clear y)); rotate_left; (focus (clear_value y; revert y; intro _ _)))
                 | (extract_lets +onlyGivenNames y; refine keep_cut2 (y := y) ?_ ?_; (focus (dsimp only [y]; clear y)); rotate_left; (focus (clear_value y; revert y; intro _ _)))
                 | (extract_lets +onlyGivenNames y; clear_value y; revert y; intro _) | (with_reducible apply keep_trainApply)
                 | (with_reducible apply keep_addF) | (with_reducible apply keep_trainStep)
                 | (with_reducible apply keep_setTrain) | (with_reducible refine keep_ite ?_ ?_) | split | (dsimp only)
                 | (with_reducible refine keep_mk ?_ rfl rfl rfl rfl rfl rfl rfl rfl rfl ?_ ?_ ?_ ?_ ?_ ?_ ?_ ?_ ?_ ?_ ?_ ?_ ?_ ?_ ?_ ?_ ?_ ?_))

theorem keep_execRefreshWindow {P : Area → Prop} {z : State} {a_d : Nat} {a_setting : Nat} {a_margin : Nat} {a_ok : Bool}
    {s : State} (h : Keeps P z s) (khbm : P .hbm := by assumption) (kfabric : P .fabric := by assumption)
    (kdests : P .dests := by assumption) (krings : P .rings := by assumption) (khbmUnits : P .hbmUnits := by assumption)
    (ktwins : P .twins := by assumption) (klog : P .log := by assumption) :
    ∀ t, execRefreshWindow a_d a_setting a_margin a_ok s = .next t → Keeps P z t := by
  unfold execRefreshWindow; intro t e; injection e with e; subst e
  repeat' (first | (with_reducible assumption) | (intro) | (with_reducible apply keep_refreshWindow) | split | (dsimp only))

theorem keep_retrainPassStart {P : Area → Prop} {z : State} {s : State} {a_d : Nat} (h : Keeps P z s)
    (khbmUnits : P .hbmUnits := by assumption) :
    Keeps P z (retrainPassStart s a_d) := by
  unfold retrainPassStart
  repeat' (first | (with_reducible assumption) | (intro) | (with_reducible apply keep_setTrain)
                 | (with_reducible refine keep_ite ?_ ?_) | split | (dsimp only))

theorem keep_execRetrainPassStart {P : Area → Prop} {z : State} {a_d : Nat} {s : State} (h : Keeps P z s)
    (khbmUnits : P .hbmUnits := by assumption) :
    ∀ t, execRetrainPassStart a_d s = .next t → Keeps P z t := by
  unfold execRetrainPassStart; intro t e; injection e with e; subst e
  repeat' (first | (with_reducible assumption) | (intro) | (with_reducible apply keep_retrainPassStart) | split | (dsimp only))

theorem keep_hbmStackHot {P : Area → Prop} {z : State} {s : State} {a_d : Nat} {a_temp : Nat} (h : Keeps P z s)
    (krings : P .rings := by assumption) :
    Keeps P z (hbmStackHot s a_d a_temp) := by
  unfold hbmStackHot
  repeat' (first | (with_reducible assumption) | (intro)
                 | (extract_lets +onlyGivenNames y; refine keep_cut (y := y) ?_ ?_; (focus (dsimp only [y]; clear y)); rotate_left; (focus (clear_value y; revert y; intro _ _)))
                 | (extract_lets +onlyGivenNames y; refine keep_cut1 (y := y) ?_ ?_; (focus (dsimp only [y]; clear y)); rotate_left; (focus (clear_value y; revert y; intro _ _)))
                 | (extract_lets +onlyGivenNames y; refine keep_cut2 (y := y) ?_ ?_; (focus (dsimp only [y]; clear y)); rotate_left; (focus (clear_value y; revert y; intro _ _)))
                 | (extract_lets +onlyGivenNames y; clear_value y; revert y; intro _) | (with_reducible apply keep_setF)
                 | (with_reducible apply keep_raise) | (with_reducible refine keep_ite ?_ ?_) | split | (dsimp only))

theorem keep_execHbmStackHot {P : Area → Prop} {z : State} {a_d : Nat} {a_temp : Nat} {s : State} (h : Keeps P z s)
    (krings : P .rings := by assumption) :
    ∀ t, execHbmStackHot a_d a_temp s = .next t → Keeps P z t := by
  unfold execHbmStackHot; intro t e; injection e with e; subst e
  repeat' (first | (with_reducible assumption) | (intro) | (with_reducible apply keep_hbmStackHot) | split | (dsimp only))

theorem keep_hbmIndRead {P : Area → Prop} {z : State} {s : State} {a_d : Nat} {a_off : Nat} {a_len : Nat}
    (h : Keeps P z s) (khbm : P .hbm := by assumption) (khbmUnits : P .hbmUnits := by assumption) :
    Keeps P z (hbmIndRead s a_d a_off a_len) := by
  unfold hbmIndRead
  repeat' (first | (with_reducible assumption) | (exact Or.inl (by assumption)) | (exact Or.inr rfl)
                 | (exact Or.inr ⟨rfl, rfl, rfl, rfl⟩) | (intro)
                 | (extract_lets +onlyGivenNames y; refine keep_cut (y := y) ?_ ?_; (focus (dsimp only [y]; clear y)); rotate_left; (focus (clear_value y; revert y; intro _ _)))
                 | (extract_lets +onlyGivenNames y; refine keep_cut1 (y := y) ?_ ?_; (focus (dsimp only [y]; clear y)); rotate_left; (focus (clear_value y; revert y; intro _ _)))
                 | (extract_lets +onlyGivenNames y; refine keep_cut2 (y := y) ?_ ?_; (focus (dsimp only [y]; clear y)); rotate_left; (focus (clear_value y; revert y; intro _ _)))
                 | (extract_lets +onlyGivenNames y; have q : Hbm := y; clear q; dsimp only [y]; clear y)
                 | (extract_lets +onlyGivenNames y; clear_value y; revert y; intro _) | (with_reducible apply keep_indAnswer)
                 | (with_reducible apply keep_fresh) | (with_reducible apply keep_hbmRead) | (with_reducible apply keep_hbmAsk)
                 | (with_reducible refine keep_ite ?_ ?_) | split | (dsimp only)
                 | (with_reducible refine keep_mk ?_ rfl rfl rfl rfl rfl rfl rfl rfl rfl ?_ ?_ ?_ ?_ ?_ ?_ ?_ ?_ ?_ ?_ ?_ ?_ ?_ ?_ ?_ ?_ ?_ ?_))

theorem keep_hbmIndWrite {P : Area → Prop} {z : State} {s : State} {a_fn : Nat} {a_d : Nat} {a_off : Nat}
    {a_data : Bytes} (h : Keeps P z s) (khbm : P .hbm := by assumption) (krings : P .rings := by assumption)
    (khbmUnits : P .hbmUnits := by assumption) (ktwins : P .twins := by assumption) (klog : P .log := by assumption) :
    Keeps P z (hbmIndWrite s a_fn a_d a_off a_data) := by
  unfold hbmIndWrite
  repeat' (first | (with_reducible assumption) | (intro)
                 | (extract_lets +onlyGivenNames y; refine keep_cut (y := y) ?_ ?_; (focus (dsimp only [y]; clear y)); rotate_left; (focus (clear_value y; revert y; intro _ _)))
                 | (extract_lets +onlyGivenNames y; refine keep_cut1 (y := y) ?_ ?_; (focus (dsimp only [y]; clear y)); rotate_left; (focus (clear_value y; revert y; intro _ _)))
                 | (extract_lets +onlyGivenNames y; refine keep_cut2 (y := y) ?_ ?_; (focus (dsimp only [y]; clear y)); rotate_left; (focus (clear_value y; revert y; intro _ _)))
                 | (extract_lets +onlyGivenNames y; clear_value y; revert y; intro _) | (with_reducible apply keep_hbmIndFault)
                 | (with_reducible apply keep_logC) | (with_reducible apply keep_logWWR) | (with_reducible apply keep_hbmWrite)
                 | (with_reducible apply keep_hbmIndStep) | (with_reducible refine keep_ite ?_ ?_) | split | (dsimp only))

theorem keep_execHbmIndDataAccess {P : Area → Prop} {z : State} {a_fn : Nat} {a_d : Nat} {a_write : Bool} {a_v : Nat}
    {s : State} (h : Keeps P z s) (khbm : P .hbm := by assumption) (krings : P .rings := by assumption)
    (khbmUnits : P .hbmUnits := by assumption) (ktwins : P .twins := by assumption) (klog : P .log := by assumption) :
    ∀ t, execHbmIndDataAccess a_fn a_d a_write a_v s = .next t → Keeps P z t := by
  unfold execHbmIndDataAccess; intro t e; injection e with e; subst e
  repeat' (first | (with_reducible assumption) | (intro) | (with_reducible apply keep_answer)
                 | (with_reducible apply keep_hbmIndWrite) | (with_reducible apply keep_hbmIndRead)
                 | (with_reducible refine keep_ite ?_ ?_) | split | (dsimp only))

end Sys2Proof.Machine
end

