-- ==== Sys2Proof/Laws/KeepCache.lean ====
section
/-! SUPPORT. What the operations of Machine/Cache.lean keep (Laws/Keep.lean), one lemma per operation. -/

set_option linter.tactic.unusedName false
set_option linter.all false
set_option Elab.async false

namespace Sys2Proof.Machine

theorem keep_popReq {P : Area → Prop} {z : State} {s : State} {a_d : Nat} (h : Keeps P z s)
    (khbmUnits : P .hbmUnits := by assumption) :
    Keeps P z (popReq s a_d) := by
  unfold popReq
  repeat' (first | (with_reducible assumption) | (exact Or.inl (by assumption)) | (exact Or.inr rfl)
                 | (exact Or.inr ⟨rfl, rfl, rfl, rfl⟩) | (intro)
                 | (extract_lets +onlyGivenNames y; refine keep_cut (y := y) ?_ ?_; (focus (dsimp only [y]; clear y)); rotate_left; (focus (clear_value y; revert y; intro _ _)))
                 | (extract_lets +onlyGivenNames y; refine keep_cut1 (y := y) ?_ ?_; (focus (dsimp only [y]; clear y)); rotate_left; (focus (clear_value y; revert y; intro _ _)))
                 | (extract_lets +onlyGivenNames y; refine keep_cut2 (y := y) ?_ ?_; (focus (dsimp only [y]; clear y)); rotate_left; (focus (clear_value y; revert y; intro _ _)))
                 | (extract_lets +onlyGivenNames y; clear_value y; revert y; intro _) | (with_reducible apply keep_modSpc)
                 | split | (dsimp only)
                 | (with_reducible refine keep_mk ?_ rfl rfl rfl rfl rfl rfl rfl rfl rfl ?_ ?_ ?_ ?_ ?_ ?_ ?_ ?_ ?_ ?_ ?_ ?_ ?_ ?_ ?_ ?_ ?_ ?_))

theorem keep_lookupRead {P : Area → Prop} {z : State} {s : State} {a_d : Nat} {a_r : MemReq} (h : Keeps P z s)
    (khbm : P .hbm := by assumption) (kfabric : P .fabric := by assumption) (krings : P .rings := by assumption)
    (khbmUnits : P .hbmUnits := by assumption) (ktwins : P .twins := by assumption) (klog : P .log := by assumption) :
    Keeps P z (lookupRead s a_d a_r) := by
  unfold lookupRead
  repeat' (first | (with_reducible assumption) | (exact Or.inl (by assumption)) | (exact Or.inr rfl)
                 | (exact Or.inr ⟨rfl, rfl, rfl, rfl⟩) | (intro)
                 | (extract_lets +onlyGivenNames y; refine keep_cut (y := y) ?_ ?_; (focus (dsimp only [y]; clear y)); rotate_left; (focus (clear_value y; revert y; intro _ _)))
                 | (extract_lets +onlyGivenNames y; refine keep_cut1 (y := y) ?_ ?_; (focus (dsimp only [y]; clear y)); rotate_left; (focus (clear_value y; revert y; intro _ _)))
                 | (extract_lets +onlyGivenNames y; refine keep_cut2 (y := y) ?_ ?_; (focus (dsimp only [y]; clear y)); rotate_left; (focus (clear_value y; revert y; intro _ _)))
                 | (extract_lets +onlyGivenNames y; have q : (_ : _) → _ := y; clear q; dsimp only [y]; clear y)
                 | (extract_lets +onlyGivenNames y; clear_value y; revert y; intro _) | (with_reducible apply keep_answerFenced)
                 | (with_reducible apply keep_popReq) | (with_reducible apply keep_answerFrozen)
                 | (with_reducible apply keep_countMiss) | (with_reducible apply keep_startFill)
                 | (with_reducible apply keep_streamAccess) | (with_reducible apply keep_hitLine)
                 | (with_reducible apply keep_countHit) | (with_reducible apply keep_answerReq)
                 | (with_reducible refine keep_ite ?_ ?_) | split | (dsimp only)
                 | (with_reducible refine keep_mk ?_ rfl rfl rfl rfl rfl rfl rfl rfl rfl ?_ ?_ ?_ ?_ ?_ ?_ ?_ ?_ ?_ ?_ ?_ ?_ ?_ ?_ ?_ ?_ ?_ ?_))

theorem keep_lookupWrite {P : Area → Prop} {z : State} {s : State} {a_d : Nat} {a_r : MemReq} (h : Keeps P z s)
    (khbm : P .hbm := by assumption) (kfabric : P .fabric := by assumption) (krings : P .rings := by assumption)
    (khbmUnits : P .hbmUnits := by assumption) (ktwins : P .twins := by assumption) (klog : P .log := by assumption) :
    Keeps P z (lookupWrite s a_d a_r) := by
  unfold lookupWrite
  repeat' (first | (with_reducible assumption) | (intro)
                 | (extract_lets +onlyGivenNames y; refine keep_cut (y := y) ?_ ?_; (focus (dsimp only [y]; clear y)); rotate_left; (focus (clear_value y; revert y; intro _ _)))
                 | (extract_lets +onlyGivenNames y; refine keep_cut1 (y := y) ?_ ?_; (focus (dsimp only [y]; clear y)); rotate_left; (focus (clear_value y; revert y; intro _ _)))
                 | (extract_lets +onlyGivenNames y; refine keep_cut2 (y := y) ?_ ?_; (focus (dsimp only [y]; clear y)); rotate_left; (focus (clear_value y; revert y; intro _ _)))
                 | (extract_lets +onlyGivenNames y; clear_value y; revert y; intro _) | (with_reducible apply keep_writeLine)
                 | (with_reducible apply keep_popReq) | (with_reducible apply keep_answerReq)
                 | (with_reducible apply keep_answerFenced) | (with_reducible apply keep_answerFrozen)
                 | (with_reducible refine keep_ite ?_ ?_) | split | (dsimp only))

theorem keep_lookup {P : Area → Prop} {z : State} {s : State} {a_d : Nat} (h : Keeps P z s)
    (khbm : P .hbm := by assumption) (kfabric : P .fabric := by assumption) (krings : P .rings := by assumption)
    (khbmUnits : P .hbmUnits := by assumption) (ktwins : P .twins := by assumption) (klog : P .log := by assumption) :
    Keeps P z (lookup s a_d) := by
  unfold lookup
  repeat' (first | (with_reducible assumption) | (exact Or.inl (by assumption)) | (exact Or.inr rfl)
                 | (exact Or.inr ⟨rfl, rfl, rfl, rfl⟩) | (intro)
                 | (extract_lets +onlyGivenNames y; refine keep_cut (y := y) ?_ ?_; (focus (dsimp only [y]; clear y)); rotate_left; (focus (clear_value y; revert y; intro _ _)))
                 | (extract_lets +onlyGivenNames y; refine keep_cut1 (y := y) ?_ ?_; (focus (dsimp only [y]; clear y)); rotate_left; (focus (clear_value y; revert y; intro _ _)))
                 | (extract_lets +onlyGivenNames y; refine keep_cut2 (y := y) ?_ ?_; (focus (dsimp only [y]; clear y)); rotate_left; (focus (clear_value y; revert y; intro _ _)))
                 | (extract_lets +onlyGivenNames y; clear_value y; revert y; intro _) | (with_reducible apply keep_lookupWrite)
                 | (with_reducible apply keep_lookupRead) | (with_reducible refine keep_ite ?_ ?_) | split | (dsimp only)
                 | (with_reducible refine keep_mk ?_ rfl rfl rfl rfl rfl rfl rfl rfl rfl ?_ ?_ ?_ ?_ ?_ ?_ ?_ ?_ ?_ ?_ ?_ ?_ ?_ ?_ ?_ ?_ ?_ ?_))

theorem keep_parityAt {P : Area → Prop} {z : State} {s : State} {a_d : Nat} {a_k : Nat} (h : Keeps P z s) :
    Keeps P z (parityAt s a_d a_k) := by
  unfold parityAt
  repeat' (first | (with_reducible assumption) | (intro) | (with_reducible apply keep_setF) | split | (dsimp only))

theorem keep_parityClean {P : Area → Prop} {z : State} {s : State} {a_d : Nat} {a_k : Nat} (h : Keeps P z s)
    (krings : P .rings := by assumption) (khbmUnits : P .hbmUnits := by assumption) (ktwins : P .twins := by assumption)
    (klog : P .log := by assumption) :
    Keeps P z (parityClean s a_d a_k) := by
  unfold parityClean
  repeat' (first | (with_reducible assumption) | (exact Or.inl (by assumption)) | (exact Or.inr rfl)
                 | (exact Or.inr ⟨rfl, rfl, rfl, rfl⟩) | (intro)
                 | (extract_lets +onlyGivenNames y; refine keep_cut (y := y) ?_ ?_; (focus (dsimp only [y]; clear y)); rotate_left; (focus (clear_value y; revert y; intro _ _)))
                 | (extract_lets +onlyGivenNames y; refine keep_cut1 (y := y) ?_ ?_; (focus (dsimp only [y]; clear y)); rotate_left; (focus (clear_value y; revert y; intro _ _)))
                 | (extract_lets +onlyGivenNames y; refine keep_cut2 (y := y) ?_ ?_; (focus (dsimp only [y]; clear y)); rotate_left; (focus (clear_value y; revert y; intro _ _)))
                 | (extract_lets +onlyGivenNames y; clear_value y; revert y; intro _) | (with_reducible apply keep_modSpc)
                 | (with_reducible apply keep_raise) | (with_reducible apply keep_satF) | (with_reducible apply keep_parityAt)
                 | (with_reducible apply keep_logC) | (with_reducible refine keep_ite ?_ ?_) | split | (dsimp only)
                 | (with_reducible refine keep_mk ?_ rfl rfl rfl rfl rfl rfl rfl rfl rfl ?_ ?_ ?_ ?_ ?_ ?_ ?_ ?_ ?_ ?_ ?_ ?_ ?_ ?_ ?_ ?_ ?_ ?_))

theorem keep_lookupParity {P : Area → Prop} {z : State} {s : State} {a_d : Nat} {a_parity : Nat} (h : Keeps P z s)
    (khbm : P .hbm := by assumption) (kfabric : P .fabric := by assumption) (krings : P .rings := by assumption)
    (khbmUnits : P .hbmUnits := by assumption) (ktwins : P .twins := by assumption) (klog : P .log := by assumption) :
    Keeps P z (lookupParity s a_d a_parity).1 := by
  unfold lookupParity
  repeat' (first | (with_reducible assumption) | (exact Or.inl (by assumption)) | (exact Or.inr rfl)
                 | (exact Or.inr ⟨rfl, rfl, rfl, rfl⟩) | (intro)
                 | (extract_lets +onlyGivenNames y; refine keep_cut (y := y) ?_ ?_; (focus (dsimp only [y]; clear y)); rotate_left; (focus (clear_value y; revert y; intro _ _)))
                 | (extract_lets +onlyGivenNames y; refine keep_cut1 (y := y) ?_ ?_; (focus (dsimp only [y]; clear y)); rotate_left; (focus (clear_value y; revert y; intro _ _)))
                 | (extract_lets +onlyGivenNames y; refine keep_cut2 (y := y) ?_ ?_; (focus (dsimp only [y]; clear y)); rotate_left; (focus (clear_value y; revert y; intro _ _)))
                 | (extract_lets +onlyGivenNames y; clear_value y; revert y; intro _) | (with_reducible apply keep_lookup)
                 | (with_reducible apply keep_raise) | (with_reducible apply keep_parityAt)
                 | (with_reducible apply keep_answerReq) | (with_reducible apply keep_popReq)
                 | (with_reducible apply keep_parityClean) | (with_reducible refine keep_ite ?_ ?_) | split | (dsimp only)
                 | (with_reducible refine keep_mk ?_ rfl rfl rfl rfl rfl rfl rfl rfl rfl ?_ ?_ ?_ ?_ ?_ ?_ ?_ ?_ ?_ ?_ ?_ ?_ ?_ ?_ ?_ ?_ ?_ ?_))

theorem keep_installSector {P : Area → Prop} {z : State} {s : State} {a_f : Fill} {a_i : Nat} (h : Keeps P z s)
    (khbmUnits : P .hbmUnits := by assumption) :
    Keeps P z (installSector s a_f a_i) := by
  unfold installSector
  repeat' (first | (with_reducible assumption) | (exact Or.inl (by assumption)) | (exact Or.inr rfl)
                 | (exact Or.inr ⟨rfl, rfl, rfl, rfl⟩) | (intro)
                 | (extract_lets +onlyGivenNames y; refine keep_cut (y := y) ?_ ?_; (focus (dsimp only [y]; clear y)); rotate_left; (focus (clear_value y; revert y; intro _ _)))
                 | (extract_lets +onlyGivenNames y; refine keep_cut1 (y := y) ?_ ?_; (focus (dsimp only [y]; clear y)); rotate_left; (focus (clear_value y; revert y; intro _ _)))
                 | (extract_lets +onlyGivenNames y; refine keep_cut2 (y := y) ?_ ?_; (focus (dsimp only [y]; clear y)); rotate_left; (focus (clear_value y; revert y; intro _ _)))
                 | (extract_lets +onlyGivenNames y; clear_value y; revert y; intro _) | (with_reducible apply keep_putLine)
                 | (with_reducible refine keep_ite ?_ ?_) | split | (dsimp only)
                 | (with_reducible refine keep_mk ?_ rfl rfl rfl rfl rfl rfl rfl rfl rfl ?_ ?_ ?_ ?_ ?_ ?_ ?_ ?_ ?_ ?_ ?_ ?_ ?_ ?_ ?_ ?_ ?_ ?_))

theorem keep_fillSectorArrive {P : Area → Prop} {z : State} {s : State} {a_d : Nat} {a_id : Nat} (h : Keeps P z s)
    (kfabric : P .fabric := by assumption) (krings : P .rings := by assumption)
    (khbmUnits : P .hbmUnits := by assumption) (ktwins : P .twins := by assumption) (klog : P .log := by assumption) :
    Keeps P z (fillSectorArrive s a_d a_id) := by
  unfold fillSectorArrive
  repeat' (first | (with_reducible assumption) | (exact fun _ h => h) | (exact Or.inl (by assumption)) | (exact Or.inr rfl)
                 | (exact Or.inr ⟨rfl, rfl, rfl, rfl⟩) | (intro)
                 | (extract_lets +onlyGivenNames y; refine keep_cut (y := y) ?_ ?_; (focus (dsimp only [y]; clear y)); rotate_left; (focus (clear_value y; revert y; intro _ _)))
                 | (extract_lets +onlyGivenNames y; refine keep_cut1 (y := y) ?_ ?_; (focus (dsimp only [y]; clear y)); rotate_left; (focus (clear_value y; revert y; intro _ _)))
                 | (extract_lets +onlyGivenNames y; refine keep_cut2 (y := y) ?_ ?_; (focus (dsimp only [y]; clear y)); rotate_left; (focus (clear_value y; revert y; intro _ _)))
                 | (extract_lets +onlyGivenNames y; have q : Hbm := y; clear q; dsimp only [y]; clear y)
                 | (extract_lets +onlyGivenNames y; clear_value y; revert y; intro _)
                 | (with_reducible apply keep_installSector) | (with_reducible apply keep_answerReq)
                 | (with_reducible apply keep_indAnswer) | (with_reducible refine keep_ite ?_ ?_) | split | (dsimp only)
                 | (with_reducible refine keep_mk ?_ rfl rfl rfl rfl rfl rfl rfl rfl rfl ?_ ?_ ?_ ?_ ?_ ?_ ?_ ?_ ?_ ?_ ?_ ?_ ?_ ?_ ?_ ?_ ?_ ?_))

theorem keep_execFillSectorArrive {P : Area → Prop} {z : State} {a_d : Nat} {a_id : Nat} {s : State} (h : Keeps P z s)
    (kfabric : P .fabric := by assumption) (krings : P .rings := by assumption)
    (khbmUnits : P .hbmUnits := by assumption) (ktwins : P .twins := by assumption) (klog : P .log := by assumption) :
    ∀ t, execFillSectorArrive a_d a_id s = .next t → Keeps P z t := by
  unfold execFillSectorArrive; intro t e; injection e with e; subst e
  repeat' (first | (with_reducible assumption) | (exact fun _ h => h) | (intro) | (with_reducible apply keep_fillSectorArrive)
                 | split | (dsimp only))

theorem keep_cmdDone {P : Area → Prop} {z : State} {s : State} {a_d : Nat} {a_status : Nat} {a_reason : Nat}
    {a_lines : Nat} (h : Keeps P z s) (krings : P .rings := by assumption) :
    Keeps P z (cmdDone s a_d a_status a_reason a_lines) := by
  unfold cmdDone
  repeat' (first | (with_reducible assumption) | (intro)
                 | (extract_lets +onlyGivenNames y; refine keep_cut (y := y) ?_ ?_; (focus (dsimp only [y]; clear y)); rotate_left; (focus (clear_value y; revert y; intro _ _)))
                 | (extract_lets +onlyGivenNames y; refine keep_cut1 (y := y) ?_ ?_; (focus (dsimp only [y]; clear y)); rotate_left; (focus (clear_value y; revert y; intro _ _)))
                 | (extract_lets +onlyGivenNames y; refine keep_cut2 (y := y) ?_ ?_; (focus (dsimp only [y]; clear y)); rotate_left; (focus (clear_value y; revert y; intro _ _)))
                 | (extract_lets +onlyGivenNames y; clear_value y; revert y; intro _) | (with_reducible apply keep_setF)
                 | (with_reducible apply keep_raise) | split | (dsimp only))

theorem keep_startCmd {P : Area → Prop} {z : State} {s : State} {a_d : Nat} {a_c : SpcCmd} (h : Keeps P z s)
    (krings : P .rings := by assumption) :
    Keeps P z (startCmd s a_d a_c).1 := by
  unfold startCmd
  repeat' (first | (with_reducible assumption) | (intro)
                 | (extract_lets +onlyGivenNames y; refine keep_cut (y := y) ?_ ?_; (focus (dsimp only [y]; clear y)); rotate_left; (focus (clear_value y; revert y; intro _ _)))
                 | (extract_lets +onlyGivenNames y; refine keep_cut1 (y := y) ?_ ?_; (focus (dsimp only [y]; clear y)); rotate_left; (focus (clear_value y; revert y; intro _ _)))
                 | (extract_lets +onlyGivenNames y; refine keep_cut2 (y := y) ?_ ?_; (focus (dsimp only [y]; clear y)); rotate_left; (focus (clear_value y; revert y; intro _ _)))
                 | (extract_lets +onlyGivenNames y; clear_value y; revert y; intro _) | (with_reducible apply keep_cmdDone)
                 | (with_reducible apply keep_setF) | (with_reducible refine keep_ite ?_ ?_) | split | (dsimp only))

theorem keep_runCmds {P : Area → Prop} {z : State} {s : State} {a_d : Nat} (h : Keeps P z s)
    (krings : P .rings := by assumption) (khbmUnits : P .hbmUnits := by assumption) :
    Keeps P z (runCmds s a_d) := by
  unfold runCmds
  repeat' (first | (with_reducible assumption) | (exact Or.inl (by assumption)) | (exact Or.inr rfl)
                 | (exact Or.inr ⟨rfl, rfl, rfl, rfl⟩) | (intro)
                 | (extract_lets +onlyGivenNames y; refine keep_cut (y := y) ?_ ?_; (focus (dsimp only [y]; clear y)); rotate_left; (focus (clear_value y; revert y; intro _ _)))
                 | (extract_lets +onlyGivenNames y; refine keep_cut1 (y := y) ?_ ?_; (focus (dsimp only [y]; clear y)); rotate_left; (focus (clear_value y; revert y; intro _ _)))
                 | (extract_lets +onlyGivenNames y; refine keep_cut2 (y := y) ?_ ?_; (focus (dsimp only [y]; clear y)); rotate_left; (focus (clear_value y; revert y; intro _ _)))
                 | (extract_lets +onlyGivenNames y; clear_value y; revert y; intro _) | (with_reducible apply keep_startCmd)
                 | (with_reducible apply keep_modSpc) | (with_reducible refine keep_ite ?_ ?_)
                 | (with_reducible apply keep_foldl) | (with_reducible apply keep_foldl1) | split | (dsimp only)
                 | (with_reducible refine keep_mk ?_ rfl rfl rfl rfl rfl rfl rfl rfl rfl ?_ ?_ ?_ ?_ ?_ ?_ ?_ ?_ ?_ ?_ ?_ ?_ ?_ ?_ ?_ ?_ ?_ ?_))

theorem keep_spcCommand {P : Area → Prop} {z : State} {s : State} {a_d : Nat} {a_op : Nat} {a_way : Nat} {a_ways : Nat}
    (h : Keeps P z s) (krings : P .rings := by assumption) (khbmUnits : P .hbmUnits := by assumption) :
    Keeps P z (spcCommand s a_d a_op a_way a_ways) := by
  unfold spcCommand
  repeat' (first | (with_reducible assumption) | (exact Or.inl (by assumption)) | (exact Or.inr rfl)
                 | (exact Or.inr ⟨rfl, rfl, rfl, rfl⟩) | (intro)
                 | (extract_lets +onlyGivenNames y; refine keep_cut (y := y) ?_ ?_; (focus (dsimp only [y]; clear y)); rotate_left; (focus (clear_value y; revert y; intro _ _)))
                 | (extract_lets +onlyGivenNames y; refine keep_cut1 (y := y) ?_ ?_; (focus (dsimp only [y]; clear y)); rotate_left; (focus (clear_value y; revert y; intro _ _)))
                 | (extract_lets +onlyGivenNames y; refine keep_cut2 (y := y) ?_ ?_; (focus (dsimp only [y]; clear y)); rotate_left; (focus (clear_value y; revert y; intro _ _)))
                 | (extract_lets +onlyGivenNames y; clear_value y; revert y; intro _) | (with_reducible apply keep_cmdDone)
                 | (with_reducible apply keep_modSpc) | (with_reducible apply keep_runCmds)
                 | (with_reducible refine keep_ite ?_ ?_) | split | (dsimp only)
                 | (with_reducible refine keep_mk ?_ rfl rfl rfl rfl rfl rfl rfl rfl rfl ?_ ?_ ?_ ?_ ?_ ?_ ?_ ?_ ?_ ?_ ?_ ?_ ?_ ?_ ?_ ?_ ?_ ?_))

theorem keep_execLock {P : Area → Prop} {z : State} {a_fn : Nat} {a_d : Nat} {a_ways : Nat} {s : State} (h : Keeps P z s)
    (krings : P .rings := by assumption) (khbmUnits : P .hbmUnits := by assumption) :
    ∀ t, execLock a_fn a_d a_ways s = .next t → Keeps P z t := by
  unfold execLock; intro t e; injection e with e; subst e
  repeat' (first | (with_reducible assumption) | (intro) | (with_reducible apply keep_spcCommand)
                 | (with_reducible refine keep_ite ?_ ?_) | split | (dsimp only))

theorem keep_execUnlock {P : Area → Prop} {z : State} {a_fn : Nat} {a_d : Nat} {a_ways : Nat} {s : State}
    (h : Keeps P z s) (krings : P .rings := by assumption) (khbmUnits : P .hbmUnits := by assumption) :
    ∀ t, execUnlock a_fn a_d a_ways s = .next t → Keeps P z t := by
  unfold execUnlock; intro t e; injection e with e; subst e
  repeat' (first | (with_reducible assumption) | (intro) | (with_reducible apply keep_spcCommand)
                 | (with_reducible refine keep_ite ?_ ?_) | split | (dsimp only))

theorem keep_execPreload {P : Area → Prop} {z : State} {a_fn : Nat} {a_d : Nat} {a_way : Nat} {s : State}
    (h : Keeps P z s) (krings : P .rings := by assumption) (khbmUnits : P .hbmUnits := by assumption) :
    ∀ t, execPreload a_fn a_d a_way s = .next t → Keeps P z t := by
  unfold execPreload; intro t e; injection e with e; subst e
  repeat' (first | (with_reducible assumption) | (intro) | (with_reducible apply keep_spcCommand)
                 | (with_reducible refine keep_ite ?_ ?_) | split | (dsimp only))

theorem keep_execInvalidate {P : Area → Prop} {z : State} {a_fn : Nat} {a_d : Nat} {a_way : Nat} {s : State}
    (h : Keeps P z s) (krings : P .rings := by assumption) (khbmUnits : P .hbmUnits := by assumption) :
    ∀ t, execInvalidate a_fn a_d a_way s = .next t → Keeps P z t := by
  unfold execInvalidate; intro t e; injection e with e; subst e
  repeat' (first | (with_reducible assumption) | (intro) | (with_reducible apply keep_spcCommand)
                 | (with_reducible refine keep_ite ?_ ?_) | split | (dsimp only))

theorem keep_execCleanInvalidate {P : Area → Prop} {z : State} {a_fn : Nat} {a_d : Nat} {a_way : Nat} {s : State}
    (h : Keeps P z s) (krings : P .rings := by assumption) (khbmUnits : P .hbmUnits := by assumption) :
    ∀ t, execCleanInvalidate a_fn a_d a_way s = .next t → Keeps P z t := by
  unfold execCleanInvalidate; intro t e; injection e with e; subst e
  repeat' (first | (with_reducible assumption) | (intro) | (with_reducible apply keep_spcCommand)
                 | (with_reducible refine keep_ite ?_ ?_) | split | (dsimp only))

theorem keep_freeWay {P : Area → Prop} {z : State} {s : State} {a_d : Nat} {a_ln : Nat} {a_w : Nat} (h : Keeps P z s)
    (khbm : P .hbm := by assumption) (khbmUnits : P .hbmUnits := by assumption) :
    Keeps P z (freeWay s a_d a_ln a_w) := by
  unfold freeWay
  repeat' (first | (with_reducible assumption) | (exact Or.inl (by assumption)) | (exact Or.inr rfl)
                 | (exact Or.inr ⟨rfl, rfl, rfl, rfl⟩) | (intro)
                 | (extract_lets +onlyGivenNames y; refine keep_cut (y := y) ?_ ?_; (focus (dsimp only [y]; clear y)); rotate_left; (focus (clear_value y; revert y; intro _ _)))
                 | (extract_lets +onlyGivenNames y; refine keep_cut1 (y := y) ?_ ?_; (focus (dsimp only [y]; clear y)); rotate_left; (focus (clear_value y; revert y; intro _ _)))
                 | (extract_lets +onlyGivenNames y; refine keep_cut2 (y := y) ?_ ?_; (focus (dsimp only [y]; clear y)); rotate_left; (focus (clear_value y; revert y; intro _ _)))
                 | (extract_lets +onlyGivenNames y; clear_value y; revert y; intro _) | (with_reducible apply keep_writeBack)
                 | split | (dsimp only)
                 | (with_reducible refine keep_mk ?_ rfl rfl rfl rfl rfl rfl rfl rfl rfl ?_ ?_ ?_ ?_ ?_ ?_ ?_ ?_ ?_ ?_ ?_ ?_ ?_ ?_ ?_ ?_ ?_ ?_))

theorem keep_preloadFetch {P : Area → Prop} {z : State} {s : State} {a_d : Nat} {a_ln : Nat} {a_l : CLine}
    (h : Keeps P z s) (khbm : P .hbm := by assumption) (khbmUnits : P .hbmUnits := by assumption) :
    Keeps P z (preloadFetch s a_d a_ln a_l) := by
  unfold preloadFetch
  repeat' (first | (with_reducible assumption) | (intro) | (with_reducible apply keep_startFill)
                 | (with_reducible refine keep_ite ?_ ?_) | split | (dsimp only))

-- TODO preloadLine : Option (State × Nat)

theorem keep_preloadRun {P : Area → Prop} {z s : State} {d : Nat} {c : SpcCmd} (h : Keeps P z s) 
    (khbm : P .hbm := by assumption) (khbmUnits : P .hbmUnits := by assumption) :
    Keeps P z (preloadRun s d c).1 := by
  have q : ∀ (x : State) (ln w : Nat) (y : State × Nat), Keeps P z x → preloadLine x d ln w = some y → Keeps P z y.1 := by
    intro x ln w y hx hy
    have hp : Keeps P z (putLine (freeWay (dropLine x d ln ((lineAt x d ln).getD (0, ⟨0, 0, 0, [], false⟩)).1) d ln w) d ln w
        ((lineAt x d ln).getD (0, ⟨0, 0, 0, [], false⟩)).2) := keep_putLine (keep_freeWay (keep_dropLine hx))
    unfold preloadLine at hy
    split at hy
    · cases hy
    · split at hy
      · rename_i e
        rw [e] at hp
        dsimp only [Option.getD] at hp
        split at hy
        · cases hy; exact keep_ite (keep_preloadFetch hx) hx
        · split at hy
          · cases hy; exact keep_ite (keep_preloadFetch hp) hp
          · cases hy
      · split at hy
        · cases hy; exact hx
        · split at hy
          · cases hy; dsimp only; exact keep_preloadFetch (keep_putLine (keep_freeWay hx))
          · cases hy
  unfold preloadRun
  refine keep_foldl1 _ h (fun x i hx => ?_)
  dsimp only
  split
  · split
    · rename_i e; exact q _ _ _ _ hx e
    · exact hx
  · exact hx

theorem keep_preloadTake {P : Area → Prop} {z : State} {s : State} {a_d : Nat} (h : Keeps P z s)
    (khbmUnits : P .hbmUnits := by assumption) :
    Keeps P z (preloadTake s a_d) := by
  unfold preloadTake
  repeat' (first | (with_reducible assumption) | (exact Or.inl (by assumption)) | (exact Or.inr rfl)
                 | (exact Or.inr ⟨rfl, rfl, rfl, rfl⟩) | (intro)
                 | (extract_lets +onlyGivenNames y; refine keep_cut (y := y) ?_ ?_; (focus (dsimp only [y]; clear y)); rotate_left; (focus (clear_value y; revert y; intro _ _)))
                 | (extract_lets +onlyGivenNames y; refine keep_cut1 (y := y) ?_ ?_; (focus (dsimp only [y]; clear y)); rotate_left; (focus (clear_value y; revert y; intro _ _)))
                 | (extract_lets +onlyGivenNames y; refine keep_cut2 (y := y) ?_ ?_; (focus (dsimp only [y]; clear y)); rotate_left; (focus (clear_value y; revert y; intro _ _)))
                 | (extract_lets +onlyGivenNames y; have q : Hbm := y; clear q; dsimp only [y]; clear y)
                 | (extract_lets +onlyGivenNames y; clear_value y; revert y; intro _) | split | (dsimp only)
                 | (with_reducible refine keep_mk ?_ rfl rfl rfl rfl rfl rfl rfl rfl rfl ?_ ?_ ?_ ?_ ?_ ?_ ?_ ?_ ?_ ?_ ?_ ?_ ?_ ?_ ?_ ?_ ?_ ?_))

theorem keep_discardLine {P : Area → Prop} {z : State} {s : State} {a_d : Nat} {a_clean : Bool} {a_e : Nat × CLine}
    (h : Keeps P z s) (khbm : P .hbm := by assumption) (khbmUnits : P .hbmUnits := by assumption) :
    Keeps P z (discardLine s a_d a_clean a_e) := by
  unfold discardLine
  repeat' (first | (with_reducible assumption) | (exact Or.inl (by assumption)) | (exact Or.inr rfl)
                 | (exact Or.inr ⟨rfl, rfl, rfl, rfl⟩) | (intro)
                 | (extract_lets +onlyGivenNames y; refine keep_cut (y := y) ?_ ?_; (focus (dsimp only [y]; clear y)); rotate_left; (focus (clear_value y; revert y; intro _ _)))
                 | (extract_lets +onlyGivenNames y; refine keep_cut1 (y := y) ?_ ?_; (focus (dsimp only [y]; clear y)); rotate_left; (focus (clear_value y; revert y; intro _ _)))
                 | (extract_lets +onlyGivenNames y; refine keep_cut2 (y := y) ?_ ?_; (focus (dsimp only [y]; clear y)); rotate_left; (focus (clear_value y; revert y; intro _ _)))
                 | (extract_lets +onlyGivenNames y; clear_value y; revert y; intro _) | (with_reducible apply keep_modSpc)
                 | (with_reducible apply keep_writeBack) | (with_reducible refine keep_ite ?_ ?_) | split | (dsimp only)
                 | (with_reducible refine keep_mk ?_ rfl rfl rfl rfl rfl rfl rfl rfl rfl ?_ ?_ ?_ ?_ ?_ ?_ ?_ ?_ ?_ ?_ ?_ ?_ ?_ ?_ ?_ ?_ ?_ ?_))

theorem keep_rangeRun {P : Area → Prop} {z s : State} {d : Nat} {c : SpcCmd} (h : Keeps P z s) 
    (khbm : P .hbm := by assumption) (khbmUnits : P .hbmUnits := by assumption) :
    Keeps P z (rangeRun s d c).1 := by
  unfold rangeRun
  split
  · exact keep_preloadRun (keep_preloadTake h)
  · split
    · exact h
    · exact keep_foldl _ h (fun _ _ h => keep_discardLine h)

theorem keep_drainDue {P : Area → Prop} {z : State} {s : State} {a_d : Nat} (h : Keeps P z s) :
    Keeps P z (drainDue s a_d) := by
  unfold drainDue
  repeat' (first | (with_reducible assumption) | (intro) | (with_reducible apply keep_setF)
                 | (with_reducible refine keep_ite ?_ ?_) | split | (dsimp only))

theorem keep_spcCmdDone {P : Area → Prop} {z : State} {s : State} {a_d : Nat} (h : Keeps P z s)
    (khbm : P .hbm := by assumption) (krings : P .rings := by assumption) (khbmUnits : P .hbmUnits := by assumption) :
    Keeps P z (spcCmdDone s a_d) := by
  unfold spcCmdDone
  repeat' (first | (with_reducible assumption) | (exact Or.inl (by assumption)) | (exact Or.inr rfl)
                 | (exact Or.inr ⟨rfl, rfl, rfl, rfl⟩) | (intro)
                 | (extract_lets +onlyGivenNames y; refine keep_cut (y := y) ?_ ?_; (focus (dsimp only [y]; clear y)); rotate_left; (focus (clear_value y; revert y; intro _ _)))
                 | (extract_lets +onlyGivenNames y; refine keep_cut1 (y := y) ?_ ?_; (focus (dsimp only [y]; clear y)); rotate_left; (focus (clear_value y; revert y; intro _ _)))
                 | (extract_lets +onlyGivenNames y; refine keep_cut2 (y := y) ?_ ?_; (focus (dsimp only [y]; clear y)); rotate_left; (focus (clear_value y; revert y; intro _ _)))
                 | (extract_lets +onlyGivenNames y; clear_value y; revert y; intro _) | (with_reducible apply keep_rangeRun)
                 | (with_reducible apply keep_modSpc) | (with_reducible apply keep_cmdDone) | (with_reducible apply keep_setF)
                 | (with_reducible apply keep_drainDue) | (with_reducible apply keep_runCmds)
                 | (with_reducible refine keep_ite ?_ ?_) | split | (dsimp only)
                 | (with_reducible refine keep_mk ?_ rfl rfl rfl rfl rfl rfl rfl rfl rfl ?_ ?_ ?_ ?_ ?_ ?_ ?_ ?_ ?_ ?_ ?_ ?_ ?_ ?_ ?_ ?_ ?_ ?_))

theorem keep_execSpcCmdDone {P : Area → Prop} {z : State} {a_d : Nat} {s : State} (h : Keeps P z s)
    (khbm : P .hbm := by assumption) (krings : P .rings := by assumption) (khbmUnits : P .hbmUnits := by assumption) :
    ∀ t, execSpcCmdDone a_d s = .next t → Keeps P z t := by
  unfold execSpcCmdDone; intro t e; injection e with e; subst e
  repeat' (first | (with_reducible assumption) | (intro) | (with_reducible apply keep_spcCmdDone) | split | (dsimp only))

theorem keep_spcDisable {P : Area → Prop} {z : State} {s : State} {a_fn : Nat} {a_d : Nat} (h : Keeps P z s)
    (krings : P .rings := by assumption) (ktwins : P .twins := by assumption) (klog : P .log := by assumption) :
    Keeps P z (spcDisable s a_fn a_d) := by
  unfold spcDisable
  repeat' (first | (with_reducible assumption) | (intro) | (with_reducible apply keep_logWWR)
                 | (with_reducible apply keep_drainDue) | (with_reducible apply keep_setF)
                 | (with_reducible refine keep_ite ?_ ?_) | split | (dsimp only))

theorem keep_spcEnable {P : Area → Prop} {z : State} {s : State} {a_fn : Nat} {a_d : Nat} (h : Keeps P z s)
    (krings : P .rings := by assumption) (khbmUnits : P .hbmUnits := by assumption) (ktwins : P .twins := by assumption)
    (klog : P .log := by assumption) :
    Keeps P z (spcEnable s a_fn a_d) := by
  unfold spcEnable
  repeat' (first | (with_reducible assumption) | (exact Or.inl (by assumption)) | (exact Or.inr rfl)
                 | (exact Or.inr ⟨rfl, rfl, rfl, rfl⟩) | (intro)
                 | (extract_lets +onlyGivenNames y; refine keep_cut (y := y) ?_ ?_; (focus (dsimp only [y]; clear y)); rotate_left; (focus (clear_value y; revert y; intro _ _)))
                 | (extract_lets +onlyGivenNames y; refine keep_cut1 (y := y) ?_ ?_; (focus (dsimp only [y]; clear y)); rotate_left; (focus (clear_value y; revert y; intro _ _)))
                 | (extract_lets +onlyGivenNames y; refine keep_cut2 (y := y) ?_ ?_; (focus (dsimp only [y]; clear y)); rotate_left; (focus (clear_value y; revert y; intro _ _)))
                 | (extract_lets +onlyGivenNames y; clear_value y; revert y; intro _) | (with_reducible apply keep_modSpc)
                 | (with_reducible apply keep_setF) | (with_reducible apply keep_logIgn)
                 | (with_reducible refine keep_ite ?_ ?_) | split | (dsimp only)
                 | (with_reducible refine keep_mk ?_ rfl rfl rfl rfl rfl rfl rfl rfl rfl ?_ ?_ ?_ ?_ ?_ ?_ ?_ ?_ ?_ ?_ ?_ ?_ ?_ ?_ ?_ ?_ ?_ ?_))

theorem keep_execCacheDrain {P : Area → Prop} {z : State} {a_fn : Nat} {a_d : Nat} {s : State} (h : Keeps P z s)
    (krings : P .rings := by assumption) (ktwins : P .twins := by assumption) (klog : P .log := by assumption) :
    ∀ t, execCacheDrain a_fn a_d s = .next t → Keeps P z t := by
  unfold execCacheDrain; intro t e; injection e with e; subst e
  repeat' (first | (with_reducible assumption) | (intro) | (with_reducible apply keep_spcDisable) | split | (dsimp only))

theorem keep_emptyCache {P : Area → Prop} {z : State} {s : State} {a_d : Nat} (h : Keeps P z s)
    (khbm : P .hbm := by assumption) (khbmUnits : P .hbmUnits := by assumption) :
    Keeps P z (emptyCache s a_d) := by
  unfold emptyCache
  repeat' (first | (with_reducible assumption) | (exact Or.inl (by assumption)) | (exact Or.inr rfl)
                 | (exact Or.inr ⟨rfl, rfl, rfl, rfl⟩) | (intro)
                 | (extract_lets +onlyGivenNames y; refine keep_cut (y := y) ?_ ?_; (focus (dsimp only [y]; clear y)); rotate_left; (focus (clear_value y; revert y; intro _ _)))
                 | (extract_lets +onlyGivenNames y; refine keep_cut1 (y := y) ?_ ?_; (focus (dsimp only [y]; clear y)); rotate_left; (focus (clear_value y; revert y; intro _ _)))
                 | (extract_lets +onlyGivenNames y; refine keep_cut2 (y := y) ?_ ?_; (focus (dsimp only [y]; clear y)); rotate_left; (focus (clear_value y; revert y; intro _ _)))
                 | (extract_lets +onlyGivenNames y; clear_value y; revert y; intro _) | (with_reducible apply keep_writeBack)
                 | (with_reducible apply keep_setF) | (with_reducible apply keep_modSpc) | (with_reducible apply keep_foldl)
                 | (with_reducible apply keep_foldl1) | split | (dsimp only)
                 | (with_reducible refine keep_mk ?_ rfl rfl rfl rfl rfl rfl rfl rfl rfl ?_ ?_ ?_ ?_ ?_ ?_ ?_ ?_ ?_ ?_ ?_ ?_ ?_ ?_ ?_ ?_ ?_ ?_))

theorem keep_cacheDrained {P : Area → Prop} {z : State} {s : State} {a_d : Nat} (h : Keeps P z s)
    (khbm : P .hbm := by assumption) (krings : P .rings := by assumption) (khbmUnits : P .hbmUnits := by assumption) :
    Keeps P z (cacheDrained s a_d) := by
  unfold cacheDrained
  repeat' (first | (with_reducible assumption) | (intro) | (with_reducible apply keep_raise) | (with_reducible apply keep_setF)
                 | (with_reducible apply keep_emptyCache) | (with_reducible refine keep_ite ?_ ?_) | split | (dsimp only))

theorem keep_execCacheDrained {P : Area → Prop} {z : State} {a_d : Nat} {s : State} (h : Keeps P z s)
    (khbm : P .hbm := by assumption) (krings : P .rings := by assumption) (khbmUnits : P .hbmUnits := by assumption) :
    ∀ t, execCacheDrained a_d s = .next t → Keeps P z t := by
  unfold execCacheDrained; intro t e; injection e with e; subst e
  repeat' (first | (with_reducible assumption) | (intro) | (with_reducible apply keep_cacheDrained) | split | (dsimp only))

theorem keep_execCacheEnable {P : Area → Prop} {z : State} {a_fn : Nat} {a_d : Nat} {s : State} (h : Keeps P z s)
    (krings : P .rings := by assumption) (khbmUnits : P .hbmUnits := by assumption) (ktwins : P .twins := by assumption)
    (klog : P .log := by assumption) :
    ∀ t, execCacheEnable a_fn a_d s = .next t → Keeps P z t := by
  unfold execCacheEnable; intro t e; injection e with e; subst e
  repeat' (first | (with_reducible assumption) | (intro) | (with_reducible apply keep_spcEnable) | split | (dsimp only))

theorem keep_gntWayFollow {P : Area → Prop} {z : State} {s : State} (h : Keeps P z s) :
    Keeps P z (gntWayFollow s) := by
  unfold gntWayFollow
  repeat' (first | (with_reducible assumption) | (intro)
                 | (extract_lets +onlyGivenNames y; refine keep_cut (y := y) ?_ ?_; (focus (dsimp only [y]; clear y)); rotate_left; (focus (clear_value y; revert y; intro _ _)))
                 | (extract_lets +onlyGivenNames y; refine keep_cut1 (y := y) ?_ ?_; (focus (dsimp only [y]; clear y)); rotate_left; (focus (clear_value y; revert y; intro _ _)))
                 | (extract_lets +onlyGivenNames y; refine keep_cut2 (y := y) ?_ ?_; (focus (dsimp only [y]; clear y)); rotate_left; (focus (clear_value y; revert y; intro _ _)))
                 | (extract_lets +onlyGivenNames y; clear_value y; revert y; intro _) | (with_reducible apply keep_setF)
                 | (with_reducible refine keep_ite ?_ ?_) | split | (dsimp only))

end Sys2Proof.Machine
end

