-- ==== Sys2Proof/Laws/KeepPlats.lean ====
section
/-! SUPPORT. What the operations of Machine/Plats.lean keep (Laws/Keep.lean), one lemma per operation. -/

set_option linter.tactic.unusedName false
set_option linter.all false
set_option Elab.async false

namespace Sys2Proof.Machine

theorem keep_setPhase {P : Area → Prop} {z : State} {s : State} {a_k : Nat} {a_ph : Nat} (h : Keeps P z s) :
    Keeps P z (setPhase s a_k a_ph) := by
  unfold setPhase
  repeat' (first | (with_reducible assumption) | (intro) | (with_reducible apply keep_setF) | split | (dsimp only))

theorem keep_modSlot {P : Area → Prop} {z : State} {s : State} {a_k : Nat} {a_f : PlatSlot → PlatSlot} (h : Keeps P z s)
    (kplats : P .plats := by assumption) :
    Keeps P z (modSlot s a_k a_f) := by
  unfold modSlot
  repeat' (first | (with_reducible assumption) | (exact Or.inl (by assumption)) | (exact Or.inr rfl)
                 | (exact Or.inr ⟨rfl, rfl, rfl, rfl⟩) | (intro)
                 | (extract_lets +onlyGivenNames y; refine keep_cut (y := y) ?_ ?_; (focus (dsimp only [y]; clear y)); rotate_left; (focus (clear_value y; revert y; intro _ _)))
                 | (extract_lets +onlyGivenNames y; refine keep_cut1 (y := y) ?_ ?_; (focus (dsimp only [y]; clear y)); rotate_left; (focus (clear_value y; revert y; intro _ _)))
                 | (extract_lets +onlyGivenNames y; refine keep_cut2 (y := y) ?_ ?_; (focus (dsimp only [y]; clear y)); rotate_left; (focus (clear_value y; revert y; intro _ _)))
                 | (extract_lets +onlyGivenNames y; clear_value y; revert y; intro _) | split | (dsimp only)
                 | (with_reducible refine keep_mk ?_ rfl rfl rfl rfl rfl rfl rfl rfl rfl ?_ ?_ ?_ ?_ ?_ ?_ ?_ ?_ ?_ ?_ ?_ ?_ ?_ ?_ ?_ ?_ ?_ ?_))

theorem keep_startSlices {P : Area → Prop} {z : State} {s : State} {a_ds : List (Nat × Nat)} {a_kind : Nat}
    (h : Keeps P z s) (ksramUnits : P .sramUnits := by assumption) :
    Keeps P z (startSlices s a_ds a_kind) := by
  unfold startSlices
  repeat' (first | (with_reducible assumption) | (exact Or.inl (by assumption)) | (exact Or.inr rfl)
                 | (exact Or.inr ⟨rfl, rfl, rfl, rfl⟩) | (intro)
                 | (extract_lets +onlyGivenNames y; refine keep_cut (y := y) ?_ ?_; (focus (dsimp only [y]; clear y)); rotate_left; (focus (clear_value y; revert y; intro _ _)))
                 | (extract_lets +onlyGivenNames y; refine keep_cut1 (y := y) ?_ ?_; (focus (dsimp only [y]; clear y)); rotate_left; (focus (clear_value y; revert y; intro _ _)))
                 | (extract_lets +onlyGivenNames y; refine keep_cut2 (y := y) ?_ ?_; (focus (dsimp only [y]; clear y)); rotate_left; (focus (clear_value y; revert y; intro _ _)))
                 | (extract_lets +onlyGivenNames y; have q : Srm := y; clear q; dsimp only [y]; clear y)
                 | (extract_lets +onlyGivenNames y; clear_value y; revert y; intro _) | (with_reducible apply keep_foldl)
                 | (with_reducible apply keep_foldl1) | split | (dsimp only)
                 | (with_reducible refine keep_mk ?_ rfl rfl rfl rfl rfl rfl rfl rfl rfl ?_ ?_ ?_ ?_ ?_ ?_ ?_ ?_ ?_ ?_ ?_ ?_ ?_ ?_ ?_ ?_ ?_ ?_))

theorem keep_discardUnit {P : Area → Prop} {z : State} {s : State} {a_d : Nat} {a_u : Nat} (h : Keeps P z s)
    (khbmUnits : P .hbmUnits := by assumption) :
    Keeps P z (discardUnit s a_d a_u) := by
  unfold discardUnit
  repeat' (first | (with_reducible assumption) | (exact Or.inl (by assumption)) | (exact Or.inr rfl)
                 | (exact Or.inr ⟨rfl, rfl, rfl, rfl⟩) | (intro)
                 | (extract_lets +onlyGivenNames y; refine keep_cut (y := y) ?_ ?_; (focus (dsimp only [y]; clear y)); rotate_left; (focus (clear_value y; revert y; intro _ _)))
                 | (extract_lets +onlyGivenNames y; refine keep_cut1 (y := y) ?_ ?_; (focus (dsimp only [y]; clear y)); rotate_left; (focus (clear_value y; revert y; intro _ _)))
                 | (extract_lets +onlyGivenNames y; refine keep_cut2 (y := y) ?_ ?_; (focus (dsimp only [y]; clear y)); rotate_left; (focus (clear_value y; revert y; intro _ _)))
                 | (extract_lets +onlyGivenNames y; have q : (_ : _) → _ := y; clear q; dsimp only [y]; clear y)
                 | (extract_lets +onlyGivenNames y; clear_value y; revert y; intro _) | (with_reducible apply keep_modSpc)
                 | (with_reducible apply keep_modPc) | (with_reducible refine keep_ite ?_ ?_)
                 | (with_reducible apply keep_foldl) | (with_reducible apply keep_foldl1) | split | (dsimp only)
                 | (with_reducible refine keep_mk ?_ rfl rfl rfl rfl rfl rfl rfl rfl rfl ?_ ?_ ?_ ?_ ?_ ?_ ?_ ?_ ?_ ?_ ?_ ?_ ?_ ?_ ?_ ?_ ?_ ?_))

theorem keep_zeroUnit {P : Area → Prop} {z : State} {s : State} {a_d : Nat} {a_u : Nat} (h : Keeps P z s)
    (khbm : P .hbm := by assumption) (khbmUnits : P .hbmUnits := by assumption) :
    Keeps P z (zeroUnit s a_d a_u) := by
  unfold zeroUnit
  repeat' (first | (with_reducible assumption) | (intro)
                 | (extract_lets +onlyGivenNames y; refine keep_cut (y := y) ?_ ?_; (focus (dsimp only [y]; clear y)); rotate_left; (focus (clear_value y; revert y; intro _ _)))
                 | (extract_lets +onlyGivenNames y; refine keep_cut1 (y := y) ?_ ?_; (focus (dsimp only [y]; clear y)); rotate_left; (focus (clear_value y; revert y; intro _ _)))
                 | (extract_lets +onlyGivenNames y; refine keep_cut2 (y := y) ?_ ?_; (focus (dsimp only [y]; clear y)); rotate_left; (focus (clear_value y; revert y; intro _ _)))
                 | (extract_lets +onlyGivenNames y; clear_value y; revert y; intro _) | (with_reducible apply keep_discardUnit)
                 | (with_reducible apply keep_zeroMem) | (with_reducible apply keep_undefine)
                 | (with_reducible refine keep_ite ?_ ?_) | (with_reducible apply keep_foldl)
                 | (with_reducible apply keep_foldl1) | split | (dsimp only) | (exact by decide) | (show P _; assumption)
                 | (exact memArea_of ‹_› ‹_› ‹_›))

theorem keep_abandonZero {P : Area → Prop} {z : State} {s : State} {a_p : Plat} (h : Keeps P z s)
    (ksramUnits : P .sramUnits := by assumption) :
    Keeps P z (abandonZero s a_p) := by
  unfold abandonZero
  repeat' (first | (with_reducible assumption) | (exact Or.inl (by assumption)) | (exact Or.inr rfl)
                 | (exact Or.inr ⟨rfl, rfl, rfl, rfl⟩) | (intro)
                 | (extract_lets +onlyGivenNames y; refine keep_cut (y := y) ?_ ?_; (focus (dsimp only [y]; clear y)); rotate_left; (focus (clear_value y; revert y; intro _ _)))
                 | (extract_lets +onlyGivenNames y; refine keep_cut1 (y := y) ?_ ?_; (focus (dsimp only [y]; clear y)); rotate_left; (focus (clear_value y; revert y; intro _ _)))
                 | (extract_lets +onlyGivenNames y; refine keep_cut2 (y := y) ?_ ?_; (focus (dsimp only [y]; clear y)); rotate_left; (focus (clear_value y; revert y; intro _ _)))
                 | (extract_lets +onlyGivenNames y; have q : Srm := y; clear q; dsimp only [y]; clear y)
                 | (extract_lets +onlyGivenNames y; clear_value y; revert y; intro _) | (with_reducible refine keep_ite ?_ ?_)
                 | (with_reducible apply keep_foldl) | (with_reducible apply keep_foldl1) | split | (dsimp only)
                 | (with_reducible refine keep_mk ?_ rfl rfl rfl rfl rfl rfl rfl rfl rfl ?_ ?_ ?_ ?_ ?_ ?_ ?_ ?_ ?_ ?_ ?_ ?_ ?_ ?_ ?_ ?_ ?_ ?_))

theorem keep_showShadow {P : Area → Prop} {z : State} {s : State} {a_p : Plat} {a_on : Bool} (h : Keeps P z s) :
    Keeps P z (showShadow s a_p a_on) := by
  unfold showShadow
  repeat' (first | (with_reducible assumption) | (intro) | (with_reducible apply keep_setF)
                 | (with_reducible refine keep_ite ?_ ?_) | (with_reducible apply keep_foldl)
                 | (with_reducible apply keep_foldl1) | split | (dsimp only))

theorem keep_takeBanks {P : Area → Prop} {z : State} {s : State} (h : Keeps P z s)
    (ksramUnits : P .sramUnits := by assumption) :
    Keeps P z (takeBanks s) := by
  unfold takeBanks
  repeat' (first | (with_reducible assumption) | (exact Or.inl (by assumption)) | (exact Or.inr rfl)
                 | (exact Or.inr ⟨rfl, rfl, rfl, rfl⟩) | (intro)
                 | (extract_lets +onlyGivenNames y; refine keep_cut (y := y) ?_ ?_; (focus (dsimp only [y]; clear y)); rotate_left; (focus (clear_value y; revert y; intro _ _)))
                 | (extract_lets +onlyGivenNames y; refine keep_cut1 (y := y) ?_ ?_; (focus (dsimp only [y]; clear y)); rotate_left; (focus (clear_value y; revert y; intro _ _)))
                 | (extract_lets +onlyGivenNames y; refine keep_cut2 (y := y) ?_ ?_; (focus (dsimp only [y]; clear y)); rotate_left; (focus (clear_value y; revert y; intro _ _)))
                 | (extract_lets +onlyGivenNames y; clear_value y; revert y; intro _) | (with_reducible apply keep_showShadow)
                 | (with_reducible apply keep_startSlices) | (with_reducible apply keep_setPhase)
                 | (with_reducible refine keep_ite ?_ ?_) | (with_reducible apply keep_foldl)
                 | (with_reducible apply keep_foldl1) | split | (dsimp only)
                 | (with_reducible refine keep_mk ?_ rfl rfl rfl rfl rfl rfl rfl rfl rfl ?_ ?_ ?_ ?_ ?_ ?_ ?_ ?_ ?_ ?_ ?_ ?_ ?_ ?_ ?_ ?_ ?_ ?_))

theorem keep_freeSlot {P : Area → Prop} {z : State} {s : State} {a_k : Nat} (h : Keeps P z s)
    (kplats : P .plats := by assumption) (ksramUnits : P .sramUnits := by assumption) :
    Keeps P z (freeSlot s a_k) := by
  unfold freeSlot
  repeat' (first | (with_reducible assumption) | (exact Or.inl (by assumption)) | (exact Or.inr rfl)
                 | (exact Or.inr ⟨rfl, rfl, rfl, rfl⟩) | (intro)
                 | (extract_lets +onlyGivenNames y; refine keep_cut (y := y) ?_ ?_; (focus (dsimp only [y]; clear y)); rotate_left; (focus (clear_value y; revert y; intro _ _)))
                 | (extract_lets +onlyGivenNames y; refine keep_cut1 (y := y) ?_ ?_; (focus (dsimp only [y]; clear y)); rotate_left; (focus (clear_value y; revert y; intro _ _)))
                 | (extract_lets +onlyGivenNames y; refine keep_cut2 (y := y) ?_ ?_; (focus (dsimp only [y]; clear y)); rotate_left; (focus (clear_value y; revert y; intro _ _)))
                 | (extract_lets +onlyGivenNames y; clear_value y; revert y; intro _) | (with_reducible apply keep_showShadow)
                 | (with_reducible apply keep_abandonZero) | (with_reducible apply keep_setF)
                 | (with_reducible refine keep_ite ?_ ?_) | split | (dsimp only)
                 | (with_reducible refine keep_mk ?_ rfl rfl rfl rfl rfl rfl rfl rfl rfl ?_ ?_ ?_ ?_ ?_ ?_ ?_ ?_ ?_ ?_ ?_ ?_ ?_ ?_ ?_ ?_ ?_ ?_))

theorem keep_loadCompletes {P : Area → Prop} {z : State} {s : State} {a_ring : Nat} {a_cq : Nat} {a_tag : Nat}
    {a_handle : Nat} {a_status : Nat} {a_reason : Nat} {a_epoch : Nat} (h : Keeps P z s)
    (kdests : P .dests := by assumption) (krings : P .rings := by assumption) :
    Keeps P z (loadCompletes s a_ring a_cq a_tag a_handle a_status a_reason a_epoch) := by
  unfold loadCompletes
  repeat' (first | (with_reducible assumption) | (intro)
                 | (extract_lets +onlyGivenNames y; refine keep_cut (y := y) ?_ ?_; (focus (dsimp only [y]; clear y)); rotate_left; (focus (clear_value y; revert y; intro _ _)))
                 | (extract_lets +onlyGivenNames y; refine keep_cut1 (y := y) ?_ ?_; (focus (dsimp only [y]; clear y)); rotate_left; (focus (clear_value y; revert y; intro _ _)))
                 | (extract_lets +onlyGivenNames y; refine keep_cut2 (y := y) ?_ ?_; (focus (dsimp only [y]; clear y)); rotate_left; (focus (clear_value y; revert y; intro _ _)))
                 | (extract_lets +onlyGivenNames y; clear_value y; revert y; intro _) | (with_reducible apply keep_addF)
                 | (with_reducible apply keep_raise) | (with_reducible apply keep_satF) | (with_reducible apply keep_complete)
                 | (with_reducible refine keep_ite ?_ ?_) | split | (dsimp only))

theorem keep_recordFault {P : Area → Prop} {z : State} {s : State} {a_k : Nat} {a_status : Nat} {a_reason : Nat}
    {a_off : Nat} (h : Keeps P z s) :
    Keeps P z (recordFault s a_k a_status a_reason a_off) := by
  unfold recordFault
  repeat' (first | (with_reducible assumption) | (intro)
                 | (extract_lets +onlyGivenNames y; refine keep_cut (y := y) ?_ ?_; (focus (dsimp only [y]; clear y)); rotate_left; (focus (clear_value y; revert y; intro _ _)))
                 | (extract_lets +onlyGivenNames y; refine keep_cut1 (y := y) ?_ ?_; (focus (dsimp only [y]; clear y)); rotate_left; (focus (clear_value y; revert y; intro _ _)))
                 | (extract_lets +onlyGivenNames y; refine keep_cut2 (y := y) ?_ ?_; (focus (dsimp only [y]; clear y)); rotate_left; (focus (clear_value y; revert y; intro _ _)))
                 | (extract_lets +onlyGivenNames y; clear_value y; revert y; intro _) | (with_reducible apply keep_setF) | split
                 | (dsimp only))

theorem keep_failLoad {P : Area → Prop} {z : State} {s : State} {a_k : Nat} {a_status : Nat} {a_reason : Nat}
    {a_off : Nat} (h : Keeps P z s) (kplats : P .plats := by assumption) (kdests : P .dests := by assumption)
    (krings : P .rings := by assumption) (ksramUnits : P .sramUnits := by assumption) :
    Keeps P z (failLoad s a_k a_status a_reason a_off) := by
  unfold failLoad
  repeat' (first | (with_reducible assumption) | (exact Or.inl (by assumption)) | (exact Or.inr rfl)
                 | (exact Or.inr ⟨rfl, rfl, rfl, rfl⟩) | (intro)
                 | (extract_lets +onlyGivenNames y; refine keep_cut (y := y) ?_ ?_; (focus (dsimp only [y]; clear y)); rotate_left; (focus (clear_value y; revert y; intro _ _)))
                 | (extract_lets +onlyGivenNames y; refine keep_cut1 (y := y) ?_ ?_; (focus (dsimp only [y]; clear y)); rotate_left; (focus (clear_value y; revert y; intro _ _)))
                 | (extract_lets +onlyGivenNames y; refine keep_cut2 (y := y) ?_ ?_; (focus (dsimp only [y]; clear y)); rotate_left; (focus (clear_value y; revert y; intro _ _)))
                 | (extract_lets +onlyGivenNames y; clear_value y; revert y; intro _) | (with_reducible apply keep_recordFault)
                 | (with_reducible apply keep_loadCompletes) | (with_reducible apply keep_freeSlot)
                 | (with_reducible apply keep_takeBanks) | (with_reducible apply keep_withdraw) | split | (dsimp only)
                 | (with_reducible refine keep_mk ?_ rfl rfl rfl rfl rfl rfl rfl rfl rfl ?_ ?_ ?_ ?_ ?_ ?_ ?_ ?_ ?_ ?_ ?_ ?_ ?_ ?_ ?_ ?_ ?_ ?_))

theorem keep_sysTraffic {P : Area → Prop} {z : State} {s : State} {a_d : Nat} {a_cls : Nat} {a_ring : Nat} {a_tag : Nat}
    {a_src : Nat} {a_dst : Nat} {a_n : Nat} (h : Keeps P z s) :
    Keeps P z (sysTraffic s a_d a_cls a_ring a_tag a_src a_dst a_n) := by
  unfold sysTraffic
  repeat' (first | (with_reducible assumption) | (intro)
                 | (extract_lets +onlyGivenNames y; refine keep_cut (y := y) ?_ ?_; (focus (dsimp only [y]; clear y)); rotate_left; (focus (clear_value y; revert y; intro _ _)))
                 | (extract_lets +onlyGivenNames y; refine keep_cut1 (y := y) ?_ ?_; (focus (dsimp only [y]; clear y)); rotate_left; (focus (clear_value y; revert y; intro _ _)))
                 | (extract_lets +onlyGivenNames y; refine keep_cut2 (y := y) ?_ ?_; (focus (dsimp only [y]; clear y)); rotate_left; (focus (clear_value y; revert y; intro _ _)))
                 | (extract_lets +onlyGivenNames y; clear_value y; revert y; intro _) | (with_reducible apply keep_setF)
                 | (with_reducible apply keep_addF) | split | (dsimp only))

theorem keep_loadPlat {P : Area → Prop} {z : State} {s : State} {a_ring : Nat} {a_cq : Nat} {a_tag : Nat}
    {a_body : Bytes} (h : Keeps P z s) (kplats : P .plats := by assumption) (kdests : P .dests := by assumption)
    (krings : P .rings := by assumption) :
    Keeps P z (loadPlat s a_ring a_cq a_tag a_body) := by
  unfold loadPlat
  repeat' (first | (with_reducible assumption) | (exact Or.inl (by assumption)) | (exact Or.inr rfl)
                 | (exact Or.inr ⟨rfl, rfl, rfl, rfl⟩) | (intro)
                 | (extract_lets +onlyGivenNames y; refine keep_cut (y := y) ?_ ?_; (focus (dsimp only [y]; clear y)); rotate_left; (focus (clear_value y; revert y; intro _ _)))
                 | (extract_lets +onlyGivenNames y; refine keep_cut1 (y := y) ?_ ?_; (focus (dsimp only [y]; clear y)); rotate_left; (focus (clear_value y; revert y; intro _ _)))
                 | (extract_lets +onlyGivenNames y; refine keep_cut2 (y := y) ?_ ?_; (focus (dsimp only [y]; clear y)); rotate_left; (focus (clear_value y; revert y; intro _ _)))
                 | (extract_lets +onlyGivenNames y; clear_value y; revert y; intro _)
                 | (with_reducible apply keep_loadCompletes) | (with_reducible apply keep_recordFault)
                 | (with_reducible apply keep_setF) | (with_reducible apply keep_setPhase) | (with_reducible apply keep_emitOut)
                 | (with_reducible refine keep_ite ?_ ?_) | split | (dsimp only)
                 | (with_reducible refine keep_mk ?_ rfl rfl rfl rfl rfl rfl rfl rfl rfl ?_ ?_ ?_ ?_ ?_ ?_ ?_ ?_ ?_ ?_ ?_ ?_ ?_ ?_ ?_ ?_ ?_ ?_))

theorem keep_unloadPlat {P : Area → Prop} {z : State} {s : State} {a_ring : Nat} {a_cq : Nat} {a_tag : Nat}
    {a_body : Bytes} (h : Keeps P z s) (kplats : P .plats := by assumption) (kdests : P .dests := by assumption)
    (krings : P .rings := by assumption) (ksramUnits : P .sramUnits := by assumption) :
    Keeps P z (unloadPlat s a_ring a_cq a_tag a_body) := by
  unfold unloadPlat
  repeat' (first | (with_reducible assumption) | (exact Or.inl (by assumption)) | (exact Or.inr rfl)
                 | (exact Or.inr ⟨rfl, rfl, rfl, rfl⟩) | (intro)
                 | (extract_lets +onlyGivenNames y; refine keep_cut (y := y) ?_ ?_; (focus (dsimp only [y]; clear y)); rotate_left; (focus (clear_value y; revert y; intro _ _)))
                 | (extract_lets +onlyGivenNames y; refine keep_cut1 (y := y) ?_ ?_; (focus (dsimp only [y]; clear y)); rotate_left; (focus (clear_value y; revert y; intro _ _)))
                 | (extract_lets +onlyGivenNames y; refine keep_cut2 (y := y) ?_ ?_; (focus (dsimp only [y]; clear y)); rotate_left; (focus (clear_value y; revert y; intro _ _)))
                 | (extract_lets +onlyGivenNames y; clear_value y; revert y; intro _) | (with_reducible apply keep_complete)
                 | (with_reducible apply keep_failLoad) | (with_reducible refine keep_ite ?_ ?_) | split | (dsimp only)
                 | (with_reducible refine keep_mk ?_ rfl rfl rfl rfl rfl rfl rfl rfl rfl ?_ ?_ ?_ ?_ ?_ ?_ ?_ ?_ ?_ ?_ ?_ ?_ ?_ ?_ ?_ ?_ ?_ ?_))

theorem keep_platFetchDone {P : Area → Prop} {z : State} {s : State} {a_k : Nat} {a_ok : Bool} {a_image : Bytes}
    (h : Keeps P z s) (khbm : P .hbm := by assumption) (kplats : P .plats := by assumption)
    (kdests : P .dests := by assumption) (krings : P .rings := by assumption)
    (ksramUnits : P .sramUnits := by assumption) (khbmUnits : P .hbmUnits := by assumption) :
    Keeps P z (platFetchDone s a_k a_ok a_image) := by
  unfold platFetchDone
  repeat' (first | (with_reducible assumption) | (exact Or.inl (by assumption)) | (exact Or.inr rfl)
                 | (exact Or.inr ⟨rfl, rfl, rfl, rfl⟩) | (intro)
                 | (extract_lets +onlyGivenNames y; refine keep_cut (y := y) ?_ ?_; (focus (dsimp only [y]; clear y)); rotate_left; (focus (clear_value y; revert y; intro _ _)))
                 | (extract_lets +onlyGivenNames y; refine keep_cut1 (y := y) ?_ ?_; (focus (dsimp only [y]; clear y)); rotate_left; (focus (clear_value y; revert y; intro _ _)))
                 | (extract_lets +onlyGivenNames y; refine keep_cut2 (y := y) ?_ ?_; (focus (dsimp only [y]; clear y)); rotate_left; (focus (clear_value y; revert y; intro _ _)))
                 | (extract_lets +onlyGivenNames y; clear_value y; revert y; intro _) | (with_reducible apply keep_failLoad)
                 | (with_reducible apply keep_sysTraffic) | (with_reducible apply keep_hbmWrite)
                 | (with_reducible apply keep_setPhase) | (with_reducible apply keep_modSlot)
                 | (with_reducible refine keep_ite ?_ ?_) | split | (dsimp only)
                 | (with_reducible refine keep_mk ?_ rfl rfl rfl rfl rfl rfl rfl rfl rfl ?_ ?_ ?_ ?_ ?_ ?_ ?_ ?_ ?_ ?_ ?_ ?_ ?_ ?_ ?_ ?_ ?_ ?_))

theorem keep_execPlatFetchDone {P : Area → Prop} {z : State} {a_k : Nat} {a_ok : Bool} {a_image : Bytes} {s : State}
    (h : Keeps P z s) (khbm : P .hbm := by assumption) (kplats : P .plats := by assumption)
    (kdests : P .dests := by assumption) (krings : P .rings := by assumption)
    (ksramUnits : P .sramUnits := by assumption) (khbmUnits : P .hbmUnits := by assumption) :
    ∀ t, execPlatFetchDone a_k a_ok a_image s = .next t → Keeps P z t := by
  unfold execPlatFetchDone; intro t e; injection e with e; subst e
  repeat' (first | (with_reducible assumption) | (intro) | (with_reducible apply keep_platFetchDone) | split | (dsimp only))

theorem keep_platCheckDone {P : Area → Prop} {z : State} {s : State} {a_k : Nat} (h : Keeps P z s)
    (kplats : P .plats := by assumption) (kdests : P .dests := by assumption) (krings : P .rings := by assumption)
    (ksramUnits : P .sramUnits := by assumption) :
    Keeps P z (platCheckDone s a_k) := by
  unfold platCheckDone
  repeat' (first | (with_reducible assumption) | (exact Or.inl (by assumption)) | (exact Or.inr rfl)
                 | (exact Or.inr ⟨rfl, rfl, rfl, rfl⟩) | (intro)
                 | (extract_lets +onlyGivenNames y; refine keep_cut (y := y) ?_ ?_; (focus (dsimp only [y]; clear y)); rotate_left; (focus (clear_value y; revert y; intro _ _)))
                 | (extract_lets +onlyGivenNames y; refine keep_cut1 (y := y) ?_ ?_; (focus (dsimp only [y]; clear y)); rotate_left; (focus (clear_value y; revert y; intro _ _)))
                 | (extract_lets +onlyGivenNames y; refine keep_cut2 (y := y) ?_ ?_; (focus (dsimp only [y]; clear y)); rotate_left; (focus (clear_value y; revert y; intro _ _)))
                 | (extract_lets +onlyGivenNames y; clear_value y; revert y; intro _) | (with_reducible apply keep_failLoad)
                 | (with_reducible apply keep_modSlot) | (with_reducible apply keep_setF) | (with_reducible apply keep_setPhase)
                 | (with_reducible refine keep_ite ?_ ?_) | split | (dsimp only)
                 | (with_reducible refine keep_mk ?_ rfl rfl rfl rfl rfl rfl rfl rfl rfl ?_ ?_ ?_ ?_ ?_ ?_ ?_ ?_ ?_ ?_ ?_ ?_ ?_ ?_ ?_ ?_ ?_ ?_))

theorem keep_execPlatCheckDone {P : Area → Prop} {z : State} {a_k : Nat} {s : State} (h : Keeps P z s)
    (kplats : P .plats := by assumption) (kdests : P .dests := by assumption) (krings : P .rings := by assumption)
    (ksramUnits : P .sramUnits := by assumption) :
    ∀ t, execPlatCheckDone a_k s = .next t → Keeps P z t := by
  unfold execPlatCheckDone; intro t e; injection e with e; subst e
  repeat' (first | (with_reducible assumption) | (intro) | (with_reducible apply keep_platCheckDone) | split | (dsimp only))

theorem keep_gauntletAdmit {P : Area → Prop} {z : State} {s : State} {a_k : Nat} (h : Keeps P z s)
    (kplats : P .plats := by assumption) (kdests : P .dests := by assumption) (krings : P .rings := by assumption)
    (ksramUnits : P .sramUnits := by assumption) :
    Keeps P z (gauntletAdmit s a_k) := by
  unfold gauntletAdmit
  repeat' (first | (with_reducible assumption) | (exact Or.inl (by assumption)) | (exact Or.inr rfl)
                 | (exact Or.inr ⟨rfl, rfl, rfl, rfl⟩) | (intro)
                 | (extract_lets +onlyGivenNames y; refine keep_cut (y := y) ?_ ?_; (focus (dsimp only [y]; clear y)); rotate_left; (focus (clear_value y; revert y; intro _ _)))
                 | (extract_lets +onlyGivenNames y; refine keep_cut1 (y := y) ?_ ?_; (focus (dsimp only [y]; clear y)); rotate_left; (focus (clear_value y; revert y; intro _ _)))
                 | (extract_lets +onlyGivenNames y; refine keep_cut2 (y := y) ?_ ?_; (focus (dsimp only [y]; clear y)); rotate_left; (focus (clear_value y; revert y; intro _ _)))
                 | (extract_lets +onlyGivenNames y; clear_value y; revert y; intro _) | (with_reducible apply keep_failLoad)
                 | (with_reducible apply keep_rejectTrav) | (with_reducible apply keep_takeBanks)
                 | (with_reducible apply keep_refreshGnt) | (with_reducible refine keep_ite ?_ ?_) | split | (dsimp only)
                 | (with_reducible refine keep_mk ?_ rfl rfl rfl rfl rfl rfl rfl rfl rfl ?_ ?_ ?_ ?_ ?_ ?_ ?_ ?_ ?_ ?_ ?_ ?_ ?_ ?_ ?_ ?_ ?_ ?_))

theorem keep_execGauntletAdmit {P : Area → Prop} {z : State} {a_k : Nat} {s : State} (h : Keeps P z s)
    (kplats : P .plats := by assumption) (kdests : P .dests := by assumption) (krings : P .rings := by assumption)
    (ksramUnits : P .sramUnits := by assumption) :
    ∀ t, execGauntletAdmit a_k s = .next t → Keeps P z t := by
  unfold execGauntletAdmit; intro t e; injection e with e; subst e
  repeat' (first | (with_reducible assumption) | (intro) | (with_reducible apply keep_gauntletAdmit) | split | (dsimp only))

theorem keep_zeroUnits {P : Area → Prop} {z : State} {s : State} {a_us : List (Nat × Nat)} (h : Keeps P z s)
    (khbm : P .hbm := by assumption) (khbmUnits : P .hbmUnits := by assumption) :
    Keeps P z (zeroUnits s a_us) := by
  unfold zeroUnits
  repeat' (first | (with_reducible assumption) | (intro) | (with_reducible apply keep_zeroUnit)
                 | (with_reducible apply keep_foldl) | (with_reducible apply keep_foldl1) | split | (dsimp only))

theorem keep_preloadDone {P : Area → Prop} {z : State} {s : State} {a_k : Nat} (h : Keeps P z s)
    (khbm : P .hbm := by assumption) (kplats : P .plats := by assumption) (krings : P .rings := by assumption)
    (khbmUnits : P .hbmUnits := by assumption) :
    Keeps P z (preloadDone s a_k) := by
  unfold preloadDone
  repeat' (first | (with_reducible assumption) | (exact Or.inl (by assumption)) | (exact Or.inr rfl)
                 | (exact Or.inr ⟨rfl, rfl, rfl, rfl⟩) | (intro)
                 | (extract_lets +onlyGivenNames y; refine keep_cut (y := y) ?_ ?_; (focus (dsimp only [y]; clear y)); rotate_left; (focus (clear_value y; revert y; intro _ _)))
                 | (extract_lets +onlyGivenNames y; refine keep_cut1 (y := y) ?_ ?_; (focus (dsimp only [y]; clear y)); rotate_left; (focus (clear_value y; revert y; intro _ _)))
                 | (extract_lets +onlyGivenNames y; refine keep_cut2 (y := y) ?_ ?_; (focus (dsimp only [y]; clear y)); rotate_left; (focus (clear_value y; revert y; intro _ _)))
                 | (extract_lets +onlyGivenNames y; clear_value y; revert y; intro _) | (with_reducible apply keep_modSlot)
                 | (with_reducible apply keep_zeroUnits) | (with_reducible apply keep_raise)
                 | (with_reducible apply keep_setPhase) | (with_reducible refine keep_ite ?_ ?_) | split | (dsimp only)
                 | (with_reducible refine keep_mk ?_ rfl rfl rfl rfl rfl rfl rfl rfl rfl ?_ ?_ ?_ ?_ ?_ ?_ ?_ ?_ ?_ ?_ ?_ ?_ ?_ ?_ ?_ ?_ ?_ ?_))

theorem keep_execPreloadDone {P : Area → Prop} {z : State} {a_k : Nat} {s : State} (h : Keeps P z s)
    (khbm : P .hbm := by assumption) (kplats : P .plats := by assumption) (krings : P .rings := by assumption)
    (khbmUnits : P .hbmUnits := by assumption) :
    ∀ t, execPreloadDone a_k s = .next t → Keeps P z t := by
  unfold execPreloadDone; intro t e; injection e with e; subst e
  repeat' (first | (with_reducible assumption) | (intro) | (with_reducible apply keep_preloadDone) | split | (dsimp only))

theorem keep_replaceZeroingDone {P : Area → Prop} {z : State} {s : State} {a_k : Nat} (h : Keeps P z s)
    (khbm : P .hbm := by assumption) (kplats : P .plats := by assumption) (khbmUnits : P .hbmUnits := by assumption) :
    Keeps P z (replaceZeroingDone s a_k) := by
  unfold replaceZeroingDone
  repeat' (first | (with_reducible assumption) | (exact Or.inl (by assumption)) | (exact Or.inr rfl)
                 | (exact Or.inr ⟨rfl, rfl, rfl, rfl⟩) | (intro)
                 | (extract_lets +onlyGivenNames y; refine keep_cut (y := y) ?_ ?_; (focus (dsimp only [y]; clear y)); rotate_left; (focus (clear_value y; revert y; intro _ _)))
                 | (extract_lets +onlyGivenNames y; refine keep_cut1 (y := y) ?_ ?_; (focus (dsimp only [y]; clear y)); rotate_left; (focus (clear_value y; revert y; intro _ _)))
                 | (extract_lets +onlyGivenNames y; refine keep_cut2 (y := y) ?_ ?_; (focus (dsimp only [y]; clear y)); rotate_left; (focus (clear_value y; revert y; intro _ _)))
                 | (extract_lets +onlyGivenNames y; clear_value y; revert y; intro _) | (with_reducible apply keep_modSlot)
                 | (with_reducible apply keep_zeroUnits) | (with_reducible refine keep_ite ?_ ?_) | split | (dsimp only)
                 | (with_reducible refine keep_mk ?_ rfl rfl rfl rfl rfl rfl rfl rfl rfl ?_ ?_ ?_ ?_ ?_ ?_ ?_ ?_ ?_ ?_ ?_ ?_ ?_ ?_ ?_ ?_ ?_ ?_))

theorem keep_execReplaceZeroingDone {P : Area → Prop} {z : State} {a_k : Nat} {s : State} (h : Keeps P z s)
    (khbm : P .hbm := by assumption) (kplats : P .plats := by assumption) (khbmUnits : P .hbmUnits := by assumption) :
    ∀ t, execReplaceZeroingDone a_k s = .next t → Keeps P z t := by
  unfold execReplaceZeroingDone; intro t e; injection e with e; subst e
  repeat' (first | (with_reducible assumption) | (intro) | (with_reducible apply keep_replaceZeroingDone) | split | (dsimp only))

theorem keep_showActive {P : Area → Prop} {z : State} {s : State} (h : Keeps P z s) :
    Keeps P z (showActive s) := by
  unfold showActive
  repeat' (first | (with_reducible assumption) | (exact Or.inl (by assumption)) | (exact Or.inr rfl)
                 | (exact Or.inr ⟨rfl, rfl, rfl, rfl⟩) | (intro)
                 | (extract_lets +onlyGivenNames y; refine keep_cut (y := y) ?_ ?_; (focus (dsimp only [y]; clear y)); rotate_left; (focus (clear_value y; revert y; intro _ _)))
                 | (extract_lets +onlyGivenNames y; refine keep_cut1 (y := y) ?_ ?_; (focus (dsimp only [y]; clear y)); rotate_left; (focus (clear_value y; revert y; intro _ _)))
                 | (extract_lets +onlyGivenNames y; refine keep_cut2 (y := y) ?_ ?_; (focus (dsimp only [y]; clear y)); rotate_left; (focus (clear_value y; revert y; intro _ _)))
                 | (extract_lets +onlyGivenNames y; clear_value y; revert y; intro _) | (with_reducible apply keep_setF)
                 | (with_reducible refine keep_ite ?_ ?_) | (with_reducible apply keep_foldl)
                 | (with_reducible apply keep_foldl1) | split | (dsimp only)
                 | (with_reducible refine keep_mk ?_ rfl rfl rfl rfl rfl rfl rfl rfl rfl ?_ ?_ ?_ ?_ ?_ ?_ ?_ ?_ ?_ ?_ ?_ ?_ ?_ ?_ ?_ ?_ ?_ ?_))

theorem keep_swapBanks {P : Area → Prop} {z : State} {s : State} {a_p : Plat} (h : Keeps P z s) :
    Keeps P z (swapBanks s a_p) := by
  unfold swapBanks
  repeat' (first | (with_reducible assumption) | (intro)
                 | (extract_lets +onlyGivenNames y; refine keep_cut (y := y) ?_ ?_; (focus (dsimp only [y]; clear y)); rotate_left; (focus (clear_value y; revert y; intro _ _)))
                 | (extract_lets +onlyGivenNames y; refine keep_cut1 (y := y) ?_ ?_; (focus (dsimp only [y]; clear y)); rotate_left; (focus (clear_value y; revert y; intro _ _)))
                 | (extract_lets +onlyGivenNames y; refine keep_cut2 (y := y) ?_ ?_; (focus (dsimp only [y]; clear y)); rotate_left; (focus (clear_value y; revert y; intro _ _)))
                 | (extract_lets +onlyGivenNames y; clear_value y; revert y; intro _) | (with_reducible apply keep_setF)
                 | (with_reducible apply keep_addF) | (with_reducible apply keep_showShadow) | (with_reducible apply keep_foldl)
                 | (with_reducible apply keep_foldl1) | split | (dsimp only))

theorem keep_armStake {P : Area → Prop} {z : State} {s : State} {a_h : Nat} {a_n : Nat} {a_k : StakeRec}
    (h : Keeps P z s) (kbmk : P .bmk := by assumption) (kplats : P .plats := by assumption) :
    Keeps P z (armStake s a_h a_n a_k) := by
  unfold armStake
  repeat' (first | (with_reducible assumption) | (exact Or.inl (by assumption)) | (exact Or.inr rfl)
                 | (exact Or.inr ⟨rfl, rfl, rfl, rfl⟩) | (intro)
                 | (extract_lets +onlyGivenNames y; refine keep_cut (y := y) ?_ ?_; (focus (dsimp only [y]; clear y)); rotate_left; (focus (clear_value y; revert y; intro _ _)))
                 | (extract_lets +onlyGivenNames y; refine keep_cut1 (y := y) ?_ ?_; (focus (dsimp only [y]; clear y)); rotate_left; (focus (clear_value y; revert y; intro _ _)))
                 | (extract_lets +onlyGivenNames y; refine keep_cut2 (y := y) ?_ ?_; (focus (dsimp only [y]; clear y)); rotate_left; (focus (clear_value y; revert y; intro _ _)))
                 | (extract_lets +onlyGivenNames y; clear_value y; revert y; intro _) | (with_reducible apply keep_setF)
                 | (with_reducible apply keep_modBmk) | (with_reducible refine keep_ite ?_ ?_) | split | (dsimp only)
                 | (with_reducible refine keep_mk ?_ rfl rfl rfl rfl rfl rfl rfl rfl rfl ?_ ?_ ?_ ?_ ?_ ?_ ?_ ?_ ?_ ?_ ?_ ?_ ?_ ?_ ?_ ?_ ?_ ?_))

theorem keep_fireAtActivation {P : Area → Prop} {z : State} {s : State} {a_n : Nat} (h : Keeps P z s)
    (kbmk : P .bmk := by assumption) (kfabric : P .fabric := by assumption) (krings : P .rings := by assumption)
    (ktwins : P .twins := by assumption) (klog : P .log := by assumption) :
    Keeps P z (fireAtActivation s a_n) := by
  unfold fireAtActivation
  repeat' (first | (with_reducible assumption) | (exact Or.inl (by assumption)) | (exact Or.inr rfl)
                 | (exact Or.inr ⟨rfl, rfl, rfl, rfl⟩) | (intro)
                 | (extract_lets +onlyGivenNames y; refine keep_cut (y := y) ?_ ?_; (focus (dsimp only [y]; clear y)); rotate_left; (focus (clear_value y; revert y; intro _ _)))
                 | (extract_lets +onlyGivenNames y; refine keep_cut1 (y := y) ?_ ?_; (focus (dsimp only [y]; clear y)); rotate_left; (focus (clear_value y; revert y; intro _ _)))
                 | (extract_lets +onlyGivenNames y; refine keep_cut2 (y := y) ?_ ?_; (focus (dsimp only [y]; clear y)); rotate_left; (focus (clear_value y; revert y; intro _ _)))
                 | (extract_lets +onlyGivenNames y; clear_value y; revert y; intro _) | (with_reducible apply keep_fireStake)
                 | (with_reducible refine keep_ite ?_ ?_) | split | (dsimp only)
                 | (with_reducible refine keep_mk ?_ rfl rfl rfl rfl rfl rfl rfl rfl rfl ?_ ?_ ?_ ?_ ?_ ?_ ?_ ?_ ?_ ?_ ?_ ?_ ?_ ?_ ?_ ?_ ?_ ?_))

theorem keep_activatePlat {P : Area → Prop} {z : State} {s : State} {a_k : Nat} (h : Keeps P z s)
    (kbmk : P .bmk := by assumption) (kplats : P .plats := by assumption) (kfabric : P .fabric := by assumption)
    (kdests : P .dests := by assumption) (krings : P .rings := by assumption)
    (ksramUnits : P .sramUnits := by assumption) (ktwins : P .twins := by assumption) (klog : P .log := by assumption) :
    Keeps P z (activatePlat s a_k) := by
  unfold activatePlat
  repeat' (first | (with_reducible assumption) | (exact Or.inl (by assumption)) | (exact Or.inr rfl)
                 | (exact Or.inr ⟨rfl, rfl, rfl, rfl⟩) | (intro)
                 | (extract_lets +onlyGivenNames y; refine keep_cut (y := y) ?_ ?_; (focus (dsimp only [y]; clear y)); rotate_left; (focus (clear_value y; revert y; intro _ _)))
                 | (extract_lets +onlyGivenNames y; refine keep_cut1 (y := y) ?_ ?_; (focus (dsimp only [y]; clear y)); rotate_left; (focus (clear_value y; revert y; intro _ _)))
                 | (extract_lets +onlyGivenNames y; refine keep_cut2 (y := y) ?_ ?_; (focus (dsimp only [y]; clear y)); rotate_left; (focus (clear_value y; revert y; intro _ _)))
                 | (extract_lets +onlyGivenNames y; clear_value y; revert y; intro _) | (with_reducible apply keep_swapBanks)
                 | (with_reducible apply keep_armStake) | (with_reducible apply keep_loadCompletes)
                 | (with_reducible apply keep_freeSlot) | (with_reducible apply keep_setPhase)
                 | (with_reducible apply keep_raise) | (with_reducible apply keep_showActive)
                 | (with_reducible apply keep_takeBanks) | (with_reducible apply keep_fireAtActivation)
                 | (with_reducible apply keep_foldl) | (with_reducible apply keep_foldl1) | split | (dsimp only)
                 | (with_reducible refine keep_mk ?_ rfl rfl rfl rfl rfl rfl rfl rfl rfl ?_ ?_ ?_ ?_ ?_ ?_ ?_ ?_ ?_ ?_ ?_ ?_ ?_ ?_ ?_ ?_ ?_ ?_))

theorem keep_dropResults {P : Area → Prop} {z : State} {s : State} {a_p : Nat → Bool} (h : Keeps P z s)
    (kports : P .ports := by assumption) (kdests : P .dests := by assumption) (ktwins : P .twins := by assumption) :
    Keeps P z (dropResults s a_p) := by
  unfold dropResults
  repeat' (first | (with_reducible assumption) | (exact Or.inl (by assumption)) | (exact Or.inr rfl)
                 | (exact Or.inr ⟨rfl, rfl, rfl, rfl⟩) | (intro)
                 | (extract_lets +onlyGivenNames y; refine keep_cut (y := y) ?_ ?_; (focus (dsimp only [y]; clear y)); rotate_left; (focus (clear_value y; revert y; intro _ _)))
                 | (extract_lets +onlyGivenNames y; refine keep_cut1 (y := y) ?_ ?_; (focus (dsimp only [y]; clear y)); rotate_left; (focus (clear_value y; revert y; intro _ _)))
                 | (extract_lets +onlyGivenNames y; refine keep_cut2 (y := y) ?_ ?_; (focus (dsimp only [y]; clear y)); rotate_left; (focus (clear_value y; revert y; intro _ _)))
                 | (extract_lets +onlyGivenNames y; have q : (_ : _) → _ := y; clear q; dsimp only [y]; clear y)
                 | (extract_lets +onlyGivenNames y; clear_value y; revert y; intro _) | split | (dsimp only)
                 | (with_reducible refine keep_mk ?_ rfl rfl rfl rfl rfl rfl rfl rfl rfl ?_ ?_ ?_ ?_ ?_ ?_ ?_ ?_ ?_ ?_ ?_ ?_ ?_ ?_ ?_ ?_ ?_ ?_))

theorem keep_disownRequests {P : Area → Prop} {z : State} {s : State} {a_p : Nat → Bool} (h : Keeps P z s)
    (kfabric : P .fabric := by assumption) (ksramUnits : P .sramUnits := by assumption)
    (khbmUnits : P .hbmUnits := by assumption) :
    Keeps P z (disownRequests s a_p) := by
  unfold disownRequests
  repeat' (first | (with_reducible assumption) | (exact Or.inl (by assumption)) | (exact Or.inr rfl)
                 | (exact Or.inr ⟨rfl, rfl, rfl, rfl⟩) | (intro)
                 | (extract_lets +onlyGivenNames y; refine keep_cut (y := y) ?_ ?_; (focus (dsimp only [y]; clear y)); rotate_left; (focus (clear_value y; revert y; intro _ _)))
                 | (extract_lets +onlyGivenNames y; refine keep_cut1 (y := y) ?_ ?_; (focus (dsimp only [y]; clear y)); rotate_left; (focus (clear_value y; revert y; intro _ _)))
                 | (extract_lets +onlyGivenNames y; refine keep_cut2 (y := y) ?_ ?_; (focus (dsimp only [y]; clear y)); rotate_left; (focus (clear_value y; revert y; intro _ _)))
                 | (extract_lets +onlyGivenNames y; have q : Hbm := y; clear q; dsimp only [y]; clear y)
                 | (extract_lets +onlyGivenNames y; have q : Srm := y; clear q; dsimp only [y]; clear y)
                 | (extract_lets +onlyGivenNames y; have q : (_ : _) → _ := y; clear q; dsimp only [y]; clear y)
                 | (extract_lets +onlyGivenNames y; clear_value y; revert y; intro _) | (with_reducible apply keep_setOut)
                 | (with_reducible refine keep_ite ?_ ?_) | (with_reducible apply keep_foldl)
                 | (with_reducible apply keep_foldl1) | split | (dsimp only)
                 | (with_reducible refine keep_mk ?_ rfl rfl rfl rfl rfl rfl rfl rfl rfl ?_ ?_ ?_ ?_ ?_ ?_ ?_ ?_ ?_ ?_ ?_ ?_ ?_ ?_ ?_ ?_ ?_ ?_))

theorem keep_abortInvs {P : Area → Prop} {z : State} {s : State} {a_p : Nat → Bool} {a_status : Nat} {a_reason : Nat}
    (h : Keeps P z s) (kfabric : P .fabric := by assumption) (kdests : P .dests := by assumption)
    (krings : P .rings := by assumption) :
    Keeps P z (abortInvs s a_p a_status a_reason) := by
  unfold abortInvs
  repeat' (first | (with_reducible assumption) | (exact Or.inl (by assumption)) | (exact Or.inr rfl)
                 | (exact Or.inr ⟨rfl, rfl, rfl, rfl⟩) | (intro)
                 | (extract_lets +onlyGivenNames y; refine keep_cut (y := y) ?_ ?_; (focus (dsimp only [y]; clear y)); rotate_left; (focus (clear_value y; revert y; intro _ _)))
                 | (extract_lets +onlyGivenNames y; refine keep_cut1 (y := y) ?_ ?_; (focus (dsimp only [y]; clear y)); rotate_left; (focus (clear_value y; revert y; intro _ _)))
                 | (extract_lets +onlyGivenNames y; refine keep_cut2 (y := y) ?_ ?_; (focus (dsimp only [y]; clear y)); rotate_left; (focus (clear_value y; revert y; intro _ _)))
                 | (extract_lets +onlyGivenNames y; clear_value y; revert y; intro _) | (with_reducible apply keep_endInv)
                 | (with_reducible refine keep_ite ?_ ?_) | (with_reducible apply keep_foldl)
                 | (with_reducible apply keep_foldl1) | split | (dsimp only)
                 | (with_reducible refine keep_mk ?_ rfl rfl rfl rfl rfl rfl rfl rfl rfl ?_ ?_ ?_ ?_ ?_ ?_ ?_ ?_ ?_ ?_ ?_ ?_ ?_ ?_ ?_ ?_ ?_ ?_))

theorem keep_discardTravs {P : Area → Prop} {z : State} {s : State} {a_p : Nat → Bool} (h : Keeps P z s)
    (kbmk : P .bmk := by assumption) (kports : P .ports := by assumption) (kfabric : P .fabric := by assumption)
    (kdests : P .dests := by assumption) (krings : P .rings := by assumption)
    (ksramUnits : P .sramUnits := by assumption) (khbmUnits : P .hbmUnits := by assumption)
    (ktwins : P .twins := by assumption) :
    Keeps P z (discardTravs s a_p) := by
  unfold discardTravs
  repeat' (first | (with_reducible assumption) | (exact Or.inl (by assumption)) | (exact Or.inr rfl)
                 | (exact Or.inr ⟨rfl, rfl, rfl, rfl⟩) | (intro)
                 | (extract_lets +onlyGivenNames y; refine keep_cut (y := y) ?_ ?_; (focus (dsimp only [y]; clear y)); rotate_left; (focus (clear_value y; revert y; intro _ _)))
                 | (extract_lets +onlyGivenNames y; refine keep_cut1 (y := y) ?_ ?_; (focus (dsimp only [y]; clear y)); rotate_left; (focus (clear_value y; revert y; intro _ _)))
                 | (extract_lets +onlyGivenNames y; refine keep_cut2 (y := y) ?_ ?_; (focus (dsimp only [y]; clear y)); rotate_left; (focus (clear_value y; revert y; intro _ _)))
                 | (extract_lets +onlyGivenNames y; clear_value y; revert y; intro _) | (with_reducible apply keep_purgeTiles)
                 | (with_reducible apply keep_disownRequests) | (with_reducible apply keep_dropResults)
                 | (with_reducible apply keep_purgeTravel) | (with_reducible apply keep_modFab)
                 | (with_reducible apply keep_modBmk) | split | (dsimp only)
                 | (with_reducible refine keep_mk ?_ rfl rfl rfl rfl rfl rfl rfl rfl rfl ?_ ?_ ?_ ?_ ?_ ?_ ?_ ?_ ?_ ?_ ?_ ?_ ?_ ?_ ?_ ?_ ?_ ?_))

theorem keep_freeStakesOf {P : Area → Prop} {z : State} {s : State} {a_h : Nat} (h : Keeps P z s)
    (kplats : P .plats := by assumption) :
    Keeps P z (freeStakesOf s a_h) := by
  unfold freeStakesOf
  repeat' (first | (with_reducible assumption) | (exact Or.inl (by assumption)) | (exact Or.inr rfl)
                 | (exact Or.inr ⟨rfl, rfl, rfl, rfl⟩) | (intro)
                 | (extract_lets +onlyGivenNames y; refine keep_cut (y := y) ?_ ?_; (focus (dsimp only [y]; clear y)); rotate_left; (focus (clear_value y; revert y; intro _ _)))
                 | (extract_lets +onlyGivenNames y; refine keep_cut1 (y := y) ?_ ?_; (focus (dsimp only [y]; clear y)); rotate_left; (focus (clear_value y; revert y; intro _ _)))
                 | (extract_lets +onlyGivenNames y; refine keep_cut2 (y := y) ?_ ?_; (focus (dsimp only [y]; clear y)); rotate_left; (focus (clear_value y; revert y; intro _ _)))
                 | (extract_lets +onlyGivenNames y; clear_value y; revert y; intro _) | (with_reducible apply keep_setF)
                 | (with_reducible apply keep_foldl) | (with_reducible apply keep_foldl1) | split | (dsimp only)
                 | (with_reducible refine keep_mk ?_ rfl rfl rfl rfl rfl rfl rfl rfl rfl ?_ ?_ ?_ ?_ ?_ ?_ ?_ ?_ ?_ ?_ ?_ ?_ ?_ ?_ ?_ ?_ ?_ ?_))

theorem keep_removePlat {P : Area → Prop} {z : State} {s : State} {a_h : Nat} (h : Keeps P z s)
    (kbmk : P .bmk := by assumption) (kports : P .ports := by assumption) (kplats : P .plats := by assumption)
    (kfabric : P .fabric := by assumption) (kdests : P .dests := by assumption) (krings : P .rings := by assumption)
    (ksramUnits : P .sramUnits := by assumption) (khbmUnits : P .hbmUnits := by assumption)
    (ktwins : P .twins := by assumption) :
    Keeps P z (removePlat s a_h) := by
  unfold removePlat
  repeat' (first | (with_reducible assumption) | (exact Or.inl (by assumption)) | (exact Or.inr rfl)
                 | (exact Or.inr ⟨rfl, rfl, rfl, rfl⟩) | (intro)
                 | (extract_lets +onlyGivenNames y; refine keep_cut (y := y) ?_ ?_; (focus (dsimp only [y]; clear y)); rotate_left; (focus (clear_value y; revert y; intro _ _)))
                 | (extract_lets +onlyGivenNames y; refine keep_cut1 (y := y) ?_ ?_; (focus (dsimp only [y]; clear y)); rotate_left; (focus (clear_value y; revert y; intro _ _)))
                 | (extract_lets +onlyGivenNames y; refine keep_cut2 (y := y) ?_ ?_; (focus (dsimp only [y]; clear y)); rotate_left; (focus (clear_value y; revert y; intro _ _)))
                 | (extract_lets +onlyGivenNames y; have q : (_ : _) → _ := y; clear q; dsimp only [y]; clear y)
                 | (extract_lets +onlyGivenNames y; clear_value y; revert y; intro _) | (with_reducible apply keep_abortInvs)
                 | (with_reducible apply keep_discardTravs) | (with_reducible apply keep_freeStakesOf)
                 | (with_reducible apply keep_setF) | (with_reducible apply keep_withdraw)
                 | (with_reducible apply keep_showActive) | (with_reducible apply keep_foldl)
                 | (with_reducible apply keep_foldl1) | split | (dsimp only)
                 | (with_reducible refine keep_mk ?_ rfl rfl rfl rfl rfl rfl rfl rfl rfl ?_ ?_ ?_ ?_ ?_ ?_ ?_ ?_ ?_ ?_ ?_ ?_ ?_ ?_ ?_ ?_ ?_ ?_))

theorem keep_commitRemoval {P : Area → Prop} {z : State} {s : State} {a_h : Nat} (h : Keeps P z s)
    (kbmk : P .bmk := by assumption) (kports : P .ports := by assumption) (kplats : P .plats := by assumption)
    (kfabric : P .fabric := by assumption) (kdests : P .dests := by assumption) (krings : P .rings := by assumption)
    (ksramUnits : P .sramUnits := by assumption) (khbmUnits : P .hbmUnits := by assumption)
    (ktwins : P .twins := by assumption) :
    Keeps P z (commitRemoval s a_h) := by
  unfold commitRemoval
  repeat' (first | (with_reducible assumption) | (intro) | (with_reducible apply keep_raise)
                 | (with_reducible apply keep_removePlat) | (with_reducible refine keep_ite ?_ ?_) | split | (dsimp only))

theorem keep_commitUnloads {P : Area → Prop} {z : State} {s : State} (h : Keeps P z s) (kbmk : P .bmk := by assumption)
    (kports : P .ports := by assumption) (kplats : P .plats := by assumption) (kfabric : P .fabric := by assumption)
    (kdests : P .dests := by assumption) (krings : P .rings := by assumption)
    (ksramUnits : P .sramUnits := by assumption) (khbmUnits : P .hbmUnits := by assumption)
    (ktwins : P .twins := by assumption) :
    Keeps P z (commitUnloads s) := by
  unfold commitUnloads
  repeat' (first | (with_reducible assumption) | (exact Or.inl (by assumption)) | (exact Or.inr rfl)
                 | (exact Or.inr ⟨rfl, rfl, rfl, rfl⟩) | (intro)
                 | (extract_lets +onlyGivenNames y; refine keep_cut (y := y) ?_ ?_; (focus (dsimp only [y]; clear y)); rotate_left; (focus (clear_value y; revert y; intro _ _)))
                 | (extract_lets +onlyGivenNames y; refine keep_cut1 (y := y) ?_ ?_; (focus (dsimp only [y]; clear y)); rotate_left; (focus (clear_value y; revert y; intro _ _)))
                 | (extract_lets +onlyGivenNames y; refine keep_cut2 (y := y) ?_ ?_; (focus (dsimp only [y]; clear y)); rotate_left; (focus (clear_value y; revert y; intro _ _)))
                 | (extract_lets +onlyGivenNames y; clear_value y; revert y; intro _) | (with_reducible apply keep_complete)
                 | (with_reducible apply keep_commitRemoval) | (with_reducible apply keep_foldl)
                 | (with_reducible apply keep_foldl1) | split | (dsimp only)
                 | (with_reducible refine keep_mk ?_ rfl rfl rfl rfl rfl rfl rfl rfl rfl ?_ ?_ ?_ ?_ ?_ ?_ ?_ ?_ ?_ ?_ ?_ ?_ ?_ ?_ ?_ ?_ ?_ ?_))

theorem keep_commitSlot {P : Area → Prop} {z : State} {s : State} {a_k : Nat} (h : Keeps P z s)
    (kbmk : P .bmk := by assumption) (kports : P .ports := by assumption) (kplats : P .plats := by assumption)
    (kfabric : P .fabric := by assumption) (kdests : P .dests := by assumption) (krings : P .rings := by assumption)
    (ksramUnits : P .sramUnits := by assumption) (khbmUnits : P .hbmUnits := by assumption)
    (ktwins : P .twins := by assumption) (klog : P .log := by assumption) :
    Keeps P z (commitSlot s a_k) := by
  unfold commitSlot
  repeat' (first | (with_reducible assumption) | (exact Or.inl (by assumption)) | (exact Or.inr rfl)
                 | (exact Or.inr ⟨rfl, rfl, rfl, rfl⟩) | (intro)
                 | (extract_lets +onlyGivenNames y; refine keep_cut (y := y) ?_ ?_; (focus (dsimp only [y]; clear y)); rotate_left; (focus (clear_value y; revert y; intro _ _)))
                 | (extract_lets +onlyGivenNames y; refine keep_cut1 (y := y) ?_ ?_; (focus (dsimp only [y]; clear y)); rotate_left; (focus (clear_value y; revert y; intro _ _)))
                 | (extract_lets +onlyGivenNames y; refine keep_cut2 (y := y) ?_ ?_; (focus (dsimp only [y]; clear y)); rotate_left; (focus (clear_value y; revert y; intro _ _)))
                 | (extract_lets +onlyGivenNames y; clear_value y; revert y; intro _) | (with_reducible apply keep_raise)
                 | (with_reducible apply keep_failLoad) | (with_reducible apply keep_modSlot)
                 | (with_reducible apply keep_startSlices) | (with_reducible apply keep_commitRemoval)
                 | (with_reducible apply keep_activatePlat) | (with_reducible refine keep_ite ?_ ?_) | split | (dsimp only)
                 | (with_reducible refine keep_mk ?_ rfl rfl rfl rfl rfl rfl rfl rfl rfl ?_ ?_ ?_ ?_ ?_ ?_ ?_ ?_ ?_ ?_ ?_ ?_ ?_ ?_ ?_ ?_ ?_ ?_))

theorem keep_commitPlats {P : Area → Prop} {z : State} {s : State} (h : Keeps P z s) (kbmk : P .bmk := by assumption)
    (kports : P .ports := by assumption) (kplats : P .plats := by assumption) (kfabric : P .fabric := by assumption)
    (kdests : P .dests := by assumption) (krings : P .rings := by assumption)
    (ksramUnits : P .sramUnits := by assumption) (khbmUnits : P .hbmUnits := by assumption)
    (ktwins : P .twins := by assumption) (klog : P .log := by assumption) :
    Keeps P z (commitPlats s) := by
  unfold commitPlats
  repeat' (first | (with_reducible assumption) | (intro)
                 | (extract_lets +onlyGivenNames y; refine keep_cut (y := y) ?_ ?_; (focus (dsimp only [y]; clear y)); rotate_left; (focus (clear_value y; revert y; intro _ _)))
                 | (extract_lets +onlyGivenNames y; refine keep_cut1 (y := y) ?_ ?_; (focus (dsimp only [y]; clear y)); rotate_left; (focus (clear_value y; revert y; intro _ _)))
                 | (extract_lets +onlyGivenNames y; refine keep_cut2 (y := y) ?_ ?_; (focus (dsimp only [y]; clear y)); rotate_left; (focus (clear_value y; revert y; intro _ _)))
                 | (extract_lets +onlyGivenNames y; clear_value y; revert y; intro _)
                 | (with_reducible apply keep_commitUnloads) | (with_reducible apply keep_commitSlot)
                 | (with_reducible apply keep_foldl) | (with_reducible apply keep_foldl1) | split | (dsimp only))

theorem keep_fabIndStep {P : Area → Prop} {z : State} {s : State} {a_t : Nat} (h : Keeps P z s) :
    Keeps P z (fabIndStep s a_t) := by
  unfold fabIndStep
  repeat' (first | (with_reducible assumption) | (intro) | (with_reducible apply keep_addF)
                 | (with_reducible refine keep_ite ?_ ?_) | split | (dsimp only))

theorem keep_bankWord {P : Area → Prop} {z : State} {s : State} {a_code : List Nat} {a_i : Nat} (h : Keeps P z s) :
    Keeps P z (bankWord s a_code a_i).1 := by
  unfold bankWord
  repeat' (first | (with_reducible assumption) | (exact Or.inl (by assumption)) | (exact Or.inr rfl)
                 | (exact Or.inr ⟨rfl, rfl, rfl, rfl⟩) | (intro)
                 | (extract_lets +onlyGivenNames y; refine keep_cut (y := y) ?_ ?_; (focus (dsimp only [y]; clear y)); rotate_left; (focus (clear_value y; revert y; intro _ _)))
                 | (extract_lets +onlyGivenNames y; refine keep_cut1 (y := y) ?_ ?_; (focus (dsimp only [y]; clear y)); rotate_left; (focus (clear_value y; revert y; intro _ _)))
                 | (extract_lets +onlyGivenNames y; refine keep_cut2 (y := y) ?_ ?_; (focus (dsimp only [y]; clear y)); rotate_left; (focus (clear_value y; revert y; intro _ _)))
                 | (extract_lets +onlyGivenNames y; clear_value y; revert y; intro _) | (with_reducible apply keep_fresh)
                 | split | (dsimp only)
                 | (with_reducible refine keep_mk ?_ rfl rfl rfl rfl rfl rfl rfl rfl rfl ?_ ?_ ?_ ?_ ?_ ?_ ?_ ?_ ?_ ?_ ?_ ?_ ?_ ?_ ?_ ?_ ?_ ?_))

theorem keep_fabIndRead {P : Area → Prop} {z : State} {s : State} {a_t : Nat} (h : Keeps P z s) :
    Keeps P z (fabIndRead s a_t).1 := by
  unfold fabIndRead
  repeat' (first | (with_reducible assumption) | (intro)
                 | (extract_lets +onlyGivenNames y; refine keep_cut (y := y) ?_ ?_; (focus (dsimp only [y]; clear y)); rotate_left; (focus (clear_value y; revert y; intro _ _)))
                 | (extract_lets +onlyGivenNames y; refine keep_cut1 (y := y) ?_ ?_; (focus (dsimp only [y]; clear y)); rotate_left; (focus (clear_value y; revert y; intro _ _)))
                 | (extract_lets +onlyGivenNames y; refine keep_cut2 (y := y) ?_ ?_; (focus (dsimp only [y]; clear y)); rotate_left; (focus (clear_value y; revert y; intro _ _)))
                 | (extract_lets +onlyGivenNames y; clear_value y; revert y; intro _) | (with_reducible apply keep_bankWord)
                 | (with_reducible apply keep_fabIndStep) | (with_reducible refine keep_ite ?_ ?_) | split | (dsimp only))

theorem keep_fabIndWrite {P : Area → Prop} {z : State} {s : State} {a_fn : Nat} {a_t : Nat} {a_v : Nat} (h : Keeps P z s)
    (ktiles : P .tiles := by assumption) (krings : P .rings := by assumption) (ktwins : P .twins := by assumption)
    (klog : P .log := by assumption) :
    Keeps P z (fabIndWrite s a_fn a_t a_v) := by
  unfold fabIndWrite
  repeat' (first | (with_reducible assumption) | (intro)
                 | (extract_lets +onlyGivenNames y; refine keep_cut (y := y) ?_ ?_; (focus (dsimp only [y]; clear y)); rotate_left; (focus (clear_value y; revert y; intro _ _)))
                 | (extract_lets +onlyGivenNames y; refine keep_cut1 (y := y) ?_ ?_; (focus (dsimp only [y]; clear y)); rotate_left; (focus (clear_value y; revert y; intro _ _)))
                 | (extract_lets +onlyGivenNames y; refine keep_cut2 (y := y) ?_ ?_; (focus (dsimp only [y]; clear y)); rotate_left; (focus (clear_value y; revert y; intro _ _)))
                 | (extract_lets +onlyGivenNames y; clear_value y; revert y; intro _) | (with_reducible apply keep_logC)
                 | (with_reducible apply keep_logWWR) | (with_reducible apply keep_wrWord)
                 | (with_reducible apply keep_fabIndStep) | (with_reducible refine keep_ite ?_ ?_)
                 | (with_reducible apply keep_foldl) | (with_reducible apply keep_foldl1) | split | (dsimp only)
                 | (exact by decide) | (show P _; assumption) | (exact memArea_of ‹_› ‹_› ‹_›))

theorem keep_execFabIndDataWrite {P : Area → Prop} {z : State} {a_fn : Nat} {a_t : Nat} {a_v : Nat} {s : State}
    (h : Keeps P z s) (ktiles : P .tiles := by assumption) (krings : P .rings := by assumption)
    (ktwins : P .twins := by assumption) (klog : P .log := by assumption) :
    ∀ t, execFabIndDataWrite a_fn a_t a_v s = .next t → Keeps P z t := by
  unfold execFabIndDataWrite; intro t e; injection e with e; subst e
  repeat' (first | (with_reducible assumption) | (intro) | (with_reducible apply keep_fabIndWrite)
                 | (with_reducible refine keep_ite ?_ ?_) | split | (dsimp only))

theorem keep_execFabIndDataRead {P : Area → Prop} {z : State} {a__fn : Nat} {a_t : Nat} {s : State} (h : Keeps P z s) :
    ∀ t, execFabIndDataRead a__fn a_t s = .next t → Keeps P z t := by
  unfold execFabIndDataRead; intro t e; injection e with e; subst e
  repeat' (first | (with_reducible assumption) | (intro)
                 | (extract_lets +onlyGivenNames y; refine keep_cut (y := y) ?_ ?_; (focus (dsimp only [y]; clear y)); rotate_left; (focus (clear_value y; revert y; intro _ _)))
                 | (extract_lets +onlyGivenNames y; refine keep_cut1 (y := y) ?_ ?_; (focus (dsimp only [y]; clear y)); rotate_left; (focus (clear_value y; revert y; intro _ _)))
                 | (extract_lets +onlyGivenNames y; refine keep_cut2 (y := y) ?_ ?_; (focus (dsimp only [y]; clear y)); rotate_left; (focus (clear_value y; revert y; intro _ _)))
                 | (extract_lets +onlyGivenNames y; clear_value y; revert y; intro _) | (with_reducible apply keep_answer)
                 | (with_reducible apply keep_fabIndRead) | (with_reducible refine keep_ite ?_ ?_) | split | (dsimp only))

end Sys2Proof.Machine
end

