-- ==== Sys2Proof/Laws/KeepAddr.lean ====
section
/-! SUPPORT. What the operations of Machine/Addr.lean keep (Laws/Keep.lean), one lemma per operation. -/

set_option linter.tactic.unusedName false
set_option linter.all false
set_option Elab.async false

namespace Sys2Proof.Machine

theorem keep_addrAsk {P : Area → Prop} {z : State} {s : State} {a_fn : Nat} {a_a : Nat} {a_n : Nat} {a_cls : Nat}
    {a_who : Nat} {a_urgent : Bool} (h : Keeps P z s) (khbm : P .hbm := by assumption)
    (khbmUnits : P .hbmUnits := by assumption) :
    Keeps P z (addrAsk s a_fn a_a a_n a_cls a_who a_urgent) := by
  unfold addrAsk
  repeat' (first | (with_reducible assumption) | (intro) | (with_reducible apply keep_hbmAsk)
                 | (with_reducible refine keep_ite ?_ ?_) | split | (dsimp only))

theorem keep_readAddr {P : Area → Prop} {z : State} {s : State} {a_fn : Nat} {a_a : Nat} {a_n : Nat} {a_cls : Nat}
    {a_who : Nat} {a_host : Bytes} {a_hostError : Bool} (h : Keeps P z s) (khbm : P .hbm := by assumption)
    (khbmUnits : P .hbmUnits := by assumption) :
    Keeps P z (readAddr s a_fn a_a a_n a_cls a_who a_host a_hostError).1 := by
  unfold readAddr
  repeat' (first | (with_reducible assumption) | (intro)
                 | (extract_lets +onlyGivenNames y; refine keep_cut (y := y) ?_ ?_; (focus (dsimp only [y]; clear y)); rotate_left; (focus (clear_value y; revert y; intro _ _)))
                 | (extract_lets +onlyGivenNames y; refine keep_cut1 (y := y) ?_ ?_; (focus (dsimp only [y]; clear y)); rotate_left; (focus (clear_value y; revert y; intro _ _)))
                 | (extract_lets +onlyGivenNames y; refine keep_cut2 (y := y) ?_ ?_; (focus (dsimp only [y]; clear y)); rotate_left; (focus (clear_value y; revert y; intro _ _)))
                 | (extract_lets +onlyGivenNames y; clear_value y; revert y; intro _) | (with_reducible apply keep_emitOut)
                 | (with_reducible apply keep_hbmRead) | (with_reducible refine keep_ite ?_ ?_) | split | (dsimp only))

theorem keep_writeAddr {P : Area → Prop} {z : State} {s : State} {a_fn : Nat} {a_a : Nat} {a_data : Bytes} {a_cls : Nat}
    (h : Keeps P z s) (khbm : P .hbm := by assumption) (khbmUnits : P .hbmUnits := by assumption) :
    Keeps P z (writeAddr s a_fn a_a a_data a_cls).1 := by
  unfold writeAddr
  repeat' (first | (with_reducible assumption) | (intro)
                 | (extract_lets +onlyGivenNames y; refine keep_cut (y := y) ?_ ?_; (focus (dsimp only [y]; clear y)); rotate_left; (focus (clear_value y; revert y; intro _ _)))
                 | (extract_lets +onlyGivenNames y; refine keep_cut1 (y := y) ?_ ?_; (focus (dsimp only [y]; clear y)); rotate_left; (focus (clear_value y; revert y; intro _ _)))
                 | (extract_lets +onlyGivenNames y; refine keep_cut2 (y := y) ?_ ?_; (focus (dsimp only [y]; clear y)); rotate_left; (focus (clear_value y; revert y; intro _ _)))
                 | (extract_lets +onlyGivenNames y; clear_value y; revert y; intro _) | (with_reducible apply keep_emitOut)
                 | (with_reducible apply keep_hbmWrite) | (with_reducible refine keep_ite ?_ ?_) | split | (dsimp only))

theorem keep_undefAddr {P : Area → Prop} {z : State} {s : State} {a_a : Nat} {a_n : Nat} (h : Keeps P z s)
    (khbm : P .hbm := by assumption) :
    Keeps P z (undefAddr s a_a a_n) := by
  unfold undefAddr
  repeat' (first | (with_reducible assumption) | (intro) | (with_reducible apply keep_mkUndef)
                 | (with_reducible refine keep_ite ?_ ?_) | (with_reducible apply keep_foldl)
                 | (with_reducible apply keep_foldl1) | split | (dsimp only) | (exact by decide) | (show P _; assumption)
                 | (exact memArea_of ‹_› ‹_› ‹_›))

end Sys2Proof.Machine
end

