-- ==== Sys2Proof/Laws/KeepCodec.lean ====
section
/-! SUPPORT. What the operations of Machine/Codec.lean keep (Laws/Keep.lean), one lemma per operation. -/

set_option linter.tactic.unusedName false
set_option linter.all false
set_option Elab.async false

namespace Sys2Proof.Machine

theorem keep_modCdc {P : Area → Prop} {z : State} {s : State} {a_f : Cdc → Cdc} (h : Keeps P z s)
    (kcodec : P .codec := by assumption) :
    Keeps P z (modCdc s a_f) := by
  unfold modCdc
  repeat' (first | (with_reducible assumption) | (exact Or.inl (by assumption)) | (exact Or.inr rfl)
                 | (exact Or.inr ⟨rfl, rfl, rfl, rfl⟩) | (intro)
                 | (extract_lets +onlyGivenNames y; refine keep_cut (y := y) ?_ ?_; (focus (dsimp only [y]; clear y)); rotate_left; (focus (clear_value y; revert y; intro _ _)))
                 | (extract_lets +onlyGivenNames y; refine keep_cut1 (y := y) ?_ ?_; (focus (dsimp only [y]; clear y)); rotate_left; (focus (clear_value y; revert y; intro _ _)))
                 | (extract_lets +onlyGivenNames y; refine keep_cut2 (y := y) ?_ ?_; (focus (dsimp only [y]; clear y)); rotate_left; (focus (clear_value y; revert y; intro _ _)))
                 | (extract_lets +onlyGivenNames y; clear_value y; revert y; intro _) | split | (dsimp only)
                 | (with_reducible refine keep_mk ?_ rfl rfl rfl rfl rfl rfl rfl rfl rfl ?_ ?_ ?_ ?_ ?_ ?_ ?_ ?_ ?_ ?_ ?_ ?_ ?_ ?_ ?_ ?_ ?_ ?_))

theorem keep_noteEnd {P : Area → Prop} {z : State} {s : State} {a_k : Nat} (h : Keeps P z s)
    (kcodec : P .codec := by assumption) :
    Keeps P z (noteEnd s a_k) := by
  unfold noteEnd
  repeat' (first | (with_reducible assumption) | (exact Or.inl (by assumption)) | (exact Or.inr rfl)
                 | (exact Or.inr ⟨rfl, rfl, rfl, rfl⟩) | (intro)
                 | (extract_lets +onlyGivenNames y; refine keep_cut (y := y) ?_ ?_; (focus (dsimp only [y]; clear y)); rotate_left; (focus (clear_value y; revert y; intro _ _)))
                 | (extract_lets +onlyGivenNames y; refine keep_cut1 (y := y) ?_ ?_; (focus (dsimp only [y]; clear y)); rotate_left; (focus (clear_value y; revert y; intro _ _)))
                 | (extract_lets +onlyGivenNames y; refine keep_cut2 (y := y) ?_ ?_; (focus (dsimp only [y]; clear y)); rotate_left; (focus (clear_value y; revert y; intro _ _)))
                 | (extract_lets +onlyGivenNames y; clear_value y; revert y; intro _) | (with_reducible apply keep_modCdc)
                 | split | (dsimp only)
                 | (with_reducible refine keep_mk ?_ rfl rfl rfl rfl rfl rfl rfl rfl rfl ?_ ?_ ?_ ?_ ?_ ?_ ?_ ?_ ?_ ?_ ?_ ?_ ?_ ?_ ?_ ?_ ?_ ?_))

theorem keep_preempted {P : Area → Prop} {z : State} {s : State} {a_k : Nat} {a_before : Nat} {a_kind : Nat}
    (h : Keeps P z s) :
    Keeps P z (preempted s a_k a_before a_kind) := by
  unfold preempted
  repeat' (first | (with_reducible assumption) | (intro) | (with_reducible apply keep_satF)
                 | (with_reducible refine keep_ite ?_ ?_) | split | (dsimp only))

theorem keep_countBlock {P : Area → Prop} {z : State} {s : State} {a_k : Nat} {a_nin : Nat} {a_nout : Nat}
    (h : Keeps P z s) (kcodec : P .codec := by assumption) :
    Keeps P z (countBlock s a_k a_nin a_nout) := by
  unfold countBlock
  repeat' (first | (with_reducible assumption) | (intro) | (with_reducible apply keep_addF)
                 | (with_reducible apply keep_noteEnd) | split | (dsimp only))

theorem keep_countEnc {P : Area → Prop} {z : State} {s : State} {a_k : Nat} {a_n : Nat} {a_blk : Bytes} (h : Keeps P z s)
    (kcodec : P .codec := by assumption) :
    Keeps P z (countEnc s a_k a_n a_blk) := by
  unfold countEnc
  repeat' (first | (with_reducible assumption) | (intro)
                 | (extract_lets +onlyGivenNames y; refine keep_cut (y := y) ?_ ?_; (focus (dsimp only [y]; clear y)); rotate_left; (focus (clear_value y; revert y; intro _ _)))
                 | (extract_lets +onlyGivenNames y; refine keep_cut1 (y := y) ?_ ?_; (focus (dsimp only [y]; clear y)); rotate_left; (focus (clear_value y; revert y; intro _ _)))
                 | (extract_lets +onlyGivenNames y; refine keep_cut2 (y := y) ?_ ?_; (focus (dsimp only [y]; clear y)); rotate_left; (focus (clear_value y; revert y; intro _ _)))
                 | (extract_lets +onlyGivenNames y; clear_value y; revert y; intro _) | (with_reducible apply keep_countBlock)
                 | (with_reducible apply keep_addF) | (with_reducible refine keep_ite ?_ ?_) | split | (dsimp only))

theorem keep_countFail {P : Area → Prop} {z : State} {s : State} {a_k : Nat} {a_step : Nat} {a_reason : Nat}
    {a_work : Nat} {a_off : Nat} (h : Keeps P z s) (krings : P .rings := by assumption) (kcodec : P .codec := by assumption) :
    Keeps P z (countFail s a_k a_step a_reason a_work a_off) := by
  unfold countFail
  repeat' (first | (with_reducible assumption) | (intro)
                 | (extract_lets +onlyGivenNames y; refine keep_cut (y := y) ?_ ?_; (focus (dsimp only [y]; clear y)); rotate_left; (focus (clear_value y; revert y; intro _ _)))
                 | (extract_lets +onlyGivenNames y; refine keep_cut1 (y := y) ?_ ?_; (focus (dsimp only [y]; clear y)); rotate_left; (focus (clear_value y; revert y; intro _ _)))
                 | (extract_lets +onlyGivenNames y; refine keep_cut2 (y := y) ?_ ?_; (focus (dsimp only [y]; clear y)); rotate_left; (focus (clear_value y; revert y; intro _ _)))
                 | (extract_lets +onlyGivenNames y; clear_value y; revert y; intro _) | (with_reducible apply keep_satF)
                 | (with_reducible apply keep_noteEnd) | (with_reducible apply keep_setF) | (with_reducible apply keep_raise)
                 | (with_reducible refine keep_ite ?_ ?_) | split | (dsimp only))

theorem keep_readBlock {P : Area → Prop} {z : State} {s : State} {a_k : Nat} {a_fn : Nat} {a_a : Nat} {a_left : Nat}
    {a_out : Nat} {a_limit : Nat} {a_space : Nat} {a_host : Bytes} {a_hostError : Bool} {a_urgent : Bool}
    (h : Keeps P z s) (khbm : P .hbm := by assumption) (khbmUnits : P .hbmUnits := by assumption) :
    Keeps P z (readBlock s a_k a_fn a_a a_left a_out a_limit a_space a_host a_hostError a_urgent).1 := by
  unfold readBlock
  repeat' (first | (with_reducible assumption) | (exact Or.inl (by assumption)) | (exact Or.inr rfl)
                 | (exact Or.inr ⟨rfl, rfl, rfl, rfl⟩) | (intro)
                 | (extract_lets +onlyGivenNames y; refine keep_cut (y := y) ?_ ?_; (focus (dsimp only [y]; clear y)); rotate_left; (focus (clear_value y; revert y; intro _ _)))
                 | (extract_lets +onlyGivenNames y; refine keep_cut1 (y := y) ?_ ?_; (focus (dsimp only [y]; clear y)); rotate_left; (focus (clear_value y; revert y; intro _ _)))
                 | (extract_lets +onlyGivenNames y; refine keep_cut2 (y := y) ?_ ?_; (focus (dsimp only [y]; clear y)); rotate_left; (focus (clear_value y; revert y; intro _ _)))
                 | (extract_lets +onlyGivenNames y; clear_value y; revert y; intro _) | (with_reducible apply keep_addrAsk)
                 | (with_reducible apply keep_readAddr) | (with_reducible refine keep_ite ?_ ?_) | split | (dsimp only)
                 | (with_reducible refine keep_mk ?_ rfl rfl rfl rfl rfl rfl rfl rfl rfl ?_ ?_ ?_ ?_ ?_ ?_ ?_ ?_ ?_ ?_ ?_ ?_ ?_ ?_ ?_ ?_ ?_ ?_))

theorem keep_jobDone {P : Area → Prop} {z : State} {s : State} {a_k : Nat} {a_j : CJob} {a_status : Nat} {a_reason : Nat}
    (h : Keeps P z s) (kdests : P .dests := by assumption) (krings : P .rings := by assumption)
    (khbmUnits : P .hbmUnits := by assumption) (kcodec : P .codec := by assumption) :
    Keeps P z (jobDone s a_k a_j a_status a_reason) := by
  unfold jobDone
  repeat' (first | (with_reducible assumption) | (exact Or.inl (by assumption)) | (exact Or.inr rfl)
                 | (exact Or.inr ⟨rfl, rfl, rfl, rfl⟩) | (intro)
                 | (extract_lets +onlyGivenNames y; refine keep_cut (y := y) ?_ ?_; (focus (dsimp only [y]; clear y)); rotate_left; (focus (clear_value y; revert y; intro _ _)))
                 | (extract_lets +onlyGivenNames y; refine keep_cut1 (y := y) ?_ ?_; (focus (dsimp only [y]; clear y)); rotate_left; (focus (clear_value y; revert y; intro _ _)))
                 | (extract_lets +onlyGivenNames y; refine keep_cut2 (y := y) ?_ ?_; (focus (dsimp only [y]; clear y)); rotate_left; (focus (clear_value y; revert y; intro _ _)))
                 | (extract_lets +onlyGivenNames y; clear_value y; revert y; intro _) | (with_reducible apply keep_modCdc)
                 | (with_reducible apply keep_dropReads) | (with_reducible apply keep_complete)
                 | (with_reducible refine keep_ite ?_ ?_) | split | (dsimp only)
                 | (with_reducible refine keep_mk ?_ rfl rfl rfl rfl rfl rfl rfl rfl rfl ?_ ?_ ?_ ?_ ?_ ?_ ?_ ?_ ?_ ?_ ?_ ?_ ?_ ?_ ?_ ?_ ?_ ?_))

theorem keep_jobSet {P : Area → Prop} {z : State} {s : State} {a_k : Nat} {a_j : CJob} (h : Keeps P z s)
    (kcodec : P .codec := by assumption) :
    Keeps P z (jobSet s a_k a_j) := by
  unfold jobSet
  repeat' (first | (with_reducible assumption) | (exact Or.inl (by assumption)) | (exact Or.inr rfl)
                 | (exact Or.inr ⟨rfl, rfl, rfl, rfl⟩) | (intro)
                 | (extract_lets +onlyGivenNames y; refine keep_cut (y := y) ?_ ?_; (focus (dsimp only [y]; clear y)); rotate_left; (focus (clear_value y; revert y; intro _ _)))
                 | (extract_lets +onlyGivenNames y; refine keep_cut1 (y := y) ?_ ?_; (focus (dsimp only [y]; clear y)); rotate_left; (focus (clear_value y; revert y; intro _ _)))
                 | (extract_lets +onlyGivenNames y; refine keep_cut2 (y := y) ?_ ?_; (focus (dsimp only [y]; clear y)); rotate_left; (focus (clear_value y; revert y; intro _ _)))
                 | (extract_lets +onlyGivenNames y; clear_value y; revert y; intro _) | (with_reducible apply keep_modCdc)
                 | split | (dsimp only)
                 | (with_reducible refine keep_mk ?_ rfl rfl rfl rfl rfl rfl rfl rfl rfl ?_ ?_ ?_ ?_ ?_ ?_ ?_ ?_ ?_ ?_ ?_ ?_ ?_ ?_ ?_ ?_ ?_ ?_))

theorem keep_jobFault {P : Area → Prop} {z : State} {s : State} {a_k : Nat} {a_j : CJob} {a_n : Nat} {a_e : Nat × Nat}
    (h : Keeps P z s) (khbm : P .hbm := by assumption) (kdests : P .dests := by assumption)
    (krings : P .rings := by assumption) (khbmUnits : P .hbmUnits := by assumption) (kcodec : P .codec := by assumption) :
    Keeps P z (jobFault s a_k a_j a_n a_e) := by
  unfold jobFault
  repeat' (first | (with_reducible assumption) | (intro)
                 | (extract_lets +onlyGivenNames y; refine keep_cut (y := y) ?_ ?_; (focus (dsimp only [y]; clear y)); rotate_left; (focus (clear_value y; revert y; intro _ _)))
                 | (extract_lets +onlyGivenNames y; refine keep_cut1 (y := y) ?_ ?_; (focus (dsimp only [y]; clear y)); rotate_left; (focus (clear_value y; revert y; intro _ _)))
                 | (extract_lets +onlyGivenNames y; refine keep_cut2 (y := y) ?_ ?_; (focus (dsimp only [y]; clear y)); rotate_left; (focus (clear_value y; revert y; intro _ _)))
                 | (extract_lets +onlyGivenNames y; clear_value y; revert y; intro _) | (with_reducible apply keep_jobDone)
                 | (with_reducible apply keep_undefAddr) | (with_reducible refine keep_ite ?_ ?_) | split | (dsimp only))

theorem keep_jobWrote {P : Area → Prop} {z : State} {s : State} {a_k : Nat} {a_j : CJob} {a_nin : Nat} {a_nout : Nat}
    {a_err : Option (Nat × Nat)} (h : Keeps P z s) (khbm : P .hbm := by assumption) (kdests : P .dests := by assumption)
    (krings : P .rings := by assumption) (khbmUnits : P .hbmUnits := by assumption) (kcodec : P .codec := by assumption) :
    Keeps P z (jobWrote s a_k a_j a_nin a_nout a_err) := by
  unfold jobWrote
  repeat' (first | (with_reducible assumption) | (exact Or.inl (by assumption)) | (exact Or.inr rfl)
                 | (exact Or.inr ⟨rfl, rfl, rfl, rfl⟩) | (intro)
                 | (extract_lets +onlyGivenNames y; refine keep_cut (y := y) ?_ ?_; (focus (dsimp only [y]; clear y)); rotate_left; (focus (clear_value y; revert y; intro _ _)))
                 | (extract_lets +onlyGivenNames y; refine keep_cut1 (y := y) ?_ ?_; (focus (dsimp only [y]; clear y)); rotate_left; (focus (clear_value y; revert y; intro _ _)))
                 | (extract_lets +onlyGivenNames y; refine keep_cut2 (y := y) ?_ ?_; (focus (dsimp only [y]; clear y)); rotate_left; (focus (clear_value y; revert y; intro _ _)))
                 | (extract_lets +onlyGivenNames y; clear_value y; revert y; intro _) | (with_reducible apply keep_jobFault)
                 | (with_reducible apply keep_jobSet) | split | (dsimp only)
                 | (with_reducible refine keep_mk ?_ rfl rfl rfl rfl rfl rfl rfl rfl rfl ?_ ?_ ?_ ?_ ?_ ?_ ?_ ?_ ?_ ?_ ?_ ?_ ?_ ?_ ?_ ?_ ?_ ?_))

theorem keep_finishJobs {P : Area → Prop} {z : State} {s : State} (h : Keeps P z s) (kdests : P .dests := by assumption)
    (krings : P .rings := by assumption) (khbmUnits : P .hbmUnits := by assumption) (kcodec : P .codec := by assumption) :
    Keeps P z (finishJobs s) := by
  unfold finishJobs
  repeat' (first | (with_reducible assumption) | (exact Or.inl (by assumption)) | (exact Or.inr rfl)
                 | (exact Or.inr ⟨rfl, rfl, rfl, rfl⟩) | (intro)
                 | (extract_lets +onlyGivenNames y; refine keep_cut (y := y) ?_ ?_; (focus (dsimp only [y]; clear y)); rotate_left; (focus (clear_value y; revert y; intro _ _)))
                 | (extract_lets +onlyGivenNames y; refine keep_cut1 (y := y) ?_ ?_; (focus (dsimp only [y]; clear y)); rotate_left; (focus (clear_value y; revert y; intro _ _)))
                 | (extract_lets +onlyGivenNames y; refine keep_cut2 (y := y) ?_ ?_; (focus (dsimp only [y]; clear y)); rotate_left; (focus (clear_value y; revert y; intro _ _)))
                 | (extract_lets +onlyGivenNames y; clear_value y; revert y; intro _) | (with_reducible apply keep_jobDone)
                 | (with_reducible refine keep_ite ?_ ?_) | (with_reducible apply keep_foldl)
                 | (with_reducible apply keep_foldl1) | split | (dsimp only)
                 | (with_reducible refine keep_mk ?_ rfl rfl rfl rfl rfl rfl rfl rfl rfl ?_ ?_ ?_ ?_ ?_ ?_ ?_ ?_ ?_ ?_ ?_ ?_ ?_ ?_ ?_ ?_ ?_ ?_))

theorem keep_compressBlock {P : Area → Prop} {z : State} {s : State} {a_k : Nat} {a_j : CJob} {a_host : Bytes}
    {a_hostError : Bool} (h : Keeps P z s) (khbm : P .hbm := by assumption) (kdests : P .dests := by assumption)
    (krings : P .rings := by assumption) (khbmUnits : P .hbmUnits := by assumption) (kcodec : P .codec := by assumption) :
    Keeps P z (compressBlock s a_k a_j a_host a_hostError) := by
  unfold compressBlock
  repeat' (first | (with_reducible assumption) | (exact Or.inl (by assumption)) | (exact Or.inr rfl)
                 | (exact Or.inr ⟨rfl, rfl, rfl, rfl⟩) | (intro)
                 | (extract_lets +onlyGivenNames y; refine keep_cut (y := y) ?_ ?_; (focus (dsimp only [y]; clear y)); rotate_left; (focus (clear_value y; revert y; intro _ _)))
                 | (extract_lets +onlyGivenNames y; refine keep_cut1 (y := y) ?_ ?_; (focus (dsimp only [y]; clear y)); rotate_left; (focus (clear_value y; revert y; intro _ _)))
                 | (extract_lets +onlyGivenNames y; refine keep_cut2 (y := y) ?_ ?_; (focus (dsimp only [y]; clear y)); rotate_left; (focus (clear_value y; revert y; intro _ _)))
                 | (extract_lets +onlyGivenNames y; clear_value y; revert y; intro _) | (with_reducible apply keep_addrAsk)
                 | (with_reducible apply keep_readAddr) | (with_reducible apply keep_jobFault)
                 | (with_reducible apply keep_jobDone) | (with_reducible apply keep_writeAddr)
                 | (with_reducible apply keep_jobWrote) | (with_reducible apply keep_countEnc)
                 | (with_reducible refine keep_ite ?_ ?_) | split | (dsimp only)
                 | (with_reducible refine keep_mk ?_ rfl rfl rfl rfl rfl rfl rfl rfl rfl ?_ ?_ ?_ ?_ ?_ ?_ ?_ ?_ ?_ ?_ ?_ ?_ ?_ ?_ ?_ ?_ ?_ ?_))

theorem keep_decompressBlock {P : Area → Prop} {z : State} {s : State} {a_k : Nat} {a_j : CJob} {a_host : Bytes}
    {a_hostError : Bool} (h : Keeps P z s) (khbm : P .hbm := by assumption) (kdests : P .dests := by assumption)
    (krings : P .rings := by assumption) (khbmUnits : P .hbmUnits := by assumption) (kcodec : P .codec := by assumption) :
    Keeps P z (decompressBlock s a_k a_j a_host a_hostError) := by
  unfold decompressBlock
  repeat' (first | (with_reducible assumption) | (exact Or.inl (by assumption)) | (exact Or.inr rfl)
                 | (exact Or.inr ⟨rfl, rfl, rfl, rfl⟩) | (intro)
                 | (extract_lets +onlyGivenNames y; refine keep_cut (y := y) ?_ ?_; (focus (dsimp only [y]; clear y)); rotate_left; (focus (clear_value y; revert y; intro _ _)))
                 | (extract_lets +onlyGivenNames y; refine keep_cut1 (y := y) ?_ ?_; (focus (dsimp only [y]; clear y)); rotate_left; (focus (clear_value y; revert y; intro _ _)))
                 | (extract_lets +onlyGivenNames y; refine keep_cut2 (y := y) ?_ ?_; (focus (dsimp only [y]; clear y)); rotate_left; (focus (clear_value y; revert y; intro _ _)))
                 | (extract_lets +onlyGivenNames y; clear_value y; revert y; intro _) | (with_reducible apply keep_readBlock)
                 | (with_reducible apply keep_jobFault) | (with_reducible apply keep_jobDone)
                 | (with_reducible apply keep_countFail) | (with_reducible apply keep_writeAddr)
                 | (with_reducible apply keep_jobWrote) | (with_reducible apply keep_countBlock)
                 | (with_reducible refine keep_ite ?_ ?_) | split | (dsimp only)
                 | (with_reducible refine keep_mk ?_ rfl rfl rfl rfl rfl rfl rfl rfl rfl ?_ ?_ ?_ ?_ ?_ ?_ ?_ ?_ ?_ ?_ ?_ ?_ ?_ ?_ ?_ ?_ ?_ ?_))

theorem keep_codecBlockDone {P : Area → Prop} {z : State} {s : State} {a_d : Nat} {a_e : Nat} {a_host : Bytes}
    {a_hostError : Bool} (h : Keeps P z s) (khbm : P .hbm := by assumption) (kdests : P .dests := by assumption)
    (krings : P .rings := by assumption) (khbmUnits : P .hbmUnits := by assumption) (kcodec : P .codec := by assumption) :
    Keeps P z (codecBlockDone s a_d a_e a_host a_hostError) := by
  unfold codecBlockDone
  repeat' (first | (with_reducible assumption) | (exact Or.inl (by assumption)) | (exact Or.inr rfl)
                 | (exact Or.inr ⟨rfl, rfl, rfl, rfl⟩) | (intro)
                 | (extract_lets +onlyGivenNames y; refine keep_cut (y := y) ?_ ?_; (focus (dsimp only [y]; clear y)); rotate_left; (focus (clear_value y; revert y; intro _ _)))
                 | (extract_lets +onlyGivenNames y; refine keep_cut1 (y := y) ?_ ?_; (focus (dsimp only [y]; clear y)); rotate_left; (focus (clear_value y; revert y; intro _ _)))
                 | (extract_lets +onlyGivenNames y; refine keep_cut2 (y := y) ?_ ?_; (focus (dsimp only [y]; clear y)); rotate_left; (focus (clear_value y; revert y; intro _ _)))
                 | (extract_lets +onlyGivenNames y; clear_value y; revert y; intro _) | (with_reducible apply keep_jobDone)
                 | (with_reducible apply keep_compressBlock) | (with_reducible apply keep_decompressBlock)
                 | (with_reducible refine keep_ite ?_ ?_) | split | (dsimp only)
                 | (with_reducible refine keep_mk ?_ rfl rfl rfl rfl rfl rfl rfl rfl rfl ?_ ?_ ?_ ?_ ?_ ?_ ?_ ?_ ?_ ?_ ?_ ?_ ?_ ?_ ?_ ?_ ?_ ?_))

theorem keep_execCodecBlockDone {P : Area → Prop} {z : State} {a_d : Nat} {a_e : Nat} {a_host : Bytes}
    {a_hostError : Bool} {s : State} (h : Keeps P z s) (khbm : P .hbm := by assumption)
    (kdests : P .dests := by assumption) (krings : P .rings := by assumption) (khbmUnits : P .hbmUnits := by assumption)
    (kcodec : P .codec := by assumption) :
    ∀ t, execCodecBlockDone a_d a_e a_host a_hostError s = .next t → Keeps P z t := by
  unfold execCodecBlockDone; intro t e; injection e with e; subst e
  repeat' (first | (with_reducible assumption) | (intro) | (with_reducible apply keep_codecBlockDone) | split | (dsimp only))

theorem keep_cdcStart {P : Area → Prop} {z : State} {s : State} {a_sq : Nat} {a_cq : Nat} {a_tag : Nat} {a_fn : Nat}
    {a_body : Bytes} {a_comp : Bool} (h : Keeps P z s) (kcodec : P .codec := by assumption) :
    Keeps P z (cdcStart s a_sq a_cq a_tag a_fn a_body a_comp) := by
  unfold cdcStart
  repeat' (first | (with_reducible assumption) | (exact Or.inl (by assumption)) | (exact Or.inr rfl)
                 | (exact Or.inr ⟨rfl, rfl, rfl, rfl⟩) | (intro)
                 | (extract_lets +onlyGivenNames y; refine keep_cut (y := y) ?_ ?_; (focus (dsimp only [y]; clear y)); rotate_left; (focus (clear_value y; revert y; intro _ _)))
                 | (extract_lets +onlyGivenNames y; refine keep_cut1 (y := y) ?_ ?_; (focus (dsimp only [y]; clear y)); rotate_left; (focus (clear_value y; revert y; intro _ _)))
                 | (extract_lets +onlyGivenNames y; refine keep_cut2 (y := y) ?_ ?_; (focus (dsimp only [y]; clear y)); rotate_left; (focus (clear_value y; revert y; intro _ _)))
                 | (extract_lets +onlyGivenNames y; clear_value y; revert y; intro _) | (with_reducible apply keep_modCdc)
                 | split | (dsimp only)
                 | (with_reducible refine keep_mk ?_ rfl rfl rfl rfl rfl rfl rfl rfl rfl ?_ ?_ ?_ ?_ ?_ ?_ ?_ ?_ ?_ ?_ ?_ ?_ ?_ ?_ ?_ ?_ ?_ ?_))

theorem keep_stopJobs {P : Area → Prop} {z : State} {s : State} {a_p : CJob → Bool} {a_status : Nat} {a_reason : Nat}
    (h : Keeps P z s) (kdests : P .dests := by assumption) (krings : P .rings := by assumption)
    (khbmUnits : P .hbmUnits := by assumption) (kcodec : P .codec := by assumption) :
    Keeps P z (stopJobs s a_p a_status a_reason) := by
  unfold stopJobs
  repeat' (first | (with_reducible assumption) | (exact Or.inl (by assumption)) | (exact Or.inr rfl)
                 | (exact Or.inr ⟨rfl, rfl, rfl, rfl⟩) | (intro)
                 | (extract_lets +onlyGivenNames y; refine keep_cut (y := y) ?_ ?_; (focus (dsimp only [y]; clear y)); rotate_left; (focus (clear_value y; revert y; intro _ _)))
                 | (extract_lets +onlyGivenNames y; refine keep_cut1 (y := y) ?_ ?_; (focus (dsimp only [y]; clear y)); rotate_left; (focus (clear_value y; revert y; intro _ _)))
                 | (extract_lets +onlyGivenNames y; refine keep_cut2 (y := y) ?_ ?_; (focus (dsimp only [y]; clear y)); rotate_left; (focus (clear_value y; revert y; intro _ _)))
                 | (extract_lets +onlyGivenNames y; clear_value y; revert y; intro _) | (with_reducible apply keep_dropReads)
                 | (with_reducible apply keep_modCdc) | (with_reducible apply keep_complete)
                 | (with_reducible refine keep_ite ?_ ?_) | (with_reducible apply keep_foldl)
                 | (with_reducible apply keep_foldl1) | split | (dsimp only)
                 | (with_reducible refine keep_mk ?_ rfl rfl rfl rfl rfl rfl rfl rfl rfl ?_ ?_ ?_ ?_ ?_ ?_ ?_ ?_ ?_ ?_ ?_ ?_ ?_ ?_ ?_ ?_ ?_ ?_))

theorem keep_startCols {P : Area → Prop} {z : State} {s : State} {a_cs : List DCol} (h : Keeps P z s)
    (kcodec : P .codec := by assumption) :
    Keeps P z (startCols s a_cs) := by
  unfold startCols
  repeat' (first | (with_reducible assumption) | (exact Or.inl (by assumption)) | (exact Or.inr rfl)
                 | (exact Or.inr ⟨rfl, rfl, rfl, rfl⟩) | (intro)
                 | (extract_lets +onlyGivenNames y; refine keep_cut (y := y) ?_ ?_; (focus (dsimp only [y]; clear y)); rotate_left; (focus (clear_value y; revert y; intro _ _)))
                 | (extract_lets +onlyGivenNames y; refine keep_cut1 (y := y) ?_ ?_; (focus (dsimp only [y]; clear y)); rotate_left; (focus (clear_value y; revert y; intro _ _)))
                 | (extract_lets +onlyGivenNames y; refine keep_cut2 (y := y) ?_ ?_; (focus (dsimp only [y]; clear y)); rotate_left; (focus (clear_value y; revert y; intro _ _)))
                 | (extract_lets +onlyGivenNames y; clear_value y; revert y; intro _) | (with_reducible apply keep_modCdc)
                 | (with_reducible apply keep_preempted) | (with_reducible apply keep_foldl)
                 | (with_reducible apply keep_foldl1) | split | (dsimp only)
                 | (with_reducible refine keep_mk ?_ rfl rfl rfl rfl rfl rfl rfl rfl rfl ?_ ?_ ?_ ?_ ?_ ?_ ?_ ?_ ?_ ?_ ?_ ?_ ?_ ?_ ?_ ?_ ?_ ?_))

theorem keep_colServed {P : Area → Prop} {z : State} {s : State} {a_c : DCol} (h : Keeps P z s)
    (kcodec : P .codec := by assumption) :
    Keeps P z (colServed s a_c) := by
  unfold colServed
  repeat' (first | (with_reducible assumption) | (exact Or.inl (by assumption)) | (exact Or.inr rfl)
                 | (exact Or.inr ⟨rfl, rfl, rfl, rfl⟩) | (intro)
                 | (extract_lets +onlyGivenNames y; refine keep_cut (y := y) ?_ ?_; (focus (dsimp only [y]; clear y)); rotate_left; (focus (clear_value y; revert y; intro _ _)))
                 | (extract_lets +onlyGivenNames y; refine keep_cut1 (y := y) ?_ ?_; (focus (dsimp only [y]; clear y)); rotate_left; (focus (clear_value y; revert y; intro _ _)))
                 | (extract_lets +onlyGivenNames y; refine keep_cut2 (y := y) ?_ ?_; (focus (dsimp only [y]; clear y)); rotate_left; (focus (clear_value y; revert y; intro _ _)))
                 | (extract_lets +onlyGivenNames y; clear_value y; revert y; intro _) | (with_reducible apply keep_modCdc)
                 | split | (dsimp only)
                 | (with_reducible refine keep_mk ?_ rfl rfl rfl rfl rfl rfl rfl rfl rfl ?_ ?_ ?_ ?_ ?_ ?_ ?_ ?_ ?_ ?_ ?_ ?_ ?_ ?_ ?_ ?_ ?_ ?_))

theorem keep_colFail {P : Area → Prop} {z : State} {s : State} {a_c : DCol} {a_status : Nat} {a_reason : Nat}
    (h : Keeps P z s) (kfabric : P .fabric := by assumption) (krings : P .rings := by assumption)
    (khbmUnits : P .hbmUnits := by assumption) (kcodec : P .codec := by assumption) (ktwins : P .twins := by assumption)
    (klog : P .log := by assumption) :
    Keeps P z (colFail s a_c a_status a_reason) := by
  unfold colFail
  repeat' (first | (with_reducible assumption) | (exact Or.inl (by assumption)) | (exact Or.inr rfl)
                 | (exact Or.inr ⟨rfl, rfl, rfl, rfl⟩) | (intro)
                 | (extract_lets +onlyGivenNames y; refine keep_cut (y := y) ?_ ?_; (focus (dsimp only [y]; clear y)); rotate_left; (focus (clear_value y; revert y; intro _ _)))
                 | (extract_lets +onlyGivenNames y; refine keep_cut1 (y := y) ?_ ?_; (focus (dsimp only [y]; clear y)); rotate_left; (focus (clear_value y; revert y; intro _ _)))
                 | (extract_lets +onlyGivenNames y; refine keep_cut2 (y := y) ?_ ?_; (focus (dsimp only [y]; clear y)); rotate_left; (focus (clear_value y; revert y; intro _ _)))
                 | (extract_lets +onlyGivenNames y; clear_value y; revert y; intro _) | (with_reducible apply keep_colServed)
                 | (with_reducible apply keep_dropReads) | (with_reducible apply keep_modInv)
                 | (with_reducible apply keep_markFail) | split | (dsimp only)
                 | (with_reducible refine keep_mk ?_ rfl rfl rfl rfl rfl rfl rfl rfl rfl ?_ ?_ ?_ ?_ ?_ ?_ ?_ ?_ ?_ ?_ ?_ ?_ ?_ ?_ ?_ ?_ ?_ ?_))

theorem keep_decodeStep {P : Area → Prop} {z : State} {s : State} {a_d : Nat} {a_e : Nat} {a_host : Bytes}
    {a_hostError : Bool} (h : Keeps P z s) (khbm : P .hbm := by assumption) (kfabric : P .fabric := by assumption)
    (krings : P .rings := by assumption) (khbmUnits : P .hbmUnits := by assumption) (kcodec : P .codec := by assumption)
    (ktwins : P .twins := by assumption) (klog : P .log := by assumption) :
    Keeps P z (decodeStep s a_d a_e a_host a_hostError) := by
  unfold decodeStep
  repeat' (first | (with_reducible assumption) | (exact Or.inl (by assumption)) | (exact Or.inr rfl)
                 | (exact Or.inr ⟨rfl, rfl, rfl, rfl⟩) | (intro)
                 | (extract_lets +onlyGivenNames y; refine keep_cut (y := y) ?_ ?_; (focus (dsimp only [y]; clear y)); rotate_left; (focus (clear_value y; revert y; intro _ _)))
                 | (extract_lets +onlyGivenNames y; refine keep_cut1 (y := y) ?_ ?_; (focus (dsimp only [y]; clear y)); rotate_left; (focus (clear_value y; revert y; intro _ _)))
                 | (extract_lets +onlyGivenNames y; refine keep_cut2 (y := y) ?_ ?_; (focus (dsimp only [y]; clear y)); rotate_left; (focus (clear_value y; revert y; intro _ _)))
                 | (extract_lets +onlyGivenNames y; clear_value y; revert y; intro _) | (with_reducible apply keep_colFail)
                 | (with_reducible apply keep_raise) | (with_reducible apply keep_readBlock)
                 | (with_reducible apply keep_countFail) | (with_reducible apply keep_colServed)
                 | (with_reducible apply keep_countBlock) | (with_reducible refine keep_ite ?_ ?_) | split | (dsimp only)
                 | (with_reducible refine keep_mk ?_ rfl rfl rfl rfl rfl rfl rfl rfl rfl ?_ ?_ ?_ ?_ ?_ ?_ ?_ ?_ ?_ ?_ ?_ ?_ ?_ ?_ ?_ ?_ ?_ ?_))

theorem keep_execDecodeBlock {P : Area → Prop} {z : State} {a_d : Nat} {a_e : Nat} {a_host : Bytes} {a_hostError : Bool}
    {s : State} (h : Keeps P z s) (khbm : P .hbm := by assumption) (kfabric : P .fabric := by assumption)
    (krings : P .rings := by assumption) (khbmUnits : P .hbmUnits := by assumption) (kcodec : P .codec := by assumption)
    (ktwins : P .twins := by assumption) (klog : P .log := by assumption) :
    ∀ t, execDecodeBlock a_d a_e a_host a_hostError s = .next t → Keeps P z t := by
  unfold execDecodeBlock; intro t e; injection e with e; subst e
  repeat' (first | (with_reducible assumption) | (intro) | (with_reducible apply keep_decodeStep) | split | (dsimp only))

theorem keep_handCapture {P : Area → Prop} {z : State} {s : State} {a_b : CapBlk} (h : Keeps P z s)
    (kcodec : P .codec := by assumption) :
    Keeps P z (handCapture s a_b) := by
  unfold handCapture
  repeat' (first | (with_reducible assumption) | (exact Or.inl (by assumption)) | (exact Or.inr rfl)
                 | (exact Or.inr ⟨rfl, rfl, rfl, rfl⟩) | (intro)
                 | (extract_lets +onlyGivenNames y; refine keep_cut (y := y) ?_ ?_; (focus (dsimp only [y]; clear y)); rotate_left; (focus (clear_value y; revert y; intro _ _)))
                 | (extract_lets +onlyGivenNames y; refine keep_cut1 (y := y) ?_ ?_; (focus (dsimp only [y]; clear y)); rotate_left; (focus (clear_value y; revert y; intro _ _)))
                 | (extract_lets +onlyGivenNames y; refine keep_cut2 (y := y) ?_ ?_; (focus (dsimp only [y]; clear y)); rotate_left; (focus (clear_value y; revert y; intro _ _)))
                 | (extract_lets +onlyGivenNames y; clear_value y; revert y; intro _) | (with_reducible apply keep_modCdc)
                 | (with_reducible apply keep_preempted) | split | (dsimp only)
                 | (with_reducible refine keep_mk ?_ rfl rfl rfl rfl rfl rfl rfl rfl rfl ?_ ?_ ?_ ?_ ?_ ?_ ?_ ?_ ?_ ?_ ?_ ?_ ?_ ?_ ?_ ?_ ?_ ?_))

theorem keep_handWaiting {P : Area → Prop} {z : State} {s : State} {a_d : Nat} (h : Keeps P z s)
    (kcodec : P .codec := by assumption) :
    Keeps P z (handWaiting s a_d) := by
  unfold handWaiting
  repeat' (first | (with_reducible assumption) | (exact Or.inl (by assumption)) | (exact Or.inr rfl)
                 | (exact Or.inr ⟨rfl, rfl, rfl, rfl⟩) | (intro)
                 | (extract_lets +onlyGivenNames y; refine keep_cut (y := y) ?_ ?_; (focus (dsimp only [y]; clear y)); rotate_left; (focus (clear_value y; revert y; intro _ _)))
                 | (extract_lets +onlyGivenNames y; refine keep_cut1 (y := y) ?_ ?_; (focus (dsimp only [y]; clear y)); rotate_left; (focus (clear_value y; revert y; intro _ _)))
                 | (extract_lets +onlyGivenNames y; refine keep_cut2 (y := y) ?_ ?_; (focus (dsimp only [y]; clear y)); rotate_left; (focus (clear_value y; revert y; intro _ _)))
                 | (extract_lets +onlyGivenNames y; clear_value y; revert y; intro _) | (with_reducible apply keep_modCdc)
                 | (with_reducible apply keep_handCapture) | (with_reducible apply keep_foldl)
                 | (with_reducible apply keep_foldl1) | split | (dsimp only)
                 | (with_reducible refine keep_mk ?_ rfl rfl rfl rfl rfl rfl rfl rfl rfl ?_ ?_ ?_ ?_ ?_ ?_ ?_ ?_ ?_ ?_ ?_ ?_ ?_ ?_ ?_ ?_ ?_ ?_))

theorem keep_capGap {P : Area → Prop} {z : State} {s : State} {a_p : Nat} {a_stamp : Nat} (h : Keeps P z s)
    (krings : P .rings := by assumption) (kcodec : P .codec := by assumption) :
    Keeps P z (capGap s a_p a_stamp) := by
  unfold capGap
  repeat' (first | (with_reducible assumption) | (exact Or.inl (by assumption)) | (exact Or.inr rfl)
                 | (exact Or.inr ⟨rfl, rfl, rfl, rfl⟩) | (intro)
                 | (extract_lets +onlyGivenNames y; refine keep_cut (y := y) ?_ ?_; (focus (dsimp only [y]; clear y)); rotate_left; (focus (clear_value y; revert y; intro _ _)))
                 | (extract_lets +onlyGivenNames y; refine keep_cut1 (y := y) ?_ ?_; (focus (dsimp only [y]; clear y)); rotate_left; (focus (clear_value y; revert y; intro _ _)))
                 | (extract_lets +onlyGivenNames y; refine keep_cut2 (y := y) ?_ ?_; (focus (dsimp only [y]; clear y)); rotate_left; (focus (clear_value y; revert y; intro _ _)))
                 | (extract_lets +onlyGivenNames y; clear_value y; revert y; intro _) | (with_reducible apply keep_satF)
                 | (with_reducible apply keep_modCdc) | (with_reducible apply keep_setF) | (with_reducible apply keep_raise)
                 | (with_reducible refine keep_ite ?_ ?_) | split | (dsimp only)
                 | (with_reducible refine keep_mk ?_ rfl rfl rfl rfl rfl rfl rfl rfl rfl ?_ ?_ ?_ ?_ ?_ ?_ ?_ ?_ ?_ ?_ ?_ ?_ ?_ ?_ ?_ ?_ ?_ ?_))

theorem keep_captureRow {P : Area → Prop} {z : State} {s : State} {a_port : Nat} {a_handle : Nat} {a_src : Nat}
    {a_group : Nat} {a_stamp : Nat} {a_row : List W64} (h : Keeps P z s) (krings : P .rings := by assumption)
    (kcodec : P .codec := by assumption) :
    Keeps P z (captureRow s a_port a_handle a_src a_group a_stamp a_row) := by
  unfold captureRow
  repeat' (first | (with_reducible assumption) | (exact Or.inl (by assumption)) | (exact Or.inr rfl)
                 | (exact Or.inr ⟨rfl, rfl, rfl, rfl⟩) | (intro)
                 | (extract_lets +onlyGivenNames y; refine keep_cut (y := y) ?_ ?_; (focus (dsimp only [y]; clear y)); rotate_left; (focus (clear_value y; revert y; intro _ _)))
                 | (extract_lets +onlyGivenNames y; refine keep_cut1 (y := y) ?_ ?_; (focus (dsimp only [y]; clear y)); rotate_left; (focus (clear_value y; revert y; intro _ _)))
                 | (extract_lets +onlyGivenNames y; refine keep_cut2 (y := y) ?_ ?_; (focus (dsimp only [y]; clear y)); rotate_left; (focus (clear_value y; revert y; intro _ _)))
                 | (extract_lets +onlyGivenNames y; have q : (_ : _) → _ := y; clear q; dsimp only [y]; clear y)
                 | (extract_lets +onlyGivenNames y; clear_value y; revert y; intro _) | (with_reducible apply keep_modCdc)
                 | (with_reducible apply keep_handCapture) | (with_reducible apply keep_capGap)
                 | (with_reducible refine keep_ite ?_ ?_) | (with_reducible apply keep_foldl)
                 | (with_reducible apply keep_foldl1) | split | (dsimp only)
                 | (with_reducible refine keep_mk ?_ rfl rfl rfl rfl rfl rfl rfl rfl rfl ?_ ?_ ?_ ?_ ?_ ?_ ?_ ?_ ?_ ?_ ?_ ?_ ?_ ?_ ?_ ?_ ?_ ?_))

theorem keep_captureFrame {P : Area → Prop} {z : State} {s : State} {a_port : Nat} {a_src : Nat} {a_group : Nat}
    {a_stamp : Nat} {a_row : List W64} (h : Keeps P z s) (krings : P .rings := by assumption)
    (kcodec : P .codec := by assumption) :
    Keeps P z (captureFrame s a_port a_src a_group a_stamp a_row) := by
  unfold captureFrame
  repeat' (first | (with_reducible assumption) | (exact fun _ h => h) | (intro) | (with_reducible apply keep_captureRow)
                 | (with_reducible apply keep_foldl) | (with_reducible apply keep_foldl1) | split | (dsimp only))

theorem keep_captureBlock {P : Area → Prop} {z : State} {s : State} {a_d : Nat} {a_e : Nat} (h : Keeps P z s)
    (khbm : P .hbm := by assumption) (khbmUnits : P .hbmUnits := by assumption) (kcodec : P .codec := by assumption) :
    Keeps P z (captureBlock s a_d a_e) := by
  unfold captureBlock
  repeat' (first | (with_reducible assumption) | (exact Or.inl (by assumption)) | (exact Or.inr rfl)
                 | (exact Or.inr ⟨rfl, rfl, rfl, rfl⟩) | (intro)
                 | (extract_lets +onlyGivenNames y; refine keep_cut (y := y) ?_ ?_; (focus (dsimp only [y]; clear y)); rotate_left; (focus (clear_value y; revert y; intro _ _)))
                 | (extract_lets +onlyGivenNames y; refine keep_cut1 (y := y) ?_ ?_; (focus (dsimp only [y]; clear y)); rotate_left; (focus (clear_value y; revert y; intro _ _)))
                 | (extract_lets +onlyGivenNames y; refine keep_cut2 (y := y) ?_ ?_; (focus (dsimp only [y]; clear y)); rotate_left; (focus (clear_value y; revert y; intro _ _)))
                 | (extract_lets +onlyGivenNames y; clear_value y; revert y; intro _) | (with_reducible apply keep_modCdc)
                 | (with_reducible apply keep_fresh) | (with_reducible apply keep_hbmWrite)
                 | (with_reducible apply keep_countEnc) | (with_reducible refine keep_ite ?_ ?_) | split | (dsimp only)
                 | (with_reducible refine keep_mk ?_ rfl rfl rfl rfl rfl rfl rfl rfl rfl ?_ ?_ ?_ ?_ ?_ ?_ ?_ ?_ ?_ ?_ ?_ ?_ ?_ ?_ ?_ ?_ ?_ ?_))

theorem keep_execCaptureBlock {P : Area → Prop} {z : State} {a_d : Nat} {a_e : Nat} {s : State} (h : Keeps P z s)
    (khbm : P .hbm := by assumption) (khbmUnits : P .hbmUnits := by assumption) (kcodec : P .codec := by assumption) :
    ∀ t, execCaptureBlock a_d a_e s = .next t → Keeps P z t := by
  unfold execCaptureBlock; intro t e; injection e with e; subst e
  repeat' (first | (with_reducible assumption) | (intro) | (with_reducible apply keep_captureBlock) | split | (dsimp only))

theorem keep_cdcEnable {P : Area → Prop} {z : State} {s : State} {a_fn : Nat} {a_k : Nat} {a_on : Bool} (h : Keeps P z s)
    (krings : P .rings := by assumption) (kcodec : P .codec := by assumption) (ktwins : P .twins := by assumption)
    (klog : P .log := by assumption) :
    Keeps P z (cdcEnable s a_fn a_k a_on) := by
  unfold cdcEnable
  repeat' (first | (with_reducible assumption) | (intro) | (with_reducible apply keep_handWaiting)
                 | (with_reducible apply keep_setF) | (with_reducible apply keep_logWWR)
                 | (with_reducible refine keep_ite ?_ ?_) | split | (dsimp only))

end Sys2Proof.Machine
end

