-- ==== Sys2Proof/Laws/KeepAccept.lean ====
section
/-! SUPPORT. What the operations of Machine/Accept.lean keep (Laws/Keep.lean), one lemma per operation. -/

set_option linter.tactic.unusedName false
set_option linter.all false
set_option Elab.async false

namespace Sys2Proof.Machine

theorem keep_sourceAccept {P : Area → Prop} {z : State} {s : State} {a_n : Nat} {a_h : Nat} (h : Keeps P z s)
    (krings : P .rings := by assumption) :
    Keeps P z (sourceAccept s a_n a_h) := by
  unfold sourceAccept
  repeat' (first | (with_reducible assumption) | (intro)
                 | (extract_lets +onlyGivenNames y; refine keep_cut (y := y) ?_ ?_; (focus (dsimp only [y]; clear y)); rotate_left; (focus (clear_value y; revert y; intro _ _)))
                 | (extract_lets +onlyGivenNames y; refine keep_cut1 (y := y) ?_ ?_; (focus (dsimp only [y]; clear y)); rotate_left; (focus (clear_value y; revert y; intro _ _)))
                 | (extract_lets +onlyGivenNames y; refine keep_cut2 (y := y) ?_ ?_; (focus (dsimp only [y]; clear y)); rotate_left; (focus (clear_value y; revert y; intro _ _)))
                 | (extract_lets +onlyGivenNames y; clear_value y; revert y; intro _) | (with_reducible apply keep_raise)
                 | (with_reducible apply keep_satF) | (with_reducible apply keep_setF) | (with_reducible refine keep_ite ?_ ?_)
                 | split | (dsimp only))

theorem keep_horizonRisen {P : Area → Prop} {z : State} {s : State} {a_d : Nat} {a_n : Nat} {a_acc : Nat}
    {a_closes : Bool} (h : Keeps P z s) (kbmk : P .bmk := by assumption) (kfabric : P .fabric := by assumption)
    (krings : P .rings := by assumption) (ktwins : P .twins := by assumption) (klog : P .log := by assumption) :
    Keeps P z (horizonRisen s a_d a_n a_acc a_closes) := by
  unfold horizonRisen
  repeat' (first | (with_reducible assumption) | (intro)
                 | (extract_lets +onlyGivenNames y; refine keep_cut (y := y) ?_ ?_; (focus (dsimp only [y]; clear y)); rotate_left; (focus (clear_value y; revert y; intro _ _)))
                 | (extract_lets +onlyGivenNames y; refine keep_cut1 (y := y) ?_ ?_; (focus (dsimp only [y]; clear y)); rotate_left; (focus (clear_value y; revert y; intro _ _)))
                 | (extract_lets +onlyGivenNames y; refine keep_cut2 (y := y) ?_ ?_; (focus (dsimp only [y]; clear y)); rotate_left; (focus (clear_value y; revert y; intro _ _)))
                 | (extract_lets +onlyGivenNames y; clear_value y; revert y; intro _) | (with_reducible apply keep_sendSource)
                 | (with_reducible apply keep_recomputeG) | (with_reducible apply keep_fireSource)
                 | (with_reducible refine keep_ite ?_ ?_) | split | (dsimp only))

theorem keep_splitFrame {P : Area → Prop} {z : State} {s : State} {a_p : Nat} {a_c : CFrame} {a_g : Group}
    {a_row : List W64} (h : Keeps P z s) (kbmk : P .bmk := by assumption) (kfabric : P .fabric := by assumption)
    (krings : P .rings := by assumption) (kcodec : P .codec := by assumption) :
    Keeps P z (splitFrame s a_p a_c a_g a_row) := by
  unfold splitFrame
  repeat' (first | (with_reducible assumption) | (exact fun _ h => h) | (exact Or.inl (by assumption)) | (exact Or.inr rfl)
                 | (exact Or.inr ⟨rfl, rfl, rfl, rfl⟩) | (intro)
                 | (extract_lets +onlyGivenNames y; refine keep_cut (y := y) ?_ ?_; (focus (dsimp only [y]; clear y)); rotate_left; (focus (clear_value y; revert y; intro _ _)))
                 | (extract_lets +onlyGivenNames y; refine keep_cut1 (y := y) ?_ ?_; (focus (dsimp only [y]; clear y)); rotate_left; (focus (clear_value y; revert y; intro _ _)))
                 | (extract_lets +onlyGivenNames y; refine keep_cut2 (y := y) ?_ ?_; (focus (dsimp only [y]; clear y)); rotate_left; (focus (clear_value y; revert y; intro _ _)))
                 | (extract_lets +onlyGivenNames y; clear_value y; revert y; intro _) | (with_reducible apply keep_captureFrame)
                 | (with_reducible apply keep_modBmk) | (with_reducible apply keep_pushHead)
                 | (with_reducible refine keep_ite ?_ ?_) | (with_reducible apply keep_foldl)
                 | (with_reducible apply keep_foldl1) | split | (dsimp only)
                 | (with_reducible refine keep_mk ?_ rfl rfl rfl rfl rfl rfl rfl rfl rfl ?_ ?_ ?_ ?_ ?_ ?_ ?_ ?_ ?_ ?_ ?_ ?_ ?_ ?_ ?_ ?_ ?_ ?_))

theorem keep_paceMark {P : Area → Prop} {z : State} {s : State} {a_k : Nat} {a_t : Nat} (h : Keeps P z s)
    (kfabric : P .fabric := by assumption) :
    Keeps P z (paceMark s a_k a_t) := by
  unfold paceMark
  repeat' (first | (with_reducible assumption) | (exact Or.inl (by assumption)) | (exact Or.inr rfl)
                 | (exact Or.inr ⟨rfl, rfl, rfl, rfl⟩) | (intro)
                 | (extract_lets +onlyGivenNames y; refine keep_cut (y := y) ?_ ?_; (focus (dsimp only [y]; clear y)); rotate_left; (focus (clear_value y; revert y; intro _ _)))
                 | (extract_lets +onlyGivenNames y; refine keep_cut1 (y := y) ?_ ?_; (focus (dsimp only [y]; clear y)); rotate_left; (focus (clear_value y; revert y; intro _ _)))
                 | (extract_lets +onlyGivenNames y; refine keep_cut2 (y := y) ?_ ?_; (focus (dsimp only [y]; clear y)); rotate_left; (focus (clear_value y; revert y; intro _ _)))
                 | (extract_lets +onlyGivenNames y; clear_value y; revert y; intro _) | (with_reducible apply keep_modFab)
                 | split | (dsimp only)
                 | (with_reducible refine keep_mk ?_ rfl rfl rfl rfl rfl rfl rfl rfl rfl ?_ ?_ ?_ ?_ ?_ ?_ ?_ ?_ ?_ ?_ ?_ ?_ ?_ ?_ ?_ ?_ ?_ ?_))

theorem keep_acceptFrame {P : Area → Prop} {z : State} {s : State} {a_p : Nat} {a_c : CFrame} (h : Keeps P z s)
    (kbmk : P .bmk := by assumption) (kports : P .ports := by assumption) (kfabric : P .fabric := by assumption)
    (krings : P .rings := by assumption) (kcodec : P .codec := by assumption) (ktwins : P .twins := by assumption)
    (klog : P .log := by assumption) :
    Keeps P z (acceptFrame s a_p a_c) := by
  unfold acceptFrame
  repeat' (first | (with_reducible assumption) | (exact Or.inl (by assumption)) | (exact Or.inr rfl)
                 | (exact Or.inr ⟨rfl, rfl, rfl, rfl⟩) | (intro)
                 | (extract_lets +onlyGivenNames y; refine keep_cut (y := y) ?_ ?_; (focus (dsimp only [y]; clear y)); rotate_left; (focus (clear_value y; revert y; intro _ _)))
                 | (extract_lets +onlyGivenNames y; refine keep_cut1 (y := y) ?_ ?_; (focus (dsimp only [y]; clear y)); rotate_left; (focus (clear_value y; revert y; intro _ _)))
                 | (extract_lets +onlyGivenNames y; refine keep_cut2 (y := y) ?_ ?_; (focus (dsimp only [y]; clear y)); rotate_left; (focus (clear_value y; revert y; intro _ _)))
                 | (extract_lets +onlyGivenNames y; clear_value y; revert y; intro _) | (with_reducible apply keep_modPort)
                 | (with_reducible apply keep_returnCredit) | (with_reducible apply keep_modBmk)
                 | (with_reducible apply keep_paceMark) | (with_reducible apply keep_splitFrame)
                 | (with_reducible apply keep_horizonRisen) | (with_reducible apply keep_sourceAccept)
                 | (with_reducible apply keep_byeReached) | (with_reducible apply keep_foldl)
                 | (with_reducible apply keep_foldl1) | split | (dsimp only)
                 | (with_reducible refine keep_mk ?_ rfl rfl rfl rfl rfl rfl rfl rfl rfl ?_ ?_ ?_ ?_ ?_ ?_ ?_ ?_ ?_ ?_ ?_ ?_ ?_ ?_ ?_ ?_ ?_ ?_))

theorem keep_frameAccept {P : Area → Prop} {z : State} {s : State} {a_p : Nat} (h : Keeps P z s)
    (kbmk : P .bmk := by assumption) (kports : P .ports := by assumption) (kfabric : P .fabric := by assumption)
    (krings : P .rings := by assumption) (kcodec : P .codec := by assumption) (ktwins : P .twins := by assumption)
    (klog : P .log := by assumption) :
    Keeps P z (frameAccept s a_p) := by
  unfold frameAccept
  repeat' (first | (with_reducible assumption) | (exact Or.inl (by assumption)) | (exact Or.inr rfl)
                 | (exact Or.inr ⟨rfl, rfl, rfl, rfl⟩) | (intro)
                 | (extract_lets +onlyGivenNames y; refine keep_cut (y := y) ?_ ?_; (focus (dsimp only [y]; clear y)); rotate_left; (focus (clear_value y; revert y; intro _ _)))
                 | (extract_lets +onlyGivenNames y; refine keep_cut1 (y := y) ?_ ?_; (focus (dsimp only [y]; clear y)); rotate_left; (focus (clear_value y; revert y; intro _ _)))
                 | (extract_lets +onlyGivenNames y; refine keep_cut2 (y := y) ?_ ?_; (focus (dsimp only [y]; clear y)); rotate_left; (focus (clear_value y; revert y; intro _ _)))
                 | (extract_lets +onlyGivenNames y; clear_value y; revert y; intro _) | (with_reducible apply keep_acceptFrame)
                 | (with_reducible refine keep_ite ?_ ?_) | split | (dsimp only)
                 | (with_reducible refine keep_mk ?_ rfl rfl rfl rfl rfl rfl rfl rfl rfl ?_ ?_ ?_ ?_ ?_ ?_ ?_ ?_ ?_ ?_ ?_ ?_ ?_ ?_ ?_ ?_ ?_ ?_))

theorem keep_execFrameAccept {P : Area → Prop} {z : State} {a_p : Nat} {s : State} (h : Keeps P z s)
    (kbmk : P .bmk := by assumption) (kports : P .ports := by assumption) (kfabric : P .fabric := by assumption)
    (krings : P .rings := by assumption) (kcodec : P .codec := by assumption) (ktwins : P .twins := by assumption)
    (klog : P .log := by assumption) :
    ∀ t, execFrameAccept a_p s = .next t → Keeps P z t := by
  unfold execFrameAccept; intro t e; injection e with e; subst e
  repeat' (first | (with_reducible assumption) | (intro) | (with_reducible apply keep_frameAccept) | split | (dsimp only))

end Sys2Proof.Machine
end

