-- ==== Sys2Proof/Laws/KeepHeads.lean ====
section
/-! SUPPORT. What the operations of Machine/Heads.lean keep (Laws/Keep.lean), one lemma per operation. -/

set_option linter.tactic.unusedName false
set_option linter.all false
set_option Elab.async false

namespace Sys2Proof.Machine

theorem keep_scanArrive {P : Area → Prop} {z : State} {s : State} {a_cell : Nat} {a_t : Token} (h : Keeps P z s)
    (kfabric : P .fabric := by assumption) (ktwins : P .twins := by assumption) :
    Keeps P z (scanArrive s a_cell a_t) := by
  unfold scanArrive
  repeat' (first | (with_reducible assumption) | (intro) | (with_reducible apply keep_arrive)
                 | (with_reducible apply keep_foldl) | (with_reducible apply keep_foldl1) | split | (dsimp only))

theorem keep_scanFails {P : Area → Prop} {z : State} {s : State} {a_i : Inv} {a_e : Nat × Nat} (h : Keeps P z s)
    (kfabric : P .fabric := by assumption) (krings : P .rings := by assumption) (ktwins : P .twins := by assumption)
    (klog : P .log := by assumption) :
    Keeps P z (scanFails s a_i a_e) := by
  unfold scanFails
  repeat' (first | (with_reducible assumption) | (exact Or.inl (by assumption)) | (exact Or.inr rfl)
                 | (exact Or.inr ⟨rfl, rfl, rfl, rfl⟩) | (intro)
                 | (extract_lets +onlyGivenNames y; refine keep_cut (y := y) ?_ ?_; (focus (dsimp only [y]; clear y)); rotate_left; (focus (clear_value y; revert y; intro _ _)))
                 | (extract_lets +onlyGivenNames y; refine keep_cut1 (y := y) ?_ ?_; (focus (dsimp only [y]; clear y)); rotate_left; (focus (clear_value y; revert y; intro _ _)))
                 | (extract_lets +onlyGivenNames y; refine keep_cut2 (y := y) ?_ ?_; (focus (dsimp only [y]; clear y)); rotate_left; (focus (clear_value y; revert y; intro _ _)))
                 | (extract_lets +onlyGivenNames y; clear_value y; revert y; intro _) | (with_reducible apply keep_modInv)
                 | (with_reducible apply keep_markFail) | split | (dsimp only)
                 | (with_reducible refine keep_mk ?_ rfl rfl rfl rfl rfl rfl rfl rfl rfl ?_ ?_ ?_ ?_ ?_ ?_ ?_ ?_ ?_ ?_ ?_ ?_ ?_ ?_ ?_ ?_ ?_ ?_))

theorem keep_scanSend {P : Area → Prop} {z : State} {s : State} {a_i : Inv} {a_col : Nat} {a_k : Nat} {a_cell : Nat}
    {a_c : Column} {a_ws : List W64} (h : Keeps P z s) (kfabric : P .fabric := by assumption)
    (ktwins : P .twins := by assumption) :
    Keeps P z (scanSend s a_i a_col a_k a_cell a_c a_ws) := by
  unfold scanSend
  repeat' (first | (with_reducible assumption) | (exact Or.inl (by assumption)) | (exact Or.inr rfl)
                 | (exact Or.inr ⟨rfl, rfl, rfl, rfl⟩) | (intro)
                 | (extract_lets +onlyGivenNames y; refine keep_cut (y := y) ?_ ?_; (focus (dsimp only [y]; clear y)); rotate_left; (focus (clear_value y; revert y; intro _ _)))
                 | (extract_lets +onlyGivenNames y; refine keep_cut1 (y := y) ?_ ?_; (focus (dsimp only [y]; clear y)); rotate_left; (focus (clear_value y; revert y; intro _ _)))
                 | (extract_lets +onlyGivenNames y; refine keep_cut2 (y := y) ?_ ?_; (focus (dsimp only [y]; clear y)); rotate_left; (focus (clear_value y; revert y; intro _ _)))
                 | (extract_lets +onlyGivenNames y; clear_value y; revert y; intro _) | (with_reducible apply keep_scanArrive)
                 | (with_reducible apply keep_paceMark) | (with_reducible apply keep_modInv) | split | (dsimp only)
                 | (with_reducible refine keep_mk ?_ rfl rfl rfl rfl rfl rfl rfl rfl rfl ?_ ?_ ?_ ?_ ?_ ?_ ?_ ?_ ?_ ?_ ?_ ?_ ?_ ?_ ?_ ?_ ?_ ?_))

theorem keep_scanRead {P : Area → Prop} {z : State} {s : State} {a_i : Inv} {a_col : Nat} {a_k : Nat} {a_n : Node}
    {a_cell : Nat} {a_c : Column} {a_host : Bytes} (h : Keeps P z s) (khbm : P .hbm := by assumption)
    (kfabric : P .fabric := by assumption) (krings : P .rings := by assumption)
    (khbmUnits : P .hbmUnits := by assumption) (ktwins : P .twins := by assumption) (klog : P .log := by assumption) :
    Keeps P z (scanRead s a_i a_col a_k a_n a_cell a_c a_host) := by
  unfold scanRead
  repeat' (first | (with_reducible assumption) | (exact Or.inl (by assumption)) | (exact Or.inr rfl)
                 | (exact Or.inr ⟨rfl, rfl, rfl, rfl⟩) | (intro)
                 | (extract_lets +onlyGivenNames y; refine keep_cut (y := y) ?_ ?_; (focus (dsimp only [y]; clear y)); rotate_left; (focus (clear_value y; revert y; intro _ _)))
                 | (extract_lets +onlyGivenNames y; refine keep_cut1 (y := y) ?_ ?_; (focus (dsimp only [y]; clear y)); rotate_left; (focus (clear_value y; revert y; intro _ _)))
                 | (extract_lets +onlyGivenNames y; refine keep_cut2 (y := y) ?_ ?_; (focus (dsimp only [y]; clear y)); rotate_left; (focus (clear_value y; revert y; intro _ _)))
                 | (extract_lets +onlyGivenNames y; clear_value y; revert y; intro _) | (with_reducible apply keep_scanFails)
                 | (with_reducible apply keep_raise) | (with_reducible apply keep_dropAtEdge)
                 | (with_reducible apply keep_addrAsk) | (with_reducible apply keep_readAddr)
                 | (with_reducible apply keep_scanSend) | (with_reducible refine keep_ite ?_ ?_) | split | (dsimp only)
                 | (with_reducible refine keep_mk ?_ rfl rfl rfl rfl rfl rfl rfl rfl rfl ?_ ?_ ?_ ?_ ?_ ?_ ?_ ?_ ?_ ?_ ?_ ?_ ?_ ?_ ?_ ?_ ?_ ?_))

theorem keep_scanDecoded {P : Area → Prop} {z : State} {s : State} {a_i : Inv} {a_col : Nat} {a_k : Nat} {a_cell : Nat}
    {a_c : Column} (h : Keeps P z s) (kfabric : P .fabric := by assumption) (kcodec : P .codec := by assumption)
    (ktwins : P .twins := by assumption) :
    Keeps P z (scanDecoded s a_i a_col a_k a_cell a_c) := by
  unfold scanDecoded
  repeat' (first | (with_reducible assumption) | (exact Or.inl (by assumption)) | (exact Or.inr rfl)
                 | (exact Or.inr ⟨rfl, rfl, rfl, rfl⟩) | (intro)
                 | (extract_lets +onlyGivenNames y; refine keep_cut (y := y) ?_ ?_; (focus (dsimp only [y]; clear y)); rotate_left; (focus (clear_value y; revert y; intro _ _)))
                 | (extract_lets +onlyGivenNames y; refine keep_cut1 (y := y) ?_ ?_; (focus (dsimp only [y]; clear y)); rotate_left; (focus (clear_value y; revert y; intro _ _)))
                 | (extract_lets +onlyGivenNames y; refine keep_cut2 (y := y) ?_ ?_; (focus (dsimp only [y]; clear y)); rotate_left; (focus (clear_value y; revert y; intro _ _)))
                 | (extract_lets +onlyGivenNames y; clear_value y; revert y; intro _) | (with_reducible apply keep_modCdc)
                 | (with_reducible apply keep_scanSend) | (with_reducible apply keep_preempted)
                 | (with_reducible refine keep_ite ?_ ?_) | split | (dsimp only)
                 | (with_reducible refine keep_mk ?_ rfl rfl rfl rfl rfl rfl rfl rfl rfl ?_ ?_ ?_ ?_ ?_ ?_ ?_ ?_ ?_ ?_ ?_ ?_ ?_ ?_ ?_ ?_ ?_ ?_))

theorem keep_scanEnd {P : Area → Prop} {z : State} {s : State} {a_i : Inv} {a_cs : List (Node × Nat × Column)}
    {a_cell : Nat} (h : Keeps P z s) (kfabric : P .fabric := by assumption) (ktwins : P .twins := by assumption) :
    Keeps P z (scanEnd s a_i a_cs a_cell) := by
  unfold scanEnd
  repeat' (first | (with_reducible assumption) | (exact Or.inl (by assumption)) | (exact Or.inr rfl)
                 | (exact Or.inr ⟨rfl, rfl, rfl, rfl⟩) | (intro)
                 | (extract_lets +onlyGivenNames y; refine keep_cut (y := y) ?_ ?_; (focus (dsimp only [y]; clear y)); rotate_left; (focus (clear_value y; revert y; intro _ _)))
                 | (extract_lets +onlyGivenNames y; refine keep_cut1 (y := y) ?_ ?_; (focus (dsimp only [y]; clear y)); rotate_left; (focus (clear_value y; revert y; intro _ _)))
                 | (extract_lets +onlyGivenNames y; refine keep_cut2 (y := y) ?_ ?_; (focus (dsimp only [y]; clear y)); rotate_left; (focus (clear_value y; revert y; intro _ _)))
                 | (extract_lets +onlyGivenNames y; clear_value y; revert y; intro _) | (with_reducible apply keep_scanArrive)
                 | (with_reducible apply keep_modInv) | (with_reducible refine keep_ite ?_ ?_) | split | (dsimp only)
                 | (with_reducible refine keep_mk ?_ rfl rfl rfl rfl rfl rfl rfl rfl rfl ?_ ?_ ?_ ?_ ?_ ?_ ?_ ?_ ?_ ?_ ?_ ?_ ?_ ?_ ?_ ?_ ?_ ?_))

theorem keep_scanTokenIssue {P : Area → Prop} {z : State} {s : State} {a_inv : Nat} {a_col : Nat} {a_host : Bytes}
    (h : Keeps P z s) (khbm : P .hbm := by assumption) (kfabric : P .fabric := by assumption)
    (krings : P .rings := by assumption) (khbmUnits : P .hbmUnits := by assumption) (kcodec : P .codec := by assumption)
    (ktwins : P .twins := by assumption) (klog : P .log := by assumption) :
    Keeps P z (scanTokenIssue s a_inv a_col a_host) := by
  unfold scanTokenIssue
  repeat' (first | (with_reducible assumption) | (exact Or.inl (by assumption)) | (exact Or.inr rfl)
                 | (exact Or.inr ⟨rfl, rfl, rfl, rfl⟩) | (intro)
                 | (extract_lets +onlyGivenNames y; refine keep_cut (y := y) ?_ ?_; (focus (dsimp only [y]; clear y)); rotate_left; (focus (clear_value y; revert y; intro _ _)))
                 | (extract_lets +onlyGivenNames y; refine keep_cut1 (y := y) ?_ ?_; (focus (dsimp only [y]; clear y)); rotate_left; (focus (clear_value y; revert y; intro _ _)))
                 | (extract_lets +onlyGivenNames y; refine keep_cut2 (y := y) ?_ ?_; (focus (dsimp only [y]; clear y)); rotate_left; (focus (clear_value y; revert y; intro _ _)))
                 | (extract_lets +onlyGivenNames y; clear_value y; revert y; intro _) | (with_reducible apply keep_scanEnd)
                 | (with_reducible apply keep_scanDecoded) | (with_reducible apply keep_scanRead)
                 | (with_reducible refine keep_ite ?_ ?_) | split | (dsimp only)
                 | (with_reducible refine keep_mk ?_ rfl rfl rfl rfl rfl rfl rfl rfl rfl ?_ ?_ ?_ ?_ ?_ ?_ ?_ ?_ ?_ ?_ ?_ ?_ ?_ ?_ ?_ ?_ ?_ ?_))

theorem keep_execScanTokenIssue {P : Area → Prop} {z : State} {a_inv : Nat} {a_col : Nat} {a_host : Bytes} {s : State}
    (h : Keeps P z s) (khbm : P .hbm := by assumption) (kfabric : P .fabric := by assumption)
    (krings : P .rings := by assumption) (khbmUnits : P .hbmUnits := by assumption) (kcodec : P .codec := by assumption)
    (ktwins : P .twins := by assumption) (klog : P .log := by assumption) :
    ∀ t, execScanTokenIssue a_inv a_col a_host s = .next t → Keeps P z t := by
  unfold execScanTokenIssue; intro t e; injection e with e; subst e
  repeat' (first | (with_reducible assumption) | (intro) | (with_reducible apply keep_scanTokenIssue) | split | (dsimp only))

end Sys2Proof.Machine
end

