-- ==== Sys2Proof/Laws/KeepDma.lean ====
section
/-! SUPPORT. What the operations of Machine/Dma.lean keep (Laws/Keep.lean), one lemma per operation. -/

set_option linter.tactic.unusedName false
set_option linter.all false
set_option Elab.async false

namespace Sys2Proof.Machine

theorem keep_setChan {P : Area → Prop} {z : State} {s : State} {a_d : Nat} {a_n : Nat} {a_c : Chan} (h : Keeps P z s)
    (kdma : P .dma := by assumption) :
    Keeps P z (setChan s a_d a_n a_c) := by
  unfold setChan
  repeat' (first | (with_reducible assumption) | (exact Or.inl (by assumption)) | (exact Or.inr rfl)
                 | (exact Or.inr ⟨rfl, rfl, rfl, rfl⟩) | (intro)
                 | (extract_lets +onlyGivenNames y; refine keep_cut (y := y) ?_ ?_; (focus (dsimp only [y]; clear y)); rotate_left; (focus (clear_value y; revert y; intro _ _)))
                 | (extract_lets +onlyGivenNames y; refine keep_cut1 (y := y) ?_ ?_; (focus (dsimp only [y]; clear y)); rotate_left; (focus (clear_value y; revert y; intro _ _)))
                 | (extract_lets +onlyGivenNames y; refine keep_cut2 (y := y) ?_ ?_; (focus (dsimp only [y]; clear y)); rotate_left; (focus (clear_value y; revert y; intro _ _)))
                 | (extract_lets +onlyGivenNames y; clear_value y; revert y; intro _) | split | (dsimp only)
                 | (with_reducible refine keep_mk ?_ rfl rfl rfl rfl rfl rfl rfl rfl rfl ?_ ?_ ?_ ?_ ?_ ?_ ?_ ?_ ?_ ?_ ?_ ?_ ?_ ?_ ?_ ?_ ?_ ?_))

theorem keep_dmaQueue {P : Area → Prop} {z : State} {s : State} {a_sq : Nat} {a_cq : Nat} {a_tag : Nat} {a_fn : Nat}
    {a_body : Bytes} (h : Keeps P z s) (kdma : P .dma := by assumption) :
    Keeps P z (dmaQueue s a_sq a_cq a_tag a_fn a_body) := by
  unfold dmaQueue
  repeat' (first | (with_reducible assumption) | (exact Or.inl (by assumption)) | (exact Or.inr rfl)
                 | (exact Or.inr ⟨rfl, rfl, rfl, rfl⟩) | (intro)
                 | (extract_lets +onlyGivenNames y; refine keep_cut (y := y) ?_ ?_; (focus (dsimp only [y]; clear y)); rotate_left; (focus (clear_value y; revert y; intro _ _)))
                 | (extract_lets +onlyGivenNames y; refine keep_cut1 (y := y) ?_ ?_; (focus (dsimp only [y]; clear y)); rotate_left; (focus (clear_value y; revert y; intro _ _)))
                 | (extract_lets +onlyGivenNames y; refine keep_cut2 (y := y) ?_ ?_; (focus (dsimp only [y]; clear y)); rotate_left; (focus (clear_value y; revert y; intro _ _)))
                 | (extract_lets +onlyGivenNames y; clear_value y; revert y; intro _) | (with_reducible apply keep_setF)
                 | (with_reducible apply keep_setChan) | (with_reducible refine keep_ite ?_ ?_) | split | (dsimp only)
                 | (with_reducible refine keep_mk ?_ rfl rfl rfl rfl rfl rfl rfl rfl rfl ?_ ?_ ?_ ?_ ?_ ?_ ?_ ?_ ?_ ?_ ?_ ?_ ?_ ?_ ?_ ?_ ?_ ?_))

theorem keep_dmaStart {P : Area → Prop} {z : State} {s : State} {a_d : Nat} {a_n : Nat} (h : Keeps P z s)
    (kdma : P .dma := by assumption) :
    Keeps P z (dmaStart s a_d a_n) := by
  unfold dmaStart
  repeat' (first | (with_reducible assumption) | (exact Or.inl (by assumption)) | (exact Or.inr rfl)
                 | (exact Or.inr ⟨rfl, rfl, rfl, rfl⟩) | (intro)
                 | (extract_lets +onlyGivenNames y; refine keep_cut (y := y) ?_ ?_; (focus (dsimp only [y]; clear y)); rotate_left; (focus (clear_value y; revert y; intro _ _)))
                 | (extract_lets +onlyGivenNames y; refine keep_cut1 (y := y) ?_ ?_; (focus (dsimp only [y]; clear y)); rotate_left; (focus (clear_value y; revert y; intro _ _)))
                 | (extract_lets +onlyGivenNames y; refine keep_cut2 (y := y) ?_ ?_; (focus (dsimp only [y]; clear y)); rotate_left; (focus (clear_value y; revert y; intro _ _)))
                 | (extract_lets +onlyGivenNames y; clear_value y; revert y; intro _) | (with_reducible apply keep_setChan)
                 | (with_reducible apply keep_setF) | (with_reducible refine keep_ite ?_ ?_) | split | (dsimp only)
                 | (with_reducible refine keep_mk ?_ rfl rfl rfl rfl rfl rfl rfl rfl rfl ?_ ?_ ?_ ?_ ?_ ?_ ?_ ?_ ?_ ?_ ?_ ?_ ?_ ?_ ?_ ?_ ?_ ?_))

theorem keep_execDmaTransferStart {P : Area → Prop} {z : State} {a_d : Nat} {a_n : Nat} {s : State} (h : Keeps P z s)
    (kdma : P .dma := by assumption) :
    ∀ t, execDmaTransferStart a_d a_n s = .next t → Keeps P z t := by
  unfold execDmaTransferStart; intro t e; injection e with e; subst e
  repeat' (first | (with_reducible assumption) | (intro) | (with_reducible apply keep_dmaStart) | split | (dsimp only))

theorem keep_readBeats {P : Area → Prop} {z : State} {fn who : Nat} (k : Nat) 
    (khbm : P .hbm := by assumption) (khbmUnits : P .hbmUnits := by assumption) : ∀ {s : State} {a n : Nat} {acc : Bytes}, Keeps P z s →
    Keeps P z (readBeats k s fn a n who acc).1 := by
  induction k with
  | zero => intro s a n acc h; exact h
  | succ k ih =>
    intro s a n acc h
    unfold readBeats
    split
    · exact h
    · have hr := keep_readAddr (a_fn := fn) (a_a := a) (a_n := min 64 n) (a_cls := 10) (a_who := who) (a_host := []) (a_hostError := false) h
      dsimp only
      split
      · exact hr
      · exact ih hr

theorem keep_dmaReadBurst {P : Area → Prop} {z : State} {s : State} {a_d : Nat} {a_n : Nat} (h : Keeps P z s)
    (khbm : P .hbm := by assumption) (khbmUnits : P .hbmUnits := by assumption) (kdma : P .dma := by assumption) :
    Keeps P z (dmaReadBurst s a_d a_n) := by
  unfold dmaReadBurst
  repeat' (first | (with_reducible assumption) | (exact Or.inl (by assumption)) | (exact Or.inr rfl)
                 | (exact Or.inr ⟨rfl, rfl, rfl, rfl⟩) | (intro)
                 | (extract_lets +onlyGivenNames y; refine keep_cut (y := y) ?_ ?_; (focus (dsimp only [y]; clear y)); rotate_left; (focus (clear_value y; revert y; intro _ _)))
                 | (extract_lets +onlyGivenNames y; refine keep_cut1 (y := y) ?_ ?_; (focus (dsimp only [y]; clear y)); rotate_left; (focus (clear_value y; revert y; intro _ _)))
                 | (extract_lets +onlyGivenNames y; refine keep_cut2 (y := y) ?_ ?_; (focus (dsimp only [y]; clear y)); rotate_left; (focus (clear_value y; revert y; intro _ _)))
                 | (extract_lets +onlyGivenNames y; clear_value y; revert y; intro _) | (with_reducible apply keep_setF)
                 | (with_reducible apply keep_emitOut) | (with_reducible apply keep_setChan)
                 | (with_reducible apply keep_addrAsk) | (with_reducible refine keep_ite ?_ ?_) | split | (dsimp only)
                 | (with_reducible refine keep_mk ?_ rfl rfl rfl rfl rfl rfl rfl rfl rfl ?_ ?_ ?_ ?_ ?_ ?_ ?_ ?_ ?_ ?_ ?_ ?_ ?_ ?_ ?_ ?_ ?_ ?_))

theorem keep_execDmaReadBurst {P : Area → Prop} {z : State} {a_d : Nat} {a_n : Nat} {s : State} (h : Keeps P z s)
    (khbm : P .hbm := by assumption) (khbmUnits : P .hbmUnits := by assumption) (kdma : P .dma := by assumption) :
    ∀ t, execDmaReadBurst a_d a_n s = .next t → Keeps P z t := by
  unfold execDmaReadBurst; intro t e; injection e with e; subst e
  repeat' (first | (with_reducible assumption) | (intro) | (with_reducible apply keep_dmaReadBurst) | split | (dsimp only))

theorem keep_dmaReadReturn {P : Area → Prop} {z : State} {s : State} {a_d : Nat} {a_n : Nat} {a_ok : Bool}
    {a_data : Bytes} (h : Keeps P z s) (khbm : P .hbm := by assumption) (khbmUnits : P .hbmUnits := by assumption)
    (kdma : P .dma := by assumption) :
    Keeps P z (dmaReadReturn s a_d a_n a_ok a_data) := by
  unfold dmaReadReturn
  repeat' (first | (with_reducible assumption) | (exact Or.inl (by assumption)) | (exact Or.inr rfl)
                 | (exact Or.inr ⟨rfl, rfl, rfl, rfl⟩) | (intro)
                 | (extract_lets +onlyGivenNames y; refine keep_cut (y := y) ?_ ?_; (focus (dsimp only [y]; clear y)); rotate_left; (focus (clear_value y; revert y; intro _ _)))
                 | (extract_lets +onlyGivenNames y; refine keep_cut1 (y := y) ?_ ?_; (focus (dsimp only [y]; clear y)); rotate_left; (focus (clear_value y; revert y; intro _ _)))
                 | (extract_lets +onlyGivenNames y; refine keep_cut2 (y := y) ?_ ?_; (focus (dsimp only [y]; clear y)); rotate_left; (focus (clear_value y; revert y; intro _ _)))
                 | (extract_lets +onlyGivenNames y; clear_value y; revert y; intro _) | (with_reducible apply keep_setChan)
                 | (with_reducible apply keep_addrAsk) | (with_reducible apply keep_readBeats)
                 | (with_reducible refine keep_ite ?_ ?_) | split | (dsimp only)
                 | (with_reducible refine keep_mk ?_ rfl rfl rfl rfl rfl rfl rfl rfl rfl ?_ ?_ ?_ ?_ ?_ ?_ ?_ ?_ ?_ ?_ ?_ ?_ ?_ ?_ ?_ ?_ ?_ ?_))

theorem keep_execDmaReadReturn {P : Area → Prop} {z : State} {a_d : Nat} {a_n : Nat} {a_ok : Bool} {a_data : Bytes}
    {s : State} (h : Keeps P z s) (khbm : P .hbm := by assumption) (khbmUnits : P .hbmUnits := by assumption)
    (kdma : P .dma := by assumption) :
    ∀ t, execDmaReadReturn a_d a_n a_ok a_data s = .next t → Keeps P z t := by
  unfold execDmaReadReturn; intro t e; injection e with e; subst e
  repeat' (first | (with_reducible assumption) | (intro) | (with_reducible apply keep_dmaReadReturn) | split | (dsimp only))

theorem keep_startBurst {P : Area → Prop} {z : State} {s : State} {a_d : Nat} {a_n : Nat} (h : Keeps P z s)
    (kdma : P .dma := by assumption) :
    Keeps P z (startBurst s a_d a_n) := by
  unfold startBurst
  repeat' (first | (with_reducible assumption) | (exact Or.inl (by assumption)) | (exact Or.inr rfl)
                 | (exact Or.inr ⟨rfl, rfl, rfl, rfl⟩) | (intro)
                 | (extract_lets +onlyGivenNames y; refine keep_cut (y := y) ?_ ?_; (focus (dsimp only [y]; clear y)); rotate_left; (focus (clear_value y; revert y; intro _ _)))
                 | (extract_lets +onlyGivenNames y; refine keep_cut1 (y := y) ?_ ?_; (focus (dsimp only [y]; clear y)); rotate_left; (focus (clear_value y; revert y; intro _ _)))
                 | (extract_lets +onlyGivenNames y; refine keep_cut2 (y := y) ?_ ?_; (focus (dsimp only [y]; clear y)); rotate_left; (focus (clear_value y; revert y; intro _ _)))
                 | (extract_lets +onlyGivenNames y; clear_value y; revert y; intro _) | (with_reducible apply keep_setChan)
                 | (with_reducible refine keep_ite ?_ ?_) | split | (dsimp only)
                 | (with_reducible refine keep_mk ?_ rfl rfl rfl rfl rfl rfl rfl rfl rfl ?_ ?_ ?_ ?_ ?_ ?_ ?_ ?_ ?_ ?_ ?_ ?_ ?_ ?_ ?_ ?_ ?_ ?_))

theorem keep_writeBeat {P : Area → Prop} {z : State} {s : State} {a_d : Nat} {a_n : Nat} (h : Keeps P z s)
    (khbm : P .hbm := by assumption) (khbmUnits : P .hbmUnits := by assumption) (kdma : P .dma := by assumption) :
    Keeps P z (writeBeat s a_d a_n) := by
  unfold writeBeat
  repeat' (first | (with_reducible assumption) | (exact Or.inl (by assumption)) | (exact Or.inr rfl)
                 | (exact Or.inr ⟨rfl, rfl, rfl, rfl⟩) | (intro)
                 | (extract_lets +onlyGivenNames y; refine keep_cut (y := y) ?_ ?_; (focus (dsimp only [y]; clear y)); rotate_left; (focus (clear_value y; revert y; intro _ _)))
                 | (extract_lets +onlyGivenNames y; refine keep_cut1 (y := y) ?_ ?_; (focus (dsimp only [y]; clear y)); rotate_left; (focus (clear_value y; revert y; intro _ _)))
                 | (extract_lets +onlyGivenNames y; refine keep_cut2 (y := y) ?_ ?_; (focus (dsimp only [y]; clear y)); rotate_left; (focus (clear_value y; revert y; intro _ _)))
                 | (extract_lets +onlyGivenNames y; clear_value y; revert y; intro _) | (with_reducible apply keep_setF)
                 | (with_reducible apply keep_addF) | (with_reducible apply keep_setChan) | (with_reducible apply keep_emitOut)
                 | (with_reducible apply keep_writeAddr) | (with_reducible refine keep_ite ?_ ?_) | split | (dsimp only)
                 | (with_reducible refine keep_mk ?_ rfl rfl rfl rfl rfl rfl rfl rfl rfl ?_ ?_ ?_ ?_ ?_ ?_ ?_ ?_ ?_ ?_ ?_ ?_ ?_ ?_ ?_ ?_ ?_ ?_))

theorem keep_dmaWriteBeat {P : Area → Prop} {z : State} {s : State} {a_d : Nat} (h : Keeps P z s)
    (khbm : P .hbm := by assumption) (khbmUnits : P .hbmUnits := by assumption) (kdma : P .dma := by assumption) :
    Keeps P z (dmaWriteBeat s a_d) := by
  unfold dmaWriteBeat
  repeat' (first | (with_reducible assumption) | (exact Or.inl (by assumption)) | (exact Or.inr rfl)
                 | (exact Or.inr ⟨rfl, rfl, rfl, rfl⟩) | (intro)
                 | (extract_lets +onlyGivenNames y; refine keep_cut (y := y) ?_ ?_; (focus (dsimp only [y]; clear y)); rotate_left; (focus (clear_value y; revert y; intro _ _)))
                 | (extract_lets +onlyGivenNames y; refine keep_cut1 (y := y) ?_ ?_; (focus (dsimp only [y]; clear y)); rotate_left; (focus (clear_value y; revert y; intro _ _)))
                 | (extract_lets +onlyGivenNames y; refine keep_cut2 (y := y) ?_ ?_; (focus (dsimp only [y]; clear y)); rotate_left; (focus (clear_value y; revert y; intro _ _)))
                 | (extract_lets +onlyGivenNames y; clear_value y; revert y; intro _) | (with_reducible apply keep_satF)
                 | (with_reducible apply keep_writeBeat) | (with_reducible apply keep_startBurst)
                 | (with_reducible refine keep_ite ?_ ?_) | (with_reducible apply keep_foldl)
                 | (with_reducible apply keep_foldl1) | split | (dsimp only)
                 | (with_reducible refine keep_mk ?_ rfl rfl rfl rfl rfl rfl rfl rfl rfl ?_ ?_ ?_ ?_ ?_ ?_ ?_ ?_ ?_ ?_ ?_ ?_ ?_ ?_ ?_ ?_ ?_ ?_))

theorem keep_execDmaWriteBeat {P : Area → Prop} {z : State} {a_d : Nat} {s : State} (h : Keeps P z s)
    (khbm : P .hbm := by assumption) (khbmUnits : P .hbmUnits := by assumption) (kdma : P .dma := by assumption) :
    ∀ t, execDmaWriteBeat a_d s = .next t → Keeps P z t := by
  unfold execDmaWriteBeat; intro t e; injection e with e; subst e
  repeat' (first | (with_reducible assumption) | (intro) | (with_reducible apply keep_dmaWriteBeat) | split | (dsimp only))

theorem keep_dmaFailed {P : Area → Prop} {z : State} {s : State} {a_d : Nat} {a_n : Nat} {a_fn : Nat}
    {a_f : Nat × Nat × Nat} (h : Keeps P z s) (krings : P .rings := by assumption) (ktwins : P .twins := by assumption)
    (klog : P .log := by assumption) :
    Keeps P z (dmaFailed s a_d a_n a_fn a_f) := by
  unfold dmaFailed
  repeat' (first | (with_reducible assumption) | (intro)
                 | (extract_lets +onlyGivenNames y; refine keep_cut (y := y) ?_ ?_; (focus (dsimp only [y]; clear y)); rotate_left; (focus (clear_value y; revert y; intro _ _)))
                 | (extract_lets +onlyGivenNames y; refine keep_cut1 (y := y) ?_ ?_; (focus (dsimp only [y]; clear y)); rotate_left; (focus (clear_value y; revert y; intro _ _)))
                 | (extract_lets +onlyGivenNames y; refine keep_cut2 (y := y) ?_ ?_; (focus (dsimp only [y]; clear y)); rotate_left; (focus (clear_value y; revert y; intro _ _)))
                 | (extract_lets +onlyGivenNames y; clear_value y; revert y; intro _) | (with_reducible apply keep_setF)
                 | (with_reducible apply keep_logC) | (with_reducible apply keep_raise) | (with_reducible apply keep_satF)
                 | split | (dsimp only))

theorem keep_dmaFinish {P : Area → Prop} {z : State} {s : State} {a_d : Nat} {a_n : Nat} {a_x : Xfer} {a_status : Nat}
    {a_reason : Nat} {a_r0 : Nat} {a_r1 : Nat} (h : Keeps P z s) (kdests : P .dests := by assumption)
    (krings : P .rings := by assumption) (khbmUnits : P .hbmUnits := by assumption) (kdma : P .dma := by assumption) :
    Keeps P z (dmaFinish s a_d a_n a_x a_status a_reason a_r0 a_r1) := by
  unfold dmaFinish
  repeat' (first | (with_reducible assumption) | (exact Or.inl (by assumption)) | (exact Or.inr rfl)
                 | (exact Or.inr ⟨rfl, rfl, rfl, rfl⟩) | (intro)
                 | (extract_lets +onlyGivenNames y; refine keep_cut (y := y) ?_ ?_; (focus (dsimp only [y]; clear y)); rotate_left; (focus (clear_value y; revert y; intro _ _)))
                 | (extract_lets +onlyGivenNames y; refine keep_cut1 (y := y) ?_ ?_; (focus (dsimp only [y]; clear y)); rotate_left; (focus (clear_value y; revert y; intro _ _)))
                 | (extract_lets +onlyGivenNames y; refine keep_cut2 (y := y) ?_ ?_; (focus (dsimp only [y]; clear y)); rotate_left; (focus (clear_value y; revert y; intro _ _)))
                 | (extract_lets +onlyGivenNames y; clear_value y; revert y; intro _) | (with_reducible apply keep_setChan)
                 | (with_reducible apply keep_dropReads) | (with_reducible apply keep_complete)
                 | (with_reducible apply keep_setF) | split | (dsimp only)
                 | (with_reducible refine keep_mk ?_ rfl rfl rfl rfl rfl rfl rfl rfl rfl ?_ ?_ ?_ ?_ ?_ ?_ ?_ ?_ ?_ ?_ ?_ ?_ ?_ ?_ ?_ ?_ ?_ ?_))

theorem keep_dmaWriteAck {P : Area → Prop} {z : State} {s : State} {a_d : Nat} {a_n : Nat} (h : Keeps P z s)
    (kdests : P .dests := by assumption) (krings : P .rings := by assumption) (khbmUnits : P .hbmUnits := by assumption)
    (kdma : P .dma := by assumption) (ktwins : P .twins := by assumption) (klog : P .log := by assumption) :
    Keeps P z (dmaWriteAck s a_d a_n) := by
  unfold dmaWriteAck
  repeat' (first | (with_reducible assumption) | (exact Or.inl (by assumption)) | (exact Or.inr rfl)
                 | (exact Or.inr ⟨rfl, rfl, rfl, rfl⟩) | (intro)
                 | (extract_lets +onlyGivenNames y; refine keep_cut (y := y) ?_ ?_; (focus (dsimp only [y]; clear y)); rotate_left; (focus (clear_value y; revert y; intro _ _)))
                 | (extract_lets +onlyGivenNames y; refine keep_cut1 (y := y) ?_ ?_; (focus (dsimp only [y]; clear y)); rotate_left; (focus (clear_value y; revert y; intro _ _)))
                 | (extract_lets +onlyGivenNames y; refine keep_cut2 (y := y) ?_ ?_; (focus (dsimp only [y]; clear y)); rotate_left; (focus (clear_value y; revert y; intro _ _)))
                 | (extract_lets +onlyGivenNames y; clear_value y; revert y; intro _) | (with_reducible apply keep_dmaFinish)
                 | (with_reducible apply keep_dmaFailed) | (with_reducible refine keep_ite ?_ ?_) | split | (dsimp only)
                 | (with_reducible refine keep_mk ?_ rfl rfl rfl rfl rfl rfl rfl rfl rfl ?_ ?_ ?_ ?_ ?_ ?_ ?_ ?_ ?_ ?_ ?_ ?_ ?_ ?_ ?_ ?_ ?_ ?_))

theorem keep_execDmaWriteAck {P : Area → Prop} {z : State} {a_d : Nat} {a_n : Nat} {s : State} (h : Keeps P z s)
    (kdests : P .dests := by assumption) (krings : P .rings := by assumption) (khbmUnits : P .hbmUnits := by assumption)
    (kdma : P .dma := by assumption) (ktwins : P .twins := by assumption) (klog : P .log := by assumption) :
    ∀ t, execDmaWriteAck a_d a_n s = .next t → Keeps P z t := by
  unfold execDmaWriteAck; intro t e; injection e with e; subst e
  repeat' (first | (with_reducible assumption) | (intro) | (with_reducible apply keep_dmaWriteAck) | split | (dsimp only))

theorem keep_xfersDone {P : Area → Prop} {z : State} {s : State} {a_xs : List Xfer} {a_status : Nat} {a_reason : Nat}
    {a_r0 : Xfer → Nat} (h : Keeps P z s) (kdests : P .dests := by assumption) (krings : P .rings := by assumption) :
    Keeps P z (xfersDone s a_xs a_status a_reason a_r0) := by
  unfold xfersDone
  repeat' (first | (with_reducible assumption) | (intro) | (with_reducible apply keep_complete)
                 | (with_reducible apply keep_foldl) | (with_reducible apply keep_foldl1) | split | (dsimp only))

theorem keep_dmaDrop {P : Area → Prop} {z : State} {s : State} {a_d : Nat} {a_n : Nat} (h : Keeps P z s)
    (khbm : P .hbm := by assumption) (kdests : P .dests := by assumption) (krings : P .rings := by assumption)
    (khbmUnits : P .hbmUnits := by assumption) (kdma : P .dma := by assumption) :
    Keeps P z (dmaDrop s a_d a_n) := by
  unfold dmaDrop
  repeat' (first | (with_reducible assumption) | (exact Or.inl (by assumption)) | (exact Or.inr rfl)
                 | (exact Or.inr ⟨rfl, rfl, rfl, rfl⟩) | (intro)
                 | (extract_lets +onlyGivenNames y; refine keep_cut (y := y) ?_ ?_; (focus (dsimp only [y]; clear y)); rotate_left; (focus (clear_value y; revert y; intro _ _)))
                 | (extract_lets +onlyGivenNames y; refine keep_cut1 (y := y) ?_ ?_; (focus (dsimp only [y]; clear y)); rotate_left; (focus (clear_value y; revert y; intro _ _)))
                 | (extract_lets +onlyGivenNames y; refine keep_cut2 (y := y) ?_ ?_; (focus (dsimp only [y]; clear y)); rotate_left; (focus (clear_value y; revert y; intro _ _)))
                 | (extract_lets +onlyGivenNames y; clear_value y; revert y; intro _) | (with_reducible apply keep_setF)
                 | (with_reducible apply keep_setChan) | (with_reducible apply keep_dropReads)
                 | (with_reducible apply keep_raise) | (with_reducible apply keep_undefAddr) | (with_reducible apply keep_fresh)
                 | (with_reducible apply keep_xfersDone) | (with_reducible refine keep_ite ?_ ?_) | split | (dsimp only)
                 | (with_reducible refine keep_mk ?_ rfl rfl rfl rfl rfl rfl rfl rfl rfl ?_ ?_ ?_ ?_ ?_ ?_ ?_ ?_ ?_ ?_ ?_ ?_ ?_ ?_ ?_ ?_ ?_ ?_))

theorem keep_dmaDisable {P : Area → Prop} {z : State} {s : State} {a_fn : Nat} {a_d : Nat} {a_n : Nat} (h : Keeps P z s)
    (khbm : P .hbm := by assumption) (kdests : P .dests := by assumption) (krings : P .rings := by assumption)
    (khbmUnits : P .hbmUnits := by assumption) (kdma : P .dma := by assumption) (ktwins : P .twins := by assumption)
    (klog : P .log := by assumption) :
    Keeps P z (dmaDisable s a_fn a_d a_n) := by
  unfold dmaDisable
  repeat' (first | (with_reducible assumption) | (intro) | (with_reducible apply keep_logWWR)
                 | (with_reducible apply keep_dmaDrop) | (with_reducible refine keep_ite ?_ ?_) | split | (dsimp only))

theorem keep_execChannelDisable {P : Area → Prop} {z : State} {a_fn : Nat} {a_d : Nat} {a_n : Nat} {s : State}
    (h : Keeps P z s) (khbm : P .hbm := by assumption) (kdests : P .dests := by assumption)
    (krings : P .rings := by assumption) (khbmUnits : P .hbmUnits := by assumption) (kdma : P .dma := by assumption)
    (ktwins : P .twins := by assumption) (klog : P .log := by assumption) :
    ∀ t, execChannelDisable a_fn a_d a_n s = .next t → Keeps P z t := by
  unfold execChannelDisable; intro t e; injection e with e; subst e
  repeat' (first | (with_reducible assumption) | (intro) | (with_reducible apply keep_dmaDisable) | split | (dsimp only))

theorem keep_dmaEnable {P : Area → Prop} {z : State} {s : State} {a_fn : Nat} {a_d : Nat} {a_n : Nat} (h : Keeps P z s)
    (krings : P .rings := by assumption) (kdma : P .dma := by assumption) (ktwins : P .twins := by assumption)
    (klog : P .log := by assumption) :
    Keeps P z (dmaEnable s a_fn a_d a_n) := by
  unfold dmaEnable
  repeat' (first | (with_reducible assumption) | (intro) | (with_reducible apply keep_logWWR) | (with_reducible apply keep_setF)
                 | (with_reducible apply keep_setChan) | (with_reducible refine keep_ite ?_ ?_) | split | (dsimp only))

theorem keep_execChannelEnable {P : Area → Prop} {z : State} {a_fn : Nat} {a_d : Nat} {a_n : Nat} {s : State}
    (h : Keeps P z s) (krings : P .rings := by assumption) (kdma : P .dma := by assumption)
    (ktwins : P .twins := by assumption) (klog : P .log := by assumption) :
    ∀ t, execChannelEnable a_fn a_d a_n s = .next t → Keeps P z t := by
  unfold execChannelEnable; intro t e; injection e with e; subst e
  repeat' (first | (with_reducible assumption) | (intro) | (with_reducible apply keep_dmaEnable) | split | (dsimp only))

theorem keep_chanSquash {P : Area → Prop} {z : State} {s : State} {a_k : Nat} {a_p : Xfer → Bool} {a_status : Nat}
    {a_reason : Nat} (h : Keeps P z s) (kdests : P .dests := by assumption) (krings : P .rings := by assumption)
    (kdma : P .dma := by assumption) :
    Keeps P z (chanSquash s a_k a_p a_status a_reason) := by
  unfold chanSquash
  repeat' (first | (with_reducible assumption) | (exact Or.inl (by assumption)) | (exact Or.inr rfl)
                 | (exact Or.inr ⟨rfl, rfl, rfl, rfl⟩) | (intro)
                 | (extract_lets +onlyGivenNames y; refine keep_cut (y := y) ?_ ?_; (focus (dsimp only [y]; clear y)); rotate_left; (focus (clear_value y; revert y; intro _ _)))
                 | (extract_lets +onlyGivenNames y; refine keep_cut1 (y := y) ?_ ?_; (focus (dsimp only [y]; clear y)); rotate_left; (focus (clear_value y; revert y; intro _ _)))
                 | (extract_lets +onlyGivenNames y; refine keep_cut2 (y := y) ?_ ?_; (focus (dsimp only [y]; clear y)); rotate_left; (focus (clear_value y; revert y; intro _ _)))
                 | (extract_lets +onlyGivenNames y; clear_value y; revert y; intro _) | (with_reducible apply keep_setF)
                 | (with_reducible apply keep_setChan) | (with_reducible apply keep_xfersDone)
                 | (with_reducible refine keep_ite ?_ ?_) | split | (dsimp only)
                 | (with_reducible refine keep_mk ?_ rfl rfl rfl rfl rfl rfl rfl rfl rfl ?_ ?_ ?_ ?_ ?_ ?_ ?_ ?_ ?_ ?_ ?_ ?_ ?_ ?_ ?_ ?_ ?_ ?_))

theorem keep_dmaSquash {P : Area → Prop} {z : State} {s : State} {a_p : Xfer → Bool} {a_status : Nat} {a_reason : Nat}
    (h : Keeps P z s) (kdests : P .dests := by assumption) (krings : P .rings := by assumption)
    (kdma : P .dma := by assumption) :
    Keeps P z (dmaSquash s a_p a_status a_reason) := by
  unfold dmaSquash
  repeat' (first | (with_reducible assumption) | (intro) | (with_reducible apply keep_chanSquash)
                 | (with_reducible apply keep_foldl) | (with_reducible apply keep_foldl1) | split | (dsimp only))

end Sys2Proof.Machine
end

