-- ==== Sys2Proof/Laws/KeepFetch.lean ====
section
/-! SUPPORT. What the operations of Machine/Fetch.lean keep (Laws/Keep.lean), one lemma per operation. -/

set_option linter.tactic.unusedName false
set_option linter.all false
set_option Elab.async false

namespace Sys2Proof.Machine

theorem keep_dbDropped {P : Area → Prop} {z : State} {s : State} {a_fn : Nat} {a_n : Nat} (h : Keeps P z s)
    (krings : P .rings := by assumption) (ktwins : P .twins := by assumption) (klog : P .log := by assumption) :
    Keeps P z (dbDropped s a_fn a_n) := by
  unfold dbDropped
  repeat' (first | (with_reducible assumption) | (intro) | (with_reducible apply keep_logC) | (with_reducible apply keep_raise)
                 | (with_reducible apply keep_satF) | split | (dsimp only))

theorem keep_bellSq {P : Area → Prop} {z : State} {s : State} {a_fn : Nat} {a_n : Nat} {a_v : Nat} (h : Keeps P z s)
    (krings : P .rings := by assumption) (ktwins : P .twins := by assumption) (klog : P .log := by assumption) :
    Keeps P z (bellSq s a_fn a_n a_v) := by
  unfold bellSq
  repeat' (first | (with_reducible assumption) | (intro) | (with_reducible apply keep_setF)
                 | (with_reducible apply keep_dbDropped) | (with_reducible refine keep_ite ?_ ?_) | split | (dsimp only))

theorem keep_bellCq {P : Area → Prop} {z : State} {s : State} {a_fn : Nat} {a_n : Nat} {a_v : Nat} (h : Keeps P z s)
    (krings : P .rings := by assumption) (ktwins : P .twins := by assumption) (klog : P .log := by assumption) :
    Keeps P z (bellCq s a_fn a_n a_v) := by
  unfold bellCq
  repeat' (first | (with_reducible assumption) | (exact Or.inl (by assumption)) | (exact Or.inr rfl)
                 | (exact Or.inr ⟨rfl, rfl, rfl, rfl⟩) | (intro)
                 | (extract_lets +onlyGivenNames y; refine keep_cut (y := y) ?_ ?_; (focus (dsimp only [y]; clear y)); rotate_left; (focus (clear_value y; revert y; intro _ _)))
                 | (extract_lets +onlyGivenNames y; refine keep_cut1 (y := y) ?_ ?_; (focus (dsimp only [y]; clear y)); rotate_left; (focus (clear_value y; revert y; intro _ _)))
                 | (extract_lets +onlyGivenNames y; refine keep_cut2 (y := y) ?_ ?_; (focus (dsimp only [y]; clear y)); rotate_left; (focus (clear_value y; revert y; intro _ _)))
                 | (extract_lets +onlyGivenNames y; clear_value y; revert y; intro _) | (with_reducible apply keep_setF)
                 | (with_reducible apply keep_modRing) | (with_reducible apply keep_dbDropped)
                 | (with_reducible refine keep_ite ?_ ?_) | split | (dsimp only)
                 | (with_reducible refine keep_mk ?_ rfl rfl rfl rfl rfl rfl rfl rfl rfl ?_ ?_ ?_ ?_ ?_ ?_ ?_ ?_ ?_ ?_ ?_ ?_ ?_ ?_ ?_ ?_ ?_ ?_))

theorem keep_doorbellWrite {P : Area → Prop} {z : State} {s : State} {a_fn : Nat} {a_off : Nat} {a_len : Nat} {a_v : Nat}
    (h : Keeps P z s) (krings : P .rings := by assumption) (ktwins : P .twins := by assumption)
    (klog : P .log := by assumption) :
    Keeps P z (doorbellWrite s a_fn a_off a_len a_v) := by
  unfold doorbellWrite
  repeat' (first | (with_reducible assumption) | (exact Or.inl (by assumption)) | (exact Or.inr rfl)
                 | (exact Or.inr ⟨rfl, rfl, rfl, rfl⟩) | (intro)
                 | (extract_lets +onlyGivenNames y; refine keep_cut (y := y) ?_ ?_; (focus (dsimp only [y]; clear y)); rotate_left; (focus (clear_value y; revert y; intro _ _)))
                 | (extract_lets +onlyGivenNames y; refine keep_cut1 (y := y) ?_ ?_; (focus (dsimp only [y]; clear y)); rotate_left; (focus (clear_value y; revert y; intro _ _)))
                 | (extract_lets +onlyGivenNames y; refine keep_cut2 (y := y) ?_ ?_; (focus (dsimp only [y]; clear y)); rotate_left; (focus (clear_value y; revert y; intro _ _)))
                 | (extract_lets +onlyGivenNames y; clear_value y; revert y; intro _) | (with_reducible apply keep_logC)
                 | (with_reducible apply keep_bellSq) | (with_reducible apply keep_bellCq)
                 | (with_reducible refine keep_ite ?_ ?_) | split | (dsimp only)
                 | (with_reducible refine keep_mk ?_ rfl rfl rfl rfl rfl rfl rfl rfl rfl ?_ ?_ ?_ ?_ ?_ ?_ ?_ ?_ ?_ ?_ ?_ ?_ ?_ ?_ ?_ ?_ ?_ ?_))

theorem keep_execDoorbellWrite {P : Area → Prop} {z : State} {a_fn : Nat} {a_off : Nat} {a_len : Nat} {a_v : Nat}
    {s : State} (h : Keeps P z s) (krings : P .rings := by assumption) (ktwins : P .twins := by assumption)
    (klog : P .log := by assumption) :
    ∀ t, execDoorbellWrite a_fn a_off a_len a_v s = .next t → Keeps P z t := by
  unfold execDoorbellWrite; intro t e; injection e with e; subst e
  repeat' (first | (with_reducible assumption) | (intro) | (with_reducible apply keep_doorbellWrite) | split | (dsimp only))

theorem keep_sqStopped {P : Area → Prop} {z : State} {s : State} {a_n : Nat} (h : Keeps P z s)
    (krings : P .rings := by assumption) (khbmUnits : P .hbmUnits := by assumption) :
    Keeps P z (sqStopped s a_n) := by
  unfold sqStopped
  repeat' (first | (with_reducible assumption) | (exact Or.inl (by assumption)) | (exact Or.inr rfl)
                 | (exact Or.inr ⟨rfl, rfl, rfl, rfl⟩) | (intro)
                 | (extract_lets +onlyGivenNames y; refine keep_cut (y := y) ?_ ?_; (focus (dsimp only [y]; clear y)); rotate_left; (focus (clear_value y; revert y; intro _ _)))
                 | (extract_lets +onlyGivenNames y; refine keep_cut1 (y := y) ?_ ?_; (focus (dsimp only [y]; clear y)); rotate_left; (focus (clear_value y; revert y; intro _ _)))
                 | (extract_lets +onlyGivenNames y; refine keep_cut2 (y := y) ?_ ?_; (focus (dsimp only [y]; clear y)); rotate_left; (focus (clear_value y; revert y; intro _ _)))
                 | (extract_lets +onlyGivenNames y; clear_value y; revert y; intro _) | (with_reducible apply keep_modRing)
                 | (with_reducible apply keep_setF) | (with_reducible apply keep_dropReads)
                 | (with_reducible refine keep_ite ?_ ?_) | split | (dsimp only)
                 | (with_reducible refine keep_mk ?_ rfl rfl rfl rfl rfl rfl rfl rfl rfl ?_ ?_ ?_ ?_ ?_ ?_ ?_ ?_ ?_ ?_ ?_ ?_ ?_ ?_ ?_ ?_ ?_ ?_))

theorem keep_takeEntry {P : Area → Prop} {z : State} {s : State} {a_n : Nat} {a_flip : Bool} (h : Keeps P z s)
    (krings : P .rings := by assumption) (khbmUnits : P .hbmUnits := by assumption) :
    Keeps P z (takeEntry s a_n a_flip) := by
  unfold takeEntry
  repeat' (first | (with_reducible assumption) | (exact Or.inl (by assumption)) | (exact Or.inr rfl)
                 | (exact Or.inr ⟨rfl, rfl, rfl, rfl⟩) | (intro)
                 | (extract_lets +onlyGivenNames y; refine keep_cut (y := y) ?_ ?_; (focus (dsimp only [y]; clear y)); rotate_left; (focus (clear_value y; revert y; intro _ _)))
                 | (extract_lets +onlyGivenNames y; refine keep_cut1 (y := y) ?_ ?_; (focus (dsimp only [y]; clear y)); rotate_left; (focus (clear_value y; revert y; intro _ _)))
                 | (extract_lets +onlyGivenNames y; refine keep_cut2 (y := y) ?_ ?_; (focus (dsimp only [y]; clear y)); rotate_left; (focus (clear_value y; revert y; intro _ _)))
                 | (extract_lets +onlyGivenNames y; clear_value y; revert y; intro _) | (with_reducible apply keep_hostWrite)
                 | (with_reducible apply keep_dropReads) | (with_reducible apply keep_modRing)
                 | (with_reducible apply keep_setF) | (with_reducible refine keep_ite ?_ ?_) | split | (dsimp only)
                 | (with_reducible refine keep_mk ?_ rfl rfl rfl rfl rfl rfl rfl rfl rfl ?_ ?_ ?_ ?_ ?_ ?_ ?_ ?_ ?_ ?_ ?_ ?_ ?_ ?_ ?_ ?_ ?_ ?_))

theorem keep_abortEntry {P : Area → Prop} {z : State} {s : State} {a_n : Nat} {a_reason : Nat} {a_b : Bytes}
    (h : Keeps P z s) (kdests : P .dests := by assumption) (krings : P .rings := by assumption)
    (khbmUnits : P .hbmUnits := by assumption) :
    Keeps P z (abortEntry s a_n a_reason a_b) := by
  unfold abortEntry
  repeat' (first | (with_reducible assumption) | (intro)
                 | (extract_lets +onlyGivenNames y; refine keep_cut (y := y) ?_ ?_; (focus (dsimp only [y]; clear y)); rotate_left; (focus (clear_value y; revert y; intro _ _)))
                 | (extract_lets +onlyGivenNames y; refine keep_cut1 (y := y) ?_ ?_; (focus (dsimp only [y]; clear y)); rotate_left; (focus (clear_value y; revert y; intro _ _)))
                 | (extract_lets +onlyGivenNames y; refine keep_cut2 (y := y) ?_ ?_; (focus (dsimp only [y]; clear y)); rotate_left; (focus (clear_value y; revert y; intro _ _)))
                 | (extract_lets +onlyGivenNames y; clear_value y; revert y; intro _) | (with_reducible apply keep_complete)
                 | (with_reducible apply keep_takeEntry) | (with_reducible refine keep_ite ?_ ?_) | split | (dsimp only))

theorem keep_abortFetched {P : Area → Prop} {z : State} {s : State} {a_n : Nat} {a_reason : Nat} (h : Keeps P z s)
    (kdests : P .dests := by assumption) (krings : P .rings := by assumption) (khbmUnits : P .hbmUnits := by assumption) :
    Keeps P z (abortFetched s a_n a_reason) := by
  unfold abortFetched
  repeat' (first | (with_reducible assumption) | (intro) | (with_reducible apply keep_abortEntry)
                 | (with_reducible apply keep_foldl) | (with_reducible apply keep_foldl1) | split | (dsimp only))

theorem keep_emitRead {P : Area → Prop} {z : State} {s : State} {a_n : Nat} {a_i : Nat} {a_k : Nat} (h : Keeps P z s) :
    Keeps P z (emitRead s a_n a_i a_k) := by
  unfold emitRead
  repeat' (first | (with_reducible assumption) | (intro) | (with_reducible apply keep_emitOut) | split | (dsimp only))

theorem keep_gotEntries {P : Area → Prop} {z : State} {s : State} {a_n : Nat} {a_es : List (Nat × Bytes)}
    (h : Keeps P z s) (kdests : P .dests := by assumption) (krings : P .rings := by assumption)
    (khbmUnits : P .hbmUnits := by assumption) :
    Keeps P z (gotEntries s a_n a_es) := by
  unfold gotEntries
  repeat' (first | (with_reducible assumption) | (exact Or.inl (by assumption)) | (exact Or.inr rfl)
                 | (exact Or.inr ⟨rfl, rfl, rfl, rfl⟩) | (intro)
                 | (extract_lets +onlyGivenNames y; refine keep_cut (y := y) ?_ ?_; (focus (dsimp only [y]; clear y)); rotate_left; (focus (clear_value y; revert y; intro _ _)))
                 | (extract_lets +onlyGivenNames y; refine keep_cut1 (y := y) ?_ ?_; (focus (dsimp only [y]; clear y)); rotate_left; (focus (clear_value y; revert y; intro _ _)))
                 | (extract_lets +onlyGivenNames y; refine keep_cut2 (y := y) ?_ ?_; (focus (dsimp only [y]; clear y)); rotate_left; (focus (clear_value y; revert y; intro _ _)))
                 | (extract_lets +onlyGivenNames y; clear_value y; revert y; intro _) | (with_reducible apply keep_modRing)
                 | (with_reducible apply keep_sqStopped) | (with_reducible apply keep_abortFetched)
                 | (with_reducible refine keep_ite ?_ ?_) | split | (dsimp only)
                 | (with_reducible refine keep_mk ?_ rfl rfl rfl rfl rfl rfl rfl rfl rfl ?_ ?_ ?_ ?_ ?_ ?_ ?_ ?_ ?_ ?_ ?_ ?_ ?_ ?_ ?_ ?_ ?_ ?_))

theorem keep_readFails {P : Area → Prop} {z : State} {s : State} {a_n : Nat} {a_i : Nat} {a_k : Nat} (h : Keeps P z s)
    (kdests : P .dests := by assumption) (krings : P .rings := by assumption) (khbmUnits : P .hbmUnits := by assumption) :
    Keeps P z (readFails s a_n a_i a_k) := by
  unfold readFails
  repeat' (first | (with_reducible assumption) | (exact Or.inl (by assumption)) | (exact Or.inr rfl)
                 | (exact Or.inr ⟨rfl, rfl, rfl, rfl⟩) | (intro)
                 | (extract_lets +onlyGivenNames y; refine keep_cut (y := y) ?_ ?_; (focus (dsimp only [y]; clear y)); rotate_left; (focus (clear_value y; revert y; intro _ _)))
                 | (extract_lets +onlyGivenNames y; refine keep_cut1 (y := y) ?_ ?_; (focus (dsimp only [y]; clear y)); rotate_left; (focus (clear_value y; revert y; intro _ _)))
                 | (extract_lets +onlyGivenNames y; refine keep_cut2 (y := y) ?_ ?_; (focus (dsimp only [y]; clear y)); rotate_left; (focus (clear_value y; revert y; intro _ _)))
                 | (extract_lets +onlyGivenNames y; clear_value y; revert y; intro _) | (with_reducible apply keep_gotEntries)
                 | (with_reducible apply keep_raise) | (with_reducible apply keep_modRing)
                 | (with_reducible refine keep_ite ?_ ?_) | split | (dsimp only)
                 | (with_reducible refine keep_mk ?_ rfl rfl rfl rfl rfl rfl rfl rfl rfl ?_ ?_ ?_ ?_ ?_ ?_ ?_ ?_ ?_ ?_ ?_ ?_ ?_ ?_ ?_ ?_ ?_ ?_))

theorem keep_entryReadReturn {P : Area → Prop} {z : State} {s : State} {a_n : Nat} {a_ok : Bool} {a_data : Bytes}
    (h : Keeps P z s) (kdests : P .dests := by assumption) (krings : P .rings := by assumption)
    (khbmUnits : P .hbmUnits := by assumption) :
    Keeps P z (entryReadReturn s a_n a_ok a_data) := by
  unfold entryReadReturn
  repeat' (first | (with_reducible assumption) | (intro)
                 | (extract_lets +onlyGivenNames y; refine keep_cut (y := y) ?_ ?_; (focus (dsimp only [y]; clear y)); rotate_left; (focus (clear_value y; revert y; intro _ _)))
                 | (extract_lets +onlyGivenNames y; refine keep_cut1 (y := y) ?_ ?_; (focus (dsimp only [y]; clear y)); rotate_left; (focus (clear_value y; revert y; intro _ _)))
                 | (extract_lets +onlyGivenNames y; refine keep_cut2 (y := y) ?_ ?_; (focus (dsimp only [y]; clear y)); rotate_left; (focus (clear_value y; revert y; intro _ _)))
                 | (extract_lets +onlyGivenNames y; clear_value y; revert y; intro _) | (with_reducible apply keep_emitRead)
                 | (with_reducible apply keep_gotEntries) | (with_reducible apply keep_readFails)
                 | (with_reducible refine keep_ite ?_ ?_) | split | (dsimp only))

theorem keep_execEntryReadReturn {P : Area → Prop} {z : State} {a_n : Nat} {a_ok : Bool} {a_data : Bytes} {s : State}
    (h : Keeps P z s) (kdests : P .dests := by assumption) (krings : P .rings := by assumption)
    (khbmUnits : P .hbmUnits := by assumption) :
    ∀ t, execEntryReadReturn a_n a_ok a_data s = .next t → Keeps P z t := by
  unfold execEntryReadReturn; intro t e; injection e with e; subst e
  repeat' (first | (with_reducible assumption) | (intro) | (with_reducible apply keep_entryReadReturn) | split | (dsimp only))

theorem keep_entryReread {P : Area → Prop} {z : State} {s : State} {a_n : Nat} {a_ok : Bool} {a_data : Bytes}
    (h : Keeps P z s) (krings : P .rings := by assumption) :
    Keeps P z (entryReread s a_n a_ok a_data) := by
  unfold entryReread
  repeat' (first | (with_reducible assumption) | (exact Or.inl (by assumption)) | (exact Or.inr rfl)
                 | (exact Or.inr ⟨rfl, rfl, rfl, rfl⟩) | (intro)
                 | (extract_lets +onlyGivenNames y; refine keep_cut (y := y) ?_ ?_; (focus (dsimp only [y]; clear y)); rotate_left; (focus (clear_value y; revert y; intro _ _)))
                 | (extract_lets +onlyGivenNames y; refine keep_cut1 (y := y) ?_ ?_; (focus (dsimp only [y]; clear y)); rotate_left; (focus (clear_value y; revert y; intro _ _)))
                 | (extract_lets +onlyGivenNames y; refine keep_cut2 (y := y) ?_ ?_; (focus (dsimp only [y]; clear y)); rotate_left; (focus (clear_value y; revert y; intro _ _)))
                 | (extract_lets +onlyGivenNames y; clear_value y; revert y; intro _) | (with_reducible apply keep_emitRead)
                 | (with_reducible apply keep_satF) | (with_reducible apply keep_modRing) | (with_reducible apply keep_raise)
                 | (with_reducible refine keep_ite ?_ ?_) | split | (dsimp only)
                 | (with_reducible refine keep_mk ?_ rfl rfl rfl rfl rfl rfl rfl rfl rfl ?_ ?_ ?_ ?_ ?_ ?_ ?_ ?_ ?_ ?_ ?_ ?_ ?_ ?_ ?_ ?_ ?_ ?_))

theorem keep_execEntryReread {P : Area → Prop} {z : State} {a_n : Nat} {a_ok : Bool} {a_data : Bytes} {s : State}
    (h : Keeps P z s) (krings : P .rings := by assumption) :
    ∀ t, execEntryReread a_n a_ok a_data s = .next t → Keeps P z t := by
  unfold execEntryReread; intro t e; injection e with e; subst e
  repeat' (first | (with_reducible assumption) | (intro) | (with_reducible apply keep_entryReread) | split | (dsimp only))

theorem keep_showOpen {P : Area → Prop} {z : State} {s : State} {a_p : Nat} (h : Keeps P z s) :
    Keeps P z (showOpen s a_p) := by
  unfold showOpen
  repeat' (first | (with_reducible assumption) | (intro)
                 | (extract_lets +onlyGivenNames y; refine keep_cut (y := y) ?_ ?_; (focus (dsimp only [y]; clear y)); rotate_left; (focus (clear_value y; revert y; intro _ _)))
                 | (extract_lets +onlyGivenNames y; refine keep_cut1 (y := y) ?_ ?_; (focus (dsimp only [y]; clear y)); rotate_left; (focus (clear_value y; revert y; intro _ _)))
                 | (extract_lets +onlyGivenNames y; refine keep_cut2 (y := y) ?_ ?_; (focus (dsimp only [y]; clear y)); rotate_left; (focus (clear_value y; revert y; intro _ _)))
                 | (extract_lets +onlyGivenNames y; clear_value y; revert y; intro _) | (with_reducible apply keep_maxF)
                 | (with_reducible apply keep_setF) | split | (dsimp only))

theorem keep_openInv {P : Area → Prop} {z : State} {s : State} {a_n : Nat} {a_cq : Nat} {a_tag : Nat} {a_fn : Nat}
    {a_body : Bytes} {a_l : Bytes} (h : Keeps P z s) (kfabric : P .fabric := by assumption)
    (kcodec : P .codec := by assumption) :
    Keeps P z (openInv s a_n a_cq a_tag a_fn a_body a_l) := by
  unfold openInv
  repeat' (first | (with_reducible assumption) | (exact Or.inl (by assumption)) | (exact Or.inr rfl)
                 | (exact Or.inr ⟨rfl, rfl, rfl, rfl⟩) | (intro)
                 | (extract_lets +onlyGivenNames y; refine keep_cut (y := y) ?_ ?_; (focus (dsimp only [y]; clear y)); rotate_left; (focus (clear_value y; revert y; intro _ _)))
                 | (extract_lets +onlyGivenNames y; refine keep_cut1 (y := y) ?_ ?_; (focus (dsimp only [y]; clear y)); rotate_left; (focus (clear_value y; revert y; intro _ _)))
                 | (extract_lets +onlyGivenNames y; refine keep_cut2 (y := y) ?_ ?_; (focus (dsimp only [y]; clear y)); rotate_left; (focus (clear_value y; revert y; intro _ _)))
                 | (extract_lets +onlyGivenNames y; clear_value y; revert y; intro _) | (with_reducible apply keep_modFab)
                 | (with_reducible apply keep_startCols) | (with_reducible apply keep_showOpen) | split | (dsimp only)
                 | (with_reducible refine keep_mk ?_ rfl rfl rfl rfl rfl rfl rfl rfl rfl ?_ ?_ ?_ ?_ ?_ ?_ ?_ ?_ ?_ ?_ ?_ ?_ ?_ ?_ ?_ ?_ ?_ ?_))

theorem keep_cancelRun {P : Area → Prop} {z : State} {s : State} {a_n : Nat} {a_cq : Nat} {a_tag : Nat} {a_fn : Nat}
    {a_body : Bytes} (h : Keeps P z s) (kfabric : P .fabric := by assumption) (kdests : P .dests := by assumption)
    (krings : P .rings := by assumption) (ktwins : P .twins := by assumption) :
    Keeps P z (cancelRun s a_n a_cq a_tag a_fn a_body) := by
  unfold cancelRun
  repeat' (first | (with_reducible assumption) | (exact Or.inl (by assumption)) | (exact Or.inr rfl)
                 | (exact Or.inr ⟨rfl, rfl, rfl, rfl⟩) | (intro)
                 | (extract_lets +onlyGivenNames y; refine keep_cut (y := y) ?_ ?_; (focus (dsimp only [y]; clear y)); rotate_left; (focus (clear_value y; revert y; intro _ _)))
                 | (extract_lets +onlyGivenNames y; refine keep_cut1 (y := y) ?_ ?_; (focus (dsimp only [y]; clear y)); rotate_left; (focus (clear_value y; revert y; intro _ _)))
                 | (extract_lets +onlyGivenNames y; refine keep_cut2 (y := y) ?_ ?_; (focus (dsimp only [y]; clear y)); rotate_left; (focus (clear_value y; revert y; intro _ _)))
                 | (extract_lets +onlyGivenNames y; clear_value y; revert y; intro _) | (with_reducible apply keep_complete)
                 | (with_reducible apply keep_squash) | (with_reducible apply keep_foldl) | (with_reducible apply keep_foldl1)
                 | split | (dsimp only)
                 | (with_reducible refine keep_mk ?_ rfl rfl rfl rfl rfl rfl rfl rfl rfl ?_ ?_ ?_ ?_ ?_ ?_ ?_ ?_ ?_ ?_ ?_ ?_ ?_ ?_ ?_ ?_ ?_ ?_))

theorem keep_postRun {P : Area → Prop} {z : State} {s : State} {a_n : Nat} {a_cq : Nat} {a_tag : Nat} {a_body : Bytes}
    (h : Keeps P z s) (krings : P .rings := by assumption) :
    Keeps P z (postRun s a_n a_cq a_tag a_body) := by
  unfold postRun
  repeat' (first | (with_reducible assumption) | (exact Or.inl (by assumption)) | (exact Or.inr rfl)
                 | (exact Or.inr ⟨rfl, rfl, rfl, rfl⟩) | (intro)
                 | (extract_lets +onlyGivenNames y; refine keep_cut (y := y) ?_ ?_; (focus (dsimp only [y]; clear y)); rotate_left; (focus (clear_value y; revert y; intro _ _)))
                 | (extract_lets +onlyGivenNames y; refine keep_cut1 (y := y) ?_ ?_; (focus (dsimp only [y]; clear y)); rotate_left; (focus (clear_value y; revert y; intro _ _)))
                 | (extract_lets +onlyGivenNames y; refine keep_cut2 (y := y) ?_ ?_; (focus (dsimp only [y]; clear y)); rotate_left; (focus (clear_value y; revert y; intro _ _)))
                 | (extract_lets +onlyGivenNames y; clear_value y; revert y; intro _) | (with_reducible apply keep_modRing)
                 | split | (dsimp only)
                 | (with_reducible refine keep_mk ?_ rfl rfl rfl rfl rfl rfl rfl rfl rfl ?_ ?_ ?_ ?_ ?_ ?_ ?_ ?_ ?_ ?_ ?_ ?_ ?_ ?_ ?_ ?_ ?_ ?_))

theorem keep_opRun {P : Area → Prop} {z : State} {s : State} {a_n : Nat} {a_cq : Nat} {a_fn : Nat} {a_b : Bytes}
    {a_l : Bytes} (h : Keeps P z s) (kplats : P .plats := by assumption) (kfabric : P .fabric := by assumption)
    (kdests : P .dests := by assumption) (krings : P .rings := by assumption)
    (ksramUnits : P .sramUnits := by assumption) (kcodec : P .codec := by assumption) (kdma : P .dma := by assumption)
    (ktwins : P .twins := by assumption) :
    Keeps P z (opRun s a_n a_cq a_fn a_b a_l) := by
  unfold opRun
  repeat' (first | (with_reducible assumption) | (exact Or.inl (by assumption)) | (exact Or.inr rfl)
                 | (exact Or.inr ⟨rfl, rfl, rfl, rfl⟩) | (intro)
                 | (extract_lets +onlyGivenNames y; refine keep_cut (y := y) ?_ ?_; (focus (dsimp only [y]; clear y)); rotate_left; (focus (clear_value y; revert y; intro _ _)))
                 | (extract_lets +onlyGivenNames y; refine keep_cut1 (y := y) ?_ ?_; (focus (dsimp only [y]; clear y)); rotate_left; (focus (clear_value y; revert y; intro _ _)))
                 | (extract_lets +onlyGivenNames y; refine keep_cut2 (y := y) ?_ ?_; (focus (dsimp only [y]; clear y)); rotate_left; (focus (clear_value y; revert y; intro _ _)))
                 | (extract_lets +onlyGivenNames y; clear_value y; revert y; intro _) | (with_reducible apply keep_openInv)
                 | (with_reducible apply keep_cancelRun) | (with_reducible apply keep_postRun)
                 | (with_reducible apply keep_loadPlat) | (with_reducible apply keep_unloadPlat)
                 | (with_reducible apply keep_cdcStart) | (with_reducible apply keep_dmaQueue)
                 | (with_reducible apply keep_complete) | split | (dsimp only)
                 | (with_reducible refine keep_mk ?_ rfl rfl rfl rfl rfl rfl rfl rfl rfl ?_ ?_ ?_ ?_ ?_ ?_ ?_ ?_ ?_ ?_ ?_ ?_ ?_ ?_ ?_ ?_ ?_ ?_))

theorem keep_consumed {P : Area → Prop} {z : State} {s : State} {a_n : Nat} {a_flip : Bool} (h : Keeps P z s)
    (krings : P .rings := by assumption) (khbmUnits : P .hbmUnits := by assumption) :
    Keeps P z (consumed s a_n a_flip) := by
  unfold consumed
  repeat' (first | (with_reducible assumption) | (exact Or.inl (by assumption)) | (exact Or.inr rfl)
                 | (exact Or.inr ⟨rfl, rfl, rfl, rfl⟩) | (intro)
                 | (extract_lets +onlyGivenNames y; refine keep_cut (y := y) ?_ ?_; (focus (dsimp only [y]; clear y)); rotate_left; (focus (clear_value y; revert y; intro _ _)))
                 | (extract_lets +onlyGivenNames y; refine keep_cut1 (y := y) ?_ ?_; (focus (dsimp only [y]; clear y)); rotate_left; (focus (clear_value y; revert y; intro _ _)))
                 | (extract_lets +onlyGivenNames y; refine keep_cut2 (y := y) ?_ ?_; (focus (dsimp only [y]; clear y)); rotate_left; (focus (clear_value y; revert y; intro _ _)))
                 | (extract_lets +onlyGivenNames y; clear_value y; revert y; intro _) | (with_reducible apply keep_addF)
                 | (with_reducible apply keep_takeEntry) | split | (dsimp only)
                 | (with_reducible refine keep_mk ?_ rfl rfl rfl rfl rfl rfl rfl rfl rfl ?_ ?_ ?_ ?_ ?_ ?_ ?_ ?_ ?_ ?_ ?_ ?_ ?_ ?_ ?_ ?_ ?_ ?_))

theorem keep_failEntry {P : Area → Prop} {z : State} {s : State} {a_n : Nat} {a_b : Bytes} {a_status : Nat}
    {a_reason : Nat} {a_r0 : Nat} (h : Keeps P z s) (kdests : P .dests := by assumption)
    (krings : P .rings := by assumption) (khbmUnits : P .hbmUnits := by assumption) :
    Keeps P z (failEntry s a_n a_b a_status a_reason a_r0) := by
  unfold failEntry
  repeat' (first | (with_reducible assumption) | (intro)
                 | (extract_lets +onlyGivenNames y; refine keep_cut (y := y) ?_ ?_; (focus (dsimp only [y]; clear y)); rotate_left; (focus (clear_value y; revert y; intro _ _)))
                 | (extract_lets +onlyGivenNames y; refine keep_cut1 (y := y) ?_ ?_; (focus (dsimp only [y]; clear y)); rotate_left; (focus (clear_value y; revert y; intro _ _)))
                 | (extract_lets +onlyGivenNames y; refine keep_cut2 (y := y) ?_ ?_; (focus (dsimp only [y]; clear y)); rotate_left; (focus (clear_value y; revert y; intro _ _)))
                 | (extract_lets +onlyGivenNames y; clear_value y; revert y; intro _) | (with_reducible apply keep_consumed)
                 | (with_reducible apply keep_complete) | (with_reducible refine keep_ite ?_ ?_) | split | (dsimp only))

theorem keep_gotList {P : Area → Prop} {z : State} {s : State} {a_n : Nat} {a_l : Bytes} (h : Keeps P z s)
    (krings : P .rings := by assumption) :
    Keeps P z (gotList s a_n a_l) := by
  unfold gotList
  repeat' (first | (with_reducible assumption) | (exact Or.inl (by assumption)) | (exact Or.inr rfl)
                 | (exact Or.inr ⟨rfl, rfl, rfl, rfl⟩) | (intro)
                 | (extract_lets +onlyGivenNames y; refine keep_cut (y := y) ?_ ?_; (focus (dsimp only [y]; clear y)); rotate_left; (focus (clear_value y; revert y; intro _ _)))
                 | (extract_lets +onlyGivenNames y; refine keep_cut1 (y := y) ?_ ?_; (focus (dsimp only [y]; clear y)); rotate_left; (focus (clear_value y; revert y; intro _ _)))
                 | (extract_lets +onlyGivenNames y; refine keep_cut2 (y := y) ?_ ?_; (focus (dsimp only [y]; clear y)); rotate_left; (focus (clear_value y; revert y; intro _ _)))
                 | (extract_lets +onlyGivenNames y; clear_value y; revert y; intro _) | (with_reducible apply keep_modRing)
                 | split | (dsimp only)
                 | (with_reducible refine keep_mk ?_ rfl rfl rfl rfl rfl rfl rfl rfl rfl ?_ ?_ ?_ ?_ ?_ ?_ ?_ ?_ ?_ ?_ ?_ ?_ ?_ ?_ ?_ ?_ ?_ ?_))

theorem keep_readList {P : Area → Prop} {z : State} {s : State} {a_n : Nat} {a_fn : Nat} {a_body : Bytes}
    (h : Keeps P z s) (khbm : P .hbm := by assumption) (krings : P .rings := by assumption)
    (khbmUnits : P .hbmUnits := by assumption) :
    Keeps P z (readList s a_n a_fn a_body) := by
  unfold readList
  repeat' (first | (with_reducible assumption) | (exact Or.inl (by assumption)) | (exact Or.inr rfl)
                 | (exact Or.inr ⟨rfl, rfl, rfl, rfl⟩) | (intro)
                 | (extract_lets +onlyGivenNames y; refine keep_cut (y := y) ?_ ?_; (focus (dsimp only [y]; clear y)); rotate_left; (focus (clear_value y; revert y; intro _ _)))
                 | (extract_lets +onlyGivenNames y; refine keep_cut1 (y := y) ?_ ?_; (focus (dsimp only [y]; clear y)); rotate_left; (focus (clear_value y; revert y; intro _ _)))
                 | (extract_lets +onlyGivenNames y; refine keep_cut2 (y := y) ?_ ?_; (focus (dsimp only [y]; clear y)); rotate_left; (focus (clear_value y; revert y; intro _ _)))
                 | (extract_lets +onlyGivenNames y; clear_value y; revert y; intro _) | (with_reducible apply keep_modRing)
                 | (with_reducible apply keep_emitOut) | (with_reducible apply keep_gotList)
                 | (with_reducible apply keep_addrAsk) | (with_reducible apply keep_readAddr)
                 | (with_reducible apply keep_dropReads) | (with_reducible refine keep_ite ?_ ?_) | split | (dsimp only)
                 | (with_reducible refine keep_mk ?_ rfl rfl rfl rfl rfl rfl rfl rfl rfl ?_ ?_ ?_ ?_ ?_ ?_ ?_ ?_ ?_ ?_ ?_ ?_ ?_ ?_ ?_ ?_ ?_ ?_))

theorem keep_fetchTurn {P : Area → Prop} {z : State} {s : State} {a_n : Nat} (h : Keeps P z s)
    (khbm : P .hbm := by assumption) (kplats : P .plats := by assumption) (kfabric : P .fabric := by assumption)
    (kdests : P .dests := by assumption) (krings : P .rings := by assumption)
    (ksramUnits : P .sramUnits := by assumption) (khbmUnits : P .hbmUnits := by assumption)
    (kcodec : P .codec := by assumption) (kdma : P .dma := by assumption) (ktwins : P .twins := by assumption) :
    Keeps P z (fetchTurn s a_n) := by
  unfold fetchTurn
  repeat' (first | (with_reducible assumption) | (exact Or.inl (by assumption)) | (exact Or.inr rfl)
                 | (exact Or.inr ⟨rfl, rfl, rfl, rfl⟩) | (intro)
                 | (extract_lets +onlyGivenNames y; refine keep_cut (y := y) ?_ ?_; (focus (dsimp only [y]; clear y)); rotate_left; (focus (clear_value y; revert y; intro _ _)))
                 | (extract_lets +onlyGivenNames y; refine keep_cut1 (y := y) ?_ ?_; (focus (dsimp only [y]; clear y)); rotate_left; (focus (clear_value y; revert y; intro _ _)))
                 | (extract_lets +onlyGivenNames y; refine keep_cut2 (y := y) ?_ ?_; (focus (dsimp only [y]; clear y)); rotate_left; (focus (clear_value y; revert y; intro _ _)))
                 | (extract_lets +onlyGivenNames y; clear_value y; revert y; intro _) | (with_reducible apply keep_raise)
                 | (with_reducible apply keep_readList) | (with_reducible apply keep_failEntry)
                 | (with_reducible apply keep_opRun) | (with_reducible apply keep_consumed)
                 | (with_reducible refine keep_ite ?_ ?_) | split | (dsimp only)
                 | (with_reducible refine keep_mk ?_ rfl rfl rfl rfl rfl rfl rfl rfl rfl ?_ ?_ ?_ ?_ ?_ ?_ ?_ ?_ ?_ ?_ ?_ ?_ ?_ ?_ ?_ ?_ ?_ ?_))

theorem keep_fetchOp {P : Area → Prop} {z : State} {s : State} {a_n : Nat} {a_op : Nat} (h : Keeps P z s)
    (khbm : P .hbm := by assumption) (kplats : P .plats := by assumption) (kfabric : P .fabric := by assumption)
    (kdests : P .dests := by assumption) (krings : P .rings := by assumption)
    (ksramUnits : P .sramUnits := by assumption) (khbmUnits : P .hbmUnits := by assumption)
    (kcodec : P .codec := by assumption) (kdma : P .dma := by assumption) (ktwins : P .twins := by assumption) :
    Keeps P z (fetchOp s a_n a_op) := by
  unfold fetchOp
  repeat' (first | (with_reducible assumption) | (exact Or.inl (by assumption)) | (exact Or.inr rfl)
                 | (exact Or.inr ⟨rfl, rfl, rfl, rfl⟩) | (intro)
                 | (extract_lets +onlyGivenNames y; refine keep_cut (y := y) ?_ ?_; (focus (dsimp only [y]; clear y)); rotate_left; (focus (clear_value y; revert y; intro _ _)))
                 | (extract_lets +onlyGivenNames y; refine keep_cut1 (y := y) ?_ ?_; (focus (dsimp only [y]; clear y)); rotate_left; (focus (clear_value y; revert y; intro _ _)))
                 | (extract_lets +onlyGivenNames y; refine keep_cut2 (y := y) ?_ ?_; (focus (dsimp only [y]; clear y)); rotate_left; (focus (clear_value y; revert y; intro _ _)))
                 | (extract_lets +onlyGivenNames y; clear_value y; revert y; intro _) | (with_reducible apply keep_fetchTurn)
                 | (with_reducible refine keep_ite ?_ ?_) | split | (dsimp only)
                 | (with_reducible refine keep_mk ?_ rfl rfl rfl rfl rfl rfl rfl rfl rfl ?_ ?_ ?_ ?_ ?_ ?_ ?_ ?_ ?_ ?_ ?_ ?_ ?_ ?_ ?_ ?_ ?_ ?_))

theorem keep_listReadReturn {P : Area → Prop} {z : State} {s : State} {a_n : Nat} {a_ok : Bool} {a_data : Bytes}
    (h : Keeps P z s) (krings : P .rings := by assumption) :
    Keeps P z (listReadReturn s a_n a_ok a_data) := by
  unfold listReadReturn
  repeat' (first | (with_reducible assumption) | (exact Or.inl (by assumption)) | (exact Or.inr rfl)
                 | (exact Or.inr ⟨rfl, rfl, rfl, rfl⟩) | (intro)
                 | (extract_lets +onlyGivenNames y; refine keep_cut (y := y) ?_ ?_; (focus (dsimp only [y]; clear y)); rotate_left; (focus (clear_value y; revert y; intro _ _)))
                 | (extract_lets +onlyGivenNames y; refine keep_cut1 (y := y) ?_ ?_; (focus (dsimp only [y]; clear y)); rotate_left; (focus (clear_value y; revert y; intro _ _)))
                 | (extract_lets +onlyGivenNames y; refine keep_cut2 (y := y) ?_ ?_; (focus (dsimp only [y]; clear y)); rotate_left; (focus (clear_value y; revert y; intro _ _)))
                 | (extract_lets +onlyGivenNames y; clear_value y; revert y; intro _) | (with_reducible apply keep_gotList)
                 | (with_reducible apply keep_raise) | (with_reducible apply keep_modRing) | (with_reducible apply keep_emitOut)
                 | (with_reducible refine keep_ite ?_ ?_) | split | (dsimp only)
                 | (with_reducible refine keep_mk ?_ rfl rfl rfl rfl rfl rfl rfl rfl rfl ?_ ?_ ?_ ?_ ?_ ?_ ?_ ?_ ?_ ?_ ?_ ?_ ?_ ?_ ?_ ?_ ?_ ?_))

theorem keep_execEntryConsume {P : Area → Prop} {z : State} {a_n : Nat} {s : State} (h : Keeps P z s)
    (khbm : P .hbm := by assumption) (kplats : P .plats := by assumption) (kfabric : P .fabric := by assumption)
    (kdests : P .dests := by assumption) (krings : P .rings := by assumption)
    (ksramUnits : P .sramUnits := by assumption) (khbmUnits : P .hbmUnits := by assumption)
    (kcodec : P .codec := by assumption) (kdma : P .dma := by assumption) (ktwins : P .twins := by assumption) :
    ∀ t, execEntryConsume a_n s = .next t → Keeps P z t := by
  unfold execEntryConsume; intro t e; injection e with e; subst e
  repeat' (first | (with_reducible assumption) | (intro) | (with_reducible apply keep_fetchTurn) | split | (dsimp only))

theorem keep_execNopEntry {P : Area → Prop} {z : State} {a_n : Nat} {s : State} (h : Keeps P z s)
    (khbm : P .hbm := by assumption) (kplats : P .plats := by assumption) (kfabric : P .fabric := by assumption)
    (kdests : P .dests := by assumption) (krings : P .rings := by assumption)
    (ksramUnits : P .sramUnits := by assumption) (khbmUnits : P .hbmUnits := by assumption)
    (kcodec : P .codec := by assumption) (kdma : P .dma := by assumption) (ktwins : P .twins := by assumption) :
    ∀ t, execNopEntry a_n s = .next t → Keeps P z t := by
  unfold execNopEntry; intro t e; injection e with e; subst e
  repeat' (first | (with_reducible assumption) | (intro) | (with_reducible apply keep_fetchOp) | split | (dsimp only))

theorem keep_execInvoke {P : Area → Prop} {z : State} {a_n : Nat} {s : State} (h : Keeps P z s)
    (khbm : P .hbm := by assumption) (kplats : P .plats := by assumption) (kfabric : P .fabric := by assumption)
    (kdests : P .dests := by assumption) (krings : P .rings := by assumption)
    (ksramUnits : P .sramUnits := by assumption) (khbmUnits : P .hbmUnits := by assumption)
    (kcodec : P .codec := by assumption) (kdma : P .dma := by assumption) (ktwins : P .twins := by assumption) :
    ∀ t, execInvoke a_n s = .next t → Keeps P z t := by
  unfold execInvoke; intro t e; injection e with e; subst e
  repeat' (first | (with_reducible assumption) | (intro) | (with_reducible apply keep_fetchOp) | split | (dsimp only))

theorem keep_execCancel {P : Area → Prop} {z : State} {a_n : Nat} {s : State} (h : Keeps P z s)
    (khbm : P .hbm := by assumption) (kplats : P .plats := by assumption) (kfabric : P .fabric := by assumption)
    (kdests : P .dests := by assumption) (krings : P .rings := by assumption)
    (ksramUnits : P .sramUnits := by assumption) (khbmUnits : P .hbmUnits := by assumption)
    (kcodec : P .codec := by assumption) (kdma : P .dma := by assumption) (ktwins : P .twins := by assumption) :
    ∀ t, execCancel a_n s = .next t → Keeps P z t := by
  unfold execCancel; intro t e; injection e with e; subst e
  repeat' (first | (with_reducible assumption) | (intro) | (with_reducible apply keep_fetchOp) | split | (dsimp only))

theorem keep_execPostBuffer {P : Area → Prop} {z : State} {a_n : Nat} {s : State} (h : Keeps P z s)
    (khbm : P .hbm := by assumption) (kplats : P .plats := by assumption) (kfabric : P .fabric := by assumption)
    (kdests : P .dests := by assumption) (krings : P .rings := by assumption)
    (ksramUnits : P .sramUnits := by assumption) (khbmUnits : P .hbmUnits := by assumption)
    (kcodec : P .codec := by assumption) (kdma : P .dma := by assumption) (ktwins : P .twins := by assumption) :
    ∀ t, execPostBuffer a_n s = .next t → Keeps P z t := by
  unfold execPostBuffer; intro t e; injection e with e; subst e
  repeat' (first | (with_reducible assumption) | (intro) | (with_reducible apply keep_fetchOp) | split | (dsimp only))

theorem keep_execLoadPlat {P : Area → Prop} {z : State} {a_n : Nat} {s : State} (h : Keeps P z s)
    (khbm : P .hbm := by assumption) (kplats : P .plats := by assumption) (kfabric : P .fabric := by assumption)
    (kdests : P .dests := by assumption) (krings : P .rings := by assumption)
    (ksramUnits : P .sramUnits := by assumption) (khbmUnits : P .hbmUnits := by assumption)
    (kcodec : P .codec := by assumption) (kdma : P .dma := by assumption) (ktwins : P .twins := by assumption) :
    ∀ t, execLoadPlat a_n s = .next t → Keeps P z t := by
  unfold execLoadPlat; intro t e; injection e with e; subst e
  repeat' (first | (with_reducible assumption) | (intro) | (with_reducible apply keep_fetchOp) | split | (dsimp only))

theorem keep_execUnloadPlat {P : Area → Prop} {z : State} {a_n : Nat} {s : State} (h : Keeps P z s)
    (khbm : P .hbm := by assumption) (kplats : P .plats := by assumption) (kfabric : P .fabric := by assumption)
    (kdests : P .dests := by assumption) (krings : P .rings := by assumption)
    (ksramUnits : P .sramUnits := by assumption) (khbmUnits : P .hbmUnits := by assumption)
    (kcodec : P .codec := by assumption) (kdma : P .dma := by assumption) (ktwins : P .twins := by assumption) :
    ∀ t, execUnloadPlat a_n s = .next t → Keeps P z t := by
  unfold execUnloadPlat; intro t e; injection e with e; subst e
  repeat' (first | (with_reducible assumption) | (intro) | (with_reducible apply keep_fetchOp) | split | (dsimp only))

theorem keep_execCdcCompress {P : Area → Prop} {z : State} {a_n : Nat} {s : State} (h : Keeps P z s)
    (khbm : P .hbm := by assumption) (kplats : P .plats := by assumption) (kfabric : P .fabric := by assumption)
    (kdests : P .dests := by assumption) (krings : P .rings := by assumption)
    (ksramUnits : P .sramUnits := by assumption) (khbmUnits : P .hbmUnits := by assumption)
    (kcodec : P .codec := by assumption) (kdma : P .dma := by assumption) (ktwins : P .twins := by assumption) :
    ∀ t, execCdcCompress a_n s = .next t → Keeps P z t := by
  unfold execCdcCompress; intro t e; injection e with e; subst e
  repeat' (first | (with_reducible assumption) | (intro) | (with_reducible apply keep_fetchOp) | split | (dsimp only))

theorem keep_execCdcDecompress {P : Area → Prop} {z : State} {a_n : Nat} {s : State} (h : Keeps P z s)
    (khbm : P .hbm := by assumption) (kplats : P .plats := by assumption) (kfabric : P .fabric := by assumption)
    (kdests : P .dests := by assumption) (krings : P .rings := by assumption)
    (ksramUnits : P .sramUnits := by assumption) (khbmUnits : P .hbmUnits := by assumption)
    (kcodec : P .codec := by assumption) (kdma : P .dma := by assumption) (ktwins : P .twins := by assumption) :
    ∀ t, execCdcDecompress a_n s = .next t → Keeps P z t := by
  unfold execCdcDecompress; intro t e; injection e with e; subst e
  repeat' (first | (with_reducible assumption) | (intro) | (with_reducible apply keep_fetchOp) | split | (dsimp only))

theorem keep_execDmaXfer {P : Area → Prop} {z : State} {a_n : Nat} {s : State} (h : Keeps P z s)
    (khbm : P .hbm := by assumption) (kplats : P .plats := by assumption) (kfabric : P .fabric := by assumption)
    (kdests : P .dests := by assumption) (krings : P .rings := by assumption)
    (ksramUnits : P .sramUnits := by assumption) (khbmUnits : P .hbmUnits := by assumption)
    (kcodec : P .codec := by assumption) (kdma : P .dma := by assumption) (ktwins : P .twins := by assumption) :
    ∀ t, execDmaXfer a_n s = .next t → Keeps P z t := by
  unfold execDmaXfer; intro t e; injection e with e; subst e
  repeat' (first | (with_reducible assumption) | (intro) | (with_reducible apply keep_fetchOp) | split | (dsimp only))

theorem keep_execListReadReturn {P : Area → Prop} {z : State} {a_n : Nat} {a_ok : Bool} {a_data : Bytes} {s : State}
    (h : Keeps P z s) (krings : P .rings := by assumption) :
    ∀ t, execListReadReturn a_n a_ok a_data s = .next t → Keeps P z t := by
  unfold execListReadReturn; intro t e; injection e with e; subst e
  repeat' (first | (with_reducible assumption) | (intro) | (with_reducible apply keep_listReadReturn) | split | (dsimp only))

end Sys2Proof.Machine
end

