-- ==== Sys2Proof/Laws/KeepRings.lean ====
section
/-! SUPPORT. What the operations of Machine/Rings.lean keep (Laws/Keep.lean), one lemma per operation. -/

set_option linter.tactic.unusedName false
set_option linter.all false
set_option Elab.async false

namespace Sys2Proof.Machine

theorem keep_cqMessage {P : Area → Prop} {z : State} {s : State} {a_cq : Nat} (h : Keeps P z s)
    (krings : P .rings := by assumption) :
    Keeps P z (cqMessage s a_cq) := by
  unfold cqMessage
  repeat' (first | (with_reducible assumption) | (exact Or.inl (by assumption)) | (exact Or.inr rfl)
                 | (exact Or.inr ⟨rfl, rfl, rfl, rfl⟩) | (intro)
                 | (extract_lets +onlyGivenNames y; refine keep_cut (y := y) ?_ ?_; (focus (dsimp only [y]; clear y)); rotate_left; (focus (clear_value y; revert y; intro _ _)))
                 | (extract_lets +onlyGivenNames y; refine keep_cut1 (y := y) ?_ ?_; (focus (dsimp only [y]; clear y)); rotate_left; (focus (clear_value y; revert y; intro _ _)))
                 | (extract_lets +onlyGivenNames y; refine keep_cut2 (y := y) ?_ ?_; (focus (dsimp only [y]; clear y)); rotate_left; (focus (clear_value y; revert y; intro _ _)))
                 | (extract_lets +onlyGivenNames y; clear_value y; revert y; intro _) | (with_reducible apply keep_msix)
                 | (with_reducible apply keep_modRing) | split | (dsimp only)
                 | (with_reducible refine keep_mk ?_ rfl rfl rfl rfl rfl rfl rfl rfl rfl ?_ ?_ ?_ ?_ ?_ ?_ ?_ ?_ ?_ ?_ ?_ ?_ ?_ ?_ ?_ ?_ ?_ ?_))

theorem keep_cqCoalesce {P : Area → Prop} {z : State} {s : State} {a_cq : Nat} (h : Keeps P z s)
    (krings : P .rings := by assumption) :
    Keeps P z (cqCoalesce s a_cq) := by
  unfold cqCoalesce
  repeat' (first | (with_reducible assumption) | (intro) | (with_reducible apply keep_cqMessage)
                 | (with_reducible refine keep_ite ?_ ?_) | split | (dsimp only))

theorem keep_coalesceTimeout {P : Area → Prop} {z : State} {s : State} {a_cq : Nat} (h : Keeps P z s)
    (krings : P .rings := by assumption) :
    Keeps P z (coalesceTimeout s a_cq) := by
  unfold coalesceTimeout
  repeat' (first | (with_reducible assumption) | (intro) | (with_reducible apply keep_cqMessage)
                 | (with_reducible refine keep_ite ?_ ?_) | split | (dsimp only))

theorem keep_execCoalesceTimeout {P : Area → Prop} {z : State} {a_cq : Nat} {s : State} (h : Keeps P z s)
    (krings : P .rings := by assumption) :
    ∀ t, execCoalesceTimeout a_cq s = .next t → Keeps P z t := by
  unfold execCoalesceTimeout; intro t e; injection e with e; subst e
  repeat' (first | (with_reducible assumption) | (intro) | (with_reducible apply keep_coalesceTimeout) | split | (dsimp only))

theorem keep_msixUnmask {P : Area → Prop} {z : State} {s : State} {a_fn : Nat} {a_vec : Nat} (h : Keeps P z s)
    (krings : P .rings := by assumption) :
    Keeps P z (msixUnmask s a_fn a_vec) := by
  unfold msixUnmask
  repeat' (first | (with_reducible assumption) | (exact Or.inl (by assumption)) | (exact Or.inr rfl)
                 | (exact Or.inr ⟨rfl, rfl, rfl, rfl⟩) | (intro)
                 | (extract_lets +onlyGivenNames y; refine keep_cut (y := y) ?_ ?_; (focus (dsimp only [y]; clear y)); rotate_left; (focus (clear_value y; revert y; intro _ _)))
                 | (extract_lets +onlyGivenNames y; refine keep_cut1 (y := y) ?_ ?_; (focus (dsimp only [y]; clear y)); rotate_left; (focus (clear_value y; revert y; intro _ _)))
                 | (extract_lets +onlyGivenNames y; refine keep_cut2 (y := y) ?_ ?_; (focus (dsimp only [y]; clear y)); rotate_left; (focus (clear_value y; revert y; intro _ _)))
                 | (extract_lets +onlyGivenNames y; clear_value y; revert y; intro _) | (with_reducible apply keep_msixSend)
                 | (with_reducible refine keep_ite ?_ ?_) | split | (dsimp only)
                 | (with_reducible refine keep_mk ?_ rfl rfl rfl rfl rfl rfl rfl rfl rfl ?_ ?_ ?_ ?_ ?_ ?_ ?_ ?_ ?_ ?_ ?_ ?_ ?_ ?_ ?_ ?_ ?_ ?_))

theorem keep_execMsixUnmask {P : Area → Prop} {z : State} {a_fn : Nat} {a_vec : Nat} {s : State} (h : Keeps P z s)
    (krings : P .rings := by assumption) :
    ∀ t, execMsixUnmask a_fn a_vec s = .next t → Keeps P z t := by
  unfold execMsixUnmask; intro t e; injection e with e; subst e
  repeat' (first | (with_reducible assumption) | (intro) | (with_reducible apply keep_msixUnmask) | split | (dsimp only))

theorem keep_cqWrite {P : Area → Prop} {z : State} {s : State} {a_cq : Nat} {a_b : Bytes} (h : Keeps P z s)
    (kdests : P .dests := by assumption) (krings : P .rings := by assumption) :
    Keeps P z (cqWrite s a_cq a_b) := by
  unfold cqWrite
  repeat' (first | (with_reducible assumption) | (exact Or.inl (by assumption)) | (exact Or.inr rfl)
                 | (exact Or.inr ⟨rfl, rfl, rfl, rfl⟩) | (intro)
                 | (extract_lets +onlyGivenNames y; refine keep_cut (y := y) ?_ ?_; (focus (dsimp only [y]; clear y)); rotate_left; (focus (clear_value y; revert y; intro _ _)))
                 | (extract_lets +onlyGivenNames y; refine keep_cut1 (y := y) ?_ ?_; (focus (dsimp only [y]; clear y)); rotate_left; (focus (clear_value y; revert y; intro _ _)))
                 | (extract_lets +onlyGivenNames y; refine keep_cut2 (y := y) ?_ ?_; (focus (dsimp only [y]; clear y)); rotate_left; (focus (clear_value y; revert y; intro _ _)))
                 | (extract_lets +onlyGivenNames y; clear_value y; revert y; intro _) | (with_reducible apply keep_hostWrite)
                 | (with_reducible apply keep_setF) | (with_reducible apply keep_noteSusp) | (with_reducible apply keep_addF)
                 | (with_reducible apply keep_cqCoalesce) | (with_reducible apply keep_modRing)
                 | (with_reducible refine keep_ite ?_ ?_) | split | (dsimp only)
                 | (with_reducible refine keep_mk ?_ rfl rfl rfl rfl rfl rfl rfl rfl rfl ?_ ?_ ?_ ?_ ?_ ?_ ?_ ?_ ?_ ?_ ?_ ?_ ?_ ?_ ?_ ?_ ?_ ?_))

theorem keep_ovfPut {P : Area → Prop} {z : State} {s : State} {a_c : Compl} (h : Keeps P z s)
    (khbm : P .hbm := by assumption) (kdests : P .dests := by assumption) (krings : P .rings := by assumption)
    (khbmUnits : P .hbmUnits := by assumption) :
    Keeps P z (ovfPut s a_c) := by
  unfold ovfPut
  repeat' (first | (with_reducible assumption) | (exact Or.inl (by assumption)) | (exact Or.inr rfl)
                 | (exact Or.inr ⟨rfl, rfl, rfl, rfl⟩) | (intro)
                 | (extract_lets +onlyGivenNames y; refine keep_cut (y := y) ?_ ?_; (focus (dsimp only [y]; clear y)); rotate_left; (focus (clear_value y; revert y; intro _ _)))
                 | (extract_lets +onlyGivenNames y; refine keep_cut1 (y := y) ?_ ?_; (focus (dsimp only [y]; clear y)); rotate_left; (focus (clear_value y; revert y; intro _ _)))
                 | (extract_lets +onlyGivenNames y; refine keep_cut2 (y := y) ?_ ?_; (focus (dsimp only [y]; clear y)); rotate_left; (focus (clear_value y; revert y; intro _ _)))
                 | (extract_lets +onlyGivenNames y; clear_value y; revert y; intro _) | (with_reducible apply keep_noteSusp)
                 | (with_reducible apply keep_hbmWrite) | (with_reducible apply keep_addF) | (with_reducible apply keep_modRing)
                 | (with_reducible apply keep_maxF) | (with_reducible apply keep_setF) | (with_reducible apply keep_raise)
                 | (with_reducible refine keep_ite ?_ ?_) | split | (dsimp only)
                 | (with_reducible refine keep_mk ?_ rfl rfl rfl rfl rfl rfl rfl rfl rfl ?_ ?_ ?_ ?_ ?_ ?_ ?_ ?_ ?_ ?_ ?_ ?_ ?_ ?_ ?_ ?_ ?_ ?_))

theorem keep_paid {P : Area → Prop} {z : State} {s : State} {a_c : Compl} (h : Keeps P z s)
    (krings : P .rings := by assumption) (khbmUnits : P .hbmUnits := by assumption) :
    Keeps P z (paid s a_c) := by
  unfold paid
  repeat' (first | (with_reducible assumption) | (exact Or.inl (by assumption)) | (exact Or.inr rfl)
                 | (exact Or.inr ⟨rfl, rfl, rfl, rfl⟩) | (intro)
                 | (extract_lets +onlyGivenNames y; refine keep_cut (y := y) ?_ ?_; (focus (dsimp only [y]; clear y)); rotate_left; (focus (clear_value y; revert y; intro _ _)))
                 | (extract_lets +onlyGivenNames y; refine keep_cut1 (y := y) ?_ ?_; (focus (dsimp only [y]; clear y)); rotate_left; (focus (clear_value y; revert y; intro _ _)))
                 | (extract_lets +onlyGivenNames y; refine keep_cut2 (y := y) ?_ ?_; (focus (dsimp only [y]; clear y)); rotate_left; (focus (clear_value y; revert y; intro _ _)))
                 | (extract_lets +onlyGivenNames y; clear_value y; revert y; intro _) | (with_reducible apply keep_sqStopped)
                 | (with_reducible apply keep_modRing) | (with_reducible refine keep_ite ?_ ?_) | split | (dsimp only)
                 | (with_reducible refine keep_mk ?_ rfl rfl rfl rfl rfl rfl rfl rfl rfl ?_ ?_ ?_ ?_ ?_ ?_ ?_ ?_ ?_ ?_ ?_ ?_ ?_ ?_ ?_ ?_ ?_ ?_))

theorem keep_ovfRead {P : Area → Prop} {z : State} {s : State} {a_cq : Nat} {a_x : Nat × Nat} (h : Keeps P z s)
    (khbm : P .hbm := by assumption) (khbmUnits : P .hbmUnits := by assumption) :
    Keeps P z (ovfRead s a_cq a_x).1 := by
  unfold ovfRead
  repeat' (first | (with_reducible assumption) | (intro) | (with_reducible apply keep_hbmRead) | split | (dsimp only))

theorem keep_judgeCompl {P : Area → Prop} {z : State} {s : State} {a_c : Compl} (h : Keeps P z s)
    (kplats : P .plats := by assumption) (kfabric : P .fabric := by assumption) (kdests : P .dests := by assumption)
    (krings : P .rings := by assumption) (ktwins : P .twins := by assumption) (klog : P .log := by assumption) :
    Keeps P z (judgeCompl s a_c).1 := by
  unfold judgeCompl
  repeat' (first | (with_reducible assumption) | (exact Or.inl (by assumption)) | (exact Or.inr rfl)
                 | (exact Or.inr ⟨rfl, rfl, rfl, rfl⟩) | (intro)
                 | (extract_lets +onlyGivenNames y; refine keep_cut (y := y) ?_ ?_; (focus (dsimp only [y]; clear y)); rotate_left; (focus (clear_value y; revert y; intro _ _)))
                 | (extract_lets +onlyGivenNames y; refine keep_cut1 (y := y) ?_ ?_; (focus (dsimp only [y]; clear y)); rotate_left; (focus (clear_value y; revert y; intro _ _)))
                 | (extract_lets +onlyGivenNames y; refine keep_cut2 (y := y) ?_ ?_; (focus (dsimp only [y]; clear y)); rotate_left; (focus (clear_value y; revert y; intro _ _)))
                 | (extract_lets +onlyGivenNames y; clear_value y; revert y; intro _) | (with_reducible apply keep_emission)
                 | (with_reducible refine keep_ite ?_ ?_) | split | (dsimp only)
                 | (with_reducible refine keep_mk ?_ rfl rfl rfl rfl rfl rfl rfl rfl rfl ?_ ?_ ?_ ?_ ?_ ?_ ?_ ?_ ?_ ?_ ?_ ?_ ?_ ?_ ?_ ?_ ?_ ?_))

theorem keep_ovfLate {P : Area → Prop} {z : State} {s : State} {a_c : Compl} {a_d : Compl} (h : Keeps P z s)
    (krings : P .rings := by assumption) :
    Keeps P z (ovfLate s a_c a_d) := by
  unfold ovfLate
  repeat' (first | (with_reducible assumption) | (exact Or.inl (by assumption)) | (exact Or.inr rfl)
                 | (exact Or.inr ⟨rfl, rfl, rfl, rfl⟩) | (intro)
                 | (extract_lets +onlyGivenNames y; refine keep_cut (y := y) ?_ ?_; (focus (dsimp only [y]; clear y)); rotate_left; (focus (clear_value y; revert y; intro _ _)))
                 | (extract_lets +onlyGivenNames y; refine keep_cut1 (y := y) ?_ ?_; (focus (dsimp only [y]; clear y)); rotate_left; (focus (clear_value y; revert y; intro _ _)))
                 | (extract_lets +onlyGivenNames y; refine keep_cut2 (y := y) ?_ ?_; (focus (dsimp only [y]; clear y)); rotate_left; (focus (clear_value y; revert y; intro _ _)))
                 | (extract_lets +onlyGivenNames y; clear_value y; revert y; intro _) | (with_reducible apply keep_modRing)
                 | (with_reducible refine keep_ite ?_ ?_) | split | (dsimp only)
                 | (with_reducible refine keep_mk ?_ rfl rfl rfl rfl rfl rfl rfl rfl rfl ?_ ?_ ?_ ?_ ?_ ?_ ?_ ?_ ?_ ?_ ?_ ?_ ?_ ?_ ?_ ?_ ?_ ?_))

theorem keep_ovfTaken {P : Area → Prop} {z : State} {s : State} {a_cq : Nat} {a_c : Compl} {a_rest : List Compl}
    {a_r : Bytes × Nat} (h : Keeps P z s) (kplats : P .plats := by assumption) (kfabric : P .fabric := by assumption)
    (kdests : P .dests := by assumption) (krings : P .rings := by assumption) (khbmUnits : P .hbmUnits := by assumption)
    (ktwins : P .twins := by assumption) (klog : P .log := by assumption) :
    Keeps P z (ovfTaken s a_cq a_c a_rest a_r) := by
  unfold ovfTaken
  repeat' (first | (with_reducible assumption) | (exact Or.inl (by assumption)) | (exact Or.inr rfl)
                 | (exact Or.inr ⟨rfl, rfl, rfl, rfl⟩) | (intro)
                 | (extract_lets +onlyGivenNames y; refine keep_cut (y := y) ?_ ?_; (focus (dsimp only [y]; clear y)); rotate_left; (focus (clear_value y; revert y; intro _ _)))
                 | (extract_lets +onlyGivenNames y; refine keep_cut1 (y := y) ?_ ?_; (focus (dsimp only [y]; clear y)); rotate_left; (focus (clear_value y; revert y; intro _ _)))
                 | (extract_lets +onlyGivenNames y; refine keep_cut2 (y := y) ?_ ?_; (focus (dsimp only [y]; clear y)); rotate_left; (focus (clear_value y; revert y; intro _ _)))
                 | (extract_lets +onlyGivenNames y; clear_value y; revert y; intro _) | (with_reducible apply keep_modRing)
                 | (with_reducible apply keep_setF) | (with_reducible apply keep_judgeCompl) | (with_reducible apply keep_paid)
                 | (with_reducible apply keep_cqWrite) | (with_reducible apply keep_ovfLate) | (with_reducible apply keep_raise)
                 | (with_reducible apply keep_satF) | (with_reducible apply keep_logD) | (with_reducible refine keep_ite ?_ ?_)
                 | split | (dsimp only)
                 | (with_reducible refine keep_mk ?_ rfl rfl rfl rfl rfl rfl rfl rfl rfl ?_ ?_ ?_ ?_ ?_ ?_ ?_ ?_ ?_ ?_ ?_ ?_ ?_ ?_ ?_ ?_ ?_ ?_))

theorem keep_overflowDrain {P : Area → Prop} {z : State} {s : State} {a_cq : Nat} (h : Keeps P z s)
    (khbm : P .hbm := by assumption) (kplats : P .plats := by assumption) (kfabric : P .fabric := by assumption)
    (kdests : P .dests := by assumption) (krings : P .rings := by assumption) (khbmUnits : P .hbmUnits := by assumption)
    (ktwins : P .twins := by assumption) (klog : P .log := by assumption) :
    Keeps P z (overflowDrain s a_cq) := by
  unfold overflowDrain
  repeat' (first | (with_reducible assumption) | (exact Or.inl (by assumption)) | (exact Or.inr rfl)
                 | (exact Or.inr ⟨rfl, rfl, rfl, rfl⟩) | (intro)
                 | (extract_lets +onlyGivenNames y; refine keep_cut (y := y) ?_ ?_; (focus (dsimp only [y]; clear y)); rotate_left; (focus (clear_value y; revert y; intro _ _)))
                 | (extract_lets +onlyGivenNames y; refine keep_cut1 (y := y) ?_ ?_; (focus (dsimp only [y]; clear y)); rotate_left; (focus (clear_value y; revert y; intro _ _)))
                 | (extract_lets +onlyGivenNames y; refine keep_cut2 (y := y) ?_ ?_; (focus (dsimp only [y]; clear y)); rotate_left; (focus (clear_value y; revert y; intro _ _)))
                 | (extract_lets +onlyGivenNames y; clear_value y; revert y; intro _) | (with_reducible apply keep_hbmAsk)
                 | (with_reducible apply keep_ovfTaken) | (with_reducible apply keep_ovfRead)
                 | (with_reducible refine keep_ite ?_ ?_) | split | (dsimp only)
                 | (with_reducible refine keep_mk ?_ rfl rfl rfl rfl rfl rfl rfl rfl rfl ?_ ?_ ?_ ?_ ?_ ?_ ?_ ?_ ?_ ?_ ?_ ?_ ?_ ?_ ?_ ?_ ?_ ?_))

theorem keep_execOverflowDrain {P : Area → Prop} {z : State} {a_cq : Nat} {s : State} (h : Keeps P z s)
    (khbm : P .hbm := by assumption) (kplats : P .plats := by assumption) (kfabric : P .fabric := by assumption)
    (kdests : P .dests := by assumption) (krings : P .rings := by assumption) (khbmUnits : P .hbmUnits := by assumption)
    (ktwins : P .twins := by assumption) (klog : P .log := by assumption) :
    ∀ t, execOverflowDrain a_cq s = .next t → Keeps P z t := by
  unfold execOverflowDrain; intro t e; injection e with e; subst e
  repeat' (first | (with_reducible assumption) | (intro) | (with_reducible apply keep_overflowDrain) | split | (dsimp only))

theorem keep_closeInv {P : Area → Prop} {z : State} {s : State} {a_port : Nat} {a_c : Compl} {a_n : Nat}
    (h : Keeps P z s) (kfabric : P .fabric := by assumption) (khbmUnits : P .hbmUnits := by assumption)
    (ktwins : P .twins := by assumption) :
    Keeps P z (closeInv s a_port a_c a_n).1 := by
  unfold closeInv
  repeat' (first | (with_reducible assumption) | (exact Or.inl (by assumption)) | (exact Or.inr rfl)
                 | (exact Or.inr ⟨rfl, rfl, rfl, rfl⟩) | (intro)
                 | (extract_lets +onlyGivenNames y; refine keep_cut (y := y) ?_ ?_; (focus (dsimp only [y]; clear y)); rotate_left; (focus (clear_value y; revert y; intro _ _)))
                 | (extract_lets +onlyGivenNames y; refine keep_cut1 (y := y) ?_ ?_; (focus (dsimp only [y]; clear y)); rotate_left; (focus (clear_value y; revert y; intro _ _)))
                 | (extract_lets +onlyGivenNames y; refine keep_cut2 (y := y) ?_ ?_; (focus (dsimp only [y]; clear y)); rotate_left; (focus (clear_value y; revert y; intro _ _)))
                 | (extract_lets +onlyGivenNames y; clear_value y; revert y; intro _) | (with_reducible apply keep_dropReads)
                 | (with_reducible apply keep_modFab) | (with_reducible apply keep_satF) | (with_reducible apply keep_showOpen)
                 | (with_reducible refine keep_ite ?_ ?_) | split | (dsimp only)
                 | (with_reducible refine keep_mk ?_ rfl rfl rfl rfl rfl rfl rfl rfl rfl ?_ ?_ ?_ ?_ ?_ ?_ ?_ ?_ ?_ ?_ ?_ ?_ ?_ ?_ ?_ ?_ ?_ ?_))

theorem keep_leaveCw {P : Area → Prop} {z : State} {s : State} {a_port : Nat} {a_c : Compl} (h : Keeps P z s)
    (kfabric : P .fabric := by assumption) (khbmUnits : P .hbmUnits := by assumption) (ktwins : P .twins := by assumption) :
    Keeps P z (leaveCw s a_port a_c).1 := by
  unfold leaveCw
  repeat' (first | (with_reducible assumption) | (exact Or.inl (by assumption)) | (exact Or.inr rfl)
                 | (exact Or.inr ⟨rfl, rfl, rfl, rfl⟩) | (intro)
                 | (extract_lets +onlyGivenNames y; refine keep_cut (y := y) ?_ ?_; (focus (dsimp only [y]; clear y)); rotate_left; (focus (clear_value y; revert y; intro _ _)))
                 | (extract_lets +onlyGivenNames y; refine keep_cut1 (y := y) ?_ ?_; (focus (dsimp only [y]; clear y)); rotate_left; (focus (clear_value y; revert y; intro _ _)))
                 | (extract_lets +onlyGivenNames y; refine keep_cut2 (y := y) ?_ ?_; (focus (dsimp only [y]; clear y)); rotate_left; (focus (clear_value y; revert y; intro _ _)))
                 | (extract_lets +onlyGivenNames y; clear_value y; revert y; intro _) | (with_reducible apply keep_closeInv)
                 | (with_reducible apply keep_modInv) | (with_reducible refine keep_ite ?_ ?_) | split | (dsimp only)
                 | (with_reducible refine keep_mk ?_ rfl rfl rfl rfl rfl rfl rfl rfl rfl ?_ ?_ ?_ ?_ ?_ ?_ ?_ ?_ ?_ ?_ ?_ ?_ ?_ ?_ ?_ ?_ ?_ ?_))

theorem keep_discardCompl {P : Area → Prop} {z : State} {s : State} {a_port : Nat} {a_c : Compl} (h : Keeps P z s)
    (kfabric : P .fabric := by assumption) (krings : P .rings := by assumption)
    (khbmUnits : P .hbmUnits := by assumption) (ktwins : P .twins := by assumption) :
    Keeps P z (discardCompl s a_port a_c) := by
  unfold discardCompl
  repeat' (first | (with_reducible assumption) | (intro) | (with_reducible apply keep_paid) | (with_reducible apply keep_satF)
                 | (with_reducible apply keep_leaveCw) | split | (dsimp only))

theorem keep_placeCompl {P : Area → Prop} {z : State} {s : State} {a_port : Nat} {a_c : Compl} (h : Keeps P z s)
    (khbm : P .hbm := by assumption) (kplats : P .plats := by assumption) (kfabric : P .fabric := by assumption)
    (kdests : P .dests := by assumption) (krings : P .rings := by assumption) (khbmUnits : P .hbmUnits := by assumption)
    (ktwins : P .twins := by assumption) (klog : P .log := by assumption) :
    Keeps P z (placeCompl s a_port a_c) := by
  unfold placeCompl
  repeat' (first | (with_reducible assumption) | (intro)
                 | (extract_lets +onlyGivenNames y; refine keep_cut (y := y) ?_ ?_; (focus (dsimp only [y]; clear y)); rotate_left; (focus (clear_value y; revert y; intro _ _)))
                 | (extract_lets +onlyGivenNames y; refine keep_cut1 (y := y) ?_ ?_; (focus (dsimp only [y]; clear y)); rotate_left; (focus (clear_value y; revert y; intro _ _)))
                 | (extract_lets +onlyGivenNames y; refine keep_cut2 (y := y) ?_ ?_; (focus (dsimp only [y]; clear y)); rotate_left; (focus (clear_value y; revert y; intro _ _)))
                 | (extract_lets +onlyGivenNames y; clear_value y; revert y; intro _) | (with_reducible apply keep_leaveCw)
                 | (with_reducible apply keep_ovfPut) | (with_reducible apply keep_judgeCompl)
                 | (with_reducible apply keep_paid) | (with_reducible apply keep_cqWrite)
                 | (with_reducible refine keep_ite ?_ ?_) | split | (dsimp only))

theorem keep_completionWrite {P : Area → Prop} {z : State} {s : State} {a_port : Nat} (h : Keeps P z s)
    (khbm : P .hbm := by assumption) (kplats : P .plats := by assumption) (kfabric : P .fabric := by assumption)
    (kdests : P .dests := by assumption) (krings : P .rings := by assumption) (khbmUnits : P .hbmUnits := by assumption)
    (ktwins : P .twins := by assumption) (klog : P .log := by assumption) :
    Keeps P z (completionWrite s a_port) := by
  unfold completionWrite
  repeat' (first | (with_reducible assumption) | (exact Or.inl (by assumption)) | (exact Or.inr rfl)
                 | (exact Or.inr ⟨rfl, rfl, rfl, rfl⟩) | (intro)
                 | (extract_lets +onlyGivenNames y; refine keep_cut (y := y) ?_ ?_; (focus (dsimp only [y]; clear y)); rotate_left; (focus (clear_value y; revert y; intro _ _)))
                 | (extract_lets +onlyGivenNames y; refine keep_cut1 (y := y) ?_ ?_; (focus (dsimp only [y]; clear y)); rotate_left; (focus (clear_value y; revert y; intro _ _)))
                 | (extract_lets +onlyGivenNames y; refine keep_cut2 (y := y) ?_ ?_; (focus (dsimp only [y]; clear y)); rotate_left; (focus (clear_value y; revert y; intro _ _)))
                 | (extract_lets +onlyGivenNames y; clear_value y; revert y; intro _) | (with_reducible apply keep_discardCompl)
                 | (with_reducible apply keep_twinTake) | (with_reducible apply keep_placeCompl)
                 | (with_reducible refine keep_ite ?_ ?_) | split | (dsimp only)
                 | (with_reducible refine keep_mk ?_ rfl rfl rfl rfl rfl rfl rfl rfl rfl ?_ ?_ ?_ ?_ ?_ ?_ ?_ ?_ ?_ ?_ ?_ ?_ ?_ ?_ ?_ ?_ ?_ ?_))

theorem keep_execCompletionWrite {P : Area → Prop} {z : State} {a_port : Nat} {s : State} (h : Keeps P z s)
    (khbm : P .hbm := by assumption) (kplats : P .plats := by assumption) (kfabric : P .fabric := by assumption)
    (kdests : P .dests := by assumption) (krings : P .rings := by assumption) (khbmUnits : P .hbmUnits := by assumption)
    (ktwins : P .twins := by assumption) (klog : P .log := by assumption) :
    ∀ t, execCompletionWrite a_port s = .next t → Keeps P z t := by
  unfold execCompletionWrite; intro t e; injection e with e; subst e
  repeat' (first | (with_reducible assumption) | (intro) | (with_reducible apply keep_completionWrite) | split | (dsimp only))

theorem keep_postBufferTimeout {P : Area → Prop} {z : State} {s : State} {a_n : Nat} (h : Keeps P z s)
    (kdests : P .dests := by assumption) (krings : P .rings := by assumption) :
    Keeps P z (postBufferTimeout s a_n) := by
  unfold postBufferTimeout
  repeat' (first | (with_reducible assumption) | (exact Or.inl (by assumption)) | (exact Or.inr rfl)
                 | (exact Or.inr ⟨rfl, rfl, rfl, rfl⟩) | (intro)
                 | (extract_lets +onlyGivenNames y; refine keep_cut (y := y) ?_ ?_; (focus (dsimp only [y]; clear y)); rotate_left; (focus (clear_value y; revert y; intro _ _)))
                 | (extract_lets +onlyGivenNames y; refine keep_cut1 (y := y) ?_ ?_; (focus (dsimp only [y]; clear y)); rotate_left; (focus (clear_value y; revert y; intro _ _)))
                 | (extract_lets +onlyGivenNames y; refine keep_cut2 (y := y) ?_ ?_; (focus (dsimp only [y]; clear y)); rotate_left; (focus (clear_value y; revert y; intro _ _)))
                 | (extract_lets +onlyGivenNames y; clear_value y; revert y; intro _) | (with_reducible apply keep_bufferDone)
                 | (with_reducible refine keep_ite ?_ ?_) | split | (dsimp only)
                 | (with_reducible refine keep_mk ?_ rfl rfl rfl rfl rfl rfl rfl rfl rfl ?_ ?_ ?_ ?_ ?_ ?_ ?_ ?_ ?_ ?_ ?_ ?_ ?_ ?_ ?_ ?_ ?_ ?_))

theorem keep_execPostBufferTimeout {P : Area → Prop} {z : State} {a_n : Nat} {s : State} (h : Keeps P z s)
    (kdests : P .dests := by assumption) (krings : P .rings := by assumption) :
    ∀ t, execPostBufferTimeout a_n s = .next t → Keeps P z t := by
  unfold execPostBufferTimeout; intro t e; injection e with e; subst e
  repeat' (first | (with_reducible assumption) | (intro) | (with_reducible apply keep_postBufferTimeout) | split | (dsimp only))

theorem keep_releasePins {P : Area → Prop} {z : State} {s : State} (h : Keeps P z s) (kdests : P .dests := by assumption) :
    Keeps P z (releasePins s) := by
  unfold releasePins
  repeat' (first | (with_reducible assumption) | (intro) | (with_reducible apply keep_setPin)
                 | (with_reducible apply keep_foldl) | (with_reducible apply keep_foldl1) | split | (dsimp only))

theorem keep_haltPackage {P : Area → Prop} {z : State} {s : State} {a_cause : State → State} (h : Keeps P z s)
    (hcause : ∀ x0, Keeps P z x0 → Keeps P z (a_cause x0)) (kdests : P .dests := by assumption)
    (krings : P .rings := by assumption) :
    Keeps P z (haltPackage s a_cause) := by
  unfold haltPackage
  repeat' (first | (with_reducible assumption) | (exact Or.inl (by assumption)) | (exact Or.inr rfl)
                 | (exact Or.inr ⟨rfl, rfl, rfl, rfl⟩) | (intro)
                 | (extract_lets +onlyGivenNames y; refine keep_cut (y := y) ?_ ?_; (focus (dsimp only [y]; clear y)); rotate_left; (focus (clear_value y; revert y; intro _ _)))
                 | (extract_lets +onlyGivenNames y; refine keep_cut1 (y := y) ?_ ?_; (focus (dsimp only [y]; clear y)); rotate_left; (focus (clear_value y; revert y; intro _ _)))
                 | (extract_lets +onlyGivenNames y; refine keep_cut2 (y := y) ?_ ?_; (focus (dsimp only [y]; clear y)); rotate_left; (focus (clear_value y; revert y; intro _ _)))
                 | (extract_lets +onlyGivenNames y; clear_value y; revert y; intro _) | (with_reducible apply hcause)
                 | (with_reducible apply keep_setF) | (with_reducible apply keep_releasePins) | (with_reducible apply keep_msix)
                 | (with_reducible refine keep_ite ?_ ?_) | (with_reducible apply keep_foldl)
                 | (with_reducible apply keep_foldl1) | split | (dsimp only)
                 | (with_reducible refine keep_mk ?_ rfl rfl rfl rfl rfl rfl rfl rfl rfl ?_ ?_ ?_ ?_ ?_ ?_ ?_ ?_ ?_ ?_ ?_ ?_ ?_ ?_ ?_ ?_ ?_ ?_))

theorem keep_ringCause {P : Area → Prop} {z : State} {a_n : Nat} {a_cq : Bool} {a_field : Nat} {s : State} (h : Keeps P z s) :
    Keeps P z (ringCause a_n a_cq a_field s) := by
  unfold ringCause
  repeat' (first | (with_reducible assumption) | (intro)
                 | (extract_lets +onlyGivenNames y; refine keep_cut (y := y) ?_ ?_; (focus (dsimp only [y]; clear y)); rotate_left; (focus (clear_value y; revert y; intro _ _)))
                 | (extract_lets +onlyGivenNames y; refine keep_cut1 (y := y) ?_ ?_; (focus (dsimp only [y]; clear y)); rotate_left; (focus (clear_value y; revert y; intro _ _)))
                 | (extract_lets +onlyGivenNames y; refine keep_cut2 (y := y) ?_ ?_; (focus (dsimp only [y]; clear y)); rotate_left; (focus (clear_value y; revert y; intro _ _)))
                 | (extract_lets +onlyGivenNames y; clear_value y; revert y; intro _) | (with_reducible apply keep_setF)
                 | (with_reducible refine keep_ite ?_ ?_) | split | (dsimp only))

theorem keep_ringHalt {P : Area → Prop} {z : State} {s : State} {a_n : Nat} {a_cq : Bool} {a_field : Nat}
    (h : Keeps P z s) (kdests : P .dests := by assumption) (krings : P .rings := by assumption)
    (ktwins : P .twins := by assumption) (klog : P .log := by assumption) :
    Keeps P z (ringHalt s a_n a_cq a_field) := by
  unfold ringHalt
  repeat' (first | (with_reducible assumption) | (intro) | (with_reducible apply keep_logErr)
                 | (with_reducible apply keep_haltPackage) | (with_reducible apply keep_ringCause) | split | (dsimp only))

theorem keep_execContextParityError {P : Area → Prop} {z : State} {a_n : Nat} {a_cq : Bool} {s : State} (h : Keeps P z s)
    (kdests : P .dests := by assumption) (krings : P .rings := by assumption) (ktwins : P .twins := by assumption)
    (klog : P .log := by assumption) :
    ∀ t, execContextParityError a_n a_cq s = .next t → Keeps P z t := by
  unfold execContextParityError; intro t e; injection e with e; subst e
  repeat' (first | (with_reducible assumption) | (intro) | (with_reducible apply keep_ringHalt) | split | (dsimp only))

theorem keep_sqEnable {P : Area → Prop} {z : State} {s : State} {a_fn : Nat} {a_n : Nat} (h : Keeps P z s)
    (kdests : P .dests := by assumption) (krings : P .rings := by assumption) (ktwins : P .twins := by assumption)
    (klog : P .log := by assumption) :
    Keeps P z (sqEnable s a_fn a_n) := by
  unfold sqEnable
  repeat' (first | (with_reducible assumption) | (exact Or.inl (by assumption)) | (exact Or.inr rfl)
                 | (exact Or.inr ⟨rfl, rfl, rfl, rfl⟩) | (intro)
                 | (extract_lets +onlyGivenNames y; refine keep_cut (y := y) ?_ ?_; (focus (dsimp only [y]; clear y)); rotate_left; (focus (clear_value y; revert y; intro _ _)))
                 | (extract_lets +onlyGivenNames y; refine keep_cut1 (y := y) ?_ ?_; (focus (dsimp only [y]; clear y)); rotate_left; (focus (clear_value y; revert y; intro _ _)))
                 | (extract_lets +onlyGivenNames y; refine keep_cut2 (y := y) ?_ ?_; (focus (dsimp only [y]; clear y)); rotate_left; (focus (clear_value y; revert y; intro _ _)))
                 | (extract_lets +onlyGivenNames y; clear_value y; revert y; intro _) | (with_reducible apply keep_logIgn)
                 | (with_reducible apply keep_ringHalt) | (with_reducible apply keep_setF) | (with_reducible apply keep_modRing)
                 | (with_reducible refine keep_ite ?_ ?_) | split | (dsimp only)
                 | (with_reducible refine keep_mk ?_ rfl rfl rfl rfl rfl rfl rfl rfl rfl ?_ ?_ ?_ ?_ ?_ ?_ ?_ ?_ ?_ ?_ ?_ ?_ ?_ ?_ ?_ ?_ ?_ ?_))

theorem keep_execSqEnable {P : Area → Prop} {z : State} {a_fn : Nat} {a_n : Nat} {s : State} (h : Keeps P z s)
    (kdests : P .dests := by assumption) (krings : P .rings := by assumption) (ktwins : P .twins := by assumption)
    (klog : P .log := by assumption) :
    ∀ t, execSqEnable a_fn a_n s = .next t → Keeps P z t := by
  unfold execSqEnable; intro t e; injection e with e; subst e
  repeat' (first | (with_reducible assumption) | (intro) | (with_reducible apply keep_sqEnable) | split | (dsimp only))

theorem keep_cqEnable {P : Area → Prop} {z : State} {s : State} {a_fn : Nat} {a_n : Nat} (h : Keeps P z s)
    (kdests : P .dests := by assumption) (krings : P .rings := by assumption) (ktwins : P .twins := by assumption)
    (klog : P .log := by assumption) :
    Keeps P z (cqEnable s a_fn a_n) := by
  unfold cqEnable
  repeat' (first | (with_reducible assumption) | (exact Or.inl (by assumption)) | (exact Or.inr rfl)
                 | (exact Or.inr ⟨rfl, rfl, rfl, rfl⟩) | (intro)
                 | (extract_lets +onlyGivenNames y; refine keep_cut (y := y) ?_ ?_; (focus (dsimp only [y]; clear y)); rotate_left; (focus (clear_value y; revert y; intro _ _)))
                 | (extract_lets +onlyGivenNames y; refine keep_cut1 (y := y) ?_ ?_; (focus (dsimp only [y]; clear y)); rotate_left; (focus (clear_value y; revert y; intro _ _)))
                 | (extract_lets +onlyGivenNames y; refine keep_cut2 (y := y) ?_ ?_; (focus (dsimp only [y]; clear y)); rotate_left; (focus (clear_value y; revert y; intro _ _)))
                 | (extract_lets +onlyGivenNames y; clear_value y; revert y; intro _) | (with_reducible apply keep_logIgn)
                 | (with_reducible apply keep_ringHalt) | (with_reducible apply keep_setF) | (with_reducible apply keep_modRing)
                 | (with_reducible refine keep_ite ?_ ?_) | split | (dsimp only)
                 | (with_reducible refine keep_mk ?_ rfl rfl rfl rfl rfl rfl rfl rfl rfl ?_ ?_ ?_ ?_ ?_ ?_ ?_ ?_ ?_ ?_ ?_ ?_ ?_ ?_ ?_ ?_ ?_ ?_))

theorem keep_execCqEnable {P : Area → Prop} {z : State} {a_fn : Nat} {a_n : Nat} {s : State} (h : Keeps P z s)
    (kdests : P .dests := by assumption) (krings : P .rings := by assumption) (ktwins : P .twins := by assumption)
    (klog : P .log := by assumption) :
    ∀ t, execCqEnable a_fn a_n s = .next t → Keeps P z t := by
  unfold execCqEnable; intro t e; injection e with e; subst e
  repeat' (first | (with_reducible assumption) | (intro) | (with_reducible apply keep_cqEnable) | split | (dsimp only))

theorem keep_abortPosted {P : Area → Prop} {z : State} {s : State} {a_n : Nat} {a_reason : Nat} (h : Keeps P z s)
    (kdests : P .dests := by assumption) (krings : P .rings := by assumption) :
    Keeps P z (abortPosted s a_n a_reason) := by
  unfold abortPosted
  repeat' (first | (with_reducible assumption) | (intro) | (with_reducible apply keep_bufferDone)
                 | (with_reducible apply keep_foldl) | (with_reducible apply keep_foldl1) | split | (dsimp only))

theorem keep_stopWork {P : Area → Prop} {z : State} {s : State} {a_n : Nat} {a_reason : Nat} (h : Keeps P z s)
    (kplats : P .plats := by assumption) (kdests : P .dests := by assumption) (krings : P .rings := by assumption)
    (ksramUnits : P .sramUnits := by assumption) (khbmUnits : P .hbmUnits := by assumption)
    (kcodec : P .codec := by assumption) (kdma : P .dma := by assumption) :
    Keeps P z (stopWork s a_n a_reason) := by
  unfold stopWork
  repeat' (first | (with_reducible assumption) | (intro)
                 | (extract_lets +onlyGivenNames y; refine keep_cut (y := y) ?_ ?_; (focus (dsimp only [y]; clear y)); rotate_left; (focus (clear_value y; revert y; intro _ _)))
                 | (extract_lets +onlyGivenNames y; refine keep_cut1 (y := y) ?_ ?_; (focus (dsimp only [y]; clear y)); rotate_left; (focus (clear_value y; revert y; intro _ _)))
                 | (extract_lets +onlyGivenNames y; refine keep_cut2 (y := y) ?_ ?_; (focus (dsimp only [y]; clear y)); rotate_left; (focus (clear_value y; revert y; intro _ _)))
                 | (extract_lets +onlyGivenNames y; clear_value y; revert y; intro _) | (with_reducible apply keep_stopJobs)
                 | (with_reducible apply keep_failLoad) | (with_reducible apply keep_dmaSquash)
                 | (with_reducible apply keep_foldl) | (with_reducible apply keep_foldl1) | split | (dsimp only))

theorem keep_ringShutdown {P : Area → Prop} {z : State} {s : State} {a_n : Nat} {a_reason : Nat} (h : Keeps P z s)
    (kplats : P .plats := by assumption) (kfabric : P .fabric := by assumption) (kdests : P .dests := by assumption)
    (krings : P .rings := by assumption) (ksramUnits : P .sramUnits := by assumption)
    (khbmUnits : P .hbmUnits := by assumption) (kcodec : P .codec := by assumption) (kdma : P .dma := by assumption)
    (ktwins : P .twins := by assumption) :
    Keeps P z (ringShutdown s a_n a_reason) := by
  unfold ringShutdown
  repeat' (first | (with_reducible assumption) | (exact Or.inl (by assumption)) | (exact Or.inr rfl)
                 | (exact Or.inr ⟨rfl, rfl, rfl, rfl⟩) | (intro)
                 | (extract_lets +onlyGivenNames y; refine keep_cut (y := y) ?_ ?_; (focus (dsimp only [y]; clear y)); rotate_left; (focus (clear_value y; revert y; intro _ _)))
                 | (extract_lets +onlyGivenNames y; refine keep_cut1 (y := y) ?_ ?_; (focus (dsimp only [y]; clear y)); rotate_left; (focus (clear_value y; revert y; intro _ _)))
                 | (extract_lets +onlyGivenNames y; refine keep_cut2 (y := y) ?_ ?_; (focus (dsimp only [y]; clear y)); rotate_left; (focus (clear_value y; revert y; intro _ _)))
                 | (extract_lets +onlyGivenNames y; clear_value y; revert y; intro _) | (with_reducible apply keep_setF)
                 | (with_reducible apply keep_modRing) | (with_reducible apply keep_abortFetched)
                 | (with_reducible apply keep_squash) | (with_reducible apply keep_sqStopped)
                 | (with_reducible apply keep_abortPosted) | (with_reducible apply keep_stopWork)
                 | (with_reducible refine keep_ite ?_ ?_) | (with_reducible apply keep_foldl)
                 | (with_reducible apply keep_foldl1) | split | (dsimp only)
                 | (with_reducible refine keep_mk ?_ rfl rfl rfl rfl rfl rfl rfl rfl rfl ?_ ?_ ?_ ?_ ?_ ?_ ?_ ?_ ?_ ?_ ?_ ?_ ?_ ?_ ?_ ?_ ?_ ?_))

theorem keep_execSqShutdown {P : Area → Prop} {z : State} {a__fn : Nat} {a_n : Nat} {s : State} (h : Keeps P z s)
    (kplats : P .plats := by assumption) (kfabric : P .fabric := by assumption) (kdests : P .dests := by assumption)
    (krings : P .rings := by assumption) (ksramUnits : P .sramUnits := by assumption)
    (khbmUnits : P .hbmUnits := by assumption) (kcodec : P .codec := by assumption) (kdma : P .dma := by assumption)
    (ktwins : P .twins := by assumption) :
    ∀ t, execSqShutdown a__fn a_n s = .next t → Keeps P z t := by
  unfold execSqShutdown; intro t e; injection e with e; subst e
  repeat' (first | (with_reducible assumption) | (intro) | (with_reducible apply keep_ringShutdown) | split | (dsimp only))

theorem keep_cqDrop {P : Area → Prop} {z : State} {s : State} {a_n : Nat} (h : Keeps P z s)
    (krings : P .rings := by assumption) (khbmUnits : P .hbmUnits := by assumption) :
    Keeps P z (cqDrop s a_n) := by
  unfold cqDrop
  repeat' (first | (with_reducible assumption) | (exact Or.inl (by assumption)) | (exact Or.inr rfl)
                 | (exact Or.inr ⟨rfl, rfl, rfl, rfl⟩) | (intro)
                 | (extract_lets +onlyGivenNames y; refine keep_cut (y := y) ?_ ?_; (focus (dsimp only [y]; clear y)); rotate_left; (focus (clear_value y; revert y; intro _ _)))
                 | (extract_lets +onlyGivenNames y; refine keep_cut1 (y := y) ?_ ?_; (focus (dsimp only [y]; clear y)); rotate_left; (focus (clear_value y; revert y; intro _ _)))
                 | (extract_lets +onlyGivenNames y; refine keep_cut2 (y := y) ?_ ?_; (focus (dsimp only [y]; clear y)); rotate_left; (focus (clear_value y; revert y; intro _ _)))
                 | (extract_lets +onlyGivenNames y; clear_value y; revert y; intro _) | (with_reducible apply keep_setF)
                 | (with_reducible apply keep_satF) | (with_reducible apply keep_dropReads) | (with_reducible apply keep_paid)
                 | (with_reducible apply keep_modRing) | (with_reducible apply keep_foldl) | (with_reducible apply keep_foldl1)
                 | split | (dsimp only)
                 | (with_reducible refine keep_mk ?_ rfl rfl rfl rfl rfl rfl rfl rfl rfl ?_ ?_ ?_ ?_ ?_ ?_ ?_ ?_ ?_ ?_ ?_ ?_ ?_ ?_ ?_ ?_ ?_ ?_))

theorem keep_cqDisable {P : Area → Prop} {z : State} {s : State} {a_fn : Nat} {a_n : Nat} (h : Keeps P z s)
    (krings : P .rings := by assumption) (khbmUnits : P .hbmUnits := by assumption) (ktwins : P .twins := by assumption)
    (klog : P .log := by assumption) :
    Keeps P z (cqDisable s a_fn a_n) := by
  unfold cqDisable
  repeat' (first | (with_reducible assumption) | (intro) | (with_reducible apply keep_logWWR)
                 | (with_reducible apply keep_cqDrop) | (with_reducible refine keep_ite ?_ ?_) | split | (dsimp only))

theorem keep_execCqDisable {P : Area → Prop} {z : State} {a_fn : Nat} {a_n : Nat} {s : State} (h : Keeps P z s)
    (krings : P .rings := by assumption) (khbmUnits : P .hbmUnits := by assumption) (ktwins : P .twins := by assumption)
    (klog : P .log := by assumption) :
    ∀ t, execCqDisable a_fn a_n s = .next t → Keeps P z t := by
  unfold execCqDisable; intro t e; injection e with e; subst e
  repeat' (first | (with_reducible assumption) | (intro) | (with_reducible apply keep_cqDisable) | split | (dsimp only))

theorem keep_completionTimeout {P : Area → Prop} {z : State} {s : State} {a_port : Nat} {a_unit : Nat} (h : Keeps P z s)
    (khbm : P .hbm := by assumption) (kdests : P .dests := by assumption) (krings : P .rings := by assumption)
    (khbmUnits : P .hbmUnits := by assumption) (kdma : P .dma := by assumption) :
    Keeps P z (completionTimeout s a_port a_unit) := by
  unfold completionTimeout
  repeat' (first | (with_reducible assumption) | (exact Or.inl (by assumption)) | (exact Or.inr rfl)
                 | (exact Or.inr ⟨rfl, rfl, rfl, rfl⟩) | (intro)
                 | (extract_lets +onlyGivenNames y; refine keep_cut (y := y) ?_ ?_; (focus (dsimp only [y]; clear y)); rotate_left; (focus (clear_value y; revert y; intro _ _)))
                 | (extract_lets +onlyGivenNames y; refine keep_cut1 (y := y) ?_ ?_; (focus (dsimp only [y]; clear y)); rotate_left; (focus (clear_value y; revert y; intro _ _)))
                 | (extract_lets +onlyGivenNames y; refine keep_cut2 (y := y) ?_ ?_; (focus (dsimp only [y]; clear y)); rotate_left; (focus (clear_value y; revert y; intro _ _)))
                 | (extract_lets +onlyGivenNames y; clear_value y; revert y; intro _)
                 | (with_reducible apply keep_dmaReadReturn) | (with_reducible apply keep_listReadReturn)
                 | (with_reducible apply keep_entryReadReturn) | (with_reducible apply keep_entryReread)
                 | (with_reducible refine keep_ite ?_ ?_) | split | (dsimp only)
                 | (with_reducible refine keep_mk ?_ rfl rfl rfl rfl rfl rfl rfl rfl rfl ?_ ?_ ?_ ?_ ?_ ?_ ?_ ?_ ?_ ?_ ?_ ?_ ?_ ?_ ?_ ?_ ?_ ?_))

theorem keep_execCompletionTimeout {P : Area → Prop} {z : State} {a_port : Nat} {a_unit : Nat} {s : State}
    (h : Keeps P z s) (khbm : P .hbm := by assumption) (kdests : P .dests := by assumption)
    (krings : P .rings := by assumption) (khbmUnits : P .hbmUnits := by assumption) (kdma : P .dma := by assumption) :
    ∀ t, execCompletionTimeout a_port a_unit s = .next t → Keeps P z t := by
  unfold execCompletionTimeout; intro t e; injection e with e; subst e
  repeat' (first | (with_reducible assumption) | (intro) | (with_reducible apply keep_completionTimeout) | split | (dsimp only))

end Sys2Proof.Machine
end

