-- ==== Sys2Proof/Laws/KeepFuncs.lean ====
section
/-! SUPPORT. What the operations of Machine/Funcs.lean keep (Laws/Keep.lean), one lemma per operation. -/

set_option linter.tactic.unusedName false
set_option linter.all false
set_option Elab.async false

namespace Sys2Proof.Machine

theorem keep_refreshReady {P : Area → Prop} {z : State} {s : State} (h : Keeps P z s) :
    Keeps P z (refreshReady s) := by
  unfold refreshReady
  repeat' (first | (with_reducible assumption) | (intro) | (with_reducible apply keep_setF)
                 | (with_reducible refine keep_ite ?_ ?_) | split | (dsimp only))

theorem keep_stageReq {P : Area → Prop} {z : State} {s : State} (h : Keeps P z s) (krings : P .rings := by assumption) :
    Keeps P z (stageReq s) := by
  unfold stageReq
  repeat' (first | (with_reducible assumption) | (intro) | (with_reducible apply keep_setF) | (with_reducible apply keep_raise)
                 | (with_reducible refine keep_ite ?_ ?_) | split | (dsimp only))

theorem keep_execStageReq {P : Area → Prop} {z : State} {s : State} (h : Keeps P z s) (krings : P .rings := by assumption) :
    ∀ t, execStageReq s = .next t → Keeps P z t := by
  unfold execStageReq; intro t e; injection e with e; subst e
  repeat' (first | (with_reducible assumption) | (intro) | (with_reducible apply keep_stageReq) | split | (dsimp only))

theorem keep_stageResult {P : Area → Prop} {z : State} {s : State} {a_state : Nat} {a_status : Nat} {a_reason : Nat}
    {a_table : Nat} {a_index : Nat} (h : Keeps P z s) :
    Keeps P z (stageResult s a_state a_status a_reason a_table a_index) := by
  unfold stageResult
  repeat' (first | (with_reducible assumption) | (intro)
                 | (extract_lets +onlyGivenNames y; refine keep_cut (y := y) ?_ ?_; (focus (dsimp only [y]; clear y)); rotate_left; (focus (clear_value y; revert y; intro _ _)))
                 | (extract_lets +onlyGivenNames y; refine keep_cut1 (y := y) ?_ ?_; (focus (dsimp only [y]; clear y)); rotate_left; (focus (clear_value y; revert y; intro _ _)))
                 | (extract_lets +onlyGivenNames y; refine keep_cut2 (y := y) ?_ ?_; (focus (dsimp only [y]; clear y)); rotate_left; (focus (clear_value y; revert y; intro _ _)))
                 | (extract_lets +onlyGivenNames y; clear_value y; revert y; intro _) | (with_reducible apply keep_setF) | split
                 | (dsimp only))

theorem keep_stageCheckDone {P : Area → Prop} {z : State} {s : State} (h : Keeps P z s) (krings : P .rings := by assumption) :
    Keeps P z (stageCheckDone s) := by
  unfold stageCheckDone
  repeat' (first | (with_reducible assumption) | (exact Or.inl (by assumption)) | (exact Or.inr rfl)
                 | (exact Or.inr ⟨rfl, rfl, rfl, rfl⟩) | (intro)
                 | (extract_lets +onlyGivenNames y; refine keep_cut (y := y) ?_ ?_; (focus (dsimp only [y]; clear y)); rotate_left; (focus (clear_value y; revert y; intro _ _)))
                 | (extract_lets +onlyGivenNames y; refine keep_cut1 (y := y) ?_ ?_; (focus (dsimp only [y]; clear y)); rotate_left; (focus (clear_value y; revert y; intro _ _)))
                 | (extract_lets +onlyGivenNames y; refine keep_cut2 (y := y) ?_ ?_; (focus (dsimp only [y]; clear y)); rotate_left; (focus (clear_value y; revert y; intro _ _)))
                 | (extract_lets +onlyGivenNames y; clear_value y; revert y; intro _) | (with_reducible apply keep_raise)
                 | (with_reducible apply keep_stageResult) | (with_reducible apply keep_refreshReady)
                 | (with_reducible refine keep_ite ?_ ?_) | split | (dsimp only)
                 | (with_reducible refine keep_mk ?_ rfl rfl rfl rfl rfl rfl rfl rfl rfl ?_ ?_ ?_ ?_ ?_ ?_ ?_ ?_ ?_ ?_ ?_ ?_ ?_ ?_ ?_ ?_ ?_ ?_))

theorem keep_execStageCheckDone {P : Area → Prop} {z : State} {s : State} (h : Keeps P z s)
    (krings : P .rings := by assumption) :
    ∀ t, execStageCheckDone s = .next t → Keeps P z t := by
  unfold execStageCheckDone; intro t e; injection e with e; subst e
  repeat' (first | (with_reducible assumption) | (intro) | (with_reducible apply keep_stageCheckDone) | split | (dsimp only))

theorem keep_stageWithdraw {P : Area → Prop} {z : State} {s : State} (h : Keeps P z s) :
    Keeps P z (stageWithdraw s) := by
  unfold stageWithdraw
  repeat' (first | (with_reducible assumption) | (intro) | (with_reducible apply keep_setF)
                 | (with_reducible refine keep_ite ?_ ?_) | split | (dsimp only))

theorem keep_execWithdraw {P : Area → Prop} {z : State} {s : State} (h : Keeps P z s) :
    ∀ t, execWithdraw s = .next t → Keeps P z t := by
  unfold execWithdraw; intro t e; injection e with e; subst e
  repeat' (first | (with_reducible assumption) | (intro) | (with_reducible apply keep_stageWithdraw) | split | (dsimp only))

theorem keep_drainRing {P : Area → Prop} {z : State} {s : State} {a_n : Nat} (h : Keeps P z s)
    (kdests : P .dests := by assumption) (krings : P .rings := by assumption) (khbmUnits : P .hbmUnits := by assumption) :
    Keeps P z (drainRing s a_n) := by
  unfold drainRing
  repeat' (first | (with_reducible assumption) | (exact Or.inl (by assumption)) | (exact Or.inr rfl)
                 | (exact Or.inr ⟨rfl, rfl, rfl, rfl⟩) | (intro)
                 | (extract_lets +onlyGivenNames y; refine keep_cut (y := y) ?_ ?_; (focus (dsimp only [y]; clear y)); rotate_left; (focus (clear_value y; revert y; intro _ _)))
                 | (extract_lets +onlyGivenNames y; refine keep_cut1 (y := y) ?_ ?_; (focus (dsimp only [y]; clear y)); rotate_left; (focus (clear_value y; revert y; intro _ _)))
                 | (extract_lets +onlyGivenNames y; refine keep_cut2 (y := y) ?_ ?_; (focus (dsimp only [y]; clear y)); rotate_left; (focus (clear_value y; revert y; intro _ _)))
                 | (extract_lets +onlyGivenNames y; clear_value y; revert y; intro _) | (with_reducible apply keep_setF)
                 | (with_reducible apply keep_sqStopped) | (with_reducible apply keep_abortPosted)
                 | (with_reducible apply keep_modRing) | (with_reducible apply keep_cqDrop)
                 | (with_reducible refine keep_ite ?_ ?_) | split | (dsimp only)
                 | (with_reducible refine keep_mk ?_ rfl rfl rfl rfl rfl rfl rfl rfl rfl ?_ ?_ ?_ ?_ ?_ ?_ ?_ ?_ ?_ ?_ ?_ ?_ ?_ ?_ ?_ ?_ ?_ ?_))

theorem keep_drainComplete {P : Area → Prop} {z : State} {s : State} {a_t : Nat} {a_i : Nat} (h : Keeps P z s)
    (kdests : P .dests := by assumption) (krings : P .rings := by assumption) (khbmUnits : P .hbmUnits := by assumption) :
    Keeps P z (drainComplete s a_t a_i) := by
  unfold drainComplete
  repeat' (first | (with_reducible assumption) | (intro) | (with_reducible apply keep_refreshReady)
                 | (with_reducible apply keep_drainRing) | (with_reducible refine keep_ite ?_ ?_) | split | (dsimp only))

theorem keep_execDrainComplete {P : Area → Prop} {z : State} {a_t : Nat} {a_i : Nat} {s : State} (h : Keeps P z s)
    (kdests : P .dests := by assumption) (krings : P .rings := by assumption) (khbmUnits : P .hbmUnits := by assumption) :
    ∀ t, execDrainComplete a_t a_i s = .next t → Keeps P z t := by
  unfold execDrainComplete; intro t e; injection e with e; subst e
  repeat' (first | (with_reducible assumption) | (intro) | (with_reducible apply keep_drainComplete) | split | (dsimp only))

theorem keep_drainLimit {P : Area → Prop} {z : State} {s : State} (h : Keeps P z s) (kplats : P .plats := by assumption)
    (kfabric : P .fabric := by assumption) (kdests : P .dests := by assumption) (krings : P .rings := by assumption)
    (ksramUnits : P .sramUnits := by assumption) (khbmUnits : P .hbmUnits := by assumption)
    (kcodec : P .codec := by assumption) (kdma : P .dma := by assumption) (ktwins : P .twins := by assumption) :
    Keeps P z (drainLimit s) := by
  unfold drainLimit
  repeat' (first | (with_reducible assumption) | (intro)
                 | (extract_lets +onlyGivenNames y; refine keep_cut (y := y) ?_ ?_; (focus (dsimp only [y]; clear y)); rotate_left; (focus (clear_value y; revert y; intro _ _)))
                 | (extract_lets +onlyGivenNames y; refine keep_cut1 (y := y) ?_ ?_; (focus (dsimp only [y]; clear y)); rotate_left; (focus (clear_value y; revert y; intro _ _)))
                 | (extract_lets +onlyGivenNames y; refine keep_cut2 (y := y) ?_ ?_; (focus (dsimp only [y]; clear y)); rotate_left; (focus (clear_value y; revert y; intro _ _)))
                 | (extract_lets +onlyGivenNames y; clear_value y; revert y; intro _) | (with_reducible apply keep_ringShutdown)
                 | (with_reducible apply keep_chanSquash) | (with_reducible apply keep_refreshReady)
                 | (with_reducible apply keep_raise) | (with_reducible refine keep_ite ?_ ?_)
                 | (with_reducible apply keep_foldl) | (with_reducible apply keep_foldl1) | split | (dsimp only))

theorem keep_execDrainLimit {P : Area → Prop} {z : State} {s : State} (h : Keeps P z s)
    (kplats : P .plats := by assumption) (kfabric : P .fabric := by assumption) (kdests : P .dests := by assumption)
    (krings : P .rings := by assumption) (ksramUnits : P .sramUnits := by assumption)
    (khbmUnits : P .hbmUnits := by assumption) (kcodec : P .codec := by assumption) (kdma : P .dma := by assumption)
    (ktwins : P .twins := by assumption) :
    ∀ t, execDrainLimit s = .next t → Keeps P z t := by
  unfold execDrainLimit; intro t e; injection e with e; subst e
  repeat' (first | (with_reducible assumption) | (intro) | (with_reducible apply keep_drainLimit) | split | (dsimp only))

theorem keep_removeHolders {P : Area → Prop} {z : State} {s : State} {a_t : Nat} {a_i : Nat} (h : Keeps P z s)
    (kbmk : P .bmk := by assumption) (kports : P .ports := by assumption) (kplats : P .plats := by assumption)
    (kfabric : P .fabric := by assumption) (kdests : P .dests := by assumption) (krings : P .rings := by assumption)
    (ksramUnits : P .sramUnits := by assumption) (khbmUnits : P .hbmUnits := by assumption)
    (ktwins : P .twins := by assumption) :
    Keeps P z (removeHolders s a_t a_i) := by
  unfold removeHolders
  repeat' (first | (with_reducible assumption) | (intro) | (with_reducible apply keep_removePlat)
                 | (with_reducible apply keep_abortInvs) | (with_reducible apply keep_foldl)
                 | (with_reducible apply keep_foldl1) | split | (dsimp only))

theorem keep_takeResource {P : Area → Prop} {z : State} {s : State} {a_t : Nat} {a_i : Nat} (h : Keeps P z s)
    (kbmk : P .bmk := by assumption) (kports : P .ports := by assumption) (kplats : P .plats := by assumption)
    (kfabric : P .fabric := by assumption) (kdests : P .dests := by assumption) (krings : P .rings := by assumption)
    (ksramUnits : P .sramUnits := by assumption) (khbmUnits : P .hbmUnits := by assumption)
    (ktwins : P .twins := by assumption) :
    Keeps P z (takeResource s a_t a_i) := by
  unfold takeResource
  repeat' (first | (with_reducible assumption) | (exact Or.inl (by assumption)) | (exact Or.inr rfl)
                 | (exact Or.inr ⟨rfl, rfl, rfl, rfl⟩) | (intro)
                 | (extract_lets +onlyGivenNames y; refine keep_cut (y := y) ?_ ?_; (focus (dsimp only [y]; clear y)); rotate_left; (focus (clear_value y; revert y; intro _ _)))
                 | (extract_lets +onlyGivenNames y; refine keep_cut1 (y := y) ?_ ?_; (focus (dsimp only [y]; clear y)); rotate_left; (focus (clear_value y; revert y; intro _ _)))
                 | (extract_lets +onlyGivenNames y; refine keep_cut2 (y := y) ?_ ?_; (focus (dsimp only [y]; clear y)); rotate_left; (focus (clear_value y; revert y; intro _ _)))
                 | (extract_lets +onlyGivenNames y; have q : Hbm := y; clear q; dsimp only [y]; clear y)
                 | (extract_lets +onlyGivenNames y; clear_value y; revert y; intro _)
                 | (with_reducible apply keep_removeHolders) | (with_reducible apply keep_setF)
                 | (with_reducible apply keep_startSlices) | split | (dsimp only)
                 | (with_reducible refine keep_mk ?_ rfl rfl rfl rfl rfl rfl rfl rfl rfl ?_ ?_ ?_ ?_ ?_ ?_ ?_ ?_ ?_ ?_ ?_ ?_ ?_ ?_ ?_ ?_ ?_ ?_))

theorem keep_applyEntry {P : Area → Prop} {z : State} {s : State} {a_t : Nat} {a_i : Nat} (h : Keeps P z s)
    (kbmk : P .bmk := by assumption) (kports : P .ports := by assumption) (kplats : P .plats := by assumption)
    (kfabric : P .fabric := by assumption) (kdests : P .dests := by assumption) (krings : P .rings := by assumption)
    (ksramUnits : P .sramUnits := by assumption) (khbmUnits : P .hbmUnits := by assumption)
    (ktwins : P .twins := by assumption) :
    Keeps P z (applyEntry s a_t a_i) := by
  unfold applyEntry
  repeat' (first | (with_reducible assumption) | (intro)
                 | (extract_lets +onlyGivenNames y; refine keep_cut (y := y) ?_ ?_; (focus (dsimp only [y]; clear y)); rotate_left; (focus (clear_value y; revert y; intro _ _)))
                 | (extract_lets +onlyGivenNames y; refine keep_cut1 (y := y) ?_ ?_; (focus (dsimp only [y]; clear y)); rotate_left; (focus (clear_value y; revert y; intro _ _)))
                 | (extract_lets +onlyGivenNames y; refine keep_cut2 (y := y) ?_ ?_; (focus (dsimp only [y]; clear y)); rotate_left; (focus (clear_value y; revert y; intro _ _)))
                 | (extract_lets +onlyGivenNames y; clear_value y; revert y; intro _) | (with_reducible apply keep_takeResource)
                 | (with_reducible apply keep_setF) | (with_reducible refine keep_ite ?_ ?_) | split | (dsimp only))

theorem keep_applyAttr {P : Area → Prop} {z : State} {s : State} {a_f : Nat} (h : Keeps P z s) :
    Keeps P z (applyAttr s a_f) := by
  unfold applyAttr
  repeat' (first | (with_reducible assumption) | (intro)
                 | (extract_lets +onlyGivenNames y; refine keep_cut (y := y) ?_ ?_; (focus (dsimp only [y]; clear y)); rotate_left; (focus (clear_value y; revert y; intro _ _)))
                 | (extract_lets +onlyGivenNames y; refine keep_cut1 (y := y) ?_ ?_; (focus (dsimp only [y]; clear y)); rotate_left; (focus (clear_value y; revert y; intro _ _)))
                 | (extract_lets +onlyGivenNames y; refine keep_cut2 (y := y) ?_ ?_; (focus (dsimp only [y]; clear y)); rotate_left; (focus (clear_value y; revert y; intro _ _)))
                 | (extract_lets +onlyGivenNames y; clear_value y; revert y; intro _) | (with_reducible apply keep_setF) | split
                 | (dsimp only))

theorem keep_applyChange {P : Area → Prop} {z : State} {s : State} {a_epoch : Nat} (h : Keeps P z s)
    (kbmk : P .bmk := by assumption) (kports : P .ports := by assumption) (kplats : P .plats := by assumption)
    (kfabric : P .fabric := by assumption) (kdests : P .dests := by assumption) (krings : P .rings := by assumption)
    (ksramUnits : P .sramUnits := by assumption) (khbmUnits : P .hbmUnits := by assumption)
    (ktwins : P .twins := by assumption) :
    Keeps P z (applyChange s a_epoch) := by
  unfold applyChange
  repeat' (first | (with_reducible assumption) | (intro)
                 | (extract_lets +onlyGivenNames y; refine keep_cut (y := y) ?_ ?_; (focus (dsimp only [y]; clear y)); rotate_left; (focus (clear_value y; revert y; intro _ _)))
                 | (extract_lets +onlyGivenNames y; refine keep_cut1 (y := y) ?_ ?_; (focus (dsimp only [y]; clear y)); rotate_left; (focus (clear_value y; revert y; intro _ _)))
                 | (extract_lets +onlyGivenNames y; refine keep_cut2 (y := y) ?_ ?_; (focus (dsimp only [y]; clear y)); rotate_left; (focus (clear_value y; revert y; intro _ _)))
                 | (extract_lets +onlyGivenNames y; clear_value y; revert y; intro _) | (with_reducible apply keep_applyEntry)
                 | (with_reducible apply keep_applyAttr) | (with_reducible apply keep_setF) | (with_reducible apply keep_raise)
                 | (with_reducible refine keep_ite ?_ ?_) | (with_reducible apply keep_foldl)
                 | (with_reducible apply keep_foldl1) | split | (dsimp only))

theorem keep_scrubFault {P : Area → Prop} {z : State} {s : State} {a_d : Nat} {a_inst : Nat} {a_state : Nat}
    {a_sram : Bool} (h : Keeps P z s) (krings : P .rings := by assumption) (ktwins : P .twins := by assumption)
    (klog : P .log := by assumption) :
    Keeps P z (scrubFault s a_d a_inst a_state a_sram) := by
  unfold scrubFault
  repeat' (first | (with_reducible assumption) | (intro)
                 | (extract_lets +onlyGivenNames y; refine keep_cut (y := y) ?_ ?_; (focus (dsimp only [y]; clear y)); rotate_left; (focus (clear_value y; revert y; intro _ _)))
                 | (extract_lets +onlyGivenNames y; refine keep_cut1 (y := y) ?_ ?_; (focus (dsimp only [y]; clear y)); rotate_left; (focus (clear_value y; revert y; intro _ _)))
                 | (extract_lets +onlyGivenNames y; refine keep_cut2 (y := y) ?_ ?_; (focus (dsimp only [y]; clear y)); rotate_left; (focus (clear_value y; revert y; intro _ _)))
                 | (extract_lets +onlyGivenNames y; clear_value y; revert y; intro _) | (with_reducible apply keep_logD)
                 | (with_reducible apply keep_raise) | (with_reducible refine keep_ite ?_ ?_) | split | (dsimp only))

theorem keep_scrubOn {P : Area → Prop} {z : State} {s : State} {a_t : Nat} {a_u : Nat} {a_d : Nat} (h : Keeps P z s)
    (ktiles : P .tiles := by assumption) (ksram : P .sram := by assumption) (khbm : P .hbm := by assumption)
    (krings : P .rings := by assumption) (ksramUnits : P .sramUnits := by assumption)
    (khbmUnits : P .hbmUnits := by assumption) (ktwins : P .twins := by assumption) (klog : P .log := by assumption) :
    Keeps P z (scrubOn s a_t a_u a_d).1 := by
  unfold scrubOn
  repeat' (first | (with_reducible assumption) | (exact Or.inl (by assumption)) | (exact Or.inr rfl)
                 | (exact Or.inr ⟨rfl, rfl, rfl, rfl⟩) | (intro)
                 | (extract_lets +onlyGivenNames y; refine keep_cut (y := y) ?_ ?_; (focus (dsimp only [y]; clear y)); rotate_left; (focus (clear_value y; revert y; intro _ _)))
                 | (extract_lets +onlyGivenNames y; refine keep_cut1 (y := y) ?_ ?_; (focus (dsimp only [y]; clear y)); rotate_left; (focus (clear_value y; revert y; intro _ _)))
                 | (extract_lets +onlyGivenNames y; refine keep_cut2 (y := y) ?_ ?_; (focus (dsimp only [y]; clear y)); rotate_left; (focus (clear_value y; revert y; intro _ _)))
                 | (extract_lets +onlyGivenNames y; clear_value y; revert y; intro _) | (with_reducible apply keep_zeroMem)
                 | (with_reducible apply keep_zeroSlice) | (with_reducible apply keep_scrubFault)
                 | (with_reducible apply keep_zeroUnit) | (with_reducible refine keep_ite ?_ ?_) | split | (dsimp only)
                 | (exact by decide) | (show P _; assumption) | (exact memArea_of ‹_› ‹_› ‹_›)
                 | (with_reducible refine keep_mk ?_ rfl rfl rfl rfl rfl rfl rfl rfl rfl ?_ ?_ ?_ ?_ ?_ ?_ ?_ ?_ ?_ ?_ ?_ ?_ ?_ ?_ ?_ ?_ ?_ ?_))

theorem keep_scrub {P : Area → Prop} {z : State} {s : State} {a_t : Nat} {a_i : Nat} (h : Keeps P z s)
    (ktiles : P .tiles := by assumption) (ksram : P .sram := by assumption) (khbm : P .hbm := by assumption)
    (krings : P .rings := by assumption) (ksramUnits : P .sramUnits := by assumption)
    (khbmUnits : P .hbmUnits := by assumption) (ktwins : P .twins := by assumption) (klog : P .log := by assumption) :
    Keeps P z (scrub s a_t a_i).1 := by
  unfold scrub
  repeat' (first | (with_reducible assumption) | (intro)
                 | (extract_lets +onlyGivenNames y; refine keep_cut (y := y) ?_ ?_; (focus (dsimp only [y]; clear y)); rotate_left; (focus (clear_value y; revert y; intro _ _)))
                 | (extract_lets +onlyGivenNames y; refine keep_cut1 (y := y) ?_ ?_; (focus (dsimp only [y]; clear y)); rotate_left; (focus (clear_value y; revert y; intro _ _)))
                 | (extract_lets +onlyGivenNames y; refine keep_cut2 (y := y) ?_ ?_; (focus (dsimp only [y]; clear y)); rotate_left; (focus (clear_value y; revert y; intro _ _)))
                 | (extract_lets +onlyGivenNames y; clear_value y; revert y; intro _) | (with_reducible apply keep_scrubOn)
                 | (with_reducible apply keep_foldl) | (with_reducible apply keep_foldl1) | split | (dsimp only))

theorem keep_scrubEnds {P : Area → Prop} {z : State} {s : State} {a_t : Nat} {a_i : Nat} (h : Keeps P z s)
    (ksramUnits : P .sramUnits := by assumption) (khbmUnits : P .hbmUnits := by assumption) :
    Keeps P z (scrubEnds s a_t a_i) := by
  unfold scrubEnds
  repeat' (first | (with_reducible assumption) | (exact Or.inl (by assumption)) | (exact Or.inr rfl)
                 | (exact Or.inr ⟨rfl, rfl, rfl, rfl⟩) | (intro)
                 | (extract_lets +onlyGivenNames y; refine keep_cut (y := y) ?_ ?_; (focus (dsimp only [y]; clear y)); rotate_left; (focus (clear_value y; revert y; intro _ _)))
                 | (extract_lets +onlyGivenNames y; refine keep_cut1 (y := y) ?_ ?_; (focus (dsimp only [y]; clear y)); rotate_left; (focus (clear_value y; revert y; intro _ _)))
                 | (extract_lets +onlyGivenNames y; refine keep_cut2 (y := y) ?_ ?_; (focus (dsimp only [y]; clear y)); rotate_left; (focus (clear_value y; revert y; intro _ _)))
                 | (extract_lets +onlyGivenNames y; have q : Hbm := y; clear q; dsimp only [y]; clear y)
                 | (extract_lets +onlyGivenNames y; have q : Srm := y; clear q; dsimp only [y]; clear y)
                 | (extract_lets +onlyGivenNames y; clear_value y; revert y; intro _) | (with_reducible apply keep_foldl)
                 | (with_reducible apply keep_foldl1) | split | (dsimp only)
                 | (with_reducible refine keep_mk ?_ rfl rfl rfl rfl rfl rfl rfl rfl rfl ?_ ?_ ?_ ?_ ?_ ?_ ?_ ?_ ?_ ?_ ?_ ?_ ?_ ?_ ?_ ?_ ?_ ?_))

theorem keep_scrubDone {P : Area → Prop} {z : State} {s : State} {a_t : Nat} {a_i : Nat} (h : Keeps P z s)
    (ktiles : P .tiles := by assumption) (ksram : P .sram := by assumption) (khbm : P .hbm := by assumption)
    (krings : P .rings := by assumption) (ksramUnits : P .sramUnits := by assumption)
    (khbmUnits : P .hbmUnits := by assumption) (ktwins : P .twins := by assumption) (klog : P .log := by assumption) :
    Keeps P z (scrubDone s a_t a_i) := by
  unfold scrubDone
  repeat' (first | (with_reducible assumption) | (intro)
                 | (extract_lets +onlyGivenNames y; refine keep_cut (y := y) ?_ ?_; (focus (dsimp only [y]; clear y)); rotate_left; (focus (clear_value y; revert y; intro _ _)))
                 | (extract_lets +onlyGivenNames y; refine keep_cut1 (y := y) ?_ ?_; (focus (dsimp only [y]; clear y)); rotate_left; (focus (clear_value y; revert y; intro _ _)))
                 | (extract_lets +onlyGivenNames y; refine keep_cut2 (y := y) ?_ ?_; (focus (dsimp only [y]; clear y)); rotate_left; (focus (clear_value y; revert y; intro _ _)))
                 | (extract_lets +onlyGivenNames y; clear_value y; revert y; intro _) | (with_reducible apply keep_scrub)
                 | (with_reducible apply keep_scrubEnds) | (with_reducible apply keep_setF) | (with_reducible apply keep_raise)
                 | (with_reducible refine keep_ite ?_ ?_) | split | (dsimp only))

theorem keep_execScrubDone {P : Area → Prop} {z : State} {a_t : Nat} {a_i : Nat} {s : State} (h : Keeps P z s)
    (ktiles : P .tiles := by assumption) (ksram : P .sram := by assumption) (khbm : P .hbm := by assumption)
    (krings : P .rings := by assumption) (ksramUnits : P .sramUnits := by assumption)
    (khbmUnits : P .hbmUnits := by assumption) (ktwins : P .twins := by assumption) (klog : P .log := by assumption) :
    ∀ t, execScrubDone a_t a_i s = .next t → Keeps P z t := by
  unfold execScrubDone; intro t e; injection e with e; subst e
  repeat' (first | (with_reducible assumption) | (intro) | (with_reducible apply keep_scrubDone) | split | (dsimp only))

theorem keep_refreshFn {P : Area → Prop} {z : State} {s : State} {a_f : Nat} (h : Keeps P z s) :
    Keeps P z (refreshFn s a_f) := by
  unfold refreshFn
  repeat' (first | (with_reducible assumption) | (intro) | (with_reducible apply keep_setF)
                 | (with_reducible refine keep_ite ?_ ?_) | split | (dsimp only))

theorem keep_modFlr {P : Area → Prop} {z : State} {s : State} {a_j : Nat} {a_f : Flr → Flr} (h : Keeps P z s)
    (kfunctions : P .functions := by assumption) :
    Keeps P z (modFlr s a_j a_f) := by
  unfold modFlr
  repeat' (first | (with_reducible assumption) | (exact Or.inl (by assumption)) | (exact Or.inr rfl)
                 | (exact Or.inr ⟨rfl, rfl, rfl, rfl⟩) | (intro)
                 | (extract_lets +onlyGivenNames y; refine keep_cut (y := y) ?_ ?_; (focus (dsimp only [y]; clear y)); rotate_left; (focus (clear_value y; revert y; intro _ _)))
                 | (extract_lets +onlyGivenNames y; refine keep_cut1 (y := y) ?_ ?_; (focus (dsimp only [y]; clear y)); rotate_left; (focus (clear_value y; revert y; intro _ _)))
                 | (extract_lets +onlyGivenNames y; refine keep_cut2 (y := y) ?_ ?_; (focus (dsimp only [y]; clear y)); rotate_left; (focus (clear_value y; revert y; intro _ _)))
                 | (extract_lets +onlyGivenNames y; clear_value y; revert y; intro _) | split | (dsimp only)
                 | (with_reducible refine keep_mk ?_ rfl rfl rfl rfl rfl rfl rfl rfl rfl ?_ ?_ ?_ ?_ ?_ ?_ ?_ ?_ ?_ ?_ ?_ ?_ ?_ ?_ ?_ ?_ ?_ ?_))

theorem keep_countSquash {P : Area → Prop} {z : State} {s : State} {a_j : Nat} {a_xs : List Xfer} (h : Keeps P z s)
    (kfunctions : P .functions := by assumption) :
    Keeps P z (countSquash s a_j a_xs) := by
  unfold countSquash
  repeat' (first | (with_reducible assumption) | (exact Or.inl (by assumption)) | (exact Or.inr rfl)
                 | (exact Or.inr ⟨rfl, rfl, rfl, rfl⟩) | (intro)
                 | (extract_lets +onlyGivenNames y; refine keep_cut (y := y) ?_ ?_; (focus (dsimp only [y]; clear y)); rotate_left; (focus (clear_value y; revert y; intro _ _)))
                 | (extract_lets +onlyGivenNames y; refine keep_cut1 (y := y) ?_ ?_; (focus (dsimp only [y]; clear y)); rotate_left; (focus (clear_value y; revert y; intro _ _)))
                 | (extract_lets +onlyGivenNames y; refine keep_cut2 (y := y) ?_ ?_; (focus (dsimp only [y]; clear y)); rotate_left; (focus (clear_value y; revert y; intro _ _)))
                 | (extract_lets +onlyGivenNames y; clear_value y; revert y; intro _) | (with_reducible apply keep_satF)
                 | (with_reducible apply keep_modFlr) | (with_reducible refine keep_ite ?_ ?_)
                 | (with_reducible apply keep_foldl) | (with_reducible apply keep_foldl1) | split | (dsimp only)
                 | (with_reducible refine keep_mk ?_ rfl rfl rfl rfl rfl rfl rfl rfl rfl ?_ ?_ ?_ ?_ ?_ ?_ ?_ ?_ ?_ ?_ ?_ ?_ ?_ ?_ ?_ ?_ ?_ ?_))

theorem keep_squashQueued {P : Area → Prop} {z : State} {s : State} {a_j : Nat} {a_reason : Nat} {a_p : Nat → Bool}
    (h : Keeps P z s) (kdests : P .dests := by assumption) (krings : P .rings := by assumption)
    (kdma : P .dma := by assumption) (kfunctions : P .functions := by assumption) :
    Keeps P z (squashQueued s a_j a_reason a_p) := by
  unfold squashQueued
  repeat' (first | (with_reducible assumption) | (exact Or.inl (by assumption)) | (exact Or.inr rfl)
                 | (exact Or.inr ⟨rfl, rfl, rfl, rfl⟩) | (intro)
                 | (extract_lets +onlyGivenNames y; refine keep_cut (y := y) ?_ ?_; (focus (dsimp only [y]; clear y)); rotate_left; (focus (clear_value y; revert y; intro _ _)))
                 | (extract_lets +onlyGivenNames y; refine keep_cut1 (y := y) ?_ ?_; (focus (dsimp only [y]; clear y)); rotate_left; (focus (clear_value y; revert y; intro _ _)))
                 | (extract_lets +onlyGivenNames y; refine keep_cut2 (y := y) ?_ ?_; (focus (dsimp only [y]; clear y)); rotate_left; (focus (clear_value y; revert y; intro _ _)))
                 | (extract_lets +onlyGivenNames y; clear_value y; revert y; intro _) | (with_reducible apply keep_setF)
                 | (with_reducible apply keep_setChan) | (with_reducible apply keep_xfersDone)
                 | (with_reducible apply keep_countSquash) | (with_reducible apply keep_foldl)
                 | (with_reducible apply keep_foldl1) | split | (dsimp only)
                 | (with_reducible refine keep_mk ?_ rfl rfl rfl rfl rfl rfl rfl rfl rfl ?_ ?_ ?_ ?_ ?_ ?_ ?_ ?_ ?_ ?_ ?_ ?_ ?_ ?_ ?_ ?_ ?_ ?_))

theorem keep_squashRunning {P : Area → Prop} {z : State} {s : State} {a_j : Nat} {a_reason : Nat} {a_p : Nat → Bool}
    (h : Keeps P z s) (kdests : P .dests := by assumption) (krings : P .rings := by assumption)
    (kdma : P .dma := by assumption) (kfunctions : P .functions := by assumption) :
    Keeps P z (squashRunning s a_j a_reason a_p) := by
  unfold squashRunning
  repeat' (first | (with_reducible assumption) | (intro) | (with_reducible apply keep_countSquash)
                 | (with_reducible apply keep_chanSquash) | (with_reducible apply keep_foldl)
                 | (with_reducible apply keep_foldl1) | split | (dsimp only))

theorem keep_enterReset {P : Area → Prop} {z : State} {s : State} {a_f : Nat} (h : Keeps P z s)
    (krings : P .rings := by assumption) (kdevCtl : P .devCtl := by assumption) :
    Keeps P z (enterReset s a_f) := by
  unfold enterReset
  repeat' (first | (with_reducible assumption) | (exact Or.inl (by assumption)) | (exact Or.inr rfl)
                 | (exact Or.inr ⟨rfl, rfl, rfl, rfl⟩) | (intro)
                 | (extract_lets +onlyGivenNames y; refine keep_cut (y := y) ?_ ?_; (focus (dsimp only [y]; clear y)); rotate_left; (focus (clear_value y; revert y; intro _ _)))
                 | (extract_lets +onlyGivenNames y; refine keep_cut1 (y := y) ?_ ?_; (focus (dsimp only [y]; clear y)); rotate_left; (focus (clear_value y; revert y; intro _ _)))
                 | (extract_lets +onlyGivenNames y; refine keep_cut2 (y := y) ?_ ?_; (focus (dsimp only [y]; clear y)); rotate_left; (focus (clear_value y; revert y; intro _ _)))
                 | (extract_lets +onlyGivenNames y; have q : (_ : _) → _ := y; clear q; dsimp only [y]; clear y)
                 | (extract_lets +onlyGivenNames y; clear_value y; revert y; intro _) | (with_reducible apply keep_setF)
                 | (with_reducible refine keep_ite ?_ ?_) | split | (dsimp only)
                 | (with_reducible refine keep_mk ?_ rfl rfl rfl rfl rfl rfl rfl rfl rfl ?_ ?_ ?_ ?_ ?_ ?_ ?_ ?_ ?_ ?_ ?_ ?_ ?_ ?_ ?_ ?_ ?_ ?_))

theorem keep_beginReset {P : Area → Prop} {z : State} {s : State} {a_j : Nat} {a_reason : Nat} {a_now : Bool}
    (h : Keeps P z s) (kplats : P .plats := by assumption) (kdests : P .dests := by assumption)
    (krings : P .rings := by assumption) (ksramUnits : P .sramUnits := by assumption)
    (khbmUnits : P .hbmUnits := by assumption) (kcodec : P .codec := by assumption) (kdma : P .dma := by assumption)
    (kfunctions : P .functions := by assumption) (kdevCtl : P .devCtl := by assumption) :
    Keeps P z (beginReset s a_j a_reason a_now) := by
  unfold beginReset
  repeat' (first | (with_reducible assumption) | (exact Or.inl (by assumption)) | (exact Or.inr rfl)
                 | (exact Or.inr ⟨rfl, rfl, rfl, rfl⟩) | (intro)
                 | (extract_lets +onlyGivenNames y; refine keep_cut (y := y) ?_ ?_; (focus (dsimp only [y]; clear y)); rotate_left; (focus (clear_value y; revert y; intro _ _)))
                 | (extract_lets +onlyGivenNames y; refine keep_cut1 (y := y) ?_ ?_; (focus (dsimp only [y]; clear y)); rotate_left; (focus (clear_value y; revert y; intro _ _)))
                 | (extract_lets +onlyGivenNames y; refine keep_cut2 (y := y) ?_ ?_; (focus (dsimp only [y]; clear y)); rotate_left; (focus (clear_value y; revert y; intro _ _)))
                 | (extract_lets +onlyGivenNames y; clear_value y; revert y; intro _) | (with_reducible apply keep_enterReset)
                 | (with_reducible apply keep_failLoad) | (with_reducible apply keep_squashQueued)
                 | (with_reducible apply keep_stopJobs) | (with_reducible apply keep_refreshReady)
                 | (with_reducible apply keep_squashRunning) | (with_reducible refine keep_ite ?_ ?_)
                 | (with_reducible apply keep_foldl) | (with_reducible apply keep_foldl1) | split | (dsimp only)
                 | (with_reducible refine keep_mk ?_ rfl rfl rfl rfl rfl rfl rfl rfl rfl ?_ ?_ ?_ ?_ ?_ ?_ ?_ ?_ ?_ ?_ ?_ ?_ ?_ ?_ ?_ ?_ ?_ ?_))

theorem keep_resetRing {P : Area → Prop} {z : State} {s : State} {a_n : Nat} (h : Keeps P z s)
    (krings : P .rings := by assumption) (khbmUnits : P .hbmUnits := by assumption) :
    Keeps P z (resetRing s a_n) := by
  unfold resetRing
  repeat' (first | (with_reducible assumption) | (intro)
                 | (extract_lets +onlyGivenNames y; refine keep_cut (y := y) ?_ ?_; (focus (dsimp only [y]; clear y)); rotate_left; (focus (clear_value y; revert y; intro _ _)))
                 | (extract_lets +onlyGivenNames y; refine keep_cut1 (y := y) ?_ ?_; (focus (dsimp only [y]; clear y)); rotate_left; (focus (clear_value y; revert y; intro _ _)))
                 | (extract_lets +onlyGivenNames y; refine keep_cut2 (y := y) ?_ ?_; (focus (dsimp only [y]; clear y)); rotate_left; (focus (clear_value y; revert y; intro _ _)))
                 | (extract_lets +onlyGivenNames y; clear_value y; revert y; intro _) | (with_reducible apply keep_setF)
                 | (with_reducible apply keep_cqDrop) | (with_reducible apply keep_modRing)
                 | (with_reducible refine keep_ite ?_ ?_) | split | (dsimp only))

theorem keep_resetRings {P : Area → Prop} {z : State} {s : State} {a_reason : Nat} {a_p : Nat → Bool} (h : Keeps P z s)
    (kfabric : P .fabric := by assumption) (kdests : P .dests := by assumption) (krings : P .rings := by assumption)
    (khbmUnits : P .hbmUnits := by assumption) (ktwins : P .twins := by assumption) :
    Keeps P z (resetRings s a_reason a_p) := by
  unfold resetRings
  repeat' (first | (with_reducible assumption) | (intro)
                 | (extract_lets +onlyGivenNames y; refine keep_cut (y := y) ?_ ?_; (focus (dsimp only [y]; clear y)); rotate_left; (focus (clear_value y; revert y; intro _ _)))
                 | (extract_lets +onlyGivenNames y; refine keep_cut1 (y := y) ?_ ?_; (focus (dsimp only [y]; clear y)); rotate_left; (focus (clear_value y; revert y; intro _ _)))
                 | (extract_lets +onlyGivenNames y; refine keep_cut2 (y := y) ?_ ?_; (focus (dsimp only [y]; clear y)); rotate_left; (focus (clear_value y; revert y; intro _ _)))
                 | (extract_lets +onlyGivenNames y; clear_value y; revert y; intro _) | (with_reducible apply keep_squash)
                 | (with_reducible apply keep_resetRing) | (with_reducible apply keep_foldl)
                 | (with_reducible apply keep_foldl1) | split | (dsimp only))

theorem keep_resetPlats {P : Area → Prop} {z : State} {s : State} {a_p : Nat → Bool} (h : Keeps P z s)
    (kbmk : P .bmk := by assumption) (kports : P .ports := by assumption) (kplats : P .plats := by assumption)
    (kfabric : P .fabric := by assumption) (kdests : P .dests := by assumption) (krings : P .rings := by assumption)
    (ksramUnits : P .sramUnits := by assumption) (khbmUnits : P .hbmUnits := by assumption)
    (ktwins : P .twins := by assumption) :
    Keeps P z (resetPlats s a_p) := by
  unfold resetPlats
  repeat' (first | (with_reducible assumption) | (intro) | (with_reducible apply keep_removePlat)
                 | (with_reducible apply keep_foldl) | (with_reducible apply keep_foldl1) | split | (dsimp only))

theorem keep_resetScrub {P : Area → Prop} {z : State} {s : State} {a_p : Nat → Bool} (h : Keeps P z s)
    (ktiles : P .tiles := by assumption) (ksram : P .sram := by assumption) (khbm : P .hbm := by assumption)
    (krings : P .rings := by assumption) (ksramUnits : P .sramUnits := by assumption)
    (khbmUnits : P .hbmUnits := by assumption) (ktwins : P .twins := by assumption) (klog : P .log := by assumption) :
    Keeps P z (resetScrub s a_p).1 := by
  unfold resetScrub
  repeat' (first | (with_reducible assumption) | (intro)
                 | (extract_lets +onlyGivenNames y; refine keep_cut (y := y) ?_ ?_; (focus (dsimp only [y]; clear y)); rotate_left; (focus (clear_value y; revert y; intro _ _)))
                 | (extract_lets +onlyGivenNames y; refine keep_cut1 (y := y) ?_ ?_; (focus (dsimp only [y]; clear y)); rotate_left; (focus (clear_value y; revert y; intro _ _)))
                 | (extract_lets +onlyGivenNames y; refine keep_cut2 (y := y) ?_ ?_; (focus (dsimp only [y]; clear y)); rotate_left; (focus (clear_value y; revert y; intro _ _)))
                 | (extract_lets +onlyGivenNames y; clear_value y; revert y; intro _) | (with_reducible apply keep_scrub)
                 | (with_reducible apply keep_foldl) | (with_reducible apply keep_foldl1) | split | (dsimp only))

theorem keep_resetReport {P : Area → Prop} {z : State} {s : State} {a_j : Nat} {a_x : Flr} (h : Keeps P z s)
    (krings : P .rings := by assumption) (kfunctions : P .functions := by assumption) :
    Keeps P z (resetReport s a_j a_x) := by
  unfold resetReport
  repeat' (first | (with_reducible assumption) | (exact Or.inl (by assumption)) | (exact Or.inr rfl)
                 | (exact Or.inr ⟨rfl, rfl, rfl, rfl⟩) | (intro)
                 | (extract_lets +onlyGivenNames y; refine keep_cut (y := y) ?_ ?_; (focus (dsimp only [y]; clear y)); rotate_left; (focus (clear_value y; revert y; intro _ _)))
                 | (extract_lets +onlyGivenNames y; refine keep_cut1 (y := y) ?_ ?_; (focus (dsimp only [y]; clear y)); rotate_left; (focus (clear_value y; revert y; intro _ _)))
                 | (extract_lets +onlyGivenNames y; refine keep_cut2 (y := y) ?_ ?_; (focus (dsimp only [y]; clear y)); rotate_left; (focus (clear_value y; revert y; intro _ _)))
                 | (extract_lets +onlyGivenNames y; clear_value y; revert y; intro _) | (with_reducible apply keep_refreshFn)
                 | (with_reducible apply keep_setF) | (with_reducible apply keep_refreshReady)
                 | (with_reducible apply keep_raise) | (with_reducible refine keep_ite ?_ ?_)
                 | (with_reducible apply keep_foldl) | (with_reducible apply keep_foldl1) | split | (dsimp only)
                 | (with_reducible refine keep_mk ?_ rfl rfl rfl rfl rfl rfl rfl rfl rfl ?_ ?_ ?_ ?_ ?_ ?_ ?_ ?_ ?_ ?_ ?_ ?_ ?_ ?_ ?_ ?_ ?_ ?_))

theorem keep_flrStepEnd {P : Area → Prop} {z : State} {s : State} {a_j : Nat} (h : Keeps P z s)
    (ktiles : P .tiles := by assumption) (ksram : P .sram := by assumption) (khbm : P .hbm := by assumption)
    (kbmk : P .bmk := by assumption) (kports : P .ports := by assumption) (kplats : P .plats := by assumption)
    (kfabric : P .fabric := by assumption) (kdests : P .dests := by assumption) (krings : P .rings := by assumption)
    (ksramUnits : P .sramUnits := by assumption) (khbmUnits : P .hbmUnits := by assumption)
    (kdma : P .dma := by assumption) (kfunctions : P .functions := by assumption) (ktwins : P .twins := by assumption)
    (klog : P .log := by assumption) :
    Keeps P z (flrStepEnd s a_j) := by
  unfold flrStepEnd
  repeat' (first | (with_reducible assumption) | (exact Or.inl (by assumption)) | (exact Or.inr rfl)
                 | (exact Or.inr ⟨rfl, rfl, rfl, rfl⟩) | (intro)
                 | (extract_lets +onlyGivenNames y; refine keep_cut (y := y) ?_ ?_; (focus (dsimp only [y]; clear y)); rotate_left; (focus (clear_value y; revert y; intro _ _)))
                 | (extract_lets +onlyGivenNames y; refine keep_cut1 (y := y) ?_ ?_; (focus (dsimp only [y]; clear y)); rotate_left; (focus (clear_value y; revert y; intro _ _)))
                 | (extract_lets +onlyGivenNames y; refine keep_cut2 (y := y) ?_ ?_; (focus (dsimp only [y]; clear y)); rotate_left; (focus (clear_value y; revert y; intro _ _)))
                 | (extract_lets +onlyGivenNames y; have q : (_ : _) → _ := y; clear q; dsimp only [y]; clear y)
                 | (extract_lets +onlyGivenNames y; clear_value y; revert y; intro _) | (with_reducible apply keep_modFlr)
                 | (with_reducible apply keep_squashRunning) | (with_reducible apply keep_resetRings)
                 | (with_reducible apply keep_resetPlats) | (with_reducible apply keep_resetScrub)
                 | (with_reducible apply keep_resetReport) | (with_reducible refine keep_ite ?_ ?_) | split | (dsimp only)
                 | (with_reducible refine keep_mk ?_ rfl rfl rfl rfl rfl rfl rfl rfl rfl ?_ ?_ ?_ ?_ ?_ ?_ ?_ ?_ ?_ ?_ ?_ ?_ ?_ ?_ ?_ ?_ ?_ ?_))

theorem keep_execFlrStepEnd {P : Area → Prop} {z : State} {a_j : Nat} {s : State} (h : Keeps P z s)
    (ktiles : P .tiles := by assumption) (ksram : P .sram := by assumption) (khbm : P .hbm := by assumption)
    (kbmk : P .bmk := by assumption) (kports : P .ports := by assumption) (kplats : P .plats := by assumption)
    (kfabric : P .fabric := by assumption) (kdests : P .dests := by assumption) (krings : P .rings := by assumption)
    (ksramUnits : P .sramUnits := by assumption) (khbmUnits : P .hbmUnits := by assumption)
    (kdma : P .dma := by assumption) (kfunctions : P .functions := by assumption) (ktwins : P .twins := by assumption)
    (klog : P .log := by assumption) :
    ∀ t, execFlrStepEnd a_j s = .next t → Keeps P z t := by
  unfold execFlrStepEnd; intro t e; injection e with e; subst e
  repeat' (first | (with_reducible assumption) | (intro) | (with_reducible apply keep_flrStepEnd) | split | (dsimp only))

theorem keep_execFunctionLevelReset {P : Area → Prop} {z : State} {a_f : Nat} {s : State} (h : Keeps P z s)
    (kplats : P .plats := by assumption) (kdests : P .dests := by assumption) (krings : P .rings := by assumption)
    (ksramUnits : P .sramUnits := by assumption) (khbmUnits : P .hbmUnits := by assumption)
    (kcodec : P .codec := by assumption) (kdma : P .dma := by assumption) (kfunctions : P .functions := by assumption)
    (kdevCtl : P .devCtl := by assumption) :
    ∀ t, execFunctionLevelReset a_f s = .next t → Keeps P z t := by
  unfold execFunctionLevelReset; intro t e; injection e with e; subst e
  repeat' (first | (with_reducible assumption) | (intro) | (with_reducible apply keep_beginReset)
                 | (with_reducible refine keep_ite ?_ ?_) | split | (dsimp only))

theorem keep_execPfFunctionLevelReset {P : Area → Prop} {z : State} {a_pf : Nat} {s : State} (h : Keeps P z s)
    (kplats : P .plats := by assumption) (kdests : P .dests := by assumption) (krings : P .rings := by assumption)
    (ksramUnits : P .sramUnits := by assumption) (khbmUnits : P .hbmUnits := by assumption)
    (kcodec : P .codec := by assumption) (kdma : P .dma := by assumption) (kfunctions : P .functions := by assumption)
    (kdevCtl : P .devCtl := by assumption) :
    ∀ t, execPfFunctionLevelReset a_pf s = .next t → Keeps P z t := by
  unfold execPfFunctionLevelReset; intro t e; injection e with e; subst e
  repeat' (first | (with_reducible assumption) | (intro) | (with_reducible apply keep_beginReset)
                 | (with_reducible refine keep_ite ?_ ?_) | split | (dsimp only))

theorem keep_vfEnable {P : Area → Prop} {z : State} {s : State} {a_pf : Nat} {a_num : Nat} (h : Keeps P z s)
    (kplats : P .plats := by assumption) (kdests : P .dests := by assumption) (krings : P .rings := by assumption)
    (ksramUnits : P .sramUnits := by assumption) (khbmUnits : P .hbmUnits := by assumption)
    (kcodec : P .codec := by assumption) (kdma : P .dma := by assumption) (kfunctions : P .functions := by assumption)
    (kdevCtl : P .devCtl := by assumption) :
    Keeps P z (vfEnable s a_pf a_num) := by
  unfold vfEnable
  repeat' (first | (with_reducible assumption) | (exact Or.inl (by assumption)) | (exact Or.inr rfl)
                 | (exact Or.inr ⟨rfl, rfl, rfl, rfl⟩) | (intro)
                 | (extract_lets +onlyGivenNames y; refine keep_cut (y := y) ?_ ?_; (focus (dsimp only [y]; clear y)); rotate_left; (focus (clear_value y; revert y; intro _ _)))
                 | (extract_lets +onlyGivenNames y; refine keep_cut1 (y := y) ?_ ?_; (focus (dsimp only [y]; clear y)); rotate_left; (focus (clear_value y; revert y; intro _ _)))
                 | (extract_lets +onlyGivenNames y; refine keep_cut2 (y := y) ?_ ?_; (focus (dsimp only [y]; clear y)); rotate_left; (focus (clear_value y; revert y; intro _ _)))
                 | (extract_lets +onlyGivenNames y; clear_value y; revert y; intro _) | (with_reducible apply keep_beginReset)
                 | (with_reducible apply keep_refreshFn) | (with_reducible refine keep_ite ?_ ?_)
                 | (with_reducible apply keep_foldl) | (with_reducible apply keep_foldl1) | split | (dsimp only)
                 | (with_reducible refine keep_mk ?_ rfl rfl rfl rfl rfl rfl rfl rfl rfl ?_ ?_ ?_ ?_ ?_ ?_ ?_ ?_ ?_ ?_ ?_ ?_ ?_ ?_ ?_ ?_ ?_ ?_))

theorem keep_execVfEnable {P : Area → Prop} {z : State} {a_pf : Nat} {a_num : Nat} {s : State} (h : Keeps P z s)
    (kplats : P .plats := by assumption) (kdests : P .dests := by assumption) (krings : P .rings := by assumption)
    (ksramUnits : P .sramUnits := by assumption) (khbmUnits : P .hbmUnits := by assumption)
    (kcodec : P .codec := by assumption) (kdma : P .dma := by assumption) (kfunctions : P .functions := by assumption)
    (kdevCtl : P .devCtl := by assumption) :
    ∀ t, execVfEnable a_pf a_num s = .next t → Keeps P z t := by
  unfold execVfEnable; intro t e; injection e with e; subst e
  repeat' (first | (with_reducible assumption) | (intro) | (with_reducible apply keep_vfEnable) | split | (dsimp only))

end Sys2Proof.Machine
end

