-- ==== Sys2Proof/Laws/KeepIsolate.lean ====
section
/-! SUPPORT. What the operations of Machine/Isolate.lean keep (Laws/Keep.lean), one lemma per operation. -/

set_option linter.tactic.unusedName false
set_option linter.all false
set_option Elab.async false

namespace Sys2Proof.Machine

theorem keep_portLost {P : Area → Prop} {z : State} {s : State} {a_p : Nat} (h : Keeps P z s)
    (kplats : P .plats := by assumption) (kdests : P .dests := by assumption) (krings : P .rings := by assumption)
    (ksramUnits : P .sramUnits := by assumption) (khbmUnits : P .hbmUnits := by assumption)
    (kcodec : P .codec := by assumption) (kdma : P .dma := by assumption) (kfunctions : P .functions := by assumption)
    (ktwins : P .twins := by assumption) (kdevCtl : P .devCtl := by assumption) (klog : P .log := by assumption) :
    Keeps P z (portLost s a_p) := by
  unfold portLost
  repeat' (first | (with_reducible assumption) | (exact Or.inl (by assumption)) | (exact Or.inr rfl)
                 | (exact Or.inr ⟨rfl, rfl, rfl, rfl⟩) | (intro)
                 | (extract_lets +onlyGivenNames y; refine keep_cut (y := y) ?_ ?_; (focus (dsimp only [y]; clear y)); rotate_left; (focus (clear_value y; revert y; intro _ _)))
                 | (extract_lets +onlyGivenNames y; refine keep_cut1 (y := y) ?_ ?_; (focus (dsimp only [y]; clear y)); rotate_left; (focus (clear_value y; revert y; intro _ _)))
                 | (extract_lets +onlyGivenNames y; refine keep_cut2 (y := y) ?_ ?_; (focus (dsimp only [y]; clear y)); rotate_left; (focus (clear_value y; revert y; intro _ _)))
                 | (extract_lets +onlyGivenNames y; clear_value y; revert y; intro _) | (with_reducible apply keep_satF)
                 | (with_reducible apply keep_setF) | (with_reducible apply keep_beginReset) | (with_reducible apply keep_logC)
                 | (with_reducible apply keep_raise) | split | (dsimp only)
                 | (with_reducible refine keep_mk ?_ rfl rfl rfl rfl rfl rfl rfl rfl rfl ?_ ?_ ?_ ?_ ?_ ?_ ?_ ?_ ?_ ?_ ?_ ?_ ?_ ?_ ?_ ?_ ?_ ?_))

theorem keep_hostPortLoss {P : Area → Prop} {z : State} {s : State} {a_p : Nat} (h : Keeps P z s)
    (kplats : P .plats := by assumption) (kdests : P .dests := by assumption) (krings : P .rings := by assumption)
    (ksramUnits : P .sramUnits := by assumption) (khbmUnits : P .hbmUnits := by assumption)
    (kcodec : P .codec := by assumption) (kdma : P .dma := by assumption) (kfunctions : P .functions := by assumption)
    (ktwins : P .twins := by assumption) (kdevCtl : P .devCtl := by assumption) (klog : P .log := by assumption) :
    Keeps P z (hostPortLoss s a_p) := by
  unfold hostPortLoss
  repeat' (first | (with_reducible assumption) | (intro)
                 | (extract_lets +onlyGivenNames y; refine keep_cut (y := y) ?_ ?_; (focus (dsimp only [y]; clear y)); rotate_left; (focus (clear_value y; revert y; intro _ _)))
                 | (extract_lets +onlyGivenNames y; refine keep_cut1 (y := y) ?_ ?_; (focus (dsimp only [y]; clear y)); rotate_left; (focus (clear_value y; revert y; intro _ _)))
                 | (extract_lets +onlyGivenNames y; refine keep_cut2 (y := y) ?_ ?_; (focus (dsimp only [y]; clear y)); rotate_left; (focus (clear_value y; revert y; intro _ _)))
                 | (extract_lets +onlyGivenNames y; clear_value y; revert y; intro _) | (with_reducible apply keep_setF)
                 | (with_reducible apply keep_refreshFn) | (with_reducible apply keep_portLost)
                 | (with_reducible refine keep_ite ?_ ?_) | split | (dsimp only))

theorem keep_execHostPortLoss {P : Area → Prop} {z : State} {a_p : Nat} {s : State} (h : Keeps P z s)
    (kplats : P .plats := by assumption) (kdests : P .dests := by assumption) (krings : P .rings := by assumption)
    (ksramUnits : P .sramUnits := by assumption) (khbmUnits : P .hbmUnits := by assumption)
    (kcodec : P .codec := by assumption) (kdma : P .dma := by assumption) (kfunctions : P .functions := by assumption)
    (ktwins : P .twins := by assumption) (kdevCtl : P .devCtl := by assumption) (klog : P .log := by assumption) :
    ∀ t, execHostPortLoss a_p s = .next t → Keeps P z t := by
  unfold execHostPortLoss; intro t e; injection e with e; subst e
  repeat' (first | (with_reducible assumption) | (intro) | (with_reducible apply keep_hostPortLoss) | split | (dsimp only))

theorem keep_dropInvRequests {P : Area → Prop} {z : State} {s : State} {a_hit : Nat → Bool} (h : Keeps P z s)
    (kfabric : P .fabric := by assumption) :
    Keeps P z (dropInvRequests s a_hit) := by
  unfold dropInvRequests
  repeat' (first | (with_reducible assumption) | (exact Or.inl (by assumption)) | (exact Or.inr rfl)
                 | (exact Or.inr ⟨rfl, rfl, rfl, rfl⟩) | (intro)
                 | (extract_lets +onlyGivenNames y; refine keep_cut (y := y) ?_ ?_; (focus (dsimp only [y]; clear y)); rotate_left; (focus (clear_value y; revert y; intro _ _)))
                 | (extract_lets +onlyGivenNames y; refine keep_cut1 (y := y) ?_ ?_; (focus (dsimp only [y]; clear y)); rotate_left; (focus (clear_value y; revert y; intro _ _)))
                 | (extract_lets +onlyGivenNames y; refine keep_cut2 (y := y) ?_ ?_; (focus (dsimp only [y]; clear y)); rotate_left; (focus (clear_value y; revert y; intro _ _)))
                 | (extract_lets +onlyGivenNames y; have q : (_ : _) → _ := y; clear q; dsimp only [y]; clear y)
                 | (extract_lets +onlyGivenNames y; clear_value y; revert y; intro _) | (with_reducible apply keep_setOut)
                 | (with_reducible apply keep_foldl) | (with_reducible apply keep_foldl1) | split | (dsimp only)
                 | (with_reducible refine keep_mk ?_ rfl rfl rfl rfl rfl rfl rfl rfl rfl ?_ ?_ ?_ ?_ ?_ ?_ ?_ ?_ ?_ ?_ ?_ ?_ ?_ ?_ ?_ ?_ ?_ ?_))

theorem keep_failContexts {P : Area → Prop} {z : State} {s : State} {a_hit : Nat → Bool} {a_status : Nat}
    {a_reason : Nat} (h : Keeps P z s) (kplats : P .plats := by assumption) (kfabric : P .fabric := by assumption)
    (kdests : P .dests := by assumption) (krings : P .rings := by assumption) (ktwins : P .twins := by assumption)
    (klog : P .log := by assumption) :
    Keeps P z (failContexts s a_hit a_status a_reason) := by
  unfold failContexts
  repeat' (first | (with_reducible assumption) | (exact Or.inl (by assumption)) | (exact Or.inr rfl)
                 | (exact Or.inr ⟨rfl, rfl, rfl, rfl⟩) | (intro)
                 | (extract_lets +onlyGivenNames y; refine keep_cut (y := y) ?_ ?_; (focus (dsimp only [y]; clear y)); rotate_left; (focus (clear_value y; revert y; intro _ _)))
                 | (extract_lets +onlyGivenNames y; refine keep_cut1 (y := y) ?_ ?_; (focus (dsimp only [y]; clear y)); rotate_left; (focus (clear_value y; revert y; intro _ _)))
                 | (extract_lets +onlyGivenNames y; refine keep_cut2 (y := y) ?_ ?_; (focus (dsimp only [y]; clear y)); rotate_left; (focus (clear_value y; revert y; intro _ _)))
                 | (extract_lets +onlyGivenNames y; have q : (_ : _) → _ := y; clear q; dsimp only [y]; clear y)
                 | (extract_lets +onlyGivenNames y; clear_value y; revert y; intro _) | (with_reducible apply keep_markFail)
                 | (with_reducible apply keep_dropInvRequests) | (with_reducible apply keep_purgeTravel)
                 | (with_reducible apply keep_purgeTiles) | (with_reducible apply keep_withdrawCert)
                 | (with_reducible apply keep_abortInvs) | (with_reducible apply keep_foldl)
                 | (with_reducible apply keep_foldl1) | split | (dsimp only)
                 | (with_reducible refine keep_mk ?_ rfl rfl rfl rfl rfl rfl rfl rfl rfl ?_ ?_ ?_ ?_ ?_ ?_ ?_ ?_ ?_ ?_ ?_ ?_ ?_ ?_ ?_ ?_ ?_ ?_))

theorem keep_portsDown {P : Area → Prop} {z : State} {s : State} {a_d : Nat} (h : Keeps P z s)
    (kbmk : P .bmk := by assumption) (kports : P .ports := by assumption) (kfabric : P .fabric := by assumption)
    (krings : P .rings := by assumption) (ktwins : P .twins := by assumption) (klog : P .log := by assumption) :
    Keeps P z (portsDown s a_d) := by
  unfold portsDown
  repeat' (first | (with_reducible assumption) | (intro) | (with_reducible apply keep_disablePort)
                 | (with_reducible apply keep_foldl) | (with_reducible apply keep_foldl1) | split | (dsimp only))

theorem keep_isolate {P : Area → Prop} {z : State} {s : State} {a_d : Nat} (h : Keeps P z s)
    (kbmk : P .bmk := by assumption) (kports : P .ports := by assumption) (kfabric : P .fabric := by assumption)
    (kdests : P .dests := by assumption) (krings : P .rings := by assumption)
    (ksramUnits : P .sramUnits := by assumption) (khbmUnits : P .hbmUnits := by assumption)
    (kcodec : P .codec := by assumption) (kdma : P .dma := by assumption) (ktwins : P .twins := by assumption)
    (kshadow : P .shadow := by assumption) (klog : P .log := by assumption) :
    Keeps P z (isolate s a_d) := by
  unfold isolate
  repeat' (first | (with_reducible assumption) | (intro)
                 | (extract_lets +onlyGivenNames y; refine keep_cut (y := y) ?_ ?_; (focus (dsimp only [y]; clear y)); rotate_left; (focus (clear_value y; revert y; intro _ _)))
                 | (extract_lets +onlyGivenNames y; refine keep_cut1 (y := y) ?_ ?_; (focus (dsimp only [y]; clear y)); rotate_left; (focus (clear_value y; revert y; intro _ _)))
                 | (extract_lets +onlyGivenNames y; refine keep_cut2 (y := y) ?_ ?_; (focus (dsimp only [y]; clear y)); rotate_left; (focus (clear_value y; revert y; intro _ _)))
                 | (extract_lets +onlyGivenNames y; clear_value y; revert y; intro _) | (with_reducible apply keep_portsDown)
                 | (with_reducible apply keep_resetDie) | (with_reducible apply keep_setOut) | (with_reducible apply keep_setF)
                 | (with_reducible refine keep_ite ?_ ?_) | (with_reducible apply keep_foldl)
                 | (with_reducible apply keep_foldl1) | split | (dsimp only))

theorem keep_keepReplicas {P : Area → Prop} {z : State} {s : State} {a_d : Nat} {a_x : Nat} (h : Keeps P z s)
    (kfabric : P .fabric := by assumption) :
    Keeps P z (keepReplicas s a_d a_x) := by
  unfold keepReplicas
  repeat' (first | (with_reducible assumption) | (exact Or.inl (by assumption)) | (exact Or.inr rfl)
                 | (exact Or.inr ⟨rfl, rfl, rfl, rfl⟩) | (intro)
                 | (extract_lets +onlyGivenNames y; refine keep_cut (y := y) ?_ ?_; (focus (dsimp only [y]; clear y)); rotate_left; (focus (clear_value y; revert y; intro _ _)))
                 | (extract_lets +onlyGivenNames y; refine keep_cut1 (y := y) ?_ ?_; (focus (dsimp only [y]; clear y)); rotate_left; (focus (clear_value y; revert y; intro _ _)))
                 | (extract_lets +onlyGivenNames y; refine keep_cut2 (y := y) ?_ ?_; (focus (dsimp only [y]; clear y)); rotate_left; (focus (clear_value y; revert y; intro _ _)))
                 | (extract_lets +onlyGivenNames y; clear_value y; revert y; intro _) | (with_reducible apply keep_chainPut)
                 | (with_reducible refine keep_ite ?_ ?_) | (with_reducible apply keep_foldl)
                 | (with_reducible apply keep_foldl1) | split | (dsimp only)
                 | (with_reducible refine keep_mk ?_ rfl rfl rfl rfl rfl rfl rfl rfl rfl ?_ ?_ ?_ ?_ ?_ ?_ ?_ ?_ ?_ ?_ ?_ ?_ ?_ ?_ ?_ ?_ ?_ ?_))

theorem keep_keepGate {P : Area → Prop} {z : State} {s : State} {a_k : Nat} {a_x : Nat} (h : Keeps P z s)
    (ktwins : P .twins := by assumption) :
    Keeps P z (keepGate s a_k a_x) := by
  unfold keepGate
  repeat' (first | (with_reducible assumption) | (exact Or.inl (by assumption)) | (exact Or.inr rfl)
                 | (exact Or.inr ⟨rfl, rfl, rfl, rfl⟩) | (intro)
                 | (extract_lets +onlyGivenNames y; refine keep_cut (y := y) ?_ ?_; (focus (dsimp only [y]; clear y)); rotate_left; (focus (clear_value y; revert y; intro _ _)))
                 | (extract_lets +onlyGivenNames y; refine keep_cut1 (y := y) ?_ ?_; (focus (dsimp only [y]; clear y)); rotate_left; (focus (clear_value y; revert y; intro _ _)))
                 | (extract_lets +onlyGivenNames y; refine keep_cut2 (y := y) ?_ ?_; (focus (dsimp only [y]; clear y)); rotate_left; (focus (clear_value y; revert y; intro _ _)))
                 | (extract_lets +onlyGivenNames y; clear_value y; revert y; intro _) | (with_reducible refine keep_ite ?_ ?_)
                 | split | (dsimp only)
                 | (with_reducible refine keep_mk ?_ rfl rfl rfl rfl rfl rfl rfl rfl rfl ?_ ?_ ?_ ?_ ?_ ?_ ?_ ?_ ?_ ?_ ?_ ?_ ?_ ?_ ?_ ?_ ?_ ?_))

theorem keep_portOfDie {P : Area → Prop} {z : State} {s : State} {a_d : Nat} (h : Keeps P z s)
    (kplats : P .plats := by assumption) (kdests : P .dests := by assumption) (krings : P .rings := by assumption)
    (ksramUnits : P .sramUnits := by assumption) (khbmUnits : P .hbmUnits := by assumption)
    (kcodec : P .codec := by assumption) (kdma : P .dma := by assumption) (kfunctions : P .functions := by assumption)
    (ktwins : P .twins := by assumption) (kdevCtl : P .devCtl := by assumption) (klog : P .log := by assumption) :
    Keeps P z (portOfDie s a_d) := by
  unfold portOfDie
  repeat' (first | (with_reducible assumption) | (intro) | (with_reducible apply keep_portLost)
                 | (with_reducible refine keep_ite ?_ ?_) | split | (dsimp only))

theorem keep_failDie {P : Area → Prop} {z : State} {s : State} {a_d : Nat} {a_cause : Nat} (h : Keeps P z s)
    (kbmk : P .bmk := by assumption) (kports : P .ports := by assumption) (kplats : P .plats := by assumption)
    (kfabric : P .fabric := by assumption) (kdests : P .dests := by assumption) (krings : P .rings := by assumption)
    (ksramUnits : P .sramUnits := by assumption) (khbmUnits : P .hbmUnits := by assumption)
    (kcodec : P .codec := by assumption) (kdma : P .dma := by assumption) (kfunctions : P .functions := by assumption)
    (ktwins : P .twins := by assumption) (kdevCtl : P .devCtl := by assumption) (kshadow : P .shadow := by assumption)
    (klog : P .log := by assumption) :
    Keeps P z (failDie s a_d a_cause) := by
  unfold failDie
  repeat' (first | (with_reducible assumption) | (exact Or.inl (by assumption)) | (exact Or.inr rfl)
                 | (exact Or.inr ⟨rfl, rfl, rfl, rfl⟩) | (intro)
                 | (extract_lets +onlyGivenNames y; refine keep_cut (y := y) ?_ ?_; (focus (dsimp only [y]; clear y)); rotate_left; (focus (clear_value y; revert y; intro _ _)))
                 | (extract_lets +onlyGivenNames y; refine keep_cut1 (y := y) ?_ ?_; (focus (dsimp only [y]; clear y)); rotate_left; (focus (clear_value y; revert y; intro _ _)))
                 | (extract_lets +onlyGivenNames y; refine keep_cut2 (y := y) ?_ ?_; (focus (dsimp only [y]; clear y)); rotate_left; (focus (clear_value y; revert y; intro _ _)))
                 | (extract_lets +onlyGivenNames y; clear_value y; revert y; intro _) | (with_reducible apply keep_isolate)
                 | (with_reducible apply keep_keepGate) | (with_reducible apply keep_keepReplicas)
                 | (with_reducible apply keep_setF) | (with_reducible apply keep_raise) | (with_reducible apply keep_logErr)
                 | (with_reducible apply keep_portOfDie) | (with_reducible apply keep_passPin)
                 | (with_reducible refine keep_ite ?_ ?_) | (with_reducible apply keep_foldl)
                 | (with_reducible apply keep_foldl1) | split | (dsimp only)
                 | (with_reducible refine keep_mk ?_ rfl rfl rfl rfl rfl rfl rfl rfl rfl ?_ ?_ ?_ ?_ ?_ ?_ ?_ ?_ ?_ ?_ ?_ ?_ ?_ ?_ ?_ ?_ ?_ ?_))

theorem keep_pairLost {P : Area → Prop} {z : State} {s : State} {a_k : Nat} (h : Keeps P z s)
    (kbmk : P .bmk := by assumption) (kports : P .ports := by assumption) (kplats : P .plats := by assumption)
    (kfabric : P .fabric := by assumption) (kdests : P .dests := by assumption) (krings : P .rings := by assumption)
    (ksramUnits : P .sramUnits := by assumption) (khbmUnits : P .hbmUnits := by assumption)
    (kcodec : P .codec := by assumption) (kdma : P .dma := by assumption) (kfunctions : P .functions := by assumption)
    (ktwins : P .twins := by assumption) (kdevCtl : P .devCtl := by assumption) (kshadow : P .shadow := by assumption)
    (klog : P .log := by assumption) :
    Keeps P z (pairLost s a_k) := by
  unfold pairLost
  repeat' (first | (with_reducible assumption) | (intro)
                 | (extract_lets +onlyGivenNames y; refine keep_cut (y := y) ?_ ?_; (focus (dsimp only [y]; clear y)); rotate_left; (focus (clear_value y; revert y; intro _ _)))
                 | (extract_lets +onlyGivenNames y; refine keep_cut1 (y := y) ?_ ?_; (focus (dsimp only [y]; clear y)); rotate_left; (focus (clear_value y; revert y; intro _ _)))
                 | (extract_lets +onlyGivenNames y; refine keep_cut2 (y := y) ?_ ?_; (focus (dsimp only [y]; clear y)); rotate_left; (focus (clear_value y; revert y; intro _ _)))
                 | (extract_lets +onlyGivenNames y; clear_value y; revert y; intro _) | (with_reducible apply keep_failContexts)
                 | (with_reducible apply keep_isolate) | (with_reducible apply keep_setF) | (with_reducible apply keep_raise)
                 | (with_reducible apply keep_logErr) | (with_reducible apply keep_portOfDie)
                 | (with_reducible apply keep_foldl) | (with_reducible apply keep_foldl1) | split | (dsimp only))

theorem keep_syncStops {P : Area → Prop} {z : State} {s : State} {a_k : Nat} (h : Keeps P z s) :
    Keeps P z (syncStops s a_k) := by
  unfold syncStops
  repeat' (first | (with_reducible assumption) | (intro) | (with_reducible apply keep_setF)
                 | (with_reducible refine keep_ite ?_ ?_) | split | (dsimp only))

theorem keep_hostDieHalt {P : Area → Prop} {z : State} {s : State} {a_die : Nat} (h : Keeps P z s)
    (kdests : P .dests := by assumption) (krings : P .rings := by assumption) (ktwins : P .twins := by assumption)
    (klog : P .log := by assumption) :
    Keeps P z (hostDieHalt s a_die) := by
  unfold hostDieHalt
  repeat' (first | (with_reducible assumption) | (exact fun _ h => h) | (intro) | (with_reducible apply keep_logErr)
                 | (with_reducible apply keep_haltPackage) | split | (dsimp only))

theorem keep_fatalActs {P : Area → Prop} {z : State} {s : State} {a_d : Nat} (h : Keeps P z s)
    (kbmk : P .bmk := by assumption) (kports : P .ports := by assumption) (kplats : P .plats := by assumption)
    (kfabric : P .fabric := by assumption) (kdests : P .dests := by assumption) (krings : P .rings := by assumption)
    (ksramUnits : P .sramUnits := by assumption) (khbmUnits : P .hbmUnits := by assumption)
    (kcodec : P .codec := by assumption) (kdma : P .dma := by assumption) (kfunctions : P .functions := by assumption)
    (ktwins : P .twins := by assumption) (kdevCtl : P .devCtl := by assumption) (kshadow : P .shadow := by assumption)
    (klog : P .log := by assumption) :
    Keeps P z (fatalActs s a_d) := by
  unfold fatalActs
  repeat' (first | (with_reducible assumption) | (intro)
                 | (extract_lets +onlyGivenNames y; refine keep_cut (y := y) ?_ ?_; (focus (dsimp only [y]; clear y)); rotate_left; (focus (clear_value y; revert y; intro _ _)))
                 | (extract_lets +onlyGivenNames y; refine keep_cut1 (y := y) ?_ ?_; (focus (dsimp only [y]; clear y)); rotate_left; (focus (clear_value y; revert y; intro _ _)))
                 | (extract_lets +onlyGivenNames y; refine keep_cut2 (y := y) ?_ ?_; (focus (dsimp only [y]; clear y)); rotate_left; (focus (clear_value y; revert y; intro _ _)))
                 | (extract_lets +onlyGivenNames y; clear_value y; revert y; intro _) | (with_reducible apply keep_failDie)
                 | (with_reducible apply keep_pairLost) | (with_reducible apply keep_hostDieHalt)
                 | (with_reducible apply keep_syncStops) | (with_reducible apply keep_isolate)
                 | (with_reducible apply keep_failContexts) | (with_reducible refine keep_ite ?_ ?_) | split | (dsimp only))

theorem keep_fatal {P : Area → Prop} {z : State} {s : State} {a_d : Nat} {a_reason : Nat} {a_inst : Nat} {a_detail : Nat}
    (h : Keeps P z s) (kbmk : P .bmk := by assumption) (kports : P .ports := by assumption)
    (kplats : P .plats := by assumption) (kfabric : P .fabric := by assumption) (kdests : P .dests := by assumption)
    (krings : P .rings := by assumption) (ksramUnits : P .sramUnits := by assumption)
    (khbmUnits : P .hbmUnits := by assumption) (kcodec : P .codec := by assumption) (kdma : P .dma := by assumption)
    (kfunctions : P .functions := by assumption) (ktwins : P .twins := by assumption)
    (kdevCtl : P .devCtl := by assumption) (kshadow : P .shadow := by assumption) (klog : P .log := by assumption) :
    Keeps P z (fatal s a_d a_reason a_inst a_detail) := by
  unfold fatal
  repeat' (first | (with_reducible assumption) | (intro) | (with_reducible apply keep_fatalActs)
                 | (with_reducible apply keep_logErr) | split | (dsimp only))

theorem keep_cacheLookup {P : Area → Prop} {z : State} {s : State} {a_d : Nat} {a_parity : Nat} (h : Keeps P z s)
    (khbm : P .hbm := by assumption) (kbmk : P .bmk := by assumption) (kports : P .ports := by assumption)
    (kplats : P .plats := by assumption) (kfabric : P .fabric := by assumption) (kdests : P .dests := by assumption)
    (krings : P .rings := by assumption) (ksramUnits : P .sramUnits := by assumption)
    (khbmUnits : P .hbmUnits := by assumption) (kcodec : P .codec := by assumption) (kdma : P .dma := by assumption)
    (kfunctions : P .functions := by assumption) (ktwins : P .twins := by assumption)
    (kdevCtl : P .devCtl := by assumption) (kshadow : P .shadow := by assumption) (klog : P .log := by assumption) :
    Keeps P z (cacheLookup s a_d a_parity) := by
  unfold cacheLookup
  repeat' (first | (with_reducible assumption) | (intro)
                 | (extract_lets +onlyGivenNames y; refine keep_cut (y := y) ?_ ?_; (focus (dsimp only [y]; clear y)); rotate_left; (focus (clear_value y; revert y; intro _ _)))
                 | (extract_lets +onlyGivenNames y; refine keep_cut1 (y := y) ?_ ?_; (focus (dsimp only [y]; clear y)); rotate_left; (focus (clear_value y; revert y; intro _ _)))
                 | (extract_lets +onlyGivenNames y; refine keep_cut2 (y := y) ?_ ?_; (focus (dsimp only [y]; clear y)); rotate_left; (focus (clear_value y; revert y; intro _ _)))
                 | (extract_lets +onlyGivenNames y; clear_value y; revert y; intro _) | (with_reducible apply keep_lookupParity)
                 | (with_reducible apply keep_fatal) | (with_reducible refine keep_ite ?_ ?_) | split | (dsimp only))

theorem keep_execCacheLookup {P : Area → Prop} {z : State} {a_d : Nat} {a_parity : Nat} {s : State} (h : Keeps P z s)
    (khbm : P .hbm := by assumption) (kbmk : P .bmk := by assumption) (kports : P .ports := by assumption)
    (kplats : P .plats := by assumption) (kfabric : P .fabric := by assumption) (kdests : P .dests := by assumption)
    (krings : P .rings := by assumption) (ksramUnits : P .sramUnits := by assumption)
    (khbmUnits : P .hbmUnits := by assumption) (kcodec : P .codec := by assumption) (kdma : P .dma := by assumption)
    (kfunctions : P .functions := by assumption) (ktwins : P .twins := by assumption)
    (kdevCtl : P .devCtl := by assumption) (kshadow : P .shadow := by assumption) (klog : P .log := by assumption) :
    ∀ t, execCacheLookup a_d a_parity s = .next t → Keeps P z t := by
  unfold execCacheLookup; intro t e; injection e with e; subst e
  repeat' (first | (with_reducible assumption) | (intro) | (with_reducible apply keep_cacheLookup) | split | (dsimp only))

theorem keep_execControlStateParity {P : Area → Prop} {z : State} {a_d : Nat} {s : State} (h : Keeps P z s)
    (kbmk : P .bmk := by assumption) (kports : P .ports := by assumption) (kplats : P .plats := by assumption)
    (kfabric : P .fabric := by assumption) (kdests : P .dests := by assumption) (krings : P .rings := by assumption)
    (ksramUnits : P .sramUnits := by assumption) (khbmUnits : P .hbmUnits := by assumption)
    (kcodec : P .codec := by assumption) (kdma : P .dma := by assumption) (kfunctions : P .functions := by assumption)
    (ktwins : P .twins := by assumption) (kdevCtl : P .devCtl := by assumption) (kshadow : P .shadow := by assumption)
    (klog : P .log := by assumption) :
    ∀ t, execControlStateParity a_d s = .next t → Keeps P z t := by
  unfold execControlStateParity; intro t e; injection e with e; subst e
  repeat' (first | (with_reducible assumption) | (intro) | (with_reducible apply keep_fatal)
                 | (with_reducible refine keep_ite ?_ ?_) | split | (dsimp only))

theorem keep_heartbeatTimeout {P : Area → Prop} {z : State} {s : State} {a_d : Nat} (h : Keeps P z s)
    (kbmk : P .bmk := by assumption) (kports : P .ports := by assumption) (kplats : P .plats := by assumption)
    (kfabric : P .fabric := by assumption) (kdests : P .dests := by assumption) (krings : P .rings := by assumption)
    (ksramUnits : P .sramUnits := by assumption) (khbmUnits : P .hbmUnits := by assumption)
    (kcodec : P .codec := by assumption) (kdma : P .dma := by assumption) (kfunctions : P .functions := by assumption)
    (ktwins : P .twins := by assumption) (kdevCtl : P .devCtl := by assumption) (kshadow : P .shadow := by assumption)
    (klog : P .log := by assumption) :
    Keeps P z (heartbeatTimeout s a_d) := by
  unfold heartbeatTimeout
  repeat' (first | (with_reducible assumption) | (intro) | (with_reducible apply keep_failDie)
                 | (with_reducible apply keep_pairLost) | (with_reducible refine keep_ite ?_ ?_) | split | (dsimp only))

theorem keep_execHeartbeatTimeout {P : Area → Prop} {z : State} {a_d : Nat} {s : State} (h : Keeps P z s)
    (kbmk : P .bmk := by assumption) (kports : P .ports := by assumption) (kplats : P .plats := by assumption)
    (kfabric : P .fabric := by assumption) (kdests : P .dests := by assumption) (krings : P .rings := by assumption)
    (ksramUnits : P .sramUnits := by assumption) (khbmUnits : P .hbmUnits := by assumption)
    (kcodec : P .codec := by assumption) (kdma : P .dma := by assumption) (kfunctions : P .functions := by assumption)
    (ktwins : P .twins := by assumption) (kdevCtl : P .devCtl := by assumption) (kshadow : P .shadow := by assumption)
    (klog : P .log := by assumption) :
    ∀ t, execHeartbeatTimeout a_d s = .next t → Keeps P z t := by
  unfold execHeartbeatTimeout; intro t e; injection e with e; subst e
  repeat' (first | (with_reducible assumption) | (intro) | (with_reducible apply keep_heartbeatTimeout) | split | (dsimp only))

theorem keep_showDigest {P : Area → Prop} {z : State} {s : State} {a_x : DieDigest} (h : Keeps P z s) :
    Keeps P z (showDigest s a_x) := by
  unfold showDigest
  repeat' (first | (with_reducible assumption) | (intro)
                 | (extract_lets +onlyGivenNames y; refine keep_cut (y := y) ?_ ?_; (focus (dsimp only [y]; clear y)); rotate_left; (focus (clear_value y; revert y; intro _ _)))
                 | (extract_lets +onlyGivenNames y; refine keep_cut1 (y := y) ?_ ?_; (focus (dsimp only [y]; clear y)); rotate_left; (focus (clear_value y; revert y; intro _ _)))
                 | (extract_lets +onlyGivenNames y; refine keep_cut2 (y := y) ?_ ?_; (focus (dsimp only [y]; clear y)); rotate_left; (focus (clear_value y; revert y; intro _ _)))
                 | (extract_lets +onlyGivenNames y; clear_value y; revert y; intro _) | (with_reducible apply keep_setF)
                 | (with_reducible apply keep_foldl) | (with_reducible apply keep_foldl1) | split | (dsimp only))

theorem keep_compareDigests {P : Area → Prop} {z : State} {s : State} {a_x : DieDigest} {a_y : DieDigest}
    (h : Keeps P z s) (kbmk : P .bmk := by assumption) (kports : P .ports := by assumption)
    (kplats : P .plats := by assumption) (kfabric : P .fabric := by assumption) (kdests : P .dests := by assumption)
    (krings : P .rings := by assumption) (ksramUnits : P .sramUnits := by assumption)
    (khbmUnits : P .hbmUnits := by assumption) (kcodec : P .codec := by assumption) (kdma : P .dma := by assumption)
    (kfunctions : P .functions := by assumption) (ktwins : P .twins := by assumption)
    (kdevCtl : P .devCtl := by assumption) (kshadow : P .shadow := by assumption) (klog : P .log := by assumption) :
    Keeps P z (compareDigests s a_x a_y) := by
  unfold compareDigests
  repeat' (first | (with_reducible assumption) | (intro)
                 | (extract_lets +onlyGivenNames y; refine keep_cut (y := y) ?_ ?_; (focus (dsimp only [y]; clear y)); rotate_left; (focus (clear_value y; revert y; intro _ _)))
                 | (extract_lets +onlyGivenNames y; refine keep_cut1 (y := y) ?_ ?_; (focus (dsimp only [y]; clear y)); rotate_left; (focus (clear_value y; revert y; intro _ _)))
                 | (extract_lets +onlyGivenNames y; refine keep_cut2 (y := y) ?_ ?_; (focus (dsimp only [y]; clear y)); rotate_left; (focus (clear_value y; revert y; intro _ _)))
                 | (extract_lets +onlyGivenNames y; clear_value y; revert y; intro _) | (with_reducible apply keep_addF)
                 | (with_reducible apply keep_raise) | (with_reducible apply keep_satF) | (with_reducible apply keep_logErr)
                 | (with_reducible apply keep_setF) | (with_reducible apply keep_failDie)
                 | (with_reducible refine keep_ite ?_ ?_) | split | (dsimp only))

theorem keep_dieDigest {P : Area → Prop} {z : State} {s : State} {a_d : Nat} (h : Keeps P z s)
    (kbmk : P .bmk := by assumption) (kports : P .ports := by assumption) (kplats : P .plats := by assumption)
    (kfabric : P .fabric := by assumption) (kdests : P .dests := by assumption) (krings : P .rings := by assumption)
    (ksramUnits : P .sramUnits := by assumption) (khbmUnits : P .hbmUnits := by assumption)
    (kcodec : P .codec := by assumption) (kdma : P .dma := by assumption) (kfunctions : P .functions := by assumption)
    (ktwins : P .twins := by assumption) (kdevCtl : P .devCtl := by assumption) (kshadow : P .shadow := by assumption)
    (klog : P .log := by assumption) :
    Keeps P z (dieDigest s a_d) := by
  unfold dieDigest
  repeat' (first | (with_reducible assumption) | (exact Or.inl (by assumption)) | (exact Or.inr rfl)
                 | (exact Or.inr ⟨rfl, rfl, rfl, rfl⟩) | (intro)
                 | (extract_lets +onlyGivenNames y; refine keep_cut (y := y) ?_ ?_; (focus (dsimp only [y]; clear y)); rotate_left; (focus (clear_value y; revert y; intro _ _)))
                 | (extract_lets +onlyGivenNames y; refine keep_cut1 (y := y) ?_ ?_; (focus (dsimp only [y]; clear y)); rotate_left; (focus (clear_value y; revert y; intro _ _)))
                 | (extract_lets +onlyGivenNames y; refine keep_cut2 (y := y) ?_ ?_; (focus (dsimp only [y]; clear y)); rotate_left; (focus (clear_value y; revert y; intro _ _)))
                 | (extract_lets +onlyGivenNames y; clear_value y; revert y; intro _) | (with_reducible apply keep_showDigest)
                 | (with_reducible apply keep_compareDigests) | split | (dsimp only)
                 | (with_reducible refine keep_mk ?_ rfl rfl rfl rfl rfl rfl rfl rfl rfl ?_ ?_ ?_ ?_ ?_ ?_ ?_ ?_ ?_ ?_ ?_ ?_ ?_ ?_ ?_ ?_ ?_ ?_))

theorem keep_execDieDigest {P : Area → Prop} {z : State} {a_d : Nat} {s : State} (h : Keeps P z s)
    (kbmk : P .bmk := by assumption) (kports : P .ports := by assumption) (kplats : P .plats := by assumption)
    (kfabric : P .fabric := by assumption) (kdests : P .dests := by assumption) (krings : P .rings := by assumption)
    (ksramUnits : P .sramUnits := by assumption) (khbmUnits : P .hbmUnits := by assumption)
    (kcodec : P .codec := by assumption) (kdma : P .dma := by assumption) (kfunctions : P .functions := by assumption)
    (ktwins : P .twins := by assumption) (kdevCtl : P .devCtl := by assumption) (kshadow : P .shadow := by assumption)
    (klog : P .log := by assumption) :
    ∀ t, execDieDigest a_d s = .next t → Keeps P z t := by
  unfold execDieDigest; intro t e; injection e with e; subst e
  repeat' (first | (with_reducible assumption) | (intro) | (with_reducible apply keep_dieDigest) | split | (dsimp only))

end Sys2Proof.Machine
end

