-- ==== Sys2Proof/Laws/KeepSec.lean ====
section
/-! SUPPORT. What the operations of Machine/Sec.lean keep (Laws/Keep.lean), one lemma per operation. -/

set_option linter.tactic.unusedName false
set_option linter.all false
set_option Elab.async false

namespace Sys2Proof.Machine

theorem keep_modSec {P : Area → Prop} {z : State} {s : State} {a_f : Sec → Sec} (h : Keeps P z s)
    (ksecurity : P .security := by assumption) :
    Keeps P z (modSec s a_f) := by
  unfold modSec
  repeat' (first | (with_reducible assumption) | (exact Or.inl (by assumption)) | (exact Or.inr rfl)
                 | (exact Or.inr ⟨rfl, rfl, rfl, rfl⟩) | (intro)
                 | (extract_lets +onlyGivenNames y; refine keep_cut (y := y) ?_ ?_; (focus (dsimp only [y]; clear y)); rotate_left; (focus (clear_value y; revert y; intro _ _)))
                 | (extract_lets +onlyGivenNames y; refine keep_cut1 (y := y) ?_ ?_; (focus (dsimp only [y]; clear y)); rotate_left; (focus (clear_value y; revert y; intro _ _)))
                 | (extract_lets +onlyGivenNames y; refine keep_cut2 (y := y) ?_ ?_; (focus (dsimp only [y]; clear y)); rotate_left; (focus (clear_value y; revert y; intro _ _)))
                 | (extract_lets +onlyGivenNames y; clear_value y; revert y; intro _) | split | (dsimp only)
                 | (with_reducible refine keep_mk ?_ rfl rfl rfl rfl rfl rfl rfl rfl rfl ?_ ?_ ?_ ?_ ?_ ?_ ?_ ?_ ?_ ?_ ?_ ?_ ?_ ?_ ?_ ?_ ?_ ?_))

theorem keep_setDigest {P : Area → Prop} {z : State} {s : State} {a_f : Fld} {a_o : Nat} {a_d : Bytes} (h : Keeps P z s) :
    Keeps P z (setDigest s a_f a_o a_d) := by
  unfold setDigest
  repeat' (first | (with_reducible assumption) | (intro) | (with_reducible apply keep_setF) | (with_reducible apply keep_foldl)
                 | (with_reducible apply keep_foldl1) | split | (dsimp only))

theorem keep_refreshPolicy {P : Area → Prop} {z : State} {s : State} (h : Keeps P z s) :
    Keeps P z (refreshPolicy s) := by
  unfold refreshPolicy
  repeat' (first | (with_reducible assumption) | (intro) | (with_reducible apply keep_setDigest) | split | (dsimp only))

theorem keep_showFuses {P : Area → Prop} {z : State} {s : State} (h : Keeps P z s) :
    Keeps P z (showFuses s) := by
  unfold showFuses
  repeat' (first | (with_reducible assumption) | (intro) | (with_reducible apply keep_setF)
                 | (with_reducible refine keep_ite ?_ ?_) | split | (dsimp only))

theorem keep_bootSlot {P : Area → Prop} {z : State} {s : State} {a_slot : Nat} (h : Keeps P z s) :
    Keeps P z (bootSlot s a_slot) := by
  unfold bootSlot
  repeat' (first | (with_reducible assumption) | (intro)
                 | (extract_lets +onlyGivenNames y; refine keep_cut (y := y) ?_ ?_; (focus (dsimp only [y]; clear y)); rotate_left; (focus (clear_value y; revert y; intro _ _)))
                 | (extract_lets +onlyGivenNames y; refine keep_cut1 (y := y) ?_ ?_; (focus (dsimp only [y]; clear y)); rotate_left; (focus (clear_value y; revert y; intro _ _)))
                 | (extract_lets +onlyGivenNames y; refine keep_cut2 (y := y) ?_ ?_; (focus (dsimp only [y]; clear y)); rotate_left; (focus (clear_value y; revert y; intro _ _)))
                 | (extract_lets +onlyGivenNames y; clear_value y; revert y; intro _) | (with_reducible apply keep_setF)
                 | (with_reducible apply keep_setDigest) | (with_reducible apply keep_refreshPolicy) | split | (dsimp only))

theorem keep_svnCommit {P : Area → Prop} {z : State} {s : State} {a_data : Nat} (h : Keeps P z s)
    (ksecurity : P .security := by assumption) :
    Keeps P z (svnCommit s a_data) := by
  unfold svnCommit
  repeat' (first | (with_reducible assumption) | (exact Or.inl (by assumption)) | (exact Or.inr rfl)
                 | (exact Or.inr ⟨rfl, rfl, rfl, rfl⟩) | (intro)
                 | (extract_lets +onlyGivenNames y; refine keep_cut (y := y) ?_ ?_; (focus (dsimp only [y]; clear y)); rotate_left; (focus (clear_value y; revert y; intro _ _)))
                 | (extract_lets +onlyGivenNames y; refine keep_cut1 (y := y) ?_ ?_; (focus (dsimp only [y]; clear y)); rotate_left; (focus (clear_value y; revert y; intro _ _)))
                 | (extract_lets +onlyGivenNames y; refine keep_cut2 (y := y) ?_ ?_; (focus (dsimp only [y]; clear y)); rotate_left; (focus (clear_value y; revert y; intro _ _)))
                 | (extract_lets +onlyGivenNames y; clear_value y; revert y; intro _) | (with_reducible apply keep_showFuses)
                 | (with_reducible apply keep_modSec) | (with_reducible refine keep_ite ?_ ?_) | split | (dsimp only)
                 | (with_reducible refine keep_mk ?_ rfl rfl rfl rfl rfl rfl rfl rfl rfl ?_ ?_ ?_ ?_ ?_ ?_ ?_ ?_ ?_ ?_ ?_ ?_ ?_ ?_ ?_ ?_ ?_ ?_))

theorem keep_execSecSvnCommit {P : Area → Prop} {z : State} {a__fn : Nat} {a_data : Nat} {s : State} (h : Keeps P z s)
    (ksecurity : P .security := by assumption) :
    ∀ t, execSecSvnCommit a__fn a_data s = .next t → Keeps P z t := by
  unfold execSecSvnCommit; intro t e; injection e with e; subst e
  repeat' (first | (with_reducible assumption) | (intro) | (with_reducible apply keep_svnCommit) | split | (dsimp only))

theorem keep_setKey {P : Area → Prop} {z : State} {s : State} {a_k : Nat} {a_key : Option Bytes} (h : Keeps P z s)
    (krings : P .rings := by assumption) (ksecurity : P .security := by assumption) :
    Keeps P z (setKey s a_k a_key) := by
  unfold setKey
  repeat' (first | (with_reducible assumption) | (exact Or.inl (by assumption)) | (exact Or.inr rfl)
                 | (exact Or.inr ⟨rfl, rfl, rfl, rfl⟩) | (intro)
                 | (extract_lets +onlyGivenNames y; refine keep_cut (y := y) ?_ ?_; (focus (dsimp only [y]; clear y)); rotate_left; (focus (clear_value y; revert y; intro _ _)))
                 | (extract_lets +onlyGivenNames y; refine keep_cut1 (y := y) ?_ ?_; (focus (dsimp only [y]; clear y)); rotate_left; (focus (clear_value y; revert y; intro _ _)))
                 | (extract_lets +onlyGivenNames y; refine keep_cut2 (y := y) ?_ ?_; (focus (dsimp only [y]; clear y)); rotate_left; (focus (clear_value y; revert y; intro _ _)))
                 | (extract_lets +onlyGivenNames y; clear_value y; revert y; intro _) | (with_reducible apply keep_setF)
                 | (with_reducible apply keep_modSec) | (with_reducible apply keep_setDigest)
                 | (with_reducible apply keep_refreshPolicy) | (with_reducible apply keep_raise)
                 | (with_reducible refine keep_ite ?_ ?_) | split | (dsimp only)
                 | (with_reducible refine keep_mk ?_ rfl rfl rfl rfl rfl rfl rfl rfl rfl ?_ ?_ ?_ ?_ ?_ ?_ ?_ ?_ ?_ ?_ ?_ ?_ ?_ ?_ ?_ ?_ ?_ ?_))

theorem keep_keyInstall {P : Area → Prop} {z : State} {s : State} {a_fn : Nat} {a_k : Nat} (h : Keeps P z s)
    (krings : P .rings := by assumption) (ktwins : P .twins := by assumption) (ksecurity : P .security := by assumption)
    (klog : P .log := by assumption) :
    Keeps P z (keyInstall s a_fn a_k) := by
  unfold keyInstall
  repeat' (first | (with_reducible assumption) | (intro) | (with_reducible apply keep_logWWR)
                 | (with_reducible apply keep_setKey) | (with_reducible refine keep_ite ?_ ?_) | split | (dsimp only))

theorem keep_execInstall {P : Area → Prop} {z : State} {a_fn : Nat} {a_k : Nat} {s : State} (h : Keeps P z s)
    (krings : P .rings := by assumption) (ktwins : P .twins := by assumption) (ksecurity : P .security := by assumption)
    (klog : P .log := by assumption) :
    ∀ t, execInstall a_fn a_k s = .next t → Keeps P z t := by
  unfold execInstall; intro t e; injection e with e; subst e
  repeat' (first | (with_reducible assumption) | (intro) | (with_reducible apply keep_keyInstall) | split | (dsimp only))

theorem keep_keyClear {P : Area → Prop} {z : State} {s : State} {a_fn : Nat} {a_k : Nat} (h : Keeps P z s)
    (krings : P .rings := by assumption) (ktwins : P .twins := by assumption) (ksecurity : P .security := by assumption)
    (klog : P .log := by assumption) :
    Keeps P z (keyClear s a_fn a_k) := by
  unfold keyClear
  repeat' (first | (with_reducible assumption) | (intro) | (with_reducible apply keep_logWWR)
                 | (with_reducible apply keep_setKey) | (with_reducible refine keep_ite ?_ ?_) | split | (dsimp only))

theorem keep_execClear {P : Area → Prop} {z : State} {a_fn : Nat} {a_k : Nat} {s : State} (h : Keeps P z s)
    (krings : P .rings := by assumption) (ktwins : P .twins := by assumption) (ksecurity : P .security := by assumption)
    (klog : P .log := by assumption) :
    ∀ t, execClear a_fn a_k s = .next t → Keeps P z t := by
  unfold execClear; intro t e; injection e with e; subst e
  repeat' (first | (with_reducible assumption) | (intro) | (with_reducible apply keep_keyClear) | split | (dsimp only))

theorem keep_attestEnds {P : Area → Prop} {z : State} {s : State} {a_status : Nat} {a_reason : Nat} (h : Keeps P z s)
    (krings : P .rings := by assumption) (ksecurity : P .security := by assumption) :
    Keeps P z (attestEnds s a_status a_reason) := by
  unfold attestEnds
  repeat' (first | (with_reducible assumption) | (exact Or.inl (by assumption)) | (exact Or.inr rfl)
                 | (exact Or.inr ⟨rfl, rfl, rfl, rfl⟩) | (intro)
                 | (extract_lets +onlyGivenNames y; refine keep_cut (y := y) ?_ ?_; (focus (dsimp only [y]; clear y)); rotate_left; (focus (clear_value y; revert y; intro _ _)))
                 | (extract_lets +onlyGivenNames y; refine keep_cut1 (y := y) ?_ ?_; (focus (dsimp only [y]; clear y)); rotate_left; (focus (clear_value y; revert y; intro _ _)))
                 | (extract_lets +onlyGivenNames y; refine keep_cut2 (y := y) ?_ ?_; (focus (dsimp only [y]; clear y)); rotate_left; (focus (clear_value y; revert y; intro _ _)))
                 | (extract_lets +onlyGivenNames y; clear_value y; revert y; intro _) | (with_reducible apply keep_modSec)
                 | (with_reducible apply keep_raise) | (with_reducible apply keep_setF) | split | (dsimp only)
                 | (with_reducible refine keep_mk ?_ rfl rfl rfl rfl rfl rfl rfl rfl rfl ?_ ?_ ?_ ?_ ?_ ?_ ?_ ?_ ?_ ?_ ?_ ?_ ?_ ?_ ?_ ?_ ?_ ?_))

theorem keep_attestReq {P : Area → Prop} {z : State} {s : State} (h : Keeps P z s) (krings : P .rings := by assumption)
    (ksecurity : P .security := by assumption) :
    Keeps P z (attestReq s) := by
  unfold attestReq
  repeat' (first | (with_reducible assumption) | (exact Or.inl (by assumption)) | (exact Or.inr rfl)
                 | (exact Or.inr ⟨rfl, rfl, rfl, rfl⟩) | (intro)
                 | (extract_lets +onlyGivenNames y; refine keep_cut (y := y) ?_ ?_; (focus (dsimp only [y]; clear y)); rotate_left; (focus (clear_value y; revert y; intro _ _)))
                 | (extract_lets +onlyGivenNames y; refine keep_cut1 (y := y) ?_ ?_; (focus (dsimp only [y]; clear y)); rotate_left; (focus (clear_value y; revert y; intro _ _)))
                 | (extract_lets +onlyGivenNames y; refine keep_cut2 (y := y) ?_ ?_; (focus (dsimp only [y]; clear y)); rotate_left; (focus (clear_value y; revert y; intro _ _)))
                 | (extract_lets +onlyGivenNames y; clear_value y; revert y; intro _) | (with_reducible apply keep_attestEnds)
                 | (with_reducible apply keep_setF) | (with_reducible apply keep_modSec)
                 | (with_reducible refine keep_ite ?_ ?_) | split | (dsimp only)
                 | (with_reducible refine keep_mk ?_ rfl rfl rfl rfl rfl rfl rfl rfl rfl ?_ ?_ ?_ ?_ ?_ ?_ ?_ ?_ ?_ ?_ ?_ ?_ ?_ ?_ ?_ ?_ ?_ ?_))

theorem keep_execAttestReq {P : Area → Prop} {z : State} {s : State} (h : Keeps P z s)
    (krings : P .rings := by assumption) (ksecurity : P .security := by assumption) :
    ∀ t, execAttestReq s = .next t → Keeps P z t := by
  unfold execAttestReq; intro t e; injection e with e; subst e
  repeat' (first | (with_reducible assumption) | (intro) | (with_reducible apply keep_attestReq) | split | (dsimp only))

theorem keep_attestDone {P : Area → Prop} {z : State} {s : State} (h : Keeps P z s) (krings : P .rings := by assumption)
    (ksecurity : P .security := by assumption) :
    Keeps P z (attestDone s) := by
  unfold attestDone
  repeat' (first | (with_reducible assumption) | (exact Or.inl (by assumption)) | (exact Or.inr rfl)
                 | (exact Or.inr ⟨rfl, rfl, rfl, rfl⟩) | (intro)
                 | (extract_lets +onlyGivenNames y; refine keep_cut (y := y) ?_ ?_; (focus (dsimp only [y]; clear y)); rotate_left; (focus (clear_value y; revert y; intro _ _)))
                 | (extract_lets +onlyGivenNames y; refine keep_cut1 (y := y) ?_ ?_; (focus (dsimp only [y]; clear y)); rotate_left; (focus (clear_value y; revert y; intro _ _)))
                 | (extract_lets +onlyGivenNames y; refine keep_cut2 (y := y) ?_ ?_; (focus (dsimp only [y]; clear y)); rotate_left; (focus (clear_value y; revert y; intro _ _)))
                 | (extract_lets +onlyGivenNames y; clear_value y; revert y; intro _) | (with_reducible apply keep_modSec)
                 | (with_reducible apply keep_setF) | (with_reducible apply keep_attestEnds) | split | (dsimp only)
                 | (with_reducible refine keep_mk ?_ rfl rfl rfl rfl rfl rfl rfl rfl rfl ?_ ?_ ?_ ?_ ?_ ?_ ?_ ?_ ?_ ?_ ?_ ?_ ?_ ?_ ?_ ?_ ?_ ?_))

theorem keep_execAttestDone {P : Area → Prop} {z : State} {s : State} (h : Keeps P z s)
    (krings : P .rings := by assumption) (ksecurity : P .security := by assumption) :
    ∀ t, execAttestDone s = .next t → Keeps P z t := by
  unfold execAttestDone; intro t e; injection e with e; subst e
  repeat' (first | (with_reducible assumption) | (intro) | (with_reducible apply keep_attestDone) | split | (dsimp only))

theorem keep_challenge {P : Area → Prop} {z : State} {s : State} (h : Keeps P z s)
    (ksecurity : P .security := by assumption) :
    Keeps P z (challenge s) := by
  unfold challenge
  repeat' (first | (with_reducible assumption) | (exact Or.inl (by assumption)) | (exact Or.inr rfl)
                 | (exact Or.inr ⟨rfl, rfl, rfl, rfl⟩) | (intro)
                 | (extract_lets +onlyGivenNames y; refine keep_cut (y := y) ?_ ?_; (focus (dsimp only [y]; clear y)); rotate_left; (focus (clear_value y; revert y; intro _ _)))
                 | (extract_lets +onlyGivenNames y; refine keep_cut1 (y := y) ?_ ?_; (focus (dsimp only [y]; clear y)); rotate_left; (focus (clear_value y; revert y; intro _ _)))
                 | (extract_lets +onlyGivenNames y; refine keep_cut2 (y := y) ?_ ?_; (focus (dsimp only [y]; clear y)); rotate_left; (focus (clear_value y; revert y; intro _ _)))
                 | (extract_lets +onlyGivenNames y; clear_value y; revert y; intro _) | (with_reducible apply keep_fresh)
                 | (with_reducible apply keep_setF) | (with_reducible apply keep_refreshPolicy)
                 | (with_reducible apply keep_modSec) | (with_reducible refine keep_ite ?_ ?_)
                 | (with_reducible apply keep_foldl) | (with_reducible apply keep_foldl1) | split | (dsimp only)
                 | (with_reducible refine keep_mk ?_ rfl rfl rfl rfl rfl rfl rfl rfl rfl ?_ ?_ ?_ ?_ ?_ ?_ ?_ ?_ ?_ ?_ ?_ ?_ ?_ ?_ ?_ ?_ ?_ ?_))

theorem keep_execChallenge {P : Area → Prop} {z : State} {s : State} (h : Keeps P z s)
    (ksecurity : P .security := by assumption) :
    ∀ t, execChallenge s = .next t → Keeps P z t := by
  unfold execChallenge; intro t e; injection e with e; subst e
  repeat' (first | (with_reducible assumption) | (intro) | (with_reducible apply keep_challenge) | split | (dsimp only))

theorem keep_dbgFail {P : Area → Prop} {z : State} {s : State} {a_reason : Nat} (h : Keeps P z s)
    (krings : P .rings := by assumption) (ksecurity : P .security := by assumption) :
    Keeps P z (dbgFail s a_reason) := by
  unfold dbgFail
  repeat' (first | (with_reducible assumption) | (exact Or.inl (by assumption)) | (exact Or.inr rfl)
                 | (exact Or.inr ⟨rfl, rfl, rfl, rfl⟩) | (intro)
                 | (extract_lets +onlyGivenNames y; refine keep_cut (y := y) ?_ ?_; (focus (dsimp only [y]; clear y)); rotate_left; (focus (clear_value y; revert y; intro _ _)))
                 | (extract_lets +onlyGivenNames y; refine keep_cut1 (y := y) ?_ ?_; (focus (dsimp only [y]; clear y)); rotate_left; (focus (clear_value y; revert y; intro _ _)))
                 | (extract_lets +onlyGivenNames y; refine keep_cut2 (y := y) ?_ ?_; (focus (dsimp only [y]; clear y)); rotate_left; (focus (clear_value y; revert y; intro _ _)))
                 | (extract_lets +onlyGivenNames y; clear_value y; revert y; intro _) | (with_reducible apply keep_modSec)
                 | (with_reducible apply keep_setF) | (with_reducible apply keep_refreshPolicy)
                 | (with_reducible apply keep_raise) | (with_reducible refine keep_ite ?_ ?_) | split | (dsimp only)
                 | (with_reducible refine keep_mk ?_ rfl rfl rfl rfl rfl rfl rfl rfl rfl ?_ ?_ ?_ ?_ ?_ ?_ ?_ ?_ ?_ ?_ ?_ ?_ ?_ ?_ ?_ ?_ ?_ ?_))

theorem keep_submit {P : Area → Prop} {z : State} {s : State} (h : Keeps P z s) (krings : P .rings := by assumption)
    (ksecurity : P .security := by assumption) :
    Keeps P z (submit s) := by
  unfold submit
  repeat' (first | (with_reducible assumption) | (exact Or.inl (by assumption)) | (exact Or.inr rfl)
                 | (exact Or.inr ⟨rfl, rfl, rfl, rfl⟩) | (intro)
                 | (extract_lets +onlyGivenNames y; refine keep_cut (y := y) ?_ ?_; (focus (dsimp only [y]; clear y)); rotate_left; (focus (clear_value y; revert y; intro _ _)))
                 | (extract_lets +onlyGivenNames y; refine keep_cut1 (y := y) ?_ ?_; (focus (dsimp only [y]; clear y)); rotate_left; (focus (clear_value y; revert y; intro _ _)))
                 | (extract_lets +onlyGivenNames y; refine keep_cut2 (y := y) ?_ ?_; (focus (dsimp only [y]; clear y)); rotate_left; (focus (clear_value y; revert y; intro _ _)))
                 | (extract_lets +onlyGivenNames y; clear_value y; revert y; intro _) | (with_reducible apply keep_dbgFail)
                 | (with_reducible apply keep_refreshPolicy) | (with_reducible apply keep_setF)
                 | (with_reducible apply keep_modSec) | (with_reducible refine keep_ite ?_ ?_) | split | (dsimp only)
                 | (with_reducible refine keep_mk ?_ rfl rfl rfl rfl rfl rfl rfl rfl rfl ?_ ?_ ?_ ?_ ?_ ?_ ?_ ?_ ?_ ?_ ?_ ?_ ?_ ?_ ?_ ?_ ?_ ?_))

theorem keep_execSubmit {P : Area → Prop} {z : State} {s : State} (h : Keeps P z s) (krings : P .rings := by assumption)
    (ksecurity : P .security := by assumption) :
    ∀ t, execSubmit s = .next t → Keeps P z t := by
  unfold execSubmit; intro t e; injection e with e; subst e
  repeat' (first | (with_reducible assumption) | (intro) | (with_reducible apply keep_submit) | split | (dsimp only))

theorem keep_dbgGrant {P : Area → Prop} {z : State} {s : State} {a_level : Nat} (h : Keeps P z s)
    (krings : P .rings := by assumption) (ktwins : P .twins := by assumption) (ksecurity : P .security := by assumption)
    (klog : P .log := by assumption) :
    Keeps P z (dbgGrant s a_level) := by
  unfold dbgGrant
  repeat' (first | (with_reducible assumption) | (exact Or.inl (by assumption)) | (exact Or.inr rfl)
                 | (exact Or.inr ⟨rfl, rfl, rfl, rfl⟩) | (intro)
                 | (extract_lets +onlyGivenNames y; refine keep_cut (y := y) ?_ ?_; (focus (dsimp only [y]; clear y)); rotate_left; (focus (clear_value y; revert y; intro _ _)))
                 | (extract_lets +onlyGivenNames y; refine keep_cut1 (y := y) ?_ ?_; (focus (dsimp only [y]; clear y)); rotate_left; (focus (clear_value y; revert y; intro _ _)))
                 | (extract_lets +onlyGivenNames y; refine keep_cut2 (y := y) ?_ ?_; (focus (dsimp only [y]; clear y)); rotate_left; (focus (clear_value y; revert y; intro _ _)))
                 | (extract_lets +onlyGivenNames y; clear_value y; revert y; intro _) | (with_reducible apply keep_modSec)
                 | (with_reducible apply keep_setF) | (with_reducible apply keep_maxF) | (with_reducible apply keep_logC)
                 | (with_reducible apply keep_raise) | (with_reducible apply keep_refreshPolicy)
                 | (with_reducible apply keep_attestEnds) | (with_reducible refine keep_ite ?_ ?_) | split | (dsimp only)
                 | (with_reducible refine keep_mk ?_ rfl rfl rfl rfl rfl rfl rfl rfl rfl ?_ ?_ ?_ ?_ ?_ ?_ ?_ ?_ ?_ ?_ ?_ ?_ ?_ ?_ ?_ ?_ ?_ ?_))

theorem keep_debugVerifyDone {P : Area → Prop} {z : State} {s : State} (h : Keeps P z s)
    (krings : P .rings := by assumption) (ktwins : P .twins := by assumption) (ksecurity : P .security := by assumption)
    (klog : P .log := by assumption) :
    Keeps P z (debugVerifyDone s) := by
  unfold debugVerifyDone
  repeat' (first | (with_reducible assumption) | (exact Or.inl (by assumption)) | (exact Or.inr rfl)
                 | (exact Or.inr ⟨rfl, rfl, rfl, rfl⟩) | (intro)
                 | (extract_lets +onlyGivenNames y; refine keep_cut (y := y) ?_ ?_; (focus (dsimp only [y]; clear y)); rotate_left; (focus (clear_value y; revert y; intro _ _)))
                 | (extract_lets +onlyGivenNames y; refine keep_cut1 (y := y) ?_ ?_; (focus (dsimp only [y]; clear y)); rotate_left; (focus (clear_value y; revert y; intro _ _)))
                 | (extract_lets +onlyGivenNames y; refine keep_cut2 (y := y) ?_ ?_; (focus (dsimp only [y]; clear y)); rotate_left; (focus (clear_value y; revert y; intro _ _)))
                 | (extract_lets +onlyGivenNames y; clear_value y; revert y; intro _) | (with_reducible apply keep_dbgFail)
                 | (with_reducible apply keep_dbgGrant) | (with_reducible refine keep_ite ?_ ?_) | split | (dsimp only)
                 | (with_reducible refine keep_mk ?_ rfl rfl rfl rfl rfl rfl rfl rfl rfl ?_ ?_ ?_ ?_ ?_ ?_ ?_ ?_ ?_ ?_ ?_ ?_ ?_ ?_ ?_ ?_ ?_ ?_))

theorem keep_execDebugVerifyDone {P : Area → Prop} {z : State} {s : State} (h : Keeps P z s)
    (krings : P .rings := by assumption) (ktwins : P .twins := by assumption) (ksecurity : P .security := by assumption)
    (klog : P .log := by assumption) :
    ∀ t, execDebugVerifyDone s = .next t → Keeps P z t := by
  unfold execDebugVerifyDone; intro t e; injection e with e; subst e
  repeat' (first | (with_reducible assumption) | (intro) | (with_reducible apply keep_debugVerifyDone) | split | (dsimp only))

theorem keep_execErrSlotFree {P : Area → Prop} {z : State} {a_slot : Nat} {s : State} (h : Keeps P z s) :
    ∀ t, execErrSlotFree a_slot s = .next t → Keeps P z t := by
  unfold execErrSlotFree; intro t e; injection e with e; subst e
  repeat' (first | (with_reducible assumption) | (intro) | (with_reducible apply keep_setF)
                 | (with_reducible refine keep_ite ?_ ?_) | split | (dsimp only))

theorem keep_errInject {P : Area → Prop} {z : State} {s : State} {a_sev : Nat} (h : Keeps P z s)
    (krings : P .rings := by assumption) (ktwins : P .twins := by assumption) (klog : P .log := by assumption) :
    Keeps P z (errInject s a_sev) := by
  unfold errInject
  repeat' (first | (with_reducible assumption) | (intro) | (with_reducible apply keep_logErr) | split | (dsimp only))

theorem keep_execErrInject {P : Area → Prop} {z : State} {a__fn : Nat} {a_sev : Nat} {s : State} (h : Keeps P z s)
    (krings : P .rings := by assumption) (ktwins : P .twins := by assumption) (klog : P .log := by assumption) :
    ∀ t, execErrInject a__fn a_sev s = .next t → Keeps P z t := by
  unfold execErrInject; intro t e; injection e with e; subst e
  repeat' (first | (with_reducible assumption) | (intro) | (with_reducible apply keep_errInject) | split | (dsimp only))

theorem keep_sealLog {P : Area → Prop} {z : State} {s : State} (h : Keeps P z s) (ksecurity : P .security := by assumption) :
    Keeps P z (sealLog s) := by
  unfold sealLog
  repeat' (first | (with_reducible assumption) | (exact Or.inl (by assumption)) | (exact Or.inr rfl)
                 | (exact Or.inr ⟨rfl, rfl, rfl, rfl⟩) | (intro)
                 | (extract_lets +onlyGivenNames y; refine keep_cut (y := y) ?_ ?_; (focus (dsimp only [y]; clear y)); rotate_left; (focus (clear_value y; revert y; intro _ _)))
                 | (extract_lets +onlyGivenNames y; refine keep_cut1 (y := y) ?_ ?_; (focus (dsimp only [y]; clear y)); rotate_left; (focus (clear_value y; revert y; intro _ _)))
                 | (extract_lets +onlyGivenNames y; refine keep_cut2 (y := y) ?_ ?_; (focus (dsimp only [y]; clear y)); rotate_left; (focus (clear_value y; revert y; intro _ _)))
                 | (extract_lets +onlyGivenNames y; clear_value y; revert y; intro _) | (with_reducible apply keep_modSec)
                 | split | (dsimp only)
                 | (with_reducible refine keep_mk ?_ rfl rfl rfl rfl rfl rfl rfl rfl rfl ?_ ?_ ?_ ?_ ?_ ?_ ?_ ?_ ?_ ?_ ?_ ?_ ?_ ?_ ?_ ?_ ?_ ?_))

theorem keep_showSeal {P : Area → Prop} {z s : State} (h : Keeps P z s) 
    (krings : P .rings := by assumption) (ktwins : P .twins := by assumption) (klog : P .log := by assumption) : Keeps P z (showSeal s) := by
  unfold showSeal
  split
  · exact h
  · rename_i x _
    extract_lets shift slots s1 s2 s3
    have h1 : Keeps P z s1 := by
      refine h.regs (fun hs => ?_)
      clear_value slots
      generalize s.regs = t at hs
      induction slots generalizing t with
      | nil => exact hs
      | cons e l ih => exact ih _ (Tbl.put_sorted _ _ _ hs)
    have h2 : Keeps P z s2 := keep_setF (keep_setF h1)
    have h3 : Keeps P z s3 := keep_setF (keep_setF h2)
    clear_value s1 s2 s3
    with_reducible exact keep_logC (keep_setF h3)

theorem keep_eraseLog {P : Area → Prop} {z : State} {s : State} (h : Keeps P z s) (ksecurity : P .security := by assumption) :
    Keeps P z (eraseLog s) := by
  unfold eraseLog
  repeat' (first | (with_reducible assumption) | (exact Or.inl (by assumption)) | (exact Or.inr rfl)
                 | (exact Or.inr ⟨rfl, rfl, rfl, rfl⟩) | (intro)
                 | (extract_lets +onlyGivenNames y; refine keep_cut (y := y) ?_ ?_; (focus (dsimp only [y]; clear y)); rotate_left; (focus (clear_value y; revert y; intro _ _)))
                 | (extract_lets +onlyGivenNames y; refine keep_cut1 (y := y) ?_ ?_; (focus (dsimp only [y]; clear y)); rotate_left; (focus (clear_value y; revert y; intro _ _)))
                 | (extract_lets +onlyGivenNames y; refine keep_cut2 (y := y) ?_ ?_; (focus (dsimp only [y]; clear y)); rotate_left; (focus (clear_value y; revert y; intro _ _)))
                 | (extract_lets +onlyGivenNames y; clear_value y; revert y; intro _) | (with_reducible apply keep_setF)
                 | (with_reducible apply keep_modSec) | split | (dsimp only)
                 | (with_reducible refine keep_mk ?_ rfl rfl rfl rfl rfl rfl rfl rfl rfl ?_ ?_ ?_ ?_ ?_ ?_ ?_ ?_ ?_ ?_ ?_ ?_ ?_ ?_ ?_ ?_ ?_ ?_))

theorem keep_execErase {P : Area → Prop} {z : State} {s : State} (h : Keeps P z s)
    (ksecurity : P .security := by assumption) :
    ∀ t, execErase s = .next t → Keeps P z t := by
  unfold execErase; intro t e; injection e with e; subst e
  repeat' (first | (with_reducible assumption) | (intro) | (with_reducible apply keep_eraseLog) | split | (dsimp only))

end Sys2Proof.Machine
end

