-- ==== Sys2Proof/Laws/KeepPower.lean ====
section
/-! SUPPORT. What the operations of Machine/Power.lean keep (Laws/Keep.lean), one lemma per operation. -/

set_option linter.tactic.unusedName false
set_option linter.all false
set_option Elab.async false

namespace Sys2Proof.Machine

theorem keep_modPwr {P : Area → Prop} {z : State} {s : State} {a_f : Pwr → Pwr} (h : Keeps P z s)
    (kpower : P .power := by assumption) :
    Keeps P z (modPwr s a_f) := by
  unfold modPwr
  repeat' (first | (with_reducible assumption) | (exact Or.inl (by assumption)) | (exact Or.inr rfl)
                 | (exact Or.inr ⟨rfl, rfl, rfl, rfl⟩) | (intro)
                 | (extract_lets +onlyGivenNames y; refine keep_cut (y := y) ?_ ?_; (focus (dsimp only [y]; clear y)); rotate_left; (focus (clear_value y; revert y; intro _ _)))
                 | (extract_lets +onlyGivenNames y; refine keep_cut1 (y := y) ?_ ?_; (focus (dsimp only [y]; clear y)); rotate_left; (focus (clear_value y; revert y; intro _ _)))
                 | (extract_lets +onlyGivenNames y; refine keep_cut2 (y := y) ?_ ?_; (focus (dsimp only [y]; clear y)); rotate_left; (focus (clear_value y; revert y; intro _ _)))
                 | (extract_lets +onlyGivenNames y; clear_value y; revert y; intro _) | split | (dsimp only)
                 | (with_reducible refine keep_mk ?_ rfl rfl rfl rfl rfl rfl rfl rfl rfl ?_ ?_ ?_ ?_ ?_ ?_ ?_ ?_ ?_ ?_ ?_ ?_ ?_ ?_ ?_ ?_ ?_ ?_))

theorem keep_refreshAlert {P : Area → Prop} {z : State} {s : State} (h : Keeps P z s) :
    Keeps P z (refreshAlert s) := by
  unfold refreshAlert
  repeat' (first | (with_reducible assumption) | (intro)
                 | (extract_lets +onlyGivenNames y; refine keep_cut (y := y) ?_ ?_; (focus (dsimp only [y]; clear y)); rotate_left; (focus (clear_value y; revert y; intro _ _)))
                 | (extract_lets +onlyGivenNames y; refine keep_cut1 (y := y) ?_ ?_; (focus (dsimp only [y]; clear y)); rotate_left; (focus (clear_value y; revert y; intro _ _)))
                 | (extract_lets +onlyGivenNames y; refine keep_cut2 (y := y) ?_ ?_; (focus (dsimp only [y]; clear y)); rotate_left; (focus (clear_value y; revert y; intro _ _)))
                 | (extract_lets +onlyGivenNames y; clear_value y; revert y; intro _) | (with_reducible apply keep_emitOut)
                 | (with_reducible apply keep_setF) | (with_reducible refine keep_ite ?_ ?_) | split | (dsimp only))

theorem keep_enterFeed {P : Area → Prop} {z : State} {s : State} {a_f : Nat} {a_st : Nat} (h : Keeps P z s)
    (krings : P .rings := by assumption) :
    Keeps P z (enterFeed s a_f a_st) := by
  unfold enterFeed
  repeat' (first | (with_reducible assumption) | (intro)
                 | (extract_lets +onlyGivenNames y; refine keep_cut (y := y) ?_ ?_; (focus (dsimp only [y]; clear y)); rotate_left; (focus (clear_value y; revert y; intro _ _)))
                 | (extract_lets +onlyGivenNames y; refine keep_cut1 (y := y) ?_ ?_; (focus (dsimp only [y]; clear y)); rotate_left; (focus (clear_value y; revert y; intro _ _)))
                 | (extract_lets +onlyGivenNames y; refine keep_cut2 (y := y) ?_ ?_; (focus (dsimp only [y]; clear y)); rotate_left; (focus (clear_value y; revert y; intro _ _)))
                 | (extract_lets +onlyGivenNames y; clear_value y; revert y; intro _) | (with_reducible apply keep_setF)
                 | (with_reducible apply keep_raise) | (with_reducible apply keep_satF) | (with_reducible refine keep_ite ?_ ?_)
                 | split | (dsimp only))

theorem keep_logFeed {P : Area → Prop} {z : State} {s : State} {a_f : Nat} {a_was : Nat} (h : Keeps P z s)
    (krings : P .rings := by assumption) (ktwins : P .twins := by assumption) (klog : P .log := by assumption) :
    Keeps P z (logFeed s a_f a_was) := by
  unfold logFeed
  repeat' (first | (with_reducible assumption) | (intro) | (with_reducible apply keep_logC)
                 | (with_reducible refine keep_ite ?_ ?_) | split | (dsimp only))

theorem keep_judgeFeeds {P : Area → Prop} {z : State} {s : State} (h : Keeps P z s) (krings : P .rings := by assumption)
    (ktwins : P .twins := by assumption) (klog : P .log := by assumption) :
    Keeps P z (judgeFeeds s) := by
  unfold judgeFeeds
  repeat' (first | (with_reducible assumption) | (intro)
                 | (extract_lets +onlyGivenNames y; refine keep_cut (y := y) ?_ ?_; (focus (dsimp only [y]; clear y)); rotate_left; (focus (clear_value y; revert y; intro _ _)))
                 | (extract_lets +onlyGivenNames y; refine keep_cut1 (y := y) ?_ ?_; (focus (dsimp only [y]; clear y)); rotate_left; (focus (clear_value y; revert y; intro _ _)))
                 | (extract_lets +onlyGivenNames y; refine keep_cut2 (y := y) ?_ ?_; (focus (dsimp only [y]; clear y)); rotate_left; (focus (clear_value y; revert y; intro _ _)))
                 | (extract_lets +onlyGivenNames y; clear_value y; revert y; intro _) | (with_reducible apply keep_enterFeed)
                 | (with_reducible apply keep_refreshAlert) | (with_reducible apply keep_logFeed) | split | (dsimp only))

theorem keep_takeSample {P : Area → Prop} {z : State} {s : State} {a_f : Nat} {a_mv : Nat} (h : Keeps P z s)
    (kpower : P .power := by assumption) :
    Keeps P z (takeSample s a_f a_mv) := by
  unfold takeSample
  repeat' (first | (with_reducible assumption) | (exact Or.inl (by assumption)) | (exact Or.inr rfl)
                 | (exact Or.inr ⟨rfl, rfl, rfl, rfl⟩) | (intro)
                 | (extract_lets +onlyGivenNames y; refine keep_cut (y := y) ?_ ?_; (focus (dsimp only [y]; clear y)); rotate_left; (focus (clear_value y; revert y; intro _ _)))
                 | (extract_lets +onlyGivenNames y; refine keep_cut1 (y := y) ?_ ?_; (focus (dsimp only [y]; clear y)); rotate_left; (focus (clear_value y; revert y; intro _ _)))
                 | (extract_lets +onlyGivenNames y; refine keep_cut2 (y := y) ?_ ?_; (focus (dsimp only [y]; clear y)); rotate_left; (focus (clear_value y; revert y; intro _ _)))
                 | (extract_lets +onlyGivenNames y; clear_value y; revert y; intro _) | (with_reducible apply keep_fresh)
                 | (with_reducible apply keep_setF) | (with_reducible apply keep_modPwr)
                 | (with_reducible refine keep_ite ?_ ?_) | split | (dsimp only)
                 | (with_reducible refine keep_mk ?_ rfl rfl rfl rfl rfl rfl rfl rfl rfl ?_ ?_ ?_ ?_ ?_ ?_ ?_ ?_ ?_ ?_ ?_ ?_ ?_ ?_ ?_ ?_ ?_ ?_))

theorem keep_feedSample {P : Area → Prop} {z : State} {s : State} {a_a : Nat} {a_b : Nat} (h : Keeps P z s)
    (krings : P .rings := by assumption) (ktwins : P .twins := by assumption) (kpower : P .power := by assumption)
    (klog : P .log := by assumption) :
    Keeps P z (feedSample s a_a a_b) := by
  unfold feedSample
  repeat' (first | (with_reducible assumption) | (intro)
                 | (extract_lets +onlyGivenNames y; refine keep_cut (y := y) ?_ ?_; (focus (dsimp only [y]; clear y)); rotate_left; (focus (clear_value y; revert y; intro _ _)))
                 | (extract_lets +onlyGivenNames y; refine keep_cut1 (y := y) ?_ ?_; (focus (dsimp only [y]; clear y)); rotate_left; (focus (clear_value y; revert y; intro _ _)))
                 | (extract_lets +onlyGivenNames y; refine keep_cut2 (y := y) ?_ ?_; (focus (dsimp only [y]; clear y)); rotate_left; (focus (clear_value y; revert y; intro _ _)))
                 | (extract_lets +onlyGivenNames y; clear_value y; revert y; intro _) | (with_reducible apply keep_fresh)
                 | (with_reducible apply keep_takeSample) | (with_reducible apply keep_judgeFeeds)
                 | (with_reducible apply keep_maxF) | (with_reducible apply keep_setF) | split | (dsimp only))

theorem keep_execFeedSample {P : Area → Prop} {z : State} {a_a : Nat} {a_b : Nat} {s : State} (h : Keeps P z s)
    (krings : P .rings := by assumption) (ktwins : P .twins := by assumption) (kpower : P .power := by assumption)
    (klog : P .log := by assumption) :
    ∀ t, execFeedSample a_a a_b s = .next t → Keeps P z t := by
  unfold execFeedSample; intro t e; injection e with e; subst e
  repeat' (first | (with_reducible assumption) | (intro) | (with_reducible apply keep_feedSample) | split | (dsimp only))

theorem keep_pkgReady {P : Area → Prop} {z : State} {s : State} {a_on : Bool} (h : Keeps P z s)
    (kpower : P .power := by assumption) :
    Keeps P z (pkgReady s a_on) := by
  unfold pkgReady
  repeat' (first | (with_reducible assumption) | (exact Or.inl (by assumption)) | (exact Or.inr rfl)
                 | (exact Or.inr ⟨rfl, rfl, rfl, rfl⟩) | (intro)
                 | (extract_lets +onlyGivenNames y; refine keep_cut (y := y) ?_ ?_; (focus (dsimp only [y]; clear y)); rotate_left; (focus (clear_value y; revert y; intro _ _)))
                 | (extract_lets +onlyGivenNames y; refine keep_cut1 (y := y) ?_ ?_; (focus (dsimp only [y]; clear y)); rotate_left; (focus (clear_value y; revert y; intro _ _)))
                 | (extract_lets +onlyGivenNames y; refine keep_cut2 (y := y) ?_ ?_; (focus (dsimp only [y]; clear y)); rotate_left; (focus (clear_value y; revert y; intro _ _)))
                 | (extract_lets +onlyGivenNames y; clear_value y; revert y; intro _) | (with_reducible apply keep_emitOut)
                 | (with_reducible apply keep_modPwr) | (with_reducible refine keep_ite ?_ ?_) | split | (dsimp only)
                 | (with_reducible refine keep_mk ?_ rfl rfl rfl rfl rfl rfl rfl rfl rfl ?_ ?_ ?_ ?_ ?_ ?_ ?_ ?_ ?_ ?_ ?_ ?_ ?_ ?_ ?_ ?_ ?_ ?_))

theorem keep_holdAll {P : Area → Prop} {z : State} {s : State} (h : Keeps P z s) (kbmk : P .bmk := by assumption)
    (kports : P .ports := by assumption) (kfabric : P .fabric := by assumption) (kdests : P .dests := by assumption)
    (krings : P .rings := by assumption) (ksramUnits : P .sramUnits := by assumption)
    (khbmUnits : P .hbmUnits := by assumption) (kcodec : P .codec := by assumption) (kdma : P .dma := by assumption)
    (ktwins : P .twins := by assumption) (kshadow : P .shadow := by assumption) :
    Keeps P z (holdAll s) := by
  unfold holdAll
  repeat' (first | (with_reducible assumption) | (intro)
                 | (extract_lets +onlyGivenNames y; refine keep_cut (y := y) ?_ ?_; (focus (dsimp only [y]; clear y)); rotate_left; (focus (clear_value y; revert y; intro _ _)))
                 | (extract_lets +onlyGivenNames y; refine keep_cut1 (y := y) ?_ ?_; (focus (dsimp only [y]; clear y)); rotate_left; (focus (clear_value y; revert y; intro _ _)))
                 | (extract_lets +onlyGivenNames y; refine keep_cut2 (y := y) ?_ ?_; (focus (dsimp only [y]; clear y)); rotate_left; (focus (clear_value y; revert y; intro _ _)))
                 | (extract_lets +onlyGivenNames y; clear_value y; revert y; intro _) | (with_reducible apply keep_resetDie)
                 | (with_reducible apply keep_setF) | (with_reducible refine keep_ite ?_ ?_) | (with_reducible apply keep_foldl)
                 | (with_reducible apply keep_foldl1) | split | (dsimp only))

theorem keep_loseHbm {P : Area → Prop} {z : State} {s : State} (h : Keeps P z s) (khbm : P .hbm := by assumption) :
    Keeps P z (loseHbm s) := by
  unfold loseHbm
  repeat' (first | (with_reducible assumption) | (intro) | (with_reducible apply keep_mkUndef) | split | (dsimp only)
                 | (exact by decide) | (show P _; assumption) | (exact memArea_of ‹_› ‹_› ‹_›))

theorem keep_powerFail {P : Area → Prop} {z s : State} (h : Keeps P z s) 
    (khbm : P .hbm := by assumption) (kbmk : P .bmk := by assumption) (kports : P .ports := by assumption) (kfabric : P .fabric := by assumption) (kdests : P .dests := by assumption) (krings : P .rings := by assumption) (ksramUnits : P .sramUnits := by assumption) (khbmUnits : P .hbmUnits := by assumption) (kcodec : P .codec := by assumption) (kdma : P .dma := by assumption) (ktwins : P .twins := by assumption) (kpower : P .power := by assumption) (ksecurity : P .security := by assumption) (kshadow : P .shadow := by assumption) (klog : P .log := by assumption) : Keeps P z (powerFail s) := by
  unfold powerFail
  refine keep_ite h ?_
  extract_lets s1 s2 s3
  have h1 : Keeps P z s1 := keep_logErr (keep_haltPackage h (fun _ h => h))
  have h2 : Keeps P z s2 := h1.change rfl rfl rfl rfl rfl rfl rfl rfl rfl
    (fun a ha => by cases a <;> first | exact absurd ‹P _› ha | rfl | exact fun _ => rfl | exact ⟨rfl, rfl, rfl, rfl⟩)
  clear_value s2
  have h3 : Keeps P z s3 := keep_pkgReady (keep_sealLog (keep_loseHbm (keep_holdAll h2)))
  clear_value s3
  with_reducible exact keep_modPwr h3

theorem keep_execPowerFail {P : Area → Prop} {z : State} {s : State} (h : Keeps P z s) (khbm : P .hbm := by assumption)
    (kbmk : P .bmk := by assumption) (kports : P .ports := by assumption) (kfabric : P .fabric := by assumption)
    (kdests : P .dests := by assumption) (krings : P .rings := by assumption)
    (ksramUnits : P .sramUnits := by assumption) (khbmUnits : P .hbmUnits := by assumption)
    (kcodec : P .codec := by assumption) (kdma : P .dma := by assumption) (ktwins : P .twins := by assumption)
    (kpower : P .power := by assumption) (ksecurity : P .security := by assumption)
    (kshadow : P .shadow := by assumption) (klog : P .log := by assumption) :
    ∀ t, execPowerFail s = .next t → Keeps P z t := by
  unfold execPowerFail; intro t e; injection e with e; subst e
  repeat' (first | (with_reducible assumption) | (intro) | (with_reducible apply keep_powerFail) | split | (dsimp only))

theorem keep_feedSense {P : Area → Prop} {z : State} {s : State} {a_f : Nat} {a_high : Bool} (h : Keeps P z s)
    (khbm : P .hbm := by assumption) (kbmk : P .bmk := by assumption) (kports : P .ports := by assumption)
    (kfabric : P .fabric := by assumption) (kdests : P .dests := by assumption) (krings : P .rings := by assumption)
    (ksramUnits : P .sramUnits := by assumption) (khbmUnits : P .hbmUnits := by assumption)
    (kcodec : P .codec := by assumption) (kdma : P .dma := by assumption) (ktwins : P .twins := by assumption)
    (kpower : P .power := by assumption) (ksecurity : P .security := by assumption)
    (kshadow : P .shadow := by assumption) (klog : P .log := by assumption) :
    Keeps P z (feedSense s a_f a_high) := by
  unfold feedSense
  repeat' (first | (with_reducible assumption) | (exact Or.inl (by assumption)) | (exact Or.inr rfl)
                 | (exact Or.inr ⟨rfl, rfl, rfl, rfl⟩) | (intro)
                 | (extract_lets +onlyGivenNames y; refine keep_cut (y := y) ?_ ?_; (focus (dsimp only [y]; clear y)); rotate_left; (focus (clear_value y; revert y; intro _ _)))
                 | (extract_lets +onlyGivenNames y; refine keep_cut1 (y := y) ?_ ?_; (focus (dsimp only [y]; clear y)); rotate_left; (focus (clear_value y; revert y; intro _ _)))
                 | (extract_lets +onlyGivenNames y; refine keep_cut2 (y := y) ?_ ?_; (focus (dsimp only [y]; clear y)); rotate_left; (focus (clear_value y; revert y; intro _ _)))
                 | (extract_lets +onlyGivenNames y; clear_value y; revert y; intro _) | (with_reducible apply keep_setF)
                 | (with_reducible apply keep_modPwr) | (with_reducible apply keep_judgeFeeds)
                 | (with_reducible apply keep_powerFail) | (with_reducible refine keep_ite ?_ ?_) | split | (dsimp only)
                 | (with_reducible refine keep_mk ?_ rfl rfl rfl rfl rfl rfl rfl rfl rfl ?_ ?_ ?_ ?_ ?_ ?_ ?_ ?_ ?_ ?_ ?_ ?_ ?_ ?_ ?_ ?_ ?_ ?_))

theorem keep_execFeedSenseChange {P : Area → Prop} {z : State} {a_f : Nat} {a_high : Bool} {s : State} (h : Keeps P z s)
    (khbm : P .hbm := by assumption) (kbmk : P .bmk := by assumption) (kports : P .ports := by assumption)
    (kfabric : P .fabric := by assumption) (kdests : P .dests := by assumption) (krings : P .rings := by assumption)
    (ksramUnits : P .sramUnits := by assumption) (khbmUnits : P .hbmUnits := by assumption)
    (kcodec : P .codec := by assumption) (kdma : P .dma := by assumption) (ktwins : P .twins := by assumption)
    (kpower : P .power := by assumption) (ksecurity : P .security := by assumption)
    (kshadow : P .shadow := by assumption) (klog : P .log := by assumption) :
    ∀ t, execFeedSenseChange a_f a_high s = .next t → Keeps P z t := by
  unfold execFeedSenseChange; intro t e; injection e with e; subst e
  repeat' (first | (with_reducible assumption) | (intro) | (with_reducible apply keep_feedSense)
                 | (with_reducible refine keep_ite ?_ ?_) | split | (dsimp only))

theorem keep_showLife {P : Area → Prop} {z : State} {s : State} (h : Keeps P z s) :
    Keeps P z (showLife s) := by
  unfold showLife
  repeat' (first | (with_reducible assumption) | (intro)
                 | (extract_lets +onlyGivenNames y; refine keep_cut (y := y) ?_ ?_; (focus (dsimp only [y]; clear y)); rotate_left; (focus (clear_value y; revert y; intro _ _)))
                 | (extract_lets +onlyGivenNames y; refine keep_cut1 (y := y) ?_ ?_; (focus (dsimp only [y]; clear y)); rotate_left; (focus (clear_value y; revert y; intro _ _)))
                 | (extract_lets +onlyGivenNames y; refine keep_cut2 (y := y) ?_ ?_; (focus (dsimp only [y]; clear y)); rotate_left; (focus (clear_value y; revert y; intro _ _)))
                 | (extract_lets +onlyGivenNames y; clear_value y; revert y; intro _) | (with_reducible apply keep_setF) | split
                 | (dsimp only))

theorem keep_coldState {P : Area → Prop} {z s : State} (h : Keeps P z s) 
    (ktiles : P .tiles := by assumption) (ksram : P .sram := by assumption) (khbm : P .hbm := by assumption) (kbmk : P .bmk := by assumption) (kports : P .ports := by assumption) (kplats : P .plats := by assumption) (kfabric : P .fabric := by assumption) (kdests : P .dests := by assumption) (krings : P .rings := by assumption) (ksramUnits : P .sramUnits := by assumption) (khbmUnits : P .hbmUnits := by assumption) (kcodec : P .codec := by assumption) (kdma : P .dma := by assumption) (kfunctions : P .functions := by assumption) (ktwins : P .twins := by assumption) (kpower : P .power := by assumption) (ksecurity : P .security := by assumption) (kdevCtl : P .devCtl := by assumption) (kshadow : P .shadow := by assumption) (ktime : P .time := by assumption) (klog : P .log := by assumption) : Keeps P z (coldState s) := by
  unfold coldState
  extract_lets p sec pwr k1 k2 k3 k4
  have h2 : Keeps P z k2 := ⟨fun _ => rfl, h.pending, h.part, h.nonce, h.out,
    fun a ha => absurd (by cases a <;> assumption) ha⟩
  have h3 : Keeps P z k3 := keep_foldl _ h2 (fun _ _ h => keep_setF h)
  have h4 : Keeps P z k4 := keep_foldl _ (keep_showFuses (keep_showLife h3)) (fun _ _ h => keep_setF h)
  clear_value k4
  have h5 : Keeps P z (refreshAlert ([0, 1, 2].foldl (fun k m => mkUndef k m 0 (memTop m)) k4)) :=
    keep_refreshAlert (keep_mkUndef (by decide) ‹_› (keep_mkUndef (by decide) ‹_› (keep_mkUndef (by decide) ‹_› h4)))
  with_reducible exact keep_pkgReady h5

theorem keep_coldLow {P : Area → Prop} {z : State} {s : State} (h : Keeps P z s) (ktiles : P .tiles := by assumption)
    (ksram : P .sram := by assumption) (khbm : P .hbm := by assumption) (kbmk : P .bmk := by assumption)
    (kports : P .ports := by assumption) (kplats : P .plats := by assumption) (kfabric : P .fabric := by assumption)
    (kdests : P .dests := by assumption) (krings : P .rings := by assumption)
    (ksramUnits : P .sramUnits := by assumption) (khbmUnits : P .hbmUnits := by assumption)
    (kcodec : P .codec := by assumption) (kdma : P .dma := by assumption) (kfunctions : P .functions := by assumption)
    (ktwins : P .twins := by assumption) (kpower : P .power := by assumption) (ksecurity : P .security := by assumption)
    (kdevCtl : P .devCtl := by assumption) (kshadow : P .shadow := by assumption) (ktime : P .time := by assumption)
    (klog : P .log := by assumption) :
    Keeps P z (coldLow s) := by
  unfold coldLow
  repeat' (first | (with_reducible assumption) | (exact Or.inl (by assumption)) | (exact Or.inr rfl)
                 | (exact Or.inr ⟨rfl, rfl, rfl, rfl⟩) | (intro)
                 | (extract_lets +onlyGivenNames y; refine keep_cut (y := y) ?_ ?_; (focus (dsimp only [y]; clear y)); rotate_left; (focus (clear_value y; revert y; intro _ _)))
                 | (extract_lets +onlyGivenNames y; refine keep_cut1 (y := y) ?_ ?_; (focus (dsimp only [y]; clear y)); rotate_left; (focus (clear_value y; revert y; intro _ _)))
                 | (extract_lets +onlyGivenNames y; refine keep_cut2 (y := y) ?_ ?_; (focus (dsimp only [y]; clear y)); rotate_left; (focus (clear_value y; revert y; intro _ _)))
                 | (extract_lets +onlyGivenNames y; clear_value y; revert y; intro _) | (with_reducible apply keep_modPwr)
                 | (with_reducible apply keep_coldState) | split | (dsimp only)
                 | (with_reducible refine keep_mk ?_ rfl rfl rfl rfl rfl rfl rfl rfl rfl ?_ ?_ ?_ ?_ ?_ ?_ ?_ ?_ ?_ ?_ ?_ ?_ ?_ ?_ ?_ ?_ ?_ ?_))

theorem keep_execColdRstNLow {P : Area → Prop} {z : State} {s : State} (h : Keeps P z s)
    (ktiles : P .tiles := by assumption) (ksram : P .sram := by assumption) (khbm : P .hbm := by assumption)
    (kbmk : P .bmk := by assumption) (kports : P .ports := by assumption) (kplats : P .plats := by assumption)
    (kfabric : P .fabric := by assumption) (kdests : P .dests := by assumption) (krings : P .rings := by assumption)
    (ksramUnits : P .sramUnits := by assumption) (khbmUnits : P .hbmUnits := by assumption)
    (kcodec : P .codec := by assumption) (kdma : P .dma := by assumption) (kfunctions : P .functions := by assumption)
    (ktwins : P .twins := by assumption) (kpower : P .power := by assumption) (ksecurity : P .security := by assumption)
    (kdevCtl : P .devCtl := by assumption) (kshadow : P .shadow := by assumption) (ktime : P .time := by assumption)
    (klog : P .log := by assumption) :
    ∀ t, execColdRstNLow s = .next t → Keeps P z t := by
  unfold execColdRstNLow; intro t e; injection e with e; subst e
  repeat' (first | (with_reducible assumption) | (intro) | (with_reducible apply keep_coldLow) | split | (dsimp only))

theorem keep_coldReset {P : Area → Prop} {z : State} {s : State} (h : Keeps P z s) (ktiles : P .tiles := by assumption)
    (ksram : P .sram := by assumption) (khbm : P .hbm := by assumption) (kbmk : P .bmk := by assumption)
    (kports : P .ports := by assumption) (kplats : P .plats := by assumption) (kfabric : P .fabric := by assumption)
    (kdests : P .dests := by assumption) (krings : P .rings := by assumption)
    (ksramUnits : P .sramUnits := by assumption) (khbmUnits : P .hbmUnits := by assumption)
    (kcodec : P .codec := by assumption) (kdma : P .dma := by assumption) (kfunctions : P .functions := by assumption)
    (ktwins : P .twins := by assumption) (kpower : P .power := by assumption) (ksecurity : P .security := by assumption)
    (kdevCtl : P .devCtl := by assumption) (kshadow : P .shadow := by assumption) (ktime : P .time := by assumption)
    (klog : P .log := by assumption) :
    Keeps P z (coldReset s) := by
  unfold coldReset
  repeat' (first | (with_reducible assumption) | (exact Or.inl (by assumption)) | (exact Or.inr rfl)
                 | (exact Or.inr ⟨rfl, rfl, rfl, rfl⟩) | (intro)
                 | (extract_lets +onlyGivenNames y; refine keep_cut (y := y) ?_ ?_; (focus (dsimp only [y]; clear y)); rotate_left; (focus (clear_value y; revert y; intro _ _)))
                 | (extract_lets +onlyGivenNames y; refine keep_cut1 (y := y) ?_ ?_; (focus (dsimp only [y]; clear y)); rotate_left; (focus (clear_value y; revert y; intro _ _)))
                 | (extract_lets +onlyGivenNames y; refine keep_cut2 (y := y) ?_ ?_; (focus (dsimp only [y]; clear y)); rotate_left; (focus (clear_value y; revert y; intro _ _)))
                 | (extract_lets +onlyGivenNames y; clear_value y; revert y; intro _) | (with_reducible apply keep_coldState)
                 | (with_reducible apply keep_showLife) | (with_reducible apply keep_modPwr) | (with_reducible apply keep_fresh)
                 | (with_reducible apply keep_setF) | (with_reducible refine keep_ite ?_ ?_) | split | (dsimp only)
                 | (with_reducible refine keep_mk ?_ rfl rfl rfl rfl rfl rfl rfl rfl rfl ?_ ?_ ?_ ?_ ?_ ?_ ?_ ?_ ?_ ?_ ?_ ?_ ?_ ?_ ?_ ?_ ?_ ?_))

theorem keep_execColdReset {P : Area → Prop} {z : State} {s : State} (h : Keeps P z s)
    (ktiles : P .tiles := by assumption) (ksram : P .sram := by assumption) (khbm : P .hbm := by assumption)
    (kbmk : P .bmk := by assumption) (kports : P .ports := by assumption) (kplats : P .plats := by assumption)
    (kfabric : P .fabric := by assumption) (kdests : P .dests := by assumption) (krings : P .rings := by assumption)
    (ksramUnits : P .sramUnits := by assumption) (khbmUnits : P .hbmUnits := by assumption)
    (kcodec : P .codec := by assumption) (kdma : P .dma := by assumption) (kfunctions : P .functions := by assumption)
    (ktwins : P .twins := by assumption) (kpower : P .power := by assumption) (ksecurity : P .security := by assumption)
    (kdevCtl : P .devCtl := by assumption) (kshadow : P .shadow := by assumption) (ktime : P .time := by assumption)
    (klog : P .log := by assumption) :
    ∀ t, execColdReset s = .next t → Keeps P z t := by
  unfold execColdReset; intro t e; injection e with e; subst e
  repeat' (first | (with_reducible assumption) | (intro) | (with_reducible apply keep_coldReset) | split | (dsimp only))

theorem keep_setRef {P : Area → Prop} {z : State} {s : State} {a_r : Nat} {a_st : Nat} {a_passes : Nat} (h : Keeps P z s)
    (krings : P .rings := by assumption) (ktwins : P .twins := by assumption) (klog : P .log := by assumption) :
    Keeps P z (setRef s a_r a_st a_passes) := by
  unfold setRef
  repeat' (first | (with_reducible assumption) | (intro)
                 | (extract_lets +onlyGivenNames y; refine keep_cut (y := y) ?_ ?_; (focus (dsimp only [y]; clear y)); rotate_left; (focus (clear_value y; revert y; intro _ _)))
                 | (extract_lets +onlyGivenNames y; refine keep_cut1 (y := y) ?_ ?_; (focus (dsimp only [y]; clear y)); rotate_left; (focus (clear_value y; revert y; intro _ _)))
                 | (extract_lets +onlyGivenNames y; refine keep_cut2 (y := y) ?_ ?_; (focus (dsimp only [y]; clear y)); rotate_left; (focus (clear_value y; revert y; intro _ _)))
                 | (extract_lets +onlyGivenNames y; clear_value y; revert y; intro _) | (with_reducible apply keep_setF)
                 | (with_reducible apply keep_logC) | (with_reducible apply keep_raise) | (with_reducible refine keep_ite ?_ ?_)
                 | split | (dsimp only))

theorem keep_refWindowEnd {P : Area → Prop} {z : State} {s : State} {a_r : Nat} {a_c : Nat} (h : Keeps P z s)
    (krings : P .rings := by assumption) (ktwins : P .twins := by assumption) (kpower : P .power := by assumption)
    (klog : P .log := by assumption) :
    Keeps P z (refWindowEnd s a_r a_c) := by
  unfold refWindowEnd
  repeat' (first | (with_reducible assumption) | (exact Or.inl (by assumption)) | (exact Or.inr rfl)
                 | (exact Or.inr ⟨rfl, rfl, rfl, rfl⟩) | (intro)
                 | (extract_lets +onlyGivenNames y; refine keep_cut (y := y) ?_ ?_; (focus (dsimp only [y]; clear y)); rotate_left; (focus (clear_value y; revert y; intro _ _)))
                 | (extract_lets +onlyGivenNames y; refine keep_cut1 (y := y) ?_ ?_; (focus (dsimp only [y]; clear y)); rotate_left; (focus (clear_value y; revert y; intro _ _)))
                 | (extract_lets +onlyGivenNames y; refine keep_cut2 (y := y) ?_ ?_; (focus (dsimp only [y]; clear y)); rotate_left; (focus (clear_value y; revert y; intro _ _)))
                 | (extract_lets +onlyGivenNames y; clear_value y; revert y; intro _) | (with_reducible apply keep_modPwr)
                 | (with_reducible apply keep_setF) | (with_reducible apply keep_fresh) | (with_reducible apply keep_satF)
                 | (with_reducible apply keep_setRef) | (with_reducible refine keep_ite ?_ ?_) | split | (dsimp only)
                 | (with_reducible refine keep_mk ?_ rfl rfl rfl rfl rfl rfl rfl rfl rfl ?_ ?_ ?_ ?_ ?_ ?_ ?_ ?_ ?_ ?_ ?_ ?_ ?_ ?_ ?_ ?_ ?_ ?_))

theorem keep_execRefWindowEnd {P : Area → Prop} {z : State} {a_r : Nat} {a_edges : Nat} {s : State} (h : Keeps P z s)
    (krings : P .rings := by assumption) (ktwins : P .twins := by assumption) (kpower : P .power := by assumption)
    (klog : P .log := by assumption) :
    ∀ t, execRefWindowEnd a_r a_edges s = .next t → Keeps P z t := by
  unfold execRefWindowEnd; intro t e; injection e with e; subst e
  repeat' (first | (with_reducible assumption) | (intro) | (with_reducible apply keep_refWindowEnd)
                 | (with_reducible refine keep_ite ?_ ?_) | split | (dsimp only))

theorem keep_execRefDead {P : Area → Prop} {z : State} {a_r : Nat} {s : State} (h : Keeps P z s)
    (krings : P .rings := by assumption) (ktwins : P .twins := by assumption) (kpower : P .power := by assumption)
    (klog : P .log := by assumption) :
    ∀ t, execRefDead a_r s = .next t → Keeps P z t := by
  unfold execRefDead; intro t e; injection e with e; subst e
  repeat' (first | (with_reducible assumption) | (exact Or.inl (by assumption)) | (exact Or.inr rfl)
                 | (exact Or.inr ⟨rfl, rfl, rfl, rfl⟩) | (intro)
                 | (extract_lets +onlyGivenNames y; refine keep_cut (y := y) ?_ ?_; (focus (dsimp only [y]; clear y)); rotate_left; (focus (clear_value y; revert y; intro _ _)))
                 | (extract_lets +onlyGivenNames y; refine keep_cut1 (y := y) ?_ ?_; (focus (dsimp only [y]; clear y)); rotate_left; (focus (clear_value y; revert y; intro _ _)))
                 | (extract_lets +onlyGivenNames y; refine keep_cut2 (y := y) ?_ ?_; (focus (dsimp only [y]; clear y)); rotate_left; (focus (clear_value y; revert y; intro _ _)))
                 | (extract_lets +onlyGivenNames y; clear_value y; revert y; intro _) | (with_reducible apply keep_setRef)
                 | (with_reducible apply keep_modPwr) | (with_reducible refine keep_ite ?_ ?_) | split | (dsimp only)
                 | (with_reducible refine keep_mk ?_ rfl rfl rfl rfl rfl rfl rfl rfl rfl ?_ ?_ ?_ ?_ ?_ ?_ ?_ ?_ ?_ ?_ ?_ ?_ ?_ ?_ ?_ ?_ ?_ ?_))

theorem keep_switchDomains {P : Area → Prop} {z : State} {s : State} {a_src : Nat} {a_forced : Nat} (h : Keeps P z s) :
    Keeps P z (switchDomains s a_src a_forced) := by
  unfold switchDomains
  repeat' (first | (with_reducible assumption) | (intro) | (with_reducible apply keep_addF) | (with_reducible apply keep_setF)
                 | (with_reducible apply keep_foldl) | (with_reducible apply keep_foldl1) | split | (dsimp only))

theorem keep_pllLock {P : Area → Prop} {z : State} {s : State} (h : Keeps P z s) :
    Keeps P z (pllLock s) := by
  unfold pllLock
  repeat' (first | (with_reducible assumption) | (intro)
                 | (extract_lets +onlyGivenNames y; refine keep_cut (y := y) ?_ ?_; (focus (dsimp only [y]; clear y)); rotate_left; (focus (clear_value y; revert y; intro _ _)))
                 | (extract_lets +onlyGivenNames y; refine keep_cut1 (y := y) ?_ ?_; (focus (dsimp only [y]; clear y)); rotate_left; (focus (clear_value y; revert y; intro _ _)))
                 | (extract_lets +onlyGivenNames y; refine keep_cut2 (y := y) ?_ ?_; (focus (dsimp only [y]; clear y)); rotate_left; (focus (clear_value y; revert y; intro _ _)))
                 | (extract_lets +onlyGivenNames y; clear_value y; revert y; intro _)
                 | (with_reducible apply keep_switchDomains) | (with_reducible apply keep_setF)
                 | (with_reducible refine keep_ite ?_ ?_) | split | (dsimp only))

theorem keep_execPllLock {P : Area → Prop} {z : State} {s : State} (h : Keeps P z s) :
    ∀ t, execPllLock s = .next t → Keeps P z t := by
  unfold execPllLock; intro t e; injection e with e; subst e
  repeat' (first | (with_reducible assumption) | (intro) | (with_reducible apply keep_pllLock) | split | (dsimp only))

theorem keep_refSwitch {P : Area → Prop} {z : State} {s : State} (h : Keeps P z s) (krings : P .rings := by assumption) :
    Keeps P z (refSwitch s) := by
  unfold refSwitch
  repeat' (first | (with_reducible assumption) | (intro)
                 | (extract_lets +onlyGivenNames y; refine keep_cut (y := y) ?_ ?_; (focus (dsimp only [y]; clear y)); rotate_left; (focus (clear_value y; revert y; intro _ _)))
                 | (extract_lets +onlyGivenNames y; refine keep_cut1 (y := y) ?_ ?_; (focus (dsimp only [y]; clear y)); rotate_left; (focus (clear_value y; revert y; intro _ _)))
                 | (extract_lets +onlyGivenNames y; refine keep_cut2 (y := y) ?_ ?_; (focus (dsimp only [y]; clear y)); rotate_left; (focus (clear_value y; revert y; intro _ _)))
                 | (extract_lets +onlyGivenNames y; clear_value y; revert y; intro _) | (with_reducible apply keep_raise)
                 | (with_reducible apply keep_addF) | (with_reducible apply keep_setF) | (with_reducible refine keep_ite ?_ ?_)
                 | split | (dsimp only))

theorem keep_execRefSwitch {P : Area → Prop} {z : State} {s : State} (h : Keeps P z s) (krings : P .rings := by assumption) :
    ∀ t, execRefSwitch s = .next t → Keeps P z t := by
  unfold execRefSwitch; intro t e; injection e with e; subst e
  repeat' (first | (with_reducible assumption) | (intro) | (with_reducible apply keep_refSwitch) | split | (dsimp only))

theorem keep_pllFault {P : Area → Prop} {z s : State} (h : Keeps P z s) 
    (khbm : P .hbm := by assumption) (kdests : P .dests := by assumption) (krings : P .rings := by assumption) (khbmUnits : P .hbmUnits := by assumption) (ktwins : P .twins := by assumption) (kpower : P .power := by assumption) (klog : P .log := by assumption) : Keeps P z (pllFault s) := by
  unfold pllFault
  refine keep_ite h ?_
  extract_lets +onlyGivenNames x s1 s2
  have hx : Keeps P z x.2 := by dsimp only [x]; with_reducible exact keep_fresh (keep_setF h)
  have h1 : Keeps P z s1 := keep_haltPackage (keep_switchDomains hx) (fun _ h => h)
  have h2 : Keeps P z s2 := keep_logErr h1
  clear_value s2
  have h3 : Keeps P z { s2 with hbm := { s2.hbm with fences := [], skips := [] } } := h2.change rfl rfl rfl rfl rfl rfl rfl rfl rfl
    (fun a ha => by cases a <;> first | exact absurd ‹P _› ha | rfl | exact fun _ => rfl | exact ⟨rfl, rfl, rfl, rfl⟩)
  dsimp only
  with_reducible exact keep_modPwr (keep_loseHbm h3)

theorem keep_execPllFault {P : Area → Prop} {z : State} {s : State} (h : Keeps P z s) (khbm : P .hbm := by assumption)
    (kdests : P .dests := by assumption) (krings : P .rings := by assumption) (khbmUnits : P .hbmUnits := by assumption)
    (ktwins : P .twins := by assumption) (kpower : P .power := by assumption) (klog : P .log := by assumption) :
    ∀ t, execPllFault s = .next t → Keeps P z t := by
  unfold execPllFault; intro t e; injection e with e; subst e
  repeat' (first | (with_reducible assumption) | (intro) | (with_reducible apply keep_pllFault) | split | (dsimp only))

theorem keep_bootFail {P : Area → Prop} {z : State} {s : State} {a_detail : Nat} (h : Keeps P z s)
    (krings : P .rings := by assumption) (ktwins : P .twins := by assumption) (kpower : P .power := by assumption)
    (klog : P .log := by assumption) :
    Keeps P z (bootFail s a_detail) := by
  unfold bootFail
  repeat' (first | (with_reducible assumption) | (exact Or.inl (by assumption)) | (exact Or.inr rfl)
                 | (exact Or.inr ⟨rfl, rfl, rfl, rfl⟩) | (intro)
                 | (extract_lets +onlyGivenNames y; refine keep_cut (y := y) ?_ ?_; (focus (dsimp only [y]; clear y)); rotate_left; (focus (clear_value y; revert y; intro _ _)))
                 | (extract_lets +onlyGivenNames y; refine keep_cut1 (y := y) ?_ ?_; (focus (dsimp only [y]; clear y)); rotate_left; (focus (clear_value y; revert y; intro _ _)))
                 | (extract_lets +onlyGivenNames y; refine keep_cut2 (y := y) ?_ ?_; (focus (dsimp only [y]; clear y)); rotate_left; (focus (clear_value y; revert y; intro _ _)))
                 | (extract_lets +onlyGivenNames y; clear_value y; revert y; intro _) | (with_reducible apply keep_modPwr)
                 | (with_reducible apply keep_setF) | (with_reducible apply keep_logErr) | split | (dsimp only)
                 | (with_reducible refine keep_mk ?_ rfl rfl rfl rfl rfl rfl rfl rfl rfl ?_ ?_ ?_ ?_ ?_ ?_ ?_ ?_ ?_ ?_ ?_ ?_ ?_ ?_ ?_ ?_ ?_ ?_))

theorem keep_bootNext {P : Area → Prop} {z : State} {s : State} (h : Keeps P z s) (kpower : P .power := by assumption) :
    Keeps P z (bootNext s) := by
  unfold bootNext
  repeat' (first | (with_reducible assumption) | (exact Or.inl (by assumption)) | (exact Or.inr rfl)
                 | (exact Or.inr ⟨rfl, rfl, rfl, rfl⟩) | (intro)
                 | (extract_lets +onlyGivenNames y; refine keep_cut (y := y) ?_ ?_; (focus (dsimp only [y]; clear y)); rotate_left; (focus (clear_value y; revert y; intro _ _)))
                 | (extract_lets +onlyGivenNames y; refine keep_cut1 (y := y) ?_ ?_; (focus (dsimp only [y]; clear y)); rotate_left; (focus (clear_value y; revert y; intro _ _)))
                 | (extract_lets +onlyGivenNames y; refine keep_cut2 (y := y) ?_ ?_; (focus (dsimp only [y]; clear y)); rotate_left; (focus (clear_value y; revert y; intro _ _)))
                 | (extract_lets +onlyGivenNames y; clear_value y; revert y; intro _) | (with_reducible apply keep_setF)
                 | (with_reducible apply keep_modPwr) | (with_reducible refine keep_ite ?_ ?_) | split | (dsimp only)
                 | (with_reducible refine keep_mk ?_ rfl rfl rfl rfl rfl rfl rfl rfl rfl ?_ ?_ ?_ ?_ ?_ ?_ ?_ ?_ ?_ ?_ ?_ ?_ ?_ ?_ ?_ ?_ ?_ ?_))

theorem keep_bootRom {P : Area → Prop} {z : State} {s : State} (h : Keeps P z s) (krings : P .rings := by assumption)
    (ktwins : P .twins := by assumption) (kpower : P .power := by assumption) (klog : P .log := by assumption) :
    Keeps P z (bootRom s) := by
  unfold bootRom
  repeat' (first | (with_reducible assumption) | (exact Or.inl (by assumption)) | (exact Or.inr rfl)
                 | (exact Or.inr ⟨rfl, rfl, rfl, rfl⟩) | (intro)
                 | (extract_lets +onlyGivenNames y; refine keep_cut (y := y) ?_ ?_; (focus (dsimp only [y]; clear y)); rotate_left; (focus (clear_value y; revert y; intro _ _)))
                 | (extract_lets +onlyGivenNames y; refine keep_cut1 (y := y) ?_ ?_; (focus (dsimp only [y]; clear y)); rotate_left; (focus (clear_value y; revert y; intro _ _)))
                 | (extract_lets +onlyGivenNames y; refine keep_cut2 (y := y) ?_ ?_; (focus (dsimp only [y]; clear y)); rotate_left; (focus (clear_value y; revert y; intro _ _)))
                 | (extract_lets +onlyGivenNames y; clear_value y; revert y; intro _) | (with_reducible apply keep_showSeal)
                 | (with_reducible apply keep_modPwr) | (with_reducible apply keep_bootNext)
                 | (with_reducible apply keep_bootSlot) | (with_reducible apply keep_setF)
                 | (with_reducible apply keep_bootFail) | (with_reducible refine keep_ite ?_ ?_) | split | (dsimp only)
                 | (with_reducible refine keep_mk ?_ rfl rfl rfl rfl rfl rfl rfl rfl rfl ?_ ?_ ?_ ?_ ?_ ?_ ?_ ?_ ?_ ?_ ?_ ?_ ?_ ?_ ?_ ?_ ?_ ?_))

theorem keep_holdBoot {P : Area → Prop} {z : State} {s : State} {a_d : Nat} (h : Keeps P z s) :
    Keeps P z (holdBoot s a_d) := by
  unfold holdBoot
  repeat' (first | (with_reducible assumption) | (intro) | (with_reducible apply keep_setF)
                 | (with_reducible apply keep_setDieState) | split | (dsimp only))

theorem keep_bootDies {P : Area → Prop} {z : State} {s : State} {a_bad : Nat} (h : Keeps P z s)
    (kbmk : P .bmk := by assumption) (krings : P .rings := by assumption) (kdma : P .dma := by assumption)
    (ktwins : P .twins := by assumption) (kpower : P .power := by assumption) (klog : P .log := by assumption) :
    Keeps P z (bootDies s a_bad) := by
  unfold bootDies
  repeat' (first | (with_reducible assumption) | (intro)
                 | (extract_lets +onlyGivenNames y; refine keep_cut (y := y) ?_ ?_; (focus (dsimp only [y]; clear y)); rotate_left; (focus (clear_value y; revert y; intro _ _)))
                 | (extract_lets +onlyGivenNames y; refine keep_cut1 (y := y) ?_ ?_; (focus (dsimp only [y]; clear y)); rotate_left; (focus (clear_value y; revert y; intro _ _)))
                 | (extract_lets +onlyGivenNames y; refine keep_cut2 (y := y) ?_ ?_; (focus (dsimp only [y]; clear y)); rotate_left; (focus (clear_value y; revert y; intro _ _)))
                 | (extract_lets +onlyGivenNames y; clear_value y; revert y; intro _) | (with_reducible apply keep_fresh)
                 | (with_reducible apply keep_holdBoot) | (with_reducible apply keep_logErr)
                 | (with_reducible apply keep_dieComesUp) | (with_reducible apply keep_bootFail)
                 | (with_reducible apply keep_bootNext) | (with_reducible refine keep_ite ?_ ?_)
                 | (with_reducible apply keep_foldl) | (with_reducible apply keep_foldl1) | split | (dsimp only))

theorem keep_bootEdges {P : Area → Prop} {z : State} {s : State} {a_bad : Nat} (h : Keeps P z s)
    (krings : P .rings := by assumption) (ktwins : P .twins := by assumption) (kpower : P .power := by assumption)
    (klog : P .log := by assumption) :
    Keeps P z (bootEdges s a_bad) := by
  unfold bootEdges
  repeat' (first | (with_reducible assumption) | (intro)
                 | (extract_lets +onlyGivenNames y; refine keep_cut (y := y) ?_ ?_; (focus (dsimp only [y]; clear y)); rotate_left; (focus (clear_value y; revert y; intro _ _)))
                 | (extract_lets +onlyGivenNames y; refine keep_cut1 (y := y) ?_ ?_; (focus (dsimp only [y]; clear y)); rotate_left; (focus (clear_value y; revert y; intro _ _)))
                 | (extract_lets +onlyGivenNames y; refine keep_cut2 (y := y) ?_ ?_; (focus (dsimp only [y]; clear y)); rotate_left; (focus (clear_value y; revert y; intro _ _)))
                 | (extract_lets +onlyGivenNames y; clear_value y; revert y; intro _) | (with_reducible apply keep_raise)
                 | (with_reducible apply keep_setEdge) | (with_reducible apply keep_logErr)
                 | (with_reducible apply keep_holdBoot) | (with_reducible apply keep_bootFail)
                 | (with_reducible apply keep_bootNext) | (with_reducible refine keep_ite ?_ ?_)
                 | (with_reducible apply keep_foldl) | (with_reducible apply keep_foldl1) | split | (dsimp only))

theorem keep_bootStacks {P : Area → Prop} {z : State} {s : State} {a_ok : Bool} (h : Keeps P z s)
    (khbm : P .hbm := by assumption) (kbmk : P .bmk := by assumption) (kports : P .ports := by assumption)
    (kfabric : P .fabric := by assumption) (kdests : P .dests := by assumption) (krings : P .rings := by assumption)
    (khbmUnits : P .hbmUnits := by assumption) (ktwins : P .twins := by assumption) (kpower : P .power := by assumption)
    (klog : P .log := by assumption) :
    Keeps P z (bootStacks s a_ok) := by
  unfold bootStacks
  repeat' (first | (with_reducible assumption) | (exact Or.inl (by assumption)) | (exact Or.inr rfl)
                 | (exact Or.inr ⟨rfl, rfl, rfl, rfl⟩) | (intro)
                 | (extract_lets +onlyGivenNames y; refine keep_cut (y := y) ?_ ?_; (focus (dsimp only [y]; clear y)); rotate_left; (focus (clear_value y; revert y; intro _ _)))
                 | (extract_lets +onlyGivenNames y; refine keep_cut1 (y := y) ?_ ?_; (focus (dsimp only [y]; clear y)); rotate_left; (focus (clear_value y; revert y; intro _ _)))
                 | (extract_lets +onlyGivenNames y; refine keep_cut2 (y := y) ?_ ?_; (focus (dsimp only [y]; clear y)); rotate_left; (focus (clear_value y; revert y; intro _ _)))
                 | (extract_lets +onlyGivenNames y; have q : Hbm := y; clear q; dsimp only [y]; clear y)
                 | (extract_lets +onlyGivenNames y; clear_value y; revert y; intro _) | (with_reducible apply keep_fresh)
                 | (with_reducible apply keep_trainStack) | (with_reducible apply keep_fencePc)
                 | (with_reducible apply keep_bootNext) | (with_reducible apply keep_warm)
                 | (with_reducible apply keep_pkgReady) | (with_reducible refine keep_ite ?_ ?_)
                 | (with_reducible apply keep_foldl) | (with_reducible apply keep_foldl1) | split | (dsimp only)
                 | (with_reducible refine keep_mk ?_ rfl rfl rfl rfl rfl rfl rfl rfl rfl ?_ ?_ ?_ ?_ ?_ ?_ ?_ ?_ ?_ ?_ ?_ ?_ ?_ ?_ ?_ ?_ ?_ ?_))

theorem keep_powerUpStepEnd {P : Area → Prop} {z : State} {s : State} {a_ok : Bool} (h : Keeps P z s)
    (khbm : P .hbm := by assumption) (kbmk : P .bmk := by assumption) (kports : P .ports := by assumption)
    (kfabric : P .fabric := by assumption) (kdests : P .dests := by assumption) (krings : P .rings := by assumption)
    (khbmUnits : P .hbmUnits := by assumption) (kdma : P .dma := by assumption) (ktwins : P .twins := by assumption)
    (kpower : P .power := by assumption) (klog : P .log := by assumption) :
    Keeps P z (powerUpStepEnd s a_ok) := by
  unfold powerUpStepEnd
  repeat' (first | (with_reducible assumption) | (exact Or.inl (by assumption)) | (exact Or.inr rfl)
                 | (exact Or.inr ⟨rfl, rfl, rfl, rfl⟩) | (intro)
                 | (extract_lets +onlyGivenNames y; refine keep_cut (y := y) ?_ ?_; (focus (dsimp only [y]; clear y)); rotate_left; (focus (clear_value y; revert y; intro _ _)))
                 | (extract_lets +onlyGivenNames y; refine keep_cut1 (y := y) ?_ ?_; (focus (dsimp only [y]; clear y)); rotate_left; (focus (clear_value y; revert y; intro _ _)))
                 | (extract_lets +onlyGivenNames y; refine keep_cut2 (y := y) ?_ ?_; (focus (dsimp only [y]; clear y)); rotate_left; (focus (clear_value y; revert y; intro _ _)))
                 | (extract_lets +onlyGivenNames y; clear_value y; revert y; intro _) | (with_reducible apply keep_bootRom)
                 | (with_reducible apply keep_bootFail) | (with_reducible apply keep_bootNext)
                 | (with_reducible apply keep_fresh) | (with_reducible apply keep_bootDies)
                 | (with_reducible apply keep_bootEdges) | (with_reducible apply keep_bootStacks)
                 | (with_reducible refine keep_ite ?_ ?_) | split | (dsimp only)
                 | (with_reducible refine keep_mk ?_ rfl rfl rfl rfl rfl rfl rfl rfl rfl ?_ ?_ ?_ ?_ ?_ ?_ ?_ ?_ ?_ ?_ ?_ ?_ ?_ ?_ ?_ ?_ ?_ ?_))

theorem keep_execPowerUpStepEnd {P : Area → Prop} {z : State} {a_ok : Bool} {s : State} (h : Keeps P z s)
    (khbm : P .hbm := by assumption) (kbmk : P .bmk := by assumption) (kports : P .ports := by assumption)
    (kfabric : P .fabric := by assumption) (kdests : P .dests := by assumption) (krings : P .rings := by assumption)
    (khbmUnits : P .hbmUnits := by assumption) (kdma : P .dma := by assumption) (ktwins : P .twins := by assumption)
    (kpower : P .power := by assumption) (klog : P .log := by assumption) :
    ∀ t, execPowerUpStepEnd a_ok s = .next t → Keeps P z t := by
  unfold execPowerUpStepEnd; intro t e; injection e with e; subst e
  repeat' (first | (with_reducible assumption) | (intro) | (with_reducible apply keep_powerUpStepEnd) | split | (dsimp only))

end Sys2Proof.Machine
end

