-- ==== Sys2Proof/Laws/KeepClocks.lean ====
section
/-! SUPPORT. What the operations of Machine/Clocks.lean keep (Laws/Keep.lean), one lemma per operation. -/

set_option linter.tactic.unusedName false
set_option linter.all false
set_option Elab.async false

namespace Sys2Proof.Machine

theorem keep_gateWrite {P : Area → Prop} {z : State} {s : State} {a_fn : Nat} {a_d : Nat} {a_data : Nat}
    (h : Keeps P z s) (krings : P .rings := by assumption) (ktwins : P .twins := by assumption)
    (klog : P .log := by assumption) :
    Keeps P z (gateWrite s a_fn a_d a_data) := by
  unfold gateWrite
  repeat' (first | (with_reducible assumption) | (intro)
                 | (extract_lets +onlyGivenNames y; refine keep_cut (y := y) ?_ ?_; (focus (dsimp only [y]; clear y)); rotate_left; (focus (clear_value y; revert y; intro _ _)))
                 | (extract_lets +onlyGivenNames y; refine keep_cut1 (y := y) ?_ ?_; (focus (dsimp only [y]; clear y)); rotate_left; (focus (clear_value y; revert y; intro _ _)))
                 | (extract_lets +onlyGivenNames y; refine keep_cut2 (y := y) ?_ ?_; (focus (dsimp only [y]; clear y)); rotate_left; (focus (clear_value y; revert y; intro _ _)))
                 | (extract_lets +onlyGivenNames y; have q : (_ : _) → _ := y; clear q; dsimp only [y]; clear y)
                 | (extract_lets +onlyGivenNames y; clear_value y; revert y; intro _) | (with_reducible apply keep_setF)
                 | (with_reducible apply keep_logWWR) | (with_reducible refine keep_ite ?_ ?_)
                 | (with_reducible apply keep_foldl) | (with_reducible apply keep_foldl1) | split | (dsimp only))

theorem keep_execClkGateWrite {P : Area → Prop} {z : State} {a_fn : Nat} {a_die : Nat} {a_data : Nat} {s : State}
    (h : Keeps P z s) (krings : P .rings := by assumption) (ktwins : P .twins := by assumption)
    (klog : P .log := by assumption) :
    ∀ t, execClkGateWrite a_fn a_die a_data s = .next t → Keeps P z t := by
  unfold execClkGateWrite; intro t e; injection e with e; subst e
  repeat' (first | (with_reducible assumption) | (intro) | (with_reducible apply keep_gateWrite)
                 | (with_reducible refine keep_ite ?_ ?_) | split | (dsimp only))

theorem keep_warm {P : Area → Prop} {z : State} {s : State} (h : Keeps P z s) (kbmk : P .bmk := by assumption)
    (kports : P .ports := by assumption) (kfabric : P .fabric := by assumption) (krings : P .rings := by assumption)
    (ktwins : P .twins := by assumption) (kpower : P .power := by assumption) (klog : P .log := by assumption) :
    Keeps P z (warm s) := by
  unfold warm
  repeat' (first | (with_reducible assumption) | (exact Or.inl (by assumption)) | (exact Or.inr rfl)
                 | (exact Or.inr ⟨rfl, rfl, rfl, rfl⟩) | (intro)
                 | (extract_lets +onlyGivenNames y; refine keep_cut (y := y) ?_ ?_; (focus (dsimp only [y]; clear y)); rotate_left; (focus (clear_value y; revert y; intro _ _)))
                 | (extract_lets +onlyGivenNames y; refine keep_cut1 (y := y) ?_ ?_; (focus (dsimp only [y]; clear y)); rotate_left; (focus (clear_value y; revert y; intro _ _)))
                 | (extract_lets +onlyGivenNames y; refine keep_cut2 (y := y) ?_ ?_; (focus (dsimp only [y]; clear y)); rotate_left; (focus (clear_value y; revert y; intro _ _)))
                 | (extract_lets +onlyGivenNames y; clear_value y; revert y; intro _) | (with_reducible apply keep_setF)
                 | (with_reducible apply keep_addF) | (with_reducible apply keep_modPwr)
                 | (with_reducible apply keep_disablePort) | (with_reducible refine keep_ite ?_ ?_)
                 | (with_reducible apply keep_foldl) | (with_reducible apply keep_foldl1) | split | (dsimp only)
                 | (with_reducible refine keep_mk ?_ rfl rfl rfl rfl rfl rfl rfl rfl rfl ?_ ?_ ?_ ?_ ?_ ?_ ?_ ?_ ?_ ?_ ?_ ?_ ?_ ?_ ?_ ?_ ?_ ?_))

theorem keep_execWarm {P : Area → Prop} {z : State} {s : State} (h : Keeps P z s) (kbmk : P .bmk := by assumption)
    (kports : P .ports := by assumption) (kfabric : P .fabric := by assumption) (krings : P .rings := by assumption)
    (ktwins : P .twins := by assumption) (kpower : P .power := by assumption) (klog : P .log := by assumption) :
    ∀ t, execWarm s = .next t → Keeps P z t := by
  unfold execWarm; intro t e; injection e with e; subst e
  repeat' (first | (with_reducible assumption) | (intro) | (with_reducible apply keep_warm) | split | (dsimp only))

theorem keep_warmRegs {P : Area → Prop} {z : State} {s : State} (h : Keeps P z s) (kshadow : P .shadow := by assumption) :
    Keeps P z (warmRegs s) := by
  unfold warmRegs
  repeat' (first | (with_reducible assumption) | (intro)
                 | (extract_lets +onlyGivenNames y; refine keep_cut (y := y) ?_ ?_; (focus (dsimp only [y]; clear y)); rotate_left; (focus (clear_value y; revert y; intro _ _)))
                 | (extract_lets +onlyGivenNames y; refine keep_cut1 (y := y) ?_ ?_; (focus (dsimp only [y]; clear y)); rotate_left; (focus (clear_value y; revert y; intro _ _)))
                 | (extract_lets +onlyGivenNames y; refine keep_cut2 (y := y) ?_ ?_; (focus (dsimp only [y]; clear y)); rotate_left; (focus (clear_value y; revert y; intro _ _)))
                 | (extract_lets +onlyGivenNames y; clear_value y; revert y; intro _) | (with_reducible apply keep_resetRange)
                 | (with_reducible apply keep_setF) | (with_reducible apply keep_emitOut)
                 | (with_reducible refine keep_ite ?_ ?_) | (with_reducible apply keep_foldl)
                 | (with_reducible apply keep_foldl1) | split | (dsimp only))

theorem keep_cutZeroing {P : Area → Prop} {z : State} {s : State} (h : Keeps P z s) (khbm : P .hbm := by assumption) :
    Keeps P z (cutZeroing s) := by
  unfold cutZeroing
  repeat' (first | (with_reducible assumption) | (intro) | (with_reducible apply keep_mkUndef)
                 | (with_reducible apply keep_foldl) | (with_reducible apply keep_foldl1) | split | (dsimp only)
                 | (exact by decide) | (show P _; assumption) | (exact memArea_of ‹_› ‹_› ‹_›))

theorem keep_warmClear {P : Area → Prop} {z : State} {s : State} (h : Keeps P z s) (khbm : P .hbm := by assumption)
    (kbmk : P .bmk := by assumption) (kports : P .ports := by assumption) (kplats : P .plats := by assumption)
    (kfabric : P .fabric := by assumption) (kdests : P .dests := by assumption) (krings : P .rings := by assumption)
    (ksramUnits : P .sramUnits := by assumption) (khbmUnits : P .hbmUnits := by assumption)
    (kcodec : P .codec := by assumption) (kdma : P .dma := by assumption) (kfunctions : P .functions := by assumption)
    (ktwins : P .twins := by assumption) (kshadow : P .shadow := by assumption) :
    Keeps P z (warmClear s) := by
  unfold warmClear
  repeat' (first | (with_reducible assumption) | (exact Or.inl (by assumption)) | (exact Or.inr rfl)
                 | (exact Or.inr ⟨rfl, rfl, rfl, rfl⟩) | (intro)
                 | (extract_lets +onlyGivenNames y; refine keep_cut (y := y) ?_ ?_; (focus (dsimp only [y]; clear y)); rotate_left; (focus (clear_value y; revert y; intro _ _)))
                 | (extract_lets +onlyGivenNames y; refine keep_cut1 (y := y) ?_ ?_; (focus (dsimp only [y]; clear y)); rotate_left; (focus (clear_value y; revert y; intro _ _)))
                 | (extract_lets +onlyGivenNames y; refine keep_cut2 (y := y) ?_ ?_; (focus (dsimp only [y]; clear y)); rotate_left; (focus (clear_value y; revert y; intro _ _)))
                 | (extract_lets +onlyGivenNames y; have q : Hbm := y; clear q; dsimp only [y]; clear y)
                 | (extract_lets +onlyGivenNames y; have q : Srm := y; clear q; dsimp only [y]; clear y)
                 | (extract_lets +onlyGivenNames y; clear_value y; revert y; intro _) | (with_reducible apply keep_warmRegs)
                 | (with_reducible apply keep_cutZeroing) | (with_reducible apply keep_restoreFences)
                 | (with_reducible apply keep_setDieState) | (with_reducible apply keep_foldl)
                 | (with_reducible apply keep_foldl1) | split | (dsimp only)
                 | (with_reducible refine keep_mk ?_ rfl rfl rfl rfl rfl rfl rfl rfl rfl ?_ ?_ ?_ ?_ ?_ ?_ ?_ ?_ ?_ ?_ ?_ ?_ ?_ ?_ ?_ ?_ ?_ ?_))

theorem keep_refreshFns {P : Area → Prop} {z : State} {s : State} (h : Keeps P z s) :
    Keeps P z (refreshFns s) := by
  unfold refreshFns
  repeat' (first | (with_reducible assumption) | (intro) | (with_reducible apply keep_refreshFn)
                 | (with_reducible apply keep_foldl) | (with_reducible apply keep_foldl1) | split | (dsimp only))

theorem keep_warmDies {P : Area → Prop} {z : State} {s : State} (h : Keeps P z s) (kbmk : P .bmk := by assumption)
    (kdma : P .dma := by assumption) :
    Keeps P z (warmDies s) := by
  unfold warmDies
  repeat' (first | (with_reducible assumption) | (intro)
                 | (extract_lets +onlyGivenNames y; refine keep_cut (y := y) ?_ ?_; (focus (dsimp only [y]; clear y)); rotate_left; (focus (clear_value y; revert y; intro _ _)))
                 | (extract_lets +onlyGivenNames y; refine keep_cut1 (y := y) ?_ ?_; (focus (dsimp only [y]; clear y)); rotate_left; (focus (clear_value y; revert y; intro _ _)))
                 | (extract_lets +onlyGivenNames y; refine keep_cut2 (y := y) ?_ ?_; (focus (dsimp only [y]; clear y)); rotate_left; (focus (clear_value y; revert y; intro _ _)))
                 | (extract_lets +onlyGivenNames y; clear_value y; revert y; intro _) | (with_reducible apply keep_dieComesUp)
                 | (with_reducible apply keep_trainEdges) | (with_reducible apply keep_foldl)
                 | (with_reducible apply keep_foldl1) | split | (dsimp only))

theorem keep_warmNext {P : Area → Prop} {z : State} {s : State} {a_k : Nat} (h : Keeps P z s)
    (kpower : P .power := by assumption) :
    Keeps P z (warmNext s a_k) := by
  unfold warmNext
  repeat' (first | (with_reducible assumption) | (exact Or.inl (by assumption)) | (exact Or.inr rfl)
                 | (exact Or.inr ⟨rfl, rfl, rfl, rfl⟩) | (intro)
                 | (extract_lets +onlyGivenNames y; refine keep_cut (y := y) ?_ ?_; (focus (dsimp only [y]; clear y)); rotate_left; (focus (clear_value y; revert y; intro _ _)))
                 | (extract_lets +onlyGivenNames y; refine keep_cut1 (y := y) ?_ ?_; (focus (dsimp only [y]; clear y)); rotate_left; (focus (clear_value y; revert y; intro _ _)))
                 | (extract_lets +onlyGivenNames y; refine keep_cut2 (y := y) ?_ ?_; (focus (dsimp only [y]; clear y)); rotate_left; (focus (clear_value y; revert y; intro _ _)))
                 | (extract_lets +onlyGivenNames y; clear_value y; revert y; intro _) | (with_reducible apply keep_modPwr)
                 | (with_reducible apply keep_setF) | (with_reducible refine keep_ite ?_ ?_) | split | (dsimp only)
                 | (with_reducible refine keep_mk ?_ rfl rfl rfl rfl rfl rfl rfl rfl rfl ?_ ?_ ?_ ?_ ?_ ?_ ?_ ?_ ?_ ?_ ?_ ?_ ?_ ?_ ?_ ?_ ?_ ?_))

theorem keep_warmStepEnd {P : Area → Prop} {z : State} {s : State} (h : Keeps P z s) (khbm : P .hbm := by assumption)
    (kbmk : P .bmk := by assumption) (kports : P .ports := by assumption) (kplats : P .plats := by assumption)
    (kfabric : P .fabric := by assumption) (kdests : P .dests := by assumption) (krings : P .rings := by assumption)
    (ksramUnits : P .sramUnits := by assumption) (khbmUnits : P .hbmUnits := by assumption)
    (kcodec : P .codec := by assumption) (kdma : P .dma := by assumption) (kfunctions : P .functions := by assumption)
    (ktwins : P .twins := by assumption) (kpower : P .power := by assumption) (kshadow : P .shadow := by assumption) :
    Keeps P z (warmStepEnd s) := by
  unfold warmStepEnd
  repeat' (first | (with_reducible assumption) | (exact Or.inl (by assumption)) | (exact Or.inr rfl)
                 | (exact Or.inr ⟨rfl, rfl, rfl, rfl⟩) | (intro)
                 | (extract_lets +onlyGivenNames y; refine keep_cut (y := y) ?_ ?_; (focus (dsimp only [y]; clear y)); rotate_left; (focus (clear_value y; revert y; intro _ _)))
                 | (extract_lets +onlyGivenNames y; refine keep_cut1 (y := y) ?_ ?_; (focus (dsimp only [y]; clear y)); rotate_left; (focus (clear_value y; revert y; intro _ _)))
                 | (extract_lets +onlyGivenNames y; refine keep_cut2 (y := y) ?_ ?_; (focus (dsimp only [y]; clear y)); rotate_left; (focus (clear_value y; revert y; intro _ _)))
                 | (extract_lets +onlyGivenNames y; clear_value y; revert y; intro _) | (with_reducible apply keep_warmNext)
                 | (with_reducible apply keep_settle) | (with_reducible apply keep_warmClear)
                 | (with_reducible apply keep_warmDies) | (with_reducible apply keep_trainStack)
                 | (with_reducible apply keep_refreshFns) | (with_reducible apply keep_modPwr)
                 | (with_reducible refine keep_ite ?_ ?_) | (with_reducible apply keep_foldl)
                 | (with_reducible apply keep_foldl1) | split | (dsimp only)
                 | (with_reducible refine keep_mk ?_ rfl rfl rfl rfl rfl rfl rfl rfl rfl ?_ ?_ ?_ ?_ ?_ ?_ ?_ ?_ ?_ ?_ ?_ ?_ ?_ ?_ ?_ ?_ ?_ ?_))

theorem keep_execWarmResetStepEnd {P : Area → Prop} {z : State} {s : State} (h : Keeps P z s)
    (khbm : P .hbm := by assumption) (kbmk : P .bmk := by assumption) (kports : P .ports := by assumption)
    (kplats : P .plats := by assumption) (kfabric : P .fabric := by assumption) (kdests : P .dests := by assumption)
    (krings : P .rings := by assumption) (ksramUnits : P .sramUnits := by assumption)
    (khbmUnits : P .hbmUnits := by assumption) (kcodec : P .codec := by assumption) (kdma : P .dma := by assumption)
    (kfunctions : P .functions := by assumption) (ktwins : P .twins := by assumption)
    (kpower : P .power := by assumption) (kshadow : P .shadow := by assumption) :
    ∀ t, execWarmResetStepEnd s = .next t → Keeps P z t := by
  unfold execWarmResetStepEnd; intro t e; injection e with e; subst e
  repeat' (first | (with_reducible assumption) | (intro) | (with_reducible apply keep_warmStepEnd) | split | (dsimp only))

theorem keep_dieHold {P : Area → Prop} {z : State} {s : State} {a_fn : Nat} {a_d : Nat} (h : Keeps P z s)
    (krings : P .rings := by assumption) (ktwins : P .twins := by assumption) (klog : P .log := by assumption) :
    Keeps P z (dieHold s a_fn a_d) := by
  unfold dieHold
  repeat' (first | (with_reducible assumption) | (intro) | (with_reducible apply keep_setDieState)
                 | (with_reducible apply keep_setF) | (with_reducible apply keep_logWWR)
                 | (with_reducible refine keep_ite ?_ ?_) | split | (dsimp only))

theorem keep_execDieHold {P : Area → Prop} {z : State} {a_fn : Nat} {a_die : Nat} {s : State} (h : Keeps P z s)
    (krings : P .rings := by assumption) (ktwins : P .twins := by assumption) (klog : P .log := by assumption) :
    ∀ t, execDieHold a_fn a_die s = .next t → Keeps P z t := by
  unfold execDieHold; intro t e; injection e with e; subst e
  repeat' (first | (with_reducible assumption) | (intro) | (with_reducible apply keep_dieHold)
                 | (with_reducible refine keep_ite ?_ ?_) | split | (dsimp only))

theorem keep_execDieFlushDone {P : Area → Prop} {z : State} {a_die : Nat} {s : State} (h : Keeps P z s)
    (khbm : P .hbm := by assumption) (kbmk : P .bmk := by assumption) (kports : P .ports := by assumption)
    (kfabric : P .fabric := by assumption) (kdests : P .dests := by assumption) (krings : P .rings := by assumption)
    (ksramUnits : P .sramUnits := by assumption) (khbmUnits : P .hbmUnits := by assumption)
    (kcodec : P .codec := by assumption) (kdma : P .dma := by assumption) (ktwins : P .twins := by assumption)
    (kshadow : P .shadow := by assumption) :
    ∀ t, execDieFlushDone a_die s = .next t → Keeps P z t := by
  unfold execDieFlushDone; intro t e; injection e with e; subst e
  repeat' (first | (with_reducible assumption) | (intro) | (with_reducible apply keep_resetDie)
                 | (with_reducible apply keep_settle) | (with_reducible refine keep_ite ?_ ?_) | split | (dsimp only))

theorem keep_dieRelease {P : Area → Prop} {z : State} {s : State} {a_die : Nat} (h : Keeps P z s) :
    Keeps P z (dieRelease s a_die) := by
  unfold dieRelease
  repeat' (first | (with_reducible assumption) | (intro) | (with_reducible apply keep_setF)
                 | (with_reducible apply keep_setDieState) | (with_reducible refine keep_ite ?_ ?_) | split | (dsimp only))

theorem keep_execDieRelease {P : Area → Prop} {z : State} {a_die : Nat} {s : State} (h : Keeps P z s) :
    ∀ t, execDieRelease a_die s = .next t → Keeps P z t := by
  unfold execDieRelease; intro t e; injection e with e; subst e
  repeat' (first | (with_reducible assumption) | (intro) | (with_reducible apply keep_dieRelease) | split | (dsimp only))

theorem keep_execDieReleaseDone {P : Area → Prop} {z : State} {a_die : Nat} {s : State} (h : Keeps P z s)
    (kbmk : P .bmk := by assumption) (kdma : P .dma := by assumption) :
    ∀ t, execDieReleaseDone a_die s = .next t → Keeps P z t := by
  unfold execDieReleaseDone; intro t e; injection e with e; subst e
  repeat' (first | (with_reducible assumption) | (intro) | (with_reducible apply keep_dieComesUp)
                 | (with_reducible apply keep_trainStack) | (with_reducible apply keep_restoreFences)
                 | (with_reducible apply keep_trainEdges) | (with_reducible refine keep_ite ?_ ?_) | split | (dsimp only))

theorem keep_edgeLoss {P : Area → Prop} {z : State} {s : State} {a_d : Nat} {a_e : Nat} (h : Keeps P z s)
    (kbmk : P .bmk := by assumption) (kports : P .ports := by assumption) (kplats : P .plats := by assumption)
    (kfabric : P .fabric := by assumption) (kdests : P .dests := by assumption) (krings : P .rings := by assumption)
    (ksramUnits : P .sramUnits := by assumption) (khbmUnits : P .hbmUnits := by assumption)
    (kcodec : P .codec := by assumption) (kdma : P .dma := by assumption) (kfunctions : P .functions := by assumption)
    (ktwins : P .twins := by assumption) (kdevCtl : P .devCtl := by assumption) (kshadow : P .shadow := by assumption)
    (klog : P .log := by assumption) :
    Keeps P z (edgeLoss s a_d a_e) := by
  unfold edgeLoss
  repeat' (first | (with_reducible assumption) | (exact Or.inl (by assumption)) | (exact Or.inr rfl)
                 | (exact Or.inr ⟨rfl, rfl, rfl, rfl⟩) | (intro)
                 | (extract_lets +onlyGivenNames y; refine keep_cut (y := y) ?_ ?_; (focus (dsimp only [y]; clear y)); rotate_left; (focus (clear_value y; revert y; intro _ _)))
                 | (extract_lets +onlyGivenNames y; refine keep_cut1 (y := y) ?_ ?_; (focus (dsimp only [y]; clear y)); rotate_left; (focus (clear_value y; revert y; intro _ _)))
                 | (extract_lets +onlyGivenNames y; refine keep_cut2 (y := y) ?_ ?_; (focus (dsimp only [y]; clear y)); rotate_left; (focus (clear_value y; revert y; intro _ _)))
                 | (extract_lets +onlyGivenNames y; clear_value y; revert y; intro _) | (with_reducible apply keep_setEdge)
                 | (with_reducible apply keep_satF) | (with_reducible apply keep_logD)
                 | (with_reducible apply keep_failContexts) | (with_reducible apply keep_setF)
                 | (with_reducible apply keep_failDie) | (with_reducible apply keep_syncStops)
                 | (with_reducible refine keep_ite ?_ ?_) | split | (dsimp only)
                 | (with_reducible refine keep_mk ?_ rfl rfl rfl rfl rfl rfl rfl rfl rfl ?_ ?_ ?_ ?_ ?_ ?_ ?_ ?_ ?_ ?_ ?_ ?_ ?_ ?_ ?_ ?_ ?_ ?_))

theorem keep_execChainEdgeLoss {P : Area → Prop} {z : State} {a_die : Nat} {a_edge : Nat} {s : State} (h : Keeps P z s)
    (kbmk : P .bmk := by assumption) (kports : P .ports := by assumption) (kplats : P .plats := by assumption)
    (kfabric : P .fabric := by assumption) (kdests : P .dests := by assumption) (krings : P .rings := by assumption)
    (ksramUnits : P .sramUnits := by assumption) (khbmUnits : P .hbmUnits := by assumption)
    (kcodec : P .codec := by assumption) (kdma : P .dma := by assumption) (kfunctions : P .functions := by assumption)
    (ktwins : P .twins := by assumption) (kdevCtl : P .devCtl := by assumption) (kshadow : P .shadow := by assumption)
    (klog : P .log := by assumption) :
    ∀ t, execChainEdgeLoss a_die a_edge s = .next t → Keeps P z t := by
  unfold execChainEdgeLoss; intro t e; injection e with e; subst e
  repeat' (first | (with_reducible assumption) | (intro) | (with_reducible apply keep_edgeLoss) | split | (dsimp only))

theorem keep_retrainEnd {P : Area → Prop} {z : State} {s : State} {a_d : Nat} {a_e : Nat} {a_ok : Bool} (h : Keeps P z s)
    (krings : P .rings := by assumption) (ktwins : P .twins := by assumption) (klog : P .log := by assumption) :
    Keeps P z (retrainEnd s a_d a_e a_ok) := by
  unfold retrainEnd
  repeat' (first | (with_reducible assumption) | (intro)
                 | (extract_lets +onlyGivenNames y; refine keep_cut (y := y) ?_ ?_; (focus (dsimp only [y]; clear y)); rotate_left; (focus (clear_value y; revert y; intro _ _)))
                 | (extract_lets +onlyGivenNames y; refine keep_cut1 (y := y) ?_ ?_; (focus (dsimp only [y]; clear y)); rotate_left; (focus (clear_value y; revert y; intro _ _)))
                 | (extract_lets +onlyGivenNames y; refine keep_cut2 (y := y) ?_ ?_; (focus (dsimp only [y]; clear y)); rotate_left; (focus (clear_value y; revert y; intro _ _)))
                 | (extract_lets +onlyGivenNames y; clear_value y; revert y; intro _) | (with_reducible apply keep_raise)
                 | (with_reducible apply keep_setEdge) | (with_reducible apply keep_logErr)
                 | (with_reducible refine keep_ite ?_ ?_) | split | (dsimp only))

theorem keep_execEdgeRetrainAttemptEnd {P : Area → Prop} {z : State} {a_die : Nat} {a_edge : Nat} {a_ok : Bool}
    {s : State} (h : Keeps P z s) (krings : P .rings := by assumption) (ktwins : P .twins := by assumption)
    (klog : P .log := by assumption) :
    ∀ t, execEdgeRetrainAttemptEnd a_die a_edge a_ok s = .next t → Keeps P z t := by
  unfold execEdgeRetrainAttemptEnd; intro t e; injection e with e; subst e
  repeat' (first | (with_reducible assumption) | (intro) | (with_reducible apply keep_retrainEnd) | split | (dsimp only))

theorem keep_execPerstDeassert {P : Area → Prop} {z : State} {a_port : Nat} {s : State} (h : Keeps P z s)
    (kpower : P .power := by assumption) :
    ∀ t, execPerstDeassert a_port s = .next t → Keeps P z t := by
  unfold execPerstDeassert; intro t e; injection e with e; subst e
  repeat' (first | (with_reducible assumption) | (exact Or.inl (by assumption)) | (exact Or.inr rfl)
                 | (exact Or.inr ⟨rfl, rfl, rfl, rfl⟩) | (intro)
                 | (extract_lets +onlyGivenNames y; refine keep_cut (y := y) ?_ ?_; (focus (dsimp only [y]; clear y)); rotate_left; (focus (clear_value y; revert y; intro _ _)))
                 | (extract_lets +onlyGivenNames y; refine keep_cut1 (y := y) ?_ ?_; (focus (dsimp only [y]; clear y)); rotate_left; (focus (clear_value y; revert y; intro _ _)))
                 | (extract_lets +onlyGivenNames y; refine keep_cut2 (y := y) ?_ ?_; (focus (dsimp only [y]; clear y)); rotate_left; (focus (clear_value y; revert y; intro _ _)))
                 | (extract_lets +onlyGivenNames y; clear_value y; revert y; intro _) | (with_reducible apply keep_modPwr)
                 | split | (dsimp only)
                 | (with_reducible refine keep_mk ?_ rfl rfl rfl rfl rfl rfl rfl rfl rfl ?_ ?_ ?_ ?_ ?_ ?_ ?_ ?_ ?_ ?_ ?_ ?_ ?_ ?_ ?_ ?_ ?_ ?_))

theorem keep_dlActive {P : Area → Prop} {z : State} {s : State} {a_p : Nat} (h : Keeps P z s) :
    Keeps P z (dlActive s a_p) := by
  unfold dlActive
  repeat' (first | (with_reducible assumption) | (intro)
                 | (extract_lets +onlyGivenNames y; refine keep_cut (y := y) ?_ ?_; (focus (dsimp only [y]; clear y)); rotate_left; (focus (clear_value y; revert y; intro _ _)))
                 | (extract_lets +onlyGivenNames y; refine keep_cut1 (y := y) ?_ ?_; (focus (dsimp only [y]; clear y)); rotate_left; (focus (clear_value y; revert y; intro _ _)))
                 | (extract_lets +onlyGivenNames y; refine keep_cut2 (y := y) ?_ ?_; (focus (dsimp only [y]; clear y)); rotate_left; (focus (clear_value y; revert y; intro _ _)))
                 | (extract_lets +onlyGivenNames y; clear_value y; revert y; intro _) | (with_reducible apply keep_fresh)
                 | (with_reducible apply keep_setF) | (with_reducible apply keep_refreshFn)
                 | (with_reducible refine keep_ite ?_ ?_) | split | (dsimp only))

theorem keep_execDlActive {P : Area → Prop} {z : State} {a_port : Nat} {s : State} (h : Keeps P z s) :
    ∀ t, execDlActive a_port s = .next t → Keeps P z t := by
  unfold execDlActive; intro t e; injection e with e; subst e
  repeat' (first | (with_reducible assumption) | (intro) | (with_reducible apply keep_dlActive) | split | (dsimp only))

theorem keep_execHpAttn {P : Area → Prop} {z : State} {s : State} (h : Keeps P z s) (krings : P .rings := by assumption) :
    ∀ t, execHpAttn s = .next t → Keeps P z t := by
  unfold execHpAttn; intro t e; injection e with e; subst e
  repeat' (first | (with_reducible assumption) | (intro) | (with_reducible apply keep_raise) | (with_reducible apply keep_setF)
                 | (with_reducible refine keep_ite ?_ ?_) | split | (dsimp only))

theorem keep_quiesce {P : Area → Prop} {z : State} {s : State} (h : Keeps P z s) (kbmk : P .bmk := by assumption)
    (kports : P .ports := by assumption) (kplats : P .plats := by assumption) (kfabric : P .fabric := by assumption)
    (kdests : P .dests := by assumption) (krings : P .rings := by assumption)
    (ksramUnits : P .sramUnits := by assumption) (khbmUnits : P .hbmUnits := by assumption)
    (kcodec : P .codec := by assumption) (kdma : P .dma := by assumption) (ktwins : P .twins := by assumption)
    (kpower : P .power := by assumption) (klog : P .log := by assumption) :
    Keeps P z (quiesce s) := by
  unfold quiesce
  repeat' (first | (with_reducible assumption) | (exact Or.inl (by assumption)) | (exact Or.inr rfl)
                 | (exact Or.inr ⟨rfl, rfl, rfl, rfl⟩) | (intro)
                 | (extract_lets +onlyGivenNames y; refine keep_cut (y := y) ?_ ?_; (focus (dsimp only [y]; clear y)); rotate_left; (focus (clear_value y; revert y; intro _ _)))
                 | (extract_lets +onlyGivenNames y; refine keep_cut1 (y := y) ?_ ?_; (focus (dsimp only [y]; clear y)); rotate_left; (focus (clear_value y; revert y; intro _ _)))
                 | (extract_lets +onlyGivenNames y; refine keep_cut2 (y := y) ?_ ?_; (focus (dsimp only [y]; clear y)); rotate_left; (focus (clear_value y; revert y; intro _ _)))
                 | (extract_lets +onlyGivenNames y; clear_value y; revert y; intro _) | (with_reducible apply keep_disablePort)
                 | (with_reducible apply keep_ringShutdown) | (with_reducible apply keep_releasePins)
                 | (with_reducible apply keep_modPwr) | (with_reducible apply keep_setF)
                 | (with_reducible refine keep_ite ?_ ?_) | (with_reducible apply keep_foldl)
                 | (with_reducible apply keep_foldl1) | split | (dsimp only)
                 | (with_reducible refine keep_mk ?_ rfl rfl rfl rfl rfl rfl rfl rfl rfl ?_ ?_ ?_ ?_ ?_ ?_ ?_ ?_ ?_ ?_ ?_ ?_ ?_ ?_ ?_ ?_ ?_ ?_))

theorem keep_execQuiesce {P : Area → Prop} {z : State} {s : State} (h : Keeps P z s) (kbmk : P .bmk := by assumption)
    (kports : P .ports := by assumption) (kplats : P .plats := by assumption) (kfabric : P .fabric := by assumption)
    (kdests : P .dests := by assumption) (krings : P .rings := by assumption)
    (ksramUnits : P .sramUnits := by assumption) (khbmUnits : P .hbmUnits := by assumption)
    (kcodec : P .codec := by assumption) (kdma : P .dma := by assumption) (ktwins : P .twins := by assumption)
    (kpower : P .power := by assumption) (klog : P .log := by assumption) :
    ∀ t, execQuiesce s = .next t → Keeps P z t := by
  unfold execQuiesce; intro t e; injection e with e; subst e
  repeat' (first | (with_reducible assumption) | (intro) | (with_reducible apply keep_quiesce) | split | (dsimp only))

theorem keep_quiesceDone {P : Area → Prop} {z : State} {s : State} (h : Keeps P z s) (krings : P .rings := by assumption)
    (kpower : P .power := by assumption) (ksecurity : P .security := by assumption) :
    Keeps P z (quiesceDone s) := by
  unfold quiesceDone
  repeat' (first | (with_reducible assumption) | (exact Or.inl (by assumption)) | (exact Or.inr rfl)
                 | (exact Or.inr ⟨rfl, rfl, rfl, rfl⟩) | (intro)
                 | (extract_lets +onlyGivenNames y; refine keep_cut (y := y) ?_ ?_; (focus (dsimp only [y]; clear y)); rotate_left; (focus (clear_value y; revert y; intro _ _)))
                 | (extract_lets +onlyGivenNames y; refine keep_cut1 (y := y) ?_ ?_; (focus (dsimp only [y]; clear y)); rotate_left; (focus (clear_value y; revert y; intro _ _)))
                 | (extract_lets +onlyGivenNames y; refine keep_cut2 (y := y) ?_ ?_; (focus (dsimp only [y]; clear y)); rotate_left; (focus (clear_value y; revert y; intro _ _)))
                 | (extract_lets +onlyGivenNames y; clear_value y; revert y; intro _) | (with_reducible apply keep_modPwr)
                 | (with_reducible apply keep_sealLog) | (with_reducible apply keep_raise) | (with_reducible apply keep_emitOut)
                 | (with_reducible apply keep_setF) | (with_reducible refine keep_ite ?_ ?_) | split | (dsimp only)
                 | (with_reducible refine keep_mk ?_ rfl rfl rfl rfl rfl rfl rfl rfl rfl ?_ ?_ ?_ ?_ ?_ ?_ ?_ ?_ ?_ ?_ ?_ ?_ ?_ ?_ ?_ ?_ ?_ ?_))

theorem keep_execQuiesceDone {P : Area → Prop} {z : State} {s : State} (h : Keeps P z s)
    (krings : P .rings := by assumption) (kpower : P .power := by assumption) (ksecurity : P .security := by assumption) :
    ∀ t, execQuiesceDone s = .next t → Keeps P z t := by
  unfold execQuiesceDone; intro t e; injection e with e; subst e
  repeat' (first | (with_reducible assumption) | (intro) | (with_reducible apply keep_quiesceDone) | split | (dsimp only))

theorem keep_drainAtOnce {P : Area → Prop} {z : State} {s : State} (h : Keeps P z s) (kplats : P .plats := by assumption)
    (kfabric : P .fabric := by assumption) (kdests : P .dests := by assumption) (krings : P .rings := by assumption)
    (ksramUnits : P .sramUnits := by assumption) (khbmUnits : P .hbmUnits := by assumption)
    (kcodec : P .codec := by assumption) (kdma : P .dma := by assumption) (kfunctions : P .functions := by assumption)
    (ktwins : P .twins := by assumption) :
    Keeps P z (drainAtOnce s) := by
  unfold drainAtOnce
  repeat' (first | (with_reducible assumption) | (intro) | (with_reducible apply keep_squashRunning)
                 | (with_reducible apply keep_drainLimit) | (with_reducible refine keep_ite ?_ ?_)
                 | (with_reducible apply keep_foldl) | (with_reducible apply keep_foldl1) | split | (dsimp only))

theorem keep_hpEject {P : Area → Prop} {z : State} {s : State} (h : Keeps P z s) (kbmk : P .bmk := by assumption)
    (kports : P .ports := by assumption) (kplats : P .plats := by assumption) (kfabric : P .fabric := by assumption)
    (kdests : P .dests := by assumption) (krings : P .rings := by assumption)
    (ksramUnits : P .sramUnits := by assumption) (khbmUnits : P .hbmUnits := by assumption)
    (kcodec : P .codec := by assumption) (kdma : P .dma := by assumption) (kfunctions : P .functions := by assumption)
    (ktwins : P .twins := by assumption) (kpower : P .power := by assumption) (klog : P .log := by assumption) :
    Keeps P z (hpEject s) := by
  unfold hpEject
  repeat' (first | (with_reducible assumption) | (intro)
                 | (extract_lets +onlyGivenNames y; refine keep_cut (y := y) ?_ ?_; (focus (dsimp only [y]; clear y)); rotate_left; (focus (clear_value y; revert y; intro _ _)))
                 | (extract_lets +onlyGivenNames y; refine keep_cut1 (y := y) ?_ ?_; (focus (dsimp only [y]; clear y)); rotate_left; (focus (clear_value y; revert y; intro _ _)))
                 | (extract_lets +onlyGivenNames y; refine keep_cut2 (y := y) ?_ ?_; (focus (dsimp only [y]; clear y)); rotate_left; (focus (clear_value y; revert y; intro _ _)))
                 | (extract_lets +onlyGivenNames y; clear_value y; revert y; intro _) | (with_reducible apply keep_setF)
                 | (with_reducible apply keep_raise) | (with_reducible apply keep_drainAtOnce)
                 | (with_reducible apply keep_quiesce) | (with_reducible refine keep_ite ?_ ?_) | split | (dsimp only))

theorem keep_execHpEject {P : Area → Prop} {z : State} {s : State} (h : Keeps P z s) (kbmk : P .bmk := by assumption)
    (kports : P .ports := by assumption) (kplats : P .plats := by assumption) (kfabric : P .fabric := by assumption)
    (kdests : P .dests := by assumption) (krings : P .rings := by assumption)
    (ksramUnits : P .sramUnits := by assumption) (khbmUnits : P .hbmUnits := by assumption)
    (kcodec : P .codec := by assumption) (kdma : P .dma := by assumption) (kfunctions : P .functions := by assumption)
    (ktwins : P .twins := by assumption) (kpower : P .power := by assumption) (klog : P .log := by assumption) :
    ∀ t, execHpEject s = .next t → Keeps P z t := by
  unfold execHpEject; intro t e; injection e with e; subst e
  repeat' (first | (with_reducible assumption) | (intro) | (with_reducible apply keep_hpEject) | split | (dsimp only))

end Sys2Proof.Machine
end

