-- ==== Sys2Proof/Laws/KeepPkg.lean ====
section
/-! SUPPORT. What the operations of Machine/Pkg.lean keep (Laws/Keep.lean), one lemma per operation. -/

set_option linter.tactic.unusedName false
set_option linter.all false
set_option Elab.async false

namespace Sys2Proof.Machine

theorem keep_thermTrip {P : Area → Prop} {z s : State} {d : Nat} (h : Keeps P z s) 
    (kbmk : P .bmk := by assumption) (kports : P .ports := by assumption) (kfabric : P .fabric := by assumption) (kdests : P .dests := by assumption) (krings : P .rings := by assumption) (ksramUnits : P .sramUnits := by assumption) (khbmUnits : P .hbmUnits := by assumption) (kcodec : P .codec := by assumption) (kdma : P .dma := by assumption) (ktwins : P .twins := by assumption) (kpower : P .power := by assumption) (kshadow : P .shadow := by assumption) (klog : P .log := by assumption) : Keeps P z (thermTrip s d) := by
  unfold thermTrip
  extract_lets s1 s2 s3
  have h1 : Keeps P z s1 := keep_holdAll (keep_haltPackage h (fun _ h => h))
  have h2 : Keeps P z s2 := keep_logErr h1
  have h3 : Keeps P z s3 := keep_modPwr h2
  clear_value s3
  with_reducible exact keep_raise (keep_showLife h3)

theorem keep_thermalSample {P : Area → Prop} {z : State} {s : State} {a_d : Nat} {a_temp : Nat} (h : Keeps P z s)
    (kbmk : P .bmk := by assumption) (kports : P .ports := by assumption) (kfabric : P .fabric := by assumption)
    (kdests : P .dests := by assumption) (krings : P .rings := by assumption)
    (ksramUnits : P .sramUnits := by assumption) (khbmUnits : P .hbmUnits := by assumption)
    (kcodec : P .codec := by assumption) (kdma : P .dma := by assumption) (ktwins : P .twins := by assumption)
    (kpower : P .power := by assumption) (kshadow : P .shadow := by assumption) (klog : P .log := by assumption) :
    Keeps P z (thermalSample s a_d a_temp) := by
  unfold thermalSample
  repeat' (first | (with_reducible assumption) | (intro)
                 | (extract_lets +onlyGivenNames y; refine keep_cut (y := y) ?_ ?_; (focus (dsimp only [y]; clear y)); rotate_left; (focus (clear_value y; revert y; intro _ _)))
                 | (extract_lets +onlyGivenNames y; refine keep_cut1 (y := y) ?_ ?_; (focus (dsimp only [y]; clear y)); rotate_left; (focus (clear_value y; revert y; intro _ _)))
                 | (extract_lets +onlyGivenNames y; refine keep_cut2 (y := y) ?_ ?_; (focus (dsimp only [y]; clear y)); rotate_left; (focus (clear_value y; revert y; intro _ _)))
                 | (extract_lets +onlyGivenNames y; clear_value y; revert y; intro _) | (with_reducible apply keep_maxF)
                 | (with_reducible apply keep_setF) | (with_reducible apply keep_logC) | (with_reducible apply keep_raise)
                 | (with_reducible apply keep_thermTrip) | (with_reducible refine keep_ite ?_ ?_) | split | (dsimp only))

theorem keep_execThermalSample {P : Area → Prop} {z : State} {a_die : Nat} {a_temp : Nat} {s : State} (h : Keeps P z s)
    (kbmk : P .bmk := by assumption) (kports : P .ports := by assumption) (kfabric : P .fabric := by assumption)
    (kdests : P .dests := by assumption) (krings : P .rings := by assumption)
    (ksramUnits : P .sramUnits := by assumption) (khbmUnits : P .hbmUnits := by assumption)
    (kcodec : P .codec := by assumption) (kdma : P .dma := by assumption) (ktwins : P .twins := by assumption)
    (kpower : P .power := by assumption) (kshadow : P .shadow := by assumption) (klog : P .log := by assumption) :
    ∀ t, execThermalSample a_die a_temp s = .next t → Keeps P z t := by
  unfold execThermalSample; intro t e; injection e with e; subst e
  repeat' (first | (with_reducible assumption) | (intro) | (with_reducible apply keep_thermalSample)
                 | (with_reducible refine keep_ite ?_ ?_) | split | (dsimp only))

theorem keep_lifeSecond {P : Area → Prop} {z : State} {s : State} {a_t : Nat} (h : Keeps P z s)
    (krings : P .rings := by assumption) (kpower : P .power := by assumption) :
    Keeps P z (lifeSecond s a_t) := by
  unfold lifeSecond
  repeat' (first | (with_reducible assumption) | (exact Or.inl (by assumption)) | (exact Or.inr rfl)
                 | (exact Or.inr ⟨rfl, rfl, rfl, rfl⟩) | (intro)
                 | (extract_lets +onlyGivenNames y; refine keep_cut (y := y) ?_ ?_; (focus (dsimp only [y]; clear y)); rotate_left; (focus (clear_value y; revert y; intro _ _)))
                 | (extract_lets +onlyGivenNames y; refine keep_cut1 (y := y) ?_ ?_; (focus (dsimp only [y]; clear y)); rotate_left; (focus (clear_value y; revert y; intro _ _)))
                 | (extract_lets +onlyGivenNames y; refine keep_cut2 (y := y) ?_ ?_; (focus (dsimp only [y]; clear y)); rotate_left; (focus (clear_value y; revert y; intro _ _)))
                 | (extract_lets +onlyGivenNames y; clear_value y; revert y; intro _) | (with_reducible apply keep_showLife)
                 | (with_reducible apply keep_modPwr) | (with_reducible apply keep_raise)
                 | (with_reducible refine keep_ite ?_ ?_) | split | (dsimp only)
                 | (with_reducible refine keep_mk ?_ rfl rfl rfl rfl rfl rfl rfl rfl rfl ?_ ?_ ?_ ?_ ?_ ?_ ?_ ?_ ?_ ?_ ?_ ?_ ?_ ?_ ?_ ?_ ?_ ?_))

theorem keep_execLifeSecond {P : Area → Prop} {z : State} {a_temp : Nat} {s : State} (h : Keeps P z s)
    (krings : P .rings := by assumption) (kpower : P .power := by assumption) :
    ∀ t, execLifeSecond a_temp s = .next t → Keeps P z t := by
  unfold execLifeSecond; intro t e; injection e with e; subst e
  repeat' (first | (with_reducible assumption) | (intro) | (with_reducible apply keep_lifeSecond)
                 | (with_reducible refine keep_ite ?_ ?_) | split | (dsimp only))

theorem keep_execLifeStore {P : Area → Prop} {z : State} {s : State} (h : Keeps P z s) (kpower : P .power := by assumption) :
    ∀ t, execLifeStore s = .next t → Keeps P z t := by
  unfold execLifeStore; intro t e; injection e with e; subst e
  repeat' (first | (with_reducible assumption) | (exact Or.inl (by assumption)) | (exact Or.inr rfl)
                 | (exact Or.inr ⟨rfl, rfl, rfl, rfl⟩) | (intro)
                 | (extract_lets +onlyGivenNames y; refine keep_cut (y := y) ?_ ?_; (focus (dsimp only [y]; clear y)); rotate_left; (focus (clear_value y; revert y; intro _ _)))
                 | (extract_lets +onlyGivenNames y; refine keep_cut1 (y := y) ?_ ?_; (focus (dsimp only [y]; clear y)); rotate_left; (focus (clear_value y; revert y; intro _ _)))
                 | (extract_lets +onlyGivenNames y; refine keep_cut2 (y := y) ?_ ?_; (focus (dsimp only [y]; clear y)); rotate_left; (focus (clear_value y; revert y; intro _ _)))
                 | (extract_lets +onlyGivenNames y; clear_value y; revert y; intro _) | (with_reducible apply keep_modPwr)
                 | (with_reducible refine keep_ite ?_ ?_) | split | (dsimp only)
                 | (with_reducible refine keep_mk ?_ rfl rfl rfl rfl rfl rfl rfl rfl rfl ?_ ?_ ?_ ?_ ?_ ?_ ?_ ?_ ?_ ?_ ?_ ?_ ?_ ?_ ?_ ?_ ?_ ?_))

end Sys2Proof.Machine
end

