-- ==== Sys2Proof/Laws/KeepTick.lean ====
section
/-! SUPPORT. What the operations of Machine/Tick.lean keep (Laws/Keep.lean), one lemma per operation. -/

set_option linter.tactic.unusedName false
set_option linter.all false
set_option Elab.async false

namespace Sys2Proof.Machine

theorem keep_tickSuspension {P : Area → Prop} {z : State} {s : State} (h : Keeps P z s) (kdests : P .dests := by assumption) :
    Keeps P z (tickSuspension s) := by
  unfold tickSuspension
  repeat' (first | (with_reducible assumption) | (exact Or.inl (by assumption)) | (exact Or.inr rfl)
                 | (exact Or.inr ⟨rfl, rfl, rfl, rfl⟩) | (intro)
                 | (extract_lets +onlyGivenNames y; refine keep_cut (y := y) ?_ ?_; (focus (dsimp only [y]; clear y)); rotate_left; (focus (clear_value y; revert y; intro _ _)))
                 | (extract_lets +onlyGivenNames y; refine keep_cut1 (y := y) ?_ ?_; (focus (dsimp only [y]; clear y)); rotate_left; (focus (clear_value y; revert y; intro _ _)))
                 | (extract_lets +onlyGivenNames y; refine keep_cut2 (y := y) ?_ ?_; (focus (dsimp only [y]; clear y)); rotate_left; (focus (clear_value y; revert y; intro _ _)))
                 | (extract_lets +onlyGivenNames y; clear_value y; revert y; intro _) | (with_reducible apply keep_addF)
                 | (with_reducible apply keep_foldl) | (with_reducible apply keep_foldl1) | split | (dsimp only)
                 | (with_reducible refine keep_mk ?_ rfl rfl rfl rfl rfl rfl rfl rfl rfl ?_ ?_ ?_ ?_ ?_ ?_ ?_ ?_ ?_ ?_ ?_ ?_ ?_ ?_ ?_ ?_ ?_ ?_))

theorem keep_tickWaits {P : Area → Prop} {z : State} {s : State} (h : Keeps P z s) :
    Keeps P z (tickWaits s) := by
  unfold tickWaits
  repeat' (first | (with_reducible assumption) | (intro)
                 | (extract_lets +onlyGivenNames y; refine keep_cut (y := y) ?_ ?_; (focus (dsimp only [y]; clear y)); rotate_left; (focus (clear_value y; revert y; intro _ _)))
                 | (extract_lets +onlyGivenNames y; refine keep_cut1 (y := y) ?_ ?_; (focus (dsimp only [y]; clear y)); rotate_left; (focus (clear_value y; revert y; intro _ _)))
                 | (extract_lets +onlyGivenNames y; refine keep_cut2 (y := y) ?_ ?_; (focus (dsimp only [y]; clear y)); rotate_left; (focus (clear_value y; revert y; intro _ _)))
                 | (extract_lets +onlyGivenNames y; clear_value y; revert y; intro _) | (with_reducible apply keep_addF)
                 | (with_reducible refine keep_ite ?_ ?_) | (with_reducible apply keep_foldl)
                 | (with_reducible apply keep_foldl1) | split | (dsimp only))

theorem keep_tickPasses {P : Area → Prop} {z : State} {s : State} (h : Keeps P z s) :
    Keeps P z (tickPasses s) := by
  unfold tickPasses
  repeat' (first | (with_reducible assumption) | (intro) | (with_reducible apply keep_addF) | (with_reducible apply keep_foldl)
                 | (with_reducible apply keep_foldl1) | split | (dsimp only))

theorem keep_tickZero {P : Area → Prop} {z : State} {s : State} (h : Keeps P z s) (ksram : P .sram := by assumption)
    (ksramUnits : P .sramUnits := by assumption) :
    Keeps P z (tickZero s) := by
  unfold tickZero
  repeat' (first | (with_reducible assumption) | (intro) | (with_reducible apply keep_zeroNext)
                 | (with_reducible apply keep_foldl) | (with_reducible apply keep_foldl1) | split | (dsimp only))

theorem keep_tickStops {P : Area → Prop} {z : State} {s : State} (h : Keeps P z s) (krings : P .rings := by assumption)
    (khbmUnits : P .hbmUnits := by assumption) :
    Keeps P z (tickStops s) := by
  unfold tickStops
  repeat' (first | (with_reducible assumption) | (intro) | (with_reducible apply keep_sqStopped)
                 | (with_reducible apply keep_foldl) | (with_reducible apply keep_foldl1) | split | (dsimp only))

theorem keep_tickSlots {P : Area → Prop} {z s : State} (h : Keeps P z s) 
    (kports : P .ports := by assumption) : Keeps P z (tickSlots s) := by
  unfold tickSlots
  exact keep_ite (keep_foldl _ h (fun _ _ h => keep_idleSlot h)) h

theorem keep_tick {P : Area → Prop} {z : State} {s : State} (h : Keeps P z s) (ksram : P .sram := by assumption)
    (kports : P .ports := by assumption) (kdests : P .dests := by assumption) (krings : P .rings := by assumption)
    (ksramUnits : P .sramUnits := by assumption) (khbmUnits : P .hbmUnits := by assumption)
    (kcodec : P .codec := by assumption) (ktime : P .time := by assumption) :
    Keeps P z (tick s) := by
  unfold tick
  repeat' (first | (with_reducible assumption) | (exact Or.inl (by assumption)) | (exact Or.inr rfl)
                 | (exact Or.inr ⟨rfl, rfl, rfl, rfl⟩) | (intro)
                 | (extract_lets +onlyGivenNames y; refine keep_cut (y := y) ?_ ?_; (focus (dsimp only [y]; clear y)); rotate_left; (focus (clear_value y; revert y; intro _ _)))
                 | (extract_lets +onlyGivenNames y; refine keep_cut1 (y := y) ?_ ?_; (focus (dsimp only [y]; clear y)); rotate_left; (focus (clear_value y; revert y; intro _ _)))
                 | (extract_lets +onlyGivenNames y; refine keep_cut2 (y := y) ?_ ?_; (focus (dsimp only [y]; clear y)); rotate_left; (focus (clear_value y; revert y; intro _ _)))
                 | (extract_lets +onlyGivenNames y; clear_value y; revert y; intro _) | (with_reducible apply keep_tickSlots)
                 | (with_reducible apply keep_tickStops) | (with_reducible apply keep_finishJobs)
                 | (with_reducible apply keep_tickZero) | (with_reducible apply keep_tickPasses)
                 | (with_reducible apply keep_tickWaits) | (with_reducible apply keep_addF)
                 | (with_reducible apply keep_tickSuspension) | (with_reducible refine keep_ite ?_ ?_) | split | (dsimp only)
                 | (with_reducible refine keep_mk ?_ rfl rfl rfl rfl rfl rfl rfl rfl rfl ?_ ?_ ?_ ?_ ?_ ?_ ?_ ?_ ?_ ?_ ?_ ?_ ?_ ?_ ?_ ?_ ?_ ?_))

end Sys2Proof.Machine
end

