-- ==== Sys2Proof/Laws/KeepPcie.lean ====
section
/-! SUPPORT. What the operations of Machine/Pcie.lean keep (Laws/Keep.lean), one lemma per operation. -/

set_option linter.tactic.unusedName false
set_option linter.all false
set_option Elab.async false

namespace Sys2Proof.Machine

theorem keep_msixWrite {P : Area → Prop} {z : State} {s : State} {a_fn : Nat} {a_off : Nat} {a_v : Nat} (h : Keeps P z s)
    (krings : P .rings := by assumption) :
    Keeps P z (msixWrite s a_fn a_off a_v) := by
  unfold msixWrite
  repeat' (first | (with_reducible assumption) | (exact Or.inl (by assumption)) | (exact Or.inr rfl)
                 | (exact Or.inr ⟨rfl, rfl, rfl, rfl⟩) | (intro)
                 | (extract_lets +onlyGivenNames y; refine keep_cut (y := y) ?_ ?_; (focus (dsimp only [y]; clear y)); rotate_left; (focus (clear_value y; revert y; intro _ _)))
                 | (extract_lets +onlyGivenNames y; refine keep_cut1 (y := y) ?_ ?_; (focus (dsimp only [y]; clear y)); rotate_left; (focus (clear_value y; revert y; intro _ _)))
                 | (extract_lets +onlyGivenNames y; refine keep_cut2 (y := y) ?_ ?_; (focus (dsimp only [y]; clear y)); rotate_left; (focus (clear_value y; revert y; intro _ _)))
                 | (extract_lets +onlyGivenNames y; clear_value y; revert y; intro _) | (with_reducible apply keep_msixUnmask)
                 | (with_reducible refine keep_ite ?_ ?_) | split | (dsimp only)
                 | (with_reducible refine keep_mk ?_ rfl rfl rfl rfl rfl rfl rfl rfl rfl ?_ ?_ ?_ ?_ ?_ ?_ ?_ ?_ ?_ ?_ ?_ ?_ ?_ ?_ ?_ ?_ ?_ ?_))

theorem keep_cfgWrite {P : Area → Prop} {z : State} {s : State} {a_fn : Nat} {a_off : Nat} {a_v : Nat} (h : Keeps P z s)
    (krings : P .rings := by assumption) (kdevCtl : P .devCtl := by assumption) :
    Keeps P z (cfgWrite s a_fn a_off a_v) := by
  unfold cfgWrite
  repeat' (first | (with_reducible assumption) | (exact Or.inl (by assumption)) | (exact Or.inr rfl)
                 | (exact Or.inr ⟨rfl, rfl, rfl, rfl⟩) | (intro)
                 | (extract_lets +onlyGivenNames y; refine keep_cut (y := y) ?_ ?_; (focus (dsimp only [y]; clear y)); rotate_left; (focus (clear_value y; revert y; intro _ _)))
                 | (extract_lets +onlyGivenNames y; refine keep_cut1 (y := y) ?_ ?_; (focus (dsimp only [y]; clear y)); rotate_left; (focus (clear_value y; revert y; intro _ _)))
                 | (extract_lets +onlyGivenNames y; refine keep_cut2 (y := y) ?_ ?_; (focus (dsimp only [y]; clear y)); rotate_left; (focus (clear_value y; revert y; intro _ _)))
                 | (extract_lets +onlyGivenNames y; clear_value y; revert y; intro _) | (with_reducible refine keep_ite ?_ ?_)
                 | split | (dsimp only)
                 | (with_reducible refine keep_mk ?_ rfl rfl rfl rfl rfl rfl rfl rfl rfl ?_ ?_ ?_ ?_ ?_ ?_ ?_ ?_ ?_ ?_ ?_ ?_ ?_ ?_ ?_ ?_ ?_ ?_))

theorem keep_putDwords {P : Area → Prop} {z : State} {a_f : State → Nat → Nat → State} {s : State} {a_off : Nat}
    {a_len : Nat} {a_data : Nat} (h : Keeps P z s) (hf : ∀ x0 x1 x2, Keeps P z x0 → Keeps P z (a_f x0 x1 x2)) :
    Keeps P z (putDwords a_f s a_off a_len a_data) := by
  unfold putDwords
  repeat' (first | (with_reducible assumption) | (intro) | (with_reducible apply hf) | (with_reducible refine keep_ite ?_ ?_)
                 | split | (dsimp only))

end Sys2Proof.Machine
end

