-- ==== Sys2Proof/Laws/KeepHost.lean ====
section
/-! SUPPORT. What the operations of Machine/Host.lean keep (Laws/Keep.lean), one lemma per operation. -/

set_option linter.tactic.unusedName false
set_option linter.all false
set_option Elab.async false

namespace Sys2Proof.Machine

theorem keep_badAccess {P : Area → Prop} {z : State} {s : State} {a_fn : Nat} {a_off : Nat} (h : Keeps P z s)
    (krings : P .rings := by assumption) (ktwins : P .twins := by assumption) (klog : P .log := by assumption) :
    Keeps P z (badAccess s a_fn a_off) := by
  unfold badAccess
  repeat' (first | (with_reducible assumption) | (intro) | (with_reducible apply keep_logC) | split | (dsimp only))

theorem keep_clearRead {P : Area → Prop} {z : State} {s : State} {a_r : RegRow} {a_o : Nat} {a_off : Nat} {a_len : Nat}
    (h : Keeps P z s) (kcodec : P .codec := by assumption) :
    Keeps P z (clearRead s a_r a_o a_off a_len) := by
  unfold clearRead
  repeat' (first | (with_reducible assumption) | (exact Or.inl (by assumption)) | (exact Or.inr rfl)
                 | (exact Or.inr ⟨rfl, rfl, rfl, rfl⟩) | (intro)
                 | (extract_lets +onlyGivenNames y; refine keep_cut (y := y) ?_ ?_; (focus (dsimp only [y]; clear y)); rotate_left; (focus (clear_value y; revert y; intro _ _)))
                 | (extract_lets +onlyGivenNames y; refine keep_cut1 (y := y) ?_ ?_; (focus (dsimp only [y]; clear y)); rotate_left; (focus (clear_value y; revert y; intro _ _)))
                 | (extract_lets +onlyGivenNames y; refine keep_cut2 (y := y) ?_ ?_; (focus (dsimp only [y]; clear y)); rotate_left; (focus (clear_value y; revert y; intro _ _)))
                 | (extract_lets +onlyGivenNames y; clear_value y; revert y; intro _) | (with_reducible apply keep_modCdc)
                 | (with_reducible apply keep_setF) | (with_reducible refine keep_ite ?_ ?_) | (with_reducible apply keep_foldl)
                 | (with_reducible apply keep_foldl1) | split | (dsimp only)
                 | (with_reducible refine keep_mk ?_ rfl rfl rfl rfl rfl rfl rfl rfl rfl ?_ ?_ ?_ ?_ ?_ ?_ ?_ ?_ ?_ ?_ ?_ ?_ ?_ ?_ ?_ ?_ ?_ ?_))

theorem keep_readReg {P : Area → Prop} {z : State} {s : State} {a_fn : Nat} {a_off : Nat} {a_len : Nat} (h : Keeps P z s)
    (krings : P .rings := by assumption) (ksramUnits : P .sramUnits := by assumption)
    (kcodec : P .codec := by assumption) (ktwins : P .twins := by assumption) (klog : P .log := by assumption) :
    Keeps P z (readReg s a_fn a_off a_len).1 := by
  unfold readReg
  repeat' (first | (with_reducible assumption) | (exact Or.inl (by assumption)) | (exact Or.inr rfl)
                 | (exact Or.inr ⟨rfl, rfl, rfl, rfl⟩) | (intro)
                 | (extract_lets +onlyGivenNames y; refine keep_cut (y := y) ?_ ?_; (focus (dsimp only [y]; clear y)); rotate_left; (focus (clear_value y; revert y; intro _ _)))
                 | (extract_lets +onlyGivenNames y; refine keep_cut1 (y := y) ?_ ?_; (focus (dsimp only [y]; clear y)); rotate_left; (focus (clear_value y; revert y; intro _ _)))
                 | (extract_lets +onlyGivenNames y; refine keep_cut2 (y := y) ?_ ?_; (focus (dsimp only [y]; clear y)); rotate_left; (focus (clear_value y; revert y; intro _ _)))
                 | (extract_lets +onlyGivenNames y; have q : (_ : _) → _ := y; clear q; dsimp only [y]; clear y)
                 | (extract_lets +onlyGivenNames y; clear_value y; revert y; intro _) | (with_reducible apply keep_fabIndRead)
                 | (with_reducible apply keep_srmIndRead) | (with_reducible apply keep_clearRead)
                 | (with_reducible refine keep_ite ?_ ?_) | split | (dsimp only)
                 | (with_reducible refine keep_mk ?_ rfl rfl rfl rfl rfl rfl rfl rfl rfl ?_ ?_ ?_ ?_ ?_ ?_ ?_ ?_ ?_ ?_ ?_ ?_ ?_ ?_ ?_ ?_ ?_ ?_))

theorem keep_readVf {P : Area → Prop} {z : State} {s : State} {a_fn : Nat} {a_off : Nat} {a_len : Nat} (h : Keeps P z s)
    (kcodec : P .codec := by assumption) :
    Keeps P z (readVf s a_fn a_off a_len).1 := by
  unfold readVf
  repeat' (first | (with_reducible assumption) | (exact Or.inl (by assumption)) | (exact Or.inr rfl)
                 | (exact Or.inr ⟨rfl, rfl, rfl, rfl⟩) | (intro)
                 | (extract_lets +onlyGivenNames y; refine keep_cut (y := y) ?_ ?_; (focus (dsimp only [y]; clear y)); rotate_left; (focus (clear_value y; revert y; intro _ _)))
                 | (extract_lets +onlyGivenNames y; refine keep_cut1 (y := y) ?_ ?_; (focus (dsimp only [y]; clear y)); rotate_left; (focus (clear_value y; revert y; intro _ _)))
                 | (extract_lets +onlyGivenNames y; refine keep_cut2 (y := y) ?_ ?_; (focus (dsimp only [y]; clear y)); rotate_left; (focus (clear_value y; revert y; intro _ _)))
                 | (extract_lets +onlyGivenNames y; clear_value y; revert y; intro _) | (with_reducible apply keep_clearRead)
                 | split | (dsimp only)
                 | (with_reducible refine keep_mk ?_ rfl rfl rfl rfl rfl rfl rfl rfl rfl ?_ ?_ ?_ ?_ ?_ ?_ ?_ ?_ ?_ ?_ ?_ ?_ ?_ ?_ ?_ ?_ ?_ ?_))

theorem keep_registerRead {P : Area → Prop} {z : State} {s : State} {a_fn : Nat} {a_off : Nat} {a_len : Nat}
    (h : Keeps P z s) (khbm : P .hbm := by assumption) (krings : P .rings := by assumption)
    (ksramUnits : P .sramUnits := by assumption) (khbmUnits : P .hbmUnits := by assumption)
    (kcodec : P .codec := by assumption) (ktwins : P .twins := by assumption) (klog : P .log := by assumption) :
    Keeps P z (registerRead s a_fn a_off a_len) := by
  unfold registerRead
  repeat' (first | (with_reducible assumption) | (exact Or.inl (by assumption)) | (exact Or.inr rfl)
                 | (exact Or.inr ⟨rfl, rfl, rfl, rfl⟩) | (intro)
                 | (extract_lets +onlyGivenNames y; refine keep_cut (y := y) ?_ ?_; (focus (dsimp only [y]; clear y)); rotate_left; (focus (clear_value y; revert y; intro _ _)))
                 | (extract_lets +onlyGivenNames y; refine keep_cut1 (y := y) ?_ ?_; (focus (dsimp only [y]; clear y)); rotate_left; (focus (clear_value y; revert y; intro _ _)))
                 | (extract_lets +onlyGivenNames y; refine keep_cut2 (y := y) ?_ ?_; (focus (dsimp only [y]; clear y)); rotate_left; (focus (clear_value y; revert y; intro _ _)))
                 | (extract_lets +onlyGivenNames y; clear_value y; revert y; intro _) | (with_reducible apply keep_answer)
                 | (with_reducible apply keep_badAccess) | (with_reducible apply keep_readVf)
                 | (with_reducible apply keep_hbmIndRead) | (with_reducible apply keep_readReg)
                 | (with_reducible refine keep_ite ?_ ?_) | split | (dsimp only)
                 | (with_reducible refine keep_mk ?_ rfl rfl rfl rfl rfl rfl rfl rfl rfl ?_ ?_ ?_ ?_ ?_ ?_ ?_ ?_ ?_ ?_ ?_ ?_ ?_ ?_ ?_ ?_ ?_ ?_))

theorem keep_execRegisterRead {P : Area → Prop} {z : State} {a_fn : Nat} {a_off : Nat} {a_len : Nat} {s : State}
    (h : Keeps P z s) (khbm : P .hbm := by assumption) (krings : P .rings := by assumption)
    (ksramUnits : P .sramUnits := by assumption) (khbmUnits : P .hbmUnits := by assumption)
    (kcodec : P .codec := by assumption) (ktwins : P .twins := by assumption) (klog : P .log := by assumption) :
    ∀ t, execRegisterRead a_fn a_off a_len s = .next t → Keeps P z t := by
  unfold execRegisterRead; intro t e; injection e with e; subst e
  repeat' (first | (with_reducible assumption) | (intro) | (with_reducible apply keep_registerRead) | split | (dsimp only))

theorem keep_writeField {P : Area → Prop} {z : State} {a_s0 : State} {a_fn : Nat} {a_off : Nat} {a_base : Nat} {a_o : Nat}
    {s : State} {a_f : Fld} {a_v : Nat} (h : Keeps P z s) (krings : P .rings := by assumption)
    (ktwins : P .twins := by assumption) (kshadow : P .shadow := by assumption) (klog : P .log := by assumption) :
    Keeps P z (writeField a_s0 a_fn a_off a_base a_o s a_f a_v) := by
  unfold writeField
  repeat' (first | (with_reducible assumption) | (exact Or.inl (by assumption)) | (exact Or.inr rfl)
                 | (exact Or.inr ⟨rfl, rfl, rfl, rfl⟩) | (intro)
                 | (extract_lets +onlyGivenNames y; refine keep_cut (y := y) ?_ ?_; (focus (dsimp only [y]; clear y)); rotate_left; (focus (clear_value y; revert y; intro _ _)))
                 | (extract_lets +onlyGivenNames y; refine keep_cut1 (y := y) ?_ ?_; (focus (dsimp only [y]; clear y)); rotate_left; (focus (clear_value y; revert y; intro _ _)))
                 | (extract_lets +onlyGivenNames y; refine keep_cut2 (y := y) ?_ ?_; (focus (dsimp only [y]; clear y)); rotate_left; (focus (clear_value y; revert y; intro _ _)))
                 | (extract_lets +onlyGivenNames y; clear_value y; revert y; intro _) | (with_reducible apply keep_setF)
                 | (with_reducible apply keep_logWWR) | (with_reducible refine keep_ite ?_ ?_) | split | (dsimp only)
                 | (with_reducible refine keep_mk ?_ rfl rfl rfl rfl rfl rfl rfl rfl rfl ?_ ?_ ?_ ?_ ?_ ?_ ?_ ?_ ?_ ?_ ?_ ?_ ?_ ?_ ?_ ?_ ?_ ?_))

theorem keep_onChange {P : Area → Prop} {z : State} {s : State} {a_f : Fld} {a_o : Nat} {a_w : Option Nat}
    {a_set : State → State} {a_clear : State → State} (h : Keeps P z s)
    (hset : ∀ x0, Keeps P z x0 → Keeps P z (a_set x0)) (hclear : ∀ x0, Keeps P z x0 → Keeps P z (a_clear x0)) :
    Keeps P z (onChange s a_f a_o a_w a_set a_clear) := by
  unfold onChange
  repeat' (first | (with_reducible assumption) | (exact Or.inl (by assumption)) | (exact Or.inr rfl)
                 | (exact Or.inr ⟨rfl, rfl, rfl, rfl⟩) | (intro)
                 | (extract_lets +onlyGivenNames y; refine keep_cut (y := y) ?_ ?_; (focus (dsimp only [y]; clear y)); rotate_left; (focus (clear_value y; revert y; intro _ _)))
                 | (extract_lets +onlyGivenNames y; refine keep_cut1 (y := y) ?_ ?_; (focus (dsimp only [y]; clear y)); rotate_left; (focus (clear_value y; revert y; intro _ _)))
                 | (extract_lets +onlyGivenNames y; refine keep_cut2 (y := y) ?_ ?_; (focus (dsimp only [y]; clear y)); rotate_left; (focus (clear_value y; revert y; intro _ _)))
                 | (extract_lets +onlyGivenNames y; clear_value y; revert y; intro _) | (with_reducible apply hset)
                 | (with_reducible apply hclear) | (with_reducible refine keep_ite ?_ ?_) | split | (dsimp only)
                 | (with_reducible refine keep_mk ?_ rfl rfl rfl rfl rfl rfl rfl rfl rfl ?_ ?_ ?_ ?_ ?_ ?_ ?_ ?_ ?_ ?_ ?_ ?_ ?_ ?_ ?_ ?_ ?_ ?_))

theorem keep_onOne {P : Area → Prop} {z : State} {s : State} {a_w : Option Nat} {a_act : State → State} (h : Keeps P z s)
    (hact : ∀ x0, Keeps P z x0 → Keeps P z (a_act x0)) :
    Keeps P z (onOne s a_w a_act) := by
  unfold onOne
  repeat' (first | (with_reducible assumption) | (intro) | (with_reducible apply hact) | (with_reducible refine keep_ite ?_ ?_)
                 | split | (dsimp only))

theorem keep_plainEnable {P : Area → Prop} {z : State} {s : State} {a_fn : Nat} {a_off : Nat} {a_f : Fld} {a_o : Nat}
    {a_w : Option Nat} {a_busy : Bool} (h : Keeps P z s) (krings : P .rings := by assumption)
    (ktwins : P .twins := by assumption) (klog : P .log := by assumption) :
    Keeps P z (plainEnable s a_fn a_off a_f a_o a_w a_busy) := by
  unfold plainEnable
  repeat' (first | (with_reducible assumption) | (intro) | (with_reducible apply keep_onChange)
                 | (with_reducible apply keep_setF) | (with_reducible apply keep_logWWR)
                 | (with_reducible refine keep_ite ?_ ?_) | split | (dsimp only))

theorem keep_notePolicy {P : Area → Prop} {z : State} {a_s0 : State} {s : State} (h : Keeps P z s)
    (kbmk : P .bmk := by assumption) :
    Keeps P z (notePolicy a_s0 s) := by
  unfold notePolicy
  repeat' (first | (with_reducible assumption) | (exact Or.inl (by assumption)) | (exact Or.inr rfl)
                 | (exact Or.inr ⟨rfl, rfl, rfl, rfl⟩) | (intro)
                 | (extract_lets +onlyGivenNames y; refine keep_cut (y := y) ?_ ?_; (focus (dsimp only [y]; clear y)); rotate_left; (focus (clear_value y; revert y; intro _ _)))
                 | (extract_lets +onlyGivenNames y; refine keep_cut1 (y := y) ?_ ?_; (focus (dsimp only [y]; clear y)); rotate_left; (focus (clear_value y; revert y; intro _ _)))
                 | (extract_lets +onlyGivenNames y; refine keep_cut2 (y := y) ?_ ?_; (focus (dsimp only [y]; clear y)); rotate_left; (focus (clear_value y; revert y; intro _ _)))
                 | (extract_lets +onlyGivenNames y; clear_value y; revert y; intro _) | (with_reducible apply keep_modBmk)
                 | (with_reducible refine keep_ite ?_ ?_) | split | (dsimp only)
                 | (with_reducible refine keep_mk ?_ rfl rfl rfl rfl rfl rfl rfl rfl rfl ?_ ?_ ?_ ?_ ?_ ?_ ?_ ?_ ?_ ?_ ?_ ?_ ?_ ?_ ?_ ?_ ?_ ?_))

theorem keep_writeBmkCtl {P : Area → Prop} {z : State} {a_s0 : State} {s : State} {a_fn : Nat} {a_off : Nat}
    {a_w : Fld → Option Nat} (h : Keeps P z s) (kbmk : P .bmk := by assumption) (krings : P .rings := by assumption)
    (ktwins : P .twins := by assumption) (klog : P .log := by assumption) :
    Keeps P z (writeBmkCtl a_s0 s a_fn a_off a_w) := by
  unfold writeBmkCtl
  repeat' (first | (with_reducible assumption) | (exact Or.inl (by assumption)) | (exact Or.inr rfl)
                 | (exact Or.inr ⟨rfl, rfl, rfl, rfl⟩) | (intro)
                 | (extract_lets +onlyGivenNames y; refine keep_cut (y := y) ?_ ?_; (focus (dsimp only [y]; clear y)); rotate_left; (focus (clear_value y; revert y; intro _ _)))
                 | (extract_lets +onlyGivenNames y; refine keep_cut1 (y := y) ?_ ?_; (focus (dsimp only [y]; clear y)); rotate_left; (focus (clear_value y; revert y; intro _ _)))
                 | (extract_lets +onlyGivenNames y; refine keep_cut2 (y := y) ?_ ?_; (focus (dsimp only [y]; clear y)); rotate_left; (focus (clear_value y; revert y; intro _ _)))
                 | (extract_lets +onlyGivenNames y; clear_value y; revert y; intro _) | (with_reducible apply keep_logWWR)
                 | (with_reducible apply keep_logIgn) | (with_reducible apply keep_setF)
                 | (with_reducible apply keep_recomputeG) | (with_reducible apply keep_notePolicy)
                 | (with_reducible apply keep_plainEnable) | (with_reducible refine keep_ite ?_ ?_) | split | (dsimp only)
                 | (with_reducible refine keep_mk ?_ rfl rfl rfl rfl rfl rfl rfl rfl rfl ?_ ?_ ?_ ?_ ?_ ?_ ?_ ?_ ?_ ?_ ?_ ?_ ?_ ?_ ?_ ?_ ?_ ?_))

theorem keep_writePolicy {P : Area → Prop} {z : State} {a_s0 : State} {s : State} {a_fn : Nat} {a_off : Nat}
    {a_w : Fld → Option Nat} (h : Keeps P z s) (krings : P .rings := by assumption) (ktwins : P .twins := by assumption)
    (klog : P .log := by assumption) :
    Keeps P z (writePolicy a_s0 s a_fn a_off a_w) := by
  unfold writePolicy
  repeat' (first | (with_reducible assumption) | (exact Or.inl (by assumption)) | (exact Or.inr rfl)
                 | (exact Or.inr ⟨rfl, rfl, rfl, rfl⟩) | (intro)
                 | (extract_lets +onlyGivenNames y; refine keep_cut (y := y) ?_ ?_; (focus (dsimp only [y]; clear y)); rotate_left; (focus (clear_value y; revert y; intro _ _)))
                 | (extract_lets +onlyGivenNames y; refine keep_cut1 (y := y) ?_ ?_; (focus (dsimp only [y]; clear y)); rotate_left; (focus (clear_value y; revert y; intro _ _)))
                 | (extract_lets +onlyGivenNames y; refine keep_cut2 (y := y) ?_ ?_; (focus (dsimp only [y]; clear y)); rotate_left; (focus (clear_value y; revert y; intro _ _)))
                 | (extract_lets +onlyGivenNames y; have q : (_ : _) → _ := y; clear q; dsimp only [y]; clear y)
                 | (extract_lets +onlyGivenNames y; clear_value y; revert y; intro _) | (with_reducible apply keep_logWWR)
                 | (with_reducible apply keep_setF) | (with_reducible apply keep_refreshPolicy)
                 | (with_reducible refine keep_ite ?_ ?_) | split | (dsimp only)
                 | (with_reducible refine keep_mk ?_ rfl rfl rfl rfl rfl rfl rfl rfl rfl ?_ ?_ ?_ ?_ ?_ ?_ ?_ ?_ ?_ ?_ ?_ ?_ ?_ ?_ ?_ ?_ ?_ ?_))

theorem keep_writeStack {P : Area → Prop} {z : State} {a_s0 : State} {s : State} {a_fn : Nat} {a_off : Nat} {a_d : Nat}
    {a_w : Fld → Option Nat} (h : Keeps P z s) (khbm : P .hbm := by assumption) (krings : P .rings := by assumption)
    (khbmUnits : P .hbmUnits := by assumption) (ktwins : P .twins := by assumption) (klog : P .log := by assumption) :
    Keeps P z (writeStack a_s0 s a_fn a_off a_d a_w) := by
  unfold writeStack
  repeat' (first | (with_reducible assumption) | (exact Or.inl (by assumption)) | (exact Or.inr rfl)
                 | (exact Or.inr ⟨rfl, rfl, rfl, rfl⟩) | (intro)
                 | (extract_lets +onlyGivenNames y; refine keep_cut (y := y) ?_ ?_; (focus (dsimp only [y]; clear y)); rotate_left; (focus (clear_value y; revert y; intro _ _)))
                 | (extract_lets +onlyGivenNames y; refine keep_cut1 (y := y) ?_ ?_; (focus (dsimp only [y]; clear y)); rotate_left; (focus (clear_value y; revert y; intro _ _)))
                 | (extract_lets +onlyGivenNames y; refine keep_cut2 (y := y) ?_ ?_; (focus (dsimp only [y]; clear y)); rotate_left; (focus (clear_value y; revert y; intro _ _)))
                 | (extract_lets +onlyGivenNames y; have q : Hbm := y; clear q; dsimp only [y]; clear y)
                 | (extract_lets +onlyGivenNames y; clear_value y; revert y; intro _) | (with_reducible apply keep_logWWR)
                 | (with_reducible apply keep_setF) | (with_reducible apply keep_mkUndef)
                 | (with_reducible apply keep_dropCached) | (with_reducible apply keep_plainEnable)
                 | (with_reducible refine keep_ite ?_ ?_) | split | (dsimp only) | (exact by decide) | (show P _; assumption)
                 | (exact memArea_of ‹_› ‹_› ‹_›)
                 | (with_reducible refine keep_mk ?_ rfl rfl rfl rfl rfl rfl rfl rfl rfl ?_ ?_ ?_ ?_ ?_ ?_ ?_ ?_ ?_ ?_ ?_ ?_ ?_ ?_ ?_ ?_ ?_ ?_))

theorem keep_indWord {P : Area → Prop} {z s : State} {off len data : Nat} {rd : State → State × Nat} (h : Keeps P z s)
    (hr : ∀ s, Keeps P z s → Keeps P z (rd s).1) : Keeps P z (indWord off len data s rd).1 := by
  unfold indWord
  split
  · exact h
  · exact ⟨h.wf, h.pending, h.part, (hr s h).nonce, h.out, fun a ha => Area.same_trans (h.same a ha)
      (by cases a <;> first | rfl | exact fun _ => rfl | exact ⟨rfl, rfl, rfl, rfl⟩)⟩

theorem keep_writeReserved {P : Area → Prop} {z : State} {s : State} {a_r : RegRow} {a_off : Nat} {a_len : Nat}
    {a_data : Nat} (h : Keeps P z s) (krings : P .rings := by assumption) :
    Keeps P z (writeReserved s a_r a_off a_len a_data) := by
  unfold writeReserved
  repeat' (first | (with_reducible assumption) | (exact Or.inl (by assumption)) | (exact Or.inr rfl)
                 | (exact Or.inr ⟨rfl, rfl, rfl, rfl⟩) | (intro)
                 | (extract_lets +onlyGivenNames y; refine keep_cut (y := y) ?_ ?_; (focus (dsimp only [y]; clear y)); rotate_left; (focus (clear_value y; revert y; intro _ _)))
                 | (extract_lets +onlyGivenNames y; refine keep_cut1 (y := y) ?_ ?_; (focus (dsimp only [y]; clear y)); rotate_left; (focus (clear_value y; revert y; intro _ _)))
                 | (extract_lets +onlyGivenNames y; refine keep_cut2 (y := y) ?_ ?_; (focus (dsimp only [y]; clear y)); rotate_left; (focus (clear_value y; revert y; intro _ _)))
                 | (extract_lets +onlyGivenNames y; clear_value y; revert y; intro _) | (with_reducible refine keep_ite ?_ ?_)
                 | (with_reducible apply keep_foldl) | (with_reducible apply keep_foldl1) | split | (dsimp only)
                 | (with_reducible refine keep_mk ?_ rfl rfl rfl rfl rfl rfl rfl rfl rfl ?_ ?_ ?_ ?_ ?_ ?_ ?_ ?_ ?_ ?_ ?_ ?_ ?_ ?_ ?_ ?_ ?_ ?_))

theorem keep_writeReservedCtx {P : Area → Prop} {z : State} {s : State} {a_off : Nat} {a_len : Nat} {a_data : Nat}
    {a_x : Bool × Nat} (h : Keeps P z s) (krings : P .rings := by assumption) :
    Keeps P z (writeReservedCtx s a_off a_len a_data a_x) := by
  unfold writeReservedCtx
  repeat' (first | (with_reducible assumption) | (intro)
                 | (extract_lets +onlyGivenNames y; refine keep_cut (y := y) ?_ ?_; (focus (dsimp only [y]; clear y)); rotate_left; (focus (clear_value y; revert y; intro _ _)))
                 | (extract_lets +onlyGivenNames y; refine keep_cut1 (y := y) ?_ ?_; (focus (dsimp only [y]; clear y)); rotate_left; (focus (clear_value y; revert y; intro _ _)))
                 | (extract_lets +onlyGivenNames y; refine keep_cut2 (y := y) ?_ ?_; (focus (dsimp only [y]; clear y)); rotate_left; (focus (clear_value y; revert y; intro _ _)))
                 | (extract_lets +onlyGivenNames y; clear_value y; revert y; intro _)
                 | (with_reducible apply keep_writeReserved) | (with_reducible refine keep_ite ?_ ?_) | split | (dsimp only))

theorem keep_writeChannel {P : Area → Prop} {z : State} {s : State} {a_fReset : Fld} {a_fFence : Fld} {a_o : Nat}
    {a_w : Fld → Option Nat} {a_reset : State → State} {a_fence : Bool → State → State} (h : Keeps P z s)
    (hreset : ∀ x0, Keeps P z x0 → Keeps P z (a_reset x0)) (hfence : ∀ x0 x1, Keeps P z x1 → Keeps P z (a_fence x0 x1)) :
    Keeps P z (writeChannel s a_fReset a_fFence a_o a_w a_reset a_fence) := by
  unfold writeChannel
  repeat' (first | (with_reducible assumption) | (intro)
                 | (extract_lets +onlyGivenNames y; refine keep_cut (y := y) ?_ ?_; (focus (dsimp only [y]; clear y)); rotate_left; (focus (clear_value y; revert y; intro _ _)))
                 | (extract_lets +onlyGivenNames y; refine keep_cut1 (y := y) ?_ ?_; (focus (dsimp only [y]; clear y)); rotate_left; (focus (clear_value y; revert y; intro _ _)))
                 | (extract_lets +onlyGivenNames y; refine keep_cut2 (y := y) ?_ ?_; (focus (dsimp only [y]; clear y)); rotate_left; (focus (clear_value y; revert y; intro _ _)))
                 | (extract_lets +onlyGivenNames y; clear_value y; revert y; intro _) | (with_reducible apply hreset)
                 | (with_reducible apply hfence) | (with_reducible apply keep_onOne) | (with_reducible apply keep_onChange)
                 | split | (dsimp only))

theorem keep_actDie {P : Area → Prop} {z s0 s : State} {fn off len base data d x : Nat} {w : Fld → Option Nat} (h : Keeps P z s) 
    (ktiles : P .tiles := by assumption) (ksram : P .sram := by assumption) (khbm : P .hbm := by assumption) (kbmk : P .bmk := by assumption) (kports : P .ports := by assumption) (kfabric : P .fabric := by assumption) (kdests : P .dests := by assumption) (krings : P .rings := by assumption) (ksramUnits : P .sramUnits := by assumption) (khbmUnits : P .hbmUnits := by assumption) (kcodec : P .codec := by assumption) (kdma : P .dma := by assumption) (ktwins : P .twins := by assumption) (klog : P .log := by assumption) :
    Keeps P z (actDie s0 s fn off len base data d x w) := by
  unfold actDie
  extract_lets o
  clear_value o
  refine keep_ite ?_ ?_
  · exact keep_onOne (keep_onChange h (fun _ h => keep_portEnable h) (fun _ h => keep_portDisable h)) (fun _ h => keep_linkReset h)
  refine keep_ite (keep_plainEnable h) ?_
  refine keep_ite ?_ ?_
  · exact keep_fabIndWrite (keep_indWord h (fun _ h => keep_fabIndRead h))
  refine keep_ite (keep_plainEnable h) ?_
  refine keep_ite ?_ ?_
  · exact keep_srmIndWrite (keep_indWord h (fun _ h => keep_srmIndRead h))
  refine keep_ite ?_ ?_
  · exact keep_writeChannel h (fun _ h => keep_sramChannelReset h) (fun _ _ h => keep_sramFence h)
  refine keep_ite (keep_writeStack h) ?_
  refine keep_ite ?_ ?_
  · exact keep_hbmIndWrite h
  refine keep_ite ?_ ?_
  · exact keep_writeChannel h (fun _ h => keep_hbmChannelReset h) (fun _ _ h => keep_hbmFence h)
  refine keep_ite ?_ ?_
  · exact keep_onChange h (fun _ h => keep_spcEnable h) (fun _ h => keep_spcDisable h)
  refine keep_ite ?_ ?_
  · split
    · exact h
    · exact keep_spcCommand h
  refine keep_ite ?_ ?_
  · exact keep_onChange h (fun _ h => keep_cdcEnable h) (fun _ h => keep_cdcEnable h)
  refine keep_ite ?_ h
  exact keep_onChange h (fun _ h => keep_dmaEnable h) (fun _ h => keep_dmaDisable h)

theorem keep_actRing {P : Area → Prop} {z : State} {a_s0 : State} {s : State} {a_fn : Nat} {a_off : Nat} {a_len : Nat}
    {a_base : Nat} {a_data : Nat} {a_n : Nat} {a_r : RegRow} {a_w : Fld → Option Nat} (h : Keeps P z s)
    (kplats : P .plats := by assumption) (kfabric : P .fabric := by assumption) (kdests : P .dests := by assumption)
    (krings : P .rings := by assumption) (ksramUnits : P .sramUnits := by assumption)
    (khbmUnits : P .hbmUnits := by assumption) (kcodec : P .codec := by assumption) (kdma : P .dma := by assumption)
    (ktwins : P .twins := by assumption) (klog : P .log := by assumption) :
    Keeps P z (actRing a_s0 s a_fn a_off a_len a_base a_data a_n a_r a_w) := by
  unfold actRing
  repeat' (first | (with_reducible assumption) | (intro)
                 | (extract_lets +onlyGivenNames y; refine keep_cut (y := y) ?_ ?_; (focus (dsimp only [y]; clear y)); rotate_left; (focus (clear_value y; revert y; intro _ _)))
                 | (extract_lets +onlyGivenNames y; refine keep_cut1 (y := y) ?_ ?_; (focus (dsimp only [y]; clear y)); rotate_left; (focus (clear_value y; revert y; intro _ _)))
                 | (extract_lets +onlyGivenNames y; refine keep_cut2 (y := y) ?_ ?_; (focus (dsimp only [y]; clear y)); rotate_left; (focus (clear_value y; revert y; intro _ _)))
                 | (extract_lets +onlyGivenNames y; clear_value y; revert y; intro _)
                 | (with_reducible apply keep_writeReserved) | (with_reducible apply keep_cqCoalesce)
                 | (with_reducible apply keep_onChange) | (with_reducible apply keep_sqEnable)
                 | (with_reducible apply keep_ringShutdown) | (with_reducible apply keep_cqEnable)
                 | (with_reducible apply keep_cqDisable) | (with_reducible refine keep_ite ?_ ?_) | split | (dsimp only))

theorem keep_actGlobal {P : Area → Prop} {z : State} {a_s0 : State} {s : State} {a_fn : Nat} {a_off : Nat} {a_len : Nat}
    {a_base : Nat} {a_data : Nat} {a_o : Nat} {a_w : Fld → Option Nat} (h : Keeps P z s) (kbmk : P .bmk := by assumption)
    (kports : P .ports := by assumption) (kplats : P .plats := by assumption) (kfabric : P .fabric := by assumption)
    (kdests : P .dests := by assumption) (krings : P .rings := by assumption)
    (ksramUnits : P .sramUnits := by assumption) (khbmUnits : P .hbmUnits := by assumption)
    (kcodec : P .codec := by assumption) (kdma : P .dma := by assumption) (ktwins : P .twins := by assumption)
    (kpower : P .power := by assumption) (ksecurity : P .security := by assumption) (klog : P .log := by assumption) :
    Keeps P z (actGlobal a_s0 s a_fn a_off a_len a_base a_data a_o a_w) := by
  unfold actGlobal
  repeat' (first | (with_reducible assumption) | (exact Or.inl (by assumption)) | (exact Or.inr rfl)
                 | (exact Or.inr ⟨rfl, rfl, rfl, rfl⟩) | (intro)
                 | (extract_lets +onlyGivenNames y; refine keep_cut (y := y) ?_ ?_; (focus (dsimp only [y]; clear y)); rotate_left; (focus (clear_value y; revert y; intro _ _)))
                 | (extract_lets +onlyGivenNames y; refine keep_cut1 (y := y) ?_ ?_; (focus (dsimp only [y]; clear y)); rotate_left; (focus (clear_value y; revert y; intro _ _)))
                 | (extract_lets +onlyGivenNames y; refine keep_cut2 (y := y) ?_ ?_; (focus (dsimp only [y]; clear y)); rotate_left; (focus (clear_value y; revert y; intro _ _)))
                 | (extract_lets +onlyGivenNames y; clear_value y; revert y; intro _) | (with_reducible apply keep_writeBmkCtl)
                 | (with_reducible apply keep_onChange) | (with_reducible apply keep_recomputeG)
                 | (with_reducible apply keep_setF) | (with_reducible apply keep_bmkAdvance) | (with_reducible apply keep_onOne)
                 | (with_reducible apply keep_stakeDisarm) | (with_reducible apply keep_plainEnable)
                 | (with_reducible apply keep_writePolicy) | (with_reducible apply keep_stageReq)
                 | (with_reducible apply keep_stageWithdraw) | (with_reducible apply keep_pairEnable)
                 | (with_reducible apply keep_pairDisable) | (with_reducible apply keep_refreshAlert)
                 | (with_reducible apply keep_warm) | (with_reducible apply keep_quiesce)
                 | (with_reducible apply keep_gateWrite) | (with_reducible apply keep_dieHold)
                 | (with_reducible apply keep_dieRelease) | (with_reducible apply keep_errInject)
                 | (with_reducible apply keep_eraseLog) | (with_reducible apply keep_svnCommit)
                 | (with_reducible apply keep_attestReq) | (with_reducible apply keep_keyInstall)
                 | (with_reducible apply keep_keyClear) | (with_reducible apply keep_challenge)
                 | (with_reducible apply keep_submit) | (with_reducible refine keep_ite ?_ ?_) | split | (dsimp only)
                 | (with_reducible refine keep_mk ?_ rfl rfl rfl rfl rfl rfl rfl rfl rfl ?_ ?_ ?_ ?_ ?_ ?_ ?_ ?_ ?_ ?_ ?_ ?_ ?_ ?_ ?_ ?_ ?_ ?_))

theorem keep_writeReg {P : Area → Prop} {z s : State} {fn off len data : Nat} {r : RegRow} {o : Nat} (h : Keeps P z s) 
    (ktiles : P .tiles := by assumption) (ksram : P .sram := by assumption) (khbm : P .hbm := by assumption) (kbmk : P .bmk := by assumption) (kports : P .ports := by assumption) (kplats : P .plats := by assumption) (kfabric : P .fabric := by assumption) (kdests : P .dests := by assumption) (krings : P .rings := by assumption) (ksramUnits : P .sramUnits := by assumption) (khbmUnits : P .hbmUnits := by assumption) (kcodec : P .codec := by assumption) (kdma : P .dma := by assumption) (ktwins : P .twins := by assumption) (kpower : P .power := by assumption) (ksecurity : P .security := by assumption) (kshadow : P .shadow := by assumption) (klog : P .log := by assumption) :
    Keeps P z (writeReg s fn off len data r o) := by
  unfold writeReg
  split
  · with_reducible exact keep_logIgn h
  · exact h
  · extract_lets v w s1
    have h1 : Keeps P z s1 := by
      refine keep_foldl _ h (fun t f ht => ?_)
      dsimp only [Option.elim]
      split
      · exact keep_writeField ht
      · exact ht
    clear_value s1 w
    exact keep_ite (keep_actDie h1) (keep_ite (keep_actRing h1) (keep_actGlobal h1))

theorem keep_writeWindow {P : Area → Prop} {z : State} {s : State} {a_off : Nat} {a_len : Nat} {a_data : Nat}
    (h : Keeps P z s) (ksecurity : P .security := by assumption) :
    Keeps P z (writeWindow s a_off a_len a_data) := by
  unfold writeWindow
  repeat' (first | (with_reducible assumption) | (exact Or.inl (by assumption)) | (exact Or.inr rfl)
                 | (exact Or.inr ⟨rfl, rfl, rfl, rfl⟩) | (intro)
                 | (extract_lets +onlyGivenNames y; refine keep_cut (y := y) ?_ ?_; (focus (dsimp only [y]; clear y)); rotate_left; (focus (clear_value y; revert y; intro _ _)))
                 | (extract_lets +onlyGivenNames y; refine keep_cut1 (y := y) ?_ ?_; (focus (dsimp only [y]; clear y)); rotate_left; (focus (clear_value y; revert y; intro _ _)))
                 | (extract_lets +onlyGivenNames y; refine keep_cut2 (y := y) ?_ ?_; (focus (dsimp only [y]; clear y)); rotate_left; (focus (clear_value y; revert y; intro _ _)))
                 | (extract_lets +onlyGivenNames y; clear_value y; revert y; intro _) | (with_reducible apply keep_modSec)
                 | (with_reducible refine keep_ite ?_ ?_) | split | (dsimp only)
                 | (with_reducible refine keep_mk ?_ rfl rfl rfl rfl rfl rfl rfl rfl rfl ?_ ?_ ?_ ?_ ?_ ?_ ?_ ?_ ?_ ?_ ?_ ?_ ?_ ?_ ?_ ?_ ?_ ?_))

theorem keep_writeSpace {P : Area → Prop} {z : State} {s : State} {a_fn : Nat} {a_off : Nat} {a_len : Nat} {a_data : Nat}
    (h : Keeps P z s) (krings : P .rings := by assumption) (kdevCtl : P .devCtl := by assumption) :
    Keeps P z (writeSpace s a_fn a_off a_len a_data) := by
  unfold writeSpace
  repeat' (first | (with_reducible assumption) | (intro) | (with_reducible apply keep_putDwords)
                 | (with_reducible apply keep_msixWrite) | (with_reducible apply keep_cfgWrite)
                 | (with_reducible refine keep_ite ?_ ?_) | split | (dsimp only))

theorem keep_registerWrite {P : Area → Prop} {z : State} {s : State} {a_fn : Nat} {a_off : Nat} {a_len : Nat}
    {a_data : Nat} (h : Keeps P z s) (ktiles : P .tiles := by assumption) (ksram : P .sram := by assumption)
    (khbm : P .hbm := by assumption) (kbmk : P .bmk := by assumption) (kports : P .ports := by assumption)
    (kplats : P .plats := by assumption) (kfabric : P .fabric := by assumption) (kdests : P .dests := by assumption)
    (krings : P .rings := by assumption) (ksramUnits : P .sramUnits := by assumption)
    (khbmUnits : P .hbmUnits := by assumption) (kcodec : P .codec := by assumption) (kdma : P .dma := by assumption)
    (ktwins : P .twins := by assumption) (kpower : P .power := by assumption) (ksecurity : P .security := by assumption)
    (kdevCtl : P .devCtl := by assumption) (kshadow : P .shadow := by assumption) (klog : P .log := by assumption) :
    Keeps P z (registerWrite s a_fn a_off a_len a_data) := by
  unfold registerWrite
  repeat' (first | (with_reducible assumption) | (exact Or.inl (by assumption)) | (exact Or.inr rfl)
                 | (exact Or.inr ⟨rfl, rfl, rfl, rfl⟩) | (intro)
                 | (extract_lets +onlyGivenNames y; refine keep_cut (y := y) ?_ ?_; (focus (dsimp only [y]; clear y)); rotate_left; (focus (clear_value y; revert y; intro _ _)))
                 | (extract_lets +onlyGivenNames y; refine keep_cut1 (y := y) ?_ ?_; (focus (dsimp only [y]; clear y)); rotate_left; (focus (clear_value y; revert y; intro _ _)))
                 | (extract_lets +onlyGivenNames y; refine keep_cut2 (y := y) ?_ ?_; (focus (dsimp only [y]; clear y)); rotate_left; (focus (clear_value y; revert y; intro _ _)))
                 | (extract_lets +onlyGivenNames y; clear_value y; revert y; intro _) | (with_reducible apply keep_answer)
                 | (with_reducible apply keep_badAccess) | (with_reducible apply keep_writeSpace)
                 | (with_reducible apply keep_writeField) | (with_reducible apply keep_writeReg)
                 | (with_reducible apply keep_writeWindow) | (with_reducible apply keep_writeReservedCtx)
                 | (with_reducible refine keep_ite ?_ ?_) | (with_reducible apply keep_foldl)
                 | (with_reducible apply keep_foldl1) | split | (dsimp only)
                 | (with_reducible refine keep_mk ?_ rfl rfl rfl rfl rfl rfl rfl rfl rfl ?_ ?_ ?_ ?_ ?_ ?_ ?_ ?_ ?_ ?_ ?_ ?_ ?_ ?_ ?_ ?_ ?_ ?_))

theorem keep_execRegisterWrite {P : Area → Prop} {z : State} {a_fn : Nat} {a_off : Nat} {a_len : Nat} {a_data : Nat}
    {s : State} (h : Keeps P z s) (ktiles : P .tiles := by assumption) (ksram : P .sram := by assumption)
    (khbm : P .hbm := by assumption) (kbmk : P .bmk := by assumption) (kports : P .ports := by assumption)
    (kplats : P .plats := by assumption) (kfabric : P .fabric := by assumption) (kdests : P .dests := by assumption)
    (krings : P .rings := by assumption) (ksramUnits : P .sramUnits := by assumption)
    (khbmUnits : P .hbmUnits := by assumption) (kcodec : P .codec := by assumption) (kdma : P .dma := by assumption)
    (ktwins : P .twins := by assumption) (kpower : P .power := by assumption) (ksecurity : P .security := by assumption)
    (kdevCtl : P .devCtl := by assumption) (kshadow : P .shadow := by assumption) (klog : P .log := by assumption) :
    ∀ t, execRegisterWrite a_fn a_off a_len a_data s = .next t → Keeps P z t := by
  unfold execRegisterWrite; intro t e; injection e with e; subst e
  repeat' (first | (with_reducible assumption) | (intro) | (with_reducible apply keep_registerWrite) | split | (dsimp only))

theorem keep_indGiveUp {P : Area → Prop} {z : State} {s : State} {a_off : Nat} (h : Keeps P z s)
    (khbmUnits : P .hbmUnits := by assumption) :
    Keeps P z (indGiveUp s a_off) := by
  unfold indGiveUp
  repeat' (first | (with_reducible assumption) | (exact Or.inl (by assumption)) | (exact Or.inr rfl)
                 | (exact Or.inr ⟨rfl, rfl, rfl, rfl⟩) | (intro)
                 | (extract_lets +onlyGivenNames y; refine keep_cut (y := y) ?_ ?_; (focus (dsimp only [y]; clear y)); rotate_left; (focus (clear_value y; revert y; intro _ _)))
                 | (extract_lets +onlyGivenNames y; refine keep_cut1 (y := y) ?_ ?_; (focus (dsimp only [y]; clear y)); rotate_left; (focus (clear_value y; revert y; intro _ _)))
                 | (extract_lets +onlyGivenNames y; refine keep_cut2 (y := y) ?_ ?_; (focus (dsimp only [y]; clear y)); rotate_left; (focus (clear_value y; revert y; intro _ _)))
                 | (extract_lets +onlyGivenNames y; have q : Hbm := y; clear q; dsimp only [y]; clear y)
                 | (extract_lets +onlyGivenNames y; clear_value y; revert y; intro _) | (with_reducible apply keep_dropReads)
                 | split | (dsimp only)
                 | (with_reducible refine keep_mk ?_ rfl rfl rfl rfl rfl rfl rfl rfl rfl ?_ ?_ ?_ ?_ ?_ ?_ ?_ ?_ ?_ ?_ ?_ ?_ ?_ ?_ ?_ ?_ ?_ ?_))

theorem keep_accessTimeout {P : Area → Prop} {z : State} {s : State} {a_fn : Nat} {a_off : Nat} {a_write : Bool}
    (h : Keeps P z s) (krings : P .rings := by assumption) (khbmUnits : P .hbmUnits := by assumption)
    (ktwins : P .twins := by assumption) (klog : P .log := by assumption) :
    Keeps P z (accessTimeout s a_fn a_off a_write) := by
  unfold accessTimeout
  repeat' (first | (with_reducible assumption) | (exact Or.inl (by assumption)) | (exact Or.inr rfl)
                 | (exact Or.inr ⟨rfl, rfl, rfl, rfl⟩) | (intro)
                 | (extract_lets +onlyGivenNames y; refine keep_cut (y := y) ?_ ?_; (focus (dsimp only [y]; clear y)); rotate_left; (focus (clear_value y; revert y; intro _ _)))
                 | (extract_lets +onlyGivenNames y; refine keep_cut1 (y := y) ?_ ?_; (focus (dsimp only [y]; clear y)); rotate_left; (focus (clear_value y; revert y; intro _ _)))
                 | (extract_lets +onlyGivenNames y; refine keep_cut2 (y := y) ?_ ?_; (focus (dsimp only [y]; clear y)); rotate_left; (focus (clear_value y; revert y; intro _ _)))
                 | (extract_lets +onlyGivenNames y; clear_value y; revert y; intro _) | (with_reducible apply keep_logC)
                 | (with_reducible apply keep_indGiveUp) | (with_reducible apply keep_answer)
                 | (with_reducible refine keep_ite ?_ ?_) | split | (dsimp only)
                 | (with_reducible refine keep_mk ?_ rfl rfl rfl rfl rfl rfl rfl rfl rfl ?_ ?_ ?_ ?_ ?_ ?_ ?_ ?_ ?_ ?_ ?_ ?_ ?_ ?_ ?_ ?_ ?_ ?_))

theorem keep_execAccessTimeout {P : Area → Prop} {z : State} {a_fn : Nat} {a_off : Nat} {a_write : Bool} {s : State}
    (h : Keeps P z s) (krings : P .rings := by assumption) (khbmUnits : P .hbmUnits := by assumption)
    (ktwins : P .twins := by assumption) (klog : P .log := by assumption) :
    ∀ t, execAccessTimeout a_fn a_off a_write s = .next t → Keeps P z t := by
  unfold execAccessTimeout; intro t e; injection e with e; subst e
  repeat' (first | (with_reducible assumption) | (intro) | (with_reducible apply keep_accessTimeout) | split | (dsimp only))

end Sys2Proof.Machine
end

