-- ==== Sys2Proof/Laws/Mem.lean ====
section
/-! SUPPORT. Reads after writes of the three memories. -/

namespace Sys2Proof.Machine

@[simp] theorem wrByte_undef (s : State) (m a : Nat) (b : Byte) : (wrByte s m a b).undef = s.undef := by
  unfold wrByte; split <;> simp

/-- A byte reads as it was last written; the others read as before. -/
theorem rdByte_wrByte (s : State) (m a x : Nat) (b : Byte) (hm : m < 3) :
    rdByte (wrByte s m a b) m x = if x = a then b else rdByte s m x := by
  unfold rdByte
  rw [wrByte_undef]
  unfold wrByte
  split
  · rename_i h
    rw [memCells_setCells s m m _ hm hm, if_pos rfl, Tbl.get?_del]
    split
    · rename_i e; rw [e, h]; rfl
    · rfl
  · rw [memCells_setCells s m m _ hm hm, if_pos rfl, Tbl.get?_put]
    split <;> rfl

/-- Bytes written in a row. -/
theorem rdByte_wrMem (m x : Nat) (hm : m < 3) (bs : Bytes) : ∀ (s : State) (a : Nat),
    rdByte (wrMem s m a bs) m x = if a ≤ x ∧ x < a + bs.length then bs.getD (x - a) 0 else rdByte s m x := by
  induction bs with
  | nil => intro s a; rw [if_neg (by intro h; simp only [List.length_nil] at h; omega)]; rfl
  | cons b bs ih =>
    intro s a
    rw [wrMem, ih, rdByte_wrByte _ _ _ _ _ hm, List.length_cons]
    by_cases h : x = a
    · subst h
      rw [if_neg (by omega), if_pos rfl, if_pos (by omega)]
      simp
    · by_cases h2 : a + 1 ≤ x ∧ x < a + 1 + bs.length
      · rw [if_pos h2, if_pos (by omega), show x - a = (x - (a + 1)) + 1 by omega, List.getD_cons_succ]
      · rw [if_neg h2, if_neg h, if_neg (by omega)]

theorem leBytes_length (n x : Nat) : (leBytes n x).length = n := by
  induction n generalizing x with
  | zero => rfl
  | succ n ih => simp [leBytes, ih]

theorem leNat_leBytes (n x : Nat) : leNat (leBytes n x) = x % 256 ^ n := by
  induction n generalizing x with
  | zero => simp [leBytes, leNat, Nat.mod_one]
  | succ n ih =>
    rw [leBytes, leNat, ih]
    rw [Nat.pow_succ', Nat.mod_mul]
    simp

/-- A word reads as it was last written. -/
theorem rdMem_wrMem_same (s : State) (m a : Nat) (bs : Bytes) (hm : m < 3) : rdMem (wrMem s m a bs) m a bs.length = bs := by
  unfold rdMem
  apply List.ext_getElem
  · simp
  · intro i h1 h2
    simp at h1
    rw [List.getElem_map, List.getElem_range, rdByte_wrMem _ _ hm, if_pos (by omega)]
    simp [h2]

theorem rdWord_wrWord_same (s : State) (m a : Nat) (w : W64) (hm : m < 3) : rdWord (wrWord s m a w) m a = w := by
  unfold rdWord wrWord
  have h := rdMem_wrMem_same s m a (leBytes 8 w.toNat) hm
  rw [leBytes_length] at h
  rw [h, leNat_leBytes, Nat.mod_eq_of_lt (by have := w.isLt; omega), BitVec.ofNat_toNat, BitVec.setWidth_eq]

theorem rdByte_wrWord (s : State) (m a x : Nat) (w : W64) (hm : m < 3) (h : x < a ∨ a + 8 ≤ x) : rdByte (wrWord s m a w) m x = rdByte s m x := by
  unfold wrWord
  rw [rdByte_wrMem _ _ hm, leBytes_length, if_neg (by omega)]

theorem rdMem_congr (s t : State) (m a n : Nat) (h : ∀ x, a ≤ x → x < a + n → rdByte t m x = rdByte s m x) : rdMem t m a n = rdMem s m a n := by
  unfold rdMem
  apply List.map_congr_left
  intro i hi
  have := List.mem_range.1 hi
  exact h _ (by omega) (by omega)

theorem rdWord_wrWord_ne (s : State) (m a x : Nat) (w : W64) (hm : m < 3) (h : x + 8 ≤ a ∨ a + 8 ≤ x) : rdWord (wrWord s m a w) m x = rdWord s m x := by
  unfold rdWord
  rw [rdMem_congr s (wrWord s m a w) m x 8 (fun y h1 h2 => rdByte_wrWord _ _ _ _ _ hm (by omega))]

end Sys2Proof.Machine
end

