-- ==== Sys2Proof/Laws/Transit.lean ====
section
/-! SUPPORT. What the operations of the Transit links change (03_transit.md). -/

namespace Sys2Proof.Machine

@[simp] theorem useSlot_regs (s : State) (p : Nat) (fl : Bytes) : (useSlot s p fl).regs = s.regs := by
  unfold useSlot; dsimp only; split <;> simp

@[simp] theorem useSlot_part (s : State) (p : Nat) (fl : Bytes) : (useSlot s p fl).part = s.part := by
  unfold useSlot; dsimp only; split <;> simp

@[simp] theorem sendLc_regs (n : Nat) (s : State) (p fl c : Nat) : (sendLc s p fl c n).regs = s.regs := by
  induction n generalizing s with
  | zero => rfl
  | succ n ih => exact (ih _).trans (useSlot_regs _ _ _)

@[simp] theorem sendLc_part (n : Nat) (s : State) (p fl c : Nat) : (sendLc s p fl c n).part = s.part := by
  induction n generalizing s with
  | zero => rfl
  | succ n ih => exact (ih _).trans (useSlot_part _ _ _)

/-- Each LC flit of `sendLc` takes the next slot of its port. -/
theorem sendLc_succ (n : Nat) (s : State) (p fl c : Nat) :
    sendLc s p fl c (n + 1) = sendLc (useSlot s p (lcFlit s p fl c)) p fl c n := rfl

/-- Keys of the counters of dropped TRIGGERs (R294). -/
def dropKey (k : Nat) : Prop := ∃ d, k = fkey F.FAB_EMIT_STAT_TRIG_DROPPED (dieO d)

theorem regsOnly_clearPort {z s : State} {p : Nat} (h : RegsOnly dropKey z s) : RegsOnly dropKey z (clearPort s p) := by
  unfold clearPort
  refine regsOnly_eq ?_ (modPort_regs _ _ _)
  exact regsOnly_foldl _ h (fun _ t h => regsOnly_satF h ⟨_, rfl⟩)

@[simp] theorem clearPort_part (s : State) (p : Nat) : (clearPort s p).part = s.part := by
  unfold clearPort; rw [modPort_part]; refine foldl_keeps (·.part) ?_ _ _; intros; simp

@[simp] theorem clearPort_out (s : State) (p : Nat) : (clearPort s p).out = s.out := by
  unfold clearPort; rw [modPort_out]; refine foldl_keeps (·.out) ?_ _ _; intros; simp

/-- No key of a counter of dropped TRIGGERs is that of a field of a Transit port. -/
theorem not_dropKey (f : Fld) (p : Nat) (h1 : 0x1020000 ≤ f.base) (h2 : f.base < 0x1028000) (h3 : f.lsb < 64) :
    ¬ dropKey (fkey f (portO p)) := by
  rintro ⟨d, h⟩
  simp only [fkey, F.FAB_EMIT_STAT_TRIG_DROPPED, portO, dieO] at h
  omega

theorem getF_clearPort (s : State) (p : Nat) (f : Fld) (o : Nat) (h : ¬ dropKey (fkey f o)) :
    getF (clearPort s p) f o = getF s f o := (regsOnly_clearPort (RegsOnly.refl _ s)).getF (by simp) f o h

/-- A field of a Transit port is none that a detach writes. -/
theorem not_detachKey_port (f : Fld) (p : Nat) (hp : p < 16) (h1 : 0x1020000 ≤ f.base) (h2 : f.base < 0x1028000)
    (h3 : f.lsb < 64) : ¬ detachKey (fkey f (portO p)) := by
  rintro (h | (h | h | h) | (h | ⟨n, hn, h⟩ | ⟨a, b, hb, h⟩))
  · simp [fkey, F.BMK_EVENT_CLOSED, portO] at h; omega
  · simp [fkey, portO] at h; omega
  · simp [fkey, F.BMK_EVENT_STAKE_COALESCED, portO] at h; omega
  · simp [logKey, fkey, portO] at h; omega
  · simp [fkey, F.BMK_GLOBAL_HORIZON, portO] at h; omega
  · simp [fkey, F.BMK_SRC_STAT_INCLUDED, srcO, portO] at h
    omega
  · simp [fkey, F.PKG_EDGE_DROPPED, edgeO, dieO, portO] at h
    omega

/-- Sources detached one after another write their STATEs and what a detach writes (R99, R121). -/
theorem regsOnly_detachAll (l : List Nat) (r : Nat) (s : State) (hl : ∀ n ∈ l, n < 1024) :
    RegsOnly (fun k => (∃ n, n < 1024 ∧ k = fkey F.BMK_SRC_STAT_STATE (srcO n)) ∨ detachKey k) s
      (l.foldl (fun s n => detach s n r) s) := by
  induction l generalizing s with
  | nil => exact RegsOnly.refl _ s
  | cons a l ih =>
    rw [List.foldl_cons]
    refine RegsOnly.trans ((regsOnly_detach (RegsOnly.refl _ s)).mono ?_) (ih _ (fun n hn => hl n (by simp [hn])))
    rintro k (h | h)
    · exact .inl ⟨a, hl a (by simp), h⟩
    · exact .inr h

@[simp] theorem detachAll_part (l : List Nat) (r : Nat) (s : State) : (l.foldl (fun s n => detach s n r) s).part = s.part :=
  foldl_keeps (·.part) (fun s n => detach_part s n r) _ _

/-- Every source of the list that is held is CLOSED afterwards, and no other changes its state (R99, R121). -/
theorem srcState_detachAll (l : List Nat) (r : Nat) (s : State) (m : Nat) (hl : ∀ n ∈ l, n < 1024) (hm : m < 1024) :
    srcState (l.foldl (fun s n => detach s n r) s) m =
      if m ∈ l ∧ (srcState s m = srcPending ∨ srcState s m = srcLive ∨ srcState s m = srcStalled) then srcClosed
      else srcState s m := by
  induction l generalizing s with
  | nil => simp
  | cons a l ih =>
    rw [List.foldl_cons, ih _ (fun n hn => hl n (by simp [hn])), srcState_detach s a m r (hl a (by simp)) hm]
    by_cases h : m = a
    · subst h
      by_cases hh : srcState s m = srcPending ∨ srcState s m = srcLive ∨ srcState s m = srcStalled
      · rw [if_pos (⟨rfl, hh⟩ : m = m ∧ _), if_pos (show m ∈ m :: l ∧ _ from ⟨by simp, hh⟩)]; split <;> rfl
      · simp [hh]
    · simp [h]

end Sys2Proof.Machine
end

