-- ==== Sys2Proof/WellFormed.lean ====
section
/-! DEFINITION. Well-formed commands: each operand that names a unit lies in the range that the spec gives the largest part
(the M-880), a register access has a length and as many bytes of data, a flit has 256 bytes. Which units a smaller part lacks is judged
by the meanings. -/

namespace Sys2Proof.WellFormed

/-- An engine die, or the stack of one (R1). -/
def dieOk (d : Nat) : Bool := decide (d < 8)

/-- A temperature sensor: a die's, or Brim's (R609). -/
def sensorOk (d : Nat) : Bool := decide (d < 9)

/-- A Transit port (R37). -/
def portOk (p : Nat) : Bool := decide (p < 16)

/-- A host port, a feed, a reference, a physical function. -/
def twoOk (p : Nat) : Bool := decide (p < 2)

/-- A global cell number (R31). -/
def cellOk (g : Nat) : Bool := decide (g < 32768)

/-- A global tile number (R31). -/
def tileOk (t : Nat) : Bool := decide (t < 512)

/-- A traverse number. -/
def travOk (t : Nat) : Bool := decide (t < 4096)

/-- A global ring number (R38). -/
def ringOk (n : Nat) : Bool := decide (n < 65536)

/-- A function number (R493). -/
def fnOk (f : Nat) : Bool := decide (f < 2 ∨ (0x200 ≤ f ∧ f < 0x600))

/-- A pseudo-channel of a stack (R377). -/
def pcOk (c : Nat) : Bool := decide (c < 32)

/-- A stack SRAM channel or slice of a die. -/
def sliceOk (c : Nat) : Bool := decide (c < 16)

/-- A DMA channel of a die. -/
def chanOk (c : Nat) : Bool := decide (c < 64)

/-- A codec engine of a die. -/
def engineOk (e : Nat) : Bool := decide (e < 4)

/-- A twin pair (R511). -/
def pairOk (k : Nat) : Bool := decide (k < 4)

/-- An edge of a die (R33). -/
def edgeOk (e : Nat) : Bool := decide (e < 3)

/-- A staging slot (R187). -/
def platSlotOk (k : Nat) : Bool := decide (k < 4)

/-- A plat key slot (R576). -/
def keySlotOk (k : Nat) : Bool := decide (k < 8)

/-- A slot of the error log (R586). -/
def logSlotOk (k : Nat) : Bool := decide (k < 64)

/-- A table of FN_STAGE_STAT.TABLE. -/
def tableOk (t : Nat) : Bool := decide (t < 7)

/-- A TRIG_OUT pin (R605). -/
def pinOk (p : Nat) : Bool := decide (p < 8)

/-- The length of an access, of at most 4 KiB; R16 judges which of them a register takes. -/
def lenOk (n : Nat) : Bool := decide (1 ≤ n ∧ n ≤ 4096)

/-- The bytes of a write of length `n`. -/
def dataOk (n v : Nat) : Bool := decide (v < 2 ^ (8 * n))

/-- A register value. -/
def wordOk (v : Nat) : Bool := decide (v < 2 ^ 64)

/-- A flit (R108). -/
def flitOk (f : Bytes) : Bool := f.length == 256

end Sys2Proof.WellFormed

namespace Sys2Proof

open WellFormed in
/-- Whether a command is well formed. -/
def Instr.wf : Instr → Bool
  | .registerWrite fn _ len data => fnOk fn && lenOk len && dataOk len data
  | .accessTimeout fn _ _ => fnOk fn
  | .gViewUpdate die => dieOk die
  | .silenceTimeout _ => true
  | .pacerTick => true
  | .bmkAdvance _ => true
  | .stakeDisarm _ => true
  | .horizonTokenSend trav die => travOk trav && dieOk die
  | .epochSwitchStart => true
  | .prepare die => dieOk die
  | .ready die => dieOk die
  | .commitApply die => dieOk die
  | .portEnable fn port => fnOk fn && portOk port
  | .portDisable port => portOk port
  | .linkReset port => portOk port
  | .signalDetect port => portOk port
  | .lanesAdapted port _ _ => portOk port
  | .laneFail port => portOk port
  | .trainTimeout port => portOk port
  | .lockAcquired port => portOk port
  | .lockTimeout port => portOk port
  | .initComplete port => portOk port
  | .lossOfLock port => portOk port
  | .resetIdleDone port => portOk port
  | .dataFlitReceive port _ _ flit => portOk port && flitOk flit
  | .lcFlitReceive port _ _ flit => portOk port && flitOk flit
  | .retryRepeat port => portOk port
  | .ackSend port => portOk port
  | .frameCheck port => portOk port
  | .frameAccept port => portOk port
  | .hello port => portOk port
  | .bye port => portOk port
  | .byeWaitExpiry _ => true
  | .nakSend port => portOk port
  | .triggerSend port => portOk port
  | .haltFrameSend port => portOk port
  | .fedStampSend port => portOk port
  | .fedTokenSend _ _ _ => true
  | .loadPlat ring => ringOk ring
  | .platFetchDone slot _ _ => platSlotOk slot
  | .platCheckDone slot => platSlotOk slot
  | .gauntletAdmit slot => platSlotOk slot
  | .preloadDone slot => platSlotOk slot
  | .replaceZeroingDone slot => platSlotOk slot
  | .unloadPlat ring => ringOk ring
  | .taskDispatch tile => tileOk tile
  | .tokenMatch tile trav => tileOk tile && travOk trav
  | .nop cell => cellOk cell
  | .mov cell => cellOk cell
  | .add cell => cellOk cell
  | .sub cell => cellOk cell
  | .mul cell => cellOk cell
  | .mulh cell => cellOk cell
  | .neg cell => cellOk cell
  | .abs cell => cellOk cell
  | .min cell => cellOk cell
  | .max cell => cellOk cell
  | .and cell => cellOk cell
  | .or cell => cellOk cell
  | .xor cell => cellOk cell
  | .not cell => cellOk cell
  | .shl cell => cellOk cell
  | .shr cell => cellOk cell
  | .rol cell => cellOk cell
  | .popc cell => cellOk cell
  | .clz cell => cellOk cell
  | .ctz cell => cellOk cell
  | .bfx cell => cellOk cell
  | .bfi cell => cellOk cell
  | .h64 cell => cellOk cell
  | .cmpeq cell => cellOk cell
  | .cmpne cell => cellOk cell
  | .cmplt cell => cellOk cell
  | .cmple cell => cellOk cell
  | .sel cell => cellOk cell
  | .isnull cell => cellOk cell
  | .merge cell => cellOk cell
  | .keep cell => cellOk cell
  | .drop cell => cellOk cell
  | .rsum cell => cellOk cell
  | .rmin cell => cellOk cell
  | .rmax cell => cellOk cell
  | .rcnt cell => cellOk cell
  | .ror cell => cellOk cell
  | .rfirst cell => cellOk cell
  | .rlast cell => cellOk cell
  | .fadd32 cell => cellOk cell
  | .fadd64 cell => cellOk cell
  | .fsub32 cell => cellOk cell
  | .fsub64 cell => cellOk cell
  | .fcmp32 cell => cellOk cell
  | .fcmp64 cell => cellOk cell
  | .fkey32 cell => cellOk cell
  | .fkey64 cell => cellOk cell
  | .shuf cell => cellOk cell
  | .compact cell => cellOk cell
  | .bcast cell => cellOk cell
  | .tagf cell => cellOk cell
  | .ld cell => cellOk cell
  | .st cell => cellOk cell
  | .upd cell => cellOk cell
  | .srq cell => cellOk cell
  | .hrq cell => cellOk cell
  | .emit cell => cellOk cell
  | .emitd cell => cellOk cell
  | .routeCopySend _ _ _ => true
  | .chainTokenDeliver die _ => dieOk die
  | .nullReplyDeliver cell _ => cellOk cell
  | .holdStall tile trav => tileOk tile && travOk trav
  | .scanTokenIssue _ _ _ => true
  | .sortMergeDone _ _ => true
  | .collectorTake tile => tileOk tile
  | .hostBufferWrite port => twoOk port
  | .trigOutDrive die => dieOk die
  | .trigOutPulseEnd pin => pinOk pin
  | .invocationEnd _ => true
  | .streamEnd trav _ => travOk trav
  | .fabIndDataWrite fn tile data => fnOk fn && tileOk tile && wordOk data
  | .fabIndDataRead fn tile => fnOk fn && tileOk tile
  | .srqServe die ch _ _ _ => dieOk die && sliceOk ch
  | .eccWriteback die ch => dieOk die && sliceOk ch
  | .sramParityFreeze die ch _ => dieOk die && sliceOk ch
  | .sramChannelReset die ch => dieOk die && sliceOk ch
  | .sramChannelResetDone die ch _ => dieOk die && sliceOk ch
  | .sramFence die ch _ => dieOk die && sliceOk ch
  | .sliceZeroingDone die slice => dieOk die && sliceOk slice
  | .sramScrubRead die ch _ _ _ => dieOk die && sliceOk ch
  | .srmIndDataAccess fn die _ data => fnOk fn && dieOk die && wordOk data
  | .hbmReadIssue stack pc => dieOk stack && pcOk pc
  | .hbmWriteIssue stack pc => dieOk stack && pcOk pc
  | .hbmReadReturn stack pc _ _ => dieOk stack && pcOk pc
  | .hbmParityError stack pc => dieOk stack && pcOk pc
  | .hbmWriteCrcError stack pc => dieOk stack && pcOk pc
  | .refreshWindow stack _ _ _ => dieOk stack
  | .retrainPassStart stack => dieOk stack
  | .hbmChannelReset stack pc => dieOk stack && pcOk pc
  | .hbmChannelResetDone stack pc _ => dieOk stack && pcOk pc
  | .hbmFence stack pc _ => dieOk stack && pcOk pc
  | .hbmIndDataAccess fn die _ data => fnOk fn && dieOk die && wordOk data
  | .cacheLookup die _ => dieOk die
  | .fillSectorArrive die _ => dieOk die
  | .lock fn die _ => fnOk fn && dieOk die
  | .unlock fn die _ => fnOk fn && dieOk die
  | .preload fn die _ => fnOk fn && dieOk die
  | .invalidate fn die _ => fnOk fn && dieOk die
  | .cleanInvalidate fn die _ => fnOk fn && dieOk die
  | .spcCmdDone die => dieOk die
  | .cacheDrain fn die => fnOk fn && dieOk die
  | .cacheDrained die => dieOk die
  | .cacheEnable fn die => fnOk fn && dieOk die
  | .cdcCompress ring => ringOk ring
  | .cdcDecompress ring => ringOk ring
  | .codecBlockDone die engine _ _ => dieOk die && engineOk engine
  | .decodeBlock die engine _ _ => dieOk die && engineOk engine
  | .captureBlock die engine => dieOk die && engineOk engine
  | .doorbellWrite fn _ len data => fnOk fn && lenOk len && dataOk len data
  | .entryReadReturn ring _ _ => ringOk ring
  | .entryReread ring _ _ => ringOk ring
  | .entryConsume ring => ringOk ring
  | .nopEntry ring => ringOk ring
  | .invoke ring => ringOk ring
  | .cancel ring => ringOk ring
  | .postBuffer ring => ringOk ring
  | .dmaXfer ring => ringOk ring
  | .postBufferTimeout ring => ringOk ring
  | .completionWrite port => twoOk port
  | .overflowDrain ring => ringOk ring
  | .coalesceTimeout ring => ringOk ring
  | .sqEnable fn ring => fnOk fn && ringOk ring
  | .sqShutdown fn ring => fnOk fn && ringOk ring
  | .cqEnable fn ring => fnOk fn && ringOk ring
  | .cqDisable fn ring => fnOk fn && ringOk ring
  | .contextParityError ring _ => ringOk ring
  | .dmaTransferStart die ch => dieOk die && chanOk ch
  | .dmaReadBurst die ch => dieOk die && chanOk ch
  | .dmaReadReturn die ch _ _ => dieOk die && chanOk ch
  | .dmaWriteBeat die => dieOk die
  | .dmaWriteAck die ch => dieOk die && chanOk ch
  | .channelDisable fn die ch => fnOk fn && dieOk die && chanOk ch
  | .channelEnable fn die ch => fnOk fn && dieOk die && chanOk ch
  | .stageReq => true
  | .stageCheckDone => true
  | .withdraw => true
  | .drainComplete table _ => tableOk table
  | .drainLimit => true
  | .scrubDone table _ => tableOk table
  | .functionLevelReset fn => fnOk fn
  | .pfFunctionLevelReset pf => twoOk pf
  | .flrStepEnd fn => fnOk fn
  | .pairEnable fn pair => fnOk fn && pairOk pair
  | .pairDisable fn pair => fnOk fn && pairOk pair
  | .syncDone pair => pairOk pair
  | .twinGateRelease pair => pairOk pair
  | .heartbeat die => dieOk die
  | .heartbeatTimeout die => dieOk die
  | .dieDigest die => dieOk die
  | .holdExpiry die => dieOk die
  | .roleSwap => true
  | .feedSample _ _ => true
  | .powerFail => true
  | .refWindowEnd ref _ => twoOk ref
  | .refDead ref => twoOk ref
  | .pllLock => true
  | .refSwitch => true
  | .pllFault => true
  | .clkGateWrite fn die data => fnOk fn && dieOk die && wordOk data
  | .coldReset => true
  | .powerUpStepEnd _ => true
  | .warm => true
  | .warmResetStepEnd => true
  | .dieHold fn die => fnOk fn && dieOk die
  | .dieRelease die => dieOk die
  | .dieReleaseDone die => dieOk die
  | .chainEdgeLoss die edge => dieOk die && edgeOk edge
  | .edgeRetrainAttemptEnd die edge _ => dieOk die && edgeOk edge
  | .hostPortLoss port => twoOk port
  | .perstDeassert port => twoOk port
  | .feedSenseChange feed _ => twoOk feed
  | .hpAttn => true
  | .quiesce => true
  | .quiesceDone => true
  | .hpEject => true
  | .secSvnCommit fn data => fnOk fn && wordOk data
  | .install fn slot => fnOk fn && keySlotOk slot
  | .clear fn slot => fnOk fn && keySlotOk slot
  | .attestReq => true
  | .attestDone => true
  | .challenge => true
  | .submit => true
  | .debugVerifyDone => true
  | .errSlotFree slot => logSlotOk slot
  | .errInject fn _ => fnOk fn
  | .erase => true
  | .thermalSample die _ => sensorOk die
  | .lifeSecond _ => true
  | .lifeStore => true
  | .registerRead fn _ len => fnOk fn && lenOk len
  | .dlActive port => twoOk port
  | .vfEnable pf _ => twoOk pf
  | .completionTimeout port _ => twoOk port
  | .listReadReturn ring _ _ => ringOk ring
  | .vc1FrameCheck port _ => portOk port
  | .dieFlushDone die => dieOk die
  | .msixUnmask fn _ => fnOk fn
  | .hbmStackHot stack _ => dieOk stack
  | .controlStateParity die => dieOk die
  | .coldRstNLow => true

end Sys2Proof
end

