-- ==== Sys2Proof/Tests/Slice0.lean ====
section
/-! SUPPORT. Tests: ill-formed commands are refused, worked examples of the spec, and for each statement with hypotheses a state and
operands that meet them. -/

set_option Elab.async false

namespace Sys2Proof.Tests

open Sys2Proof Sys2Proof.Machine

/-- The reset state with some register fields set. -/
def st (l : List (Fld × Nat × Nat)) : State := l.foldl (fun s x => setF s x.1 x.2.1 x.2.2) State.reset

/-! ### Ill-formed commands -/

/-- One ill-formed command for each check of an operand, refused (part 1 of 4). -/
theorem test_ill_formed_1 : ∀ i ∈ ([
    .registerWrite 2 0 4 0, .registerWrite 0 0 4097 0, .registerWrite 0 0 4 (2 ^ 32), .accessTimeout 2 0 false, .gViewUpdate 8,
    .horizonTokenSend 4096 0, .horizonTokenSend 0 8, .prepare 8, .ready 8, .commitApply 8, .portEnable 2 0, .portEnable 0 16,
    .portDisable 16, .linkReset 16, .signalDetect 16, .lanesAdapted 16 0 false, .laneFail 16, .trainTimeout 16,
    .lockAcquired 16, .lockTimeout 16, .initComplete 16, .lossOfLock 16, .resetIdleDone 16,
    .dataFlitReceive 16 0 0 (List.replicate 256 0), .dataFlitReceive 0 0 0 [], .lcFlitReceive 16 0 0 (List.replicate 256 0),
    .lcFlitReceive 0 0 0 [], .retryRepeat 16, .ackSend 16, .frameCheck 16, .frameAccept 16, .hello 16, .bye 16, .nakSend 16,
    .triggerSend 16, .haltFrameSend 16, .fedStampSend 16, .loadPlat 65536, .platFetchDone 4 false (List.replicate 256 0),
    .platCheckDone 4, .gauntletAdmit 4, .preloadDone 4, .replaceZeroingDone 4, .unloadPlat 65536, .taskDispatch 512,
    .tokenMatch 512 0, .tokenMatch 0 4096, .nop 32768, .mov 32768, .add 32768, .sub 32768, .mul 32768, .mulh 32768, .neg 32768,
    .abs 32768, .min 32768, .max 32768, .and 32768, .or 32768, .xor 32768, .not 32768, .shl 32768, .shr 32768, .rol 32768,
    .popc 32768, .clz 32768, .ctz 32768, .bfx 32768, .bfi 32768, .h64 32768] : List Instr), i.wf = false := by
  decide +kernel

/-- One ill-formed command for each check of an operand, refused (part 2 of 4). -/
theorem test_ill_formed_2 : ∀ i ∈ ([
    .cmpeq 32768, .cmpne 32768, .cmplt 32768, .cmple 32768, .sel 32768, .isnull 32768, .merge 32768, .keep 32768, .drop 32768,
    .rsum 32768, .rmin 32768, .rmax 32768, .rcnt 32768, .ror 32768, .rfirst 32768, .rlast 32768, .fadd32 32768, .fadd64 32768,
    .fsub32 32768, .fsub64 32768, .fcmp32 32768, .fcmp64 32768, .fkey32 32768, .fkey64 32768, .shuf 32768, .compact 32768,
    .bcast 32768, .tagf 32768, .ld 32768, .st 32768, .upd 32768, .srq 32768, .hrq 32768, .emit 32768, .emitd 32768,
    .chainTokenDeliver 8 0, .nullReplyDeliver 32768 0, .holdStall 512 0, .holdStall 0 4096, .collectorTake 512,
    .hostBufferWrite 2, .trigOutDrive 8, .trigOutPulseEnd 8, .streamEnd 4096 0, .fabIndDataWrite 2 0 0,
    .fabIndDataWrite 0 512 0, .fabIndDataWrite 0 0 (2 ^ 64), .fabIndDataRead 2 0, .fabIndDataRead 0 512, .srqServe 8 0 0 0 0,
    .srqServe 0 16 0 0 0, .eccWriteback 8 0, .eccWriteback 0 16, .sramParityFreeze 8 0 false, .sramParityFreeze 0 16 false,
    .sramChannelReset 8 0, .sramChannelReset 0 16, .sramChannelResetDone 8 0 false, .sramChannelResetDone 0 16 false,
    .sramFence 8 0 false, .sramFence 0 16 false, .sliceZeroingDone 8 0, .sliceZeroingDone 0 16, .sramScrubRead 8 0 0 0 0,
    .sramScrubRead 0 16 0 0 0, .srmIndDataAccess 2 0 false 0, .srmIndDataAccess 0 8 false 0,
    .srmIndDataAccess 0 0 false (2 ^ 64), .hbmReadIssue 8 0, .hbmReadIssue 0 32] : List Instr), i.wf = false := by
  decide +kernel

/-- One ill-formed command for each check of an operand, refused (part 3 of 4). -/
theorem test_ill_formed_3 : ∀ i ∈ ([
    .hbmWriteIssue 8 0, .hbmWriteIssue 0 32, .hbmReadReturn 8 0 0 0, .hbmReadReturn 0 32 0 0, .hbmParityError 8 0,
    .hbmParityError 0 32, .hbmWriteCrcError 8 0, .hbmWriteCrcError 0 32, .refreshWindow 8 0 0 false, .retrainPassStart 8,
    .hbmChannelReset 8 0, .hbmChannelReset 0 32, .hbmChannelResetDone 8 0 false, .hbmChannelResetDone 0 32 false,
    .hbmFence 8 0 false, .hbmFence 0 32 false, .hbmIndDataAccess 2 0 false 0, .hbmIndDataAccess 0 8 false 0,
    .hbmIndDataAccess 0 0 false (2 ^ 64), .cacheLookup 8 0, .fillSectorArrive 8 0, .lock 2 0 0, .lock 0 8 0, .unlock 2 0 0,
    .unlock 0 8 0, .preload 2 0 0, .preload 0 8 0, .invalidate 2 0 0, .invalidate 0 8 0, .cleanInvalidate 2 0 0,
    .cleanInvalidate 0 8 0, .spcCmdDone 8, .cacheDrain 2 0, .cacheDrain 0 8, .cacheDrained 8, .cacheEnable 2 0,
    .cacheEnable 0 8, .cdcCompress 65536, .cdcDecompress 65536, .codecBlockDone 8 0 (List.replicate 256 0) false,
    .codecBlockDone 0 4 (List.replicate 256 0) false, .decodeBlock 8 0 (List.replicate 256 0) false,
    .decodeBlock 0 4 (List.replicate 256 0) false, .captureBlock 8 0, .captureBlock 0 4, .doorbellWrite 2 0 4 0,
    .doorbellWrite 0 0 4097 0, .doorbellWrite 0 0 4 (2 ^ 32), .entryReadReturn 65536 false (List.replicate 256 0),
    .entryReread 65536 false (List.replicate 256 0), .entryConsume 65536, .nopEntry 65536, .invoke 65536, .cancel 65536,
    .postBuffer 65536, .dmaXfer 65536, .postBufferTimeout 65536, .completionWrite 2, .overflowDrain 65536,
    .coalesceTimeout 65536, .sqEnable 2 0, .sqEnable 0 65536, .sqShutdown 2 0, .sqShutdown 0 65536, .cqEnable 2 0,
    .cqEnable 0 65536, .cqDisable 2 0, .cqDisable 0 65536, .contextParityError 65536 false, .dmaTransferStart 8 0] : List Instr), i.wf = false := by
  decide +kernel

/-- One ill-formed command for each check of an operand, refused (part 4 of 4). -/
theorem test_ill_formed_4 : ∀ i ∈ ([
    .dmaTransferStart 0 64, .dmaReadBurst 8 0, .dmaReadBurst 0 64, .dmaReadReturn 8 0 false (List.replicate 256 0),
    .dmaReadReturn 0 64 false (List.replicate 256 0), .dmaWriteBeat 8, .dmaWriteAck 8 0, .dmaWriteAck 0 64,
    .channelDisable 2 0 0, .channelDisable 0 8 0, .channelDisable 0 0 64, .channelEnable 2 0 0, .channelEnable 0 8 0,
    .channelEnable 0 0 64, .drainComplete 7 0, .scrubDone 7 0, .functionLevelReset 2, .pfFunctionLevelReset 2, .flrStepEnd 2,
    .pairEnable 2 0, .pairEnable 0 4, .pairDisable 2 0, .pairDisable 0 4, .syncDone 4, .twinGateRelease 4, .heartbeat 8,
    .heartbeatTimeout 8, .dieDigest 8, .holdExpiry 8, .refWindowEnd 2 0, .refDead 2, .clkGateWrite 2 0 0, .clkGateWrite 0 8 0,
    .clkGateWrite 0 0 (2 ^ 64), .dieHold 2 0, .dieHold 0 8, .dieRelease 8, .dieReleaseDone 8, .chainEdgeLoss 8 0,
    .chainEdgeLoss 0 3, .edgeRetrainAttemptEnd 8 0 false, .edgeRetrainAttemptEnd 0 3 false, .hostPortLoss 2, .perstDeassert 2,
    .feedSenseChange 2 false, .secSvnCommit 2 0, .secSvnCommit 0 (2 ^ 64), .install 2 0, .install 0 8, .clear 2 0, .clear 0 8,
    .errSlotFree 64, .errInject 2 0, .thermalSample 9 0, .registerRead 2 0 4, .registerRead 0 0 4097, .dlActive 2,
    .vfEnable 2 0, .completionTimeout 2 0, .listReadReturn 65536 false (List.replicate 256 0), .vc1FrameCheck 16 0,
    .dieFlushDone 8, .msixUnmask 2 0, .hbmStackHot 8 0, .controlStateParity 8] : List Instr), i.wf = false := by
  decide +kernel

/-- A well-formed command of each of these constructors (part 1 of 3). -/
theorem test_well_formed_1 : ∀ i ∈ ([
    .registerWrite 0 0 4 0, .accessTimeout 0 0 false, .gViewUpdate 0, .horizonTokenSend 0 0, .prepare 0, .ready 0,
    .commitApply 0, .portEnable 0 0, .portDisable 0, .linkReset 0, .signalDetect 0, .lanesAdapted 0 0 false, .laneFail 0,
    .trainTimeout 0, .lockAcquired 0, .lockTimeout 0, .initComplete 0, .lossOfLock 0, .resetIdleDone 0,
    .dataFlitReceive 0 0 0 (List.replicate 256 0), .lcFlitReceive 0 0 0 (List.replicate 256 0), .retryRepeat 0, .ackSend 0,
    .frameCheck 0, .frameAccept 0, .hello 0, .bye 0, .nakSend 0, .triggerSend 0, .haltFrameSend 0, .fedStampSend 0, .loadPlat 0,
    .platFetchDone 0 false (List.replicate 256 0), .platCheckDone 0, .gauntletAdmit 0, .preloadDone 0, .replaceZeroingDone 0,
    .unloadPlat 0, .taskDispatch 0, .tokenMatch 0 0, .nop 0, .mov 0, .add 0, .sub 0, .mul 0, .mulh 0, .neg 0, .abs 0, .min 0,
    .max 0, .and 0, .or 0, .xor 0, .not 0, .shl 0, .shr 0, .rol 0, .popc 0, .clz 0, .ctz 0, .bfx 0, .bfi 0, .h64 0, .cmpeq 0,
    .cmpne 0, .cmplt 0, .cmple 0, .sel 0, .isnull 0, .merge 0] : List Instr), i.wf = true := by
  decide +kernel

/-- A well-formed command of each of these constructors (part 2 of 3). -/
theorem test_well_formed_2 : ∀ i ∈ ([
    .keep 0, .drop 0, .rsum 0, .rmin 0, .rmax 0, .rcnt 0, .ror 0, .rfirst 0, .rlast 0, .fadd32 0, .fadd64 0, .fsub32 0,
    .fsub64 0, .fcmp32 0, .fcmp64 0, .fkey32 0, .fkey64 0, .shuf 0, .compact 0, .bcast 0, .tagf 0, .ld 0, .st 0, .upd 0, .srq 0,
    .hrq 0, .emit 0, .emitd 0, .chainTokenDeliver 0 0, .nullReplyDeliver 0 0, .holdStall 0 0, .collectorTake 0,
    .hostBufferWrite 0, .trigOutDrive 0, .trigOutPulseEnd 0, .streamEnd 0 0, .fabIndDataWrite 0 0 0, .fabIndDataRead 0 0,
    .srqServe 0 0 0 0 0, .eccWriteback 0 0, .sramParityFreeze 0 0 false, .sramChannelReset 0 0, .sramChannelResetDone 0 0 false,
    .sramFence 0 0 false, .sliceZeroingDone 0 0, .sramScrubRead 0 0 0 0 0, .srmIndDataAccess 0 0 false 0, .hbmReadIssue 0 0,
    .hbmWriteIssue 0 0, .hbmReadReturn 0 0 0 0, .hbmParityError 0 0, .hbmWriteCrcError 0 0, .refreshWindow 0 0 0 false,
    .retrainPassStart 0, .hbmChannelReset 0 0, .hbmChannelResetDone 0 0 false, .hbmFence 0 0 false,
    .hbmIndDataAccess 0 0 false 0, .cacheLookup 0 0, .fillSectorArrive 0 0, .lock 0 0 0, .unlock 0 0 0, .preload 0 0 0,
    .invalidate 0 0 0, .cleanInvalidate 0 0 0, .spcCmdDone 0, .cacheDrain 0 0, .cacheDrained 0, .cacheEnable 0 0, .cdcCompress 0] : List Instr), i.wf = true := by
  decide +kernel

/-- A well-formed command of each of these constructors (part 3 of 3). -/
theorem test_well_formed_3 : ∀ i ∈ ([
    .cdcDecompress 0, .codecBlockDone 0 0 (List.replicate 256 0) false, .decodeBlock 0 0 (List.replicate 256 0) false,
    .captureBlock 0 0, .doorbellWrite 0 0 4 0, .entryReadReturn 0 false (List.replicate 256 0),
    .entryReread 0 false (List.replicate 256 0), .entryConsume 0, .nopEntry 0, .invoke 0, .cancel 0, .postBuffer 0, .dmaXfer 0,
    .postBufferTimeout 0, .completionWrite 0, .overflowDrain 0, .coalesceTimeout 0, .sqEnable 0 0, .sqShutdown 0 0,
    .cqEnable 0 0, .cqDisable 0 0, .contextParityError 0 false, .dmaTransferStart 0 0, .dmaReadBurst 0 0,
    .dmaReadReturn 0 0 false (List.replicate 256 0), .dmaWriteBeat 0, .dmaWriteAck 0 0, .channelDisable 0 0 0,
    .channelEnable 0 0 0, .drainComplete 0 0, .scrubDone 0 0, .functionLevelReset 0, .pfFunctionLevelReset 0, .flrStepEnd 0,
    .pairEnable 0 0, .pairDisable 0 0, .syncDone 0, .twinGateRelease 0, .heartbeat 0, .heartbeatTimeout 0, .dieDigest 0,
    .holdExpiry 0, .refWindowEnd 0 0, .refDead 0, .clkGateWrite 0 0 0, .dieHold 0 0, .dieRelease 0, .dieReleaseDone 0,
    .chainEdgeLoss 0 0, .edgeRetrainAttemptEnd 0 0 false, .hostPortLoss 0, .perstDeassert 0, .feedSenseChange 0 false,
    .secSvnCommit 0 0, .install 0 0, .clear 0 0, .errSlotFree 0, .errInject 0 0, .thermalSample 0 0, .registerRead 0 0 4,
    .dlActive 0, .vfEnable 0 0, .completionTimeout 0 0, .listReadReturn 0 false (List.replicate 256 0), .vc1FrameCheck 0 0,
    .dieFlushDone 0, .msixUnmask 0 0, .hbmStackHot 0 0, .controlStateParity 0] : List Instr), i.wf = true := by
  decide +kernel

/-! ### Worked examples of the spec -/

/-- The bytes that the spec prints in hexadecimal. -/
def hex (l : List Nat) : Bytes := l.map (BitVec.ofNat 8)

/-- The elements of the worked example of 11_codec.md. -/
def column : List W64 := [5000, 5100, 5230, 5300, 5290, 5400, 5500, 5600]

/-- Its block of 24 bytes. -/
def block : Bytes :=
  hex [0xB5, 0x02, 0x08, 0x00, 0x09, 0x00, 0x08, 0x00, 0x88, 0x13, 0, 0, 0, 0, 0, 0, 0xC8, 0x08, 0x32, 0x9A, 0xC0, 0x0D, 0x19, 0x32]

theorem test_block_is_encoded : encodeBlock column = block := by decide +kernel

theorem test_block_is_decoded : decodeBlock block 0 64 64 = .good column 24 := by decide +kernel

/-- The frame of the worked example of 03_transit.md. -/
def deltaFrame : Bytes :=
  hex [0x02, 0x00, 0x40, 0x00, 0x45, 0x01, 0x21, 0x00, 0x12, 0x04, 0, 0, 0x03, 0, 0, 0, 0x80, 0x96, 0x98, 0, 0, 0, 0, 0,
    0, 0, 0, 0, 0, 0, 0, 0, 0x02, 0, 0x07, 0, 0x0B, 0, 0, 0, 0x01, 0, 0, 0, 0, 0, 0, 0, 0, 0x3A, 0, 0, 0, 0, 0, 0,
    0xFF, 0xFF, 0xFF, 0xFF, 0xFF, 0xFF, 0xFF, 0xFF]

/-- Port P5 with source 325, which expects SEQ `q`, and the frame in its stream. -/
def port5 (q : Nat) : State :=
  { st [(F.TRN_STAT_STATE, portO 5, lkUp), (F.TRN_CRED_RX_RX_GRANTED, credO 5 0, 0x12000), (F.TRN_CRED_RX_RX_CONSUMED, credO 5 0, 0x11F80),
      (F.BMK_SRC_STAT_STATE, srcO 325, srcLive), (F.BMK_SRC_STAT_PORT, srcO 325, 5), (F.BMK_SRC_HZN_HORIZON, srcO 325, 9999992)] with
    ports := [(5, { vcs := [(0, { stream := deltaFrame })] })]
    plats := { active := [{ (default : Plat) with schema := [{ (default : Group) with id := 0x21, w := 12 }] }] }
    bmk := { expSeq := [(325, q)] } }

theorem test_frame_passes : judge (port5 0x412) 5 deltaFrame = .pass 325 := by decide +kernel

/-- The NAK of the repeated frame. -/
theorem test_frame_repeated_is_answered :
    (match exec (.frameCheck 5) (port5 0x413) with
      | .next t => (portOf t 5).vc1q
      | _ => []) =
    [⟨true, hex [0x24, 0x01, 0x20, 0x00, 0x03, 0x04, 0x45, 0x01, 0x12, 0x04, 0, 0, 0x13, 0x04, 0, 0, 0x80, 0x96, 0x98, 0, 0, 0, 0, 0,
      0x02, 0, 0x01, 0, 0, 0, 0, 0]⟩] := by decide +kernel

/-- Port P5's registers start where 03_transit.md says, and its sources at 320. -/
theorem test_port_registers : 0x1020000 + portO 5 = 0x1828000 ∧ srcBase State.reset 5 = 320 := by decide

/-- The microcode of the worked example of 05_fabric.md, cell 3 of tile 197. -/
def edgeCode : List Nat :=
  [0x8163, 0x100001262, 0xA0000002214, 0x4000C220E, 0x2370, 0x82071, 0x10500008414, 0x10500003514, 0x45622, 0x800062072, 0x607C]

/-- Its cell at instruction `i`, with the V registers `v` and the word 0x3A00 at 0x1450, 41 at 0x1458. -/
def edgeCell (i : Nat) (v : Tbl Lanes) : State :=
  { State.reset with
    plats := { active := [{ (default : Plat) with
      travs := [{ (default : Trav) with num := 42, nodes := [{ (default : Node) with op := 0x0A, ncells := 1, first := 12611 }] }]
      micro := [⟨12611, edgeCode⟩] }] }
    tstore := [(197 * 0x200000 + 3 * 0x8000 + 0x1451, 0x3A), (197 * 0x200000 + 3 * 0x8000 + 0x1458, 41)]
    fab := { passes := [(12611, ⟨⟨12611, [⟨42, 0, .data, 0x145, 0x413, { l0 := some 0x3A27 }, 0⟩], 0, 0⟩, v, i, false, 0⟩)] } }

/-- Register `n` of the cell after a command. -/
def after (c : Instr) (s : State) (n : Nat) : Lanes :=
  match exec c s with
  | .next t => ((Tbl.get? 12611 t.fab.passes).map (fun p => p.reg n)).getD {}
  | _ => {}

theorem test_tagf : after (.tagf 12611) (edgeCell 0 []) 1 = { l0 := some 42, l1 := some 0x145, l2 := some 0x413, l3 := some 0, l4 := some 0 } := by
  decide +kernel

theorem test_bcast :
    after (.bcast 12611) (edgeCell 1 [(1, { l0 := some 42, l1 := some 0x145, l2 := some 0x413, l3 := some 0, l4 := some 0 })]) 2 =
      Lanes.all 0x145 := by decide +kernel

theorem test_bfx : after (.bfx 12611) (edgeCell 2 [(2, Lanes.all 0x145)]) 2 = Lanes.all 325 := by decide +kernel

theorem test_shl : after (.shl 12611) (edgeCell 3 [(2, Lanes.all 325)]) 2 = Lanes.all 5200 := by decide +kernel

theorem test_ld : after (.ld 12611) (edgeCell 4 [(2, Lanes.all 5200)]) 3 = Lanes.all 0x3A00 := by decide +kernel

theorem test_st :
    (match exec (.st 12611) (edgeCell 5 [(2, Lanes.all 5200)]) with
      | .next t => (rdWord t 0 (197 * 0x200000 + 3 * 0x8000 + 0x1450)).toNat
      | _ => 0) = 0x3A27 := by decide +kernel

theorem test_bfx_edge : after (.bfx 12611) (edgeCell 6 []) 4 = { l0 := some 1 } := by decide +kernel

theorem test_cmplt : after (.cmplt 12611) (edgeCell 8 [(4, { l0 := some 1 }), (5, Lanes.all 0)]) 6 = { l0 := some 1 } := by decide +kernel

theorem test_upd :
    (match exec (.upd 12611) (edgeCell 9 [(2, Lanes.all 5200), (6, { l0 := some 1 })]) with
      | .next t => ((rdWord t 0 (197 * 0x200000 + 0x19458)).toNat, (Tbl.get? 12611 t.fab.passes).map (fun p => p.reg 0))
      | _ => (0, none)) = (42, some { l0 := some 41 }) := by decide +kernel

/-- The two steps of the walk of 09_stack_sram.md: slice and channel-local entry. -/
theorem test_insert_walk :
    srqTarget (st [(F.SRM_CTL_PROBE_LIMIT, dieO 5, 16)]) ⟨1, 5, 0, 16, false, true, 0, 5⟩ 5 0x268ACE0 = .ok (5 * 2 ^ 30 + 7 * 2 ^ 26 + 0x13456 * 32) ∧
    srqTarget (st [(F.SRM_CTL_PROBE_LIMIT, dieO 5, 16)]) ⟨1, 5, 0, 16, false, true, 0, 5⟩ 5 0x10000000268ACE0 = .ok (5 * 2 ^ 30 + 8 * 2 ^ 26 + 0x13456 * 32) := by
  decide +kernel

/-- The address of 10_hbm_cache.md: stack address, pseudo-channel, cache set. -/
theorem test_hrq_address :
    hrqTarget State.reset { (default : Plat) with parts := [⟨2, 4, 4, 2, false, false, 0, 1⟩] } (4 * 4096) 1 0x23456740 =
      .ok (4 * 2 ^ 36 + 0x123456740) ∧
    pcOf State.reset 4 0x123456740 = 7 ∧ lineKey (0x123456740 / 128) 0 / 16 = 2766 := by decide +kernel

/-- The epoch switch of 02_design_time.md: G at 2,050 in epochs of 1,024, from epoch 0 to 2, merged. -/
theorem test_epoch_merges :
    (match exec .epochSwitchStart { st [(F.BMK_GLOBAL_HORIZON, 0, 2050), (F.BMK_CTL_EPOCH_SHIFT, 0, 10)] with bmk := { crossed := 2 } } with
      | .next t => (t.bmk.sw.map (fun w => w.epoch), isSet t F.BMK_EVENT_MERGED 0)
      | _ => (none, false)) = (some 2, true) := by decide +kernel

/-- VF 17 of PF 1 rings its local ring 3, global ring 4,099 (12_host_rings.md). -/
theorem test_doorbell :
    (match exec (.doorbellWrite (vfNum 1 17) 0x18 4 0x141)
        (st [(F.FN_OWN_RING_OWNER, 4099 * 8, vfNum 1 17), (F.FN_OWN_RING_AUX, 4099 * 8, 3), (F.RING_SQ_CTL_STATE, ringO 4099, 1),
          (F.RING_SQ_CFG_SIZE_LOG2, ringO 4099, 6), (F.RING_SQ_BASE_BASE, ringO 4099, 0x4012340000), (F.RING_SQ_IDX_CI, ringO 4099, 0x13E),
          (F.RING_SQ_IDX_PI, ringO 4099, 0x13E)]) with
      | .next t => (sqPi t 4099, sqAddr t 4099 0x13E, sqAddr t 4099 0x140)
      | _ => (0, 0, 0)) = (0x141, 0x4012340F80, 0x4012340000) := by decide +kernel

/-- Signed keys 5, −2, 5, 0 with order words 0 to 3 (06_operators.md). -/
theorem test_sort_order :
    sortBy (sortLe { (default : Node) with param := [1, 0, 1] })
      [(some 5, 0, 0, 0), (some (-2), 0, 1, 0), (some 5, 0, 2, 0), (some 0, 0, 3, 0)] =
      [(some (-2), 0, 1, 0), (some 0, 0, 3, 0), (some 5, 0, 0, 0), (some 5, 0, 2, 0)] := by decide +kernel

/-- With 60 lower entries a CORRECTED one is lost (17_security_errors.md). -/
theorem test_log_overflows :
    (match exec (.errInject 0 0)
        (st ((List.range 60).map (fun i => (F.ERR_ENT_A_VALID, slotO i, 1)))) with
      | .next t => ((validSlots t).length, getF t F.ERR_STAT_OVERFLOW 0, isSet t F.ERR_EVENT_LOST 0)
      | _ => (0, 0, false)) = (60, 1, true) := by decide +kernel

/-- At 100 °C life passes 1.41421 times as fast as at 95 °C or below (18_package.md). -/
theorem test_life_rate : lifeRate 95 = 2 ^ 32 ∧ lifeRate 100 * 100000 / 2 ^ 32 = 141421 := by decide

/-- No row of the command table gives bits, so no word spells a command. -/
theorem test_no_word_spells_a_command : decodeTableWord 16 0xFFFF = none ∧ State.reset.withFetchWord 16 0xFFFF = State.reset :=
  ⟨rfl, rfl⟩

/-- A node of one cell with `PARAM`. -/
def node (op first : Nat) (param : Bytes) : Node := ⟨op, 1, first, 0, param⟩

/-- The host query of 08_timing_promise.md, on tile 10 of D4. -/
def query : Plat :=
  { (default : Plat) with
    handle := 1
    owner := vfNum 1 17
    travs := [{ (default : Trav) with
      input := 1, num := 300, prio := 4, coll := 266
      nodes := [node opScan 17024 [0, 0, 0, 1], node 0x0E 17025 [], node opEmit 17026 []] }]
    micro := [⟨17024, [0, 0, 0, 0]⟩, ⟨17025, [0, 0, 0, 0, 0]⟩, ⟨17026, [0, 0, 0]⟩]
    routes := [⟨17024, 0, 0, 0, 0, 17025, 300⟩, ⟨17025, 0, 0, 0, 0, 17026, 300⟩, ⟨17026, 0, 2, 0, 0, 266, 300⟩]
    certs := [⟨300, 1, 4, 3200, 225, 2, 6, 1, 0⟩] }

/-- Another traverse of the same owner, on D0, that brings N_dest of its completion writer to 512. -/
def other : Plat :=
  { (default : Plat) with
    handle := 2
    owner := vfNum 1 17
    travs := [{ (default : Trav) with input := 1, num := 301, prio := 4, nodes := [node opScan 0 [0, 0, 0, 1], node opEmit 1 []] }]
    routes := [⟨0, 0, 0, 0, 0, 1, 301⟩, ⟨1, 0, 2, 0, 0, 0, 301⟩]
    certs := [⟨301, 1, 4, 1000000, 100, 510, 10, 1, 0⟩] }

/-- PACE is 7 fc and the bound 3,074 fc. -/
theorem test_host_query_bound :
    ((admitTravs (st [(F.BMK_CTL_EPOCH_MIN_GAP, 0, 2400)]) query [⟨other, other.travs.head!, 1000⟩] query.travs).1).map
      (fun r => (r.pace, r.computed)) = [(7, 3074)] := by decide +kernel

/-- The trigger traverse of 08_timing_promise.md: traverse 57 on tile 202, its path through four cells and six more. -/
def trigger : Plat :=
  { (default : Plat) with
    handle := 1
    travs := [{ (default : Trav) with
      num := 57, prio := 6, coll := 202
      nodes := [node opScan 12928 [0, 0, 0, 1], node 0x05 12929 [], node 0x09 12930 [1], node opEmit 12931 [2, 0, 0, 0, 0, 0, 4],
        ⟨0x0E, 6, 12932, 0, []⟩] }]
    micro := ⟨12928, List.replicate 6 0⟩ :: ⟨12929, List.replicate 9 0⟩ :: ⟨12930, [0x78, 0, 0, 0, 0]⟩ :: ⟨12931, [0, 0, 0]⟩ ::
      (List.range 6).map (fun i => ⟨12932 + i, [0, 0, 0, 0]⟩)
    routes := [⟨12928, 0, 0, 0, 0, 12929, 57⟩, ⟨12929, 0, 0, 0, 0, 12930, 57⟩, ⟨12930, 0, 0, 0, 0, 12931, 57⟩, ⟨12931, 0, 2, 0, 0, 202, 57⟩]
    parts := [⟨1, 3, 0, 1, false, false, 0, 0⟩]
    certs := [⟨57, 0, 6, 700, 179, 8, 4, 0, 1⟩] }

/-- Traverse 58 on the same tile: 16 cells of 14 instructions, two of them EMIT cells of RESULTS 16. -/
def neighbour : Plat :=
  { (default : Plat) with
    handle := 2
    travs := [{ (default : Trav) with
      num := 58, prio := 9, coll := 202, nodes := [node opScan 12944 [0, 0, 0, 1], ⟨0x0E, 13, 12945, 0, []⟩, node opEmit 12958 [3], node opEmit 12959 [3]] }]
    micro := (List.range 16).map (fun i => ⟨12944 + i, List.replicate 14 0⟩)
    routes := [⟨12944, 0, 0, 0, 0, 12958, 58⟩, ⟨12944, 0, 0, 0, 0, 12959, 58⟩, ⟨12958, 0, 2, 0, 0, 202, 58⟩, ⟨12959, 0, 2, 0, 0, 202, 58⟩]
    certs := [⟨58, 0, 9, 1000000, 1000, 16, 10, 0, 0⟩] }

/-- Traverse 12 on D2, which triggers P4 too. -/
def fellow : Plat :=
  { (default : Plat) with
    handle := 3
    travs := [{ (default : Trav) with num := 12, prio := 6, coll := 128, nodes := [node opScan 8192 [0, 0, 0, 1], node opEmit 8193 [2, 0, 0, 0, 0, 0, 4]] }]
    routes := [⟨8192, 0, 0, 0, 0, 8193, 12⟩, ⟨8193, 0, 2, 0, 0, 128, 12⟩]
    certs := [⟨12, 0, 6, 1000000, 1000, 8, 10, 0, 0⟩] }

/-- PACE is 14 fc and the bound 613 fc. -/
theorem test_trigger_bound :
    ((admitTravs (st [(F.BMK_CTL_EPOCH_MIN_GAP, 0, 2400)]) trigger [⟨neighbour, neighbour.travs.head!, 1000⟩, ⟨fellow, fellow.travs.head!, 1000⟩]
      trigger.travs).1).map (fun r => (r.pace, r.computed)) = [(14, 613)] := by decide +kernel

/-! ### Witnesses: states and operands that meet the hypotheses of the statements -/

/-- A plat with traverse 5, one node of opcode `op` at cells `g` and `g + 1`, the code of cell `g`, and routes. -/
def plat (op g : Nat) (code : List Nat) (rs : List Route) : Plat :=
  { (default : Plat) with
    handle := 1
    travs := [{ (default : Trav) with input := 2, num := 5, nodes := [{ (default : Node) with op := op, ncells := 2, first := g }] }]
    micro := [⟨g, code⟩]
    routes := rs }

/-- A data token of traverse 5, context 3, with `x` in lane 0. -/
def tk (slot : Nat) (x : W64) : Token := ⟨5, slot, .data, 3, 9, { l0 := some x }, 0⟩

/-- An instruction word: OP, D, A, B, C, IMM (R210). -/
def iw (op d a b c imm : Nat) : Nat := op + d * 2 ^ 8 + a * 2 ^ 12 + b * 2 ^ 16 + c * 2 ^ 20 + imm * 2 ^ 32

/-- Cell `g` runs `code` with the operands of slots 0 and 1, and has routes. -/
def running (g : Nat) (code : List Nat) (rs : List Route) (x y : W64) : State :=
  { State.reset with
    plats := { active := [plat 0x0A g code rs] }
    fab := { passes := [(g, ⟨⟨g, [tk 0 x, tk 1 y], 0, 0⟩, [], 0, false, 0⟩)] } }

/-- A frame of `len` bytes: type, source, group or high bytes of FRAME header offset 6, sequence number, STAMP 0 (R124). -/
def frm (type len src b6 seq : Nat) : Bytes :=
  sub ([BitVec.ofNat 8 type, 0] ++ leBytes 2 len ++ leBytes 2 src ++ leBytes 2 b6 ++ leBytes 4 seq) 0 len

/-- Port 15 is UP with credits both ways, source 1023 is LIVE on it, and `bs` waits in the stream of its VC `v`. -/
def up15 (v : Nat) (bs : Bytes) (l : List (Fld × Nat × Nat)) : State :=
  { st (l ++ [(F.TRN_STAT_STATE, portO 15, lkUp), (F.TRN_CRED_RX_RX_GRANTED, credO 15 v, 64), (F.TRN_CRED_TX_TX_GRANTED, credO 15 v, 64),
      (F.BMK_SRC_STAT_STATE, srcO 1023, srcLive), (F.BMK_SRC_STAT_PORT, srcO 1023, 15)]) with
    ports := [(15, { vcs := [(v, { stream := bs })] })] }

/-- A flit that the model builds carries the CRC of its first 252 bytes (R108). -/
theorem mkFlit_crc (ft vc n len ptr : Nat) (b : Bytes) :
    crc32c ((mkFlit ft vc n len ptr b).take 252) = fld (mkFlit ft vc n len ptr b) 252 4 := by
  have hl : ∀ c : Bytes, (sub c 0 240).length = 240 := by
    intro c; simp only [sub, List.length_append, List.length_replicate, List.length_take]; omega
  have hc : ∀ c : Bytes, crc32c c < 256 ^ 4 := fun c => by have := (~~~ (c.foldl crcByte 0xFFFFFFFF#32)).isLt; simpa [crc32c] using this
  have h : ∀ c : Bytes, c.length = 252 → crc32c ((c ++ leBytes 4 (crc32c c)).take 252) = fld (c ++ leBytes 4 (crc32c c)) 252 4 := by
    intro c h
    have h2 : (c ++ leBytes 4 (crc32c c)).take 252 = c := by rw [List.take_append_of_le_length (by omega), List.take_of_length_le (by omega)]
    have h3 : (c ++ leBytes 4 (crc32c c)).drop 252 = leBytes 4 (crc32c c) := by
      rw [List.drop_append_of_le_length (by omega), List.drop_of_length_le (by omega), List.nil_append]
    have h4 : (leBytes 4 (crc32c c)).length = 4 := leBytes_length ..
    rw [h2, fld, sub, h3, List.take_of_length_le (by omega), h4]
    simp only [Nat.sub_self, List.replicate_zero, List.append_nil]
    rw [leNat_leBytes, Nat.mod_eq_of_lt (hc c)]
  exact h _ (by simp [hl, leBytes_length])

/-- A row of traverse 5 on die `die`; `d` is byte 0 of PARAM (the destination), `b` bytes 6, 8 and 9 to 10. -/
def res (die d b6 b8 w : Nat) : Result :=
  { (default : Result) with
    trav := 5, ctx := 3, cell := 32767, die := die,
    param := [BitVec.ofNat 8 d, 1, 0, 0, 0, 0, BitVec.ofNat 8 b6, 0, BitVec.ofNat 8 b8] ++ leBytes 2 w }

/-- An open invocation of traverse 5. -/
def inv (n : Nat) : Inv := { (default : Inv) with num := n, trav := 5, rows := 8, bufLen := 4096 }

/-- A request of the last cell, of sequence number 9 in context 3 of traverse 5, through output port 1. -/
def rq (kind : ReqKind) (addr off why : Nat) : MemReq :=
  ⟨0, 32767, 1, kind, 5, 3, 9, 0, false, off, { l0 := some 7 }, addr, why, 0, false⟩

/-- Register fields, one active plat, and what the fabric holds. -/
def ws (l : List (Fld × Nat × Nat)) (p : Plat) (fab : Fab) : State := { st l with plats := { active := [p] }, fab := fab }

/-- A ring entry: OWN, opcode, body (R445). -/
def entry (op : Nat) (body : Bytes) : Bytes := sub ([1, BitVec.ofNat 8 op] ++ List.replicate 14 0 ++ body) 0 64

/-- Submission ring 65535 of PF 1 runs, bound to completion ring 65534; `r` is its hidden part. -/
def ringSt (l : List (Fld × Nat × Nat)) (r : Ring) : State :=
  { st (l ++ [(F.RING_SQ_CTL_STATE, ringO 65535, 1), (F.RING_SQ_CFG_CQ, ringO 65535, 65534), (F.RING_CQ_CTL_STATE, ringO 65534, 1),
      (F.RING_CQ_CFG_SIZE_LOG2, ringO 65534, 16), (F.FN_OWN_RING_OWNER, 65535 * 8, 1), (F.FN_OWN_RING_OWNER, 65534 * 8, 1),
      (F.RING_SQ_CFG_SIZE_LOG2, ringO 65535, 16), (F.RING_OVF_CFG_VALID, 0, 1)]) with
    rings := { rings := [(65535, r)] } }

/-- A transfer of one byte for PF 1 from `src` to host memory, completed on ring 65534. -/
def xf (src : Nat) : Xfer := ⟨65535, 65534, 7, 1, src, 0, 1, 0, false⟩

/-- A completion of ring 65534 for a command of ring 65535. -/
def cpl : Compl := ⟨65534, 0, 0, 0, 7, 0, none, none, none, 65535, none, 0, 0, 0, none, [], 0, false⟩

/-- Channel 62 of die 7 holds `c`; register fields. -/
def chanWith (l : List (Fld × Nat × Nat)) (c : Chan) : State := { st l with dma := { chans := [(chanKey 7 62, c)] } }

/-- A plat whose traverse 5 scans column 0 of a table into cell 32767. -/
def scanPlat : Plat :=
  { plat opScan 32767 [] [] with
    schema := [{ (default : Group) with isTable := true, cols := [(default : Column)] }]
    travs := [{ (default : Trav) with input := 1, num := 5, nodes := [⟨opScan, 1, 32767, 0, [0, 0, 0, 1]⟩] }] }

/-- The smallest image: a header and five empty sections (R157 to R160). -/
def img : Bytes :=
  sub ([0x50, 0x4C, 0x41, 0x54, 0, 1, 0, 0, 192, 0, 0, 0, 5] ++ List.replicate 51 0 ++
    [2, 3, 4, 5, 7].flatMap (fun t => t :: List.replicate 3 0 ++ [192] ++ List.replicate 11 0)) 0 192

/-- Staging slot 3 holds `x` in phase `ph`; other plats' parts as in `pls`. -/
def slotSt (ph : Nat) (x : PlatSlot) (pls : Plats) : State :=
  { st [(F.PLAT_SLOT_STAT_PHASE, platO 3, ph), (F.FN_ATTR_STATE, 0, 1)] with plats := { pls with slots := [(3, x)] } }

/-- A slot with an image and a plat. -/
def slot (im : Bytes) (p : Option Plat) (two : Nat) : PlatSlot :=
  { (default : PlatSlot) with len := 192, handle := 1, image := im, plat := p, staged := p.isSome, twoCommit := two }

/-- A plat with a zeroed HBM unit and a certificate of bound `b`. -/
def certPlat (b : Nat) : Plat :=
  { plat 0x0A 32767 [0] [] with parts := [⟨2, 7, 32, 1, true, false, 0, 0⟩], certs := [⟨5, 2, 0, b, 0, 1, 0, 0, 0⟩] }

/-- A pair whose second part is known. -/
theorem pair_of_snd {α β : Type} {x : α × β} {y : β} (h : x.2 = y) : x = (x.1, y) := by rw [← h]

/-- Stack SRAM channel 15 of die 7 is served and holds `c`. -/
def sramSt (l : List (Fld × Nat × Nat)) (c : SrmCh) : State :=
  { st (l ++ [(F.SRM_CTL_ENABLE, dieO 7, 1)]) with srm := { chs := [(127, c)] } }

/-- Pseudo-channel 31 of stack 7 is enabled and holds `c`. -/
def hbmSt (l : List (Fld × Nat × Nat)) (c : HPc) : State :=
  { st (l ++ [(F.HBM_STACK_CTL_ENABLE, dieO 7, 1)]) with hbm := { pcs := [(255, c)] } }

/-- The spill cache of die 7 holds `c`. -/
def spcSt (l : List (Fld × Nat × Nat)) (c : Spc) : State := { st l with hbm := { spcs := [(7, c)] } }

/-- Engine 3 of die 7 is enabled; the codec holds `c`. -/
def cdcSt (c : Cdc) : State := { st [(F.CDC_CTL_ENABLE, engO 31, 1)] with cdc := c }

/-- A codec job of 8 bytes in host memory with `n` of them done. -/
def job (n : Nat) : CJob := ⟨65535, 65534, 7, true, 1, 0, 0, 8, 4096, 0, n, 0, 0⟩

/-- A DECODE column of 8 elements with `n` of its `len` bytes done. -/
def dcol (len n : Nat) : DCol := ⟨9, 0, [31], 1, 0, len, n, 0, 64, [], false⟩

/-- The tables of a state that names no slots and no reservations. -/
theorem named {s : State} (h : s.plats = {}) : TablesNamed s := by
  simp [TablesNamed, h]

/-- Every edge on the path from die `a` to die `b` is UP. -/
def edgesUp (a b : Nat) : List (Fld × Nat × Nat) :=
  ((routeDies a b).zip (routeDies a b).tail).map (fun e => (F.PKG_EDGE_STATE, edgeO e.1 (edgeToward e.1 e.2), 2))

/-- A switch to epoch 3, with the dies prepared, ready and committed. -/
def sw (pr rd cm : List Nat) (going : Bool) : EpochSwitch := ⟨3, 2, 0, pr, rd, cm, [], going⟩

/-- A cell of a node that is no join. -/
theorem notJoin {s : State} {g : Nat} (h : (cellOwner s g).all (fun x => x.2.2.op != 9 && x.2.2.op != 12) = true) :
    ∀ x, cellOwner s g = some x → x.2.2.op ≠ 9 ∧ x.2.2.op ≠ 12 := by
  intro x hx
  simpa [hx] using h

/-- A triple by its parts. -/
theorem triple {α β γ : Type} (x : α × β × γ) : x = (x.1, x.2.1, x.2.2) := rfl

/-- A byte address of stack 7. -/
def stack7 : Nat := 2 ^ 60 + 7 * 2 ^ 56

/-- Empty write queues and caches take every write. -/
theorem roomy {s : State} (h : s.hbm = {}) (d a n cls ways : Nat) : hbmRoom s d a n cls ways = true := by
  simp [hbmRoom, lineRoom, canPush, hpc, lineAt, spcOf, victimRoom, h, Tbl.get?, Tbl.getD]

/-- The hypotheses of EveryStepGoesOn are met. -/
theorem witness_every_step_goes_on :
    ∃ s : State, s.pending = [] :=
  ⟨State.reset, by decide +kernel⟩

/-- The hypotheses of StepKeepsTablesCanonical are met. -/
theorem witness_step_keeps_tables_canonical :
    ∃ s : State, ∃ t, s.wf = true ∧ step s = .next t :=
  ⟨State.reset, _, by decide +kernel, rfl⟩

/-- The hypotheses of StepKeepsQueueAndHistory are met. -/
theorem witness_step_keeps_queue_and_history :
    ∃ s : State, ∃ t, step s = .next t :=
  ⟨State.reset, _, rfl⟩

/-- The hypotheses of CommandsTouchOnlyTheirUnits are met. -/
theorem witness_commands_touch_only_their_units :
    ∃ c s t, exec c s = .next t ∧ ∃ a, a ∉ touches c :=
  ⟨.perstDeassert 1, State.reset, _, rfl, .tiles, by decide⟩

/-- The hypotheses of CommandsWithoutRegistersLeaveThemAll are met. -/
theorem witness_commands_without_registers_leave_them_all :
    ∃ c s t, writesNoRegister c = true ∧ exec c s = .next t :=
  ⟨.perstDeassert 1, State.reset, _, rfl, rfl⟩

/-- The hypotheses of FusesNeverFall are met. -/
theorem witness_fuses_never_fall :
    (∃ s : State, ∃ t, step s = .next t ∧ s.sec.key0Revoked = true) :=
  ⟨{ State.reset with sec := { key0Revoked := true } }, _, rfl, rfl⟩

/-- The hypotheses of EncodedBlocksDecodeToTheirElements are met. -/
theorem witness_encoded_blocks_decode_to_their_elements :
    ∃ xs : List W64, ∃ out limit space : Nat, 1 ≤ xs.length ∧ xs.length ≤ 512 ∧ out + 8 * xs.length ≤ limit ∧ 8 * xs.length ≤
      space :=
  ⟨List.replicate 512 5, 0, 4096, 4096, by decide +kernel⟩

/-- The hypotheses of SourcesPaceStallAndDisarm are met. -/
theorem witness_sources_pace_stall_and_disarm :
    (∃ s : State, isSet s F.BMK_PACER_PACER_EN 0 = true) ∧
    (∃ s : State, isSet s F.BMK_PACER_PACER_EN 0 = false) ∧
    (∃ s : State, ∃ v, v < 2 ^ 64 ∧ getF s F.BMK_PACER_HZN_HORIZON 0 < v) ∧
    (∃ s : State, ∃ v, v < 2 ^ 64 ∧ v ≤ getF s F.BMK_PACER_HZN_HORIZON 0) ∧
    (∃ s : State, ∃ v, isSet s F.BMK_PACER_PACER_EN 0 = true ∧ knownSources s = [] ∧ v < 2 ^ 64 ∧ getF s
      F.BMK_PACER_HZN_HORIZON 0 < v ∧ hznG s < v) ∧
    (∃ s : State, ∃ n, n < 1024 ∧ srcState s n = srcLive ∧ getF s F.BMK_SILENCE_SILENCE_TIMEOUT 0 ≠ 0 ∧ getF s
      F.BMK_SRC_STAT_LAST_ACCEPT (srcO n) ≠ wall s % 2 ^ 32 ∧ s.logOff = false) ∧
    (∃ s : State, ∃ n, srcState s n ≠ srcLive ∨ getF s F.BMK_SILENCE_SILENCE_TIMEOUT 0 = 0 ∨ getF s F.BMK_SRC_STAT_LAST_ACCEPT
      (srcO n) = wall s % 2 ^ 32) :=
  ⟨⟨st [(F.BMK_PACER_PACER_EN, 0, 1)], by decide +kernel⟩,
   ⟨State.reset, by decide +kernel⟩,
   ⟨State.reset, 2 ^ 64 - 1, by decide +kernel⟩,
   ⟨State.reset, 0, by decide +kernel⟩,
   ⟨st [(F.BMK_PACER_PACER_EN, 0, 1)], 2 ^ 64 - 1, by decide +kernel⟩,
   ⟨st [(F.BMK_SRC_STAT_STATE, srcO 1023, srcLive), (F.BMK_SRC_STAT_LAST_ACCEPT, srcO 1023, 1), (F.BMK_SILENCE_SILENCE_TIMEOUT,
     0, 1)], 1023, by decide +kernel⟩,
   ⟨st [(F.BMK_SILENCE_SILENCE_TIMEOUT, 0, 0)], 1023, by decide +kernel⟩⟩

/-- The hypotheses of ViewsFollowTheMaster are met. -/
theorem witness_views_follow_the_master :
    (∃ s : State, ∃ d m rest, Tbl.getD s.bmk.msgs d [] = m :: rest ∧ m.src = none) ∧
    (∃ s : State, ∃ d m rest n, Tbl.getD s.bmk.msgs d [] = m :: rest ∧ m.src = some n) ∧
    (∃ s : State, ∃ n d p v, activeTrav s n = some (p, v) ∧ wantsHorizon v = true ∧ sliceCells s v d ≠ [] ∧ (∀ f, Tbl.get? (n *
      8 + d) s.bmk.hznAt = some f → f + 16 ≤ s.now) ∧ Tbl.getD s.bmk.lastHzn (n * 8 + d) 0 < Tbl.getD s.bmk.view d 0) ∧
    (∃ s : State, ∃ n d f, Tbl.get? (n * 8 + d) s.bmk.hznAt = some f ∧ s.now < f + 16) :=
  ⟨⟨{ State.reset with bmk := { msgs := [(7, [⟨none, 9, 0⟩])] } }, 7, _, [], rfl, by decide +kernel⟩,
   ⟨{ State.reset with bmk := { msgs := [(7, [⟨some 1023, 9, 0⟩])] } }, 7, _, [], 1023, rfl, by decide +kernel⟩,
   ⟨{ State.reset with plats := { active := [plat opWindow 32767 [] []] }, bmk := { view := [(7, 9)] } }, 5, 7, _, _, rfl,
     by decide +kernel, by decide +kernel, (fun f h => nomatch h), by decide +kernel⟩,
   ⟨{ State.reset with bmk := { hznAt := [(47, 0)] }, now := 15 }, 5, 7, 0, by decide +kernel⟩⟩

/-- The hypotheses of EpochSwitchRuns are met. -/
theorem witness_epoch_switch_runs :
    (∃ s : State, s.bmk.sw = none ∧ halted s = false ∧ 0 < s.bmk.crossed ∧ (∀ f, s.bmk.lastStart = some f → f + max 1024 (getF
      s F.BMK_CTL_EPOCH_MIN_GAP 0) ≤ s.now)) ∧
    (∃ s : State, s.bmk.sw ≠ none ∨ halted s = true ∨ s.bmk.crossed = 0 ∨ (∃ f, s.bmk.lastStart = some f ∧ s.now < f + max 1024
      (getF s F.BMK_CTL_EPOCH_MIN_GAP 0))) ∧
    (∃ s : State, ∃ d w, s.bmk.sw = some w ∧ dieUp s d = true ∧ d ∉ w.prepared ∧ d ∉ w.cut ∧ Tbl.getD s.bmk.msgs d [] = [] ∧
      lostTo s (masterDie s) d = none) ∧
    (∃ s : State, ∃ d w e, s.bmk.sw = some w ∧ dieUp s d = true ∧ d ∉ w.prepared ∧ d ∉ w.cut ∧ Tbl.getD s.bmk.msgs d [] = [] ∧
      lostTo s (masterDie s) d = some e) ∧
    (∃ s : State, ∃ d w, s.bmk.sw = some w ∧ d ∈ w.prepared ∧ d ∉ w.ready ∧ d ∉ w.cut ∧ leavingRuns s d = false ∧ halted s =
      false ∧ lostTo s d (masterDie s) = none ∧ w.going = false ∧ (∀ x, x < 8 → dieUp s x = true → x = d ∨ x ∈ w.ready ∨ x ∈
      w.cut)) ∧
    (∃ s : State, ∃ d w x, s.bmk.sw = some w ∧ d ∈ w.prepared ∧ d ∉ w.ready ∧ d ∉ w.cut ∧ leavingRuns s d = false ∧ lostTo s d
      (masterDie s) = none ∧ x < 8 ∧ dieUp s x = true ∧ x ≠ d ∧ x ∉ w.ready ∧ x ∉ w.cut) ∧
    (∃ s : State, ∃ d w, s.bmk.sw = some w ∧ w.going = true ∧ d ∉ w.committed ∧ dieUp s d = true ∧ lostTo s (masterDie s) d =
      none) ∧
    (∃ s : State, ∃ w, s.bmk.sw = some w ∧ w.going = false) :=
  ⟨⟨{ State.reset with bmk := { crossed := 2 } }, by decide +kernel, by decide +kernel, by decide +kernel, fun f h => nomatch
     h⟩,
   ⟨{ State.reset with bmk := { lastStart := some 0, crossed := 1 }, now := 1023 }, Or.inr (Or.inr (Or.inr ⟨0,
     by decide +kernel⟩))⟩,
   ⟨{ st (edgesUp 0 7) with bmk := { sw := some (sw [] [] [] false) } }, 7, _, rfl, by decide +kernel⟩,
   ⟨{ State.reset with bmk := { sw := some (sw [] [] [] false) } }, 7, _, (0, 2), rfl, by decide +kernel⟩,
   ⟨{ st (edgesUp 7 0) with bmk := { sw := some (sw [7] [0, 1, 2, 3, 4, 5, 6] [] false) } }, 7, _, rfl, by decide +kernel⟩,
   ⟨{ st (edgesUp 7 0) with bmk := { sw := some (sw [7] [] [] false) } }, 7, _, 6, rfl, by decide +kernel⟩,
   ⟨{ st (edgesUp 0 7) with bmk := { sw := some (sw [7] [7] [0, 1, 2, 3, 4, 5, 6] true) } }, 7, _, rfl, by decide +kernel⟩,
   ⟨{ State.reset with bmk := { sw := some (sw [7] [7] [] false) } }, _, rfl, by decide +kernel⟩⟩

/-- The hypotheses of LinkStateMachine are met. -/
theorem witness_link_state_machine :
    (∃ s : State, ∃ p, p < s.part.ports ∧ isSet s F.TRN_PORT_CTL_ENABLE (portO p) = false ∧ isSet s F.BMK_CTL_ENABLE 0 = true ∧
      overlaps s p = false) ∧
    (∃ s : State, ∃ p, p < 16 ∧ isSet s F.TRN_PORT_CTL_ENABLE (portO p) = false ∧ (isSet s F.BMK_CTL_ENABLE 0 = false ∨
      overlaps s p = true)) ∧
    (∃ s : State, ∃ p, link s p = lkDetect) ∧
    (∃ s : State, ∃ p pol, link s p = lkTrain ∧ pol < 256) ∧
    (∃ s : State, ∃ p, ∃ c : Instr, (c = .laneFail p ∨ c = .trainTimeout p) ∧ link s p = lkTrain) ∧
    (∃ s : State, ∃ p, link s p = lkLock) ∧
    (∃ s : State, ∃ p, link s p = lkLock ∨ link s p = lkInit) ∧
    (∃ s : State, ∃ p, link s p = lkInit ∧ 3 ≤ (portOf s p).initRx) ∧
    (∃ s : State, ∃ p, link s p = lkInit ∧ (portOf s p).initRx < 3) ∧
    (∃ s : State, ∃ p, link s p = lkReset) :=
  ⟨⟨st [(F.BMK_CTL_ENABLE, 0, 1)], 15, by decide +kernel⟩,
   ⟨State.reset, 15, by decide +kernel⟩,
   ⟨st [(F.TRN_STAT_STATE, portO 15, lkDetect)], 15, by decide +kernel⟩,
   ⟨st [(F.TRN_STAT_STATE, portO 15, lkTrain)], 15, 255, by decide +kernel⟩,
   ⟨st [(F.TRN_STAT_STATE, portO 15, lkTrain)], 15, .laneFail 15, by decide +kernel⟩,
   ⟨st [(F.TRN_STAT_STATE, portO 15, lkLock)], 15, by decide +kernel⟩,
   ⟨st [(F.TRN_STAT_STATE, portO 15, lkInit)], 15, by decide +kernel⟩,
   ⟨{ st [(F.TRN_STAT_STATE, portO 15, lkInit)] with ports := [(15, { initRx := 3 })] }, 15, by decide +kernel⟩,
   ⟨{ st [(F.TRN_STAT_STATE, portO 15, lkInit)] with ports := [(15, { initRx := 2 })] }, 15, by decide +kernel⟩,
   ⟨st [(F.TRN_STAT_STATE, portO 15, lkReset)], 15, by decide +kernel⟩⟩

/-- The hypotheses of LeavingUpDetachesSources are met. -/
theorem witness_leaving_up_detaches_sources :
    (∃ s : State, ∃ p, p < 16 ∧ link s p = lkUp) ∧
    (∃ s : State, ∃ p, p < 16 ∧ isSet s F.TRN_PORT_CTL_ENABLE (portO p) = true) :=
  ⟨⟨st [(F.TRN_STAT_STATE, portO 15, lkUp)], 15, by decide +kernel⟩,
   ⟨st [(F.TRN_PORT_CTL_ENABLE, portO 15, 1)], 15, by decide +kernel⟩⟩

/-- The hypotheses of FlitsAreReceivedAndAcknowledged are met. -/
theorem witness_flits_are_received_and_acknowledged :
    (∃ s : State, ∃ p, link s p = lkUp) ∧
    (∃ s : State, ∃ p f v, p < s.part.ports ∧ link s p = lkUp ∧ f.length = 256 ∧ crc32c (f.take 252) = fld f 252 4 ∧ byteAt f 0
      = 1 ∧ v = byteAt f 1 % 4 ∧ v ≠ 3 ∧ fld f 2 2 = (vcOf s p v).rxExp) ∧
    (∃ s : State, ∃ p f v, p < s.part.ports ∧ link s p = lkUp ∧ f.length = 256 ∧ crc32c (f.take 252) = fld f 252 4 ∧ byteAt f 0
      = 1 ∧ v = byteAt f 1 % 4 ∧ v ≠ 3 ∧ fld f 2 2 ≠ (vcOf s p v).rxExp ∧ (vcOf s p v).waiting = true) ∧
    (∃ s : State, ∃ p f, p < s.part.ports ∧ p < 16 ∧ link s p = lkUp ∧ (f.length ≠ 256 ∨ crc32c (f.take 252) ≠ fld f 252 4) ∧
      (∀ v, v < 3 → (vcOf s p v).retryRun < 7)) ∧
    (∃ s : State, ∃ p f, p < s.part.ports ∧ link s p = lkUp ∧ f.length = 256 ∧ crc32c (f.take 252) = fld f 252 4 ∧ byteAt f 0 =
      2 ∧ bits (byteAt f 12) 0 1 = 0 ∧ bits (byteAt f 12) 1 1 = 0) ∧
    (∃ s : State, ∃ p f, p < s.part.ports ∧ p < 16 ∧ link s p = lkUp ∧ f.length = 256 ∧ crc32c (f.take 252) = fld f 252 4 ∧
      byteAt f 0 = 2 ∧ bits (byteAt f 12) 1 1 = 1) ∧
    (∃ s : State, ∃ p f, p < s.part.ports ∧ link s p = lkInit ∧ f.length = 256 ∧ crc32c (f.take 252) = fld f 252 4 ∧ byteAt f 0
      = 2 ∧ bits (byteAt f 12) 0 1 = 1) ∧
    (∃ s : State, ∃ p, link s p = lkUp ∧ (∃ v, v < 3 ∧ (vcOf s p v).waiting = true) ∧ (∀ v, v < 3 → (vcOf s p v).retryRun < 7)) :=
  ⟨⟨up15 0 [] [], 15, by decide +kernel⟩,
   ⟨up15 2 [] [], 15, mkFlit 1 2 0 32 0 (frm 3 32 1023 0 0), 2, by decide +kernel, by decide +kernel, by decide +kernel,
     mkFlit_crc .., by decide +kernel⟩,
   ⟨{ up15 2 [] [] with ports := [(15, { vcs := [(2, { waiting := true })] })] }, 15, mkFlit 1 2 5 32 0 (frm 3 32 1023 0 0), 2,
     by decide +kernel, by decide +kernel, by decide +kernel, mkFlit_crc .., by decide +kernel⟩,
   ⟨up15 0 [] [], 15, [], by decide +kernel⟩,
   ⟨up15 0 [] [], 15, lcFlit (up15 0 [] []) 15 0 0, by decide +kernel, by decide +kernel, by decide +kernel, mkFlit_crc ..,
     by decide +kernel⟩,
   ⟨up15 0 [] [], 15, lcFlit (up15 0 [] []) 15 2 0, by decide +kernel, by decide +kernel, by decide +kernel, by decide +kernel,
     mkFlit_crc .., by decide +kernel⟩,
   ⟨st [(F.TRN_STAT_STATE, portO 15, lkInit)], 15, lcFlit (up15 0 [] []) 15 1 0, by decide +kernel, by decide +kernel,
     by decide +kernel, mkFlit_crc .., by decide +kernel⟩,
   ⟨{ up15 0 [] [] with ports := [(15, { vcs := [(2, { waiting := true, retryRun := 6 })] })] }, 15, by decide +kernel, ⟨2,
     by decide +kernel⟩, by decide +kernel⟩⟩

/-- The hypotheses of FramesAreCheckedAndAccepted are met. -/
theorem witness_frames_are_checked_and_accepted :
    (∃ s : State, ∃ p f n, link s p = lkUp ∧ halted s = false ∧ nextFrame s p 0 = some f ∧ judge s p f = .pass n) ∧
    (∃ s : State, ∃ p f n, link s p = lkUp ∧ halted s = false ∧ nextFrame s p 0 = some f ∧ judge s p f = .unknownGroup n) ∧
    (∃ s : State, ∃ p f x, p < 16 ∧ link s p = lkUp ∧ halted s = false ∧ nextFrame s p 0 = some f ∧ judge s p f = .fail x ∧
      Tbl.get? (if fedMode s p then srcBase s p else fld f 4 2) s.bmk.bye = none) ∧
    (∃ s : State, ∃ p c rest, (portOf s p).checked = c :: rest ∧ halted s = false ∧ c.source < 1024 ∧ (outOf s (splitterSrc
      p)).length + frameNeed s c ≤ 256 ∧ framePaced s p c = true ∧ Tbl.get? c.source s.bmk.bye = none ∧ (srcState s c.source =
      srcPending ∨ srcState s c.source = srcLive ∨ srcState s c.source = srcStalled)) ∧
    (∃ s : State, ∃ p c rest, (portOf s p).checked = c :: rest ∧ (256 < (outOf s (splitterSrc p)).length + frameNeed s c ∨
      framePaced s p c = false)) :=
  ⟨⟨up15 0 (frm 3 32 1023 0 0) [], 15, frm 3 32 1023 0 0, 1023, by decide +kernel⟩,
   ⟨up15 0 (frm 1 40 1023 77 0) [], 15, frm 1 40 1023 77 0, 1023, by decide +kernel⟩,
   ⟨up15 0 (frm 1 40 1022 77 0) [], 15, frm 1 40 1022 77 0, { reason := rsnUnknownSource, type := 1, vc := 0, source := 1022 },
     by decide +kernel⟩,
   ⟨{ up15 0 [] [] with ports := [(15, { checked := [⟨frm 3 32 1023 0 0, 1023, false, []⟩] })] }, 15, _, _, rfl,
     by decide +kernel⟩,
   ⟨{ up15 0 [] [] with ports := [(15, { checked := [⟨frm 3 32 1023 0 0, 1023, false, []⟩] })], fab := { outb := [(splitterSrc 15, List.replicate 257 ⟨0, .copies (tk 0 5) []⟩)] } },
     15, _, _, rfl, by decide +kernel⟩⟩

/-- The hypotheses of HelloGrantsAndByeCloses are met. -/
theorem witness_hello_grants_and_bye_closes :
    (∃ s : State, ∃ p f, link s p = lkUp ∧ halted s = false ∧ nextFrame s p 1 = some f ∧ byteAt f 0 = 0x20 ∧ checkHeader s p 1
      (vc1Types s p) (vc1ResvOk f) f = none ∧ byteAt f 5 = 1 ∧ byteAt f 6 = getF s F.TRN_PORT_CTL_MODE (portO p) ∧ (fedMode s p
      = true → fedConflict s p (byteAt f 7 % 16) = false)) ∧
    (∃ s : State, ∃ p f n, p < 16 ∧ link s p = lkUp ∧ halted s = false ∧ nextFrame s p 1 = some f ∧ byteAt f 0 = 0x22 ∧
      checkHeader s p 1 (vc1Types s p) (vc1ResvOk f) f = none ∧ fld f 4 2 ≠ 0xFFFF ∧ (fedMode s p = true → fld f 4 2 = 0) ∧ n =
      (if fedMode s p then srcBase s p else fld f 4 2) ∧ n < 1024 ∧ srcHeld s n = true ∧ getF s F.BMK_SRC_STAT_PORT (srcO n) =
      p) ∧
    (∃ s : State, ∃ p f, p < 16 ∧ link s p = lkUp ∧ halted s = false ∧ nextFrame s p 1 = some f ∧ byteAt f 0 = 0x22 ∧
      checkHeader s p 1 (vc1Types s p) (vc1ResvOk f) f = none ∧ fld f 4 2 = 0xFFFF) ∧
    (∃ s : State, ∃ n last, n < 1024 ∧ Tbl.get? n s.bmk.bye = some last ∧ (srcState s n = srcPending ∨ srcState s n = srcLive ∨
      srcState s n = srcStalled)) ∧
    (∃ s : State, ∃ p v f, p < 16 ∧ link s p = lkUp ∧ halted s = false ∧ nextFrame s p v = some f ∧ ((v = 1 ∧ byteAt f 0 ∉
      vc1Types s p) ∨ v = 2)) :=
  ⟨⟨up15 1 (frm 0x20 32 0x0100 0 0) [], 15, frm 0x20 32 0x0100 0 0, by decide +kernel⟩,
   ⟨up15 1 (frm 0x22 32 1023 0 0) [], 15, frm 0x22 32 1023 0 0, 1023, by decide +kernel⟩,
   ⟨up15 1 (frm 0x22 32 0xFFFF 0 0) [], 15, frm 0x22 32 0xFFFF 0 0, by decide +kernel⟩,
   ⟨{ up15 0 [] [] with bmk := { bye := [(1023, 4)] } }, 1023, 4, by decide +kernel⟩,
   ⟨up15 1 (frm 0x21 32 1023 0 0) [], 15, 1, frm 0x21 32 1023 0 0, by decide +kernel⟩⟩

/-- For each instruction of the cells whose result is stated of any operands, a pass that runs it: the hypotheses of
CellArithmeticWrapsOrSaturates, CellLogicShiftsAndCounts, CellBitFieldsAndHash, CellComparesAndSelects, CellReductionsAndPermutes and
CellFloatingPoint (FCMP predicate 4, the last) are met, by the last cell of the package. -/
theorem witness_cells_run :
    ∀ op ∈ [0x00, 0x01, 0x02, 0x03, 0x04, 0x05, 0x06, 0x07, 0x08, 0x09, 0x0A, 0x0B, 0x0C, 0x0D, 0x0E, 0x0F, 0x10, 0x11,
      0x12, 0x13, 0x14, 0x15, 0x50, 0x20, 0x21, 0x22, 0x23, 0x24, 0x25, 0x26, 0x27, 0x28, 0x30, 0x31, 0x32, 0x33,
      0x34, 0x35, 0x36, 0x40, 0x41, 0x42, 0x43, 0x44, 0x45, 0x46, 0x47, 0x60, 0x61, 0x62],
      ∃ p, Runs (running 32767 [iw op 1 8 9 0 4] [] 6 7) 32767 op p (iw op 1 8 9 0 4) ∧ iImm (iw op 1 8 9 0 4) % 8 < 5 := by
  intro op h
  refine ⟨⟨⟨32767, [tk 0 6, tk 1 7], 0, 0⟩, [], 0, false, 0⟩, ?_⟩
  unfold Runs
  revert op
  decide +kernel

/-- The hypotheses of the clause of CellReductionsAndPermutes about TAGF are met. -/
theorem witness_cells_tagf :
    ∃ p k, Runs (running 32767 [iw 0x63 1 8 0 0 2] [] 6 7) 32767 0x63 p (iw 0x63 1 8 0 0 2) ∧
      p.operand (iA (iw 0x63 1 8 0 0 2) - 8) = some k :=
  ⟨_, _, ⟨by decide, rfl, by decide, by decide⟩, rfl⟩

/-- The hypotheses of CellTileStore are met. -/
theorem witness_cell_tile_store :
    (∃ s : State, ∃ g p w, Runs s g 0x70 p w ∧ (∀ i, i < 8 → (srcA p w).get i ≠ none → wordOf g p w false i ≠ none)) ∧
    (∃ s : State, ∃ g p w, Runs s g 0x71 p w ∧ p.task.poisoned = false ∧ (∀ i, i < 8 → (srcA p w).get i ≠ none → (srcB p w).get
      i ≠ none → wordOf g p w true i ≠ none)) ∧
    (∃ s : State, ∃ g p w, Runs s g 0x72 p w ∧ p.task.poisoned = false ∧ (∀ i, i < 8 → (srcA p w).get i ≠ none → (srcB p w).get
      i ≠ none → wordOf g p w true i ≠ none)) ∧
    (∃ s : State, ∃ g p w, ∃ c : Instr, ∃ op i x, ((c = .ld g ∧ op = 0x70) ∨ (c = .st g ∧ op = 0x71) ∨ (c = .upd g ∧ op =
      0x72)) ∧ Runs s g op p w ∧ i < 8 ∧ (srcA p w).get i = some x ∧ (op = 0x70 ∨ (srcB p w).get i ≠ none) ∧ wordOf g p w (op
      != 0x70) i = none) :=
  ⟨⟨running 32767 [iw 0x70 1 8 9 0 0] [] 0x7FF8 7, 32767, _, iw 0x70 1 8 9 0 0, ⟨by decide, rfl, by decide, by decide⟩,
     by decide +kernel⟩,
   ⟨running 32767 [iw 0x71 1 8 9 0 0] [] 0x7FF8 7, 32767, _, iw 0x71 1 8 9 0 0, ⟨by decide, rfl, by decide, by decide⟩,
     by decide +kernel⟩,
   ⟨running 32767 [iw 0x72 1 8 9 0 0] [] 0x7FF8 7, 32767, _, iw 0x72 1 8 9 0 0, ⟨by decide, rfl, by decide, by decide⟩,
     by decide +kernel⟩,
   ⟨running 32767 [iw 0x70 1 8 9 0 0] [] 0x8000 7, 32767, _, iw 0x70 1 8 9 0 0, .ld 32767, 0x70, 0, 0x8000, by decide, ⟨by
     decide, rfl, by decide, by decide⟩, by decide +kernel⟩⟩

/-- The hypotheses of EmissionsEnterTheOutputBuffer are met. -/
theorem witness_emissions_enter_the_output_buffer :
    (∃ s : State, ∃ g p w rs ds, Runs s g 0x7C p w ∧ cellRoutes s g (iImm w % 4) = rs ∧ rs ≠ [] ∧ rs.filterMap (routeDest s g)
      = ds ∧ ds ≠ [] ∧ (∀ x, cellOwner s g = some x → x.2.2.op ≠ 9 ∧ x.2.2.op ≠ 12) ∧ p.squashed = false ∧ deadCtx s
      p.task.key.trav p.task.key.ctx = false) ∧
    (∃ s : State, ∃ g p w rs ds x m, Runs s g 0x7C p w ∧ cellRoutes s g (iImm w % 4) = rs ∧ rs ≠ [] ∧ rs.filterMap (routeDest s
      g) = ds ∧ ds ≠ [] ∧ cellOwner s g = some x ∧ (x.2.2.op = 9 ∨ x.2.2.op = 12) ∧ iImm w / 4 % 2 = 0 ∧ rs.all (staysIn x.2.2)
      = false ∧ m = matchCount s (nodeFirst s g x.2.2) (emitToken p w (srcA p w)) ∧ p.squashed = false ∧ deadCtx s
      p.task.key.trav p.task.key.ctx = false) ∧
    (∃ s : State, ∃ g p w, Runs s g 0x7C p w ∧ cellRoutes s g (iImm w % 4) = []) ∧
    (∃ s : State, ∃ g p w b rs, Runs s g 0x7D p w ∧ (srcB p w).get 0 = some b ∧ (cellRoutes s g (iImm w % 4)).filter (fun r =>
      r.kind == 1 && r.dieMask / 2 ^ (b.toNat % 8) % 2 == 1) = rs ∧ rs ≠ [] ∧ maskDies s g (2 ^ (b.toNat % 8)) = [b.toNat % 8]
      ∧ (∀ x, cellOwner s g = some x → x.2.2.op ≠ 9 ∧ x.2.2.op ≠ 12) ∧ p.squashed = false ∧ deadCtx s p.task.key.trav
      p.task.key.ctx = false) ∧
    (∃ s : State, ∃ g p w, Runs s g 0x7D p w ∧ (∀ b, (srcB p w).get 0 = some b → ∀ r ∈ cellRoutes s g (iImm w % 4), r.kind = 1
      → r.dieMask / 2 ^ (b.toNat % 8) % 2 = 0)) :=
  ⟨⟨running 32767 [iw 0x7C 1 8 9 0 0] [⟨32767, 0, 0, 3, 0, 32766, 5⟩] 6 7, 32767, _, iw 0x7C 1 8 9 0 0, _, _, ⟨by decide, rfl,
     by decide, by decide⟩, rfl, by decide +kernel, rfl, by decide +kernel, notJoin (by decide +kernel), rfl,
     by decide +kernel⟩,
   ⟨{ running 32767 [iw 0x7C 1 8 9 0 0] [⟨32767, 0, 0, 3, 0, 32766, 5⟩] 6 7 with plats := { active := [plat 9 32767 [iw 0x7C 1 8 9 0 0] [⟨32767, 0, 0, 3, 0, 32766, 5⟩]] } },
     32767, _, iw 0x7C 1 8 9 0 0, _, _, _, _, ⟨by decide, rfl, by decide, by decide⟩, rfl, by decide +kernel, rfl,
     by decide +kernel, rfl, by decide +kernel, by decide +kernel, by decide +kernel, rfl, by decide +kernel⟩,
   ⟨running 32767 [iw 0x7C 1 8 9 0 0] [] 6 7, 32767, _, iw 0x7C 1 8 9 0 0, ⟨by decide, rfl, by decide, by decide⟩,
     by decide +kernel⟩,
   ⟨running 32767 [iw 0x7D 1 8 9 0 0] [⟨32767, 0, 1, 3, 128, 4094, 5⟩] 6 7, 32767, _, iw 0x7D 1 8 9 0 0, 7, _, ⟨by decide, rfl,
     by decide, by decide⟩, rfl, rfl, by decide +kernel, by decide +kernel, notJoin (by decide +kernel), rfl,
     by decide +kernel⟩,
   ⟨running 32767 [iw 0x7D 1 8 9 0 0] [⟨32767, 0, 1, 3, 128, 4094, 5⟩] 7 6, 32767, _, iw 0x7D 1 8 9 0 0, ⟨by decide, rfl, by
     decide, by decide⟩, fun b h => by obtain rfl := Option.some.inj (h : some (6 : W64) = some b); decide +kernel⟩⟩

/-- The hypotheses of MemoryRequestsLeaveAndReply are met. -/
theorem witness_memory_requests_leave_and_reply :
    (∃ s : State, ∃ g p w r x, Runs s g 0x78 p w ∧ (srcA p w).get 0 = some x ∧ p.task.poisoned = false ∧ r =
      { id := s.fab.nextReq, cell := g, port := iD w % 4, kind := srqKind (iC w), trav := p.task.key.trav, ctx := p.task.key.ctx, seq := p.task.key.seq, acc := p.task.acc, poisoned := false, off := x.toNat, data := srcB p w, addr := r.addr, why := 0, fc := 0, dead := false }
      ∧ target s g (iImm w % 2 ^ 16) x.toNat true = .ok r.addr ∧ outOf s g = [] ∧ replyPlace s r = true ∧ chState s (chanOf
      r.addr) = 0 ∧ (srmCh s (chanOf r.addr)).queue.length < 64 ∧ (∀ q ∈ (srmCh s (chanOf r.addr)).queue, q.fc = s.now → q.cell
      ≤ g)) ∧
    (∃ s : State, ∃ g p w r x, Runs s g 0x79 p w ∧ (srcA p w).get 0 = some x ∧ p.task.poisoned = false ∧ r =
      { id := s.fab.nextReq, cell := g, port := iD w % 4, kind := if iC w = 1 then .hrqWrite else .hrqRead, trav := p.task.key.trav, ctx := p.task.key.ctx, seq := p.task.key.seq, acc := p.task.acc, poisoned := false, off := x.toNat, data := srcB p w, addr := r.addr, why := 0, fc := 0, dead := false }
      ∧ target s g (iImm w % 2 ^ 16) x.toNat false = .ok r.addr ∧ outOf s g = [] ∧ replyPlace s r = true ∧ lostTo s (g / 4096)
      (r.addr / 2 ^ 36) = none ∧ dieUp s (r.addr / 2 ^ 36) = true) ∧
    (∃ s : State, ∃ g p w, ∃ c : Instr, ∃ x, ((c = .srq g ∧ Runs s g 0x78 p w ∧ target s g (iImm w % 2 ^ 16) x.toNat true =
      .fault) ∨ (c = .hrq g ∧ Runs s g 0x79 p w ∧ target s g (iImm w % 2 ^ 16) x.toNat false = .fault)) ∧ (srcA p w).get 0 =
      some x) ∧
    (∃ s : State, ∃ g fc r rt q, outOf s g = [⟨fc, .outstanding r none⟩] ∧ r.cell = g ∧ r.why = 1 ∧ r.dead = false ∧
      r.kind.sram = true ∧ replyRoute s r = some rt ∧ routeDest s g rt = some (.cell (localCell s g rt.dst) rt.slot) ∧ deadCtx
      s r.trav r.ctx = false ∧ (activeTrav s r.trav).isSome = true ∧ q = inQueue s (tileOfCell (localCell s g rt.dst)) r.trav ∧
      (∀ k ∈ q, k.since = s.now → entryRank k.src ≤ entryRank g)) :=
  ⟨⟨{ running 32767 [iw 0x78 1 8 9 0 0] [] 0x3FFFFE0 7 with plats := { active := [{ plat 0x0A 32767 [iw 0x78 1 8 9 0 0] [] with parts := [⟨1, 7, 15, 1, false, false, 1, 0⟩] }] } },
     32767, _, iw 0x78 1 8 9 0 0, (rq .srqRead (7 * 2 ^ 30 + 15 * 2 ^ 26 + 0x3FFFFE0) 0x3FFFFE0 0), 0x3FFFFE0, ⟨by decide, rfl,
     by decide, by decide⟩, rfl, by decide +kernel⟩,
   ⟨{ running 32767 [iw 0x79 1 8 9 0 0] [] 0x3FFFFFC0 7 with plats := { active := [{ plat 0x0A 32767 [iw 0x79 1 8 9 0 0] [] with parts := [⟨2, 7, 63, 1, false, false, 0, 0⟩] }] } },
     32767, _, iw 0x79 1 8 9 0 0, (rq .hrqRead (7 * 2 ^ 36 + 63 * 2 ^ 30 + 0x3FFFFFC0) 0x3FFFFFC0 0), 0x3FFFFFC0, ⟨by decide,
     rfl, by decide, by decide⟩, rfl, by decide +kernel⟩,
   ⟨running 32767 [iw 0x78 1 8 9 0 0] [] 6 7, 32767, _, iw 0x78 1 8 9 0 0, .srq 32767, 6, Or.inl ⟨rfl, ⟨by decide, rfl, by
     decide, by decide⟩, by decide +kernel⟩, by decide +kernel⟩,
   ⟨ws [] (plat 0x0A 32767 [] [⟨32767, 1, 0, 3, 0, 32766, 5⟩])
     { outb := [(32767, [⟨9, .outstanding (rq .srqRead (0) 6 1) none⟩])] }, 32767, 9, (rq .srqRead (0) 6 1), ⟨32767, 1, 0, 3,
     0, 32766, 5⟩, _, by decide +kernel, by decide +kernel, by decide +kernel, by decide +kernel, by decide +kernel,
     by decide +kernel, by decide +kernel, by decide +kernel, by decide +kernel, rfl, by decide +kernel⟩⟩

/-- The hypotheses of TokensTravelAndMatch are met. -/
theorem witness_tokens_travel_and_match :
    (∃ s : State, ∃ src fc tk g slot, src < 0x10000 ∧ outOf s src = [⟨fc, .copies tk [.cell g slot]⟩] ∧ g / 4096 = src / 4096 ∧
      hasRoom s (tileOfCell g) tk.trav = true ∧ firstFor s (tileOfCell g) tk.trav (rank fc src 0) = true ∧ (∀ q ∈ inQueue s
      (tileOfCell g) tk.trav, q.since = s.now → entryRank q.src ≤ entryRank src)) ∧
    (∃ s : State, ∃ d m x, (Tbl.getD s.fab.chainRx d [])[m]? = some x ∧ twinned s (d / 2) = false ∧ x.dst < 4096 ∧ hasRoom s
      (tileOfCell (d * 4096 + x.dst)) x.tok.trav = true ∧ firstFor s (tileOfCell (d * 4096 + x.dst)) x.tok.trav (rank x.fc
      x.src m) = true ∧ (∀ q ∈ inQueue s (tileOfCell (d * 4096 + x.dst)) x.tok.trav, q.since = s.now → entryRank q.src ≤
      entryRank x.src)) ∧
    (∃ s : State, ∃ k e, s.twn.gate = [e] ∧ e.pair = k ∧ e.at0 = true ∧ e.at1 = true ∧ twinned s k = true ∧ e.cell < 4096 ∧
      hasRoom s (tileOfCell (8192 * k + e.cell)) e.tok.trav = true ∧ hasRoom s (tileOfCell (8192 * k + 4096 + e.cell))
      e.tok.trav = true ∧ (∀ g, g = 8192 * k + e.cell ∨ g = 8192 * k + 4096 + e.cell → ∀ q ∈ inQueue s (tileOfCell g)
      e.tok.trav, q.since = s.now → entryRank q.src ≤ entryRank e.src)) ∧
    (∃ s : State, ∃ tile trav h rest, inQueue s tile trav = h :: rest ∧ h.tok.trav = trav ∧ tileOfCell h.dst = tile ∧
      (activeTrav s trav).isSome = true ∧ deadCtx s trav h.tok.ctx = false ∧ sortNode s h.dst = none ∧ nodeRefuses s h.dst
      h.src h.tok = false ∧ (h.tok.kind = .control ∨ (requiredSlots s h.dst).length ≤ 1) ∧ readyRoom s h.dst = true) ∧
    (∃ s : State, ∃ tile trav h rest, inQueue s tile trav = h :: rest ∧ h.tok.trav = trav ∧ (activeTrav s trav).isSome = true ∧
      deadCtx s trav h.tok.ctx = false ∧ sortNode s h.dst = none ∧ nodeRefuses s h.dst h.src h.tok = false ∧ h.tok.kind ≠
      .control ∧ 1 < (requiredSlots s h.dst).length ∧ (∀ e ∈ storeOf s tile, e.fits h.dst h.tok = false) ∧ ((storeOf s
      tile).filter (fun e => e.trav == trav)).length < rangeEntries s tile trav) ∧
    (∃ s : State, ∃ tile trav h rest e, inQueue s tile trav = h :: rest ∧ h.tok.trav = trav ∧ tileOfCell h.dst = tile ∧
      (activeTrav s trav).isSome = true ∧ deadCtx s trav h.tok.ctx = false ∧ sortNode s h.dst = none ∧ nodeRefuses s h.dst
      h.src h.tok = false ∧ h.tok.kind ≠ .control ∧ 1 < (requiredSlots s h.dst).length ∧ storeOf s tile = [e] ∧ e.fits h.dst
      h.tok = true ∧ (∀ k ∈ e.toks, k.slot ≠ h.tok.slot) ∧ (∀ x ∈ requiredSlots s h.dst, x = h.tok.slot ∨ ∃ k ∈ e.toks, k.slot
      = x) ∧ readyRoom s h.dst = true) ∧
    (∃ s : State, ∃ tile trav h rest x, inQueue s tile trav = h :: rest ∧ h.tok.trav = trav ∧ (activeTrav s trav).isSome = true
      ∧ deadCtx s trav h.tok.ctx = false ∧ sortNode s h.dst = some x ∧ h.tok.kind ≠ .control) ∧
    (∃ s : State, ∃ tile trav h rest, inQueue s tile trav = h :: rest ∧ (activeTrav s trav).isSome = true ∧ deadCtx s trav
      h.tok.ctx = false ∧ sortNode s h.dst = none ∧ nodeRefuses s h.dst h.src h.tok = true) :=
  ⟨⟨{ State.reset with fab := { outb := [(32767, [⟨9, .copies (tk 0 5) [.cell 32766 3]⟩])] } }, 32767, 9, tk 0 5, 32766, 3,
     by decide +kernel⟩,
   ⟨{ State.reset with fab := { chainRx := [(7, [⟨128, 4095, tk 0 5, 1, 9, false⟩])] } }, 7, 0, ⟨128, 4095, tk 0 5, 1, 9,
     false⟩, by decide +kernel⟩,
   ⟨{ st [(F.TWN_PAIR_STAT_STATE, 3 * 0x40, 2)] with twn := { gate := [⟨3, 4095, 1, tk 0 5, true, true⟩] } }, 3, _, rfl, rfl,
     rfl, rfl, by decide +kernel, by decide +kernel, by decide +kernel, by decide +kernel, (fun g h q hq => absurd (show q ∈
     ([] : List QTok) from h.elim (fun e => by subst e; exact hq) (fun e => by subst e; exact hq)) List.not_mem_nil)⟩,
   ⟨ws [] (plat 0x0A 32767 [] []) { inQ := [(queueKey 511 5, [⟨32767, tk 0 5, 1, 0, false, false⟩])] }, 511, 5, _, _, rfl,
     by decide +kernel⟩,
   ⟨ws [] { plat 0x0A 32767 [] [⟨32766, 0, 0, 1, 0, 32767, 5⟩] with layouts := [⟨511, 5, 0, 1⟩] }
     { inQ := [(queueKey 511 5, [⟨32767, tk 0 5, 1, 0, false, false⟩])] }, 511, 5, _, _, rfl, by decide +kernel⟩,
   ⟨ws [] (plat 0x0A 32767 [] [⟨32766, 0, 0, 1, 0, 32767, 5⟩])
     { inQ := [(queueKey 511 5, [⟨32767, tk 0 5, 1, 0, false, false⟩])], store := [(511, [⟨32767, 5, 3, 9, [tk 1 6]⟩])] }, 511,
     5, _, _, ⟨32767, 5, 3, 9, [tk 1 6]⟩, rfl, by decide +kernel⟩,
   ⟨ws [] (plat opTopk 32767 [] []) { inQ := [(queueKey 511 5, [⟨32767, tk 0 5, 1, 0, false, false⟩])] }, 511, 5, _, _, _, rfl,
     by decide +kernel, by decide +kernel, by decide +kernel, rfl, by decide +kernel⟩,
   ⟨ws [] (plat opAsof 32767 [] []) { inQ := [(queueKey 511 5, [⟨32767, tk 0 5, 1, 0, false, false⟩])] }, 511, 5, _, _, rfl,
     by decide +kernel⟩⟩

/-- The hypotheses of TasksDispatchAndContextsEnd are met. -/
theorem witness_tasks_dispatch_and_contexts_end :
    (∃ s : State, ∃ tile u, u ∈ readyOf s tile ∧ (∀ v ∈ readyOf s tile, eligible s tile v = true ↔ v = u) ∧ u.poisoned = false
      ∧ dispatchedNow s tile < 8) ∧
    (∃ s : State, ∃ tile, dispatchedNow s tile ≤ 8) ∧
    (∃ s : State, ∃ tile trav h rest, inQueue s tile trav = h :: rest ∧ h.stalled = false ∧ getF s F.SCH_CTL_STALL_LIMIT (dieO
      (tile / 64)) ≠ 0 ∧ tile < 512 ∧ trav < 4096) ∧
    (∃ s : State, ∃ n i, Tbl.get? n s.fab.invs = some i ∧ i.num = n ∧ i.cq < 65536 ∧ i.done = false ∧ invOver s i = true) ∧
    (∃ s : State, ∃ trav src p v, activeTrav s trav = some (p, v) ∧ srcState s src = srcClosed ∧ src < 1024 ∧ (∀ g ∈ (collCells
      p trav).flatMap (placements s), (trav, ctxSource src, g) ∈ s.fab.lostFrom) ∧ busyCtx s trav (ctxSource src) = false ∧
      (trav, ctxSource src) ∉ s.fab.freed) ∧
    (∃ s : State, ∃ inv first j p v n, s.fab.sorts = [j] ∧ j.ctx = ctxInv inv ∧ j.first = first ∧ j.poisoned = false ∧ sortNode
      s first = some (p, v, n) ∧ n.op = opTopk ∧ j.ends ≠ [] ∧ allEnded (nodeSources p v.num n) j.ends = true ∧ (∀ port, port <
      4 → port ≠ 0 → cellRoutes s first port = []) ∧ (cellRoutes s first 0).filterMap (routeDest s first) ≠ [] ∧ outOf s
      (sortSrc first) = []) :=
  ⟨⟨{ st [(F.FAB_CTL_ENABLE, dieO 7, 1)] with fab := { ready := [(511, [⟨32767, [tk 0 5], 0, 0⟩])] }, now := 1 }, 511, ⟨32767,
     [tk 0 5], 0, 0⟩, by decide +kernel⟩,
   ⟨State.reset, 511, by decide +kernel⟩,
   ⟨ws [(F.SCH_CTL_STALL_LIMIT, dieO 7, 1)] (plat 0x0A 32767 [] [])
     { inQ := [(queueKey 511 5, [⟨32767, tk 0 5, 1, 0, false, false⟩])] }, 511, 5, _, _, rfl, by decide +kernel⟩,
   ⟨{ State.reset with fab := { invs := [(9, { inv 9 with squash := some (0, 0) })] } }, 9, _, rfl, by decide +kernel⟩,
   ⟨ws [(F.BMK_SRC_STAT_STATE, srcO 1023, srcClosed)] (plat 0x0A 32767 [] [⟨32767, 0, 2, 0, 0, 511, 5⟩])
     { lostFrom := [(5, 1023, 32767)] }, 5, 1023, _, _, rfl, by decide +kernel⟩,
   ⟨ws [] (plat opTopk 32767 [] [⟨32767, 0, 0, 3, 0, 32766, 5⟩])
     { sorts := [⟨5, ctxInv 9, 32767, [], [(1, 32767)], false, none⟩] }, 9, 32767, _, _, _, _, rfl, rfl, rfl, rfl, rfl,
     by decide +kernel⟩⟩

/-- The hypotheses of FramesAreSent are met. -/
theorem witness_frames_are_sent :
    (∃ s : State, ∃ p x rest, (portOf s p).vc1q = x :: rest ∧ (halted s = false ∨ byteAt x.bytes 0 = 0x25) ∧ maySend s p 1
      x.bytes.length = true) ∧
    (∃ s : State, ∃ p, halted s = true ∧ (∀ x ∈ (portOf s p).vc1q, byteAt x.bytes 0 ≠ 0x25)) ∧
    (∃ s : State, ∃ p, halted s = true ∧ (portOf s p).vc1q = [] ∧ maySend s p 1 32 = true) ∧
    (∃ s : State, ∃ p, fedMode s p = true ∧ (∀ x, (portOf s p).lastFed = some x → x < hznG s) ∧ maySend s p 0 32 = true) ∧
    (∃ s : State, ∃ src fc tk pkg group p, outOf s src = [⟨fc, .copies tk [.federation pkg group]⟩] ∧ halted s = false ∧
      fedPort s pkg = some p ∧ lostTo s (dieOfSrc src) (dieOfPort p) = none ∧ maySend s p 0 112 = true) ∧
    (∃ s : State, ∃ p x rest, (portOf s p).trigs = x :: rest ∧ halted s = false ∧ maySend s p 2 x.frame.length = true) :=
  ⟨⟨{ up15 1 [] [] with ports := [(15, { vc1q := [⟨true, frm 0x21 32 1023 0 0⟩] })] }, 15, _, _, rfl, by decide +kernel⟩,
   ⟨{ up15 1 [] [(F.RING_HALT_CAUSE_HALTED, 0, 1)] with ports := [(15, { vc1q := [⟨true, frm 0x21 32 1023 0 0⟩] })] }, 15,
     by decide +kernel⟩,
   ⟨up15 1 [] [(F.RING_HALT_CAUSE_HALTED, 0, 1)], 15, by decide +kernel⟩,
   ⟨up15 0 [] [(F.TRN_PORT_CTL_MODE, portO 15, 1)], 15, by decide +kernel, (fun _ h => nomatch h), by decide +kernel⟩,
   ⟨{ up15 0 [] [(F.TRN_PORT_CTL_MODE, portO 15, 1), (F.TRN_STAT_FAR_PKG_VALID, portO 15, 1), (F.TRN_STAT_FAR_PKG, portO 15, 15)] with fab := { outb := [(32767, [⟨9, .copies (tk 0 5) [.federation 15 65535]⟩])] } },
     32767, 9, tk 0 5, 15, 65535, 15, by decide +kernel⟩,
   ⟨{ up15 2 [] [] with ports := [(15, { trigs := [⟨frm 0x41 128 5 0 0, res 7 2 15 0 0⟩] })] }, 15, _, _, rfl,
     by decide +kernel⟩⟩

/-- The hypotheses of RowsReachTheirDestinations are met. -/
theorem witness_rows_reach_their_destinations :
    (∃ s : State, ∃ tile g r cq, tile < 512 ∧ collOf s tile = [⟨r.trav, g, [.row r]⟩] ∧ r.poisoned = false ∧ r.dest = 0 ∧
      ctxKind r.ctx ≠ 1 ∧ pairLive s (r.die / 2) = false ∧ rowRing s r = some cq ∧ rowHeld s r = false ∧ rowLost s r (ringPort
      s cq) = none) ∧
    (∃ s : State, ∃ tile g r, tile < 512 ∧ collOf s tile = [⟨r.trav, g, [.row r]⟩] ∧ r.poisoned = false ∧ r.dest = 1 ∧ pairLive
      s (r.die / 2) = false ∧ rowHeld s r = false ∧ rowLost s r (rowPort s r) = none) ∧
    (∃ s : State, ∃ tile g r, tile < 512 ∧ collOf s tile = [⟨r.trav, g, [.row r]⟩] ∧ r.poisoned = false ∧ r.dest = 2 ∧ pairLive
      s (r.die / 2) = false ∧ rowHeld s r = false ∧ link s (rowTrigPort s r) = lkUp ∧ fedMode s (rowTrigPort s r) = false ∧
      rowTrigPort s r < s.part.ports ∧ rowLost s r (dieOfPort (rowTrigPort s r)) = none) ∧
    (∃ s : State, ∃ tile g r, tile < 512 ∧ collOf s tile = [⟨r.trav, g, [.row r]⟩] ∧ r.poisoned = false ∧ r.dest = 3 ∧ pairLive
      s (r.die / 2) = false ∧ pairLive s 0 = false ∧ rowLost s r 0 = none ∧ (∀ q ∈ Tbl.getD s.dst.pinQ 0 [], q.outFc / 2 = wall
      s / 2 → q.trav ≤ r.trav)) ∧
    (∃ s : State, ∃ tile g r, tile < 512 ∧ collOf s tile = [⟨r.trav, g, [.row r]⟩] ∧ r.poisoned = true) ∧
    (∃ s : State, ∃ port r rest i, Tbl.getD s.dst.hbw port [] = r :: rest ∧ halted s = false ∧ r.twin = none ∧ rowInv s r =
      some i ∧ i.num = ctxInvNum r.ctx ∧ i.bufFull = false ∧ i.written + (rowRecord r).length ≤ i.bufLen ∧ resetting s i.fn =
      false) ∧
    (∃ s : State, ∃ r rest, Tbl.getD s.dst.pinQ 0 [] = r :: rest ∧ halted s = false ∧ isSet s F.CLK_HP_QUIESCE 0 = false ∧
      pairLive s 0 = false ∧ byteAt r.param 8 ≠ 0) ∧
    (∃ s : State, ∃ pin n, Tbl.get? pin s.dst.pulses = some n) :=
  ⟨⟨{ ws [(F.FN_OWN_RING_OWNER, 65535 * 8, 1)] { plat 0x0A 32767 [] [] with owner := 1 } {} with dst := { colls := [(511, [⟨5, 32767, [.row (res 1 0 0 0 65535)]⟩])] } },
     511, 32767, res 1 0 0 0 65535, 65535, by decide +kernel⟩,
   ⟨{ ws [] { plat 0x0A 32767 [] [] with owner := 1 } {} with dst := { colls := [(511, [⟨5, 32767, [.row (res 1 1 0 0 0)]⟩])] } },
     511, 32767, res 1 1 0 0 0, by decide +kernel⟩,
   ⟨{ ws [(F.TRN_STAT_STATE, portO 15, lkUp)] (plat 0x0A 32767 [] []) {} with dst := { colls := [(511, [⟨5, 32767, [.row (res 7 2 15 0 0)]⟩])] } },
     511, 32767, res 7 2 15 0 0, by decide +kernel⟩,
   ⟨{ ws [] (plat 0x0A 32767 [] []) {} with dst := { colls := [(511, [⟨5, 32767, [.row (res 0 3 0 0 0)]⟩])] } }, 511, 32767,
     res 0 3 0 0 0, by decide +kernel⟩,
   ⟨{ ws [] (plat 0x0A 32767 [] []) {} with dst := { colls := [(511, [⟨5, 32767, [.row ({ res 7 0 0 0 0 with poisoned := true })]⟩])] } },
     511, 32767, { res 7 0 0 0 0 with poisoned := true }, by decide +kernel⟩,
   ⟨{ State.reset with fab := { invs := [(9, inv 9)] }, dst := { hbw := [(1, [{ res 1 1 0 0 0 with ctx := ctxInv 9 }])] } }, 1,
     _, _, inv 9, rfl, by decide +kernel⟩,
   ⟨{ State.reset with dst := { pinQ := [(0, [res 0 3 0 255 0])] } }, _, _, rfl, by decide +kernel⟩,
   ⟨{ State.reset with dst := { pulses := [(7, 1)] } }, 7, _, rfl⟩⟩

/-- The hypotheses of ScanColumnsIssueTokens are met. -/
theorem witness_scan_columns_issue_tokens :
    (∃ s : State, ∃ inv, ∃ col : Nat, ∃ host : Bytes, ∃ i p v n cell c r, Tbl.get? inv s.fab.invs = some i ∧ i.num = inv ∧
      activeTrav s i.trav = some (p, v) ∧ (scanColumns p v)[col]? = some (n, cell, c) ∧ i.done = false ∧ i.squash = none ∧
      headRoom s v = true ∧ headFirst s cell v.num = true ∧ i.scanFail = false ∧ Tbl.getD i.scan col 0 < ceilDiv i.rows 8 ∧
      paceOpen s (16 + col) v.num (paceFc s v.num) = true ∧ n.op = opScan ∧ i.ranges.find? (fun r => r.1 == c.word) = some r ∧
      isHost (r.2.1 + 64 * Tbl.getD i.scan col 0) = true ∧ placements s cell = [cell] ∧ twinned s (cell / 8192) = false ∧ 8 *
      min 8 (i.rows - 8 * Tbl.getD i.scan col 0) ≤ host.length ∧ (∀ q ∈ inQueue s (tileOfCell cell) i.trav, q.since = s.now →
      entryRank q.src ≤ entryRank (0x40000 + cell / 4096))) ∧
    (∃ s : State, ∃ inv, ∃ col : Nat, ∃ i p v n cell c, Tbl.get? inv s.fab.invs = some i ∧ activeTrav s i.trav = some (p, v) ∧
      (scanColumns p v)[col]? = some (n, cell, c) ∧ i.scanFail = false ∧ Tbl.getD i.scan col 0 < ceilDiv i.rows 8 ∧ paceOpen s
      (16 + col) v.num (paceFc s v.num) = false) ∧
    (∃ s : State, ∃ inv, ∃ col : Nat, ∃ i p v n cell c, Tbl.get? inv s.fab.invs = some i ∧ i.num = inv ∧ activeTrav s i.trav =
      some (p, v) ∧ (scanColumns p v)[col]? = some (n, cell, c) ∧ i.done = false ∧ i.squash = none ∧ headRoom s v = true ∧
      headFirst s cell v.num = true ∧ i.scanFail = false ∧ (∀ x, x < (scanColumns p v).length → ceilDiv i.rows 8 ≤ Tbl.getD
      i.scan x 0) ∧ cell ∉ i.ended ∧ placements s cell = [cell] ∧ twinned s (cell / 8192) = false ∧ (∀ q ∈ inQueue s
      (tileOfCell cell) i.trav, q.since = s.now → entryRank q.src ≤ entryRank (0x40000 + cell / 4096))) :=
  ⟨⟨{ State.reset with plats := { active := [scanPlat] }, fab := { invs := [(9, { inv 9 with ranges := [(0, 0, 64)] })] } }, 9,
     0, List.replicate 64 0, _, _, _, _, _, _, (0, 0, 64), rfl, rfl, rfl, rfl, by decide +kernel⟩,
   ⟨{ State.reset with plats := { active := [scanPlat], resv := [{ (default : Resv) with trav := 5, pace := 1 }] }, fab := { invs := [(9, inv 9)], paceAt := [(16 * 4096 + 5, 0)] } },
     9, 0, _, _, _, _, _, _, rfl, rfl, rfl, by decide +kernel⟩,
   ⟨{ State.reset with plats := { active := [scanPlat] }, fab := { invs := [(9, { inv 9 with scan := [(0, 1)] })] } }, 9, 0, _,
     _, _, _, _, _, rfl, rfl, rfl, rfl, by decide +kernel⟩⟩

/-- The hypotheses of RingEntriesRun are met. -/
theorem witness_ring_entries_run :
    (∃ s : State, ∃ n b, ∃ c : Instr, (c = .nopEntry n ∨ c = .entryConsume n) ∧ EntryReady s n 0x00 b) ∧
    (∃ s : State, ∃ n b r r0, n < 65536 ∧ sqCq s n < 65536 ∧ (∃ i rest, (ringOf s n).ents = (i, b) :: rest) ∧ b ≠ [] ∧ examine
      s n = .fail stMalformed r r0 ∧ ringTurn s n = true) ∧
    (∃ s : State, ∃ n b, EntryReady s n 0x01 b) ∧
    (∃ s : State, ∃ n b r k i, EntryReady s n 0x02 b ∧ namedRing s (ringOwner s n) (fld b 18 2) = some r ∧ Tbl.get? k
      s.fab.invs = some i ∧ i.sq = r ∧ i.tag = fld b 16 2 ∧ i.squash = none ∧ i.done = false ∧ i.num = k) ∧
    (∃ s : State, ∃ n b, EntryReady s n 0x03 b) :=
  ⟨⟨ringSt [] { ents := [(0, entry 0x00 [])] }, 65535, entry 0x00 [], .nopEntry 65535, by decide +kernel, ⟨by decide +kernel,
     by decide +kernel, ⟨0, [], rfl⟩, by decide +kernel, by decide +kernel, by decide +kernel, by decide +kernel⟩⟩,
   ⟨ringSt [] { ents := [(0, entry 0x7F [])] }, 65535, entry 0x7F [], rsnBadOpcode, 0, by decide +kernel, by decide +kernel,
     ⟨0, [], rfl⟩, by decide +kernel⟩,
   ⟨{ ringSt [] { ents := [(0, entry 0x01 [5, 0, 0, 0, 1])] } with plats := { active := [{ plat 0x0A 32767 [] [] with owner := 1, travs := [{ (default : Trav) with input := 1, num := 5 }] }] } },
     65535, entry 0x01 [5, 0, 0, 0, 1], ⟨by decide +kernel, by decide +kernel, ⟨0, [], rfl⟩, by decide +kernel,
     by decide +kernel, by decide +kernel, by decide +kernel⟩⟩,
   ⟨{ ringSt [] { ents := [(0, entry 0x02 [3, 0, 0xFE, 0xFF])] } with fab := { invs := [(9, { inv 9 with sq := 65534, tag := 3 })] } },
     65535, entry 0x02 [3, 0, 0xFE, 0xFF], 65534, 9, _, ⟨by decide +kernel, by decide +kernel, ⟨0, [], rfl⟩, by decide +kernel,
     by decide +kernel, by decide +kernel, by decide +kernel⟩, by decide +kernel, rfl, by decide +kernel⟩,
   ⟨ringSt [] { ents := [(0, entry 0x03 [0, 0, 0, 0, 0, 0, 0, 0, 16])] }, 65535, entry 0x03 [0, 0, 0, 0, 0, 0, 0, 0, 16],
     ⟨by decide +kernel, by decide +kernel, ⟨0, [], rfl⟩, by decide +kernel, by decide +kernel, by decide +kernel,
     by decide +kernel⟩⟩⟩

/-- The hypotheses of RingCommandsStart are met. -/
theorem witness_ring_commands_start :
    (∃ s : State, ∃ n b k, EntryReady s n 0x10 b ∧ isPf (ringOwner s n) = true ∧ isSet s F.PLAT_CTL_ENABLE 0 = true ∧ isSet s
      F.PLAT_STAGE_CFG_VALID 0 = true ∧ (List.range 4).find? (fun k => slotPhase s k == 0) = some k ∧ fld b 24 4 % 64 = 0 ∧ 192
      ≤ fld b 24 4 ∧ fld b 24 4 ≤ 2 ^ 28 ∧ fld b 16 8 % 64 = 0 ∧ byteAt b 28 ≤ 3) ∧
    (∃ s : State, ∃ n b h, EntryReady s n 0x11 b ∧ isPf (ringOwner s n) = true ∧ fld b 16 2 = h ∧ (∀ e ∈ s.plats.slots,
      e.2.staged = true → e.2.handle ≠ h ∧ ∀ p, e.2.plat = some p → ¬ (p.replace = true ∧ p.replaces = h)) ∧ (∃ p ∈
      s.plats.active, p.handle = h)) ∧
    (∃ s : State, ∃ n b, ∃ comp : Bool, ∃ k, EntryReady s n (if comp then 0x20 else 0x21) b ∧ jobEngine s (runDie s (byteAt b
      45)) = some k) ∧
    (∃ s : State, ∃ n b k, EntryReady s n 0x30 b ∧ dmaChannel s (ringOwner s n) (runDie s (byteAt b 38)) = some k) :=
  ⟨⟨ringSt [(F.PLAT_CTL_ENABLE, 0, 1), (F.PLAT_STAGE_CFG_VALID, 0, 1)]
     { ents := [(0, entry 0x10 [0, 0, 0, 0, 0, 0, 0, 0, 192, 0, 0, 0, 3])] }, 65535, entry 0x10 [0, 0, 0, 0, 0, 0, 0, 0, 192,
     0, 0, 0, 3], 0, ⟨by decide +kernel, by decide +kernel, ⟨0, [], rfl⟩, by decide +kernel, by decide +kernel,
     by decide +kernel, by decide +kernel⟩, by decide +kernel⟩,
   ⟨{ ringSt [] { ents := [(0, entry 0x11 [1])] } with plats := { active := [plat 0x0A 32767 [] []] } }, 65535, entry 0x11 [1],
     1, ⟨by decide +kernel, by decide +kernel, ⟨0, [], rfl⟩, by decide +kernel, by decide +kernel, by decide +kernel,
     by decide +kernel⟩, by decide +kernel, by decide +kernel, (fun e h => nomatch h), ⟨_, .head _, rfl⟩⟩,
   ⟨ringSt [(F.CDC_CTL_ENABLE, engO 28, 1)]
     { ents := [(0, entry 0x20 [0, 0, 0, 0, 0, 0, 0, 0, 0, 0, 0, 0, 0, 0, 0, 0, 8, 0, 0, 0, 1, 0, 0, 0, 0, 0, 0, 0, 0, 7])] },
     65535, entry 0x20 [0, 0, 0, 0, 0, 0, 0, 0, 0, 0, 0, 0, 0, 0, 0, 0, 8, 0, 0, 0, 1, 0, 0, 0, 0, 0, 0, 0, 0, 7], true, 28,
     ⟨by decide +kernel, by decide +kernel, ⟨0, [], rfl⟩, by decide +kernel, by decide +kernel, by decide +kernel,
     by decide +kernel⟩, by decide +kernel⟩,
   ⟨ringSt [(F.DMA_CTL_ENABLE, dmaO 7 62, 1), (F.FN_OWN_DMA_OWNER, (7 * 64 + 62) * 8, 1)]
     { ents := [(0, entry 0x30 [0, 0, 0, 0, 0, 0, 0, 0, 0, 0, 0, 0, 0, 0, 0, 0, 1, 0, 0, 0, 0, 0, 7])] }, 65535, entry 0x30 [0,
     0, 0, 0, 0, 0, 0, 0, 0, 0, 0, 0, 0, 0, 0, 0, 1, 0, 0, 0, 0, 0, 7], 62, ⟨by decide +kernel, by decide +kernel, ⟨0, [],
     rfl⟩, by decide +kernel, by decide +kernel, by decide +kernel, by decide +kernel⟩, by decide +kernel⟩⟩

/-- The hypotheses of RingReadsReturn are met. -/
theorem witness_ring_reads_return :
    (∃ s : State, ∃ fn off v n, halted s = false ∧ resetting s fn = false ∧ isSet s F.CLK_HP_QUIESCE 0 = false ∧ off % 8 = 0 ∧
      v < 2 ^ 32 ∧ bellRing s fn off = some n) ∧
    (∃ s : State, ∃ fn off v n, halted s = false ∧ resetting s fn = false ∧ isSet s F.CLK_HP_QUIESCE 0 = false ∧ off % 8 = 4 ∧
      v < 2 ^ 32 ∧ bellRing s fn off = some n ∧ getF s F.RING_CQ_CTL_STATE (ringO n) = 1 ∧ subMod 32 v (cqCi s n) ≤ subMod 32
      (cqPi s n) (cqCi s n)) ∧
    (∃ s : State, ∃ n, fetches s n = true ∧ sqState s n = 1 ∧ (nextRead s n).2 ≠ 0) ∧
    (∃ s : State, ∃ n i b rest, n < 65536 ∧ (ringOf s n).ents = (i, b) :: rest ∧ fetches s n = true ∧ sqState s n = 1 ∧ b ≠ []
      ∧ byteAt b 0 % 2 = 0 ∧ (ringOf s n).rereads < 8) ∧
    (∃ s : State, ∃ n i b rest, (ringOf s n).ents = (i, b) :: rest ∧ (ringOf s n).listWait = true) ∧
    (∃ s : State, ∃ n, n < 0x10000 ∧ (ringOf s n).listWait = false ∧ fetches s n = true ∧ (nextRead s n).2 ≠ 0 ∧ (ringOf s
      n).retried = false) ∧
    (∃ s : State, ∃ d n x b rest, d < 8 ∧ n < 64 ∧ (chanSt s d n).cur = some x ∧ isHost x.src = true ∧ (chanSt s d n).infl = b
      :: rest ∧ (chanSt s d n).fault = none ∧ (chanSt s d n).squash = none) :=
  ⟨⟨ringSt [] {}, 1, 524280, 2 ^ 32 - 1, 65535, by decide +kernel⟩,
   ⟨ringSt [(F.RING_CQ_IDX_PI, ringO 65534, 4)] {}, 1, 524276, 4, 65534, by decide +kernel⟩,
   ⟨ringSt [(F.RING_SQ_IDX_PI, ringO 65535, 8)] {}, 65535, by decide +kernel⟩,
   ⟨ringSt [] { ents := [(0, [0])], rereads := 7 }, 65535, _, _, _, by decide +kernel, rfl, by decide +kernel⟩,
   ⟨ringSt [] { ents := [(0, entry 1 [])], listWait := true }, 65535, _, _, _, rfl, rfl⟩,
   ⟨ringSt [(F.RING_SQ_IDX_PI, ringO 65535, 8)] {}, 65535, by decide +kernel⟩,
   ⟨chanWith [] { cur := some (xf 0), infl := [⟨0, 1⟩] }, 7, 62, xf 0, _, _, by decide +kernel, by decide +kernel,
     by decide +kernel, by decide +kernel, rfl, by decide +kernel⟩⟩

/-- The hypotheses of CompletionsAreWritten are met. -/
theorem witness_completions_are_written :
    (∃ s : State, ∃ port c rest, Tbl.getD s.dst.cw port [] = c :: rest ∧ halted s = false ∧ c.kind = 0 ∧ c.inv = none ∧ c.twin
      = none ∧ c.cq < 65536 ∧ ringPort s c.cq = port ∧ getF s F.RING_CQ_CTL_STATE (ringO c.cq) = 1 ∧ resetting s (ringOwner s
      c.cq) = false ∧ cqFull s c.cq = false ∧ (ringOf s c.cq).ovf = []) ∧
    (∃ s : State, ∃ port c rest, Tbl.getD s.dst.cw port [] = c :: rest ∧ halted s = false ∧ c.kind = 0 ∧ c.inv = none ∧ c.twin
      = none ∧ c.cq < 65536 ∧ getF s F.RING_CQ_CTL_STATE (ringO c.cq) = 1 ∧ resetting s (ringOwner s c.cq) = false ∧ cqFull s
      c.cq = true ∧ (ringOf s c.cq).ovf.length < 256) ∧
    (∃ s : State, ∃ cq c rest x, cq < 65536 ∧ (ringOf s cq).ovf = c :: rest ∧ halted s = false ∧ cqFull s cq = false ∧
      rest.length < 256 ∧ c.cq = cq ∧ x = ovfPlace s cq (ringOf s cq).ovfHead ∧ pathUp s (ovfWho cq) (readDie s x.1) = true) ∧
    (∃ s : State, ∃ cq k, isSet s F.RING_CQ_CFG_IRQ_EN (ringO cq) = true ∧ getF s F.RING_CQ_CFG_COAL_FC (ringO cq) ≠ 0 ∧ 0 <
      (ringOf s cq).pending ∧ resetting s (ringOwner s cq) = false ∧ k = ringOwner s cq * 2048 + getF s F.RING_CQ_CFG_VECTOR
      (ringO cq) ∧ k ∈ s.rings.unmasked) ∧
    (∃ s : State, ∃ fn vec k, resetting s fn = false ∧ vec < 2048 ∧ k = fn * 2048 + vec) ∧
    (∃ s : State, ∃ n b rest, (ringOf s n).posted = b :: rest ∧ b.timeout ≠ 0 ∧ b.first ≠ none) :=
  ⟨⟨{ ringSt [] {} with dst := { cw := [(1, [cpl])] } }, 1, cpl, [], by decide +kernel⟩,
   ⟨{ ringSt [(F.RING_CQ_IDX_PI, ringO 65534, 65536)] {} with dst := { cw := [(1, [cpl])] } }, 1, cpl, [], by decide +kernel⟩,
   ⟨{ ringSt (edgesUp 1 0 ++ edgesUp 0 1) {} with rings := { rings := [(65534, { ovf := [cpl] })] } }, 65534, cpl, [], _,
     by decide +kernel, by decide +kernel, by decide +kernel, by decide +kernel, by decide +kernel, by decide +kernel, rfl,
     by decide +kernel⟩,
   ⟨{ ringSt [(F.RING_CQ_CFG_IRQ_EN, ringO 65534, 1), (F.RING_CQ_CFG_COAL_FC, ringO 65534, 1), (F.RING_CQ_CFG_VECTOR, ringO 65534, 2047)] {} with rings := { rings := [(65534, { pending := 1 })], unmasked := [4095] } },
     65534, 4095, by decide +kernel⟩,
   ⟨{ State.reset with rings := { pendingBits := [0x5FF * 2048 + 2047] } }, 0x5FF, 2047, 0x5FF * 2048 + 2047,
     by decide +kernel⟩,
   ⟨ringSt [] { posted := [⟨0, 16, 1, 16, 1, some 0, 7, 65534⟩] }, 65535, _, _, rfl, by decide +kernel⟩⟩

/-- The hypotheses of RingsEnableAndStop are met. -/
theorem witness_rings_enable_and_stop :
    (∃ s : State, ∃ n, n < 65536 ∧ sqState s n = 0 ∧ sqFault s n = 0) ∧
    (∃ s : State, ∃ n, n < 65536 ∧ sqState s n = 0 ∧ sqFault s n ≠ 0 ∧ halted s = false) ∧
    (∃ s : State, ∃ n, n < 65536 ∧ getF s F.RING_CQ_CTL_STATE (ringO n) = 0 ∧ getF s F.RING_OVF_CFG_VALID 0 = 1 ∧ cqFault s n =
      0) ∧
    (∃ s : State, ∃ n, n < 65536 ∧ sqState s n = 1) ∧
    (∃ s : State, ∃ n, s.pending = [] ∧ n < 65536 ∧ sqState s n = 2 ∧ (∃ e ∈ s.rings.rings, e.1 = n) ∧ (ringOf s n).stopAt ≠
      some (s.now / 2) ∧ sqPi s n = sqCi s n ∧ (ringOf s n).owed = 0) ∧
    (∃ s : State, ∃ n, n < 65536 ∧ getF s F.RING_CQ_CTL_STATE (ringO n) = 1 ∧ cqBound s n = false ∧ (ringOf s n).ovf = []) ∧
    (∃ s : State, ∃ n, n < 65536 ∧ halted s = false) :=
  ⟨⟨setF (ringSt [(F.RING_SQ_BASE_BASE, ringO 65535, 4096)] {}) F.RING_SQ_CTL_STATE (ringO 65535) 0, 65535, by decide +kernel⟩,
   ⟨State.reset, 65535, by decide +kernel⟩,
   ⟨setF (ringSt [(F.RING_CQ_BASE_BASE, ringO 65534, 4096)] {}) F.RING_CQ_CTL_STATE (ringO 65534) 0, 65534, by decide +kernel⟩,
   ⟨ringSt [] {}, 65535, by decide +kernel⟩,
   ⟨setF (ringSt [] { stopAt := some 1 }) F.RING_SQ_CTL_STATE (ringO 65535) 2, 65535, by decide +kernel⟩,
   ⟨setF (ringSt [] {}) F.RING_SQ_CTL_STATE (ringO 65535) 0, 65534, by decide +kernel⟩,
   ⟨State.reset, 65535, by decide +kernel⟩⟩

/-- The hypotheses of PlatsAreLoaded are met. -/
theorem witness_plats_are_loaded :
    (∃ s : State, ∃ k x, ∃ image : Bytes, ∃ w, k < 4 ∧ slotOf s k = some x ∧ slotPhase s k = 1 ∧ halted s = false ∧ w =
      hbmWrite (sysTraffic s (dieOfPort (pfOf (ringOwner s x.ring))) x.dmaClass x.ring x.tag x.addr (hbmAddr (getF s
      F.PLAT_STAGE_CFG_STACK 0) (getF s F.PLAT_STAGE_CFG_UNIT 0 * 2 ^ 30 + k * 2 ^ 28)) x.len) (getF s F.PLAT_STAGE_CFG_STACK
      0) (getF s F.PLAT_STAGE_CFG_UNIT 0 * 2 ^ 30 + k * 2 ^ 28) (sub image 0 x.len) 10 0xFFFF ∧ w.2 = 0) ∧
    (∃ s : State, ∃ k x, ∃ image : Bytes, ∃ w, k < 4 ∧ slotOf s k = some x ∧ slotPhase s k = 1 ∧ halted s = false ∧ w =
      hbmWrite (sysTraffic s (dieOfPort (pfOf (ringOwner s x.ring))) x.dmaClass x.ring x.tag x.addr (hbmAddr (getF s
      F.PLAT_STAGE_CFG_STACK 0) (getF s F.PLAT_STAGE_CFG_UNIT 0 * 2 ^ 30 + k * 2 ^ 28)) x.len) (getF s F.PLAT_STAGE_CFG_STACK
      0) (getF s F.PLAT_STAGE_CFG_UNIT 0 * 2 ^ 30 + k * 2 ^ 28) (sub image 0 x.len) 10 0xFFFF ∧ w.2 ≠ 0) ∧
    (∃ s : State, ∃ k x, k < 4 ∧ slotOf s k = some x ∧ slotPhase s k = 1 ∧ halted s = false) ∧
    (∃ s : State, ∃ k x, k < 4 ∧ slotOf s k = some x ∧ slotPhase s k = 2 ∧ halted s = false ∧ checkImage s k x.image x.len
      x.handle = none) ∧
    (∃ s : State, ∃ k x v, k < 4 ∧ slotOf s k = some x ∧ slotPhase s k = 2 ∧ halted s = false ∧ checkImage s k x.image x.len
      x.handle = some v ∧ v.1 < 256 ∧ v.2.1 < 65536 ∧ v.2.2 < 2 ^ 32) ∧
    (∃ s : State, ∃ k x p rs, k < 4 ∧ slotOf s k = some x ∧ x.plat = some p ∧ slotPhase s k = 3 ∧ halted s = false ∧ admitted s
      p.handle = false ∧ (∀ e ∈ s.plats.slots, e.1 ≠ k → e.2.staged = true → x.order < e.2.order ∨ 3 < slotPhase s e.1 ∨
      admitted s e.2.handle = true) ∧ admitTravs s p (countedTravs s) p.travs = (rs, none)) ∧
    (∃ s : State, ∃ k x p rs y r b, k < 4 ∧ slotOf s k = some x ∧ x.plat = some p ∧ slotPhase s k = 3 ∧ halted s = false ∧
      admitted s p.handle = false ∧ (∀ e ∈ s.plats.slots, e.1 ≠ k → e.2.staged = true → x.order < e.2.order ∨ 3 < slotPhase s
      e.1 ∨ admitted s e.2.handle = true) ∧ admitTravs s p (countedTravs s) p.travs = (rs, some (y, r, b)) ∧ r < 65536) ∧
    (∃ s : State, ∃ k x p, k < 4 ∧ slotOf s k = some x ∧ x.plat = some p ∧ slotPhase s k = 4 ∧ halted s = false ∧ zeroReady s
      (zeroParts s p 1 false) (zeroParts s p 2 false) = true) ∧
    (∃ s : State, ∃ k x, slotOf s k = some x ∧ x.twoCommit = 1 ∧ zeroReady s (x.dueOf 1) (x.dueOf 2) = true) :=
  ⟨⟨slotSt 1 (slot [] none 0) {}, 3, slot [] none 0, img, _, by decide +kernel, by decide +kernel, by decide +kernel,
     by decide +kernel, rfl, by decide +kernel⟩,
   ⟨setF (setF (slotSt 1 (slot [] none 0) {}) F.HBM_PC_STAT_STATE (pcO 0 (pcOf State.reset 0 (3 * 2 ^ 28))) 1)
     F.HBM_PC_STAT_STATE (pcO 0 (pcOf State.reset 0 (3 * 2 ^ 28 + 128))) 1, 3, slot [] none 0, img, _, by decide +kernel,
     by decide +kernel, by decide +kernel, by decide +kernel, rfl, by decide +kernel⟩,
   ⟨slotSt 1 (slot [] none 0) {}, 3, slot [] none 0, by decide +kernel⟩,
   ⟨slotSt 2 (slot img none 0) {}, 3, slot img none 0, by decide +kernel⟩,
   ⟨slotSt 2 (slot [] none 0) {}, 3, slot [] none 0, (stMalformed, 0x0506, 0), by decide +kernel⟩,
   ⟨slotSt 3 (slot img (some (certPlat (256))) 0) {}, 3, slot img (some (certPlat (256))) 0, certPlat 256, _,
     by decide +kernel, by decide +kernel, by decide +kernel, by decide +kernel, by decide +kernel, by decide +kernel,
     by decide +kernel, pair_of_snd (by decide +kernel)⟩,
   ⟨slotSt 3 (slot img (some (certPlat (255))) 0) {}, 3, slot img (some (certPlat (255))) 0, certPlat 255, _, 5, 0x0808, 256,
     by decide +kernel, by decide +kernel, by decide +kernel, by decide +kernel, by decide +kernel, by decide +kernel,
     by decide +kernel, pair_of_snd (by decide +kernel), by decide⟩,
   ⟨slotSt 4 (slot img (some (certPlat (1))) 0) {}, 3, slot img (some (certPlat (1))) 0, certPlat 1, by decide +kernel⟩,
   ⟨slotSt 4 (slot img (some (certPlat (1))) 1) {}, 3, slot img (some (certPlat (1))) 1, by decide +kernel⟩⟩

/-- The hypotheses of MemoriesAreReachedIndirectly are met. -/
theorem witness_memories_are_reached_indirectly :
    (∃ s : State, ∃ tile v, tile < 512 ∧ v < 2 ^ 64 ∧ silentZero s (F.FAB_IND_DATA_DATA.base + tileO tile) = false ∧ getF s
      F.FAB_IND_ADDR_SPACE (tileO tile) = 0 ∧ (tileEnabled s tile = false ∨ cellCode s (tile * 64 + fabIndOff s tile / 0x8000)
      = [])) ∧
    (∃ s : State, ∃ tile v w, tile < 512 ∧ v < 2 ^ 64 ∧ silentZero s (F.FAB_IND_DATA_DATA.base + tileO tile) = false ∧ getF s
      F.FAB_IND_ADDR_SPACE (tileO tile) = 0 ∧ tileEnabled s tile = true ∧ cellCode s (tile * 64 + fabIndOff s tile / 0x8000) ≠
      [] ∧ s.logOff = false ∧ w = rdWord s 0 (tileOn tile (readDie s (tile / 64)) * 0x200000 + fabIndOff s tile)) ∧
    (∃ s : State, ∃ tile, tile < 512 ∧ silentZero s (F.FAB_IND_DATA_DATA.base + tileO tile) = false ∧ getF s
      F.FAB_IND_ADDR_SPACE (tileO tile) ≠ 0 ∧ s.logOff = false) ∧
    (∃ s : State, ∃ tile, tile < 512 ∧ silentZero s (F.FAB_IND_DATA_DATA.base + tileO tile) = false ∧ getF s
      F.FAB_IND_ADDR_SPACE (tileO tile) = 0) ∧
    (∃ s : State, ∃ tile i w, tile < 512 ∧ silentZero s (F.FAB_IND_DATA_DATA.base + tileO tile) = false ∧ getF s
      F.FAB_IND_ADDR_SPACE (tileO tile) = 1 ∧ fabIndOff s tile < 0x4000 ∧ i = fabIndOff s tile % 256 / 8 ∧ (cellCode s (tileOn
      tile (readDie s (tile / 64)) * 64 + fabIndOff s tile / 256 % 64))[i]? = some w) ∧
    (∃ s : State, ∃ tile, silentZero s (F.FAB_IND_DATA_DATA.base + tileO tile) = true) ∧
    (∃ s : State, ∃ d v a, d < 8 ∧ v < 2 ^ 64 ∧ silentZero s (F.HBM_IND_DATA_DATA.base + dieO d) = false ∧ getF s
      F.HBM_IND_ADDR_ADDR (dieO d) / 8 * 8 = a ∧ a < stackC s d ∧ heldBack s d a = false ∧ regionHolds s 2 d (a / 2 ^ 30) =
      false ∧ mirrorDies s d = [d] ∧ spcState s d = 0 ∧ lineAt s d (a / 128) = none ∧ pcState s d (pcOf s d a) = 0 ∧ (hpc s d
      (pcOf s d a)).wq = []) ∧
    (∃ s : State, ∃ d a w l, d < 8 ∧ silentZero s (F.HBM_IND_DATA_DATA.base + dieO d) = false ∧ Tbl.get? d s.hbm.ind = none ∧
      getF s F.HBM_IND_ADDR_ADDR (dieO d) / 8 * 8 = a ∧ a < stackC s d ∧ brimTable s d a = false ∧ spcState s (readDie s d) ≠ 0
      ∧ fillOf s (readDie s d) (a / 128) (indWho d) = none ∧ lineAt s (readDie s d) (a / 128) = some (w, l) ∧ l.valid &&&
      sectorsOf (a % 128) (a % 128 + 8) = sectorsOf (a % 128) (a % 128 + 8)) ∧
    (∃ s : State, ∃ d a, d < 8 ∧ silentZero s (F.HBM_IND_DATA_DATA.base + dieO d) = false ∧ Tbl.get? d s.hbm.ind = none ∧ getF
      s F.HBM_IND_ADDR_ADDR (dieO d) / 8 * 8 = a ∧ a < stackC s d ∧ brimTable s d a = false ∧ spcState s (readDie s d) = 0 ∧
      fillOf s (readDie s d) (a / 128) (indWho d) = none ∧ lineAt s (readDie s d) (a / 128) = none ∧ lineState s (readDie s d)
      (a / 128) = 0 ∧ (hpc s (readDie s d) (pcOf s (readDie s d) (a / 128 * 128))).rq.length < 48) ∧
    (∃ s : State, ∃ d, d < 8 ∧ silentZero s (F.HBM_IND_DATA_DATA.base + dieO d) = false ∧ Tbl.get? d s.hbm.ind = none ∧ stackC
      s d ≤ getF s F.HBM_IND_ADDR_ADDR (dieO d) / 8 * 8) ∧
    (∃ s : State, ∃ d, silentZero s (F.HBM_IND_DATA_DATA.base + dieO d) = true) :=
  ⟨⟨State.reset, 511, 2 ^ 64 - 1, by decide +kernel⟩,
   ⟨{ st [(F.FAB_TILE_BANK_ACTIVE_HANDLE, tileO 511, 1), (F.FAB_IND_ADDR_OFFSET, tileO 511, 63 * 0x8000)] with plats := { active := [plat 0x0A 32767 [5] []] } },
     511, 2 ^ 64 - 1, _, by decide +kernel, by decide +kernel, by decide +kernel, by decide +kernel, by decide +kernel,
     by decide +kernel, by decide +kernel, rfl⟩,
   ⟨st [(F.FAB_IND_ADDR_SPACE, tileO 511, 1)], 511, by decide +kernel⟩,
   ⟨State.reset, 511, by decide +kernel⟩,
   ⟨{ st [(F.FAB_IND_ADDR_SPACE, tileO 511, 1), (F.FAB_IND_ADDR_OFFSET, tileO 511, 63 * 256)] with plats := { active := [plat 0x0A 32767 [5] []] } },
     511, 0, 5, by decide +kernel⟩,
   ⟨st [(F.CLK_DIE_RST_STATE, 56, 2)], 511, by decide +kernel⟩,
   ⟨st [(F.HBM_IND_ADDR_ADDR, dieO 7, 33 * 2 ^ 30 - 1)], 7, 2 ^ 64 - 1, 33 * 2 ^ 30 - 8, by decide +kernel⟩,
   ⟨spcSt [(F.SPC_STAT_STATE, dieO 7, 1), (F.HBM_IND_ADDR_ADDR, dieO 7, 15)]
     { lines := [(0, ⟨0, 15, 0, List.replicate 128 5, false⟩)] }, 7, 8, 0, ⟨0, 15, 0, List.replicate 128 5, false⟩,
     by decide +kernel⟩,
   ⟨st [(F.HBM_IND_ADDR_ADDR, dieO 7, 36000000000 - 1)], 7, 36000000000 - 8, by decide +kernel⟩,
   ⟨st [(F.HBM_IND_ADDR_ADDR, dieO 7, 36000000000)], 7, by decide +kernel⟩,
   ⟨st [(F.CLK_DIE_RST_STATE, 56, 2)], 7, by decide +kernel⟩⟩

/-- The hypotheses of DmaTransfersRun are met. -/
theorem witness_dma_transfers_run :
    (∃ s : State, ∃ d n x rest, d < 8 ∧ n < 64 ∧ chanOn s d n = true ∧ (chanSt s d n).cur = none ∧ (chanSt s d n).queue = x ::
      rest ∧ halted s = false) ∧
    (∃ s : State, ∃ d n x off len, (chanSt s d n).cur = some x ∧ (chanSt s d n).fault = none ∧ (chanSt s d n).squash = none ∧
      getF s F.DMA_COUNT_COUNT (dmaO d n) ≠ 0 ∧ halted s = false ∧ off = x.len - getF s F.DMA_COUNT_COUNT (dmaO d n) ∧ burstLen
      s x off (getF s F.DMA_COUNT_COUNT (dmaO d n)) = len ∧ (chanSt s d n).beats + ceilDiv len 64 ≤ 32) ∧
    (∃ s : State, ∃ d n x b rest, (chanSt s d n).cur = some x ∧ (chanSt s d n).infl = b :: rest ∧ (chanSt s d n).fault = none ∧
      (chanSt s d n).squash = none ∧ isHost x.src = true) ∧
    (∃ s : State, ∃ d n x b rest, (chanSt s d n).cur = some x ∧ (chanSt s d n).infl = b :: rest ∧ (chanSt s d n).fault = none ∧
      (chanSt s d n).squash = none ∧ isHost x.src = false ∧ addrReady s (x.src + b.off) b.len (chanWho d n) = false) ∧
    (∃ s : State, ∃ d n x b rest u got e, (chanSt s d n).cur = some x ∧ (chanSt s d n).infl = b :: rest ∧ (chanSt s d n).fault
      = none ∧ (chanSt s d n).squash = none ∧ isHost x.src = false ∧ addrReady s (x.src + b.off) b.len (chanWho d n) = true ∧
      readBeats 8 s x.fn (x.src + b.off) b.len (chanWho d n) [] = (u, got, e)) ∧
    (∃ s : State, ∃ d n x off b rest, d < 8 ∧ halted s = false ∧ pickChan s d = some n ∧ (chanSt s d n).cur = some x ∧ (chanSt
      s d n).buf = (off, b) :: rest ∧ isHost x.dst = true ∧ isHost (x.dst + off) = true) ∧
    (∃ s : State, ∃ d n x off b rest, d < 8 ∧ halted s = false ∧ pickChan s d = some n ∧ (chanSt s d n).cur = some x ∧ (chanSt
      s d n).buf = (off, b) :: rest ∧ isHost x.dst = false ∧ beatRoom s d n = false) ∧
    (∃ s : State, ∃ d n x off b rest, d < 8 ∧ halted s = false ∧ pickChan s d = some n ∧ (chanSt s d n).cur = some x ∧ (chanSt
      s d n).buf = (off, b) :: rest ∧ isHost x.dst = false ∧ beatRoom s d n = true) ∧
    (∃ s : State, ∃ d, pickChan s d = none) ∧
    (∃ s : State, ∃ d n x, d < 8 ∧ n < 64 ∧ (chanSt s d n).cur = some x ∧ (chanSt s d n).buf = [] ∧ (chanSt s d n).infl = [] ∧
      (chanSt s d n).fault = none ∧ (chanSt s d n).squash = none ∧ halted s = false ∧ getF s F.DMA_COUNT_COUNT (dmaO d n) = 0 ∧
      x.cq < 65536) ∧
    (∃ s : State, ∃ d n x q, d < 8 ∧ n < 64 ∧ (chanSt s d n).cur = some x ∧ (chanSt s d n).buf = [] ∧ (chanSt s d n).fault =
      none ∧ (chanSt s d n).squash = some q ∧ halted s = false ∧ x.cq < 65536) ∧
    (∃ s : State, ∃ d n x f, d < 8 ∧ n < 64 ∧ (chanSt s d n).cur = some x ∧ (chanSt s d n).buf = [] ∧ (chanSt s d n).fault =
      some f ∧ halted s = false ∧ f.1 < 256 ∧ f.2.1 < 65536 ∧ f.2.2 < 2 ^ 64 ∧ x.cq < 65536) :=
  ⟨⟨chanWith [(F.DMA_CTL_ENABLE, dmaO 7 62, 1)] { queue := [xf 0] }, 7, 62, xf 0, [], by decide +kernel⟩,
   ⟨chanWith [(F.DMA_COUNT_COUNT, dmaO 7 62, 1)] { cur := some (xf (2 ^ 60 - 1)) }, 7, 62, xf (2 ^ 60 - 1), 0, 1,
     by decide +kernel⟩,
   ⟨chanWith [] { cur := some (xf 0), infl := [⟨0, 1⟩] }, 7, 62, xf 0, ⟨0, 1⟩, [], by decide +kernel⟩,
   ⟨chanWith [] { cur := some (xf stack7), infl := [⟨0, 1⟩] }, 7, 62, xf stack7, ⟨0, 1⟩, [], by decide +kernel⟩,
   ⟨{ chanWith [(F.SPC_STAT_STATE, dieO 7, 1)] { cur := some (xf stack7), infl := [⟨0, 1⟩] } with hbm := { spcs := [(7, { lines := [(0, ⟨0, 15, 0, List.replicate 128 5, false⟩)] })] } },
     7, 62, xf stack7, ⟨0, 1⟩, [], _, _, _, by decide +kernel, by decide +kernel, by decide +kernel, by decide +kernel,
     by decide +kernel, by decide +kernel, triple _⟩,
   ⟨chanWith [] { cur := some (xf 0), buf := [(0, [5])] }, 7, 62, xf 0, 0, [5], [], by decide +kernel⟩,
   ⟨{ chanWith [] { cur := some { xf 0 with dst := stack7 }, buf := [(0, [5])] } with hbm := { pcs := [(7 * 32 + pcOf State.reset 7 0, { wq := List.replicate 64 ⟨9, [], 0⟩ })] } },
     7, 62, { xf 0 with dst := stack7 }, 0, [5], [], by decide +kernel⟩,
   ⟨chanWith [] { cur := some { xf 0 with dst := stack7 }, buf := [(0, [5])] }, 7, 62, { xf 0 with dst := stack7 }, 0, [5], [],
     by decide +kernel⟩,
   ⟨State.reset, 7, by decide +kernel⟩,
   ⟨chanWith [] { cur := some (xf 0) }, 7, 62, xf 0, by decide +kernel⟩,
   ⟨chanWith [] { cur := some (xf 0), squash := some (3, 65535) }, 7, 62, xf 0, (3, 65535), by decide +kernel⟩,
   ⟨chanWith [] { cur := some (xf 0), fault := some (255, 65535, 2 ^ 64 - 1) }, 7, 62, xf 0, (255, 65535, 2 ^ 64 - 1),
     by decide +kernel⟩⟩

/-- The hypotheses of ChannelsAndCachesAreEnabled are met. -/
theorem witness_channels_and_caches_are_enabled :
    (∃ s : State, ∃ d n, d < 8 ∧ n < 63 ∧ chanOn s d n = false) ∧
    (∃ s : State, ∃ d n, n < 63 ∧ chanOn s d n = true) ∧
    (∃ s : State, ∃ d n, n < 63 ∧ chanOn s d n = false) ∧
    (∃ s : State, ∃ d n, d < 8 ∧ n < 63 ∧ chanOn s d n = true ∧ (chanSt s d n).cur = none ∧ (chanSt s d n).queue = []) ∧
    (∃ s : State, ∃ d n x, d < 8 ∧ n < 63 ∧ chanOn s d n = true ∧ (chanSt s d n).cur = none ∧ (chanSt s d n).queue = [x] ∧ x.cq
      < 65536) ∧
    (∃ s : State, ∃ d n x, d < 8 ∧ n < 63 ∧ chanOn s d n = true ∧ (chanSt s d n).cur = some x ∧ (chanSt s d n).queue = [] ∧
      x.cq < 65536) ∧
    (∃ s : State, ∃ fn d n, ∃ c : Instr, (c = .channelEnable fn d n ∨ c = .channelDisable fn d n) ∧ d < 8 ∧ n = 63 ∧ s.logOff =
      false) ∧
    (∃ s : State, ∃ d, d < 8 ∧ spcState s d = 1 ∧ ¬ (d = 0 ∧ s.plats.resv ≠ []) ∧ (spcOf s d).cmds = []) ∧
    (∃ s : State, ∃ d, d < 8 ∧ spcState s d = 1 ∧ ¬ (d = 0 ∧ s.plats.resv ≠ []) ∧ (spcOf s d).cmds ≠ []) ∧
    (∃ s : State, spcState s 0 = 1 ∧ s.plats.resv ≠ [] ∧ s.logOff = false) ∧
    (∃ s : State, ∃ d, spcState s d ≠ 1) ∧
    (∃ s : State, ∃ d, d < 8 ∧ spcState s d = 2 ∧ (∀ e ∈ (spcOf s d).lines, heldLine s d (keyLine e.1 e.2.tag) e.2 = false)) ∧
    (∃ s : State, ∃ d, (∃ e ∈ (spcOf s d).lines, heldLine s d (keyLine e.1 e.2.tag) e.2 = true)) ∧
    (∃ s : State, ∃ d, d < 8 ∧ spcState s d = 0) ∧
    (∃ s : State, ∃ d, d < 8 ∧ spcState s d = 2 ∧ s.logOff = false) :=
  ⟨⟨State.reset, 7, 62, by decide +kernel⟩,
   ⟨chanWith [(F.DMA_CTL_ENABLE, dmaO 7 62, 1)] {}, 7, 62, by decide +kernel⟩,
   ⟨State.reset, 7, 62, by decide +kernel⟩,
   ⟨chanWith [(F.DMA_CTL_ENABLE, dmaO 7 62, 1)] {}, 7, 62, by decide +kernel⟩,
   ⟨chanWith [(F.DMA_CTL_ENABLE, dmaO 7 62, 1)] { queue := [xf 0] }, 7, 62, xf 0, by decide +kernel⟩,
   ⟨chanWith [(F.DMA_CTL_ENABLE, dmaO 7 62, 1)] { cur := some (xf 0) }, 7, 62, xf 0, by decide +kernel⟩,
   ⟨State.reset, 1, 7, 63, .channelDisable 1 7 63, by decide +kernel⟩,
   ⟨spcSt [(F.SPC_STAT_STATE, dieO 7, 1)] {}, 7, by decide +kernel⟩,
   ⟨spcSt [(F.SPC_STAT_STATE, dieO 7, 1)] { cmds := [⟨4, 0, 0, 0, 128, 0, 0⟩] }, 7, by decide +kernel⟩,
   ⟨{ st [(F.SPC_STAT_STATE, dieO 0, 1)] with plats := { resv := [(default : Resv)] } }, by decide +kernel⟩,
   ⟨State.reset, 7, by decide +kernel⟩,
   ⟨spcSt [(F.SPC_STAT_STATE, dieO 7, 2)] { lines := [(0, ⟨0, 15, 15, [], false⟩)] }, 7, by decide +kernel⟩,
   ⟨setF (spcSt [(F.SPC_STAT_STATE, dieO 7, 2)] { lines := [(0, ⟨0, 15, 15, [], false⟩)] }) F.HBM_PC_STAT_STATE (pcO 7 (pcOf
     State.reset 7 0)) 1, 7, by decide +kernel⟩,
   ⟨spcSt [(F.SPC_STAT_STATE, dieO 7, 0)] {}, 7, by decide +kernel⟩,
   ⟨st [(F.SPC_STAT_STATE, dieO 7, 2)], 7, by decide +kernel⟩⟩

/-- The hypotheses of CodecJobsColumnsAndCaptureRun are met. -/
theorem witness_codec_jobs_columns_and_capture_run :
    (∃ s : State, ∃ d e j rest n, ∃ host : Bytes, d < 8 ∧ e < 4 ∧ engWork s (engKey d e) = 3 ∧ jobsOf s (engKey d e) = j ::
      rest ∧ j.comp = true ∧ isHost (j.src + j.inDone) = true ∧ isHost (j.dst + (j.outDone - j.outBase)) = true ∧ min 4096
      (j.srcLen - j.inDone) = n ∧ 0 < n ∧ j.outDone - j.outBase + (encodeBlock (leWords (sub host 0 n))).length ≤ j.dstLen) ∧
    (∃ s : State, ∃ d e j rest n, ∃ host : Bytes, d < 8 ∧ e < 4 ∧ engWork s (engKey d e) = 3 ∧ jobsOf s (engKey d e) = j ::
      rest ∧ j.comp = true ∧ isHost (j.src + j.inDone) = true ∧ min 4096 (j.srcLen - j.inDone) = n ∧ 0 < n ∧ j.cq < 65536 ∧
      j.dstLen < j.outDone - j.outBase + (encodeBlock (leWords (sub host 0 n))).length) ∧
    (∃ s : State, ∃ d e j rest xs, ∃ host : Bytes, d < 8 ∧ e < 4 ∧ engWork s (engKey d e) = 3 ∧ jobsOf s (engKey d e) = j ::
      rest ∧ j.comp = false ∧ isHost (j.src + j.inDone + 16) = true ∧ isHost (j.dst + (j.outDone - j.outBase)) = true ∧ 0 <
      xs.length ∧ xs.length ≤ 512 ∧ (encodeBlock xs).length ≤ j.srcLen - j.inDone ∧ sub host 0 (encodeBlock xs).length =
      encodeBlock xs ∧ j.outDone + 8 * xs.length ≤ j.limit ∧ 8 * xs.length ≤ j.dstLen - (j.outDone - j.outBase)) ∧
    (∃ s : State, ∃ d e j rest, d < 8 ∧ e < 4 ∧ engWork s (engKey d e) = 3 ∧ jobsOf s (engKey d e) = j :: rest ∧ j.inDone <
      j.srcLen ∧ isHost (j.src + j.inDone) = true) ∧
    (∃ s : State, ∃ d e j rest, engWork s (engKey d e) = 3 ∧ e < 4 ∧ jobsOf s (engKey d e) = j :: rest ∧ j.srcLen ≤ j.inDone) ∧
    (∃ s : State, ∃ d e c, ∃ host : Bytes, ∃ xs, d < 8 ∧ e < 4 ∧ engWork s (engKey d e) = 1 ∧ nextCol s (engKey d e) = some c ∧
      c.inDone < c.len ∧ isHost (c.addr + c.inDone + 16) = true ∧ 0 < xs.length ∧ xs.length ≤ 512 ∧ (encodeBlock xs).length ≤
      c.len - c.inDone ∧ c.outDone + 8 * xs.length ≤ c.limit ∧ sub host 0 (encodeBlock xs).length = encodeBlock xs) ∧
    (∃ s : State, ∃ d e c, d < 8 ∧ e < 4 ∧ engWork s (engKey d e) = 1 ∧ nextCol s (engKey d e) = some c ∧ c.len ≤ c.inDone) ∧
    (∃ s : State, ∃ d e b rest, engWork s (engKey d e) = 2 ∧ e < 4 ∧ capsOf s (engKey d e) = b :: rest ∧ (∀ p ∈ s.plats.active,
      p.handle ≠ b.handle)) ∧
    (∃ s : State, ∃ d e b rest p r, engWork s (engKey d e) = 2 ∧ e < 4 ∧ capsOf s (engKey d e) = b :: rest ∧
      s.plats.active.find? (fun p => p.handle == b.handle) = some p ∧ capturePart s p d = some r ∧ (∀ a, hbmRoom s r.die a
      (encodeBlock b.xs).length 8 (fnWays s p.owner) = true)) :=
  ⟨⟨cdcSt { jobs := [(31, [job 0])] }, 7, 3, job 0, [], 8, List.replicate 8 0, by decide +kernel⟩,
   ⟨cdcSt { jobs := [(31, [{ job 0 with dstLen := 0 }])] }, 7, 3, { job 0 with dstLen := 0 }, [], 8, List.replicate 8 0,
     by decide +kernel⟩,
   ⟨cdcSt { jobs := [(31, [{ job 0 with comp := false, srcLen := 64, limit := 8 }])] }, 7, 3,
     { job 0 with comp := false, srcLen := 64, limit := 8 }, [], [5], encodeBlock [5], by decide +kernel⟩,
   ⟨cdcSt { jobs := [(31, [job 7])] }, 7, 3, job 7, [], by decide +kernel⟩,
   ⟨cdcSt { jobs := [(31, [job 8])] }, 7, 3, job 8, [], by decide +kernel⟩,
   ⟨{ cdcSt { cols := [dcol 4096 0] } with fab := { invs := [(9, inv 9)] } }, 7, 3, dcol 4096 0, encodeBlock [5], [5],
     by decide +kernel⟩,
   ⟨{ cdcSt { cols := [dcol 64 64] } with fab := { invs := [(9, inv 9)] } }, 7, 3, dcol 64 64, by decide +kernel⟩,
   ⟨cdcSt { caps := [(31, [⟨1, 1, [5]⟩])] }, 7, 3, ⟨1, 1, [5]⟩, [], by decide +kernel⟩,
   ⟨{ cdcSt { caps := [(31, [⟨1, 1, [5]⟩])] } with plats := { active := [{ plat 0x0A 32767 [0] [] with parts := [⟨2, 7, 63, 1, false, false, 1, 0⟩] }] } },
     7, 3, ⟨1, 1, [5]⟩, [], _, _, by decide +kernel, by decide +kernel, rfl, rfl, rfl, fun a => roomy rfl ..⟩⟩

/-- The hypotheses of StackSramServes are met. -/
theorem witness_stack_sram_serves :
    (∃ s : State, ∃ d ch r rest, d < 8 ∧ ch < 16 ∧ (srmCh s (d * 16 + ch)).queue = r :: rest ∧ isSet s F.SRM_CTL_ENABLE (dieO
      d) = true ∧ chState s (d * 16 + ch) = 0 ∧ r.kind = .srqWrite) ∧
    (∃ s : State, ∃ d ch ue r rest, d < 8 ∧ ch < 16 ∧ (srmCh s (d * 16 + ch)).queue = r :: rest ∧ isSet s F.SRM_CTL_ENABLE
      (dieO d) = true ∧ chState s (d * 16 + ch) = 0 ∧ r.kind = .srqRead ∧ EntryGood s r.addr ue) ∧
    (∃ s : State, ∃ d ch ue r rest, d < 8 ∧ ch < 16 ∧ (srmCh s (d * 16 + ch)).queue = r :: rest ∧ isSet s F.SRM_CTL_ENABLE
      (dieO d) = true ∧ chState s (d * 16 + ch) = 0 ∧ r.kind = .srqInsert ∧ EntryGood s r.addr ue ∧ (∀ i, i < 32 → rdByte s 1
      (r.addr / 32 * 32 + i) = 0)) ∧
    (∃ s : State, ∃ d ch ue r rest, d < 8 ∧ ch < 16 ∧ (srmCh s (d * 16 + ch)).queue = r :: rest ∧ isSet s F.SRM_CTL_ENABLE
      (dieO d) = true ∧ chState s (d * 16 + ch) = 0 ∧ r.kind = .srqInsert ∧ EntryGood s r.addr ue ∧ (∃ i, i < 32 ∧ rdByte s 1
      (r.addr / 32 * 32 + i) ≠ 0)) ∧
    (∃ s : State, ∃ d ch ue r rest i, d < 8 ∧ ch < 16 ∧ (srmCh s (d * 16 + ch)).queue = r :: rest ∧ isSet s F.SRM_CTL_ENABLE
      (dieO d) = true ∧ chState s (d * 16 + ch) = 0 ∧ r.kind = .srqInsert ∧ EntryGood s r.addr ue ∧ buildsTable s r = true ∧ (∀
      i, i < 4 → laneVal (r.data.get i) = 0) ∧ r.dead = false ∧ ctxKind r.ctx = 1 ∧ Tbl.get? (ctxInvNum r.ctx) s.fab.invs =
      some i ∧ i.mark = none ∧ i.squash = none) ∧
    (∃ s : State, ∃ d ch r rest, d < 8 ∧ ch < 16 ∧ (srmCh s (d * 16 + ch)).queue = r :: rest ∧ isSet s F.SRM_CTL_ENABLE (dieO
      d) = true ∧ chState s (d * 16 + ch) = 0 ∧ (r.kind = .srqRead ∨ r.kind = .srqInsert) ∧ (∃ w ∈ entryWords r.addr, hasUe s w
      = true) ∧ r.addr / 2 ^ 26 = d * 16 + ch) :=
  ⟨⟨sramSt [] { queue := [(rq .srqWrite (2 ^ 33 - 32) 0 0)] }, 7, 15, (rq .srqWrite (2 ^ 33 - 32) 0 0), [], by decide +kernel,
     by decide +kernel, by decide +kernel, by decide +kernel, by decide +kernel, by decide +kernel⟩,
   ⟨sramSt [] { queue := [(rq .srqRead (2 ^ 33 - 32) 0 0)] }, 7, 15, 16, (rq .srqRead (2 ^ 33 - 32) 0 0), [],
     by decide +kernel, by decide +kernel, by decide +kernel, by decide +kernel, by decide +kernel, by decide +kernel, ⟨by
     decide, by decide +kernel⟩⟩,
   ⟨sramSt [] { queue := [(rq .srqInsert (2 ^ 33 - 32) 0 0)] }, 7, 15, 16, (rq .srqInsert (2 ^ 33 - 32) 0 0), [],
     by decide +kernel, by decide +kernel, by decide +kernel, by decide +kernel, by decide +kernel, by decide +kernel, ⟨by
     decide, by decide +kernel⟩, by decide +kernel⟩,
   ⟨{ sramSt [] { queue := [(rq .srqInsert (2 ^ 33 - 32) 0 0)] } with srm := { chs := [(127, { queue := [(rq .srqInsert (2 ^ 33 - 32) 0 0)] })], mem := [(2 ^ 33 - 32 + 31, 1)] } },
     7, 15, 16, (rq .srqInsert (2 ^ 33 - 32) 0 0), [], by decide +kernel, by decide +kernel, by decide +kernel,
     by decide +kernel, by decide +kernel, by decide +kernel, ⟨by decide, by decide +kernel⟩, ⟨31, by decide +kernel⟩⟩,
   ⟨{ sramSt [] { queue := [{ rq .srqInsert (2 ^ 33 - 32) 0 0 with ctx := ctxInv 9, data := {} }] } with fab := { invs := [(9, inv 9)] }, plats := { active := [plat 7 32767 [] []] } },
     7, 15, 16, { rq .srqInsert (2 ^ 33 - 32) 0 0 with ctx := ctxInv 9, data := {} }, [], inv 9, by decide +kernel,
     by decide +kernel, by decide +kernel, by decide +kernel, by decide +kernel, by decide +kernel, ⟨by decide,
     by decide +kernel⟩, by decide +kernel⟩,
   ⟨{ sramSt [] { queue := [(rq .srqRead (2 ^ 33 - 32) 0 0)] } with srm := { chs := [(127, { queue := [(rq .srqRead (2 ^ 33 - 32) 0 0)] })], ue := [2 ^ 30 - 1] } },
     7, 15, (rq .srqRead (2 ^ 33 - 32) 0 0), [], by decide +kernel, by decide +kernel, by decide +kernel, by decide +kernel,
     by decide +kernel, by decide +kernel, ⟨2 ^ 30 - 1, by decide +kernel⟩, by decide +kernel⟩⟩

/-- The hypotheses of StackSramMaintains are met. -/
theorem witness_stack_sram_maintains :
    (∃ s : State, ∃ d ch e rest, chState s (d * 16 + ch) = 0 ∧ (srmCh s (d * 16 + ch)).wb = e :: rest) ∧
    (∃ s : State, ∃ d sl, d < 8 ∧ sl < 16 ∧ chState s (d * 16 + sl) = 0 ∧ (Tbl.get? (d * 16 + sl) s.srm.zeroing = some 0 ∨
      Tbl.get? (d * 16 + sl) s.srm.zeroing = some 1)) ∧
    (∃ s : State, ∃ d ch, d < 8 ∧ ch < 16 ∧ isSet s F.SRM_CTL_SCRUB_EN (dieO d) = true ∧ chState s (d * 16 + ch) = 0) ∧
    (∃ s : State, ∃ d v, d < 8 ∧ v < 2 ^ 64 ∧ silentZero s (F.SRM_IND_DATA_DATA.base + dieO d) = false ∧ regionHolds s 1 d
      (getF s F.SRM_IND_ADDR_SLICE (dieO d)) = false ∧ (∀ e ∈ mirrorDies s d, chState s (chanOf (srmIndAddr s d e)) = 0)) ∧
    (∃ s : State, ∃ d v, d < 8 ∧ v < 2 ^ 64 ∧ silentZero s (F.SRM_IND_DATA_DATA.base + dieO d) = false ∧ regionHolds s 1 d
      (getF s F.SRM_IND_ADDR_SLICE (dieO d)) = true ∧ s.logOff = false) ∧
    (∃ s : State, ∃ d, silentZero s (F.SRM_IND_DATA_DATA.base + dieO d) = true) ∧
    (∃ s : State, ∃ d, d < 8 ∧ silentZero s (F.SRM_IND_DATA_DATA.base + dieO d) = false ∧ chState s (chanOf (srmIndAddr s d
      (readDie s d))) = 0 ∧ hasUe s (srmIndAddr s d (readDie s d) / 8) = false) :=
  ⟨⟨sramSt [] { wb := [5] }, 7, 15, 5, [], by decide +kernel⟩,
   ⟨{ State.reset with srm := { zeroing := [(127, 1)] } }, 7, 15, by decide +kernel⟩,
   ⟨st [(F.SRM_CTL_SCRUB_EN, dieO 7, 1)], 7, 15, by decide +kernel⟩,
   ⟨st [(F.SRM_IND_ADDR_SLICE, dieO 7, 15)], 7, 2 ^ 64 - 1, by decide +kernel⟩,
   ⟨{ st [(F.SRM_IND_ADDR_SLICE, dieO 7, 15)] with plats := { active := [{ plat 0x0A 32767 [] [] with parts := [⟨1, 7, 15, 1, false, false, 1, 0⟩] }] } },
     7, 2 ^ 64 - 1, by decide +kernel⟩,
   ⟨st [(F.CLK_DIE_RST_STATE, 56, 2)], 7, by decide +kernel⟩,
   ⟨st [(F.SRM_IND_ADDR_SLICE, dieO 7, 15)], 7, by decide +kernel⟩⟩

/-- The hypotheses of StackSramChannelsFreezeAndReset are met. -/
theorem witness_stack_sram_channels_freeze_and_reset :
    (∃ s : State, ∃ d ch r rest, d < 8 ∧ ch < 16 ∧ (srmCh s (d * 16 + ch)).queue = r :: rest ∧ chState s (d * 16 + ch) = 0) ∧
    (∃ s : State, ∃ d ch, d < 8 ∧ ch < 16 ∧ chState s (d * 16 + ch) ≠ 2) ∧
    (∃ s : State, ∃ d ch, d < 8 ∧ ch < 16 ∧ chState s (d * 16 + ch) = 2 ∧ isSet s F.SRM_CH_CTL_FENCE (chO (d * 16 + ch)) =
      false) ∧
    (∃ s : State, ∃ d ch, d < 8 ∧ ch < 16 ∧ chState s (d * 16 + ch) = 2) ∧
    (∃ s : State, ∃ d ch, d < 8 ∧ ch < 16 ∧ chState s (d * 16 + ch) ≠ 2 ∧ chState s (d * 16 + ch) ≠ 3) ∧
    (∃ s : State, ∃ d ch, d < 8 ∧ ch < 16 ∧ chState s (d * 16 + ch) ≠ 2 ∧ isSet s F.SRM_CH_CTL_FENCE (chO (d * 16 + ch)) =
      true) :=
  ⟨⟨sramSt [] { queue := [(rq .srqRead (2 ^ 33 - 32) 0 0)] }, 7, 15, (rq .srqRead (2 ^ 33 - 32) 0 0), [], by decide +kernel⟩,
   ⟨st [(F.SRM_CH_STAT_STATE, chO 127, 1)], 7, 15, by decide +kernel⟩,
   ⟨st [(F.SRM_CH_STAT_STATE, chO 127, 2)], 7, 15, by decide +kernel⟩,
   ⟨st [(F.SRM_CH_STAT_STATE, chO 127, 2)], 7, 15, by decide +kernel⟩,
   ⟨st [(F.SRM_CH_STAT_STATE, chO 127, 1)], 7, 15, by decide +kernel⟩,
   ⟨st [(F.SRM_CH_STAT_STATE, chO 127, 1), (F.SRM_CH_CTL_FENCE, chO 127, 1)], 7, 15, by decide +kernel⟩⟩

/-- The hypotheses of HbmIssuesReadsAndWrites are met. -/
theorem witness_hbm_issues_reads_and_writes :
    (∃ s : State, ∃ d c i e, d < 8 ∧ c < 32 ∧ pickRead (hpc s d c) = some i ∧ (hpc s d c).rq[i]? = some e ∧ pcState s d c = 0 ∧
      isSet s F.HBM_STACK_CTL_ENABLE (dieO d) = true) ∧
    (∃ s : State, ∃ d c n e rest, d < 8 ∧ c < 32 ∧ drainNow (hpc s d c) = some n ∧ (hpc s d c).wq = e :: rest ∧ pcState s d c =
      0 ∧ isSet s F.HBM_STACK_CTL_ENABLE (dieO d) = true ∧ (n < 16 ∨ (∀ r ∈ (hpc s d c).rq, r.urgent = false)) ∧ Tbl.sorted
      e.bytes = true) ∧
    (∃ s : State, ∃ d c e rest, d < 8 ∧ c < 32 ∧ (hpc s d c).infl = e :: rest) ∧
    (∃ s : State, ∃ d c e rest, d < 8 ∧ c < 32 ∧ (hpc s d c).infl = e :: rest ∧ e.again = false) ∧
    (∃ s : State, ∃ d c e rest, d < 8 ∧ c < 32 ∧ (hpc s d c).infl = e :: rest ∧ e.again = true) ∧
    (∃ s : State, ∃ d c, d < 8 ∧ c < 32 ∧ pcState s d c = 0) ∧
    (∃ s : State, ∃ d c e rest, d < 8 ∧ c < 32 ∧ (hpc s d c).wq = e :: rest ∧ pcState s d c = 0 ∧ e.retries < 4) ∧
    (∃ s : State, ∃ d c e rest, d < 8 ∧ c < 32 ∧ (hpc s d c).wq = e :: rest ∧ pcState s d c = 0 ∧ 4 ≤ e.retries) :=
  ⟨⟨hbmSt [] { rq := [⟨5, 0, true, false⟩] }, 7, 31, 0, ⟨5, 0, true, false⟩, by decide +kernel⟩,
   ⟨hbmSt [] { wq := [⟨0, [(127, 5)], 0⟩] }, 7, 31, 0, ⟨0, [(127, 5)], 0⟩, [], by decide +kernel⟩,
   ⟨hbmSt [] { infl := [⟨5, 0, true, false⟩] }, 7, 31, ⟨5, 0, true, false⟩, [], by decide +kernel⟩,
   ⟨hbmSt [] { infl := [⟨5, 0, true, false⟩] }, 7, 31, ⟨5, 0, true, false⟩, [], by decide +kernel⟩,
   ⟨hbmSt [] { infl := [⟨5, 0, true, true⟩] }, 7, 31, ⟨5, 0, true, true⟩, [], by decide +kernel⟩,
   ⟨hbmSt [] {}, 7, 31, by decide +kernel⟩,
   ⟨hbmSt [] { wq := [⟨0, [(127, 5)], 3⟩] }, 7, 31, ⟨0, [(127, 5)], 3⟩, [], by decide +kernel⟩,
   ⟨hbmSt [] { wq := [⟨0, [(127, 5)], 4⟩] }, 7, 31, ⟨0, [(127, 5)], 4⟩, [], by decide +kernel⟩⟩

/-- The hypotheses of HbmChannelsResetAndFence are met. -/
theorem witness_hbm_channels_reset_and_fence :
    (∃ s : State, ∃ d c, d < 8 ∧ c < 32 ∧ pcState s d c ≠ 2) ∧
    (∃ s : State, ∃ d c, d < 8 ∧ c < 32 ∧ pcState s d c = 2 ∧ isSet s F.HBM_PC_CTL_FENCE (pcO d c) = false) ∧
    (∃ s : State, ∃ d c, d < 8 ∧ c < 32 ∧ pcState s d c = 2) ∧
    (∃ s : State, ∃ d c, d < 8 ∧ c < 32 ∧ pcState s d c ≠ 2 ∧ pcState s d c ≠ 3) ∧
    (∃ s : State, ∃ d c, d < 8 ∧ c < 32 ∧ pcState s d c ≠ 2 ∧ isSet s F.HBM_PC_CTL_FENCE (pcO d c) = true) ∧
    (∃ s : State, ∃ d, d < 8 ∧ Tbl.get? d s.hbm.retrain = none ∧ Tbl.get? d s.hbm.trained = none) ∧
    (∃ s : State, ∃ d k, d < 8 ∧ Tbl.get? d s.hbm.retrain = some k ∧ k < 512 ∧ pcState s d (k / 16) = 0 ∧ isSet s
      F.HBM_RETRAIN_EN (dieO d) = true) ∧
    (∃ s : State, ∃ d k, d < 8 ∧ Tbl.get? d s.hbm.retrain = some k ∧ k < 512 ∧ pcState s d (k / 16) = 0 ∧ isSet s
      F.HBM_RETRAIN_EN (dieO d) = true ∧ Tbl.get? d s.hbm.trained = none) ∧
    (∃ s : State, ∃ d k, d < 8 ∧ Tbl.get? d s.hbm.retrain = some k ∧ isSet s F.HBM_RETRAIN_EN (dieO d) = false) ∧
    (∃ s : State, ∃ d c found mg, d < 8 ∧ c < 32 ∧ Tbl.get? d s.hbm.trained = some (c, found, mg) ∧ pcState s d c = 0) ∧
    (∃ s : State, ∃ d c, d < 8 ∧ isSet s F.HBM_RETRAIN_EN (dieO d) = true ∧ Tbl.get? d s.hbm.retrain = none ∧ c < 32 ∧ pcState
      s d c = 0 ∧ (∀ x, x < c → pcState s d x ≠ 0)) ∧
    (∃ d, d < 8) :=
  ⟨⟨hbmSt [(F.HBM_PC_STAT_STATE, pcO 7 31, 1)] {}, 7, 31, by decide +kernel⟩,
   ⟨hbmSt [(F.HBM_PC_STAT_STATE, pcO 7 31, 2)] {}, 7, 31, by decide +kernel⟩,
   ⟨hbmSt [(F.HBM_PC_STAT_STATE, pcO 7 31, 2)] {}, 7, 31, by decide +kernel⟩,
   ⟨hbmSt [(F.HBM_PC_STAT_STATE, pcO 7 31, 1)] {}, 7, 31, by decide +kernel⟩,
   ⟨hbmSt [(F.HBM_PC_STAT_STATE, pcO 7 31, 1), (F.HBM_PC_CTL_FENCE, pcO 7 31, 1)] {}, 7, 31, by decide +kernel⟩,
   ⟨State.reset, 7, by decide +kernel⟩,
   ⟨{ st [(F.HBM_RETRAIN_EN, dieO 7, 1)] with hbm := { retrain := [(7, 511)] } }, 7, 511, by decide +kernel⟩,
   ⟨{ st [(F.HBM_RETRAIN_EN, dieO 7, 1)] with hbm := { retrain := [(7, 511)] } }, 7, 511, by decide +kernel⟩,
   ⟨{ st [(F.HBM_RETRAIN_EN, dieO 7, 0)] with hbm := { retrain := [(7, 511)] } }, 7, 511, by decide +kernel⟩,
   ⟨{ State.reset with hbm := { trained := [(7, (31, 200, 100))] } }, 7, 31, 200, 100, by decide +kernel⟩,
   ⟨st [(F.HBM_RETRAIN_EN, dieO 7, 1)], 7, 0, by decide +kernel⟩,
   ⟨7, by decide⟩⟩

/-- The hypotheses of CacheLookupsAndFills are met. -/
theorem witness_cache_lookups_and_fills :
    (∃ s : State, ∃ d r rest w l, d < 8 ∧ (spcOf s d).reqs = r :: rest ∧ r.kind = .hrqRead ∧ lineAt s d (r.addr % 2 ^ 36 / 128)
      = some (w, l) ∧ spcState s d ≠ 0 ∧ l.valid &&& sectorsOf (r.addr % 2 ^ 36 % 128) (r.addr % 2 ^ 36 % 128 + 64) = sectorsOf
      (r.addr % 2 ^ 36 % 128) (r.addr % 2 ^ 36 % 128 + 64)) ∧
    (∃ s : State, ∃ d r rest, d < 8 ∧ (spcOf s d).reqs = r :: rest ∧ r.kind = .hrqRead ∧ lineAt s d (r.addr % 2 ^ 36 / 128) =
      none ∧ lineState s d (r.addr % 2 ^ 36 / 128) = 0 ∧ (hpc s d (pcOf s d (r.addr % 2 ^ 36))).rq.length < 48 ∧ victimRoom s d
      (r.addr % 2 ^ 36 / 128) (allowedWays s d (r.addr % 2 ^ 36 / 128) (cellClass r.cell) (fnWays s (travOwner s r.trav))) =
      true) ∧
    (∃ s : State, ∃ d r rest, d < 8 ∧ (spcOf s d).reqs = r :: rest ∧ r.kind = .hrqWrite ∧ spcState s d = 0 ∧ lineState s d
      (r.addr % 2 ^ 36 / 128) = 0 ∧ lineAt s d (r.addr % 2 ^ 36 / 128) = none ∧ canPush s d (r.addr % 2 ^ 36 / 128) = true) ∧
    (∃ s : State, ∃ d r rest, (spcOf s d).reqs = r :: rest ∧ r.kind = .hrqWrite ∧ canPush s d (r.addr % 2 ^ 36 / 128) = false) ∧
    (∃ s : State, ∃ d r rest, (spcOf s d).reqs = r :: rest ∧ r.kind = .hrqRead ∧ lineAt s d (r.addr % 2 ^ 36 / 128) = none ∧
      lineState s d (r.addr % 2 ^ 36 / 128) = 0 ∧ 48 ≤ (hpc s d (pcOf s d (r.addr % 2 ^ 36))).rq.length) ∧
    (∃ s : State, ∃ d id f i rest e x, d < 8 ∧ e < 8 ∧ s.hbm.fills = [f] ∧ f.id = id ∧ f.die = d ∧ f.back = true ∧ f.order = i
      :: rest ∧ f.req = none ∧ f.who = some (indWho e) ∧ Tbl.get? e s.hbm.ind = some (x, 8) ∧ getF s F.HBM_IND_ADDR_ADDR (dieO
      e) % 128 / 32 = i) ∧
    (∃ s : State, ∃ d id f i rest w, s.hbm.fills = [f] ∧ f.id = id ∧ f.die = d ∧ f.back = true ∧ f.order = i :: rest ∧ f.req =
      none ∧ f.who = some w ∧ indDie w = none) ∧
    (∃ s : State, ∃ d id f i rest, s.hbm.fills = [f] ∧ f.id = id ∧ f.die = d ∧ f.back = true ∧ f.order = i :: rest ∧ f.who =
      none ∧ f.req = none) ∧
    (∃ s : State, ∃ d id f i rest r, s.hbm.fills = [f] ∧ f.id = id ∧ f.die = d ∧ f.back = true ∧ f.order = i :: rest ∧ f.who =
      none ∧ f.req = some r ∧ (∀ x ∈ hrqSectors r, x ∉ rest)) :=
  ⟨⟨spcSt [(F.SPC_STAT_STATE, dieO 7, 1)]
     { reqs := [(rq .hrqRead (7 * 2 ^ 36 + 64) 0 0)], lines := [(0, ⟨0, 12, 0, [], false⟩)] }, 7, (rq .hrqRead (7 * 2 ^ 36 +
     64) 0 0), [], 0, ⟨0, 12, 0, [], false⟩, by decide +kernel⟩,
   ⟨spcSt [(F.SPC_STAT_STATE, dieO 7, 1)] { reqs := [(rq .hrqRead (7 * 2 ^ 36 + 64) 0 0)] }, 7, (rq .hrqRead (7 * 2 ^ 36 + 64)
     0 0), [], by decide +kernel⟩,
   ⟨spcSt [(F.SPC_STAT_STATE, dieO 7, 0)] { reqs := [(rq .hrqWrite (7 * 2 ^ 36 + 64) 0 0)] }, 7, (rq .hrqWrite (7 * 2 ^ 36 +
     64) 0 0), [], by decide +kernel⟩,
   ⟨{ State.reset with hbm := { spcs := [(7, { reqs := [(rq .hrqWrite (7 * 2 ^ 36 + 64) 0 0)] })], pcs := [(7 * 32 + pcOf State.reset 7 64, { wq := List.replicate 64 ⟨9, [], 0⟩ })] } },
     7, (rq .hrqWrite (7 * 2 ^ 36 + 64) 0 0), [], by decide +kernel⟩,
   ⟨{ State.reset with hbm := { spcs := [(7, { reqs := [(rq .hrqRead (7 * 2 ^ 36 + 64) 0 0)] })], pcs := [(7 * 32 + pcOf State.reset 7 64, { rq := List.replicate 48 ⟨5, 0, true, false⟩ })] } },
     7, (rq .hrqRead (7 * 2 ^ 36 + 64) 0 0), [], by decide +kernel⟩,
   ⟨{ State.reset with hbm := { fills := [⟨5, 7, 0, [0], List.replicate 128 5, true, some 0, none, some (indWho 6), 0⟩], ind := [(6, (0, 8))] } },
     7, 5, ⟨5, 7, 0, [0], List.replicate 128 5, true, some 0, none, some (indWho 6), 0⟩, 0, [], 6, 0, by decide +kernel⟩,
   ⟨{ State.reset with hbm := { fills := [⟨5, 7, 0, [3], List.replicate 128 5, true, some 0, none, some 0x600000, 0⟩] } }, 7,
     5, ⟨5, 7, 0, [3], List.replicate 128 5, true, some 0, none, some 0x600000, 0⟩, 3, [], 0x600000, by decide +kernel⟩,
   ⟨{ State.reset with hbm := { fills := [⟨5, 7, 0, [3], List.replicate 128 5, true, some 0, none, none, 0⟩] } }, 7, 5, ⟨5, 7,
     0, [3], List.replicate 128 5, true, some 0, none, none, 0⟩, 3, [], by decide +kernel⟩,
   ⟨{ State.reset with hbm := { fills := [⟨5, 7, 0, [3], List.replicate 128 5, true, some 0, some (rq .hrqRead (7 * 2 ^ 36 + 64) 0 0), none, 0⟩] } },
     7, 5, ⟨5, 7, 0, [3], List.replicate 128 5, true, some 0, some (rq .hrqRead (7 * 2 ^ 36 + 64) 0 0), none, 0⟩, 3, [], (rq
     .hrqRead (7 * 2 ^ 36 + 64) 0 0), by decide +kernel⟩⟩

/-- The hypotheses of CacheCommandsRun are met. -/
theorem witness_cache_commands_run :
    (∃ s : State, ∃ fn d ways, CmdReady s fn d ∧ ways < 65536 ∧ gntWay s d ways = false ∧ wayCount (getF s F.SPC_STAT_LOCKED
      (dieO d) ||| ways) ≤ 8 ∧ getF s F.SPC_STAT_LOCKED (dieO d) < 65536) ∧
    (∃ s : State, ∃ fn d ways, CmdReady s fn d ∧ ways < 65536 ∧ gntWay s d ways = false ∧ 8 < wayCount (getF s
      F.SPC_STAT_LOCKED (dieO d) ||| ways)) ∧
    (∃ s : State, ∃ fn d ways, CmdReady s fn d ∧ ways < 65536 ∧ gntWay s d ways = false) ∧
    (∃ s : State, ∃ fn d way, CmdReady s fn d ∧ way < 16 ∧ gntWay s d (2 ^ way) = false ∧ bits (getF s F.SPC_STAT_LOCKED (dieO
      d)) way 1 = 1 ∧ badRange s d ⟨3, way, 0, getF s F.SPC_CMD_ADDR_ADDR (dieO d), getF s F.SPC_CMD_LEN_LEN (dieO d), 0, 0⟩ =
      false) ∧
    (∃ s : State, ∃ fn d way, ∃ clean : Bool, CmdReady s fn d ∧ way < 16 ∧ badRange s d ⟨if clean then 5 else 4, way, 0, getF s
      F.SPC_CMD_ADDR_ADDR (dieO d), getF s F.SPC_CMD_LEN_LEN (dieO d), 0, 0⟩ = false) ∧
    (∃ s : State, ∃ c : Instr, ∃ fn d way, (c = .preload fn d way ∨ c = .invalidate fn d way ∨ c = .cleanInvalidate fn d way ∨
      c = .lock fn d way ∨ c = .unlock fn d way) ∧ isPf fn = true ∧ d < 8 ∧ spcState s d ≠ 1 ∧ (spcOf s d).cmds = []) ∧
    (∃ s : State, ∃ d c, d < 8 ∧ (spcOf s d).cmds = [c] ∧ c.op = 4) ∧
    (∃ s : State, ∃ d c, d < 8 ∧ (spcOf s d).cmds = [c] ∧ c.op = 5 ∧ (∀ e ∈ rangeLines s d c, heldLine s d (keyLine e.1
      e.2.tag) e.2 = false)) ∧
    (∃ s : State, ∃ d c, d < 8 ∧ (spcOf s d).cmds = [c] ∧ c.op = 5 ∧ (∃ e ∈ rangeLines s d c, heldLine s d (keyLine e.1
      e.2.tag) e.2 = true)) ∧
    (∃ s : State, ∃ d c x, d < 8 ∧ (spcOf s d).cmds = [c] ∧ c.op = 3 ∧ rangeRun s d c = x ∧ x.2.2 = true) ∧
    (∃ s : State, ∃ d c x, d < 8 ∧ (spcOf s d).cmds = [c] ∧ c.op = 3 ∧ rangeRun s d c = x ∧ x.2.2 = false) ∧
    (∃ s : State, ∃ d way addr ln, d < 8 ∧ way < 16 ∧ (spcOf s d).cmds = [⟨3, way, 0, addr, 128, 0, 0⟩] ∧ addr = ln * 128 ∧
      s.hbm.fills = [] ∧ lineAt s d ln = none ∧ Tbl.get? (lineKey ln way) (spcOf s d).lines = none ∧ lineState s d ln = 0 ∧
      heldBack s d addr = false ∧ (hpc s d (pcOf s d addr)).rq.length < 48) :=
  ⟨⟨spcSt [(F.SPC_STAT_STATE, dieO 7, 1)] {}, 1, 7, 255, ⟨by decide, by decide, by decide +kernel, by decide +kernel⟩,
     by decide +kernel⟩,
   ⟨spcSt [(F.SPC_STAT_STATE, dieO 7, 1)] {}, 1, 7, 511, ⟨by decide, by decide, by decide +kernel, by decide +kernel⟩,
     by decide +kernel⟩,
   ⟨spcSt [(F.SPC_STAT_STATE, dieO 7, 1)] {}, 1, 7, 65535, ⟨by decide, by decide, by decide +kernel, by decide +kernel⟩,
     by decide +kernel⟩,
   ⟨spcSt [(F.SPC_STAT_STATE, dieO 7, 1), (F.SPC_STAT_LOCKED, dieO 7, 32768), (F.SPC_CMD_LEN_LEN, dieO 7, 128)] {}, 1, 7, 15,
     ⟨by decide, by decide, by decide +kernel, by decide +kernel⟩, by decide +kernel⟩,
   ⟨spcSt [(F.SPC_STAT_STATE, dieO 7, 1)] {}, 1, 7, 15, true, ⟨by decide, by decide, by decide +kernel, by decide +kernel⟩,
     by decide +kernel⟩,
   ⟨spcSt [(F.SPC_STAT_STATE, dieO 7, 0)] {}, .unlock 1 7 15, 1, 7, 15, by decide +kernel⟩,
   ⟨spcSt [] { cmds := [⟨4, 0, 0, 0, 128, 0, 0⟩] }, 7, ⟨4, 0, 0, 0, 128, 0, 0⟩, by decide +kernel⟩,
   ⟨spcSt [] { cmds := [⟨5, 0, 0, 0, 128, 0, 0⟩] }, 7, ⟨5, 0, 0, 0, 128, 0, 0⟩, by decide +kernel⟩,
   ⟨setF (spcSt [] { cmds := [⟨5, 0, 0, 0, 128, 0, 0⟩], lines := [(0, ⟨0, 15, 15, [], false⟩)] }) F.HBM_PC_STAT_STATE (pcO 7
     (pcOf State.reset 7 0)) 1, 7, ⟨5, 0, 0, 0, 128, 0, 0⟩, by decide +kernel⟩,
   ⟨spcSt [] { cmds := [⟨3, 0, 0, 0, 0, 0, 0⟩] }, 7, ⟨3, 0, 0, 0, 0, 0, 0⟩, _, by decide +kernel, by decide +kernel,
     by decide +kernel, rfl, by decide +kernel⟩,
   ⟨spcSt [] { cmds := [⟨3, 0, 0, 0, 128, 0, 0⟩] }, 7, ⟨3, 0, 0, 0, 128, 0, 0⟩, _, by decide +kernel, by decide +kernel,
     by decide +kernel, rfl, by decide +kernel⟩,
   ⟨spcSt [] { cmds := [⟨3, 15, 0, 128, 128, 0, 0⟩] }, 7, 15, 128, 1, by decide +kernel⟩⟩

/-- The hypotheses of FailedDiesAreIsolated are met. -/
theorem witness_failed_dies_are_isolated :
    (∃ s : State, ∃ d, d < 8 ∧ twinned s (d / 2) = true) ∧
    (∃ s : State, ∃ d x, d < 8 ∧ s.twn.sent.find? (fun x => x.die == d) = some x ∧ s.twn.received.find? (fun y => y.die / 2 ==
      d / 2 && y.die != d && y.epoch == x.epoch) = none) ∧
    (∃ s : State, ∃ d x y, d < 8 ∧ s.twn.sent.find? (fun x => x.die == d) = some x ∧ s.twn.received.find? (fun y => y.die / 2
      == d / 2 && y.die != d && y.epoch == x.epoch) = some y ∧ x.digest = y.digest) ∧
    (∃ s : State, ∃ d x y, d < 8 ∧ s.twn.sent.find? (fun x => x.die == d) = some x ∧ s.twn.received.find? (fun y => y.die / 2
      == d / 2 && y.die != d && y.epoch == x.epoch) = some y ∧ x.digest ≠ y.digest ∧ s.twn.deferred = [] ∧ twinned s (d / 2) =
      true) ∧
    (∃ s : State, ∃ p, p < 2 ∧ isSet s F.CLK_PORT_LINK_UP (p * 8) = true ∧ isSet s F.CLK_HP_SAFE 0 = false) ∧
    (∃ s : State, ∃ p, p < 2 ∧ isSet s F.CLK_PORT_LINK_UP (p * 8) = true ∧ isSet s F.CLK_HP_SAFE 0 = true) ∧
    (∃ s : State, ∃ p, isSet s F.CLK_PORT_LINK_UP (p * 8) = false) ∧
    (∃ s : State, ∃ d, d < 8 ∧ dieUp s d = false) ∧
    (∃ s : State, ∃ d, 2 ≤ d ∧ d < 8 ∧ dieUp s d = true ∧ pairLive s (d / 2) = false) :=
  ⟨⟨st [(F.TWN_PAIR_STAT_STATE, 3 * 0x40, 2)], 7, by decide +kernel⟩,
   ⟨{ State.reset with twn := { sent := [⟨7, 4, false, [5]⟩] } }, 7, ⟨7, 4, false, [5]⟩, by decide +kernel⟩,
   ⟨{ State.reset with twn := { sent := [⟨7, 4, false, [5]⟩], received := [⟨6, 4, false, [5]⟩] } }, 7, ⟨7, 4, false, [5]⟩, ⟨6,
     4, false, [5]⟩, by decide +kernel⟩,
   ⟨{ st [(F.TWN_PAIR_STAT_STATE, 3 * 0x40, 2)] with twn := { sent := [⟨7, 4, false, [5]⟩], received := [⟨6, 4, false, [6]⟩] } },
     7, ⟨7, 4, false, [5]⟩, ⟨6, 4, false, [6]⟩, by decide +kernel⟩,
   ⟨st [(F.CLK_PORT_LINK_UP, 8, 1)], 1, by decide +kernel⟩,
   ⟨st [(F.CLK_PORT_LINK_UP, 8, 1), (F.CLK_HP_SAFE, 0, 1)], 1, by decide +kernel⟩,
   ⟨State.reset, 1, by decide +kernel⟩,
   ⟨st [(F.CLK_DIE_RST_STATE, 56, 2)], 7, by decide +kernel⟩,
   ⟨State.reset, 7, by decide +kernel⟩⟩

/-- The hypotheses of PairsSyncAndSwap are met. -/
theorem witness_pairs_sync_and_swap :
    (∃ s : State, ∃ k, k < 4 ∧ pairThere s k = true ∧ pairState s k = 0 ∧ pairBusy s k = false) ∧
    (∃ s : State, ∃ k, k < 4 ∧ pairThere s k = true ∧ pairState s k ≠ 0 ∧ pairBusy s k = false) ∧
    (∃ s : State, ∃ k, k < 4 ∧ s.wf = true ∧ syncing s k = true ∧ edgeUp s (2 * k) 0 = true ∧ dieUp s (2 * k) = true ∧ dieUp s
      (2 * k + 1) = true) ∧
    (∃ s : State, ∃ d, twinned s (d / 2) = true) ∧
    (∃ s : State, ∃ d x rest, Tbl.getD s.twn.hold d [] = x :: rest) ∧
    (∃ s : State, isSet s F.TWN_CTL_SWAP_EN 0 = true ∧ s.bmk.sw = none) ∧
    (∃ s : State, isSet s F.TWN_CTL_SWAP_EN 0 = true ∧ s.bmk.sw ≠ none) :=
  ⟨⟨State.reset, 3, by decide +kernel⟩,
   ⟨st [(F.TWN_PAIR_STAT_STATE, 3 * 0x40, 4)], 3, by decide +kernel⟩,
   ⟨st [(F.TWN_PAIR_STAT_STATE, 3 * 0x40, 1), (F.PKG_EDGE_STATE, edgeO 6 0, 2)], 3, by decide +kernel⟩,
   ⟨st [(F.TWN_PAIR_STAT_STATE, 3 * 0x40, 2)], 7, by decide +kernel⟩,
   ⟨{ State.reset with twn := { hold := [(7, [(res 7 0 0 0 0, 5)])] } }, 7, _, _, rfl⟩,
   ⟨st [(F.TWN_CTL_SWAP_EN, 0, 1)], by decide +kernel⟩,
   ⟨{ st [(F.TWN_CTL_SWAP_EN, 0, 1)] with bmk := { sw := some (sw [] [] [] false) } }, by decide +kernel⟩⟩

/-- The hypotheses of PartitionChangesAreStaged are met. -/
theorem witness_partition_changes_are_staged :
    (∃ s : State, getF s F.FN_STAGE_STAT_STATE 0 = 0) ∧
    (∃ s : State, getF s F.FN_STAGE_STAT_STATE 0 ≠ 0) ∧
    (∃ s : State, getF s F.FN_STAGE_STAT_STATE 0 = 1 ∧ stageFault s = none) ∧
    (∃ s : State, ∃ r tb i, getF s F.FN_STAGE_STAT_STATE 0 = 1 ∧ stageFault s = some (r, tb, i) ∧ r < 65536 ∧ tb < 8 ∧ i <
      65536) ∧
    (∃ s : State, changePending s = true) ∧
    (∃ s : State, ∃ tb i, changePending s = true ∧ leaves s tb i = true ∧ tb < 5) ∧
    (∃ s : State, ∃ i, changePending s = true ∧ leaves s 5 i = true ∧ i < 65536 ∧ sqState s i = 1 ∧ ringIdle s i = true) ∧
    (∃ s : State, ∃ i, changePending s = true ∧ ((i ∈ listed s 5 ∧ leaves s 5 i = true ∧ sqState s i = 1) ∨ (i ∈ listed s 3 ∧
      leaves s 3 i = true ∧ drained s 3 i = false))) ∧
    (∃ s : State, changePending s = true ∧ (∀ i ∈ listed s 5, leaves s 5 i = true → sqState s i ≠ 1) ∧ (∀ i ∈ listed s 3,
      leaves s 3 i = true → drained s 3 i = true)) :=
  ⟨⟨st [(F.FN_STAGE_STAT_STATE, 0, 0)], by decide +kernel⟩,
   ⟨st [(F.FN_STAGE_STAT_STATE, 0, 1)], by decide +kernel⟩,
   ⟨st [(F.FN_STAGE_STAT_STATE, 0, 1), (F.FN_OWN_TILE_NEXT, 511 * 8, 1)], by decide +kernel⟩,
   ⟨st [(F.FN_STAGE_STAT_STATE, 0, 1), (F.FN_OWN_TILE_NEXT, 511 * 8, 2)], 0x0F02, 0, 511, by decide +kernel⟩,
   ⟨st [(F.FN_STAGE_STAT_STATE, 0, 2)], by decide +kernel⟩,
   ⟨st [(F.FN_STAGE_STAT_STATE, 0, 2), (F.FN_OWN_SRC_OWNER, 1023 * 8, 1)], 4, 1023, by decide +kernel⟩,
   ⟨st [(F.FN_STAGE_STAT_STATE, 0, 2), (F.FN_OWN_RING_OWNER, 65535 * 8, 1), (F.RING_SQ_CTL_STATE, ringO 65535, 1)], 65535,
     by decide +kernel⟩,
   ⟨st [(F.FN_STAGE_STAT_STATE, 0, 2), (F.FN_OWN_RING_OWNER, 65535 * 8, 1), (F.RING_SQ_CTL_STATE, ringO 65535, 1)], 65535,
     by decide +kernel⟩,
   ⟨st [(F.FN_STAGE_STAT_STATE, 0, 2)], by decide +kernel⟩⟩

/-- The hypotheses of FunctionsAreResetAndScrubbed are met. -/
theorem witness_functions_are_reset_and_scrubbed :
    (∃ s : State, ∃ i, i < 512 ∧ dirtyOf s 0 i = true) ∧
    (∃ s : State, ∃ i, i < 128 ∧ dirtyOf s 1 i = true ∧ (Tbl.get? i s.srm.zeroing).isSome = true ∧ (∀ d ∈ mirrorDies s (i /
      16), chState s (d * 16 + i % 16) = 0)) ∧
    (∃ s : State, ∃ i, i < 512 ∧ dirtyOf s 2 i = true ∧ (Tbl.get? i s.hbm.zeroing).isSome = true ∧ (∀ d ∈ mirrorDies s (i /
      64), stuckPcs s d = [])) ∧
    (∃ s : State, ∃ f, isVf f = true ∧ resetting s f = false ∧ TablesNamed s) ∧
    (∃ s : State, ∃ f, isVf f = true ∧ resetting s f = true) ∧
    (∃ s : State, ∃ pf, pf < 2 ∧ resetting s pf = false ∧ TablesNamed s) ∧
    (∃ s : State, ∃ j x, Tbl.get? j s.fns.resets = some x ∧ x.step = 1 ∧ anyRunning s (flrCovers s j) = false) ∧
    (∃ s : State, ∃ j x, Tbl.get? j s.fns.resets = some x ∧ x.step = 2 ∧ (∀ e ∈ s.fab.invs, flrCovers s j e.2.fn = true →
      e.2.done = true)) ∧
    (∃ s : State, ∃ j x, Tbl.get? j s.fns.resets = some x ∧ x.step = 3) ∧
    (∃ s : State, ∃ j x, Tbl.get? j s.fns.resets = some x ∧ x.step = 4) ∧
    (∃ s : State, ∃ pf num, pf < 2 ∧ resetting s pf = false ∧ 0 < num ∧ num ≤ 512 ∧ (∀ v, num ≤ v → v < 512 → getF s
      F.FN_ATTR_STATE (attrO (vfNum pf (v + 1))) ≠ 1)) ∧
    (∃ s : State, ∃ pf v, pf < 2 ∧ v < 512 ∧ resetting s pf = false ∧ TablesNamed s ∧ getF s F.FN_ATTR_STATE (attrO (vfNum pf
      (v + 1))) = 1) :=
  ⟨⟨st [(F.FN_OWN_TILE_DIRTY, 511 * 8, 1)], 511, by decide +kernel⟩,
   ⟨{ st [(F.FN_OWN_SLICE_DIRTY, 127 * 8, 1)] with srm := { zeroing := [(127, 1)] } }, 127, by decide +kernel⟩,
   ⟨{ st [(F.FN_OWN_UNIT_DIRTY, 511 * 8, 1)] with hbm := { zeroing := [(511, 1)] } }, 511, by decide +kernel⟩,
   ⟨State.reset, 0x5FF, by decide +kernel, by decide +kernel, named rfl⟩,
   ⟨st [(F.FN_ATTR_STATE, attrO 0x5FF, 2)], 0x5FF, by decide +kernel⟩,
   ⟨State.reset, 1, by decide +kernel, by decide +kernel, named rfl⟩,
   ⟨{ State.reset with fns := { resets := [(0x5FF, ⟨1, 0, 0, 0, false⟩)] } }, 0x5FF, _, rfl, by decide +kernel⟩,
   ⟨{ State.reset with fns := { resets := [(0x5FF, ⟨2, 0, 0, 0, false⟩)] } }, 0x5FF, _, rfl, by decide +kernel⟩,
   ⟨{ State.reset with fns := { resets := [(0x5FF, ⟨3, 0, 0, 0, false⟩)] } }, 0x5FF, _, rfl, rfl⟩,
   ⟨{ State.reset with fns := { resets := [(0x5FF, ⟨4, 0, 0, 0, false⟩)] } }, 0x5FF, _, rfl, rfl⟩,
   ⟨State.reset, 1, 512, by decide, by decide, by decide, by decide, fun v a b => absurd a (Nat.not_le.2 b)⟩,
   ⟨st [(F.FN_ATTR_STATE, attrO (vfNum 1 512), 1)], 1, 511, by decide +kernel, by decide +kernel, by decide +kernel, named rfl,
     by decide +kernel⟩⟩

/-- The hypotheses of PowerTemperatureAndLife are met. -/
theorem witness_power_temperature_and_life :
    (∃ a b, a < 65536 ∧ b < 65536) ∧
    (∃ s : State, s.pwr.failing = false ∧ feedState s 0 = 2 ∧ feedState s 1 = 2) ∧
    (∃ s : State, ∃ f, f < 2 ∧ mated s (1 - f) = true) ∧
    (∃ s : State, ∃ f, f < 2 ∧ mated s (1 - f) = true ∧ getF s F.PKG_STRAP_HOTPLUG 0 ≠ 0) ∧
    (∃ s : State, s.pwr.failing = true ∨ feedState s 0 ≠ 2 ∨ feedState s 1 ≠ 2) ∧
    (∃ s : State, ∃ d temp, d < 9 ∧ (present s.part d = true ∨ d = 8) ∧ temp < 100) ∧
    (∃ s : State, ∃ d temp, d < 9 ∧ (present s.part d = true ∨ d = 8) ∧ 100 ≤ temp ∧ temp < 256 ∧ getF s F.PKG_THERM_TEMP (d *
      8) < 100) ∧
    (∃ s : State, ∃ d temp, d < 9 ∧ (present s.part d = true ∨ d = 8) ∧ 110 ≤ temp ∧ temp < 256 ∧ 110 ≤ getF s F.PKG_THERM_TEMP
      (d * 8) ∧ halted s = false) ∧
    (∃ s : State, s.pwr.dark = false) ∧
    (∃ s : State, s.pwr.dark = false) ∧
    (∃ s : State, ∃ c : Instr, ∃ temp, (c = .lifeSecond temp ∨ c = .lifeStore) ∧ s.pwr.dark = true) :=
  ⟨⟨65535, 65535, by decide⟩,
   ⟨st [(F.PWR_STAT_FEED_A, 0, 2), (F.PWR_STAT_FEED_B, 0, 2)], by decide +kernel⟩,
   ⟨State.reset, 1, by decide +kernel⟩,
   ⟨st [(F.PKG_STRAP_HOTPLUG, 0, 1), (F.CLK_HP_FEED_A_MATED, 0, 1)], 1, by decide +kernel⟩,
   ⟨{ State.reset with pwr := { failing := true } }, by decide +kernel⟩,
   ⟨State.reset, 8, 99, by decide +kernel⟩,
   ⟨State.reset, 7, 100, by decide +kernel⟩,
   ⟨st [(F.PKG_THERM_TEMP, 64, 110)], 8, 110, by decide +kernel⟩,
   ⟨State.reset, by decide +kernel⟩,
   ⟨State.reset, by decide +kernel⟩,
   ⟨{ State.reset with pwr := { dark := true } }, .lifeSecond 9, 9, by decide +kernel⟩⟩

/-- The hypotheses of ClocksAreChosenAndGated are met. -/
theorem witness_clocks_are_chosen_and_gated :
    (∃ s : State, ∃ r c, r < 2 ∧ windowPass c (Tbl.getD s.pwr.counts (1 - r) 0) = true ∧ r ∉ s.pwr.spoilt ∧ 2 ≤ getF s
      F.CLK_REF_STAT_PASSES (r * 8)) ∧
    (∃ s : State, ∃ r c, r < 2 ∧ windowPass c (Tbl.getD s.pwr.counts (1 - r) 0) = false ∧ c ≠ 0 ∧ r ∉ s.pwr.spoilt) ∧
    (∃ r, r < 2) ∧
    (∃ s : State, ∃ a, s.pwr.boot = 3 ∧ pllState s ≠ 1 ∧ getF s F.CLK_REF_CTL_PREFER 0 = a ∧ a < 2 ∧ (refStable s 0 = true ∨
      refStable s 1 = true)) ∧
    (∃ s : State, ∃ r, pllState s = 2 ∧ getF s F.CLK_PLL_STAT_REF 0 = r ∧ r < 2 ∧ refStable s (1 - r) = true) ∧
    (∃ s : State, pllState s = 1 ∨ pllState s = 2) ∧
    (∃ s : State, s.pwr.warm = 0 ∧ s.pwr.boot = 2 ∧ (refStable s 0 = true ∨ refStable s 1 = true)) ∧
    (∃ s : State, s.pwr.warm = 0 ∧ s.pwr.boot = 3 ∧ pllState s = 1) ∧
    (∃ s : State, s.pwr.warm = 0 ∧ s.pwr.boot = 7) ∧
    (∃ s : State, s.pwr.warm = 0 ∧ s.pwr.boot = 8) ∧
    (∃ s : State, s.pwr.warm = 0 ∧ s.pwr.boot = 2 ∧ refStable s 0 = false ∧ refStable s 1 = false) ∧
    (∃ s : State, s.pwr.warm = 0 ∧ s.pwr.boot = 1) ∧
    (∃ s : State, s.pwr.warm = 0 ∧ s.pwr.boot = 6) ∧
    (∃ s : State, s.pwr.boot = 4 ∧ s.pwr.warm = 0) ∧
    (∃ s : State, ∃ d, d < 8 ∧ present s.part d = true) ∧
    (∃ s : State, s.pwr.warm = 0 ∧ s.pwr.dark = false ∧ s.pwr.coldLow = false ∧ s.pwr.pllLost = false) ∧
    (∃ s : State, s.pwr.warm = 0 ∧ s.pwr.dark = false ∧ s.pwr.coldLow = false ∧ s.pwr.pllLost = true) ∧
    (∃ s : State, s.pwr.boot = 0 ∧ s.pwr.warm = 1) ∧
    (∃ s : State, s.pwr.boot = 0 ∧ s.pwr.warm = 2) ∧
    (∃ s : State, s.pwr.boot = 0 ∧ s.pwr.warm = 3 ∧ coolEnough s = true ∧ s.pwr.pllLost = false) ∧
    (∃ s : State, s.pwr.boot = 0 ∧ s.pwr.warm = 3 ∧ coolEnough s = false) ∧
    (∃ s : State, s.pwr.boot = 0 ∧ s.pwr.warm = 3 ∧ coolEnough s = true ∧ s.pwr.pllLost = true) ∧
    (∃ s : State, s.pwr.boot = 0 ∧ s.pwr.warm = 4) ∧
    (∃ s : State, s.pwr.boot = 0 ∧ s.pwr.warm = 5) :=
  ⟨⟨st [(F.CLK_REF_STAT_PASSES, 8, 2)], 1, 100010, by decide +kernel⟩,
   ⟨State.reset, 1, 100011, by decide +kernel⟩,
   ⟨1, by decide⟩,
   ⟨{ st [(F.CLK_REF_STAT_STATE, 8, 2), (F.CLK_REF_CTL_PREFER, 0, 1)] with pwr := { boot := 3 } }, 1, by decide +kernel⟩,
   ⟨st [(F.CLK_PLL_STAT_STATE, 0, 2), (F.CLK_PLL_STAT_REF, 0, 1), (F.CLK_REF_STAT_STATE, 0, 2)], 1, by decide +kernel⟩,
   ⟨st [(F.CLK_PLL_STAT_STATE, 0, 1)], by decide +kernel⟩,
   ⟨{ st [(F.CLK_REF_STAT_STATE, 0, 2)] with pwr := { boot := 2 } }, by decide +kernel⟩,
   ⟨{ st [(F.CLK_PLL_STAT_STATE, 0, 1)] with pwr := { boot := 3 } }, by decide +kernel⟩,
   ⟨{ st [] with pwr := { boot := 7 } }, by decide +kernel⟩,
   ⟨{ st [] with pwr := { boot := 8 } }, by decide +kernel⟩,
   ⟨{ st [] with pwr := { boot := 2 } }, by decide +kernel⟩,
   ⟨{ st [] with pwr := { boot := 1 } }, by decide +kernel⟩,
   ⟨{ st [] with pwr := { boot := 6 } }, by decide +kernel⟩,
   ⟨{ st [] with pwr := { boot := 4 } }, by decide +kernel⟩,
   ⟨State.reset, 7, by decide +kernel⟩,
   ⟨State.reset, by decide +kernel⟩,
   ⟨{ st [] with pwr := { pllLost := true } }, by decide +kernel⟩,
   ⟨{ st [] with pwr := { warm := 1 } }, by decide +kernel⟩,
   ⟨{ st [] with pwr := { warm := 2 } }, by decide +kernel⟩,
   ⟨{ st [(F.PKG_THERM_TEMP, 64, 95)] with pwr := { warm := 3 } }, by decide +kernel⟩,
   ⟨{ st [(F.PKG_THERM_TEMP, 64, 96)] with pwr := { warm := 3 } }, by decide +kernel⟩,
   ⟨{ st [(F.PKG_THERM_TEMP, 64, 95)] with pwr := { warm := 3, pllLost := true } }, by decide +kernel⟩,
   ⟨{ st [] with pwr := { warm := 4 } }, by decide +kernel⟩,
   ⟨{ st [] with pwr := { warm := 5 } }, by decide +kernel⟩⟩

/-- The hypotheses of DiesAreHeldAndReleased are met. -/
theorem witness_dies_are_held_and_released :
    (∃ s : State, ∃ d, d < 8 ∧ present s.part d = true ∧ isSet s F.CLK_DIE_RST_HOLD (d * 8) = false ∧ holdable s d = true) ∧
    (∃ s : State, ∃ d, d < 8 ∧ present s.part d = true ∧ isSet s F.CLK_DIE_RST_HOLD (d * 8) = false ∧ holdable s d = false) ∧
    (∃ s : State, ∃ d, d < 8 ∧ dieState s d = 1) ∧
    (∃ s : State, ∃ d, d < 8 ∧ dieState s d = 2 ∧ diePlat s d = false) ∧
    (∃ s : State, ∃ d, d < 8 ∧ dieState s d = 3) ∧
    (∃ s : State, ∃ d e n, edgeFar s d e = some n ∧ e < 3 ∧ edgeUp s d e = true ∧ TablesNamed s ∧ (e ≠ 0 ∨ twinned s (d / 2) =
      false)) ∧
    (∃ s : State, ∃ d e n, edgeFar s d e = some n ∧ e < 3 ∧ getF s F.PKG_EDGE_STATE (edgeO d e) = 1) ∧
    (∃ s : State, ∃ d e n, edgeFar s d e = some n ∧ e < 3 ∧ getF s F.PKG_EDGE_STATE (edgeO d e) = 1 ∧ getF s
      F.PKG_EDGE_ATTEMPTS (edgeO d e) < 2) ∧
    (∃ s : State, ∃ d e n, edgeFar s d e = some n ∧ e < 3 ∧ getF s F.PKG_EDGE_STATE (edgeO d e) = 1 ∧ 2 ≤ getF s
      F.PKG_EDGE_ATTEMPTS (edgeO d e)) :=
  ⟨⟨State.reset, 7, by decide +kernel⟩,
   ⟨State.reset, 1, by decide +kernel⟩,
   ⟨st [(F.CLK_DIE_RST_STATE, 56, 1)], 7, by decide +kernel⟩,
   ⟨st [(F.CLK_DIE_RST_STATE, 56, 2)], 7, by decide +kernel⟩,
   ⟨st [(F.CLK_DIE_RST_STATE, 56, 3)], 7, by decide +kernel⟩,
   ⟨st [(F.PKG_EDGE_STATE, edgeO 7 1, 2)], 7, 1, 5, by decide +kernel, by decide +kernel, by decide +kernel, named rfl,
     by decide +kernel⟩,
   ⟨st [(F.PKG_EDGE_STATE, edgeO 7 1, 1)], 7, 1, 5, by decide +kernel⟩,
   ⟨st [(F.PKG_EDGE_STATE, edgeO 7 1, 1), (F.PKG_EDGE_ATTEMPTS, edgeO 7 1, 1)], 7, 1, 5, by decide +kernel⟩,
   ⟨st [(F.PKG_EDGE_STATE, edgeO 7 1, 1), (F.PKG_EDGE_ATTEMPTS, edgeO 7 1, 2)], 7, 1, 5, by decide +kernel⟩⟩

/-- The hypotheses of PortsTrainAndPackageEjects are met. -/
theorem witness_ports_train_and_package_ejects :
    (∃ s : State, ∃ p, mayTrain s p = true) ∧
    (∃ s : State, ∃ p, mayTrain s p = false) ∧
    (∃ s : State, isSet s F.PKG_STRAP_HOTPLUG 0 = true) ∧
    (∃ s : State, ∃ c : Instr, (c = .hpAttn ∨ c = .hpEject) ∧ isSet s F.PKG_STRAP_HOTPLUG 0 = false) ∧
    (∃ s : State, isSet s F.CLK_HP_QUIESCE 0 = false ∧ TablesNamed s) ∧
    (∃ s : State, s.pwr.quiescing = true ∧ ringsIn s 2 = [] ∧ (∀ e ∈ s.dst.cw, e.2 = [])) ∧
    (∃ s : State, isSet s F.PKG_STRAP_HOTPLUG 0 = true ∧ isSet s F.CLK_HP_SAFE 0 = false) :=
  ⟨⟨{ st [(F.PKG_STRAP_PORT1, 0, 1)] with pwr := { ready := true, perst := [] } }, 1, by decide +kernel⟩,
   ⟨State.reset, 1, by decide +kernel⟩,
   ⟨st [(F.PKG_STRAP_HOTPLUG, 0, 1)], by decide +kernel⟩,
   ⟨State.reset, .hpEject, by decide +kernel⟩,
   ⟨State.reset, by decide +kernel, named rfl⟩,
   ⟨{ st [] with pwr := { quiescing := true } }, by decide +kernel⟩,
   ⟨st [(F.PKG_STRAP_HOTPLUG, 0, 1)], by decide +kernel⟩⟩

/-- The hypotheses of KeysAndAttestation are met. -/
theorem witness_keys_and_attestation :
    (∃ data, bits data 0 1 = 1 ∧ bits data 16 16 = 0x5356) ∧
    (∃ data, bits data 0 1 = 0 ∨ bits data 16 16 ≠ 0x5356) ∧
    (∃ s : State, ∃ k, 0 < k ∧ k < 8 ∧ keyLocked s k = false) ∧
    (∃ s : State, ∃ c : Instr, ∃ fn k, (c = .install fn k ∨ c = .clear fn k) ∧ k < 8 ∧ keyLocked s k = true ∧ s.logOff = false) ∧
    (∃ s : State, isSet s F.SEC_ATTEST_BUSY 0 = false ∧ getF s F.SEC_DBG_STAT_GRANTED 0 ≠ 2) ∧
    (∃ s : State, isSet s F.SEC_ATTEST_BUSY 0 = false ∧ getF s F.SEC_DBG_STAT_GRANTED 0 = 2) ∧
    (∃ s : State, ∃ b, s.sec.body = some b) :=
  ⟨⟨0x53560001, by decide⟩,
   ⟨0x53560000, by decide⟩,
   ⟨State.reset, 7, by decide +kernel⟩,
   ⟨st [(F.SEC_PK_CTL_LOCK, 0, 2 ^ 7)], .clear 1 7, 1, 7, by decide +kernel⟩,
   ⟨State.reset, by decide +kernel⟩,
   ⟨st [(F.SEC_DBG_STAT_GRANTED, 0, 2)], by decide +kernel⟩,
   ⟨{ State.reset with sec := { body := some [5] } }, _, rfl⟩⟩

/-- The hypotheses of DebugUnlocks are met. -/
theorem witness_debug_unlocks :
    (∃ s : State, dbgState s < 2) ∧
    (∃ s : State, dbgState s < 2 ∧ s.sec.nonce = true) ∧
    (∃ s : State, dbgState s < 2 ∧ s.sec.nonce = false) ∧
    (∃ s : State, ∃ c : Instr, (c = .challenge ∨ c = .submit) ∧ 2 ≤ dbgState s) ∧
    (∃ s : State, ∃ r, s.sec.sub = some r ∧ getF s F.SEC_DBG_STAT_GRANTED 0 ≤ 2) :=
  ⟨⟨st [(F.SEC_DBG_STAT_STATE, 0, 1)], by decide +kernel⟩,
   ⟨{ st [(F.SEC_DBG_STAT_STATE, 0, 1)] with sec := { nonce := true } }, by decide +kernel⟩,
   ⟨st [(F.SEC_DBG_STAT_STATE, 0, 1)], by decide +kernel⟩,
   ⟨st [(F.SEC_DBG_STAT_STATE, 0, 2)], .submit, by decide +kernel⟩,
   ⟨{ State.reset with sec := { sub := some ⟨[5], [6], 2⟩ } }, _, rfl, by decide +kernel⟩⟩

/-- The hypotheses of TheErrorLogServes are met. -/
theorem witness_the_error_log_serves :
    (∃ slot, slot < 64) ∧
    (∃ s : State, ∃ sev, sev < 4 ∧ (2 ≤ sev ∨ s.logOff = false) ∧ validSlots s = []) :=
  ⟨⟨63, by decide⟩,
   ⟨State.reset, 3, by decide +kernel⟩⟩

/-- The hypotheses of RegistersAreReadAndWritten are met. -/
theorem witness_registers_are_read_and_written :
    (∃ s : State, ∃ fn p data, Answers s fn ∧ p < 2 ∧ data < 2 ^ 64) ∧
    (∃ s : State, ∃ fn p, Answers s fn ∧ p < 2) ∧
    (∃ s : State, ∃ fn, Answers s fn) ∧
    (∃ s : State, ∃ c : Instr, ∃ fn off len v, Answers s fn ∧ goodAccess off len = false ∧ (c = .registerRead fn off len ∨ c =
      .registerWrite fn off len v) ∧ s.logOff = false) ∧
    (∃ s : State, ∃ off d, windowDie off = some d ∧ dieUp s d = true ∧ s.logOff = false) ∧
    (∃ s : State, ∃ fn off len d b, Answers s fn ∧ goodAccess off len = true ∧ windowDie off = some d ∧ gateBit off = some b ∧
      bits (getF s F.CLK_GATE_GATE (d * 8)) b 1 = 1) ∧
    (∃ s : State, ∃ fn off len d, Answers s fn ∧ goodAccess off len = true ∧ windowDie off = some d ∧ dieUp s d = false) ∧
    (∃ s : State, ∃ fn off len, Answers s fn ∧ goodAccess off len = true ∧ silentZero s off = false ∧ accessLost s fn off =
      true) ∧
    (∃ s : State, ∃ fn vec, Answers s fn ∧ vec < 2048) ∧
    (∃ s : State, ∃ fn vec, Answers s fn ∧ vec < 2048) ∧
    (∃ s : State, ∃ fn, isVf fn = true ∧ unpowered s = false ∧ s.pwr.warm = 0 ∧ resetting s fn = false) :=
  ⟨⟨State.reset, 1, 1, 2 ^ 64 - 1, ⟨by decide, by decide, by decide, by decide +kernel⟩, by decide⟩,
   ⟨State.reset, 1, 1, ⟨by decide, by decide, by decide, by decide +kernel⟩, by decide⟩,
   ⟨State.reset, 1, ⟨by decide, by decide, by decide, by decide +kernel⟩⟩,
   ⟨State.reset, .registerRead 1 0xC0002C 8, 1, 0xC0002C, 8, 0, ⟨by decide, by decide, by decide, by decide +kernel⟩, by
     decide⟩,
   ⟨State.reset, 0x2FFFFF8, 7, by decide +kernel⟩,
   ⟨st [(F.CLK_GATE_GATE, 56, 2 ^ 19)], 1, 0x2C28000, 8, 7, 19, ⟨by decide, by decide, by decide, by decide +kernel⟩,
     by decide +kernel⟩,
   ⟨st [(F.CLK_DIE_RST_STATE, 56, 2)], 1, 0x2C28000, 8, 7, ⟨by decide, by decide, by decide, by decide +kernel⟩,
     by decide +kernel⟩,
   ⟨State.reset, 1, 0x2C28000, 8, ⟨by decide, by decide, by decide, by decide +kernel⟩, by decide +kernel⟩,
   ⟨State.reset, 1, 2047, ⟨by decide, by decide, by decide, by decide +kernel⟩, by decide⟩,
   ⟨State.reset, 1, 2047, ⟨by decide, by decide, by decide, by decide +kernel⟩, by decide⟩,
   ⟨State.reset, 0x5FF, by decide +kernel⟩⟩

end Sys2Proof.Tests
end

/-! # Cells: lanes, and a pass that goes on

SUPPORT. How lanes read, and what one instruction of a cell leaves of the state (R208 to R211, R216). -/

namespace Sys2Proof.Machine

/-! ### Lanes -/

/-- Lane `i` of lanes given by a function is the function's value. -/
theorem Lanes.get_ofFn (f : Nat → Lane) {i : Nat} (hi : i < 8) : (Lanes.ofFn f).get i = f i := by
  match i, hi with
  | 0, _ | 1, _ | 2, _ | 3, _ | 4, _ | 5, _ | 6, _ | 7, _ => rfl

theorem Lanes.get_ofList (xs : List Lane) {i : Nat} (hi : i < 8) : (Lanes.ofList xs).get i = xs.getD i none :=
  Lanes.get_ofFn _ hi

/-- An operation on each lane of A relates each valid lane to its result; the mask is A's (R216). -/
theorem each1_map1 {f : W64 → W64} {R : W64 → W64 → Prop} (h : ∀ x, R x (f x)) (a : Lanes) : Each1 a (map1 f a) R := by
  intro i hi
  rw [map1, Lanes.get_ofFn _ hi]
  exact ⟨fun ha => by rw [ha, Option.map_none], fun x ha => ⟨f x, by rw [ha, Option.map_some], h x⟩⟩

/-- An operation on each lane of A and B relates the lanes valid in both to their result; the others are null (R216). -/
theorem each2_map2 {f : W64 → W64 → W64} {R : W64 → W64 → W64 → Prop} (h : ∀ x y, R x y (f x y)) (a b : Lanes) :
    Each2 a b (map2 f a b) R := by
  intro i hi
  rw [map2, Lanes.get_ofFn _ hi]
  refine ⟨fun hab => ?_, fun x y ha hb => ⟨f x y, by simp only [ha, hb], h x y⟩⟩
  rcases hab with ha | hb
  · simp only [ha]
  · cases a.get i <;> simp only [hb]

/-! ### A pass goes on -/

section
variable {s : State} {g op : Nat} {p : Pass} {w : Nat}

/-- The pass after an instruction that wrote `d` to D, if it wrote. -/
def Pass.next (p : Pass) (w : Nat) (d : Option Lanes) : Pass :=
  { p with pc := p.pc + 1, v := match d with
                                | some l => Tbl.put (iD w) l p.v
                                | none => p.v }

theorem advance_of_lt (d : Option Lanes) (h : p.pc + 1 < (cellCode s g).length) :
    advance s g p w d = modFab s (fun b => { b with passes := Tbl.put g (p.next w d) b.passes }) :=
  if_pos h

theorem advance_of_le (d : Option Lanes) (h : (cellCode s g).length ≤ p.pc + 1) :
    advance s g p w d = modFab s (fun b => { b with passes := Tbl.del g b.passes }) :=
  if_neg (Nat.not_lt.2 h)

/-- D holds what was written to it. -/
theorem Pass.next_reg_same (p : Pass) (w : Nat) (l : Lanes) : (p.next w (some l)).reg (iD w) = l :=
  Tbl.getD_put_same _ _ _ _

/-- Every register but a written D holds what it held. -/
theorem Pass.next_reg_ne (p : Pass) (w : Nat) (d : Option Lanes) {n : Nat} (h : n ≠ iD w ∨ d = none) :
    (p.next w d).reg n = p.reg n := by
  cases d with
  | none => rfl
  | some l => exact Tbl.getD_put_ne _ _ _ _ _ (h.resolve_right (by simp))

/-- Going on changes the passes alone. -/
theorem advance_eq (s : State) (g : Nat) (p : Pass) (w : Nat) (d : Option Lanes) :
    ∃ ps, advance s g p w d = { s with fab := { s.fab with passes := ps } } := by
  rcases Nat.lt_or_ge (p.pc + 1) (cellCode s g).length with h | h
  · exact ⟨_, advance_of_lt d h⟩
  · exact ⟨_, advance_of_le d h⟩

/-- Going on is what `PassedOn` says (R209, R210). -/
theorem passedOn_advance (s : State) (g : Nat) (p : Pass) (w : Nat) (d : Option Lanes) :
    PassedOn s (advance s g p w d) g p w d := by
  refine ⟨advance_eq s g p w d, fun h hne => ?_, fun hlt => ?_, fun hle => ?_⟩
  · rcases Nat.lt_or_ge (p.pc + 1) (cellCode s g).length with hl | hl
    · rw [advance_of_lt d hl, modFab_fab, Tbl.get?_put, if_neg hne]
    · rw [advance_of_le d hl, modFab_fab, Tbl.get?_del, if_neg hne]
  · rw [advance_of_lt d hlt, modFab_fab, Tbl.get?_put, if_pos rfl]
    refine ⟨p.next w d, rfl, rfl, rfl, rfl, fun l hl => ?_, fun n hn => p.next_reg_ne w d hn⟩
    rw [hl, Pass.next_reg_same]
  · rw [advance_of_le d hle, modFab_fab, Tbl.get?_del, if_pos rfl]

/-- What an instruction that is about to run and acts leaves. -/
theorem runInstr_of_runs (h : Runs s g op p w) (eff : State → Pass → Nat → State × Option Lanes) :
    runInstr s g op eff = advance (eff s p w).1 g p w (eff s p w).2 := by
  obtain ⟨-, hcur, hop, hact⟩ := h
  simp only [runInstr, hcur, hop, hact, if_true]

/-- An instruction that only writes D passes on with D holding what it computes. -/
theorem passedOn_runPure (h : Runs s g op p w) (f : Pass → Nat → Lanes) :
    PassedOn s (runPure s g op f) g p w (some (f p w)) := by
  rw [runPure, runInstr_of_runs h]
  exact passedOn_advance s g p w _

/-- A command that runs an instruction which only writes D, with what is known of D. -/
theorem exec_runPure {c : Instr} {f : Pass → Nat → Lanes} {Q : Lanes → Prop} (h : Runs s g op p w)
    (hc : exec c s = .next (runPure s g op f)) (hQ : Q (f p w)) :
    ∃ t d, exec c s = .next t ∧ PassedOn s t g p w (some d) ∧ Q d :=
  ⟨_, _, hc, passedOn_runPure h f, hQ⟩

/-- A command that runs an instruction on each lane of A. -/
theorem exec_runLane1 {c : Instr} {f : Nat → W64 → W64} {R : W64 → W64 → Prop} (h : Runs s g op p w)
    (hc : exec c s = .next (runLane1 s g op f)) (hR : ∀ x, R x (f w x)) :
    ∃ t d, exec c s = .next t ∧ PassedOn s t g p w (some d) ∧ Each1 (srcA p w) d R :=
  exec_runPure h hc (each1_map1 hR _)

/-- A command that runs an instruction on each lane of A and B. -/
theorem exec_runLane2 {c : Instr} {f : Nat → W64 → W64 → W64} {R : W64 → W64 → W64 → Prop} (h : Runs s g op p w)
    (hc : exec c s = .next (runLane2 s g op f)) (hR : ∀ x y, R x y (f w x y)) :
    ∃ t d, exec c s = .next t ∧ PassedOn s t g p w (some d) ∧ Each2 (srcA p w) (srcB p w) d R :=
  exec_runPure h hc (each2_map2 hR _ _)

/-- A command that runs a reduction: lane 0 of D alone holds its result (R220). -/
theorem exec_runRed {c : Instr} {f : Nat → List W64 → Lane} {Q : Lane → Prop} (h : Runs s g op p w)
    (hc : exec c s = .next (runRed s g op f)) (hQ : Q (f w (srcA p w).valid)) :
    ∃ t d, exec c s = .next t ∧ PassedOn s t g p w (some (lane0 d)) ∧ Q d :=
  ⟨_, _, hc, passedOn_runPure h _, hQ⟩

end

end Sys2Proof.Machine

/-! # Cells: arithmetic (O18) -/

namespace Sys2Proof.Machine

/-- `narrow` gives the 64-bit result of an exact value (R218). -/
theorem narrowed_narrow (sat sgn : Bool) (v : Int) : Narrowed sat sgn v (narrow sat sgn v) := by
  unfold Narrowed narrow
  refine ⟨fun h => by simp [h], fun h1 h2 => ?_, fun h1 h2 => ?_⟩
  · simp only [h1, h2, if_true, BitVec.toInt_ofInt]
    exact Int.bmod_eq_of_le (by omega) (by omega)
  · simp only [h1, h2, if_true, Bool.false_eq_true, if_false, BitVec.toNat_ofInt]
    omega

/-- MULH gives bits 127 to 64 of the exact product. -/
theorem opMulh_high_half (sgn : Bool) (x y : W64) :
    ∃ hi lo : Int, 0 ≤ lo ∧ lo < 2 ^ 64 ∧ ival sgn x * ival sgn y = hi * 2 ^ 64 + lo ∧ opMulh sgn x y = BitVec.ofInt 64 hi :=
  ⟨ival sgn x * ival sgn y / 2 ^ 64, ival sgn x * ival sgn y % 2 ^ 64, Int.emod_nonneg _ (by decide),
    Int.emod_lt_of_pos _ (by decide), (Int.ediv_mul_add_emod _ _).symm, rfl⟩

/-- NEG is the exact negative, narrowed. -/
theorem narrowed_opNeg (sat sgn : Bool) (x : W64) : Narrowed sat sgn (-ival sgn x) (opNeg sat sgn x) := by
  rw [opNeg, Int.zero_sub]
  exact narrowed_narrow _ _ _

end Sys2Proof.Machine

section
open Sys2Proof.Machine

/-- Settles O18: the exact result of each instruction, narrowed by `narrow`, and the pass goes on. -/
theorem cellArithmeticWrapsOrSaturates : Obligations.CellArithmeticWrapsOrSaturates := fun _ _ _ _ =>
  ⟨fun h => exec_runLane2 h rfl fun _ _ => narrowed_narrow _ _ _,
   fun h => exec_runLane2 h rfl fun _ _ => narrowed_narrow _ _ _,
   fun h => exec_runLane2 h rfl fun _ _ => narrowed_narrow _ _ _,
   fun h => exec_runLane2 h rfl fun _ _ => opMulh_high_half _ _ _,
   fun h => exec_runLane1 h rfl fun _ => narrowed_opNeg _ _ _,
   fun h => exec_runLane1 h rfl fun _ => narrowed_narrow _ _ _⟩

end

/-! # Cells: comparisons, selections and masks (O21) -/

namespace Sys2Proof.Machine

theorem ofB_eq_ite (c : Prop) [Decidable c] : ofB (decide c) = if c then 1 else 0 := by
  by_cases h : c <;> simp [ofB, h]

/-- A ≤ B under SGN is that B < A does not hold. -/
theorem not_ltS (sgn : Bool) (x y : W64) : (!ltS sgn y x) = decide (ival sgn x ≤ ival sgn y) := by
  simp [ltS, ← decide_not]

/-- A lane is not nonzero when it is null or holds zero. -/
theorem nonzero_eq_false_iff (x : Lane) : nonzero x = false ↔ x = none ∨ x = some 0 := by
  cases x <;> simp [nonzero]

/-- SEL takes A where C is nonzero, B where C is zero, and null where C is null (R219). -/
theorem opSel_get (a b c : Lanes) {i : Nat} (hi : i < 8) :
    (c.get i = none → (opSel a b c).get i = none) ∧ (c.get i = some 0 → (opSel a b c).get i = b.get i) ∧
    ∀ x, c.get i = some x → x ≠ 0 → (opSel a b c).get i = a.get i := by
  rw [opSel, Lanes.get_ofFn _ hi]
  exact ⟨fun h => by simp only [h], fun h => by simp only [h, if_true], fun x h hx => by simp only [h, if_neg hx]⟩

/-- A choice by the mask of C (R219) is a choice by C null or zero. -/
theorem ite_nonzero {α : Type} (c : Lane) (x y : α) :
    (if nonzero c = true then x else y) = if c = none ∨ c = some 0 then y else x := by
  by_cases h : c = none ∨ c = some 0
  · rw [if_pos h, if_neg (by simp [(nonzero_eq_false_iff c).2 h])]
  · rw [if_neg h, if_pos (by simpa using mt (nonzero_eq_false_iff c).1 h)]

end Sys2Proof.Machine

section
open Sys2Proof.Machine

/-- Settles O21: each comparison is `ofB` of the order it names; the selections and masks choose lane by lane. -/
theorem cellComparesAndSelects : Obligations.CellComparesAndSelects := fun _ _ _ _ =>
  ⟨fun h => exec_runLane2 h rfl fun _ _ => ofB_eq_ite _,
   fun h => exec_runLane2 h rfl fun x y => by by_cases e : x = y <;> simp [ofB, e],
   fun h => exec_runLane2 h rfl fun _ _ => ofB_eq_ite _,
   fun h => exec_runLane2 h rfl fun x y => by rw [not_ltS, ofB_eq_ite],
   fun h => exec_runPure h rfl fun _ hi => opSel_get _ _ _ hi,
   fun h => exec_runPure h rfl fun i hi => by
     rw [Lanes.get_ofFn _ hi]
     cases (srcA _ _).get i <;> rfl,
   fun h => exec_runPure h rfl fun i hi => by
     rw [Lanes.get_ofFn _ hi]
     cases (srcA _ _).get i <;> rfl,
   fun h => exec_runPure h rfl fun _ hi => by rw [Lanes.get_ofFn _ hi, ite_nonzero],
   fun h => exec_runPure h rfl fun _ hi => by rw [Lanes.get_ofFn _ hi, ite_nonzero]⟩

end

/-! # Cells: reductions and permutes (O22) -/

namespace Sys2Proof.Machine

/-- The exact sum of the valid lanes, as RSUM gathers it. -/
theorem foldl_add_ival (sgn : Bool) (xs : List W64) : xs.foldl (fun t x => t + ival sgn x) 0 = (xs.map (ival sgn)).sum := by
  rw [List.sum_eq_foldl, List.foldl_map]

/-- `bestOf`, by the order of a value `v`, chooses an element of least value of a list that is not empty. -/
theorem bestOf_spec {lt : W64 → W64 → Bool} {v : W64 → Int} (hlt : ∀ x y, lt x y = decide (v x < v y)) :
    ∀ xs : List W64, xs ≠ [] → ∃ z, bestOf lt xs = some z ∧ z ∈ xs ∧ ∀ x ∈ xs, v z ≤ v x
  | [], h => absurd rfl h
  | [x], _ => ⟨x, rfl, by simp, by simp⟩
  | x :: y :: t, _ => by
    obtain ⟨z, hz, hmem, hle⟩ := bestOf_spec hlt (y :: t) (by simp)
    refine ⟨if lt z x then z else x, by rw [bestOf, hz], ?_⟩
    rw [hlt]
    by_cases hzx : v z < v x
    · simp only [hzx, decide_true, if_true]
      exact ⟨List.mem_cons_of_mem _ hmem, List.forall_mem_cons.2 ⟨Int.le_of_lt hzx, hle⟩⟩
    · simp only [hzx, decide_false, Bool.false_eq_true, if_false]
      exact ⟨List.mem_cons_self, List.forall_mem_cons.2 ⟨Int.le_refl _, fun u hu => Int.le_trans (Int.not_lt.1 hzx) (hle u hu)⟩⟩

/-- A bit of the OR of a list is set when it is set in the start or in an element. -/
theorem getLsbD_foldl_or (xs : List W64) (a : W64) (j : Nat) :
    (xs.foldl (fun t x => t ||| x) a).getLsbD j = (a.getLsbD j || xs.any (fun x => x.getLsbD j)) := by
  induction xs generalizing a with
  | nil => simp
  | cons x xs ih => rw [List.foldl_cons, ih, BitVec.getLsbD_or, List.any_cons, Bool.or_assoc]

/-- What a reduction of `xs` that is null for no valid lane answers, when it answers `z` for others. -/
theorem ite_isEmpty_spec {xs : List W64} {z : W64} {Q : W64 → Prop} (h : Q z) :
    (xs = [] → (if xs.isEmpty then none else some z : Lane) = none) ∧
    (xs ≠ [] → ∃ u, (if xs.isEmpty then none else some z : Lane) = some u ∧ Q u) :=
  ⟨fun e => by simp [e], fun e => ⟨z, by simp [e], h⟩⟩

/-- A best element is found exactly when there is an element. -/
theorem bestOf_reduces {lt : W64 → W64 → Bool} {v : W64 → Int} (hlt : ∀ x y, lt x y = decide (v x < v y)) (xs : List W64) :
    (xs = [] → bestOf lt xs = none) ∧
    (xs ≠ [] → ∃ z, bestOf lt xs = some z ∧ z ∈ xs ∧ ∀ x ∈ xs, v z ≤ v x) :=
  ⟨fun e => by rw [e, bestOf], bestOf_spec hlt xs⟩

/-- RMAX: with the order turned round, the best element is the greatest. -/
theorem bestOf_greatest (sgn : Bool) (xs : List W64) :
    (xs = [] → bestOf (fun y x => ltS sgn x y) xs = none) ∧
    (xs ≠ [] → ∃ z, bestOf (fun y x => ltS sgn x y) xs = some z ∧ z ∈ xs ∧ ∀ x ∈ xs, ival sgn x ≤ ival sgn z) := by
  have hlt : ∀ x y, ltS sgn y x = decide (-ival sgn x < -ival sgn y) := fun x y => by
    rw [ltS, decide_eq_decide, Int.neg_lt_neg_iff]
  simpa only [Int.neg_le_neg_iff] using bestOf_reduces hlt xs

/-- IMM[2:0] is IMM mod 8. -/
theorem iImm_low3 (w : Nat) : bits (iImm w) 0 3 = iImm w % 8 := by simp [bits]

/-- SHUF gives the lane of A that B names, null where B is null (R225). -/
theorem opShuf_get (a b : Lanes) {i : Nat} (hi : i < 8) :
    (b.get i = none → (opShuf a b).get i = none) ∧ ∀ x, b.get i = some x → (opShuf a b).get i = a.get (x.toNat % 8) := by
  rw [opShuf, Lanes.get_ofFn _ hi]
  exact ⟨fun h => by simp only [h], fun x h => by simp only [h]⟩

/-- COMPACT moves the valid lanes of A to the lowest lanes (R225). -/
theorem opCompact_get (a : Lanes) {i : Nat} (hi : i < 8) : (opCompact a).get i = a.valid[i]? := by
  rw [opCompact, Lanes.get_ofList _ hi, List.getD_eq_getElem?_getD, List.getElem?_map]
  cases a.valid[i]? <;> rfl

end Sys2Proof.Machine

section
open Sys2Proof.Machine

/-- Settles O22: a reduction is a function of the list of valid lanes; the permutes choose lane by lane. -/
theorem cellReductionsAndPermutes : Obligations.CellReductionsAndPermutes :=
  ⟨fun _ _ _ _ =>
   ⟨fun h => exec_runRed h rfl (ite_isEmpty_spec (by rw [foldl_add_ival]; exact narrowed_narrow _ _ _)),
    fun h => exec_runRed h rfl (bestOf_reduces (fun _ _ => rfl) _),
    fun h => exec_runRed h rfl (bestOf_greatest _ _),
    fun h => ⟨_, rfl, passedOn_runPure h _⟩,
    fun h => exec_runRed h rfl (ite_isEmpty_spec fun j => by rw [getLsbD_foldl_or]; simp),
    fun h => ⟨_, rfl, by rw [← List.head?_eq_getElem?]; exact passedOn_runPure h _⟩,
    fun h => ⟨_, rfl, by rw [← List.head?_eq_getElem?, List.head?_reverse]; exact passedOn_runPure h _⟩⟩,
   fun _ _ _ _ =>
   ⟨fun h => ⟨_, rfl, by rw [runInstr_of_runs h]; exact passedOn_advance _ _ _ _ none⟩,
    fun h => exec_runPure h rfl fun _ hi => opShuf_get _ _ hi,
    fun h => exec_runPure h rfl fun _ hi => opCompact_get _ hi,
    fun h => exec_runPure h rfl fun _ hi => by rw [Lanes.get_ofFn _ hi, iImm_low3],
    fun k h hk => exec_runPure h rfl (by rw [hk]; exact ⟨rfl, rfl, rfl, rfl, rfl, rfl, rfl, rfl⟩)⟩⟩

end

/-! # Cells: floating point (O23)

The core is that `FFmt.round` gives the nearest pattern (R222). A pattern `k * 2 ^ mb + q` whose `q` holds the leading one
stands for `q * 2 ^ k` units, so `FFmt.units` rises strictly, and a pattern is the nearest as soon as the count lies between
the midpoints to its two neighbours. -/

namespace Sys2Proof.Machine

section
variable (f : FFmt)

/-! ### Units of a pattern -/

/-- Below the second binade a pattern is its own count of units. -/
theorem FFmt.units_of_lt {m : Nat} (h : m < 2 ^ f.mb) : f.units m = m := by
  rw [FFmt.units, Nat.div_eq_of_lt h, if_pos rfl]

/-- A pattern with its leading one in `q` stands for `q * 2 ^ k` units; `q` may be the next power of two. -/
theorem FFmt.units_scaled (k : Nat) {q : Nat} (h1 : 2 ^ f.mb ≤ q) (h2 : q ≤ 2 ^ (f.mb + 1)) :
    f.units (k * 2 ^ f.mb + q) = q * 2 ^ k := by
  have hB : 0 < 2 ^ f.mb := Nat.two_pow_pos _
  rw [FFmt.units]
  rcases Nat.lt_or_eq_of_le h2 with hlt | rfl
  · obtain ⟨t, rfl⟩ := Nat.exists_eq_add_of_le h1
    have ht : t < 2 ^ f.mb := by rw [Nat.pow_succ] at hlt; omega
    have hm : k * 2 ^ f.mb + (2 ^ f.mb + t) = t + 2 ^ f.mb * (k + 1) := by
      rw [Nat.mul_succ, Nat.mul_comm k]
      omega
    rw [hm, Nat.add_mul_div_left _ _ hB, Nat.div_eq_of_lt ht, Nat.add_mul_mod_self_left, Nat.mod_eq_of_lt ht,
      if_neg (by omega), Nat.zero_add, Nat.add_sub_cancel, Nat.add_comm t]
  · have hm : k * 2 ^ f.mb + 2 ^ (f.mb + 1) = 2 ^ f.mb * (k + 2) := by
      rw [Nat.pow_succ, Nat.mul_comm k, Nat.mul_add]
    rw [hm, Nat.mul_div_cancel_left _ hB, Nat.mul_mod_right, if_neg (by omega)]
    rw [Nat.zero_add, show k + 2 - 1 = k + 1 from rfl, Nat.pow_succ', Nat.pow_succ, Nat.mul_assoc]

/-- Every pattern lies below the first normal one, or has its leading one in `q`. -/
theorem FFmt.pattern_cases (m : Nat) :
    m < 2 ^ f.mb ∨ ∃ k q, m = k * 2 ^ f.mb + q ∧ 2 ^ f.mb ≤ q ∧ q < 2 ^ (f.mb + 1) := by
  rcases Nat.lt_or_ge m (2 ^ f.mb) with h | h
  · exact Or.inl h
  · obtain ⟨n, rfl⟩ := Nat.exists_eq_add_of_le h
    have hB : 0 < 2 ^ f.mb := Nat.two_pow_pos _
    refine Or.inr ⟨n / 2 ^ f.mb, 2 ^ f.mb + n % 2 ^ f.mb, ?_, Nat.le_add_right _ _, ?_⟩
    · have := Nat.div_add_mod' n (2 ^ f.mb)
      omega
    · have := Nat.mod_lt n hB
      rw [Nat.pow_succ]
      omega

/-- The next pattern stands for a greater magnitude. -/
theorem FFmt.units_lt_succ (m : Nat) : f.units m < f.units (m + 1) := by
  rcases f.pattern_cases m with h | ⟨k, q, rfl, h1, h2⟩
  · rw [f.units_of_lt h]
    rcases Nat.lt_or_eq_of_le (Nat.succ_le_of_lt h) with h' | h'
    · rw [f.units_of_lt h']; exact Nat.lt_succ_self m
    · have := f.units_scaled 0 (Nat.le_refl (2 ^ f.mb)) (Nat.pow_le_pow_right (by decide) (Nat.le_succ _))
      rw [Nat.zero_mul, Nat.zero_add, Nat.pow_zero, Nat.mul_one] at this
      rw [show m + 1 = 2 ^ f.mb from h', this, ← h']
      exact Nat.lt_succ_self m
  · rw [f.units_scaled k h1 (Nat.le_of_lt h2), Nat.add_assoc, f.units_scaled k (Nat.le_succ_of_le h1) h2]
    exact Nat.mul_lt_mul_of_pos_right (Nat.lt_succ_self q) (Nat.two_pow_pos k)

/-- Greater patterns stand for greater magnitudes. -/
theorem FFmt.units_lt {a b : Nat} (h : a < b) : f.units a < f.units b := by
  induction h with
  | refl => exact f.units_lt_succ a
  | step _ ih => exact Nat.lt_trans ih (f.units_lt_succ _)

theorem FFmt.units_le {a b : Nat} (h : a ≤ b) : f.units a ≤ f.units b := by
  rcases Nat.lt_or_eq_of_le h with h | rfl
  · exact Nat.le_of_lt (f.units_lt h)
  · exact Nat.le_refl _

/-! ### Rounding to the nearest pattern -/

/-- `n` units lie between the midpoints from pattern `m` to the patterns beside it; on a midpoint `m` is even. -/
def FFmt.Between (n m : Nat) : Prop :=
  (0 < m → f.units (m - 1) + f.units m ≤ 2 * n ∧ (f.units (m - 1) + f.units m = 2 * n → m % 2 = 0)) ∧
  2 * n ≤ f.units m + f.units (m + 1) ∧ (2 * n = f.units m + f.units (m + 1) → m % 2 = 0)

/-- Between its midpoints a pattern is the nearest; beyond the largest finite value ∞ is. -/
theorem FFmt.nearest_of_between {n m : Nat} (h : f.Between n m) : f.Nearest n (min m f.inf) := by
  obtain ⟨hlow, hhigh, heven⟩ := h
  refine ⟨Nat.min_le_right _ _, fun k hk hne => ?_⟩
  rcases Nat.lt_or_gt_of_ne hne with hlt | hgt
  · obtain ⟨hmid, hmid'⟩ := hlow (by omega)
    have h1 : f.units k ≤ f.units (m - 1) := f.units_le (by omega)
    have h2 : f.units k < f.units (min m f.inf) := f.units_lt hlt
    rcases Nat.le_total m f.inf with hm | hm
    · rw [Nat.min_eq_left hm] at h2 ⊢
      simp only [dist]
      omega
    · rcases Nat.lt_or_eq_of_le hm with hm' | hm'
      · have h3 : f.units f.inf < f.units m := f.units_lt hm'
        rw [Nat.min_eq_right hm] at h2 ⊢
        simp only [dist]
        omega
      · rw [hm', Nat.min_self] at h2 ⊢
        simp only [dist]
        omega
  · have hm : m < f.inf := by omega
    rw [Nat.min_eq_left (Nat.le_of_lt hm)] at hgt ⊢
    have h1 : f.units (m + 1) ≤ f.units k := f.units_le hgt
    have h2 : f.units m < f.units (m + 1) := f.units_lt_succ m
    simp only [dist]
    omega

/-- A count below two binades is a pattern of its own. -/
theorem FFmt.between_small {n : Nat} (h : n < 2 ^ (f.mb + 1)) : f.Between n n := by
  have hpow : 2 ^ (f.mb + 1) = 2 * 2 ^ f.mb := Nat.pow_succ'
  have hunits : ∀ m, m ≤ 2 ^ (f.mb + 1) → f.units m = m := fun m hm => by
    rcases Nat.lt_or_ge m (2 ^ f.mb) with h' | h'
    · exact f.units_of_lt h'
    · simpa using f.units_scaled 0 h' hm
  rw [FFmt.Between, hunits n (Nat.le_of_lt h), hunits (n + 1) h, hunits (n - 1) (by omega)]
  omega

/-- Above that, the quotient and the remainder by the unit in the last place tell between which midpoints a count lies. -/
theorem FFmt.between_scaled (hmb : 1 ≤ f.mb) {k q r : Nat} (h1 : 2 ^ f.mb ≤ q) (h2 : q < 2 ^ (f.mb + 1))
    (hr : r < 2 ^ k) :
    f.Between (q * 2 ^ k + r)
      (k * 2 ^ f.mb + if 2 ^ k < 2 * r ∨ (2 * r = 2 ^ k ∧ q % 2 = 1) then q + 1 else q) := by
  have hU0 : f.units (k * 2 ^ f.mb + q) = q * 2 ^ k := f.units_scaled k h1 (Nat.le_of_lt h2)
  have hU1 : f.units (k * 2 ^ f.mb + q + 1) = q * 2 ^ k + 2 ^ k := by
    rw [Nat.add_assoc, f.units_scaled k (Nat.le_succ_of_le h1) h2, Nat.succ_mul]
  have hpar : k * 2 ^ f.mb % 2 = 0 :=
    Nat.mod_eq_zero_of_dvd (Nat.dvd_mul_left_of_dvd (Nat.pow_dvd_pow 2 hmb) k)
  have hpos : 0 < 2 ^ f.mb := Nat.two_pow_pos _
  split
  · have hU2 : f.units (k * 2 ^ f.mb + q + 1) < f.units (k * 2 ^ f.mb + q + 1 + 1) := f.units_lt_succ _
    rw [FFmt.Between, ← Nat.add_assoc, Nat.add_sub_cancel]
    omega
  · have hU2 : f.units (k * 2 ^ f.mb + q - 1) < f.units (k * 2 ^ f.mb + q) := f.units_lt (by omega)
    rw [FFmt.Between]
    omega

/-- `FFmt.round` rounds to the nearest pattern, ties to even (R222). -/
theorem FFmt.nearest_round (hmb : 1 ≤ f.mb) (heb : 2 ≤ f.eb) (n : Nat) : f.Nearest n (f.round n) := by
  rw [FFmt.round]
  rcases Nat.lt_or_ge n (2 ^ (f.mb + 1)) with h | h
  · have hinf : 2 ^ (f.mb + 1) ≤ f.inf := by
      have : 2 ^ 2 ≤ 2 ^ f.eb := Nat.pow_le_pow_right (by decide) heb
      rw [FFmt.inf, Nat.pow_succ']
      exact Nat.mul_le_mul_right _ (by omega)
    have hnear := f.nearest_of_between (f.between_small h)
    rw [Nat.min_eq_left (Nat.le_trans (Nat.le_of_lt h) hinf)] at hnear
    rwa [if_pos h]
  · have hn : n ≠ 0 := by have := Nat.two_pow_pos (f.mb + 1); omega
    have hlog : f.mb + 1 ≤ Nat.log2 n := (Nat.le_log2 hn).2 h
    obtain ⟨k, hk⟩ := Nat.exists_eq_add_of_le (Nat.le_of_succ_le hlog)
    have hlo : 2 ^ f.mb * 2 ^ k ≤ n := by rw [← Nat.pow_add, ← hk]; exact Nat.log2_self_le hn
    have hhi : n < 2 ^ (f.mb + 1) * 2 ^ k := by
      rw [← Nat.pow_add, show f.mb + 1 + k = Nat.log2 n + 1 by omega]
      exact Nat.lt_log2_self
    have hsplit := f.between_scaled hmb (k := k) ((Nat.le_div_iff_mul_le (Nat.two_pow_pos k)).2 hlo)
      ((Nat.div_lt_iff_lt_mul (Nat.two_pow_pos k)).2 hhi) (Nat.mod_lt n (Nat.two_pow_pos k))
    rw [Nat.div_add_mod'] at hsplit
    rw [if_neg (Nat.not_lt.2 h), hk, Nat.add_sub_cancel_left]
    exact f.nearest_of_between hsplit

/-! ### Sums -/

theorem FFmt.inf_lt_top : f.inf < f.top := by
  rw [FFmt.inf, FFmt.top, Nat.pow_add]
  exact Nat.mul_lt_mul_of_pos_right (Nat.sub_lt (Nat.two_pow_pos _) Nat.one_pos) (Nat.two_pow_pos _)

theorem FFmt.isNan_false_of_mag {x : Nat} (h : f.mag x ≤ f.inf) : f.isNan x = false := by
  simpa [FFmt.isNan] using h

theorem FFmt.isInf_iff (x : Nat) : f.isInf x = true ↔ f.mag x = f.inf := by simp [FFmt.isInf]

theorem FFmt.isInf_false_of_mag {x : Nat} (h : f.mag x < f.inf) : f.isInf x = false := by
  simpa [FFmt.isInf] using Nat.ne_of_lt h

theorem FFmt.isNan_of_isInf {x : Nat} (h : f.isInf x = true) : f.isNan x = false :=
  f.isNan_false_of_mag (Nat.le_of_eq ((f.isInf_iff x).1 h))

/-- The sum of two finite patterns. -/
theorem FFmt.addPat_finite {x y : Nat} (hx : f.mag x < f.inf) (hy : f.mag y < f.inf) :
    f.addPat x y = if f.toInt x + f.toInt y = 0 then (if f.neg x && f.neg y then f.top else 0)
      else if f.toInt x + f.toInt y < 0 then f.top + f.round (f.toInt x + f.toInt y).natAbs
      else f.round (f.toInt x + f.toInt y).natAbs := by
  simp [FFmt.addPat, f.isNan_false_of_mag (Nat.le_of_lt hx), f.isNan_false_of_mag (Nat.le_of_lt hy), f.isInf_false_of_mag hx,
    f.isInf_false_of_mag hy]

/-- The sum of two patterns is what `FFmt.IsSum` asks of it (R222). -/
theorem FFmt.isSum_of_toNat (hmb : 1 ≤ f.mb) (heb : 2 ≤ f.eb) {x y : Nat} {z : W64} (hz : z.toNat = f.addPat x y) :
    f.IsSum x y z := by
  rw [FFmt.IsSum, hz]
  refine ⟨fun h => ?_, fun hx hy hne => ?_, fun hx hy hsame => ?_, fun hy hx hx' => ?_, fun hx hy => ?_⟩
  · simp [FFmt.addPat, h]
  · simp [FFmt.addPat, hx, hy, hne, f.isNan_of_isInf]
  · cases hinf : f.isInf y
    · simp [FFmt.addPat, hx, hy, hinf, f.isNan_of_isInf]
    · simp [FFmt.addPat, hx, hy, hsame hinf, f.isNan_of_isInf]
  · simp [FFmt.addPat, hx, hx', hy, f.isNan_of_isInf]
  · rw [f.addPat_finite hx hy]
    refine ⟨fun h0 => by simp [h0], fun h0 => ⟨_, f.nearest_round hmb heb _, by rw [if_neg h0]⟩⟩

/-- A sum is a pattern: it lies below twice the sign's weight. -/
theorem FFmt.addPat_lt (hmb : 1 ≤ f.mb) (heb : 2 ≤ f.eb) {x y : Nat} (hx : x < 2 * f.top) (hy : y < 2 * f.top) :
    f.addPat x y < 2 * f.top := by
  have hinf := f.inf_lt_top
  have hround : ∀ n, f.round n ≤ f.inf := fun n => (f.nearest_round hmb heb n).1
  have hnan : f.nan < 2 * f.top := by
    have : 2 ^ (f.mb - 1) ≤ f.top := Nat.pow_le_pow_right (by decide) (by omega)
    rw [FFmt.nan]; omega
  rw [FFmt.addPat]
  dsimp only
  have := hround (f.toInt x + f.toInt y).natAbs
  repeat' split
  all_goals omega

theorem FFmt.pat_lt (x : W64) : f.pat x < 2 * f.top := by
  rw [FFmt.pat, FFmt.top, ← Nat.pow_succ']
  exact Nat.mod_lt _ (Nat.two_pow_pos _)

/-- A number that is a pattern of a format of at most 64 bits stands in a word as it is. -/
theorem FFmt.toNat_ofNat_pattern (hw : f.eb + f.mb < 64) {n : Nat} (h : n < 2 * f.top) : (BitVec.ofNat 64 n).toNat = n := by
  have : 2 * f.top ≤ 2 ^ 64 := by rw [FFmt.top, ← Nat.pow_succ']; exact Nat.pow_le_pow_right (by decide) hw
  rw [BitVec.toNat_ofNat, Nat.mod_eq_of_lt (Nat.lt_of_lt_of_le h this)]

/-- FADD. -/
theorem isSum_fadd (hmb : 1 ≤ f.mb) (heb : 2 ≤ f.eb) (hw : f.eb + f.mb < 64) (x y : W64) :
    f.IsSum (f.pat x) (f.pat y) (fadd f x y) :=
  f.isSum_of_toNat hmb heb (f.toNat_ofNat_pattern hw (f.addPat_lt hmb heb (f.pat_lt x) (f.pat_lt y)))

/-- The sign changes by adding its weight mod the format's size. -/
theorem FFmt.flip_eq {x : Nat} (h : x < 2 * f.top) : f.flip x = (x + f.top) % (2 * f.top) := by
  rw [FFmt.flip]
  by_cases hx : f.top ≤ x
  · rw [if_pos (by simpa [FFmt.neg] using hx), show x + f.top = x - f.top + 2 * f.top by omega, Nat.add_mod_right,
      Nat.mod_eq_of_lt (by omega)]
  · rw [if_neg (by simpa [FFmt.neg] using hx), Nat.mod_eq_of_lt (by omega)]

/-- FSUB adds the second operand with its sign changed. -/
theorem isSum_fsub (hmb : 1 ≤ f.mb) (heb : 2 ≤ f.eb) (hw : f.eb + f.mb < 64) (x y : W64) :
    f.IsSum (f.pat x) ((f.pat y + f.top) % (2 * f.top)) (fsub f x y) := by
  have hy := Nat.mod_lt (f.pat y + f.top) (Nat.zero_lt_of_lt (f.pat_lt y))
  rw [← f.flip_eq (f.pat_lt y)] at hy ⊢
  exact f.isSum_of_toNat hmb heb (f.toNat_ofNat_pattern hw (f.addPat_lt hmb heb (f.pat_lt x) hy))

/-! ### Comparisons and keys -/

theorem ofB_spec {b : Bool} {P : Prop} (h : b = true ↔ P) : (P → ofB b = 1) ∧ (¬ P → ofB b = 0) :=
  ⟨fun hp => by rw [h.2 hp]; rfl, fun hp => by rw [Bool.eq_false_iff.2 (mt h.1 hp)]; rfl⟩

/-- The order of `FFmt.holds` is that of the comparison key. -/
theorem FFmt.signed_mag_eq_cmpKey (x : Nat) : (if f.neg x = true then -(f.mag x : Int) else f.mag x) = f.cmpKey x := rfl

/-- FCMP gives 1 when its predicate holds and 0 when not (R223). -/
theorem fcmp_spec (pred : Nat) (x y : W64) :
    (f.holds pred (f.pat x) (f.pat y) → fcmp f pred x y = 1) ∧ (¬ f.holds pred (f.pat x) (f.pat y) → fcmp f pred x y = 0) := by
  refine ofB_spec ?_
  rcases pred with _ | _ | _ | _ | _ <;> simp [FFmt.holds, f.signed_mag_eq_cmpKey]

/-- FKEY: the order key of a pattern (R224). -/
theorem toNat_fkeyOf (hw : f.eb + f.mb < 64) (x : W64) :
    (fkeyOf f x).toNat = if f.pat x < f.top then f.pat x + f.top else 2 * f.top - 1 - f.pat x := by
  have hp := f.pat_lt x
  rw [fkeyOf]
  by_cases h : f.pat x < f.top
  · simp only [FFmt.neg, Nat.not_le.2 h, h, decide_false, Bool.false_eq_true, if_false, if_true]
    exact f.toNat_ofNat_pattern hw (by omega)
  · simp only [FFmt.neg, Nat.not_lt.1 h, h, decide_true, if_true, if_false]
    exact f.toNat_ofNat_pattern hw (by omega)

end

/-! ### The two formats -/

theorem f64_pat (x : W64) : f64.pat x = x.toNat := Nat.mod_eq_of_lt x.isLt

theorem isSum_fsub_f32 (x y : W64) : f32.IsSum (x.toNat % 2 ^ 32) ((y.toNat + 2 ^ 31) % 2 ^ 32) (fsub f32 x y) := by
  have h := isSum_fsub f32 (by decide) (by decide) (by decide) x y
  rwa [show (f32.pat y + f32.top) % (2 * f32.top) = (y.toNat + 2 ^ 31) % 2 ^ 32 from Nat.mod_add_mod _ _ _] at h

theorem isSum_fadd_f64 (x y : W64) : f64.IsSum x.toNat y.toNat (fadd f64 x y) := by
  simpa only [f64_pat] using isSum_fadd f64 (by decide) (by decide) (by decide) x y

theorem isSum_fsub_f64 (x y : W64) : f64.IsSum x.toNat ((y.toNat + 2 ^ 63) % 2 ^ 64) (fsub f64 x y) := by
  have h := isSum_fsub f64 (by decide) (by decide) (by decide) x y
  rwa [f64_pat, f64_pat] at h

end Sys2Proof.Machine

section
open Sys2Proof.Machine

/-- Settles O23: `FFmt.round` gives the nearest pattern, so the sums are those of R222; comparisons and keys follow the
patterns. -/
theorem cellFloatingPoint : Obligations.CellFloatingPoint := fun _ _ _ w =>
  ⟨fun h => exec_runLane2 h rfl (isSum_fadd f32 (by decide) (by decide) (by decide)),
   fun h => exec_runLane2 h rfl isSum_fadd_f64,
   fun h => exec_runLane2 h rfl isSum_fsub_f32,
   fun h => exec_runLane2 h rfl isSum_fsub_f64,
   fun h _ => exec_runLane2 h rfl fun x y => by rw [iImm_low3]; exact fcmp_spec f32 _ x y,
   fun h _ => exec_runLane2 h rfl fun x y => by rw [iImm_low3, ← f64_pat x, ← f64_pat y]; exact fcmp_spec f64 _ x y,
   fun h => exec_runLane1 h rfl (toNat_fkeyOf f32 (by decide)),
   fun h => exec_runLane1 h rfl fun x => by rw [toNat_fkeyOf f64 (by decide), f64_pat]; rfl⟩

end

/-! # Cells: the tile store (O24)

LD, ST and UPD take the lanes in ascending order (R229). `bankUpto` is what `bankOp` has done after the lanes below `n`; each
fact of `bankOp` is an induction on `n`, whose step is the one lane that `bankStep` runs. -/

namespace Sys2Proof.Machine

section
variable {g : Nat} {p : Pass} {w : Nat} {needB store : Bool} {new : W64 → W64 → W64} {s : State}

/-! ### One lane -/

/-- What lane `i` of LD, ST or UPD does. -/
def bankStep (g : Nat) (p : Pass) (w : Nat) (store needB : Bool) (new : W64 → W64 → W64) (s : State) (i : Nat) : State × Lane :=
  bankLane g p w (!needB || ((srcB p w).get i).isSome) store (fun old => new old (laneVal ((srcB p w).get i)))
    ((srcA p w).get i) s

/-- Lane `i` is tested (R228): A is valid there, and B where it counts. -/
def Tested (p : Pass) (w : Nat) (needB : Bool) (i : Nat) : Prop :=
  (srcA p w).get i ≠ none ∧ (needB = true → (srcB p w).get i ≠ none)

/-- The test on B as `bankLane` makes it. -/
theorem bTested_iff (needB : Bool) (b : Lane) : (!needB || b.isSome) = true ↔ (needB = true → b ≠ none) := by
  cases needB <;> cases b <;> simp

/-- A lane accesses a word when it is tested and its address names one (R226, R228). -/
theorem wordOf_eq_some_iff {i a : Nat} :
    wordOf g p w needB i = some a ↔ ∃ x, (srcA p w).get i = some x ∧ (needB = true → (srcB p w).get i ≠ none) ∧
      bankOk (laneAddr w x) = true ∧ a = bankAddr g (laneAddr w x) := by
  rw [wordOf]
  cases hA : (srcA p w).get i with
  | none => simp
  | some x =>
    simp only [bankOk, laneAddr, bankAddr, Option.some.injEq, exists_eq_left', Bool.and_eq_true, beq_iff_eq]
    split <;> grind

/-- A lane that accesses a word finds the old one and, if the operation stores, leaves the new one. -/
theorem bankStep_of_word {i a : Nat} (h : wordOf g p w needB i = some a) (hp : store = true → p.task.poisoned = false) :
    bankStep g p w store needB new s i =
      (if store then wrWord s 0 a (new (rdWord s 0 a) (laneVal ((srcB p w).get i))) else s, some (rdWord s 0 a)) := by
  obtain ⟨x, hA, hB, hok, rfl⟩ := wordOf_eq_some_iff.1 h
  have hst : (store && p.task.poisoned) = false := by cases store <;> simp_all
  simp only [bankStep, bankLane, hA, (bTested_iff _ _).2 hB, hok, hst, Bool.not_true, Bool.false_eq_true, if_false]

/-- A lane that is not tested does nothing and gives null. -/
theorem bankStep_of_not_tested {i : Nat} (h : ¬ Tested p w needB i) : bankStep g p w store needB new s i = (s, none) := by
  rw [bankStep]
  cases hA : (srcA p w).get i with
  | none => rfl
  | some x =>
    have hB : (!needB || ((srcB p w).get i).isSome) = false := by
      rw [← Bool.not_eq_true, bTested_iff]
      exact fun hB => h ⟨by simp [hA], hB⟩
    simp only [bankLane, hB, Bool.not_false, if_true]

/-- A tested lane whose address names no word is at fault (R228). -/
theorem bankStep_of_fault {i : Nat} (ht : Tested p w needB i) (h : wordOf g p w needB i = none) :
    bankStep g p w store needB new s i = (tileFault s g p, none) := by
  obtain ⟨hA, hB⟩ := ht
  obtain ⟨x, hx⟩ := Option.ne_none_iff_exists'.1 hA
  have hok : bankOk (laneAddr w x) = false := by
    rw [← Bool.not_eq_true]
    intro hok
    rw [wordOf_eq_some_iff.2 ⟨x, hx, hB, hok, rfl⟩] at h
    exact Option.some_ne_none _ h
  simp only [bankStep, bankLane, hx, (bTested_iff _ _).2 hB, hok, Bool.not_true, Bool.not_false, Bool.false_eq_true,
    if_false, if_true]

/-- Every tested lane accesses a word: no address is at fault. -/
def Faultless (g : Nat) (p : Pass) (w : Nat) (needB : Bool) : Prop :=
  ∀ i, i < 8 → Tested p w needB i → wordOf g p w needB i ≠ none

/-- Without a fault a lane that accesses no word does nothing. -/
theorem bankStep_of_no_word {i : Nat} (hf : Faultless g p w needB) (hi : i < 8) (h : wordOf g p w needB i = none) :
    bankStep g p w store needB new s i = (s, none) :=
  bankStep_of_not_tested fun ht => hf i hi ht h

/-- Two words of a bank are one word or do not overlap (R228). -/
theorem wordOf_disjoint {i j a b : Nat} (ha : wordOf g p w needB i = some a) (hb : wordOf g p w needB j = some b)
    (hne : a ≠ b) : a + 8 ≤ b ∨ b + 8 ≤ a := by
  have aligned : ∀ {k c : Nat}, wordOf g p w needB k = some c → c % 8 = 0 := by
    intro k c hc
    obtain ⟨x, -, -, hok, rfl⟩ := wordOf_eq_some_iff.1 hc
    have := (Bool.and_eq_true_iff.1 hok).2
    rw [beq_iff_eq] at this
    rw [bankAddr]
    omega
  have := aligned ha
  have := aligned hb
  omega

/-! ### The lanes in ascending order -/

/-- What the lanes below `n` leave, and the words that they found. -/
def bankUpto (g : Nat) (p : Pass) (w : Nat) (store needB : Bool) (new : W64 → W64 → W64) (s : State) : Nat → State × List Lane
  | 0 => (s, [])
  | n + 1 =>
    let r := bankUpto g p w store needB new s n
    let x := bankStep g p w store needB new r.1 n
    (x.1, r.2 ++ [x.2])

theorem bankUpto_succ (n : Nat) :
    bankUpto g p w store needB new s (n + 1) =
      ((bankStep g p w store needB new (bankUpto g p w store needB new s n).1 n).1,
        (bankUpto g p w store needB new s n).2 ++ [(bankStep g p w store needB new (bankUpto g p w store needB new s n).1 n).2]) :=
  rfl

theorem bankOp_eq_bankUpto : bankOp g p w store needB new s = bankUpto g p w store needB new s 8 := by
  suffices h : ∀ n, (List.range n).foldl (fun acc i =>
      let x := bankStep g p w store needB new acc.1 i
      (x.1, acc.2 ++ [x.2])) (s, []) = bankUpto g p w store needB new s n from h 8
  intro n
  induction n with
  | zero => rfl
  | succ n ih => rw [List.range_succ, List.foldl_append, ih]; rfl

/-! ### LD -/

/-- Without a fault LD reads each word that a lane names, and changes nothing. -/
theorem bankUpto_load (hf : Faultless g p w false) {n : Nat} (hn : n ≤ 8) :
    bankUpto g p w false false new s n = (s, (List.range n).map fun i => (wordOf g p w false i).map (rdWord s 0)) := by
  induction n with
  | zero => rfl
  | succ n ih =>
    rw [bankUpto_succ, ih (by omega), List.range_succ, List.map_append]
    cases h : wordOf g p w false n with
    | none => simp [bankStep_of_no_word hf hn h, h]
    | some a => simp [bankStep_of_word h, h]

/-! ### ST and UPD -/

theorem wrMem_tstore (bs : Bytes) : ∀ (s : State) (a : Nat), wrMem s 0 a bs = { s with tstore := (wrMem s 0 a bs).tstore } := by
  induction bs with
  | nil => exact fun _ _ => rfl
  | cons b bs ih =>
    intro s a
    have hb : wrByte s 0 a b = { s with tstore := (wrByte s 0 a b).tstore } := by
      rw [wrByte]; split <;> rfl
    rw [wrMem, ih, hb]

/-- A word written to the tile stores changes nothing else. -/
theorem wrWord_tstore (s : State) (a : Nat) (x : W64) : wrWord s 0 a x = { s with tstore := (wrWord s 0 a x).tstore } :=
  wrMem_tstore _ _ _

theorem wrWord_regs (s : State) (a : Nat) (x : W64) : (wrWord s 0 a x).regs = s.regs := by rw [wrWord_tstore]

theorem wrWord_part (s : State) (a : Nat) (x : W64) : (wrWord s 0 a x).part = s.part := by rw [wrWord_tstore]

/-- A lane that names another word leaves this one. -/
theorem wordAfter_succ_ne {op : W64 → W64 → W64} {a n : Nat} (h : wordOf g p w true n ≠ some a) :
    wordAfter s g p w op a (n + 1) = wordAfter s g p w op a n := by
  simp [wordAfter, List.range_succ, List.filter_append, h]

/-- A lane that names a word works on what the lanes below it left there. -/
theorem wordAfter_succ_same {op : W64 → W64 → W64} {a n : Nat} (h : wordOf g p w true n = some a) :
    wordAfter s g p w op a (n + 1) = op (wordAfter s g p w op a n) (laneVal ((srcB p w).get n)) := by
  simp [wordAfter, List.range_succ, List.filter_append, List.foldl_append, h]

/-- What holds after the lanes below `n` of ST or UPD: `r` has changed in the tile stores only; each lane found what those below
it left; each accessed word holds what the lanes left, and every other byte is as before (R229). -/
structure StoredUpto (s : State) (g : Nat) (p : Pass) (w : Nat) (op : W64 → W64 → W64) (n : Nat) (r : State × List Lane) : Prop where
  frame : r.1 = { s with tstore := r.1.tstore }
  found : r.2 = (List.range n).map fun i => (wordOf g p w true i).map fun a => wordAfter s g p w op a i
  words : ∀ i a, i < 8 → wordOf g p w true i = some a → rdWord r.1 0 a = wordAfter s g p w op a n
  bytes : ∀ x, (∀ i a, i < 8 → wordOf g p w true i = some a → x < a ∨ a + 8 ≤ x) → rdByte r.1 0 x = rdByte s 0 x

/-- A lane that names no word keeps what holds. -/
theorem StoredUpto.skip {op : W64 → W64 → W64} {n : Nat} {r : State × List Lane} (h : StoredUpto s g p w op n r)
    (hw : wordOf g p w true n = none) : StoredUpto s g p w op (n + 1) (r.1, r.2 ++ [none]) where
  frame := h.frame
  found := by rw [List.range_succ, List.map_append, ← h.found, List.map_singleton, hw, Option.map_none]
  words i a hi ha := by rw [wordAfter_succ_ne (by rw [hw]; exact (Option.some_ne_none a).symm)]; exact h.words i a hi ha
  bytes := h.bytes

/-- A lane that names a word stores the new one there. -/
theorem StoredUpto.write {op : W64 → W64 → W64} {n a : Nat} {r : State × List Lane} (h : StoredUpto s g p w op n r)
    (hn : n < 8) (hw : wordOf g p w true n = some a) :
    StoredUpto s g p w op (n + 1)
      (wrWord r.1 0 a (op (rdWord r.1 0 a) (laneVal ((srcB p w).get n))), r.2 ++ [some (rdWord r.1 0 a)]) where
  frame := by rw [wrWord_tstore, h.frame]
  found := by rw [List.range_succ, List.map_append, ← h.found, List.map_singleton, hw, Option.map_some, h.words n a hn hw]
  words i b hi hb := by
    by_cases hba : b = a
    · subst hba
      rw [rdWord_wrWord_same _ _ _ _ (by decide), wordAfter_succ_same hw, h.words n b hn hw]
    · rw [rdWord_wrWord_ne _ _ _ _ _ (by decide) (wordOf_disjoint hb hw hba),
        wordAfter_succ_ne (by rw [hw]; exact fun e => hba (Option.some.inj e).symm)]
      exact h.words i b hi hb
  bytes x hx := by
    rw [rdByte_wrWord _ _ _ _ _ (by decide) (hx n a hn hw)]
    exact h.bytes x hx

/-- ST and UPD without a fault, in a task that is not poisoned. -/
theorem storedUpto_bankUpto {op : W64 → W64 → W64} (hf : Faultless g p w true) (hp : p.task.poisoned = false) {n : Nat} (hn : n ≤ 8) :
    StoredUpto s g p w op n (bankUpto g p w true true op s n) := by
  induction n with
  | zero => exact ⟨rfl, rfl, fun _ _ _ _ => rfl, fun _ _ => rfl⟩
  | succ n ih =>
    rw [bankUpto_succ]
    cases h : wordOf g p w true n with
    | none => rw [bankStep_of_no_word hf hn h]; exact (ih (by omega)).skip h
    | some a =>
      have hwrite := (ih (by omega)).write hn h
      simpa only [bankStep_of_word h (fun _ => hp), if_true] using hwrite

/-! ### Faults -/

/-- The event of a tile store address at fault in the die of cell `g`. -/
def TileAddrSet (g : Nat) (s : State) : Prop := isSet s F.FAB_EVENT_TILE_ADDR (dieO (g / 4096)) = true

theorem TileAddrSet.of_regs {t : State} (h : TileAddrSet g s) (hp : t.part = s.part) (hr : t.regs = s.regs) : TileAddrSet g t :=
  (isSet_of_regs hp hr _ _).trans h

/-- A fault raises TILE_ADDR; the mark of the context that follows writes the error log only. -/
theorem tileAddrSet_tileFault (hg : g < 32768) : TileAddrSet g (tileFault s g p) := by
  have hkey : ¬ logKey (fkey F.FAB_EVENT_TILE_ADDR (dieO (g / 4096))) := by
    simp only [logKey, fkey, F.FAB_EVENT_TILE_ADDR, dieO]
    omega
  have hset := fun u => isSet_raise u F.FAB_EVENT_TILE_ADDR (dieO (g / 4096)) (by decide)
  have hmark := fun u : State => (regsOnly_markFail (t := p.task.key.trav) (c := p.task.key.ctx) (st := stError) (r := 0x0602)
    (RegsOnly.refl logKey u)).getF (markFail_part u _ _ _ _) _ _ hkey
  rw [TileAddrSet, tileFault, isSet, hmark]
  exact hset _

/-- All that one lane can do to the state: nothing, a fault, or one word written. -/
theorem bankStep_state (i : Nat) :
    (bankStep g p w store needB new s i).1 = s ∨ (bankStep g p w store needB new s i).1 = tileFault s g p ∨
      ∃ a x, (bankStep g p w store needB new s i).1 = wrWord s 0 a x := by
  rw [bankStep]
  cases (srcA p w).get i with
  | none => exact Or.inl rfl
  | some x =>
    simp only [bankLane]
    split
    · exact Or.inl rfl
    · split
      · exact Or.inr (Or.inl rfl)
      · split
        · exact Or.inl rfl
        · cases store
          · exact Or.inl rfl
          · simp only [if_true]
            exact Or.inr (Or.inr ⟨_, _, rfl⟩)

/-- A lane clears no event. -/
theorem TileAddrSet.bankStep (hg : g < 32768) (h : TileAddrSet g s) (i : Nat) :
    TileAddrSet g (bankStep g p w store needB new s i).1 := by
  rcases bankStep_state (needB := needB) (store := store) (new := new) (s := s) i with e | e | ⟨a, x, e⟩
  · rwa [e]
  · rw [e]; exact tileAddrSet_tileFault hg
  · rw [e]; exact h.of_regs (wrWord_part s a x) (wrWord_regs s a x)

/-- A tested lane below `n` whose address names no word has raised TILE_ADDR (R228). -/
theorem tileAddrSet_bankUpto (hg : g < 32768) {i : Nat} (ht : Tested p w needB i) (hw : wordOf g p w needB i = none) {n : Nat}
    (hin : i < n) : TileAddrSet g (bankUpto g p w store needB new s n).1 := by
  induction n with
  | zero => omega
  | succ n ih =>
    rw [bankUpto_succ]
    rcases Nat.lt_or_eq_of_le (Nat.le_of_lt_succ hin) with h | rfl
    · exact (ih h).bankStep hg n
    · simp only [bankStep_of_fault ht hw]
      exact tileAddrSet_tileFault hg

end

/-! ### The instructions -/

section
variable {s : State} {g op : Nat} {p : Pass} {w : Nat}

/-- Going on leaves every byte of the tile stores. -/
theorem rdByte_advance (s : State) (g : Nat) (p : Pass) (w : Nat) (d : Option Lanes) (x : Nat) :
    rdByte (advance s g p w d) 0 x = rdByte s 0 x := by
  obtain ⟨ps, h⟩ := advance_eq s g p w d
  rw [h]; rfl

theorem rdWord_advance (s : State) (g : Nat) (p : Pass) (w : Nat) (d : Option Lanes) (a : Nat) :
    rdWord (advance s g p w d) 0 a = rdWord s 0 a := by
  rw [rdWord, rdMem_congr _ _ _ _ _ fun x _ _ => rdByte_advance s g p w d x]; rfl

/-- Going on leaves the events. -/
theorem TileAddrSet.advance (h : TileAddrSet g s) (d : Option Lanes) : TileAddrSet g (advance s g p w d) := by
  obtain ⟨ps, e⟩ := advance_eq s g p w d
  rw [e]; exact h.of_regs rfl rfl

/-- The lanes of a list made lane by lane. -/
theorem Lanes.get_ofList_map_range (f : Nat → Lane) {i : Nat} (hi : i < 8) :
    (Lanes.ofList ((List.range 8).map f)).get i = f i := by
  rw [Lanes.get_ofList _ hi, List.getD_eq_getElem?_getD, List.getElem?_map, List.getElem?_range hi]; rfl

theorem execLd_eq (h : Runs s g 0x70 p w) :
    exec (.ld g) s = .next (advance (bankOp g p w false false (fun o _ => o) s).1 g p w
      (some (Lanes.ofList (bankOp g p w false false (fun o _ => o) s).2))) :=
  congrArg _ (runInstr_of_runs h _)

theorem execSt_eq (h : Runs s g 0x71 p w) :
    exec (.st g) s = .next (advance (bankOp g p w true true (fun _ b => b) s).1 g p w none) :=
  congrArg _ (runInstr_of_runs h _)

theorem execUpd_eq (h : Runs s g 0x72 p w) :
    exec (.upd g) s = .next (advance (bankOp g p w true true (updOp (iC w)) s).1 g p w
      (some (Lanes.ofList (bankOp g p w true true (updOp (iC w)) s).2))) :=
  congrArg _ (runInstr_of_runs h _)

/-- LD without a fault. -/
theorem execLd_loads (h : Runs s g 0x70 p w) (hf : Faultless g p w false) :
    ∃ t d, exec (.ld g) s = .next t ∧ PassedOn s t g p w (some d) ∧
      ∀ i, i < 8 → d.get i = (wordOf g p w false i).map (rdWord s 0) := by
  have hload := execLd_eq h
  rw [bankOp_eq_bankUpto, bankUpto_load hf (Nat.le_refl 8)] at hload
  dsimp only at hload
  exact ⟨_, _, hload, passedOn_advance s g p w _, fun i hi => Lanes.get_ofList_map_range _ hi⟩

/-- What ST and UPD leave without a fault, whatever they write to D. -/
theorem StoredUpto.advance {f : W64 → W64 → W64} {r : State × List Lane} (h : StoredUpto s g p w f 8 r) (d : Option Lanes) :
    r.1 = { s with tstore := r.1.tstore } ∧ PassedOn r.1 (advance r.1 g p w d) g p w d ∧
      (∀ i a, i < 8 → wordOf g p w true i = some a → rdWord (advance r.1 g p w d) 0 a = wordAfter s g p w f a 8) ∧
      ∀ x, (∀ i a, i < 8 → wordOf g p w true i = some a → x < a ∨ a + 8 ≤ x) →
        rdByte (advance r.1 g p w d) 0 x = rdByte s 0 x :=
  ⟨h.frame, passedOn_advance _ g p w d, fun i a hi ha => (rdWord_advance ..).trans (h.words i a hi ha),
    fun x hx => (rdByte_advance ..).trans (h.bytes x hx)⟩

/-- ST and UPD without a fault leave in each word what the lanes leave there, one after the other. -/
theorem storedUpto_bankOp {f : W64 → W64 → W64} (hf : Faultless g p w true) (hp : p.task.poisoned = false) :
    StoredUpto s g p w f 8 (bankOp g p w true true f s) :=
  bankOp_eq_bankUpto ▸ storedUpto_bankUpto hf hp (Nat.le_refl 8)

/-- A pass that goes on after the lanes of the bank has TILE_ADDR set when a tested lane was at fault. -/
theorem tileAddrSet_bankOp {store needB : Bool} {new : W64 → W64 → W64} (hg : g < 32768) {i : Nat} (hi : i < 8)
    (ht : Tested p w needB i) (hw : wordOf g p w needB i = none) (d : Option Lanes) :
    TileAddrSet g (advance (bankOp g p w store needB new s).1 g p w d) := by
  rw [bankOp_eq_bankUpto]
  exact (tileAddrSet_bankUpto hg ht hw hi).advance d

end

end Sys2Proof.Machine

section
open Sys2Proof.Machine

/-- Settles O24: `bankUpto` follows the lanes in ascending order, and a fault of any of them leaves TILE_ADDR set. -/
theorem cellTileStore : Obligations.CellTileStore := by
  intro s g p w
  refine ⟨fun h hf => execLd_loads h fun i hi ht => hf i hi ht.1, fun h hp hf => ?_, fun h hp hf => ?_, ?_⟩
  · have hst := storedUpto_bankOp (s := s) (f := fun _ b => b) (fun i hi ht => hf i hi ht.1 (ht.2 rfl)) hp
    exact ⟨_, _, execSt_eq h, hst.advance none⟩
  · have hst := storedUpto_bankOp (s := s) (f := updOp (iC w)) (fun i hi ht => hf i hi ht.1 (ht.2 rfl)) hp
    obtain ⟨hframe, hpass, hmem⟩ := hst.advance (some (Lanes.ofList (bankOp g p w true true (updOp (iC w)) s).2))
    exact ⟨_, _, _, execUpd_eq h, hframe, hpass, fun i hi => by rw [hst.found, Lanes.get_ofList_map_range _ hi], hmem⟩
  · rintro c op i x (⟨rfl, rfl⟩ | ⟨rfl, rfl⟩ | ⟨rfl, rfl⟩) h hi hA hB hw
    · exact ⟨_, execLd_eq h, tileAddrSet_bankOp h.1 hi ⟨by simp [hA], by simp⟩ hw _⟩
    · exact ⟨_, execSt_eq h, tileAddrSet_bankOp h.1 hi ⟨by simp [hA], fun _ => hB.resolve_left (by decide)⟩ hw _⟩
    · exact ⟨_, execUpd_eq h, tileAddrSet_bankOp h.1 hi ⟨by simp [hA], fun _ => hB.resolve_left (by decide)⟩ hw _⟩

end

/-! # Register accesses (O60)

SUPPORT. A write of CLK_EVENT leaves a bit that rises in the same CTL cycle as it stands (R19), so what such a field holds is not cut
to its width by the write. -/

namespace Sys2Proof.Machine

/-- The reset state, but CLK_EVENT.REF_UNSTABLE, a field of one bit, is listed with the value 2 and rises in this CTL cycle. -/
def wideRefUnstable : State :=
  { State.reset with
    regs := [(fkey F.CLK_EVENT_REF_UNSTABLE 0, 2)]
    rings := { State.reset.rings with rose := [fkey F.CLK_EVENT_REF_UNSTABLE 0], roseAt := 0 } }

theorem answers_wideRefUnstable : Answers wideRefUnstable 0 := ⟨by decide, by decide, by decide, by decide +kernel⟩

theorem wf_wideRefUnstable : wideRefUnstable.wf = true := by decide

/-- The model's result of writing 1 to EDGE_UP alone: REF_UNSTABLE, which rises now, keeps its 2. -/
theorem getF_registerWrite_wideRefUnstable :
    getF (registerWrite wideRefUnstable 0 0x40020 8 0x10) F.CLK_EVENT_REF_UNSTABLE 0 = 2 := by decide +kernel

end Sys2Proof.Machine

section
open Sys2Proof.Machine

/-- Refutes O60 at its clause on CLK_EVENT, which says that a write of 1 to EDGE_UP cuts each other field to one bit. A field that
rises in the same CTL cycle is not written (R19), so in `wideRefUnstable` REF_UNSTABLE stays 2, and 2 is not 2 % 2. The state meets
`State.wf` (`wf_wideRefUnstable`), which bounds no field's value; a value that fits its field is its own remainder, so
it takes an over-wide one to tell the two apart. -/
theorem not_registersAreReadAndWritten : ¬ Obligations.RegistersAreReadAndWritten := by
  rintro ⟨-, -, -, hevent, -⟩
  obtain ⟨t, ht, -, -, hothers, -⟩ := hevent wideRefUnstable 0 answers_wideRefUnstable
  obtain rfl : registerWrite wideRefUnstable 0 0x40020 8 0x10 = t := Host.Outcome.next.inj ht
  have hcut := hothers F.CLK_EVENT_REF_UNSTABLE List.mem_cons_self
  have hheld : getF wideRefUnstable F.CLK_EVENT_REF_UNSTABLE 0 = 2 := by decide
  rw [getF_registerWrite_wideRefUnstable, hheld] at hcut
  exact absurd hcut (by decide)

end

/-! # Debug unlock (O58)

Each operation of R581 to R583 ends with a recomputed M_POLICY, whose registers lie above every field of the debug unlock; so
what the operation wrote before still stands at its end. -/

namespace Sys2Proof.Machine

/-! ### Measurements -/

/-- A digest shown in four registers leaves every field below them. -/
theorem getF_setDigest {f g : Fld} {o p : Nat} (h : fkey g p < fkey f o) (s : State) (d : Bytes) :
    getF (setDigest s f o d) g p = getF s g p :=
  foldl_keeps (getF · g p) (fun t w => getF_setF_ne t _ _ _ _ _ (by unfold fkey at *; omega)) _ _

@[simp] theorem setDigest_sec (s : State) (f : Fld) (o : Nat) (d : Bytes) : (setDigest s f o d).sec = s.sec :=
  foldl_keeps (·.sec) (fun _ _ => setF_sec _ _ _ _) _ _

/-- M_POLICY recomputed leaves every field below its digest (R573). -/
theorem getF_refreshPolicy {g : Fld} {p : Nat} (h : fkey g p < fkey F.SEC_MEAS_DIGEST 0x40) (s : State) :
    getF (refreshPolicy s) g p = getF s g p := getF_setDigest h _ _

theorem isSet_refreshPolicy {g : Fld} {p : Nat} (h : fkey g p < fkey F.SEC_MEAS_DIGEST 0x40) (s : State) :
    isSet (refreshPolicy s) g p = isSet s g p := by rw [isSet, getF_refreshPolicy h, isSet]

@[simp] theorem refreshPolicy_sec (s : State) : (refreshPolicy s).sec = s.sec := setDigest_sec _ _ _ _

/-! ### Challenge and submission -/

/-- A fresh nonce is drawn into the four registers of SEC_DBG_CHAL (R582). -/
def drawNonce (s : State) : State :=
  (List.range 4).foldl (fun s w => setF (fresh s 64).2 F.SEC_DBG_CHAL_NONCE (w * 8) (fresh s 64).1) s

theorem getF_drawNonce {g : Fld} {p : Nat} (h : fkey g p < fkey F.SEC_DBG_CHAL_NONCE 0) (s : State) :
    getF (drawNonce s) g p = getF s g p :=
  foldl_keeps (getF · g p)
    (fun t w => (getF_setF_ne _ _ _ _ _ _ (by unfold fkey at *; omega)).trans (getF_fresh t 64 g p)) _ _

@[simp] theorem drawNonce_sec (s : State) : (drawNonce s).sec = s.sec :=
  foldl_keeps (·.sec) (fun _ _ => by rw [setF_sec, fresh_sec]) _ _

theorem challenge_of_lt {s : State} (h : dbgState s < 2) :
    challenge s = refreshPolicy (setF (modSec (drawNonce s) fun c => { c with nonce := true }) F.SEC_DBG_STAT_STATE 0 1) :=
  if_neg (Nat.not_le.2 h)

theorem challenge_of_le {s : State} (h : 2 ≤ dbgState s) : challenge s = s := if_pos h

/-- CHALLENGE in IDLE or CHALLENGED leaves a nonce, in CHALLENGED. -/
theorem challenge_challenges {s : State} (h : dbgState s < 2) :
    dbgState (challenge s) = 1 ∧ (challenge s).sec.nonce = true ∧
      getF (challenge s) F.SEC_DBG_STAT_GRANTED 0 = getF s F.SEC_DBG_STAT_GRANTED 0 := by
  rw [challenge_of_lt h]
  refine ⟨?_, by simp, ?_⟩
  · rw [dbgState, getF_refreshPolicy (by decide), getF_setF_same]; rfl
  · rw [getF_refreshPolicy (by decide), getF_setF_ne _ _ _ _ _ _ (by decide), getF_modSec, getF_drawNonce (by decide)]

theorem submit_of_le {s : State} (h : 2 ≤ dbgState s) : submit s = s := if_pos h

theorem submit_of_no_nonce {s : State} (h : dbgState s < 2) (hn : s.sec.nonce = false) :
    submit s = dbgFail s rsnNoChallenge :=
  (if_neg (Nat.not_le.2 h)).trans (if_pos hn)

/-- The response that SUBMIT takes: the key, the signature and LEVEL (R582). -/
def takenResp (s : State) : DbgResp :=
  ⟨window s.sec.resp 0 1312, window s.sec.resp 0x520 sigLen, getF s F.SEC_DBG_CTL_LEVEL 0⟩

theorem submit_of_nonce {s : State} (h : dbgState s < 2) (hn : s.sec.nonce = true) :
    submit s = refreshPolicy (setF (modSec s fun c => { c with nonce := false, sub := some (takenResp s) })
      F.SEC_DBG_STAT_STATE 0 2) :=
  (if_neg (Nat.not_le.2 h)).trans (if_neg (by rw [hn]; decide))

/-- SUBMIT with a nonce uses it up and has the response verified, in VERIFYING. -/
theorem submit_verifies {s : State} (h : dbgState s < 2) (hn : s.sec.nonce = true) :
    dbgState (submit s) = 2 ∧ (submit s).sec.nonce = false ∧ (submit s).sec.sub = some (takenResp s) := by
  rw [submit_of_nonce h hn]
  refine ⟨?_, by simp, by simp⟩
  rw [dbgState, getF_refreshPolicy (by decide), getF_setF_same]; rfl

/-! ### Denial and grant -/

theorem dbgFail_sec (s : State) (reason : Nat) : (dbgFail s reason).sec = { s.sec with nonce := false, sub := none } := by
  simp [dbgFail]

/-- FAILS stops at 3. -/
theorem getF_dbgFail_fails (s : State) (reason : Nat) :
    getF (dbgFail s reason) F.SEC_DBG_STAT_FAILS 0 = min 3 (getF s F.SEC_DBG_STAT_FAILS 0 + 1) := by
  simp (disch := decide) only [dbgFail, getF_refreshPolicy, getF_raise_ne, getF_setF_ne, getF_setF_same, getF_modSec]
  exact Nat.mod_eq_of_lt (show min 3 _ < 4 by omega)

/-- The third failure locks the unlock. -/
theorem dbgState_dbgFail (s : State) (reason : Nat) :
    dbgState (dbgFail s reason) = if 2 ≤ getF s F.SEC_DBG_STAT_FAILS 0 then 3 else 0 := by
  have hthird : min 3 (getF s F.SEC_DBG_STAT_FAILS 0 + 1) = 3 ↔ 2 ≤ getF s F.SEC_DBG_STAT_FAILS 0 := by omega
  simp (disch := decide) only [dbgState, dbgFail, getF_refreshPolicy, getF_raise_ne, getF_setF_ne, getF_setF_same, getF_modSec,
    hthird]
  split <;> rfl

/-- `dbgFail` is the denial of R583. -/
theorem denied_dbgFail (s : State) {reason : Nat} (h : reason < 2 ^ 16) : Denied s (dbgFail s reason) reason := by
  refine ⟨by rw [dbgFail_sec], ?_, ?_, getF_dbgFail_fails s reason, dbgState_dbgFail s reason, ?_, ?_⟩
  · simp (disch := decide) only [dbgFail, getF_refreshPolicy, getF_raise_ne, getF_setF_same]
    exact Nat.mod_eq_of_lt h
  · simp (disch := decide) only [dbgFail, getF_refreshPolicy, getF_raise_ne, getF_setF_ne, getF_setF_same]
    rfl
  · rw [dbgFail, isSet_refreshPolicy (by decide), isSet_raise _ _ _ (by decide)]
  · simp (disch := decide) only [dbgFail, getF_refreshPolicy, getF_raise_ne, getF_setF_ne, getF_modSec]

/-- The end of a report request leaves every field above SEC_ATTEST but its event. -/
theorem getF_attestEnds {g : Fld} {p : Nat} (h : fkey F.SEC_ATTEST_REASON 0 < fkey g p)
    (he : fkey g p ≠ fkey F.SEC_EVENT_ATTEST_DONE 0) (s : State) (status reason : Nat) :
    getF (attestEnds s status reason) g p = getF s g p := by
  have hstatus : fkey F.SEC_ATTEST_STATUS 0 < fkey F.SEC_ATTEST_REASON 0 := by decide
  have hbusy : fkey F.SEC_ATTEST_BUSY 0 < fkey F.SEC_ATTEST_STATUS 0 := by decide
  rw [attestEnds, getF_raise_ne _ _ _ _ _ he, getF_setF_ne _ _ _ _ _ _ (by omega), getF_setF_ne _ _ _ _ _ _ (by omega),
    getF_setF_ne _ _ _ _ _ _ (by omega), getF_modSec]

theorem attestEnds_sub (s : State) (status reason : Nat) : (attestEnds s status reason).sec.sub = s.sec.sub := by
  simp [attestEnds]

/-- What a grant has written before its event is logged and a report request ends. -/
def granted (s : State) (level : Nat) : State :=
  raise (setF (setF (setF (maxF (modSec s fun c => { c with sub := none }) F.SEC_DBG_STAT_GRANTED 0 level)
    F.SEC_DBG_STAT_STATE 0 0) F.SEC_DBG_STAT_STATUS 0 stOk) F.SEC_DBG_STAT_REASON 0 0) F.SEC_EVENT_DEBUG_UNLOCKED 0


theorem dbgGrant_eq (s : State) (level : Nat) :
    dbgGrant s level = refreshPolicy (if level = 2 ∧ (granted s level).sec.body.isSome = true then
      attestEnds (logC (granted s level) dieBrim rsnUnlocked fnNone 0 0) stRejected rsnDebugActive
      else logC (granted s level) dieBrim rsnUnlocked fnNone 0 0) := by
  rw [← logC_sec (granted s level) dieBrim rsnUnlocked fnNone 0 0]; rfl

/-- The entry in the log and the end of a report request leave the fields of the debug unlock. -/
theorem getF_dbgGrant {g : Fld} {p : Nat} (hlow : fkey F.SEC_ATTEST_REASON 0 < fkey g p)
    (hhigh : fkey g p < fkey F.SEC_MEAS_DIGEST 0x40) (he : fkey g p ≠ fkey F.SEC_EVENT_ATTEST_DONE 0) (s : State) (level : Nat) :
    getF (dbgGrant s level) g p = getF (granted s level) g p := by
  have hlog : ¬ logKey (fkey g p) := by
    have hfirst : 0x60000 * 64 < fkey F.SEC_ATTEST_REASON 0 := by decide
    have hlast : fkey F.SEC_MEAS_DIGEST 0x40 < 0x100000000 * 64 := by decide
    unfold logKey
    omega
  rw [dbgGrant_eq, getF_refreshPolicy hhigh]
  split
  · rw [getF_attestEnds hlow he, getF_logC _ _ _ _ _ _ _ _ hlog]
  · rw [getF_logC _ _ _ _ _ _ _ _ hlog]

/-- A grant ends the verification, whether or not a report request ends with it. -/
theorem dbgGrant_sub (s : State) (level : Nat) : (dbgGrant s level).sec.sub = none := by
  have hsub : (granted s level).sec.sub = none := by simp [granted]
  rw [dbgGrant_eq, refreshPolicy_sec]
  split
  · rw [attestEnds_sub, logC_sec, hsub]
  · rw [logC_sec, hsub]

/-- The granted level only rises (R581). -/
theorem getF_dbgGrant_granted {s : State} {level : Nat} (hs : getF s F.SEC_DBG_STAT_GRANTED 0 ≤ 2) (hl : level ≤ 2) :
    getF (dbgGrant s level) F.SEC_DBG_STAT_GRANTED 0 = max (getF s F.SEC_DBG_STAT_GRANTED 0) level := by
  rw [getF_dbgGrant (by decide) (by decide) (by decide)]
  simp (disch := decide) only [granted, maxF, getF_raise_ne, getF_setF_ne, getF_setF_same, getF_modSec]
  exact Nat.mod_eq_of_lt (show max _ _ < 4 by omega)

theorem dbgState_dbgGrant (s : State) (level : Nat) : dbgState (dbgGrant s level) = 0 := by
  rw [dbgState, getF_dbgGrant (by decide) (by decide) (by decide)]
  simp (disch := decide) only [granted, getF_raise_ne, getF_setF_ne, getF_setF_same]
  rfl

theorem isSet_dbgGrant_unlocked (s : State) (level : Nat) : isSet (dbgGrant s level) F.SEC_EVENT_DEBUG_UNLOCKED 0 = true := by
  rw [isSet, getF_dbgGrant (by decide) (by decide) (by decide)]
  exact isSet_raise _ _ _ (by decide)

/-! ### Verification -/

section
variable {s : State} {r : DbgResp}

/-- The two failures of a verification, and the grant (R582, R583). -/
theorem debugVerifyDone_of_sub (hr : s.sec.sub = some r) :
    debugVerifyDone s =
      if sha3 r.key ≠ Config.debugKeyDigest then dbgFail s rsnDebugKey
      else if Config.mldsaVerify r.key (dbgMessage s r.level) r.sig = false ∨ r.level = 0 ∨ 2 < r.level then dbgFail s rsnDebugSig
      else dbgGrant s r.level := by
  simp only [debugVerifyDone, hr]

/-- No response is under verification after its verification. -/
theorem debugVerifyDone_sub (hr : s.sec.sub = some r) : (debugVerifyDone s).sec.sub = none := by
  rw [debugVerifyDone_of_sub hr]
  split
  · rw [dbgFail_sec]
  · split
    · rw [dbgFail_sec]
    · exact dbgGrant_sub s r.level

theorem debugVerifyDone_of_wrong_key (hr : s.sec.sub = some r) (hk : sha3 r.key ≠ Config.debugKeyDigest) :
    debugVerifyDone s = dbgFail s rsnDebugKey := by
  rw [debugVerifyDone_of_sub hr, if_pos hk]

theorem debugVerifyDone_of_wrong_sig (hr : s.sec.sub = some r) (hk : sha3 r.key = Config.debugKeyDigest)
    (hsig : Config.mldsaVerify r.key (dbgMessage s r.level) r.sig = false) : debugVerifyDone s = dbgFail s rsnDebugSig := by
  rw [debugVerifyDone_of_sub hr, if_neg (not_not_intro hk), if_pos (.inl hsig)]

theorem debugVerifyDone_of_good (hr : s.sec.sub = some r) (hk : sha3 r.key = Config.debugKeyDigest)
    (hsig : Config.mldsaVerify r.key (dbgMessage s r.level) r.sig = true) (hl : r.level = 1 ∨ r.level = 2) :
    debugVerifyDone s = dbgGrant s r.level := by
  have hgood : ¬ (Config.mldsaVerify r.key (dbgMessage s r.level) r.sig = false ∨ r.level = 0 ∨ 2 < r.level) := by
    rw [hsig]
    rintro (h | h)
    · exact Bool.noConfusion h
    · omega
  rw [debugVerifyDone_of_sub hr, if_neg (not_not_intro hk), if_neg hgood]

end

/-! ### Cold reset -/

/-- Keys outside SEC_DBG_STAT. -/
abbrev offDbgStat (k : Nat) : Prop := k / 64 ≠ F.SEC_DBG_STAT_STATE.base

section
variable {z s : State}

theorem regsOnly_showLife (h : RegsOnly offDbgStat z s) : RegsOnly offDbgStat z (showLife s) :=
  regsOnly_setF (regsOnly_setF (regsOnly_setF (regsOnly_setF (regsOnly_setF h (by decide)) (by decide)) (by decide))
    (by decide)) (by decide)

theorem regsOnly_showFuses (h : RegsOnly offDbgStat z s) : RegsOnly offDbgStat z (showFuses s) :=
  regsOnly_setF (regsOnly_setF h (by decide)) (by decide)

theorem regsOnly_refreshAlert (h : RegsOnly offDbgStat z s) : RegsOnly offDbgStat z (refreshAlert s) :=
  regsOnly_ite h (regsOnly_eq (regsOnly_setF h (by decide)) (emitOut_regs _ _))

theorem offDbgStat_feedFld (f : Nat) : offDbgStat (fkey (feedFld f) 0) := by
  unfold feedFld; split <;> decide

end

@[simp] theorem mkUndef_regs (s : State) (m lo hi : Nat) : (mkUndef s m lo hi).regs = s.regs := setCells_regs _ _ _

@[simp] theorem pkgReady_regs (s : State) (on : Bool) : (pkgReady s on).regs = s.regs := by
  unfold pkgReady; split <;> rfl

/-- What a cold reset leaves lists nothing of SEC_DBG_STAT (R558). -/
theorem regsOnly_coldState (s : State) : RegsOnly offDbgStat State.reset (coldState s) := by
  unfold coldState
  extract_lets p sec pwr k1 k2 pins feeds
  have hpins : RegsOnly offDbgStat State.reset pins :=
    List.foldlRecOn _ _ (.refl _ _) fun t ht f hf => regsOnly_setF ht (by revert f; decide)
  have hfeeds : RegsOnly offDbgStat State.reset feeds :=
    regsOnly_foldl _ (regsOnly_showFuses (regsOnly_showLife hpins)) fun t f ht => regsOnly_setF ht (offDbgStat_feedFld f)
  have hmem : RegsOnly offDbgStat State.reset ([0, 1, 2].foldl (fun k m => mkUndef k m 0 (memTop m)) feeds) :=
    regsOnly_foldl _ hfeeds fun t m ht => regsOnly_eq ht (mkUndef_regs t m 0 (memTop m))
  exact regsOnly_eq (regsOnly_refreshAlert hmem) (pkgReady_regs _ _)

/-- A cold reset lists nothing of SEC_DBG_STAT (R555, R558). -/
theorem regsOnly_coldReset (s : State) : RegsOnly offDbgStat State.reset (coldReset s) := by
  unfold coldReset
  extract_lets pin cold counted x straps
  have hcold : RegsOnly offDbgStat State.reset cold := regsOnly_coldState s
  have hcounted : RegsOnly offDbgStat State.reset counted :=
    regsOnly_ite hcold (regsOnly_showLife (regsOnly_eq hcold (modPwr_regs _ _)))
  have hstraps : RegsOnly offDbgStat State.reset straps :=
    regsOnly_setF (regsOnly_setF (regsOnly_setF hcounted (by decide)) (by decide)) (by decide)
  exact regsOnly_setF hstraps (by decide)

/-- A field of SEC_DBG_STAT that resets to zero reads zero after a cold reset. -/
theorem getF_coldReset_dbgStat (s : State) (f : Fld) (hf : f.rst = .const 0) (hk : ¬ offDbgStat (fkey f 0)) :
    getF (coldReset s) f 0 = 0 := by
  have hunlisted : Tbl.get? (fkey f 0) (coldReset s).regs = none := regsOnly_coldReset s _ hk
  rw [getF, Tbl.getD, hunlisted, hf]
  exact Nat.zero_mod _

end Sys2Proof.Machine

section
open Sys2Proof.Machine

/-- Settles O58: CHALLENGE and SUBMIT by the state of the unlock, `dbgFail` as the denial of R583, and a cold reset that lists
nothing of SEC_DBG_STAT. That VERIFYING ignores both commands, as LOCKOUT does, is the model's choice (log entry 39). -/
theorem debugUnlocks : Obligations.DebugUnlocks := by
  refine ⟨fun s h => ⟨_, rfl, challenge_challenges h⟩, fun s h hn => ?_, fun s h hn => ?_, ?_, fun s => ?_, fun s r hr hs => ?_⟩
  · obtain ⟨hstate, hnonce, hsub⟩ := submit_verifies h hn
    exact ⟨_, takenResp s, rfl, hstate, hnonce, hsub, rfl⟩
  · refine ⟨_, rfl, ?_⟩
    rw [submit_of_no_nonce h hn]
    exact denied_dbgFail s (by decide)
  · rintro s c (rfl | rfl) h
    · exact congrArg _ (challenge_of_le h)
    · exact congrArg _ (submit_of_le h)
  · exact ⟨_, rfl, getF_coldReset_dbgStat s F.SEC_DBG_STAT_STATE rfl (by decide),
      getF_coldReset_dbgStat s F.SEC_DBG_STAT_FAILS rfl (by decide)⟩
  · refine ⟨_, rfl, debugVerifyDone_sub hr, fun hk hsig hl => ?_, fun hk => ?_, fun hk hsig => ?_⟩
    · rw [debugVerifyDone_of_good hr hk hsig hl]
      exact ⟨getF_dbgGrant_granted hs (by omega), dbgState_dbgGrant s r.level, isSet_dbgGrant_unlocked s r.level⟩
    · rw [debugVerifyDone_of_wrong_key hr hk]
      exact denied_dbgFail s (by decide)
    · rw [debugVerifyDone_of_wrong_sig hr hk hsig]
      exact denied_dbgFail s (by decide)

end
